-- ==== Sys2Proof/Word.lean ====
section
/-! DEFINITION. Words of the G9256 and the plainest arithmetic on them. -/

namespace Sys2Proof

/-- One octet. -/
abbrev Byte := BitVec 8
/-- A 32-bit register word (mailbox registers, CRCs, stamps). -/
abbrev Word := BitVec 32
/-- A 64-bit register word (ACE registers). -/
abbrev DWord := BitVec 64

/-- The smallest value of an `n`-bit two's complement number. -/
def intMin (n : Nat) : Int := -(2 ^ (n - 1))
/-- The largest value of an `n`-bit two's complement number. -/
def intMax (n : Nat) : Int := 2 ^ (n - 1) - 1

/-- A sparse table from numbers to values: the first entry with a key is its value. -/
abbrev SMap (α : Type) := List (Nat × α)

end Sys2Proof
end

