-- ==== Sys2Proof/Machine/Axes.lean ====
section
/-! DEFINITION. State of axes, feedback, latch and compare units, masters and the dispatcher: the data types
(spec/07_axis_loops.md, 08_motion_generation.md, 09_feedback_and_compare.md, 11_dispatcher.md). -/

namespace Sys2Proof.Machine

/-- A value of an object: a number (F32 as its bit pattern, TOD80 as ns, BOOL as 0 or 1) or an octet string (R7). -/
inductive Val where
  | num (v : Int)
  | bytes (b : List Byte)
deriving DecidableEq, Repr

/-- Axis states (R187, Table 08-3). -/
inductive AxState where
  | disabled | arming | enabled | stopping | faulted
deriving DecidableEq, Repr

/-- Stop kinds, in rank order (R200, R201). -/
inductive StopKind where
  | ramp | quick | hard | brake
deriving DecidableEq, Repr

/-- What is asked of an axis and evaluated in its next node (R187): a CONTROL write with the word before it, or a machine stop of a level. -/
inductive Ask where
  | control (old new : Nat)
  | machine (level : Nat)
deriving DecidableEq, Repr

/-- Stop causes; COMMAND and MACHINE_STOP have one rank (R201). -/
inductive StopCause where
  | command | machineStop | disable | fault
deriving DecidableEq, Repr

/-- One segment of constant jerk (R197, R218): it starts at `t` ns and lasts `dur` ns; `x`, `v`, `a` and `j` are held
with 64 fraction bits of the machine unit (assumption log 10). -/
structure Seg where
  t : Nat
  dur : Nat
  x : Int
  v : Int
  a : Int
  j : Int
deriving DecidableEq, Repr

/-- A plan: its segments, the instant it ends and the state (2⁻³² units) that holds from then on. -/
structure Plan where
  segs : List Seg
  endAt : Nat
  xEnd : Int
  vEnd : Int
deriving DecidableEq, Repr

/-- A gear or cam coupling to a master (R194, R221, R225). -/
structure Coupling where
  /-- The entry offset c (SYNC_OFFSET). -/
  c : Int := 0
  /-- Gear position G, in 2⁻³² units. -/
  g : Int := 0
  /-- Remainder q of the gear in 1/`qs`, 0 ≤ q < den·qs; a ratio change re-bases it exactly through `qs` (R222). -/
  q : Int := 0
  qs : Int := 1
  num : Int := 1
  den : Int := 1
  /-- Master position of the previous run, in 2⁻³² units; none before the first run. -/
  mPrev : Option Int := none
  /-- Cam in use and the count n of whole cam cycles travelled since entry. -/
  cam : Nat := 0
  n : Int := 0
  /-- Master velocity of the previous run, for a_m of an ENCODER master (R219). -/
  vmPrev : Int := 0
  /-- The master was LOST at the previous run (R220). -/
  lost : Bool := false
deriving DecidableEq, Repr

/-- A ratio change armed or blending (R222, R223). `p` and `b` are P and B in 2⁻³² units; `dir` is the direction of the crossing,
`s` the signed travel past P, and `gp` / `gd` the exact gear position at P, in 2⁻³² units. -/
structure RatioChange where
  num : Int
  den : Int
  p : Int
  b : Int
  started : Bool := false
  dir : Int := 1
  s : Int := 0
  gp : Int := 0
  gd : Int := 1
deriving DecidableEq, Repr

/-- FOLLOW state (R175, R176). -/
structure FollowSt where
  /-- Filter output y with 64 fraction bits; none before the first run. -/
  y : Option Int := none
  last : Int := 0
  c : Int := 0
deriving DecidableEq, Repr

/-- Homing state (R212 to R216). -/
structure HomeSt where
  /-- 0 not homing, 1 clearing an active source, 2 search, 3 stop after the switch, 4 creep back, 5 index, 6 event known, 7 final stop, 8 reversing after a limit,
  9 edge seen, its latch event awaited. -/
  phase : Nat := 0
  t0 : Nat := 0
  /-- Direction of the search: +1 or −1. -/
  dir : Int := 1
  /-- Position of the event, in 2⁻³² units. -/
  edge : Int := 0
  reversed : Bool := false
  /-- The limit the homing has reversed at (positive or not), while its input stays active (R215). -/
  revLim : Option Bool := none
  /-- An index pulse counts from this instant on. -/
  since : Nat := 0
  /-- Extended position when the switch edge was seen, for the one-revolution bound of R216. -/
  from_ : Int := 0
  /-- The last latch sequence seen before the phase (R213). -/
  latchSeen : Nat := 0
deriving DecidableEq, Repr

/-- Motion state of an axis: state machine, stop, plan, coupling, homing, limits (R187 to R227). -/
structure MotSt where
  state : AxState := .disabled
  /-- ENABLE has been 0 at least once since the last fault reset (Table 08-1). -/
  enableSeen0 : Bool := true
  mode : Nat := 0
  stopKind : Option StopKind := none
  stopCause : Option StopCause := none
  stopStart : Nat := 0
  /-- Instant at which ARMING was entered (Table 08-1). -/
  armAt : Nat := 0
  stillSince : Option Nat := none
  plan : Option Plan := none
  /-- A soft limit has replaced the target of the move, or holds the set-point of a velocity plan or jog (R207). -/
  cut : Bool := false
  motionDone : Bool := false
  /-- Mode and instant of a pending entry (START_PENDING, R195). -/
  pend : Option (Nat × Nat) := none
  /-- Correction plan of δ (R194). -/
  corr : Option Plan := none
  cpl : Coupling := {}
  chg : Option RatioChange := none
  /-- A further arming that waits for a blend to complete (R223). -/
  chgNext : Option RatioChange := none
  /-- An armed cam switch: P and the next cam (R227). -/
  camSw : Option (Int × Nat) := none
  follow : FollowSt := {}
  home : HomeSt := {}
  jog : Int := 0
  /-- CONTROL writes and stop requests that no node has evaluated yet, oldest first (R187). -/
  asks : List Ask := []
  /-- Counts changes made by other commands than the axis's items. -/
  seq : Nat := 0
deriving DecidableEq, Repr

/-- Flags of an axis shown in STATE_WORD, and its limit latches (R189, R209 to R211). -/
structure AxFlags where
  limPos : Bool := false
  limNeg : Bool := false
  inPos : Bool := false
  inNeg : Bool := false
  posLost : Bool := false
  homed : Bool := false
  moveRefused : Bool := false
  blocked : Bool := false
  enBlocked : Bool := false
  inSync : Bool := false
  /-- The head has told the worker to stop on its own (R35, R38, R192). -/
  toldStop : Bool := false
  /-- The axis has reacted to UNDONE_RUN reaching OVERRUN_LIMIT and has completed no cycle since (R35). -/
  overran : Bool := false
  /-- CONTROL.ENABLE as sent to the worker channel or the LA port (R171, R190). -/
  power : Bool := false
deriving DecidableEq, Repr

/-- Loop state of an axis (R161 to R183). Torque values have 31 fraction bits, positions and velocities 32. -/
structure LoopSt where
  xref : Int := 0
  vref : Int := 0
  aref : Int := 0
  vp : Int := 0
  aff : Int := 0
  vcmd : Int := 0
  ulim : Int := 0
  uI : Int := 0
  df : Int := 0
  xdPrev : Option Int := none
  b1s1 : Int := 0
  b1s2 : Int := 0
  b1x : Int := 0
  b2s1 : Int := 0
  b2s2 : Int := 0
  b2x : Int := 0
  /-- Biquads whose states are set by R167 at the next velocity run. -/
  bqInit1 : Bool := false
  bqInit2 : Bool := false
  /-- A commit has changed the values in force of the velocity bank: u_I is clamped before the next velocity run (R168). -/
  rebank : Bool := false
  /-- Whistle of the last position run (R169). -/
  tPos : Nat := 0
  /-- An undone cycle has passed since the last velocity run (R172). -/
  late : Bool := false
  tpos : Int := 0
  tneg : Int := 0
deriving DecidableEq, Repr

/-- Current-loop state and supervision counts (R177 to R183). -/
structure CurSt where
  idref : Int := 0
  iqref : Int := 0
  uId : Int := 0
  uIq : Int := 0
  /-- Commanded voltage vector in the d-q frame and in the stationary frame. -/
  vd : Int := 0
  vq : Int := 0
  vAlpha : Int := 0
  vBeta : Int := 0
  theta : Nat := 0
  we : Int := 0
  feRun : Nat := 0
  /-- The present run of excesses has raised its fault (R182). -/
  feDone : Bool := false
  sumRun : Nat := 0
  /-- LOOP_FLAGS bits held from the last velocity run (R170). -/
  velFlags : Nat := 0
  overDeclaredAt : Option Nat := none
deriving DecidableEq, Repr

/-- Feedback state of an axis (R229 to R243). -/
structure FbSt where
  ext : Int := 0
  rawPrev : Nat := 0
  tPrev : Nat := 0
  /-- ext of the last valid sample. -/
  extValid : Int := 0
  /-- ext of the two preceding cycles. -/
  ext1 : Int := 0
  ext2 : Int := 0
  /-- A rebase is due at the first valid sample (R241); `firstBase` until the unit's first rebase. -/
  rebase : Bool := true
  firstBase : Bool := true
  hold : Nat := 0
  xact : Int := 0
  vact : Int := 0
  /-- Low-pass state of R164. -/
  vf : Int := 0
  tUsed : Nat := 0
deriving DecidableEq, Repr

/-- Values of the two preceding cycles for an undone axis (Table 02-8), newest first. -/
structure HistVal where
  xref : Int := 0
  vref : Int := 0
  aff : Int := 0
  vcmd : Int := 0
  torque : Int := 0
  vd : Int := 0
  vq : Int := 0
  theta : Nat := 0
  xact : Int := 0
  vact : Int := 0
  /-- The command sent in this cycle. -/
  cmd1 : Int := 0
  cmd2 : Int := 0
deriving DecidableEq, Repr

/-- What a completed cycle leaves to followers of the axis (R217): its whistle, x_act and v_act; the whistle of its last position run,
x_ref, v_ref and a_ref. -/
structure DoneVal where
  tw : Nat
  xact : Int
  vact : Int
  tPos : Nat
  xref : Int
  vref : Int
  aref : Int
deriving DecidableEq, Repr

/-- The state of one axis (the 4 KiB of live axis state of R11). -/
structure AxisRt where
  mot : MotSt := {}
  flags : AxFlags := {}
  loop : LoopSt := {}
  cur : CurSt := {}
  fb : FbSt := {}
  /-- User state areas of the axis, frame offsets 0x0E00–0x0FFF (R260, R278), in canonical form. -/
  user : List Host.Cell := []
  /-- Sum of the homing shifts of a step axis, which its port leaves out (R214, R313). -/
  stepShift : Int := 0
  /-- Values at the tuning nodes of Table 17-5, each of its last run (R416). -/
  nodes : SMap Int := []
  h1 : Option HistVal := none
  h2 : Option HistVal := none
  /-- The two last completed cycles, newest first (R217). -/
  done0 : Option DoneVal := none
  done1 : Option DoneVal := none
  /-- Cycle (of its ring) whose item is not yet completed or settled; the axis is undone at t_D when it is still set. -/
  waiting : Option Nat := none
  /-- Cause noted before t_D: 1 COMPUTE, 2 LATE_SAMPLE, 3 FRAME (R292). -/
  undoneWhy : Option Nat := none
  /-- Entries, as they stood, of the axis's objects that a commit has switched since its last completed cycle (R39). -/
  oldVals : SMap (Option Val) := []
deriving DecidableEq, Repr

/-- One edge of an incremental input: stamp (ns) and direction (R233). A direction of 0 stands for an illegal transition, which ends the run (R234). -/
structure EncEdge where
  t : Nat
  d : Int
  /-- Extended count after the edge. -/
  ext : Int
  /-- The edge starts a run (R244). -/
  first : Bool := false
deriving DecidableEq, Repr

/-- Quadrature side of a feedback unit: lines, counter, its last edges (newest first), illegal stamps (R232 to R235, R244). -/
structure QuadSt where
  a : Bool := false
  b : Bool := false
  z : Bool := false
  cnt : Nat := 0
  ext : Int := 0
  edges : List EncEdge := []
  illegal : List Nat := []
  illegalNow : Bool := false
  uncertain : Bool := false
  indexSeen : Bool := false
  /-- Sample of the last change of a level; A, B and Z all 1 after it, and at the end of the sample before it (INDEX_GATE 1, R235). -/
  levelAt : Nat := 0
  gate : Bool := false
  gateWas : Bool := false
  /-- Stamp and extended count of the last index event (R235). -/
  index : Option (Nat × Int) := none
  /-- The index event and INDEX_SEEN before an event of the present sample. -/
  indexWas : Option (Nat × Int) × Bool := (none, false)
  pendingEst : Bool := true
  /-- Input pairs or inputs that are reported open or shorted, one bit each (R236). -/
  wires : Nat := 0
  fault : Bool := false
deriving DecidableEq, Repr

/-- Sample of a whistle and absolute side of a feedback unit (R229, R237 to R239). -/
structure AbsSt where
  valid : Bool := false
  /-- The sample of the previous whistle was valid. -/
  valid1 : Bool := false
  /-- Raw count at the last and at the previous whistle, with their instants. -/
  raw0 : Nat := 0
  t0 : Nat := 0
  raw1 : Nat := 0
  t1 : Nat := 0
  /-- Speed estimate at either whistle, in 2⁻³² counts/s (R244). -/
  spd0 : Int := 0
  spd1 : Int := 0
  /-- Sample of the last whistle complete from this instant on. -/
  readyAt : Option Nat := some 0
  word : Nat := 0
  /-- The last valid word, for the JUMP check (R238). -/
  prevWord : Option Nat := none
  /-- A rebase word has been read since the last rebase event (R241), with the quadrature count and the instant of its request. -/
  haveWord : Bool := false
  wordRaw : Nat := 0
  wordT : Nat := 0
  badRun : Nat := 0
  errNow : Bool := false
  /-- A frame is requested: 0 none, 1 whistle sample, 2 rebase, 3 check. -/
  req : Nat := 0
  reqAt : Nat := 0
  /-- A check frame is due at the next whistle (R239). -/
  checkDue : Bool := false
  lastCheck : Nat := 0
  checkFault : Bool := false
  repeats : Nat := 0
deriving DecidableEq, Repr

/-- A feedback unit: ENC0–ENC7 are units 0–7, ME0–ME3 units 8–11. -/
structure FbUnit where
  quad : QuadSt := {}
  abs : AbsSt := {}
deriving DecidableEq, Repr

/-- One latch event (Table 09-8, EVENTS): stamp, count, fraction in 2⁻¹⁶ count, falling edge, sequence. -/
structure LatchEv where
  t : Nat
  cnt : Int
  frac : Nat
  falling : Bool
  seqNo : Nat
deriving DecidableEq, Repr

/-- A latch unit (R245 to R248): FIFO, events that are not yet available (with their instants), sequence. -/
structure LatchRt where
  fifo : List LatchEv := []
  waiting : List (Nat × LatchEv) := []
  seqNo : Nat := 0
  /-- The newest event that became available, for homing (R213). -/
  last : Option LatchEv := none
  total : Nat := 0
deriving DecidableEq, Repr

/-- A committed hit of a compare unit (R251, R254): the instant it fires, its hit time t_h, the LATE and MERGED marks, its compare value, whether
it has been counted in UNREACHED, and the arming whose single hit it is (PITCH 0). -/
structure CmpHit where
  t : Nat
  th : Nat
  late : Bool
  merged : Bool
  cv : Int
  unreached : Bool := false
  single : Option Nat := none
deriving DecidableEq, Repr

/-- A compare unit (R249 to R255). `cv` is the compare value that is not yet committed, in 2⁻³² count. -/
structure CmpRt where
  cv : Int := 0
  /-- Committed hits that have not fired, in order. -/
  committed : List CmpHit := []
  /-- Counts the writes of ARM; the single hit of this arming is committed (PITCH 0, R249). -/
  arming : Nat := 0
  shot : Bool := false
  /-- A CORRECTION to add at the next edge (R252). -/
  corr : Int := 0
  /-- Bring CV ahead at the next valid edge, after FAULT cleared (R255). -/
  rearm : Bool := false
  /-- End of the last pulse planned, and whether the output is in its pulse (R254). -/
  pulseEnd : Nat := 0
  level : Bool := false
deriving DecidableEq, Repr

/-- A master M0–M7 (R217 to R220). -/
structure MasterRt where
  pieces : List Seg := []
  /-- Instant and planned end state after the last piece (velocity constant from then on): the position with 64 fraction bits, the
  velocity with 32. -/
  tailT : Nat := 0
  tailX : Int := 0
  tailV : Int := 0
  /-- A replan is due at this instant towards this velocity with this acceleration and jerk. -/
  replan : Option (Nat × Int × Int × Int) := none
  /-- A machine stop has brought the master to rest; it stays there until a later commit changes VM_VELOCITY (R206). -/
  stopped : Bool := false
  /-- The piece table covers machine time up to here (R218). -/
  tableTo : Nat := 0
deriving DecidableEq, Repr

/-- An item of the dispatcher (R281 to R283). `ring` is 0–3, 4 for local-port axes and timed nodes. -/
structure Item where
  prio : Nat
  flow : Nat
  ring : Nat
  cycle : Nat
  tw : Nat
  ready : Nat
  mask : Nat
  num : Nat := 0
  /-- Posted when this flow's item of the same whistle completes. -/
  after : Option Nat := none
deriving DecidableEq, Repr

/-- What an axis item computed, written back when it completes (R259, R281): the axis state, object writes, flags. -/
structure ItemResult where
  ax : AxisRt
  writes : List (Nat × Int)
  /-- Events reported: rule, axis, detail. -/
  evs : List (Nat × Nat × Nat)
  /-- The step output of the axis's port is halted (R204). -/
  halt : Bool
deriving DecidableEq, Repr

/-- A run in progress on an engine. -/
structure RunRt where
  item : Item
  start : Nat
  declared : Nat
  /-- The axis as it stood when the frame was filled. -/
  before : AxisRt
  result : Option ItemResult
deriving DecidableEq, Repr

/-- Per-engine figures of the current cycle and the run in progress (R289, R295). -/
structure EngRt where
  run : Option RunRt := none
  busy : Nat := 0
  svcBusy : Nat := 0
  items : Nat := 0
  waitSum : Nat := 0
  waitN : Nat := 0
  lastEnd : Nat := 0
  freeFrom : Option Nat := none
deriving DecidableEq, Repr

/-- The dispatcher: ready items of all lists and held triggers, oldest first (R290). -/
structure DispRt where
  ready : List Item := []
  held : List Item := []
  /-- Completion-triggered items waiting for their predecessor. -/
  chained : List Item := []
  /-- SERVICE and BACKGROUND items voided at t_D, posted again at the start of the next free window (R286). -/
  again : List Item := []
deriving DecidableEq, Repr

end Sys2Proof.Machine
end

