-- ==== Sys2Proof/Machine/HostState.lean ====
section
/-! DEFINITION. State of host sessions, possession and the PCIe window: the data types (spec/06_host_access.md). -/

namespace Sys2Proof.Machine

/-- The way a request came and its reply goes (R132): transport (0 H1, 1 H2, 2 to 5 PCIe channels), whether the unit's own address, UDP port of the unit,
the peer ([47:16] IPv4 address, [15:0] UDP port; 0 over PCIe). -/
structure Path where
  via : Nat := 0
  own : Bool := false
  port : Nat := 40917
  peer : Nat := 0
deriving DecidableEq, Repr

/-- A request kept in a session's window (R138): its number, opcode and, once done, the status and body of its reply. -/
structure ReqRt where
  seqNo : Nat
  op : Nat
  reply : Option (Nat × List Byte) := none
deriving DecidableEq, Repr

/-- A subscription (R140, R141): its objects by index and subindex, the period in snapshots, and the snapshots until its next
notification. -/
structure SubRt where
  id : Nat
  period : Nat
  names : List (Nat × Nat)
  left : Nat := 1
deriving DecidableEq, Repr

/-- An open session beside its objects: the OPEN that made it and its instant, its token, whether it belongs to the unit alone (R152), H and the window
of R138, its subscriptions. -/
structure SessRt where
  nonce : Nat := 0
  token : Nat := 0
  own : Bool := false
  opened : List Byte := []
  openedAt : Nat := 0
  h : Nat := 0
  win : List ReqRt := []
  subs : List SubRt := []
deriving DecidableEq, Repr

/-- A PCIe channel (Table 06-8): its buffers and registers, the replies that wait and the notification held. -/
structure ChanRt where
  req : List Host.Cell := []
  ctrl : Nat := 0
  status : Nat := 0
  notify : Nat := 0
  reply : List Byte := []
  note : List Byte := []
  queue : List (List Byte) := []
  held : Option (List Byte) := none
deriving DecidableEq, Repr

/-- Host access: sessions, channels, the instant the ball became loose and the receipt of the first claim pending while it is (R147), on a standby whether
CAPTAIN is a session of the active unit's own (R152),
instants of the gratuitous ARPs still to send (R151). -/
structure HostRt where
  sess : SMap SessRt := []
  chans : SMap ChanRt := []
  looseAt : Nat := 0
  firstClaim : Option Nat := none
  away : Bool := false
  arpAt : List Nat := []
deriving DecidableEq, Repr

end Sys2Proof.Machine
end

