-- ==== Sys2Proof/Machine/Rings.lean ====
section
/-! DEFINITION. State of the machine cycle, the rings, kickoff, huddle, commit and stored configuration: the data types
(spec/02_machine_cycle.md, 03_sahx_ring.md, 05_object_dictionary.md). -/

namespace Sys2Proof.Machine

/-- A service slot (Table 03-9): the fields the head writes, or the answer as returned. -/
structure SvcSlot where
  typ : Nat := 0
  dest : Nat := 0
  tag : Nat := 0
  frag : Nat := 0
  fragCount : Nat := 0
  len : Nat := 0
  status : Nat := 0
  applyCycle : Nat := 0
  payload : List Byte := []
deriving DecidableEq, Repr

/-- One worker's part of an emitted frame: down header bits, command data, safety sub-frame (Table 03-4). -/
structure DownSlot where
  pos : Nat
  cmdValid : Bool
  qstopReq : Bool
  clearFault : Bool
  cmd : List Byte
  safety : List Byte
  /-- Bytes of sample data u, which the worker writes. -/
  up : Nat
deriving DecidableEq, Repr

/-- An emitted rally frame (Tables 03-1 to 03-5). -/
structure RallyFrame where
  ring : Nat
  sched : Nat
  huddleTarget : Nat
  /-- FLAGS of Table 03-3 as the head writes them. -/
  flags : Nat
  cycle : Nat
  whistle : Nat
  length : Nat
  commitTag : Nat
  sender : Nat
  huddleCycle : Nat
  slots : List DownSlot
  svc : List SvcSlot
deriving DecidableEq, Repr

/-- The clock of a worker as the head measures it (R85 to R93). Times are in 2⁻¹⁶ ns, asymmetries in ps. -/
structure WkClk where
  /-- LOOP, RES_FWD, RES_RET, UP_ASYM and DOWN_ASYM of the last measurement. -/
  loop : Int := 0
  fwd : Int := 0
  ret : Int := 0
  up : Int := 0
  down : Int := 0
  /-- Alignment: sums of d_p and RES_FWD over the frames taken, their number, good e_p in a row after the SET. -/
  sumD : Int := 0
  sumF : Int := 0
  n : Nat := 0
  stepped : Bool := false
  good : Nat := 0
  /-- CYCLE of the frame that carried the last SET. -/
  setIn : Nat := 0
  /-- Values of RES_FWD measured last, newest first: at most sixteen, whose mean is shown (Table 04-8). -/
  fwds : List Int := []
  /-- Averaged d_p (or last), last values of e_p, newest first. -/
  d : Int := 0
  errs : List Int := []
  /-- Consecutive measurements with |e_p| within half of OFFSIDE_LIMIT. -/
  near : Nat := 0
  /-- t_W of REF_CYCLE of the last result, and t_W of the cycle of the last DELAY slot sent. -/
  ref : Nat := 0
  sentAt : Nat := 0
  /-- CLOCK_STATE and TIME_HOLD as last reported. -/
  state : Nat := 0
  hold : Bool := false
deriving DecidableEq, Repr

/-- What the head keeps of a worker beside its objects. -/
structure WorkerRt where
  /-- Last landed up header (Table 03-6), sample data and safety answer; the cycle and instant they landed. -/
  up : Nat := 0
  data : List Byte := []
  safety : List Byte := []
  landedCycle : Option Nat := none
  landedAt : Nat := 0
  /-- The schedule whose layout the landed data have. -/
  landedSched : Nat := 0
  /-- Data, cycle and schedule of the landing before: those of a missing frame are discarded (R36). -/
  before : List Byte × Option Nat × Nat := ([], none, 0)
  /-- QSTOP_REQ latched (R35, R38). -/
  qstop : Bool := false
  /-- The worker holds a position after roll-call and serves its slot. -/
  admitted : Bool := false
  /-- Admitted as a substitute (R71). -/
  sub : Bool := false
  /-- PARAM_NOW download at kickoff or rejoin: next fragment, done. -/
  dlFrag : Nat := 0
  dlDone : Bool := false
  /-- Tag expected in PARAM_TAG after a confirmed commit, and the cycle from which it is expected (R63). -/
  expectTag : Option (Nat × Nat) := none
  clk : WkClk := {}
deriving DecidableEq, Repr

/-- What the head keeps of a ring beside its objects. -/
structure RingRt where
  /-- Transmitter on (R66), receive port synchronised (R75), instant of the loss. -/
  txOn : Bool := false
  syncLost : Option Nat := none
  /-- Instant and number of the last whistle. -/
  tw : Nat := 0
  cycle : Nat := 0
  /-- Cycle length in ns and schedule of the cycle in progress, and whether its t_D is still to come. -/
  tc : Nat := 0
  sc : Nat := 0
  open_ : Bool := false
  /-- No frame leaves before this instant: a unit has just begun to send on the ring (R378, R381, R385). -/
  txFrom : Nat := 0
  /-- The last emitted frame, its emission instant, and whether it returned valid. -/
  tx : Option RallyFrame := none
  txAt : Nat := 0
  returned : Bool := false
  /-- The ring's last frame returned valid (Table 08-4, FRAME). -/
  lastOk : Bool := false
  missRun : Nat := 0
  /-- Kickoff: t_K, t_L, t_P, t_H, roll-call tries, first ANNOUNCE, HOPS matched (Table 03-15). -/
  tK : Nat := 0
  tL : Nat := 0
  tP : Nat := 0
  tH : Nat := 0
  tries : Nat := 0
  firstAnnounce : Option Nat := none
  anyReturned : Bool := false
  alignDone : Bool := false
  /-- Kickoff huddle: c*, announcing frames landed, attended and acknowledged positions. -/
  kCstar : Nat := 0
  /-- Start of the kickoff cycle in progress. -/
  kTw : Nat := 0
  kLanded : Bool := false
  kAttend : Nat := 0
  kAck : Nat := 0
  kDecided : Nat := 0
  /-- Let: end of the backoff, last frame of the winner (R72). -/
  backoffEnd : Option Nat := none
  winnerAt : Nat := 0
  /-- LOOPBACK_AT non-zero since (R76); position under rejoin. -/
  loopSince : Option Nat := none
  rejoinPos : Nat := 0
  /-- A missing frame has been recorded for the current cycle (R36). -/
  lost : Bool := false
  /-- CYCLE, emission instant and head round trip H − E (2⁻¹⁶ ns) of the previous returned frame (R86). -/
  stamp : Option (Nat × Nat × Int) := none
  /-- Stamps of the frame in flight once it has returned; they become `stamp` with the next emission. -/
  stampNew : Option (Nat × Nat × Int) := none
  /-- Delay measurement: position measured next, instant of the last DELAY slot, REF_CYCLE named in it. -/
  delayNext : Nat := 1
  delayAt : Nat := 0
  /-- CYCLE and T_FI in 2⁻¹⁶ ns of the last eight frames received as the far end, newest first (R85, R95). -/
  turned : List (Nat × Nat) := []
  /-- The last computed deadline: instant of its whistle. -/
  settled : Option Nat := none
  /-- Values of the ring's axes at its last t_D (R121). -/
  view : SMap Val := []
  /-- Entries, as they stood, of the objects that the ring's whistle has switched since its last t_D: snapshots show them until then (R124). -/
  hidden : SMap (Option Val) := []
  /-- Entries of the head's common objects as the ring's nodes read them, between its own whistle and that of LOCAL_RING at an apply instant (R14, R119). -/
  overlay : SMap (Option Val) := []
  viewCycle : Nat := 0
  /-- SEQ of the frame before the one in flight, where its WHISTLE is the whistle of this one: the ECHO expected (R45, R348). -/
  echo : Option Nat := none
  /-- The two halves of the receive buffer, from Sahx offset 0 and at most 9 216 bytes each; the second is the one in use (R58, R291). -/
  rx0 : List Byte := []
  rx1 : List Byte := []
  half : Bool := false
  /-- A0h page of the module in the port's cage, as last read over its two-wire bus; empty without a module (R48, assumption log 171). -/
  cage : List Byte := []
  /-- Requests for worker diagnostic objects, oldest first: position, index, subindex; whether the first has been sent as a READ; answers, newest first:
  position and REPLY payload (R64, Table 03-10). -/
  reads : List (Nat × Nat × Nat) := []
  readSent : Bool := false
  replies : List (Nat × List Byte) := []
  /-- Frames of the current cycle that the partner has turned or that arrived at a far end: instant of the last (R377, R381). -/
  seenAt : Option Nat := none
deriving DecidableEq, Repr

/-- A huddle (R41 to R44, R459). -/
structure HuddleRt where
  active : Bool := false
  mask : Nat := 0
  targets : List Nat := []
  cstar : Nat := 0
  /-- H_r per ring. -/
  hr : List Nat := []
  tJ : Nat := 0
  announcedAt : Nat := 0
  landed : Nat := 0
  attend : List Nat := [0, 0, 0, 0]
  ack : List Nat := [0, 0, 0, 0]
  /-- 0 undecided, 1 confirmed, 2 cancelled. -/
  decided : Nat := 0
  switched : Nat := 0
  published : Nat := 0
deriving DecidableEq, Repr

/-- The redundant pair beside its objects (R367 to R386). -/
structure PairRt where
  /-- Start-up ended its configuration step at this instant (R369). -/
  since : Nat := 0
  /-- HELLO of the partner: SERIAL, PAIR_PRIORITY, UNIT_END. -/
  partner : Option (Nat × Nat × Nat) := none
  /-- A role request raised by the active unit and not yet sent: 1 UNIT, 2 referee, 3 missing frames (Table 15-4). -/
  want : Nat := 0
  yieldIn : Bool := false
  yieldOut : Bool := false
  /-- Pairing step of Table 15-1 to complete next; 0 none. -/
  step : Nat := 0
  /-- Digest records of each ring and cycle: own and the partner's (ring, cycle, bytes 0 to 27). -/
  mine : List (Nat × Nat × List Byte) := []
  theirs : List (Nat × Nat × List Byte) := []
  /-- Consecutive agreeing digests per ring; ring and cycle of the last agreeing comparison while IN_STEP. -/
  agree : List Nat := [0, 0, 0, 0]
  agreedAt : Option (Nat × Nat) := none
  /-- Axes whose live state is still to be installed. -/
  resync : List Nat := []
  /-- Operating times of COMPUTE divergences. -/
  diverged : List Nat := []
  benchLost : Option Nat := none
  /-- Instant of the last EMIT record per ring. -/
  emitAt : List (Option Nat) := [none, none, none, none]
  /-- A swap of roles that is announced or whose first frames are being judged; this unit was active before. -/
  drill : Option (Nat × Bool) := none
  /-- Instant at which the rejoin of a healing split ring starts (R384), per ring. -/
  healAt : List (Option Nat) := [none, none, none, none]
  /-- Field inputs and their validity of the active unit at the last whistle of LOCAL_RING (R372). -/
  inputs : Nat × Nat := (0, 0)
  /-- Path commands of the active unit's local brakes, A in bits 7:0 and B in bits 15:8, and the instant from which they stand (R379). -/
  brakes : Nat × Nat := (0, 0)
  /-- BENCH_ALIGN_STATE and whether the island and the barrier link allow a take-over: as this standby has told them last, and as the active unit
  knows them of its standby (R376, assumption log 185). -/
  told : Nat × Bool := (0, false)
  peer : Nat × Bool := (0, false)
  /-- Number of the last MIRROR record; replies that wait for a record's acknowledgement; statuses of single writes that wait
  likewise; the record of a CONFIRM decision that is not yet acknowledged (R150, R373, R380). -/
  mirrorNo : Nat := 0
  held : List (Nat × Path × List Byte) := []
  lone : List (Nat × Nat) := []
  confirmWait : Option Nat := none
deriving DecidableEq, Repr

/-- One entry of the staged copy (R106, R107, R111). -/
structure Staged where
  key : Nat
  val : Val
  /-- Declared total of a partial segmented value. -/
  total : Option Nat := none
  /-- Number of the safety session it was written in. -/
  safety : Option Nat := none
deriving DecidableEq, Repr

/-- A worker parameter block in delivery (R60 to R62). -/
structure ParamBlock where
  ring : Nat
  pos : Nat
  bytes : List Byte
  sent : Nat := 0
  lastFrame : Nat := 0
  complete : Bool := false
deriving DecidableEq, Repr

/-- A commit in progress (R112 to R120). `phase`: 0 none, 1 validated and waiting for admission, 2 delivering, 3 confirmed,
4 applying, 5 applied and waiting for its reply. -/
structure CommitRt where
  phase : Nat := 0
  viaObject : Bool := false
  startup : Bool := false
  /-- The session that sent it, its token, the request's number, and the way it came. -/
  sess : Nat := 0
  token : Nat := 0
  seqNo : Nat := 0
  path : Path := {}
  tQ : Nat := 0
  /-- Pacing ring at admission with its cycle length and whistle offset in ns, cycle c, m, the apply instant A, the tag. -/
  pacing : Nat := 0
  tp : Nat := 0
  wp : Nat := 0
  c : Nat := 0
  m : Nat := 0
  applyAt : Nat := 0
  tag : Nat := 0
  entries : List Staged := []
  blocks : List ParamBlock := []
  /-- Shares that are still to apply: ring 0–3 or 4 for the local units, A, the commit's entries of that share (R115). -/
  owed : List (Nat × Nat × List Staged) := []
  /-- What frames tell of a decision (R117): tag, apply instant, cycle length of the pacing ring in ns, CONFIRM. -/
  tell : Option (Nat × Nat × Nat × Bool) := none
  /-- The staged copy is emptied once the outcome is known (R108). -/
  discardAfter : Bool := false
deriving DecidableEq, Repr

/-- A published snapshot (R121, R122). -/
structure Snapshot where
  id : Nat
  time : Nat
  cycles : List Nat
  values : SMap Val
deriving DecidableEq, Repr

/-- A stored image in an MRAM bank (R126, R127): its header (Table 05-7) and its records, with the CRC-32 of the octets these fill; empty where nothing valid
has been written. -/
structure StoredImage where
  header : List Byte := []
  records : SMap Val := []
  recordCrc : Nat := 0
  /-- CRC of the safety section (R362). -/
  safetyCrc : Nat := 0
deriving DecidableEq, Repr

/-- Stored configuration (R125 to R129). -/
structure StoreRt where
  bank0 : StoredImage := {}
  bank1 : StoredImage := {}
  /-- A save in progress: its start, its bank, the image. -/
  saving : Option (Nat × Nat × StoredImage) := none
  erase : Bool := false
  faultHistory : List (Nat × Nat) := []
deriving DecidableEq, Repr

end Sys2Proof.Machine
end

