-- ==== Sys2Proof/Syntax.lean ====
section
/-! DEFINITION. The commands of the block: one constructor per row of the opcode table, with its operands. -/

namespace Sys2Proof

/-- Where an ACE operation stands (R263): engine, predicate number PR and negation PN, and whether it is the last operation of
its bundle. The operations of one bundle are commands in a row; the last one issues the bundle. -/
structure AceAt where
  eng : Nat
  pr : Nat := 0
  pn : Bool := false
  last : Bool := true
deriving DecidableEq, Repr

/-- A signing key of the boot ROM (R426): the public key in the flash, and what was fused for its slot at manufacture: the SHA-256 of the key, and
whether the slot is revoked. -/
structure BootKey where
  slot : Nat
  x : Nat
  y : Nat
  hash : List Byte
  revoked : Bool := false
deriving DecidableEq, Repr

/-- A Linli request as it reaches the unit (Table 06-1): the way it came, and SESSION, SEQUENCE, TOKEN and the body of the message. -/
structure Req extends Machine.Path where
  sess : Nat := 0
  seqNo : Nat := 0
  token : Nat := 0
  body : List Byte := []
deriving DecidableEq, Repr

/-- What a MIRROR record holds (Table 15-2, R150, R371, R372). -/
inductive Mirror where
  /-- Session `k`, with the values of its objects. -/
  | session (k : Nat) (x : Machine.SessRt) (objs : SMap Machine.Val)
  /-- Possession: whether a session of the active unit's own holds it, the cause of a change (Table 06-6), `looseAt` and `firstClaim`, the values of 0x1100. -/
  | possession (away : Bool) (cause looseAt : Nat) (first : Option Nat) (objs : SMap Machine.Val)
  /-- The staged copy. -/
  | staged (l : List Machine.Staged)
  /-- A commit with its tag, c, m and decision. -/
  | commit (k : Machine.CommitRt)
  /-- The pieces of virtual master `k`. -/
  | pieces (k : Nat) (m : Machine.MasterRt)
  /-- Placements of cam segments and dispatcher descriptors. -/
  | placement (objs : SMap Machine.Val)
  /-- The segment table of ring `r` (R95): forward delay of segment `g` and forward residence of position `p`, in 2⁻¹⁶ ns. -/
  | segment (r g : Nat) (d : Int) (p : Nat) (fwd : Int)
deriving DecidableEq, Repr


/-- The commands of the G9256 (spec/opcode_table.json). Compiled code can build only the first 245 of them, so the rows of the pair, of PTP and a few rare events stand last. -/
inductive Instr where
  /-- WHISTLE (R21): At the whistle of a ring cycle, workers, local ports, feedback units and the field die sample and latch, and a commit due at that whistle takes effect. -/
  | whistle (r : Nat) (sd : List (Nat × List Bool)) (t : Nat)
  /-- FRAME_EMISSION (R23): At t_E the head starts to send the rally frame of the cycle on a ring, with commands, service slot, huddle and commit flags and safety sub-frames. -/
  | frameEmission (r t : Nat)
  /-- SAMPLE_REGION_LANDED (R283): A worker's sample region lands in shared SRAM, and the items of its axes are posted within T_land unless back-pressure holds them. -/
  | sampleRegionLanded (r p : Nat) (att : Bool) (slot : List Byte) (t : Nat)
  /-- FRAME_RETURNED (R36): A returned rally frame is checked for completeness, FCS, length and cycle number, and its attendance, loopback, service-slot answers and worker headers are handled. -/
  | frameReturned (r fcs : Nat) (loop : Int) (b : List Byte) (t : Nat)
  /-- COMPUTE_DEADLINE (R31): At t_D the dispatcher voids and cancels the items of the cycle, undone axes are settled, and the scoreboard is published. -/
  | computeDeadline (r t : Nat)
  /-- OVERRUN (R35): UNDONE_RUN reaching OVERRUN_LIMIT makes the axis react with QSTOP, and a further undone cycle tells the worker to stop or makes a local axis react with HSTOP. -/
  | overrun (a t : Nat)
  /-- FRAME_MISSING_LIMIT (R38): FRAME_MISSING_LIMIT consecutive missing frames of a ring make all its axes react with QSTOP executed by the workers, or trigger a switch-over in a pair. -/
  | frameMissingLimit (r t : Nat)
  /-- GO (R42): The captain's GO checks a huddle request, chooses the switch time c* and announces the huddle, or refuses it. -/
  | huddleGo (t : Nat)
  /-- HUDDLE_DECISION (R459): At t_J the rings involved are decided jointly from the acknowledgements landed, and the huddle is confirmed or cancelled. -/
  | huddleDecision (t : Nat)
  /-- HUDDLE_SWITCH (R45): At c* the new schedule governs the ring, with its whistle offset and cycle numbers counted in the new cycle length. -/
  | huddleSwitch (r t : Nat)
  /-- CLEAR_COUNTS (R46): Writing 1 clears the undone and missing-frame counters of 0x3103. -/
  | clearCounts (t : Nat)
  /-- KICKOFF (R66): KICKOFF starts the kickoff of a ring from DARK or FAILED, turning the transmitter on and checking the SFP module. -/
  | kickoff (r : Nat) (id : List Byte) (t : Nat)
  /-- KICKOFF_FRAME_TICK (R66): Every 250 µs during kickoff the head sends a kickoff or HUDDLE-phase frame with the CLAIM, IDENT, DELAY or PARAM_NOW slots of its state. -/
  | kickoffFrameTick (r t : Nat)
  /-- KICKOFF_FRAME_RETURNED (R66): A returned kickoff frame advances the ring through LINK, ROLLCALL and ALIGN from its HOPS, IDENT, DELAY and PARAM_NOW answers. -/
  | kickoffFrameReturned (r fcs : Nat) (loop : Int) (b : List Byte) (t : Nat)
  /-- KICKOFF_LINK_TIMEOUT (R66): No matching HOPS by 30 ms, or no correct roll-call frame after four tries, fails kickoff with NO_LINK or COUNT_MISMATCH. -/
  | kickoffLinkTimeout (r t : Nat)
  /-- ALIGN_TIMEOUT (R88): Alignment not complete 100 ms after ROLLCALL ends fails kickoff with ALIGN_TIMEOUT. -/
  | alignTimeout (r t : Nat)
  /-- HUDDLE_TIMEOUT (R66): A kickoff huddle cancelled 4 ms or more after its first ANNOUNCE fails kickoff with HUDDLE_TIMEOUT, otherwise it is announced afresh. -/
  | huddleTimeout (r t : Nat)
  /-- KICKOFF_COLLISION (R72): A kickoff frame from the other end is compared by claim, and the loser stops sending, terminates the winner's frames and sets STATE YIELDED. -/
  | kickoffCollision (r sender prio serial t : Nat)
  /-- LET (R72): At the end of the loser's backoff, with no frame from the winner in the last 1 ms, the kickoff is replayed from LINK. -/
  | kickoffLet (r t : Nat)
  /-- RING_STOP (R66): STOP turns the port's transmitter off and returns the ring to DARK, faulting its non-disabled axes. -/
  | ringStop (r t : Nat)
  /-- REJOIN (R76): REJOIN starts the return of the workers beyond a loopback through REJOIN, IDENT, DELAY and PARAM_NOW slots, or is refused. -/
  | rejoin (r t : Nat)
  /-- PORT_SYNC_LOSS (R75): Loss of PCS synchronisation at the head's receive port makes every frame of the ring missing while the port keeps transmitting. -/
  | portSyncLoss (r t : Nat)
  /-- PORT_SYNC_REGAINED (R75): Synchronisation returning within 100 ms lets frames be used again from the first valid one. -/
  | portSyncRegained (r t : Nat)
  /-- PORT_SYNC_TIMEOUT (R75): Synchronisation not back 100 ms after its loss sends the ring to FAILED with NO_LINK and turns its transmitter off. -/
  | portSyncTimeout (r t : Nat)
  /-- TURN_ROUND (R18): A rally frame arriving at a far-end unit is copied region by region and turned back after T_end. -/
  | turnRound (r fcs frac : Nat) (b : List Byte) (t : Nat)
  /-- COMMIT (R112): The Linli COMMIT validates the staged copy in the steps of Table 05-4 and is answered at its outcome. -/
  | commitMsg (q : Req) (t : Nat)
  /-- COMMIT_OBJECT (R112): A write of 1 to COMMIT starts a commit and is answered at once with the status of steps 1 and 2, the outcome being left in LAST_RESULT. -/
  | commitObject (sess t : Nat)
  /-- COMMIT_ADMISSION (R114): At the first t_D after validation ends the commit is admitted, its tag assigned and m chosen. -/
  | commitAdmission (t : Nat)
  /-- COMMIT_DECISION (R117): At t_D of pacing cycle m−3 every worker block is checked for COMPLETE, and the commit is confirmed or rejected on every ring. -/
  | commitDecision (t : Nat)
  /-- COMMIT_APPLY (R119): At the apply instant A each affected item switches halves in one step, and the new values govern every node for whistle m or later. -/
  | commitApply (r t : Nat)
  /-- COMMIT_REPLY (R120): At t_D of the LOCAL_RING cycle starting at A, the reply OK is sent, COMMIT_COUNT incremented and the staged copy emptied. -/
  | commitReply (t : Nat)
  /-- DISCARD (R108): DISCARD empties the staged copy. -/
  | discard (t : Nat)
  /-- SAVE (R126): SAVE starts writing a stored image of the in-force configuration to the bank without the newest valid image. -/
  | saveConfig (t : Nat)
  /-- SAVE_COMPLETE (R126): A save ends with read-back verification as DONE or FAILED, recording SAVE_TIME and SAVE_SIZE. -/
  | saveComplete (verified : Bool) (t : Nat)
  /-- ERASE_STORED (R129): ERASE_STORED marks both configuration banks invalid from the next reset. -/
  | eraseStored (t : Nat)
  /-- OPEN (R142): OPEN creates a session with the lowest free id, a lease and a random token. -/
  | hostOpen (q : Req) (t : Nat)
  /-- CLOSE (R144): CLOSE ends a session, dropping its claim and subscriptions and loosing the ball if it was captain. -/
  | hostClose (q : Req) (t : Nat)
  /-- READ (R123): READ returns up to 256 objects from one named retained snapshot. -/
  | hostRead (q : Req) (t : Nat)
  /-- WRITE (R136): WRITE carries out its entries in order, each checked and staged or applied under its access code. -/
  | hostWrite (q : Req) (t : Nat)
  /-- CLAIM (R146): The Linli CLAIM sets or withdraws the session's claim for possession and its claim time. -/
  | hostClaim (q : Req) (t : Nat)
  /-- CLAIM_OBJECT (R146): A write of the CLAIM object sets or withdraws the writer's claim with the time of the write. -/
  | claimObject (sess v t : Nat)
  /-- PASS (R148): PASS gives possession to the target session at once, or is refused. -/
  | hostPass (q : Req) (t : Nat)
  /-- RELEASE (R148): RELEASE makes the ball loose. -/
  | hostRelease (q : Req) (t : Nat)
  /-- SUBSCRIBE (R140): SUBSCRIBE creates, replaces or cancels a subscription, or refuses it. -/
  | hostSubscribe (q : Req) (t : Nat)
  /-- LEASE_RENEW (R143): A write to LEASE_RENEW renews the writing session's lease. -/
  | leaseRenew (sess v t : Nat)
  /-- LEASE_EXPIRY (R144): A session whose last renewal is older than its lease is closed at t_D, loosing the ball and emptying the staged copy if it was captain. -/
  | leaseExpiry (t : Nat)
  /-- ELECTION (R147): At the first t_D after ELECTION_HOLD with the ball loose, possession goes to the highest-priority, earliest claim. -/
  | election (t : Nat)
  /-- BAD_MSG (R133): A datagram with wrong MAGIC, VERSION, LENGTH or REPLY flag is discarded without reply and BAD_MSG incremented. -/
  | badMsg (p : Machine.Path) (intact : Bool) (b : List Byte) (t : Nat)
  /-- CH_CTRL_GO (R154): Setting GO of a PCIe channel hands the request buffer to the G9256, or sets LEN_ERR for a bad REQ_LEN. -/
  | chCtrlGo (c len t : Nat)
  /-- REPLY_READY_CLEAR (R154): Clearing REPLY_READY frees the reply buffer for the next queued reply. -/
  | replyReadyClear (c t : Nat)
  /-- NOTIFY_READY_CLEAR (R154): Clearing NOTIFY_READY frees the notify buffer for the next notification. -/
  | notifyReadyClear (c t : Nat)
  /-- REGISTER_WRITE (R388): A write to a PCIe or mailbox register without behaviour of its own stores the value. -/
  | registerWrite (x off : Nat) (w : Word) (t : Nat)
  /-- TIMER_TRIGGER (R283): A timer trigger posts the item of a local-port axis or timed node at its offset from the whistle. -/
  | timerTrigger (flow prio : Nat) (after : Option Nat) (t : Nat)
  /-- ITEM_DISPATCH (R285): A free engine takes the first eligible ready item and runs its nodes back to back on a filled frame. -/
  | itemDispatch (e t : Nat)
  /-- ITEM_COMPLETE (R281): An item's YIELD retires, its frame is written back, its store buffer released and successors posted. -/
  | itemComplete (e t : Nat)
  /-- FOLLOWING_ERROR (R182): |e_x| above FE_LIMIT in FE_TIME consecutive position runs sets FE_FAULT and takes FE_REACTION. -/
  | followingError (a t : Nat)
  /-- CURRENT_SUM (R180): A phase-current sum above SUM_LIMIT in 4 consecutive cycles sets CURRENT_SUM and takes SUM_REACTION. -/
  | currentSum (a t : Nat)
  /-- ENABLE (R187): A change of CONTROL.ENABLE arms a DISABLED axis or starts the DISABLE_STOP of a running one. -/
  | axisEnable (a : Nat) (on : Bool) (t : Nat)
  /-- STOP (R201): A rising edge of CONTROL.STOP starts a RAMP_STOP with cause COMMAND. -/
  | axisStop (a t : Nat)
  /-- QSTOP (R201): A rising edge of CONTROL.QSTOP starts a QUICK_STOP with cause COMMAND. -/
  | axisQstop (a t : Nat)
  /-- HSTOP (R201): A rising edge of CONTROL.HSTOP starts a HARD_STOP with cause COMMAND. -/
  | axisHstop (a t : Nat)
  /-- FAULT_RESET (R191): A rising edge of FAULT_RESET clears the faults of a FAULTED axis whose reset conditions are met and makes it DISABLED. -/
  | faultReset (a t : Nat)
  /-- JOG_POS (R199): JOG_POS set or cleared starts a positive jog or its return to HOLD. -/
  | jogPos (a : Nat) (on : Bool) (t : Nat)
  /-- JOG_NEG (R199): JOG_NEG set or cleared starts a negative jog or its return to HOLD. -/
  | jogNeg (a : Nat) (on : Bool) (t : Nat)
  /-- ARM_DELAY (R190): ARM_DELAY elapsing in ARMING with the worker ENABLED moves the axis to ENABLED in HOLD. -/
  | armDelay (a t : Nat)
  /-- ARM_TIMEOUT (R187): ARM_TIMEOUT elapsing in ARMING makes the axis FAULTED with ARM_TIMEOUT. -/
  | armTimeout (a t : Nat)
  /-- STANDSTILL (R203): Standstill held for STANDSTILL_TIME ends a stop in ENABLED, DISABLED or FAULTED according to its strongest cause. -/
  | standstill (a t : Nat)
  /-- STOP_TIMEOUT (R203): A stop not at standstill after STOP_TIMEOUT is raised to HARD_STOP or makes the axis FAULTED with STOP_TIMEOUT. -/
  | stopTimeout (a t : Nat)
  /-- MODE_ENTRY (R193): At t_0 an axis enters the committed mode without a step, or the entry is refused with MOVE_REFUSED. -/
  | modeEntry (a t : Nat)
  /-- STOP_REQUEST (R205): A write of STOP_REQUEST raises the machine stop and starts ramp, quick or hard stops of axes and virtual masters. -/
  | stopRequest (sess v t : Nat)
  /-- STOP_CLEAR (R206): STOP_CLEAR sets STOP_ACTIVE to 0 unless an axis is still stopping with cause MACHINE_STOP. -/
  | stopClear (t : Nat)
  /-- VM_REPLAN (R218): Pair 1 replans a virtual master from the first whole millisecond after a commit or stop request changes its motion. -/
  | vmReplan (k t : Nat)
  /-- LIMIT_TRIP (R209): A limit input going active with its latch clear sets the latch, records LIMIT_TRIP_POS and raises the limit fault. -/
  | limitTrip (a : Nat) (pos : Bool) (t : Nat)
  /-- HOME_TIMEOUT (R216): A homing not complete HOME_TIMEOUT after t_0 raises HOMING with QSTOP and HOME_STATE FAILED. -/
  | homeTimeout (a t : Nat)
  /-- CLEAR_PEAK (R182): CLEAR_PEAK clears FE_PEAK and EXEC_MAX. -/
  | clearPeak (a t : Nat)
  /-- QUADRATURE_EDGE (R233): An accepted change of A or B moves the counter by one and records its stamp and direction. -/
  | quadratureEdge (u : Nat) (a b : Bool) (t held : Nat)
  /-- INDEX_EVENT (R235): An index event records its stamp and counter value, sets INDEX_SEEN and triggers latches. -/
  | indexEvent (u : Nat) (z : Bool) (t held : Nat)
  /-- ABS_FRAME (R238): A received clocked absolute frame is checked and decoded, or held as invalid with ABS_ERR_CODE. -/
  | absFrame (u : Nat) (low : Bool) (l : List Bool) (t : Nat)
  /-- ABS_ERR_LIMIT (R238): ABS_ERR_LIMIT consecutive invalid absolute frames set FAULT. -/
  | absErrLimit (u t : Nat)
  /-- FB_HOLD_LIMIT (R242): FB_HOLD_LIMIT consecutive invalid worker samples raise FEEDBACK on the axis. -/
  | fbHoldLimit (a t : Nat)
  /-- CLEAR_FAULT (R243): CLEAR_FAULT of a feedback unit clears UNCERTAIN and INDEX_SEEN and clears FAULT when its conditions hold. -/
  | clearFault (u t : Nat)
  /-- LATCH_EVENT (R246): A trigger edge of a latch unit takes the interpolated position of its source at t_e. -/
  | latchEvent (l t : Nat) (falling : Bool)
  /-- LATCH_EVENT_AVAILABLE (R247): A latch event becomes available and is entered in the FIFO, missed or lost, and re-anchors bound compare units. -/
  | latchEventAvailable (l t : Nat)
  /-- LATCH_ARM (R247): ARM arms a latch unit. -/
  | latchArm (l t : Nat)
  /-- LATCH_ACK (R247): ACK removes the oldest entries of a latch unit's FIFO. -/
  | latchAck (l n t : Nat)
  /-- COMPARE_ARM (R249): ARM sets a compare value from START and brings it ahead of the source. -/
  | compareArm (u t : Nat)
  /-- DISARM (R249): DISARM stops a compare unit at once, a committed hit still firing. -/
  | disarm (u t : Nat)
  /-- CORRECTION (R252): A write of CORRECTION adds its value once to the uncommitted compare value. -/
  | correction (u : Nat) (v : Int) (t : Nat)
  /-- COMPARE_HIT (R252): At t_h a compare hit fires its output, advances CV by PITCH and increments HITS. -/
  | compareHit (u t : Nat)
  /-- SET_TOD (R81): SET_TOD sets the time of day while SYNC_STATE is FREE. -/
  | setTod (tod : Int) (t : Nat)
  /-- RELOCK (R98): RELOCK returns network time to FREE with STEPPED cleared. -/
  | relock (t : Nat)
  /-- TTP_ENABLE (R100): A write of ENABLE arms a time-triggered pulse channel or stops it after its current pulse. -/
  | ttpEnable (c : Nat) (on : Bool) (t : Nat)
  /-- TTP_EDGE (R99): At each planned instant a time-triggered pulse channel raises or lowers its output. -/
  | ttpEdge (c t : Nat)
  /-- TIME_LATCH_EVENT (R101): A selected edge of a time latch source is stamped and queued, or LOST counted. -/
  | timeLatchEvent (l t : Nat) (falling : Bool)
  /-- ACK (R101): ACK removes the oldest entries of a time latch FIFO. -/
  | timeLatchAck (l n t : Nat)
  /-- LOAD_ALL (R298): LOAD_ALL arms a transfer of the PWM shadow registers at the next period start. -/
  | loadAll (p t : Nat)
  /-- LOAD_ALL_MASK (R298): LOAD_ALL_MASK arms LOAD_ALL of several PWM modules in one clock. -/
  | loadAllMask (m t : Nat)
  /-- PWM_PERIOD_START (R298): At a PWM period start the active registers take an armed shadow transfer or a queue entry. -/
  | pwmPeriodStart (p t : Nat)
  /-- TRIP_INPUT (R306): TRIP_N accepted active trips the port into TRIP_STATE. -/
  | tripInput (p : Nat) (active : Bool) (t : Nat)
  /-- TRIP_FORCE (R306): TRIP_FORCE trips the port. -/
  | tripForce (p t : Nat)
  /-- OVERCURRENT (R312): A fast sinc3 output above OC_LIMIT trips the port with OVERCURRENT. -/
  | overcurrent (p c : Nat) (l : List Bool) (t : Nat)
  /-- SD_INVALID (R310): A stuck bitstream or missing clock marks a sigma-delta channel invalid and trips a SERVO port. -/
  | sdInvalid (p c : Nat) (l : List Bool) (noClock t : Nat)
  /-- SD_VALID (R310): After 3·R bits of valid data with the clock present a sigma-delta channel becomes valid again. -/
  | sdValid (p c : Nat) (l : List Bool) (t : Nat)
  /-- TRIP_CLEAR (R307): TRIP_CLEAR clears TRIPPED unless a trip cause persists. -/
  | tripClear (p t : Nat)
  /-- STEP_EMIT (R313): A step pulse is emitted when the step reference reaches the next whole step, within the rate rules. -/
  | stepEmit (p t : Nat)
  /-- STEP_HALT (R315): A halt order stops step emission within 0.2 µs of reaching the port. -/
  | stepHalt (p t : Nat)
  /-- STEP_IN_EDGE (R316): An accepted STEP_IN_EDGE counts up or down by DIR and is stamped. -/
  | stepInEdge (p : Nat) (dir : Bool) (t : Nat)
  /-- DOWNSTREAM_FRAME (R321): The head sends a barrier frame each microsecond and the die takes it as good or bad. -/
  | downstreamFrame (t : Nat) (rx : Option (List Byte))
  /-- UNTIMED_OUTPUT_SWITCH (R327): 1.2 µs after a good frame starts, untimed outputs and brake controls take its levels. -/
  | untimedOutputSwitch (t : Nat)
  /-- TIMED_EDGE (R325): At its commanded time a timed output switches, late edges switching at once with EDGE_LATE counted. -/
  | timedEdge (q t : Nat)
  /-- DIE_SAFE_STATE (R322): A third consecutive bad downstream frame or SAFE_REQ sends the die into its safe state. -/
  | dieSafeState (t : Nat)
  /-- DIE_SAFE_EXIT (R323): 1 000 consecutive good downstream frames without SAFE_REQ take the die out of its safe state under RESTORE_MODE. -/
  | dieSafeExit (t : Nat)
  /-- UPSTREAM_FRAME (R321): A barrier frame from the die is taken as good or bad and its inputs and record are used. -/
  | upstreamFrame (t : Nat) (rx : Option (List Byte))
  /-- LINK_LOST (R322): A third consecutive bad upstream frame makes LINK_STATE LOST, sets SAFE_REQ and invalidates inputs and master encoders. -/
  | linkLost (t : Nat)
  /-- LINK_RECOVERY (R323): 1 000 consecutive good upstream frames let the head clear SAFE_REQ. -/
  | linkRecovery (t : Nat)
  /-- INPUT_EDGE_ACCEPTED (R328): A field input level held for DEBOUNCE changes the accepted level and sends a STAMP where used. -/
  | inputEdgeAccepted (i : Nat) (lv : Bool) (cross t : Nat)
  /-- INPUT_OPEN (R329): An input current below 0.3 mA for 10 ms marks it OPEN and invalid. -/
  | inputOpen (i t : Nat)
  /-- OUTPUT_SHORT (R332): An output in current limit for 50 µs is latched at high impedance as SHORT_GND, SHORT_VF or CONTENTION. -/
  | outputShort (q : Nat) (other : Option Nat) (ma t : Nat)
  /-- OPEN_LOAD (R332): A driven-high output below 3 mA for 10 ms is flagged OPEN_LOAD. -/
  | openLoad (q ma t : Nat)
  /-- OUT_ACK (R332): OUT_ACK releases a latched output diagnosis and drives the output again. -/
  | outAck (q t : Nat)
  /-- OUT_VALUE (R327): A write of OUT_VALUE sets the level of an untimed output for the next frame. -/
  | outValue (q : Nat) (lv : Bool) (t : Nat)
  /-- BRAKE_MISMATCH (R334): A readback differing from Table 13-7 for 200 µs after a stable command is reported as a mismatch. -/
  | brakeMismatch (b h l t : Nat)
  /-- SUPPLY_LOW (R335): VF below 18 V for 100 µs sets SUPPLY_STATE LOW with WARN. -/
  | supplyLow (vf t : Nat)
  /-- SUPPLY_UNDER (R335): VF below 14 V for 5 µs sets UNDER and turns outputs and brake controls off. -/
  | supplyUnder (vf t : Nat)
  /-- SUPPLY_OVER (R335): VF above 33 V for 5 µs sets OVER and turns outputs and brake controls off. -/
  | supplyOver (vf t : Nat)
  /-- SUPPLY_RESTORE (R336): VF back in range for 10 ms leaves UNDER or OVER and restores outputs under RESTORE_MODE. -/
  | supplyRestore (vf t : Nat)
  /-- RESTORE (R336): RESTORE lets outputs and brake controls follow the frames again in COMMAND mode. -/
  | fieldRestore (t : Nat)
  /-- SAFETY_CYCLE (R338): Every 250 µs the safety core evaluates inputs, demands, readbacks and answers and sets its outputs. -/
  | safetyCycle (t : Nat)
  /-- SAFETY_ANSWER_LOSS (R348): 8 consecutive frames without a valid safety answer from a position set SAFE_DEMAND for its axes. -/
  | safetyAnswerLoss (r p t : Nat)
  /-- SBC_STAGGER (R345): 2 ms after the first path switches, the second path of a brake application or release switches. -/
  | sbcStagger (a t : Nat)
  /-- HEARTBEAT_FAULT (R340): A heartbeat outside its window sends the referee to RECOVERY or HALT. -/
  | heartbeatFault (beat : Bool) (t : Nat)
  /-- CORE_FAULT (R340): An ECC, flow, self-test, clock or management-pair fault sends the referee to RECOVERY or HALT. -/
  | coreFault (cause t : Nat)
  /-- TEST_TIMEOUT (R340): A TEST phase longer than 5 s sends the referee to RECOVERY. -/
  | testTimeout (t : Nat)
  /-- CORE_SELFTEST_COMPLETE (R339): The core's self-test and configuration check complete, and the referee leaves START or RECOVERY for SERVICE or stays with cause CONFIG. -/
  | coreSelftestComplete (pass : Bool) (t : Nat)
  /-- DISCREPANCY (R352): At DISCREPANCY after a disagreement the pair is judged, still disagreeing channels setting SI_STATE DISCREPANCY. -/
  | discrepancy (k t : Nat)
  /-- SI_DELAY (R353): SI_DELAY after a delayed demand sets SAFE_DEMAND for the pair's groups. -/
  | siDelay (k t : Nat)
  /-- SAFETY_ACK (R353): SAFETY_ACK ends a discrepancy or manual-restart demand once both channels are clear. -/
  | safetyAck (t : Nat)
  /-- SBC_RESET (R346): SBC_RESET clears an SBC fault when the readback matches the applied state. -/
  | sbcReset (a t : Nat)
  /-- BT_START (R355): BT_START starts a brake test, entering TEST and applying the brake. -/
  | btStart (a t : Nat)
  /-- ENGAGE_TIME (R356): ENGAGE_TIME after the test start latches x_0 and starts the torque profile. -/
  | engageTime (a t : Nat)
  /-- BT_PROFILE_END (R357): The end of the test profile or a failed check removes the torque and records the test result. -/
  | btProfileEnd (t : Nat)
  /-- SAFETY_LOGIN (R358): SAFETY_LOGIN opens a safety session for the right password or counts a failure. -/
  | safetyLogin (sess : Nat) (pw : List Byte) (t : Nat)
  /-- NEW_PASSWORD (R358): NEW_PASSWORD replaces the safety password at once. -/
  | newPassword (sess : Nat) (pw : List Byte) (t : Nat)
  /-- SAFETY_LOGOUT (R359): SAFETY_LOGOUT closes the safety session. -/
  | safetyLogout (t : Nat)
  /-- SESSION_TIMEOUT (R359): SESSION_TIMEOUT without a SAF write or login closes the safety session. -/
  | sessionTimeout (t : Nat)
  /-- LOG_EXPORTED (R361): LOG_EXPORTED marks change-log entries as exported. -/
  | logExported (v t : Nat)
  /-- OUT_CTRL_GO (R389): Setting GO posts a mailbox message into the receiver's slot and rings its doorbell, or is refused. -/
  | outCtrlGo (x : Nat) (ctrl : Word) (t : Nat)
  /-- IN_ACK (R392): Writing IN_ACK takes a message and ends its sender's wait with ACKED. -/
  | inAck (x : Nat) (w : Word) (t : Nat)
  /-- MAILBOX_TIMEOUT (R393): No acknowledgement within TIMEOUT_US withdraws the message and sets TIMEOUT. -/
  | mailboxTimeout (x t : Nat)
  /-- ECHO (R397): MC0 acknowledges a host ECHO message and answers with the same words. -/
  | mailEcho (t : Nat)
  /-- POWER_REQUEST (R400): POWER_REQUEST moves the unit to STANDBY through the safe state, or is refused. -/
  | powerRequest (t : Nat)
  /-- WAKE_N (R401): A WAKE_N falling edge held 100 µs wakes the unit from STANDBY. -/
  | wakeN (low t : Nat)
  /-- WAKE_AT (R401): Time of day reaching WAKE_AT wakes the unit from STANDBY. -/
  | wakeAt (t : Nat)
  /-- POWER_STATE_CHANGE (R399): The power-state machine changes between IDLE and PLAY within 10 µs of its condition changing. -/
  | powerStateChange (t : Nat)
  /-- ACE_POWER_GATE (R402): An ACE holding no axis is power-gated after GATE_IDLE without work. -/
  | acePowerGate (e t : Nat)
  /-- ACE_WAKE (R402): A power-gated ACE is powered after a post or dispatch and raises its doorbell. -/
  | aceWake (e t : Nat)
  /-- INTERRUPT_ENTRY (R273): An ACE takes an interrupt, saving IPC and STATUS and entering its handler. -/
  | aceInterruptEntry (e src t : Nat)
  /-- ACE_EXCEPTION (R276): An ILLEGAL, ADDRESS, PRIV or STORE_FULL exception voids the item with cause COMPUTE. -/
  | aceException (e code t : Nat)
  /-- TIME_ABORT (R277): A user block running 4 × DECLARED_TIME is voided and TIME_ABORTS incremented. -/
  | aceTimeAbort (e t : Nat)
  /-- XLD_COMPLETE (R270): An outstanding XLD.D completes and writes its destination register. -/
  | aceXldComplete (e t : Nat)
  /-- MNOP (R264): The M-slot no-operation does nothing. -/
  | aceMnop (i : AceAt)
  /-- MPY (R264): MPY sets an accumulator to a 64 × 32-bit product. -/
  | aceMpy (i : AceAt) (k a b : Nat) (h : Bool)
  /-- MAC (R269): MAC adds a product to an accumulator, saturating. -/
  | aceMac (i : AceAt) (k a b : Nat) (h : Bool)
  /-- MSU (R269): MSU subtracts a product from an accumulator, saturating. -/
  | aceMsu (i : AceAt) (k a b : Nat) (h : Bool)
  /-- MOVA (R264): MOVA loads an accumulator with a shifted register. -/
  | aceMova (i : AceAt) (k a sh : Nat)
  /-- ADDA (R264): ADDA adds a shifted register to an accumulator. -/
  | aceAdda (i : AceAt) (k a sh : Nat)
  /-- CMPY (R264): CMPY forms a complex product into an accumulator pair. -/
  | aceCmpy (i : AceAt) (k a b : Nat)
  /-- CMAC (R264): CMAC accumulates a complex product into an accumulator pair. -/
  | aceCmac (i : AceAt) (k a b : Nat)
  /-- EXT_D (R269): EXT.D extracts a rounded, saturated 64-bit value from an accumulator. -/
  | aceExtD (i : AceAt) (d k sh : Nat)
  /-- EXT_W (R269): EXT.W extracts a rounded, saturated 32-bit value sign-extended. -/
  | aceExtW (i : AceAt) (d k sh : Nat)
  /-- CEXT (R264): CEXT extracts a packed complex pair from an accumulator pair. -/
  | aceCext (i : AceAt) (d k sh : Nat)
  /-- CLRA (R264): CLRA clears an accumulator. -/
  | aceClra (i : AceAt) (k : Nat)
  /-- EXT_DV (R264): EXT.DV extracts a 64-bit value with a shift taken from a register. -/
  | aceExtDv (i : AceAt) (d k t : Nat)
  /-- EXT_WV (R264): EXT.WV extracts a 32-bit value with a shift taken from a register. -/
  | aceExtWv (i : AceAt) (d k t : Nat)
  /-- ANOP (R264): The A-slot no-operation does nothing. -/
  | aceAnop (i : AceAt)
  /-- ADD (R264): ADD adds two registers, wrapping. -/
  | aceAdd (i : AceAt) (d a b : Nat)
  /-- SUB (R264): SUB subtracts two registers, wrapping. -/
  | aceSub (i : AceAt) (d a b : Nat)
  /-- ADDS (R264): ADDS adds two registers, saturating. -/
  | aceAdds (i : AceAt) (d a b : Nat)
  /-- SUBS (R264): SUBS subtracts two registers, saturating. -/
  | aceSubs (i : AceAt) (d a b : Nat)
  /-- AND (R264): AND forms the bitwise and of two registers. -/
  | aceAnd (i : AceAt) (d a b : Nat)
  /-- OR (R264): OR forms the bitwise or of two registers. -/
  | aceOr (i : AceAt) (d a b : Nat)
  /-- XOR (R264): XOR forms the bitwise exclusive or of two registers. -/
  | aceXor (i : AceAt) (d a b : Nat)
  /-- SHL (R264): SHL shifts a register left. -/
  | aceShl (i : AceAt) (d a n : Nat)
  /-- SHR (R264): SHR shifts a register right logically. -/
  | aceShr (i : AceAt) (d a n : Nat)
  /-- SAR (R264): SAR shifts a register right arithmetically, truncating. -/
  | aceSar (i : AceAt) (d a n : Nat)
  /-- SARR (R264): SARR shifts a register right arithmetically with convergent rounding. -/
  | aceSarr (i : AceAt) (d a n : Nat)
  /-- MIN (R264): MIN takes the signed minimum of two registers. -/
  | aceMin (i : AceAt) (d a b : Nat)
  /-- MAX (R264): MAX takes the signed maximum of two registers. -/
  | aceMax (i : AceAt) (d a b : Nat)
  /-- ABS (R264): ABS takes the saturated absolute value of a register. -/
  | aceAbs (i : AceAt) (d a : Nat)
  /-- NEG (R264): NEG takes the saturated negation of a register. -/
  | aceNeg (i : AceAt) (d a : Nat)
  /-- ADDI (R264): ADDI adds a signed 20-bit immediate to a register. -/
  | aceAddi (i : AceAt) (d a : Nat) (imm : Int)
  /-- LDI (R264): LDI loads an immediate, extended by IMM_EXT. -/
  | aceLdi (i : AceAt) (d imm : Nat) (ext : Option Nat)
  /-- CMP (R264): CMP writes a compare result to a predicate. -/
  | aceCmp (i : AceAt) (d a b cc : Nat)
  /-- PADD2 (R264): PADD2 adds two saturating 32-bit lanes, optionally halving. -/
  | acePadd2 (i : AceAt) (d a b : Nat) (h : Bool)
  /-- PSUB2 (R264): PSUB2 subtracts two saturating 32-bit lanes, optionally halving. -/
  | acePsub2 (i : AceAt) (d a b : Nat) (h : Bool)
  /-- MTR (R264): MTR writes an address register. -/
  | aceMtr (i : AceAt) (n a : Nat)
  /-- MFR (R264): MFR reads an address register. -/
  | aceMfr (i : AceAt) (d n : Nat)
  /-- MTS (R261): MTS writes a special register. -/
  | aceMts (i : AceAt) (n a : Nat)
  /-- MFS (R262): MFS reads a special register, counters reading 0 to a user block without permission. -/
  | aceMfs (i : AceAt) (d n : Nat)
  /-- BR (R265): BR branches after two delay slots. -/
  | aceBr (i : AceAt) (off : Int)
  /-- CALL (R264): CALL saves the return index in LR and branches. -/
  | aceCall (i : AceAt) (off : Int)
  /-- RET (R277): RET branches to LR after two delay slots. -/
  | aceRet (i : AceAt)
  /-- RETI (R273): RETI restores STATUS from ISTAT and resumes at IPC, taking a pending void. -/
  | aceReti (i : AceAt)
  /-- REP (R271): REP sets up a hardware repeat loop. -/
  | aceRep (i : AceAt) (useReg : Bool) (a cnt len : Nat)
  /-- YIELD (R281): YIELD completes the item and hands off to the dispatcher. -/
  | aceYield (i : AceAt)
  /-- XWAIT (R270): XWAIT stalls until no XLD.D is outstanding. -/
  | aceXwait (i : AceAt)
  /-- BKPT (R264): BKPT halts for an attached debugger, or raises ILLEGAL. -/
  | aceBkpt (i : AceAt)
  /-- LNOP (R264): The L-slot no-operation does nothing. -/
  | aceLnop (i : AceAt)
  /-- LD_D (R264): LD.D loads 64 bits from data SRAM. -/
  | aceLdD (i : AceAt) (g pn am : Nat) (off : Int)
  /-- LD_W (R264): LD.W loads 32 bits sign-extended. -/
  | aceLdW (i : AceAt) (g pn am : Nat) (off : Int)
  /-- LD_WU (R264): LD.WU loads 32 bits zero-extended. -/
  | aceLdWu (i : AceAt) (g pn am : Nat) (off : Int)
  /-- LD_H (R264): LD.H loads 16 bits sign-extended. -/
  | aceLdH (i : AceAt) (g pn am : Nat) (off : Int)
  /-- LD_HU (R264): LD.HU loads 16 bits zero-extended. -/
  | aceLdHu (i : AceAt) (g pn am : Nat) (off : Int)
  /-- ST_D (R264): ST.D stores 64 bits to data SRAM. -/
  | aceStD (i : AceAt) (g pn am : Nat) (off : Int)
  /-- ST_W (R264): ST.W stores the low 32 bits. -/
  | aceStW (i : AceAt) (g pn am : Nat) (off : Int)
  /-- ST_H (R264): ST.H stores the low 16 bits. -/
  | aceStH (i : AceAt) (g pn am : Nat) (off : Int)
  /-- LD2_D (R267): LD2.D loads a register pair in phases A and B. -/
  | aceLd2D (i : AceAt) (rp pa : Nat) (oa : Int) (pb : Nat) (ob : Int)
  /-- ST2_D (R267): ST2.D stores a register pair in phases A and B. -/
  | aceSt2D (i : AceAt) (rp pa : Nat) (oa : Int) (pb : Nat) (ob : Int)
  /-- LDST_D (R267): LDST.D loads in phase A and stores in phase B with post-modify. -/
  | aceLdstD (i : AceAt) (d pa g pb : Nat)
  /-- PMOD (R268): PMOD modifies a pointer under its addressing mode. -/
  | acePmod (i : AceAt) (pn : Nat) (imm : Int)
  /-- XLD_D (R270): XLD.D starts a split-phase load from shared SRAM or the mailbox endpoint. -/
  | aceXldD (i : AceAt) (g pn am : Nat) (off : Int)
  /-- XST_D (R270): XST.D places 8 bytes in the store buffer, or sends them straight to the hub in a handler. -/
  | aceXstD (i : AceAt) (g pn am : Nat) (off : Int)
  /-- CLEAR (R295): CLEAR clears the dispatcher totals and engine maxima. -/
  | dispClear (t : Nat)
  /-- PMC_CFG (R405): A write of PMC_CFG reconfigures a counter at the next item boundary. -/
  | pmcCfg (core k w t : Nat)
  /-- SAMPLE_PERIOD (R405): A write of SAMPLE_PERIOD reconfigures sampling at the next item boundary. -/
  | samplePeriod (e v t : Nat)
  /-- CLEAR_COUNTERS (R405): CLEAR_COUNTERS sets every cycle, PMC and slot counter to 0 at item boundaries. -/
  | clearCounters (t : Nat)
  /-- SAMPLE_CLEAR (R421): SAMPLE_CLEAR empties the sample buffer. -/
  | sampleClear (t : Nat)
  /-- ARM (R415): A write of capture ARM starts a new capture or aborts the running one. -/
  | captureArm (v : Bool) (t : Nat)
  /-- CAPTURE_TICK (R411): At each sample-clock tick all capture channels are sampled, the trigger evaluated and records stored. -/
  | captureTick (outside : List Int) (full : Bool) (t : Nat)
  /-- TRACE_ARM (R417): TRACE_ARM starts or aborts a trace of the configured slots. -/
  | traceArm (v : Bool) (t : Nat)
  /-- FRF_START (R420): FRF_START starts the frequency-response computation from two trace slots. -/
  | frfStart (t : Nat)
  /-- INJECTION_END (R419): Injection ends DONE at DURATION, or STOPPED at a stop or INJ_STOP. -/
  | injectionEnd (t : Nat)
  /-- POWER_ON (R422): A power-on reset resets every domain, the always-on domain only after VAON fell below 1.62 V. -/
  | powerOn (vaonFell core : Bool) (t : Nat)
  /-- RESET_N (R423): RESET_N held low for 1 µs resets the unit, and its rising edge is the release instant. -/
  | resetN (low t : Nat)
  /-- WATCHDOG (R424): A management pair missing its 100 ms watchdog restart writes a fault record and resets the unit. -/
  | watchdog (p : Nat) (fed : Bool) (t : Nat)
  /-- RESET_UNIT (R423): RESET_UNIT resets the unit, or is refused while it is active with axes running or a save or upload runs. -/
  | resetUnit (t : Nat)
  /-- BOOT_IMAGE_LOADED (R427): The boot ROM selects, copies and verifies a firmware image and starts it, or stays in the boot ROM. -/
  | bootImageLoaded (prog : List (Nat × List Byte)) (keys : List BootKey) (t : Nat)
  /-- CONFIGURATION_STEP (R431): The firmware applies the stored image as one commit, falling back to the other bank or defaults. -/
  | configurationStep (ids : List (List Byte)) (t : Nat)
  /-- UNKNOWN_OPCODE (R134): A Linli request with an unknown opcode is answered with RANGE. -/
  | unknownOpcode (op : Nat) (q : Req) (t : Nat)
  /-- SUPPLY_NORMAL (R335): VF at or above 18.5 V for 100 µs takes the field die from LOW back to NORMAL. -/
  | supplyNormal (vf t : Nat)
  /-- INPUT_OPEN_CLEARED (R329): An OPEN input whose current stays above 0.5 mA for 10 ms becomes valid again. -/
  | inputOpenCleared (i t : Nat)
  /-- OPEN_LOAD_CLEARED (R332): An output flagged OPEN_LOAD whose current stays above 5 mA for 10 ms returns to OK. -/
  | openLoadCleared (q ma t : Nat)
  /-- COMPARE_PULSE_FALL (R254): WIDTH after a compare hit, or after the last merged hit, the output pulse of a compare unit on a pin falls. -/
  | comparePulseFall (u t : Nat)
  /-- PAUSE_FRAME (R47): A PAUSE frame received on a ring port is discarded. -/
  | pauseFrame (_r t : Nat)
  /-- ARP_REQUEST (R132): An ARP request for SERVICE_IP or UNIT_IP is answered. -/
  | arpRequest (port ip mac src t : Nat)
  /-- ICMP_ECHO (R132): An ICMP echo request for SERVICE_IP or UNIT_IP is answered. -/
  | icmpEcho (port ip src : Nat) (data : List Int) (t : Nat)
  /-- VM_TABLE_EXTEND (R218): Pair 1 extends each virtual master's piece table at least 1 ms ahead of the latest whistle. -/
  | vmTableExtend (t : Nat)
  /-- ILLEGAL_LIMIT (R234): The ILLEGAL_LIMIT-th illegal transition within ILLEGAL_WINDOW sets FAULT of the unit. -/
  | illegalLimit (u t : Nat)
  /-- WIRE (R236): A differential pair inside the threshold window for 1 µs sets WIRE and FAULT. -/
  | wireFault (u pair : Nat) (inside : Bool) (t : Nat)
  /-- ABS_CHECK_PERIOD (R239): Every ABS_CHECK_PERIOD an absolute frame is requested and compared with the quadrature count. -/
  | absCheckPeriod (u t : Nat)
  /-- SYNC_MESSAGE (R98): A received Sync is time-stamped and used for offset and rate discipline. -/
  | syncMessage (port domain src seqNo : Nat) (twoStep : Bool) (t1 : Int) (t : Nat)
  /-- FOLLOW_UP_MESSAGE (R96): A received Follow_Up completes a two-step Sync exchange. -/
  | followUpMessage (port domain src seqNo : Nat) (t1 : Int) (t : Nat)
  /-- DELAY_REQ_MESSAGE (R96): A Delay_Req received by the master clock is answered with Delay_Resp. -/
  | delayReqMessage (port domain seqNo src t : Nat)
  /-- DELAY_RESP_MESSAGE (R98): A received Delay_Resp completes a delay exchange, taking the single step on entry to LOCKING. -/
  | delayRespMessage (port domain src seqNo : Nat) (t4 : Int) (t : Nat)
  /-- ANNOUNCE_MESSAGE (R96): A received Announce feeds the best master clock algorithm and UTC_OFFSET. -/
  | announceMessage (port domain src : Nat) (ds : List Nat) (utc : Int) (interval t : Nat)
  /-- TC_FORWARD (R97): A PTP event message forwarded between H1 and H2 has its residence time added to the correction field. -/
  | tcForward (kind src seqNo : Nat) (corr : Int) (ingress egress : Nat)
  /-- SYNC_INTERVAL (R96): As master the clock sends a two-step Sync each sync interval. -/
  | syncInterval (t : Nat)
  /-- SYNC_LOSS (R98): No valid Sync for 3 announce intervals sends SYNC_STATE to HOLDOVER. -/
  | syncLoss (t : Nat)
  /-- OUT_OF_RANGE (R98): RATE_ADJ held at its bound for 10 s with growing offset sets OUT_OF_RANGE with WARN. -/
  | outOfRange (t : Nat)
  /-- BENCH_TIME (R94): A time word on bench lane 0 updates the standby's offset and rate servo. -/
  | benchTime (t1 t2 t3 t4 : Int) (tod : Int) (t : Nat)
  /-- TEST_INTERVAL (R354): TEST_INTERVAL after the last passed test sets BT_DUE to DUE. -/
  | testInterval (a t : Nat)
  /-- TEST_GRACE (R354): TEST_GRACE after DUE sets BT_DUE to OVERDUE and SAFE_DEMAND. -/
  | testGrace (a t : Nat)
  /-- LOCKOUT_END (R359): 15 minutes of operating time after a fifth failed login the lockout ends. -/
  | lockoutEnd (t : Nat)
  /-- HELLO (R369): A HELLO from the partner decides the roles of a pair or starts pairing. -/
  | hello (serial prio end_ : Nat) (tested restarted : Bool) (ids : List (List Byte)) (t : Nat)
  /-- PAIR_WAIT (R369): PAIR_WAIT elapsing without a HELLO makes each unit kick off its rings alone. -/
  | pairWait (ids : List (List Byte)) (t : Nat)
  /-- PAIR (R371): PAIR starts pairing from NO_PARTNER or LONELY, or a full resync from SUSPECT. -/
  | pairStart (t : Nat)
  /-- PAIRING_STEP_COMPLETE (R371): A pairing step of Table 15-1 completes, moving to the next or to IN_STEP, or failing to LONELY. -/
  | pairingStepComplete (ok : Bool) (recs : List Byte) (crc safety t : Nat)
  /-- DIGEST (R374): A partner's digest record is compared with the unit's own, classing any divergence. -/
  | digest (b : List Byte) (t : Nat)
  /-- STATE_RECORD (R375): A STATE record installs an axis's live state in the standby during resync. -/
  | stateRecord (a k : Nat) (x : Machine.AxisRt) (t : Nat)
  /-- INPUTS (R372): An INPUTS record gives the standby the active unit's field and encoder inputs. -/
  | inputsRecord (fi valid brakes : Nat) (counts : List Nat) (speeds : List Int) (lats : List (Nat × Nat × Int × Nat)) (t : Nat)
  /-- MIRROR (R373): A MIRROR record updates the standby's sessions, staged copy, commits and master pieces and is acknowledged. -/
  | mirrorRecord (n : Nat) (m : Mirror) (t : Nat)
  /-- EMIT (R381): An EMIT record tells the standby that a ring frame has left the active unit. -/
  | emitRecord (r cycle len t : Nat)
  /-- REQUEST (R377): A REQUEST record carries a role request, drill announcement or split start or end. -/
  | pairRequest (k v w t : Nat)
  /-- REGIONS (R382): A REGIONS record delivers a split ring's sample region as landed. -/
  | regionsRecord (r p n : Nat) (data : List Byte) (t : Nat)
  /-- MAILBOX (R398): A MAILBOX record delivers a post into slot 14 of an endpoint on the partner or its acknowledgement. -/
  | mailbox (ack : Bool) (x : Nat) (words : List Word) (t : Nat)
  /-- ACTIVE_LOST (R377): No frame at the standby with both bench lanes out of lock triggers a switch-over. -/
  | activeLost (since t : Nat)
  /-- ACTIVE_STALL (R377): No frame on any ring for 2 cycles with the bench link up triggers a switch-over. -/
  | activeStall (t : Nat)
  /-- ACTIVE_REQUEST (R377): A request from the active unit on UNIT, RECOVERY or missing frames triggers a switch-over. -/
  | activeRequest (t : Nat)
  /-- YIELD_IN (R378): YIELD_IN_N asserted idles the unit's ring transmitters, clears PAIRED_DRIVE and makes it YIELDED. -/
  | yieldIn (t : Nat)
  /-- YIELD_RELEASE (R433): YIELD_IN_N released lets a yielded unit take ROLE STANDBY and continue pairing. -/
  | yieldRelease (t : Nat)
  /-- BENCH_LOCK_LOSS (R376): The bench link out of lock for 2 cycles makes the standby LONELY and not eligible. -/
  | benchLockLoss (since t : Nat)
  /-- DRILL (R385): DRILL chooses and announces the swap instant of a planned role swap, or is refused. -/
  | drill (t : Nat)
  /-- DRILL_SWAP (R385): At the swap instant the standby emits frames and the old active unit turns them. -/
  | drillSwap (t : Nat)
  /-- DRILL_BACK (R385): If the new active unit's first two frames fail, the old active unit resumes and DRILL_STATE reads FAILED. -/
  | drillBack (t : Nat)
  /-- SPLIT_START (R381): No frame at the standby's port while EMIT records arrive makes the standby serve the far side of the cut. -/
  | splitStart (r t : Nat)
  /-- HEAL (R384): HEAL stops the standby sending on a split ring and starts healing. -/
  | healRing (r t : Nat)
  /-- HEAL_REJOIN (R384): 100 ms after HEAL the active unit runs the rejoin of the far half. -/
  | healRejoin (r t : Nat)
  /-- GRATUITOUS_ARP (R151): A new active unit sends gratuitous ARP for SERVICE_IP and repeats it at 100 ms intervals. -/
  | gratuitousArp (t : Nat)
  /-- PMC_OVERFLOW (R407): A sampling counter overflows, reloads and raises the PMU interrupt that writes a sample record. -/
  | pmcOverflow (e k t : Nat)
  /-- FRF_DONE (R420): The frequency-response computation ends DONE or FAILED with FRF_FAIL. -/
  | frfDone (t : Nat)
  /-- RAIL_FAULT (R450): A rail below its minimum for 2 µs asserts the internal reset recorded as POWER_ON. -/
  | railFault (rail ns : Nat) (vaonFell : Bool) (t : Nat)
  /-- FW_UPLOAD (R428): An FW_UPLOAD segment is written into the non-running image region and the image checked at its last byte. -/
  | fwUpload (sess off total : Nat) (v : List Byte) (t : Nat)
  /-- THERMAL_SAMPLE (R452): Every 1 ms the die sensors are sampled, updating TJ and the WARN state, and resetting the unit at 145 °C. -/
  | thermalSample (temps : List Int) (t : Nat)
  /-- THERMAL_LIMIT (R452): TJ at 130 °C for 10 ms sets LIMIT and triggers a reaction UNIT or QSTOP of enabled axes. -/
  | thermalLimit (t : Nat)
  /-- CLEAR_TJ_PEAK (R457): CLEAR_TJ_PEAK sets TJ_PEAK to TJ. -/
  | clearTjPeak (t : Nat)
  /-- PCIE_HOT_RESET (R394): PCIe link down or hot reset resets the host endpoint, dropping or orphaning its mailbox messages. -/
  | pcieHotReset (t : Nat)
  /-- VAON_LOSS (R399): VAON falling away, below 1.62 V, loses the always-on domain and puts the unit in OFF. -/
  | vaonLoss (t : Nat)
  /-- SUPERVISOR_RELEASE (R449): The internal supervisor releases reset once every rail has been in range for 10 ms, and the boot ROM starts. -/
  | supervisorRelease (t : Nat)
  /-- EXTEST (R447): A JTAG EXTEST instruction places the unit in reset, stopping the barrier link so that the field die takes its safe state. -/
  | extest (t : Nat)
  /-- MIRROR_ACK (R373): The standby's acknowledgement of a mirrored record reaches the active unit, which then sends the held reply or emits CONFIRM. -/
  | mirrorAck (n t : Nat)
deriving DecidableEq, Repr

end Sys2Proof
end

