-- ==== Sys2Proof/Config.lean ====
section
/-! DEFINITION. What one unit of the G9256 fixes, and the values the spec leaves open: opaque constants without a body. -/

namespace Sys2Proof

/-- The serial number of this unit (0x1000.04: "unit serial, factory", spec/05_object_dictionary.md R131). -/
opaque Config.unitSerial : Nat

/-- The Ethernet addresses of this unit's four ring ports, which the spec does not state (Table 03-1, assumption log 170). -/
opaque Config.ringPort : Nat → Nat

/-- Free values: a value the spec does not state, of the given width, drawn by a counter of State (assumption log 2). -/
opaque Config.freeValue : Nat → Nat

end Sys2Proof
end

