-- ==== Sys2Proof/Machine/Flags.lean ====
section
/-! DEFINITION. Arithmetic of the spec: convergent rounding and saturation (R159), singles and gain conversion (R7, R113,
R160), integer square roots (Table 07-3), sine and cosine, byte order (R7), bit fields and check codes. -/

namespace Sys2Proof.Machine

/-- Quotient rounded to nearest, ties to even (R159: convergent rounding); `d` is positive. -/
def roundDiv (n d : Int) : Int :=
  let q := n.fdiv d
  let r := n.fmod d
  if 2 * r < d then q
  else if 2 * r > d then q + 1
  else if q % 2 = 0 then q else q + 1

/-- Convergent rounding of a rational (R159). -/
def roundRat (q : Rat) : Int := roundDiv q.num q.den

/-- Arithmetic right shift by `k` with convergent rounding (R159); a negative `k` shifts left. -/
def roundShr (n : Int) (k : Int) : Int :=
  if k ≤ 0 then n * 2 ^ (-k).toNat else roundDiv n (2 ^ k.toNat)

/-- Saturation to `n` bits of two's complement (R159). -/
def sat (n : Nat) (x : Int) : Int := max (intMin n) (min (intMax n) x)

/-- Torque command format: Q1.31 saturated to ±(2³¹ − 1) (Table 07-3). -/
def satTorque (x : Int) : Int := max (-(2 ^ 31 - 1)) (min (2 ^ 31 - 1) x)

/-- Clamp `x` between `lo` and `hi`. -/
def clampInt (x lo hi : Int) : Int := max lo (min hi x)

/-- The sign of an integer. -/
def sgn (x : Int) : Int := if x < 0 then -1 else if x = 0 then 0 else 1

/-- A counter of `n` bits that saturates. -/
def satInc (n : Nat) (x : Int) (by_ : Int := 1) : Int := min (2 ^ n - 1) (x + by_)

/-- Low `n` bits of an integer, as an unsigned number. -/
def lowBits (n : Nat) (x : Int) : Nat := (x % (2 ^ n : Int)).toNat

/-- The two's complement reading of the low `n` bits of a number. -/
def toSigned (n : Nat) (x : Nat) : Int :=
  let m := x % 2 ^ n
  if m < 2 ^ (n - 1) then (m : Int) else (m : Int) - 2 ^ n

/-- Bits `[lo + w - 1 : lo]` of a word. -/
def bits (x lo w : Nat) : Nat := (x / 2 ^ lo) % 2 ^ w

/-- One bit of a word. -/
def bit (x k : Nat) : Bool := (x / 2 ^ k) % 2 = 1

/-- A Bool as a bit at place `k`. -/
def bitAt (b : Bool) (k : Nat) : Nat := if b then 2 ^ k else 0

/-- Word `x` with bit `k` set to `b`. -/
def setBit (x k : Nat) (b : Bool) : Nat :=
  if bit x k = b then x else if b then x + 2 ^ k else x - 2 ^ k

/-- Integer square root, rounded down, one result bit per fuel (Table 07-3: rounded toward zero). -/
def isqrtLoop : Nat → Nat → Nat → Nat
  | 0, _, r => r
  | k + 1, n, r =>
    let r' := r + 2 ^ k
    if r' * r' ≤ n then isqrtLoop k n r' else isqrtLoop k n r

/-- Integer square root of a natural number, rounded down. -/
def isqrt (n : Nat) : Nat := isqrtLoop (n.log2 / 2 + 1) n 0

/-- Smallest natural number whose square is at least `n`. -/
def isqrtUp (n : Nat) : Nat :=
  let r := isqrt n
  if r * r = n then r else r + 1

/-- Square root of a non-negative rational, as a rational with `k` fraction bits, rounded up. -/
def sqrtRat (k : Nat) (q : Rat) : Rat :=
  if q ≤ 0 then 0 else
    mkRat (isqrtUp (q.num.toNat * 2 ^ (2 * k) / q.den + (if q.num.toNat * 2 ^ (2 * k) % q.den = 0 then 0 else 1))) (2 ^ k)

/-! ### Singles (R7, R113, R160) -/

/-- A single is finite (R7: NaN and infinities are refused). -/
def f32Finite (p : Int) : Bool := decide (0 ≤ p) && decide (p < 2 ^ 32) && decide (bits p.toNat 23 8 ≠ 255)

/-- Order key of a finite single: equal to the order of the values, with both zeros at 0. -/
def f32Key (p : Int) : Int :=
  let n := p.toNat
  if bit n 31 then -((n % 2 ^ 31 : Nat) : Int) else ((n % 2 ^ 31 : Nat) : Int)

/-- The exact value of a finite single. -/
def f32Rat (p : Int) : Rat :=
  let n := p.toNat
  let e := bits n 23 8
  let f := bits n 0 23
  let m : Int := if e = 0 then f else f + 2 ^ 23
  let v : Rat := if e = 0 then mkRat m (2 ^ 149)
    else if e ≤ 150 then mkRat m (2 ^ (150 - e)) else (m * 2 ^ (e - 150) : Int)
  if bit n 31 then -v else v

/-- The single nearest to a rational, ties to even; a magnitude beyond the largest single gives that single. -/
def f32Of (q : Rat) : Nat :=
  let n := q.num.natAbs
  if n = 0 then 0 else
    let sg := if q < 0 then 2 ^ 31 else 0
    -- exponent e with 2^e ≤ |q| < 2^(e+1), or one more; at least −126
    let e0 : Int := (n.log2 : Int) - (q.den.log2 : Int)
    let e0 := if (if 0 ≤ e0 then q.den * 2 ^ e0.toNat ≤ n else q.den ≤ n * 2 ^ (-e0).toNat) then e0 else e0 - 1
    let e := max (-126) e0
    let sh : Int := 23 - e
    let m := (if 0 ≤ sh then roundDiv (n * 2 ^ sh.toNat) q.den else roundDiv n (q.den * 2 ^ (-sh).toNat)).toNat
    let p := if m < 2 ^ 23 then m else (e + 126).toNat * 2 ^ 23 + m
    sg + min p 0x7F7FFFFF

/-- Largest shift, from `k` down, whose mantissa fits I32 (R160). -/
def gainShiftLoop (g : Rat) : Nat → Option (Int × Nat)
  | 0 => if (roundRat g).natAbs ≤ 2 ^ 31 - 1 then some (roundRat g, 0) else none
  | k + 1 =>
    let m := roundRat (g * 2 ^ (k + 1))
    if m.natAbs ≤ 2 ^ 31 - 1 then some (m, k + 1) else gainShiftLoop g k

/-- Mantissa G_M and shift G_S of a gain; none where step 8 refuses it (R160). -/
def gainConv (g : Rat) : Option (Int × Nat) := gainShiftLoop g 62

/-- A converted gain applied to an input with `fin` fraction bits for an output with `fout` (R160), saturated to I64. -/
def gainMul (g : Rat) (x : Int) (fin fout : Int) : Int :=
  match gainConv g with
  | some (gm, gs) => sat 64 (roundShr (x * gm) (gs + fin - fout))
  | none => 0

/-- A biquad coefficient in Q4.28 (R166, R113). -/
def q428 (p : Int) : Int := sat 32 (roundRat (f32Rat p * 2 ^ 28))

/-- A single as a fraction in Q1.31 (R113), saturated to I32. -/
def q131 (p : Int) : Int := sat 32 (roundRat (f32Rat p * 2 ^ 31))

/-! ### Sine and cosine (Table 07-3: within ±2⁻³⁰ of the true value) -/

/-- π/2 with 64 fraction bits. -/
def halfPi64 : Int := 28976077832308491370

/-- π as a rational (error below 2⁻⁶⁰). -/
def piRat : Rat := mkRat (2 * halfPi64) (2 ^ 64)

/-- Terms of the sine series of `x` (60 fraction bits): `x2` its square, `term` the current term, `k` the next divisor. -/
def sinTerms (x2 : Int) : Nat → Nat → Int → Int → Int
  | 0, _, _, acc => acc
  | n + 1, k, term, acc =>
    let term' := -(term * x2 / 2 ^ 60) / ((k * (k + 1) : Nat) : Int)
    sinTerms x2 n (k + 2) term' (acc + term')

/-- Sine of an angle within a quadrant (fraction of π/2 with 30 bits), with 60 fraction bits. -/
def sinQuad (f : Nat) : Int :=
  let x : Int := f * halfPi64 / 2 ^ 34
  sinTerms (x * x / 2 ^ 60) 12 2 x x

/-- Sine of a U32 angle (one turn = 2³²) as Q1.31: the nearest value, moved by at most one unit by a free value, which keeps
the bound of Table 07-3 (assumption log 11). -/
def sinQ31 (th : Nat) : Int :=
  let a := th % 2 ^ 32
  let q := a / 2 ^ 30
  let f := a % 2 ^ 30
  let m := if q % 2 = 0 then sinQuad f else sinQuad (2 ^ 30 - f)
  let v := roundShr (if q < 2 then m else -m) 29
  let err : Int := ((Config.freeValue (2 ^ 33 + a)) % 3 : Nat) - 1
  sat 32 (v + err)

/-- Cosine of a U32 angle as Q1.31. -/
def cosQ31 (th : Nat) : Int := sinQ31 (th + 2 ^ 30)

/-! ### Bytes (R7: little-endian) -/

/-- `n` bytes of a number, least significant first. -/
def leBytes : Nat → Nat → List Byte
  | 0, _ => []
  | n + 1, x => BitVec.ofNat 8 x :: leBytes n (x / 256)

/-- The number that bytes spell, least significant first. -/
def leNat : List Byte → Nat
  | [] => 0
  | b :: t => b.toNat + 256 * leNat t

/-- `n` bytes of a number, most significant first. -/
def beBytes (n x : Nat) : List Byte := (leBytes n x).reverse

/-- `n` bytes of a list from offset `o`, short lists padded with zeros. -/
def slice (l : List Byte) (o n : Nat) : List Byte :=
  let t := (l.drop o).take n
  t ++ List.replicate (n - t.length) 0

/-- Unsigned number at offset `o` of a byte list. -/
def leAt (l : List Byte) (o n : Nat) : Nat := leNat (slice l o n)

/-! ### Check codes -/

/-- One bit of a reflected CRC-32 (IEEE 802.3). -/
def crc32Bit (c : Nat) : Nat := if c % 2 = 1 then (c / 2) ^^^ 0xEDB88320 else c / 2

/-- One byte of a reflected CRC-32. -/
def crc32Byte (c : Nat) (b : Byte) : Nat :=
  let x := c ^^^ b.toNat
  crc32Bit (crc32Bit (crc32Bit (crc32Bit (crc32Bit (crc32Bit (crc32Bit (crc32Bit x)))))))

/-- CRC-32 of IEEE 802.3 over bytes. -/
def crc32 (l : List Byte) : Nat := (l.foldl crc32Byte 0xFFFFFFFF) ^^^ 0xFFFFFFFF

/-- One bit of a CRC sent most significant bit first, of width `w` and polynomial `poly`. -/
def crcStep (w poly c : Nat) (b : Bool) : Nat :=
  let top := bit c (w - 1) != b
  let c' := (c * 2) % 2 ^ w
  if top then c' ^^^ poly else c'

/-- CRC over a list of bits, most significant bit first. -/
def crcBits (w poly init : Nat) (l : List Bool) : Nat := l.foldl (crcStep w poly) init

/-- The low `n` bits of a number, most significant first. -/
def msbBits : Nat → Nat → List Bool
  | 0, _ => []
  | n + 1, x => bit x n :: msbBits n x

/-- The bits of bytes in order, each byte most significant bit first. -/
def byteBits (l : List Byte) : List Bool := l.flatMap fun b => msbBits 8 b.toNat

/-- Parity (true when the number of ones is odd). -/
def oddOnes (l : List Bool) : Bool := l.foldl (· != ·) false

/-- Gray code of `n` bits decoded (Table 09-4). -/
def grayLoop : Nat → Nat → Nat → Nat
  | 0, _, r => r
  | k + 1, g, r => grayLoop k (g / 2) (r ^^^ g)

/-- Binary value of a Gray-coded word of `n` bits. -/
def unGray (n g : Nat) : Nat := grayLoop n (g % 2 ^ n) 0

/-- Serial comparison of 32-bit numbers: `x` is later than `y` (R20). -/
def serialLater (x y : Nat) : Bool := decide (0 < toSigned 32 (x + 2 ^ 32 - y % 2 ^ 32))

end Sys2Proof.Machine
end

