-- ==== Sys2Proof/Machine/Memory.lean ====
section
/-! DEFINITION. Byte memories (data SRAM of an engine, shared SRAM, user-code SRAM) as lists of cells in one canonical form:
addresses strictly rising, no cell that holds 0. A byte nothing has written reads 0 (assumption log 15). -/

namespace Sys2Proof.Machine

/-- A byte memory. -/
abbrev Mem := List Host.Cell

/-- The byte at an address. -/
def Mem.get : Mem → Nat → Byte
  | [], _ => 0
  | (k, v) :: t, a => if a = k then v else Mem.get t a

/-- A memory with one byte set, in canonical form. -/
def Mem.set : Mem → Nat → Byte → Mem
  | [], a, b => if b = 0 then [] else [(a, b)]
  | (k, v) :: t, a, b =>
    if a = k then (if b = 0 then t else (a, b) :: t)
    else if a < k then (if b = 0 then (k, v) :: t else (a, b) :: (k, v) :: t)
    else (k, v) :: Mem.set t a b

/-- Addresses from `lo` on, strictly rising, no byte 0. -/
def Mem.wfFrom : Nat → Mem → Bool
  | _, [] => true
  | lo, (k, v) :: t => decide (lo ≤ k) && decide (v ≠ 0) && Mem.wfFrom (k + 1) t

/-- The canonical form of a memory. -/
def Mem.wf (m : Mem) : Bool := Mem.wfFrom 0 m

/-- `n` bytes at an address, as a number, least significant first. -/
def Mem.read (m : Mem) (a : Nat) : Nat → Nat
  | 0 => 0
  | n + 1 => (m.get a).toNat + 256 * Mem.read m (a + 1) n

/-- The low `n` bytes of a number written at an address, least significant first. -/
def Mem.write (m : Mem) (a : Nat) : Nat → Nat → Mem
  | 0, _ => m
  | n + 1, x => Mem.write (m.set a (BitVec.ofNat 8 x)) (a + 1) n (x / 256)

/-- Bytes written at an address. -/
def Mem.writeBytes (m : Mem) (a : Nat) : List Byte → Mem
  | [] => m
  | b :: t => Mem.writeBytes (m.set a b) (a + 1) t

/-- `n` bytes copied from one memory to another. -/
def Mem.copy (src : Mem) (a : Nat) (dst : Mem) (b : Nat) : Nat → Mem
  | 0 => dst
  | n + 1 => Mem.copy src (a + 1) (dst.set b (src.get a)) (b + 1) n

end Sys2Proof.Machine
end

