-- ==== Sys2Proof/Machine/BootState.lean ====
section
/-! DEFINITION. State of start-up, power and the flash (spec/18_startup.md, 16_mailboxes_and_power.md, 19_electrical_and_package.md). -/

namespace Sys2Proof.Machine

/-- A firmware region of the QSPI NOR (R425): its bytes from the header on, IMAGE_STATE, failed attempts (R427). -/
structure ImageRt where
  bytes : List Byte := []
  status : Nat := 0
  fails : Nat := 0
deriving DecidableEq, Repr

/-- Start-up, power and reset beside the objects. -/
structure BootRt where
  /-- Regions A and B, the public keys in the flash with the fused hashes, the fused counter ROLLBACK_MIN (R425 to R427). -/
  imgA : ImageRt := {}
  imgB : ImageRt := {}
  keys : List BootKey := []
  rollback : Nat := 0
  /-- BOOT_SELECT as the Islia region of MRAM keeps it. -/
  select : Nat := 0
  /-- The running image: 0 A, 1 B. -/
  running : Option Nat := none
  /-- No image can be taken: the unit stays in the boot ROM (R429). -/
  noImage : Bool := false
  /-- An upload: region, total length, the session that runs it (R428). -/
  upload : Option (Nat × Nat × Nat) := none
  /-- The configuration step has ended (R430). -/
  configured : Bool := false
  /-- What holds the unit in reset: 0 nothing, 1 the supervisor, 2 temperature, 3 EXTEST. -/
  held : Nat := 0
  /-- POWER_STATE is STANDBY (R400), or OFF: VAON absent (R399). -/
  standby : Bool := false
  off : Bool := false
  /-- RESET_UNIT or POWER_REQUEST accepted: it acts once its write is acknowledged. -/
  resetDue : Bool := false
  standbyDue : Bool := false
  /-- Last restart of the watchdog by management pairs 0 and 1 (R424). -/
  fed : List Nat := [0, 0]
  /-- TJ at 130 °C or more since (R452). -/
  hot : Option Nat := none
  /-- The sensors have been sampled since reset (TJ_PEAK). -/
  sampled : Bool := false
deriving DecidableEq, Repr

end Sys2Proof.Machine
end

