-- ==== Sys2Proof/Machine/Catalogue.lean ====
section
/-! DEFINITION. The object dictionary's rows: one constant per object (or run of objects) of the spec's object tables,
with its place, type, access code, origin, default and range. Spec: the Objects section of each chapter; R2 to R7, R103 to R106. -/

namespace Sys2Proof.Machine

/-- Types of object values (Table 00-4, Table 05-3; R7, R105). -/
inductive Ty where
  | bool | u8 | u16 | u32 | u64 | i8 | i16 | i32 | i64 | f32 | q32 | time64 | tod80 | str | domain
deriving DecidableEq, Repr

/-- Access codes (Table 00-3; R6). -/
inductive Acc where
  | ro | rwc | rwi | cmd | any | saf | fix
deriving DecidableEq, Repr

/-- Origin of a default (R5). -/
inductive Origin where
  | factory | stored | derived
deriving DecidableEq, Repr

/-- What the Range column says of a value alone (R106). -/
inductive Rng where
  /-- Integers in one of the closed intervals. -/
  | ints (ivs : List (Int × Int))
  /-- Integers from `lo` to `hi` in steps of `m`. -/
  | mult (lo hi m : Int)
  /-- Finite singles whose order key (R7: NaN and infinities refused) lies between the bounds. -/
  | f32 (lo hi : Int)
  /-- Octet strings of `lo` to `hi` bytes, a multiple of `m`. -/
  | len (lo hi m : Nat)
  /-- Channel layouts of a worker table entry (Table 03-18). -/
  | chanLayouts
  /-- A control word (Table 08-2). -/
  | control
  /-- An input source word (Table 08-7). -/
  | sourceWord
  /-- A FOLLOW selection (Table 07-4). -/
  | followSel
  /-- An absolute encoder format (Table 09-4). -/
  | absFormat
  /-- A capture channel source (Table 17-4). -/
  | chanSrc
  /-- A performance counter configuration (Table 17-1). -/
  | pmcCfg
deriving DecidableEq, Repr

/-- One row of the object tables: instance `i` (0 to `n1 - 1`) and `j` (`j0` to `j0 + n2 - 1`) stand at index
`base + st1 * i + st2 * j`, subindexes `sub` to `sub + subn - 1`. -/
structure Obj where
  base : Nat
  n1 : Nat
  st1 : Nat
  n2 : Nat
  st2 : Nat
  j0 : Nat
  sub : Nat
  subn : Nat
  ty : Ty
  acc : Acc
  org : Origin
  dflt : Int
  rng : Rng
deriving DecidableEq, Repr

/-- The dictionary key of an object: index times 256 plus subindex (R2). -/
def Obj.key (o : Obj) (i : Nat := 0) (j : Nat := 0) (k : Nat := 0) : Nat :=
  (o.base + o.st1 * i + o.st2 * j) * 256 + o.sub + k

/-- CYCLE_NUMBER_A–D U32 (Table 02-10, R46): Cycle number of the last whistle, per ring. -/
def Ob.Cyc.CYCLE_NUMBER : Obj :=
  ⟨0x3100, 1, 0x1, 1, 1, 0, 0x01, 4, .u32, .ro, .derived, 0, .ints [(0, 4294967295)]⟩

/-- ACTIVE_SCHEDULE_A–D U8 (Table 02-10, R46): Schedule governing the ring. -/
def Ob.Cyc.ACTIVE_SCHEDULE : Obj :=
  ⟨0x3100, 1, 0x1, 1, 1, 0, 0x05, 4, .u8, .ro, .derived, 0, .ints [(0, 255)]⟩

/-- START_SCHEDULE_A–D U8 (Table 02-10, R46): Schedule applied at kickoff. -/
def Ob.Cyc.START_SCHEDULE : Obj :=
  ⟨0x3100, 1, 0x1, 1, 1, 0, 0x09, 4, .u8, .rwc, .stored, 0, .ints [(0, 7)]⟩

/-- LOCAL_RING U8 (Table 02-10, R46): Ring whose whistle local ports and field die follow. -/
def Ob.Cyc.LOCAL_RING : Obj :=
  ⟨0x3100, 1, 0x1, 1, 1, 0, 0x0D, 1, .u8, .rwc, .stored, 0, .ints [(0, 3)]⟩

/-- ADMIT_RESULT U8 (Table 02-10, R46): 0 fits; otherwise the lowest code of Table 02-6 that failed (R458). -/
def Ob.Cyc.ADMIT_RESULT : Obj :=
  ⟨0x3101, 1, 0x1, 1, 1, 0, 0x01, 1, .u8, .ro, .derived, 0, .ints [(0, 255)]⟩

/-- ADMIT_RING U8 (Table 02-10, R46): Ring of the smallest margin, or of the failing condition 1, 4 or 5 (R458). -/
def Ob.Cyc.ADMIT_RING : Obj :=
  ⟨0x3101, 1, 0x1, 1, 1, 0, 0x02, 1, .u8, .ro, .derived, 0, .ints [(0, 255)]⟩

/-- ADMIT_ACE U8 (Table 02-10, R46): ACE of the smallest margin; 0xFF for a ring-time term or when conditions 2 and 3 were not evaluated. -/
def Ob.Cyc.ADMIT_ACE : Obj :=
  ⟨0x3101, 1, 0x1, 1, 1, 0, 0x03, 1, .u8, .ro, .derived, 0, .ints [(0, 255)]⟩

/-- ADMIT_PHASE U8 (Table 02-10, R46): Phase of the smallest margin; 0xFF as ADMIT_ACE. -/
def Ob.Cyc.ADMIT_PHASE : Obj :=
  ⟨0x3101, 1, 0x1, 1, 1, 0, 0x04, 1, .u8, .ro, .derived, 0, .ints [(0, 255)]⟩

/-- MARGIN I32 (Table 02-10, R46): t_d minus the largest of the ring-time terms and ACE bounds (R458); negative on failure; 0 when conditions 2 and 3 were not evaluated. -/
def Ob.Cyc.MARGIN : Obj :=
  ⟨0x3101, 1, 0x1, 1, 1, 0, 0x05, 1, .i32, .ro, .derived, 0, .ints [(-2147483648, 2147483647)]⟩

/-- PREDICTED_FINISH_0–7 U32 (Table 02-10, R46): Largest F for ACE0–ACE7 over all phases, from t_W. -/
def Ob.Cyc.PREDICTED_FINISH : Obj :=
  ⟨0x3102, 1, 0x1, 1, 1, 0, 0x01, 8, .u32, .ro, .derived, 0, .ints [(0, 4294967295)]⟩

/-- OVERRUN_LIMIT U8 (Table 02-10, R46): Consecutive undone cycles before QSTOP. -/
def Ob.Cyc.OVERRUN_LIMIT : Obj :=
  ⟨0x3103, 1, 0x1, 1, 1, 0, 0x01, 1, .u8, .rwc, .stored, 3, .ints [(1, 255)]⟩

/-- UNDONE_COMPUTE U32 (Table 02-10, R46): Axis-cycles undone by COMPUTE. -/
def Ob.Cyc.UNDONE_COMPUTE : Obj :=
  ⟨0x3103, 1, 0x1, 1, 1, 0, 0x02, 1, .u32, .ro, .derived, 0, .ints [(0, 4294967295)]⟩

/-- UNDONE_LATE U32 (Table 02-10, R46): Axis-cycles undone by LATE_SAMPLE. -/
def Ob.Cyc.UNDONE_LATE : Obj :=
  ⟨0x3103, 1, 0x1, 1, 1, 0, 0x03, 1, .u32, .ro, .derived, 0, .ints [(0, 4294967295)]⟩

/-- FRAME_MISSING_LIMIT U8 (Table 02-10, R46): Consecutive missing frames before ring QSTOP. -/
def Ob.Cyc.FRAME_MISSING_LIMIT : Obj :=
  ⟨0x3103, 1, 0x1, 1, 1, 0, 0x04, 1, .u8, .rwc, .stored, 2, .ints [(1, 3)]⟩

/-- FRAME_MISSING_A–D U32 (Table 02-10, R46): Missing frames per ring. -/
def Ob.Cyc.FRAME_MISSING : Obj :=
  ⟨0x3103, 1, 0x1, 1, 1, 0, 0x05, 4, .u32, .ro, .derived, 0, .ints [(0, 4294967295)]⟩

/-- CLEAR_COUNTS U8 (Table 02-10, R46): Writing 1 clears 0x3103.02, .03, .05 to .08 and .0A. -/
def Ob.Cyc.CLEAR_COUNTS : Obj :=
  ⟨0x3103, 1, 0x1, 1, 1, 0, 0x09, 1, .u8, .cmd, .factory, 0, .ints [(1, 1)]⟩

/-- UNDONE_FRAME U32 (Table 02-10, R46): Axis-cycles undone by FRAME. -/
def Ob.Cyc.UNDONE_FRAME : Obj :=
  ⟨0x3103, 1, 0x1, 1, 1, 0, 0x0A, 1, .u32, .ro, .derived, 0, .ints [(0, 4294967295)]⟩

/-- CYCLE_EXP U8 (Table 02-11, R46): k of Table 02-1. -/
def Ob.Sched.CYCLE_EXP : Obj :=
  ⟨0x3110, 4, 0x8, 8, 1, 0, 0x01, 1, .u8, .rwc, .stored, 1, .ints [(0, 6)]⟩

/-- WHISTLE_OFFSET U32 (Table 02-11, R46): W in ns. -/
def Ob.Sched.WHISTLE_OFFSET : Obj :=
  ⟨0x3110, 4, 0x8, 8, 1, 0, 0x02, 1, .u32, .rwc, .stored, 0, .ints [(0, 999999)]⟩

/-- AXIS_PLAN DOMAIN (Table 02-11, R46): 4-byte entries, one per axis on the ring; format in Table 02-12. -/
def Ob.Sched.AXIS_PLAN : Obj :=
  ⟨0x3110, 4, 0x8, 8, 1, 0, 0x03, 1, .domain, .rwc, .stored, 0, .len 0 1024 1⟩

/-- IO_SIZES DOMAIN (Table 02-11, R46): 4-byte entries, one per IO channel: position (1–64), down bytes (0–32), up bytes (0–32), channel (0–7). An IO channel without an entry carries 0 bytes each way. Commit …. -/
def Ob.Sched.IO_SIZES : Obj :=
  ⟨0x3110, 4, 0x8, 8, 1, 0, 0x04, 1, .domain, .rwc, .stored, 0, .len 0 2048 1⟩

/-- VALID BOOL (Table 02-11, R46): 1 when the plan passes conditions 4 and 5 alone. -/
def Ob.Sched.VALID : Obj :=
  ⟨0x3110, 4, 0x8, 8, 1, 0, 0x05, 1, .bool, .ro, .derived, 0, .ints [(0, 1)]⟩

/-- RING_MASK U8 (Table 02-13, R46): Bit r set: ring r takes part. -/
def Ob.Hud.RING_MASK : Obj :=
  ⟨0x3130, 1, 0x1, 1, 1, 0, 0x01, 1, .u8, .rwi, .factory, 0, .ints [(0, 15)]⟩

/-- TARGET_A–D U8 (Table 02-13, R46): Target schedule per ring. -/
def Ob.Hud.TARGET : Obj :=
  ⟨0x3130, 1, 0x1, 1, 1, 0, 0x02, 4, .u8, .rwi, .factory, 0, .ints [(0, 7)]⟩

/-- SWITCH_TIME TIME64 (Table 02-13, R46): c*; 0 for earliest. -/
def Ob.Hud.SWITCH_TIME : Obj :=
  ⟨0x3130, 1, 0x1, 1, 1, 0, 0x06, 1, .time64, .rwi, .factory, 0, .ints [(0, 18446744073709551615)]⟩

/-- LEAD U8 (Table 02-13, R46): Minimum announcement, in cycles of the slowest ring involved. -/
def Ob.Hud.LEAD : Obj :=
  ⟨0x3130, 1, 0x1, 1, 1, 0, 0x07, 1, .u8, .rwc, .stored, 8, .ints [(3, 255)]⟩

/-- GO CMD (Table 02-13, R46): Starts the huddle per R42. CMD is none of Table 00-4's types; U8 is the model's choice (assumption log 188). -/
def Ob.Hud.GO : Obj :=
  ⟨0x3130, 1, 0x1, 1, 1, 0, 0x08, 1, .u8, .cmd, .factory, 0, .ints [(1, 1)]⟩

/-- STATE U8 (Table 02-13, R46): 0 IDLE, 1 ANNOUNCED, 2 CONFIRMED, 3 DONE, 4 CANCELLED, 5 REFUSED. -/
def Ob.Hud.STATE : Obj :=
  ⟨0x3131, 1, 0x1, 1, 1, 0, 0x01, 1, .u8, .ro, .derived, 0, .ints [(0, 255)]⟩

/-- SWITCH_AT TIME64 (Table 02-13, R46): c* chosen. -/
def Ob.Hud.SWITCH_AT : Obj :=
  ⟨0x3131, 1, 0x1, 1, 1, 0, 0x02, 1, .time64, .ro, .derived, 0, .ints [(0, 18446744073709551615)]⟩

/-- MISSING_ACK_A–D U64 (Table 02-13, R46): Bit p−1 set: worker p did not acknowledge. -/
def Ob.Hud.MISSING_ACK : Obj :=
  ⟨0x3131, 1, 0x1, 1, 1, 0, 0x03, 4, .u64, .ro, .derived, 0, .ints [(0, 18446744073709551615)]⟩

/-- CANCEL_COUNT U32 (Table 02-13, R46): Huddles cancelled since reset. -/
def Ob.Hud.CANCEL_COUNT : Obj :=
  ⟨0x3131, 1, 0x1, 1, 1, 0, 0x07, 1, .u32, .ro, .derived, 0, .ints [(0, 4294967295)]⟩

/-- REASON U8 (Table 02-13, R46): 0 none, 1 ACK_MISSING, 2 BUDGET, 3 SWITCH_OVER, 4 NOT_PLAY, 5 SCHEDULE_INVALID. -/
def Ob.Hud.REASON : Obj :=
  ⟨0x3131, 1, 0x1, 1, 1, 0, 0x08, 1, .u8, .ro, .derived, 0, .ints [(0, 255)]⟩

/-- UNDONE BOOL (Table 02-14, R46): Axis undone in the scoreboard's cycle. -/
def Ob.AxD.UNDONE : Obj :=
  ⟨0x403C, 256, 0x40, 1, 1, 0, 0x07, 1, .bool, .ro, .derived, 0, .ints [(0, 1)]⟩

/-- UNDONE_TOTAL U32 (Table 02-14, R46): Undone cycles since reset. -/
def Ob.AxD.UNDONE_TOTAL : Obj :=
  ⟨0x403C, 256, 0x40, 1, 1, 0, 0x08, 1, .u32, .ro, .derived, 0, .ints [(0, 4294967295)]⟩

/-- UNDONE_RUN U8 (Table 02-14, R46): Consecutive undone cycles. -/
def Ob.AxD.UNDONE_RUN : Obj :=
  ⟨0x403C, 256, 0x40, 1, 1, 0, 0x09, 1, .u8, .ro, .derived, 0, .ints [(0, 255)]⟩

/-- ENABLE BOOL (Table 03-17, R78): Ring in use; kicked off at start-up. -/
def Ob.Ring.ENABLE : Obj :=
  ⟨0x2000, 4, 0x400, 1, 1, 0, 0x01, 1, .bool, .rwc, .stored, 0, .ints [(0, 1)]⟩

/-- PHY_RATE U8 (Table 03-17, R78): 0 2500BASE-X, 1 1000BASE-X. -/
def Ob.Ring.PHY_RATE : Obj :=
  ⟨0x2000, 4, 0x400, 1, 1, 0, 0x02, 1, .u8, .rwc, .stored, 0, .ints [(0, 1)]⟩

/-- WORKER_COUNT U8 (Table 03-17, R78): N. -/
def Ob.Ring.WORKER_COUNT : Obj :=
  ⟨0x2000, 4, 0x400, 1, 1, 0, 0x03, 1, .u8, .rwc, .stored, 1, .ints [(1, 64)]⟩

/-- FAR_END U8 (Table 03-17, R78): 0 worker N loops back, 1 partner unit. -/
def Ob.Ring.FAR_END : Obj :=
  ⟨0x2000, 4, 0x400, 1, 1, 0, 0x04, 1, .u8, .rwc, .stored, 0, .ints [(0, 1)]⟩

/-- FAR_SEGMENT_LENGTH U32 (Table 03-17, R78): Cable from worker N to the partner. -/
def Ob.Ring.FAR_SEGMENT_LENGTH : Obj :=
  ⟨0x2000, 4, 0x400, 1, 1, 0, 0x05, 1, .u32, .rwc, .stored, 0, .ints [(0, 2000000)]⟩

/-- DECLARED_LENGTH U32 (Table 03-17, R78): L_decl (R49). -/
def Ob.Ring.DECLARED_LENGTH : Obj :=
  ⟨0x2000, 4, 0x400, 1, 1, 0, 0x06, 1, .u32, .ro, .derived, 0, .ints [(0, 4294967295)]⟩

/-- ETHERTYPE U16 (Table 03-17, R78): Rally frame EtherType. -/
def Ob.Ring.ETHERTYPE : Obj :=
  ⟨0x2000, 4, 0x400, 1, 1, 0, 0x07, 1, .u16, .rwc, .stored, 34997, .ints [(1536, 65535)]⟩

/-- PRIORITY U8 (Table 03-17, R78): Kickoff claim priority. -/
def Ob.Ring.PRIORITY : Obj :=
  ⟨0x2000, 4, 0x400, 1, 1, 0, 0x08, 1, .u8, .rwc, .stored, 8, .ints [(0, 15)]⟩

/-- KICKOFF U8 (Table 03-17, R78): Starts kickoff from DARK or FAILED; STATE otherwise. -/
def Ob.Ring.KICKOFF : Obj :=
  ⟨0x2001, 4, 0x400, 1, 1, 0, 0x01, 1, .u8, .cmd, .factory, 0, .ints [(1, 1)]⟩

/-- STOP U8 (Table 03-17, R78): Transmitter off, ring to DARK. -/
def Ob.Ring.STOP : Obj :=
  ⟨0x2001, 4, 0x400, 1, 1, 0, 0x02, 1, .u8, .cmd, .factory, 0, .ints [(1, 1)]⟩

/-- STATE U8 (Table 03-17, R78): 0 DARK, 1 LINK, 2 ROLLCALL, 3 ALIGN, 4 HUDDLE, 5 PLAY, 6 FAILED, 7 YIELDED. -/
def Ob.Ring.STATE : Obj :=
  ⟨0x2001, 4, 0x400, 1, 1, 0, 0x03, 1, .u8, .ro, .derived, 0, .ints [(0, 255)]⟩

/-- FAIL_REASON U8 (Table 03-17, R78): 0 none, 1 NO_LINK, 2 MEDIA, 3 COUNT_MISMATCH, 4 IDENT_MISMATCH, 5 ALIGN_TIMEOUT, 6 PARAM_FAILED, 7 BUDGET, 8 HUDDLE_TIMEOUT. -/
def Ob.Ring.FAIL_REASON : Obj :=
  ⟨0x2001, 4, 0x400, 1, 1, 0, 0x04, 1, .u8, .ro, .derived, 0, .ints [(0, 255)]⟩

/-- KICKOFF_TIME U32 (Table 03-17, R78): Time from t_K to PLAY. -/
def Ob.Ring.KICKOFF_TIME : Obj :=
  ⟨0x2001, 4, 0x400, 1, 1, 0, 0x05, 1, .u32, .ro, .derived, 0, .ints [(0, 4294967295)]⟩

/-- LET_COUNT U32 (Table 03-17, R78): Kickoff collisions lost. -/
def Ob.Ring.LET_COUNT : Obj :=
  ⟨0x2001, 4, 0x400, 1, 1, 0, 0x06, 1, .u32, .ro, .derived, 0, .ints [(0, 4294967295)]⟩

/-- HOPS U8 (Table 03-17, R78): HOPS of the last returned CLAIM. -/
def Ob.Ring.HOPS : Obj :=
  ⟨0x2001, 4, 0x400, 1, 1, 0, 0x07, 1, .u8, .ro, .derived, 0, .ints [(0, 255)]⟩

/-- ATTENDANCE U64 (Table 03-17, R78): ATTENDANCE of the scoreboard's frame. -/
def Ob.Ring.ATTENDANCE : Obj :=
  ⟨0x2002, 4, 0x400, 1, 1, 0, 0x01, 1, .u64, .ro, .derived, 0, .ints [(0, 18446744073709551615)]⟩

/-- LOOPBACK_AT U8 (Table 03-17, R78): Position turning frames early; 0 none. -/
def Ob.Ring.LOOPBACK_AT : Obj :=
  ⟨0x2002, 4, 0x400, 1, 1, 0, 0x02, 1, .u8, .ro, .derived, 0, .ints [(0, 255)]⟩

/-- FCS_ERR U32 (Table 03-17, R78): Returned frames with a fresh error. -/
def Ob.Ring.FCS_ERR : Obj :=
  ⟨0x2002, 4, 0x400, 1, 1, 0, 0x03, 1, .u32, .ro, .derived, 0, .ints [(0, 4294967295)]⟩

/-- FCS_FWD U32 (Table 03-17, R78): Returned frames stomped. -/
def Ob.Ring.FCS_FWD : Obj :=
  ⟨0x2002, 4, 0x400, 1, 1, 0, 0x04, 1, .u32, .ro, .derived, 0, .ints [(0, 4294967295)]⟩

/-- LENGTH_ERR U32 (Table 03-17, R78): Frames failing Table 03-8 at the head. -/
def Ob.Ring.LENGTH_ERR : Obj :=
  ⟨0x2002, 4, 0x400, 1, 1, 0, 0x05, 1, .u32, .ro, .derived, 0, .ints [(0, 4294967295)]⟩

/-- REJOIN U8 (Table 03-17, R78): Starts a rejoin (R76). -/
def Ob.Ring.REJOIN : Obj :=
  ⟨0x2002, 4, 0x400, 1, 1, 0, 0x06, 1, .u8, .cmd, .factory, 0, .ints [(1, 1)]⟩

/-- REJOIN_STATE U8 (Table 03-17, R78): 0 IDLE, 1 OPENING, 2 ROLLCALL, 3 CONFIGURING. -/
def Ob.Ring.REJOIN_STATE : Obj :=
  ⟨0x2002, 4, 0x400, 1, 1, 0, 0x07, 1, .u8, .ro, .derived, 0, .ints [(0, 255)]⟩

/-- COMMIT_SPLIT U32 (Table 03-17, R78): Workers that missed a confirmed commit (R63). -/
def Ob.Ring.COMMIT_SPLIT : Obj :=
  ⟨0x2002, 4, 0x400, 1, 1, 0, 0x08, 1, .u32, .ro, .derived, 0, .ints [(0, 4294967295)]⟩

/-- VENDOR_ID U32 (Table 03-18, R78): Expected vendor code. -/
def Ob.Wk.VENDOR_ID : Obj :=
  ⟨0x2100, 4, 0x400, 64, 1, 1, 0x01, 1, .u32, .rwc, .stored, 0, .ints [(0, 4294967295)]⟩

/-- PRODUCT U32 (Table 03-18, R78): Expected product code. -/
def Ob.Wk.PRODUCT : Obj :=
  ⟨0x2100, 4, 0x400, 64, 1, 1, 0x02, 1, .u32, .rwc, .stored, 0, .ints [(0, 4294967295)]⟩

/-- REV_MIN U16 (Table 03-18, R78): Lowest accepted revision. -/
def Ob.Wk.REV_MIN : Obj :=
  ⟨0x2100, 4, 0x400, 64, 1, 1, 0x03, 1, .u16, .rwc, .stored, 0, .ints [(0, 65535)]⟩

/-- SERIAL U32 (Table 03-18, R78): Expected serial number. -/
def Ob.Wk.SERIAL : Obj :=
  ⟨0x2100, 4, 0x400, 64, 1, 1, 0x04, 1, .u32, .rwc, .stored, 0, .ints [(0, 4294967295)]⟩

/-- SUBSTITUTE_OK BOOL (Table 03-18, R78): Substitution allowed at this position. -/
def Ob.Wk.SUBSTITUTE_OK : Obj :=
  ⟨0x2100, 4, 0x400, 64, 1, 1, 0x05, 1, .bool, .rwc, .stored, 0, .ints [(0, 1)]⟩

/-- CHANNEL_LAYOUTS U32 (Table 03-18, R78): Layout of channel c in [4c+3:4c]; the channel count n is the number of non-zero nibbles. -/
def Ob.Wk.CHANNEL_LAYOUTS : Obj :=
  ⟨0x2100, 4, 0x400, 64, 1, 1, 0x06, 1, .u32, .rwc, .stored, 1, .chanLayouts⟩

/-- SEGMENT_LENGTH U32 (Table 03-18, R78): Cable from position p−1 to p. -/
def Ob.Wk.SEGMENT_LENGTH : Obj :=
  ⟨0x2100, 4, 0x400, 64, 1, 1, 0x07, 1, .u32, .rwc, .stored, 0, .ints [(0, 2000000)]⟩

/-- PARAM_BLOCK DOMAIN (Table 03-18, R78): Worker-defined records (type 0x8000 and up); the G9256 adds records 0x0001 to 0x0003 and the CRC. -/
def Ob.Wk.PARAM_BLOCK : Obj :=
  ⟨0x2100, 4, 0x400, 64, 1, 1, 0x08, 1, .domain, .rwc, .stored, 0, .len 0 16384 1⟩

/-- IDENT DOMAIN (Table 03-18, R78): Last IDENT payload from this position. -/
def Ob.Wk.IDENT : Obj :=
  ⟨0x2100, 4, 0x400, 64, 1, 1, 0x09, 1, .domain, .ro, .derived, 0, .len 0 112 1⟩

/-- STATUS U8 (Table 03-18, R78): 0 ABSENT, 1 PRESENT, 2 SUBSTITUTED, 3 MISMATCH, 4 LOOPBACK, 5 REJOINING, 6 OWN_STOP. -/
def Ob.Wk.STATUS : Obj :=
  ⟨0x2100, 4, 0x400, 64, 1, 1, 0x0A, 1, .u8, .ro, .derived, 0, .ints [(0, 255)]⟩

/-- LINK_ERR_COUNT U32 (Table 03-18, R78): Fresh errors reported (R77). -/
def Ob.Wk.LINK_ERR_COUNT : Obj :=
  ⟨0x2100, 4, 0x400, 64, 1, 1, 0x0B, 1, .u32, .ro, .derived, 0, .ints [(0, 4294967295)]⟩

/-- ABSENT_COUNT U32 (Table 03-18, R78): Cycles with the attendance bit clear. -/
def Ob.Wk.ABSENT_COUNT : Obj :=
  ⟨0x2100, 4, 0x400, 64, 1, 1, 0x0C, 1, .u32, .ro, .derived, 0, .ints [(0, 4294967295)]⟩

/-- SUBST_COUNT U32 (Table 03-18, R78): Substitutions accepted at this position. -/
def Ob.Wk.SUBST_COUNT : Obj :=
  ⟨0x2100, 4, 0x400, 64, 1, 1, 0x0D, 1, .u32, .ro, .derived, 0, .ints [(0, 4294967295)]⟩

/-- MACHINE_TIME TIME64 (Table 04-5, R102): Machine time at the scoreboard's whistle of LOCAL_RING. -/
def Ob.Clk.MACHINE_TIME : Obj :=
  ⟨0x1200, 1, 0x1, 1, 1, 0, 0x01, 1, .time64, .ro, .derived, 0, .ints [(0, 18446744073709551615)]⟩

/-- TOD TOD80 (Table 04-5, R102): Time of day at the same instant. -/
def Ob.Clk.TOD : Obj :=
  ⟨0x1200, 1, 0x1, 1, 1, 0, 0x02, 1, .tod80, .ro, .derived, 0, .ints [(0, 281474976710655999999999)]⟩

/-- RATE_ADJ I64 (Table 04-5, R102): Rate offset in 2⁻⁴⁰; within ±54 975 581 in an active or single unit (R98), the wider range only in a standby (R94). -/
def Ob.Clk.RATE_ADJ : Obj :=
  ⟨0x1200, 1, 0x1, 1, 1, 0, 0x03, 1, .i64, .ro, .derived, 0, .ints [(-9223372036854775808, 9223372036854775807)]⟩

/-- SYNC_STATE U8 (Table 04-5, R102): Table 04-4. -/
def Ob.Clk.SYNC_STATE : Obj :=
  ⟨0x1200, 1, 0x1, 1, 1, 0, 0x04, 1, .u8, .ro, .derived, 0, .ints [(0, 255)]⟩

/-- MASTER_OFFSET I64 (Table 04-5, R102): Filtered time of day minus grandmaster. -/
def Ob.Clk.MASTER_OFFSET : Obj :=
  ⟨0x1200, 1, 0x1, 1, 1, 0, 0x05, 1, .i64, .ro, .derived, 0, .ints [(-9223372036854775808, 9223372036854775807)]⟩

/-- STEPPED BOOL (Table 04-5, R102): Step of R98 taken. -/
def Ob.Clk.STEPPED : Obj :=
  ⟨0x1200, 1, 0x1, 1, 1, 0, 0x06, 1, .bool, .ro, .derived, 0, .ints [(0, 1)]⟩

/-- STEP_SIZE I64 (Table 04-5, R102): Size of that step. -/
def Ob.Clk.STEP_SIZE : Obj :=
  ⟨0x1200, 1, 0x1, 1, 1, 0, 0x07, 1, .i64, .ro, .derived, 0, .ints [(-9223372036854775808, 9223372036854775807)]⟩

/-- UTC_OFFSET I16 (Table 04-5, R102): currentUtcOffset from Announce. -/
def Ob.Clk.UTC_OFFSET : Obj :=
  ⟨0x1200, 1, 0x1, 1, 1, 0, 0x08, 1, .i16, .ro, .derived, 0, .ints [(-32768, 32767)]⟩

/-- SET_TOD TOD80 (Table 04-5, R102): Sets time of day; FREE only. -/
def Ob.Clk.SET_TOD : Obj :=
  ⟨0x1200, 1, 0x1, 1, 1, 0, 0x09, 1, .tod80, .cmd, .factory, 0, .ints [(0, 281474976710655999999999)]⟩

/-- RELOCK U8 (Table 04-5, R102): Back to FREE with STEPPED cleared; refused while a ring is in LINK to PLAY. -/
def Ob.Clk.RELOCK : Obj :=
  ⟨0x1200, 1, 0x1, 1, 1, 0, 0x0A, 1, .u8, .cmd, .factory, 0, .ints [(1, 1)]⟩

/-- PORT_ENABLE U8 (Table 04-6, R102): [0] H1, [1] H2. -/
def Ob.Ptp.PORT_ENABLE : Obj :=
  ⟨0x1201, 1, 0x1, 1, 1, 0, 0x01, 1, .u8, .rwc, .stored, 3, .ints [(0, 3)]⟩

/-- DOMAIN U8 (Table 04-6, R102): domainNumber. -/
def Ob.Ptp.DOMAIN : Obj :=
  ⟨0x1201, 1, 0x1, 1, 1, 0, 0x02, 1, .u8, .rwc, .stored, 0, .ints [(0, 127)]⟩

/-- ROLE U8 (Table 04-6, R102): 0 slave-only, 1 master-capable. -/
def Ob.Ptp.ROLE : Obj :=
  ⟨0x1201, 1, 0x1, 1, 1, 0, 0x03, 1, .u8, .rwc, .stored, 0, .ints [(0, 1)]⟩

/-- TRANSPORT U8 (Table 04-6, R102): 0 UDP/IPv4, 1 IEEE 802.3. -/
def Ob.Ptp.TRANSPORT : Obj :=
  ⟨0x1201, 1, 0x1, 1, 1, 0, 0x04, 1, .u8, .rwc, .stored, 0, .ints [(0, 1)]⟩

/-- PRIORITY1 U8 (Table 04-6, R102): priority1. -/
def Ob.Ptp.PRIORITY1 : Obj :=
  ⟨0x1201, 1, 0x1, 1, 1, 0, 0x05, 1, .u8, .rwc, .stored, 128, .ints [(0, 255)]⟩

/-- PRIORITY2 U8 (Table 04-6, R102): priority2. -/
def Ob.Ptp.PRIORITY2 : Obj :=
  ⟨0x1201, 1, 0x1, 1, 1, 0, 0x06, 1, .u8, .rwc, .stored, 128, .ints [(0, 255)]⟩

/-- TC_ENABLE BOOL (Table 04-6, R102): Transparent clock between H1 and H2. -/
def Ob.Ptp.TC_ENABLE : Obj :=
  ⟨0x1201, 1, 0x1, 1, 1, 0, 0x07, 1, .bool, .rwc, .stored, 1, .ints [(0, 1)]⟩

/-- LOG_SYNC_INTERVAL I8 (Table 04-6, R102): As master. -/
def Ob.Ptp.LOG_SYNC_INTERVAL : Obj :=
  ⟨0x1201, 1, 0x1, 1, 1, 0, 0x08, 1, .i8, .rwc, .stored, (-3), .ints [(-7, 0)]⟩

/-- LOG_DELAY_REQ_INTERVAL I8 (Table 04-6, R102): As slave. -/
def Ob.Ptp.LOG_DELAY_REQ_INTERVAL : Obj :=
  ⟨0x1201, 1, 0x1, 1, 1, 0, 0x09, 1, .i8, .rwc, .stored, 0, .ints [(-7, 4)]⟩

/-- H1_TX_LAT U32 (Table 04-6, R102): External PHY latencies. -/
def Ob.Ptp.H1_TX_LAT : Obj :=
  ⟨0x1202, 1, 0x1, 1, 1, 0, 0x01, 1, .u32, .rwc, .stored, 0, .ints [(0, 1000000)]⟩

/-- H1_RX_LAT U32 (Table 04-6, R102): External PHY latencies. -/
def Ob.Ptp.H1_RX_LAT : Obj :=
  ⟨0x1202, 1, 0x1, 1, 1, 0, 0x02, 1, .u32, .rwc, .stored, 0, .ints [(0, 1000000)]⟩

/-- H2_TX_LAT U32 (Table 04-6, R102): External PHY latencies. -/
def Ob.Ptp.H2_TX_LAT : Obj :=
  ⟨0x1202, 1, 0x1, 1, 1, 0, 0x03, 1, .u32, .rwc, .stored, 0, .ints [(0, 1000000)]⟩

/-- H2_RX_LAT U32 (Table 04-6, R102): External PHY latencies. -/
def Ob.Ptp.H2_RX_LAT : Obj :=
  ⟨0x1202, 1, 0x1, 1, 1, 0, 0x04, 1, .u32, .rwc, .stored, 0, .ints [(0, 1000000)]⟩

/-- BENCH_ALIGN_STATE U8 (Table 04-7, R102): 0 NONE, 1 PAIRING, 2 ALIGNED, 3 DEGRADED. -/
def Ob.Sby.BENCH_ALIGN_STATE : Obj :=
  ⟨0x1220, 1, 0x1, 1, 1, 0, 0x01, 1, .u8, .ro, .derived, 0, .ints [(0, 255)]⟩

/-- BENCH_OFFSET I32 (Table 04-7, R102): Standby minus active machine time. -/
def Ob.Sby.BENCH_OFFSET : Obj :=
  ⟨0x1220, 1, 0x1, 1, 1, 0, 0x02, 1, .i32, .ro, .derived, 0, .ints [(-2147483648, 2147483647)]⟩

/-- BENCH_ASYM I32 (Table 04-7, R102): Declared bench-link asymmetry. -/
def Ob.Sby.BENCH_ASYM : Obj :=
  ⟨0x1220, 1, 0x1, 1, 1, 0, 0x03, 1, .i32, .rwc, .stored, 0, .ints [(-100000, 100000)]⟩

/-- CROSSCHECK_A–D I32 (Table 04-7, R102): R95 difference per ring. -/
def Ob.Sby.CROSSCHECK : Obj :=
  ⟨0x1220, 1, 0x1, 1, 1, 0, 0x04, 4, .i32, .ro, .derived, 0, .ints [(-2147483648, 2147483647)]⟩

/-- ALIGN_STATE U8 (Table 04-8, R102): 0 UNSET, 1 ALIGNING, 2 ALIGNED. -/
def Ob.RTime.ALIGN_STATE : Obj :=
  ⟨0x2003, 4, 0x400, 1, 1, 0, 0x01, 1, .u8, .ro, .derived, 0, .ints [(0, 255)]⟩

/-- MEASURED_LENGTH U32 (Table 04-8, R102): R87. -/
def Ob.RTime.MEASURED_LENGTH : Obj :=
  ⟨0x2003, 4, 0x400, 1, 1, 0, 0x02, 1, .u32, .ro, .derived, 0, .ints [(0, 4294967295)]⟩

/-- DELAY_REFRESH U16 (Table 04-8, R102): R89. -/
def Ob.RTime.DELAY_REFRESH : Obj :=
  ⟨0x2003, 4, 0x400, 1, 1, 0, 0x03, 1, .u16, .rwc, .stored, 100, .ints [(1, 10000)]⟩

/-- OFFSIDE_LIMIT U16 (Table 04-8, R102): R92. -/
def Ob.RTime.OFFSIDE_LIMIT : Obj :=
  ⟨0x2003, 4, 0x400, 1, 1, 0, 0x04, 1, .u16, .rwc, .stored, 20, .ints [(2, 10000)]⟩

/-- OFFSIDE_STOP_LIMIT U32 (Table 04-8, R102): R92. -/
def Ob.RTime.OFFSIDE_STOP_LIMIT : Obj :=
  ⟨0x2003, 4, 0x400, 1, 1, 0, 0x05, 1, .u32, .rwc, .stored, 200, .ints [(3, 100000)]⟩

/-- OFFSIDE_COUNT U32 (Table 04-8, R102): Entries into offside. -/
def Ob.RTime.OFFSIDE_COUNT : Obj :=
  ⟨0x2003, 4, 0x400, 1, 1, 0, 0x06, 1, .u32, .ro, .derived, 0, .ints [(0, 4294967295)]⟩

/-- FAR_ASYMMETRY I32 (Table 04-8, R102): Far segment asymmetry. -/
def Ob.RTime.FAR_ASYMMETRY : Obj :=
  ⟨0x2003, 4, 0x400, 1, 1, 0, 0x07, 1, .i32, .rwc, .stored, 0, .ints [(-100000, 100000)]⟩

/-- ASYMMETRY I32 (Table 04-8, R102): Segment p asymmetry, d_fwd − d_ret. -/
def Ob.WkT.ASYMMETRY : Obj :=
  ⟨0x2200, 4, 0x400, 64, 1, 1, 0x01, 1, .i32, .rwc, .stored, 0, .ints [(-100000, 100000)]⟩

/-- HOLDOVER_PPB U32 (Table 04-8, R102): Holdover drift bound. -/
def Ob.WkT.HOLDOVER_PPB : Obj :=
  ⟨0x2200, 4, 0x400, 64, 1, 1, 0x02, 1, .u32, .rwc, .stored, 50000, .ints [(1, 1000000)]⟩

/-- SEGMENT_DELAY I32 (Table 04-8, R102): d_p. -/
def Ob.WkT.SEGMENT_DELAY : Obj :=
  ⟨0x2200, 4, 0x400, 64, 1, 1, 0x03, 1, .i32, .ro, .derived, 0, .ints [(-2147483648, 2147483647)]⟩

/-- RES_FWD U32 (Table 04-8, R102): Averaged forward residence. -/
def Ob.WkT.RES_FWD : Obj :=
  ⟨0x2200, 4, 0x400, 64, 1, 1, 0x04, 1, .u32, .ro, .derived, 0, .ints [(0, 4294967295)]⟩

/-- OFFSET_ERR I32 (Table 04-8, R102): Last e_p. -/
def Ob.WkT.OFFSET_ERR : Obj :=
  ⟨0x2200, 4, 0x400, 64, 1, 1, 0x05, 1, .i32, .ro, .derived, 0, .ints [(-2147483648, 2147483647)]⟩

/-- ERR_BOUND U32 (Table 04-8, R102): b_p at the last t_D. -/
def Ob.WkT.ERR_BOUND : Obj :=
  ⟨0x2200, 4, 0x400, 64, 1, 1, 0x06, 1, .u32, .ro, .derived, 0, .ints [(0, 4294967295)]⟩

/-- CLOCK_STATE U8 (Table 04-8, R102): As reported. -/
def Ob.WkT.CLOCK_STATE : Obj :=
  ⟨0x2200, 4, 0x400, 64, 1, 1, 0x07, 1, .u8, .ro, .derived, 0, .ints [(0, 255)]⟩

/-- OFFSIDE U8 (Table 04-8, R102): 0 on side, 1 offside, 2 beyond stop limit. -/
def Ob.WkT.OFFSIDE : Obj :=
  ⟨0x2200, 4, 0x400, 64, 1, 1, 0x08, 1, .u8, .ro, .derived, 0, .ints [(0, 255)]⟩

/-- LAST_MEASURED TIME64 (Table 04-8, R102): t_W of the last REF_CYCLE. -/
def Ob.WkT.LAST_MEASURED : Obj :=
  ⟨0x2200, 4, 0x400, 64, 1, 1, 0x09, 1, .time64, .ro, .derived, 0, .ints [(0, 18446744073709551615)]⟩

/-- ENABLE BOOL (Table 04-9, R102): Arms (1) or stops (0). -/
def Ob.Ttp.ENABLE : Obj :=
  ⟨0x1230, 8, 0x1, 1, 1, 0, 0x01, 1, .bool, .rwi, .factory, 0, .ints [(0, 1)]⟩

/-- TARGET U8 (Table 04-9, R102): 0 none, 1–16 FQ0–FQ15, 17–20 TP_OUT0–TP_OUT3. -/
def Ob.Ttp.TARGET : Obj :=
  ⟨0x1230, 8, 0x1, 1, 1, 0, 0x02, 1, .u8, .rwc, .stored, 0, .ints [(0, 20)]⟩

/-- TIMEBASE U8 (Table 04-9, R102): 0 START, 1 START_TOD. -/
def Ob.Ttp.TIMEBASE : Obj :=
  ⟨0x1230, 8, 0x1, 1, 1, 0, 0x03, 1, .u8, .rwi, .factory, 0, .ints [(0, 1)]⟩

/-- START TIME64 (Table 04-9, R102): First rising edge, machine time. -/
def Ob.Ttp.START : Obj :=
  ⟨0x1230, 8, 0x1, 1, 1, 0, 0x04, 1, .time64, .rwi, .factory, 0, .ints [(0, 18446744073709551615)]⟩

/-- START_TOD TOD80 (Table 04-9, R102): First rising edge, time of day. -/
def Ob.Ttp.START_TOD : Obj :=
  ⟨0x1230, 8, 0x1, 1, 1, 0, 0x05, 1, .tod80, .rwi, .factory, 0, .ints [(0, 281474976710655999999999)]⟩

/-- PERIOD U64 (Table 04-9, R102): 0 once. -/
def Ob.Ttp.PERIOD : Obj :=
  ⟨0x1230, 8, 0x1, 1, 1, 0, 0x06, 1, .u64, .rwi, .factory, 0, .ints [(0, 0), (1310720, 18446744073709551615)]⟩

/-- WIDTH U32 (Table 04-9, R102): High time, ns. -/
def Ob.Ttp.WIDTH : Obj :=
  ⟨0x1230, 8, 0x1, 1, 1, 0, 0x07, 1, .u32, .rwi, .factory, 1000, .ints [(10, 4294967295)]⟩

/-- POLARITY BOOL (Table 04-9, R102): 1 inverts. -/
def Ob.Ttp.POLARITY : Obj :=
  ⟨0x1230, 8, 0x1, 1, 1, 0, 0x08, 1, .bool, .rwc, .stored, 0, .ints [(0, 1)]⟩

/-- STATUS U8 (Table 04-9, R102): 0 IDLE, 1 ARMED, 2 RUNNING, 3 DONE, 4 LATE. -/
def Ob.Ttp.STATUS : Obj :=
  ⟨0x1230, 8, 0x1, 1, 1, 0, 0x09, 1, .u8, .ro, .derived, 0, .ints [(0, 255)]⟩

/-- COUNT U32 (Table 04-9, R102): Pulses produced since arming. -/
def Ob.Ttp.COUNT : Obj :=
  ⟨0x1230, 8, 0x1, 1, 1, 0, 0x0A, 1, .u32, .ro, .derived, 0, .ints [(0, 4294967295)]⟩

/-- SOURCE U8 (Table 04-10, R102): 0 off, 1–24 FI0–FI23, 25–28 TP_IN0–TP_IN3. -/
def Ob.TLat.SOURCE : Obj :=
  ⟨0x1240, 8, 0x1, 1, 1, 0, 0x01, 1, .u8, .rwc, .stored, 0, .ints [(0, 28)]⟩

/-- EDGE U8 (Table 04-10, R102): 0 rising, 1 falling, 2 both. -/
def Ob.TLat.EDGE : Obj :=
  ⟨0x1240, 8, 0x1, 1, 1, 0, 0x02, 1, .u8, .rwc, .stored, 0, .ints [(0, 2)]⟩

/-- EVENTS DOMAIN (Table 04-10, R102): Oldest first; 10 bytes each: TIME64, edge U8 (0 rising, 1 falling), sequence U8. -/
def Ob.TLat.EVENTS : Obj :=
  ⟨0x1240, 8, 0x1, 1, 1, 0, 0x03, 1, .domain, .ro, .derived, 0, .len 0 160 1⟩

/-- ACK U8 (Table 04-10, R102): Removes that many oldest entries. -/
def Ob.TLat.ACK : Obj :=
  ⟨0x1240, 8, 0x1, 1, 1, 0, 0x04, 1, .u8, .cmd, .factory, 0, .ints [(1, 16)]⟩

/-- LOST U32 (Table 04-10, R102): Stamps discarded at a full FIFO. -/
def Ob.TLat.LOST : Obj :=
  ⟨0x1240, 8, 0x1, 1, 1, 0, 0x05, 1, .u32, .ro, .derived, 0, .ints [(0, 4294967295)]⟩

/-- OFFSIDE BOOL (Table 04-10, R102): Axis samples of the scoreboard's cycle came from an offside worker. -/
def Ob.AxD.OFFSIDE : Obj :=
  ⟨0x403C, 256, 0x40, 1, 1, 0, 0x0A, 1, .bool, .ro, .derived, 0, .ints [(0, 1)]⟩

/-- VENDOR_ID U32 (Table 05-10, R131): Islia vendor code. -/
def Ob.Ident.VENDOR_ID : Obj :=
  ⟨0x1000, 1, 0x1, 1, 1, 0, 0x01, 1, .u32, .fix, .factory, 4805452, .ints [(0, 4294967295)]⟩

/-- PRODUCT U32 (Table 05-10, R131): Product code of the G9256. -/
def Ob.Ident.PRODUCT : Obj :=
  ⟨0x1000, 1, 0x1, 1, 1, 0, 0x02, 1, .u32, .fix, .factory, 37462, .ints [(0, 4294967295)]⟩

/-- SILICON_REV U16 (Table 05-10, R131): [15:8] revision letter (0x0B = B), [7:0] number; B0. -/
def Ob.Ident.SILICON_REV : Obj :=
  ⟨0x1000, 1, 0x1, 1, 1, 0, 0x03, 1, .u16, .fix, .factory, 2816, .ints [(0, 65535)]⟩

/-- SERIAL U32 (Table 05-10, R131): Serial number, as used in kickoff claims. -/
def Ob.Ident.SERIAL : Obj :=
  ⟨0x1000, 1, 0x1, 1, 1, 0, 0x04, 1, .u32, .fix, .factory, Config.unitSerial, .ints [(0, 4294967295)]⟩

/-- FW_VERSION U32 (Table 05-10, R131): [31:24] major, [23:16] minor, [15:0] build. -/
def Ob.Ident.FW_VERSION : Obj :=
  ⟨0x1000, 1, 0x1, 1, 1, 0, 0x05, 1, .u32, .ro, .derived, 0, .ints [(0, 4294967295)]⟩

/-- FW_IMAGE U8 (Table 05-10, R131): Running image: 0 A, 1 B. -/
def Ob.Ident.FW_IMAGE : Obj :=
  ⟨0x1000, 1, 0x1, 1, 1, 0, 0x06, 1, .u8, .ro, .derived, 0, .ints [(0, 255)]⟩

/-- DEVICE_NAME STR (Table 05-10, R131): Integrator's name for the unit. -/
def Ob.Ident.DEVICE_NAME : Obj :=
  ⟨0x1000, 1, 0x1, 1, 1, 0, 0x07, 1, .str, .rwc, .stored, 0, .len 0 32 1⟩

/-- OD_VERSION U16 (Table 05-10, R131): Dictionary layout version. -/
def Ob.Ident.OD_VERSION : Obj :=
  ⟨0x1000, 1, 0x1, 1, 1, 0, 0x08, 1, .u16, .ro, .factory, 256, .ints [(0, 65535)]⟩

/-- COMMIT_STATE U8 (Table 05-11, R131): 0 IDLE, 1 VALIDATING, 2 DELIVERING, 3 CONFIRMING, 4 APPLYING. -/
def Ob.Com.COMMIT_STATE : Obj :=
  ⟨0x3000, 1, 0x1, 1, 1, 0, 0x01, 1, .u8, .ro, .derived, 0, .ints [(0, 255)]⟩

/-- STAGED_COUNT U16 (Table 05-11, R131): Entries in the staged copy. -/
def Ob.Com.STAGED_COUNT : Obj :=
  ⟨0x3000, 1, 0x1, 1, 1, 0, 0x02, 1, .u16, .ro, .derived, 0, .ints [(0, 65535)]⟩

/-- STAGED_BYTES U32 (Table 05-11, R131): Staged STR and DOMAIN bytes. -/
def Ob.Com.STAGED_BYTES : Obj :=
  ⟨0x3000, 1, 0x1, 1, 1, 0, 0x03, 1, .u32, .ro, .derived, 0, .ints [(0, 4294967295)]⟩

/-- COMMIT U8 (Table 05-11, R131): Starts a commit as the Linli COMMIT does; the write is answered at once (R112), and the outcome is in LAST_RESULT. -/
def Ob.Com.COMMIT : Obj :=
  ⟨0x3000, 1, 0x1, 1, 1, 0, 0x04, 1, .u8, .cmd, .factory, 0, .ints [(1, 1)]⟩

/-- DISCARD U8 (Table 05-11, R131): Empties the staged copy. -/
def Ob.Com.DISCARD : Obj :=
  ⟨0x3000, 1, 0x1, 1, 1, 0, 0x05, 1, .u8, .cmd, .factory, 0, .ints [(1, 1)]⟩

/-- LAST_TAG U8 (Table 05-11, R131): Tag of the last admitted commit. -/
def Ob.Com.LAST_TAG : Obj :=
  ⟨0x3000, 1, 0x1, 1, 1, 0, 0x06, 1, .u8, .ro, .derived, 0, .ints [(0, 255)]⟩

/-- LAST_RESULT U16 (Table 05-11, R131): Outcome of the last COMMIT. -/
def Ob.Com.LAST_RESULT : Obj :=
  ⟨0x3000, 1, 0x1, 1, 1, 0, 0x07, 1, .u16, .ro, .derived, 0, .ints [(0, 65535)]⟩

/-- LAST_REASON U8 (Table 05-11, R131): 0 none, 1 CONSISTENCY, 2 ACTIVE_SCHEDULE, 3 BUDGET, 4 SLOTS, 5 NOT_COMPLETE, 6 RING_LEFT_PLAY, 7 DOMAIN_INCOMPLETE, 8 SAFETY_SESSION, 9 SWITCH_OVER. -/
def Ob.Com.LAST_REASON : Obj :=
  ⟨0x3000, 1, 0x1, 1, 1, 0, 0x08, 1, .u8, .ro, .derived, 0, .ints [(0, 255)]⟩

/-- LAST_OBJECT U32 (Table 05-11, R131): [23:8] index, [7:0] subindex of the failing object; 0 none. -/
def Ob.Com.LAST_OBJECT : Obj :=
  ⟨0x3000, 1, 0x1, 1, 1, 0, 0x09, 1, .u32, .ro, .derived, 0, .ints [(0, 4294967295)]⟩

/-- LAST_APPLY_TIME TIME64 (Table 05-11, R131): A of the last applied commit. -/
def Ob.Com.LAST_APPLY_TIME : Obj :=
  ⟨0x3000, 1, 0x1, 1, 1, 0, 0x0A, 1, .time64, .ro, .derived, 0, .ints [(0, 18446744073709551615)]⟩

/-- LAST_APPLY_CYCLE U32 (Table 05-11, R131): m, in pacing-ring cycles. -/
def Ob.Com.LAST_APPLY_CYCLE : Obj :=
  ⟨0x3000, 1, 0x1, 1, 1, 0, 0x0B, 1, .u32, .ro, .derived, 0, .ints [(0, 4294967295)]⟩

/-- LAST_LATENCY U8 (Table 05-11, R131): m − c. -/
def Ob.Com.LAST_LATENCY : Obj :=
  ⟨0x3000, 1, 0x1, 1, 1, 0, 0x0C, 1, .u8, .ro, .derived, 0, .ints [(0, 255)]⟩

/-- COMMIT_COUNT U32 (Table 05-11, R131): Commits applied since reset. -/
def Ob.Com.COMMIT_COUNT : Obj :=
  ⟨0x3000, 1, 0x1, 1, 1, 0, 0x0D, 1, .u32, .ro, .derived, 0, .ints [(0, 4294967295)]⟩

/-- REJECT_COUNT U32 (Table 05-11, R131): Commits refused or rejected. -/
def Ob.Com.REJECT_COUNT : Obj :=
  ⟨0x3000, 1, 0x1, 1, 1, 0, 0x0E, 1, .u32, .ro, .derived, 0, .ints [(0, 4294967295)]⟩

/-- DISCARD_COUNT U32 (Table 05-11, R131): Staged copies emptied by a change of possession. -/
def Ob.Com.DISCARD_COUNT : Obj :=
  ⟨0x3000, 1, 0x1, 1, 1, 0, 0x0F, 1, .u32, .ro, .derived, 0, .ints [(0, 4294967295)]⟩

/-- SNAPSHOT_ID U32 (Table 05-12, R131): Number of the snapshot being read. -/
def Ob.Sb.SNAPSHOT_ID : Obj :=
  ⟨0x3001, 1, 0x1, 1, 1, 0, 0x01, 1, .u32, .ro, .derived, 0, .ints [(0, 4294967295)]⟩

/-- SNAPSHOT_TIME TIME64 (Table 05-12, R131): t_W of the LOCAL_RING cycle it covers. -/
def Ob.Sb.SNAPSHOT_TIME : Obj :=
  ⟨0x3001, 1, 0x1, 1, 1, 0, 0x02, 1, .time64, .ro, .derived, 0, .ints [(0, 18446744073709551615)]⟩

/-- SNAP_CYCLE_A–D U32 (Table 05-12, R131): Ring cycle whose values it holds. -/
def Ob.Sb.SNAP_CYCLE : Obj :=
  ⟨0x3001, 1, 0x1, 1, 1, 0, 0x03, 4, .u32, .ro, .derived, 0, .ints [(0, 4294967295)]⟩

/-- TAG_IN_FORCE U8 (Table 05-12, R131): Tag of the newest commit applied in it. -/
def Ob.Sb.TAG_IN_FORCE : Obj :=
  ⟨0x3001, 1, 0x1, 1, 1, 0, 0x07, 1, .u8, .ro, .derived, 0, .ints [(0, 255)]⟩

/-- SAVE U8 (Table 05-13, R131): Starts a save (R126). -/
def Ob.Store.SAVE : Obj :=
  ⟨0x3002, 1, 0x1, 1, 1, 0, 0x01, 1, .u8, .cmd, .factory, 0, .ints [(1, 1)]⟩

/-- SAVE_STATE U8 (Table 05-13, R131): 0 IDLE, 1 SAVING, 2 DONE, 3 FAILED. -/
def Ob.Store.SAVE_STATE : Obj :=
  ⟨0x3002, 1, 0x1, 1, 1, 0, 0x02, 1, .u8, .ro, .derived, 0, .ints [(0, 255)]⟩

/-- STORED_SEQUENCE U32 (Table 05-13, R131): SEQUENCE of the newest valid image. -/
def Ob.Store.STORED_SEQUENCE : Obj :=
  ⟨0x3002, 1, 0x1, 1, 1, 0, 0x03, 1, .u32, .ro, .derived, 0, .ints [(0, 4294967295)]⟩

/-- STORED_CRC U32 (Table 05-13, R131): RECORD_CRC of that image. -/
def Ob.Store.STORED_CRC : Obj :=
  ⟨0x3002, 1, 0x1, 1, 1, 0, 0x04, 1, .u32, .ro, .derived, 0, .ints [(0, 4294967295)]⟩

/-- STORED_BANK U8 (Table 05-13, R131): Bank of that image. -/
def Ob.Store.STORED_BANK : Obj :=
  ⟨0x3002, 1, 0x1, 1, 1, 0, 0x05, 1, .u8, .ro, .derived, 0, .ints [(0, 255)]⟩

/-- STORED_SOURCE U8 (Table 05-13, R131): At start-up: 0 defaults, 1 bank 0, 2 bank 1. -/
def Ob.Store.STORED_SOURCE : Obj :=
  ⟨0x3002, 1, 0x1, 1, 1, 0, 0x06, 1, .u8, .ro, .derived, 0, .ints [(0, 255)]⟩

/-- ERASE_STORED U8 (Table 05-13, R131): Invalidates both banks at the next reset. -/
def Ob.Store.ERASE_STORED : Obj :=
  ⟨0x3002, 1, 0x1, 1, 1, 0, 0x07, 1, .u8, .cmd, .factory, 0, .ints [(1, 1)]⟩

/-- SAVE_TIME U32 (Table 05-13, R131): Duration of the last save. -/
def Ob.Store.SAVE_TIME : Obj :=
  ⟨0x3002, 1, 0x1, 1, 1, 0, 0x08, 1, .u32, .ro, .derived, 0, .ints [(0, 4294967295)]⟩

/-- SAVE_REASON U8 (Table 05-13, R131): Cause of the last FAILED save: 0 none, 1 VERIFY, 2 TOO_LARGE. -/
def Ob.Store.SAVE_REASON : Obj :=
  ⟨0x3002, 1, 0x1, 1, 1, 0, 0x09, 1, .u8, .ro, .derived, 0, .ints [(0, 255)]⟩

/-- SAVE_SIZE U32 (Table 05-13, R131): Size of the image of the last save, or of the image refused as TOO_LARGE. -/
def Ob.Store.SAVE_SIZE : Obj :=
  ⟨0x3002, 1, 0x1, 1, 1, 0, 0x0A, 1, .u32, .ro, .derived, 0, .ints [(0, 4294967295)]⟩

/-- CAPTAIN U8 (Table 06-9, R155): Session holding possession; 0xFF loose. -/
def Ob.Poss.CAPTAIN : Obj :=
  ⟨0x1100, 1, 0x1, 1, 1, 0, 0x01, 1, .u8, .ro, .derived, 255, .ints [(0, 255)]⟩

/-- POSSESSION_STATE U8 (Table 06-9, R155): 0 LOOSE, 1 HELD, 2 ELECTING (hold running). -/
def Ob.Poss.POSSESSION_STATE : Obj :=
  ⟨0x1100, 1, 0x1, 1, 1, 0, 0x02, 1, .u8, .ro, .derived, 0, .ints [(0, 255)]⟩

/-- SESSION_COUNT U8 (Table 06-9, R155): Open sessions. -/
def Ob.Poss.SESSION_COUNT : Obj :=
  ⟨0x1100, 1, 0x1, 1, 1, 0, 0x03, 1, .u8, .ro, .derived, 0, .ints [(0, 255)]⟩

/-- CLAIM U8 (Table 06-9, R155): Writer's claim priority; 0 withdraws (R146). -/
def Ob.Poss.CLAIM : Obj :=
  ⟨0x1100, 1, 0x1, 1, 1, 0, 0x04, 1, .u8, .any, .factory, 0, .ints [(0, 15)]⟩

/-- LEASE_RENEW U8 (Table 06-9, R155): Renews the writer's lease. -/
def Ob.Poss.LEASE_RENEW : Obj :=
  ⟨0x1100, 1, 0x1, 1, 1, 0, 0x05, 1, .u8, .any, .factory, 0, .ints [(0, 255)]⟩

/-- ELECTION_HOLD U16 (Table 06-9, R155): R147. -/
def Ob.Poss.ELECTION_HOLD : Obj :=
  ⟨0x1100, 1, 0x1, 1, 1, 0, 0x06, 1, .u16, .rwc, .stored, 10, .ints [(0, 100)]⟩

/-- LEASE_DEFAULT U16 (Table 06-9, R155): Lease granted for OPEN with LEASE 0. -/
def Ob.Poss.LEASE_DEFAULT : Obj :=
  ⟨0x1100, 1, 0x1, 1, 1, 0, 0x07, 1, .u16, .rwc, .stored, 1000, .ints [(100, 10000)]⟩

/-- POSSESSION_CHANGES U32 (Table 06-9, R155): R149. -/
def Ob.Poss.POSSESSION_CHANGES : Obj :=
  ⟨0x1100, 1, 0x1, 1, 1, 0, 0x08, 1, .u32, .ro, .derived, 0, .ints [(0, 4294967295)]⟩

/-- BAD_MSG U32 (Table 06-9, R155): R133. -/
def Ob.Poss.BAD_MSG : Obj :=
  ⟨0x1100, 1, 0x1, 1, 1, 0, 0x09, 1, .u32, .ro, .derived, 0, .ints [(0, 4294967295)]⟩

/-- SEQ_ERR U32 (Table 06-9, R155): R138. -/
def Ob.Poss.SEQ_ERR : Obj :=
  ⟨0x1100, 1, 0x1, 1, 1, 0, 0x0A, 1, .u32, .ro, .derived, 0, .ints [(0, 4294967295)]⟩

/-- UDP_PORT U16 (Table 06-9, R155): Linli port. -/
def Ob.Poss.UDP_PORT : Obj :=
  ⟨0x1101, 1, 0x1, 1, 1, 0, 0x01, 1, .u16, .rwc, .stored, 40917, .ints [(1024, 65535)]⟩

/-- SERVICE_IP U32 (Table 06-9, R155): Pair address; 0 none. -/
def Ob.Poss.SERVICE_IP : Obj :=
  ⟨0x1101, 1, 0x1, 1, 1, 0, 0x02, 1, .u32, .rwc, .stored, 0, .ints [(0, 4294967295)]⟩

/-- UNIT_IP U32 (Table 06-9, R155): Unit address. -/
def Ob.Poss.UNIT_IP : Obj :=
  ⟨0x1101, 1, 0x1, 1, 1, 0, 0x03, 1, .u32, .rwc, .stored, 0, .ints [(0, 4294967295)]⟩

/-- NETMASK U32 (Table 06-9, R155): Subnet mask. -/
def Ob.Poss.NETMASK : Obj :=
  ⟨0x1101, 1, 0x1, 1, 1, 0, 0x04, 1, .u32, .rwc, .stored, 4294967040, .ints [(0, 4294967295)]⟩

/-- GATEWAY U32 (Table 06-9, R155): Default gateway; 0 none. -/
def Ob.Poss.GATEWAY : Obj :=
  ⟨0x1101, 1, 0x1, 1, 1, 0, 0x05, 1, .u32, .rwc, .stored, 0, .ints [(0, 4294967295)]⟩

/-- STATE U8 (Table 06-10, R155): 0 CLOSED, 1 OPEN. -/
def Ob.Sess.STATE : Obj :=
  ⟨0x1110, 16, 0x1, 1, 1, 0, 0x01, 1, .u8, .ro, .derived, 0, .ints [(0, 255)]⟩

/-- TRANSPORT U8 (Table 06-10, R155): 0 H1, 1 H2, 2–5 PCIe channels 0–3. -/
def Ob.Sess.TRANSPORT : Obj :=
  ⟨0x1110, 16, 0x1, 1, 1, 0, 0x02, 1, .u8, .ro, .derived, 0, .ints [(0, 255)]⟩

/-- PEER U64 (Table 06-10, R155): [47:16] IPv4 address, [15:0] UDP port; 0 over PCIe. -/
def Ob.Sess.PEER : Obj :=
  ⟨0x1110, 16, 0x1, 1, 1, 0, 0x03, 1, .u64, .ro, .derived, 0, .ints [(0, 18446744073709551615)]⟩

/-- NAME STR (Table 06-10, R155): From OPEN. -/
def Ob.Sess.NAME : Obj :=
  ⟨0x1110, 16, 0x1, 1, 1, 0, 0x04, 1, .str, .ro, .derived, 0, .len 0 32 1⟩

/-- LEASE U16 (Table 06-10, R155): Granted lease. -/
def Ob.Sess.LEASE : Obj :=
  ⟨0x1110, 16, 0x1, 1, 1, 0, 0x05, 1, .u16, .ro, .derived, 0, .ints [(0, 65535)]⟩

/-- LAST_RENEWED TIME64 (Table 06-10, R155): Machine time of the last renewal. -/
def Ob.Sess.LAST_RENEWED : Obj :=
  ⟨0x1110, 16, 0x1, 1, 1, 0, 0x06, 1, .time64, .ro, .derived, 0, .ints [(0, 18446744073709551615)]⟩

/-- CLAIM_PRIORITY U8 (Table 06-10, R155): 0 no claim. -/
def Ob.Sess.CLAIM_PRIORITY : Obj :=
  ⟨0x1110, 16, 0x1, 1, 1, 0, 0x07, 1, .u8, .ro, .derived, 0, .ints [(0, 255)]⟩

/-- CLAIM_TIME TIME64 (Table 06-10, R155): R146. -/
def Ob.Sess.CLAIM_TIME : Obj :=
  ⟨0x1110, 16, 0x1, 1, 1, 0, 0x08, 1, .time64, .ro, .derived, 0, .ints [(0, 18446744073709551615)]⟩

/-- SUBSCRIPTIONS U8 (Table 06-10, R155): Active subscriptions. -/
def Ob.Sess.SUBSCRIPTIONS : Obj :=
  ⟨0x1110, 16, 0x1, 1, 1, 0, 0x09, 1, .u8, .ro, .derived, 0, .ints [(0, 255)]⟩

/-- NOTIFY_SEQ U16 (Table 06-10, R155): Last notification number sent. -/
def Ob.Sess.NOTIFY_SEQ : Obj :=
  ⟨0x1110, 16, 0x1, 1, 1, 0, 0x0A, 1, .u16, .ro, .derived, 0, .ints [(0, 65535)]⟩

/-- RING U8 (Table 07-7, R186): Ring A–D; 0xFE local port; 0xFF unmapped. -/
def Ob.Map.RING : Obj :=
  ⟨0x4000, 256, 0x40, 1, 1, 0, 0x01, 1, .u8, .rwc, .stored, 255, .ints [(0, 3), (254, 254), (255, 255)]⟩

/-- WORKER U8 (Table 07-7, R186): Worker position. -/
def Ob.Map.WORKER : Obj :=
  ⟨0x4000, 256, 0x40, 1, 1, 0, 0x02, 1, .u8, .rwc, .stored, 1, .ints [(1, 64)]⟩

/-- CHANNEL U8 (Table 07-7, R186): Channel of the worker. -/
def Ob.Map.CHANNEL : Obj :=
  ⟨0x4000, 256, 0x40, 1, 1, 0, 0x03, 1, .u8, .rwc, .stored, 0, .ints [(0, 7)]⟩

/-- LOCAL_PORT U8 (Table 07-7, R186): LA port, when RING is 0xFE. -/
def Ob.Map.LOCAL_PORT : Obj :=
  ⟨0x4000, 256, 0x40, 1, 1, 0, 0x04, 1, .u8, .rwc, .stored, 0, .ints [(0, 7)]⟩

/-- KIND U8 (Table 07-7, R186): 0 unmapped; Table 07-1. -/
def Ob.Map.KIND : Obj :=
  ⟨0x4000, 256, 0x40, 1, 1, 0, 0x05, 1, .u8, .ro, .derived, 0, .ints [(0, 255)]⟩

/-- ACTUAL_POSITION Q32.32 (Table 07-7, R186): x_act. -/
def Ob.Map.ACTUAL_POSITION : Obj :=
  ⟨0x4006, 256, 0x40, 1, 1, 0, 0x01, 1, .q32, .ro, .derived, 0, .ints [(-9223372036854775808, 9223372036854775807)]⟩

/-- POSITION_DEMAND Q32.32 (Table 07-7, R186): x_ref of the last position run. -/
def Ob.Map.POSITION_DEMAND : Obj :=
  ⟨0x4006, 256, 0x40, 1, 1, 0, 0x02, 1, .q32, .ro, .derived, 0, .ints [(-9223372036854775808, 9223372036854775807)]⟩

/-- ACTUAL_VELOCITY Q32.32 (Table 07-7, R186): v_act, units/s. -/
def Ob.Map.ACTUAL_VELOCITY : Obj :=
  ⟨0x4007, 256, 0x40, 1, 1, 0, 0x01, 1, .q32, .ro, .derived, 0, .ints [(-9223372036854775808, 9223372036854775807)]⟩

/-- VELOCITY_DEMAND Q32.32 (Table 07-7, R186): v_cmd of the last velocity run. -/
def Ob.Map.VELOCITY_DEMAND : Obj :=
  ⟨0x4007, 256, 0x40, 1, 1, 0, 0x02, 1, .q32, .ro, .derived, 0, .ints [(-9223372036854775808, 9223372036854775807)]⟩

/-- FOLLOWING_ERROR Q32.32 (Table 07-7, R186): e_x of the last position run. -/
def Ob.Map.FOLLOWING_ERROR : Obj :=
  ⟨0x4008, 256, 0x40, 1, 1, 0, 0x01, 1, .q32, .ro, .derived, 0, .ints [(-9223372036854775808, 9223372036854775807)]⟩

/-- TORQUE_DEMAND I32 (Table 07-7, R186): u_lim. -/
def Ob.Map.TORQUE_DEMAND : Obj :=
  ⟨0x4009, 256, 0x40, 1, 1, 0, 0x01, 1, .i32, .ro, .derived, 0, .ints [(-2147483648, 2147483647)]⟩

/-- TORQUE_ACTUAL I32 (Table 07-7, R186): Worker TORQUE_ACT, or i_q for direct axes. -/
def Ob.Map.TORQUE_ACTUAL : Obj :=
  ⟨0x4009, 256, 0x40, 1, 1, 0, 0x02, 1, .i32, .ro, .derived, 0, .ints [(-2147483648, 2147483647)]⟩

/-- ID_ACTUAL I32 (Table 07-7, R186): i_d; direct axes. -/
def Ob.Map.ID_ACTUAL : Obj :=
  ⟨0x4009, 256, 0x40, 1, 1, 0, 0x03, 1, .i32, .ro, .derived, 0, .ints [(-2147483648, 2147483647)]⟩

/-- IQ_ACTUAL I32 (Table 07-7, R186): i_q; direct axes. -/
def Ob.Map.IQ_ACTUAL : Obj :=
  ⟨0x4009, 256, 0x40, 1, 1, 0, 0x04, 1, .i32, .ro, .derived, 0, .ints [(-2147483648, 2147483647)]⟩

/-- INTEGRAL I32 (Table 07-7, R186): u_I, saturated to Q1.31 for reading. -/
def Ob.Map.INTEGRAL : Obj :=
  ⟨0x4009, 256, 0x40, 1, 1, 0, 0x05, 1, .i32, .ro, .derived, 0, .ints [(-2147483648, 2147483647)]⟩

/-- ACTIVE_BANK U8 (Table 07-8, R186): Bank in force. -/
def Ob.Pos.ACTIVE_BANK : Obj :=
  ⟨0x4010, 256, 0x40, 1, 1, 0, 0x01, 1, .u8, .rwc, .stored, 0, .ints [(0, 3)]⟩

/-- KP_POS F32 (Table 07-8, R186): Position gain, 1/s. -/
def Ob.Pos.KP_POS : Obj :=
  ⟨0x4011, 256, 0x40, 4, 1, 0, 0x01, 1, .f32, .rwc, .stored, 0x00000000, .f32 0 0x7F7FFFFF⟩

/-- KVFF F32 (Table 07-8, R186): Velocity feedforward. -/
def Ob.Pos.KVFF : Obj :=
  ⟨0x4011, 256, 0x40, 4, 1, 0, 0x02, 1, .f32, .rwc, .stored, 0x3F800000, .f32 (0) 1073741824⟩

/-- KAFF F32 (Table 07-8, R186): Torque fraction per unit/s². -/
def Ob.Pos.KAFF : Obj :=
  ⟨0x4011, 256, 0x40, 4, 1, 0, 0x03, 1, .f32, .rwc, .stored, 0x00000000, .f32 0 0x7F7FFFFF⟩

/-- KP_VEL F32 (Table 07-8, R186): Torque fraction per unit/s. -/
def Ob.Pos.KP_VEL : Obj :=
  ⟨0x4018, 256, 0x40, 4, 1, 0, 0x01, 1, .f32, .rwc, .stored, 0x00000000, .f32 0 0x7F7FFFFF⟩

/-- KI_VEL F32 (Table 07-8, R186): Torque fraction per unit; 0 freezes u_I. -/
def Ob.Pos.KI_VEL : Obj :=
  ⟨0x4018, 256, 0x40, 4, 1, 0, 0x02, 1, .f32, .rwc, .stored, 0x00000000, .f32 0 0x7F7FFFFF⟩

/-- KD_VEL F32 (Table 07-8, R186): Torque fraction per unit/s². -/
def Ob.Pos.KD_VEL : Obj :=
  ⟨0x4018, 256, 0x40, 4, 1, 0, 0x03, 1, .f32, .rwc, .stored, 0x00000000, .f32 0 0x7F7FFFFF⟩

/-- TD_VEL F32 (Table 07-8, R186): Derivative filter time constant. -/
def Ob.Pos.TD_VEL : Obj :=
  ⟨0x4018, 256, 0x40, 4, 1, 0, 0x04, 1, .f32, .rwc, .stored, 0x00000000, .f32 (0) 1008981770⟩

/-- I_LIM_POS F32 (Table 07-8, R186): Upper bound of u_I. -/
def Ob.Pos.I_LIM_POS : Obj :=
  ⟨0x4018, 256, 0x40, 4, 1, 0, 0x05, 1, .f32, .rwc, .stored, 0x3F800000, .f32 (0) 1065353216⟩

/-- I_LIM_NEG F32 (Table 07-8, R186): Magnitude of the lower bound of u_I. -/
def Ob.Pos.I_LIM_NEG : Obj :=
  ⟨0x4018, 256, 0x40, 4, 1, 0, 0x06, 1, .f32, .rwc, .stored, 0x3F800000, .f32 (0) 1065353216⟩

/-- K_AW F32 (Table 07-8, R186): Back-calculation gain; 0 clamping only. -/
def Ob.Pos.K_AW : Obj :=
  ⟨0x4018, 256, 0x40, 4, 1, 0, 0x07, 1, .f32, .rwc, .stored, 0x00000000, .f32 (0) 1203982336⟩

/-- BQ_ENABLE BOOL (Table 07-8, R186): Biquad 1, 2 enabled. -/
def Ob.Pos.BQ_ENABLE : Obj :=
  ⟨0x401C, 256, 0x40, 2, 1, 0, 0x01, 1, .bool, .rwc, .stored, 0, .ints [(0, 1)]⟩

/-- BQ_B0 F32 (Table 07-8, R186): Coefficients (R166). -/
def Ob.Pos.BQ_B0 : Obj :=
  ⟨0x401C, 256, 0x40, 2, 1, 0, 0x02, 1, .f32, .rwc, .stored, 0x3F800000, .f32 (-0x40FFFFFF) 0x40FFFFFF⟩

/-- BQ_B1 F32 (Table 07-8, R186): Coefficients (R166). -/
def Ob.Pos.BQ_B1 : Obj :=
  ⟨0x401C, 256, 0x40, 2, 1, 0, 0x03, 1, .f32, .rwc, .stored, 0x00000000, .f32 (-0x40FFFFFF) 0x40FFFFFF⟩

/-- BQ_B2 F32 (Table 07-8, R186): Coefficients (R166). -/
def Ob.Pos.BQ_B2 : Obj :=
  ⟨0x401C, 256, 0x40, 2, 1, 0, 0x04, 1, .f32, .rwc, .stored, 0x00000000, .f32 (-0x40FFFFFF) 0x40FFFFFF⟩

/-- BQ_A1 F32 (Table 07-8, R186): Coefficients (R166). -/
def Ob.Pos.BQ_A1 : Obj :=
  ⟨0x401C, 256, 0x40, 2, 1, 0, 0x05, 1, .f32, .rwc, .stored, 0x00000000, .f32 (-0x40FFFFFF) 0x40FFFFFF⟩

/-- BQ_A2 F32 (Table 07-8, R186): Coefficients (R166). -/
def Ob.Pos.BQ_A2 : Obj :=
  ⟨0x401C, 256, 0x40, 2, 1, 0, 0x06, 1, .f32, .rwc, .stored, 0x00000000, .f32 (-0x40FFFFFF) 0x40FFFFFF⟩

/-- VEL_SOURCE U8 (Table 07-8, R186): 0 DIFFERENCE, 1 ESTIMATE. -/
def Ob.Pos.VEL_SOURCE : Obj :=
  ⟨0x401E, 256, 0x40, 1, 1, 0, 0x01, 1, .u8, .rwc, .stored, 0, .ints [(0, 1)]⟩

/-- VEL_FILTER_TC F32 (Table 07-8, R186): v_act low-pass; 0 off. -/
def Ob.Pos.VEL_FILTER_TC : Obj :=
  ⟨0x401E, 256, 0x40, 1, 1, 0, 0x02, 1, .f32, .rwc, .stored, 0x00000000, .f32 (0) 1008981770⟩

/-- D_SOURCE U8 (Table 07-8, R186): 0 measurement, 1 error. -/
def Ob.Pos.D_SOURCE : Obj :=
  ⟨0x401E, 256, 0x40, 1, 1, 0, 0x03, 1, .u8, .rwc, .stored, 0, .ints [(0, 1)]⟩

/-- TORQUE_LIM_POS F32 (Table 07-8, R186): Upper torque limit. -/
def Ob.Pos.TORQUE_LIM_POS : Obj :=
  ⟨0x401E, 256, 0x40, 1, 1, 0, 0x04, 1, .f32, .rwc, .stored, 0x3F800000, .f32 (0) 1065353216⟩

/-- TORQUE_LIM_NEG F32 (Table 07-8, R186): Magnitude of the lower torque limit. -/
def Ob.Pos.TORQUE_LIM_NEG : Obj :=
  ⟨0x401E, 256, 0x40, 1, 1, 0, 0x05, 1, .f32, .rwc, .stored, 0x3F800000, .f32 (0) 1065353216⟩

/-- ELEC_PER_UNIT F32 (Table 07-9, R186): Electrical turns per machine unit. -/
def Ob.Cur.ELEC_PER_UNIT : Obj :=
  ⟨0x401F, 256, 0x40, 1, 1, 0, 0x01, 1, .f32, .rwc, .stored, 0x3F800000, .f32 (981668463) 1166016512⟩

/-- ANGLE_OFFSET U32 (Table 07-9, R186): Electrical angle at x_act = 0, 2⁻³² turn. -/
def Ob.Cur.ANGLE_OFFSET : Obj :=
  ⟨0x401F, 256, 0x40, 1, 1, 0, 0x02, 1, .u32, .rwc, .stored, 0, .ints [(0, 4294967295)]⟩

/-- KP_CUR F32 (Table 07-9, R186): Voltage fraction per current fraction. -/
def Ob.Cur.KP_CUR : Obj :=
  ⟨0x401F, 256, 0x40, 1, 1, 0, 0x03, 1, .f32, .rwc, .stored, 0x00000000, .f32 0 0x7F7FFFFF⟩

/-- KI_CUR F32 (Table 07-9, R186): Voltage fraction per current fraction per s. -/
def Ob.Cur.KI_CUR : Obj :=
  ⟨0x401F, 256, 0x40, 1, 1, 0, 0x04, 1, .f32, .rwc, .stored, 0x00000000, .f32 0 0x7F7FFFFF⟩

/-- I_MAX F32 (Table 07-9, R186): Current circle radius. -/
def Ob.Cur.I_MAX : Obj :=
  ⟨0x401F, 256, 0x40, 1, 1, 0, 0x05, 1, .f32, .rwc, .stored, 0x3F800000, .f32 (0) 1065353216⟩

/-- ID_REF F32 (Table 07-9, R186): d-axis current reference. -/
def Ob.Cur.ID_REF : Obj :=
  ⟨0x401F, 256, 0x40, 1, 1, 0, 0x06, 1, .f32, .rwc, .stored, 0x00000000, .f32 (-1065353216) 1065353216⟩

/-- V_LIMIT F32 (Table 07-9, R186): Voltage circle radius. -/
def Ob.Cur.V_LIMIT : Obj :=
  ⟨0x401F, 256, 0x40, 1, 1, 0, 0x07, 1, .f32, .rwc, .stored, 0x3F733333, .f32 (1056964608) 1065353216⟩

/-- LD_DEC F32 (Table 07-9, R186): Decoupling, voltage per current per rad/s. -/
def Ob.Cur.LD_DEC : Obj :=
  ⟨0x401F, 256, 0x40, 1, 1, 0, 0x08, 1, .f32, .rwc, .stored, 0x00000000, .f32 0 0x7F7FFFFF⟩

/-- LQ_DEC F32 (Table 07-9, R186): As LD_DEC. -/
def Ob.Cur.LQ_DEC : Obj :=
  ⟨0x401F, 256, 0x40, 1, 1, 0, 0x09, 1, .f32, .rwc, .stored, 0x00000000, .f32 0 0x7F7FFFFF⟩

/-- ANGLE_ADVANCE F32 (Table 07-9, R186): R178. -/
def Ob.Cur.ANGLE_ADVANCE : Obj :=
  ⟨0x401F, 256, 0x40, 1, 1, 0, 0x0A, 1, .f32, .rwc, .stored, 0x40200000, .f32 (0) 1082130432⟩

/-- SUM_LIMIT F32 (Table 07-9, R186): R180. -/
def Ob.Cur.SUM_LIMIT : Obj :=
  ⟨0x401F, 256, 0x40, 1, 1, 0, 0x0B, 1, .f32, .rwc, .stored, 0x3D4CCCCD, .f32 (0) 1065353216⟩

/-- SUM_REACTION U8 (Table 07-9, R186): Table 07-6. -/
def Ob.Cur.SUM_REACTION : Obj :=
  ⟨0x401F, 256, 0x40, 1, 1, 0, 0x0C, 1, .u8, .rwc, .stored, 3, .ints [(0, 0), (2, 2), (3, 3), (4, 4)]⟩

/-- FE_WARN_LIMIT Q32.32 (Table 07-9, R186): 0 off. -/
def Ob.Cur.FE_WARN_LIMIT : Obj :=
  ⟨0x4015, 256, 0x40, 1, 1, 0, 0x01, 1, .q32, .rwc, .stored, 0, .ints [(0, 9223372036854775807)]⟩

/-- FE_LIMIT Q32.32 (Table 07-9, R186): 0 off (R182). -/
def Ob.Cur.FE_LIMIT : Obj :=
  ⟨0x4015, 256, 0x40, 1, 1, 0, 0x02, 1, .q32, .rwc, .stored, 0, .ints [(0, 9223372036854775807)]⟩

/-- FE_TIME U16 (Table 07-9, R186): R182. -/
def Ob.Cur.FE_TIME : Obj :=
  ⟨0x4015, 256, 0x40, 1, 1, 0, 0x03, 1, .u16, .rwc, .stored, 1, .ints [(1, 1000)]⟩

/-- FE_REACTION U8 (Table 07-9, R186): Table 07-6. -/
def Ob.Cur.FE_REACTION : Obj :=
  ⟨0x4015, 256, 0x40, 1, 1, 0, 0x04, 1, .u8, .rwc, .stored, 2, .ints [(0, 0), (2, 2), (3, 3), (4, 4)]⟩

/-- FOLLOW_SOURCE U8 (Table 07-9, R186): 0 none; Table 07-4. -/
def Ob.Cur.FOLLOW_SOURCE : Obj :=
  ⟨0x4017, 256, 0x40, 1, 1, 0, 0x01, 1, .u8, .rwc, .stored, 0, .ints [(0, 3)]⟩

/-- FOLLOW_SELECT U32 (Table 07-9, R186): Source selection. -/
def Ob.Cur.FOLLOW_SELECT : Obj :=
  ⟨0x4017, 256, 0x40, 1, 1, 0, 0x02, 1, .u32, .rwc, .stored, 0, .followSel⟩

/-- FOLLOW_KIND U8 (Table 07-9, R186): 0 position, 1 velocity. -/
def Ob.Cur.FOLLOW_KIND : Obj :=
  ⟨0x4017, 256, 0x40, 1, 1, 0, 0x03, 1, .u8, .rwc, .stored, 0, .ints [(0, 1)]⟩

/-- FOLLOW_SCALE F32 (Table 07-9, R186): Units (or units/s) per full scale or per count. -/
def Ob.Cur.FOLLOW_SCALE : Obj :=
  ⟨0x4017, 256, 0x40, 1, 1, 0, 0x04, 1, .f32, .rwc, .stored, 0x3F800000, .f32 (-0x7F7FFFFF) 0x7F7FFFFF⟩

/-- FOLLOW_OFFSET Q32.32 (Table 07-9, R186): Position offset. -/
def Ob.Cur.FOLLOW_OFFSET : Obj :=
  ⟨0x4017, 256, 0x40, 1, 1, 0, 0x05, 1, .q32, .rwc, .stored, 0, .ints [(-9223372036854775808, 9223372036854775807)]⟩

/-- FOLLOW_OFFSET_V Q32.32 (Table 07-9, R186): Velocity offset, units/s. -/
def Ob.Cur.FOLLOW_OFFSET_V : Obj :=
  ⟨0x4017, 256, 0x40, 1, 1, 0, 0x06, 1, .q32, .rwc, .stored, 0, .ints [(-9223372036854775808, 9223372036854775807)]⟩

/-- FOLLOW_TC F32 (Table 07-9, R186): Input low-pass. -/
def Ob.Cur.FOLLOW_TC : Obj :=
  ⟨0x4017, 256, 0x40, 1, 1, 0, 0x07, 1, .f32, .rwc, .stored, 0x00000000, .f32 (0) 1065353216⟩

/-- FOLLOW_ALIGN BOOL (Table 07-9, R186): R175. -/
def Ob.Cur.FOLLOW_ALIGN : Obj :=
  ⟨0x4017, 256, 0x40, 1, 1, 0, 0x08, 1, .bool, .rwc, .stored, 1, .ints [(0, 1)]⟩

/-- FOLLOW_LOSS U8 (Table 07-9, R186): Table 07-6. -/
def Ob.Cur.FOLLOW_LOSS : Obj :=
  ⟨0x4017, 256, 0x40, 1, 1, 0, 0x09, 1, .u8, .rwc, .stored, 2, .ints [(0, 0), (2, 2), (3, 3), (4, 4)]⟩

/-- FOLLOW_ENTRY Q32.32 (Table 07-9, R186): Entry offset c. -/
def Ob.Cur.FOLLOW_ENTRY : Obj :=
  ⟨0x4017, 256, 0x40, 1, 1, 0, 0x0A, 1, .q32, .ro, .derived, 0, .ints [(-9223372036854775808, 9223372036854775807)]⟩

/-- FOLLOW_INPUT I32 (Table 07-9, R186): Last raw input: Q1.31 or counts. -/
def Ob.Cur.FOLLOW_INPUT : Obj :=
  ⟨0x4017, 256, 0x40, 1, 1, 0, 0x0B, 1, .i32, .ro, .derived, 0, .ints [(-2147483648, 2147483647)]⟩

/-- LOOP_FLAGS U16 (Table 07-10, R186): Flags of the scoreboard's cycle. -/
def Ob.AxD.LOOP_FLAGS : Obj :=
  ⟨0x403C, 256, 0x40, 1, 1, 0, 0x01, 1, .u16, .ro, .derived, 0, .ints [(0, 65535)]⟩

/-- FE_PEAK Q32.32 (Table 07-10, R186): Largest \|e_x\| since cleared. -/
def Ob.AxD.FE_PEAK : Obj :=
  ⟨0x403C, 256, 0x40, 1, 1, 0, 0x02, 1, .q32, .ro, .derived, 0, .ints [(-9223372036854775808, 9223372036854775807)]⟩

/-- CLEAR_PEAK U8 (Table 07-10, R186): Clears FE_PEAK and EXEC_MAX. -/
def Ob.AxD.CLEAR_PEAK : Obj :=
  ⟨0x403C, 256, 0x40, 1, 1, 0, 0x03, 1, .u8, .cmd, .factory, 0, .ints [(1, 1)]⟩

/-- EXEC_MAX U32 (Table 07-10, R186): Longest graph execution (R173). -/
def Ob.AxD.EXEC_MAX : Obj :=
  ⟨0x403C, 256, 0x40, 1, 1, 0, 0x04, 1, .u32, .ro, .derived, 0, .ints [(0, 4294967295)]⟩

/-- OVER_DECLARED U32 (Table 07-10, R186): Runs beyond the declared time. -/
def Ob.AxD.OVER_DECLARED : Obj :=
  ⟨0x403C, 256, 0x40, 1, 1, 0, 0x05, 1, .u32, .ro, .derived, 0, .ints [(0, 4294967295)]⟩

/-- SAT_CYCLES U32 (Table 07-10, R186): Velocity runs with TORQUE_SAT. -/
def Ob.AxD.SAT_CYCLES : Obj :=
  ⟨0x403C, 256, 0x40, 1, 1, 0, 0x06, 1, .u32, .ro, .derived, 0, .ints [(0, 4294967295)]⟩

/-- CONTROL U16 (Table 08-11, R228): Control word. -/
def Ob.Ctl.CONTROL : Obj :=
  ⟨0x4001, 256, 0x40, 1, 1, 0, 0x01, 1, .u16, .rwi, .factory, 0, .control⟩

/-- STATE_WORD U16 (Table 08-11, R228): State word. -/
def Ob.Ctl.STATE_WORD : Obj :=
  ⟨0x4001, 256, 0x40, 1, 1, 0, 0x02, 1, .u16, .ro, .derived, 0, .ints [(0, 65535)]⟩

/-- FAULT_CODE U8 (Table 08-11, R228): First fault (Table 08-4). -/
def Ob.Ctl.FAULT_CODE : Obj :=
  ⟨0x4001, 256, 0x40, 1, 1, 0, 0x03, 1, .u8, .ro, .derived, 0, .ints [(0, 255)]⟩

/-- STOP_CAUSE U8 (Table 08-11, R228): 0 none, 1 COMMAND, 2 MACHINE_STOP, 3 DISABLE, 4 FAULT. -/
def Ob.Ctl.STOP_CAUSE : Obj :=
  ⟨0x4001, 256, 0x40, 1, 1, 0, 0x04, 1, .u8, .ro, .derived, 0, .ints [(0, 255)]⟩

/-- FAULT_SET U32 (Table 08-11, R228): Bit f set: fault code f raised since the last reset. -/
def Ob.Ctl.FAULT_SET : Obj :=
  ⟨0x4001, 256, 0x40, 1, 1, 0, 0x05, 1, .u32, .ro, .derived, 0, .ints [(0, 4294967295)]⟩

/-- MODE U8 (Table 08-11, R228): Table 08-5. -/
def Ob.Ctl.MODE : Obj :=
  ⟨0x4002, 256, 0x40, 1, 1, 0, 0x01, 1, .u8, .rwc, .stored, 1, .ints [(1, 6)]⟩

/-- ACTIVE_MODE U8 (Table 08-11, R228): 0 HOLD, also while STOPPING (R200); 1–6 the mode running; 7 JOG while a jog runs (R199). -/
def Ob.Ctl.ACTIVE_MODE : Obj :=
  ⟨0x4002, 256, 0x40, 1, 1, 0, 0x02, 1, .u8, .ro, .derived, 0, .ints [(0, 255)]⟩

/-- MOVE U8 (Table 08-11, R228): Any write enters MODE (R193). -/
def Ob.Ctl.MOVE : Obj :=
  ⟨0x4002, 256, 0x40, 1, 1, 0, 0x03, 1, .u8, .rwc, .factory, 0, .ints [(0, 255)]⟩

/-- START_AT TIME64 (Table 08-11, R228): R195; 0 at the apply whistle. -/
def Ob.Ctl.START_AT : Obj :=
  ⟨0x4002, 256, 0x40, 1, 1, 0, 0x04, 1, .time64, .rwc, .factory, 0, .ints [(0, 18446744073709551615)]⟩

/-- DISABLE_STOP U8 (Table 08-11, R228): Stop on ENABLE = 0: 1 RAMP, 2 QUICK, 3 HARD. -/
def Ob.Ctl.DISABLE_STOP : Obj :=
  ⟨0x4002, 256, 0x40, 1, 1, 0, 0x05, 1, .u8, .rwc, .stored, 2, .ints [(1, 3)]⟩

/-- TARGET_POSITION Q32.32 (Table 08-11, R228): Target or distance. -/
def Ob.Ctl.TARGET_POSITION : Obj :=
  ⟨0x4003, 256, 0x40, 1, 1, 0, 0x01, 1, .q32, .rwc, .stored, 0, .ints [(-9223372036854775808, 9223372036854775807)]⟩

/-- RELATIVE BOOL (Table 08-11, R228): 1 relative move. -/
def Ob.Ctl.RELATIVE : Obj :=
  ⟨0x4003, 256, 0x40, 1, 1, 0, 0x02, 1, .bool, .rwc, .stored, 0, .ints [(0, 1)]⟩

/-- TARGET_VELOCITY Q32.32 (Table 08-11, R228): units/s. -/
def Ob.Ctl.TARGET_VELOCITY : Obj :=
  ⟨0x4004, 256, 0x40, 1, 1, 0, 0x01, 1, .q32, .rwc, .stored, 0, .ints [(-9223372036854775808, 9223372036854775807)]⟩

/-- JOG_VELOCITY Q32.32 (Table 08-11, R228): units/s. -/
def Ob.Ctl.JOG_VELOCITY : Obj :=
  ⟨0x4004, 256, 0x40, 1, 1, 0, 0x02, 1, .q32, .rwc, .stored, 0, .ints [(0, 9223372036854775807)]⟩

/-- V_MAX Q32.32 (Table 08-11, R228): units/s. -/
def Ob.Ctl.V_MAX : Obj :=
  ⟨0x4005, 256, 0x40, 1, 1, 0, 0x01, 1, .q32, .rwc, .stored, 4294967296, .ints [(1, 9223372036854775807)]⟩

/-- A_MAX Q32.32 (Table 08-11, R228): units/s². -/
def Ob.Ctl.A_MAX : Obj :=
  ⟨0x4005, 256, 0x40, 1, 1, 0, 0x02, 1, .q32, .rwc, .stored, 42949672960, .ints [(1, 9223372036854775807)]⟩

/-- D_MAX Q32.32 (Table 08-11, R228): units/s². -/
def Ob.Ctl.D_MAX : Obj :=
  ⟨0x4005, 256, 0x40, 1, 1, 0, 0x03, 1, .q32, .rwc, .stored, 42949672960, .ints [(1, 9223372036854775807)]⟩

/-- J_MAX Q32.32 (Table 08-11, R228): units/s³. -/
def Ob.Ctl.J_MAX : Obj :=
  ⟨0x4005, 256, 0x40, 1, 1, 0, 0x04, 1, .q32, .rwc, .stored, 429496729600, .ints [(1, 9223372036854775807)]⟩

/-- QSTOP_DEC Q32.32 (Table 08-11, R228): units/s². -/
def Ob.Ctl.QSTOP_DEC : Obj :=
  ⟨0x4005, 256, 0x40, 1, 1, 0, 0x05, 1, .q32, .rwc, .stored, 429496729600, .ints [(1, 9223372036854775807)]⟩

/-- QSTOP_JERK Q32.32 (Table 08-11, R228): units/s³; 0 unlimited. -/
def Ob.Ctl.QSTOP_JERK : Obj :=
  ⟨0x4005, 256, 0x40, 1, 1, 0, 0x06, 1, .q32, .rwc, .stored, 0, .ints [(0, 9223372036854775807)]⟩

/-- SOFT_LIMIT_ENABLE BOOL (Table 08-12, R228): R207. -/
def Ob.Lim.SOFT_LIMIT_ENABLE : Obj :=
  ⟨0x4030, 256, 0x40, 1, 1, 0, 0x01, 1, .bool, .rwc, .stored, 0, .ints [(0, 1)]⟩

/-- SOFT_LIMIT_POS Q32.32 (Table 08-12, R228): Upper limit. -/
def Ob.Lim.SOFT_LIMIT_POS : Obj :=
  ⟨0x4030, 256, 0x40, 1, 1, 0, 0x02, 1, .q32, .rwc, .stored, 9223372036854775807, .ints [(-9223372036854775808, 9223372036854775807)]⟩

/-- SOFT_LIMIT_NEG Q32.32 (Table 08-12, R228): Lower limit. -/
def Ob.Lim.SOFT_LIMIT_NEG : Obj :=
  ⟨0x4030, 256, 0x40, 1, 1, 0, 0x03, 1, .q32, .rwc, .stored, (-9223372036854775808), .ints [(-9223372036854775808, 9223372036854775807)]⟩

/-- SOFT_LIMIT_REACTION U8 (Table 08-12, R228): Table 07-6. -/
def Ob.Lim.SOFT_LIMIT_REACTION : Obj :=
  ⟨0x4030, 256, 0x40, 1, 1, 0, 0x04, 1, .u8, .rwc, .stored, 2, .ints [(0, 0), (2, 2), (3, 3), (4, 4)]⟩

/-- LIMIT_POS_SOURCE U32 (Table 08-12, R228): Positive limit input. -/
def Ob.Lim.LIMIT_POS_SOURCE : Obj :=
  ⟨0x4031, 256, 0x40, 1, 1, 0, 0x01, 1, .u32, .rwc, .stored, 0, .sourceWord⟩

/-- LIMIT_NEG_SOURCE U32 (Table 08-12, R228): Negative limit input. -/
def Ob.Lim.LIMIT_NEG_SOURCE : Obj :=
  ⟨0x4031, 256, 0x40, 1, 1, 0, 0x02, 1, .u32, .rwc, .stored, 0, .sourceWord⟩

/-- LIMIT_LEVEL U8 (Table 08-12, R228): 0 active low (normally closed), 1 active high. -/
def Ob.Lim.LIMIT_LEVEL : Obj :=
  ⟨0x4031, 256, 0x40, 1, 1, 0, 0x03, 1, .u8, .rwc, .stored, 0, .ints [(0, 1)]⟩

/-- LIMIT_REACTION U8 (Table 08-12, R228): R209. -/
def Ob.Lim.LIMIT_REACTION : Obj :=
  ⟨0x4031, 256, 0x40, 1, 1, 0, 0x04, 1, .u8, .rwc, .stored, 2, .ints [(2, 2), (3, 3), (4, 4)]⟩

/-- LIMIT_RELEASE Q32.32 (Table 08-12, R228): R210. -/
def Ob.Lim.LIMIT_RELEASE : Obj :=
  ⟨0x4031, 256, 0x40, 1, 1, 0, 0x05, 1, .q32, .rwc, .stored, 0, .ints [(0, 9223372036854775807)]⟩

/-- LIMIT_TRIP_POS Q32.32 (Table 08-12, R228): x_act at the last trip. -/
def Ob.Lim.LIMIT_TRIP_POS : Obj :=
  ⟨0x4031, 256, 0x40, 1, 1, 0, 0x06, 1, .q32, .ro, .derived, 0, .ints [(-9223372036854775808, 9223372036854775807)]⟩

/-- LIMIT_CHATTER U32 (Table 08-12, R228): R210. -/
def Ob.Lim.LIMIT_CHATTER : Obj :=
  ⟨0x4031, 256, 0x40, 1, 1, 0, 0x07, 1, .u32, .ro, .derived, 0, .ints [(0, 4294967295)]⟩

/-- QSTOP_TORQUE F32 (Table 08-12, R228): Table 08-6. -/
def Ob.Lim.QSTOP_TORQUE : Obj :=
  ⟨0x4032, 256, 0x40, 1, 1, 0, 0x01, 1, .f32, .rwc, .stored, 0x3F800000, .f32 (0) 1065353216⟩

/-- HARD_TORQUE F32 (Table 08-12, R228): Table 08-6. -/
def Ob.Lim.HARD_TORQUE : Obj :=
  ⟨0x4032, 256, 0x40, 1, 1, 0, 0x02, 1, .f32, .rwc, .stored, 0x3F800000, .f32 (0) 1065353216⟩

/-- STANDSTILL_VEL Q32.32 (Table 08-12, R228): units/s. -/
def Ob.Lim.STANDSTILL_VEL : Obj :=
  ⟨0x4032, 256, 0x40, 1, 1, 0, 0x03, 1, .q32, .rwc, .stored, 16777216, .ints [(1, 9223372036854775807)]⟩

/-- STANDSTILL_TIME U16 (Table 08-12, R228): R203. -/
def Ob.Lim.STANDSTILL_TIME : Obj :=
  ⟨0x4032, 256, 0x40, 1, 1, 0, 0x04, 1, .u16, .rwc, .stored, 10, .ints [(1, 1000)]⟩

/-- STOP_TIMEOUT U16 (Table 08-12, R228): R203. -/
def Ob.Lim.STOP_TIMEOUT : Obj :=
  ⟨0x4032, 256, 0x40, 1, 1, 0, 0x05, 1, .u16, .rwc, .stored, 2000, .ints [(10, 60000)]⟩

/-- ARM_DELAY U16 (Table 08-12, R228): R190. -/
def Ob.Lim.ARM_DELAY : Obj :=
  ⟨0x4032, 256, 0x40, 1, 1, 0, 0x06, 1, .u16, .rwc, .stored, 0, .ints [(0, 5000)]⟩

/-- ARM_TIMEOUT U16 (Table 08-12, R228): Table 08-1. -/
def Ob.Lim.ARM_TIMEOUT : Obj :=
  ⟨0x4032, 256, 0x40, 1, 1, 0, 0x07, 1, .u16, .rwc, .stored, 500, .ints [(10, 10000)]⟩

/-- HOME_METHOD U8 (Table 08-13, R228): Table 08-8. -/
def Ob.Home.HOME_METHOD : Obj :=
  ⟨0x4033, 256, 0x40, 1, 1, 0, 0x01, 1, .u8, .rwc, .stored, 0, .ints [(0, 5)]⟩

/-- HOME_DIR U8 (Table 08-13, R228): 0 positive, 1 negative. -/
def Ob.Home.HOME_DIR : Obj :=
  ⟨0x4033, 256, 0x40, 1, 1, 0, 0x02, 1, .u8, .rwc, .stored, 0, .ints [(0, 1)]⟩

/-- HOME_SOURCE U32 (Table 08-13, R228): Home switch. -/
def Ob.Home.HOME_SOURCE : Obj :=
  ⟨0x4033, 256, 0x40, 1, 1, 0, 0x03, 1, .u32, .rwc, .stored, 0, .sourceWord⟩

/-- SEARCH_VEL Q32.32 (Table 08-13, R228): units/s. -/
def Ob.Home.SEARCH_VEL : Obj :=
  ⟨0x4033, 256, 0x40, 1, 1, 0, 0x04, 1, .q32, .rwc, .stored, 429496730, .ints [(1, 9223372036854775807)]⟩

/-- CREEP_VEL Q32.32 (Table 08-13, R228): units/s. -/
def Ob.Home.CREEP_VEL : Obj :=
  ⟨0x4033, 256, 0x40, 1, 1, 0, 0x05, 1, .q32, .rwc, .stored, 42949673, .ints [(1, 9223372036854775807)]⟩

/-- HOME_ACC Q32.32 (Table 08-13, R228): units/s². -/
def Ob.Home.HOME_ACC : Obj :=
  ⟨0x4033, 256, 0x40, 1, 1, 0, 0x06, 1, .q32, .rwc, .stored, 4294967296, .ints [(1, 9223372036854775807)]⟩

/-- HOME_POSITION Q32.32 (Table 08-13, R228): Position given to the event. -/
def Ob.Home.HOME_POSITION : Obj :=
  ⟨0x4033, 256, 0x40, 1, 1, 0, 0x07, 1, .q32, .rwc, .stored, 0, .ints [(-9223372036854775808, 9223372036854775807)]⟩

/-- REVERSE_ON_LIMIT BOOL (Table 08-13, R228): R215. -/
def Ob.Home.REVERSE_ON_LIMIT : Obj :=
  ⟨0x4033, 256, 0x40, 1, 1, 0, 0x08, 1, .bool, .rwc, .stored, 1, .ints [(0, 1)]⟩

/-- HOME_TIMEOUT U32 (Table 08-13, R228): R216. -/
def Ob.Home.HOME_TIMEOUT : Obj :=
  ⟨0x4033, 256, 0x40, 1, 1, 0, 0x09, 1, .u32, .rwc, .stored, 60000, .ints [(100, 600000)]⟩

/-- HOME_STATE U8 (Table 08-13, R228): 0 IDLE, 1 SEARCH, 2 CREEP, 3 INDEX, 4 DONE, 5 FAILED. -/
def Ob.Home.HOME_STATE : Obj :=
  ⟨0x4034, 256, 0x40, 1, 1, 0, 0x01, 1, .u8, .ro, .derived, 0, .ints [(0, 255)]⟩

/-- HOME_EDGE Q32.32 (Table 08-13, R228): Event position before the shift. -/
def Ob.Home.HOME_EDGE : Obj :=
  ⟨0x4034, 256, 0x40, 1, 1, 0, 0x02, 1, .q32, .ro, .derived, 0, .ints [(-9223372036854775808, 9223372036854775807)]⟩

/-- HOME_SHIFT Q32.32 (Table 08-13, R228): R214. -/
def Ob.Home.HOME_SHIFT : Obj :=
  ⟨0x4034, 256, 0x40, 1, 1, 0, 0x03, 1, .q32, .ro, .derived, 0, .ints [(-9223372036854775808, 9223372036854775807)]⟩

/-- MASTER U8 (Table 08-14, R228): M0–M7. -/
def Ob.Gear.MASTER : Obj :=
  ⟨0x4028, 256, 0x40, 1, 1, 0, 0x01, 1, .u8, .rwc, .stored, 0, .ints [(0, 7)]⟩

/-- SYNC_ALIGN U8 (Table 08-14, R228): R194. -/
def Ob.Gear.SYNC_ALIGN : Obj :=
  ⟨0x4028, 256, 0x40, 1, 1, 0, 0x02, 1, .u8, .rwc, .stored, 1, .ints [(0, 1)]⟩

/-- SYNC_OFFSET Q32.32 (Table 08-14, R228): c. -/
def Ob.Gear.SYNC_OFFSET : Obj :=
  ⟨0x4028, 256, 0x40, 1, 1, 0, 0x03, 1, .q32, .ro, .derived, 0, .ints [(-9223372036854775808, 9223372036854775807)]⟩

/-- MASTER_LOSS U8 (Table 08-14, R228): R220. -/
def Ob.Gear.MASTER_LOSS : Obj :=
  ⟨0x4028, 256, 0x40, 1, 1, 0, 0x04, 1, .u8, .rwc, .stored, 2, .ints [(0, 0), (2, 2), (3, 3), (4, 4)]⟩

/-- RATIO_NUM I32 (Table 08-14, R228): Ratio at entry. -/
def Ob.Gear.RATIO_NUM : Obj :=
  ⟨0x4029, 256, 0x40, 1, 1, 0, 0x01, 1, .i32, .rwc, .stored, 1, .ints [(-2147483648, 2147483647)]⟩

/-- RATIO_DEN U32 (Table 08-14, R228): Ratio at entry. -/
def Ob.Gear.RATIO_DEN : Obj :=
  ⟨0x4029, 256, 0x40, 1, 1, 0, 0x02, 1, .u32, .rwc, .stored, 1, .ints [(1, 4294967295)]⟩

/-- NEXT_NUM I32 (Table 08-14, R228): R222. -/
def Ob.Gear.NEXT_NUM : Obj :=
  ⟨0x4029, 256, 0x40, 1, 1, 0, 0x03, 1, .i32, .rwc, .stored, 1, .ints [(-2147483648, 2147483647)]⟩

/-- NEXT_DEN U32 (Table 08-14, R228): R222. -/
def Ob.Gear.NEXT_DEN : Obj :=
  ⟨0x4029, 256, 0x40, 1, 1, 0, 0x04, 1, .u32, .rwc, .stored, 1, .ints [(1, 4294967295)]⟩

/-- CHANGE_AT Q32.32 (Table 08-14, R228): P, master units. -/
def Ob.Gear.CHANGE_AT : Obj :=
  ⟨0x4029, 256, 0x40, 1, 1, 0, 0x05, 1, .q32, .rwc, .stored, 0, .ints [(-9223372036854775808, 9223372036854775807)]⟩

/-- BLEND Q32.32 (Table 08-14, R228): B, master units. -/
def Ob.Gear.BLEND : Obj :=
  ⟨0x4029, 256, 0x40, 1, 1, 0, 0x06, 1, .q32, .rwc, .stored, 0, .ints [(0, 9223372036854775807)]⟩

/-- CHANGE_ARM U8 (Table 08-14, R228): Any write arms. -/
def Ob.Gear.CHANGE_ARM : Obj :=
  ⟨0x4029, 256, 0x40, 1, 1, 0, 0x07, 1, .u8, .rwc, .factory, 0, .ints [(0, 255)]⟩

/-- CHANGE_STATE U8 (Table 08-14, R228): 0 none, 1 ARMED, 2 BLENDING, 3 DONE, 4 LATE. -/
def Ob.Gear.CHANGE_STATE : Obj :=
  ⟨0x4029, 256, 0x40, 1, 1, 0, 0x08, 1, .u8, .ro, .derived, 0, .ints [(0, 255)]⟩

/-- ACTIVE_NUM I32 (Table 08-14, R228): Ratio in use. -/
def Ob.Gear.ACTIVE_NUM : Obj :=
  ⟨0x4029, 256, 0x40, 1, 1, 0, 0x09, 1, .i32, .ro, .derived, 1, .ints [(-2147483648, 2147483647)]⟩

/-- ACTIVE_DEN U32 (Table 08-14, R228): Ratio in use. -/
def Ob.Gear.ACTIVE_DEN : Obj :=
  ⟨0x4029, 256, 0x40, 1, 1, 0, 0x0A, 1, .u32, .ro, .derived, 1, .ints [(0, 4294967295)]⟩

/-- CAM U16 (Table 08-14, R228): Cam at entry. -/
def Ob.Gear.CAM : Obj :=
  ⟨0x402A, 256, 0x40, 1, 1, 0, 0x01, 1, .u16, .rwc, .stored, 0, .ints [(0, 1023)]⟩

/-- CAM_MASTER_OFFSET Q32.32 (Table 08-14, R228): R225. -/
def Ob.Gear.CAM_MASTER_OFFSET : Obj :=
  ⟨0x402A, 256, 0x40, 1, 1, 0, 0x02, 1, .q32, .rwc, .stored, 0, .ints [(-9223372036854775808, 9223372036854775807)]⟩

/-- NEXT_CAM U16 (Table 08-14, R228): R227. -/
def Ob.Gear.NEXT_CAM : Obj :=
  ⟨0x402A, 256, 0x40, 1, 1, 0, 0x03, 1, .u16, .rwc, .stored, 0, .ints [(0, 1023)]⟩

/-- SWITCH_AT Q32.32 (Table 08-14, R228): P, master units. -/
def Ob.Gear.SWITCH_AT : Obj :=
  ⟨0x402A, 256, 0x40, 1, 1, 0, 0x04, 1, .q32, .rwc, .stored, 0, .ints [(-9223372036854775808, 9223372036854775807)]⟩

/-- CAM_ARM U8 (Table 08-14, R228): Any write arms. -/
def Ob.Gear.CAM_ARM : Obj :=
  ⟨0x402A, 256, 0x40, 1, 1, 0, 0x05, 1, .u8, .rwc, .factory, 0, .ints [(0, 255)]⟩

/-- ACTIVE_CAM U16 (Table 08-14, R228): Cam in use. -/
def Ob.Gear.ACTIVE_CAM : Obj :=
  ⟨0x402A, 256, 0x40, 1, 1, 0, 0x06, 1, .u16, .ro, .derived, 0, .ints [(0, 65535)]⟩

/-- SWITCH_STATE U8 (Table 08-14, R228): 0 none, 1 ARMED, 2 DONE. -/
def Ob.Gear.SWITCH_STATE : Obj :=
  ⟨0x402A, 256, 0x40, 1, 1, 0, 0x07, 1, .u8, .ro, .derived, 0, .ints [(0, 255)]⟩

/-- STOP_REQUEST U8 (Table 08-15, R228): R205. -/
def Ob.Mach.STOP_REQUEST : Obj :=
  ⟨0x3200, 1, 0x1, 1, 1, 0, 0x01, 1, .u8, .any, .factory, 0, .ints [(1, 3)]⟩

/-- STOP_ACTIVE U8 (Table 08-15, R228): 0 none, 1 RAMP, 2 QUICK, 3 HARD. -/
def Ob.Mach.STOP_ACTIVE : Obj :=
  ⟨0x3200, 1, 0x1, 1, 1, 0, 0x02, 1, .u8, .ro, .derived, 0, .ints [(0, 255)]⟩

/-- STOP_CLEAR U8 (Table 08-15, R228): R206. -/
def Ob.Mach.STOP_CLEAR : Obj :=
  ⟨0x3200, 1, 0x1, 1, 1, 0, 0x03, 1, .u8, .cmd, .factory, 0, .ints [(1, 1)]⟩

/-- STOP_SESSION U8 (Table 08-15, R228): First requester. -/
def Ob.Mach.STOP_SESSION : Obj :=
  ⟨0x3200, 1, 0x1, 1, 1, 0, 0x04, 1, .u8, .ro, .derived, 255, .ints [(0, 255)]⟩

/-- STOP_COUNT U32 (Table 08-15, R228): Requests that raised STOP_ACTIVE. -/
def Ob.Mach.STOP_COUNT : Obj :=
  ⟨0x3200, 1, 0x1, 1, 1, 0, 0x05, 1, .u32, .ro, .derived, 0, .ints [(0, 4294967295)]⟩

/-- CAM_SEGMENTS_USED U32 (Table 08-15, R228): Segments of cams in force. -/
def Ob.Mach.CAM_SEGMENTS_USED : Obj :=
  ⟨0x3201, 1, 0x1, 1, 1, 0, 0x01, 1, .u32, .ro, .derived, 0, .ints [(0, 4294967295)]⟩

/-- TYPE U8 (Table 08-15, R228): Table 08-9. -/
def Ob.Mst.TYPE : Obj :=
  ⟨0x3210, 8, 0x1, 1, 1, 0, 0x01, 1, .u8, .rwc, .stored, 0, .ints [(0, 4)]⟩

/-- SOURCE U8 (Table 08-15, R228): Table 08-9. -/
def Ob.Mst.SOURCE : Obj :=
  ⟨0x3210, 8, 0x1, 1, 1, 0, 0x02, 1, .u8, .rwc, .stored, 0, .ints [(0, 255)]⟩

/-- UNIT_NUM U32 (Table 08-15, R228): ENCODER: units per count, numerator. -/
def Ob.Mst.UNIT_NUM : Obj :=
  ⟨0x3210, 8, 0x1, 1, 1, 0, 0x03, 1, .u32, .rwc, .stored, 1, .ints [(1, 4294967295)]⟩

/-- UNIT_DEN U32 (Table 08-15, R228): Denominator. -/
def Ob.Mst.UNIT_DEN : Obj :=
  ⟨0x3210, 8, 0x1, 1, 1, 0, 0x04, 1, .u32, .rwc, .stored, 1, .ints [(1, 4294967295)]⟩

/-- PERIOD Q32.32 (Table 08-15, R228): 0 linear. -/
def Ob.Mst.PERIOD : Obj :=
  ⟨0x3210, 8, 0x1, 1, 1, 0, 0x05, 1, .q32, .rwc, .stored, 0, .ints [(0, 9223372036854775807)]⟩

/-- LEAD I32 (Table 08-15, R228): R217. -/
def Ob.Mst.LEAD : Obj :=
  ⟨0x3210, 8, 0x1, 1, 1, 0, 0x06, 1, .i32, .rwc, .stored, 0, .ints [(-1000000, 1000000)]⟩

/-- POSITION Q32.32 (Table 08-15, R228): At the LOCAL_RING whistle. -/
def Ob.Mst.POSITION : Obj :=
  ⟨0x3210, 8, 0x1, 1, 1, 0, 0x07, 1, .q32, .ro, .derived, 0, .ints [(-9223372036854775808, 9223372036854775807)]⟩

/-- VELOCITY Q32.32 (Table 08-15, R228): units/s. -/
def Ob.Mst.VELOCITY : Obj :=
  ⟨0x3210, 8, 0x1, 1, 1, 0, 0x08, 1, .q32, .ro, .derived, 0, .ints [(-9223372036854775808, 9223372036854775807)]⟩

/-- STATE U8 (Table 08-15, R228): 0 OFF, 1 VALID, 2 LOST. -/
def Ob.Mst.STATE : Obj :=
  ⟨0x3210, 8, 0x1, 1, 1, 0, 0x09, 1, .u8, .ro, .derived, 0, .ints [(0, 255)]⟩

/-- VM_VELOCITY Q32.32 (Table 08-15, R228): VIRTUAL target, units/s. -/
def Ob.Mst.VM_VELOCITY : Obj :=
  ⟨0x3210, 8, 0x1, 1, 1, 0, 0x0A, 1, .q32, .rwc, .stored, 0, .ints [(-9223372036854775808, 9223372036854775807)]⟩

/-- VM_ACC Q32.32 (Table 08-15, R228): units/s². -/
def Ob.Mst.VM_ACC : Obj :=
  ⟨0x3210, 8, 0x1, 1, 1, 0, 0x0B, 1, .q32, .rwc, .stored, 4294967296, .ints [(1, 9223372036854775807)]⟩

/-- VM_JERK Q32.32 (Table 08-15, R228): units/s³; 0 unlimited. -/
def Ob.Mst.VM_JERK : Obj :=
  ⟨0x3210, 8, 0x1, 1, 1, 0, 0x0C, 1, .q32, .rwc, .stored, 0, .ints [(0, 9223372036854775807)]⟩

/-- VM_STOP_DEC Q32.32 (Table 08-15, R228): R205, RAMP. -/
def Ob.Mst.VM_STOP_DEC : Obj :=
  ⟨0x3210, 8, 0x1, 1, 1, 0, 0x0D, 1, .q32, .rwc, .stored, 4294967296, .ints [(1, 9223372036854775807)]⟩

/-- VM_QSTOP_DEC Q32.32 (Table 08-15, R228): R205, QUICK and HARD. -/
def Ob.Mst.VM_QSTOP_DEC : Obj :=
  ⟨0x3210, 8, 0x1, 1, 1, 0, 0x0E, 1, .q32, .rwc, .stored, 42949672960, .ints [(1, 9223372036854775807)]⟩

/-- VM_CHANGE_AT TIME64 (Table 08-15, R228): R218. -/
def Ob.Mst.VM_CHANGE_AT : Obj :=
  ⟨0x3210, 8, 0x1, 1, 1, 0, 0x0F, 1, .time64, .ro, .derived, 0, .ints [(0, 18446744073709551615)]⟩

/-- SEGMENTS DOMAIN (Table 08-16, R228): Table 08-10. -/
def Ob.Cam.SEGMENTS : Obj :=
  ⟨0x3400, 1024, 0x1, 1, 1, 0, 0x01, 1, .domain, .rwc, .stored, 0, .len 0 2097152 32⟩

/-- PERIOD Q32.32 (Table 08-16, R228): Master distance of one cam cycle. -/
def Ob.Cam.PERIOD : Obj :=
  ⟨0x3400, 1024, 0x1, 1, 1, 0, 0x02, 1, .q32, .rwc, .stored, 1546188226560, .ints [(1, 9223372036854775807)]⟩

/-- COEF_SHIFT U8 (Table 08-16, R228): S of Table 08-10. -/
def Ob.Cam.COEF_SHIFT : Obj :=
  ⟨0x3400, 1024, 0x1, 1, 1, 0, 0x03, 1, .u8, .rwc, .stored, 24, .ints [(0, 31)]⟩

/-- TOLERANCE Q32.32 (Table 08-16, R228): R226. -/
def Ob.Cam.TOLERANCE : Obj :=
  ⟨0x3400, 1024, 0x1, 1, 1, 0, 0x04, 1, .q32, .rwc, .stored, 4096, .ints [(0, 9223372036854775807)]⟩

/-- RISE Q32.32 (Table 08-16, R228): R224. -/
def Ob.Cam.RISE : Obj :=
  ⟨0x3400, 1024, 0x1, 1, 1, 0, 0x05, 1, .q32, .ro, .derived, 0, .ints [(-9223372036854775808, 9223372036854775807)]⟩

/-- SEGMENT_COUNT U32 (Table 08-16, R228): Segments in the cam. -/
def Ob.Cam.SEGMENT_COUNT : Obj :=
  ⟨0x3400, 1024, 0x1, 1, 1, 0, 0x06, 1, .u32, .ro, .derived, 0, .ints [(0, 4294967295)]⟩

/-- FIRST_SEGMENT U32 (Table 08-16, R228): Placement in the cam region. -/
def Ob.Cam.FIRST_SEGMENT : Obj :=
  ⟨0x3400, 1024, 0x1, 1, 1, 0, 0x07, 1, .u32, .ro, .derived, 0, .ints [(0, 4294967295)]⟩

/-- USERS U16 (Table 08-16, R228): Axes with the cam active or armed. -/
def Ob.Cam.USERS : Obj :=
  ⟨0x3400, 1024, 0x1, 1, 1, 0, 0x08, 1, .u16, .ro, .derived, 0, .ints [(0, 65535)]⟩

/-- FB_SOURCE U8 (Table 09-5, R256): Table 09-1. -/
def Ob.AxFb.FB_SOURCE : Obj :=
  ⟨0x4020, 256, 0x40, 1, 1, 0, 0x01, 1, .u8, .rwc, .stored, 0, .ints [(0, 3), (255, 255)]⟩

/-- FB_UNIT U8 (Table 09-5, R256): Unit for FB_SOURCE 2 or 3. -/
def Ob.AxFb.FB_UNIT : Obj :=
  ⟨0x4020, 256, 0x40, 1, 1, 0, 0x02, 1, .u8, .rwc, .stored, 0, .ints [(0, 7)]⟩

/-- FB_COUNTS U32 (Table 09-5, R256): Counts in FB_UNITS machine units. -/
def Ob.AxFb.FB_COUNTS : Obj :=
  ⟨0x4020, 256, 0x40, 1, 1, 0, 0x03, 1, .u32, .rwc, .stored, 1, .ints [(1, 4294967295)]⟩

/-- FB_UNITS U32 (Table 09-5, R256): Machine units per FB_COUNTS counts. -/
def Ob.AxFb.FB_UNITS : Obj :=
  ⟨0x4020, 256, 0x40, 1, 1, 0, 0x04, 1, .u32, .rwc, .stored, 1, .ints [(1, 4294967295)]⟩

/-- FB_INVERT BOOL (Table 09-5, R256): σ = −1. -/
def Ob.AxFb.FB_INVERT : Obj :=
  ⟨0x4020, 256, 0x40, 1, 1, 0, 0x05, 1, .bool, .rwc, .stored, 0, .ints [(0, 1)]⟩

/-- FB_WORKER_ABS BOOL (Table 09-5, R256): Worker count is absolute modulo 2³² (R241). -/
def Ob.AxFb.FB_WORKER_ABS : Obj :=
  ⟨0x4020, 256, 0x40, 1, 1, 0, 0x06, 1, .bool, .rwc, .stored, 0, .ints [(0, 1)]⟩

/-- MAX_COUNT_RATE U32 (Table 09-5, R256): Worker sources and ENC in ABSOLUTE (R240). -/
def Ob.AxFb.MAX_COUNT_RATE : Obj :=
  ⟨0x4020, 256, 0x40, 1, 1, 0, 0x07, 1, .u32, .rwc, .stored, 50000000, .ints [(1, 100000000)]⟩

/-- ABS_OFFSET Q32.32 (Table 09-5, R256): POS_OFFSET at an absolute rebase. -/
def Ob.AxFb.ABS_OFFSET : Obj :=
  ⟨0x4020, 256, 0x40, 1, 1, 0, 0x08, 1, .q32, .rwc, .stored, 0, .ints [(-9223372036854775808, 9223372036854775807)]⟩

/-- FB_HOLD_LIMIT U8 (Table 09-5, R256): R242. -/
def Ob.AxFb.FB_HOLD_LIMIT : Obj :=
  ⟨0x4020, 256, 0x40, 1, 1, 0, 0x09, 1, .u8, .rwc, .stored, 2, .ints [(1, 8)]⟩

/-- FB_REACTION U8 (Table 09-5, R256): Table 07-6; R243. -/
def Ob.AxFb.FB_REACTION : Obj :=
  ⟨0x4020, 256, 0x40, 1, 1, 0, 0x0A, 1, .u8, .rwc, .stored, 4, .ints [(0, 0), (2, 2), (3, 3), (4, 4)]⟩

/-- EXT_COUNT I64 (Table 09-5, R256): ext. -/
def Ob.AxFb.EXT_COUNT : Obj :=
  ⟨0x4021, 256, 0x40, 1, 1, 0, 0x01, 1, .i64, .ro, .derived, 0, .ints [(-9223372036854775808, 9223372036854775807)]⟩

/-- POS_OFFSET Q32.32 (Table 09-5, R256): R231. -/
def Ob.AxFb.POS_OFFSET : Obj :=
  ⟨0x4021, 256, 0x40, 1, 1, 0, 0x02, 1, .q32, .ro, .derived, 0, .ints [(-9223372036854775808, 9223372036854775807)]⟩

/-- FB_STATE U8 (Table 09-5, R256): 0 UNSET, 1 VALID, 2 HOLD, 3 FAULT. -/
def Ob.AxFb.FB_STATE : Obj :=
  ⟨0x4021, 256, 0x40, 1, 1, 0, 0x03, 1, .u8, .ro, .derived, 0, .ints [(0, 255)]⟩

/-- FB_AGE U8 (Table 09-5, R256): R230. -/
def Ob.AxFb.FB_AGE : Obj :=
  ⟨0x4021, 256, 0x40, 1, 1, 0, 0x04, 1, .u8, .ro, .derived, 0, .ints [(0, 255)]⟩

/-- EXT_UNCERTAIN BOOL (Table 09-5, R256): R240. -/
def Ob.AxFb.EXT_UNCERTAIN : Obj :=
  ⟨0x4021, 256, 0x40, 1, 1, 0, 0x05, 1, .bool, .ro, .derived, 0, .ints [(0, 1)]⟩

/-- SPEED_EST Q32.32 (Table 09-5, R256): Estimate in units/s. -/
def Ob.AxFb.SPEED_EST : Obj :=
  ⟨0x4021, 256, 0x40, 1, 1, 0, 0x06, 1, .q32, .ro, .derived, 0, .ints [(-9223372036854775808, 9223372036854775807)]⟩

/-- INVALID_COUNT U32 (Table 09-5, R256): Invalid samples. -/
def Ob.AxFb.INVALID_COUNT : Obj :=
  ⟨0x4021, 256, 0x40, 1, 1, 0, 0x07, 1, .u32, .ro, .derived, 0, .ints [(0, 4294967295)]⟩

/-- MODE U8 (Table 09-6, R256): ENC: 0 OFF, 1 QUADRATURE, 2 ABSOLUTE, 3 ABS_PLUS_QUAD. ME: 0 OFF, 1 QUADRATURE. -/
def Ob.Fb.MODE : Obj :=
  ⟨0x8110, 8, 0x1, 1, 1, 0, 0x01, 1, .u8, .rwc, .stored, 0, .ints [(0, 3)]⟩

/-- MODE U8 (Table 09-6, R256): ENC: 0 OFF, 1 QUADRATURE, 2 ABSOLUTE, 3 ABS_PLUS_QUAD. ME: 0 OFF, 1 QUADRATURE. -/
def Ob.FbMe.MODE : Obj :=
  ⟨0x8120, 4, 0x1, 1, 1, 0, 0x01, 1, .u8, .rwc, .stored, 0, .ints [(0, 1)]⟩

/-- FILTER_LEN U8 (Table 09-6, R256): Samples (R232). -/
def Ob.Fb.FILTER_LEN : Obj :=
  ⟨0x8110, 8, 0x1, 1, 1, 0, 0x02, 1, .u8, .rwc, .stored, 4, .ints [(1, 15)]⟩

/-- FILTER_LEN U8 (Table 09-6, R256): Samples (R232). -/
def Ob.FbMe.FILTER_LEN : Obj :=
  ⟨0x8120, 4, 0x1, 1, 1, 0, 0x02, 1, .u8, .rwc, .stored, 20, .ints [(1, 100)]⟩

/-- ILLEGAL_LIMIT U8 (Table 09-6, R256): 0 no fault (R234). -/
def Ob.Fb.ILLEGAL_LIMIT : Obj :=
  ⟨0x8110, 8, 0x1, 1, 1, 0, 0x03, 1, .u8, .rwc, .stored, 0, .ints [(0, 255)]⟩

/-- ILLEGAL_LIMIT U8 (Table 09-6, R256): 0 no fault (R234). -/
def Ob.FbMe.ILLEGAL_LIMIT : Obj :=
  ⟨0x8120, 4, 0x1, 1, 1, 0, 0x03, 1, .u8, .rwc, .stored, 0, .ints [(0, 255)]⟩

/-- ILLEGAL_WINDOW U16 (Table 09-6, R256): R234. -/
def Ob.Fb.ILLEGAL_WINDOW : Obj :=
  ⟨0x8110, 8, 0x1, 1, 1, 0, 0x04, 1, .u16, .rwc, .stored, 100, .ints [(1, 1000)]⟩

/-- ILLEGAL_WINDOW U16 (Table 09-6, R256): R234. -/
def Ob.FbMe.ILLEGAL_WINDOW : Obj :=
  ⟨0x8120, 4, 0x1, 1, 1, 0, 0x04, 1, .u16, .rwc, .stored, 100, .ints [(1, 1000)]⟩

/-- INDEX_GATE U8 (Table 09-6, R256): R235. -/
def Ob.Fb.INDEX_GATE : Obj :=
  ⟨0x8110, 8, 0x1, 1, 1, 0, 0x05, 1, .u8, .rwc, .stored, 0, .ints [(0, 1)]⟩

/-- INDEX_GATE U8 (Table 09-6, R256): R235. -/
def Ob.FbMe.INDEX_GATE : Obj :=
  ⟨0x8120, 4, 0x1, 1, 1, 0, 0x05, 1, .u8, .rwc, .stored, 0, .ints [(0, 1)]⟩

/-- SPEED_SPAN U32 (Table 09-6, R256): R244. -/
def Ob.Fb.SPEED_SPAN : Obj :=
  ⟨0x8110, 8, 0x1, 1, 1, 0, 0x06, 1, .u32, .rwc, .stored, 250000, .ints [(1000, 10000000)]⟩

/-- SPEED_SPAN U32 (Table 09-6, R256): R244. -/
def Ob.FbMe.SPEED_SPAN : Obj :=
  ⟨0x8120, 4, 0x1, 1, 1, 0, 0x06, 1, .u32, .rwc, .stored, 250000, .ints [(1000, 10000000)]⟩

/-- STANDSTILL_SPAN U32 (Table 09-6, R256): R244. -/
def Ob.Fb.STANDSTILL_SPAN : Obj :=
  ⟨0x8110, 8, 0x1, 1, 1, 0, 0x07, 1, .u32, .rwc, .stored, 10000000, .ints [(100000, 1000000000)]⟩

/-- STANDSTILL_SPAN U32 (Table 09-6, R256): R244. -/
def Ob.FbMe.STANDSTILL_SPAN : Obj :=
  ⟨0x8120, 4, 0x1, 1, 1, 0, 0x07, 1, .u32, .rwc, .stored, 10000000, .ints [(100000, 1000000000)]⟩

/-- ABS_CLOCK_DIV U16 (Table 09-6, R256): ENC; clock 800 MHz / (2 × value). -/
def Ob.Fb.ABS_CLOCK_DIV : Obj :=
  ⟨0x8110, 8, 0x1, 1, 1, 0, 0x08, 1, .u16, .rwc, .stored, 200, .ints [(25, 4000)]⟩

/-- ABS_CLOCK_DIV U16 (Table 09-6, R256): ENC; clock 800 MHz / (2 × value). -/
def Ob.FbMe.ABS_CLOCK_DIV : Obj :=
  ⟨0x8120, 4, 0x1, 1, 1, 0, 0x08, 1, .u16, .rwc, .stored, 200, .ints [(25, 4000)]⟩

/-- ABS_BITS U8 (Table 09-6, R256): ENC. -/
def Ob.Fb.ABS_BITS : Obj :=
  ⟨0x8110, 8, 0x1, 1, 1, 0, 0x09, 1, .u8, .rwc, .stored, 25, .ints [(8, 40)]⟩

/-- ABS_BITS U8 (Table 09-6, R256): ENC. -/
def Ob.FbMe.ABS_BITS : Obj :=
  ⟨0x8120, 4, 0x1, 1, 1, 0, 0x09, 1, .u8, .rwc, .stored, 25, .ints [(8, 40)]⟩

/-- ABS_FORMAT U16 (Table 09-6, R256): ENC. -/
def Ob.Fb.ABS_FORMAT : Obj :=
  ⟨0x8110, 8, 0x1, 1, 1, 0, 0x0A, 1, .u16, .rwc, .stored, 0, .absFormat⟩

/-- ABS_FORMAT U16 (Table 09-6, R256): ENC. -/
def Ob.FbMe.ABS_FORMAT : Obj :=
  ⟨0x8120, 4, 0x1, 1, 1, 0, 0x0A, 1, .u16, .rwc, .stored, 0, .absFormat⟩

/-- ABS_STATUS_MASK U8 (Table 09-6, R256): ENC; status bits that invalidate. -/
def Ob.Fb.ABS_STATUS_MASK : Obj :=
  ⟨0x8110, 8, 0x1, 1, 1, 0, 0x0B, 1, .u8, .rwc, .stored, 15, .ints [(0, 15)]⟩

/-- ABS_STATUS_MASK U8 (Table 09-6, R256): ENC; status bits that invalidate. -/
def Ob.FbMe.ABS_STATUS_MASK : Obj :=
  ⟨0x8120, 4, 0x1, 1, 1, 0, 0x0B, 1, .u8, .rwc, .stored, 15, .ints [(0, 15)]⟩

/-- SAMPLE_DELAY U16 (Table 09-6, R256): ENC; cable delay. -/
def Ob.Fb.SAMPLE_DELAY : Obj :=
  ⟨0x8110, 8, 0x1, 1, 1, 0, 0x0C, 1, .u16, .rwc, .stored, 0, .mult 0 2000 4⟩

/-- SAMPLE_DELAY U16 (Table 09-6, R256): ENC; cable delay. -/
def Ob.FbMe.SAMPLE_DELAY : Obj :=
  ⟨0x8120, 4, 0x1, 1, 1, 0, 0x0C, 1, .u16, .rwc, .stored, 0, .mult 0 2000 4⟩

/-- RECOVERY U16 (Table 09-6, R256): ENC. -/
def Ob.Fb.RECOVERY : Obj :=
  ⟨0x8110, 8, 0x1, 1, 1, 0, 0x0D, 1, .u16, .rwc, .stored, 20, .ints [(1, 100)]⟩

/-- RECOVERY U16 (Table 09-6, R256): ENC. -/
def Ob.FbMe.RECOVERY : Obj :=
  ⟨0x8120, 4, 0x1, 1, 1, 0, 0x0D, 1, .u16, .rwc, .stored, 20, .ints [(1, 100)]⟩

/-- ABS_CHECK_PERIOD U16 (Table 09-6, R256): ENC, ABS_PLUS_QUAD. -/
def Ob.Fb.ABS_CHECK_PERIOD : Obj :=
  ⟨0x8110, 8, 0x1, 1, 1, 0, 0x0E, 1, .u16, .rwc, .stored, 1000, .ints [(0, 10000)]⟩

/-- ABS_CHECK_PERIOD U16 (Table 09-6, R256): ENC, ABS_PLUS_QUAD. -/
def Ob.FbMe.ABS_CHECK_PERIOD : Obj :=
  ⟨0x8120, 4, 0x1, 1, 1, 0, 0x0E, 1, .u16, .rwc, .stored, 1000, .ints [(0, 10000)]⟩

/-- ABS_TOL U32 (Table 09-6, R256): ENC; counts. -/
def Ob.Fb.ABS_TOL : Obj :=
  ⟨0x8110, 8, 0x1, 1, 1, 0, 0x0F, 1, .u32, .rwc, .stored, 4, .ints [(0, 4294967295)]⟩

/-- ABS_TOL U32 (Table 09-6, R256): ENC; counts. -/
def Ob.FbMe.ABS_TOL : Obj :=
  ⟨0x8120, 4, 0x1, 1, 1, 0, 0x0F, 1, .u32, .rwc, .stored, 4, .ints [(0, 4294967295)]⟩

/-- ABS_ERR_LIMIT U8 (Table 09-6, R256): ENC. -/
def Ob.Fb.ABS_ERR_LIMIT : Obj :=
  ⟨0x8110, 8, 0x1, 1, 1, 0, 0x10, 1, .u8, .rwc, .stored, 2, .ints [(1, 8)]⟩

/-- ABS_ERR_LIMIT U8 (Table 09-6, R256): ENC. -/
def Ob.FbMe.ABS_ERR_LIMIT : Obj :=
  ⟨0x8120, 4, 0x1, 1, 1, 0, 0x10, 1, .u8, .rwc, .stored, 2, .ints [(1, 8)]⟩

/-- ABS_JUMP_MAX U32 (Table 09-6, R256): ENC; counts. -/
def Ob.Fb.ABS_JUMP_MAX : Obj :=
  ⟨0x8110, 8, 0x1, 1, 1, 0, 0x11, 1, .u32, .rwc, .stored, 1048576, .ints [(1, 2147483648)]⟩

/-- ABS_JUMP_MAX U32 (Table 09-6, R256): ENC; counts. -/
def Ob.FbMe.ABS_JUMP_MAX : Obj :=
  ⟨0x8120, 4, 0x1, 1, 1, 0, 0x11, 1, .u32, .rwc, .stored, 1048576, .ints [(1, 2147483648)]⟩

/-- COUNT U32 (Table 09-6, R256): Counter at the LOCAL_RING whistle. -/
def Ob.Fb.COUNT : Obj :=
  ⟨0x8110, 8, 0x1, 1, 1, 0, 0x12, 1, .u32, .ro, .derived, 0, .ints [(0, 4294967295)]⟩

/-- COUNT U32 (Table 09-6, R256): Counter at the LOCAL_RING whistle. -/
def Ob.FbMe.COUNT : Obj :=
  ⟨0x8120, 4, 0x1, 1, 1, 0, 0x12, 1, .u32, .ro, .derived, 0, .ints [(0, 4294967295)]⟩

/-- ABS_WORD U64 (Table 09-6, R256): Last valid decoded word. -/
def Ob.Fb.ABS_WORD : Obj :=
  ⟨0x8110, 8, 0x1, 1, 1, 0, 0x13, 1, .u64, .ro, .derived, 0, .ints [(0, 18446744073709551615)]⟩

/-- ABS_WORD U64 (Table 09-6, R256): Last valid decoded word. -/
def Ob.FbMe.ABS_WORD : Obj :=
  ⟨0x8120, 4, 0x1, 1, 1, 0, 0x13, 1, .u64, .ro, .derived, 0, .ints [(0, 18446744073709551615)]⟩

/-- SPEED Q32.32 (Table 09-6, R256): v, counts/s. -/
def Ob.Fb.SPEED : Obj :=
  ⟨0x8110, 8, 0x1, 1, 1, 0, 0x14, 1, .q32, .ro, .derived, 0, .ints [(-9223372036854775808, 9223372036854775807)]⟩

/-- SPEED Q32.32 (Table 09-6, R256): v, counts/s. -/
def Ob.FbMe.SPEED : Obj :=
  ⟨0x8120, 4, 0x1, 1, 1, 0, 0x14, 1, .q32, .ro, .derived, 0, .ints [(-9223372036854775808, 9223372036854775807)]⟩

/-- UNIT_STATUS U16 (Table 09-6, R256): Status. -/
def Ob.Fb.UNIT_STATUS : Obj :=
  ⟨0x8110, 8, 0x1, 1, 1, 0, 0x15, 1, .u16, .ro, .derived, 0, .ints [(0, 65535)]⟩

/-- UNIT_STATUS U16 (Table 09-6, R256): Status. -/
def Ob.FbMe.UNIT_STATUS : Obj :=
  ⟨0x8120, 4, 0x1, 1, 1, 0, 0x15, 1, .u16, .ro, .derived, 0, .ints [(0, 65535)]⟩

/-- ILLEGAL_COUNT U32 (Table 09-6, R256): R234. -/
def Ob.Fb.ILLEGAL_COUNT : Obj :=
  ⟨0x8110, 8, 0x1, 1, 1, 0, 0x16, 1, .u32, .ro, .derived, 0, .ints [(0, 4294967295)]⟩

/-- ILLEGAL_COUNT U32 (Table 09-6, R256): R234. -/
def Ob.FbMe.ILLEGAL_COUNT : Obj :=
  ⟨0x8120, 4, 0x1, 1, 1, 0, 0x16, 1, .u32, .ro, .derived, 0, .ints [(0, 4294967295)]⟩

/-- ABS_ERR_COUNT U32 (Table 09-6, R256): R238. -/
def Ob.Fb.ABS_ERR_COUNT : Obj :=
  ⟨0x8110, 8, 0x1, 1, 1, 0, 0x17, 1, .u32, .ro, .derived, 0, .ints [(0, 4294967295)]⟩

/-- ABS_ERR_COUNT U32 (Table 09-6, R256): R238. -/
def Ob.FbMe.ABS_ERR_COUNT : Obj :=
  ⟨0x8120, 4, 0x1, 1, 1, 0, 0x17, 1, .u32, .ro, .derived, 0, .ints [(0, 4294967295)]⟩

/-- ABS_ERR_CODE U8 (Table 09-6, R256): 0 none, 1 NOT_READY, 2 NO_START, 3 CHECK, 4 STATUS, 5 JUMP. -/
def Ob.Fb.ABS_ERR_CODE : Obj :=
  ⟨0x8110, 8, 0x1, 1, 1, 0, 0x18, 1, .u8, .ro, .derived, 0, .ints [(0, 255)]⟩

/-- ABS_ERR_CODE U8 (Table 09-6, R256): 0 none, 1 NOT_READY, 2 NO_START, 3 CHECK, 4 STATUS, 5 JUMP. -/
def Ob.FbMe.ABS_ERR_CODE : Obj :=
  ⟨0x8120, 4, 0x1, 1, 1, 0, 0x18, 1, .u8, .ro, .derived, 0, .ints [(0, 255)]⟩

/-- CLEAR_FAULT U8 (Table 09-6, R256): Clears UNCERTAIN and INDEX_SEEN; clears FAULT under R243. -/
def Ob.Fb.CLEAR_FAULT : Obj :=
  ⟨0x8110, 8, 0x1, 1, 1, 0, 0x19, 1, .u8, .cmd, .factory, 0, .ints [(1, 1)]⟩

/-- CLEAR_FAULT U8 (Table 09-6, R256): Clears UNCERTAIN and INDEX_SEEN; clears FAULT under R243. -/
def Ob.FbMe.CLEAR_FAULT : Obj :=
  ⟨0x8120, 4, 0x1, 1, 1, 0, 0x19, 1, .u8, .cmd, .factory, 0, .ints [(1, 1)]⟩

/-- TRIGGER U8 (Table 09-8, R256): 0 off, 1–24 FI0–FI23, 25–28 TP_IN0–TP_IN3, 29–36 ENC0–ENC7 index, 37–40 ME0–ME3 index. -/
def Ob.Lat.TRIGGER : Obj :=
  ⟨0x8200, 8, 0x1, 1, 1, 0, 0x01, 1, .u8, .rwc, .stored, 0, .ints [(0, 40)]⟩

/-- EDGE U8 (Table 09-8, R256): 0 rising, 1 falling, 2 both. -/
def Ob.Lat.EDGE : Obj :=
  ⟨0x8200, 8, 0x1, 1, 1, 0, 0x02, 1, .u8, .rwc, .stored, 0, .ints [(0, 2)]⟩

/-- POS_SOURCE U8 (Table 09-8, R256): 0–7 ENC0–ENC7, 8–11 ME0–ME3. -/
def Ob.Lat.POS_SOURCE : Obj :=
  ⟨0x8200, 8, 0x1, 1, 1, 0, 0x03, 1, .u8, .rwc, .stored, 0, .ints [(0, 11)]⟩

/-- MODE U8 (Table 09-8, R256): 0 ONCE, 1 CONTINUOUS. -/
def Ob.Lat.MODE : Obj :=
  ⟨0x8200, 8, 0x1, 1, 1, 0, 0x04, 1, .u8, .rwc, .stored, 0, .ints [(0, 1)]⟩

/-- ARM U8 (Table 09-8, R256): Arms the unit. -/
def Ob.Lat.ARM : Obj :=
  ⟨0x8200, 8, 0x1, 1, 1, 0, 0x05, 1, .u8, .cmd, .factory, 0, .ints [(1, 1)]⟩

/-- WINDOW_ENABLE BOOL (Table 09-8, R256): R247. -/
def Ob.Lat.WINDOW_ENABLE : Obj :=
  ⟨0x8200, 8, 0x1, 1, 1, 0, 0x06, 1, .bool, .rwc, .stored, 0, .ints [(0, 1)]⟩

/-- WINDOW_LO I64 (Table 09-8, R256): Counts. -/
def Ob.Lat.WINDOW_LO : Obj :=
  ⟨0x8200, 8, 0x1, 1, 1, 0, 0x07, 1, .i64, .rwc, .stored, 0, .ints [(-9223372036854775808, 9223372036854775807)]⟩

/-- WINDOW_HI I64 (Table 09-8, R256): Counts. -/
def Ob.Lat.WINDOW_HI : Obj :=
  ⟨0x8200, 8, 0x1, 1, 1, 0, 0x08, 1, .i64, .rwc, .stored, 0, .ints [(-9223372036854775808, 9223372036854775807)]⟩

/-- WINDOW_PERIOD U32 (Table 09-8, R256): Counts; 0 linear. -/
def Ob.Lat.WINDOW_PERIOD : Obj :=
  ⟨0x8200, 8, 0x1, 1, 1, 0, 0x09, 1, .u32, .rwc, .stored, 0, .ints [(0, 4294967295)]⟩

/-- EVENTS DOMAIN (Table 09-8, R256): Oldest first, 24 bytes each: TIME64 t_e, I64 count, U16 fraction (2⁻¹⁶), edge U8 (0 rising, 1 falling), sequence U8, 4 bytes 0. -/
def Ob.Lat.EVENTS : Obj :=
  ⟨0x8200, 8, 0x1, 1, 1, 0, 0x0A, 1, .domain, .ro, .derived, 0, .len 0 384 1⟩

/-- ACK U8 (Table 09-8, R256): Removes that many oldest entries. -/
def Ob.Lat.ACK : Obj :=
  ⟨0x8200, 8, 0x1, 1, 1, 0, 0x0B, 1, .u8, .cmd, .factory, 0, .ints [(1, 16)]⟩

/-- STATE U8 (Table 09-8, R256): 0 IDLE, 1 ARMED, 2 CAPTURED. -/
def Ob.Lat.STATE : Obj :=
  ⟨0x8200, 8, 0x1, 1, 1, 0, 0x0C, 1, .u8, .ro, .derived, 0, .ints [(0, 255)]⟩

/-- MISSED U32 (Table 09-8, R256): R247. -/
def Ob.Lat.MISSED : Obj :=
  ⟨0x8200, 8, 0x1, 1, 1, 0, 0x0D, 1, .u32, .ro, .derived, 0, .ints [(0, 4294967295)]⟩

/-- LOST U32 (Table 09-8, R256): FIFO full. -/
def Ob.Lat.LOST : Obj :=
  ⟨0x8200, 8, 0x1, 1, 1, 0, 0x0E, 1, .u32, .ro, .derived, 0, .ints [(0, 4294967295)]⟩

/-- POS_SOURCE U8 (Table 09-9, R256): As Table 09-8. -/
def Ob.Cmp.POS_SOURCE : Obj :=
  ⟨0x8210, 8, 0x1, 1, 1, 0, 0x01, 1, .u8, .rwc, .stored, 0, .ints [(0, 11)]⟩

/-- TARGET U8 (Table 09-9, R256): 0 none, 1–16 FQ0–FQ15, 17–20 TP_OUT0–TP_OUT3. -/
def Ob.Cmp.TARGET : Obj :=
  ⟨0x8210, 8, 0x1, 1, 1, 0, 0x02, 1, .u8, .rwc, .stored, 0, .ints [(0, 20)]⟩

/-- DIRECTION U8 (Table 09-9, R256): 0 POS, 1 NEG. -/
def Ob.Cmp.DIRECTION : Obj :=
  ⟨0x8210, 8, 0x1, 1, 1, 0, 0x03, 1, .u8, .rwc, .stored, 0, .ints [(0, 1)]⟩

/-- START_COUNT I64 (Table 09-9, R256): CV at ARM, counts. -/
def Ob.Cmp.START_COUNT : Obj :=
  ⟨0x8210, 8, 0x1, 1, 1, 0, 0x04, 1, .i64, .rwc, .stored, 0, .ints [(-9223372036854775808, 9223372036854775807)]⟩

/-- START_FRAC U32 (Table 09-9, R256): 2⁻³² count. -/
def Ob.Cmp.START_FRAC : Obj :=
  ⟨0x8210, 8, 0x1, 1, 1, 0, 0x05, 1, .u32, .rwc, .stored, 0, .ints [(0, 4294967295)]⟩

/-- PITCH Q32.32 (Table 09-9, R256): R254. -/
def Ob.Cmp.PITCH : Obj :=
  ⟨0x8210, 8, 0x1, 1, 1, 0, 0x06, 1, .q32, .rwc, .stored, 0, .ints [(0, 0), (268435456, 9223372032559808512)]⟩

/-- WIDTH U32 (Table 09-9, R256): Pulse width. -/
def Ob.Cmp.WIDTH : Obj :=
  ⟨0x8210, 8, 0x1, 1, 1, 0, 0x07, 1, .u32, .rwc, .stored, 1000, .ints [(10, 1000000000)]⟩

/-- POLARITY BOOL (Table 09-9, R256): 1 inverts. -/
def Ob.Cmp.POLARITY : Obj :=
  ⟨0x8210, 8, 0x1, 1, 1, 0, 0x08, 1, .bool, .rwc, .stored, 0, .ints [(0, 1)]⟩

/-- ANCHOR_LATCH U8 (Table 09-9, R256): 0 none, 1–8 PL0–PL7. -/
def Ob.Cmp.ANCHOR_LATCH : Obj :=
  ⟨0x8210, 8, 0x1, 1, 1, 0, 0x09, 1, .u8, .rwc, .stored, 0, .ints [(0, 8)]⟩

/-- ANCHOR_OFFSET Q32.32 (Table 09-9, R256): Counts, signed. -/
def Ob.Cmp.ANCHOR_OFFSET : Obj :=
  ⟨0x8210, 8, 0x1, 1, 1, 0, 0x0A, 1, .q32, .rwc, .stored, 0, .ints [(-9223372036854775808, 9223372036854775807)]⟩

/-- ARM U8 (Table 09-9, R256): R249. -/
def Ob.Cmp.ARM : Obj :=
  ⟨0x8210, 8, 0x1, 1, 1, 0, 0x0B, 1, .u8, .cmd, .factory, 0, .ints [(1, 1)]⟩

/-- DISARM U8 (Table 09-9, R256): R249. -/
def Ob.Cmp.DISARM : Obj :=
  ⟨0x8210, 8, 0x1, 1, 1, 0, 0x0C, 1, .u8, .cmd, .factory, 0, .ints [(1, 1)]⟩

/-- CORRECTION Q32.32 (Table 09-9, R256): R252. -/
def Ob.Cmp.CORRECTION : Obj :=
  ⟨0x8210, 8, 0x1, 1, 1, 0, 0x0D, 1, .q32, .rwi, .factory, 0, .ints [(-9223372036854775808, 9223372036854775807)]⟩

/-- NEXT_COUNT I64 (Table 09-9, R256): CV, integer part. -/
def Ob.Cmp.NEXT_COUNT : Obj :=
  ⟨0x8210, 8, 0x1, 1, 1, 0, 0x0E, 1, .i64, .ro, .derived, 0, .ints [(-9223372036854775808, 9223372036854775807)]⟩

/-- NEXT_FRAC U32 (Table 09-9, R256): CV, fraction. -/
def Ob.Cmp.NEXT_FRAC : Obj :=
  ⟨0x8210, 8, 0x1, 1, 1, 0, 0x0F, 1, .u32, .ro, .derived, 0, .ints [(0, 4294967295)]⟩

/-- STATE U8 (Table 09-9, R256): 0 IDLE, 1 ARMED, 2 DONE. -/
def Ob.Cmp.STATE : Obj :=
  ⟨0x8210, 8, 0x1, 1, 1, 0, 0x10, 1, .u8, .ro, .derived, 0, .ints [(0, 255)]⟩

/-- HITS U32 (Table 09-9, R256): R252. -/
def Ob.Cmp.HITS : Obj :=
  ⟨0x8210, 8, 0x1, 1, 1, 0, 0x11, 1, .u32, .ro, .derived, 0, .ints [(0, 4294967295)]⟩

/-- LAST_HIT_TIME TIME64 (Table 09-9, R256): t_h of the last hit. -/
def Ob.Cmp.LAST_HIT_TIME : Obj :=
  ⟨0x8210, 8, 0x1, 1, 1, 0, 0x12, 1, .time64, .ro, .derived, 0, .ints [(0, 18446744073709551615)]⟩

/-- SKIPPED U32 (Table 09-9, R256): R249, R252, R253, R255. -/
def Ob.Cmp.SKIPPED : Obj :=
  ⟨0x8210, 8, 0x1, 1, 1, 0, 0x13, 1, .u32, .ro, .derived, 0, .ints [(0, 4294967295)]⟩

/-- MERGED U32 (Table 09-9, R256): R254. -/
def Ob.Cmp.MERGED : Obj :=
  ⟨0x8210, 8, 0x1, 1, 1, 0, 0x14, 1, .u32, .ro, .derived, 0, .ints [(0, 4294967295)]⟩

/-- LATE U32 (Table 09-9, R256): R251. -/
def Ob.Cmp.LATE : Obj :=
  ⟨0x8210, 8, 0x1, 1, 1, 0, 0x15, 1, .u32, .ro, .derived, 0, .ints [(0, 4294967295)]⟩

/-- UNREACHED U32 (Table 09-9, R256): R251. -/
def Ob.Cmp.UNREACHED : Obj :=
  ⟨0x8210, 8, 0x1, 1, 1, 0, 0x16, 1, .u32, .ro, .derived, 0, .ints [(0, 4294967295)]⟩

/-- LATCH_UNIT U8 (Table 09-10, R256): Bound latch unit (R248). -/
def Ob.Bind.LATCH_UNIT : Obj :=
  ⟨0x4038, 256, 0x40, 1, 1, 0, 0x01, 1, .u8, .rwc, .stored, 255, .ints [(0, 7), (255, 255)]⟩

/-- COMPARE_UNIT U8 (Table 09-10, R256): Bound compare unit; its POS_SOURCE must be the axis's feedback unit. -/
def Ob.Bind.COMPARE_UNIT : Obj :=
  ⟨0x4038, 256, 0x40, 1, 1, 0, 0x02, 1, .u8, .rwc, .stored, 255, .ints [(0, 7), (255, 255)]⟩

/-- LATCH_POSITION Q32.32 (Table 09-10, R256): Newest event, machine units. -/
def Ob.Bind.LATCH_POSITION : Obj :=
  ⟨0x4038, 256, 0x40, 1, 1, 0, 0x03, 1, .q32, .ro, .derived, 0, .ints [(-9223372036854775808, 9223372036854775807)]⟩

/-- LATCH_TIME TIME64 (Table 09-10, R256): t_e of that event. -/
def Ob.Bind.LATCH_TIME : Obj :=
  ⟨0x4038, 256, 0x40, 1, 1, 0, 0x04, 1, .time64, .ro, .derived, 0, .ints [(0, 18446744073709551615)]⟩

/-- INT_MODE_0–7 U8 (Table 10-11, R280): 0 held, 1 open, for ACE0–ACE7 (R272). -/
def Ob.AceC.INT_MODE : Obj :=
  ⟨0xB300, 1, 0x1, 1, 1, 0, 0x01, 8, .u8, .rwc, .stored, 0, .ints [(0, 1)]⟩

/-- EXC_COUNT_0–7 U32 (Table 10-11, R280): Exceptions per engine (R276). -/
def Ob.AceC.EXC_COUNT : Obj :=
  ⟨0xB301, 1, 0x1, 1, 1, 0, 0x01, 8, .u32, .ro, .derived, 0, .ints [(0, 4294967295)]⟩

/-- LAST_EXC_0–7 U32 (Table 10-11, R280): [31:24] code: 1 ILLEGAL, 2 ADDRESS, 3 PRIV, 4 STORE_FULL, 5 TIME_ABORT; [23:16] axis; [15:13] 0; [12:0] bundle index. -/
def Ob.AceC.LAST_EXC : Obj :=
  ⟨0xB302, 1, 0x1, 1, 1, 0, 0x01, 8, .u32, .ro, .derived, 0, .ints [(0, 4294967295)]⟩

/-- USER_CODE_USED U32 (Table 10-11, R280): Code of blocks in force. -/
def Ob.AceC.USER_CODE_USED : Obj :=
  ⟨0xB303, 1, 0x1, 1, 1, 0, 0x01, 1, .u32, .ro, .derived, 0, .ints [(0, 4294967295)]⟩

/-- USER_DATA_USED U32 (Table 10-11, R280): Constant data of blocks in force. -/
def Ob.AceC.USER_DATA_USED : Obj :=
  ⟨0xB303, 1, 0x1, 1, 1, 0, 0x02, 1, .u32, .ro, .derived, 0, .ints [(0, 4294967295)]⟩

/-- CODE DOMAIN (Table 10-12, R280): Bundles, little-endian. -/
def Ob.Ub.CODE : Obj :=
  ⟨0xB310, 32, 0x1, 1, 1, 0, 0x01, 1, .domain, .rwc, .stored, 0, .len 0 65536 16⟩

/-- DATA DOMAIN (Table 10-12, R280): Constant data, read through p5. -/
def Ob.Ub.DATA : Obj :=
  ⟨0xB310, 32, 0x1, 1, 1, 0, 0x02, 1, .domain, .rwc, .stored, 0, .len 0 114688 1⟩

/-- ENTRY U16 (Table 10-12, R280): Entry bundle, counted from the start of CODE. -/
def Ob.Ub.ENTRY : Obj :=
  ⟨0xB310, 32, 0x1, 1, 1, 0, 0x03, 1, .u16, .rwc, .stored, 0, .ints [(0, 4095)]⟩

/-- POINT U8 (Table 10-12, R280): 0 none; Table 10-10. -/
def Ob.Ub.POINT : Obj :=
  ⟨0xB310, 32, 0x1, 1, 1, 0, 0x04, 1, .u8, .rwc, .stored, 0, .ints [(0, 4)]⟩

/-- DECLARED_TIME U16 (Table 10-12, R280): R277, R278. -/
def Ob.Ub.DECLARED_TIME : Obj :=
  ⟨0xB310, 32, 0x1, 1, 1, 0, 0x05, 1, .u16, .rwc, .stored, 1, .ints [(1, 10000)]⟩

/-- STATE_SIZE U16 (Table 10-12, R280): Per-axis state. -/
def Ob.Ub.STATE_SIZE : Obj :=
  ⟨0xB310, 32, 0x1, 1, 1, 0, 0x06, 1, .u16, .rwc, .stored, 0, .mult 0 512 8⟩

/-- AXES DOMAIN (Table 10-12, R280): Axis numbers, U8 each, no repeats. -/
def Ob.Ub.AXES : Obj :=
  ⟨0xB310, 32, 0x1, 1, 1, 0, 0x07, 1, .domain, .rwc, .stored, 0, .len 0 256 1⟩

/-- RESET_ON_ARM BOOL (Table 10-12, R280): R278. -/
def Ob.Ub.RESET_ON_ARM : Obj :=
  ⟨0xB310, 32, 0x1, 1, 1, 0, 0x08, 1, .bool, .rwc, .stored, 0, .ints [(0, 1)]⟩

/-- NAME STR (Table 10-12, R280): Integrator's name. -/
def Ob.Ub.NAME : Obj :=
  ⟨0xB310, 32, 0x1, 1, 1, 0, 0x09, 1, .str, .rwc, .stored, 0, .len 0 32 1⟩

/-- CODE_ADDR U16 (Table 10-12, R280): Bundle index of CODE in force. -/
def Ob.Ub.CODE_ADDR : Obj :=
  ⟨0xB310, 32, 0x1, 1, 1, 0, 0x0A, 1, .u16, .ro, .derived, 0, .ints [(0, 65535)]⟩

/-- DATA_ADDR U32 (Table 10-12, R280): Address of DATA in force. -/
def Ob.Ub.DATA_ADDR : Obj :=
  ⟨0xB310, 32, 0x1, 1, 1, 0, 0x0B, 1, .u32, .ro, .derived, 0, .ints [(0, 4294967295)]⟩

/-- EXEC_MAX U32 (Table 10-12, R280): Longest call, entry to the second delay slot of RET. -/
def Ob.Ub.EXEC_MAX : Obj :=
  ⟨0xB310, 32, 0x1, 1, 1, 0, 0x0C, 1, .u32, .ro, .derived, 0, .ints [(0, 4294967295)]⟩

/-- EXCEPTIONS U32 (Table 10-12, R280): R276. -/
def Ob.Ub.EXCEPTIONS : Obj :=
  ⟨0xB310, 32, 0x1, 1, 1, 0, 0x0D, 1, .u32, .ro, .derived, 0, .ints [(0, 4294967295)]⟩

/-- TIME_ABORTS U32 (Table 10-12, R280): R277. -/
def Ob.Ub.TIME_ABORTS : Obj :=
  ⟨0xB310, 32, 0x1, 1, 1, 0, 0x0E, 1, .u32, .ro, .derived, 0, .ints [(0, 4294967295)]⟩

/-- DISPATCHED U32 (Table 11-5, R295): Items started. -/
def Ob.Disp.DISPATCHED : Obj :=
  ⟨0xB200, 1, 0x1, 1, 1, 0, 0x01, 1, .u32, .ro, .derived, 0, .ints [(0, 4294967295)]⟩

/-- COMPLETED U32 (Table 11-5, R295): Items completed. -/
def Ob.Disp.COMPLETED : Obj :=
  ⟨0xB200, 1, 0x1, 1, 1, 0, 0x02, 1, .u32, .ro, .derived, 0, .ints [(0, 4294967295)]⟩

/-- VOIDED U32 (Table 11-5, R295): Items voided (R292). -/
def Ob.Disp.VOIDED : Obj :=
  ⟨0xB200, 1, 0x1, 1, 1, 0, 0x03, 1, .u32, .ro, .derived, 0, .ints [(0, 4294967295)]⟩

/-- CANCELLED U32 (Table 11-5, R295): Items cancelled (Tables 11-3 and 11-4), counting every item of a whistle that never started, whether or not its trigger was posted: held triggers dropped, triggers that …. -/
def Ob.Disp.CANCELLED : Obj :=
  ⟨0xB200, 1, 0x1, 1, 1, 0, 0x04, 1, .u32, .ro, .derived, 0, .ints [(0, 4294967295)]⟩

/-- BP_EVENTS U32 (Table 11-5, R295): Triggers held by back-pressure (R290). -/
def Ob.Disp.BP_EVENTS : Obj :=
  ⟨0xB200, 1, 0x1, 1, 1, 0, 0x05, 1, .u32, .ro, .derived, 0, .ints [(0, 4294967295)]⟩

/-- BP_UNDONE U32 (Table 11-5, R295): Axis-cycles undone with a trigger still held (R291). -/
def Ob.Disp.BP_UNDONE : Obj :=
  ⟨0xB200, 1, 0x1, 1, 1, 0, 0x06, 1, .u32, .ro, .derived, 0, .ints [(0, 4294967295)]⟩

/-- POOL_DEPTH_MAX U16 (Table 11-5, R295): Largest ready count of any pool list. -/
def Ob.Disp.POOL_DEPTH_MAX : Obj :=
  ⟨0xB200, 1, 0x1, 1, 1, 0, 0x07, 1, .u16, .ro, .derived, 0, .ints [(0, 65535)]⟩

/-- CLEAR U8 (Table 11-5, R295): Clears 0xB200.01 to .07 and the maxima of Table 11-6. -/
def Ob.Disp.CLEAR : Obj :=
  ⟨0xB200, 1, 0x1, 1, 1, 0, 0x08, 1, .u8, .cmd, .factory, 0, .ints [(1, 1)]⟩

/-- STATE U8 (Table 11-6, R295): At the snapshot: 0 power-gated, 1 idle, 2 axis item, 3 service or background item. -/
def Ob.Eng.STATE : Obj :=
  ⟨0xB210, 8, 0x1, 1, 1, 0, 0x01, 1, .u8, .ro, .derived, 0, .ints [(0, 255)]⟩

/-- ITEMS_LAST U16 (Table 11-6, R295): Items completed in the cycle. -/
def Ob.Eng.ITEMS_LAST : Obj :=
  ⟨0xB210, 8, 0x1, 1, 1, 0, 0x02, 1, .u16, .ro, .derived, 0, .ints [(0, 65535)]⟩

/-- BUSY_LAST U32 (Table 11-6, R295): Time running DIRECT and AXIS items in the cycle. -/
def Ob.Eng.BUSY_LAST : Obj :=
  ⟨0xB210, 8, 0x1, 1, 1, 0, 0x03, 1, .u32, .ro, .derived, 0, .ints [(0, 4294967295)]⟩

/-- LOAD_LAST U16 (Table 11-6, R295): BUSY_LAST / T_cyc, in 0.01 %. -/
def Ob.Eng.LOAD_LAST : Obj :=
  ⟨0xB210, 8, 0x1, 1, 1, 0, 0x04, 1, .u16, .ro, .derived, 0, .ints [(0, 65535)]⟩

/-- LOAD_MAX U16 (Table 11-6, R295): Largest LOAD_LAST. -/
def Ob.Eng.LOAD_MAX : Obj :=
  ⟨0xB210, 8, 0x1, 1, 1, 0, 0x05, 1, .u16, .ro, .derived, 0, .ints [(0, 65535)]⟩

/-- QUEUE_DEPTH_MAX U16 (Table 11-6, R295): Largest ready count of the fixed list. -/
def Ob.Eng.QUEUE_DEPTH_MAX : Obj :=
  ⟨0xB210, 8, 0x1, 1, 1, 0, 0x06, 1, .u16, .ro, .derived, 0, .ints [(0, 65535)]⟩

/-- WAIT_MAX U32 (Table 11-6, R295): Largest ready-to-start wait of an axis item. -/
def Ob.Eng.WAIT_MAX : Obj :=
  ⟨0xB210, 8, 0x1, 1, 1, 0, 0x07, 1, .u32, .ro, .derived, 0, .ints [(0, 4294967295)]⟩

/-- WAIT_MEAN_LAST U32 (Table 11-6, R295): Mean wait of its axis items in the cycle. -/
def Ob.Eng.WAIT_MEAN_LAST : Obj :=
  ⟨0xB210, 8, 0x1, 1, 1, 0, 0x08, 1, .u32, .ro, .derived, 0, .ints [(0, 4294967295)]⟩

/-- FREE_WINDOW_LAST U32 (Table 11-6, R295): Length of the free window (R286); 0 for a cycle in which none opened before t_D. -/
def Ob.Eng.FREE_WINDOW_LAST : Obj :=
  ⟨0xB210, 8, 0x1, 1, 1, 0, 0x09, 1, .u32, .ro, .derived, 0, .ints [(0, 4294967295)]⟩

/-- SERVICE_BUSY_LAST U32 (Table 11-6, R295): Time running SERVICE and BACKGROUND items. -/
def Ob.Eng.SERVICE_BUSY_LAST : Obj :=
  ⟨0xB210, 8, 0x1, 1, 1, 0, 0x0A, 1, .u32, .ro, .derived, 0, .ints [(0, 4294967295)]⟩

/-- LAST_ENGINE U8 (Table 11-7, R295): Engine that ran the item of the scoreboard's cycle; 0xFF none. -/
def Ob.AxD.LAST_ENGINE : Obj :=
  ⟨0x403C, 256, 0x40, 1, 1, 0, 0x0B, 1, .u8, .ro, .derived, 255, .ints [(0, 255)]⟩

/-- LAST_WAIT U32 (Table 11-7, R295): Ready-to-start wait of that item. -/
def Ob.AxD.LAST_WAIT : Obj :=
  ⟨0x403C, 256, 0x40, 1, 1, 0, 0x0C, 1, .u32, .ro, .derived, 0, .ints [(0, 4294967295)]⟩

/-- LAST_START U32 (Table 11-7, R295): Its start, counted from t_W. -/
def Ob.AxD.LAST_START : Obj :=
  ⟨0x403C, 256, 0x40, 1, 1, 0, 0x0D, 1, .u32, .ro, .derived, 0, .ints [(0, 4294967295)]⟩

/-- FUNCTION U8 (Table 12-4, R318): Table 12-1. -/
def Ob.Port.FUNCTION : Obj :=
  ⟨0x8000, 8, 0x10, 1, 1, 0, 0x01, 1, .u8, .rwc, .stored, 0, .ints [(0, 3)]⟩

/-- STATUS U16 (Table 12-4, R318): Port status at the snapshot. -/
def Ob.Port.STATUS : Obj :=
  ⟨0x8000, 8, 0x10, 1, 1, 0, 0x02, 1, .u16, .ro, .derived, 0, .ints [(0, 65535)]⟩

/-- TRIP_FILTER U8 (Table 12-4, R318): R306. -/
def Ob.Port.TRIP_FILTER : Obj :=
  ⟨0x8000, 8, 0x10, 1, 1, 0, 0x03, 1, .u8, .rwc, .stored, 8, .ints [(1, 255)]⟩

/-- TRIP_STATE U8 (Table 12-4, R318): R306. -/
def Ob.Port.TRIP_STATE : Obj :=
  ⟨0x8000, 8, 0x10, 1, 1, 0, 0x04, 1, .u8, .rwc, .stored, 0, .ints [(0, 1)]⟩

/-- TRIP_CLEAR U8 (Table 12-4, R318): R307. -/
def Ob.Port.TRIP_CLEAR : Obj :=
  ⟨0x8000, 8, 0x10, 1, 1, 0, 0x05, 1, .u8, .cmd, .factory, 0, .ints [(1, 1)]⟩

/-- TRIP_FORCE U8 (Table 12-4, R318): Trips the port. -/
def Ob.Port.TRIP_FORCE : Obj :=
  ⟨0x8000, 8, 0x10, 1, 1, 0, 0x06, 1, .u8, .cmd, .factory, 0, .ints [(1, 1)]⟩

/-- TRIP_CAUSE U8 (Table 12-4, R318): 0 none, 1 INPUT, 2 FORCE, 3 OVERCURRENT, 4 SD_INVALID; first cause since the last clear. -/
def Ob.Port.TRIP_CAUSE : Obj :=
  ⟨0x8000, 8, 0x10, 1, 1, 0, 0x07, 1, .u8, .ro, .derived, 0, .ints [(0, 255)]⟩

/-- TRIP_COUNT U32 (Table 12-4, R318): Trips since reset. -/
def Ob.Port.TRIP_COUNT : Obj :=
  ⟨0x8000, 8, 0x10, 1, 1, 0, 0x08, 1, .u32, .ro, .derived, 0, .ints [(0, 4294967295)]⟩

/-- LOAD_MISS U32 (Table 12-4, R318): R304. -/
def Ob.Port.LOAD_MISS : Obj :=
  ⟨0x8000, 8, 0x10, 1, 1, 0, 0x09, 1, .u32, .ro, .derived, 0, .ints [(0, 4294967295)]⟩

/-- COUNT_MODE U8 (Table 12-6, R318): 0 UP, 1 DOWN, 2 UPDOWN. -/
def Ob.Pwm.COUNT_MODE : Obj :=
  ⟨0x8001, 8, 0x10, 1, 1, 0, 0x01, 1, .u8, .rwc, .stored, 2, .ints [(0, 2)]⟩

/-- SYNC_SOURCE U8 (Table 12-6, R318): 0 FREE, 1 WHISTLE, 2 CHAIN (R302). -/
def Ob.Pwm.SYNC_SOURCE : Obj :=
  ⟨0x8001, 8, 0x10, 1, 1, 0, 0x02, 1, .u8, .rwc, .stored, 1, .ints [(0, 2)]⟩

/-- SYNC_PHASE U32 (Table 12-6, R318): R302. -/
def Ob.Pwm.SYNC_PHASE : Obj :=
  ⟨0x8001, 8, 0x10, 1, 1, 0, 0x03, 1, .u32, .rwc, .stored, 0, .ints [(0, 1048574)]⟩

/-- DT_HL U16 (Table 12-6, R318): R301. -/
def Ob.Pwm.DT_HL : Obj :=
  ⟨0x8001, 8, 0x10, 1, 1, 0, 0x04, 1, .u16, .rwc, .stored, 80, .ints [(0, 1023)]⟩

/-- DT_LH U16 (Table 12-6, R318): R301. -/
def Ob.Pwm.DT_LH : Obj :=
  ⟨0x8001, 8, 0x10, 1, 1, 0, 0x05, 1, .u16, .rwc, .stored, 80, .ints [(0, 1023)]⟩

/-- MIN_PULSE U16 (Table 12-6, R318): R301. -/
def Ob.Pwm.MIN_PULSE : Obj :=
  ⟨0x8001, 8, 0x10, 1, 1, 0, 0x06, 1, .u16, .rwc, .stored, 0, .ints [(0, 1023)]⟩

/-- OUT_POLARITY U8 (Table 12-6, R318): Bits [5:0] UH, UL, VH, VL, WH, WL; 1 inverts. -/
def Ob.Pwm.OUT_POLARITY : Obj :=
  ⟨0x8001, 8, 0x10, 1, 1, 0, 0x07, 1, .u8, .rwc, .stored, 0, .ints [(0, 63)]⟩

/-- DITHER BOOL (Table 12-6, R318): R300. -/
def Ob.Pwm.DITHER : Obj :=
  ⟨0x8001, 8, 0x10, 1, 1, 0, 0x08, 1, .bool, .rwc, .stored, 1, .ints [(0, 1)]⟩

/-- SERVO_PERIOD U32 (Table 12-6, R318): PERIOD in SERVO. -/
def Ob.Pwm.SERVO_PERIOD : Obj :=
  ⟨0x8001, 8, 0x10, 1, 1, 0, 0x09, 1, .u32, .rwc, .stored, 12500, .ints [(16, 1048575)]⟩

/-- PERIOD_SHADOW U32 (Table 12-6, R318): PWM_DIRECT only; STATE otherwise. -/
def Ob.Pwm.PERIOD_SHADOW : Obj :=
  ⟨0x8002, 8, 0x10, 1, 1, 0, 0x01, 1, .u32, .rwi, .factory, 12500, .ints [(16, 1048575)]⟩

/-- CMP_U_SHADOW–CMP_W_SHADOW U32 (Table 12-6, R318): 1/16 count; PWM_DIRECT only. -/
def Ob.Pwm.CMP_SHADOW : Obj :=
  ⟨0x8002, 8, 0x10, 1, 1, 0, 0x02, 3, .u32, .rwi, .factory, 0, .ints [(0, 16777215)]⟩

/-- LOAD_ALL U8 (Table 12-6, R318): R298; reads 1 while armed. -/
def Ob.Pwm.LOAD_ALL : Obj :=
  ⟨0x8002, 8, 0x10, 1, 1, 0, 0x05, 1, .u8, .cmd, .factory, 0, .ints [(1, 1)]⟩

/-- PERIOD_ACTIVE U32 (Table 12-6, R318): Active PERIOD. -/
def Ob.Pwm.PERIOD_ACTIVE : Obj :=
  ⟨0x8002, 8, 0x10, 1, 1, 0, 0x06, 1, .u32, .ro, .derived, 0, .ints [(0, 4294967295)]⟩

/-- CMP_U–CMP_W U32 (Table 12-6, R318): Active CMP values. -/
def Ob.Pwm.CMP_ACTIVE : Obj :=
  ⟨0x8002, 8, 0x10, 1, 1, 0, 0x07, 3, .u32, .ro, .derived, 0, .ints [(0, 4294967295)]⟩

/-- PERIODS U32 (Table 12-6, R318): Period starts since the function was applied. -/
def Ob.Pwm.PERIODS : Obj :=
  ⟨0x8002, 8, 0x10, 1, 1, 0, 0x0A, 1, .u32, .ro, .derived, 0, .ints [(0, 4294967295)]⟩

/-- LOAD_ALL_MASK U8 (Table 12-6, R318): R298. -/
def Ob.Pwm.LOAD_ALL_MASK : Obj :=
  ⟨0x8080, 1, 0x1, 1, 1, 0, 0x01, 1, .u8, .cmd, .factory, 0, .ints [(1, 255)]⟩

/-- SD_CLK_MODE U8 (Table 12-7, R318): 0 OUTPUT, 1 INPUT. -/
def Ob.Sd.SD_CLK_MODE : Obj :=
  ⟨0x8003, 8, 0x10, 1, 1, 0, 0x01, 1, .u8, .rwc, .stored, 0, .ints [(0, 1)]⟩

/-- SD_CLK_DIV U8 (Table 12-7, R318): 5 MHz to 25 MHz. -/
def Ob.Sd.SD_CLK_DIV : Obj :=
  ⟨0x8003, 8, 0x10, 1, 1, 0, 0x02, 1, .u8, .rwc, .stored, 20, .ints [(16, 80)]⟩

/-- SD_OSR U16 (Table 12-7, R318): R308. -/
def Ob.Sd.SD_OSR : Obj :=
  ⟨0x8003, 8, 0x10, 1, 1, 0, 0x03, 1, .u16, .rwc, .stored, 64, .ints [(16, 256)]⟩

/-- SD_AVG U8 (Table 12-7, R318): R309. -/
def Ob.Sd.SD_AVG : Obj :=
  ⟨0x8003, 8, 0x10, 1, 1, 0, 0x04, 1, .u8, .rwc, .stored, 1, .ints [(1, 16)]⟩

/-- SD_STUCK_LEN U16 (Table 12-7, R318): R310. -/
def Ob.Sd.SD_STUCK_LEN : Obj :=
  ⟨0x8003, 8, 0x10, 1, 1, 0, 0x05, 1, .u16, .rwc, .stored, 64, .ints [(0, 0), (16, 4095)]⟩

/-- SD_PHASES U8 (Table 12-7, R318): R311. -/
def Ob.Sd.SD_PHASES : Obj :=
  ⟨0x8003, 8, 0x10, 1, 1, 0, 0x06, 1, .u8, .rwc, .stored, 3, .ints [(2, 3)]⟩

/-- SD_OFFSET_0–2 F32 (Table 12-7, R318): R311. -/
def Ob.Sd.SD_OFFSET : Obj :=
  ⟨0x8003, 8, 0x10, 1, 1, 0, 0x07, 3, .f32, .rwc, .stored, 0x00000000, .f32 (-1065353216) 1065353216⟩

/-- SD_GAIN_0–2 F32 (Table 12-7, R318): R311. -/
def Ob.Sd.SD_GAIN : Obj :=
  ⟨0x8003, 8, 0x10, 1, 1, 0, 0x0A, 3, .f32, .rwc, .stored, 0x3F800000, .f32 (-0x7F7FFFFF) 0x7F7FFFFF⟩

/-- OC_OSR U8 (Table 12-7, R318): R312. -/
def Ob.Sd.OC_OSR : Obj :=
  ⟨0x8003, 8, 0x10, 1, 1, 0, 0x0D, 1, .u8, .rwc, .stored, 16, .ints [(8, 32)]⟩

/-- OC_LIMIT F32 (Table 12-7, R318): 0 off (R312). -/
def Ob.Sd.OC_LIMIT : Obj :=
  ⟨0x8003, 8, 0x10, 1, 1, 0, 0x0E, 1, .f32, .rwc, .stored, 0x00000000, .f32 (0) 1065353216⟩

/-- SD_VALUE_0–2 I32 (Table 12-7, R318): Value at the whistle (R309). -/
def Ob.Sd.SD_VALUE : Obj :=
  ⟨0x8003, 8, 0x10, 1, 1, 0, 0x0F, 3, .i32, .ro, .derived, 0, .ints [(-2147483648, 2147483647)]⟩

/-- STEP_COUNTS U32 (Table 12-8, R318): Steps in STEP_UNITS machine units. -/
def Ob.Step.STEP_COUNTS : Obj :=
  ⟨0x8004, 8, 0x10, 1, 1, 0, 0x01, 1, .u32, .rwc, .stored, 1, .ints [(1, 4294967295)]⟩

/-- STEP_UNITS U32 (Table 12-8, R318): R313. -/
def Ob.Step.STEP_UNITS : Obj :=
  ⟨0x8004, 8, 0x10, 1, 1, 0, 0x02, 1, .u32, .rwc, .stored, 1, .ints [(1, 4294967295)]⟩

/-- STEP_INVERT BOOL (Table 12-8, R318): σ_s = −1. -/
def Ob.Step.STEP_INVERT : Obj :=
  ⟨0x8004, 8, 0x10, 1, 1, 0, 0x03, 1, .bool, .rwc, .stored, 0, .ints [(0, 1)]⟩

/-- STEP_WIDTH U32 (Table 12-8, R318): R314. -/
def Ob.Step.STEP_WIDTH : Obj :=
  ⟨0x8004, 8, 0x10, 1, 1, 0, 0x04, 1, .u32, .rwc, .stored, 1000, .ints [(40, 1000000)]⟩

/-- DIR_SETUP U32 (Table 12-8, R318): R314. -/
def Ob.Step.DIR_SETUP : Obj :=
  ⟨0x8004, 8, 0x10, 1, 1, 0, 0x05, 1, .u32, .rwc, .stored, 1000, .ints [(0, 100000)]⟩

/-- STEP_POSITION I64 (Table 12-8, R318): Steps emitted. -/
def Ob.Step.STEP_POSITION : Obj :=
  ⟨0x8004, 8, 0x10, 1, 1, 0, 0x06, 1, .i64, .ro, .derived, 0, .ints [(-9223372036854775808, 9223372036854775807)]⟩

/-- STEP_TARGET Q32.32 (Table 12-8, R318): s of the entry in force, steps. -/
def Ob.Step.STEP_TARGET : Obj :=
  ⟨0x8004, 8, 0x10, 1, 1, 0, 0x07, 1, .q32, .ro, .derived, 0, .ints [(-9223372036854775808, 9223372036854775807)]⟩

/-- RATE_LIMIT_COUNT U32 (Table 12-8, R318): Cycles with a delayed step. -/
def Ob.Step.RATE_LIMIT_COUNT : Obj :=
  ⟨0x8004, 8, 0x10, 1, 1, 0, 0x08, 1, .u32, .ro, .derived, 0, .ints [(0, 4294967295)]⟩

/-- STEP_IN_ENABLE BOOL (Table 12-8, R318): R316. -/
def Ob.Step.STEP_IN_ENABLE : Obj :=
  ⟨0x8005, 8, 0x10, 1, 1, 0, 0x01, 1, .bool, .rwc, .stored, 0, .ints [(0, 1)]⟩

/-- STEP_IN_FILTER U8 (Table 12-8, R318): R316. -/
def Ob.Step.STEP_IN_FILTER : Obj :=
  ⟨0x8005, 8, 0x10, 1, 1, 0, 0x02, 1, .u8, .rwc, .stored, 2, .ints [(1, 15)]⟩

/-- STEP_IN_EDGE U8 (Table 12-8, R318): 0 rising, 1 falling. -/
def Ob.Step.STEP_IN_EDGE : Obj :=
  ⟨0x8005, 8, 0x10, 1, 1, 0, 0x03, 1, .u8, .rwc, .stored, 0, .ints [(0, 1)]⟩

/-- STEP_IN_SPAN U32 (Table 12-8, R318): R317. -/
def Ob.Step.STEP_IN_SPAN : Obj :=
  ⟨0x8005, 8, 0x10, 1, 1, 0, 0x04, 1, .u32, .rwc, .stored, 250000, .ints [(1000, 10000000)]⟩

/-- STEP_IN_STANDSTILL U32 (Table 12-8, R318): R317. -/
def Ob.Step.STEP_IN_STANDSTILL : Obj :=
  ⟨0x8005, 8, 0x10, 1, 1, 0, 0x05, 1, .u32, .rwc, .stored, 10000000, .ints [(100000, 1000000000)]⟩

/-- STEP_IN_COUNT U32 (Table 12-8, R318): Counter at the whistle. -/
def Ob.Step.STEP_IN_COUNT : Obj :=
  ⟨0x8005, 8, 0x10, 1, 1, 0, 0x06, 1, .u32, .ro, .derived, 0, .ints [(0, 4294967295)]⟩

/-- STEP_IN_POSITION Q32.32 (Table 12-8, R318): Interpolated count (R317). -/
def Ob.Step.STEP_IN_POSITION : Obj :=
  ⟨0x8005, 8, 0x10, 1, 1, 0, 0x07, 1, .q32, .ro, .derived, 0, .ints [(-9223372036854775808, 9223372036854775807)]⟩

/-- LINK_STATE U8 (Table 13-9, R337): 0 STARTING, 1 GOOD, 2 LOST. -/
def Ob.Die.LINK_STATE : Obj :=
  ⟨0x8400, 1, 0x1, 1, 1, 0, 0x01, 1, .u8, .ro, .derived, 0, .ints [(0, 255)]⟩

/-- SUPPLY_STATE U8 (Table 13-9, R337): Table 13-8. -/
def Ob.Die.SUPPLY_STATE : Obj :=
  ⟨0x8400, 1, 0x1, 1, 1, 0, 0x02, 1, .u8, .ro, .derived, 0, .ints [(0, 255)]⟩

/-- VF U16 (Table 13-9, R337): Last STATUS value. -/
def Ob.Die.VF : Obj :=
  ⟨0x8400, 1, 0x1, 1, 1, 0, 0x03, 1, .u16, .ro, .derived, 0, .ints [(0, 65535)]⟩

/-- DIE_TEMP I16 (Table 13-9, R337): Last STATUS value. -/
def Ob.Die.DIE_TEMP : Obj :=
  ⟨0x8400, 1, 0x1, 1, 1, 0, 0x04, 1, .i16, .ro, .derived, 0, .ints [(-32768, 32767)]⟩

/-- RESTORE_MODE U8 (Table 13-9, R337): R336. -/
def Ob.Die.RESTORE_MODE : Obj :=
  ⟨0x8400, 1, 0x1, 1, 1, 0, 0x05, 1, .u8, .rwc, .stored, 1, .ints [(0, 1)]⟩

/-- RESTORE U8 (Table 13-9, R337): R336. -/
def Ob.Die.RESTORE : Obj :=
  ⟨0x8400, 1, 0x1, 1, 1, 0, 0x06, 1, .u8, .cmd, .factory, 0, .ints [(1, 1)]⟩

/-- INPUTS U32 (Table 13-9, R337): Accepted levels of the scoreboard's cycle. -/
def Ob.Die.INPUTS : Obj :=
  ⟨0x8400, 1, 0x1, 1, 1, 0, 0x07, 1, .u32, .ro, .derived, 0, .ints [(0, 4294967295)]⟩

/-- INPUT_VALID U32 (Table 13-9, R337): Bit i: FIi valid. -/
def Ob.Die.INPUT_VALID : Obj :=
  ⟨0x8400, 1, 0x1, 1, 1, 0, 0x08, 1, .u32, .ro, .derived, 0, .ints [(0, 4294967295)]⟩

/-- BAD_UP U32 (Table 13-9, R337): Bad upstream frames. -/
def Ob.Die.BAD_UP : Obj :=
  ⟨0x8400, 1, 0x1, 1, 1, 0, 0x09, 1, .u32, .ro, .derived, 0, .ints [(0, 4294967295)]⟩

/-- BAD_DOWN U32 (Table 13-9, R337): Bad downstream frames, from STATUS. -/
def Ob.Die.BAD_DOWN : Obj :=
  ⟨0x8400, 1, 0x1, 1, 1, 0, 0x0A, 1, .u32, .ro, .derived, 0, .ints [(0, 4294967295)]⟩

/-- LINK_LOSS_COUNT U32 (Table 13-9, R337): R323. -/
def Ob.Die.LINK_LOSS_COUNT : Obj :=
  ⟨0x8400, 1, 0x1, 1, 1, 0, 0x0B, 1, .u32, .ro, .derived, 0, .ints [(0, 4294967295)]⟩

/-- RECORD_DELAY_MAX U16 (Table 13-9, R337): R323. -/
def Ob.Die.RECORD_DELAY_MAX : Obj :=
  ⟨0x8400, 1, 0x1, 1, 1, 0, 0x0C, 1, .u16, .ro, .derived, 0, .ints [(0, 65535)]⟩

/-- DEBOUNCE U16 (Table 13-10, R337): R328. -/
def Ob.Inp.DEBOUNCE : Obj :=
  ⟨0x8410, 24, 0x1, 1, 1, 0, 0x01, 1, .u16, .rwc, .stored, 1000, .ints [(1, 65535)]⟩

/-- OPEN_DETECT BOOL (Table 13-10, R337): R329. -/
def Ob.Inp.OPEN_DETECT : Obj :=
  ⟨0x8410, 24, 0x1, 1, 1, 0, 0x02, 1, .bool, .rwc, .stored, 0, .ints [(0, 1)]⟩

/-- STATE U8 (Table 13-10, R337): 0 LOW, 1 HIGH, 2 INVALID. -/
def Ob.Inp.STATE : Obj :=
  ⟨0x8410, 24, 0x1, 1, 1, 0, 0x03, 1, .u8, .ro, .derived, 0, .ints [(0, 255)]⟩

/-- OPEN BOOL (Table 13-10, R337): R329. -/
def Ob.Inp.OPEN : Obj :=
  ⟨0x8410, 24, 0x1, 1, 1, 0, 0x04, 1, .bool, .ro, .derived, 0, .ints [(0, 1)]⟩

/-- EDGES U32 (Table 13-10, R337): Accepted edges. -/
def Ob.Inp.EDGES : Obj :=
  ⟨0x8410, 24, 0x1, 1, 1, 0, 0x05, 1, .u32, .ro, .derived, 0, .ints [(0, 4294967295)]⟩

/-- OUT_VALUE BOOL (Table 13-11, R337): Level of an untimed output (R327). -/
def Ob.Outp.OUT_VALUE : Obj :=
  ⟨0x8430, 16, 0x1, 1, 1, 0, 0x01, 1, .bool, .rwi, .factory, 0, .ints [(0, 1)]⟩

/-- OPEN_DETECT BOOL (Table 13-11, R337): R332. -/
def Ob.Outp.OPEN_DETECT : Obj :=
  ⟨0x8430, 16, 0x1, 1, 1, 0, 0x02, 1, .bool, .rwc, .stored, 0, .ints [(0, 1)]⟩

/-- PAIRED BOOL (Table 13-11, R337): R333. -/
def Ob.Outp.PAIRED : Obj :=
  ⟨0x8430, 16, 0x1, 1, 1, 0, 0x03, 1, .bool, .rwc, .stored, 0, .ints [(0, 1)]⟩

/-- TIMED BOOL (Table 13-11, R337): Named by a TTP or compare unit. -/
def Ob.Outp.TIMED : Obj :=
  ⟨0x8430, 16, 0x1, 1, 1, 0, 0x04, 1, .bool, .ro, .derived, 0, .ints [(0, 1)]⟩

/-- DIAG U8 (Table 13-11, R337): Table 13-6. -/
def Ob.Outp.DIAG : Obj :=
  ⟨0x8430, 16, 0x1, 1, 1, 0, 0x05, 1, .u8, .ro, .derived, 0, .ints [(0, 255)]⟩

/-- LOAD_CURRENT U16 (Table 13-11, R337): Last OUT_DIAG value. -/
def Ob.Outp.LOAD_CURRENT : Obj :=
  ⟨0x8430, 16, 0x1, 1, 1, 0, 0x06, 1, .u16, .ro, .derived, 0, .ints [(0, 65535)]⟩

/-- OUT_ACK U8 (Table 13-11, R337): R332. -/
def Ob.Outp.OUT_ACK : Obj :=
  ⟨0x8430, 16, 0x1, 1, 1, 0, 0x07, 1, .u8, .cmd, .factory, 0, .ints [(1, 1)]⟩

/-- EDGE_LATE U32 (Table 13-11, R337): R325. -/
def Ob.Outp.EDGE_LATE : Obj :=
  ⟨0x8430, 16, 0x1, 1, 1, 0, 0x08, 1, .u32, .ro, .derived, 0, .ints [(0, 4294967295)]⟩

/-- HS_ON BOOL (Table 13-12, R337): Commanded high-side switch. -/
def Ob.Brk.HS_ON : Obj :=
  ⟨0x8440, 8, 0x1, 1, 1, 0, 0x01, 1, .bool, .ro, .derived, 0, .ints [(0, 1)]⟩

/-- LS_ON BOOL (Table 13-12, R337): Commanded low-side switch. -/
def Ob.Brk.LS_ON : Obj :=
  ⟨0x8440, 8, 0x1, 1, 1, 0, 0x02, 1, .bool, .ro, .derived, 0, .ints [(0, 1)]⟩

/-- RB_H U16 (Table 13-12, R337): R334. -/
def Ob.Brk.RB_H : Obj :=
  ⟨0x8440, 8, 0x1, 1, 1, 0, 0x03, 1, .u16, .ro, .derived, 0, .ints [(0, 65535)]⟩

/-- RB_L U16 (Table 13-12, R337): R334. -/
def Ob.Brk.RB_L : Obj :=
  ⟨0x8440, 8, 0x1, 1, 1, 0, 0x04, 1, .u16, .ro, .derived, 0, .ints [(0, 65535)]⟩

/-- MISMATCH BOOL (Table 13-12, R337): Table 13-7. -/
def Ob.Brk.MISMATCH : Obj :=
  ⟨0x8440, 8, 0x1, 1, 1, 0, 0x05, 1, .bool, .ro, .derived, 0, .ints [(0, 1)]⟩

/-- MISMATCH_COUNT U32 (Table 13-12, R337): Mismatches reported. -/
def Ob.Brk.MISMATCH_COUNT : Obj :=
  ⟨0x8440, 8, 0x1, 1, 1, 0, 0x06, 1, .u32, .ro, .derived, 0, .ints [(0, 4294967295)]⟩

/-- RF_STATE U8 (Table 14-7, R366): Table 14-1. -/
def Ob.Isl.RF_STATE : Obj :=
  ⟨0x9000, 1, 0x1, 1, 1, 0, 0x01, 1, .u8, .ro, .derived, 0, .ints [(0, 255)]⟩

/-- SAFE_STATE BOOL (Table 14-7, R366): R342. -/
def Ob.Isl.SAFE_STATE : Obj :=
  ⟨0x9000, 1, 0x1, 1, 1, 0, 0x02, 1, .bool, .ro, .derived, 1, .ints [(0, 1)]⟩

/-- SAFETY_CRC U32 (Table 14-7, R366): R362. -/
def Ob.Isl.SAFETY_CRC : Obj :=
  ⟨0x9000, 1, 0x1, 1, 1, 0, 0x03, 1, .u32, .ro, .derived, 0, .ints [(0, 4294967295)]⟩

/-- LAST_CAUSE U8 (Table 14-7, R366): 0 none, 1 HEARTBEAT, 2 ECC, 3 FLOW, 4 SELFTEST, 5 CLOCK, 6 CONFIG, 7 TEST_TIMEOUT, 8 MC_MISMATCH. -/
def Ob.Isl.LAST_CAUSE : Obj :=
  ⟨0x9000, 1, 0x1, 1, 1, 0, 0x04, 1, .u8, .ro, .derived, 0, .ints [(0, 255)]⟩

/-- RECOVERY_COUNT U32 (Table 14-7, R366): Events of R340 and R341, entries into HALT included. -/
def Ob.Isl.RECOVERY_COUNT : Obj :=
  ⟨0x9000, 1, 0x1, 1, 1, 0, 0x05, 1, .u32, .ro, .derived, 0, .ints [(0, 4294967295)]⟩

/-- SAFETY_ACK U8 (Table 14-7, R366): R352, R353. -/
def Ob.Isl.SAFETY_ACK : Obj :=
  ⟨0x9000, 1, 0x1, 1, 1, 0, 0x06, 1, .u8, .cmd, .factory, 0, .ints [(1, 1)]⟩

/-- SAFETY_LOGIN STR (Table 14-7, R366): R358; write-only. -/
def Ob.Isl.SAFETY_LOGIN : Obj :=
  ⟨0x9001, 1, 0x1, 1, 1, 0, 0x01, 1, .str, .cmd, .factory, 0, .len 8 32 1⟩

/-- SAFETY_LOGOUT U8 (Table 14-7, R366): R359. -/
def Ob.Isl.SAFETY_LOGOUT : Obj :=
  ⟨0x9001, 1, 0x1, 1, 1, 0, 0x02, 1, .u8, .cmd, .factory, 0, .ints [(1, 1)]⟩

/-- NEW_PASSWORD STR (Table 14-7, R366): R358; write-only. -/
def Ob.Isl.NEW_PASSWORD : Obj :=
  ⟨0x9001, 1, 0x1, 1, 1, 0, 0x03, 1, .str, .cmd, .factory, 0, .len 8 32 1⟩

/-- SAFETY_SESSION U8 (Table 14-7, R366): Session holding the safety session. -/
def Ob.Isl.SAFETY_SESSION : Obj :=
  ⟨0x9001, 1, 0x1, 1, 1, 0, 0x04, 1, .u8, .ro, .derived, 255, .ints [(0, 255)]⟩

/-- SESSION_TIMEOUT U8 (Table 14-7, R366): R359. -/
def Ob.Isl.SESSION_TIMEOUT : Obj :=
  ⟨0x9001, 1, 0x1, 1, 1, 0, 0x05, 1, .u8, .saf, .stored, 10, .ints [(1, 60)]⟩

/-- FACTORY_PASSWORD BOOL (Table 14-7, R366): R358. -/
def Ob.Isl.FACTORY_PASSWORD : Obj :=
  ⟨0x9001, 1, 0x1, 1, 1, 0, 0x06, 1, .bool, .ro, .derived, 1, .ints [(0, 1)]⟩

/-- FAILED_ATTEMPTS U8 (Table 14-7, R366): R359. -/
def Ob.Isl.FAILED_ATTEMPTS : Obj :=
  ⟨0x9001, 1, 0x1, 1, 1, 0, 0x07, 1, .u8, .ro, .derived, 0, .ints [(0, 255)]⟩

/-- LOCKOUT_LEFT U16 (Table 14-7, R366): R359. -/
def Ob.Isl.LOCKOUT_LEFT : Obj :=
  ⟨0x9001, 1, 0x1, 1, 1, 0, 0x08, 1, .u16, .ro, .derived, 0, .ints [(0, 65535)]⟩

/-- LOG DOMAIN (Table 14-7, R366): Entries, oldest first. -/
def Ob.Isl.LOG : Obj :=
  ⟨0x9002, 1, 0x1, 1, 1, 0, 0x01, 1, .domain, .ro, .derived, 0, .len 0 262144 1⟩

/-- LOG_NEXT_SEQ U32 (Table 14-7, R366): SEQ of the next entry. -/
def Ob.Isl.LOG_NEXT_SEQ : Obj :=
  ⟨0x9002, 1, 0x1, 1, 1, 0, 0x02, 1, .u32, .ro, .derived, 1, .ints [(0, 4294967295)]⟩

/-- LOG_EXPORTED U32 (Table 14-7, R366): Last exported SEQ. -/
def Ob.Isl.LOG_EXPORTED : Obj :=
  ⟨0x9002, 1, 0x1, 1, 1, 0, 0x03, 1, .u32, .cmd, .factory, 0, .ints [(0, 4294967295)]⟩

/-- UNEXPORTED U16 (Table 14-7, R366): Unexported entries. -/
def Ob.Isl.UNEXPORTED : Obj :=
  ⟨0x9002, 1, 0x1, 1, 1, 0, 0x04, 1, .u16, .ro, .derived, 0, .ints [(0, 65535)]⟩

/-- LOG_STATE U8 (Table 14-7, R366): 0 OK, 1 WRITES_REFUSED, 2 FULL. -/
def Ob.Isl.LOG_STATE : Obj :=
  ⟨0x9002, 1, 0x1, 1, 1, 0, 0x05, 1, .u8, .ro, .derived, 0, .ints [(0, 255)]⟩

/-- EVENTS_DROPPED U32 (Table 14-7, R366): R361. -/
def Ob.Isl.EVENTS_DROPPED : Obj :=
  ⟨0x9002, 1, 0x1, 1, 1, 0, 0x06, 1, .u32, .ro, .derived, 0, .ints [(0, 4294967295)]⟩

/-- SI_ENABLE BOOL (Table 14-8, R366): Pair evaluated. -/
def Ob.Si.SI_ENABLE : Obj :=
  ⟨0x9010, 4, 0x1, 1, 1, 0, 0x01, 1, .bool, .saf, .stored, 0, .ints [(0, 1)]⟩

/-- DISCREPANCY U16 (Table 14-8, R366): R352. -/
def Ob.Si.DISCREPANCY : Obj :=
  ⟨0x9010, 4, 0x1, 1, 1, 0, 0x02, 1, .u16, .saf, .stored, 100, .ints [(1, 2000)]⟩

/-- GROUP_MASK U8 (Table 14-8, R366): Groups demanded. -/
def Ob.Si.GROUP_MASK : Obj :=
  ⟨0x9010, 4, 0x1, 1, 1, 0, 0x03, 1, .u8, .saf, .stored, 255, .ints [(0, 255)]⟩

/-- SI_DELAY U16 (Table 14-8, R366): R353. -/
def Ob.Si.SI_DELAY : Obj :=
  ⟨0x9010, 4, 0x1, 1, 1, 0, 0x04, 1, .u16, .saf, .stored, 0, .ints [(0, 10000)]⟩

/-- SI_RESTART U8 (Table 14-8, R366): 0 AUTO, 1 MANUAL. -/
def Ob.Si.SI_RESTART : Obj :=
  ⟨0x9010, 4, 0x1, 1, 1, 0, 0x05, 1, .u8, .saf, .stored, 1, .ints [(0, 1)]⟩

/-- SI_STATE U8 (Table 14-8, R366): 0 OFF, 1 CLEAR, 2 DEMAND, 3 DISCREPANCY. -/
def Ob.Si.SI_STATE : Obj :=
  ⟨0x9010, 4, 0x1, 1, 1, 0, 0x06, 1, .u8, .ro, .derived, 0, .ints [(0, 255)]⟩

/-- DISC_COUNT U32 (Table 14-8, R366): R352. -/
def Ob.Si.DISC_COUNT : Obj :=
  ⟨0x9010, 4, 0x1, 1, 1, 0, 0x07, 1, .u32, .ro, .derived, 0, .ints [(0, 4294967295)]⟩

/-- SAFETY_GROUP U8 (Table 14-9, R366): Group of the axis. -/
def Ob.AxS.SAFETY_GROUP : Obj :=
  ⟨0x9100, 256, 0x1, 1, 1, 0, 0x01, 1, .u8, .saf, .stored, 0, .ints [(0, 7)]⟩

/-- BRAKE U8 (Table 14-9, R366): 0 none, 1 local channel, 2 worker channel of the axis. -/
def Ob.AxS.BRAKE : Obj :=
  ⟨0x9100, 256, 0x1, 1, 1, 0, 0x02, 1, .u8, .saf, .stored, 0, .ints [(0, 2)]⟩

/-- BRAKE_CHANNEL U8 (Table 14-9, R366): FB channel when BRAKE is 1. -/
def Ob.AxS.BRAKE_CHANNEL : Obj :=
  ⟨0x9100, 256, 0x1, 1, 1, 0, 0x03, 1, .u8, .saf, .stored, 0, .ints [(0, 7)]⟩

/-- HOLD_LOAD F32 (Table 14-9, R366): Holding torque, of rated peak. -/
def Ob.AxS.HOLD_LOAD : Obj :=
  ⟨0x9100, 256, 0x1, 1, 1, 0, 0x04, 1, .f32, .saf, .stored, 0x00000000, .f32 (0) 1065353216⟩

/-- TEST_FACTOR F32 (Table 14-9, R366): R354. -/
def Ob.AxS.TEST_FACTOR : Obj :=
  ⟨0x9100, 256, 0x1, 1, 1, 0, 0x05, 1, .f32, .saf, .stored, 0x3FA66666, .f32 (1065353216) 1073741824⟩

/-- TEST_INTERVAL U8 (Table 14-9, R366): R354. -/
def Ob.AxS.TEST_INTERVAL : Obj :=
  ⟨0x9100, 256, 0x1, 1, 1, 0, 0x06, 1, .u8, .saf, .stored, 8, .ints [(1, 168)]⟩

/-- TEST_GRACE U8 (Table 14-9, R366): R354. -/
def Ob.AxS.TEST_GRACE : Obj :=
  ⟨0x9100, 256, 0x1, 1, 1, 0, 0x07, 1, .u8, .saf, .stored, 1, .ints [(0, 24)]⟩

/-- MAX_SLIP Q32.32 (Table 14-9, R366): R356. -/
def Ob.AxS.MAX_SLIP : Obj :=
  ⟨0x9100, 256, 0x1, 1, 1, 0, 0x08, 1, .q32, .saf, .stored, 4194304, .ints [(1, 9223372036854775807)]⟩

/-- ENGAGE_TIME U16 (Table 14-9, R366): R356. -/
def Ob.AxS.ENGAGE_TIME : Obj :=
  ⟨0x9100, 256, 0x1, 1, 1, 0, 0x09, 1, .u16, .saf, .stored, 100, .ints [(10, 2000)]⟩

/-- BT_START U8 (Table 14-9, R366): R355. -/
def Ob.AxS.BT_START : Obj :=
  ⟨0x9100, 256, 0x1, 1, 1, 0, 0x0A, 1, .u8, .cmd, .factory, 0, .ints [(1, 1)]⟩

/-- BT_STATE U8 (Table 14-9, R366): 0 NONE, 1 RUNNING, 2 PASSED, 3 FAILED, 4 INCONCLUSIVE, 5 ABORTED. -/
def Ob.AxS.BT_STATE : Obj :=
  ⟨0x9100, 256, 0x1, 1, 1, 0, 0x0B, 1, .u8, .ro, .derived, 0, .ints [(0, 255)]⟩

/-- BT_LAST TOD80 (Table 14-9, R366): Last PASSED test. -/
def Ob.AxS.BT_LAST : Obj :=
  ⟨0x9100, 256, 0x1, 1, 1, 0, 0x0C, 1, .tod80, .ro, .derived, 0, .ints [(0, 281474976710655999999999)]⟩

/-- BT_DUE U8 (Table 14-9, R366): 0 OK, 1 DUE, 2 OVERDUE. -/
def Ob.AxS.BT_DUE : Obj :=
  ⟨0x9100, 256, 0x1, 1, 1, 0, 0x0D, 1, .u8, .ro, .derived, 0, .ints [(0, 255)]⟩

/-- BT_SLIP Q32.32 (Table 14-9, R366): R357. -/
def Ob.AxS.BT_SLIP : Obj :=
  ⟨0x9100, 256, 0x1, 1, 1, 0, 0x0E, 1, .q32, .ro, .derived, 0, .ints [(-9223372036854775808, 9223372036854775807)]⟩

/-- SBC_STATE U8 (Table 14-9, R366): 0 APPLIED, 1 RELEASED, 2 FAULT. -/
def Ob.AxS.SBC_STATE : Obj :=
  ⟨0x9100, 256, 0x1, 1, 1, 0, 0x0F, 1, .u8, .ro, .derived, 0, .ints [(0, 255)]⟩

/-- SBC_RESET U8 (Table 14-9, R366): R346. -/
def Ob.AxS.SBC_RESET : Obj :=
  ⟨0x9100, 256, 0x1, 1, 1, 0, 0x10, 1, .u8, .cmd, .factory, 0, .ints [(1, 1)]⟩

/-- SAFE_DEMAND BOOL (Table 14-9, R366): R343. -/
def Ob.AxS.SAFE_DEMAND : Obj :=
  ⟨0x9100, 256, 0x1, 1, 1, 0, 0x11, 1, .bool, .ro, .derived, 1, .ints [(0, 1)]⟩

/-- SAFETY_ID U32 (Table 14-10, R366): 0: no safety function at the position. -/
def Ob.WkS.SAFETY_ID : Obj :=
  ⟨0x91FF, 4, 0x40, 64, 1, 1, 0x01, 1, .u32, .saf, .stored, 0, .ints [(0, 4294967294)]⟩

/-- SSF_STATE U8 (Table 14-10, R366): 0 NONE, 1 OK, 2 ERROR, 3 WORKER_SAFE. -/
def Ob.WkS.SSF_STATE : Obj :=
  ⟨0x91FF, 4, 0x40, 64, 1, 1, 0x02, 1, .u8, .ro, .derived, 0, .ints [(0, 255)]⟩

/-- SSF_ERR U32 (Table 14-10, R366): R348. -/
def Ob.WkS.SSF_ERR : Obj :=
  ⟨0x91FF, 4, 0x40, 64, 1, 1, 0x03, 1, .u32, .ro, .derived, 0, .ints [(0, 4294967295)]⟩

/-- SSF_WSTATE U8 (Table 14-10, R366): Last valid WSTATE. -/
def Ob.WkS.SSF_WSTATE : Obj :=
  ⟨0x91FF, 4, 0x40, 64, 1, 1, 0x04, 1, .u8, .ro, .derived, 0, .ints [(0, 255)]⟩

/-- PAIR_ENABLE BOOL (Table 15-6, R386): R367. -/
def Ob.PairC.PAIR_ENABLE : Obj :=
  ⟨0xA000, 1, 0x1, 1, 1, 0, 0x01, 1, .bool, .rwc, .stored, 0, .ints [(0, 1)]⟩

/-- UNIT_END U8 (Table 15-6, R386): 0 head end, 1 far end; unit-specific. -/
def Ob.PairC.UNIT_END : Obj :=
  ⟨0xA000, 1, 0x1, 1, 1, 0, 0x02, 1, .u8, .rwc, .stored, 0, .ints [(0, 1)]⟩

/-- PAIR_PRIORITY U8 (Table 15-6, R386): R369. -/
def Ob.PairC.PAIR_PRIORITY : Obj :=
  ⟨0xA000, 1, 0x1, 1, 1, 0, 0x03, 1, .u8, .rwc, .stored, 8, .ints [(0, 15)]⟩

/-- PAIR_WAIT U16 (Table 15-6, R386): R369. -/
def Ob.PairC.PAIR_WAIT : Obj :=
  ⟨0xA000, 1, 0x1, 1, 1, 0, 0x04, 1, .u16, .rwc, .stored, 200, .ints [(0, 1000)]⟩

/-- RESYNC_CONFIRM U8 (Table 15-6, R386): R371, R375. -/
def Ob.PairC.RESYNC_CONFIRM : Obj :=
  ⟨0xA000, 1, 0x1, 1, 1, 0, 0x05, 1, .u8, .rwc, .stored, 16, .ints [(4, 255)]⟩

/-- DRILL_LEAD U8 (Table 15-6, R386): R385. -/
def Ob.PairC.DRILL_LEAD : Obj :=
  ⟨0xA000, 1, 0x1, 1, 1, 0, 0x06, 1, .u8, .rwc, .stored, 8, .ints [(3, 255)]⟩

/-- ROLE U8 (Table 15-7, R386): 0 ALONE, 1 ACTIVE, 2 STANDBY, 3 YIELDED. -/
def Ob.Pair.ROLE : Obj :=
  ⟨0xA001, 1, 0x1, 1, 1, 0, 0x01, 1, .u8, .ro, .derived, 0, .ints [(0, 255)]⟩

/-- PAIR_STATE U8 (Table 15-7, R386): 0 NO_PARTNER, 1 PAIRING, 2 IN_STEP, 3 RESYNC, 4 LONELY, 5 SUSPECT. -/
def Ob.Pair.PAIR_STATE : Obj :=
  ⟨0xA001, 1, 0x1, 1, 1, 0, 0x02, 1, .u8, .ro, .derived, 0, .ints [(0, 255)]⟩

/-- PARTNER_SERIAL U32 (Table 15-7, R386): From HELLO. -/
def Ob.Pair.PARTNER_SERIAL : Obj :=
  ⟨0xA001, 1, 0x1, 1, 1, 0, 0x03, 1, .u32, .ro, .derived, 0, .ints [(0, 4294967295)]⟩

/-- ELIGIBLE BOOL (Table 15-7, R386): R376. -/
def Ob.Pair.ELIGIBLE : Obj :=
  ⟨0xA001, 1, 0x1, 1, 1, 0, 0x04, 1, .bool, .ro, .derived, 0, .ints [(0, 1)]⟩

/-- SWITCH_COUNT U32 (Table 15-7, R386): Switch-overs, triggers 1–3 and 5. -/
def Ob.Pair.SWITCH_COUNT : Obj :=
  ⟨0xA001, 1, 0x1, 1, 1, 0, 0x05, 1, .u32, .ro, .derived, 0, .ints [(0, 4294967295)]⟩

/-- LAST_TRIGGER U8 (Table 15-7, R386): Table 15-4; 0 none. -/
def Ob.Pair.LAST_TRIGGER : Obj :=
  ⟨0xA001, 1, 0x1, 1, 1, 0, 0x06, 1, .u8, .ro, .derived, 0, .ints [(0, 255)]⟩

/-- LAST_SWITCH_TIME TIME64 (Table 15-7, R386): Decision instant. -/
def Ob.Pair.LAST_SWITCH_TIME : Obj :=
  ⟨0xA001, 1, 0x1, 1, 1, 0, 0x07, 1, .time64, .ro, .derived, 0, .ints [(0, 18446744073709551615)]⟩

/-- LAST_GAP U8 (Table 15-7, R386): R378. -/
def Ob.Pair.LAST_GAP : Obj :=
  ⟨0xA001, 1, 0x1, 1, 1, 0, 0x08, 1, .u8, .ro, .derived, 0, .ints [(0, 255)]⟩

/-- TAKEOVER_BLOCKED U32 (Table 15-7, R386): R376. -/
def Ob.Pair.TAKEOVER_BLOCKED : Obj :=
  ⟨0xA001, 1, 0x1, 1, 1, 0, 0x09, 1, .u32, .ro, .derived, 0, .ints [(0, 4294967295)]⟩

/-- DIVERGE_INPUT U32 (Table 15-7, R386): R375. -/
def Ob.Pair.DIVERGE_INPUT : Obj :=
  ⟨0xA001, 1, 0x1, 1, 1, 0, 0x0A, 1, .u32, .ro, .derived, 0, .ints [(0, 4294967295)]⟩

/-- DIVERGE_TIMING U32 (Table 15-7, R386): R375. -/
def Ob.Pair.DIVERGE_TIMING : Obj :=
  ⟨0xA001, 1, 0x1, 1, 1, 0, 0x0B, 1, .u32, .ro, .derived, 0, .ints [(0, 4294967295)]⟩

/-- DIVERGE_COMPUTE U32 (Table 15-7, R386): R375. -/
def Ob.Pair.DIVERGE_COMPUTE : Obj :=
  ⟨0xA001, 1, 0x1, 1, 1, 0, 0x0C, 1, .u32, .ro, .derived, 0, .ints [(0, 4294967295)]⟩

/-- LAST_DIVERGE_CYCLE U32 (Table 15-7, R386): R375. -/
def Ob.Pair.LAST_DIVERGE_CYCLE : Obj :=
  ⟨0xA001, 1, 0x1, 1, 1, 0, 0x0D, 1, .u32, .ro, .derived, 0, .ints [(0, 4294967295)]⟩

/-- LAST_DIVERGE_RING U8 (Table 15-7, R386): R375. -/
def Ob.Pair.LAST_DIVERGE_RING : Obj :=
  ⟨0xA001, 1, 0x1, 1, 1, 0, 0x0E, 1, .u8, .ro, .derived, 0, .ints [(0, 255)]⟩

/-- PAIR U8 (Table 15-8, R386): Starts pairing from NO_PARTNER or LONELY, or a full resync from SUSPECT. -/
def Ob.PairX.PAIR : Obj :=
  ⟨0xA002, 1, 0x1, 1, 1, 0, 0x01, 1, .u8, .cmd, .factory, 0, .ints [(1, 1)]⟩

/-- DRILL U8 (Table 15-8, R386): R385. -/
def Ob.PairX.DRILL : Obj :=
  ⟨0xA002, 1, 0x1, 1, 1, 0, 0x02, 1, .u8, .cmd, .factory, 0, .ints [(1, 1)]⟩

/-- DRILL_STATE U8 (Table 15-8, R386): 0 IDLE, 1 ANNOUNCED, 2 DONE, 3 FAILED, 4 REFUSED. -/
def Ob.PairX.DRILL_STATE : Obj :=
  ⟨0xA002, 1, 0x1, 1, 1, 0, 0x03, 1, .u8, .ro, .derived, 0, .ints [(0, 255)]⟩

/-- DRILL_AT TIME64 (Table 15-8, R386): s of R385. -/
def Ob.PairX.DRILL_AT : Obj :=
  ⟨0xA002, 1, 0x1, 1, 1, 0, 0x04, 1, .time64, .ro, .derived, 0, .ints [(0, 18446744073709551615)]⟩

/-- LAST_DRILL TOD80 (Table 15-8, R386): Last drill DONE. -/
def Ob.PairX.LAST_DRILL : Obj :=
  ⟨0xA002, 1, 0x1, 1, 1, 0, 0x05, 1, .tod80, .ro, .derived, 0, .ints [(0, 281474976710655999999999)]⟩

/-- DRILL_COUNT U32 (Table 15-8, R386): Drills DONE. -/
def Ob.PairX.DRILL_COUNT : Obj :=
  ⟨0xA002, 1, 0x1, 1, 1, 0, 0x06, 1, .u32, .ro, .derived, 0, .ints [(0, 4294967295)]⟩

/-- SPLIT_STATE_A–D U8 (Table 15-8, R386): 0 WHOLE, 1 SPLIT, 2 HEALING. -/
def Ob.PairX.SPLIT_STATE : Obj :=
  ⟨0xA003, 1, 0x1, 1, 1, 0, 0x01, 4, .u8, .ro, .derived, 0, .ints [(0, 255)]⟩

/-- SPLIT_AT_A–D U8 (Table 15-8, R386): j of R381. -/
def Ob.PairX.SPLIT_AT : Obj :=
  ⟨0xA003, 1, 0x1, 1, 1, 0, 0x05, 4, .u8, .ro, .derived, 0, .ints [(0, 255)]⟩

/-- HEAL_A–D U8 (Table 15-8, R386): R384. -/
def Ob.PairX.HEAL : Obj :=
  ⟨0xA003, 1, 0x1, 1, 1, 0, 0x09, 4, .u8, .cmd, .factory, 0, .ints [(1, 1)]⟩

/-- SPLIT_MARGIN I32 (Table 15-8, R386): R382; negative: no split. -/
def Ob.PairX.SPLIT_MARGIN : Obj :=
  ⟨0xA003, 1, 0x1, 1, 1, 0, 0x0D, 1, .i32, .ro, .derived, 0, .ints [(-2147483648, 2147483647)]⟩

/-- BRAKE_PAIRED U8 (Table 15-9, R386): Bit b: FBb wired in parallel with the partner's FBb (R379). -/
def Ob.PairB.BRAKE_PAIRED : Obj :=
  ⟨0xA004, 1, 0x1, 1, 1, 0, 0x01, 1, .u8, .saf, .stored, 0, .ints [(0, 255)]⟩

/-- POWER_STATE U8 (Table 16-7, R403): 1 STANDBY, 2 IDLE, 3 PLAY. -/
def Ob.Pow.POWER_STATE : Obj :=
  ⟨0x1300, 1, 0x1, 1, 1, 0, 0x01, 1, .u8, .ro, .derived, 2, .ints [(0, 255)]⟩

/-- POWER_REQUEST U8 (Table 16-7, R403): R400. -/
def Ob.Pow.POWER_REQUEST : Obj :=
  ⟨0x1300, 1, 0x1, 1, 1, 0, 0x02, 1, .u8, .cmd, .factory, 0, .ints [(1, 1)]⟩

/-- WAKE_AT TOD80 (Table 16-7, R403): R401; 0 none. -/
def Ob.Pow.WAKE_AT : Obj :=
  ⟨0x1300, 1, 0x1, 1, 1, 0, 0x03, 1, .tod80, .rwi, .factory, 0, .ints [(0, 281474976710655999999999)]⟩

/-- WAKE_SOURCE U8 (Table 16-7, R403): 0 power-on, 1 WAKE_N, 2 WAKE_AT. -/
def Ob.Pow.WAKE_SOURCE : Obj :=
  ⟨0x1300, 1, 0x1, 1, 1, 0, 0x04, 1, .u8, .ro, .derived, 0, .ints [(0, 255)]⟩

/-- PLL_LOCK U8 (Table 16-7, R403): [0] ACE, [1] management, [2] ring SerDes, [3] bench SerDes, [4] PWM and time. -/
def Ob.Pow.PLL_LOCK : Obj :=
  ⟨0x1300, 1, 0x1, 1, 1, 0, 0x05, 1, .u8, .ro, .derived, 0, .ints [(0, 255)]⟩

/-- ACE_POWER U8 (Table 16-7, R403): Bit e: ACE e powered. -/
def Ob.Pow.ACE_POWER : Obj :=
  ⟨0x1300, 1, 0x1, 1, 1, 0, 0x06, 1, .u8, .ro, .derived, 0, .ints [(0, 255)]⟩

/-- GATE_IDLE U16 (Table 16-7, R403): R402. -/
def Ob.Pow.GATE_IDLE : Obj :=
  ⟨0x1300, 1, 0x1, 1, 1, 0, 0x07, 1, .u16, .rwc, .stored, 1000, .ints [(100, 10000)]⟩

/-- WAKE_COUNT U32 (Table 16-7, R403): ACE power-ups since reset. -/
def Ob.Pow.WAKE_COUNT : Obj :=
  ⟨0x1300, 1, 0x1, 1, 1, 0, 0x08, 1, .u32, .ro, .derived, 0, .ints [(0, 4294967295)]⟩

/-- POSTS U32 (Table 16-8, R403): Posts accepted from e. -/
def Ob.Mbx.POSTS : Obj :=
  ⟨0x1410, 15, 0x1, 1, 1, 0, 0x01, 1, .u32, .ro, .derived, 0, .ints [(0, 4294967295)]⟩

/-- ACKED U32 (Table 16-8, R403): Waits of e ended by ACKED. -/
def Ob.Mbx.ACKED : Obj :=
  ⟨0x1410, 15, 0x1, 1, 1, 0, 0x02, 1, .u32, .ro, .derived, 0, .ints [(0, 4294967295)]⟩

/-- TIMEOUTS U32 (Table 16-8, R403): Waits of e ended by TIMEOUT. -/
def Ob.Mbx.TIMEOUTS : Obj :=
  ⟨0x1410, 15, 0x1, 1, 1, 0, 0x03, 1, .u32, .ro, .derived, 0, .ints [(0, 4294967295)]⟩

/-- DROPPED U32 (Table 16-8, R403): Messages to e dropped by its reset (R394). -/
def Ob.Mbx.DROPPED : Obj :=
  ⟨0x1410, 15, 0x1, 1, 1, 0, 0x04, 1, .u32, .ro, .derived, 0, .ints [(0, 4294967295)]⟩

/-- ORPHANS U32 (Table 16-8, R403): Orphans left at e (R395). -/
def Ob.Mbx.ORPHANS : Obj :=
  ⟨0x1410, 15, 0x1, 1, 1, 0, 0x05, 1, .u32, .ro, .derived, 0, .ints [(0, 4294967295)]⟩

/-- CROSSES U32 (Table 16-8, R403): Crossed posts involving e (R396). -/
def Ob.Mbx.CROSSES : Obj :=
  ⟨0x1410, 15, 0x1, 1, 1, 0, 0x06, 1, .u32, .ro, .derived, 0, .ints [(0, 4294967295)]⟩

/-- REFUSED U32 (Table 16-8, R403): GO refusals of e (R391). -/
def Ob.Mbx.REFUSED : Obj :=
  ⟨0x1410, 15, 0x1, 1, 1, 0, 0x07, 1, .u32, .ro, .derived, 0, .ints [(0, 4294967295)]⟩

/-- PENDING U16 (Table 16-8, R403): IN_PENDING of e at the snapshot. -/
def Ob.Mbx.PENDING : Obj :=
  ⟨0x1410, 15, 0x1, 1, 1, 0, 0x08, 1, .u16, .ro, .derived, 0, .ints [(0, 65535)]⟩

/-- USER_READ U32 (Table 17-6, R421): R409. -/
def Ob.Cnt.USER_READ : Obj :=
  ⟨0xB000, 1, 0x1, 1, 1, 0, 0x01, 1, .u32, .rwc, .stored, 0, .ints [(0, 4294967295)]⟩

/-- SAMPLES DOMAIN (Table 17-6, R421): Table 17-3 records, oldest first. -/
def Ob.Cnt.SAMPLES : Obj :=
  ⟨0xB000, 1, 0x1, 1, 1, 0, 0x02, 1, .domain, .ro, .derived, 0, .len 0 1048576 1⟩

/-- SAMPLES_LOST U32 (Table 17-6, R421): R407. -/
def Ob.Cnt.SAMPLES_LOST : Obj :=
  ⟨0xB000, 1, 0x1, 1, 1, 0, 0x03, 1, .u32, .ro, .derived, 0, .ints [(0, 4294967295)]⟩

/-- SAMPLE_CLEAR U8 (Table 17-6, R421): Empties the sample buffer. -/
def Ob.Cnt.SAMPLE_CLEAR : Obj :=
  ⟨0xB000, 1, 0x1, 1, 1, 0, 0x04, 1, .u8, .cmd, .factory, 0, .ints [(1, 1)]⟩

/-- CLEAR_COUNTERS U8 (Table 17-6, R421): R405. -/
def Ob.Cnt.CLEAR_COUNTERS : Obj :=
  ⟨0xB000, 1, 0x1, 1, 1, 0, 0x05, 1, .u8, .cmd, .factory, 0, .ints [(1, 1)]⟩

/-- CYCLE U64 (Table 17-6, R421): R404. -/
def Ob.Core.CYCLE : Obj :=
  ⟨0xB010, 8, 0x1, 1, 1, 0, 0x01, 1, .u64, .ro, .derived, 0, .ints [(0, 18446744073709551615)]⟩

/-- CYCLE U64 (Table 17-6, R421): R404. -/
def Ob.CoreMc.CYCLE : Obj :=
  ⟨0xB020, 4, 0x1, 1, 1, 0, 0x01, 1, .u64, .ro, .derived, 0, .ints [(0, 18446744073709551615)]⟩

/-- PMC0–PMC7 U64 (Table 17-6, R421): Counter values. -/
def Ob.Core.PMC : Obj :=
  ⟨0xB010, 8, 0x1, 1, 1, 0, 0x02, 8, .u64, .ro, .derived, 0, .ints [(0, 18446744073709551615)]⟩

/-- PMC0–PMC7 U64 (Table 17-6, R421): Counter values. -/
def Ob.CoreMc.PMC : Obj :=
  ⟨0xB020, 4, 0x1, 1, 1, 0, 0x02, 8, .u64, .ro, .derived, 0, .ints [(0, 18446744073709551615)]⟩

/-- PMC_CFG0–7 U16 (Table 17-6, R421): R405. -/
def Ob.Core.PMC_CFG : Obj :=
  ⟨0xB010, 8, 0x1, 1, 1, 0, 0x0A, 8, .u16, .rwi, .factory, 0, .pmcCfg⟩

/-- PMC_CFG0–7 U16 (Table 17-6, R421): R405. -/
def Ob.CoreMc.PMC_CFG : Obj :=
  ⟨0xB020, 4, 0x1, 1, 1, 0, 0x0A, 8, .u16, .rwi, .factory, 0, .pmcCfg⟩

/-- SAMPLE_PERIOD U32 (Table 17-6, R421): ACE only; R407. -/
def Ob.Core.SAMPLE_PERIOD : Obj :=
  ⟨0xB010, 8, 0x1, 1, 1, 0, 0x12, 1, .u32, .rwi, .factory, 65536, .ints [(4096, 4294967295)]⟩

/-- SLOT_RETIRED, SLOT_WASTED, SLOT_FRONT, SLOT_BACK U64 (Table 17-6, R421): ACE only; R406. -/
def Ob.Core.SLOT_COUNTS : Obj :=
  ⟨0xB010, 8, 0x1, 1, 1, 0, 0x13, 4, .u64, .ro, .derived, 0, .ints [(0, 18446744073709551615)]⟩

/-- CAP_MODE U8 (Table 17-7, R421): 0 BUFFER, 1 STREAM. -/
def Ob.Capt.CAP_MODE : Obj :=
  ⟨0xB100, 1, 0x1, 1, 1, 0, 0x01, 1, .u8, .rwc, .stored, 0, .ints [(0, 1)]⟩

/-- CLOCK U8 (Table 17-7, R421): 0 FAST, 1 WHISTLE. -/
def Ob.Capt.CLOCK : Obj :=
  ⟨0xB100, 1, 0x1, 1, 1, 0, 0x02, 1, .u8, .rwc, .stored, 0, .ints [(0, 1)]⟩

/-- CLOCK_DIV U16 (Table 17-7, R421): R411. -/
def Ob.Capt.CLOCK_DIV : Obj :=
  ⟨0xB100, 1, 0x1, 1, 1, 0, 0x03, 1, .u16, .rwc, .stored, 1, .ints [(1, 65535)]⟩

/-- AVG_LOG2 U8 (Table 17-7, R421): R411. -/
def Ob.Capt.AVG_LOG2 : Obj :=
  ⟨0xB100, 1, 0x1, 1, 1, 0, 0x04, 1, .u8, .rwc, .stored, 0, .ints [(0, 8)]⟩

/-- PRE_SAMPLES U32 (Table 17-7, R421): Records. -/
def Ob.Capt.PRE_SAMPLES : Obj :=
  ⟨0xB100, 1, 0x1, 1, 1, 0, 0x05, 1, .u32, .rwc, .stored, 0, .ints [(0, 4294967295)]⟩

/-- POST_SAMPLES U32 (Table 17-7, R421): Records. -/
def Ob.Capt.POST_SAMPLES : Obj :=
  ⟨0xB100, 1, 0x1, 1, 1, 0, 0x06, 1, .u32, .rwc, .stored, 1024, .ints [(0, 4294967295)]⟩

/-- TRIG_KIND U8 (Table 17-7, R421): 0 IMMEDIATE, 1 PATTERN, 2 LEVEL, 3 PATTERN_AND_LEVEL, 4 TIME. -/
def Ob.Capt.TRIG_KIND : Obj :=
  ⟨0xB100, 1, 0x1, 1, 1, 0, 0x07, 1, .u8, .rwc, .stored, 0, .ints [(0, 4)]⟩

/-- TRIG_VALUE U64 (Table 17-7, R421): R413. -/
def Ob.Capt.TRIG_VALUE : Obj :=
  ⟨0xB100, 1, 0x1, 1, 1, 0, 0x08, 1, .u64, .rwc, .stored, 0, .ints [(0, 18446744073709551615)]⟩

/-- TRIG_CARE U64 (Table 17-7, R421): Bit clear: don't care. -/
def Ob.Capt.TRIG_CARE : Obj :=
  ⟨0xB100, 1, 0x1, 1, 1, 0, 0x09, 1, .u64, .rwc, .stored, 0, .ints [(0, 18446744073709551615)]⟩

/-- TRIG_EDGE BOOL (Table 17-7, R421): R413. -/
def Ob.Capt.TRIG_EDGE : Obj :=
  ⟨0xB100, 1, 0x1, 1, 1, 0, 0x0A, 1, .bool, .rwc, .stored, 1, .ints [(0, 1)]⟩

/-- LEVEL_CHANNEL U8 (Table 17-7, R421): R413. -/
def Ob.Capt.LEVEL_CHANNEL : Obj :=
  ⟨0xB100, 1, 0x1, 1, 1, 0, 0x0B, 1, .u8, .rwc, .stored, 0, .ints [(0, 63)]⟩

/-- LEVEL I64 (Table 17-7, R421): R413. -/
def Ob.Capt.LEVEL : Obj :=
  ⟨0xB100, 1, 0x1, 1, 1, 0, 0x0C, 1, .i64, .rwc, .stored, 0, .ints [(-9223372036854775808, 9223372036854775807)]⟩

/-- LEVEL_DIR U8 (Table 17-7, R421): 0 from below, 1 from above. -/
def Ob.Capt.LEVEL_DIR : Obj :=
  ⟨0xB100, 1, 0x1, 1, 1, 0, 0x0D, 1, .u8, .rwc, .stored, 0, .ints [(0, 1)]⟩

/-- TRIG_TIME TIME64 (Table 17-7, R421): R413. -/
def Ob.Capt.TRIG_TIME : Obj :=
  ⟨0xB100, 1, 0x1, 1, 1, 0, 0x0E, 1, .time64, .rwc, .stored, 0, .ints [(0, 18446744073709551615)]⟩

/-- ARM BOOL (Table 17-7, R421): R415. -/
def Ob.Capt.ARM : Obj :=
  ⟨0xB100, 1, 0x1, 1, 1, 0, 0x0F, 1, .bool, .rwi, .factory, 0, .ints [(0, 1)]⟩

/-- STATE U8 (Table 17-7, R421): 0 IDLE, 1 ARMED, 2 POST, 3 DONE, 4 OVERFLOW, 5 ABORTED. -/
def Ob.Capt.STATE : Obj :=
  ⟨0xB100, 1, 0x1, 1, 1, 0, 0x10, 1, .u8, .ro, .derived, 0, .ints [(0, 255)]⟩

/-- TRIGGER_INDEX U32 (Table 17-7, R421): R413. -/
def Ob.Capt.TRIGGER_INDEX : Obj :=
  ⟨0xB100, 1, 0x1, 1, 1, 0, 0x11, 1, .u32, .ro, .derived, 0, .ints [(0, 4294967295)]⟩

/-- TRIGGER_TIME TIME64 (Table 17-7, R421): R413. -/
def Ob.Capt.TRIGGER_TIME : Obj :=
  ⟨0xB100, 1, 0x1, 1, 1, 0, 0x12, 1, .time64, .ro, .derived, 0, .ints [(0, 18446744073709551615)]⟩

/-- OVERFLOW_INDEX U32 (Table 17-7, R421): R414; all ones: none. -/
def Ob.Capt.OVERFLOW_INDEX : Obj :=
  ⟨0xB100, 1, 0x1, 1, 1, 0, 0x13, 1, .u32, .ro, .derived, 4294967295, .ints [(0, 4294967295)]⟩

/-- RECORDS_STORED U32 (Table 17-7, R421): Valid records. -/
def Ob.Capt.RECORDS_STORED : Obj :=
  ⟨0xB100, 1, 0x1, 1, 1, 0, 0x14, 1, .u32, .ro, .derived, 0, .ints [(0, 4294967295)]⟩

/-- RECORD_BYTES U16 (Table 17-7, R421): R411. -/
def Ob.Capt.RECORD_BYTES : Obj :=
  ⟨0xB100, 1, 0x1, 1, 1, 0, 0x15, 1, .u16, .ro, .derived, 0, .ints [(0, 65535)]⟩

/-- PRE_SHORT BOOL (Table 17-7, R421): R413. -/
def Ob.Capt.PRE_SHORT : Obj :=
  ⟨0xB100, 1, 0x1, 1, 1, 0, 0x16, 1, .bool, .ro, .derived, 0, .ints [(0, 1)]⟩

/-- START_TIME TIME64 (Table 17-7, R421): R411. -/
def Ob.Capt.START_TIME : Obj :=
  ⟨0xB100, 1, 0x1, 1, 1, 0, 0x17, 1, .time64, .ro, .derived, 0, .ints [(0, 18446744073709551615)]⟩

/-- CHANNEL_SRC_0–63 U16 (Table 17-7, R421): R410. -/
def Ob.Capt.CHANNEL_SRC : Obj :=
  ⟨0xB101, 1, 0x1, 1, 1, 0, 0x01, 64, .u16, .rwc, .stored, 0, .chanSrc⟩

/-- DATA DOMAIN (Table 17-7, R421): Bytes 2 MiB·g onward of the capture. -/
def Ob.CapPage.DATA : Obj :=
  ⟨0xB120, 32, 0x1, 1, 1, 0, 0x01, 1, .domain, .ro, .derived, 0, .len 0 2097152 1⟩

/-- TRACE_DEPTH U32 (Table 17-8, R421): Samples per slot. -/
def Ob.Trc.TRACE_DEPTH : Obj :=
  ⟨0xC000, 1, 0x1, 1, 1, 0, 0x01, 1, .u32, .rwc, .stored, 32768, .ints [(1024, 262144)]⟩

/-- TRACE_ARM BOOL (Table 17-8, R421): R417; 0 aborts. -/
def Ob.Trc.TRACE_ARM : Obj :=
  ⟨0xC000, 1, 0x1, 1, 1, 0, 0x02, 1, .bool, .rwi, .factory, 0, .ints [(0, 1)]⟩

/-- TRACE_TRIGGER U8 (Table 17-8, R421): R417. -/
def Ob.Trc.TRACE_TRIGGER : Obj :=
  ⟨0xC000, 1, 0x1, 1, 1, 0, 0x03, 1, .u8, .rwc, .stored, 0, .ints [(0, 2)]⟩

/-- TRACE_PRE U32 (Table 17-8, R421): R417. -/
def Ob.Trc.TRACE_PRE : Obj :=
  ⟨0xC000, 1, 0x1, 1, 1, 0, 0x04, 1, .u32, .rwc, .stored, 0, .ints [(0, 262143)]⟩

/-- TRACE_STATE U8 (Table 17-8, R421): 0 IDLE, 1 ARMED, 2 POST, 3 DONE, 4 ABORTED. -/
def Ob.Trc.TRACE_STATE : Obj :=
  ⟨0xC000, 1, 0x1, 1, 1, 0, 0x05, 1, .u8, .ro, .derived, 0, .ints [(0, 255)]⟩

/-- TRACE_START_CYCLE U32 (Table 17-8, R421): R417. -/
def Ob.Trc.TRACE_START_CYCLE : Obj :=
  ⟨0xC000, 1, 0x1, 1, 1, 0, 0x06, 1, .u32, .ro, .derived, 0, .ints [(0, 4294967295)]⟩

/-- TRACE_TRIGGER_INDEX U32 (Table 17-8, R421): Index of the trigger whistle. -/
def Ob.Trc.TRACE_TRIGGER_INDEX : Obj :=
  ⟨0xC000, 1, 0x1, 1, 1, 0, 0x07, 1, .u32, .ro, .derived, 0, .ints [(0, 4294967295)]⟩

/-- UNDONE_LIST DOMAIN (Table 17-8, R421): U32 indices. -/
def Ob.Trc.UNDONE_LIST : Obj :=
  ⟨0xC000, 1, 0x1, 1, 1, 0, 0x08, 1, .domain, .ro, .derived, 0, .len 0 1024 1⟩

/-- UNDONE_OVER BOOL (Table 17-8, R421): R417. -/
def Ob.Trc.UNDONE_OVER : Obj :=
  ⟨0xC000, 1, 0x1, 1, 1, 0, 0x09, 1, .bool, .ro, .derived, 0, .ints [(0, 1)]⟩

/-- AXIS U16 (Table 17-8, R421): 0xFFFF: slot unused. -/
def Ob.TrcSlot.AXIS : Obj :=
  ⟨0xC010, 16, 0x1, 1, 1, 0, 0x01, 1, .u16, .rwc, .stored, 65535, .ints [(0, 255), (65535, 65535)]⟩

/-- NODE U8 (Table 17-8, R421): Table 17-5. -/
def Ob.TrcSlot.NODE : Obj :=
  ⟨0xC010, 16, 0x1, 1, 1, 0, 0x02, 1, .u8, .rwc, .stored, 0, .ints [(1, 16)]⟩

/-- DATA DOMAIN (Table 17-8, R421): I64 samples. -/
def Ob.TrcSlot.DATA : Obj :=
  ⟨0xC010, 16, 0x1, 1, 1, 0, 0x03, 1, .domain, .ro, .derived, 0, .len 0 2097152 1⟩

/-- INJ_AXIS U16 (Table 17-8, R421): 0xFFFF: none. -/
def Ob.Inj.INJ_AXIS : Obj :=
  ⟨0xC020, 1, 0x1, 1, 1, 0, 0x01, 1, .u16, .rwc, .stored, 65535, .ints [(0, 255), (65535, 65535)]⟩

/-- INJ_NODE U8 (Table 17-8, R421): R418. -/
def Ob.Inj.INJ_NODE : Obj :=
  ⟨0xC020, 1, 0x1, 1, 1, 0, 0x02, 1, .u8, .rwc, .stored, 3, .ints [(1, 4)]⟩

/-- INJ_SIGNAL U8 (Table 17-8, R421): 0 SINE_SWEEP, 1 STEP, 2 PRBS. -/
def Ob.Inj.INJ_SIGNAL : Obj :=
  ⟨0xC020, 1, 0x1, 1, 1, 0, 0x03, 1, .u8, .rwc, .stored, 0, .ints [(0, 2)]⟩

/-- INJ_AMPLITUDE F32 (Table 17-8, R421): A, node units. -/
def Ob.Inj.INJ_AMPLITUDE : Obj :=
  ⟨0xC020, 1, 0x1, 1, 1, 0, 0x04, 1, .f32, .rwc, .stored, 0x00000000, .f32 (-0x7F7FFFFF) 0x7F7FFFFF⟩

/-- F_START F32 (Table 17-8, R421): R419. -/
def Ob.Inj.F_START : Obj :=
  ⟨0xC020, 1, 0x1, 1, 1, 0, 0x05, 1, .f32, .rwc, .stored, 0x3F800000, .f32 1 0x7F7FFFFF⟩

/-- F_STOP F32 (Table 17-8, R421): R419. -/
def Ob.Inj.F_STOP : Obj :=
  ⟨0xC020, 1, 0x1, 1, 1, 0, 0x06, 1, .f32, .rwc, .stored, 0x42C80000, .f32 1 0x7F7FFFFF⟩

/-- DURATION U32 (Table 17-8, R421): T. -/
def Ob.Inj.DURATION : Obj :=
  ⟨0xC020, 1, 0x1, 1, 1, 0, 0x07, 1, .u32, .rwc, .stored, 1000, .ints [(1, 600000)]⟩

/-- PRBS_ORDER U8 (Table 17-8, R421): n. -/
def Ob.Inj.PRBS_ORDER : Obj :=
  ⟨0xC020, 1, 0x1, 1, 1, 0, 0x08, 1, .u8, .rwc, .stored, 11, .ints [(7, 15)]⟩

/-- PRBS_HOLD U8 (Table 17-8, R421): Runs per bit. -/
def Ob.Inj.PRBS_HOLD : Obj :=
  ⟨0xC020, 1, 0x1, 1, 1, 0, 0x09, 1, .u8, .rwc, .stored, 1, .ints [(1, 64)]⟩

/-- INJ_GO U8 (Table 17-8, R421): Any write starts (R419). -/
def Ob.Inj.INJ_GO : Obj :=
  ⟨0xC020, 1, 0x1, 1, 1, 0, 0x0A, 1, .u8, .rwc, .factory, 0, .ints [(0, 255)]⟩

/-- INJ_STOP U8 (Table 17-8, R421): Any write stops (R419). -/
def Ob.Inj.INJ_STOP : Obj :=
  ⟨0xC020, 1, 0x1, 1, 1, 0, 0x0B, 1, .u8, .rwc, .factory, 0, .ints [(0, 255)]⟩

/-- INJ_STATE U8 (Table 17-8, R421): 0 IDLE, 1 RUNNING, 2 DONE, 3 STOPPED, 4 REFUSED. -/
def Ob.Inj.INJ_STATE : Obj :=
  ⟨0xC020, 1, 0x1, 1, 1, 0, 0x0C, 1, .u8, .ro, .derived, 0, .ints [(0, 255)]⟩

/-- INJ_START_CYCLE U32 (Table 17-8, R421): Cycle of t_0. -/
def Ob.Inj.INJ_START_CYCLE : Obj :=
  ⟨0xC020, 1, 0x1, 1, 1, 0, 0x0D, 1, .u32, .ro, .derived, 0, .ints [(0, 4294967295)]⟩

/-- FRF_IN_SLOT U8 (Table 17-8, R421): R420. -/
def Ob.Frf.FRF_IN_SLOT : Obj :=
  ⟨0xC030, 1, 0x1, 1, 1, 0, 0x01, 1, .u8, .rwc, .stored, 0, .ints [(0, 15)]⟩

/-- FRF_OUT_SLOT U8 (Table 17-8, R421): R420. -/
def Ob.Frf.FRF_OUT_SLOT : Obj :=
  ⟨0xC030, 1, 0x1, 1, 1, 0, 0x02, 1, .u8, .rwc, .stored, 1, .ints [(0, 15)]⟩

/-- FRF_LOG2N U8 (Table 17-8, R421): N = 2^value. -/
def Ob.Frf.FRF_LOG2N : Obj :=
  ⟨0xC030, 1, 0x1, 1, 1, 0, 0x03, 1, .u8, .rwc, .stored, 12, .ints [(8, 14)]⟩

/-- FRF_WINDOW U8 (Table 17-8, R421): 0 rectangular, 1 Hann. -/
def Ob.Frf.FRF_WINDOW : Obj :=
  ⟨0xC030, 1, 0x1, 1, 1, 0, 0x04, 1, .u8, .rwc, .stored, 1, .ints [(0, 1)]⟩

/-- FRF_SEGMENTS U8 (Table 17-8, R421): K. -/
def Ob.Frf.FRF_SEGMENTS : Obj :=
  ⟨0xC030, 1, 0x1, 1, 1, 0, 0x05, 1, .u8, .rwc, .stored, 4, .ints [(1, 64)]⟩

/-- FRF_OFFSET U32 (Table 17-8, R421): First trace index. -/
def Ob.Frf.FRF_OFFSET : Obj :=
  ⟨0xC030, 1, 0x1, 1, 1, 0, 0x06, 1, .u32, .rwc, .stored, 0, .ints [(0, 4294967295)]⟩

/-- FRF_START U8 (Table 17-8, R421): R420. -/
def Ob.Frf.FRF_START : Obj :=
  ⟨0xC030, 1, 0x1, 1, 1, 0, 0x07, 1, .u8, .cmd, .factory, 0, .ints [(1, 1)]⟩

/-- FRF_STATE U8 (Table 17-8, R421): 0 IDLE, 1 RUNNING, 2 DONE, 3 FAILED. -/
def Ob.Frf.FRF_STATE : Obj :=
  ⟨0xC030, 1, 0x1, 1, 1, 0, 0x08, 1, .u8, .ro, .derived, 0, .ints [(0, 255)]⟩

/-- FRF_FAIL U8 (Table 17-8, R421): R420. -/
def Ob.Frf.FRF_FAIL : Obj :=
  ⟨0xC030, 1, 0x1, 1, 1, 0, 0x09, 1, .u8, .ro, .derived, 0, .ints [(0, 255)]⟩

/-- FRF_RESULT DOMAIN (Table 17-8, R421): Per bin 16 bytes: F32 f_k, F32 Re H, F32 Im H, F32 γ². -/
def Ob.Frf.FRF_RESULT : Obj :=
  ⟨0xC030, 1, 0x1, 1, 1, 0, 0x0A, 1, .domain, .ro, .derived, 0, .len 0 131088 1⟩

/-- RESET_CAUSE U8 (Table 18-5, R436): Table 18-1. -/
def Ob.Rst.RESET_CAUSE : Obj :=
  ⟨0x1010, 1, 0x1, 1, 1, 0, 0x01, 1, .u8, .ro, .derived, 0, .ints [(0, 255)]⟩

/-- RESET_UNIT U8 (Table 18-5, R436): R423. -/
def Ob.Rst.RESET_UNIT : Obj :=
  ⟨0x1010, 1, 0x1, 1, 1, 0, 0x02, 1, .u8, .cmd, .factory, 0, .ints [(1, 1)]⟩

/-- START_STATE U8 (Table 18-5, R436): 0 BOOT, 1 INIT, 2 ROLES, 3 KICKOFF, 4 READY, 5 PARTIAL. -/
def Ob.Rst.START_STATE : Obj :=
  ⟨0x1010, 1, 0x1, 1, 1, 0, 0x03, 1, .u8, .ro, .derived, 0, .ints [(0, 255)]⟩

/-- START_TIME U32 (Table 18-5, R436): R434. -/
def Ob.Rst.START_TIME : Obj :=
  ⟨0x1010, 1, 0x1, 1, 1, 0, 0x04, 1, .u32, .ro, .derived, 0, .ints [(0, 4294967295)]⟩

/-- BOOT_SELECT U8 (Table 18-5, R436): 0 NEWEST, 1 A, 2 B; also kept in the Islia region of MRAM for the boot ROM. -/
def Ob.Rst.BOOT_SELECT : Obj :=
  ⟨0x1010, 1, 0x1, 1, 1, 0, 0x05, 1, .u8, .rwc, .stored, 0, .ints [(0, 2)]⟩

/-- IMAGE_STATE_A U8 (Table 18-5, R436): 0 EMPTY, 1 INVALID, 2 VALID, 3 TRIAL, 4 CONFIRMED, 5 REJECTED. -/
def Ob.Rst.IMAGE_STATE_A : Obj :=
  ⟨0x1010, 1, 0x1, 1, 1, 0, 0x06, 1, .u8, .ro, .derived, 0, .ints [(0, 255)]⟩

/-- IMAGE_STATE_B U8 (Table 18-5, R436): 0 EMPTY, 1 INVALID, 2 VALID, 3 TRIAL, 4 CONFIRMED, 5 REJECTED. -/
def Ob.Rst.IMAGE_STATE_B : Obj :=
  ⟨0x1010, 1, 0x1, 1, 1, 0, 0x07, 1, .u8, .ro, .derived, 0, .ints [(0, 255)]⟩

/-- IMAGE_VERSION_A U32 (Table 18-5, R436): FW_VERSION of each header. -/
def Ob.Rst.IMAGE_VERSION_A : Obj :=
  ⟨0x1010, 1, 0x1, 1, 1, 0, 0x08, 1, .u32, .ro, .derived, 0, .ints [(0, 4294967295)]⟩

/-- IMAGE_VERSION_B U32 (Table 18-5, R436): FW_VERSION of each header. -/
def Ob.Rst.IMAGE_VERSION_B : Obj :=
  ⟨0x1010, 1, 0x1, 1, 1, 0, 0x09, 1, .u32, .ro, .derived, 0, .ints [(0, 4294967295)]⟩

/-- ROLLBACK_MIN U16 (Table 18-5, R436): Fused counter (R427). -/
def Ob.Rst.ROLLBACK_MIN : Obj :=
  ⟨0x1010, 1, 0x1, 1, 1, 0, 0x0A, 1, .u16, .ro, .factory, 0, .ints [(0, 65535)]⟩

/-- FW_UPLOAD DOMAIN (Table 18-5, R436): R428. -/
def Ob.Rst.FW_UPLOAD : Obj :=
  ⟨0x1010, 1, 0x1, 1, 1, 0, 0x0B, 1, .domain, .rwi, .factory, 0, .len 256 12583168 1⟩

/-- CONFIG_RESULT U8 (Table 18-5, R436): 0 NEWEST, 1 FALLBACK, 2 DEFAULTS. -/
def Ob.Rst.CONFIG_RESULT : Obj :=
  ⟨0x1010, 1, 0x1, 1, 1, 0, 0x0C, 1, .u8, .ro, .derived, 0, .ints [(0, 255)]⟩

/-- UNKNOWN_RECORDS U32 (Table 18-5, R436): R431. -/
def Ob.Rst.UNKNOWN_RECORDS : Obj :=
  ⟨0x1010, 1, 0x1, 1, 1, 0, 0x0D, 1, .u32, .ro, .derived, 0, .ints [(0, 4294967295)]⟩

/-- RANGE_RECORDS U32 (Table 18-5, R436): R431. -/
def Ob.Rst.RANGE_RECORDS : Obj :=
  ⟨0x1010, 1, 0x1, 1, 1, 0, 0x0E, 1, .u32, .ro, .derived, 0, .ints [(0, 4294967295)]⟩

/-- WATCHDOG_COUNT U32 (Table 18-5, R436): R424; kept in MRAM. -/
def Ob.Rst.WATCHDOG_COUNT : Obj :=
  ⟨0x1010, 1, 0x1, 1, 1, 0, 0x0F, 1, .u32, .ro, .derived, 0, .ints [(0, 4294967295)]⟩

/-- TJ I16 (Table 19-19, R457): Hottest sensor at the snapshot. -/
def Ob.Therm.TJ : Obj :=
  ⟨0x1301, 1, 0x1, 1, 1, 0, 0x01, 1, .i16, .ro, .derived, 0, .ints [(-32768, 32767)]⟩

/-- TJ_PEAK I16 (Table 19-19, R457): Highest TJ since reset or CLEAR_TJ_PEAK. -/
def Ob.Therm.TJ_PEAK : Obj :=
  ⟨0x1301, 1, 0x1, 1, 1, 0, 0x02, 1, .i16, .ro, .derived, 0, .ints [(-32768, 32767)]⟩

/-- TJ_WARN U8 (Table 19-19, R457): R452. -/
def Ob.Therm.TJ_WARN : Obj :=
  ⟨0x1301, 1, 0x1, 1, 1, 0, 0x03, 1, .u8, .rwc, .stored, 120, .ints [(90, 125)]⟩

/-- THERMAL_STATE U8 (Table 19-19, R457): 0 NORMAL, 1 WARN, 2 LIMIT. -/
def Ob.Therm.THERMAL_STATE : Obj :=
  ⟨0x1301, 1, 0x1, 1, 1, 0, 0x04, 1, .u8, .ro, .derived, 0, .ints [(0, 255)]⟩

/-- RAIL_STATUS U16 (Table 19-19, R457): Rails in range. -/
def Ob.Therm.RAIL_STATUS : Obj :=
  ⟨0x1301, 1, 0x1, 1, 1, 0, 0x05, 1, .u16, .ro, .derived, 511, .ints [(0, 65535)]⟩

/-- CLEAR_TJ_PEAK U8 (Table 19-19, R457): Sets TJ_PEAK to TJ. -/
def Ob.Therm.CLEAR_TJ_PEAK : Obj :=
  ⟨0x1301, 1, 0x1, 1, 1, 0, 0x06, 1, .u8, .cmd, .factory, 0, .ints [(1, 1)]⟩

/-! The catalogue, group by group. -/

/-- The rows of group Cyc. -/
def Ob.Cyc.rows : List Obj :=
  [Ob.Cyc.CYCLE_NUMBER, Ob.Cyc.ACTIVE_SCHEDULE, Ob.Cyc.START_SCHEDULE, Ob.Cyc.LOCAL_RING,
   Ob.Cyc.ADMIT_RESULT, Ob.Cyc.ADMIT_RING, Ob.Cyc.ADMIT_ACE, Ob.Cyc.ADMIT_PHASE,
   Ob.Cyc.MARGIN, Ob.Cyc.PREDICTED_FINISH, Ob.Cyc.OVERRUN_LIMIT, Ob.Cyc.UNDONE_COMPUTE,
   Ob.Cyc.UNDONE_LATE, Ob.Cyc.FRAME_MISSING_LIMIT, Ob.Cyc.FRAME_MISSING, Ob.Cyc.CLEAR_COUNTS,
   Ob.Cyc.UNDONE_FRAME]

/-- The rows of group Sched. -/
def Ob.Sched.rows : List Obj :=
  [Ob.Sched.CYCLE_EXP, Ob.Sched.WHISTLE_OFFSET, Ob.Sched.AXIS_PLAN, Ob.Sched.IO_SIZES,
   Ob.Sched.VALID]

/-- The rows of group Hud. -/
def Ob.Hud.rows : List Obj :=
  [Ob.Hud.RING_MASK, Ob.Hud.TARGET, Ob.Hud.SWITCH_TIME, Ob.Hud.LEAD,
   Ob.Hud.GO, Ob.Hud.STATE, Ob.Hud.SWITCH_AT, Ob.Hud.MISSING_ACK,
   Ob.Hud.CANCEL_COUNT, Ob.Hud.REASON]

/-- The rows of group AxD. -/
def Ob.AxD.rows : List Obj :=
  [Ob.AxD.UNDONE, Ob.AxD.UNDONE_TOTAL, Ob.AxD.UNDONE_RUN, Ob.AxD.OFFSIDE,
   Ob.AxD.LOOP_FLAGS, Ob.AxD.FE_PEAK, Ob.AxD.CLEAR_PEAK, Ob.AxD.EXEC_MAX,
   Ob.AxD.OVER_DECLARED, Ob.AxD.SAT_CYCLES, Ob.AxD.LAST_ENGINE, Ob.AxD.LAST_WAIT,
   Ob.AxD.LAST_START]

/-- The rows of group Ring. -/
def Ob.Ring.rows : List Obj :=
  [Ob.Ring.ENABLE, Ob.Ring.PHY_RATE, Ob.Ring.WORKER_COUNT, Ob.Ring.FAR_END,
   Ob.Ring.FAR_SEGMENT_LENGTH, Ob.Ring.DECLARED_LENGTH, Ob.Ring.ETHERTYPE, Ob.Ring.PRIORITY,
   Ob.Ring.KICKOFF, Ob.Ring.STOP, Ob.Ring.STATE, Ob.Ring.FAIL_REASON,
   Ob.Ring.KICKOFF_TIME, Ob.Ring.LET_COUNT, Ob.Ring.HOPS, Ob.Ring.ATTENDANCE,
   Ob.Ring.LOOPBACK_AT, Ob.Ring.FCS_ERR, Ob.Ring.FCS_FWD, Ob.Ring.LENGTH_ERR,
   Ob.Ring.REJOIN, Ob.Ring.REJOIN_STATE, Ob.Ring.COMMIT_SPLIT]

/-- The rows of group Wk. -/
def Ob.Wk.rows : List Obj :=
  [Ob.Wk.VENDOR_ID, Ob.Wk.PRODUCT, Ob.Wk.REV_MIN, Ob.Wk.SERIAL,
   Ob.Wk.SUBSTITUTE_OK, Ob.Wk.CHANNEL_LAYOUTS, Ob.Wk.SEGMENT_LENGTH, Ob.Wk.PARAM_BLOCK,
   Ob.Wk.IDENT, Ob.Wk.STATUS, Ob.Wk.LINK_ERR_COUNT, Ob.Wk.ABSENT_COUNT,
   Ob.Wk.SUBST_COUNT]

/-- The rows of group Clk. -/
def Ob.Clk.rows : List Obj :=
  [Ob.Clk.MACHINE_TIME, Ob.Clk.TOD, Ob.Clk.RATE_ADJ, Ob.Clk.SYNC_STATE,
   Ob.Clk.MASTER_OFFSET, Ob.Clk.STEPPED, Ob.Clk.STEP_SIZE, Ob.Clk.UTC_OFFSET,
   Ob.Clk.SET_TOD, Ob.Clk.RELOCK]

/-- The rows of group Ptp. -/
def Ob.Ptp.rows : List Obj :=
  [Ob.Ptp.PORT_ENABLE, Ob.Ptp.DOMAIN, Ob.Ptp.ROLE, Ob.Ptp.TRANSPORT,
   Ob.Ptp.PRIORITY1, Ob.Ptp.PRIORITY2, Ob.Ptp.TC_ENABLE, Ob.Ptp.LOG_SYNC_INTERVAL,
   Ob.Ptp.LOG_DELAY_REQ_INTERVAL, Ob.Ptp.H1_TX_LAT, Ob.Ptp.H1_RX_LAT, Ob.Ptp.H2_TX_LAT,
   Ob.Ptp.H2_RX_LAT]

/-- The rows of group Sby. -/
def Ob.Sby.rows : List Obj :=
  [Ob.Sby.BENCH_ALIGN_STATE, Ob.Sby.BENCH_OFFSET, Ob.Sby.BENCH_ASYM, Ob.Sby.CROSSCHECK]

/-- The rows of group RTime. -/
def Ob.RTime.rows : List Obj :=
  [Ob.RTime.ALIGN_STATE, Ob.RTime.MEASURED_LENGTH, Ob.RTime.DELAY_REFRESH, Ob.RTime.OFFSIDE_LIMIT,
   Ob.RTime.OFFSIDE_STOP_LIMIT, Ob.RTime.OFFSIDE_COUNT, Ob.RTime.FAR_ASYMMETRY]

/-- The rows of group WkT. -/
def Ob.WkT.rows : List Obj :=
  [Ob.WkT.ASYMMETRY, Ob.WkT.HOLDOVER_PPB, Ob.WkT.SEGMENT_DELAY, Ob.WkT.RES_FWD,
   Ob.WkT.OFFSET_ERR, Ob.WkT.ERR_BOUND, Ob.WkT.CLOCK_STATE, Ob.WkT.OFFSIDE,
   Ob.WkT.LAST_MEASURED]

/-- The rows of group Ttp. -/
def Ob.Ttp.rows : List Obj :=
  [Ob.Ttp.ENABLE, Ob.Ttp.TARGET, Ob.Ttp.TIMEBASE, Ob.Ttp.START,
   Ob.Ttp.START_TOD, Ob.Ttp.PERIOD, Ob.Ttp.WIDTH, Ob.Ttp.POLARITY,
   Ob.Ttp.STATUS, Ob.Ttp.COUNT]

/-- The rows of group TLat. -/
def Ob.TLat.rows : List Obj :=
  [Ob.TLat.SOURCE, Ob.TLat.EDGE, Ob.TLat.EVENTS, Ob.TLat.ACK,
   Ob.TLat.LOST]

/-- The rows of group Ident. -/
def Ob.Ident.rows : List Obj :=
  [Ob.Ident.VENDOR_ID, Ob.Ident.PRODUCT, Ob.Ident.SILICON_REV, Ob.Ident.SERIAL,
   Ob.Ident.FW_VERSION, Ob.Ident.FW_IMAGE, Ob.Ident.DEVICE_NAME, Ob.Ident.OD_VERSION]

/-- The rows of group Com. -/
def Ob.Com.rows : List Obj :=
  [Ob.Com.COMMIT_STATE, Ob.Com.STAGED_COUNT, Ob.Com.STAGED_BYTES, Ob.Com.COMMIT,
   Ob.Com.DISCARD, Ob.Com.LAST_TAG, Ob.Com.LAST_RESULT, Ob.Com.LAST_REASON,
   Ob.Com.LAST_OBJECT, Ob.Com.LAST_APPLY_TIME, Ob.Com.LAST_APPLY_CYCLE, Ob.Com.LAST_LATENCY,
   Ob.Com.COMMIT_COUNT, Ob.Com.REJECT_COUNT, Ob.Com.DISCARD_COUNT]

/-- The rows of group Sb. -/
def Ob.Sb.rows : List Obj :=
  [Ob.Sb.SNAPSHOT_ID, Ob.Sb.SNAPSHOT_TIME, Ob.Sb.SNAP_CYCLE, Ob.Sb.TAG_IN_FORCE]

/-- The rows of group Store. -/
def Ob.Store.rows : List Obj :=
  [Ob.Store.SAVE, Ob.Store.SAVE_STATE, Ob.Store.STORED_SEQUENCE, Ob.Store.STORED_CRC,
   Ob.Store.STORED_BANK, Ob.Store.STORED_SOURCE, Ob.Store.ERASE_STORED, Ob.Store.SAVE_TIME,
   Ob.Store.SAVE_REASON, Ob.Store.SAVE_SIZE]

/-- The rows of group Poss. -/
def Ob.Poss.rows : List Obj :=
  [Ob.Poss.CAPTAIN, Ob.Poss.POSSESSION_STATE, Ob.Poss.SESSION_COUNT, Ob.Poss.CLAIM,
   Ob.Poss.LEASE_RENEW, Ob.Poss.ELECTION_HOLD, Ob.Poss.LEASE_DEFAULT, Ob.Poss.POSSESSION_CHANGES,
   Ob.Poss.BAD_MSG, Ob.Poss.SEQ_ERR, Ob.Poss.UDP_PORT, Ob.Poss.SERVICE_IP,
   Ob.Poss.UNIT_IP, Ob.Poss.NETMASK, Ob.Poss.GATEWAY]

/-- The rows of group Sess. -/
def Ob.Sess.rows : List Obj :=
  [Ob.Sess.STATE, Ob.Sess.TRANSPORT, Ob.Sess.PEER, Ob.Sess.NAME,
   Ob.Sess.LEASE, Ob.Sess.LAST_RENEWED, Ob.Sess.CLAIM_PRIORITY, Ob.Sess.CLAIM_TIME,
   Ob.Sess.SUBSCRIPTIONS, Ob.Sess.NOTIFY_SEQ]

/-- The rows of group Map. -/
def Ob.Map.rows : List Obj :=
  [Ob.Map.RING, Ob.Map.WORKER, Ob.Map.CHANNEL, Ob.Map.LOCAL_PORT,
   Ob.Map.KIND, Ob.Map.ACTUAL_POSITION, Ob.Map.POSITION_DEMAND, Ob.Map.ACTUAL_VELOCITY,
   Ob.Map.VELOCITY_DEMAND, Ob.Map.FOLLOWING_ERROR, Ob.Map.TORQUE_DEMAND, Ob.Map.TORQUE_ACTUAL,
   Ob.Map.ID_ACTUAL, Ob.Map.IQ_ACTUAL, Ob.Map.INTEGRAL]

/-- The rows of group Pos. -/
def Ob.Pos.rows : List Obj :=
  [Ob.Pos.ACTIVE_BANK, Ob.Pos.KP_POS, Ob.Pos.KVFF, Ob.Pos.KAFF,
   Ob.Pos.KP_VEL, Ob.Pos.KI_VEL, Ob.Pos.KD_VEL, Ob.Pos.TD_VEL,
   Ob.Pos.I_LIM_POS, Ob.Pos.I_LIM_NEG, Ob.Pos.K_AW, Ob.Pos.BQ_ENABLE,
   Ob.Pos.BQ_B0, Ob.Pos.BQ_B1, Ob.Pos.BQ_B2, Ob.Pos.BQ_A1,
   Ob.Pos.BQ_A2, Ob.Pos.VEL_SOURCE, Ob.Pos.VEL_FILTER_TC, Ob.Pos.D_SOURCE,
   Ob.Pos.TORQUE_LIM_POS, Ob.Pos.TORQUE_LIM_NEG]

/-- The rows of group Cur. -/
def Ob.Cur.rows : List Obj :=
  [Ob.Cur.ELEC_PER_UNIT, Ob.Cur.ANGLE_OFFSET, Ob.Cur.KP_CUR, Ob.Cur.KI_CUR,
   Ob.Cur.I_MAX, Ob.Cur.ID_REF, Ob.Cur.V_LIMIT, Ob.Cur.LD_DEC,
   Ob.Cur.LQ_DEC, Ob.Cur.ANGLE_ADVANCE, Ob.Cur.SUM_LIMIT, Ob.Cur.SUM_REACTION,
   Ob.Cur.FE_WARN_LIMIT, Ob.Cur.FE_LIMIT, Ob.Cur.FE_TIME, Ob.Cur.FE_REACTION,
   Ob.Cur.FOLLOW_SOURCE, Ob.Cur.FOLLOW_SELECT, Ob.Cur.FOLLOW_KIND, Ob.Cur.FOLLOW_SCALE,
   Ob.Cur.FOLLOW_OFFSET, Ob.Cur.FOLLOW_OFFSET_V, Ob.Cur.FOLLOW_TC, Ob.Cur.FOLLOW_ALIGN,
   Ob.Cur.FOLLOW_LOSS, Ob.Cur.FOLLOW_ENTRY, Ob.Cur.FOLLOW_INPUT]

/-- The rows of group Ctl. -/
def Ob.Ctl.rows : List Obj :=
  [Ob.Ctl.CONTROL, Ob.Ctl.STATE_WORD, Ob.Ctl.FAULT_CODE, Ob.Ctl.STOP_CAUSE,
   Ob.Ctl.FAULT_SET, Ob.Ctl.MODE, Ob.Ctl.ACTIVE_MODE, Ob.Ctl.MOVE,
   Ob.Ctl.START_AT, Ob.Ctl.DISABLE_STOP, Ob.Ctl.TARGET_POSITION, Ob.Ctl.RELATIVE,
   Ob.Ctl.TARGET_VELOCITY, Ob.Ctl.JOG_VELOCITY, Ob.Ctl.V_MAX, Ob.Ctl.A_MAX,
   Ob.Ctl.D_MAX, Ob.Ctl.J_MAX, Ob.Ctl.QSTOP_DEC, Ob.Ctl.QSTOP_JERK]

/-- The rows of group Lim. -/
def Ob.Lim.rows : List Obj :=
  [Ob.Lim.SOFT_LIMIT_ENABLE, Ob.Lim.SOFT_LIMIT_POS, Ob.Lim.SOFT_LIMIT_NEG, Ob.Lim.SOFT_LIMIT_REACTION,
   Ob.Lim.LIMIT_POS_SOURCE, Ob.Lim.LIMIT_NEG_SOURCE, Ob.Lim.LIMIT_LEVEL, Ob.Lim.LIMIT_REACTION,
   Ob.Lim.LIMIT_RELEASE, Ob.Lim.LIMIT_TRIP_POS, Ob.Lim.LIMIT_CHATTER, Ob.Lim.QSTOP_TORQUE,
   Ob.Lim.HARD_TORQUE, Ob.Lim.STANDSTILL_VEL, Ob.Lim.STANDSTILL_TIME, Ob.Lim.STOP_TIMEOUT,
   Ob.Lim.ARM_DELAY, Ob.Lim.ARM_TIMEOUT]

/-- The rows of group Home. -/
def Ob.Home.rows : List Obj :=
  [Ob.Home.HOME_METHOD, Ob.Home.HOME_DIR, Ob.Home.HOME_SOURCE, Ob.Home.SEARCH_VEL,
   Ob.Home.CREEP_VEL, Ob.Home.HOME_ACC, Ob.Home.HOME_POSITION, Ob.Home.REVERSE_ON_LIMIT,
   Ob.Home.HOME_TIMEOUT, Ob.Home.HOME_STATE, Ob.Home.HOME_EDGE, Ob.Home.HOME_SHIFT]

/-- The rows of group Gear. -/
def Ob.Gear.rows : List Obj :=
  [Ob.Gear.MASTER, Ob.Gear.SYNC_ALIGN, Ob.Gear.SYNC_OFFSET, Ob.Gear.MASTER_LOSS,
   Ob.Gear.RATIO_NUM, Ob.Gear.RATIO_DEN, Ob.Gear.NEXT_NUM, Ob.Gear.NEXT_DEN,
   Ob.Gear.CHANGE_AT, Ob.Gear.BLEND, Ob.Gear.CHANGE_ARM, Ob.Gear.CHANGE_STATE,
   Ob.Gear.ACTIVE_NUM, Ob.Gear.ACTIVE_DEN, Ob.Gear.CAM, Ob.Gear.CAM_MASTER_OFFSET,
   Ob.Gear.NEXT_CAM, Ob.Gear.SWITCH_AT, Ob.Gear.CAM_ARM, Ob.Gear.ACTIVE_CAM,
   Ob.Gear.SWITCH_STATE]

/-- The rows of group Mach. -/
def Ob.Mach.rows : List Obj :=
  [Ob.Mach.STOP_REQUEST, Ob.Mach.STOP_ACTIVE, Ob.Mach.STOP_CLEAR, Ob.Mach.STOP_SESSION,
   Ob.Mach.STOP_COUNT, Ob.Mach.CAM_SEGMENTS_USED]

/-- The rows of group Mst. -/
def Ob.Mst.rows : List Obj :=
  [Ob.Mst.TYPE, Ob.Mst.SOURCE, Ob.Mst.UNIT_NUM, Ob.Mst.UNIT_DEN,
   Ob.Mst.PERIOD, Ob.Mst.LEAD, Ob.Mst.POSITION, Ob.Mst.VELOCITY,
   Ob.Mst.STATE, Ob.Mst.VM_VELOCITY, Ob.Mst.VM_ACC, Ob.Mst.VM_JERK,
   Ob.Mst.VM_STOP_DEC, Ob.Mst.VM_QSTOP_DEC, Ob.Mst.VM_CHANGE_AT]

/-- The rows of group Cam. -/
def Ob.Cam.rows : List Obj :=
  [Ob.Cam.SEGMENTS, Ob.Cam.PERIOD, Ob.Cam.COEF_SHIFT, Ob.Cam.TOLERANCE,
   Ob.Cam.RISE, Ob.Cam.SEGMENT_COUNT, Ob.Cam.FIRST_SEGMENT, Ob.Cam.USERS]

/-- The rows of group AxFb. -/
def Ob.AxFb.rows : List Obj :=
  [Ob.AxFb.FB_SOURCE, Ob.AxFb.FB_UNIT, Ob.AxFb.FB_COUNTS, Ob.AxFb.FB_UNITS,
   Ob.AxFb.FB_INVERT, Ob.AxFb.FB_WORKER_ABS, Ob.AxFb.MAX_COUNT_RATE, Ob.AxFb.ABS_OFFSET,
   Ob.AxFb.FB_HOLD_LIMIT, Ob.AxFb.FB_REACTION, Ob.AxFb.EXT_COUNT, Ob.AxFb.POS_OFFSET,
   Ob.AxFb.FB_STATE, Ob.AxFb.FB_AGE, Ob.AxFb.EXT_UNCERTAIN, Ob.AxFb.SPEED_EST,
   Ob.AxFb.INVALID_COUNT]

/-- The rows of group Fb. -/
def Ob.Fb.rows : List Obj :=
  [Ob.Fb.MODE, Ob.Fb.FILTER_LEN, Ob.Fb.ILLEGAL_LIMIT, Ob.Fb.ILLEGAL_WINDOW,
   Ob.Fb.INDEX_GATE, Ob.Fb.SPEED_SPAN, Ob.Fb.STANDSTILL_SPAN, Ob.Fb.ABS_CLOCK_DIV,
   Ob.Fb.ABS_BITS, Ob.Fb.ABS_FORMAT, Ob.Fb.ABS_STATUS_MASK, Ob.Fb.SAMPLE_DELAY,
   Ob.Fb.RECOVERY, Ob.Fb.ABS_CHECK_PERIOD, Ob.Fb.ABS_TOL, Ob.Fb.ABS_ERR_LIMIT,
   Ob.Fb.ABS_JUMP_MAX, Ob.Fb.COUNT, Ob.Fb.ABS_WORD, Ob.Fb.SPEED,
   Ob.Fb.UNIT_STATUS, Ob.Fb.ILLEGAL_COUNT, Ob.Fb.ABS_ERR_COUNT, Ob.Fb.ABS_ERR_CODE,
   Ob.Fb.CLEAR_FAULT]

/-- The rows of group FbMe. -/
def Ob.FbMe.rows : List Obj :=
  [Ob.FbMe.MODE, Ob.FbMe.FILTER_LEN, Ob.FbMe.ILLEGAL_LIMIT, Ob.FbMe.ILLEGAL_WINDOW,
   Ob.FbMe.INDEX_GATE, Ob.FbMe.SPEED_SPAN, Ob.FbMe.STANDSTILL_SPAN, Ob.FbMe.ABS_CLOCK_DIV,
   Ob.FbMe.ABS_BITS, Ob.FbMe.ABS_FORMAT, Ob.FbMe.ABS_STATUS_MASK, Ob.FbMe.SAMPLE_DELAY,
   Ob.FbMe.RECOVERY, Ob.FbMe.ABS_CHECK_PERIOD, Ob.FbMe.ABS_TOL, Ob.FbMe.ABS_ERR_LIMIT,
   Ob.FbMe.ABS_JUMP_MAX, Ob.FbMe.COUNT, Ob.FbMe.ABS_WORD, Ob.FbMe.SPEED,
   Ob.FbMe.UNIT_STATUS, Ob.FbMe.ILLEGAL_COUNT, Ob.FbMe.ABS_ERR_COUNT, Ob.FbMe.ABS_ERR_CODE,
   Ob.FbMe.CLEAR_FAULT]

/-- The rows of group Lat. -/
def Ob.Lat.rows : List Obj :=
  [Ob.Lat.TRIGGER, Ob.Lat.EDGE, Ob.Lat.POS_SOURCE, Ob.Lat.MODE,
   Ob.Lat.ARM, Ob.Lat.WINDOW_ENABLE, Ob.Lat.WINDOW_LO, Ob.Lat.WINDOW_HI,
   Ob.Lat.WINDOW_PERIOD, Ob.Lat.EVENTS, Ob.Lat.ACK, Ob.Lat.STATE,
   Ob.Lat.MISSED, Ob.Lat.LOST]

/-- The rows of group Cmp. -/
def Ob.Cmp.rows : List Obj :=
  [Ob.Cmp.POS_SOURCE, Ob.Cmp.TARGET, Ob.Cmp.DIRECTION, Ob.Cmp.START_COUNT,
   Ob.Cmp.START_FRAC, Ob.Cmp.PITCH, Ob.Cmp.WIDTH, Ob.Cmp.POLARITY,
   Ob.Cmp.ANCHOR_LATCH, Ob.Cmp.ANCHOR_OFFSET, Ob.Cmp.ARM, Ob.Cmp.DISARM,
   Ob.Cmp.CORRECTION, Ob.Cmp.NEXT_COUNT, Ob.Cmp.NEXT_FRAC, Ob.Cmp.STATE,
   Ob.Cmp.HITS, Ob.Cmp.LAST_HIT_TIME, Ob.Cmp.SKIPPED, Ob.Cmp.MERGED,
   Ob.Cmp.LATE, Ob.Cmp.UNREACHED]

/-- The rows of group Bind. -/
def Ob.Bind.rows : List Obj :=
  [Ob.Bind.LATCH_UNIT, Ob.Bind.COMPARE_UNIT, Ob.Bind.LATCH_POSITION, Ob.Bind.LATCH_TIME]

/-- The rows of group AceC. -/
def Ob.AceC.rows : List Obj :=
  [Ob.AceC.INT_MODE, Ob.AceC.EXC_COUNT, Ob.AceC.LAST_EXC, Ob.AceC.USER_CODE_USED,
   Ob.AceC.USER_DATA_USED]

/-- The rows of group Ub. -/
def Ob.Ub.rows : List Obj :=
  [Ob.Ub.CODE, Ob.Ub.DATA, Ob.Ub.ENTRY, Ob.Ub.POINT,
   Ob.Ub.DECLARED_TIME, Ob.Ub.STATE_SIZE, Ob.Ub.AXES, Ob.Ub.RESET_ON_ARM,
   Ob.Ub.NAME, Ob.Ub.CODE_ADDR, Ob.Ub.DATA_ADDR, Ob.Ub.EXEC_MAX,
   Ob.Ub.EXCEPTIONS, Ob.Ub.TIME_ABORTS]

/-- The rows of group Disp. -/
def Ob.Disp.rows : List Obj :=
  [Ob.Disp.DISPATCHED, Ob.Disp.COMPLETED, Ob.Disp.VOIDED, Ob.Disp.CANCELLED,
   Ob.Disp.BP_EVENTS, Ob.Disp.BP_UNDONE, Ob.Disp.POOL_DEPTH_MAX, Ob.Disp.CLEAR]

/-- The rows of group Eng. -/
def Ob.Eng.rows : List Obj :=
  [Ob.Eng.STATE, Ob.Eng.ITEMS_LAST, Ob.Eng.BUSY_LAST, Ob.Eng.LOAD_LAST,
   Ob.Eng.LOAD_MAX, Ob.Eng.QUEUE_DEPTH_MAX, Ob.Eng.WAIT_MAX, Ob.Eng.WAIT_MEAN_LAST,
   Ob.Eng.FREE_WINDOW_LAST, Ob.Eng.SERVICE_BUSY_LAST]

/-- The rows of group Port. -/
def Ob.Port.rows : List Obj :=
  [Ob.Port.FUNCTION, Ob.Port.STATUS, Ob.Port.TRIP_FILTER, Ob.Port.TRIP_STATE,
   Ob.Port.TRIP_CLEAR, Ob.Port.TRIP_FORCE, Ob.Port.TRIP_CAUSE, Ob.Port.TRIP_COUNT,
   Ob.Port.LOAD_MISS]

/-- The rows of group Pwm. -/
def Ob.Pwm.rows : List Obj :=
  [Ob.Pwm.COUNT_MODE, Ob.Pwm.SYNC_SOURCE, Ob.Pwm.SYNC_PHASE, Ob.Pwm.DT_HL,
   Ob.Pwm.DT_LH, Ob.Pwm.MIN_PULSE, Ob.Pwm.OUT_POLARITY, Ob.Pwm.DITHER,
   Ob.Pwm.SERVO_PERIOD, Ob.Pwm.PERIOD_SHADOW, Ob.Pwm.CMP_SHADOW, Ob.Pwm.LOAD_ALL,
   Ob.Pwm.PERIOD_ACTIVE, Ob.Pwm.CMP_ACTIVE, Ob.Pwm.PERIODS, Ob.Pwm.LOAD_ALL_MASK]

/-- The rows of group Sd. -/
def Ob.Sd.rows : List Obj :=
  [Ob.Sd.SD_CLK_MODE, Ob.Sd.SD_CLK_DIV, Ob.Sd.SD_OSR, Ob.Sd.SD_AVG,
   Ob.Sd.SD_STUCK_LEN, Ob.Sd.SD_PHASES, Ob.Sd.SD_OFFSET, Ob.Sd.SD_GAIN,
   Ob.Sd.OC_OSR, Ob.Sd.OC_LIMIT, Ob.Sd.SD_VALUE]

/-- The rows of group Step. -/
def Ob.Step.rows : List Obj :=
  [Ob.Step.STEP_COUNTS, Ob.Step.STEP_UNITS, Ob.Step.STEP_INVERT, Ob.Step.STEP_WIDTH,
   Ob.Step.DIR_SETUP, Ob.Step.STEP_POSITION, Ob.Step.STEP_TARGET, Ob.Step.RATE_LIMIT_COUNT,
   Ob.Step.STEP_IN_ENABLE, Ob.Step.STEP_IN_FILTER, Ob.Step.STEP_IN_EDGE, Ob.Step.STEP_IN_SPAN,
   Ob.Step.STEP_IN_STANDSTILL, Ob.Step.STEP_IN_COUNT, Ob.Step.STEP_IN_POSITION]

/-- The rows of group Die. -/
def Ob.Die.rows : List Obj :=
  [Ob.Die.LINK_STATE, Ob.Die.SUPPLY_STATE, Ob.Die.VF, Ob.Die.DIE_TEMP,
   Ob.Die.RESTORE_MODE, Ob.Die.RESTORE, Ob.Die.INPUTS, Ob.Die.INPUT_VALID,
   Ob.Die.BAD_UP, Ob.Die.BAD_DOWN, Ob.Die.LINK_LOSS_COUNT, Ob.Die.RECORD_DELAY_MAX]

/-- The rows of group Inp. -/
def Ob.Inp.rows : List Obj :=
  [Ob.Inp.DEBOUNCE, Ob.Inp.OPEN_DETECT, Ob.Inp.STATE, Ob.Inp.OPEN,
   Ob.Inp.EDGES]

/-- The rows of group Outp. -/
def Ob.Outp.rows : List Obj :=
  [Ob.Outp.OUT_VALUE, Ob.Outp.OPEN_DETECT, Ob.Outp.PAIRED, Ob.Outp.TIMED,
   Ob.Outp.DIAG, Ob.Outp.LOAD_CURRENT, Ob.Outp.OUT_ACK, Ob.Outp.EDGE_LATE]

/-- The rows of group Brk. -/
def Ob.Brk.rows : List Obj :=
  [Ob.Brk.HS_ON, Ob.Brk.LS_ON, Ob.Brk.RB_H, Ob.Brk.RB_L,
   Ob.Brk.MISMATCH, Ob.Brk.MISMATCH_COUNT]

/-- The rows of group Isl. -/
def Ob.Isl.rows : List Obj :=
  [Ob.Isl.RF_STATE, Ob.Isl.SAFE_STATE, Ob.Isl.SAFETY_CRC, Ob.Isl.LAST_CAUSE,
   Ob.Isl.RECOVERY_COUNT, Ob.Isl.SAFETY_ACK, Ob.Isl.SAFETY_LOGIN, Ob.Isl.SAFETY_LOGOUT,
   Ob.Isl.NEW_PASSWORD, Ob.Isl.SAFETY_SESSION, Ob.Isl.SESSION_TIMEOUT, Ob.Isl.FACTORY_PASSWORD,
   Ob.Isl.FAILED_ATTEMPTS, Ob.Isl.LOCKOUT_LEFT, Ob.Isl.LOG, Ob.Isl.LOG_NEXT_SEQ,
   Ob.Isl.LOG_EXPORTED, Ob.Isl.UNEXPORTED, Ob.Isl.LOG_STATE, Ob.Isl.EVENTS_DROPPED]

/-- The rows of group Si. -/
def Ob.Si.rows : List Obj :=
  [Ob.Si.SI_ENABLE, Ob.Si.DISCREPANCY, Ob.Si.GROUP_MASK, Ob.Si.SI_DELAY,
   Ob.Si.SI_RESTART, Ob.Si.SI_STATE, Ob.Si.DISC_COUNT]

/-- The rows of group AxS. -/
def Ob.AxS.rows : List Obj :=
  [Ob.AxS.SAFETY_GROUP, Ob.AxS.BRAKE, Ob.AxS.BRAKE_CHANNEL, Ob.AxS.HOLD_LOAD,
   Ob.AxS.TEST_FACTOR, Ob.AxS.TEST_INTERVAL, Ob.AxS.TEST_GRACE, Ob.AxS.MAX_SLIP,
   Ob.AxS.ENGAGE_TIME, Ob.AxS.BT_START, Ob.AxS.BT_STATE, Ob.AxS.BT_LAST,
   Ob.AxS.BT_DUE, Ob.AxS.BT_SLIP, Ob.AxS.SBC_STATE, Ob.AxS.SBC_RESET,
   Ob.AxS.SAFE_DEMAND]

/-- The rows of group WkS. -/
def Ob.WkS.rows : List Obj :=
  [Ob.WkS.SAFETY_ID, Ob.WkS.SSF_STATE, Ob.WkS.SSF_ERR, Ob.WkS.SSF_WSTATE]

/-- The rows of group PairC. -/
def Ob.PairC.rows : List Obj :=
  [Ob.PairC.PAIR_ENABLE, Ob.PairC.UNIT_END, Ob.PairC.PAIR_PRIORITY, Ob.PairC.PAIR_WAIT,
   Ob.PairC.RESYNC_CONFIRM, Ob.PairC.DRILL_LEAD]

/-- The rows of group Pair. -/
def Ob.Pair.rows : List Obj :=
  [Ob.Pair.ROLE, Ob.Pair.PAIR_STATE, Ob.Pair.PARTNER_SERIAL, Ob.Pair.ELIGIBLE,
   Ob.Pair.SWITCH_COUNT, Ob.Pair.LAST_TRIGGER, Ob.Pair.LAST_SWITCH_TIME, Ob.Pair.LAST_GAP,
   Ob.Pair.TAKEOVER_BLOCKED, Ob.Pair.DIVERGE_INPUT, Ob.Pair.DIVERGE_TIMING, Ob.Pair.DIVERGE_COMPUTE,
   Ob.Pair.LAST_DIVERGE_CYCLE, Ob.Pair.LAST_DIVERGE_RING]

/-- The rows of group PairX. -/
def Ob.PairX.rows : List Obj :=
  [Ob.PairX.PAIR, Ob.PairX.DRILL, Ob.PairX.DRILL_STATE, Ob.PairX.DRILL_AT,
   Ob.PairX.LAST_DRILL, Ob.PairX.DRILL_COUNT, Ob.PairX.SPLIT_STATE, Ob.PairX.SPLIT_AT,
   Ob.PairX.HEAL, Ob.PairX.SPLIT_MARGIN]

/-- The rows of group PairB. -/
def Ob.PairB.rows : List Obj :=
  [Ob.PairB.BRAKE_PAIRED]

/-- The rows of group Pow. -/
def Ob.Pow.rows : List Obj :=
  [Ob.Pow.POWER_STATE, Ob.Pow.POWER_REQUEST, Ob.Pow.WAKE_AT, Ob.Pow.WAKE_SOURCE,
   Ob.Pow.PLL_LOCK, Ob.Pow.ACE_POWER, Ob.Pow.GATE_IDLE, Ob.Pow.WAKE_COUNT]

/-- The rows of group Mbx. -/
def Ob.Mbx.rows : List Obj :=
  [Ob.Mbx.POSTS, Ob.Mbx.ACKED, Ob.Mbx.TIMEOUTS, Ob.Mbx.DROPPED,
   Ob.Mbx.ORPHANS, Ob.Mbx.CROSSES, Ob.Mbx.REFUSED, Ob.Mbx.PENDING]

/-- The rows of group Cnt. -/
def Ob.Cnt.rows : List Obj :=
  [Ob.Cnt.USER_READ, Ob.Cnt.SAMPLES, Ob.Cnt.SAMPLES_LOST, Ob.Cnt.SAMPLE_CLEAR,
   Ob.Cnt.CLEAR_COUNTERS]

/-- The rows of group Core. -/
def Ob.Core.rows : List Obj :=
  [Ob.Core.CYCLE, Ob.Core.PMC, Ob.Core.PMC_CFG, Ob.Core.SAMPLE_PERIOD,
   Ob.Core.SLOT_COUNTS]

/-- The rows of group CoreMc. -/
def Ob.CoreMc.rows : List Obj :=
  [Ob.CoreMc.CYCLE, Ob.CoreMc.PMC, Ob.CoreMc.PMC_CFG]

/-- The rows of group Capt. -/
def Ob.Capt.rows : List Obj :=
  [Ob.Capt.CAP_MODE, Ob.Capt.CLOCK, Ob.Capt.CLOCK_DIV, Ob.Capt.AVG_LOG2,
   Ob.Capt.PRE_SAMPLES, Ob.Capt.POST_SAMPLES, Ob.Capt.TRIG_KIND, Ob.Capt.TRIG_VALUE,
   Ob.Capt.TRIG_CARE, Ob.Capt.TRIG_EDGE, Ob.Capt.LEVEL_CHANNEL, Ob.Capt.LEVEL,
   Ob.Capt.LEVEL_DIR, Ob.Capt.TRIG_TIME, Ob.Capt.ARM, Ob.Capt.STATE,
   Ob.Capt.TRIGGER_INDEX, Ob.Capt.TRIGGER_TIME, Ob.Capt.OVERFLOW_INDEX, Ob.Capt.RECORDS_STORED,
   Ob.Capt.RECORD_BYTES, Ob.Capt.PRE_SHORT, Ob.Capt.START_TIME, Ob.Capt.CHANNEL_SRC]

/-- The rows of group CapPage. -/
def Ob.CapPage.rows : List Obj :=
  [Ob.CapPage.DATA]

/-- The rows of group Trc. -/
def Ob.Trc.rows : List Obj :=
  [Ob.Trc.TRACE_DEPTH, Ob.Trc.TRACE_ARM, Ob.Trc.TRACE_TRIGGER, Ob.Trc.TRACE_PRE,
   Ob.Trc.TRACE_STATE, Ob.Trc.TRACE_START_CYCLE, Ob.Trc.TRACE_TRIGGER_INDEX, Ob.Trc.UNDONE_LIST,
   Ob.Trc.UNDONE_OVER]

/-- The rows of group TrcSlot. -/
def Ob.TrcSlot.rows : List Obj :=
  [Ob.TrcSlot.AXIS, Ob.TrcSlot.NODE, Ob.TrcSlot.DATA]

/-- The rows of group Inj. -/
def Ob.Inj.rows : List Obj :=
  [Ob.Inj.INJ_AXIS, Ob.Inj.INJ_NODE, Ob.Inj.INJ_SIGNAL, Ob.Inj.INJ_AMPLITUDE,
   Ob.Inj.F_START, Ob.Inj.F_STOP, Ob.Inj.DURATION, Ob.Inj.PRBS_ORDER,
   Ob.Inj.PRBS_HOLD, Ob.Inj.INJ_GO, Ob.Inj.INJ_STOP, Ob.Inj.INJ_STATE,
   Ob.Inj.INJ_START_CYCLE]

/-- The rows of group Frf. -/
def Ob.Frf.rows : List Obj :=
  [Ob.Frf.FRF_IN_SLOT, Ob.Frf.FRF_OUT_SLOT, Ob.Frf.FRF_LOG2N, Ob.Frf.FRF_WINDOW,
   Ob.Frf.FRF_SEGMENTS, Ob.Frf.FRF_OFFSET, Ob.Frf.FRF_START, Ob.Frf.FRF_STATE,
   Ob.Frf.FRF_FAIL, Ob.Frf.FRF_RESULT]

/-- The rows of group Rst. -/
def Ob.Rst.rows : List Obj :=
  [Ob.Rst.RESET_CAUSE, Ob.Rst.RESET_UNIT, Ob.Rst.START_STATE, Ob.Rst.START_TIME,
   Ob.Rst.BOOT_SELECT, Ob.Rst.IMAGE_STATE_A, Ob.Rst.IMAGE_STATE_B, Ob.Rst.IMAGE_VERSION_A,
   Ob.Rst.IMAGE_VERSION_B, Ob.Rst.ROLLBACK_MIN, Ob.Rst.FW_UPLOAD, Ob.Rst.CONFIG_RESULT,
   Ob.Rst.UNKNOWN_RECORDS, Ob.Rst.RANGE_RECORDS, Ob.Rst.WATCHDOG_COUNT]

/-- The rows of group Therm. -/
def Ob.Therm.rows : List Obj :=
  [Ob.Therm.TJ, Ob.Therm.TJ_PEAK, Ob.Therm.TJ_WARN, Ob.Therm.THERMAL_STATE,
   Ob.Therm.RAIL_STATUS, Ob.Therm.CLEAR_TJ_PEAK]

/-- Part of the catalogue. -/
def catalogue1 : List Obj :=
  Ob.Cyc.rows ++ Ob.Sched.rows ++ Ob.Hud.rows ++ Ob.AxD.rows ++ Ob.Ring.rows ++
  Ob.Wk.rows ++ Ob.Clk.rows ++ Ob.Ptp.rows ++ Ob.Sby.rows ++ Ob.RTime.rows ++
  Ob.WkT.rows ++ Ob.Ttp.rows ++ Ob.TLat.rows ++ Ob.Ident.rows ++ Ob.Com.rows ++
  Ob.Sb.rows ++ Ob.Store.rows ++ Ob.Poss.rows ++ Ob.Sess.rows ++ Ob.Map.rows

/-- Part of the catalogue. -/
def catalogue2 : List Obj :=
  Ob.Pos.rows ++ Ob.Cur.rows ++ Ob.Ctl.rows ++ Ob.Lim.rows ++ Ob.Home.rows ++
  Ob.Gear.rows ++ Ob.Mach.rows ++ Ob.Mst.rows ++ Ob.Cam.rows ++ Ob.AxFb.rows ++
  Ob.Fb.rows ++ Ob.FbMe.rows ++ Ob.Lat.rows ++ Ob.Cmp.rows ++ Ob.Bind.rows ++
  Ob.AceC.rows ++ Ob.Ub.rows ++ Ob.Disp.rows ++ Ob.Eng.rows ++ Ob.Port.rows

/-- Part of the catalogue. -/
def catalogue3 : List Obj :=
  Ob.Pwm.rows ++ Ob.Sd.rows ++ Ob.Step.rows ++ Ob.Die.rows ++ Ob.Inp.rows ++
  Ob.Outp.rows ++ Ob.Brk.rows ++ Ob.Isl.rows ++ Ob.Si.rows ++ Ob.AxS.rows ++
  Ob.WkS.rows ++ Ob.PairC.rows ++ Ob.Pair.rows ++ Ob.PairX.rows ++ Ob.PairB.rows ++
  Ob.Pow.rows ++ Ob.Mbx.rows ++ Ob.Cnt.rows ++ Ob.Core.rows ++ Ob.CoreMc.rows ++
  Ob.Capt.rows ++ Ob.CapPage.rows ++ Ob.Trc.rows ++ Ob.TrcSlot.rows ++ Ob.Inj.rows ++
  Ob.Frf.rows ++ Ob.Rst.rows ++ Ob.Therm.rows

/-- Every row of the object tables (R103, R104). -/
def catalogue : List Obj := catalogue1 ++ catalogue2 ++ catalogue3

end Sys2Proof.Machine
end

