-- ==== Sys2Proof/Machine/Engines.lean ====
section
/-! DEFINITION. State of the Axis Compute Engines and of the mailbox endpoints: the data types
(spec/10_axis_compute_engines.md, 16_mailboxes_and_power.md). -/

namespace Sys2Proof.Machine

/-- Where a result of an operation goes when its latency has passed (R261, R265). -/
inductive Dest where
  | g (n : Nat)
  /-- The value of an accumulator as extractions see it. -/
  | acc (n : Nat)
  | p (n : Nat)
  | m (n : Nat)
  | l (n : Nat)
  | c (n : Nat)
  | spec (n : Nat)
  /-- A store of `w` bytes to the data SRAM. -/
  | mem (a w : Nat)
deriving DecidableEq, Repr

/-- A result in flight: the bundle count from which it is seen, the count and slot it was issued in (0 M, 1 A, 2 L), its
destination and value. -/
structure Fly where
  ready : Nat
  issued : Nat
  slot : Nat
  dest : Dest
  val : Int
deriving DecidableEq, Repr

/-- An outstanding XLD.D (R270): address and destination. -/
structure Xld where
  addr : Nat
  d : Nat
deriving DecidableEq, Repr

/-- A taken branch: the bundle count at which the target executes (R265). -/
structure BranchSt where
  at_ : Nat
  target : Nat
  reti : Bool := false
  /-- The branch is the RET that ends a user block's call. -/
  ret : Bool := false
deriving DecidableEq, Repr

/-- A call of a user block (R277): the block, entry values of p6, p7, LR and g16–g31, and the bundle count at entry. -/
structure UserCall where
  block : Nat
  point : Nat
  p6 : Nat
  p7 : Nat
  lr : Nat
  start : Nat
deriving DecidableEq, Repr

/-- The programmer's state of one ACE (R258 to R277, Tables 10-3 to 10-6). -/
structure AceRt where
  /-- General registers g0–g31 of 64 bits (R261, Table 10-3). -/
  g : SMap DWord := []
  /-- Accumulators as later accumulating operations see them, 96-bit signed. -/
  acc : SMap Int := []
  /-- Accumulators as extractions see them (R265). -/
  accSeen : SMap Int := []
  /-- Address registers p0–p7, modifiers m0–m7 and mode words l0–l7 of 32 bits (R261, R268). -/
  p : SMap Word := []
  m : SMap Word := []
  l : SMap Word := []
  /-- Predicates c1–c7 in bits 1–7; c0 reads 1. -/
  c : BitVec 8 := 0
  /-- Repeat registers of the outer and the inner loop, start, end and count (R271); LR, IPC (R273). -/
  ls0 : Nat := 0
  le0 : Nat := 0
  lc0 : Nat := 0
  ls1 : Nat := 0
  le1 : Nat := 0
  lc1 : Nat := 0
  lr : Nat := 0
  ipc : Nat := 0
  /-- STATUS (Table 10-4): LOOP_EN and IE are 1 at the start of every item. -/
  status : DWord := 0xC0
  /-- STATUS saved at an interrupt (R273); sticky FLAGS (Table 10-5). -/
  istat : DWord := 0
  flags : DWord := 0
  /-- Index of the next bundle, and the number of bundles issued so far. -/
  pc : Nat := 0
  n : Nat := 0
  /-- Results in flight, the branch taken and not yet reached (R265), outstanding XLD.D (R270). -/
  fly : List Fly := []
  branch : Option BranchSt := none
  xld : List Xld := []
  /-- Store buffer, oldest first (R270). -/
  sbuf : List (Nat × DWord) := []
  /-- Data SRAM (Table 10-2), in canonical form. -/
  mem : List Host.Cell := []
  /-- FRAME_B is the active frame (R259). -/
  frameB : Bool := false
  /-- The call of a user block in progress (R277). -/
  call : Option UserCall := none
  /-- Requests of the interrupt sources 0 DOORBELL, 1 PMU, 2 DEBUG (R272). -/
  irq : Nat := 0
  /-- Halted for the debugger (R264, BKPT). -/
  halted : Bool := false
  /-- Instant of the last exception's WARN event (R276). -/
  warnAt : Option Nat := none
  /-- The exception that the bundle in progress has raised (R276). -/
  exc : Option Nat := none
  /-- Counters (R404): CYCLE, PMC0–PMC7, and SLOT_RETIRED to SLOT_BACK (R406). -/
  cycle : Nat := 0
  pmc : SMap Nat := []
  /-- PMC_CFG words and SAMPLE_PERIOD in effect (R405). -/
  cfg : SMap Nat := []
  period : Nat := 0
  slots : SMap Nat := []
  /-- Slots executed and idle in the item in progress, credited when it ends (R406). -/
  itemDone : Nat := 0
  itemIdle : Nat := 0
  /-- Sampling counters that have overflowed and wait for the PMU handler (R407). -/
  ovf : List Nat := []
  /-- Operations executed in the bundle in progress: bits 0 M, 1 A, 2 L. -/
  ran : Nat := 0
  /-- Configuration changes that wait for an item boundary: counter, PMC_CFG; SAMPLE_PERIOD; clear (R405). -/
  cfgNext : List (Nat × Nat) := []
  periodNext : Option Nat := none
  clearNext : Bool := false
  /-- The engine is powered, its clock runs, and the instant its work ended (R15, R402). -/
  powered : Bool := true
  /-- A post to the gated engine has raised a wake event (R402). -/
  waking : Bool := false
  /-- The instant its work ended (R402). -/
  idleFrom : Nat := 0
  /-- Instant up to which GATED has been counted (Table 17-2). -/
  gatedAt : Nat := 0
deriving DecidableEq, Repr

/-- A post whose sender waits (R389, R393). -/
structure PostSt where
  /-- DEST and REMOTE of the post, the instant its wait ends, and whether it crossed another or was delivered (R391, R393, R396). -/
  dest : Nat
  remote : Nat
  deadline : Nat
  crossed : Bool := false
  delivered : Bool := true
  /-- Words of a post to the partner that waits for the bench link (R398). -/
  words : List Word := []
deriving DecidableEq, Repr

/-- A mailbox endpoint (Tables 16-2 to 16-5): registers, slots, the post in progress. -/
structure Endpoint where
  /-- OUT_MSG0–OUT_MSG15, OUT_CTRL, OUT_STATUS; IN_PENDING, IN_ORPHAN, IN_CTRL, and the fifteen slots of IN_MSG (R388, R389). -/
  out : SMap Word := []
  ctrl : Word := 0
  status : Word := 0
  pending : Nat := 0
  orphan : Nat := 0
  dbEn : Bool := false
  slots : SMap Word := []
  post : Option PostSt := none
deriving DecidableEq, Repr

end Sys2Proof.Machine
end

