-- ==== Sys2Proof/Machine/FieldState.lean ====
section
/-! DEFINITION. State of the field I/O die and its barrier link, and of the time base: network time, pulses, time latches; the
data types (spec/13_field_io.md, 04_time_base.md). -/

namespace Sys2Proof.Machine

/-- A field input FI on the die (R328, R329): accepted level, OPEN, and the instant its DEBOUNCE completes after inputs were invalid. -/
structure FieldIn where
  level : Bool := false
  openIn : Bool := false
  validAt : Nat := 0
deriving DecidableEq, Repr

/-- A field output FQ on the die (R325, R327, R332): driven or high impedance, its level, the latched code of Table 13-6, OPEN_LOAD,
an OUT_ACK that acts from the next frame, and the timed edges that wait in the die. -/
structure FieldOut where
  driven : Bool := false
  level : Bool := false
  latched : Nat := 0
  openLoad : Bool := false
  acked : Bool := false
  edges : List (Nat × Bool) := []
deriving DecidableEq, Repr

/-- A brake channel's readback on the die (R334): RB_H and RB_L in 10 mV, mismatch. -/
structure BrakeIn where
  rbH : Nat := 0
  rbL : Nat := 0
  mismatch : Bool := false
deriving DecidableEq, Repr

/-- The barrier link and the field die (R319 to R336). -/
structure FieldRt where
  /-- Head: SEQ of the next downstream frame, slots since the last TIME record, the edge queue (time, output, level), SAFE_REQ. -/
  seqDown : Nat := 0
  /-- FQ_LEVEL as sent in the last frame (R410). -/
  fqSent : Nat := 0
  sinceTime : Nat := 1024
  edges : List (Nat × Nat × Bool) := []
  safeReq : Bool := true
  /-- Head: SEQ and slot of the last good upstream frame, runs of bad and good frames, accepted levels of the last good frame. -/
  upLast : Option (Nat × Nat) := none
  upBad : Nat := 0
  upGood : Nat := 0
  fi : Nat := 0
  /-- Head: a LATCH_TIME record that waits for its LATCH_POS: latch unit, falling edge, instant. -/
  latchTime : Option (Nat × Bool × Nat) := none
  /-- Head: PAIRED_DRIVE as sent in the last frame. -/
  pairedDrive : Bool := false
  /-- Die: SEQ and slot of the last good downstream frame, runs of bad and good frames, bad frames in all. -/
  downLast : Option (Nat × Nat) := none
  downBad : Nat := 0
  downGood : Nat := 0
  downBadAll : Nat := 0
  /-- Die: levels of the last good frame (FQ_LEVEL, FB_HS, FB_LS, PAIRED_DRIVE, SAFE_REQ), its start, and whether they have switched. -/
  fqLevel : Nat := 0
  fbHs : Nat := 0
  fbLs : Nat := 0
  paired : Bool := false
  pairedFrom : Nat := 0
  reqSeen : Bool := false
  frameAt : Nat := 0
  switched : Bool := true
  /-- Die: safe state; outputs off until RESTORE (COMMAND mode). -/
  safe : Bool := true
  held : Bool := false
  /-- Die: SEQ of the next upstream frame, records that wait, oldest first (kind, 48 bits), frames since the last STATUS. -/
  seqUp : Nat := 0
  recs : List (Nat × Nat) := []
  sinceStatus : Nat := 64
  /-- Die: an ME_SAMPLE is due, with the counters latched at the whistle. -/
  meDue : Bool := false
  meLow : List Nat := []
  /-- Die: instant of the last BRAKE_RB of all channels. -/
  brakeAt : Nat := 0
  ins : SMap FieldIn := []
  outs : SMap FieldOut := []
  brakes : SMap BrakeIn := []
  /-- Die: brake control outputs as they stand, and the instant they last changed. -/
  hs : Nat := 0
  ls : Nat := 0
  brakesAt : Nat := 0
  /-- Die: SUPPLY_STATE, VF in 10 mV, temperature in °C. -/
  supply : Nat := 0
  vf : Nat := 0
  temp : Int := 0
deriving DecidableEq, Repr

/-- A time-triggered pulse channel (R99, R100): first rising edge and period in 2⁻¹⁶ ns, width, pulse index, output in its pulse,
stop asked for. -/
structure TtpRt where
  start : Nat := 0
  period : Nat := 0
  width : Nat := 0
  k : Nat := 0
  high : Bool := false
  stopping : Bool := false
deriving DecidableEq, Repr

/-- A time latch (R101): stamps with edge and sequence, oldest first; next sequence; the last stamp taken. -/
structure TLatRt where
  fifo : List (Nat × Bool × Nat) := []
  seqNo : Nat := 0
  last : Option (Nat × Bool) := none
deriving DecidableEq, Repr

/-- The grandmaster data of an Announce message (R96). -/
structure PtpDs where
  priority1 : Nat
  quality : Nat
  priority2 : Nat
  identity : Nat
  steps : Nat
deriving DecidableEq, Repr

/-- Network time (R96 to R98). Instants of the grandmaster and offsets are in ns of time of day. -/
structure PtpRt where
  gm : Option PtpDs := none
  /-- Port and source port identity of the grandmaster's messages. -/
  parent : Nat × Nat := (0, 0)
  /-- Instant of the last Announce sent as master. -/
  sentAt : Option Nat := none
  /-- Sequence number of the last valid Sync (R98). -/
  lastSeq : Option Nat := none
  announceAt : Nat := 0
  /-- Announce interval of the grandmaster, in ns, as its messages give it. -/
  interval : Nat := 2000000000
  /-- This clock acts as master. -/
  master : Bool := false
  seqNo : Nat := 0
  /-- A two-step Sync that waits for its Follow_Up: sequence, local time of day at reception. -/
  sync : Option (Nat × Int) := none
  /-- t2 − t1 of the last valid Sync, and the Delay_Req in flight: sequence, local time of day at transmission. -/
  msDiff : Option Int := none
  delayReq : Option (Nat × Int) := none
  delayAt : Nat := 0
  /-- Offsets of the exchanges before the step; the last offsets after it, newest first. -/
  first : List Int := []
  offsets : List Int := []
  lockRun : Nat := 0
  lastSync : Nat := 0
  boundSince : Option Nat := none
  /-- Changes of RATE_ADJ within the last second: instant and value before. -/
  rates : List (Nat × Int) := []
  /-- Two-step Syncs forwarded by the transparent clock: source, sequence, residence, instant (R97). -/
  tc : List (Nat × Nat × Nat × Nat) := []
deriving DecidableEq, Repr

/-- The time base beside machine time itself. -/
structure TimeRt where
  /-- TOD_OFFSET in 2⁻¹⁶ ns (R80). -/
  todOff : Int := 0
  ptp : PtpRt := {}
  ttps : SMap TtpRt := []
  tlats : SMap TLatRt := []
  /-- Levels of TP_OUT0–TP_OUT3. -/
  tpOut : Nat := 0
  /-- Crosschecks beyond ±5 ns in a row, per ring (R95). -/
  cross : List Nat := [0, 0, 0, 0]
  /-- The active unit's segment table as the bench link copied it (R95): forward delay of segment g and forward residence of position p of ring r, under
  key 128·r + g or p. -/
  segD : SMap Int := []
  segF : SMap Int := []
  /-- The pairing step of machine time has been taken (R94). -/
  stepTaken : Bool := false
deriving DecidableEq, Repr

end Sys2Proof.Machine
end

