-- ==== Sys2Proof/Machine/ObsState.lean ====
section
/-! DEFINITION. State of capture, trace, injection and frequency response, and of the safety island: the data types
(spec/17_observability_and_tuning.md, 14_safety.md). -/

namespace Sys2Proof.Machine

/-- The configuration of a capture, frozen at ARM (R415). -/
structure CapCfg where
  stream : Bool
  whistle : Bool
  div : Nat
  avg : Nat
  pre : Nat
  post : Nat
  kind : Nat
  value : Nat
  care : Nat
  edge : Bool
  lvlCh : Nat
  level : Int
  above : Bool
  time : Nat
  srcs : List Nat
deriving DecidableEq, Repr

/-- A capture (R410 to R415): its configuration, the instant of ARM, ticks since ARM, sums of the interval in progress, the last match and level, the
index of the triggering record, records newest first (number kept from index 0), whistles since the last tick. -/
structure CapRt where
  cfg : Option CapCfg := none
  armedAt : Nat := 0
  ticks : Nat := 0
  sums : List Int := []
  matched : Bool := false
  level : Option Int := none
  trig : Option Nat := none
  recs : List (List Byte) := []
  whistles : Nat := 0
  /-- Instant of the last tick, of ARM before the first. -/
  last : Nat := 0
deriving DecidableEq, Repr

/-- A trace (R416, R417): depth, trigger and pre-trigger length as they stood at TRACE_ARM, the instant of the arming, samples of every
slot with their undone marks and the cycles of the samples, newest first, the index of the trigger. -/
structure TrcRt where
  depth : Nat := 0
  trigger : Nat := 0
  pre : Nat := 0
  armedAt : Nat := 0
  data : SMap (List (Int × Bool)) := []
  cycles : List Nat := []
  trig : Option Nat := none
deriving DecidableEq, Repr

/-- Injection (R418, R419): running, its start whistle. -/
structure InjRt where
  on : Bool := false
  t0 : Nat := 0
deriving DecidableEq, Repr

/-- Observability. `frf`: FRF_FAIL and the result of the computation in progress (R420). -/
structure ObsRt where
  frf : Option (Nat × List Byte) := none
  cap : CapRt := {}
  trc : TrcRt := {}
  inj : InjRt := {}
deriving DecidableEq, Repr

/-- A safety input pair (R351 to R353). -/
structure SiRt where
  /-- The channels agreed at the last sample; beginning of a disagreement. -/
  agreed : Bool := true
  since : Option Nat := none
  /-- Clearing of a DISCREPANCY: 0 none, 1 decided, 2 both have demanded, 3 both have been clear. -/
  clear : Nat := 0
  /-- The pair demands or its demand is held for SAFETY_ACK; instant at which SAFE_DEMAND is to be set with SI_DELAY. -/
  demand : Bool := false
  at_ : Option Nat := none
  /-- SAFE_DEMAND stands for the pair's groups. -/
  set : Bool := false
deriving DecidableEq, Repr

/-- The brake of an axis (R344 to R346): paths as the core sets them, and the instant of a second switch. -/
structure SbcRt where
  pathA : Bool := false
  pathB : Bool := false
  stagger : Option Nat := none
  /-- The switch under way is a release. -/
  closing : Bool := false
  fault : Bool := false
  /-- The axis's request for release as it stood at the previous whistle of LOCAL_RING (R17). -/
  asked : Bool := false
  /-- Instant at which a paired channel's readback last showed the brake released (R379). -/
  seenFree : Option Nat := none
deriving DecidableEq, Repr

/-- A worker position's safety answers (R348). -/
structure SsfRt where
  bad : Nat := 0
  demand : Bool := false
  /-- Bytes of the last valid answer. -/
  applied : Nat := 0
  rbErr : Nat := 0
  wstate : Nat := 0
deriving DecidableEq, Repr

/-- A brake test in progress (R355 to R357). -/
structure BtRt where
  axis : Nat
  t0 : Nat
  x0 : Option Int := none
  slip : Int := 0
  /-- CONTROL.ENABLE, STOP_COUNT at the start of the test. -/
  enable : Bool := false
  stops : Int := 0
  /-- Largest TORQUE_ACTUAL of the two holds, in Q1.31. -/
  maxPos : Int := 0
  maxNeg : Int := 0
  /-- The test enabled a DISABLED axis. -/
  enabledByTest : Bool := false
deriving DecidableEq, Repr

/-- The safety island (R338 to R362). -/
structure SafeRt where
  /-- Self-test and configuration check of the core passed; its self-test alone (R432); SAFETY_CRC that the configuration check expects: the stored
  image's, then that of each SAF commit (R362); instant of its last heartbeat. -/
  ready : Bool := false
  tested : Bool := false
  crc : Option Nat := none
  beatAt : Option Nat := none
  /-- Operating time at reset, in ns; operating times of the last events of R340. -/
  opBase : Nat := 0
  events : List Nat := []
  si : SMap SiRt := []
  sbc : SMap SbcRt := []
  ssf : SMap SsfRt := []
  test : Option BtRt := none
  /-- Operating time of the last PASSED test, per axis; axes whose last test FAILED. -/
  passed : SMap Nat := []
  failed : List Nat := []
  /-- Password: salt and SHA-256 (R358); in force as the factory password. -/
  salt : List Byte := []
  hash : List Byte := []
  factory : Bool := true
  failures : Nat := 0
  lockUntil : Option Nat := none
  /-- Number of the safety session, its holder and its last use. -/
  session : Option (Nat × Nat × Nat) := none
  sessions : Nat := 0
  /-- Change log: entries (64 bytes each), oldest first; SEQ of the last one written, of the last one exported. -/
  log : List (List Byte) := []
  seqNo : Nat := 0
  exported : Nat := 0
  chain : Nat := 0
deriving DecidableEq, Repr

end Sys2Proof.Machine
end

