-- ==== Sys2Proof/Machine/Ports.lean ====
section
/-! DEFINITION. State of the local drive ports: the data types (spec/12_local_drive_ports.md). -/

namespace Sys2Proof.Machine

/-- An entry of a port's load queue (R304): tag, V_ALPHA and V_BETA or the step position (in `a`; `b` is the sum of the homing shifts
that it contains), ENABLE. -/
structure LoadEntry where
  tag : Nat
  a : Int
  b : Int
  enable : Bool
deriving DecidableEq, Repr

/-- Step generator (R313 to R315): reference ramp in 2⁻¹⁶ step, the whole step the output stands at, pins, halt. -/
structure StepRt where
  rPrev : Int := 0
  rTgt : Int := 0
  tFrom : Nat := 0
  tTo : Nat := 0
  at_ : Int := 0
  primed : Bool := false
  driveEn : Bool := false
  dir : Bool := false
  lastRise : Option Nat := none
  dirAt : Nat := 0
  halted : Bool := false
  delayed : Bool := false
deriving DecidableEq, Repr

/-- Step input (R316, R317): count, extended count and edges of the current run, newest first; estimate pending. -/
structure StepInRt where
  cnt : Nat := 0
  ext : Int := 0
  run : List EncEdge := []
  pending : Bool := true
deriving DecidableEq, Repr

/-- Sigma-delta channel (R308 to R312): invalid; the fast output stands above OC_LIMIT. -/
structure SdRt where
  invalid : Bool := false
  oc : Bool := false
deriving DecidableEq, Repr

/-- A local drive port (R296 to R318). -/
structure PortRt where
  /-- LOAD_ALL set at this instant and waiting for a later period start (R298). -/
  armed : Option Nat := none
  /-- Shadow registers as they stood before the last instant at which one was written, and that instant (R298). -/
  held : List Nat := []
  heldAt : Nat := 0
  queue : List LoadEntry := []
  /-- Tag of the entry due at the next period start (R304). -/
  due : Option Nat := none
  /-- Outputs enabled by the entry in force (R305). -/
  enabled : Bool := false
  /-- On-times in counts of UH, UL, VH, VL, WH, WL in the period in progress (Table 12-2). -/
  duty : List Nat := [0, 0, 0, 0, 0, 0]
  /-- Start of the period in progress in 0.25 ns, and for each reference in it: where it rises, its high time, whether it was high at the end of the
  period before (R297, R301, R302). -/
  startQ : Option Nat := none
  refs : List (Nat × Nat × Bool) := []
  /-- TRIPPED, and the level of the trip input (R306, R307). -/
  tripped : Bool := false
  tripInput : Bool := false
  /-- OC, PULSE_DROPPED and CMP_OVER of STATUS (Table 12-5). -/
  ocSeen : Bool := false
  dropped : Bool := false
  cmpOver : Bool := false
  /-- Sigma-delta channels (R308), step generator (R313), step input (R316). -/
  sd : SMap SdRt := []
  step : StepRt := {}
  stepIn : StepInRt := {}
deriving DecidableEq, Repr

end Sys2Proof.Machine
end

