-- ==== Sys2Proof/Machine/State.lean ====
section
/-! DEFINITION. The state of the block: every register, table, queue, counter, mode and pin the spec gives the G9256, as plain
data, and the state after reset. -/

namespace Sys2Proof.Machine

/-- Faults of the model: none of the block's commands ends in one; kept closed (safe). -/
inductive Fault where
  /-- Raised by nobody: the block has no behaviour that stops it (safe). -/
  | unused
deriving DecidableEq, Repr

/-- Refusals. -/
inductive Refusal where
  /-- Raised by the arm of a command that has no meaning yet; names the command's mnemonic (safe). -/
  | notModelled (mnemonic : String)
deriving DecidableEq, Repr

/-- What the unit sends or reports (frames, replies, notifications, records, pulses, events). -/
inductive Msg where
  /-- A WARN or other event: number of the rule, unit or axis, detail (R185). -/
  | event (rule who what : Nat)
  /-- A rally frame on a ring: its fields; its bytes from the destination address to the frame check sequence (Table 03-1). -/
  | frame (f : RallyFrame) (wire : List Byte)
  /-- A reply to a session's request: session, sequence number, status, body. -/
  | reply (sess seqNo status : Nat) (body : List Byte)
  /-- A Linli message sent over Ethernet: the way it goes; its bytes. -/
  | linli (p : Path) (bytes : List Byte)
  /-- MIRROR record `n` to the standby (R150, R372). -/
  | mirror (n : Nat) (m : Mirror)
  /-- A doorbell of a mailbox endpoint (R389). -/
  | doorbell (ep : Nat)
  /-- A MAILBOX record to the partner: REMOTE, sender, words (R398). -/
  | mail (remote src : Nat) (words : List Word)
  /-- A request to the absolute encoder of an ENC unit: the falling edge of its CLK at t_R (R237). -/
  | encRequest (u t : Nat)
  /-- A downstream barrier frame (R320). -/
  | barrier (frame : List Byte)
  /-- A packet or record sent: where (0 Ethernet, 1 PTP, 2 bench link, 3 PCIe), kind, fields. -/
  | packet (port kind : Nat) (fields : List Int)
  /-- The acknowledgement of a partner's message that stood in slot 14 of an endpoint (R398). -/
  | mailAck (ep : Nat)
deriving DecidableEq, Repr

/-- The state of the G9256. -/
structure State where
  /-- Commands that wait, first in first out. -/
  pending : List Instr
  /-- Machine time: whole ns and the fraction in 2⁻⁴⁰ ns (R79). -/
  now : Nat
  frac : Nat
  /-- The model's own counter of free values drawn (assumption log 2). -/
  free : Nat
  /-- What the unit has sent, newest first (assumption log 4). -/
  out : List Msg
  /-- The object dictionary: values in force; an object not listed holds its default (R103 to R106). -/
  od : SMap Val
  /-- The staged copy (R106 to R109), in order of first writing. -/
  staged : List Staged
  /-- The retained snapshots, newest first (R121, R122). -/
  snaps : List Snapshot
  /-- Live state of the axes (R11, R13). -/
  axes : SMap AxisRt
  /-- Feedback units ENC0–ENC7 and ME0–ME3 (R229, R232). -/
  fbs : SMap FbUnit
  /-- Latch units (R244 to R248). -/
  lats : SMap LatchRt
  /-- Compare units (R249 to R255). -/
  cmps : SMap CmpRt
  /-- Virtual and encoder masters (R218 to R223). -/
  msts : SMap MasterRt
  /-- The dispatcher (R281 to R295). -/
  disp : DispRt
  /-- What the dispatcher keeps of each engine (R285, R295). -/
  engs : SMap EngRt
  /-- The Axis Compute Engines (R257, R261). -/
  aces : SMap AceRt
  /-- The 8 MiB shared SRAM: bytes, in canonical form (R11, R258); the user state areas of the live axis state stand in `axes`. -/
  shared : List Host.Cell
  /-- The user-code half of the instruction SRAM, in canonical form (R261, R274). -/
  ucode : List Host.Cell
  /-- Mailbox endpoints 0–14 (R387, R388). -/
  eps : SMap Endpoint
  /-- Field die and barrier link (R319 to R336). -/
  field : FieldRt
  /-- Time base beside machine time: time of day, network time, pulses, stamps (R80 to R101). -/
  time : TimeRt
  /-- Capture, trace, injection (R410 to R420). -/
  obs : ObsRt
  /-- The safety island (R338 to R362). -/
  safe : SafeRt
  /-- A debug interface is attached (R264, BKPT). -/
  debugger : Bool
  /-- The bench link is locked (R376, R398). -/
  benchUp : Bool
  /-- Local drive ports LA0–LA7 (R296 to R318). -/
  ports : SMap PortRt
  /-- Rings A–D (R20 to R78). -/
  rings : SMap RingRt
  /-- Workers by ring and position, as the head knows them (R68 to R93). -/
  wks : SMap WorkerRt
  /-- The huddle (R41 to R45). -/
  hud : HuddleRt
  /-- The commit in progress (R109 to R120). -/
  com : CommitRt
  /-- MRAM: stored configuration, change log, fault history (R124 to R129, R360, R424). -/
  store : StoreRt
  /-- The redundant pair (R367 to R386). -/
  pair : PairRt
  /-- Sessions, possession, PCIe channels (R132 to R155). -/
  host : HostRt
  /-- Start-up, power, the flash (R399 to R402, R422 to R436, R452). -/
  boot : BootRt
deriving DecidableEq, Repr

/-- The machine right after reset. -/
def State.reset : State where
  pending := []
  now := 0
  frac := 0
  free := 0
  out := []
  od := []
  staged := []
  snaps := []
  axes := []
  fbs := []
  lats := []
  cmps := []
  msts := []
  disp := {}
  engs := []
  aces := []
  shared := []
  ucode := []
  eps := []
  field := {}
  time := {}
  obs := {}
  safe := {}
  debugger := false
  benchUp := false
  ports := []
  rings := []
  wks := []
  hud := {}
  com := {}
  store := {}
  pair := {}
  host := {}
  boot := {}

end Sys2Proof.Machine
end

