-- ==== Sys2Proof/Machine/Ops.lean ====
section
/-! DEFINITION. The named operations over the state: sparse tables, the object dictionary, axes, units, time, and what every
family shares (counters, events, messages). -/

namespace Sys2Proof.Machine

/-! ### Sparse tables -/

/-- The value of a key in a sparse table. -/
def SMap.get? {α : Type} : SMap α → Nat → Option α
  | [], _ => none
  | (k, v) :: t, x => if x = k then some v else SMap.get? t x

/-- A sparse table with one key set; keys stay in rising order. -/
def SMap.put {α : Type} : SMap α → Nat → α → SMap α
  | [], x, w => [(x, w)]
  | (k, v) :: t, x, w =>
    if x = k then (x, w) :: t else if x < k then (x, w) :: (k, v) :: t else (k, v) :: SMap.put t x w

/-- A sparse table without a key. -/
def SMap.del {α : Type} (m : SMap α) (x : Nat) : SMap α := m.filter fun e => e.1 ≠ x

/-- Keys at which two sparse tables differ; the number bounds the entries looked at. -/
def SMap.changed {α : Type} [DecidableEq α] : Nat → SMap α → SMap α → List Nat
  | 0, _, _ => []
  | _ + 1, [], b => b.map (·.1)
  | _ + 1, a, [] => a.map (·.1)
  | n + 1, (k, v) :: a, (l, w) :: b =>
    if k = l then (if v = w then SMap.changed n a b else k :: SMap.changed n a b)
    else if k < l then k :: SMap.changed n a ((l, w) :: b)
    else l :: SMap.changed n ((k, v) :: a) b

/-- The value of a key, or the value every unlisted key has. -/
def SMap.getD {α : Type} (m : SMap α) (x : Nat) (d : α) : α := (SMap.get? m x).getD d

/-! ### Objects (R2 to R7, R103 to R106) -/

/-- The number a dictionary key holds, or a default. -/
def State.numAt (s : State) (key : Nat) (d : Int) : Int :=
  match SMap.get? s.od key with
  | some (.num v) => v
  | _ => d

/-- The number an object holds in force. -/
def State.get (s : State) (o : Obj) (i : Nat := 0) (j : Nat := 0) (k : Nat := 0) : Int :=
  s.numAt (o.key i j k) o.dflt

/-- The number an object holds, as a natural number. -/
def State.nat (s : State) (o : Obj) (i : Nat := 0) (j : Nat := 0) (k : Nat := 0) : Nat := (s.get o i j k).toNat

/-- A BOOL object read as a Bool. -/
def State.flag (s : State) (o : Obj) (i : Nat := 0) (j : Nat := 0) (k : Nat := 0) : Bool := decide (s.get o i j k ≠ 0)

/-- The octets an STR or DOMAIN object holds in force. -/
def State.bytes (s : State) (o : Obj) (i : Nat := 0) (j : Nat := 0) (k : Nat := 0) : List Byte :=
  match SMap.get? s.od (o.key i j k) with
  | some (.bytes b) => b
  | _ => []

/-- The state with one dictionary key set. -/
def State.putVal (s : State) (key : Nat) (v : Val) : State := { s with od := SMap.put s.od key v }

/-- Entries of the dictionary at some keys; none where a key is not listed. -/
def State.entriesAt (s : State) (l : List Nat) : SMap (Option Val) := l.map fun k => (k, SMap.get? s.od k)

/-- The state with entries of the dictionary put back. -/
def State.overlay (s : State) (l : SMap (Option Val)) : State :=
  { s with od := l.foldl (fun m e => match e.2 with | some v => SMap.put m e.1 v | none => SMap.del m e.1) s.od }

/-- Keys whose entries two states hold differently. -/
def changedKeys (s u : State) : List Nat := SMap.changed (s.od.length + u.od.length) s.od u.od

/-- `f` run under the view that ring `r` has of the head's common objects (R14, R119). -/
def underView (s : State) (r : Nat) (f : State → State) : State :=
  match (SMap.getD s.rings r {}).overlay with
  | [] => f s
  | l => (f (s.overlay l)).overlay (s.entriesAt (l.map (·.1)))

/-- The state with one object's number set. -/
def State.set (s : State) (o : Obj) (v : Int) (i : Nat := 0) (j : Nat := 0) (k : Nat := 0) : State :=
  s.putVal (o.key i j k) (.num v)

/-- The state with one object's octets set. -/
def State.setBytes (s : State) (o : Obj) (b : List Byte) (i : Nat := 0) (j : Nat := 0) (k : Nat := 0) : State :=
  s.putVal (o.key i j k) (.bytes b)

/-- An object set where its value differs. -/
def State.put1 (s : State) (o : Obj) (v : Int) (i : Nat := 0) (j : Nat := 0) (k : Nat := 0) : State :=
  if s.get o i j k = v then s else s.set o v i j k

/-- Bits of a number's type, for counters. -/
def Ty.bits : Ty → Nat
  | .bool => 1 | .u8 => 8 | .u16 => 16 | .u32 => 32 | .u64 => 64 | .i8 => 8 | .i16 => 16 | .i32 => 32 | .i64 => 64
  | .f32 => 32 | .q32 => 64 | .time64 => 64 | .tod80 => 80 | .str => 0 | .domain => 0

/-- A saturating counter object raised by `n`. -/
def State.count (s : State) (o : Obj) (i : Nat := 0) (j : Nat := 0) (k : Nat := 0) (n : Int := 1) : State :=
  s.set o (satInc o.ty.bits (s.get o i j k) n) i j k

/-- A wrapping counter object raised by one. -/
def State.wrapInc (s : State) (o : Obj) (i : Nat := 0) (j : Nat := 0) (k : Nat := 0) : State :=
  s.set o ((s.get o i j k + 1) % 2 ^ o.ty.bits) i j k

/-- An object raised to a new value where that is larger (maxima of R295 and others). -/
def State.raiseMax (s : State) (o : Obj) (v : Int) (i : Nat := 0) (j : Nat := 0) (k : Nat := 0) : State :=
  if s.get o i j k < v then s.set o v i j k else s

/-- SERIAL of this unit (0x1000.04, R131). -/
def unitSerial : Nat := Config.unitSerial % 2 ^ 32

/-! ### Time, free values, output -/

/-- Machine time moved on to `t`, where that is later (assumption log 3). -/
def State.at (s : State) (t : Nat) : State := if s.now < t then { s with now := t, frac := 0 } else s

/-- The unit runs: it is powered, out of reset, and not left in the boot ROM (R15, R399, R423, R429). -/
def unitRuns (s : State) : Bool := !s.boot.standby && !s.boot.off && decide (s.boot.held = 0) && !s.boot.noImage

/-- What a command does while the unit runs; in STANDBY, OFF, reset or an unbooted unit the domains that would take it are off, and only time
moves (R15, R399, R423; assumption log 192). -/
def whileOn (s : State) (t : Nat) (o : Host.Outcome State Fault Refusal) : Host.Outcome State Fault Refusal :=
  if unitRuns s then o else .next (s.at t)

/-- A message sent. -/
def State.emit (s : State) (m : Msg) : State := { s with out := m :: s.out }

/-- A WARN event reported (R185): the rule, the unit or axis, a detail. -/
def State.warn (s : State) (rule who what : Nat) : State := s.emit (.event rule who what)

/-- A free value of `w` bits and the state that has drawn it (assumption log 2). -/
def State.freeDraw (s : State) (w : Nat) : Nat × State :=
  (Config.freeValue s.free % 2 ^ w, { s with free := s.free + 1 })

/-! ### Status codes (Table 05-9) -/

def stOk : Nat := 0
def stNotCaptain : Nat := 0x0101
def stReadOnly : Nat := 0x0102
def stSafetyLocked : Nat := 0x0103
def stNoObject : Nat := 0x0201
def stNoSubindex : Nat := 0x0202
def stType : Nat := 0x0203
def stRange : Nat := 0x0204
def stLength : Nat := 0x0205
def stRejected : Nat := 0x0301
def stBudget : Nat := 0x0302
def stState : Nat := 0x0303
def stSessionLimit : Nat := 0x0401
def stLeaseExpired : Nat := 0x0402
def stBusy : Nat := 0x0501

/-- What a write or request leads to: the state after it and its status code (R130). -/
abbrev Act := State × Nat

/-- What an accepted write leaves is the value read back (R6). -/
def keepValue (key : Nat) (v : Val) (r : Act) : Act := if r.2 = stOk then (r.1.putVal key v, stOk) else r

/-- The value of an accepted write of an object (R6). -/
def kept (o : Obj) (v : Int) (r : Act) (i : Nat := 0) (j : Nat := 0) (k : Nat := 0) : Act := keepValue (o.key i j k) (.num v) r

/-- A command answered by itself: its status is sent as a reply outside every session (0xFF; assumption log 5). -/
def answer (r : Act) : Host.Outcome State Fault Refusal := .next (r.1.emit (.reply 0xFF 0 r.2 []))

/-! ### Tables of the state -/

/-- An axis. -/
def State.axis (s : State) (a : Nat) : AxisRt := SMap.getD s.axes a {}
/-- The state with an axis replaced. -/
def State.setAxis (s : State) (a : Nat) (x : AxisRt) : State := { s with axes := SMap.put s.axes a x }
/-- The state with an axis changed. -/
def State.modAxis (s : State) (a : Nat) (f : AxisRt → AxisRt) : State := s.setAxis a (f (s.axis a))
/-- The motion state of an axis changed by a command other than its items. -/
def State.modMot (s : State) (a : Nat) (f : MotSt → MotSt) : State :=
  s.modAxis a fun x => let m := f x.mot; { x with mot := { m with seq := x.mot.seq + 1 } }
/-- A feedback unit (0–7 ENC, 8–11 ME). -/
def State.fbu (s : State) (u : Nat) : FbUnit := SMap.getD s.fbs u {}
/-- The state with a feedback unit replaced. -/
def State.setFbu (s : State) (u : Nat) (x : FbUnit) : State := { s with fbs := SMap.put s.fbs u x }
/-- A latch unit. -/
def State.latch (s : State) (l : Nat) : LatchRt := SMap.getD s.lats l {}
/-- The state with a latch unit replaced. -/
def State.setLatch (s : State) (l : Nat) (x : LatchRt) : State := { s with lats := SMap.put s.lats l x }
/-- A compare unit. -/
def State.cmp (s : State) (u : Nat) : CmpRt := SMap.getD s.cmps u {}
/-- The state with a compare unit replaced. -/
def State.setCmp (s : State) (u : Nat) (x : CmpRt) : State := { s with cmps := SMap.put s.cmps u x }
/-- A master. -/
def State.master (s : State) (k : Nat) : MasterRt := SMap.getD s.msts k {}
/-- The state with a master replaced. -/
def State.setMaster (s : State) (k : Nat) (x : MasterRt) : State := { s with msts := SMap.put s.msts k x }
/-- An engine. -/
def State.eng (s : State) (e : Nat) : EngRt := SMap.getD s.engs e {}
/-- The state with an engine replaced. -/
def State.setEng (s : State) (e : Nat) (x : EngRt) : State := { s with engs := SMap.put s.engs e x }
/-- An ACE. -/
def State.ace (s : State) (e : Nat) : AceRt := SMap.getD s.aces e {}
/-- The state with an ACE replaced. -/
def State.setAce (s : State) (e : Nat) (x : AceRt) : State := { s with aces := SMap.put s.aces e x }
/-- The state with an ACE changed. -/
def State.modAce (s : State) (e : Nat) (f : AceRt → AceRt) : State := s.setAce e (f (s.ace e))
/-- A mailbox endpoint. -/
def State.ep (s : State) (x : Nat) : Endpoint := SMap.getD s.eps x {}
/-- The state with a mailbox endpoint replaced. -/
def State.setEp (s : State) (x : Nat) (v : Endpoint) : State := { s with eps := SMap.put s.eps x v }
/-- The state with a mailbox endpoint changed. -/
def State.modEp (s : State) (x : Nat) (f : Endpoint → Endpoint) : State := s.setEp x (f (s.ep x))
/-- A local drive port. -/
def State.port (s : State) (p : Nat) : PortRt := SMap.getD s.ports p {}
/-- The state with a local drive port replaced. -/
def State.setPort (s : State) (p : Nat) (x : PortRt) : State := { s with ports := SMap.put s.ports p x }
/-- A ring. -/
def State.ring (s : State) (r : Nat) : RingRt := SMap.getD s.rings r {}
/-- The state with a ring replaced. -/
def State.setRing (s : State) (r : Nat) (x : RingRt) : State := { s with rings := SMap.put s.rings r x }
/-- The state with a ring changed. -/
def State.modRing (s : State) (r : Nat) (f : RingRt → RingRt) : State := s.setRing r (f (s.ring r))
/-- The worker at position `p` of ring `r`. -/
def State.wk (s : State) (r p : Nat) : WorkerRt := SMap.getD s.wks (r * 128 + p) {}
/-- The state with a worker replaced. -/
def State.setWk (s : State) (r p : Nat) (x : WorkerRt) : State := { s with wks := SMap.put s.wks (r * 128 + p) x }
/-- The state with a worker changed. -/
def State.modWk (s : State) (r p : Nat) (f : WorkerRt → WorkerRt) : State := s.setWk r p (f (s.wk r p))

/-! ### Loops over numbered things -/

/-- `f` applied to the state for every number below `n`, in rising order. -/
def forBelow (n : Nat) (f : Nat → State → State) (s : State) : State := (List.range n).foldl (fun s i => f i s) s

/-- `f` applied to the state for every member of a list, in order. -/
def forList {α : Type} (l : List α) (f : α → State → State) (s : State) : State := l.foldl (fun s x => f x s) s

/-! ### Rings, schedules, axes: derived readings -/

/-- Ring states (Table 03-17, STATE). -/
def rsDark : Int := 0
/-- PLAY. -/
def rsPlay : Int := 5

/-- The ring is in PLAY. -/
def State.inPlay (s : State) (r : Nat) : Bool := decide (s.get Ob.Ring.STATE r = 5)

/-- LOCAL_RING (R22). -/
def State.localRing (s : State) : Nat := s.nat Ob.Cyc.LOCAL_RING

/-- The schedule that governs a ring: the active one in PLAY, START_SCHEDULE otherwise (R22, R24, R40, R41). -/
def State.sched (s : State) (r : Nat) : Nat :=
  if s.inPlay r then s.nat Ob.Cyc.ACTIVE_SCHEDULE 0 0 r else s.nat Ob.Cyc.START_SCHEDULE 0 0 r

/-- Cycle length in ns of exponent `k`: 15.625 µs × 2ᵏ (R19). -/
def tcycOf (k : Nat) : Nat := 15625 * 2 ^ k

/-- Cycle length of a ring's schedule, in ns. -/
def State.tcycSched (s : State) (r sc : Nat) : Nat := tcycOf (s.nat Ob.Sched.CYCLE_EXP r sc)

/-- Cycle length of a ring, in ns (R19). -/
def State.tcyc (s : State) (r : Nat) : Nat := s.tcycSched r (s.sched r)

/-- Whistle offset W of a ring's schedule, in ns (R21). -/
def State.woffSched (s : State) (r sc : Nat) : Nat := s.nat Ob.Sched.WHISTLE_OFFSET r sc

/-- Whistle offset W of a ring, in ns. -/
def State.woff (s : State) (r : Nat) : Nat := s.woffSched r (s.sched r)

/-- Guard G (R23). -/
def guardNs : Nat := 1500

/-- The cycle number of the cycle that starts at `c` (R20). -/
def cycleNo (c tc : Nat) : Nat := (c / tc) % 2 ^ 32

/-- Layout code of channel `c` of a worker (Table 03-18). -/
def State.layout (s : State) (r p c : Nat) : Nat := bits (s.nat Ob.Wk.CHANNEL_LAYOUTS r p) (4 * c) 4

/-- Number of channels of a CHANNEL_LAYOUTS value: its non-zero nibbles (Table 03-18). -/
def layoutCount (v : Nat) : Nat := ((List.range 8).filter fun c => bits v (4 * c) 4 ≠ 0).length

/-- The four-byte entries of a DOMAIN, as numbers. -/
def entries4 (b : List Byte) : List Nat := (List.range (b.length / 4)).map fun i => leAt b (4 * i) 4

/-- Down and up bytes of an IO channel in a schedule (Table 02-11, IO_SIZES). -/
def State.ioSize (s : State) (r sc p c : Nat) : Nat × Nat :=
  match (entries4 (s.bytes Ob.Sched.IO_SIZES r sc)).find? fun e => bits e 0 8 = p ∧ bits e 24 8 = c with
  | some e => (bits e 8 8, bits e 16 8)
  | none => (0, 0)

/-- Down and up bytes of one channel (Tables 02-5, 03-7). -/
def State.chanSize (s : State) (r sc p c : Nat) : Nat × Nat :=
  match s.layout r p c with
  | 1 => (8, 16)
  | 2 => (8, 12)
  | 3 => (12, 20)
  | 4 => s.ioSize r sc p c
  | _ => (0, 0)

/-- Down and up bytes of a worker's channels below `c` (R54). -/
def State.chanBase (s : State) (r sc p c : Nat) : Nat × Nat :=
  ((List.range c).map fun i => s.chanSize r sc p i).foldl (fun x y => (x.1 + y.1, x.2 + y.2)) (0, 0)

/-- Down and up data bytes of a worker (R24, R54). -/
def State.workerSize (s : State) (r sc p : Nat) : Nat × Nat := s.chanBase r sc p 8

/-- Slot size s_p of a worker: two headers, safety sub-frame and its data (R24, Table 03-4). -/
def State.slotSize (s : State) (r sc p : Nat) : Nat := let w := s.workerSize r sc p; 16 + w.1 + w.2

/-- Slot start S_p (Sahx offset) of a worker (R53). -/
def State.slotStart (s : State) (r sc p : Nat) : Nat :=
  32 + ((List.range (p - 1)).map fun q => s.slotSize r sc (q + 1)).sum

/-- Number of workers of a ring (R49). -/
def State.nWorkers (s : State) (r : Nat) : Nat := s.nat Ob.Ring.WORKER_COUNT r

/-- Kind of an axis by its mapping (R156, Table 07-1). -/
def State.kindOf (s : State) (a : Nat) : Nat :=
  let r := s.get Ob.Map.RING a
  if r = 0xFF then 0
  else if r = 0xFE then
    let f := s.get Ob.Port.FUNCTION (s.nat Ob.Map.LOCAL_PORT a)
    if f = 3 then 5 else if f = 1 then 4 else 0
  else
    match s.layout r.toNat (s.nat Ob.Map.WORKER a) (s.nat Ob.Map.CHANNEL a) with
    | 1 => 1
    | 2 => 2
    | 3 => 3
    | _ => 0

/-- The ring whose whistle an axis follows: its own, or LOCAL_RING (R22, R115). -/
def State.axisRing (s : State) (a : Nat) : Nat :=
  let r := s.get Ob.Map.RING a
  if r < 4 then r.toNat else s.localRing

/-- The axis is mapped to a ring. -/
def State.onRing (s : State) (a r : Nat) : Bool := decide (s.get Ob.Map.RING a = r)

/-- The axes mapped to a ring. -/
def State.axesOn (s : State) (r : Nat) : List Nat := (List.range 256).filter fun a => s.onRing a r

/-- The axes mapped to local ports. -/
def State.axesLocal (s : State) : List Nat := (List.range 256).filter fun a => s.onRing a 0xFE

/-- The AXIS_PLAN entry of an axis in a schedule of a ring (Table 02-12). -/
def State.planEntry (s : State) (r sc a : Nat) : Option Nat :=
  (entries4 (s.bytes Ob.Sched.AXIS_PLAN r sc)).find? fun e => bits e 0 8 = a

/-- Velocity divider, position divider and phase of an axis in a schedule; 1, 1, 0 without an entry (R29). -/
def State.dividers (s : State) (r sc a : Nat) : Nat × Nat × Nat :=
  match s.planEntry r sc a with
  | some e => (2 ^ bits e 8 2, 2 ^ bits e 10 2, bits e 12 3)
  | none => (1, 1, 0)

/-- Engines an axis may run on (R284): the mask, or all eight for 0x00. -/
def State.aceMask (s : State) (r sc a : Nat) : Nat :=
  match s.planEntry r sc a with
  | some e => if bits e 16 8 = 0 then 0xFF else bits e 16 8
  | none => 0xFF

/-! ### The shared SRAM (R11) -/

/-- Start and size of a region of the shared SRAM, in the order of Table 01-2: 0 live axis state, 1 staged copy, 2 scoreboard, 3 cam tables, 4 dispatcher,
5 ring buffers, 6 management. The order of the regions' addresses is assumption log 169. -/
def sharedRegion (k : Nat) : Nat × Nat :=
  let l : List Nat := [2 ^ 20, 2 ^ 20, 2 ^ 21, 2 ^ 21, 2 ^ 19, 2 ^ 18, 5 * 2 ^ 18]
  ((l.take k).sum, l.getD k 0)

/-! ### The bench link (R373) -/

/-- Records of Table 15-2 as the model numbers them: TIME 1, EMIT 2, DIGEST 3, REQUEST 4, INPUTS 5, MIRROR 6, STATE 7, REGIONS 8, HELLO 9, ACK 10.
A record goes out on the bench link where it is locked. -/
def benchSend (s : State) (kind : Nat) (fields : List Int) : State :=
  if s.benchUp ∧ s.flag Ob.PairC.PAIR_ENABLE = true then s.emit (.packet 2 kind fields) else s

/-- The unit is the standby of a pair. -/
def isStandby (s : State) : Bool := decide (s.get Ob.Pair.ROLE = 2)

/-- The unit is active or standby in a pair (R367). -/
def inPair (s : State) : Bool := s.flag Ob.PairC.PAIR_ENABLE && decide (s.get Ob.Pair.ROLE = 1 ∨ s.get Ob.Pair.ROLE = 2)

/-- Sessions, staged copy, commits and pieces are mirrored to the standby (R150, R371, R372). -/
def mirroring (s : State) : Bool :=
  let st := s.get Ob.Pair.PAIR_STATE
  s.benchUp && s.flag Ob.PairC.PAIR_ENABLE && decide (s.get Ob.Pair.ROLE = 1) && decide (st = 2 ∨ st = 3 ∨ st = 5 ∨ (st = 1 ∧ 5 ≤ s.pair.step))

/-- A MIRROR record (Table 15-2), numbered for its acknowledgement (R373). -/
def mirror (s : State) (m : Mirror) : State :=
  if mirroring s = false then s else
    let n := s.pair.mirrorNo + 1
    { s with pair := { s.pair with mirrorNo := n } }.emit (.mirror n m)

/-- The unit is not the active one: sessions at SERVICE_IP are not its to serve (R132, R150). -/
def notActive (s : State) : Bool := decide (2 ≤ s.get Ob.Pair.ROLE)

/-- A role request raised by the active unit (Table 15-4): 1 UNIT, 2 referee, 3 missing frames; sent to the standby as a REQUEST. -/
def askPartner (s : State) (k : Nat) : State := benchSend { s with pair := { s.pair with want := k } } 4 [1, k]

/-! ### Start-up (R434) -/

/-- START_STATE judged (R434): READY, or PARTIAL where an enabled ring has FAILED; START_TIME at the first of them. -/
def judgeReady (s : State) : State :=
  let st := s.get Ob.Rst.START_STATE
  let en := (List.range 4).filter fun r => s.flag Ob.Ring.ENABLE r
  let up (r : Nat) : Bool := decide (s.get Ob.Ring.STATE r = 5)
  let enter (v : Int) : State := (if st < 4 then s.set Ob.Rst.START_TIME (s.now / 1000) else s).set Ob.Rst.START_STATE v
  if st = 4 ∨ st < 2 ∨ s.get Ob.Isl.RF_STATE ≠ 1 then s
  else if s.get Ob.Pair.ROLE = 2 then (if s.get Ob.Pair.PAIR_STATE = 2 then enter 4 else s)
  else if st < 3 then s
  else if en.all up then enter 4
  else if en.all fun r => up r || decide (s.get Ob.Ring.STATE r = 6) then (if st = 5 then s else enter 5)
  else s

end Sys2Proof.Machine
end

