-- ==== Sys2Proof/Machine/Planner.lean ====
section
/-! DEFINITION. Jerk-limited plans (R196 to R199), their evaluation (R197), and the piece tables of virtual masters (R218). -/

namespace Sys2Proof.Machine

/-- A set-point state: position, velocity, acceleration, in machine units (exact rationals inside the planner). -/
structure Kin where
  x : Rat
  v : Rat
  a : Rat
deriving DecidableEq, Repr

/-- A value in 2⁻³² units as a rational. -/
def q32 (x : Int) : Rat := mkRat x (2 ^ 32)

/-- A value with 64 fraction bits, rounded once. -/
def r64 (q : Rat) : Int := roundRat (q * 2 ^ 64)

/-- A rational rounded to 2⁻³² units (R159). -/
def rq32 (q : Rat) : Int := roundRat (q * 2 ^ 32)

/-- Seconds rounded up to whole nanoseconds; zero stays zero (R197). -/
def nsUp (t : Rat) : Nat := if t ≤ 0 then 0 else (t * 1000000000).ceil.toNat

/-- Nanoseconds as seconds. -/
def secs (n : Nat) : Rat := mkRat n 1000000000

/-- Motion of constant jerk over `t` seconds. -/
def Kin.go (k : Kin) (j t : Rat) : Kin where
  x := k.x + k.v * t + k.a * t * t / 2 + j * t * t * t / 6
  v := k.v + k.a * t + j * t * t / 2
  a := k.a + j * t

/-- A phase of a velocity change: whole-ns durations of its three segments (R196, R199). -/
structure Phase where
  n1 : Nat
  n2 : Nat
  n3 : Nat
deriving DecidableEq, Repr

/-- Acceleration limit of a change from `v0` to `v1`: A where |v| rises, D where it falls, the smaller of the two across zero
(R199; assumption log 12). -/
def phaseLimit (v0 v1 aLim dLim : Rat) : Rat :=
  if v0 * v1 < 0 then min aLim dLim else if |v0| ≤ |v1| then aLim else dLim

/-- Durations of the change of velocity from (v0, a0) to v1 with jerk J and limit A (R196, R198, R199). -/
def phaseOf (v0 a0 v1 aLim j : Rat) : Phase :=
  if j ≤ 0 then
    -- unlimited jerk: the acceleration is applied in one step
    ⟨0, nsUp (|v1 - v0| / aLim), 0⟩
  else
    let d : Rat := if v1 - (v0 + a0 * |a0| / (2 * j)) < 0 then -1 else 1
    let b0 := d * a0
    let dv := d * (v1 - v0)
    if b0 > aLim then
      -- segment 1 takes the acceleration back to the limit
      let t1 := (b0 - aLim) / j
      let rest := dv - (b0 + aLim) / 2 * t1 - aLim * aLim / (2 * j)
      ⟨nsUp t1, nsUp (max 0 (rest / aLim)), nsUp (aLim / j)⟩
    else
      let p2 := j * dv + b0 * b0 / 2
      if p2 ≤ aLim * aLim then
        let p := sqrtRat 40 p2
        ⟨nsUp ((p - b0) / j), 0, nsUp (p / j)⟩
      else
        let t2 := (dv - (aLim * aLim - b0 * b0) / (2 * j) - aLim * aLim / (2 * j)) / aLim
        ⟨nsUp ((aLim - b0) / j), nsUp t2, nsUp (aLim / j)⟩

/-- Peak acceleration of a phase so that it ends at `v1` exactly with its whole-ns durations (R197). -/
def Phase.peak (p : Phase) (v0 a0 v1 : Rat) : Rat :=
  let t1 := secs p.n1
  let w := t1 / 2 + secs p.n2 + secs p.n3 / 2
  if w = 0 then 0 else (v1 - v0 - a0 * t1 / 2) / w

/-- Duration of a phase in ns. -/
def Phase.dur (p : Phase) : Nat := p.n1 + p.n2 + p.n3

/-- End state and segments of a phase that starts at instant `t` (R197). -/
def Phase.run (p : Phase) (t : Nat) (k : Kin) (v1 : Rat) : List Seg × Kin :=
  let ap := p.peak k.v k.a v1
  let j1 := if p.n1 = 0 then 0 else (ap - k.a) / secs p.n1
  let k1 := { (k.go j1 (secs p.n1)) with a := ap }
  let k2 := k1.go 0 (secs p.n2)
  let j3 := if p.n3 = 0 then 0 else -ap / secs p.n3
  let k3 := k2.go j3 (secs p.n3)
  let seg (t : Nat) (n : Nat) (k : Kin) (j : Rat) : List Seg :=
    if n = 0 then [] else [⟨t, n, r64 k.x, r64 k.v, r64 k.a, r64 j⟩]
  (seg t p.n1 k j1 ++ seg (t + p.n1) p.n2 k1 0 ++ seg (t + p.n1 + p.n2) p.n3 k2 j3,
   { k3 with v := v1, a := 0 })

/-- Limits of a plan, in units: V, A, D, J. -/
structure PlanLimits where
  v : Rat
  a : Rat
  d : Rat
  j : Rat
deriving DecidableEq, Repr

/-- A plan that changes the velocity to `v1` and keeps it (R199). -/
def velocityPlan (t : Nat) (k : Kin) (v1 : Rat) (l : PlanLimits) : Plan :=
  let p := phaseOf k.v k.a v1 (phaseLimit k.v v1 l.a l.d) l.j
  let (segs, e) := p.run t k v1
  ⟨segs, t + p.dur, rq32 e.x, rq32 v1⟩

/-- Distance of a phase, affine in its end velocity once the durations stand. -/
def Phase.dist (p : Phase) (v0 a0 v1 : Rat) : Rat :=
  let k := ((p.run 0 ⟨0, v0, a0⟩ v1).2)
  k.x

/-- Distance of the move from (v0, a0) up to `vp` and down to rest (R196). -/
def moveDist (v0 a0 vp : Rat) (l : PlanLimits) : Rat :=
  let p := phaseOf v0 a0 vp (phaseLimit v0 vp l.a l.d) l.j
  let q := phaseOf vp 0 0 l.d l.j
  p.dist v0 a0 vp + q.dist vp 0 0

/-- Velocity reached when the acceleration is taken straight to 0 (R198): from there on the distance of a move rises with its peak. -/
def coastVel (v0 a0 j : Rat) : Rat := if j ≤ 0 then v0 else v0 + a0 * |a0| / (2 * j)

/-- Search for the peak velocity `base` + k·2⁻³² unit/s below `top`, one bit of k per fuel (R196): the move is not longer than `s` at the k found, and longer,
or above `top`, at k + 1. -/
def peakLoop (v0 a0 s base top : Rat) (l : PlanLimits) : Nat → Int → Int
  | 0, lo => lo
  | n + 1, lo =>
    let c := lo + 2 ^ n
    if base + q32 c ≤ top ∧ moveDist v0 a0 (base + q32 c) l ≤ s then peakLoop v0 a0 s base top l n c else peakLoop v0 a0 s base top l n lo

/-- The peak velocities by which the acceleration phase and the deceleration phase of a move of length `s` are dimensioned, and whether it cruises at V
(R196): within 2⁻³² unit/s of the root, on the side that keeps the limits. The root lies above the coasting velocity where the move is long enough for it. -/
def peakOf (v0 a0 s : Rat) (l : PlanLimits) : Rat × Rat × Bool :=
  let lo := max 0 (coastVel v0 a0 l.j)
  if moveDist v0 a0 l.v l ≤ s then (l.v, l.v, true)
  else if lo ≤ l.v ∧ moveDist v0 a0 lo l ≤ s then
    let v := min l.v (lo + q32 (peakLoop v0 a0 s lo l.v l 64 0 + 1))
    (v, v, false)
  else
    let top := min lo l.v
    let k := peakLoop v0 a0 s 0 top l 64 0
    (q32 k, min top (q32 (k + 1)), false)

/-- Segments and end of a move of length `s` (in the positive direction) from (0, v0, a0), ending at rest exactly at `s` (R196, R197). -/
def forwardMove (t : Nat) (v0 a0 s : Rat) (l : PlanLimits) : List Seg × Nat :=
  let (va, vd, cruise) := peakOf v0 a0 s l
  let p := phaseOf v0 a0 va (phaseLimit v0 va l.a l.d) l.j
  let q := phaseOf vd 0 0 l.d l.j
  let n4 := if cruise then nsUp ((s - moveDist v0 a0 va l) / va) else 0
  -- total distance with these durations is affine in the peak velocity: c0 + c1 vp
  let tot (vp : Rat) : Rat := p.dist v0 a0 vp + vp * secs n4 + q.dist vp 0 0
  let c0 := tot 0
  let c1 := tot 1 - c0
  let vp := if c1 = 0 then va else (s - c0) / c1
  let (s1, k1) := p.run t ⟨0, v0, a0⟩ vp
  let t4 := t + p.dur
  let seg4 : List Seg := if n4 = 0 then [] else [⟨t4, n4, r64 k1.x, r64 vp, 0, 0⟩]
  let k4 : Kin := ⟨k1.x + vp * secs n4, vp, 0⟩
  let (s5, _) := q.run (t4 + n4) k4 0
  (s1 ++ seg4 ++ s5, t4 + n4 + q.dur)

/-- A segment mirrored by a sign and moved to an origin. -/
def Seg.map (g : Seg) (sg : Int) (x0 : Int) : Seg :=
  { g with x := x0 + sg * g.x, v := sg * g.v, a := sg * g.a, j := sg * g.j }

/-- A move to `xT` from the state at `t` (R196, R197): direct, or a stop at D and J followed by a move back from rest. -/
def positionPlan (t : Nat) (k : Kin) (xT : Rat) (l : PlanLimits) : Plan :=
  if k.v = 0 ∧ k.a = 0 ∧ k.x = xT then ⟨[], t, rq32 xT, 0⟩ else
  let sg : Rat := if xT - k.x < 0 then -1 else 1
  let s := sg * (xT - k.x)
  let v0 := sg * k.v
  let a0 := sg * k.a
  let stop := phaseOf v0 a0 0 l.d l.j
  let stopDist := stop.dist v0 a0 0
  if v0 < 0 ∨ s = 0 ∨ s < stopDist then
    let (s1, k1) := stop.run t ⟨k.x, k.v, k.a⟩ 0
    let t1 := t + stop.dur
    let sg2 : Rat := if xT - k1.x < 0 then -1 else 1
    let (s2, e) := if k1.x = xT then ([], t1) else forwardMove t1 0 0 (sg2 * (xT - k1.x)) l
    ⟨s1 ++ s2.map (fun g => g.map (if sg2 < 0 then -1 else 1) (r64 k1.x)), e, rq32 xT, 0⟩
  else
    let (s1, e) := forwardMove t v0 a0 s l
    ⟨s1.map (fun g => g.map (if sg < 0 then -1 else 1) (r64 k.x)), e, rq32 xT, 0⟩

/-- A stop plan from the set-point state with a deceleration and a jerk (Table 08-6; jerk 0: one step). -/
def stopPlan (t : Nat) (k : Kin) (d j : Rat) : Plan :=
  velocityPlan t (if j = 0 then { k with a := 0 } else k) 0 ⟨|k.v|, d, d, j⟩

/-- Set-point of a segment at instant `t`, in 2⁻³² units, each result rounded once (R197). -/
def Seg.eval (g : Seg) (t : Nat) : Int × Int × Int :=
  let n : Int := ((t - g.t : Nat) : Int)
  let e : Int := 1000000000
  (roundDiv (6 * e * e * e * g.x + 6 * e * e * g.v * n + 3 * e * g.a * n * n + g.j * n * n * n) (6 * e * e * e * 2 ^ 32),
   roundDiv (2 * e * e * g.v + 2 * e * g.a * n + g.j * n * n) (2 * e * e * 2 ^ 32),
   roundDiv (e * g.a + g.j * n) (e * 2 ^ 32))

/-- The exact state of a segment at instant `t` (R197, R218). -/
def Seg.kin (g : Seg) (t : Nat) : Kin :=
  Kin.go ⟨mkRat g.x (2 ^ 64), mkRat g.v (2 ^ 64), mkRat g.a (2 ^ 64)⟩ (mkRat g.j (2 ^ 64)) (secs (t - g.t))

/-- The segment in force at `t`: the last one that starts at or before it. -/
def segAt (l : List Seg) (t : Nat) : Option Seg := (l.filter fun g => g.t ≤ t).getLast?

/-- Set-point of a plan at `t` (R197): after the end, the end position moved on at the end velocity. -/
def Plan.eval (p : Plan) (t : Nat) : Int × Int × Int :=
  if p.endAt ≤ t then
    (p.xEnd + roundDiv (p.vEnd * ((t - p.endAt : Nat) : Int)) 1000000000, p.vEnd, 0)
  else match segAt p.segs t with
    | some g => g.eval t
    | none => (p.xEnd, 0, 0)

/-- The state of a plan at `t` as planner input. -/
def kinOf (e : Int × Int × Int) : Kin := ⟨q32 e.1, q32 e.2.1, q32 e.2.2⟩

/-- A plan moved by a distance in 2⁻³² units (R214). -/
def Plan.shift (p : Plan) (d : Int) : Plan :=
  { p with segs := p.segs.map (fun g => { g with x := g.x + d * 2 ^ 32 }), xEnd := p.xEnd + d }

end Sys2Proof.Machine
end

