-- ==== Sys2Proof/Machine/Axis.lean ====
section
/-! DEFINITION. Axis states, faults and stops: what every family does to an axis (R185 to R211, R171, R200 to R206). -/

namespace Sys2Proof.Machine

/-- Rank of a stop kind (R201). -/
def StopKind.rank : StopKind → Nat
  | .ramp => 1 | .quick => 2 | .hard => 3 | .brake => 4

/-- Rank of a stop cause (R201). -/
def StopCause.rank : StopCause → Nat
  | .command => 1 | .machineStop => 1 | .disable => 2 | .fault => 3

/-- Code of a stop cause in STOP_CAUSE (Table 08-11). -/
def StopCause.code : StopCause → Nat
  | .command => 1 | .machineStop => 2 | .disable => 3 | .fault => 4

/-- Code of an axis state in STATE_WORD (Table 08-3). -/
def AxState.code : AxState → Nat
  | .disabled => 0 | .arming => 1 | .enabled => 2 | .stopping => 3 | .faulted => 4

/-- The axis is ARMING, ENABLED or STOPPING. -/
def AxState.powered : AxState → Bool
  | .arming => true | .enabled => true | .stopping => true | _ => false

/-- STATE_WORD of an axis (Table 08-3). -/
def stateWord (x : AxisRt) : Nat :=
  x.mot.state.code + bitAt x.mot.motionDone 3 + bitAt x.flags.inSync 4 + bitAt x.flags.homed 5 + bitAt x.flags.posLost 6 +
  bitAt x.flags.limPos 7 + bitAt x.flags.limNeg 8 + bitAt x.flags.enBlocked 9 + bitAt x.flags.blocked 10 +
  bitAt x.flags.moveRefused 11 + bitAt (x.mot.chg.isSome || x.mot.camSw.isSome) 12 + bitAt x.mot.pend.isSome 13 +
  (match x.mot.stopKind with | none => 0 | some .ramp => 1 | some .quick => 2 | some _ => 3) * 2 ^ 14

/-- The state objects of an axis brought up to its state (R189, Table 08-11). -/
def publishState (s : State) (a : Nat) : State :=
  let x := s.axis a
  ((s.set Ob.Ctl.STATE_WORD (stateWord x) a).set Ob.Ctl.ACTIVE_MODE x.mot.mode a).set Ob.Ctl.STOP_CAUSE
    (match x.mot.stopCause with | none => 0 | some c => c.code) a

/-- Up data of the axis's worker channel, as last landed (Table 03-7). -/
def chanUp (s : State) (a : Nat) : List Byte :=
  let r := s.nat Ob.Map.RING a
  let p := s.nat Ob.Map.WORKER a
  let c := s.nat Ob.Map.CHANNEL a
  let sc := (s.wk r p).landedSched
  slice (s.wk r p).data (s.chanBase r sc p c).2 (s.chanSize r sc p c).2

/-- TORQUE_ACT of an axis of layout P or V (Table 03-7), in Q1.31. -/
def torqueSample (s : State) (a : Nat) : Int := toSigned 16 (leAt (chanUp s a) (if s.kindOf a = 1 then 8 else 4) 2) * 65536

/-- Offset of STATUS in the up data of a layout (Table 03-7). -/
def statusOff : Nat → Nat
  | 1 => 10 | _ => 6

/-- STATUS of the axis's worker channel (Table 03-7); kinds 1 to 3. -/
def chanStatus (s : State) (a : Nat) : Nat := leAt (chanUp s a) (statusOff (s.kindOf a)) 2

/-- The axis's worker position, for an axis on a ring. -/
def axisWorker (s : State) (a : Nat) : WorkerRt := s.wk (s.nat Ob.Map.RING a) (s.nat Ob.Map.WORKER a)

/-- The set-point state of an axis at its last position run (R194, R198). -/
def setpointKin (x : AxisRt) : Kin := ⟨q32 x.loop.xref, q32 x.loop.vref, q32 x.loop.aref⟩

/-- The set-point state moved on from the last position run to instant `t`. -/
def setpointKinAt (x : AxisRt) (t : Nat) : Kin :=
  match x.mot.plan with
  | some p => kinOf (p.eval t)
  | none =>
    let dt := secs (t - x.loop.tPos)
    if x.mot.mode = 0 then setpointKin x else (setpointKin x).go 0 dt

/-- Profile limits of an axis (AX+0x05). -/
def axisLimits (s : State) (a : Nat) : PlanLimits :=
  ⟨q32 (s.get Ob.Ctl.V_MAX a), q32 (s.get Ob.Ctl.A_MAX a), q32 (s.get Ob.Ctl.D_MAX a), q32 (s.get Ob.Ctl.J_MAX a)⟩

/-- Motion ended: no mode, plan, coupling or jog (R194, R200). -/
def MotSt.clearMotion (m : MotSt) : MotSt := { m with mode := 0, plan := none, cut := false, corr := none, jog := 0 }

/-- An armed or blending ratio change and an armed cam switch cancelled (R223, R227). -/
def dropArmed (s : State) (a : Nat) : State :=
  let m := (s.axis a).mot
  let s := if m.chg.isSome then s.set Ob.Gear.CHANGE_STATE 0 a else s
  let s := if m.camSw.isSome then s.set Ob.Gear.SWITCH_STATE 0 a else s
  if m.chg.isSome || m.camSw.isSome then s.modAxis a fun x => { x with mot := { x.mot with chg := none, chgNext := none, camSw := none } } else s

/-- A pending entry cancelled by a stop, with MOVE_REFUSED (R195). -/
def dropEntry (s : State) (a : Nat) : State :=
  if (s.axis a).mot.pend.isSome then s.modAxis a fun x => { x with mot := { x.mot with pend := none }, flags := { x.flags with moveRefused := true } } else s

/-- The step reference of a port at `t`, in 2⁻¹⁶ step (R313). -/
def stepRef (q : StepRt) (t : Nat) : Rat :=
  if q.tTo ≤ t ∨ q.tTo ≤ q.tFrom then (q.rTgt : Rat)
  else (q.rPrev : Rat) + mkRat ((q.rTgt - q.rPrev) * ((t - q.tFrom : Nat) : Int)) (q.tTo - q.tFrom)

/-- The step output of a port halted (R315): no further step, queue entries discarded. -/
def haltPort (s : State) (p : Nat) : State :=
  let q := s.port p
  s.setPort p { q with queue := [], due := none, step := { q.step with halted := true } }

/-- The reference moves at `t`, or a whole step is still to be emitted (R204, R315). -/
def stepMoving (q : StepRt) (t : Nat) : Bool :=
  let r := stepRef q t
  (decide (q.rPrev ≠ q.rTgt) && decide (t < q.tTo)) || decide (r ≥ ((q.at_ + 1) * 65536 : Int)) || decide (r ≤ ((q.at_ - 1) * 65536 : Int))

/-- The step output of the axis's port halted (R204, R315); POSITION_LOST is set and HOMED cleared where steps were pending or the
reference moved. -/
def haltStep (s : State) (a : Nat) : State :=
  let p := s.nat Ob.Map.LOCAL_PORT a
  let moving := (s.port p).step.primed && !(s.port p).step.halted && stepMoving (s.port p).step s.now
  let s := haltPort s p
  if moving then s.modAxis a fun x => { x with flags := { x.flags with posLost := true, homed := false } } else s

/-- An axis made FAULTED at once: the power stage off, no stop run (Table 08-1, R192). -/
def faultNow (s : State) (a : Nat) : State :=
  if (s.axis a).mot.state = .disabled then s else
    let s := dropArmed s a
    let x := s.axis a
    let m := x.mot.clearMotion
    publishState (s.setAxis a
      { x with mot := { m with state := .faulted, stopKind := none, stopCause := none, stillSince := none, seq := x.mot.seq + 1 },
               flags := { x.flags with power := false, inSync := false, blocked := false },
               loop := { x.loop with ulim := 0, vref := 0, aref := 0 } }) a

/-- The stop plan of a kind from the set-point state (Table 08-6); none for HARD_STOP and BRAKE. -/
def planOfStop (s : State) (a : Nat) (x : AxisRt) (k : StopKind) : Option Plan :=
  match k with
  | .ramp => some (stopPlan x.loop.tPos (setpointKin x) (q32 (s.get Ob.Ctl.D_MAX a)) (q32 (s.get Ob.Ctl.J_MAX a)))
  | .quick => some (stopPlan x.loop.tPos (setpointKin x) (q32 (s.get Ob.Ctl.QSTOP_DEC a)) (q32 (s.get Ob.Ctl.QSTOP_JERK a)))
  | _ => none

/-- A stop of a kind with a cause (R200, R201): starts it on an ENABLED axis, raises it on a STOPPING one; it cancels what is armed or
pending (R195, R223, R227). -/
def startStop (s : State) (a : Nat) (k : StopKind) (c : StopCause) : State :=
  match (s.axis a).mot.state with
  | .enabled =>
    let s := dropEntry (dropArmed s a) a
    let x := s.axis a
    let homing := x.mot.mode = 6 ∧ x.mot.home.phase ≠ 7
    let m := x.mot.clearMotion
    let s1 := s.setAxis a
      { x with mot := { m with state := .stopping, stopKind := some k, stopCause := some c, stopStart := s.now,
                               motionDone := false, plan := planOfStop s a x k, seq := x.mot.seq + 1 },
               flags := { x.flags with inSync := false } }
    let s1 := if homing then s1.set Ob.Home.HOME_STATE 5 a else s1
    let s1 := if 3 ≤ k.rank && s.kindOf a = 5 then haltStep s1 a else s1
    publishState s1 a
  | .stopping =>
    let s := dropEntry s a
    let x := s.axis a
    let k0 := x.mot.stopKind.getD k
    let c0 := x.mot.stopCause.getD c
    let c1 := if c0.rank < c.rank then c else c0
    if k0.rank < k.rank then
      let s1 := s.setAxis a
        { x with mot := { x.mot with stopKind := some k, stopCause := some c1, motionDone := false,
                                     plan := planOfStop s a x k, seq := x.mot.seq + 1 } }
      let s1 := if 3 ≤ k.rank && s.kindOf a = 5 then haltStep s1 a else s1
      publishState s1 a
    else
      publishState (s.setAxis a { x with mot := { x.mot with stopCause := some c1, seq := x.mot.seq + 1 } }) a
  | _ => s

/-- Stop kind of a reaction code (R201, Table 07-6). -/
def reactionStop : Int → Option StopKind
  | 2 => some .quick | 3 => some .hard | 4 => some .brake | _ => none

/-- A reaction of an axis, without a fault code (R185, R201). -/
def react (s : State) (a : Nat) (reaction : Int) : State :=
  match reactionStop reaction with
  | none => s
  | some k =>
    match (s.axis a).mot.state with
    | .arming => faultNow s a
    | _ => startStop s a k .fault

/-- A fault code recorded in FAULT_SET and, when first, in FAULT_CODE (R191). -/
def recordFault (s : State) (a code : Nat) : State :=
  let fs := s.nat Ob.Ctl.FAULT_SET a
  let s := s.set Ob.Ctl.FAULT_SET (setBit fs code true) a
  if s.get Ob.Ctl.FAULT_CODE a = 0 then s.set Ob.Ctl.FAULT_CODE code a else s

/-- A fault of an axis with a reaction (R191, R201): recorded, reported, and its reaction taken. -/
def raiseFault (s : State) (a code : Nat) (reaction : Int) : State :=
  let x := s.axis a
  let s := (recordFault s a code).warn 191 a code
  -- a following-error fault in a quick stop raises the reaction to HSTOP, in a hard stop it takes none (R183)
  let reaction := if code = 1 ∧ x.mot.state = .stopping then
      (match x.mot.stopKind with
       | some .quick => max 3 reaction
       | some .hard => 0
       | some .brake => 0
       | _ => reaction)
    else reaction
  react s a reaction

/-- A fault that makes the axis FAULTED at once (R75, R192, R203, R343). A DISABLED axis takes none. -/
def faultAtOnce (s : State) (a code : Nat) : State :=
  if (s.axis a).mot.state = .disabled then s else
  if (s.axis a).mot.state = .faulted then recordFault s a code else
    faultNow ((recordFault s a code).warn 192 a code) a

/-- The conditions of Table 08-1 for ARMING, beside ENABLE. -/
def armConditions (s : State) (a : Nat) : Bool :=
  let k := s.kindOf a
  decide (k ≠ 0) && (if k ≤ 3 then bit (chanStatus s a) 0 else true) && decide (s.get Ob.AxS.SAFE_DEMAND a = 0)

/-- Loop states at entry into ARMING (R171, R190). -/
def armLoops (x : AxisRt) : AxisRt :=
  { x with
    loop := { x.loop with uI := 0, df := 0, late := false, b1s1 := 0, b1s2 := 0, b1x := 0, b2s1 := 0, b2s2 := 0, b2x := 0, xdPrev := none,
                          xref := x.fb.xact, vref := 0, aref := 0, vp := 0, aff := 0, vcmd := 0, ulim := 0 },
    cur := { x.cur with uId := 0, uIq := 0, idref := 0, iqref := 0, vd := 0, vq := 0, vAlpha := 0, vBeta := 0, feRun := 0, feDone := false, sumRun := 0, velFlags := 0 },
    h1 := none, h2 := none }

/-- The axis's feedback is absolute: an ENC unit in ABSOLUTE or ABS_PLUS_QUAD, or a worker count declared absolute (R214, R241). -/
def fbAbsolute (s : State) (a : Nat) : Bool :=
  let src := s.get Ob.AxFb.FB_SOURCE a
  if src = 2 then decide (2 ≤ s.get Ob.Fb.MODE (s.nat Ob.AxFb.FB_UNIT a))
  else if src = 0 ∨ src = 1 then s.flag Ob.AxFb.FB_WORKER_ABS a else false

/-- The feedback unit of an axis as POS_SOURCE numbers it (Table 09-1). -/
def axisUnit (s : State) (a : Nat) : Option Nat :=
  match s.nat Ob.AxFb.FB_SOURCE a with
  | 2 => some (s.nat Ob.AxFb.FB_UNIT a)
  | 3 => some (s.nat Ob.AxFb.FB_UNIT a + 8)
  | _ => none

/-- Dictionary index instance of a feedback unit: ENC 0–7, ME 8–11 stand sixteen indexes on (Table 09-6). -/
def fbIx (u : Nat) : Nat := if u < 8 then u else u + 8

/-- The sample of the last whistle is complete at the present instant (R229); in a pair master encoders are used a whistle late (R372). -/
def sampleReady (s : State) (u : Nat) : Bool :=
  (match (s.fbu u).abs.readyAt with | some t => decide (t ≤ s.now) | none => false) && !(inPair s && decide (8 ≤ u))

/-- Blocks of an axis, in order: their state areas follow one another in the frame (R260). -/
def blocksOf (s : State) (a : Nat) : List Nat :=
  (List.range 32).filter fun u => decide (s.nat Ob.Ub.POINT u ≠ 0) && (s.bytes Ob.Ub.AXES u).any fun b => b.toNat = a

/-- Frame offset of a block's state area for an axis (R260: 0x0E00 to 0x0FFF). -/
def areaOff (s : State) (a u : Nat) : Nat := 0xE00 + (((blocksOf s a).filter fun v => v < u).map fun v => s.nat Ob.Ub.STATE_SIZE v).sum

/-- The state areas of the blocks with RESET_ON_ARM of an axis set to 0 (R278). -/
def armAreas (s : State) (a : Nat) (m : Mem) : Mem :=
  ((blocksOf s a).filter fun u => s.flag Ob.Ub.RESET_ON_ARM u).foldl
    (fun m u => Mem.writeBytes m (areaOff s a u) (List.replicate (s.nat Ob.Ub.STATE_SIZE u) 0)) m

/-- The step output of an axis of kind 5 leaves its halt at entry into ARMING (R204, R315). -/
def armPort (s : State) (a : Nat) : State :=
  if s.kindOf a = 5 then
    let p := s.nat Ob.Map.LOCAL_PORT a
    let q := s.port p
    s.setPort p { q with step := { q.step with halted := false, primed := false } }
  else s

/-- Entry into ARMING (R190, R171, R214, R239, R315). -/
def enterArming (s : State) (a : Nat) : State :=
  let x := armLoops (s.axis a)
  let homedAbs := decide (s.get Ob.Home.HOME_METHOD a = 5) && fbAbsolute s a && decide (s.get Ob.AxFb.FB_STATE a = 1)
  let m := x.mot.clearMotion
  let s := s.setAxis a
    { x with user := armAreas s a x.user,
             mot := { m with state := .arming, armAt := s.now, stopKind := none, stopCause := none, stillSince := none,
                             motionDone := false, follow := {}, seq := x.mot.seq + 1 },
             flags := { x.flags with enBlocked := false, power := true, homed := x.flags.homed || homedAbs } }
  -- an absolute check at every entry into ARMING of a bound axis (R239)
  let s := if s.get Ob.AxFb.FB_SOURCE a = 2 ∧ s.get Ob.Fb.MODE (s.nat Ob.AxFb.FB_UNIT a) = 3 then
      let u := s.nat Ob.AxFb.FB_UNIT a
      let f := s.fbu u
      s.setFbu u { f with abs := { f.abs with checkDue := true } }
    else s
  publishState (armPort s a) a

/-- An enabled request on a DISABLED axis: ARMING, or ENABLE_BLOCKED (Table 08-1). -/
def tryArm (s : State) (a : Nat) : State :=
  let x := s.axis a
  if x.mot.state = .disabled ∧ bit (s.nat Ob.Ctl.CONTROL a) 0 = true then
    if x.mot.enableSeen0 && armConditions s a then enterArming s a
    else publishState (s.setAxis a { x with flags := { x.flags with enBlocked := true } }) a
  else s

/-- The worker of a ring axis reports STATUS.ENABLED; local axes at once (Table 08-1). -/
def workerEnabled (s : State) (a : Nat) : Bool :=
  if s.kindOf a ≤ 3 then bit (chanStatus s a) 1 else true

/-- ARMING ends in ENABLED, in HOLD (Table 08-1, R190). -/
def checkArmed (s : State) (a : Nat) : State :=
  let x := s.axis a
  if x.mot.state = .arming ∧ workerEnabled s a = true ∧ x.mot.armAt + s.nat Ob.Lim.ARM_DELAY a * 1000000 ≤ s.now then
    publishState (s.setAxis a { x with mot := { x.mot with state := .enabled, mode := 0, seq := x.mot.seq + 1 } }) a
  else s

/-- ARM_TIMEOUT in ARMING (Table 08-1). -/
def checkArmTimeout (s : State) (a : Nat) : State :=
  let x := s.axis a
  if x.mot.state = .arming ∧ x.mot.armAt + s.nat Ob.Lim.ARM_TIMEOUT a * 1000000 ≤ s.now then faultAtOnce s a 14 else s

/-- The axis is at standstill (R203). -/
def atStandstill (s : State) (a : Nat) : Bool :=
  let x := s.axis a
  let planDone := match x.mot.plan with | some p => decide (p.endAt ≤ s.now) | none => true
  if s.kindOf a = 5 then planDone
  else match x.mot.stillSince with
    | some t => decide (t + s.nat Ob.Lim.STANDSTILL_TIME a * 1000000 ≤ s.now) && planDone
    | none => false

/-- End of a stop at standstill: ENABLED, DISABLED or FAULTED by its strongest cause (Table 08-1, R200). -/
def endStop (s : State) (a : Nat) : State :=
  let x := s.axis a
  let hard := match x.mot.stopKind with | some k => decide (3 ≤ k.rank) | none => false
  let lp := if hard && decide (s.kindOf a ≠ 5) then { x.loop with xref := x.fb.xact, vref := 0, aref := 0 } else { x.loop with vref := 0, aref := 0 }
  let st : AxState := match x.mot.stopCause with
    | some .disable => .disabled
    | some .fault => .faulted
    | _ => .enabled
  let m := x.mot.clearMotion
  publishState (s.setAxis a
    { x with mot := { m with state := st, stopKind := none, stopCause := none, stillSince := none, motionDone := true, seq := x.mot.seq + 1 },
             flags := { x.flags with power := decide (st = .enabled) },
             loop := if st = .enabled then lp else { lp with ulim := 0 } }) a

/-- A stop ends when the axis stands still (R203). -/
def checkStandstill (s : State) (a : Nat) : State :=
  if (s.axis a).mot.state = .stopping ∧ atStandstill s a = true then endStop s a else s

/-- STOP_TIMEOUT of a stop (R203): RAMP and QUICK are raised to HARD_STOP with a fresh timeout, HARD and BRAKE fault the axis. -/
def checkStopTimeout (s : State) (a : Nat) : State :=
  let x := s.axis a
  if x.mot.state = .stopping ∧ atStandstill s a = false ∧ x.mot.stopStart + s.nat Ob.Lim.STOP_TIMEOUT a * 1000000 ≤ s.now then
    match x.mot.stopKind with
    | some .hard => faultAtOnce s a 15
    | some .brake => faultAtOnce s a 15
    | _ =>
      let s := startStop s a .hard (x.mot.stopCause.getD .command)
      s.modAxis a fun x => { x with mot := { x.mot with stopStart := s.now } }
  else s

/-- The reset condition of one fault code (Table 08-4). -/
def faultClearable (s : State) (a code : Nat) : Bool :=
  let r := s.nat Ob.Map.RING a
  let onRing := decide (s.get Ob.Map.RING a < 4)
  let own := bit (axisWorker s a).up 19
  match code with
  | 4 => !((s.axis a).flags.inPos && (s.axis a).flags.inNeg)
  | 6 => if onRing && (s.axis a).flags.toldStop then !own else true
  | 7 => if onRing then s.inPlay r && (s.ring r).lastOk && !own else true
  | 8 => if onRing then decide (s.get Ob.WkT.OFFSIDE r (s.nat Ob.Map.WORKER a) = 0) else true
  | 11 => decide (s.get Ob.Mst.STATE (s.nat Ob.Gear.MASTER a) = 1)
  | 12 => if onRing then !own else true
  | 13 => if onRing then !bit (axisWorker s a).up 18 else !(s.port (s.nat Ob.Map.LOCAL_PORT a)).tripped
  | 17 => decide (s.get Ob.AxS.SAFE_DEMAND a = 0)
  | 18 =>
    let src := s.get Ob.AxFb.FB_SOURCE a
    if src = 2 then !(s.fbu (s.nat Ob.AxFb.FB_UNIT a)).quad.fault
    else if src = 3 then !(s.fbu (8 + s.nat Ob.AxFb.FB_UNIT a)).quad.fault
    else if src = 0 ∨ src = 1 then bit (chanStatus s a) 2 else true
  | _ => true

/-- Every fault of FAULT_SET may be reset (R191). -/
def allClearable (s : State) (a : Nat) : Bool :=
  ((List.range 19).filter fun f => bit (s.nat Ob.Ctl.FAULT_SET a) f).all fun f => faultClearable s a f

/-- A rising edge of FAULT_RESET (R191, R35): a FAULTED axis whose faults may be reset becomes DISABLED; the faults of a DISABLED axis are cleared the
same way (assumption log 182). -/
def resetFaults (s : State) (a : Nat) : State :=
  let x := s.axis a
  if (x.mot.state = .faulted ∨ (x.mot.state = .disabled ∧ s.get Ob.Ctl.FAULT_SET a ≠ 0)) ∧ allClearable s a = true then
    let lf := s.nat Ob.AxD.LOOP_FLAGS a
    let s := ((s.set Ob.Ctl.FAULT_SET 0 a).set Ob.Ctl.FAULT_CODE 0 a).set Ob.AxD.LOOP_FLAGS (setBit lf 8 false) a
    publishState (s.setAxis a
      { x with mot := { x.mot with state := .disabled, enableSeen0 := !(bit (s.nat Ob.Ctl.CONTROL a) 0), seq := x.mot.seq + 1 },
               flags := { x.flags with toldStop := false } }) a
  else s

/-- A jog starts, changes or ends (R199): only in HOLD, or in a profile mode with MOTION_DONE, and not in a machine stop (R206). -/
def jogUpdate (s : State) (a : Nat) : State :=
  let x := s.axis a
  let cw := s.nat Ob.Ctl.CONTROL a
  let want : Int := if s.get Ob.Mach.STOP_ACTIVE ≠ 0 then 0
    else if bit cw 5 && !bit cw 6 then 1 else if bit cw 6 && !bit cw 5 then -1 else 0
  if x.mot.state ≠ .enabled ∨ want = x.mot.jog then s
  else if x.mot.jog ≠ 0 ∨ x.mot.mode = 0 ∨ ((x.mot.mode = 1 ∨ x.mot.mode = 2) ∧ x.mot.motionDone = true) then
    let l := axisLimits s a
    let v := min (q32 (s.get Ob.Ctl.JOG_VELOCITY a)) l.v
    let k := setpointKinAt x x.loop.tPos
    publishState (s.setAxis a
      { x with mot := { x.mot with jog := want, mode := 7, plan := some (velocityPlan x.loop.tPos k (want * v) l), cut := false, motionDone := false,
                                   seq := x.mot.seq + 1 } }) a
  else s

/-- The ENABLE level of CONTROL judged (Table 08-1): `on` is its new value. -/
def enableLevel (s : State) (a : Nat) (on : Bool) : State :=
  if on then tryArm s a
  else
    let s := s.modMot a fun m => { m with enableSeen0 := true }
    let s := s.modAxis a fun x => { x with flags := { x.flags with enBlocked := false } }
    match (s.axis a).mot.state with
    | .arming =>
      publishState (s.modAxis a fun x =>
        { x with mot := { x.mot.clearMotion with state := .disabled }, flags := { x.flags with power := false } }) a
    | .enabled => startStop s a (match s.get Ob.Ctl.DISABLE_STOP a with | 1 => .ramp | 2 => .quick | _ => .hard) .disable
    | .stopping => startStop s a (match s.get Ob.Ctl.DISABLE_STOP a with | 1 => .ramp | 2 => .quick | _ => .hard) .disable
    | _ => publishState s a

/-- Something asked of an axis, for its next node (R187). -/
def askAxis (s : State) (a : Nat) (k : Ask) : State := s.modAxis a fun x => { x with mot := { x.mot with asks := x.mot.asks ++ [k] } }

/-- A CONTROL word written (R188); the transitions it causes are evaluated in the axis's next node (R187). -/
def controlWrite (s : State) (a : Nat) (w : Nat) : State := askAxis (s.set Ob.Ctl.CONTROL w a) a (.control (s.nat Ob.Ctl.CONTROL a) w)

/-- The axis is coupled to a virtual master (R205). -/
def onVirtual (s : State) (a : Nat) : Bool :=
  let m := (s.axis a).mot.mode
  decide (m = 3 ∨ m = 4) && decide (s.get Ob.Mst.TYPE (s.nat Ob.Gear.MASTER a) = 1)

/-- A CONTROL write evaluated (R188): edges judged against the value before; fault reset, ENABLE, stops and jogs. -/
def judgeControl (s : State) (a old w : Nat) : State :=
  let rise (k : Nat) : Bool := bit w k && !bit old k
  let s := if rise 4 then resetFaults s a else s
  let s := if bit w 0 != bit old 0 then enableLevel s a (bit w 0) else s
  let s := if rise 1 then startStop s a .ramp .command else s
  let s := if rise 2 then startStop s a .quick .command else s
  let s := if rise 3 then startStop s a .hard .command else s
  jogUpdate s a

/-- A machine stop of a level evaluated for an axis (R205): 1 RAMP, 2 QUICK, 3 HARD. -/
def judgeMachineStop (s : State) (a level : Nat) : State :=
  let st := (s.axis a).mot.state
  if level = 1 then (if st = .enabled ∧ onVirtual s a = false then startStop s a .ramp .machineStop else s)
  else if st = .enabled ∨ st = .stopping then startStop s a (if level = 2 then .quick else .hard) .machineStop
  else s

/-- What is asked of an axis evaluated in order (R187). -/
def judgeAsks (s : State) (a : Nat) : State :=
  let l := (s.axis a).mot.asks
  if l.isEmpty then s else
    forList l (fun k s => match k with | .control old w => judgeControl s a old w | .machine v => judgeMachineStop s a v)
      (s.modAxis a fun x => { x with mot := { x.mot with asks := [] } })

/-- JOG_POS and JOG_NEG of every axis cleared by a change of possession (R188). -/
def clearJogs (s : State) : State :=
  forBelow 256 (fun a s =>
    let w := s.nat Ob.Ctl.CONTROL a
    if bit w 5 || bit w 6 then controlWrite s a (setBit (setBit w 5 false) 6 false) else s) s

/-- Every axis of a ring that is not DISABLED faulted with a code (R75, R38). -/
def faultRing (s : State) (r code : Nat) (told : Bool) : State :=
  forList (s.axesOn r) (fun a s =>
    let s := if (s.axis a).mot.state = .disabled then s
      else s.modAxis a fun x => { x with flags := { x.flags with toldStop := x.flags.toldStop || told } }
    faultAtOnce s a code) s

end Sys2Proof.Machine
end

