-- ==== Sys2Proof/Machine/Mailbox.lean ====
section
/-! DEFINITION. The mailbox hub (R387 to R398): endpoint registers, posts, acknowledgements, timeouts, resets, crossed posts. -/

namespace Sys2Proof.Machine

/-- Bits of OUT_CTRL and OUT_STATUS (Tables 16-4, 16-5). -/
def goBit : Nat := 31
def ctrlDest (c : Word) : Nat := bits c.toNat 17 4
def ctrlTimeout (c : Word) : Nat := bits c.toNat 0 17

/-- The endpoints that `x` may post to (Table 16-1). -/
def mayPost (x d : Nat) : Bool :=
  if x = d then false
  else if x = 0 ∨ x = 13 ∨ x = 14 then decide (1 ≤ d ∧ d ≤ 4)
  else if x ≤ 4 then decide (d ≤ 14)
  else decide (1 ≤ d ∧ d ≤ 12)

/-- A word of OUT_MSG. -/
def Endpoint.word (e : Endpoint) (k : Nat) : Word := SMap.getD e.out k 0

/-- OUT_STATUS with a bit set. -/
def Endpoint.raise (e : Endpoint) (k : Nat) : Endpoint := { e with status := e.status ||| BitVec.ofNat 32 (2 ^ k) }

/-- The object PENDING brought up to IN_PENDING (Table 16-8). -/
def putEp (s : State) (x : Nat) (e : Endpoint) : State := (s.setEp x e).set Ob.Mbx.PENDING e.pending x

/-- The wait of `x` ends with a bit of OUT_STATUS (31 ACKED, 30 TIMEOUT, 29 DROPPED, 28 CROSS); GO clears (R393). -/
def endWait (s : State) (x k : Nat) : State :=
  let e := s.ep x
  match e.post with
  | none => s
  | some p =>
    let e := (e.raise k)
    let e := if p.crossed then e.raise 28 else e
    s.setEp x { e with post := none, ctrl := e.ctrl &&& 0x7FFFFFFF }

/-- The doorbell of `y` rings (R389, R272). -/
def ringDoorbell (s : State) (y : Nat) : State :=
  if (s.ep y).dbEn then
    let s := if 5 ≤ y ∧ y ≤ 12 then s.modAce (y - 5) fun a => { a with irq := setBit a.irq 0 true } else s
    s.emit (.doorbell y)
  else s

/-- A message stands in slot `x` of `y` (R389): its words copied, IN_PENDING set, the doorbell rung; a power-gated engine takes a wake event first
(R402). -/
def deliver (s : State) (x y : Nat) (words : List Word) : State :=
  let e := s.ep y
  let slots := (List.range words.length).foldl (fun m i => SMap.put m (x * 16 + i) (words.getD i 0)) e.slots
  let s := putEp s y { e with slots := slots, pending := setBit e.pending x true }
  if 5 ≤ y ∧ y ≤ 12 ∧ (s.ace (y - 5)).powered = false then s.modAce (y - 5) fun a => { a with waking := true } else ringDoorbell s y

/-- ACE_POWER (Table 16-7). -/
def publishAces (s : State) : State := s.put1 Ob.Pow.ACE_POWER (((List.range 8).map fun e => bitAt (s.ace e).powered e).sum)

/-- Engine `e` powered for a dispatched item or a post; its doorbell rings as it first runs where a message waits (R402). -/
def wakeEngine (s : State) (e : Nat) : State :=
  let x := s.ace e
  if x.powered then s else
    let s := s.modAce e fun x => { x with powered := true, waking := false, idleFrom := s.now, gatedAt := s.now }
    let s := publishAces (s.count Ob.Pow.WAKE_COUNT)
    if (s.ep (5 + e)).pending ≠ 0 then ringDoorbell s (5 + e) else s

/-- The refusal of a GO (R391): 0 none, 1 LENGTH, 2 TIMEOUT_RANGE, 3 DEST, 4 SLOT_BUSY. -/
def goRefusal (s : State) (x : Nat) (ctrl : Word) : Nat :=
  let w := ((s.ep x).word 0).toNat
  let len := bits w 0 5
  let d := ctrlDest ctrl
  let remote := bits w 28 4
  if len = 0 ∨ 16 < len ∨ bits w 24 4 ≠ 0 ∨ bits w 5 3 ≠ 0 ∨ bits ctrl.toNat 21 10 ≠ 0 then 1
  else if ctrlTimeout ctrl = 0 ∨ 100000 < ctrlTimeout ctrl then 2
  else if mayPost x d = false ∨ (d ≠ 14 ∧ remote ≠ 0) ∨ (d = 14 ∧ mayPost 14 remote = false) then 3
  else if d ≠ 14 ∧ (bit (s.ep d).pending x = true ∨ bit (s.ep d).orphan x = true) then 4
  else 0

/-- The message that `x` sends. -/
def outWords (e : Endpoint) : List Word := (List.range (bits (e.word 0).toNat 0 5)).map e.word

/-- The sender `y` has a pending message at `x`, and waits for it (R396). -/
def hasPost (s : State) (y x : Nat) : Bool :=
  match (s.ep y).post with
  | some p => decide (p.dest = x) && bit (s.ep x).pending y
  | none => false

/-- A post of `x` to the partner goes out as a MAILBOX record where the bench link is locked; else it waits (R398). -/
def carryPost (s : State) (x : Nat) : State :=
  let e := s.ep x
  match e.post with
  | some p =>
    if p.dest = 14 ∧ p.delivered = false ∧ s.benchUp = true then
      (s.setEp x { e.raise 27 with post := some { p with delivered := true, words := [] } }).emit (.mail p.remote x p.words)
    else s
  | none => s

/-- The bench link is locked: the posts that waited for it go out (R398). -/
def carryPosts (s : State) : State := forBelow 15 (fun x s => carryPost s x) s

/-- The partner has restarted (R394, R395): posts that it holds end with DROPPED, messages from it become orphans. -/
def partnerReset (s : State) : State :=
  let s := forBelow 15 (fun x s => match (s.ep x).post with
    | some p => if p.dest = 14 ∧ p.delivered = true then (endWait s x 29).count Ob.Mbx.DROPPED 14 else s
    | none => s) s
  forBelow 15 (fun y s =>
    let e := s.ep y
    if bit e.pending 14 = true ∧ bit e.orphan 14 = false then (s.setEp y { e with orphan := setBit e.orphan 14 true }).count Ob.Mbx.ORPHANS y else s) s

/-- GO set by `x` with an OUT_CTRL value at the present instant (R389, R391, R396, R398). -/
def postGo (s : State) (x : Nat) (ctrl : Word) : State :=
  let e := s.ep x
  if e.post.isSome then s else
    let r := goRefusal s x ctrl
    let e := { e with ctrl := ctrl &&& 0x7FFFFFFF }
    if r ≠ 0 then
      (s.setEp x { e with status := (e.status &&& 0xF8FFFFFF) ||| BitVec.ofNat 32 (r * 2 ^ 24) }).count Ob.Mbx.REFUSED x
    else
      let d := ctrlDest ctrl
      let p : PostSt := { dest := d, remote := bits (e.word 0).toNat 28 4, deadline := s.now + ctrlTimeout ctrl * 1000 }
      let s := s.count Ob.Mbx.POSTS x
      if d = 14 then
        carryPost (s.setEp x { e with ctrl := ctrl, post := some { p with delivered := false, words := outWords e } }) x
      else if hasPost s d x then
        let s := (s.count Ob.Mbx.CROSSES x).count Ob.Mbx.CROSSES d
        if x < d then
          -- the post of the higher-numbered endpoint is withdrawn
          let o := s.ep d
          let s := s.setEp d { o with post := none, ctrl := o.ctrl &&& 0x7FFFFFFF, status := (o.status &&& 0xF7FFFFFF) ||| BitVec.ofNat 32 (2 ^ 28) }
          let s := s.setEp x { e.raise 27 with ctrl := ctrl, post := some { p with crossed := true }, pending := setBit e.pending d false }
          let s := s.set Ob.Mbx.PENDING (s.ep x).pending x
          deliver s x d (outWords e)
        else
          let s := s.setEp x { e with status := (e.status &&& 0xF7FFFFFF) ||| BitVec.ofNat 32 (2 ^ 28) }
          s.modEp d fun o => { o with post := o.post.map fun q => { q with crossed := true } }
      else
        let s := s.setEp x { e.raise 27 with ctrl := ctrl, post := some p }
        deliver s x d (outWords e)

/-- The acknowledgement of slot `k` by endpoint `y` (R392, R395). -/
def ackSlot (s : State) (y k : Nat) : State :=
  let e := s.ep y
  if bit e.pending k = false then s else
    let orphan := bit e.orphan k
    let s := putEp s y { e with pending := setBit e.pending k false, orphan := setBit e.orphan k false }
    if orphan then s
    else if k = 14 then (if s.benchUp then s.emit (.mailAck y) else s)
    else if (match (s.ep k).post with | some p => decide (p.dest = y) | none => false) then
      (endWait s k 31).count Ob.Mbx.ACKED k
    else s

/-- IN_ACK written (R392): every set bit acknowledges its slot, in rising order. -/
def ackWrite (s : State) (y w : Nat) : State := forBelow 15 (fun k s => if bit w k then ackSlot s y k else s) s

/-- The wait of `x` runs out (R393): the message is withdrawn, GO clears, TIMEOUT. -/
def expirePost (s : State) (x : Nat) : State :=
  match (s.ep x).post with
  | none => s
  | some p =>
    if s.now < p.deadline then s else
      let s := if p.dest = 14 then s else
        let o := s.ep p.dest
        putEp s p.dest { o with pending := setBit o.pending x false }
      (endWait s x 30).count Ob.Mbx.TIMEOUTS x

/-- Receiver `y` is reset (R394): every message pending in its slots is discarded, its sender's wait ends with DROPPED. -/
def resetReceiver (s : State) (y : Nat) : State :=
  let e := s.ep y
  let s := forBelow 15 (fun k s =>
    if bit e.pending k then
      let s := if bit e.orphan k = false ∧ (match (s.ep k).post with | some p => decide (p.dest = y) | none => false) = true then endWait s k 29 else s
      s.count Ob.Mbx.DROPPED y
    else s) s
  putEp s y { s.ep y with pending := 0, orphan := 0 }

/-- Sender `x` is reset (R395): its outbox returns to reset values; a pending message of it becomes an orphan. -/
def resetSender (s : State) (x : Nat) : State :=
  let e := s.ep x
  let s := match e.post with
    | some p =>
      if p.dest < 14 ∧ bit (s.ep p.dest).pending x = true then
        (s.modEp p.dest fun o => { o with orphan := setBit o.orphan x true }).count Ob.Mbx.ORPHANS p.dest
      else s
    | none => s
  s.modEp x fun e => { e with out := [], ctrl := 0, status := 0, post := none }

/-- An endpoint is reset as receiver and as sender (R394, R395). -/
def resetEndpoint (s : State) (x : Nat) : State := resetSender (resetReceiver s x) x

/-- A 32-bit register of an endpoint read at an offset (Table 16-2). -/
def epRead (s : State) (x off : Nat) : Word :=
  let e := s.ep x
  let k := off / 4
  if k < 16 then e.word k
  else if k = 16 then e.ctrl
  else if k = 17 then e.status
  else if k = 18 then BitVec.ofNat 32 e.pending
  else if k = 19 then BitVec.ofNat 32 e.orphan
  else if k = 21 then (if e.dbEn then 1 else 0)
  else if 256 ≤ k ∧ k < 256 + 240 then SMap.getD e.slots (k - 256) 0
  else 0

/-- A 32-bit register of an endpoint written at an offset (Table 16-2; R388, R389, R392). -/
def epWrite (s : State) (x off : Nat) (w : Word) : State :=
  let e := s.ep x
  let k := off / 4
  if k < 16 then s.setEp x { e with out := SMap.put e.out k w }
  else if k = 16 then
    if bit w.toNat goBit then postGo s x w
    else s.setEp x { e with ctrl := (w &&& 0x7FFFFFFF) ||| (e.ctrl &&& 0x80000000) }
  else if k = 17 then s.setEp x { e with status := e.status &&& (w ^^^ 0xFFFFFFFF) }
  else if k = 20 then ackWrite s x w.toNat
  else if k = 21 then s.setEp x { e with dbEn := bit w.toNat 0 }
  else s

/-- OUT_CTRL_GO: endpoint `x` sets GO at `t`, writing OUT_CTRL (R389, R391, R396). -/
def execOutCtrlGo (x : Nat) (ctrl : Word) (t : Nat) (s : State) : Host.Outcome State Fault Refusal := whileOn s t <|
  .next (postGo (s.at t) x (ctrl ||| 0x80000000))

/-- IN_ACK: endpoint `x` writes IN_ACK at `t` (R392). -/
def execInAck (x : Nat) (w : Word) (t : Nat) (s : State) : Host.Outcome State Fault Refusal := whileOn s t <|
  .next (ackWrite (s.at t) x w.toNat)

/-- MAILBOX_TIMEOUT: the wait of endpoint `x` reaches its timeout at `t` (R393). -/
def execMailboxTimeout (x t : Nat) (s : State) : Host.Outcome State Fault Refusal := whileOn s t <| .next (expirePost (s.at t) x)

/-- MC0 serves slot 0 (R397): it acknowledges the host's message and answers an ECHO with the same words as type 0x8001; the
timeout of its own post is not stated (a free value within Table 16-4). -/
def echoAnswer (s : State) : State :=
  let e := s.ep 1
  if bit e.pending 0 = false then s else
    let w0 := (SMap.getD e.slots 0 0).toNat
    let words := (List.range (bits w0 0 5)).map fun i => SMap.getD e.slots i 0
    let s := ackSlot s 1 0
    if bits w0 8 16 = 1 then
      let (f, s) := s.freeDraw 17
      let a := (BitVec.ofNat 32 (0x8001 * 256 + bits w0 0 5)) :: words.drop 1
      let s := s.modEp 1 fun e => { e with out := (List.range a.length).foldl (fun m i => SMap.put m i (a.getD i 0)) e.out }
      postGo s 1 (BitVec.ofNat 32 (2 ^ 31 + f % 100000 + 1))
    else s

/-- ECHO: MC0 serves the host's message at `t`; MC1 to MC3 acknowledge theirs, which has no effect (R397). -/
def execMailEcho (t : Nat) (s : State) : Host.Outcome State Fault Refusal := whileOn s t <| .next (forList [2, 3, 4] (fun y s => ackSlot s y 0) (echoAnswer (s.at t)))

/-- A MAILBOX record of the partner (R398): a post into slot 14 of an endpoint (`ack` false), or the acknowledgement of an
endpoint's post. Between units the unit with the lower SERIAL counts as lower-numbered (R396). -/
def mailRecord (s : State) (ack : Bool) (x : Nat) (words : List Word) : State :=
  if ack then
    match (s.ep x).post with
    | some p => if p.dest = 14 then (endWait s x 31).count Ob.Mbx.ACKED x else s
    | none => s
  else
    match (s.ep x).post with
    | some p =>
      if p.dest = 14 then
        let s := s.count Ob.Mbx.CROSSES x
        if (unitSerial : Int) < s.get Ob.Pair.PARTNER_SERIAL then
          s.modEp x fun o => { o with post := o.post.map fun q => { q with crossed := true } }
        else
          let o := s.ep x
          deliver (s.setEp x { o with post := none, ctrl := o.ctrl &&& 0x7FFFFFFF, status := (o.status &&& 0xF7FFFFFF) ||| BitVec.ofNat 32 (2 ^ 28) }) 14 x words
      else deliver s 14 x words
    | none => deliver s 14 x words

/-- MAILBOX: a MAILBOX record arrives at `t` (R398). -/
def execMailbox (ack : Bool) (x : Nat) (words : List Word) (t : Nat) (s : State) : Host.Outcome State Fault Refusal := whileOn s t <|
  .next (mailRecord (s.at t) ack x words)

end Sys2Proof.Machine
end

