-- ==== Sys2Proof/Machine/Ace.lean ====
section
/-! DEFINITION. The core of an Axis Compute Engine (R257 to R278): registers, latencies, predicates, counters, exceptions, voids,
address generation and the end of a bundle. -/

namespace Sys2Proof.Machine

/-! ### Registers -/

/-- A general register. -/
def AceRt.gR (x : AceRt) (n : Nat) : DWord := SMap.getD x.g n 0
/-- A pointer. -/
def AceRt.pR (x : AceRt) (n : Nat) : Word := SMap.getD x.p n 0
/-- A modifier. -/
def AceRt.mR (x : AceRt) (n : Nat) : Word := SMap.getD x.m n 0
/-- An addressing-mode word. -/
def AceRt.lR (x : AceRt) (n : Nat) : Word := SMap.getD x.l n 0
/-- An accumulator as accumulating operations see it. -/
def AceRt.accR (x : AceRt) (n : Nat) : Int := SMap.getD x.acc n 0
/-- An accumulator as extractions see it. -/
def AceRt.accS (x : AceRt) (n : Nat) : Int := SMap.getD x.accSeen n 0
/-- A predicate; c0 reads 1 (R261). -/
def AceRt.pred (x : AceRt) (n : Nat) : Bool := if n = 0 then true else x.c.getLsbD n

/-- A bit of STATUS (Table 10-4). -/
def AceRt.st (x : AceRt) (k : Nat) : Bool := x.status.getLsbD k
/-- A 64-bit register with one bit set to a value. -/
def bit64 (w : DWord) (k : Nat) (b : Bool) : DWord := BitVec.ofNat 64 (setBit w.toNat k b)
/-- STATUS with one bit set to a value. -/
def AceRt.stSet (x : AceRt) (k : Nat) (b : Bool) : AceRt := { x with status := bit64 x.status k b }
/-- USER mode (Table 10-4). -/
def AceRt.user (x : AceRt) : Bool := x.st 8
/-- Active repeat levels (Table 10-4). -/
def AceRt.depth (x : AceRt) : Nat := bits x.status.toNat 3 2
/-- STATUS with LOOP_DEPTH set. -/
def AceRt.setDepth (x : AceRt) (d : Nat) : AceRt :=
  { x with status := BitVec.ofNat 64 (x.status.toNat - x.depth * 8 + (d % 4) * 8) }

/-- A special register as MFS reads it (R261, Table 10-4: XLD_BUSY). -/
def AceRt.spec (x : AceRt) (n : Nat) : Nat :=
  match n with
  | 0 => setBit x.status.toNat 9 (!x.xld.isEmpty)
  | 1 => x.istat.toNat
  | 2 => x.ipc
  | 3 => x.lr
  | 4 => x.flags.toNat
  | 5 => x.ls0
  | 6 => x.le0
  | 7 => x.lc0
  | 8 => x.ls1
  | 9 => x.le1
  | 10 => x.lc1
  | 11 => x.cycle
  | n + 12 => if n < 8 then SMap.getD x.pmc n 0 else 0

/-- A special register written (R261): of STATUS only IE and LOOP_EN, CYCLE and PMC read-only. -/
def AceRt.setSpec (x : AceRt) (n v : Nat) : AceRt :=
  match n with
  | 0 => (x.stSet 6 (bit v 6)).stSet 7 (bit v 7)
  | 1 => { x with istat := BitVec.ofNat 64 v }
  | 2 => { x with ipc := v % 2 ^ 13 }
  | 3 => { x with lr := v % 2 ^ 13 }
  | 4 => { x with flags := BitVec.ofNat 64 (v % 8) }
  | 5 => { x with ls0 := v % 2 ^ 13 }
  | 6 => { x with le0 := v % 2 ^ 13 }
  | 7 => { x with lc0 := v % 2 ^ 16 }
  | 8 => { x with ls1 := v % 2 ^ 13 }
  | 9 => { x with le1 := v % 2 ^ 13 }
  | 10 => { x with lc1 := v % 2 ^ 16 }
  | _ => x

/-! ### Results in flight (R265, R266) -/

/-- A result entered in order of bundle and slot (R266: L over A over M). -/
def flyAdd : List Fly → Fly → List Fly
  | [], f => [f]
  | h :: t, f => if f.issued < h.issued ∨ (f.issued = h.issued ∧ f.slot < h.slot) then f :: h :: t else h :: flyAdd t f

/-- One result written. -/
def AceRt.land (x : AceRt) (f : Fly) : AceRt :=
  match f.dest with
  | .g n => { x with g := SMap.put x.g n (BitVec.ofInt 64 f.val) }
  | .acc n => { x with accSeen := SMap.put x.accSeen n f.val }
  | .p n => { x with p := SMap.put x.p n (BitVec.ofInt 32 f.val) }
  | .m n => { x with m := SMap.put x.m n (BitVec.ofInt 32 f.val) }
  | .l n => { x with l := SMap.put x.l n (BitVec.ofInt 32 f.val) }
  | .c n => if n = 0 then x else { x with c := if f.val = 0 then x.c &&& ~~~(BitVec.ofNat 8 (2 ^ n)) else x.c ||| BitVec.ofNat 8 (2 ^ n) }
  | .spec n => x.setSpec n f.val.toNat
  | .mem a w => { x with mem := Mem.write x.mem a w (lowBits (8 * w) f.val) }

/-- Every result whose bundle has come is written. -/
def AceRt.landDue (x : AceRt) : AceRt :=
  (x.fly.filter fun f => f.ready ≤ x.n).foldl AceRt.land { x with fly := x.fly.filter fun f => x.n < f.ready }

/-- A result of the bundle in progress, usable from `lat` bundles on (Table 10-9). -/
def AceRt.send (x : AceRt) (slot lat : Nat) (d : Dest) (v : Int) : AceRt :=
  { x with fly := flyAdd x.fly ⟨x.n + lat, x.n, slot, d, v⟩ }

/-! ### Counters (R404 to R407) -/

/-- `n` events of a code counted on an engine (Table 17-2): counters set to it, USER_ONLY, and sampling overflow (R407). -/
def aceEvent (s : State) (e code n : Nat) : State :=
  forBelow 8 (fun k s =>
    let x := s.ace e
    let cfg := SMap.getD x.cfg k 0
    if bits cfg 0 8 ≠ code ∨ n = 0 ∨ (bit cfg 14 = true ∧ x.user = false) then s else
      let v := SMap.getD x.pmc k 0 + n
      if bit cfg 15 = true ∧ 2 ^ 48 ≤ v then
        let s := if x.ovf.contains k then s.count Ob.Cnt.SAMPLES_LOST else s
        s.setAce e { x with pmc := SMap.put x.pmc k (2 ^ 48 - x.period + (v - 2 ^ 48)), ovf := (if x.ovf.contains k then x.ovf else x.ovf ++ [k]),
                            irq := setBit x.irq 1 true }
      else s.setAce e { x with pmc := SMap.put x.pmc k (v % 2 ^ 48) }) s

/-- Slot class counters (R406): 0 retired, 1 wasted, 2 front-starved, 3 back-starved. -/
def AceRt.slot (x : AceRt) (k n : Nat) : AceRt := { x with slots := SMap.put x.slots k ((SMap.getD x.slots k 0 + n) % 2 ^ 64) }

/-- `n` slots of an engine credited to class `k` (R406), with the events of codes 0x11 to 0x14 (Table 17-2). -/
def slotCount (s : State) (e k n : Nat) : State := aceEvent (s.modAce e fun x => x.slot k n) e (0x11 + k) n

/-- Cycles in which the engine stalls (R406): CYCLE counts, every slot is back-starved. -/
def aceStall (s : State) (e n : Nat) : State :=
  aceEvent ((slotCount s e 3 (3 * n)).modAce e fun x => { x with cycle := (x.cycle + n) % 2 ^ 64 }) e 1 n

/-! ### Voids and exceptions (R275, R276, R292, R294) -/

/-- The axis of the item that runs on an engine. -/
def aceAxis (s : State) (e : Nat) : Option Nat :=
  match (s.eng e).run with
  | some r => if r.item.flow < 256 then some r.item.flow else none
  | none => none

/-- STATUS at the start of an item (Table 10-4): LOOP_EN and IE 1, INT_MODE from its object. -/
def statusReset (s : State) (e : Nat) : DWord := BitVec.ofNat 64 (0xC0 + bitAt (s.flag Ob.AceC.INT_MODE 0 0 e) 5)

/-- An engine's pipeline, loads and store buffer emptied; STATUS and FLAGS at their reset values (R275). -/
def clearPipe (s : State) (e : Nat) : State :=
  s.modAce e fun x => { x with fly := [], xld := [], sbuf := [], branch := none, call := none, status := statusReset s e, flags := 0, ran := 0 }

/-- The item that runs on an engine is voided with a cause of Table 11-3 (R275, R292, R294): 1 COMPUTE. -/
def voidRun (s : State) (e why : Nat) : State :=
  match (s.eng e).run with
  | none => clearPipe s e
  | some r =>
    let s := clearPipe s e
    let x := s.ace e
    let s := (slotCount s e 1 (x.itemDone + x.itemIdle)).modAce e fun x => { x with itemDone := 0, itemIdle := 0 }
    let s := aceEvent s e 0x0F 1
    let g := s.eng e
    let ax := decide (r.item.prio ≤ 1)
    let d := s.now - r.start
    let s := s.setEng e { g with run := none, busy := g.busy + (if ax then d else 0), svcBusy := g.svcBusy + (if ax then 0 else d), lastEnd := s.now }
    let s := s.count Ob.Disp.VOIDED
    let gone := fun (i : Item) => i.after = some r.item.flow ∧ i.tw = r.item.tw
    let dep := s.disp.chained.filter fun i => decide (gone i)
    let s := { s with disp := { s.disp with chained := s.disp.chained.filter fun i => !decide (gone i) } }
    let s := s.count Ob.Disp.CANCELLED 0 0 0 dep.length
    if ax then
      s.modAxis r.item.flow fun x => { x with undoneWhy := if x.waiting = some r.item.cycle then some (x.undoneWhy.getD why) else x.undoneWhy }
    else s

/-- A void ordered by the dispatcher (R275): while a handler runs it waits as VOID_PEND. -/
def orderVoid (s : State) (e why : Nat) : State :=
  if (s.ace e).st 10 then s.modAce e fun x => x.stSet 11 true else voidRun s e why

/-- LAST_EXC (Table 10-11). -/
def lastExc (s : State) (e code : Nat) : Int :=
  ((code * 2 ^ 24 + (aceAxis s e).getD 0 * 2 ^ 16 + (s.ace e).pc % 2 ^ 13 : Nat) : Int)

/-- An exception (R276): 1 ILLEGAL, 2 ADDRESS, 3 PRIV, 4 STORE_FULL. In a handler it also resets the engine's pipeline and
registers, which is a reset of its mailbox endpoint (R394). -/
def aceRaise (s : State) (e code : Nat) : State :=
  let x := s.ace e
  let s := (s.count Ob.AceC.EXC_COUNT 0 0 e).set Ob.AceC.LAST_EXC (lastExc s e code) 0 0 e
  let s := match x.call with
    | some c => if x.user then s.count Ob.Ub.EXCEPTIONS c.block else s
    | none => s
  let s := if (match x.warnAt with | some t => decide (t + 1000000000 ≤ s.now) | none => true) then
      (s.warn 276 e code).modAce e fun x => { x with warnAt := some s.now } else s
  let handler := x.st 10
  let s := voidRun s e 1
  let s := if handler then
      resetEndpoint (s.modAce e fun x =>
        { x with g := [], acc := [], accSeen := [], p := [], m := [], l := [], c := 0, ls0 := 0, le0 := 0, lc0 := 0, ls1 := 0, le1 := 0, lc1 := 0,
                 lr := 0, ipc := 0, istat := 0 }) (5 + e)
    else s
  s.modAce e fun x => { x with exc := some code }

/-! ### The end of a bundle (R265, R271) -/

/-- Repeat levels that a jump to `t` leaves end (R271). -/
def AceRt.leave (x : AceRt) (t : Nat) : AceRt :=
  if 1 ≤ x.depth ∧ (t < x.ls0 ∨ x.le0 < t) then x.setDepth 0
  else if x.depth = 2 ∧ (t < x.ls1 ∨ x.le1 < t) then x.setDepth 1
  else x

/-- Sequential flow after the bundle at `pc` (R271): the repeat levels whose body ends here, and the next bundle. The flag tells a
completed pass of a body. -/
def AceRt.flow (x : AceRt) : AceRt × Nat :=
  let nxt (x : AceRt) : AceRt := { x with pc := (x.pc + 1) % 2 ^ 13 }
  let outer (x : AceRt) (k : Nat) : AceRt × Nat :=
    if x.depth = 1 ∧ x.pc = x.le0 then
      if 1 < x.lc0 then ({ x with lc0 := x.lc0 - 1, pc := x.ls0 }, k + 1) else (nxt (x.setDepth 0), k + 1)
    else (nxt x, k)
  if x.st 7 = false then (nxt x, 0)
  else if x.depth = 2 ∧ x.pc = x.le1 then
    if 1 < x.lc1 then ({ x with lc1 := x.lc1 - 1, pc := x.ls1 }, 1) else outer (x.setDepth 1) 1
  else outer x 0

/-- The bundle in progress issues: counters, results that fall due, the next bundle index; a RETI taken restores STATUS and lets a
waiting void through (R273, R275); a fetch outside user code in user mode raises ADDRESS (R277). -/
def bundleEnd (s : State) (e : Nat) : State :=
  let x := s.ace e
  match x.exc with
  | some _ => s.modAce e fun x => { x with exc := none }
  | none =>
    let k := (if bit x.ran 0 then 1 else 0) + (if bit x.ran 1 then 1 else 0) + (if bit x.ran 2 then 1 else 0)
    let s := aceEvent (aceEvent (aceEvent (aceEvent s e 1 1) e 2 1) e 3 k) e 9 (if bit x.ran 0 then 1 else 0)
    let s := if (s.eng e).run.isSome then s.modAce e fun x => { x with itemDone := x.itemDone + k, itemIdle := x.itemIdle + (3 - k) }
      else slotCount (slotCount s e 0 k) e 1 (3 - k)
    let x := s.ace e
    let x := { x with cycle := (x.cycle + 1) % 2 ^ 64, ran := 0 }
    let (x, passes) := x.flow
    let x := { x with n := x.n + 1 }
    let x := x.landDue
    let s := aceEvent (s.setAce e x) e 0x0C passes
    let x := s.ace e
    match x.branch with
    | some b =>
      if b.at_ ≤ x.n then
        let x := ({ x with pc := b.target, branch := none } : AceRt).leave b.target
        if b.reti then
          let pend := x.st 11
          let s := s.setAce e { x with status := bit64 x.istat 11 false }
          if pend then voidRun s e 1 else s
        else if b.ret && x.user then
          s.setAce e { (x.stSet 8 false) with call := none }
        else if x.user && decide (b.target < 0x1000) then aceRaise (s.setAce e x) e 2 |>.modAce e fun x => { x with exc := none }
        else s.setAce e x
      else s
    | none => if x.user && decide (x.pc < 0x1000) then aceRaise s e 2 |>.modAce e fun x => { x with exc := none } else s

/-! ### Operations (R263, R264) -/

/-- One operation of a bundle of a running, powered engine (R15, R402): its predicate judged, its effect, and the bundle issued after its last operation. `slot` 0 M, 1 A,
2 L; `nop` operations execute nothing; `bare` operations may carry no predicate (R263). -/
def aceOp (s : State) (i : AceAt) (slot : Nat) (nop bare : Bool) (f : State → State) : State :=
  let x := s.ace i.eng
  if x.halted || !x.powered || !unitRuns s then s else
    let s :=
      if x.exc.isSome then s
      else if (i.pr = 0 ∧ i.pn = true) ∨ (bare = true ∧ (i.pr ≠ 0 ∨ i.pn = true)) then aceRaise s i.eng 1
      else if x.pred i.pr = i.pn then s
      else if nop then s
      else f (s.modAce i.eng fun x => { x with ran := setBit x.ran slot true })
    if i.last then bundleEnd s i.eng else s

/-- A sticky flag of FLAGS set (Table 10-5): 0 ALU_SAT, 1 ACC_SAT, 2 EXT_SAT; SAT counted. -/
def aceSat (s : State) (e k : Nat) (b : Bool) : State :=
  if b then aceEvent (s.modAce e fun x => { x with flags := bit64 x.flags k true }) e 0x0A 1 else s

/-- The executed operation is privileged (Table 10-8): PRIV in user mode. -/
def acePriv (s : State) (e : Nat) (f : State → State) : State := if (s.ace e).user then aceRaise s e 3 else f s

/-! ### Data addresses (R258, R260, R268) -/

/-- STATE_SIZE of the block in the call. -/
def callState (s : State) (c : UserCall) : Nat := s.nat Ob.Ub.STATE_SIZE c.block

/-- A data SRAM access of `w` bytes at `a` is allowed (R258, R260). -/
def accessOk (s : State) (e a w : Nat) (store : Bool) : Bool :=
  let x := s.ace e
  decide (a % w = 0) && decide (a + w ≤ 0x40000) &&
  (if x.user then
    (match x.call with
     | some c =>
       (!store && decide (0x20000 ≤ a ∧ a + w ≤ 0x3C000)) ||
       decide (c.p7 ≤ a ∧ a + w ≤ c.p7 + callState s c) ||
       decide (c.p6 ≤ a + 1024 ∧ a + w ≤ c.p6)
     | none => false)
   else true)

/-- Low `n` bits of a number reversed. -/
def revBits (n x : Nat) : Nat := (List.range n).foldl (fun r k => 2 * r + (x / 2 ^ k) % 2) 0

/-- A pointer moved by δ under a mode word (R268); none for ADDRESS. -/
def modify (l : Word) (p : Nat) (d : Int) : Option Nat :=
  let wrap (x : Int) : Nat := lowBits 32 x
  match bits l.toNat 30 2 with
  | 0 => some (wrap ((p : Int) + d))
  | 1 =>
    let len := bits l.toNat 0 18
    if len < d.natAbs then none else
      let k := if len ≤ 1 then 0 else (len - 1).log2 + 1
      let base := p - p % 2 ^ k
      let off : Int := ((p % 2 ^ k : Nat) : Int) + d
      let off := if (len : Int) ≤ off then off - len else if off < 0 then off + len else off
      some (wrap ((base : Int) + off))
  | 2 =>
    let sz := bits l.toNat 8 3
    let b := bits l.toNat 0 5
    let f := bits p sz b
    let g := bits (wrap d) sz b
    let f' := revBits b ((revBits b f + revBits b g) % 2 ^ b)
    some (p - f * 2 ^ sz + f' * 2 ^ sz)
  | _ => none

/-- The address of an L-format access, with the pointer's new value where it is modified (Table 10-7); none: code of the exception. -/
def lAddr (x : AceRt) (pn am : Nat) (off : Int) (w : Nat) : Nat × Option Nat × Option Nat :=
  let p := (x.pR pn).toNat
  match am with
  | 0 => (lowBits 32 ((p : Int) + off * w), none, none)
  | 1 => match modify (x.lR pn) p (x.mR pn).toInt with
    | some q => (p, some q, none)
    | none => (p, none, some 2)
  | 2 => match modify (x.lR pn) p (off * w) with
    | some q => (p, some q, none)
    | none => (p, none, some 2)
  | _ => (p, none, some 1)

end Sys2Proof.Machine
end

