-- ==== Sys2Proof/Machine/AceM.lean ====
section
/-! DEFINITION. M-slot operations of an ACE (Table 10-8, R264 to R266, R269). -/

namespace Sys2Proof.Machine

/-- half(gt): H = 0 the low, H = 1 the high 32 bits, signed (Table 10-8). -/
def half (w : DWord) (h : Bool) : Int := toSigned 32 (if h then w.toNat / 2 ^ 32 else w.toNat)

/-- An accumulator written in the bundle in progress: seen by accumulating operations from the next bundle, by extractions from
the fourth (Table 10-9). -/
def AceRt.sendAcc (x : AceRt) (k : Nat) (v : Int) : AceRt :=
  { x.send 0 4 (.acc k) v with acc := SMap.put x.acc k v }

/-- An accumulator written with saturation to 96 bits, setting ACC_SAT (R269). -/
def putAcc (s : State) (e k : Nat) (v : Int) : State :=
  let r := sat 96 v
  aceSat (s.modAce e fun x => x.sendAcc k r) e 1 (decide (r ≠ v))

/-- acc ← acc·keep + gs × half(gt)·sign (MPY, MAC, MSU). -/
def mulAcc (s : State) (i : AceAt) (k a b : Nat) (h : Bool) (keep sg : Int) : State :=
  aceOp s i 0 false false fun s =>
    let x := s.ace i.eng
    putAcc s i.eng k (keep * x.accR k + sg * ((x.gR a).toInt * half (x.gR b) h))

/-- acc ← acc·keep + (gs << SH) (MOVA, ADDA); SH above 63 raises ILLEGAL. A MOVA whose value does not fit the accumulator leaves
an unstated value (assumption log 16). -/
def movAcc (s : State) (i : AceAt) (k a sh : Nat) (keep : Bool) : State :=
  aceOp s i 0 false false fun s =>
    let x := s.ace i.eng
    let v := (x.gR a).toInt * 2 ^ sh
    if 63 < sh then aceRaise s i.eng 1
    else if keep then putAcc s i.eng k (x.accR k + v)
    else if sat 96 v = v then putAcc s i.eng k v
    else
      let (f, s) := s.freeDraw 96
      s.modAce i.eng fun x => x.sendAcc k (toSigned 96 f)

/-- Complex product of packed values: real and imaginary part (R269). -/
def cProd (a b : DWord) : Int × Int :=
  let ar := half a true
  let ai := half a false
  let br := half b true
  let bi := half b false
  (ar * br - ai * bi, ar * bi + ai * br)

/-- A complex product into or added to an accumulator pair (CMPY, CMAC); an odd ACC raises ILLEGAL. -/
def cplAcc (s : State) (i : AceAt) (k a b : Nat) (keep : Int) : State :=
  aceOp s i 0 false false fun s =>
    let x := s.ace i.eng
    let p := cProd (x.gR a) (x.gR b)
    if k % 2 = 1 then aceRaise s i.eng 1
    else putAcc (putAcc s i.eng k (keep * x.accR k + p.1)) i.eng (k + 1) (keep * x.accR (k + 1) + p.2)

/-- An extraction: division by 2^SH with convergent rounding, then saturation to `n` bits; whether it saturated (R269). -/
def extract (v : Int) (sh n : Nat) : Int × Bool :=
  let r := roundShr v sh
  (sat n r, decide (sat n r ≠ r))

/-- gd ← sat(round(acc / 2^SH)) to `n` bits (EXT.D, EXT.W and their V forms); SH above 95 raises ILLEGAL. -/
def extAcc (s : State) (i : AceAt) (d k : Nat) (sh : AceRt → Nat) (n : Nat) : State :=
  aceOp s i 0 false false fun s =>
    let x := s.ace i.eng
    if 95 < sh x then aceRaise s i.eng 1
    else
      let r := extract (x.accS k) (sh x) n
      aceSat (s.modAce i.eng fun x => x.send 0 2 (.g d) r.1) i.eng 2 r.2

/-- MNOP (R264): no effect. -/
def execAceMnop (i : AceAt) (s : State) : Host.Outcome State Fault Refusal := .next (aceOp s i 0 true false id)
/-- MPY (R264). -/
def execAceMpy (i : AceAt) (k a b : Nat) (h : Bool) (s : State) : Host.Outcome State Fault Refusal := .next (mulAcc s i k a b h 0 1)
/-- MAC (R264, R269). -/
def execAceMac (i : AceAt) (k a b : Nat) (h : Bool) (s : State) : Host.Outcome State Fault Refusal := .next (mulAcc s i k a b h 1 1)
/-- MSU (R264, R269). -/
def execAceMsu (i : AceAt) (k a b : Nat) (h : Bool) (s : State) : Host.Outcome State Fault Refusal := .next (mulAcc s i k a b h 1 (-1))
/-- MOVA (R264). -/
def execAceMova (i : AceAt) (k a sh : Nat) (s : State) : Host.Outcome State Fault Refusal := .next (movAcc s i k a sh false)
/-- ADDA (R264). -/
def execAceAdda (i : AceAt) (k a sh : Nat) (s : State) : Host.Outcome State Fault Refusal := .next (movAcc s i k a sh true)
/-- CMPY (R264, R269). -/
def execAceCmpy (i : AceAt) (k a b : Nat) (s : State) : Host.Outcome State Fault Refusal := .next (cplAcc s i k a b 0)
/-- CMAC (R264, R269). -/
def execAceCmac (i : AceAt) (k a b : Nat) (s : State) : Host.Outcome State Fault Refusal := .next (cplAcc s i k a b 1)
/-- EXT.D (R264, R269). -/
def execAceExtD (i : AceAt) (d k sh : Nat) (s : State) : Host.Outcome State Fault Refusal := .next (extAcc s i d k (fun _ => sh) 64)
/-- EXT.W (R264, R269). -/
def execAceExtW (i : AceAt) (d k sh : Nat) (s : State) : Host.Outcome State Fault Refusal := .next (extAcc s i d k (fun _ => sh) 32)

/-- CEXT of an accumulator pair into a packed pair (R264, R269). -/
def extPair (s : State) (i : AceAt) (d k sh : Nat) : State :=
  aceOp s i 0 false false fun s =>
    let x := s.ace i.eng
    if 95 < sh ∨ k % 2 = 1 then aceRaise s i.eng 1
    else
      let re := extract (x.accS k) sh 32
      let im := extract (x.accS (k + 1)) sh 32
      aceSat (s.modAce i.eng fun x => x.send 0 2 (.g d) (((lowBits 32 re.1 * 2 ^ 32 + lowBits 32 im.1 : Nat) : Int))) i.eng 2 (re.2 || im.2)

/-- CEXT (R264). -/
def execAceCext (i : AceAt) (d k sh : Nat) (s : State) : Host.Outcome State Fault Refusal := .next (extPair s i d k sh)
/-- CLRA (R264). -/
def execAceClra (i : AceAt) (k : Nat) (s : State) : Host.Outcome State Fault Refusal :=
  .next (aceOp s i 0 false false fun s => s.modAce i.eng fun x => x.sendAcc k 0)
/-- EXT.DV (R264): SH = gt[6:0]. -/
def execAceExtDv (i : AceAt) (d k t : Nat) (s : State) : Host.Outcome State Fault Refusal :=
  .next (extAcc s i d k (fun x => bits (x.gR t).toNat 0 7) 64)
/-- EXT.WV (R264): SH = gt[6:0]. -/
def execAceExtWv (i : AceAt) (d k t : Nat) (s : State) : Host.Outcome State Fault Refusal :=
  .next (extAcc s i d k (fun x => bits (x.gR t).toNat 0 7) 32)

end Sys2Proof.Machine
end

