-- ==== Sys2Proof/Machine/AceA.lean ====
section
/-! DEFINITION. A-slot operations of an ACE (Table 10-8, R264, R265, R271, R273). -/

namespace Sys2Proof.Machine

/-- gd ← f(gs, gt) from the next bundle, ALU_SAT where `f` saturates. -/
def aluOp (s : State) (i : AceAt) (d a b : Nat) (f : DWord → DWord → DWord × Bool) : State :=
  aceOp s i 1 false false fun s =>
    let x := s.ace i.eng
    let r := f (x.gR a) (x.gR b)
    aceSat (s.modAce i.eng fun x => x.send 1 1 (.g d) r.1.toInt) i.eng 0 r.2

/-- A signed result saturated to 64 bits. -/
def sat64w (v : Int) : DWord × Bool := (BitVec.ofInt 64 (sat 64 v), decide (sat 64 v ≠ v))

/-- A result that cannot saturate. -/
def plain (w : DWord) : DWord × Bool := (w, false)

/-- ANOP (R264): no effect. -/
def execAceAnop (i : AceAt) (s : State) : Host.Outcome State Fault Refusal := .next (aceOp s i 1 true false id)
/-- ADD (R264), wrapping. -/
def execAceAdd (i : AceAt) (d a b : Nat) (s : State) : Host.Outcome State Fault Refusal := .next (aluOp s i d a b fun u v => plain (u + v))
/-- SUB (R264), wrapping. -/
def execAceSub (i : AceAt) (d a b : Nat) (s : State) : Host.Outcome State Fault Refusal := .next (aluOp s i d a b fun u v => plain (u - v))
/-- ADDS (R264), saturating. -/
def execAceAdds (i : AceAt) (d a b : Nat) (s : State) : Host.Outcome State Fault Refusal :=
  .next (aluOp s i d a b fun u v => sat64w (u.toInt + v.toInt))
/-- SUBS (R264), saturating. -/
def execAceSubs (i : AceAt) (d a b : Nat) (s : State) : Host.Outcome State Fault Refusal :=
  .next (aluOp s i d a b fun u v => sat64w (u.toInt - v.toInt))
/-- AND (R264). -/
def execAceAnd (i : AceAt) (d a b : Nat) (s : State) : Host.Outcome State Fault Refusal := .next (aluOp s i d a b fun u v => plain (u &&& v))
/-- OR (R264). -/
def execAceOr (i : AceAt) (d a b : Nat) (s : State) : Host.Outcome State Fault Refusal := .next (aluOp s i d a b fun u v => plain (u ||| v))
/-- XOR (R264). -/
def execAceXor (i : AceAt) (d a b : Nat) (s : State) : Host.Outcome State Fault Refusal := .next (aluOp s i d a b fun u v => plain (u ^^^ v))
/-- SHL (R264). -/
def execAceShl (i : AceAt) (d a n : Nat) (s : State) : Host.Outcome State Fault Refusal := .next (aluOp s i d a 0 fun u _ => plain (u <<< n))
/-- SHR (R264), logical. -/
def execAceShr (i : AceAt) (d a n : Nat) (s : State) : Host.Outcome State Fault Refusal := .next (aluOp s i d a 0 fun u _ => plain (u >>> n))
/-- SAR (R264), arithmetic, truncating. -/
def execAceSar (i : AceAt) (d a n : Nat) (s : State) : Host.Outcome State Fault Refusal :=
  .next (aluOp s i d a 0 fun u _ => plain (u.sshiftRight n))
/-- SARR (R264), arithmetic with convergent rounding. -/
def execAceSarr (i : AceAt) (d a n : Nat) (s : State) : Host.Outcome State Fault Refusal :=
  .next (aluOp s i d a 0 fun u _ => plain (BitVec.ofInt 64 (roundShr u.toInt n)))
/-- MIN (R264), signed. -/
def execAceMin (i : AceAt) (d a b : Nat) (s : State) : Host.Outcome State Fault Refusal :=
  .next (aluOp s i d a b fun u v => plain (if u.toInt ≤ v.toInt then u else v))
/-- MAX (R264), signed. -/
def execAceMax (i : AceAt) (d a b : Nat) (s : State) : Host.Outcome State Fault Refusal :=
  .next (aluOp s i d a b fun u v => plain (if u.toInt ≤ v.toInt then v else u))
/-- ABS (R264), saturating. -/
def execAceAbs (i : AceAt) (d a : Nat) (s : State) : Host.Outcome State Fault Refusal := .next (aluOp s i d a 0 fun u _ => sat64w |u.toInt|)
/-- NEG (R264), saturating. -/
def execAceNeg (i : AceAt) (d a : Nat) (s : State) : Host.Outcome State Fault Refusal := .next (aluOp s i d a 0 fun u _ => sat64w (-u.toInt))
/-- ADDI (R264): gd ← gs + IMM20, wrapping. -/
def execAceAddi (i : AceAt) (d a : Nat) (imm : Int) (s : State) : Host.Outcome State Fault Refusal :=
  .next (aluOp s i d a 0 fun u _ => plain (u + BitVec.ofInt 64 imm))

/-- The value of LDI (Table 10-7, format J): IMM25 sign-extended, or with an IMM_EXT syllable of 39 bits. -/
def ldiValue (imm : Nat) (ext : Option Nat) : DWord :=
  match ext with
  | none => BitVec.ofInt 64 (toSigned 25 imm)
  | some h => BitVec.ofNat 64 ((h % 2 ^ 39) * 2 ^ 25 + imm % 2 ^ 25)

/-- LDI (R264, R263). -/
def execAceLdi (i : AceAt) (d imm : Nat) (ext : Option Nat) (s : State) : Host.Outcome State Fault Refusal :=
  .next (aluOp s i d 0 0 fun _ _ => plain (ldiValue imm ext))

/-- A comparison of CMP (Table 10-8): 0 EQ, 1 NE, 2 LT, 3 LE, 4 LTU, 5 LEU; none for a code not listed. -/
def compare? (cc : Nat) (u v : DWord) : Option Bool :=
  match cc with
  | 0 => some (u == v)
  | 1 => some (u != v)
  | 2 => some (decide (u.toInt < v.toInt))
  | 3 => some (decide (u.toInt ≤ v.toInt))
  | 4 => some (decide (u.toNat < v.toNat))
  | 5 => some (decide (u.toNat ≤ v.toNat))
  | _ => none

/-- A compare result to a predicate (CMP). -/
def cmpOp (s : State) (i : AceAt) (d a b cc : Nat) : State :=
  aceOp s i 1 false false fun s =>
    let x := s.ace i.eng
    match compare? cc (x.gR a) (x.gR b) with
    | some r => s.modAce i.eng fun x => x.send 1 1 (.c d) (if r then 1 else 0)
    | none => aceRaise s i.eng 1

/-- CMP (R264). -/
def execAceCmp (i : AceAt) (d a b cc : Nat) (s : State) : Host.Outcome State Fault Refusal := .next (cmpOp s i d a b cc)

/-- Two saturating 32-bit lanes, halved by SARR 1 after the operation with `.h` (Table 10-8). -/
def lanes (sg : Int) (h : Bool) (u v : DWord) : DWord × Bool :=
  let f (a b : Int) : Int × Bool :=
    let r := sat 32 (a + sg * b)
    (if h then roundShr r 1 else r, decide (r ≠ a + sg * b))
  let hi := f (half u true) (half v true)
  let lo := f (half u false) (half v false)
  (BitVec.ofNat 64 (lowBits 32 hi.1 * 2 ^ 32 + lowBits 32 lo.1), hi.2 || lo.2)

/-- PADD2 (R264). -/
def execAcePadd2 (i : AceAt) (d a b : Nat) (h : Bool) (s : State) : Host.Outcome State Fault Refusal := .next (aluOp s i d a b (lanes 1 h))
/-- PSUB2 (R264). -/
def execAcePsub2 (i : AceAt) (d a b : Nat) (h : Bool) (s : State) : Host.Outcome State Fault Refusal := .next (aluOp s i d a b (lanes (-1) h))

/-- The address register of a number (R261): 0–7 p, 8–15 m, 16–23 l; others are ILLEGAL. -/
def addrReg (n : Nat) : Option Dest := if n < 8 then some (.p n) else if n < 16 then some (.m (n - 8)) else if n < 24 then some (.l (n - 16)) else none

/-- An address register written from a general register, from the second bundle on (MTR, Table 10-9). -/
def mtrOp (s : State) (i : AceAt) (n a : Nat) : State :=
  aceOp s i 1 false false fun s =>
    match addrReg n with
    | some d => s.modAce i.eng fun x => x.send 1 2 d (toSigned 32 (x.gR a).toNat)
    | none => aceRaise s i.eng 1

/-- MTR (R264, R261). -/
def execAceMtr (i : AceAt) (n a : Nat) (s : State) : Host.Outcome State Fault Refusal := .next (mtrOp s i n a)

/-- The value MFR reads: pointers and mode words zero-extended, modifiers sign-extended (R261). -/
def addrValue (x : AceRt) (n : Nat) : Int :=
  if n < 8 then ((x.pR n).toNat : Int) else if n < 16 then (x.mR (n - 8)).toInt else ((x.lR (n - 16)).toNat : Int)

/-- An address register read (MFR). -/
def mfrOp (s : State) (i : AceAt) (d n : Nat) : State :=
  aceOp s i 1 false false fun s =>
    if n < 24 then s.modAce i.eng fun x => x.send 1 1 (.g d) (addrValue x n) else aceRaise s i.eng 1

/-- MFR (R264, R261). -/
def execAceMfr (i : AceAt) (d n : Nat) (s : State) : Host.Outcome State Fault Refusal := .next (mfrOp s i d n)

/-- A special register is privileged (R261: STATUS, ISTAT, IPC). -/
def specPriv (n : Nat) : Bool := decide (n ≤ 2)

/-- A special register written, from the third bundle on (MTS, R261): reserved numbers are ILLEGAL. -/
def mtsOp (s : State) (i : AceAt) (n a : Nat) : State :=
  aceOp s i 1 false false fun s =>
    if 20 ≤ n then aceRaise s i.eng 1
    else if specPriv n && (s.ace i.eng).user then aceRaise s i.eng 3
    else s.modAce i.eng fun x => x.send 1 3 (.spec n) (x.gR a).toNat

/-- MTS (R264, R261). -/
def execAceMts (i : AceAt) (n a : Nat) (s : State) : Host.Outcome State Fault Refusal := .next (mtsOp s i n a)

/-- The user block in a call may read the counters (R409). -/
def userRead (s : State) (x : AceRt) : Bool :=
  match x.call with
  | some c => bit (s.nat Ob.Cnt.USER_READ) c.block
  | none => false

/-- A special register read (MFS, R261, R262): counters read 0 to a user block without permission. -/
def mfsOp (s : State) (i : AceAt) (d n : Nat) : State :=
  aceOp s i 1 false false fun s =>
    let x := s.ace i.eng
    if 20 ≤ n then aceRaise s i.eng 1
    else if specPriv n && x.user then aceRaise s i.eng 3
    else
      let v := if 11 ≤ n ∧ x.user = true ∧ userRead s x = false then 0 else x.spec n
      s.modAce i.eng fun x => x.send 1 1 (.g d) (v : Int)

/-- MFS (R264, R261, R262). -/
def execAceMfs (i : AceAt) (d n : Nat) (s : State) : Host.Outcome State Fault Refusal := .next (mfsOp s i d n)

/-! ### Branches and repeats (R264, R265, R271) -/

/-- A branch may stand here: not in a delay slot, nor — for BR, CALL and RET — in the last two bundles of an active body. -/
def branchOk (x : AceRt) (body : Bool) : Bool :=
  x.branch.isNone &&
  !(body && ((1 ≤ x.depth && decide (x.le0 ≤ x.pc + 1 ∧ x.pc ≤ x.le0)) || (x.depth = 2 && decide (x.le1 ≤ x.pc + 1 ∧ x.pc ≤ x.le1))))

/-- A branch to `t` after two delay slots. -/
def branchTo (s : State) (e t : Nat) (reti ret : Bool) : State :=
  aceEvent (s.modAce e fun x => { x with branch := some ⟨x.n + 3, t % 2 ^ 13, reti, ret⟩ }) e 0x0B 1

/-- BR (R264, R265): to the branch bundle's index + OFF24. -/
def execAceBr (i : AceAt) (off : Int) (s : State) : Host.Outcome State Fault Refusal :=
  .next (aceOp s i 1 false false fun s =>
    let x := s.ace i.eng
    if branchOk x true then branchTo s i.eng (lowBits 13 ((x.pc : Int) + off)) false false else aceRaise s i.eng 1)

/-- CALL (R264, R265): LR takes the index of the bundle after the second delay slot. -/
def execAceCall (i : AceAt) (off : Int) (s : State) : Host.Outcome State Fault Refusal :=
  .next (aceOp s i 1 false false fun s =>
    let x := s.ace i.eng
    if branchOk x true then
      branchTo (s.modAce i.eng fun x => { x with lr := (x.pc + 3) % 2 ^ 13 }) i.eng (lowBits 13 ((x.pc : Int) + off)) false false
    else aceRaise s i.eng 1)

/-- RET (R264, R265, R277): in user mode to the entry LR it ends the block's call; to another library bundle it raises ADDRESS. -/
def execAceRet (i : AceAt) (s : State) : Host.Outcome State Fault Refusal :=
  .next (aceOp s i 1 false false fun s =>
    let x := s.ace i.eng
    if branchOk x true then
      let back := match x.call with | some c => decide (c.lr = x.lr) | none => false
      branchTo s i.eng x.lr false back
    else aceRaise s i.eng 1)

/-- RETI (R264, R273, R275): privileged; STATUS from ISTAT and resumption at IPC after two delay slots. -/
def execAceReti (i : AceAt) (s : State) : Host.Outcome State Fault Refusal :=
  .next (aceOp s i 1 false true fun s => acePriv s i.eng fun s =>
    let x := s.ace i.eng
    if branchOk x false then branchTo s i.eng x.ipc true false else aceRaise s i.eng 1)

/-- A repeat loop set up (R271). -/
def repeatOp (s : State) (e len cnt : Nat) : State :=
  let x := s.ace e
  let last := x.pc + len
  if x.branch.isSome ∨ x.depth = 2 ∨ (x.depth = 1 ∧ x.le0 < last) ∨ len = 0 then aceRaise s e 1
  else if cnt = 0 then
    aceStall (s.modAce e fun x => { x with pc := last % 2 ^ 13 }) e 2
  else if x.depth = 0 then s.modAce e fun x => { x.setDepth 1 with ls0 := (x.pc + 1) % 2 ^ 13, le0 := last % 2 ^ 13, lc0 := cnt % 2 ^ 16 }
  else s.modAce e fun x => { x.setDepth 2 with ls1 := (x.pc + 1) % 2 ^ 13, le1 := last % 2 ^ 13, lc1 := cnt % 2 ^ 16 }

/-- REP (R264, R271): the count is COUNT16 or, with USE_REG, gs[15:0]. -/
def execAceRep (i : AceAt) (useReg : Bool) (a cnt len : Nat) (s : State) : Host.Outcome State Fault Refusal :=
  .next (aceOp s i 1 false true fun s =>
    repeatOp s i.eng len (if useReg then bits ((s.ace i.eng).gR a).toNat 0 16 else cnt))

/-- BKPT (R264): halts for the debug interface if one is attached, otherwise ILLEGAL. -/
def execAceBkpt (i : AceAt) (s : State) : Host.Outcome State Fault Refusal :=
  .next (aceOp s i 1 false false fun s =>
    if s.debugger then s.modAce i.eng fun x => { x with halted := true } else aceRaise s i.eng 1)

end Sys2Proof.Machine
end

