-- ==== Sys2Proof/Machine/AceL.lean ====
section
/-! DEFINITION. L-slot operations of an ACE (Table 10-8, R258, R260, R264 to R268, R270). -/

namespace Sys2Proof.Machine

/-- Bytes loaded, extended to 64 bits. -/
def extendTo (w : Nat) (signed : Bool) (v : Nat) : Int := if signed then toSigned (8 * w) v else (v : Int)

/-- One access address formed and checked (R258, R260, R268): `f` gets the address; the pointer is modified after it. -/
def lAccess (s : State) (i : AceAt) (pn am : Nat) (off : Int) (w : Nat) (store : Bool) (f : State → Nat → State) : State :=
  aceOp s i 2 false false fun s =>
    let (a, q, bad) := lAddr (s.ace i.eng) pn am off w
    match bad with
    | some code => aceRaise s i.eng code
    | none =>
      if accessOk s i.eng a w store then
        let s := f s a
        match q with
        | some p => s.modAce i.eng fun x => x.send 2 1 (.p pn) (p : Int)
        | none => s
      else aceRaise s i.eng 2

/-- A load of `w` bytes into a general register, usable from the third bundle (LD.x). -/
def loadOp (s : State) (i : AceAt) (g pn am : Nat) (off : Int) (w : Nat) (signed : Bool) : State :=
  lAccess s i pn am off w false fun s a =>
    aceEvent (s.modAce i.eng fun x => x.send 2 3 (.g g) (extendTo w signed (Mem.read x.mem a w))) i.eng 4 1

/-- A store of the low `w` bytes of a general register, seen by loads of later bundles (ST.x). -/
def storeOp (s : State) (i : AceAt) (g pn am : Nat) (off : Int) (w : Nat) : State :=
  lAccess s i pn am off w true fun s a =>
    aceEvent (s.modAce i.eng fun x => x.send 2 1 (.mem a w) (x.gR g).toInt) i.eng 5 1

/-- LNOP (R264): no effect. -/
def execAceLnop (i : AceAt) (s : State) : Host.Outcome State Fault Refusal := .next (aceOp s i 2 true false id)
/-- LD.D (R264). -/
def execAceLdD (i : AceAt) (g pn am : Nat) (off : Int) (s : State) : Host.Outcome State Fault Refusal := .next (loadOp s i g pn am off 8 true)
/-- LD.W (R264): sign-extended. -/
def execAceLdW (i : AceAt) (g pn am : Nat) (off : Int) (s : State) : Host.Outcome State Fault Refusal := .next (loadOp s i g pn am off 4 true)
/-- LD.WU (R264): zero-extended. -/
def execAceLdWu (i : AceAt) (g pn am : Nat) (off : Int) (s : State) : Host.Outcome State Fault Refusal := .next (loadOp s i g pn am off 4 false)
/-- LD.H (R264): sign-extended. -/
def execAceLdH (i : AceAt) (g pn am : Nat) (off : Int) (s : State) : Host.Outcome State Fault Refusal := .next (loadOp s i g pn am off 2 true)
/-- LD.HU (R264): zero-extended. -/
def execAceLdHu (i : AceAt) (g pn am : Nat) (off : Int) (s : State) : Host.Outcome State Fault Refusal := .next (loadOp s i g pn am off 2 false)
/-- ST.D (R264). -/
def execAceStD (i : AceAt) (g pn am : Nat) (off : Int) (s : State) : Host.Outcome State Fault Refusal := .next (storeOp s i g pn am off 8)
/-- ST.W (R264). -/
def execAceStW (i : AceAt) (g pn am : Nat) (off : Int) (s : State) : Host.Outcome State Fault Refusal := .next (storeOp s i g pn am off 4)
/-- ST.H (R264). -/
def execAceStH (i : AceAt) (g pn am : Nat) (off : Int) (s : State) : Host.Outcome State Fault Refusal := .next (storeOp s i g pn am off 2)

/-- Addresses of the two accesses of a pair operation (format L2): offsets in units of 8 bytes, no post-modify. -/
def pairAddr (x : AceRt) (pa : Nat) (oa : Int) (pb : Nat) (ob : Int) : Nat × Nat :=
  (lowBits 32 (((x.pR pa).toNat : Int) + 8 * oa), lowBits 32 (((x.pR pb).toNat : Int) + 8 * ob))

/-- LD2.D (R264, R267): the pair g(2·RP), g(2·RP + 1) from phases A and B. -/
def execAceLd2D (i : AceAt) (rp pa : Nat) (oa : Int) (pb : Nat) (ob : Int) (s : State) : Host.Outcome State Fault Refusal :=
  .next (aceOp s i 2 false false fun s =>
    let (a, b) := pairAddr (s.ace i.eng) pa oa pb ob
    if accessOk s i.eng a 8 false && accessOk s i.eng b 8 false then
      aceEvent (s.modAce i.eng fun x =>
        (x.send 2 3 (.g (2 * rp)) (Mem.read x.mem a 8 : Nat)).send 2 3 (.g (2 * rp + 1)) (Mem.read x.mem b 8 : Nat)) i.eng 4 2
    else aceRaise s i.eng 2)

/-- ST2.D (R264, R267): phase A, then phase B. -/
def execAceSt2D (i : AceAt) (rp pa : Nat) (oa : Int) (pb : Nat) (ob : Int) (s : State) : Host.Outcome State Fault Refusal :=
  .next (aceOp s i 2 false false fun s =>
    let (a, b) := pairAddr (s.ace i.eng) pa oa pb ob
    if accessOk s i.eng a 8 true && accessOk s i.eng b 8 true then
      aceEvent (s.modAce i.eng fun x =>
        (x.send 2 1 (.mem a 8) (x.gR (2 * rp)).toInt).send 2 1 (.mem b 8) (x.gR (2 * rp + 1)).toInt) i.eng 5 2
    else aceRaise s i.eng 2)

/-- LDST.D (R264, R267, R268): load in phase A, store in phase B, each pointer post-modified by its own m. -/
def execAceLdstD (i : AceAt) (d pa g pb : Nat) (s : State) : Host.Outcome State Fault Refusal :=
  .next (aceOp s i 2 false false fun s =>
    let x := s.ace i.eng
    let (a, qa, ba) := lAddr x pa 1 0 8
    let (b, qb, bb) := lAddr x pb 1 0 8
    if ba.isSome ∨ bb.isSome ∨ accessOk s i.eng a 8 false = false ∨ accessOk s i.eng b 8 true = false then aceRaise s i.eng 2
    else
      aceEvent (aceEvent (s.modAce i.eng fun x =>
        (((x.send 2 3 (.g d) (Mem.read x.mem a 8 : Nat)).send 2 1 (.mem b 8) (x.gR g).toInt).send 2 1 (.p pa) ((qa.getD a : Nat) : Int)).send 2 1
          (.p pb) ((qb.getD b : Nat) : Int)) i.eng 4 1) i.eng 5 1)

/-- PMOD (R264, R268). -/
def execAcePmod (i : AceAt) (pn : Nat) (imm : Int) (s : State) : Host.Outcome State Fault Refusal :=
  .next (aceOp s i 2 false false fun s =>
    let x := s.ace i.eng
    match modify (x.lR pn) (x.pR pn).toNat imm with
    | some q => s.modAce i.eng fun x => x.send 2 1 (.p pn) (q : Int)
    | none => aceRaise s i.eng 2)

/-! ### Shared window (R270, R258, R388, R390) -/

/-- An address of the shared window or of the engine's mailbox endpoint, 8-byte aligned (Table 10-2). -/
def sharedOk (a : Nat) : Bool :=
  decide (a % 8 = 0) && (decide (0x1000000 ≤ a ∧ a < 0x1800000) || decide (0x2000000 ≤ a ∧ a < 0x2001000))

/-- The axis and the offset in its live state of an offset in the shared SRAM that lies in the user state areas of the live axis state (R11, R260). -/
def liveArea (o : Nat) : Option (Nat × Nat) :=
  if o < (sharedRegion 0).2 ∧ 0xE00 ≤ o % 4096 then some (o / 4096, o % 4096) else none

/-- 8 bytes of the shared window as engine `e` reads them: its own buffered stores first (R270). -/
def sharedRead (s : State) (e a : Nat) : DWord :=
  match ((s.ace e).sbuf.filter fun w => w.1 = a).getLast? with
  | some w => w.2
  | none =>
    if a < 0x2000000 then
      match liveArea (a - 0x1000000) with
      | some (x, o) => BitVec.ofNat 64 (Mem.read (s.axis x).user o 8)
      | none => BitVec.ofNat 64 (Mem.read s.shared (a - 0x1000000) 8)
    else BitVec.ofNat 64 ((epRead s (5 + e) (a - 0x2000000)).toNat + (epRead s (5 + e) (a - 0x2000000 + 4)).toNat * 2 ^ 32)

/-- 8 bytes stored into the shared window: shared SRAM, or two registers of the mailbox endpoint, the lower first (R388). -/
def sharedWrite (s : State) (e a : Nat) (v : DWord) : State :=
  if a < 0x2000000 then
    match liveArea (a - 0x1000000) with
    | some (x, o) => s.modAxis x fun y => { y with user := Mem.write y.user o 8 v.toNat }
    | none => { s with shared := Mem.write s.shared (a - 0x1000000) 8 v.toNat }
  else
    let o := a - 0x2000000
    epWrite (epWrite s (5 + e) o (BitVec.ofNat 32 v.toNat)) (5 + e) (o + 4) (BitVec.ofNat 32 (v.toNat / 2 ^ 32))

/-- The oldest outstanding XLD.D completes: it reads and writes its destination (R270). -/
def xldDone (s : State) (e : Nat) : State :=
  match (s.ace e).xld with
  | [] => s
  | h :: t =>
    let v := sharedRead s e h.addr
    s.modAce e fun x => { x with xld := t, g := SMap.put x.g h.d v }

/-- Stall cycles whose number is not stated, at most 40 (R270). -/
def xldStall (s : State) (e : Nat) : State :=
  let (n, s) := s.freeDraw 6
  aceEvent (aceStall s e (n % 41)) e 7 (n % 41)

/-- XLD.D (R264, R270): privileged; a fifth outstanding load stalls until one completes. -/
def execAceXldD (i : AceAt) (g pn am : Nat) (off : Int) (s : State) : Host.Outcome State Fault Refusal :=
  .next (aceOp s i 2 false false fun s => acePriv s i.eng fun s =>
    let (a, q, bad) := lAddr (s.ace i.eng) pn am off 8
    match bad with
    | some code => aceRaise s i.eng code
    | none =>
      if sharedOk a then
        let s := if 4 ≤ (s.ace i.eng).xld.length then xldStall (xldDone s i.eng) i.eng else s
        let s := aceEvent (s.modAce i.eng fun x => { x with xld := x.xld ++ [⟨a, g⟩] }) i.eng 6 1
        match q with
        | some p => s.modAce i.eng fun x => x.send 2 1 (.p pn) (p : Int)
        | none => s
      else aceRaise s i.eng 2)

/-- XST.D (R264, R270, R390): into the store buffer; a handler's store to the mailbox endpoint goes to the hub. User code may not
reach the shared window (R260). -/
def execAceXstD (i : AceAt) (g pn am : Nat) (off : Int) (s : State) : Host.Outcome State Fault Refusal :=
  .next (aceOp s i 2 false false fun s =>
    let x := s.ace i.eng
    let (a, q, bad) := lAddr x pn am off 8
    match bad with
    | some code => aceRaise s i.eng code
    | none =>
      if sharedOk a = false ∨ x.user = true then aceRaise s i.eng 2
      else
        let direct := x.st 10 && decide (0x2000000 ≤ a)
        if direct = false ∧ 64 ≤ x.sbuf.length then aceRaise s i.eng 4
        else
          let s := if direct then sharedWrite s i.eng a (x.gR g)
            else s.modAce i.eng fun x => { x with sbuf := x.sbuf ++ [(a, x.gR g)] }
          match q with
          | some p => s.modAce i.eng fun x => x.send 2 1 (.p pn) (p : Int)
          | none => s)

/-- XLD_COMPLETE: an outstanding XLD.D of an engine completes (R270). -/
def execAceXldComplete (e t : Nat) (s : State) : Host.Outcome State Fault Refusal := whileOn s t <| .next (xldDone (s.at t) e)

/-- XWAIT (R264, R270): privileged; the bundle issues when every outstanding XLD.D has completed. -/
def execAceXwait (i : AceAt) (s : State) : Host.Outcome State Fault Refusal :=
  .next (aceOp s i 1 false true fun s => acePriv s i.eng fun s =>
    if (s.ace i.eng).xld.isEmpty then s
    else xldStall (xldDone (xldDone (xldDone (xldDone s i.eng) i.eng) i.eng) i.eng) i.eng)

end Sys2Proof.Machine
end

