-- ==== Sys2Proof/Machine/AceRun.lean ====
section
/-! DEFINITION. Bundles of an ACE read from their encoding and run (R263, Table 10-7), user-block calls (R277, R278), interrupt
entry (R272, R273), exceptions and time aborts (R276, R277), sample records (R407). -/

namespace Sys2Proof.Machine

/-! ### Bundles (R263) -/

/-- The next state of a meaning that always answers one. -/
def stateOf (o : Host.Outcome State Fault Refusal) (s : State) : State := match o with | .next t => t | _ => s

/-- A signed field of a word. -/
def sbits (w lo n : Nat) : Int := toSigned n (bits w lo n)

/-- An M syllable run (Table 10-8); none where its OP is not listed or a reserved field is not 0. -/
def runM (i : AceAt) (w : Nat) (s : State) : Option State :=
  let k := bits w 28 2
  let a := bits w 23 5
  let b := bits w 18 5
  let h := bit w 17
  let sh := bits w 10 7
  let d := bits w 5 5
  let go (o : Host.Outcome State Fault Refusal) : Option State := if bits w 0 5 = 0 then some (stateOf o s) else none
  match bits w 30 6 with
  | 0x00 => some (stateOf (execAceMnop i s) s)
  | 0x01 => go (execAceMpy i k a b h s)
  | 0x02 => go (execAceMac i k a b h s)
  | 0x03 => go (execAceMsu i k a b h s)
  | 0x04 => go (execAceMova i k a sh s)
  | 0x05 => go (execAceAdda i k a sh s)
  | 0x06 => go (execAceCmpy i k a b s)
  | 0x07 => go (execAceCmac i k a b s)
  | 0x08 => go (execAceExtD i d k sh s)
  | 0x09 => go (execAceExtW i d k sh s)
  | 0x0A => go (execAceCext i d k sh s)
  | 0x0B => go (execAceClra i k s)
  | 0x0C => go (execAceExtDv i d k b s)
  | 0x0D => go (execAceExtWv i d k b s)
  | _ => none

/-- An A syllable run (Table 10-8), with the M syllable's 39 bits where IMM_EXT is set. YIELD is no user operation: it raises PRIV
there, and the library's own code is not part of the model. -/
def runA (i : AceAt) (w : Nat) (ext : Option Nat) (s : State) : Option State :=
  let d := bits w 25 5
  let a := bits w 20 5
  let b := bits w 15 5
  let n := bits w 0 6
  let go (ok : Bool) (o : Host.Outcome State Fault Refusal) : Option State := if ok && ext.isNone then some (stateOf o s) else none
  let r := decide (bits w 6 9 = 0)
  let x := decide (bits w 0 20 = 0)
  let br := decide (bits w 24 6 = 0)
  match bits w 30 6 with
  | 0x00 => go true (execAceAnop i s)
  | 0x01 => go r (execAceAdd i d a b s)
  | 0x02 => go r (execAceSub i d a b s)
  | 0x03 => go r (execAceAdds i d a b s)
  | 0x04 => go r (execAceSubs i d a b s)
  | 0x05 => go r (execAceAnd i d a b s)
  | 0x06 => go r (execAceOr i d a b s)
  | 0x07 => go r (execAceXor i d a b s)
  | 0x08 => go r (execAceShl i d a n s)
  | 0x09 => go r (execAceShr i d a n s)
  | 0x0A => go r (execAceSar i d a n s)
  | 0x0B => go r (execAceSarr i d a n s)
  | 0x0C => go r (execAceMin i d a b s)
  | 0x0D => go r (execAceMax i d a b s)
  | 0x0E => go r (execAceAbs i d a s)
  | 0x0F => go r (execAceNeg i d a s)
  | 0x10 => go true (execAceAddi i d a (sbits w 0 20) s)
  | 0x11 => some (stateOf (execAceLdi i d (bits w 0 25) ext s) s)
  | 0x12 => go (r && decide (d < 8)) (execAceCmp i d a b (bits w 0 3) s)
  | 0x13 => go r (execAcePadd2 i d a b (bit w 0) s)
  | 0x14 => go r (execAcePsub2 i d a b (bit w 0) s)
  | 0x15 => go x (execAceMtr i a d s)
  | 0x16 => go x (execAceMfr i d a s)
  | 0x17 => go x (execAceMts i a d s)
  | 0x18 => go x (execAceMfs i d a s)
  | 0x20 => go br (execAceBr i (sbits w 0 24) s)
  | 0x21 => go br (execAceCall i (sbits w 0 24) s)
  | 0x22 => go true (execAceRet i s)
  | 0x23 => go true (execAceReti i s)
  | 0x24 => go true (execAceRep i (bit w 29) (bits w 24 5) (bits w 8 16) (bits w 0 8) s)
  | 0x25 => go true (.next (aceOp s i 1 false true fun s => acePriv s i.eng id))
  | 0x26 => go true (execAceXwait i s)
  | 0x27 => go true (execAceBkpt i s)
  | _ => none

/-- An L syllable run (Table 10-8). -/
def runL (i : AceAt) (w : Nat) (s : State) : Option State :=
  let g := bits w 25 5
  let p := bits w 22 3
  let am := bits w 20 2
  let off := sbits w 10 10
  let l (o : Host.Outcome State Fault Refusal) : Option State := if bits w 0 10 = 0 ∧ am ≠ 3 then some (stateOf o s) else none
  let l2 (o : Host.Outcome State Fault Refusal) : Option State := if bits w 0 12 = 0 then some (stateOf o s) else none
  match bits w 30 6 with
  | 0x00 => some (stateOf (execAceLnop i s) s)
  | 0x01 => l (execAceLdD i g p am off s)
  | 0x02 => l (execAceLdW i g p am off s)
  | 0x03 => l (execAceLdWu i g p am off s)
  | 0x04 => l (execAceLdH i g p am off s)
  | 0x05 => l (execAceLdHu i g p am off s)
  | 0x08 => l (execAceStD i g p am off s)
  | 0x09 => l (execAceStW i g p am off s)
  | 0x0A => l (execAceStH i g p am off s)
  | 0x10 => l2 (execAceLd2D i (bits w 26 4) (bits w 23 3) (sbits w 19 4) (bits w 16 3) (sbits w 12 4) s)
  | 0x11 => l2 (execAceSt2D i (bits w 26 4) (bits w 23 3) (sbits w 19 4) (bits w 16 3) (sbits w 12 4) s)
  | 0x12 => if bits w 0 14 = 0 then some (stateOf (execAceLdstD i g p (bits w 17 5) (bits w 14 3) s) s) else none
  | 0x18 => if bits w 25 5 = 0 ∧ bits w 20 2 = 0 then some (stateOf (execAcePmod i p (sbits w 0 20) s) s) else none
  | 0x20 => l (execAceXldD i g p am off s)
  | 0x21 => l (execAceXstD i g p am off s)
  | _ => none

/-- An M syllable is well formed (R263, Tables 10-7 and 10-8): its OP is listed and its reserved fields are 0. -/
def sylMForm (w : Nat) : Bool := let o := bits w 30 6; decide (o = 0) || (decide (o ≤ 0x0D) && decide (bits w 0 5 = 0))

/-- An A syllable is well formed (R263): REP, RETI, YIELD and XWAIT carry no predicate. -/
def sylAForm (w : Nat) : Bool :=
  let o := bits w 30 6
  let r := decide (bits w 6 9 = 0)
  let bare := decide (bits w 36 4 = 0)
  decide (o = 0) || (decide (1 ≤ o ∧ o ≤ 0x0F) && r) || decide (o = 0x10 ∨ o = 0x11) || (decide (o = 0x12) && r && decide (bits w 28 2 = 0)) ||
  (decide (o = 0x13 ∨ o = 0x14) && r) || (decide (0x15 ≤ o ∧ o ≤ 0x18) && decide (bits w 0 20 = 0)) ||
  (decide (o = 0x20 ∨ o = 0x21) && decide (bits w 24 6 = 0)) || decide (o = 0x22 ∨ o = 0x27) ||
  (decide (o = 0x23 ∨ o = 0x25 ∨ o = 0x26) && bare) || (decide (o = 0x24) && bare && decide (bits w 0 8 ≠ 0))

/-- An L syllable is well formed (R263). -/
def sylLForm (w : Nat) : Bool :=
  let o := bits w 30 6
  decide (o = 0) || (decide ((1 ≤ o ∧ o ≤ 5) ∨ (8 ≤ o ∧ o ≤ 0x0A) ∨ o = 0x20 ∨ o = 0x21) && decide (bits w 0 10 = 0 ∧ bits w 20 2 ≠ 3)) ||
  (decide (o = 0x10 ∨ o = 0x11) && decide (bits w 0 12 = 0)) || (decide (o = 0x12) && decide (bits w 0 14 = 0)) ||
  (decide (o = 0x18) && decide (bits w 25 5 = 0 ∧ bits w 20 2 = 0))

/-- A bundle is well formed (R263): any other raises ILLEGAL. -/
def bundleForm (w : Nat) : Bool :=
  let ms := bits w 80 40
  let as := bits w 40 40
  let ls := bits w 0 40
  let pn (x : Nat) : Bool := !(bit x 39 && decide (bits x 36 3 = 0))
  decide (bits w 121 7 = 0) && (if bit w 120 then !bit ms 39 && decide (bits as 30 6 = 0x11) else sylMForm ms && pn ms) &&
  sylAForm as && pn as && sylLForm ls && pn ls

/-- Predicate fields of a syllable. -/
def sylAt (e w : Nat) (last : Bool) : AceAt := ⟨e, bits w 36 3, bit w 39, last⟩

/-- One bundle of 128 bits run on an engine (R263): M, A and L of one issue; ILLEGAL where its form is. -/
def runBundle (e : Nat) (w : Nat) (s : State) : State :=
  let ms := bits w 80 40
  let as := bits w 40 40
  let ls := bits w 0 40
  let imm := bit w 120
  let bad := fun (s : State) => bundleEnd (if (s.ace e).exc.isSome then s else aceRaise s e 1) e
  if bundleForm w = false then bad s
  else
    match (if imm then some s else runM (sylAt e ms false) ms s) with
    | none => bad s
    | some s1 => match runA (sylAt e as false) as (if imm then some (bits ms 0 39) else none) s1 with
      | none => bad s1
      | some s2 => match runL (sylAt e ls true) ls s2 with
        | none => bad s2
        | some s3 => s3

/-- Bundles of a call run until the block returns, raises an exception, or `fuel` bundles are over; answers the fuel left. -/
def runCall (e : Nat) : Nat → State → State × Nat
  | 0, s => (s, 0)
  | n + 1, s =>
    let x := s.ace e
    if x.call.isNone then (s, n + 1)
    else runCall e n (runBundle e (Mem.read s.ucode ((x.pc - 0x1000) * 16) 16) s)

/-! ### User-block calls (R277, R278) -/

/-- The blocks bound to an axis at a point (Table 10-12). -/
def blocksAt (s : State) (a point : Nat) : List Nat :=
  (List.range 32).filter fun u => decide (s.nat Ob.Ub.POINT u = point) && (s.bytes Ob.Ub.AXES u).any fun b => b.toNat = a

/-- Base of the active frame (Table 10-2). -/
def frameBase (x : AceRt) : Nat := if x.frameB then 0x1000 else 0

/-- The registers at the entry of a call (R277). The stack top is 0x0004_0000 and the return index a free library index
(assumption log 17). -/
def enterCall (s : State) (e a u point cycle : Nat) (ins outs : List Int) : State :=
  let (lr, s) := s.freeDraw 12
  let g7 : Int := ((cycle * 2 ^ 32 + (cycle % 8) * 2 ^ 16 + a : Nat) : Int)
  let put (m : SMap DWord) (k : Nat) (v : Int) : SMap DWord := SMap.put m k (BitVec.ofInt 64 v)
  s.modAce e fun x =>
    let g := (List.range 7).foldl (fun m k => put m k (ins.getD k 0)) x.g
    let g := (List.range 4).foldl (fun m k => put m (8 + k) (outs.getD k 0)) (put g 7 g7)
    let p7 := frameBase x + areaOff s a u
    let p := SMap.put (SMap.put (SMap.put x.p 5 (BitVec.ofNat 32 (s.nat Ob.Ub.DATA_ADDR u))) 6 (BitVec.ofNat 32 0x40000)) 7 (BitVec.ofNat 32 p7)
    { (x.setDepth 0).stSet 8 true with g := g, p := p, l := [], fly := [], branch := none, lr := lr, exc := none, halted := false,
                                        pc := s.nat Ob.Ub.CODE_ADDR u + s.nat Ob.Ub.ENTRY u, call := some ⟨u, point, 0x40000, p7, lr, x.n⟩ }

/-- One call of a block: outputs g8–g11, bundles used, and whether the call ended by its RET. -/
def callBlock (s : State) (e a u point cycle : Nat) (ins outs : List Int) : State × List Int × Nat × Bool :=
  let lim := 4 * s.nat Ob.Ub.DECLARED_TIME u
  let s := enterCall s e a u point cycle ins outs
  let (s, left) := runCall e lim s
  let x := s.ace e
  let used := lim - left
  let out := (List.range 4).map fun k => (x.gR (8 + k)).toInt
  if x.call.isSome then
    -- still running 4 × DECLARED_TIME cycles after entry (R277)
    (s, outs, used, false)
  else if (s.eng e).run.isNone then (s, outs, used, false)
  else ((if s.nat Ob.Ub.EXEC_MAX u < used then s.set Ob.Ub.EXEC_MAX used u else s), out, used, true)

/-- A time abort (R277): the item is voided with cause COMPUTE and TIME_ABORTS incremented; while a handler
runs the void waits (R275). -/
def timeAbort (s : State) (e : Nat) : State :=
  match (s.ace e).call with
  | some c => orderVoid ((s.set Ob.AceC.LAST_EXC (lastExc s e 5) 0 0 e).count Ob.Ub.TIME_ABORTS c.block) e 1
  | none => s

/-- TIME_ABORT: a user block still running 4 × DECLARED_TIME cycles after its entry (R277). -/
def execAceTimeAbort (e t : Nat) (s : State) : Host.Outcome State Fault Refusal := whileOn s t <|
  let s := s.at t
  let x := s.ace e
  .next (match x.call with
    | some c => if 4 * s.nat Ob.Ub.DECLARED_TIME c.block ≤ x.n - c.start then timeAbort s e else s
    | none => s)

/-- ACE_EXCEPTION: an exception of a code 1 ILLEGAL, 2 ADDRESS, 3 PRIV, 4 STORE_FULL (R276). -/
def execAceException (e code t : Nat) (s : State) : Host.Outcome State Fault Refusal := whileOn s t <|
  let s := s.at t
  .next (if (s.ace e).powered then (aceRaise s e code).modAce e fun x => { x with exc := none } else s)

/-! ### Interrupts (R272, R273, R407) -/

/-- A sample record (Table 17-3). -/
def sampleRecord (s : State) (e k : Nat) : List Byte :=
  let x := s.ace e
  let ipc := bitAt x.user 15 + x.depth * 2 ^ 13 + x.pc % 2 ^ 13
  let flow := match (s.eng e).run with | some r => r.item.flow | none => 0xFFFF
  leBytes 8 s.now ++ leBytes 2 ipc ++ leBytes 1 k ++ leBytes 1 e ++ leBytes 2 flow ++ leBytes 2 0

/-- The hardware writes the sample record of the oldest overflow at handler entry (R407). -/
def takeSample (s : State) (e : Nat) : State :=
  match (s.ace e).ovf with
  | [] => s
  | k :: rest =>
    let b := s.bytes Ob.Cnt.SAMPLES
    let s := if b.length / 16 < 65536 then s.setBytes Ob.Cnt.SAMPLES (b ++ sampleRecord s e k) else s.count Ob.Cnt.SAMPLES_LOST
    s.modAce e fun x => { x with ovf := rest, irq := setBit x.irq 1 (!rest.isEmpty) }

/-- An interrupt may be taken at this bundle boundary of a powered engine (R272, R402): IE set, no delay slot, in held mode no repeat body. -/
def interruptOk (x : AceRt) : Bool := x.st 6 && x.branch.isNone && (x.st 5 || decide (x.depth = 0)) && !x.halted && x.powered

/-- Entry into the handler of a source (R273): results in flight written, IPC and ISTAT saved, IE, LOOP_EN and USER cleared. A doorbell or
overflow must be waiting; a DEBUG request comes with the command. -/
def interruptEntry (s : State) (e src : Nat) : State :=
  if interruptOk (s.ace e) = false ∨ (src < 2 ∧ bit (s.ace e).irq src = false) then s else
    let x := s.ace e
    let wait := (x.fly.filter fun f => f.slot ≠ 1).foldl (fun m f => max m (f.ready - x.n)) 0
    let s := aceStall (s.setAce e { x with n := x.n + wait }.landDue) e wait
    let s := if src = 1 then takeSample s e else s.modAce e fun x => { x with irq := setBit x.irq src false }
    let s := s.modAce e fun x =>
      { (((x.stSet 6 false).stSet 7 false).stSet 8 false).stSet 10 true with ipc := x.pc, istat := x.status, pc := 0x10 + 4 * src }
    aceEvent s e 0x0D 1

/-- INTERRUPT_ENTRY: an engine takes an interrupt of a source 0 DOORBELL, 1 PMU, 2 DEBUG (R272, R273). -/
def execAceInterruptEntry (e src t : Nat) (s : State) : Host.Outcome State Fault Refusal := whileOn s t <| .next (interruptEntry (s.at t) e src)

end Sys2Proof.Machine
end

