-- ==== Sys2Proof/Machine/Link.lean ====
section
/-! DEFINITION. The barrier link between the head and the field die (R319 to R323), its frames and records. -/

namespace Sys2Proof.Machine

/-- The field die and link replaced. -/
def State.setField (s : State) (f : FieldRt) : State := { s with field := f }
/-- The field die and link changed. -/
def State.modField (s : State) (f : FieldRt → FieldRt) : State := s.setField (f s.field)
/-- A field input of the die. -/
def FieldRt.inp (f : FieldRt) (i : Nat) : FieldIn := SMap.getD f.ins i {}
/-- A field output of the die. -/
def FieldRt.outp (f : FieldRt) (q : Nat) : FieldOut := SMap.getD f.outs q {}
/-- A brake channel of the die. -/
def FieldRt.brake (f : FieldRt) (b : Nat) : BrakeIn := SMap.getD f.brakes b {}
/-- A field input replaced. -/
def FieldRt.setIn (f : FieldRt) (i : Nat) (x : FieldIn) : FieldRt := { f with ins := SMap.put f.ins i x }
/-- A field output replaced. -/
def FieldRt.setOut (f : FieldRt) (q : Nat) (x : FieldOut) : FieldRt := { f with outs := SMap.put f.outs q x }
/-- A brake channel replaced. -/
def FieldRt.setBrake (f : FieldRt) (b : Nat) (x : BrakeIn) : FieldRt := { f with brakes := SMap.put f.brakes b x }

/-- CRC-8 of a barrier frame over bytes 1 to 10 (R320). -/
def linkCrc (body : List Byte) : Nat := crcBits 8 0x2F 0xFF (byteBits body) ^^^ 0xFF

/-- A frame from its SYNC byte and bytes 1 to 10. -/
def linkFrame (sync : Nat) (body : List Byte) : List Byte := (BitVec.ofNat 8 sync :: body) ++ [BitVec.ofNat 8 (linkCrc body)]

/-- Bytes 1 to 10 of a downstream frame (Table 13-1). -/
def downBody (seq : Nat) (safeReq paired : Bool) (kind fq hs ls rc : Nat) : List Byte :=
  beBytes 1 (16 * (seq % 16) + bitAt safeReq 3 + bitAt paired 2 + kind) ++ beBytes 2 fq ++ beBytes 1 hs ++ beBytes 1 ls ++ beBytes 5 rc

/-- Bytes 1 to 10 of an upstream frame (Table 13-2). -/
def upBody (seq kind fi rc : Nat) : List Byte := beBytes 1 (16 * (seq % 16) + kind) ++ beBytes 3 fi ++ beBytes 6 rc

/-- The number that bytes spell, most significant first. -/
def beNat (l : List Byte) : Nat := leNat l.reverse

/-- A received frame is good (R321): SYNC, CRC, and SEQ against the last good frame's SEQ and slot. Before any good frame every SEQ
is taken. -/
def linkGood (sync : Nat) (last : Option (Nat × Nat)) (slot : Nat) (f : List Byte) : Bool :=
  let body := (f.drop 1).take 10
  decide (f.length = 12) && decide (beNat (f.take 1) = sync) && decide (beNat (f.drop 11) = linkCrc body) &&
  (match last with
   | none => true
   | some (q, n) => decide (beNat (body.take 1) / 16 = (q + (slot - n)) % 16))

/-- A truncated time of `n` bits completed to the value nearest to `now` (R323, R325). -/
def nearest (n now x : Nat) : Nat := ((now : Int) + toSigned n (x + 2 ^ n - now % 2 ^ n)).toNat

/-- Edges of a field output to one level that are still to come are withdrawn. -/
def dropEdges (s : State) (q : Nat) (lv : Bool) : State :=
  s.modField fun f =>
    let x := f.outp q
    { f.setOut q { x with edges := x.edges.filter fun e => e.2 ≠ lv } with edges := f.edges.filter fun e => !decide (e.2.1 = q ∧ e.2.2 = lv) }

/-! ### Records of the die -/

/-- Precedence of a record kind in Table 13-4. -/
def recRank : Nat → Nat
  | 1 => 0 | 2 => 1 | 4 => 2 | 5 => 3 | 6 => 4 | 3 => 5 | 7 => 6 | 8 => 7 | 9 => 8 | 10 => 9 | _ => 10

/-- A record kept where the queue of 64 is full: STAMP, LATCH and HIT are never discarded (R323). -/
def recKept (k : Nat) : Bool := decide (k = 2 ∨ k = 4 ∨ k = 5 ∨ k = 6)

/-- A record queued in the die (R323). -/
def FieldRt.queue (f : FieldRt) (kind rc : Nat) : FieldRt :=
  if f.recs.length < 64 then { f with recs := f.recs ++ [(kind, rc)] }
  else if recKept kind then
    match f.recs.findIdx? fun r => !recKept r.1 with
    | some i => { f with recs := f.recs.eraseIdx i ++ [(kind, rc)] }
    | none => { f with recs := f.recs ++ [(kind, rc)] }
  else f

/-- Index of the record sent next: the first of the highest precedence, a LATCH_POS directly after its LATCH_TIME. -/
def nextRec (l : List (Nat × Nat)) : Option Nat :=
  let best := l.foldl (fun n r => min n (recRank r.1)) 10
  if best = 10 then none else l.findIdx? fun r => recRank r.1 = best

/-- A STATUS record of the die (Table 13-4). -/
def statusRec (f : FieldRt) : Nat :=
  f.supply % 16 * 2 ^ 44 + f.vf % 4096 * 2 ^ 32 + (f.temp + 64).toNat % 256 * 2 ^ 24 + f.downBadAll % 256 * 2 ^ 16

/-- A BRAKE_RB record of channel `b` (Table 13-4). -/
def brakeRec (f : FieldRt) (b : Nat) : Nat :=
  let x := f.brake b
  b * 2 ^ 45 + bitAt x.mismatch 40 + x.rbH % 4096 * 2 ^ 28 + x.rbL % 4096 * 2 ^ 16

/-- An ME_SPEED record of master encoder `k` (Table 13-4): `v` in 2⁻³² counts/s. -/
def meSpeedRec (k : Nat) (v : Int) (pend : Bool) : Nat := k * 2 ^ 46 + bitAt pend 45 + lowBits 40 (roundShr v 16)

/-- Expected readback of a channel (Table 13-7): high or low of RB_H and RB_L; `open_` tells an open coil apart. -/
def expectRb (hs ls : Bool) : Bool × Bool :=
  match hs, ls with
  | false, _ => (false, false)
  | true, false => (true, true)
  | true, true => (true, false)

/-- An OUT_DIAG record of output `q`: code of Table 13-6, load current in mA (Table 13-4). -/
def diagRec (q code ma : Nat) : Nat := q % 16 * 2 ^ 44 + code % 16 * 2 ^ 40 + min 255 (ma / 4) * 2 ^ 32

/-! ### Outputs -/

/-- An output is timed (R325): named by a TTP channel or a compare unit. -/
def timedOut (s : State) (q : Nat) : Bool :=
  (List.range 8).any fun c => decide (s.nat Ob.Ttp.TARGET c = q + 1 ∨ s.nat Ob.Cmp.TARGET c = q + 1)

/-- An output follows the frames (R333): not paired, or PAIRED_DRIVE set in them. -/
def pairedOk (s : State) (q : Nat) : Bool := !s.flag Ob.Outp.PAIRED q || s.field.paired

/-- The supply or the safe state keeps outputs and brake controls off (R322, R335, R336). -/
def FieldRt.off (f : FieldRt) : Bool := f.safe || decide (2 ≤ f.supply) || f.held

/-- Every output at high impedance, every brake control off (R322, R335). -/
def outputsOff (f : FieldRt) (t : Nat) : FieldRt :=
  { f with outs := f.outs.map fun e => (e.1, { e.2 with driven := false }), hs := 0, ls := 0,
           brakesAt := if f.hs = 0 ∧ f.ls = 0 then f.brakesAt else t }

/-- The die's safe state (R322): outputs off, pending timed edges discarded. -/
def dieSafe (s : State) : State :=
  if s.field.safe then s else
    let f := outputsOff { s.field with safe := true, downGood := 0 } s.now
    s.setField { f with outs := f.outs.map fun e => (e.1, { e.2 with edges := [] }) }

/-- Inputs become valid again once they have completed their DEBOUNCE (R336). -/
def inputsAgain (s : State) : State :=
  forBelow 24 (fun i s => s.modField fun f => f.setIn i { f.inp i with validAt := s.now + s.nat Ob.Inp.DEBOUNCE i * 1000 }) s

/-- The outputs return under RESTORE_MODE (R323, R336). -/
def outputsReturn (s : State) : State :=
  let s := inputsAgain s
  s.modField fun f => { f with held := decide (s.get Ob.Die.RESTORE_MODE = 1), switched := true }

/-- The third consecutive bad downstream frame, or SAFE_REQ (R322). -/
def judgeDieSafe (s : State) : State :=
  if 3 ≤ s.field.downBad ∨ s.field.reqSeen = true then dieSafe s else s

/-- 1 000 consecutive good downstream frames without SAFE_REQ (R323). -/
def judgeDieExit (s : State) : State :=
  if s.field.safe = true ∧ 1000 ≤ s.field.downGood then outputsReturn (s.modField fun f => { f with safe := false }) else s

/-- The levels of the die's last good frame reach untimed outputs and brake controls (R327, R332, R333). -/
def switchOutputs (s : State) : State :=
  let f := s.field
  if f.switched ∨ f.off = true then s else
    let s := forBelow 16 (fun q s =>
      let x := s.field.outp q
      let acked := x.acked
      let was := x.openLoad
      let x := if acked then { x with latched := 0, acked := false } else x
      let drive := decide (x.latched = 0) && pairedOk s q
      let x := if timedOut s q then { x with driven := (x.driven || acked) && drive }
        else { x with driven := drive, level := bit s.field.fqLevel q, openLoad := x.openLoad && bit s.field.fqLevel q }
      let f := s.field.setOut q x
      s.setField (if acked || (was && !x.openLoad) then f.queue 8 (diagRec q (if x.openLoad then 3 else 0) 0) else f)) s
    let f := s.field
    s.setField { f with hs := f.fbHs, ls := f.fbLs, switched := true, brakesAt := if f.hs = f.fbHs ∧ f.ls = f.fbLs then f.brakesAt else s.now }

/-- A timed output switches to a level (R325). -/
def switchTimed (s : State) (q : Nat) (lv : Bool) : State :=
  let x := s.field.outp q
  if s.field.off then s
  else
    let f := s.field.setOut q { x with level := lv, driven := decide (x.latched = 0) && pairedOk s q, openLoad := x.openLoad && lv }
    s.setField (if x.openLoad && !lv then f.queue 8 (diagRec q 0 0) else f)

/-- An EDGE record received by the die at `rx` (R325): late edges switch at once, EDGE_LATE counted. -/
def edgeReceived (s : State) (q t rx : Nat) (lv : Bool) : State :=
  if s.field.safe then s
  else if t ≤ rx then switchTimed (s.count Ob.Outp.EDGE_LATE q) q lv
  else s.modField fun f => let x := f.outp q; f.setOut q { x with edges := x.edges ++ [(t, lv)] }

/-- FQ_LEVEL of the next frame (R327). -/
def fqWord (s : State) : Nat := ((List.range 16).map fun q => bitAt (s.flag Ob.Outp.OUT_VALUE q) q).sum
/-- FB_HS of the next frame, as the safety island's gates pass it (R13, R344). -/
def hsWord (s : State) : Nat := ((List.range 8).map fun b => bitAt (s.flag Ob.Brk.HS_ON b) b).sum
/-- FB_LS of the next frame. -/
def lsWord (s : State) : Nat := ((List.range 8).map fun b => bitAt (s.flag Ob.Brk.LS_ON b) b).sum

/-- The unit drives paired outputs (R333, R378): it holds the active role or is single. ROLE: 0 SINGLE, 1 ACTIVE. -/
def drivesPaired (s : State) : Bool := decide (s.get Ob.Pair.ROLE ≤ 1)

/-- The record of the downstream frame that starts at `t` (Table 13-3): kind, content, edge queue left. -/
def downRecord (f : FieldRt) (t : Nat) : Nat × Nat × List (Nat × Nat × Bool) :=
  if 1024 ≤ f.sinceTime then (2, t / 1000 % 2 ^ 40, f.edges)
  else match f.edges with
    | (te, q, lv) :: rest =>
      if te < t + 2 ^ 29 then (1, q % 16 * 2 ^ 36 + bitAt lv 35 + te % 2 ^ 30, rest) else (0, 0, f.edges)
    | [] => (0, 0, [])

/-- What the die does with a downstream frame of slot `t` as received (R321 to R325). -/
def dieReceive (s : State) (t : Nat) (rx : List Byte) : State :=
  let f := s.field
  if linkGood 0x7E f.downLast (t / 1000) rx then
    let ctrl := beNat (slice rx 1 1)
    let req := bit ctrl 3
    let pd := bit ctrl 2
    let f := { f with downLast := some (ctrl / 16, t / 1000), downBad := 0, downGood := if req then 0 else f.downGood + 1,
                      fqLevel := beNat (slice rx 2 2), fbHs := beNat (slice rx 4 1), fbLs := beNat (slice rx 5 1),
                      paired := pd, pairedFrom := if pd && !f.paired then t else f.pairedFrom, reqSeen := req, frameAt := t, switched := false }
    let s := s.setField f
    let rc := beNat (slice rx 6 5)
    let s := if ctrl % 4 = 1 then edgeReceived s (bits rc 36 4) (nearest 30 (t + 1000) (bits rc 0 30)) (t + 1000) (bit rc 35) else s
    judgeDieExit (judgeDieSafe s)
  else
    judgeDieSafe (s.setField { f with downBad := f.downBad + 1, downGood := 0, downBadAll := f.downBadAll + 1 })

/-- One downstream slot at `t`: the head sends its frame, the die takes it as it arrives (`rx`: what arrives in its place). -/
def downSlot (s : State) (t : Nat) (rx : Option (List Byte)) : State :=
  let f := s.field
  let (kind, rc, rest) := downRecord f t
  let pd := drivesPaired s
  let frame := linkFrame 0x7E (downBody f.seqDown f.safeReq pd kind (fqWord s) (hsWord s) (lsWord s) rc)
  let s := (s.setField { f with seqDown := (f.seqDown + 1) % 16, fqSent := fqWord s, sinceTime := (if kind = 2 then 0 else f.sinceTime + 1), edges := rest,
                                pairedDrive := pd }).emit (.barrier frame)
  dieReceive s t (rx.getD frame)

/-- DOWNSTREAM_FRAME: the frame that starts at `t`, a whole microsecond of machine time; `rx` is what reaches the die where that differs from what was sent (R319 to R323). -/
def execDownstreamFrame (t : Nat) (rx : Option (List Byte)) (s : State) : Host.Outcome State Fault Refusal := whileOn s t <|
  let s := s.at t
  .next (if s.now % 1000 = 0 then downSlot s s.now rx else s)

/-- UNTIMED_OUTPUT_SWITCH: 1.2 µs after the start of a good frame (R327). -/
def execUntimedOutputSwitch (t : Nat) (s : State) : Host.Outcome State Fault Refusal :=
  let s := s.at t
  .next (if s.field.frameAt + 1200 ≤ s.now then switchOutputs s else s)

/-- Timed edges of an output that are due at the present instant (R325). -/
def dueEdges (s : State) (q : Nat) : State :=
  let x := s.field.outp q
  let due := x.edges.filter fun e => e.1 ≤ s.now
  let s := s.setField (s.field.setOut q { x with edges := x.edges.filter fun e => s.now < e.1 })
  forList due (fun e s => switchTimed s q e.2) s

/-- TIMED_EDGE: output `q` switches at the commanded time (R325). -/
def execTimedEdge (q t : Nat) (s : State) : Host.Outcome State Fault Refusal := .next (dueEdges (s.at t) q)

/-- DIE_SAFE_STATE (R322). -/
def execDieSafeState (t : Nat) (s : State) : Host.Outcome State Fault Refusal := .next (judgeDieSafe (s.at t))

/-- DIE_SAFE_EXIT (R323). -/
def execDieSafeExit (t : Nat) (s : State) : Host.Outcome State Fault Refusal := whileOn s t <| .next (judgeDieExit (s.at t))

end Sys2Proof.Machine
end

