-- ==== Sys2Proof/Machine/Feedback.lean ====
section
/-! DEFINITION. Feedback units (R229 to R239), edge-timed speed (R244), latches (R245 to R248) and the FEEDBACK node
(R230, R231, R240 to R243, R164). -/

namespace Sys2Proof.Machine

/-! ### Units -/

/-- MODE of a feedback unit (Table 09-6). -/
def unitMode (s : State) (u : Nat) : Int := s.get Ob.Fb.MODE (fbIx u)

/-- FILTER_LEN of a feedback unit: ENC 4, ME 20 by default (Table 09-6). -/
def unitFilter (s : State) (u : Nat) : Nat := if u < 8 then s.nat Ob.Fb.FILTER_LEN u else s.nat Ob.FbMe.FILTER_LEN (u - 8)

/-- The axes whose feedback is unit `u` (Table 09-1). -/
def unitAxes (s : State) (u : Nat) : List Nat :=
  (List.range 256).filter fun a =>
    if u < 8 then decide (s.get Ob.AxFb.FB_SOURCE a = 2 ∧ s.nat Ob.AxFb.FB_UNIT a = u)
    else decide (s.get Ob.AxFb.FB_SOURCE a = 3 ∧ s.nat Ob.AxFb.FB_UNIT a + 8 = u)

/-- UNIT_STATUS of a feedback unit (Table 09-7). -/
def unitStatus (f : FbUnit) : Nat :=
  bitAt f.abs.valid 0 + bitAt f.quad.pendingEst 1 + bitAt f.quad.indexSeen 2 + bitAt f.quad.illegalNow 3 +
  bitAt f.quad.uncertain 4 + bitAt f.abs.errNow 5 + bitAt f.abs.checkFault 6 + bitAt (decide (f.quad.wires ≠ 0)) 7 + bitAt f.quad.fault 8

/-- A feedback unit replaced, with UNIT_STATUS brought up to it. -/
def putUnit (s : State) (u : Nat) (f : FbUnit) : State := (s.setFbu u f).set Ob.Fb.UNIT_STATUS (unitStatus f) (fbIx u)

/-- A FEEDBACK fault of an axis with FB_REACTION (R242, R243); HOMED is cleared (R214). While the cause lasts it is raised again only for an axis
that is ARMING or ENABLED with a reaction that stops it. -/
def feedbackFault (s : State) (a : Nat) : State :=
  let s := (s.set Ob.AxFb.FB_STATE 3 a).modAxis a fun x => { x with flags := { x.flags with homed := false } }
  let st := (s.axis a).mot.state
  let live := decide (st = .arming ∨ st = .enabled) && (reactionStop (s.get Ob.AxFb.FB_REACTION a)).isSome
  if bit (s.nat Ob.Ctl.FAULT_SET a) 18 && !live then s else raiseFault s a 18 (s.get Ob.AxFb.FB_REACTION a)

/-- Compare units on a source that faults (R255): their hits that have not fired are withdrawn and CV returns to the first of them. -/
def holdCompares (s : State) (u : Nat) : State :=
  forBelow 8 (fun c s =>
    let x := s.cmp c
    match x.committed with
    | h :: _ =>
      if s.nat Ob.Cmp.POS_SOURCE c ≠ u then s else
        let q := s.nat Ob.Cmp.TARGET c - 1
        let lv := !s.flag Ob.Cmp.POLARITY c
        let s := s.setCmp c { x with committed := [], cv := h.cv, shot := false, pulseEnd := if x.level then x.pulseEnd else 0 }
        if 1 ≤ s.nat Ob.Cmp.TARGET c ∧ s.nat Ob.Cmp.TARGET c ≤ 16 then dropEdges s q lv else s
    | [] => s) s

/-- FAULT of a unit set: FEEDBACK on every axis whose feedback it is (R234, R236, R238, R239, R243). -/
def unitFault (s : State) (u : Nat) : State :=
  let f := s.fbu u
  if f.quad.fault then s else
    let s := holdCompares (putUnit s u { f with quad := { f.quad with fault := true } }) u
    forList (unitAxes s u) (fun a s => feedbackFault s a) s

/-- The report of pair or input `k` of a unit (R236): open or shorted, or sound again; an enabled unit takes WIRE and FAULT at once. -/
def wireReport (s : State) (u k : Nat) (bad : Bool) : State :=
  let f := s.fbu u
  let f := { f with quad := { f.quad with wires := setBit f.quad.wires k bad } }
  if unitMode s u = 0 then s.setFbu u f
  else if bad then unitFault (putUnit s u f) u else putUnit s u f

/-- A rebase of an axis's count is due (R241). -/
def startRebase (s : State) (a : Nat) : State :=
  let s := s.modAxis a fun x => { x with fb := { x.fb with rebase := true } }
  if s.get Ob.AxFb.FB_SOURCE a = 2 then
    let u := s.nat Ob.AxFb.FB_UNIT a
    let f := s.fbu u
    s.setFbu u { f with abs := { f.abs with haveWord := false } }
  else s

/-! ### Edge-timed speed (R244) -/

/-- The edges of the run that the first of a list belongs to (R244). -/
def runOf : List EncEdge → List EncEdge
  | [] => []
  | e :: l => if e.d = 0 then [] else if e.first then [e] else e :: runOf l

/-- The speed estimate at `t` from edges, newest first, in 2⁻³² counts/s, and whether it is pending (R244). -/
def edgeSpeed (edges : List EncEdge) (span still t : Nat) : Int × Bool :=
  match runOf (edges.filter fun e => e.t ≤ t) with
  | k :: k1 :: rest =>
    if still < t - k.t then (0, true)
    else
      let older := (k1 :: rest).filter fun e => k.t ≤ e.t + span
      let n := if older.isEmpty then 1 else older.length
      let j := older.getLast?.getD k1
      let ve : Rat := mkRat ((n : Int) * 1000000000) (k.t - j.t)
      let v := if t = k.t then ve else min ve (mkRat 1000000000 (t - k.t))
      (k.d * roundRat (v * 2 ^ 32), false)
  | _ => (0, true)

/-- The speed estimate of a unit at `t`, in the head or on the die (R244, R324). -/
def unitSpeed (s : State) (u t : Nat) : Int × Bool :=
  edgeSpeed (s.fbu u).quad.edges (s.nat Ob.Fb.SPEED_SPAN (fbIx u)) (s.nat Ob.Fb.STANDSTILL_SPAN (fbIx u)) t

/-- Edges that later estimates and latched positions can still need: the last 64, those within the span, and those of the longest time by
which a latch event trails its stamp (R244, R246, R247). -/
def trimEdges (l : List EncEdge) (span : Nat) : List EncEdge :=
  match l with
  | [] => []
  | k :: _ => l.take (max 64 ((l.takeWhile fun e => k.t ≤ e.t + span + 80000000).length + 1))

/-- An edge of direction `d` at `t` before the edges of a source: it starts a run after a reversal, a standstill or an illegal transition (R244). -/
def addEdge (l : List EncEdge) (still t : Nat) (d ext : Int) : List EncEdge :=
  let goesOn := match l with
    | k :: _ => decide (k.d = d ∧ t ≤ k.t + still)
    | [] => false
  ⟨t, d, ext, !goesOn⟩ :: l

/-! ### Quadrature (R232 to R235) -/

/-- Decodes incremental edges: ENC QUADRATURE and ABS_PLUS_QUAD, ME QUADRATURE (Table 09-6). -/
def quadOn (s : State) (u : Nat) : Bool := decide (unitMode s u = 1 ∨ (u < 8 ∧ unitMode s u = 3))

/-- Movement of a change of A and B (Table 09-2): +1, −1, 0 without a change; none for an illegal transition. -/
def quadMove (a b a' b' : Bool) : Option Int :=
  if a = a' ∧ b = b' then some 0
  else if a ≠ a' ∧ b ≠ b' then none
  else if (a' ≠ a ∧ a' ≠ b) ∨ (b' ≠ b ∧ b' = a) then some 1
  else some (-1)

/-- An illegal transition at `t` (R234). -/
def illegalTransition (s : State) (u t : Nat) : State :=
  let f := s.fbu u
  let win := s.nat Ob.Fb.ILLEGAL_WINDOW (fbIx u) * 1000000
  let ill := t :: f.quad.illegal.filter fun x => t ≤ x + win
  let q := { f.quad with illegal := ill, illegalNow := true, uncertain := true, pendingEst := true, edges := ⟨t, 0, f.quad.ext, true⟩ :: f.quad.edges }
  let s := putUnit s u { f with quad := q }
  let s := (s.count Ob.Fb.ILLEGAL_COUNT (fbIx u)).warn 234 u t
  let lim := s.nat Ob.Fb.ILLEGAL_LIMIT (fbIx u)
  if lim ≠ 0 ∧ lim ≤ ill.length then unitFault s u else s

/-- Events of latches on source `u` that wait with the stamp `t` take the count after an edge of the same sample (R235, R246). -/
def sameSample (s : State) (u t : Nat) (ext : Int) : State :=
  forBelow 8 (fun l s =>
    let x := s.latch l
    if s.nat Ob.Lat.POS_SOURCE l = u ∧ (x.waiting.any fun e => decide (e.2.t = t)) = true then
      s.setLatch l { x with waiting := x.waiting.map fun e => if e.2.t = t then (e.1, { e.2 with cnt := ext, frac := 0 }) else e }
    else s) s

/-- One legal edge of direction `d` at `t` (R233). -/
def quadStep (s : State) (u : Nat) (d : Int) (t : Nat) : State :=
  let f := s.fbu u
  let q := f.quad
  let ext := q.ext + d
  let edges := addEdge q.edges (s.nat Ob.Fb.STANDSTILL_SPAN (fbIx u)) t d ext
  let index := match q.index with
    | some (ti, c) => if ti = t then some (t, ext) else some (ti, c)
    | none => none
  sameSample (putUnit s u { f with quad := { q with cnt := lowBits 32 (q.cnt + d), ext := ext, index := index,
                                                    edges := trimEdges edges (s.nat Ob.Fb.SPEED_SPAN (fbIx u)),
                                                    pendingEst := decide ((runOf edges).length < 2) } }) u t ext

/-- The index condition of a unit's levels under INDEX_GATE 1 (R235). -/
def indexGate (q : QuadSt) : Bool := q.a && q.b && q.z

/-- The latch units whose trigger is the index of unit `u` (Table 09-8). -/
def indexLatches (s : State) (u : Nat) : List Nat :=
  (List.range 8).filter fun l => decide (s.nat Ob.Lat.TRIGGER l = 29 + u)

/-! ### Latches (R245 to R248) -/

/-- Position of a source at `t_e`: whole counts and a fraction in 2⁻¹⁶ count (R246). -/
def latchPosition (s : State) (src t : Nat) : Int × Nat :=
  let q := (s.fbu src).quad
  match q.edges.filter fun e => e.t ≤ t with
  | k :: _ =>
    let (v, pend) := unitSpeed s src t
    if pend then (k.ext, 0)
    else
      let move : Rat := min (mkRat ((v.natAbs : Int) * ((t - k.t : Nat) : Int)) (1000000000 * 2 ^ 32)) (mkRat 65535 65536)
      let p := k.ext * 65536 + k.d * roundRat (move * 65536)
      (p.fdiv 65536, (p % 65536).toNat)
  | [] => (match q.edges.getLast? with | some e => e.ext - e.d | none => q.ext, 0)

/-- Debounce of a field input in ns (Table 13-10). -/
def debounceNs (s : State) (i : Nat) : Nat := s.nat Ob.Inp.DEBOUNCE i * 1000

/-- Instant from which a latch event of time `t` is available (R247). -/
def latchReady (s : State) (l t : Nat) : Nat :=
  let tr := s.nat Ob.Lat.TRIGGER l
  if 1 ≤ tr ∧ tr ≤ 24 then t + debounceNs s (tr - 1) + 3000 else t + 100

/-- Unit `l` already holds an event of this instant and edge: a record and its event are one (R247, R323). -/
def latchHas (x : LatchRt) (t : Nat) (falling : Bool) : Bool :=
  (x.waiting.map (·.2) ++ x.fifo ++ x.last.toList).any fun e => decide (e.t = t ∧ e.falling = falling)

/-- A latch event taken: it waits until it is available (R246, R247); rising before falling in one sample. The latch
units on the die stop while the link is LOST (R322). -/
def takeLatch (s : State) (l t : Nat) (falling : Bool) (p : Int × Nat) : State :=
  let x := s.latch l
  if latchHas x t falling ∨ (8 ≤ s.nat Ob.Lat.POS_SOURCE l ∧ s.get Ob.Die.LINK_STATE = 2) then s else
    let ev : LatchEv := ⟨t, p.1, p.2, falling, 0⟩
    let before := x.waiting.filter fun e => !(!falling && decide (e.2.t = t))
    let after := x.waiting.filter fun e => !falling && decide (e.2.t = t)
    s.setLatch l { x with waiting := before ++ (latchReady s l t, ev) :: after }

/-- The EDGE selection of a latch unit takes an edge (R245). -/
def edgeWanted (sel : Int) (falling : Bool) : Bool := decide (sel = 2) || (if falling then decide (sel = 1) else decide (sel = 0))

/-- An index event at `t` (R235): stamp and count recorded, INDEX_SEEN, and the latches it triggers (R246). -/
def indexEventAt (s : State) (u t : Nat) : State :=
  let f := s.fbu u
  let was := match f.quad.index with
    | some (ti, _) => if ti = t then f.quad.indexWas else (f.quad.index, f.quad.indexSeen)
    | none => (none, f.quad.indexSeen)
  let s := putUnit s u { f with quad := { f.quad with indexSeen := true, index := some (t, f.quad.ext), indexWas := was } }
  forList (indexLatches s u) (fun l s =>
    let src := s.nat Ob.Lat.POS_SOURCE l
    takeLatch s l t false (if src = u then (f.quad.ext, 0) else latchPosition s src t)) s

/-- An index event of the present sample that its final levels do not bear out is none (R235). -/
def indexWithdrawn (s : State) (u t : Nat) : State :=
  let f := s.fbu u
  match f.quad.index with
  | some (ti, _) =>
    if ti ≠ t then s else
      let s := putUnit s u { f with quad := { f.quad with index := f.quad.indexWas.1, indexSeen := f.quad.indexWas.2 } }
      forList (indexLatches s u) (fun l s =>
        let x := s.latch l
        s.setLatch l { x with waiting := x.waiting.filter fun e => e.2.t ≠ t }) s
  | none => s

/-- The index condition of INDEX_GATE 1 judged after a change of a level (R235): it counts as it stands once every change of the sample is taken. -/
def judgeGate (s : State) (u t : Nat) : State :=
  let f := s.fbu u
  let q := f.quad
  let g := indexGate q
  let was := if q.levelAt = t then q.gateWas else q.gate
  let s := s.setFbu u { f with quad := { q with levelAt := t, gate := g, gateWas := was } }
  if s.get Ob.Fb.INDEX_GATE (fbIx u) ≠ 1 then s
  else if g && !was then indexEventAt s u t
  else indexWithdrawn s u t

/-- Levels of A and B changed at `t` (R233, R234), with the index gate judged after it (R235). The new levels have stood for
`held` samples: fewer than FILTER_LEN are rejected without trace (R232). Answers the direction of a counted edge. -/
def quadLevels (s : State) (u : Nat) (a b : Bool) (t held : Nat) : State × Int :=
  if quadOn s u = false ∨ held < unitFilter s u then (s, 0) else
    let f := s.fbu u
    let put (s : State) : State :=
      let f := s.fbu u
      judgeGate (s.setFbu u { f with quad := { f.quad with a := a, b := b } }) u t
    match quadMove f.quad.a f.quad.b a b with
    | none => (put (illegalTransition s u t), 0)
    | some d => if d = 0 then (s, 0) else (put (quadStep s u d t), d)

/-- Level of Z changed at `t` (R235). -/
def indexLevel (s : State) (u : Nat) (z : Bool) (t held : Nat) : State :=
  if quadOn s u = false ∨ held < unitFilter s u ∨ (s.fbu u).quad.z = z then s else
    let f := s.fbu u
    let s := judgeGate (s.setFbu u { f with quad := { f.quad with z := z } }) u t
    if s.get Ob.Fb.INDEX_GATE (fbIx u) = 0 ∧ z = true then indexEventAt s u t else s

/-! ### Clocked absolute position (R237 to R239) -/

/-- Fields of ABS_FORMAT (Table 09-4). -/
def absShift (s : State) (u : Nat) : Nat := bits (s.nat Ob.Fb.ABS_FORMAT u) 12 4
def absAckMax (s : State) (u : Nat) : Nat := bits (s.nat Ob.Fb.ABS_FORMAT u) 8 4
def absCheckKind (s : State) (u : Nat) : Nat := bits (s.nat Ob.Fb.ABS_FORMAT u) 6 2
def absStatusBits (s : State) (u : Nat) : Nat := bits (s.nat Ob.Fb.ABS_FORMAT u) 3 3
def absGray (s : State) (u : Nat) : Bool := bit (s.nat Ob.Fb.ABS_FORMAT u) 2
def absStartBits (s : State) (u : Nat) : Nat := bits (s.nat Ob.Fb.ABS_FORMAT u) 0 2

/-- Check bits of a frame (Table 09-3). -/
def absCheckBits (s : State) (u : Nat) : Nat := match absCheckKind s u with | 1 => 1 | 2 => 5 | _ => 0

/-- Frame time T_abs in units of 0.5 ns (R237): the clock runs at 800 MHz / (2 × ABS_CLOCK_DIV). -/
def absTimeHalf (s : State) (u : Nat) : Nat :=
  let n := 1 + absAckMax s u + absStartBits s u + s.nat Ob.Fb.ABS_BITS u + absStatusBits s u + absCheckBits s u
  n * (5 * s.nat Ob.Fb.ABS_CLOCK_DIV u) + 2 * s.nat Ob.Fb.SAMPLE_DELAY u

/-- Frame time T_abs in whole ns, rounded up (R237). -/
def absTime (s : State) (u : Nat) : Nat := (absTimeHalf s u + 1) / 2

/-- A number from bits, most significant first. -/
def msbNat (l : List Bool) : Nat := l.foldl (fun n b => 2 * n + (if b then 1 else 0)) 0

/-- `n` bits of a list from `o`, missing bits 0. -/
def bitSlice (l : List Bool) (o n : Nat) : List Bool :=
  let t := (l.drop o).take n
  t ++ List.replicate (n - t.length) false

/-- A decoded absolute frame: the position word, or the code of the first failed check (R237, R238). -/
def absDecode (s : State) (u : Nat) (low : Bool) (l : List Bool) : Nat × Nat :=
  let ack := (l.takeWhile fun b => !b).length
  let st := absStartBits s u
  let o := if st = 0 then 0 else ack + st
  let n := s.nat Ob.Fb.ABS_BITS u
  let k := absStatusBits s u
  let pos := bitSlice l o n
  let stat := bitSlice l (o + n) k
  let chk := bitSlice l (o + n + k) (absCheckBits s u)
  let word := if absGray s u then unGray n (msbNat pos) else msbNat pos
  let code :=
    if low then 1
    else if st ≠ 0 ∧ absAckMax s u < ack then 2
    else if (absCheckKind s u = 1 ∧ oddOnes (pos ++ stat ++ chk) = true) ∨
            (absCheckKind s u = 2 ∧ crcBits 5 5 0 (pos ++ stat) ≠ msbNat chk) then 3
    else if (msbNat stat) &&& (s.nat Ob.Fb.ABS_STATUS_MASK u) ≠ 0 then 4
    else if unitMode s u = 2 ∧ (match (s.fbu u).abs.prevWord with
              | some w => decide (s.get Ob.Fb.ABS_JUMP_MAX u < |toSigned n (word + 2 ^ n - w % 2 ^ n)|)
              | none => false) = true then 5
    else 0
  (word, code)

/-- Extended count of a unit's quadrature at its last whistle sample. -/
def extAtSample (f : FbUnit) : Int := f.quad.ext - toSigned 32 (f.quad.cnt + 2 ^ 32 - f.abs.raw0)

/-- A received frame used (R238, R239, R241). -/
def absReceive (s : State) (u : Nat) (low : Bool) (l : List Bool) : State :=
  let (word, code) := absDecode s u low l
  let f := s.fbu u
  let n := s.nat Ob.Fb.ABS_BITS u
  let sh := absShift s u
  if code = 0 then
    let s := s.set Ob.Fb.ABS_WORD word u
    let s := s.set Ob.Fb.ABS_ERR_CODE 0 u
    let ab := { f.abs with errNow := false, badRun := 0, repeats := 0, word := word, prevWord := some word, req := 0 }
    let ready := some (max s.now (f.abs.reqAt + absTime s u + 100))
    if unitMode s u = 2 then
      let d := toSigned n (word + 2 ^ n - f.abs.word % 2 ^ n)
      let ext : Int := if f.abs.haveWord then f.quad.ext + d else word
      putUnit s u { f with abs := { ab with valid := true, raw0 := word, readyAt := ready, haveWord := true }, quad := { f.quad with ext := ext } }
    else if f.abs.req = 2 then
      let ext : Int := ((word * 2 ^ sh : Nat) : Int) + toSigned 32 (f.quad.cnt + 2 ^ 32 - f.abs.wordRaw)
      putUnit s u { f with abs := { ab with haveWord := true }, quad := { f.quad with ext := ext } }
    else
      let q := extAtSample f
      let d := toSigned (n + sh) (lowBits (n + sh) (((word * 2 ^ sh : Nat) : Int) - q))
      if s.get Ob.Fb.ABS_TOL u < |d| then unitFault (putUnit s u { f with abs := { ab with checkFault := true } }) u
      else putUnit s u { f with abs := ab }
  else
    let s := (s.count Ob.Fb.ABS_ERR_COUNT u).set Ob.Fb.ABS_ERR_CODE code u
    let lim := s.nat Ob.Fb.ABS_ERR_LIMIT u
    if unitMode s u = 2 then
      let ready := some (max s.now (f.abs.reqAt + absTime s u + 100))
      let s := putUnit s u { f with abs := { f.abs with errNow := true, valid := false, readyAt := ready, req := 0, badRun := f.abs.badRun + 1 } }
      if lim ≤ f.abs.badRun + 1 then unitFault s u else s
    else if f.abs.req = 3 then
      let s := putUnit s u { f with abs := { f.abs with errNow := true, badRun := f.abs.badRun + 1, repeats := f.abs.repeats + 1 } }
      if lim ≤ f.abs.repeats then unitFault s u else s
    else
      let s := putUnit s u { f with abs := { f.abs with errNow := true, badRun := f.abs.badRun + 1 } }
      if lim ≤ f.abs.badRun + 1 then unitFault s u else s

/-- The absolute side of an ENC unit at a whistle `tw` (R239): the frame requested there, if any. In ABS_PLUS_QUAD a rebase word goes before a check. -/
def absRequest (f : FbUnit) (mode : Int) (tw : Nat) : AbsSt :=
  let ab := f.abs
  if mode = 2 then { ab with valid := false, readyAt := none, req := 1, reqAt := tw }
  else
    let ab := { ab with raw0 := f.quad.cnt, valid := !f.quad.fault, readyAt := some (tw + 100) }
    if mode ≠ 3 then ab
    else if !ab.haveWord then { ab with req := 2, reqAt := tw, wordRaw := f.quad.cnt, wordT := tw }
    else if ab.checkDue then { ab with req := 3, reqAt := tw, checkDue := false, repeats := 0 }
    else if ab.req = 3 then { ab with reqAt := tw } else ab

/-- The feedback units sampled at a whistle of LOCAL_RING (R229, R239, R244): counts and estimates latched, absolute frames requested,
COUNT, SPEED and UNIT_STATUS published. ILLEGAL shows the cycle that ends here no longer (R234). -/
def sampleUnits (s : State) (tw : Nat) : State :=
  forBelow 12 (fun u s =>
    let m := unitMode s u
    if m = 0 then s else
      let f := s.fbu u
      -- the sample of the last whistle becomes the one before, where it has become complete
      let ab := if f.abs.readyAt.isSome then
          { f.abs with raw1 := f.abs.raw0, t1 := f.abs.t0, valid1 := f.abs.valid, spd1 := f.abs.spd0, t0 := tw }
        else { f.abs with t0 := tw }
      let (v, pend) := unitSpeed s u tw
      if u < 8 then
        let ab := absRequest { f with abs := { ab with spd0 := v } } m tw
        let s := (s.set Ob.Fb.COUNT f.quad.cnt u).set Ob.Fb.SPEED v u
        let s := if ab.req ≠ 0 ∧ ab.reqAt = tw then s.emit (.encRequest u tw) else s
        putUnit s u { f with abs := ab, quad := { f.quad with pendingEst := pend, illegalNow := false } }
      else putUnit s u { f with abs := { ab with valid := !f.quad.fault, readyAt := none }, quad := { f.quad with illegalNow := false } }) s

/-- CLEAR_FAULT of a unit (R234, R235, R243); a master encoder reports FAULT as long as the link is LOST (R322). -/
def clearUnitFault (s : State) (u : Nat) : State :=
  let f := s.fbu u
  let win := s.nat Ob.Fb.ILLEGAL_WINDOW (fbIx u) * 1000000
  let calm := f.quad.illegal.all fun t => decide (t + win < s.now)
  let absOk := (!decide (u < 8 ∧ (unitMode s u = 2 ∨ unitMode s u = 3))) || !f.abs.errNow
  let linkOk := decide (u < 8) || decide (s.get Ob.Die.LINK_STATE ≠ 2)
  let clear := f.quad.fault && decide (f.quad.wires = 0) && calm && absOk && linkOk
  let q := { f.quad with uncertain := false, indexSeen := false, fault := f.quad.fault && !clear }
  let s := putUnit s u { f with quad := q, abs := { f.abs with checkFault := f.abs.checkFault && !clear, badRun := (if clear then 0 else f.abs.badRun) } }
  if clear then
    let s := forList (unitAxes s u) (fun a s => startRebase s a) s
    let s := let f := s.fbu u; s.setFbu u { f with abs := { f.abs with haveWord := false } }
    forBelow 8 (fun c s => if s.nat Ob.Cmp.POS_SOURCE c = u then
      s.setCmp c { s.cmp c with rearm := true } else s) s
  else s

/-! ### Conversion to units (R231) -/

/-- Position in 2⁻³² units of a count given with `k` fraction bits, without POS_OFFSET (R231). -/
def toUnits (s : State) (a : Nat) (c : Int) (k : Nat) : Int :=
  let sg : Int := if s.get Ob.AxFb.FB_INVERT a = 1 then -1 else 1
  roundDiv (sg * c * s.get Ob.AxFb.FB_UNITS a * 2 ^ 32) (max 1 (s.get Ob.AxFb.FB_COUNTS a) * 2 ^ k)

/-- Speed in 2⁻³² units/s of a speed in 2⁻³² counts/s (R244). -/
def speedUnits (s : State) (a : Nat) (v : Int) : Int :=
  let sg : Int := if s.get Ob.AxFb.FB_INVERT a = 1 then -1 else 1
  roundDiv (sg * v * s.get Ob.AxFb.FB_UNITS a) (max 1 (s.get Ob.AxFb.FB_COUNTS a))

/-- A count of a unit as the axis's extended count: the axis may have been rebased apart from the unit (R241, R248). -/
def axisCount (s : State) (a u : Nat) (c : Int) : Int :=
  let f := s.fbu u
  let x := s.axis a
  if u < 8 ∧ unitMode s u = 2 then
    let n := s.nat Ob.Fb.ABS_BITS u
    x.fb.extValid + (c - (f.quad.ext - toSigned n (f.abs.word + 2 ^ n - x.fb.rawPrev % 2 ^ n)))
  else x.fb.extValid + (c - (f.quad.ext - toSigned 32 (f.quad.cnt + 2 ^ 32 - x.fb.rawPrev)))

/-! ### The FEEDBACK node -/

/-- Offset of POS_RAW or POS_AUX in the up data of a channel of kind `k` (Table 03-7). -/
def countOff (k : Nat) (aux : Bool) : Nat :=
  match k with
  | 1 => if aux then 4 else 0
  | 2 => if aux then 8 else 0
  | _ => if aux then 12 else 8

/-- A sample of an axis's source: the raw count, its width, its whistle, validity, age, rate bound, absolute or not. -/
structure FbSample where
  raw : Nat
  width : Nat
  t : Nat
  valid : Bool
  age : Nat
  rate : Nat
  absolute : Bool
  fault : Bool
  /-- The unit's speed estimate at that whistle, in 2⁻³² counts/s (R244). -/
  speed : Int
deriving DecidableEq, Repr

/-- Guaranteed count rate of a unit (R232). -/
def rateMax (s : State) (u : Nat) : Nat :=
  if u < 8 then min 50000000 (250000000 / (unitFilter s u + 1)) else min 1000000 (100000000 / (unitFilter s u + 1))

/-- The sample a FEEDBACK node of axis `a` for whistle `tw` uses (R229, R230); none for source 0xFF. -/
def fbSample (s : State) (a tw : Nat) : Option FbSample :=
  let src := s.get Ob.AxFb.FB_SOURCE a
  let u0 := s.nat Ob.AxFb.FB_UNIT a
  let mcr := s.nat Ob.AxFb.MAX_COUNT_RATE a
  if src = 0 ∨ src = 1 then
    let k := s.kindOf a
    let raw := leAt (chanUp s a) (countOff k (decide (src = 1))) 4
    some ⟨raw, 32, tw, decide (k ≤ 3) && bit (chanStatus s a) 2, 0, mcr, s.flag Ob.AxFb.FB_WORKER_ABS a, false, 0⟩
  else if src = 2 ∨ src = 3 then
    let u := if src = 2 then u0 else 8 + u0
    let f := s.fbu u
    let abs := decide (u < 8 ∧ unitMode s u = 2)
    let w := if abs then s.nat Ob.Fb.ABS_BITS u else 32
    let fresh := sampleReady s u
    let rate := if abs then mcr else rateMax s u
    some ⟨if fresh then f.abs.raw0 else f.abs.raw1, w, if fresh then f.abs.t0 else f.abs.t1,
          (if fresh then f.abs.valid else f.abs.valid1) && decide (unitMode s u ≠ 0), if fresh then 0 else 1, rate,
          decide (u < 8 ∧ 2 ≤ unitMode s u), f.quad.fault, if fresh then f.abs.spd0 else f.abs.spd1⟩
  else none

/-- x_act of an axis from its extended count (R231). -/
def actualOf (s : State) (a : Nat) (ext : Int) : Int := sat 64 (toUnits s a ext 0 + s.get Ob.AxFb.POS_OFFSET a)

/-- The low-pass of R164 on a velocity source value. -/
def lowPass (s : State) (a tc : Nat) (vf v : Int) : Int :=
  let t := f32Rat (s.get Ob.Pos.VEL_FILTER_TC a)
  if t = 0 then v else
    let b : Rat := secsOf tc / (t + secsOf tc)
    vf + roundRat (b * ((v - vf : Int) : Rat))
where
  /-- Nanoseconds as seconds. -/
  secsOf (n : Nat) : Rat := mkRat n 1000000000

/-- v_act of a run (R164): the source selected by VEL_SOURCE, then the low-pass. `dx` counts moved over `dt` ns; `speed` is the unit's estimate. -/
def velocityOf (s : State) (a tc : Nat) (vf dx : Int) (dt : Nat) (speed : Int) : Int × Int :=
  let src := s.get Ob.AxFb.FB_SOURCE a
  let est := if src = 2 ∨ src = 3 then speedUnits s a speed else 0
  let sg : Int := if s.get Ob.AxFb.FB_INVERT a = 1 then -1 else 1
  let dif := if dt = 0 then vf else
    roundDiv (sg * dx * s.get Ob.AxFb.FB_UNITS a * 2 ^ 32 * 1000000000) (max 1 (s.get Ob.AxFb.FB_COUNTS a) * dt)
  let v := if s.get Ob.Pos.VEL_SOURCE a = 1 ∧ (src = 2 ∨ src = 3) then est else dif
  (sat 64 (lowPass s a tc vf (sat 64 v)), est)

/-- Objects of AX+0x21 and the actual values after a FEEDBACK node. -/
def fbPublish (s : State) (a : Nat) (st age : Int) (est : Int) : State :=
  let x := s.axis a
  ((((((s.set Ob.AxFb.EXT_COUNT (sat 64 x.fb.ext) a).set Ob.AxFb.FB_STATE st a).set Ob.AxFb.FB_AGE age a).set
    Ob.AxFb.SPEED_EST est a).set Ob.Map.ACTUAL_POSITION x.fb.xact a).set Ob.Map.ACTUAL_VELOCITY x.fb.vact a)

/-- The count of a rebase: ext, raw count and its instant, POS_OFFSET and whether HOMED clears; none while an absolute word is
still awaited (R241). -/
def rebaseCount (s : State) (a : Nat) (m : FbSample) : Option (Int × Nat × Nat × Int × Bool) :=
  let x := s.axis a
  let src := s.get Ob.AxFb.FB_SOURCE a
  let u := s.nat Ob.AxFb.FB_UNIT a
  if src = 2 ∧ unitMode s u = 3 then
    let f := s.fbu u
    if f.abs.haveWord then
      some (((f.abs.word * 2 ^ absShift s u : Nat) : Int), f.abs.wordRaw, f.abs.wordT, s.get Ob.AxFb.ABS_OFFSET a, false)
    else none
  else if m.absolute then
    some (if src = 2 then (m.raw : Int) else toSigned 32 m.raw, m.raw, m.t, s.get Ob.AxFb.ABS_OFFSET a, false)
  else some (if x.fb.firstBase then 0 else x.fb.ext, m.raw, m.t, s.get Ob.AxFb.POS_OFFSET a, true)

/-- A valid sample extends the count (R240). -/
def fbExtend (s : State) (a tc : Nat) (m : FbSample) : State :=
  let x := s.axis a
  let d := toSigned m.width (m.raw + 2 ^ m.width - x.fb.rawPrev % 2 ^ m.width)
  let ext := sat 64 (x.fb.extValid + d)
  let unc := decide (2 ^ (m.width - 1) * 1000000000 ≤ (m.t - x.fb.tPrev) * m.rate)
  let (v, est) := velocityOf s a tc x.fb.vf (ext - x.fb.ext) (m.t - x.fb.tUsed) m.speed
  let s := s.modAxis a fun x =>
    { x with fb := { x.fb with ext := ext, extValid := ext, rawPrev := m.raw, tPrev := m.t, tUsed := m.t, ext2 := x.fb.ext1,
                               ext1 := ext, hold := 0, xact := actualOf s a ext, vact := v, vf := v },
             flags := { x.flags with homed := x.flags.homed && !(unc && !m.absolute) } }
  let s := if unc && m.absolute then startRebase s a else s
  fbPublish (if unc then s.set Ob.AxFb.EXT_UNCERTAIN 1 a else s) a 1 m.age est

/-- A replaced sample (R238, R242): twice the last count less the one before, a HOLD with its event (R185). -/
def fbReplace (s : State) (a tc : Nat) (m : FbSample) : State :=
  let x := s.axis a
  let ext := sat 64 (2 * x.fb.ext1 - x.fb.ext2)
  let (v, est) := velocityOf s a tc x.fb.vf (ext - x.fb.ext) (m.t - x.fb.tUsed) m.speed
  let worker := decide (s.get Ob.AxFb.FB_SOURCE a ≤ 1)
  let s := s.modAxis a fun x =>
    { x with fb := { x.fb with ext := ext, ext2 := x.fb.ext1, ext1 := ext, tUsed := m.t, xact := actualOf s a ext, vact := v, vf := v,
                               hold := if worker then x.fb.hold + 1 else x.fb.hold } }
  let s := if worker then (s.count Ob.AxFb.INVALID_COUNT a).warn 242 a 0 else s.warn 238 a 0
  fbPublish s a 2 m.age est

/-- FB_HOLD_LIMIT consecutive invalid worker samples raise FEEDBACK (R242). -/
def judgeHold (s : State) (a : Nat) : State :=
  if s.get Ob.AxFb.FB_SOURCE a ≤ 1 ∧ s.nat Ob.AxFb.FB_HOLD_LIMIT a ≤ (s.axis a).fb.hold ∧ 0 < (s.axis a).fb.hold then
    feedbackFault s a
  else s

/-- The source of the axis is faulted: x_act held, v_act 0 (R243). -/
def fbHeld (s : State) (a : Nat) : State :=
  let s := s.modAxis a fun x => { x with fb := { x.fb with vact := 0, vf := 0 } }
  fbPublish s a 3 (s.get Ob.AxFb.FB_AGE a) 0

/-- The FEEDBACK node of axis `a` for whistle `tw`, with the ring's cycle length `tc` (R230, R231, R240 to R243, R164). -/
def feedbackNode (s : State) (a tw tc : Nat) : State :=
  match fbSample s a tw with
  | none => s
  | some m =>
    let x := s.axis a
    if m.fault then fbHeld (feedbackFault s a) a
    else if m.valid = false then
      let s := if s.get Ob.AxFb.FB_STATE a = 3 then fbHeld (if s.get Ob.AxFb.FB_SOURCE a ≤ 1 then s.count Ob.AxFb.INVALID_COUNT a else s) a
        else fbReplace s a tc m
      judgeHold s a
    else if x.fb.rebase || decide (s.get Ob.AxFb.FB_STATE a = 3) then
      match rebaseCount s a m with
      | none => fbPublish s a 0 m.age 0
      | some (ext, raw, t, off, lost) =>
        let s := (s.set Ob.AxFb.POS_OFFSET off a).set Ob.AxFb.EXT_UNCERTAIN 0 a
        let s := s.modAxis a fun x =>
          { x with fb := { x.fb with ext := ext, extValid := ext, rawPrev := raw, tPrev := t, tUsed := t, ext1 := ext, ext2 := ext,
                                     hold := 0, rebase := false, firstBase := false, xact := actualOf s a ext, vact := 0, vf := 0 },
                   flags := { x.flags with homed := x.flags.homed && !lost } }
        -- a word read at an earlier whistle is carried on to this sample by the quadrature count
        if raw = m.raw then fbPublish s a 1 m.age 0 else fbExtend s a tc m
    else fbExtend s a tc m

end Sys2Proof.Machine
end

