-- ==== Sys2Proof/Machine/Inject.lean ====
section
/-! DEFINITION. Injection signals (R418, R419). -/

namespace Sys2Proof.Machine

/-! ### Logarithm and exponential with 60 fraction bits -/

/-- ln 2 with 60 fraction bits. -/
def ln2Fix : Int := 799144290325165979

/-- Terms z^(2k+1)/(2k+1) of the series of the inverse hyperbolic tangent, with 60 fraction bits. -/
def atanhTerms (z2 : Int) : Nat → Nat → Int → Int → Int
  | 0, _, _, acc => acc
  | n + 1, k, p, acc => atanhTerms z2 n (k + 2) (p * z2 / 2 ^ 60) (acc + p / (k : Int))

/-- Natural logarithm of a positive rational, with 60 fraction bits. -/
def lnFix (q : Rat) : Int :=
  let e : Int := (q.num.toNat.log2 : Int) - (q.den.log2 : Int)
  let m : Rat := if 0 ≤ e then q / (2 ^ e.toNat : Nat) else q * (2 ^ (-e).toNat : Nat)
  let z := roundRat ((m - 1) / (m + 1) * 2 ^ 60)
  e * ln2Fix + 2 * atanhTerms (z * z / 2 ^ 60) 40 1 z 0

/-- Terms of the series of the exponential, with 60 fraction bits. -/
def expTerms (x : Int) : Nat → Nat → Int → Int → Int
  | 0, _, _, acc => acc
  | n + 1, k, p, acc => let p := p * x / 2 ^ 60 / (k : Int); expTerms x n (k + 1) p (acc + p)

/-- Exponential of a number with 60 fraction bits. -/
def expFix (x : Int) : Rat :=
  let k := x.fdiv ln2Fix
  let r := x - k * ln2Fix
  let m := mkRat (expTerms r 24 1 (2 ^ 60) (2 ^ 60)) (2 ^ 60)
  if 0 ≤ k then m * (2 ^ k.toNat : Nat) else m / (2 ^ (-k).toNat : Nat)

/-! ### Signals -/

/-- Feedback places of the PRBS register of order `n` (R418). -/
def prbsTaps : Nat → List Nat
  | 7 => [7, 6] | 8 => [8, 6, 5, 4] | 9 => [9, 5] | 10 => [10, 7] | 11 => [11, 9] | 12 => [12, 11, 10, 4]
  | 13 => [13, 12, 11, 8] | 14 => [14, 13, 12, 2] | _ => [15, 14]

/-- `k` shifts of a Fibonacci register of order `n`; place 1 is bit 0. -/
def prbsShift (n : Nat) : Nat → Nat → Nat
  | 0, r => r
  | k + 1, r => prbsShift n k ((2 * r) % 2 ^ n + bitAt (oddOnes ((prbsTaps n).map fun p => bit r (p - 1))) 0)

/-- The PRBS bit of run number `k`: the last place of the register, seed all ones, a new bit every HOLD runs (R418). -/
def prbsBit (n hold k : Nat) : Bool := bit (prbsShift n ((k / max 1 hold) % (2 ^ n - 1)) (2 ^ n - 1)) (n - 1)

/-- Phase of a sweep in turns (R418). -/
def sweepTurns (f0 f1 dur t : Rat) : Rat :=
  let l := lnFix (f1 / f0)
  f0 * dur / mkRat l (2 ^ 60) * (expFix (roundRat (mkRat l 1 * (t / dur))) - 1)

/-- Fraction bits of an injection node: x_ref and v_cmd 32, u and i_q_ref 31. -/
def injFrac (node : Nat) : Int := if node ≤ 2 then 32 else 31

/-- s(t) for a run of the node whose samples are of whistle `tw`, the node's runs `iv` ns apart (R418). -/
def injSignal (s : State) (tw iv : Nat) : Int :=
  let t := tw - s.obs.inj.t0
  let amp := f32Rat (s.get Ob.Inj.INJ_AMPLITUDE)
  let fo := injFrac (s.nat Ob.Inj.INJ_NODE)
  let a := gainMul amp (2 ^ 31) 31 fo
  match s.get Ob.Inj.INJ_SIGNAL with
  | 0 =>
    let turns := sweepTurns (f32Rat (s.get Ob.Inj.F_START)) (f32Rat (s.get Ob.Inj.F_STOP)) (mkRat (s.get Ob.Inj.DURATION) 1000) (secs t)
    gainMul amp (sinQ31 (lowBits 32 (roundRat (turns * 2 ^ 32)))) 31 fo
  | 1 => a
  | _ => if prbsBit (s.nat Ob.Inj.PRBS_ORDER) (s.nat Ob.Inj.PRBS_HOLD) (t / max 1 iv) then a else -a

/-- Injection ended with a state of Table 17-8: 2 DONE, 3 STOPPED (R419). -/
def injEnd (s : State) (st : Int) : State :=
  if s.obs.inj.on then ({ s with obs := { s.obs with inj := { s.obs.inj with on := false } } }).set Ob.Inj.INJ_STATE st else s

/-- Injection judged at whistle `tw` (R419): DONE at DURATION for a sweep or a step, STOPPED where the axis is not ENABLED. -/
def judgeInj (s : State) (tw : Nat) : State :=
  if s.obs.inj.on = false then s
  else if (s.axis (s.nat Ob.Inj.INJ_AXIS)).mot.state ≠ .enabled then injEnd s 3
  else if s.get Ob.Inj.INJ_SIGNAL ≠ 2 ∧ s.obs.inj.t0 + s.nat Ob.Inj.DURATION * 1000000 ≤ tw then injEnd s 2
  else s

/-- The signal added to node `node` of axis `a` in a run at `tw` (R418, R419). -/
def injAt (s : State) (a node tw iv : Nat) : Int :=
  if s.obs.inj.on ∧ (s.axis a).mot.state = .enabled ∧ s.get Ob.Inj.INJ_AXIS = a ∧ s.get Ob.Inj.INJ_NODE = node ∧ s.obs.inj.t0 ≤ tw then injSignal s tw iv else 0

/-- INJECTION_END (R419). -/
def execInjectionEnd (t : Nat) (s : State) : Host.Outcome State Fault Refusal := whileOn s t <| .next (let s := s.at t; judgeInj s s.now)

end Sys2Proof.Machine
end

