-- ==== Sys2Proof/Machine/Masters.lean ====
section
/-! DEFINITION. Masters (R217 to R220), cams (R224 to R226) and the machine stop of virtual masters (R205, R206, R218). -/

namespace Sys2Proof.Machine

/-- A master evaluated at an instant: position (kept in [0, PERIOD) when modular), velocity, acceleration, in 2⁻³² units. -/
structure MasterVal where
  pos : Int
  vel : Int
  acc : Int
  valid : Bool
deriving DecidableEq, Repr

/-- A position reduced into [0, PERIOD) of a modular master (R217). -/
def modPeriod (period x : Int) : Int := if period = 0 then x else x % period

/-- Exact state of a virtual master at `t` (R218): its pieces, then the velocity of its tail. -/
def vmKin (m : MasterRt) (t : Nat) : Kin :=
  let tail : Kin := ⟨mkRat m.tailX (2 ^ 64) + q32 m.tailV * secs (t - m.tailT), q32 m.tailV, 0⟩
  if m.tailT ≤ t then tail
  else match segAt m.pieces t with
    | some g => g.kin t
    | none => tail

/-- Position, velocity and acceleration of a virtual master at `t`, each rounded once (R197, R218). -/
def vmAt (m : MasterRt) (t : Nat) : Int × Int × Int :=
  let k := vmKin m t
  (rq32 k.x, rq32 k.v, rq32 k.a)

/-- Position in units of an ENCODER master: count × UNIT_NUM / UNIT_DEN, the remainder carried (R219). -/
def encUnits (s : State) (k : Nat) (cnt : Int) : Int :=
  (cnt * s.get Ob.Mst.UNIT_NUM k * 2 ^ 32).fdiv (s.get Ob.Mst.UNIT_DEN k)

/-- The source axis's feedback is valid (R220). -/
def axisSourceValid (s : State) (a : Nat) : Bool :=
  decide (s.get Ob.Map.RING a ≠ 0xFF) && decide (s.get Ob.AxFb.FB_STATE a ≠ 3)

/-- The sample of a feedback unit that an ENCODER master uses: the extended count, and the whistle of LOCAL_RING at which it was taken (R217, R229). -/
def masterSample (s : State) (u : Nat) : Int × Nat :=
  let f := s.fbu u
  let fresh := sampleReady s u
  let t := if fresh then f.abs.t0 else f.abs.t1
  if u < 8 ∧ s.get Ob.Fb.MODE (fbIx u) = 2 then (f.quad.ext, t)
  else (f.quad.ext - toSigned 32 (f.quad.cnt + 2 ^ 32 - (if fresh then f.abs.raw0 else f.abs.raw1)), t)

/-- What the source axis of a master shows a run for whistle `tw` (R217): its last completed cycle before that whistle. -/
def axisDone (x : AxisRt) (tw : Nat) : DoneVal :=
  match x.done0, x.done1 with
  | some d, some e => if d.tw < tw then d else e
  | some d, none => d
  | none, _ => ⟨x.fb.tUsed, x.fb.xact, x.fb.vact, x.loop.tPos, x.loop.xref, x.loop.vref, x.loop.aref⟩

/-- A master at the instant `t`, for a run whose samples are of whistle `tw` (R217, Table 08-9). -/
def masterAt (s : State) (k tw t : Nat) : MasterVal :=
  let per := s.get Ob.Mst.PERIOD k
  let src := s.nat Ob.Mst.SOURCE k
  let on (x v : Int) (t0 : Nat) : Int := modPeriod per (x + roundDiv (v * ((t : Int) - (t0 : Int))) 1000000000)
  match s.get Ob.Mst.TYPE k with
  | 1 =>
    let (x, v, a) := vmAt (s.master k) t
    ⟨modPeriod per x, v, a, true⟩
  | 2 =>
    let f := s.fbu src
    let v := roundDiv ((if sampleReady s src then f.abs.spd0 else f.abs.spd1) * s.get Ob.Mst.UNIT_NUM k) (s.get Ob.Mst.UNIT_DEN k)
    let (c, t0) := masterSample s src
    ⟨on (encUnits s k c) v t0, v, 0, !f.quad.fault⟩
  | 3 =>
    let d := axisDone (s.axis src) tw
    ⟨on d.xact d.vact d.tw, d.vact, 0, axisSourceValid s src⟩
  | 4 =>
    let d := axisDone (s.axis src) tw
    ⟨on d.xref d.vref d.tPos, d.vref, d.aref, axisSourceValid s src⟩
  | _ => ⟨0, 0, 0, false⟩

/-- Evaluation for an axis whose samples are of whistle `tw`: t_W + LEAD (R217). -/
def masterFor (s : State) (k tw : Nat) : MasterVal := masterAt s k tw ((tw : Int) + s.get Ob.Mst.LEAD k).toNat

/-- Master increment since the previous run (R221): reduced into [−PERIOD/2, PERIOD/2) for a modular master. -/
def masterDelta (period prev cur : Int) : Int :=
  if period = 0 then cur - prev else
    let d := (cur - prev) % period
    if 2 * d < period then d else d - period

/-- Start of a plan change of virtual masters: the first whole ms of machine time at or after `t` (R205, R218). -/
def wholeMs (t : Nat) : Nat := ((t + 999999) / 1000000) * 1000000

/-- A virtual master replanned at `t0` towards velocity `v1` (R218, R199), from the exact state of its table. -/
def replanMaster (s : State) (k t0 : Nat) (v1 acc jerk : Int) : State :=
  let m := s.master k
  let e := vmKin m t0
  let p := phaseOf e.v e.a (q32 v1) (q32 acc) (q32 jerk)
  let (segs, z) := p.run t0 e (q32 v1)
  let kept := m.pieces.filter fun g => g.t < t0
  let kept := if m.tailT < t0 then kept ++ [⟨m.tailT, t0 - m.tailT, m.tailX, m.tailV * 2 ^ 32, 0, 0⟩] else kept
  (s.setMaster k { m with pieces := kept ++ segs, tailT := t0 + p.dur, tailX := r64 z.x, tailV := v1, replan := none }).set
    Ob.Mst.VM_CHANGE_AT t0 k

/-- Every virtual master ramped to rest with a deceleration object and VM_JERK from the first whole ms (R205); it stays at rest (R206). -/
def rampMasters (s : State) (dec : Obj) : State :=
  forBelow 8 (fun k s =>
    let m := { s.master k with stopped := true }
    s.setMaster k (if s.get Ob.Mst.TYPE k = 1 then { m with replan := some (wholeMs (s.now + 1000000), 0, s.get dec k, s.get Ob.Mst.VM_JERK k) } else m)) s

/-- POSITION, VELOCITY and STATE of the masters at a LOCAL_RING whistle (Table 08-15, R220). -/
def publishMasters (s : State) (tw : Nat) : State :=
  forBelow 8 (fun k s =>
    let v := masterAt s k (tw + 1) tw
    let st : Int := if s.get Ob.Mst.TYPE k = 0 then 0 else if v.valid then 1 else 2
    ((s.set Ob.Mst.POSITION v.pos k).set Ob.Mst.VELOCITY v.vel k).set Ob.Mst.STATE st k) s

/-! ### Cams -/

/-- A cam segment (Table 08-10). -/
structure CamSeg where
  m0 : Nat
  m1 : Nat
  y0 : Int
  c1 : Int
  c2 : Int
  c3 : Int
deriving DecidableEq, Repr

/-- Number of segments of a cam. -/
def camCount (s : State) (c : Nat) : Nat := (s.bytes Ob.Cam.SEGMENTS c).length / 32

/-- Segment `k` of a SEGMENTS value with `n` segments. -/
def camSegOf (b : List Byte) (n k : Nat) : CamSeg :=
  let o := 32 * k
  ⟨leAt b o 4, if k + 1 < n then leAt b (o + 32) 4 else 2 ^ 32, toSigned 64 (leAt b (o + 8) 8), toSigned 64 (leAt b (o + 16) 8),
   toSigned 32 (leAt b (o + 4) 4), toSigned 32 (leAt b (o + 24) 4)⟩

/-- y(u), y′(u) and y″(u) of a segment, exact rationals in units; `u` in 2⁻³² (R224). -/
def CamSeg.at (g : CamSeg) (sh u : Nat) : Rat × Rat × Rat :=
  let x := mkRat u (2 ^ 32)
  let a := q32 g.y0
  let b := q32 g.c1
  let c := mkRat g.c2 (2 ^ sh)
  let d := mkRat g.c3 (2 ^ sh)
  (a + b * x + c * x * x + d * x * x * x, b + 2 * c * x + 3 * d * x * x, 2 * c + 6 * d * x)

/-- Index of the segment that holds the fraction `f` (R225). -/
def camFind (b : List Byte) (n f : Nat) : Nat := ((List.range n).filter fun k => leAt b (32 * k) 4 ≤ f).getLast?.getD 0

/-- RISE of a SEGMENTS value: y(1) of the last segment minus Y0 of the first (R224), in 2⁻³² units. -/
def camRiseOf (b : List Byte) (sh : Nat) : Int :=
  let n := b.length / 32
  if n = 0 then 0 else rq32 ((camSegOf b n (n - 1)).at sh (2 ^ 32)).1 - (camSegOf b n 0).y0

/-- Master fraction of a cam and whole cycles moved since `x` was reduced (R225): a result of 2³² becomes 0 of the next cycle. -/
def camFrac (off period x : Int) : Nat × Int :=
  let r := (x - off) % period
  let f := roundDiv (r * 2 ^ 32) period
  if f = 2 ^ 32 then (0, 1) else (f.toNat, 0)

/-- Cam `c` at master position `x` with velocity and acceleration (R225): y in 2⁻³² units without c and n, ẏ and ÿ. -/
def camAt (s : State) (a c : Nat) (x vm am : Int) : Int × Int × Int :=
  let b := s.bytes Ob.Cam.SEGMENTS c
  let n := b.length / 32
  if n = 0 then (0, 0, 0) else
  let sh := s.nat Ob.Cam.COEF_SHIFT c
  let per := s.get Ob.Cam.PERIOD c
  let (f, _) := camFrac (s.get Ob.Gear.CAM_MASTER_OFFSET a) per x
  let g := camSegOf b n (camFind b n f)
  let u := (roundDiv (((f - g.m0 : Nat) : Int) * 2 ^ 32) ((g.m1 - g.m0 : Nat) : Int)).toNat
  let (y, y1, y2) := g.at sh u
  let len : Rat := mkRat ((g.m1 - g.m0 : Nat) : Int) (2 ^ 32) * q32 per
  let w := q32 vm / len
  (rq32 y, rq32 (y1 * w), rq32 (y2 * w * w + y1 * q32 am / len))

end Sys2Proof.Machine
end

