-- ==== Sys2Proof/Machine/Setpoint.lean ====
section
/-! DEFINITION. The SETPOINT node: mode entry, profiles, gearing, cams, FOLLOW, homing and position limits (R174 to R176,
R193 to R199, R207 to R227). -/

namespace Sys2Proof.Machine

/-! ### Inputs named by source words (R208, Table 08-7) -/

/-- The input a source word names: configured, and its value; an open or invalid field input counts as active (`none` level). -/
def sourceRead (s : State) (w : Nat) : Option (Option Bool) :=
  match bits w 30 2 with
  | 1 =>
    let i := bits w 0 5
    if !bit (s.nat Ob.Die.INPUT_VALID) i || s.flag Ob.Inp.OPEN i then some none else some (some (bit (s.nat Ob.Die.INPUTS) i))
  | 2 => some (some (bit (leAt (s.wk (bits w 24 2) (bits w 16 6 + 1)).data (bits w 8 8) 1) (bits w 0 3)))
  | _ => none

/-- A limit input is active under LIMIT_LEVEL (R209). -/
def limitActive (s : State) (a : Nat) (w : Nat) : Bool :=
  match sourceRead s w with
  | none => false
  | some none => true
  | some (some v) => if s.get Ob.Lim.LIMIT_LEVEL a = 1 then v else !v

/-- The source word of an axis's homing (R212): HOME_SOURCE, or the limit in HOME_DIR for method LIMIT. -/
def homeSource (s : State) (a : Nat) : Nat :=
  if s.get Ob.Home.HOME_METHOD a = 3 then s.nat (if s.get Ob.Home.HOME_DIR a = 0 then Ob.Lim.LIMIT_POS_SOURCE else Ob.Lim.LIMIT_NEG_SOURCE) a
  else s.nat Ob.Home.HOME_SOURCE a

/-- The home source of an axis's method is active (R212). -/
def homeActive (s : State) (a : Nat) : Bool :=
  if s.get Ob.Home.HOME_METHOD a = 3 then limitActive s a (homeSource s a)
  else match sourceRead s (homeSource s a) with
    | some none => true
    | some (some v) => v
    | none => false

/-- The method's source or feedback is configured (R216); an index needs the axis's feedback on a unit that decodes one. -/
def homeConfigured (s : State) (a : Nat) : Bool :=
  let idx := match axisUnit s a with | some u => decide (s.get Ob.Fb.MODE (fbIx u) = 1 ∨ (u < 8 ∧ s.get Ob.Fb.MODE (fbIx u) = 3)) | none => false
  let src := decide (bits (homeSource s a) 30 2 ≠ 0)
  match s.get Ob.Home.HOME_METHOD a with
  | 0 => true
  | 1 => src
  | 2 => src && idx
  | 3 => src
  | 4 => idx
  | _ => fbAbsolute s a && decide (s.get Ob.AxFb.FB_STATE a = 1)

/-- Events that the latch bound to an axis has made available so far. -/
def latchTotal (s : State) (a : Nat) : Nat := (s.latch (s.nat Ob.Bind.LATCH_UNIT a)).total

/-- The latch bound to an axis takes the index of its feedback (R213, R245). -/
def indexLatch (s : State) (a : Nat) : Bool :=
  let b := s.nat Ob.Bind.LATCH_UNIT a
  match axisUnit s a with | some u => decide (b < 8) && decide (s.nat Ob.Lat.TRIGGER b = 29 + u) | none => false

/-- The latch bound to an axis takes the inactive edge of its home source (R213): armed, on that field input, with an EDGE that includes it. -/
def homeLatch (s : State) (a : Nat) : Bool :=
  let b := s.nat Ob.Bind.LATCH_UNIT a
  let w := homeSource s a
  let falling := if s.get Ob.Home.HOME_METHOD a = 3 then decide (s.get Ob.Lim.LIMIT_LEVEL a = 1) else true
  let e := s.get Ob.Lat.EDGE b
  decide (b < 8) && decide (bits w 30 2 = 1) && decide (s.nat Ob.Lat.TRIGGER b = bits w 0 5 + 1) && decide (s.get Ob.Lat.STATE b = 1) &&
  (decide (e = 2) || decide (e = if falling then 1 else 0))

/-- An index pulse of the axis's feedback that counts for its homing has come (R213, R235): the bound latch holds its event, or without one the unit's
record is newer than the search. -/
def indexCame (s : State) (a : Nat) : Bool :=
  let h := (s.axis a).mot.home
  if indexLatch s a then decide (h.latchSeen < latchTotal s a)
  else match (axisUnit s a).bind fun u => (s.fbu u).quad.index with
    | some e => decide (h.since < e.1)
    | none => false

/-! ### Mode entry (R193 to R195) -/

/-- A correction plan that brings δ to rest at 0 (R194). -/
def correction (s : State) (a t : Nat) (dx dv da : Int) : Plan :=
  positionPlan t ⟨q32 dx, q32 dv, q32 da⟩ 0 (axisLimits s a)

/-- Why an entry into `mode` does not take place (R193, R206, R210, R204, R223, Table 08-9). -/
def entryRefused (s : State) (a mode : Nat) : Bool :=
  let x := s.axis a
  let latched := x.flags.limPos || x.flags.limNeg
  let coupled := mode = 3 ∨ mode = 4
  decide (x.mot.state ≠ .enabled) || decide (s.get Ob.Mach.STOP_ACTIVE ≠ 0) ||
  (latched && decide (mode = 3 ∨ mode = 4 ∨ mode = 5)) ||
  (x.flags.posLost && decide ((mode = 1 ∧ s.get Ob.Ctl.RELATIVE a = 0) ∨ mode = 3 ∨ mode = 4 ∨ mode = 5)) ||
  decide (coupled ∧ s.get Ob.Mst.TYPE (s.nat Ob.Gear.MASTER a) = 0) ||
  decide (mode = 4 ∧ camCount s (s.nat Ob.Gear.CAM a) = 0)

/-- The target of a PROFILE_POSITION entry (Table 08-5, R207), and whether a soft limit replaced it. -/
def positionTarget (s : State) (a : Nat) (x : AxisRt) (x0 : Int) : Int × Bool :=
  let t := s.get Ob.Ctl.TARGET_POSITION a + (if s.get Ob.Ctl.RELATIVE a = 1 then x0 else 0)
  if s.get Ob.Lim.SOFT_LIMIT_ENABLE a = 1 ∧ x.flags.homed = true then
    let c := clampInt t (s.get Ob.Lim.SOFT_LIMIT_NEG a) (s.get Ob.Lim.SOFT_LIMIT_POS a)
    (c, decide (c ≠ t))
  else (t, false)

/-- Coupling state of a GEAR entry at master value `m` (R194, R221). -/
def gearEntry (s : State) (a : Nat) (x0 : Int) (m : MasterVal) : Coupling × Int × Int × Int :=
  let num := s.get Ob.Gear.RATIO_NUM a
  let den := max 1 (s.get Ob.Gear.RATIO_DEN a)
  let align := s.get Ob.Gear.SYNC_ALIGN a = 1
  let g := if align then 0 else (num * m.pos).fdiv den
  let q := if align then 0 else (num * m.pos) % den
  let c := if align then x0 else 0
  ({ c := c, g := g, q := q, num := num, den := den, mPrev := some m.pos, vmPrev := m.vel },
   c + g, roundDiv (num * m.vel) den, roundDiv (num * m.acc) den)

/-- Coupling state of a CAM entry at master value `m` (R194, R225). `g` holds the unwrapped master position, `q` the whole
cam periods before n = 0. -/
def camEntry (s : State) (a : Nat) (x0 : Int) (m : MasterVal) : Coupling × Int × Int × Int :=
  let cam := s.nat Ob.Gear.CAM a
  let off := s.get Ob.Gear.CAM_MASTER_OFFSET a
  let per := s.get Ob.Cam.PERIOD cam
  let (y, v, ac) := camAt s a cam m.pos m.vel m.acc
  let rise := camRiseOf (s.bytes Ob.Cam.SEGMENTS cam) (s.nat Ob.Cam.COEF_SHIFT cam)
  let base := (m.pos - off).fdiv per + (camFrac off per m.pos).2
  let align := s.get Ob.Gear.SYNC_ALIGN a = 1
  let n : Int := if align ∨ rise = 0 then 0 else (if rise < 0 then -1 else 1) * roundDiv (x0 - y) (if rise < 0 then -rise else rise)
  let c := if align then x0 - y else 0
  ({ c := c, g := m.pos, q := base - n, mPrev := some m.pos, vmPrev := m.vel, cam := cam, n := n }, c + n * rise + y, v, ac)

/-- Failure of a homing (R216): HOMING with QSTOP, HOME_STATE FAILED. -/
def homingFailed (s : State) (a : Nat) : State :=
  (raiseFault s a 16 2).set Ob.Home.HOME_STATE 5 a

/-- A velocity plan of a homing search or creep with HOME_ACC and J_MAX (R212). -/
def homePlan (s : State) (a : Nat) (x : AxisRt) (t : Nat) (dir : Int) (vel : Obj) : Option Plan :=
  let acc := q32 (s.get Ob.Home.HOME_ACC a)
  some (velocityPlan t (setpointKinAt x t) (dir * q32 (s.get vel a)) ⟨q32 (s.get vel a), acc, acc, q32 (s.get Ob.Ctl.J_MAX a)⟩)

/-- A plan that stops at HOME_ACC (R214). -/
def homeStop (s : State) (a : Nat) (x : AxisRt) (t : Nat) : Option Plan :=
  some (stopPlan t (setpointKinAt x t) (q32 (s.get Ob.Home.HOME_ACC a)) (q32 (s.get Ob.Ctl.J_MAX a)))

/-- Entry into HOMING (R212). -/
def homeEntry (s : State) (a t : Nat) : State :=
  let x := s.axis a
  let dir : Int := if s.get Ob.Home.HOME_DIR a = 0 then 1 else -1
  let h : HomeSt := { t0 := t, dir := dir, latchSeen := latchTotal s a, since := s.now, from_ := x.fb.ext }
  let start (s : State) (ph : Nat) (p : Option Plan) (e : Int) (st : Int) : State :=
    (s.modAxis a fun x => { x with mot := { x.mot with mode := 6, home := { h with phase := ph, edge := e }, plan := p, motionDone := false } }).set
      Ob.Home.HOME_STATE st a
  if homeConfigured s a = false then
    homingFailed (s.modAxis a fun x => { x with mot := { x.mot with mode := 6 } }) a
  else match s.get Ob.Home.HOME_METHOD a with
    | 0 => start s 6 none x.fb.xact 1
    | 5 => start s 6 none x.fb.xact 1
    | 4 => start s 5 (homePlan s a x t dir Ob.Home.CREEP_VEL) 0 3
    | _ =>
      if homeActive s a then start s 1 (homePlan s a x t (-dir) Ob.Home.SEARCH_VEL) 0 1
      else start s 2 (homePlan s a x t dir Ob.Home.SEARCH_VEL) 0 1

/-- A mode entered at `t`, or the entry refused with MOVE_REFUSED (R193, R194). -/
def enterMode (s : State) (a mode t : Nat) : State :=
  if entryRefused s a mode then
    publishState (s.modAxis a fun x => { x with mot := { x.mot with pend := none }, flags := { x.flags with moveRefused := true } }) a
  else
    let s := dropArmed s a
    let x := s.axis a
    let k := setpointKinAt x t
    let x0 := rq32 k.x
    let s := s.modAxis a fun x =>
      { x with mot := { x.mot.clearMotion with mode := mode, motionDone := false, pend := none },
               flags := { x.flags with moveRefused := false, inSync := false, blocked := false } }
    let put (s : State) (f : AxisRt → AxisRt) : State := publishState (s.modAxis a f) a
    match mode with
    | 1 =>
      let (tg, lim) := positionTarget s a x x0
      let p := positionPlan t k (q32 tg) (axisLimits s a)
      put s fun x => { x with mot := { x.mot with plan := some p, cut := lim, motionDone := decide (p.endAt ≤ t) }, flags := { x.flags with blocked := lim } }
    | 2 =>
      let l := axisLimits s a
      let v := clampInt (s.get Ob.Ctl.TARGET_VELOCITY a) (-(s.get Ob.Ctl.V_MAX a)) (s.get Ob.Ctl.V_MAX a)
      let p := velocityPlan t k (q32 v) l
      put s fun x => { x with mot := { x.mot with plan := some p, motionDone := decide (p.endAt ≤ t) } }
    | 3 =>
      let (c, z, zd, zdd) := gearEntry s a x0 (masterFor s (s.nat Ob.Gear.MASTER a) t)
      let s := (s.set Ob.Gear.ACTIVE_NUM c.num a).set Ob.Gear.ACTIVE_DEN c.den a
      put s fun x => { x with mot := { x.mot with cpl := c, corr := some (correction s a t (x0 - z) (rq32 k.v - zd) (rq32 k.a - zdd)) } }
    | 4 =>
      let (c, z, zd, zdd) := camEntry s a x0 (masterFor s (s.nat Ob.Gear.MASTER a) t)
      let s := s.set Ob.Gear.ACTIVE_CAM c.cam a
      put s fun x => { x with mot := { x.mot with cpl := c, corr := some (correction s a t (x0 - z) (rq32 k.v - zd) (rq32 k.a - zdd)) } }
    | 5 => put s fun x => { x with mot := { x.mot with follow := { y := none, last := x.mot.follow.last } } }
    | _ => publishState (homeEntry s a t) a

/-! ### Position limits on a set-point (R207, R210) -/

/-- A set-point under the limit latches (R210): a run that would move towards a latched limit holds the previous position. A stop keeps its ramp
(R209; assumption log 181). -/
def latchHold (x : AxisRt) (sp : Int × Int × Int) : (Int × Int × Int) × Bool :=
  if x.mot.state ≠ .stopping ∧
     ((x.flags.limPos = true ∧ (0 < sp.2.1 ∨ x.loop.xref < sp.1)) ∨ (x.flags.limNeg = true ∧ (sp.2.1 < 0 ∨ sp.1 < x.loop.xref))) then
    ((x.loop.xref, 0, 0), true)
  else (sp, false)

/-- Software limits act on the axis (R207). -/
def softOn (s : State) (a : Nat) : Bool := decide (s.get Ob.Lim.SOFT_LIMIT_ENABLE a = 1) && (s.axis a).flags.homed

/-- Distance in which an axis stops from a state with D_MAX and J_MAX, with its sign (Table 08-6). -/
def stopDist (k : Kin) (l : PlanLimits) : Rat := (phaseOf k.v k.a 0 l.d l.j).dist k.v k.a 0

/-- Soft limits in PROFILE_VELOCITY and jog (R207): a plan towards a limit that could no longer stop at it from the next run on stops at it, with D_MAX and
J_MAX; beyond the limit x_ref is held at it. -/
def softStop (s : State) (a tw tx : Nat) (sp : Int × Int × Int) : State × (Int × Int × Int) :=
  let hi := s.get Ob.Lim.SOFT_LIMIT_POS a
  let lo := s.get Ob.Lim.SOFT_LIMIT_NEG a
  if softOn s a = false then (s, sp)
  else if (hi < sp.1 ∧ 0 < sp.2.1) ∨ (sp.1 < lo ∧ sp.2.1 < 0) then
    let g := if hi < sp.1 then hi else lo
    (s.modAxis a fun x => { x with mot := { x.mot with plan := some ⟨[], tw, g, 0⟩, cut := true, motionDone := true } }, (g, 0, 0))
  else match (s.axis a).mot.plan with
    | none => (s, sp)
    | some p =>
      let l := axisLimits s a
      let k := kinOf sp
      let n := kinOf (p.eval (tw + tx))
      let goal : Option Int := if 0 < p.vEnd ∧ q32 hi < n.x + stopDist n l then some hi else if p.vEnd < 0 ∧ n.x + stopDist n l < q32 lo then some lo else none
      match goal with
      | none => (s, sp)
      | some g =>
        let near := if 0 < p.vEnd then decide (k.x + stopDist k l ≤ q32 g) else decide (q32 g ≤ k.x + stopDist k l)
        let plan := if near then positionPlan tw k (q32 g) { l with v := max |k.v| |q32 p.vEnd| } else stopPlan tw k l.d l.j
        (s.modAxis a fun x => { x with mot := { x.mot with plan := some plan, motionDone := decide (plan.endAt ≤ tw) } }, sp)

/-- Soft limits in GEAR, CAM, FOLLOW and HOMING: the fault and the hold of this run (R207). -/
def softFault (s : State) (a : Nat) (sp : Int × Int × Int) : State × (Int × Int × Int) × Bool :=
  let hi := s.get Ob.Lim.SOFT_LIMIT_POS a
  let lo := s.get Ob.Lim.SOFT_LIMIT_NEG a
  if softOn s a = true ∧ (hi < sp.1 ∨ sp.1 < lo) then
    let l := if hi < sp.1 then hi else lo
    let s := s.modAxis a fun x => { x with loop := { x.loop with xref := l, vref := 0, aref := 0 } }
    (raiseFault s a 5 (s.get Ob.Lim.SOFT_LIMIT_REACTION a), (l, 0, 0), true)
  else (s, sp, false)

/-- Set-point of a profile, jog or stop plan at `tw` (R197, R199, R202). -/
def planRun (s : State) (a tw : Nat) : State × (Int × Int × Int) :=
  let x := s.axis a
  match x.mot.plan with
  | none => (s, (x.loop.xref, 0, 0))
  | some p =>
    let done := decide (p.endAt ≤ tw)
    let s := s.modAxis a fun x => { x with mot := { x.mot with motionDone := done } }
    -- a jog whose bit cleared returns to HOLD at rest (R199)
    let s := if done && decide (x.mot.mode = 7) && decide (x.mot.jog = 0) then
        s.modAxis a fun x => { x with mot := { x.mot with mode := 0, plan := none } } else s
    (s, p.eval tw)

/-! ### Gearing (R221 to R223) -/

/-- Distance from `prev` to P in the direction of travel `dir`, when the increment `d` crosses P (R222). -/
def crossing (period prev d p : Int) : Option Int :=
  let dir := sgn d
  let dist0 := dir * (p - prev)
  let dist := if period = 0 then dist0 else (if dist0 % period = 0 then period else dist0 % period)
  if 0 < dist ∧ dist ≤ dir * d then some dist else none

/-- A gear position given exactly, in 2⁻³² units, as G and its remainder for a ratio of denominator `den` (R222). -/
def gearSplit (den : Int) (p : Rat) : Int × Int × Int :=
  let fl := p.floor
  let f := p - (fl : Rat)
  let qs : Int := ((f.den / Nat.gcd f.den den.toNat : Nat) : Int)
  (fl, f.num * (den * qs / (f.den : Int)), qs)

/-- One GEAR run (R221, R222): the coupling and change after it, CHANGE_STATE, and z, ż, z̈. All positions are in 2⁻³² units, formed exactly and rounded once. -/
def gearRun (c : Coupling) (ch : Option RatioChange) (period : Int) (m : MasterVal) : Coupling × Option RatioChange × Int × (Int × Int × Int) :=
  let prev := c.mPrev.getD m.pos
  let d := masterDelta period prev m.pos
  let plain (c : Coupling) : Coupling :=
    let q := c.q + c.num * d * c.qs
    { c with g := c.g + q.fdiv (c.den * c.qs), q := q % (c.den * c.qs), mPrev := some m.pos, vmPrev := m.vel }
  let outPlain (c : Coupling) : Int × Int × Int := (c.c + c.g, roundDiv (c.num * m.vel) c.den, roundDiv (c.num * m.acc) c.den)
  let blend (c : Coupling) (h : RatioChange) : Coupling × Option RatioChange × Int × (Int × Int × Int) :=
    let r0 : Rat := mkRat c.num c.den.toNat
    let r1 : Rat := mkRat h.num h.den.toNat
    let sr : Rat := h.s
    let b : Rat := h.b
    let dir : Rat := h.dir
    let gp : Rat := mkRat h.gp h.gd.toNat
    let vm : Rat := m.vel
    let am : Rat := m.acc
    if h.s < 0 then
      let c := { c with g := roundRat (gp + dir * r0 * sr), mPrev := some m.pos, vmPrev := m.vel }
      (c, some h, 2, (c.c + c.g, roundRat (r0 * vm), roundRat (r0 * am)))
    else if h.s < h.b then
      let c := { c with g := roundRat (gp + dir * (r0 * sr + (r1 - r0) * sr * sr / (2 * b))), mPrev := some m.pos, vmPrev := m.vel }
      let r := r0 + (r1 - r0) * sr / b
      (c, some h, 2, (c.c + c.g, roundRat (r * vm), roundRat (r * am + (r1 - r0) * dir * vm * vm / b)))
    else
      let (g, q, qs) := gearSplit h.den (gp + dir * ((r0 + r1) * b / 2 + r1 * (sr - b)))
      let c := { c with g := g, q := q, qs := qs, num := h.num, den := h.den, mPrev := some m.pos, vmPrev := m.vel }
      (c, none, 3, outPlain c)
  match ch with
  | none => let c := plain c; (c, none, 0, outPlain c)
  | some h =>
    if h.started then blend c { h with s := h.s + h.dir * d }
    else match crossing period prev d h.p with
      | none => let c := plain c; (c, some h, 1, outPlain c)
      | some dist =>
        let dir := sgn d
        let gd := c.den * c.qs
        blend c { h with started := true, dir := dir, s := dir * d - dist, gp := c.g * gd + c.q + c.num * (dir * dist) * c.qs, gd := gd }

/-! ### Cams (R225, R227) -/

/-- One CAM run: the coupling after it, whether an armed switch took place, and z, ż, z̈. -/
def camRun (s : State) (a : Nat) (c : Coupling) (sw : Option (Int × Nat)) (period : Int) (m : MasterVal) :
    Coupling × Option (Int × Nat) × Bool × (Int × Int × Int) :=
  let prev := c.mPrev.getD m.pos
  let d := masterDelta period prev m.pos
  let off := s.get Ob.Gear.CAM_MASTER_OFFSET a
  let zOf (c : Coupling) (pos unw : Int) (vm am : Int) : Int × (Int × Int × Int) :=
    let per := s.get Ob.Cam.PERIOD c.cam
    let rise := camRiseOf (s.bytes Ob.Cam.SEGMENTS c.cam) (s.nat Ob.Cam.COEF_SHIFT c.cam)
    let n := (unw - off).fdiv per + (camFrac off per pos).2 - c.q
    let (y, v, ac) := camAt s a c.cam pos vm am
    (n, (c.c + n * rise + y, v, ac))
  let unw := c.g + d
  match sw.bind fun w => (crossing period prev d w.1).map fun dist => (w, dist) with
  | some (w, dist) =>
    let uP := c.g + sgn d * dist
    let posP := modPeriod period w.1
    let xOld := (zOf c posP uP m.vel m.acc).2.1
    let per := s.get Ob.Cam.PERIOD w.2
    let base := (uP - off).fdiv per + (camFrac off per posP).2
    let yP := (camAt s a w.2 posP 0 0).1
    let c1 := { c with cam := w.2, c := xOld - yP, q := base, g := unw, mPrev := some m.pos, vmPrev := m.vel }
    let (n, z) := zOf c1 m.pos unw m.vel m.acc
    ({ c1 with n := n }, none, true, z)
  | none =>
    let c1 := { c with g := unw, mPrev := some m.pos, vmPrev := m.vel }
    let (n, z) := zOf c1 m.pos unw m.vel m.acc
    ({ c1 with n := n }, sw, false, z)

/-- The master value of a coupled run (R217, R219, R220): an ENCODER's a_m is the change of v_m over T_x; a LOST master is held. -/
def coupledMaster (s : State) (k tw tx : Nat) (c : Coupling) : MasterVal :=
  let m := masterFor s k tw
  if m.valid then
    if s.get Ob.Mst.TYPE k = 2 then { m with acc := roundDiv ((m.vel - c.vmPrev) * 1000000000) tx } else m
  else ⟨c.mPrev.getD m.pos, 0, 0, false⟩

/-- A coupling resumed at the first valid run after a loss (R220): as an entry with SYNC_ALIGN = 1, at the master's present value (R194). -/
def resumeCoupling (s : State) (a k tw : Nat) : State :=
  let x := s.axis a
  let m := masterFor s k tw
  let per := s.get Ob.Mst.PERIOD k
  let c0 := { x.mot.cpl with lost := false, mPrev := some m.pos, vmPrev := m.vel }
  let (c, z) := if x.mot.mode = 3 then (c0, (gearRun c0 x.mot.chg per m).2.2.2)
    else
      let off := s.get Ob.Gear.CAM_MASTER_OFFSET a
      let cp := s.get Ob.Cam.PERIOD c0.cam
      let c1 := { c0 with g := m.pos, q := (m.pos - off).fdiv cp + (camFrac off cp m.pos).2 - c0.n }
      (c1, (camRun s a c1 none per m).2.2.2)
  s.modAxis a fun x =>
    { x with mot := { x.mot with cpl := { c with c := c.c + (x.loop.xref - z.1) },
                                 corr := some (correction s a tw 0 (x.loop.vref - z.2.1) (x.loop.aref - z.2.2)) } }

/-- One run of GEAR or CAM (R194, R220 to R227). -/
def coupledRun (s : State) (a tw tx : Nat) : State × (Int × Int × Int) :=
  let k := s.nat Ob.Gear.MASTER a
  let per := s.get Ob.Mst.PERIOD k
  let s := if (s.axis a).mot.cpl.lost && (masterFor s k tw).valid then resumeCoupling s a k tw else s
  let x := s.axis a
  let m := coupledMaster s k tw tx x.mot.cpl
  let s := if m.valid || x.mot.cpl.lost then s else
    raiseFault (s.modAxis a fun x => { x with mot := { x.mot with cpl := { x.mot.cpl with lost := true } } }) a 11 (s.get Ob.Gear.MASTER_LOSS a)
  if (s.axis a).mot.mode ≠ 3 ∧ (s.axis a).mot.mode ≠ 4 then planRun s a tw else
  let x := s.axis a
  let (s, z) : State × (Int × Int × Int) :=
    if x.mot.mode = 3 then
      let (c, ch, st, z) := gearRun x.mot.cpl x.mot.chg per m
      let s := s.modAxis a fun x => { x with mot := { x.mot with cpl := c, chg := (if ch.isNone then x.mot.chgNext else ch), chgNext := (if ch.isNone then none else x.mot.chgNext) } }
      let s := if st = 0 ∨ (st = 1 ∧ s.get Ob.Gear.CHANGE_STATE a = 4) then s else s.set Ob.Gear.CHANGE_STATE st a
      ((s.set Ob.Gear.ACTIVE_NUM c.num a).set Ob.Gear.ACTIVE_DEN c.den a, z)
    else
      let (c, sw, done, z) := camRun s a x.mot.cpl x.mot.camSw per m
      let s := s.modAxis a fun x => { x with mot := { x.mot with cpl := c, camSw := sw } }
      ((if done then s.set Ob.Gear.SWITCH_STATE 2 a else s).set Ob.Gear.ACTIVE_CAM c.cam a, z)
  let e := match x.mot.corr with | some p => p.eval tw | none => (0, 0, 0)
  let ended := match x.mot.corr with | some p => decide (p.endAt ≤ tw) | none => true
  let s := s.modAxis a fun x => { x with flags := { x.flags with inSync := ended }, mot := { x.mot with corr := (if ended then none else x.mot.corr) } }
  (s.set Ob.Gear.SYNC_OFFSET (s.axis a).mot.cpl.c a, (z.1 + e.1, z.2.1 + e.2.1, z.2.2 + e.2.2))

/-! ### FOLLOW (R174 to R176) -/

/-- The input of a FOLLOW axis: value, its fraction bits, validity (Table 07-4). -/
def followInput (s : State) (a : Nat) : Int × Nat × Bool :=
  let sel := s.nat Ob.Cur.FOLLOW_SELECT a
  match s.get Ob.Cur.FOLLOW_SOURCE a with
  | 1 =>
    let p := bits sel 8 3
    let c := bits sel 0 2
    (roundShr (s.get Ob.Sd.SD_VALUE p 0 c) 16, 15, !(SMap.getD (s.port p).sd c {}).invalid)
  | 2 =>
    let r := bits sel 24 2
    let w := s.wk r (bits sel 16 6 + 1)
    (toSigned 16 (leAt w.data (bits sel 0 8) 2), 15, decide (w.landedCycle = some (s.ring r).cycle) && bit w.up 24)
  | 3 =>
    let u := bits sel 0 4
    if u < 8 ∧ s.get Ob.Step.STEP_IN_ENABLE u = 1 then (s.get Ob.Step.STEP_IN_POSITION u, 32, true)
    else ((masterSample s u).1, 0, !(s.fbu u).quad.fault)
  | _ => (0, 31, false)

/-- FOLLOW_SCALE applied to a filter output with `f` fraction bits, by R160 on its magnitude (Table 07-9). -/
def followScale (s : State) (a : Nat) (y : Int) (f : Nat) : Int :=
  let g := f32Rat (s.get Ob.Cur.FOLLOW_SCALE a)
  if g < 0 then -(gainMul (-g) y f 32) else gainMul g y f 32

/-- One FOLLOW run (R175, R176); a reaction that ends the mode acts in this run. -/
def followRun (s : State) (a tw tx : Nat) : State × (Int × Int × Int) :=
  let x := s.axis a
  let (raw, f, ok) := followInput s a
  let i := if ok then raw else x.mot.follow.last
  let tc := f32Rat (s.get Ob.Cur.FOLLOW_TC a)
  let t := secs tx
  let beta : Rat := t / (tc + t)
  let y := match x.mot.follow.y with
    | none => i * 2 ^ 32
    | some y => y + roundRat (beta * ((i * 2 ^ 32 - y : Int) : Rat))
  let sc := followScale s a y (f + 32)
  let l := axisLimits s a
  let position := s.get Ob.Cur.FOLLOW_KIND a = 0
  let x0 := x.loop.xref
  let v0 := x.loop.vref
  let c := match x.mot.follow.y with
    | none => if position ∧ s.get Ob.Cur.FOLLOW_ALIGN a = 1 then x0 - (s.get Ob.Cur.FOLLOW_OFFSET a + sc) else 0
    | some _ => x.mot.follow.c
  let want := s.get Ob.Cur.FOLLOW_OFFSET a + sc + c
  let vWant : Rat := if position then q32 (want - x0) / t else q32 (s.get Ob.Cur.FOLLOW_OFFSET_V a + sc)
  let v1 := max (-l.v) (min l.v vWant)
  let aLim := if |q32 v0| ≤ |v1| then l.a else l.d
  let v2 := max (q32 v0 - aLim * t) (min (q32 v0 + aLim * t) v1)
  let limited := decide (v2 ≠ vWant)
  let vr := rq32 v2
  let ar := rq32 ((v2 - q32 v0) / t)
  let xr := if position then (if limited then x0 + rq32 (v2 * t) else want) else x0 + rq32 ((q32 v0 + v2) / 2 * t)
  let fl := s.nat Ob.AxD.LOOP_FLAGS a
  let s := s.set Ob.AxD.LOOP_FLAGS (setBit (setBit fl 11 limited) 10 (!ok)) a
  let s := (s.set Ob.Cur.FOLLOW_ENTRY c a).set Ob.Cur.FOLLOW_INPUT (sat 32 (if f = 15 then i * 65536 else roundShr i f)) a
  let s := s.modAxis a fun x => { x with mot := { x.mot with follow := { x.mot.follow with y := some y, last := i, c := c } } }
  let s := if ok then s else raiseFault s a 9 (s.get Ob.Cur.FOLLOW_LOSS a)
  if (s.axis a).mot.mode = 5 then (s, (xr, vr, ar)) else planRun s a tw

/-! ### Homing (R212 to R216) -/

/-- Every position of the axis moved by HOME_SHIFT in one run (R214). -/
def homeShift (s : State) (a : Nat) : State :=
  let x := s.axis a
  let sh := s.get Ob.Home.HOME_POSITION a - x.mot.home.edge
  let s := (s.set Ob.Home.HOME_EDGE x.mot.home.edge a).set Ob.Home.HOME_SHIFT sh a
  let s := s.set Ob.AxFb.POS_OFFSET (s.get Ob.AxFb.POS_OFFSET a + sh) a
  let s := s.set Ob.Lim.LIMIT_TRIP_POS (s.get Ob.Lim.LIMIT_TRIP_POS a + sh) a
  let s := s.set Ob.Bind.LATCH_POSITION (s.get Ob.Bind.LATCH_POSITION a + sh) a
  let s := s.set Ob.Home.HOME_STATE 4 a
  s.modAxis a fun x =>
    { x with fb := { x.fb with xact := x.fb.xact + sh }, loop := { x.loop with xref := x.loop.xref + sh }, stepShift := x.stepShift + sh,
             mot := { x.mot with plan := x.mot.plan.map fun p => p.shift sh },
             flags := { x.flags with homed := true, posLost := false },
             h1 := x.h1.map (fun h => { h with xref := h.xref + sh, xact := h.xact + sh }),
             h2 := x.h2.map (fun h => { h with xref := h.xref + sh, xact := h.xact + sh }) }

/-- Phase, plan and HOME_STATE of a homing changed. -/
def homeTo (s : State) (a ph : Nat) (p : Option Plan) (st : Int) : State :=
  (s.modAxis a fun x => { x with mot := { x.mot with plan := p, home := { x.mot.home with phase := ph } } }).set Ob.Home.HOME_STATE st a

/-- Counts of one revolution of the axis's feedback in units: one machine unit is taken for it (R216; assumption log 14). -/
def oneRev (s : State) (a : Nat) : Int := (s.get Ob.AxFb.FB_COUNTS a).fdiv (max 1 (s.get Ob.AxFb.FB_UNITS a))

/-- The home event of an axis known: its position, and the run that shifts follows (R213). -/
def homeKnown (s : State) (a : Nat) (e st : Int) : State :=
  homeTo (s.modAxis a fun x => { x with mot := { x.mot with home := { x.mot.home with edge := e } } }) a 6 (s.axis a).mot.plan st

/-- The search for an index pulse begins (R212), in the present direction of motion. -/
def homeIndex (s : State) (a : Nat) : State :=
  homeTo (s.modAxis a fun x => { x with mot := { x.mot with home := { x.mot.home with from_ := x.fb.ext, latchSeen := latchTotal s a, since := s.now } } }) a 5
    (s.axis a).mot.plan 3

/-- The sequence of a homing advanced at whistle `tw` (Table 08-8, R213, R215, R216). -/
def homeAdvance (s : State) (a tw : Nat) : State :=
  let x := s.axis a
  let h := x.mot.home
  let m := s.get Ob.Home.HOME_METHOD a
  let ended := match x.mot.plan with | some p => decide (p.endAt ≤ tw) | none => true
  let came := decide (h.latchSeen < latchTotal s a)
  match h.phase with
  | 1 => if homeActive s a then s else homeTo s a 2 (homePlan s a x tw h.dir Ob.Home.SEARCH_VEL) 1
  | 2 => if homeActive s a then homeTo s a 3 (homeStop s a x tw) 1 else s
  | 3 => if ended then homeTo (s.modAxis a fun x => { x with mot := { x.mot with home := { x.mot.home with latchSeen := latchTotal s a } } }) a 4
            (homePlan s a x tw (-h.dir) Ob.Home.CREEP_VEL) 2 else s
  | 4 =>
    if homeActive s a then s
    else if m = 2 then homeIndex s a
    else if homeLatch s a || came then (if came then homeKnown s a (s.get Ob.Bind.LATCH_POSITION a) 2 else homeTo s a 9 x.mot.plan 2)
    else homeKnown s a x.fb.xact 2
  | 5 =>
    if indexCame s a then homeKnown s a (if indexLatch s a then s.get Ob.Bind.LATCH_POSITION a else x.fb.xact) 3
    else if m = 2 ∧ oneRev s a < |x.fb.ext - h.from_| then homingFailed s a
    else s
  | 8 => if ended then
      (if m = 4 then homeIndex (homeTo s a 5 (homePlan s a x tw h.dir Ob.Home.CREEP_VEL) 3) a else homeTo s a 2 (homePlan s a x tw h.dir Ob.Home.SEARCH_VEL) 1)
    else s
  | 9 => if came then homeKnown s a (s.get Ob.Bind.LATCH_POSITION a) 2 else s
  | _ => s

/-- One HOMING run (R212 to R216): the sequence advanced, and the set-point. -/
def homingRun (s : State) (a tw : Nat) : State × (Int × Int × Int) :=
  let sp (s : State) : Int × Int × Int := match (s.axis a).mot.plan with
    | some p => p.eval tw
    | none => ((s.axis a).loop.xref, 0, 0)
  let h := (s.axis a).mot.home
  if h.t0 + s.nat Ob.Home.HOME_TIMEOUT a * 1000000 ≤ tw ∧ h.phase ≠ 7 then
    let s := homingFailed s a
    (s, sp s)
  else
  let s := homeAdvance s a tw
  -- the first position run after the event is known (R214)
  let s := if (s.axis a).mot.home.phase = 6 then
      let s := homeShift s a
      homeTo s a 7 (homeStop s a (s.axis a) tw) 4
    else s
  let x := s.axis a
  if x.mot.home.phase = 7 ∧ (match x.mot.plan with | some p => decide (p.endAt ≤ tw) | none => true) = true then
    let e := sp s
    (publishState (s.modAxis a fun x => { x with mot := { x.mot.clearMotion with motionDone := true, home := {} } }) a, (e.1, 0, 0))
  else (s, sp s)

/-- Direction of motion of an axis's set-point: that of its velocity; at rest in a homing, that of the plan. -/
def moveDir (x : AxisRt) : Int :=
  if x.loop.vref ≠ 0 then sgn x.loop.vref else if x.mot.mode = 6 then (match x.mot.plan with | some p => sgn p.vEnd | none => 0) else 0

/-- The first limit that becomes active during a homing in the direction of motion, with REVERSE_ON_LIMIT (R215): a quick stop without a
fault or latch, then the search against the direction it had. `pos` tells which limit. -/
def homeReverse (s : State) (a t : Nat) (pos : Bool) : State :=
  let x := s.axis a
  let p := stopPlan t (setpointKinAt x t) (q32 (s.get Ob.Ctl.QSTOP_DEC a)) (q32 (s.get Ob.Ctl.QSTOP_JERK a))
  s.modAxis a fun x =>
    { x with mot := { x.mot with plan := some p, home := { x.mot.home with phase := 8, dir := -(moveDir x), reversed := true, revLim := some pos } } }

/-! ### Limit inputs (R209 to R211) -/

/-- A limit trips (R209): latch, LIMIT_TRIP_POS, and the fault of an ENABLED, ARMING or STOPPING axis. -/
def limitTrip (s : State) (a : Nat) (pos : Bool) : State :=
  let x := s.axis a
  let homing := decide (x.mot.mode = 6 ∧ x.mot.home.phase ≠ 7)
  let s := s.modAxis a fun x => { x with flags := if pos then { x.flags with limPos := true } else { x.flags with limNeg := true } }
  let s := s.set Ob.Lim.LIMIT_TRIP_POS x.fb.xact a
  let s := if x.mot.state.powered then raiseFault s a (if pos then 2 else 3) (s.get Ob.Lim.LIMIT_REACTION a) else s
  publishState (if homing then homingFailed s a else s) a

/-- One limit input judged at a whistle (R209, R210, R215); `both` tells that both latches were set. -/
def limitInput (s : State) (a : Nat) (pos act was both : Bool) : State :=
  let x := s.axis a
  let latched := if pos then x.flags.limPos else x.flags.limNeg
  let inDir : Int := if pos then 1 else -1
  let m := s.get Ob.Home.HOME_METHOD a
  let homing := decide (x.mot.mode = 6)
  if act then
    if latched then
      if was then s else s.count Ob.Lim.LIMIT_CHATTER a
    else if homing && decide (m = 3) && (if s.get Ob.Home.HOME_DIR a = 0 then pos else !pos) then s
    else if homing && decide (x.mot.home.revLim = some pos) then s
    else if homing && decide (m ≠ 3 ∧ moveDir x = inDir ∧ x.mot.home.reversed = false ∧ x.mot.home.phase ≠ 7 ∧ s.get Ob.Home.REVERSE_ON_LIMIT a = 1) then
      homeReverse s a s.now pos
    else limitTrip s a pos
  else
    let s := if x.mot.home.revLim = some pos then s.modAxis a fun x => { x with mot := { x.mot with home := { x.mot.home with revLim := none } } } else s
    if latched then
      let trip := s.get Ob.Lim.LIMIT_TRIP_POS a
      let rel := s.get Ob.Lim.LIMIT_RELEASE a
      let inside := if pos then decide (x.fb.xact + rel ≤ trip) else decide (trip + rel ≤ x.fb.xact)
      let faults := s.nat Ob.Ctl.FAULT_SET a
      let faultGone := !bit faults (if pos then 2 else 3) && !bit faults 4
      if both || (faultGone && inside) then
        publishState (s.modAxis a fun x => { x with flags := if pos then { x.flags with limPos := false } else { x.flags with limNeg := false } }) a
      else s
    else s

/-- Both limit inputs of an axis judged at a whistle (R209 to R211). -/
def checkLimits (s : State) (a : Nat) : State :=
  let x := s.axis a
  let p := limitActive s a (s.nat Ob.Lim.LIMIT_POS_SOURCE a)
  let n := limitActive s a (s.nat Ob.Lim.LIMIT_NEG_SOURCE a)
  let both := x.flags.limPos && x.flags.limNeg
  let note (s : State) : State := s.modAxis a fun x => { x with flags := { x.flags with inPos := p, inNeg := n } }
  if p && n && !both then
    let s := note (s.modAxis a fun x => { x with flags := { x.flags with limPos := true, limNeg := true } })
    let s := s.set Ob.Lim.LIMIT_TRIP_POS x.fb.xact a
    publishState (if (s.axis a).mot.state.powered then raiseFault s a 4 3 else recordFault s a 4) a
  else
    note (limitInput (limitInput s a true p x.flags.inPos both) a false n x.flags.inNeg both)

/-! ### The SETPOINT node -/

/-- FOLLOW_LIMITED and FOLLOW_INVALID of a position run that follows nothing (R175, R176). -/
def clearFollow (s : State) (a : Nat) : State :=
  let fl := s.nat Ob.AxD.LOOP_FLAGS a
  if bit fl 10 || bit fl 11 then s.set Ob.AxD.LOOP_FLAGS (setBit (setBit fl 11 false) 10 false) a else s

/-- The SETPOINT node of a position run at whistle `tw` with interval `tx` (R193 to R227): x_ref, v_ref, a_ref of the axis. -/
def setpointNode (s : State) (a tw tx : Nat) : State :=
  let s := match (s.axis a).mot.pend with
    | some (t0, mode) => if t0 ≤ tw then enterMode s a mode t0 else s
    | none => s
  let s := jogUpdate s a
  let x := s.axis a
  let s := if x.mot.state = .enabled ∧ x.mot.mode = 5 then s else clearFollow s a
  let free (p : State × (Int × Int × Int)) : State × (Int × Int × Int) × Bool := (p.1, p.2, false)
  let (s, sp, held) : State × (Int × Int × Int) × Bool :=
    if x.mot.state = .stopping then free (planRun s a tw)
    else match x.mot.mode with
      | 1 => free (planRun s a tw)
      | 2 => let (s, sp) := planRun s a tw; free (softStop s a tw tx sp)
      | 7 => let (s, sp) := planRun s a tw; free (softStop s a tw tx sp)
      | 3 => let (s, sp) := coupledRun s a tw tx; softFault s a sp
      | 4 => let (s, sp) := coupledRun s a tw tx; softFault s a sp
      | 5 => let (s, sp) := followRun s a tw tx; softFault s a sp
      | 6 => let (s, sp) := homingRun s a tw; softFault s a sp
      | _ => (s, (x.loop.xref, 0, 0), false)
  let (sp, latched) := latchHold (s.axis a) sp
  s.modAxis a fun x =>
    { x with loop := { x.loop with xref := sat 64 sp.1, vref := sat 64 sp.2.1, aref := sat 64 sp.2.2, tPos := tw },
             flags := { x.flags with blocked := held || latched || x.mot.cut } }

end Sys2Proof.Machine
end

