-- ==== Sys2Proof/Machine/Loops.lean ====
section
/-! DEFINITION. The loop nodes of an axis graph (R156 to R183): POSITION, VELOCITY, BIQUAD, IREF, ANGLE, CURRENT, SUPERVISE. -/

namespace Sys2Proof.Machine

/-- What a run of an axis graph knows of its place: axis, whistle, cycle number, cycle length, dividers, phases that run. -/
structure RunCtx where
  a : Nat
  tw : Nat
  cycle : Nat
  tc : Nat
  dv : Nat
  dx : Nat
  vel : Bool
  pos : Bool
deriving DecidableEq, Repr

/-- The value of a tuning node (Table 17-5). -/
def note (s : State) (a node : Nat) (v : Int) : State := s.modAxis a fun x => { x with nodes := SMap.put x.nodes node v }

/-- A gain object as an exact rational. -/
def gainOf (s : State) (o : Obj) (a : Nat) (j : Nat := 0) : Rat := f32Rat (s.get o a j)

/-- A torque, current or voltage fraction as Q1.31. -/
def fracOf (s : State) (o : Obj) (a : Nat) (j : Nat := 0) : Int := q131 (s.get o a j)

/-- The bank in force (R168). -/
def bankOf (s : State) (a : Nat) : Nat := s.nat Ob.Pos.ACTIVE_BANK a

/-- The axis runs its loops (R171). -/
def loopsOn (x : AxisRt) : Bool := x.mot.state.powered

/-- The stop bypasses the position loop (Table 08-6). -/
def hardStop (x : AxisRt) : Bool := match x.mot.stopKind with | some .hard => true | some .brake => true | _ => false

/-! ### Limits (R165, R179) -/

/-- The torque limit a stop imposes (Table 08-6). -/
def stopTorque (s : State) (a : Nat) : Int :=
  match (s.axis a).mot.stopKind with
  | some .quick => fracOf s Ob.Lim.QSTOP_TORQUE a
  | some .hard => fracOf s Ob.Lim.HARD_TORQUE a
  | some .brake => fracOf s Ob.Lim.HARD_TORQUE a
  | _ => intMax 32

/-- i_d_ref of a run (R179). -/
def idRef (s : State) (a : Nat) : Int :=
  let m := fracOf s Ob.Cur.I_MAX a
  clampInt (fracOf s Ob.Cur.ID_REF a) (-m) m

/-- Radius left to i_q by the current circle (R179), rounded toward zero. -/
def circle (s : State) (a : Nat) : Int :=
  let m := fracOf s Ob.Cur.I_MAX a
  let d := idRef s a
  (isqrt (m * m - d * d).toNat : Int)

/-- The axis is direct (Table 07-1). -/
def isDirect (k : Nat) : Bool := decide (k = 3 ∨ k = 4)

/-- Effective torque limits tpos and tneg of a run, and whether the current circle binds each (R165). -/
def torqueLimits (s : State) (a : Nat) : (Int × Bool) × (Int × Bool) :=
  let st := stopTorque s a
  let p := min (fracOf s Ob.Pos.TORQUE_LIM_POS a) st
  let n := min (fracOf s Ob.Pos.TORQUE_LIM_NEG a) st
  if isDirect (s.kindOf a) then
    let c := circle s a
    ((min p c, decide (c < p)), (min n c, decide (c < n)))
  else ((p, false), (n, false))

/-! ### Brake test (R356) -/

/-- Torque of the brake-test profile `p` ns after its start, for a test torque `m` (Q1.31): ramp 50 ms, hold 200 ms, ramp 50 ms, then
the same with the opposite sign (R356). -/
def btProfile (m : Int) (p : Nat) : Int :=
  let half (q : Nat) : Int :=
    if q < 50000000 then roundDiv (m * q) 50000000
    else if q < 250000000 then m
    else if q < 300000000 then roundDiv (m * (300000000 - q : Nat)) 50000000
    else 0
  if p < 300000000 then half p else -(half (p - 300000000))

/-- T_test of an axis in Q1.31 (R354). -/
def btTorque (s : State) (a : Nat) : Int :=
  satTorque (roundRat (f32Rat (s.get Ob.AxS.TEST_FACTOR a) * f32Rat (s.get Ob.AxS.HOLD_LOAD a) * 2 ^ 31))

/-- What aborts a brake test has occurred (R357): a stop, a fault of the axis, a change of ENABLE, a machine stop request. -/
def btAborted (s : State) (b : BtRt) : Bool :=
  let st := (s.axis b.axis).mot.state
  (bit (s.nat Ob.Ctl.CONTROL b.axis) 0 != b.enable) || decide (s.get Ob.Mach.STOP_COUNT ≠ b.stops) || decide (st = .stopping ∨ st = .faulted) ||
  (!b.enabledByTest && decide (st ≠ .enabled))

/-- The test torque that replaces the torque command of a run at `tw` (R356): from t_B + ENGAGE_TIME, 600 ms. -/
def btCommand (s : State) (a tw : Nat) : Option Int :=
  match s.safe.test with
  | some b =>
    let t1 := b.t0 + s.nat Ob.AxS.ENGAGE_TIME a * 1000000
    if b.axis = a ∧ b.x0.isSome = true ∧ btAborted s b = false ∧ t1 ≤ tw ∧ tw < t1 + 600000000 then some (btProfile (btTorque s a) (tw - t1)) else none
  | none => none

/-! ### POSITION (R161, R169) -/

/-- The velocity command of a run `dt` ns after the last position run (R161, R169). -/
def velCommand (s : State) (a : Nat) (dt : Nat) : Int :=
  let x := s.axis a
  if hardStop x then 0 else
    let v := x.loop.vref + roundDiv (x.loop.aref * dt) 1000000000
    sat 64 (x.loop.vp + gainMul (gainOf s Ob.Pos.KVFF a (bankOf s a)) v 32 32)

/-- The POSITION node (R161). -/
def positionNode (s : State) (c : RunCtx) : State :=
  let a := c.a
  let x := s.axis a
  let b := bankOf s a
  let inj := injAt s a 1 c.tw (c.dx * c.tc)
  let ex := sat 64 (x.loop.xref + inj - x.fb.xact)
  let vp := gainMul (gainOf s Ob.Pos.KP_POS a b) ex 32 32
  let aff := if hardStop x then 0 else gainMul (gainOf s Ob.Pos.KAFF a b) x.loop.aref 32 31
  let s := s.modAxis a fun x => { x with loop := { x.loop with vp := vp, aff := aff } }
  let s := (s.set Ob.Map.POSITION_DEMAND x.loop.xref a).set Ob.Map.FOLLOWING_ERROR ex a
  let s := if inj = 0 then s else note s a 16 inj
  note (note s a 1 x.loop.xref) a 3 ex

/-! ### BIQUAD (R166, R167) -/

/-- Coefficients b0, b1, b2, a1, a2 of a biquad in Q4.28. -/
def bqCoef (s : State) (a k : Nat) : Int × Int × Int × Int × Int :=
  (q428 (s.get Ob.Pos.BQ_B0 a k), q428 (s.get Ob.Pos.BQ_B1 a k), q428 (s.get Ob.Pos.BQ_B2 a k), q428 (s.get Ob.Pos.BQ_A1 a k),
   q428 (s.get Ob.Pos.BQ_A2 a k))

/-- Steady state of a biquad for the input x₀ (R167): s1 and s2. -/
def bqSteady (c : Int × Int × Int × Int × Int) (x0 : Int) : Int × Int :=
  let (b0, b1, b2, a1, a2) := c
  let den : Int := 2 ^ 28 + a1 + a2
  let num : Int := (b0 + b1 + b2) * x0
  let y0 := if den = 0 then 0 else roundRat ((num : Rat) / (den : Rat))
  (sat 64 (y0 - roundShr (b0 * x0) 28), sat 64 (roundShr (b2 * x0 - a2 * y0) 28))

/-- One run of a biquad in transposed direct form II (R166): output and states. -/
def bqRun (c : Int × Int × Int × Int × Int) (s1 s2 x : Int) : Int × Int × Int :=
  let (b0, b1, b2, a1, a2) := c
  let y := sat 64 (roundShr (b0 * x + s1 * 2 ^ 28) 28)
  (y, sat 64 (roundShr (b1 * x - a1 * y + s2 * 2 ^ 28) 28), sat 64 (roundShr (b2 * x - a2 * y) 28))

/-- Both biquads of an axis run on `u` (R162, R166, R167). -/
def biquads (s : State) (a : Nat) (u : Int) : State × Int :=
  let x := s.axis a
  let one (k : Nat) (l : LoopSt) (v : Int) : LoopSt × Int :=
    let c := bqCoef s a k
    let (p1, p2, px, init) := if k = 0 then (l.b1s1, l.b1s2, l.b1x, l.bqInit1) else (l.b2s1, l.b2s2, l.b2x, l.bqInit2)
    if s.flag Ob.Pos.BQ_ENABLE a k then
      let (p1, p2) := if init then bqSteady c px else (p1, p2)
      let (y, q1, q2) := bqRun c p1 p2 v
      (if k = 0 then { l with b1s1 := q1, b1s2 := q2, b1x := v, bqInit1 := false } else { l with b2s1 := q1, b2s2 := q2, b2x := v, bqInit2 := false }, y)
    else
      (if k = 0 then { l with b1s1 := 0, b1s2 := 0, b1x := v, bqInit1 := false } else { l with b2s1 := 0, b2s2 := 0, b2x := v, bqInit2 := false }, v)
  let (l, v) := one 0 x.loop u
  let (l, v) := one 1 l v
  (s.modAxis a fun x => { x with loop := l }, v)

/-! ### VELOCITY (R162 to R165, R168, R172) -/

/-- A gain times a loop interval in ns, formed exactly before conversion (R160). -/
def gainTime (g : Rat) (ns : Nat) : Rat := g * secs ns

/-- α = T_v / (TD_VEL + T_v) (R162). -/
def derivAlpha (td : Rat) (tv : Nat) : Rat := secs tv / (td + secs tv)

/-- First part of the VELOCITY node (R162): the sum u_P + u_I + u_D before the biquads, and e_v. `vcmd` is the velocity command. -/
def velocityIn (s : State) (c : RunCtx) (vcmd vact : Int) : State × Int × Int :=
  let a := c.a
  let b := bankOf s a
  let tv := c.dv * c.tc
  let x := s.axis a
  let ((tp, _), (tn, _)) := torqueLimits s a
  let lo := -(min (fracOf s Ob.Pos.I_LIM_NEG a b) tn)
  let hi := min (fracOf s Ob.Pos.I_LIM_POS a b) tp
  let frozen := decide (gainOf s Ob.Pos.KI_VEL a b = 0)
  let ui := if x.loop.rebank || frozen then clampInt x.loop.uI lo hi else x.loop.uI
  let ev := sat 64 (vcmd - vact)
  let up := gainMul (gainOf s Ob.Pos.KP_VEL a b) ev 32 31
  let xd := if s.get Ob.Pos.D_SOURCE a = 0 then sat 64 (-vact) else ev
  let dx := match x.loop.xdPrev with | some p => if x.loop.late then 0 else xd - p | none => 0
  let al := derivAlpha (gainOf s Ob.Pos.TD_VEL a b) tv
  let df := sat 64 (x.loop.df + roundRat (al * (mkRat (dx * 1000000000) tv - x.loop.df)))
  let ud := gainMul (gainOf s Ob.Pos.KD_VEL a b) df 32 31
  let s := s.modAxis a fun x => { x with loop := { x.loop with uI := ui, df := df, xdPrev := some xd, vcmd := vcmd, rebank := false, late := false } }
  let s := s.set Ob.Map.VELOCITY_DEMAND vcmd a
  (note (note (note s a 4 vcmd) a 6 ev) a 7 up, sat 64 (up + ui + ud), ev)

/-- Second part of the VELOCITY node: the limits and the integral (R162, R165). `u` is the filtered sum with the feedforward. -/
def velocityOut (s : State) (c : RunCtx) (u ev : Int) : State :=
  let a := c.a
  let b := bankOf s a
  let tv := c.dv * c.tc
  let x := s.axis a
  let ((tp, cp), (tn, cn)) := torqueLimits s a
  let ul := clampInt u (-tn) tp
  let exc := ul - u
  let ki := gainOf s Ob.Pos.KI_VEL a b
  let frozen := decide (ki = 0)
  let blocked := decide (exc * ev < 0)
  let inc := if blocked then 0 else gainMul (gainTime ki tv) ev 32 31
  let back := gainMul (gainTime (gainOf s Ob.Pos.K_AW a b) tv) exc 31 31
  let ui := if frozen then x.loop.uI else sat 64 (x.loop.uI + inc + back)
  let lo := -(min (fracOf s Ob.Pos.I_LIM_NEG a b) tn)
  let hi := min (fracOf s Ob.Pos.I_LIM_POS a b) tp
  let ui := clampInt ui lo hi
  let satd := decide (exc ≠ 0)
  let circ := satd && (if 0 < u then cp else cn)
  let clamped := decide (ui = lo ∨ ui = hi) || (blocked && !frozen)
  let fl := bitAt satd 1 + bitAt clamped 2 + bitAt frozen 3 + bitAt circ 4
  let s := s.modAxis a fun x =>
    { x with loop := { x.loop with uI := ui, ulim := satTorque ul, tpos := tp, tneg := tn }, cur := { x.cur with velFlags := fl } }
  let s := if satd then s.count Ob.AxD.SAT_CYCLES a else s
  note (note (note s a 8 ui) a 9 u) a 10 ul

/-! ### Direct current mode (R177 to R181) -/

/-- 1/√3 with 64 fraction bits. -/
def invSqrt3 : Rat := mkRat 10650232656628343401 (2 ^ 64)

/-- The IREF node (R179). -/
def irefNode (s : State) (c : RunCtx) : State :=
  let a := c.a
  let inj := injAt s a 4 c.tw (c.dv * c.tc)
  let r := circle s a
  let s := s.modAxis a fun x => { x with cur := { x.cur with idref := idRef s a, iqref := clampInt (x.loop.ulim + inj) (-r) r } }
  if inj = 0 then s else note s a 16 inj

/-- Electrical angle at the actual position `x` (R177), in turns of 2³². -/
def elecAngle (s : State) (a : Nat) (x : Int) : Nat :=
  let th := match gainConv (gainOf s Ob.Cur.ELEC_PER_UNIT a) with
    | some (gm, gs) => roundShr (x * gm) gs
    | none => 0
  lowBits 32 (th + s.get Ob.Cur.ANGLE_OFFSET a)

/-- The ANGLE node (R177): θ in turns of 2³², ω_e in rad/s with 32 fraction bits. -/
def angleNode (s : State) (a : Nat) : State :=
  let x := s.axis a
  s.modAxis a fun y => { y with cur := { y.cur with theta := elecAngle s a x.fb.xact,
                                                    we := sat 64 (roundRat (2 * piRat * gainOf s Ob.Cur.ELEC_PER_UNIT a * x.fb.vact)) } }

/-- A phase current of a port in Q1.31 of rated peak (R311): offset removed, the gain converted on its magnitude. -/
def sdCurrent (s : State) (p k : Nat) : Int :=
  let g := f32Rat (s.get Ob.Sd.SD_GAIN p 0 k)
  let v := gainMul (if g < 0 then -g else g) (s.get Ob.Sd.SD_VALUE p 0 k - s.get Ob.Sd.SD_OFFSET p 0 k) 31 31
  sat 32 (if g < 0 then -v else v)

/-- Phase currents of a direct axis in Q1.31: the worker's (kind 3), or the port's sigma-delta values (kind 4, R178). -/
def phaseCurrents (s : State) (a : Nat) : Int × Int × Int :=
  if s.kindOf a = 3 then
    let l := chanUp s a
    let i (k : Nat) : Int := toSigned 16 (leAt l (2 * k) 2) * 65536
    (i 0, i 1, i 2)
  else
    let p := s.nat Ob.Map.LOCAL_PORT a
    let i (k : Nat) : Int := sdCurrent s p k
    if s.nat Ob.Sd.SD_PHASES p = 2 then (i 0, i 1, -(i 0) - i 1) else (i 0, i 1, i 2)

/-- A rotated pair (R178): (x·cos θ − y·sin θ, x·sin θ + y·cos θ), Q1.31. -/
def rotate (x y : Int) (th : Nat) : Int × Int :=
  let cs := cosQ31 th
  let sn := sinQ31 th
  (sat 32 (roundShr (x * cs - y * sn) 31), sat 32 (roundShr (x * sn + y * cs) 31))

/-- Command angle of a cycle (R178): θ advanced by ω_e over ANGLE_ADVANCE cycles. -/
def commandAngle (s : State) (a tc : Nat) : Nat :=
  let x := s.axis a
  let turns : Rat := gainOf s Ob.Cur.ELEC_PER_UNIT a * x.fb.vact * gainOf s Ob.Cur.ANGLE_ADVANCE a * secs tc
  lowBits 32 (x.cur.theta + roundRat turns)

/-- i_d and i_q of a direct axis at the electrical angle `th` (R178). -/
def currentVector (s : State) (a th : Nat) : Int × Int :=
  let (iu, iv, iw) := phaseCurrents s a
  let ia := sat 32 (roundDiv (2 * iu - iv - iw) 3)
  let ib := sat 32 (roundRat (((iv - iw : Int) : Rat) * invSqrt3))
  let cs := cosQ31 th
  let sn := sinQ31 th
  (sat 32 (roundShr (ia * cs + ib * sn) 31), sat 32 (roundShr (ib * cs - ia * sn) 31))

/-- The CURRENT node (R178, R181). -/
def currentNode (s : State) (c : RunCtx) : State :=
  let a := c.a
  let x := s.axis a
  let (id, iq) := currentVector s a x.cur.theta
  let vlim := fracOf s Ob.Cur.V_LIMIT a
  let kp := gainOf s Ob.Cur.KP_CUR a
  let kiT := gainTime (gainOf s Ob.Cur.KI_CUR a) c.tc
  let uid := clampInt x.cur.uId (-vlim) vlim
  let uiq := clampInt x.cur.uIq (-vlim) vlim
  let ed := x.cur.idref - id
  let eq := x.cur.iqref - iq
  let vd := gainMul kp ed 31 31 + uid - gainMul (gainOf s Ob.Cur.LQ_DEC a) (roundShr (x.cur.we * iq) 32) 31 31
  let vq := gainMul kp eq 31 31 + uiq + gainMul (gainOf s Ob.Cur.LD_DEC a) (roundShr (x.cur.we * id) 32) 31 31
  let vd1 := clampInt vd (-vlim) vlim
  let r : Int := (isqrt (vlim * vlim - vd1 * vd1).toNat : Int)
  let vq1 := clampInt vq (-r) r
  let upd (u v v1 e : Int) : Int := clampInt (u + (if v1 ≠ v ∧ (v1 - v) * e < 0 then 0 else gainMul kiT e 31 31)) (-vlim) vlim
  let (va, vb) := rotate vd1 vq1 (commandAngle s a c.tc)
  let lim := decide (vd1 ≠ vd ∨ vq1 ≠ vq)
  let fl := setBit (s.nat Ob.AxD.LOOP_FLAGS a) 5 lim
  let s := s.modAxis a fun x =>
    { x with cur := { x.cur with uId := upd uid vd vd1 ed, uIq := upd uiq vq vq1 eq, vd := vd1, vq := vq1, vAlpha := va, vBeta := vb } }
  let s := ((s.set Ob.AxD.LOOP_FLAGS fl a).set Ob.Map.ID_ACTUAL id a).set Ob.Map.IQ_ACTUAL iq a
  note (note (note (note s a 12 id) a 13 iq) a 14 vd1) a 15 vq1

/-! ### SUPERVISE (R180, R182, R183, R203) -/

/-- The following-error fault (R182): FE_TIME runs above FE_LIMIT, once in each run of excesses. -/
def judgeFe (s : State) (a : Nat) : State :=
  let x := s.axis a
  if s.get Ob.Cur.FE_LIMIT a ≠ 0 ∧ s.nat Ob.Cur.FE_TIME a ≤ x.cur.feRun ∧ x.cur.feDone = false then
    let s := (s.modAxis a fun x => { x with cur := { x.cur with feDone := true } }).set Ob.AxD.LOOP_FLAGS (setBit (s.nat Ob.AxD.LOOP_FLAGS a) 8 true) a
    raiseFault s a 1 (s.get Ob.Cur.FE_REACTION a)
  else s

/-- Following error of a position run supervised (R182). -/
def superviseFe (s : State) (a : Nat) : State :=
  let e := |s.get Ob.Map.FOLLOWING_ERROR a|
  let s := s.raiseMax Ob.AxD.FE_PEAK (sat 64 e) a
  let w := s.get Ob.Cur.FE_WARN_LIMIT a
  let lim := s.get Ob.Cur.FE_LIMIT a
  let fl := s.nat Ob.AxD.LOOP_FLAGS a
  let warn := decide (w ≠ 0 ∧ w < e)
  let s := s.set Ob.AxD.LOOP_FLAGS (setBit fl 7 warn) a
  let s := if warn && !bit fl 7 then s.warn 182 a 0 else s
  let above := decide (lim ≠ 0 ∧ lim < e)
  let s := s.modAxis a fun x =>
    { x with cur := { x.cur with feRun := if above then min 1000 (x.cur.feRun + 1) else 0, feDone := x.cur.feDone && above } }
  judgeFe s a

/-- The current-sum fault (R180): 4 consecutive cycles above SUM_LIMIT. -/
def judgeSum (s : State) (a : Nat) : State :=
  let fl := s.nat Ob.AxD.LOOP_FLAGS a
  if 4 ≤ (s.axis a).cur.sumRun ∧ bit fl 9 = false then
    raiseFault (s.set Ob.AxD.LOOP_FLAGS (setBit fl 9 true) a) a 10 (s.get Ob.Cur.SUM_REACTION a)
  else s

/-- The current sum of a cycle supervised (R180). -/
def superviseSum (s : State) (a : Nat) : State :=
  let (iu, iv, iw) := phaseCurrents s a
  let high := decide (fracOf s Ob.Cur.SUM_LIMIT a < |iu + iv + iw|)
  let s := s.modAxis a fun x => { x with cur := { x.cur with sumRun := if high then min 4 (x.cur.sumRun + 1) else 0 } }
  judgeSum (if high then s else s.set Ob.AxD.LOOP_FLAGS (setBit (s.nat Ob.AxD.LOOP_FLAGS a) 9 false) a) a

/-- Standstill noted in a position run (R203). -/
def superviseStill (s : State) (a tw : Nat) : State :=
  let still := decide (|(s.axis a).fb.vact| ≤ s.get Ob.Lim.STANDSTILL_VEL a)
  s.modAxis a fun x => { x with mot := { x.mot with stillSince := if still then some (x.mot.stillSince.getD tw) else none } }

/-- The SUPERVISE node (R180, R182, R187, R190, R203, R209, R216). -/
def superviseNode (s : State) (c : RunCtx) : State :=
  let a := c.a
  let k := s.kindOf a
  -- a stop decided in this node acts from the next run (R202), and ends there at the earliest
  let m0 := (s.axis a).mot
  let s := checkLimits s a
  let on := loopsOn (s.axis a)
  let fb := decide (s.get Ob.AxFb.FB_SOURCE a ≠ 0xFF)
  -- flags of loops that do not run (R171); OVER_DECLARED and FE_FAULT stand
  let s := if on then s else s.set Ob.AxD.LOOP_FLAGS ((s.nat Ob.AxD.LOOP_FLAGS a &&& 0x101 : Nat) : Int) a
  let s := if on && c.pos && (decide (k ≠ 5) || fb) then superviseFe s a else s
  let s := if on && isDirect k then superviseSum s a else s
  let s := if on && c.pos then superviseStill s a c.tw else s
  let s := checkArmed (checkArmTimeout (tryArm s a) a) a
  let acts := decide (m0.state = .stopping ∧ m0.stopKind = (s.axis a).mot.stopKind)
  let s := checkStopTimeout (if acts then checkStandstill s a else s) a
  let x := s.axis a
  let home := x.mot.home
  if x.mot.mode = 6 ∧ x.mot.state = .enabled ∧ home.phase ≠ 7 ∧ home.t0 + s.nat Ob.Home.HOME_TIMEOUT a * 1000000 ≤ c.tw then homingFailed s a else s

/-- FOLLOWING_ERROR: the run of axis `a` judged (R182). -/
def execFollowingError (a t : Nat) (s : State) : Host.Outcome State Fault Refusal := whileOn s t <| .next (judgeFe (s.at t) a)

/-- CURRENT_SUM: the run of axis `a` judged (R180). -/
def execCurrentSum (a t : Nat) (s : State) : Host.Outcome State Fault Refusal := whileOn s t <| .next (judgeSum (s.at t) a)

/-- CLEAR_PEAK of axis `a` (R182). -/
def execClearPeak (a t : Nat) (s : State) : Host.Outcome State Fault Refusal := whileOn s t <|
  .next ((((s.at t).set Ob.AxD.FE_PEAK 0 a).set Ob.AxD.EXEC_MAX 0 a).set Ob.AxD.CLEAR_PEAK 1 a)

end Sys2Proof.Machine
end

