-- ==== Sys2Proof/Machine/Items.lean ====
section
/-! DEFINITION. The dispatcher (R281 to R295): posting, placement, eligibility, dispatch, the run of an axis graph, completion,
back-pressure, cancels and figures. -/

namespace Sys2Proof.Machine

/-! ### Declared times (R28, R158, R278, R416, R419) -/

/-- The dividers of an axis make its velocity and position loops run in cycle `n` (R29). -/
def loopPhases (d : Nat × Nat × Nat) (n : Nat) : Bool × Bool :=
  let (dv, dx, ph) := d
  (decide (n % dv = ph % dv), decide (n % dx = ph))

/-- An axis of kind `k` computes its velocity loop in the head (Table 07-1). -/
def hasVelocity (k : Nat) : Bool := decide (k = 1 ∨ k = 3 ∨ k = 4)

/-- The POSITION node belongs to the graph of kind `k` (Table 07-1). -/
def hasPosition (k : Nat) : Bool := decide (1 ≤ k ∧ k ≤ 4)

/-- Declared time of the blocks of an axis at a point (R278). -/
def blockTime (s : State) (a point : Nat) : Nat := ((blocksAt s a point).map fun u => s.nat Ob.Ub.DECLARED_TIME u + 8).sum

/-- Runs of an injection node in a phase (R418). -/
def injRuns (k node : Nat) (vel pos : Bool) : Bool :=
  match node with
  | 1 => pos && hasPosition k
  | 2 => if k = 2 then true else vel && hasVelocity k
  | 3 => vel && hasVelocity k
  | _ => vel && isDirect k

/-- Declared time in ACE cycles of the graph of axis `a` in a cycle in which its velocity and position loops run as told. -/
def declaredTime (s : State) (a : Nat) (vel pos : Bool) : Nat :=
  let k := s.kindOf a
  let v := vel && hasVelocity k
  let d := isDirect k
  let on (b : Bool) (n : Nat) : Nat := if b then n else 0
  let traces := ((List.range 16).filter fun q => s.nat Ob.TrcSlot.AXIS q = a).length
  90 + on (decide (s.get Ob.AxFb.FB_SOURCE a ≠ 0xFF)) (blockTime s a 1) + on pos 180 + on (pos && hasPosition k) 60 +
  on v (110 + 80 + blockTime s a 2 + blockTime s a 3) + on (v && d) 170 + on d (60 + 460) + 40 + blockTime s a 4 +
  (if k = 1 ∨ k = 2 then 60 else 50) + 6 * traces +
  on (decide (s.nat Ob.Inj.INJ_AXIS = a) && injRuns k (s.nat Ob.Inj.INJ_NODE) vel pos) 30

/-- ACE cycles in `ns`, at 1.2 GHz: `ns` is longer than `c` cycles. -/
def longerThan (ns c : Nat) : Bool := decide (c * 5 < ns * 6)

/-! ### Lists (R284, R290) -/

/-- An item's list: its engine for a single mask bit, or its pool. -/
def fixedEngine (m : Nat) : Option Nat :=
  match (List.range 8).filter fun e => bit m e with
  | [e] => some e
  | _ => none

/-- Ready and unstarted items of an item's list and priority. -/
def listDepth (s : State) (i : Item) : Nat := (s.disp.ready.filter fun j => decide (j.mask = i.mask ∧ j.prio = i.prio)).length

/-- Capacity of a list (Table 11-2). -/
def listCap (i : Item) : Nat := if (fixedEngine i.mask).isSome then 64 else 256

/-- The list depths observed (Tables 11-5 and 11-6). -/
def noteDepth (s : State) (i : Item) : State :=
  let d : Int := ((s.disp.ready.filter fun j => decide (j.mask = i.mask)).length : Nat)
  match fixedEngine i.mask with
  | some e => s.raiseMax Ob.Eng.QUEUE_DEPTH_MAX (min 64 d) e
  | none => s.raiseMax Ob.Disp.POOL_DEPTH_MAX (min 256 d)

/-- t_D of an item. An item posted from then on is cancelled (Table 11-4); one of an axis that is still to be settled is counted there. -/
def itemDeadline (s : State) (i : Item) : Nat :=
  let q := s.ring (i.ring % 4)
  i.tw + (if q.tw = i.tw ∧ q.tc ≠ 0 then q.tc else s.tcyc (i.ring % 4)) - guardNs

/-- An item posted, held where its list is full (R290), cancelled where its t_D has come (Table 11-4). -/
def postItem (s : State) (i : Item) : State :=
  if i.prio ≤ 1 ∧ itemDeadline s i ≤ s.now then (if (s.axis i.flow).waiting.isSome then s else s.count Ob.Disp.CANCELLED)
  else
    let older := s.disp.held.any fun j => decide (j.mask = i.mask ∧ j.prio = i.prio)
    if older || decide (listCap i ≤ listDepth s i) then
      ({ s with disp := { s.disp with held := s.disp.held ++ [i] } }).count Ob.Disp.BP_EVENTS
    else noteDepth { s with disp := { s.disp with ready := s.disp.ready ++ [{ i with ready := s.now }] } } i

/-- Held triggers posted where their list has room, the oldest of each list first (R290, Table 11-4). -/
def postHeld (s : State) : State :=
  s.disp.held.foldl (fun (s : State) i =>
    if listDepth s i < listCap i ∧ !(s.disp.held.takeWhile (· ≠ i)).any (fun j => decide (j.mask = i.mask ∧ j.prio = i.prio)) then
      noteDepth { s with disp := { s.disp with held := s.disp.held.erase i, ready := s.disp.ready ++ [{ i with ready := s.now }] } } i
    else s) s

/-- Schedule and cycle length of a ring's cycle in progress; of its next one where none is in progress. -/
def cycleSched (s : State) (r : Nat) : Nat × Nat := let q := s.ring r; if q.open_ then (q.sc, q.tc) else (s.sched r, s.tcyc r)

/-- The item of axis `a` for the whistle `tw` of cycle `n` of ring `r` (R281, Table 11-1). -/
def axisItem (s : State) (a r n tw : Nat) : Item :=
  { prio := if isDirect (s.kindOf a) then 0 else 1, flow := a, ring := r, cycle := n, tw := tw, ready := s.now,
    mask := s.aceMask r (cycleSched s r).1 a }

/-- An axis's item posted once per whistle, where the axis still waits for it. -/
def postAxis (s : State) (a r : Nat) : State :=
  let q := s.ring r
  let i := axisItem s a r q.cycle q.tw
  let have_ := (s.disp.ready ++ s.disp.held).any fun j => decide (j.flow = a ∧ j.tw = q.tw)
  let running := (List.range 8).any fun e => match (s.eng e).run with | some g => decide (g.item.flow = a ∧ g.item.tw = q.tw) | none => false
  if (s.axis a).waiting ≠ some q.cycle ∨ have_ ∨ running then s else postItem s i

/-- A completion trigger (R283): item `i` waits for the item of flow `f` of its whistle, is posted where that has completed, and is cancelled where it
has been cancelled. -/
def postAfter (s : State) (i : Item) (f : Nat) : State :=
  let listed := (s.disp.ready ++ s.disp.held).any fun j => decide (j.flow = f ∧ j.tw = i.tw)
  let running := (List.range 8).any fun e => match (s.eng e).run with | some g => decide (g.item.flow = f ∧ g.item.tw = i.tw) | none => false
  let x := s.axis f
  if listed || running || (decide (f < 256) && x.waiting.isSome && x.undoneWhy.isNone) then { s with disp := { s.disp with chained := s.disp.chained ++ [i] } }
  else if f < 256 ∧ x.undoneWhy.isSome then s.count Ob.Disp.CANCELLED
  else postItem s i

/-- TIMER_TRIGGER: the item of local-port axis `flow` at its offset of 1.0 µs, or a service or background item of a flow of its own,
at once or after its predecessor of flow `after` (R283, R286). -/
def execTimerTrigger (flow prio : Nat) (after : Option Nat) (t : Nat) (s : State) : Host.Outcome State Fault Refusal := whileOn s t <|
  let s := s.at t
  let r := match after with | some f => if f < 256 then s.axisRing f else s.localRing | none => s.localRing
  let q := s.ring r
  let i : Item := { prio := prio, flow := flow, ring := r, cycle := q.cycle, tw := q.tw, ready := s.now, after := after,
                    mask := if flow < 256 then s.aceMask (s.axisRing flow) (s.sched (s.axisRing flow)) flow else 0xFF }
  .next (if flow < 256 ∧ prio ≤ 1 then
      (if s.onRing flow 0xFE ∧ (s.ring s.localRing).tw + 1000 ≤ s.now then postAxis s flow s.localRing else s)
    else if 2 ≤ prio ∧ prio ≤ 3 then
      (match after with
       | none => postItem s i
       | some f => postAfter s i f)
    else s)

/-! ### Eligibility (R285 to R287) -/

/-- Axes an engine may hold: mapped axes whose mask has it, in the schedule that governs their ring (R284). -/
def engineAxes (s : State) (e : Nat) : List Nat :=
  (List.range 256).filter fun a => decide (s.kindOf a ≠ 0) && bit (s.aceMask (s.axisRing a) (s.sched (s.axisRing a)) a) e

/-- The ring whose cycles an engine's figures belong to (R295, condition 4): that of its axes, or LOCAL_RING. -/
def engineRing (s : State) (e : Nat) : Nat := match engineAxes s e with | a :: _ => s.axisRing a | [] => s.localRing

/-- The item of an axis for the whistle in progress has neither completed nor been cancelled (R286): a missing frame cancels it. -/
def axisPending (s : State) (a : Nat) : Bool := let x := s.axis a; x.waiting.isSome && decide (x.undoneWhy ≠ some 3)

/-- The engine's free window is open (R286). -/
def freeWindow (s : State) (e : Nat) : Bool :=
  let q := s.ring (engineRing s e)
  let ax := engineAxes s e
  q.open_ && decide (s.now < q.tw + q.tc - guardNs) &&
  (if ax.isEmpty then decide (q.tw + 500 ≤ s.now) else ax.all fun a => !axisPending s a)

/-- Free windows that have opened noted (R286, R295); engines that hold no axis open theirs at t_E. -/
def noteFree (s : State) : State :=
  forBelow 8 (fun e s =>
    let g := s.eng e
    if g.freeFrom.isNone && !(engineAxes s e).isEmpty && freeWindow s e then s.setEng e { g with freeFrom := some s.now } else s) s

/-- SERVICE and BACKGROUND items that t_D has voided posted again for an engine whose free window has opened (R286). -/
def postAgain (s : State) (e : Nat) : State :=
  let l := s.disp.again.filter fun i => bit i.mask e
  if l.isEmpty || !freeWindow s e then s
  else
    let s := { s with disp := { s.disp with again := s.disp.again.filter fun i => !bit i.mask e } }
    forList l (fun i s => postItem s i) s

/-- Order of R285 among items: priority, ready time, ring, axis or item number. -/
def itemBefore (x y : Item) : Bool :=
  if x.prio ≠ y.prio then decide (x.prio < y.prio)
  else if x.ready ≠ y.ready then decide (x.ready < y.ready)
  else if x.ring ≠ y.ring then decide (x.ring < y.ring)
  else if x.flow ≠ y.flow then decide (x.flow < y.flow)
  else decide (x.num < y.num)

/-- A flow has an item running. -/
def flowRunning (s : State) (f : Nat) : Bool :=
  (List.range 8).any fun e => match (s.eng e).run with | some g => decide (g.item.flow = f) | none => false

/-- An item may start on engine `e` (R284, R286, R287), before t_D of its cycle (R293). -/
def eligible (s : State) (e : Nat) (i : Item) : Bool :=
  bit i.mask e && (decide (2 ≤ i.prio) || decide (s.now < itemDeadline s i)) && !flowRunning s i.flow && !(s.disp.ready.any fun j => decide (j.flow = i.flow ∧ j.ready < i.ready)) &&
  (decide (i.prio ≤ 1) || freeWindow s e)

/-- The item engine `e` takes (R285). -/
def selectItem (s : State) (e : Nat) : Option Item :=
  (s.disp.ready.filter fun i => eligible s e i).foldl
    (fun b i => match b with | none => some i | some j => if itemBefore i j then some i else some j) none

/-! ### The graph of an axis (R157, R158, R277) -/

/-- A node runs unless the item has been voided. -/
def unlessVoid (s : State) (e : Nat) (f : State → State) : State := if (s.eng e).run.isNone then s else f s

/-- The blocks of an axis at a point called in order (R277): outputs chained; a block over its limit ends the item. -/
def callPoint (s : State) (e : Nat) (c : RunCtx) (point : Nat) (ins outs : List Int) : State × List Int :=
  (blocksAt s c.a point).foldl (fun (p : State × List Int) u =>
    if (p.1.eng e).run.isNone then p else
      let args := p.2 ++ ins.drop p.2.length
      let (s, o, _, ok) := callBlock p.1 e c.a u point c.cycle args p.2
      if ok then (s, (List.range p.2.length).map fun k => o.getD k 0) else ((if (s.ace e).call.isSome then timeAbort s e else s), p.2)) (s, outs)

/-- What is asked of the axis (R187), then FEEDBACK and POST_FEEDBACK (R230, R277). An axis without feedback shows its set-point as its actual position. -/
def graphFeedback (s : State) (e : Nat) (c : RunCtx) : State :=
  let a := c.a
  let s := feedbackNode (judgeAsks s a) a c.tw c.tc
  let s := if s.get Ob.AxFb.FB_SOURCE a = 0xFF then
      let s := s.modAxis a fun x => { x with fb := { x.fb with xact := x.loop.xref, vact := x.loop.vref } }
      (s.set Ob.Map.ACTUAL_POSITION (s.axis a).fb.xact a).set Ob.Map.ACTUAL_VELOCITY (s.axis a).fb.vact a
    else s
  let s := if s.get Ob.AxFb.FB_SOURCE a = 0xFF then s else
    let x := s.axis a
    let (s, o) := callPoint s e c 1 [x.fb.xact, x.fb.vact, x.fb.ext] [x.fb.xact, x.fb.vact]
    let p := o.getD 0 0
    let v := o.getD 1 0
    let s := s.modAxis a fun x => { x with fb := { x.fb with xact := p, vact := v } }
    (s.set Ob.Map.ACTUAL_POSITION p a).set Ob.Map.ACTUAL_VELOCITY v a
  let k := s.kindOf a
  let s := if k = 1 ∨ k = 2 then note (s.set Ob.Map.TORQUE_ACTUAL (torqueSample s a) a) a 11 (torqueSample s a) else s
  note (note s a 2 (s.axis a).fb.xact) a 5 (s.axis a).fb.vact

/-- SETPOINT and POSITION (R161, R193); an axis of kind 5 forms its following error from its step position (R182). -/
def graphPosition (s : State) (c : RunCtx) : State :=
  let a := c.a
  if c.pos = false then s else
    let s := setpointNode s a c.tw (c.dx * c.tc)
    let k := s.kindOf a
    if loopsOn (s.axis a) = false then s
    else if hasPosition k then positionNode s c
    else
      let x := s.axis a
      let s := s.set Ob.Map.POSITION_DEMAND x.loop.xref a
      let s := note s a 1 x.loop.xref
      if s.get Ob.AxFb.FB_SOURCE a = 0xFF then s else
        let ex := sat 64 (x.loop.xref - x.fb.xact)
        note (s.set Ob.Map.FOLLOWING_ERROR ex a) a 3 ex

/-- VELOCITY with PRE_VELOCITY and POST_FILTER, the filters and the injection (R162, R277, R418); a brake test replaces the torque
command (R356). -/
def graphVelocity (s : State) (e : Nat) (c : RunCtx) : State :=
  let a := c.a
  -- a hard stop takes the acceleration feedforward away from the first velocity run on (R202, Table 08-6)
  let s := if hardStop (s.axis a) then s.modAxis a fun x => { x with loop := { x.loop with aff := 0 } } else s
  if c.vel = false ∨ hasVelocity (s.kindOf a) = false ∨ loopsOn (s.axis a) = false then s else
  let v0 := velCommand s a (c.tw - (s.axis a).loop.tPos)
  let x := s.axis a
  let (s, o) := callPoint s e c 2 [v0, x.fb.vact, x.loop.aff] [v0, x.loop.aff]
  unlessVoid s e fun s =>
    let vc := o.getD 0 0
    let aff := o.getD 1 0
    let i2 := injAt s a 2 c.tw (c.dv * c.tc)
    let (s, u, ev) := velocityIn s c (sat 64 (vc + i2)) (s.axis a).fb.vact
    let s := note (s.set Ob.Map.VELOCITY_DEMAND vc a) a 4 vc
    let s := if i2 = 0 then s else note s a 16 i2
    let (s, u) := biquads s a u
    let (s, o) := callPoint s e c 3 [u, ev, (s.axis a).fb.vact] [u]
    unlessVoid s e fun s =>
      let u := sat 64 (o.getD 0 0 + aff)
      let i3 := injAt s a 3 c.tw (c.dv * c.tc)
      let s := if i3 = 0 then s else note s a 16 i3
      let s := match btCommand s a c.tw with
        | some m => note (s.modAxis a fun x => { x with loop := { x.loop with ulim := m } }) a 10 m
        | none => velocityOut s c (sat 64 (u + i3)) ev
      let x := s.axis a
      let dem := if i3 = 0 then x.loop.ulim else satTorque (clampInt u (-x.loop.tneg) x.loop.tpos)
      (s.set Ob.Map.TORQUE_DEMAND dem a).set Ob.Map.INTEGRAL (sat 32 x.loop.uI) a

/-- IREF, ANGLE and CURRENT of a direct axis (R177 to R181). -/
def graphCurrent (s : State) (c : RunCtx) : State :=
  let a := c.a
  if isDirect (s.kindOf a) = false ∨ loopsOn (s.axis a) = false then s else
    let s := if c.vel then irefNode s c else s
    let s := currentNode (angleNode s a) c
    let iq := s.get Ob.Map.IQ_ACTUAL a
    note (s.set Ob.Map.TORQUE_ACTUAL iq a) a 11 iq

/-- VEL_CMD of an axis of kind 2 (R161, R169): Q16.16 counts per ring cycle, saturated; saturated or not. -/
def velCmdWord (s : State) (a tc : Nat) (v : Int) : Int × Bool :=
  let sg : Int := if s.get Ob.AxFb.FB_INVERT a = 1 then -1 else 1
  let x := roundDiv (sg * v * s.get Ob.AxFb.FB_COUNTS a * tc * 65536) (2 ^ 32 * max 1 (s.get Ob.AxFb.FB_UNITS a) * 1000000000)
  (sat 32 x, decide (sat 32 x ≠ x))

/-- The velocity command of an axis of kind 2, formed in every cycle before SUPERVISE (R169, R202). -/
def graphCommand (s : State) (c : RunCtx) : State :=
  let a := c.a
  if s.kindOf a ≠ 2 ∨ loopsOn (s.axis a) = false then s else
    let v := velCommand s a (c.tw - (s.axis a).loop.tPos)
    (note (s.set Ob.Map.VELOCITY_DEMAND v a) a 4 v).modAxis a fun x => { x with loop := { x.loop with vcmd := v } }

/-- The command of an axis before PRE_PACK: first and second word, with VEL_CMD_SAT. -/
def rawCommand (s : State) (c : RunCtx) : State × Int × Int × Bool :=
  let a := c.a
  let x := s.axis a
  let on := loopsOn x
  match s.kindOf a with
  | 1 => (s, if on then x.loop.ulim else 0, 0, false)
  | 2 =>
    if on then
      let inj := injAt s a 2 c.tw c.tc
      let (w, st) := velCmdWord s a c.tc (sat 64 (x.loop.vcmd + inj))
      (if inj = 0 then s else note s a 16 inj, w, 0, st)
    else (s, 0, 0, false)
  | 5 => (s, x.loop.xref, x.stepShift, false)
  | _ => (s, if on then x.cur.vAlpha else 0, if on then x.cur.vBeta else 0, false)

/-- PACK with PRE_PACK (Table 10-10): the command sent, LOOP_FLAGS, and the history of Table 02-8. -/
def graphPack (s : State) (e : Nat) (c : RunCtx) : State :=
  let a := c.a
  let (s, w1, w2, st) := rawCommand s c
  let k := s.kindOf a
  let inp : Int := if isDirect k then w1 * 2 ^ 32 + (lowBits 32 w2 : Int) else w1
  let (s, o) := callPoint s e c 4 [inp] [inp]
  unlessVoid s e fun s =>
    let x := s.axis a
    let out := o.getD 0 0
    let on := loopsOn x
    let c1 : Int := if on = false then w1 else if isDirect k then toSigned 32 (lowBits 64 out / 2 ^ 32) else if k = 5 then out else toSigned 32 (lowBits 32 out)
    let c2 : Int := if on && isDirect k then toSigned 32 (lowBits 32 out) else w2
    let fl := s.nat Ob.AxD.LOOP_FLAGS a
    let fl := fl - bits fl 1 4 * 2 + (if on then x.cur.velFlags else 0)
    let s := s.set Ob.AxD.LOOP_FLAGS (setBit fl 6 st) a
    let h : HistVal := { xref := x.loop.xref, vref := x.loop.vref, aff := x.loop.aff, vcmd := x.loop.vcmd, torque := x.loop.ulim, vd := x.cur.vd,
                         vq := x.cur.vq, theta := x.cur.theta, xact := x.fb.xact, vact := x.fb.vact, cmd1 := c1, cmd2 := c2 }
    s.modAxis a fun x => { x with h2 := x.h1, h1 := some h }

/-- The library graph of an axis for one whistle, with its user blocks (R157, R281). -/
def runGraph (s : State) (e : Nat) (c : RunCtx) : State :=
  let s := graphFeedback s e c
  let s := unlessVoid s e fun s => graphPosition s c
  let s := unlessVoid s e fun s => graphVelocity s e c
  let s := unlessVoid s e fun s => graphCommand (graphCurrent s c) c
  let s := unlessVoid s e fun s => superviseNode s c
  unlessVoid s e fun s => graphPack s e c

/-! ### Dispatch -/

/-- First key of the objects of the axes, and the first after them (0x4000 to 0x7FFF). -/
def axisLo : Nat := 0x4000 * 256
/-- End of the axis objects. -/
def axisHi : Nat := 0x8000 * 256
/-- A dictionary key lies among the axis objects. -/
def axisKey (k : Nat) : Bool := decide (axisLo ≤ k ∧ k < axisHi)

/-- The dictionary with the axis objects of `old` and all others of `new`. -/
def keepAxisObjects (old new : SMap Val) : SMap Val :=
  (new.filter fun e => decide (e.1 < axisLo)) ++ (old.filter fun e => axisKey e.1) ++ (new.filter fun e => decide (axisHi ≤ e.1))

/-- What a run computed, as its completion will write it back (R259, R281). -/
def resultOf (s0 s1 : State) (a : Nat) : ItemResult :=
  let w := s1.od.filterMap fun e =>
    match e.2 with
    | .num v => if axisKey e.1 && decide (SMap.get? s0.od e.1 ≠ some e.2) then some (e.1, v) else none
    | .bytes _ => none
  let new := s1.out.take (s1.out.length - s0.out.length)
  let evs := new.filterMap fun m => match m with | .event r w d => if r = 276 then none else some (r, w, d) | _ => none
  let p := s0.nat Ob.Map.LOCAL_PORT a
  ⟨s1.axis a, w, evs, decide (s0.kindOf a = 5) && (s1.port p).step.halted && !(s0.port p).step.halted⟩

/-- The graph run on a copy of the state: what engines, blocks and counters show stays, what the axis shows waits for completion. -/
def runOnCopy (s0 : State) (e : Nat) (c : RunCtx) : State :=
  let s1 := runGraph s0 e c
  let exc := (s1.out.take (s1.out.length - s0.out.length)).filter fun m => match m with | .event r _ _ => decide (r = 276) | _ => false
  let s := { s1 with axes := s0.axes, od := keepAxisObjects s0.od s1.od, ports := s0.ports, out := exc ++ s0.out }
  match (s.eng e).run with
  | some r => s.setEng e { s.eng e with run := some { r with result := some (resultOf s0 s1 c.a) } }
  | none => s.modAxis c.a fun x => { x with undoneWhy := some (x.undoneWhy.getD 1) }

/-- The context of an axis item's run. -/
def runCtx (s : State) (i : Item) : RunCtx :=
  let (sc, tc) := cycleSched s i.ring
  let (dv, dx, ph) := s.dividers i.ring sc i.flow
  let (vel, pos) := loopPhases (dv, dx, ph) i.cycle
  { a := i.flow, tw := i.tw, cycle := i.cycle, tc := tc, dv := dv, dx := dx, vel := vel, pos := pos }


/-- Cycles of a 1.2 GHz clock from instant 0 to `t`. -/
def refCycles (t : Nat) : Nat := t * 6 / 5

/-- Reference cycles with the clock of an idle, powered engine gated are counted up to the present instant (Table 17-2, GATED). -/
def countGated (s : State) (e : Nat) : State :=
  let x := s.ace e
  if (s.eng e).run.isSome ∨ x.powered = false then s
  else aceEvent (s.modAce e fun x => { x with gatedAt := s.now }) e 0x10 (refCycles s.now - refCycles x.gatedAt)

/-- Configuration changes of an engine's counters take effect at an item boundary (R405). -/
def itemBoundary (s : State) (e : Nat) : State :=
  s.modAce e fun x =>
    let p := x.periodNext.getD x.period
    let start (w : Nat) : Nat := if bit w 15 then 2 ^ 48 - p else 0
    let restart (x : AceRt) (k w : Nat) : AceRt := { x with cfg := SMap.put x.cfg k w, pmc := SMap.put x.pmc k (start w), ovf := x.ovf.filter (· ≠ k) }
    let sampling := if x.periodNext.isSome then x.cfg.filter fun c => bit c.2 15 else []
    let x := (sampling ++ x.cfgNext).foldl (fun (x : AceRt) c => restart x c.1 c.2) { x with period := p, cfgNext := [], periodNext := none }
    if x.clearNext then { x with clearNext := false, cycle := 0, pmc := [], slots := [], itemDone := 0, itemIdle := 0 } else x

/-- Engine `e` takes item `i` (R285, R289, R259). -/
def startItem (s : State) (e : Nat) (i : Item) : State :=
  let s := itemBoundary (countGated (wakeEngine s e) e) e
  let s := { s with disp := { s.disp with ready := s.disp.ready.erase i } }
  let s := s.count Ob.Disp.DISPATCHED
  let wait : Nat := s.now - i.ready
  let ax := decide (i.prio ≤ 1)
  let ctx := runCtx s i
  let decl := if ax then declaredTime s i.flow ctx.vel ctx.pos else 0
  let g := s.eng e
  let s := s.setEng e { g with run := some ⟨i, s.now, decl, s.axis i.flow, none⟩, waitSum := g.waitSum + (if ax then wait else 0),
                               waitN := g.waitN + (if ax then 1 else 0) }
  let s := s.modAce e fun x => { x with status := statusReset s e, flags := 0 }
  if ax then
    let s := s.raiseMax Ob.Eng.WAIT_MAX wait e
    let s := ((s.set Ob.AxD.LAST_ENGINE e i.flow).set Ob.AxD.LAST_WAIT wait i.flow).set Ob.AxD.LAST_START (s.now - i.tw : Nat) i.flow
    let s := s.modAce e fun x =>
      let b := !x.frameB
      { x with frameB := b, mem := Mem.copy (s.axis i.flow).user 0xE00 x.mem ((if b then 0x1000 else 0) + 0xE00) 512 }
    let s := postHeld s
    underView s i.ring fun s => runOnCopy s e ctx
  else postHeld s

/-- ITEM_DISPATCH: a free engine takes the first eligible ready item (R285). -/
def execItemDispatch (e t : Nat) (s : State) : Host.Outcome State Fault Refusal := whileOn s t <|
  let s := s.at t
  .next (if (s.eng e).run.isSome ∨ 8 ≤ e then s else
    let s := postAgain s e
    match selectItem s e with
    | some i => startItem s e i
    | none => s)

/-! ### Completion -/

/-- The frame's user areas as the item leaves them (R259, R260). -/
def frameUser (s : State) (e : Nat) : Mem := Mem.copy (s.ace e).mem (frameBase (s.ace e) + 0xE00) [] 0xE00 512

/-- The axis state written back (R259): commands that reached the axis while the item ran stand. -/
def writeBackAxis (live before res : AxisRt) (user : Mem) : AxisRt :=
  let mot := if live.mot.seq = before.mot.seq then { res.mot with asks := live.mot.asks.drop before.mot.asks.length } else live.mot
  let flags := if live.flags = before.flags then res.flags else live.flags
  let fb := if live.fb = before.fb then res.fb else { res.fb with rebase := live.fb.rebase || res.fb.rebase }
  { res with mot := mot, flags := flags, fb := fb, user := if live.user = before.user then user else live.user,
             loop := { res.loop with rebank := res.loop.rebank || (live.loop.rebank && !before.loop.rebank),
                                     bqInit1 := res.loop.bqInit1 || (live.loop.bqInit1 && !before.loop.bqInit1),
                                     bqInit2 := res.loop.bqInit2 || (live.loop.bqInit2 && !before.loop.bqInit2) },
             waiting := none, undoneWhy := none }

/-- What the cycle of whistle `tw`, just completed, leaves to followers of the axis (R217). -/
def noteDone (s : State) (a tw : Nat) : State :=
  s.modAxis a fun x => { x with done1 := x.done0, done0 := some ⟨tw, x.fb.xact, x.fb.vact, x.loop.tPos, x.loop.xref, x.loop.vref, x.loop.aref⟩ }

/-- The load-queue entry of a local port (R304): tag, two words, ENABLE; the port keeps the two latest. -/
def pushLoad (s : State) (a cycle : Nat) (w1 w2 : Int) (en : Bool) : State :=
  let p := s.nat Ob.Map.LOCAL_PORT a
  let q := s.port p
  if q.step.halted then s else
    let l := q.queue ++ [⟨cycle, w1, w2, en⟩]
    s.setPort p { q with queue := l.drop (l.length - 2) }

/-- An axis's run installed at its completion. -/
def installRun (s : State) (e : Nat) (r : RunRt) (res : ItemResult) : State :=
  let a := r.item.flow
  let live := s.axis a
  let seqOk := decide (live.mot.seq = r.before.mot.seq)
  let held (k : Nat) : Bool := !seqOk && (decide (k = Ob.Ctl.FAULT_SET.key a) || decide (k = Ob.Ctl.FAULT_CODE.key a))
  let s := forList res.writes (fun w s => if held w.1 then s else s.putVal w.1 (.num w.2)) s
  let s := s.setAxis a (writeBackAxis live r.before res.ax (frameUser s e))
  let s := forList res.evs.reverse (fun v s => s.warn v.1 v.2.1 v.2.2) s
  let s := if r.before.mot.state = .disabled ∧ (s.axis a).mot.state.powered then armPort s a else s
  let s := if res.halt then haltStep s a else s
  let s := noteDone (publishState s a) a r.item.tw
  match (s.axis a).h1 with
  | some h => if s.onRing a 0xFE then pushLoad s a r.item.cycle h.cmd1 h.cmd2 (s.axis a).flags.power else s
  | none => s

/-- EXEC_MAX and OVER_DECLARED of a completed graph (R173). -/
def judgeDeclared (s : State) (r : RunRt) : State :=
  let a := r.item.flow
  let d := s.now - r.start
  let s := s.raiseMax Ob.AxD.EXEC_MAX d a
  let high := longerThan d r.declared
  let s := s.set Ob.AxD.LOOP_FLAGS (setBit (s.nat Ob.AxD.LOOP_FLAGS a) 0 high) a
  if high then
    let s := s.count Ob.AxD.OVER_DECLARED a
    let due := match (s.axis a).cur.overDeclaredAt with | some t => decide (t + 1000000000 ≤ s.now) | none => true
    if due then (s.warn 173 a 0).modAxis a fun x => { x with cur := { x.cur with overDeclaredAt := some s.now } } else s
  else s

/-- The item of engine `e` completes: write-back, store buffer released, figures, successors (R259, R281, R283, R289, R405). -/
def completeItem (s : State) (e : Nat) : State :=
  match (s.eng e).run with
  | none => s
  | some r =>
    let ax := decide (r.item.prio ≤ 1)
    -- a completion in the clock of t_D: the void wins (Table 11-4)
    if ax && decide (itemDeadline s r.item ≤ s.now) then voidRun s e 1 else
    let s := match r.result with
      | some res => judgeDeclared (installRun s e r res) r
      | none => s
    let s := forList (s.ace e).sbuf (fun w s => sharedWrite s e w.1 w.2) s
    let x := s.ace e
    let s := (slotCount (slotCount s e 0 x.itemDone) e 1 x.itemIdle).modAce e fun x =>
      { x with itemDone := 0, itemIdle := 0, sbuf := [], fly := [], branch := none, idleFrom := s.now, gatedAt := s.now }
    let s := aceEvent s e 0x0E 1
    let g := s.eng e
    let d := s.now - r.start
    let s := s.setEng e { g with run := none, items := g.items + 1, lastEnd := s.now, busy := g.busy + (if ax then d else 0),
                                 svcBusy := g.svcBusy + (if ax then 0 else d) }
    let s := itemBoundary (s.count Ob.Disp.COMPLETED) e
    let next := s.disp.chained.filter fun i => decide (i.after = some r.item.flow ∧ i.tw = r.item.tw)
    let s := { s with disp := { s.disp with chained := s.disp.chained.filter fun i => !decide (i.after = some r.item.flow ∧ i.tw = r.item.tw) } }
    noteFree (postHeld (forList next (fun i s => postItem s i) s))

/-- ITEM_COMPLETE: the YIELD of engine `e`'s item has retired (R281). -/
def execItemComplete (e t : Nat) (s : State) : Host.Outcome State Fault Refusal := whileOn s t <| .next (completeItem (s.at t) e)

/-- YIELD, an operation of the library (Table 10-8): the item is complete. In user code it is privileged (R262). -/
def execAceYield (i : AceAt) (s : State) : Host.Outcome State Fault Refusal :=
  .next (aceOp s i 1 false true fun s => acePriv s i.eng fun s => completeItem s i.eng)

/-- CLEAR of the dispatcher (R295). -/
def clearDisp (s : State) : State :=
  let s := ((((((s.set Ob.Disp.DISPATCHED 0).set Ob.Disp.COMPLETED 0).set Ob.Disp.VOIDED 0).set Ob.Disp.CANCELLED 0).set
    Ob.Disp.BP_EVENTS 0).set Ob.Disp.BP_UNDONE 0).set Ob.Disp.POOL_DEPTH_MAX 0
  forBelow 8 (fun e s => ((s.set Ob.Eng.LOAD_MAX 0 e).set Ob.Eng.QUEUE_DEPTH_MAX 0 e).set Ob.Eng.WAIT_MAX 0 e) s

/-- CLEAR (0xB200.08). -/
def execDispClear (t : Nat) (s : State) : Host.Outcome State Fault Refusal := whileOn s t <| .next ((clearDisp (s.at t)).set Ob.Disp.CLEAR 1)

/-! ### Cancels at a missing frame and at t_D (R292, R31) -/

/-- Items that `f` names leave the lists unstarted, with held triggers. -/
def dropItems (s : State) (f : Item → Bool) : State :=
  { s with disp := { s.disp with ready := s.disp.ready.filter fun i => !f i, held := s.disp.held.filter fun i => !f i,
                                 chained := s.disp.chained.filter fun i => !f i } }

/-- Items that wait for the completion of an item of the flows `l` for the whistle `tw`, now cancelled, are cancelled too (R283). -/
def dropDependents (s : State) (l : List Nat) (tw : Nat) : State :=
  let gone (i : Item) : Bool := (match i.after with | some f => l.contains f | none => false) && decide (i.tw = tw)
  let n := (s.disp.chained.filter gone).length
  let s := { s with disp := { s.disp with chained := s.disp.chained.filter fun i => !gone i } }
  s.count Ob.Disp.CANCELLED 0 0 0 n

/-- Items that `f` names are cancelled (R292), each counted. -/
def cancelItems (s : State) (f : Item → Bool) : State :=
  (dropItems s f).count Ob.Disp.CANCELLED 0 0 0 ((s.disp.ready ++ s.disp.held ++ s.disp.chained).filter f).length

/-- The axis has an item that runs for the whistle in progress. -/
def axisRuns (s : State) (a : Nat) : Bool :=
  (List.range 8).any fun e => match (s.eng e).run with | some g => decide (g.item.flow = a ∧ g.item.prio ≤ 1) | none => false

end Sys2Proof.Machine
end

