-- ==== Sys2Proof/Machine/AxisCmd.lean ====
section
/-! DEFINITION. Commands on axes and the machine stop: CONTROL edges (R188, R199, R201), arming (R187, R190), the end and timeout of a
stop (R203), mode entry (R193 to R195), STOP_REQUEST and STOP_CLEAR (R205, R206), virtual masters (R218), limits and homing
(R209, R216). -/

namespace Sys2Proof.Machine

/-! ### CONTROL (R188) -/

/-- One bit of CONTROL written, the other bits as they stand (Table 08-2). -/
def controlBit (s : State) (a k : Nat) (on : Bool) : State := controlWrite s a (setBit (s.nat Ob.Ctl.CONTROL a) k on)

/-- ENABLE of CONTROL written (R187). -/
def execAxisEnable (a : Nat) (on : Bool) (t : Nat) (s : State) : Host.Outcome State Fault Refusal := whileOn s t <| .next (controlBit (s.at t) a 0 on)
/-- STOP of CONTROL written 1: a rising edge starts a RAMP_STOP (R201). -/
def execAxisStop (a t : Nat) (s : State) : Host.Outcome State Fault Refusal := whileOn s t <| .next (controlBit (s.at t) a 1 true)
/-- QSTOP of CONTROL written 1: a rising edge starts a QUICK_STOP (R201). -/
def execAxisQstop (a t : Nat) (s : State) : Host.Outcome State Fault Refusal := whileOn s t <| .next (controlBit (s.at t) a 2 true)
/-- HSTOP of CONTROL written 1: a rising edge starts a HARD_STOP (R201). -/
def execAxisHstop (a t : Nat) (s : State) : Host.Outcome State Fault Refusal := whileOn s t <| .next (controlBit (s.at t) a 3 true)
/-- FAULT_RESET of CONTROL written 1 (R191). -/
def execFaultReset (a t : Nat) (s : State) : Host.Outcome State Fault Refusal := whileOn s t <| .next (controlBit (s.at t) a 4 true)
/-- JOG_POS of CONTROL written (R199). -/
def execJogPos (a : Nat) (on : Bool) (t : Nat) (s : State) : Host.Outcome State Fault Refusal := whileOn s t <| .next (controlBit (s.at t) a 5 on)
/-- JOG_NEG of CONTROL written (R199). -/
def execJogNeg (a : Nat) (on : Bool) (t : Nat) (s : State) : Host.Outcome State Fault Refusal := whileOn s t <| .next (controlBit (s.at t) a 6 on)

/-! ### Arming and stops -/

/-- ARM_DELAY of axis `a` judged (R190). -/
def execArmDelay (a t : Nat) (s : State) : Host.Outcome State Fault Refusal := whileOn s t <| .next (checkArmed (s.at t) a)
/-- ARM_TIMEOUT of axis `a` judged (R187). -/
def execArmTimeout (a t : Nat) (s : State) : Host.Outcome State Fault Refusal := whileOn s t <| .next (checkArmTimeout (s.at t) a)
/-- STANDSTILL of axis `a` judged (R203). -/
def execStandstill (a t : Nat) (s : State) : Host.Outcome State Fault Refusal := whileOn s t <| .next (checkStandstill (s.at t) a)
/-- STOP_TIMEOUT of axis `a` judged (R203). -/
def execStopTimeout (a t : Nat) (s : State) : Host.Outcome State Fault Refusal := whileOn s t <| .next (checkStopTimeout (s.at t) a)

/-! ### Mode entry (R193, R195) -/

/-- First whistle at or after `x` of a ring with offset `w` and cycle length `tc` (R20, R21). -/
def whistleFrom (w tc x : Nat) : Nat := if x ≤ w then w else ((x - w + tc - 1) / tc) * tc + w

/-- A commit that applies at whistle `ta` enters the axis's mode, at once or from START_AT (R193, R195). -/
def requestEntry (s : State) (a ta : Nat) : State :=
  let r := s.axisRing a
  let at_ := s.nat Ob.Ctl.START_AT a
  let mode := s.nat Ob.Ctl.MODE a
  if at_ ≤ ta then enterMode s a mode ta
  else
    let t0 := whistleFrom (s.woff r) (s.tcyc r) at_
    publishState (s.modMot a fun m => { m with pend := some (t0, mode) }) a

/-- MODE_ENTRY: the pending entry of axis `a` at its t₀ (R193, R195). -/
def execModeEntry (a t : Nat) (s : State) : Host.Outcome State Fault Refusal := whileOn s t <|
  let s := s.at t
  .next (match (s.axis a).mot.pend with
    | some (t0, mode) => if t0 ≤ s.now then (enterMode s a mode t0).modMot a fun m => { m with pend := none } else s
    | none => s)

/-! ### Machine stop (R205, R206) -/

/-- STOP_REQUEST written with `v` by a session (R205). -/
def stopRequest (s : State) (sess : Nat) (v : Int) : Act :=
  if v < 1 ∨ 3 < v then (s, stRange)
  else if v ≤ s.get Ob.Mach.STOP_ACTIVE then (s, stOk)
  else
    let s := if s.get Ob.Mach.STOP_ACTIVE = 0 then s.set Ob.Mach.STOP_SESSION sess else s
    let s := (s.set Ob.Mach.STOP_ACTIVE v).count Ob.Mach.STOP_COUNT
    let s := rampMasters s (if v = 1 then Ob.Mst.VM_STOP_DEC else Ob.Mst.VM_QSTOP_DEC)
    (forBelow 256 (fun a s => if (s.axis a).mot.state = .disabled then s else askAxis s a (.machine v.toNat)) s, stOk)

/-- STOP_CLEAR written (R206). -/
def stopClear (s : State) : Act :=
  if (List.range 256).any fun a => decide ((s.axis a).mot.state = .stopping ∧ (s.axis a).mot.stopCause = some .machineStop) then (s, stBusy)
  else ((s.set Ob.Mach.STOP_ACTIVE 0).set Ob.Mach.STOP_SESSION 0xFF, stOk)

/-- STOP_CLEAR (0x3200.03). -/
def execStopClear (t : Nat) (s : State) : Host.Outcome State Fault Refusal := whileOn s t <| answer (kept Ob.Mach.STOP_CLEAR 1 (stopClear (s.at t)))

/-! ### Virtual masters (R218) -/

/-- A commit has changed VM_VELOCITY, VM_ACC or VM_JERK of master `k`: a replan is due from the first whole ms at or after A + 1 ms (R218). -/
def requestReplan (s : State) (k ta : Nat) : State :=
  s.setMaster k { s.master k with replan := some (wholeMs (ta + 1000000), s.get Ob.Mst.VM_VELOCITY k, s.get Ob.Mst.VM_ACC k, s.get Ob.Mst.VM_JERK k) }

/-- VM_REPLAN: pair 1 forms the new plan of virtual master `k` (R218); a standby uses the active unit's table (R372). -/
def execVmReplan (k t : Nat) (s : State) : Host.Outcome State Fault Refusal := whileOn s t <|
  let s := s.at t
  .next (match (s.master k).replan with
    | some (t0, v, acc, j) => if inPair s && isStandby s then s else (let s := replanMaster s k t0 v acc j; mirror s (.pieces k (s.master k)))
    | none => s)

/-- VM_TABLE_EXTEND: the tables of the virtual masters reach 1 ms beyond the latest whistle (R218). -/
def execVmTableExtend (t : Nat) (s : State) : Host.Outcome State Fault Refusal := whileOn s t <|
  let s := s.at t
  let last := (List.range 4).foldl (fun m r => max m (s.ring r).tw) 0
  .next (forBelow 8 (fun k s =>
    if s.get Ob.Mst.TYPE k = 1 then s.setMaster k { s.master k with tableTo := max (s.master k).tableTo (last + 1000000) } else s) s)

/-! ### Limits and homing -/

/-- LIMIT_TRIP: the positive or negative limit input of axis `a` judged (R209). -/
def execLimitTrip (a : Nat) (pos : Bool) (t : Nat) (s : State) : Host.Outcome State Fault Refusal := whileOn s t <|
  let s := s.at t
  let x := s.axis a
  let act := limitActive s a (if pos then s.nat Ob.Lim.LIMIT_POS_SOURCE a else s.nat Ob.Lim.LIMIT_NEG_SOURCE a)
  let s := limitInput s a pos act (if pos then x.flags.inPos else x.flags.inNeg) (x.flags.limPos && x.flags.limNeg)
  .next (s.modAxis a fun x => { x with flags := if pos then { x.flags with inPos := act } else { x.flags with inNeg := act } })

/-- HOME_TIMEOUT of axis `a` judged (R216). -/
def execHomeTimeout (a t : Nat) (s : State) : Host.Outcome State Fault Refusal := whileOn s t <|
  let s := s.at t
  let m := (s.axis a).mot
  .next (if m.mode = 6 ∧ m.state = .enabled ∧ m.home.phase ≠ 7 ∧ m.home.t0 + s.nat Ob.Home.HOME_TIMEOUT a * 1000000 ≤ s.now then homingFailed s a else s)

end Sys2Proof.Machine
end

