-- ==== Sys2Proof/Machine/Admit.lean ====
section
/-! DEFINITION. The admission check (R24 to R30, R458, Tables 02-4 to 02-6). Times are picoseconds from t_W. -/

namespace Sys2Proof.Machine

/-- Wire time per byte, forward processing, return pass-through and turn-round in ps (Table 02-4). -/
def tauPs (s : State) (r : Nat) : Nat := if s.get Ob.Ring.PHY_RATE r = 0 then 3200 else 8000
/-- h_f. -/
def fwdPs (s : State) (r : Nat) : Nat := if s.get Ob.Ring.PHY_RATE r = 0 then 80000 else 160000
/-- h_r. -/
def retPs (s : State) (r : Nat) : Nat := if s.get Ob.Ring.PHY_RATE r = 0 then 40000 else 80000
/-- T_end; 0 where the last worker turns the frame. -/
def endPs (s : State) (r : Nat) : Nat := if s.get Ob.Ring.FAR_END r = 0 then 0 else if s.get Ob.Ring.PHY_RATE r = 0 then 80000 else 160000
/-- T_land. -/
def landPs : Nat := 64000

/-- L_decl in mm (R49). -/
def declaredLength (s : State) (r : Nat) : Nat :=
  ((List.range (s.nWorkers r)).map fun i => s.nat Ob.Wk.SEGMENT_LENGTH r (i + 1)).sum +
  (if s.get Ob.Ring.FAR_END r = 1 then s.nat Ob.Ring.FAR_SEGMENT_LENGTH r else 0)

/-- L in mm (R25). -/
def ringLength (s : State) (r : Nat) : Nat := max (declaredLength s r) (s.nat Ob.RTime.MEASURED_LENGTH r)

/-- Bytes of a frame on the wire (R24). -/
def frameBytes (s : State) (r sc : Nat) : Nat := 26 + 32 + 128 + ((List.range (s.nWorkers r)).map fun i => s.slotSize r sc (i + 1)).sum

/-- LENGTH of a play frame: Sahx offset 0 to the end of the service slot. -/
def sahxLength (s : State) (r sc : Nat) : Nat := frameBytes s r sc - 26

/-- t_a1: the first byte back. -/
def firstBack (s : State) (r : Nat) : Nat :=
  500000 + (s.nWorkers r * fwdPs s r + 5 * ringLength s r) + (s.nWorkers r * retPs s r + 5 * ringLength s r + endPs s r)

/-- t_a2 + T_land. -/
def lastBack (s : State) (r sc : Nat) : Nat := firstBack s r + tauPs s r * frameBytes s r sc + landPs

/-- a_p: arrival of worker p's samples (o_p: end of its sample region from the first preamble byte). -/
def arrival (s : State) (r sc p : Nat) : Nat := firstBack s r + tauPs s r * (22 + s.slotStart r sc p + s.slotSize r sc p) + landPs

/-- t_d of a ring under a schedule. -/
def deadlinePs (s : State) (r sc : Nat) : Nat := (s.tcycSched r sc - guardNs) * 1000

/-- A work item of the check: axis, ring, schedule, engines, arrival. -/
structure WorkItem where
  axis : Nat
  ring : Nat
  sched : Nat
  mask : Nat
  at_ : Nat
deriving DecidableEq, Repr

/-- Axes that count as a ring's: mapped to it, or to local ports for LOCAL_RING. -/
def axesOf (s : State) (r : Nat) : List Nat :=
  (List.range 256).filter fun a => s.onRing a r || (decide (r = s.localRing) && s.onRing a 0xFE)

/-- The work items of the rings that take part. -/
def workItems (s : State) (l : List (Nat × Nat)) : List WorkItem :=
  l.flatMap fun (r, sc) => (axesOf s r).map fun a =>
    ⟨a, r, sc, s.aceMask r sc a, if s.onRing a r then arrival s r sc (s.nat Ob.Map.WORKER a) else 1000000⟩

/-- Declared time of an item in a phase, in thirds of a ps (an engine cycle is 2500/3 ps). -/
def itemWork (s : State) (i : WorkItem) (ph : Nat) : Nat :=
  let v := loopPhases (s.dividers i.ring i.sched i.axis) ph
  declaredTime s i.axis v.1 v.2 * 2500

/-- Finish bound of the items on one engine (R27), in thirds of a ps: arrival and work. -/
def finishBound (l : List (Nat × Nat)) : Nat :=
  l.foldl (fun m k => max m (k.1 + ((l.filter fun j => decide (k.1 ≤ j.1)).map fun j => j.2).sum)) 0

/-- Finish bound of a pool of `n` engines (R27), in thirds of a ps, rounded up. -/
def poolBound (n : Nat) (l : List (Nat × Nat)) : Nat :=
  l.foldl (fun m k => max m (k.1 + (((l.filter fun j => decide (k.1 ≤ j.1)).map fun j => j.2).sum + n - 1) / n)) 0 +
  l.foldl (fun m j => max m j.2) 0

/-- Number of engines of a mask. -/
def maskCount (m : Nat) : Nat := ((List.range 8).filter fun e => bit m e).length

/-- Largest F of engine `e` in a phase, over its fixed work and its pools, in thirds of a ps. -/
def engineBound (s : State) (w : List WorkItem) (e ph : Nat) : Nat :=
  let times (l : List WorkItem) : List (Nat × Nat) := l.map fun i => (3 * i.at_, itemWork s i ph)
  let fixed := finishBound (times (w.filter fun i => decide (fixedEngine i.mask = some e)))
  let pools := ((w.filter fun i => (fixedEngine i.mask).isNone && bit i.mask e).map fun i => i.mask).eraseDups
  pools.foldl (fun m k => max m (poolBound (maskCount k) (times (w.filter fun i => decide (i.mask = k))))) fixed

/-- The result of a check (R458): the objects of 0x3101, PREDICTED_FINISH in ns. -/
structure Admission where
  result : Nat
  ring : Nat
  ace : Nat := 0xFF
  phase : Nat := 0xFF
  margin : Int := 0
  finish : List Nat := []
deriving DecidableEq, Repr

/-- Condition 5 for a ring under a schedule (R29): every axis of the ring has exactly one valid entry. -/
def rateOk (s : State) (r sc : Nat) : Bool :=
  let l := entries4 (s.bytes Ob.Sched.AXIS_PLAN r sc)
  (axesOf s r).all fun a =>
    match l.filter fun e => decide (bits e 0 8 = a) with
    | [e] => decide (bits e 8 2 ≤ bits e 10 2 ∧ bits e 12 3 < 2 ^ bits e 10 2)
    | _ => false

/-- Condition 4: rings whose axes share an engine with those of a ring of another cycle length or whistle offset. -/
def placementBad (s : State) (w : List WorkItem) : List Nat :=
  let key (i : WorkItem) : Nat × Nat := (s.nat Ob.Sched.CYCLE_EXP i.ring i.sched, s.nat Ob.Sched.WHISTLE_OFFSET i.ring i.sched)
  (List.range 8).flatMap fun e =>
    let l := w.filter fun i => bit i.mask e
    if l.any fun i => decide (some (key i) ≠ (l.head?.map key)) then l.map fun i => i.ring else []

/-- Least number of a list, or a default. -/
def leastOf (l : List Nat) (d : Nat) : Nat := l.foldl min (l.headD d)

/-- The admission check over rings with their schedules (R24, R26, R458). -/
def admission (s : State) (l : List (Nat × Nat)) : Admission :=
  let w := workItems s l
  let bad1 := (l.filter fun x => decide (9216 < frameBytes s x.1 x.2 - 26)).map (·.1)
  let bad4 := placementBad s w
  let bad5 := (l.filter fun x => !rateOk s x.1 x.2).map (·.1)
  if !bad1.isEmpty then { result := 1, ring := leastOf bad1 0 }
  else if !bad4.isEmpty then { result := 4, ring := leastOf bad4 0 }
  else if !bad5.isEmpty then { result := 5, ring := leastOf bad5 0 }
  else
    -- margins in thirds of a ps, with ring, engine and phase
    let ringTerms : List (Int × Nat × Nat × Nat) :=
      l.map fun x => (3 * ((deadlinePs s x.1 x.2 : Int) - lastBack s x.1 x.2), x.1, 0xFF, 0xFF)
    let aceTerms : List (Int × Nat × Nat × Nat) := (List.range 8).flatMap fun e =>
      match w.find? fun i => bit i.mask e with
      | some i => (List.range 8).map fun ph => (3 * (deadlinePs s i.ring i.sched : Int) - engineBound s w e ph, i.ring, e, ph)
      | none => []
    let all := ringTerms ++ aceTerms
    let m := all.foldl (fun a b => if b.1 < a.1 then b else a) (all.headD (0, 0, 0xFF, 0xFF))
    { result := if ringTerms.any fun x => decide (x.1 < 0) then 2 else if aceTerms.any fun x => decide (x.1 < 0) then 3 else 0,
      ring := m.2.1, ace := m.2.2.1, phase := m.2.2.2, margin := m.1.fdiv 3000,
      finish := (List.range 8).map fun e => ((List.range 8).foldl (fun x ph => max x (engineBound s w e ph)) 0 + 2999) / 3000 }

/-- The rings that take part in a check, with their schedules (R24); `target` names a huddle's target schedules. -/
def takingPart (s : State) (target : Nat → Option Nat) : List (Nat × Nat) :=
  (List.range 4).filterMap fun r =>
    let st := s.get Ob.Ring.STATE r
    let start := s.nat Ob.Cyc.START_SCHEDULE 0 0 r
    if st = 5 then some (r, (target r).getD (s.sched r))
    else if (1 ≤ st ∧ st ≤ 4) ∨ s.flag Ob.Ring.ENABLE r = true then some (r, start)
    else if r = s.localRing ∧ !s.axesLocal.isEmpty then some (r, start)
    else none

/-! ### SPLIT_MARGIN (R382) -/

/-- Declared length in mm of segments `i`+1 to `j`; the far segment is number N + 1. -/
def spanLength (s : State) (r i j : Nat) : Nat :=
  ((List.range j).map fun k => if k < i then 0 else if k < s.nWorkers r then s.nat Ob.Wk.SEGMENT_LENGTH r (k + 1) else s.nat Ob.Ring.FAR_SEGMENT_LENGTH r).sum

/-- Arrival in ps at a unit that serves `n` workers over a cable of `len` mm, turned by the last of them, of the region of position `p`. -/
def turnedArrival (s : State) (r sc p n len : Nat) : Nat :=
  500000 + (n * fwdPs s r + 5 * len) + ((n - 1) * retPs s r + 5 * len) + tauPs s r * (22 + s.slotStart r sc p + s.slotSize r sc p) + landPs

/-- Arrival of position `p` of a ring cut behind position `j`, at the head end or at the far end: the own half by the turned path, the other
half 1.0 µs after its landing at the other unit. -/
def splitArrival (s : State) (r sc j : Nat) (far : Bool) (p : Nat) : Nat :=
  let n := s.nWorkers r
  let near := decide (p ≤ j)
  let a := if near then turnedArrival s r sc p j (spanLength s r 0 j) else turnedArrival s r sc p (n - j) (spanLength s r (j + 1) (n + 1))
  if near = far then a + 1000000 else a

/-- SPLIT_MARGIN in ns over the rings that take part: one ring cut at a time. -/
def splitMargin (s : State) (l : List (Nat × Nat)) : Int :=
  let w := workItems s l
  let terms : List Int := l.flatMap fun x =>
    if s.get Ob.Ring.FAR_END x.1 ≠ 1 then [] else
      (List.range (s.nWorkers x.1 + 1)).flatMap fun j => [false, true].flatMap fun far =>
        let v := w.map fun i => if s.onRing i.axis x.1 then { i with at_ := splitArrival s x.1 x.2 j far (s.nat Ob.Map.WORKER i.axis) } else i
        (List.range 8).flatMap fun e => match v.find? fun i => bit i.mask e with
          | some i => (List.range 8).map fun ph => 3 * (deadlinePs s i.ring i.sched : Int) - engineBound s v e ph
          | none => []
  match terms with
  | [] => 0
  | t :: u => (u.foldl min t).fdiv 3000

/-- The result of a check left in 0x3101 and 0x3102. Where conditions 2 and 3 are not evaluated PREDICTED_FINISH keeps its last values (assumption log 190). -/
def noteAdmission (s : State) (x : Admission) : State :=
  let s := ((((s.set Ob.Cyc.ADMIT_RESULT x.result).set Ob.Cyc.ADMIT_RING x.ring).set Ob.Cyc.ADMIT_ACE x.ace).set Ob.Cyc.ADMIT_PHASE x.phase).set
    Ob.Cyc.MARGIN (sat 32 x.margin)
  if x.finish.isEmpty then s else forBelow 8 (fun e s => s.set Ob.Cyc.PREDICTED_FINISH (x.finish.getD e 0) 0 0 e) s

/-- The admission check of a configuration run and its result noted: the state with it, and whether it passes. -/
def admissionCheck (s cfg : State) (target : Nat → Option Nat) : State × Bool :=
  let l := takingPart cfg target
  let x := admission cfg l
  ((noteAdmission s x).put1 Ob.PairX.SPLIT_MARGIN (sat 32 (splitMargin cfg l)), decide (x.result = 0))

/-- VALID of every schedule brought up to date (Table 02-11): the plan passes conditions 4 and 5. -/
def publishValid (s : State) : State :=
  forBelow 4 (fun r s => forBelow 8 (fun sc s => s.set Ob.Sched.VALID (bitAt (rateOk s r sc) 0) r sc) s) s

end Sys2Proof.Machine
end

