-- ==== Sys2Proof/Machine/Dict.lean ====
section
/-! DEFINITION. The object dictionary as hosts see it: places, type codes, the octets of values, what a Range column states of a value
alone (R103 to R106, R110, R130), and stored records (R126, R127, R362). -/

namespace Sys2Proof.Machine

/-! ### Places (R2, R3, R4, R103, R104) -/

/-- Instances (i, j) of an object row that stand at an index. -/
def Obj.at_ (o : Obj) (idx : Nat) : Option (Nat × Nat) :=
  (List.range o.n1).findSome? fun i =>
    let b := o.base + o.st1 * i
    if idx < b then none else
      let d := idx - b
      let j := if o.n2 ≤ 1 then o.j0 else d / o.st2
      if o.st2 * j = d ∧ o.j0 ≤ j ∧ j < o.j0 + o.n2 then some (i, j) else none

/-- Rows that stand at an index. -/
def rowsAt (idx : Nat) : List Obj := catalogue.filter fun o => (o.at_ idx).isSome

/-- The row of an object, or the status that tells why there is none (R103, R104, R130). -/
def lookup (idx sub : Nat) : Obj ⊕ Nat :=
  match rowsAt idx with
  | [] => .inr stNoObject
  | l => match l.find? fun o => decide (o.sub ≤ sub ∧ sub < o.sub + o.subn) with
    | some o => .inl o
    | none => .inr stNoSubindex

/-- The row at a dictionary key. -/
def rowOf (key : Nat) : Option Obj := match lookup (key / 256) (key % 256) with | .inl o => some o | .inr _ => none

/-- Every key of a row, in rising order of its instances. -/
def Obj.keys (o : Obj) : List Nat :=
  (List.range o.n1).flatMap fun i => (List.range o.n2).flatMap fun j => (List.range o.subn).map fun k => o.key i (o.j0 + j) k

/-! ### Types and octets (R7, R105, Tables 00-4 and 05-3) -/

/-- Type code of Table 05-3. -/
def Ty.code : Ty → Nat
  | .bool => 1 | .u8 => 2 | .u16 => 3 | .u32 => 4 | .u64 => 5 | .i8 => 6 | .i16 => 7 | .i32 => 8 | .i64 => 9 | .f32 => 10 | .q32 => 11
  | .time64 => 12 | .tod80 => 13 | .str => 14 | .domain => 15

/-- Bytes of a fixed-size type; 0 for STR and DOMAIN. -/
def Ty.size : Ty → Nat
  | .bool => 1 | .u8 => 1 | .u16 => 2 | .u32 => 4 | .u64 => 8 | .i8 => 1 | .i16 => 2 | .i32 => 4 | .i64 => 8 | .f32 => 4 | .q32 => 8
  | .time64 => 8 | .tod80 => 10 | .str => 0 | .domain => 0

/-- The type is STR or DOMAIN. -/
def Ty.isBytes : Ty → Bool
  | .str => true | .domain => true | _ => false

/-- The type is signed. -/
def Ty.signed : Ty → Bool
  | .i8 => true | .i16 => true | .i32 => true | .i64 => true | .q32 => true | _ => false

/-- Octets of a value (R7). -/
def valBytes (ty : Ty) (v : Val) : List Byte :=
  match v with
  | .bytes b => b
  | .num x =>
    match ty with
    | .tod80 => leBytes 6 (x / 1000000000).toNat ++ leBytes 4 (x % 1000000000).toNat
    | _ => leBytes ty.size (lowBits (8 * ty.size) x)

/-- A value from its octets; none where the length is not the type's (R105). A TOD80 whose nanoseconds reach 10⁹ is no time of day (Table 00-4): it stands as −1,
which no range takes. -/
def valOf (ty : Ty) (b : List Byte) : Option Val :=
  if ty.isBytes then some (.bytes b)
  else if b.length ≠ ty.size then none
  else match ty with
    | .tod80 => some (.num (if leNat (b.drop 6) < 1000000000 then ((leNat (b.take 6) * 1000000000 + leNat (b.drop 6) : Nat) : Int) else -1))
    | _ => some (.num (if ty.signed then toSigned (8 * ty.size) (leNat b) else leNat b))

/-- Octets that are valid UTF-8 (R110). -/
def utf8Ok : Nat → List Byte → Bool
  | _, [] => true
  | 0, _ => false
  | n + 1, b :: t =>
    let x := b.toNat
    let cont (k : Nat) : Bool := decide (k ≤ t.length) && (t.take k).all fun c => decide (c.toNat / 64 = 2)
    let s := (t.headD 0).toNat
    if x < 0x80 then utf8Ok n t
    else if 0xC2 ≤ x ∧ x < 0xE0 then cont 1 && utf8Ok n (t.drop 1)
    else if 0xE0 ≤ x ∧ x < 0xF0 then
      cont 2 && decide (x ≠ 0xE0 ∨ 0xA0 ≤ s) && decide (x ≠ 0xED ∨ s < 0xA0) && utf8Ok n (t.drop 2)
    else if 0xF0 ≤ x ∧ x < 0xF5 then
      cont 3 && decide (x ≠ 0xF0 ∨ 0x90 ≤ s) && decide (x ≠ 0xF4 ∨ s < 0x90) && utf8Ok n (t.drop 3)
    else false

/-! ### Range columns (R106) -/

/-- Codes 1 to 4 in the lower nibbles, 0 in every nibble above, at least one code (Table 03-18). -/
def layoutsOk (v : Nat) : Bool :=
  let n := layoutCount v
  decide (1 ≤ n) && (List.range 8).all fun c => if c < n then decide (1 ≤ bits v (4 * c) 4 ∧ bits v (4 * c) 4 ≤ 4) else decide (bits v (4 * c) 4 = 0)

/-- A source word (Table 08-7). -/
def sourceOk (v : Nat) : Bool :=
  decide (bits v 26 4 = 0 ∧ bits v 22 2 = 0 ∧ bits v 5 3 = 0) &&
  (match bits v 30 2 with
   | 0 => true
   | 1 => decide (bits v 0 5 ≤ 23)
   | 2 => decide (bits v 0 5 ≤ 7)
   | _ => false)

/-- A FOLLOW selection of one of the forms of Table 07-4. -/
def followSelOk (v : Nat) : Bool :=
  decide (v ≤ 11) || decide (v < 2048 ∧ bits v 2 6 = 0 ∧ bits v 0 2 ≤ 2) ||
  decide (v < 2 ^ 26 ∧ bits v 22 2 = 0 ∧ bits v 8 8 = 0 ∧ v % 2 = 0)

/-- An ABS_FORMAT word (Table 09-4). -/
def absFormatOk (v : Nat) : Bool := decide (bits v 12 4 ≤ 8 ∧ bits v 6 2 ≤ 2 ∧ bits v 3 3 ≤ 4 ∧ bits v 0 2 ≤ 2)

/-- A CHANNEL_SRC word (Table 17-4). -/
def chanSrcOk (v : Nat) : Bool :=
  let i := bits v 0 12
  match bits v 12 4 with
  | 0 => decide (i = 0)
  | 1 => decide (i ≤ 23)
  | 2 => decide (i ≤ 7)
  | 3 => decide (i ≤ 31)
  | 4 => decide (i ≤ 63)
  | 5 => decide (i ≤ 15)
  | 8 => decide (i % 256 < 24 ∧ i < 24)
  | 9 => decide (i < 24)
  | 10 => decide (i ≤ 11)
  | 11 => decide (i ≤ 15)
  | _ => false

/-- A PMC_CFG word (Table 17-1) of an ACE or of a management core. -/
def pmcCfgOk (mc : Bool) (v : Nat) : Bool :=
  let e := bits v 0 8
  decide (bits v 8 6 = 0) &&
  (if mc then decide (bits v 14 2 = 0) && (decide (e = 0) || decide (0x40 ≤ e ∧ e ≤ 0x48))
   else decide (e ≤ 0x14) && !(bit v 15 && decide (0x11 ≤ e)))

/-- What the Range column states of a DOMAIN's entries alone: AXIS_PLAN (Table 02-12), IO_SIZES (Table 02-11). -/
def domainOk (o : Obj) (b : List Byte) : Bool :=
  if o = Ob.Sched.AXIS_PLAN then (entries4 b).all fun e => decide (bits e 24 8 = 0 ∧ bits e 15 1 = 0)
  else if o = Ob.Sched.IO_SIZES then
    (entries4 b).all fun e => decide (1 ≤ bits e 0 8 ∧ bits e 0 8 ≤ 64 ∧ bits e 8 8 ≤ 32 ∧ bits e 16 8 ≤ 32 ∧ bits e 24 8 ≤ 7)
  else true

/-- The status of a value of the right type by its Range column alone (R106, R110). -/
def rangeStatus (o : Obj) (v : Val) : Nat :=
  match v with
  | .bytes b =>
    match o.rng with
    | .len lo hi m =>
      if b.length < lo ∨ hi < b.length ∨ (m ≠ 0 ∧ b.length % m ≠ 0) then stLength
      else if o.ty = .str ∧ utf8Ok b.length b = false then stRange
      else if domainOk o b then stOk else stRange
    | _ => stOk
  | .num x =>
    let ok : Bool := match o.rng with
      | .ints l => l.any fun e => decide (e.1 ≤ x ∧ x ≤ e.2)
      | .mult lo hi m => decide (lo ≤ x ∧ x ≤ hi ∧ (x - lo) % (max 1 m) = 0)
      | .f32 lo hi => f32Finite x && decide (lo ≤ f32Key x ∧ f32Key x ≤ hi)
      | .len _ _ _ => true
      | .chanLayouts => layoutsOk x.toNat
      | .control => decide (x < 128)
      | .sourceWord => sourceOk x.toNat
      | .followSel => followSelOk x.toNat
      | .absFormat => absFormatOk x.toNat
      | .chanSrc => chanSrcOk x.toNat
      | .pmcCfg => pmcCfgOk (decide (0xB020 ≤ o.base)) x.toNat
    if ok && (if o.ty = .tod80 then decide (0 ≤ x) else true) then stOk else stRange

/-! ### Values in force -/

/-- The value an object holds where nothing is listed for its key: its default (R5, R103); SERIAL is the unit's. -/
def Obj.default (o : Obj) : Val :=
  if o = Ob.Ident.SERIAL then .num unitSerial
  else if o.ty.isBytes then .bytes [] else .num o.dflt

/-- The value in force at a key of a row. -/
def valueAt (s : State) (o : Obj) (key : Nat) : Val := (SMap.get? s.od key).getD o.default

/-! ### Stored records (Tables 05-7 and 05-8) -/

/-- A stored record of a value at a key (Table 05-8). -/
def storedRecord (o : Obj) (key : Nat) (v : Val) : List Byte :=
  let b := valBytes o.ty v
  leBytes 2 (key / 256) ++ leBytes 1 (key % 256) ++ leBytes 1 o.ty.code ++ leBytes 4 b.length ++ b ++
  List.replicate ((4 - b.length % 4) % 4) 0

/-- Keys of every row that a test accepts, in order of index and subindex. -/
def keysWhere (f : Obj → Bool) : List (Nat × Obj) :=
  ((catalogue.filter f).flatMap fun o => o.keys.map fun k => (k, o)).mergeSort fun a b => decide (a.1 ≤ b.1)

/-- One bit of a reflected CRC-32C (R347). -/
def crc32cBit (c : Nat) : Nat := if c % 2 = 1 then (c / 2) ^^^ 0x82F63B78 else c / 2

/-- One byte of a reflected CRC-32C. -/
def crc32cByte (c : Nat) (b : Byte) : Nat :=
  let x := c ^^^ b.toNat
  crc32cBit (crc32cBit (crc32cBit (crc32cBit (crc32cBit (crc32cBit (crc32cBit (crc32cBit x)))))))

/-- CRC-32C over bytes (R347: polynomial 0x1EDC_6F41, reflected, initial value and final XOR 0xFFFF_FFFF). -/
def crc32c (l : List Byte) : Nat := (l.foldl crc32cByte 0xFFFFFFFF) ^^^ 0xFFFFFFFF

/-- SAFETY_CRC (R362): over the records of every SAF object in force, in order of index and subindex. -/
def safetyCrc (s : State) : Nat :=
  crc32c ((keysWhere fun o => decide (o.acc = .saf)).flatMap fun e => storedRecord e.2 e.1 (valueAt s e.2 e.1))

/-- SAFETY_CRC after SAF objects have changed (R362); a core whose check has passed so far expects the new value (assumption log 184). -/
def publishSafetyCrc (s : State) : State :=
  let c := safetyCrc s
  let s := if s.safe.crc = some (s.nat Ob.Isl.SAFETY_CRC) then { s with safe := { s.safe with crc := some c } } else s
  s.set Ob.Isl.SAFETY_CRC c

/-- Records of the stored image: every object of origin stored, with its value in force (R126). -/
def storedRecords (s : State) : SMap Val :=
  (keysWhere fun o => decide (o.org = .stored)).map fun e => (e.1, valueAt s e.2 e.1)

end Sys2Proof.Machine
end

