-- ==== Sys2Proof/Machine/Compare.lean ====
section
/-! DEFINITION. Edges handed to outputs (R99, R325), latch units (R245 to R248), compare units (R249 to R255) and the edges of
incremental inputs (R233 to R236). -/

namespace Sys2Proof.Machine

/-! ### Edges handed to outputs -/

/-- An edge queued for field output `q` (R325): the edge queue is kept in order of time. -/
def queueEdge (s : State) (q t : Nat) (lv : Bool) : State :=
  s.modField fun f => { f with edges := (f.edges.takeWhile fun e => e.1 ≤ t) ++ (t, q, lv) :: (f.edges.dropWhile fun e => e.1 ≤ t) }

/-- Level of a TP_OUT pin. -/
def setPin (s : State) (k : Nat) (lv : Bool) : State := { s with time := { s.time with tpOut := setBit s.time.tpOut k lv } }

/-- An edge of target 1–16 (FQ) is handed to the link; a pin (17–20) switches at the edge itself. -/
def planEdge (s : State) (target t : Nat) (lv : Bool) : State :=
  if 1 ≤ target ∧ target ≤ 16 then queueEdge s (target - 1) t lv else s

/-- A pin target switches at the present instant. -/
def pinEdge (s : State) (target : Nat) (lv : Bool) : State :=
  if 17 ≤ target ∧ target ≤ 20 then setPin s (target - 17) lv else s

/-! ### Compare units -/

/-- Position of a unit's source in 2⁻³² count. -/
def cmpPos (s : State) (u : Nat) : Int := (s.fbu (s.nat Ob.Cmp.POS_SOURCE u)).quad.ext * 2 ^ 32

/-- Direction of a compare unit: +1 POS, −1 NEG. -/
def cmpDir (s : State) (u : Nat) : Int := if s.get Ob.Cmp.DIRECTION u = 0 then 1 else -1

/-- Output lead L_out (R251). -/
def cmpLead (s : State) (u : Nat) : Nat := if s.nat Ob.Cmp.TARGET u ≤ 16 then 4000 else 200

/-- Gap between pulses (R254). -/
def cmpGap (s : State) (u : Nat) : Nat := if s.nat Ob.Cmp.TARGET u ≤ 16 then 2000 else 10

/-- Level of a compare output in its pulse (POLARITY). -/
def cmpLevel (s : State) (u : Nat) (pulse : Bool) : Bool := pulse != s.flag Ob.Cmp.POLARITY u

/-- NEXT_COUNT and NEXT_FRAC. -/
def cmpPublish (s : State) (u : Nat) : State :=
  let cv := (s.cmp u).cv
  (s.set Ob.Cmp.NEXT_COUNT (sat 64 (cv.fdiv (2 ^ 32))) u).set Ob.Cmp.NEXT_FRAC (lowBits 32 cv) u

/-- CV set to a value and brought ahead of the source by whole pitches, SKIPPED counted (R249, R252, R253, R255). -/
def cmpSet (s : State) (u : Nat) (cv : Int) : State :=
  let p := s.get Ob.Cmp.PITCH u
  let d := cmpDir s u
  let behind := d * (cmpPos s u - cv)
  let k : Int := if p ≤ 0 ∨ behind < 0 then 0 else behind / p + 1
  let s := if k = 0 then s else s.count Ob.Cmp.SKIPPED u 0 0 k
  cmpPublish (s.setCmp u { s.cmp u with cv := cv + d * k * p }) u

/-- A hit with hit time `th` committed to fire at `t` (R251, R252, R254): CV advances by PITCH, a new pulse is handed to the output or the last one
extended. With PITCH 0 it is the single hit of the arming (R249). -/
def cmpCommit (s : State) (u t th : Nat) (late : Bool) : State :=
  let x := s.cmp u
  let target := s.nat Ob.Cmp.TARGET u
  let width := s.nat Ob.Cmp.WIDTH u
  let pitch := s.get Ob.Cmp.PITCH u
  let merged := decide (0 < x.pulseEnd ∧ t < x.pulseEnd + cmpGap s u)
  let single := if pitch = 0 then some x.arming else none
  let s := s.setCmp u { x with committed := x.committed ++ [{ t := t, th := th, late := late, merged := merged, cv := x.cv, single := single }],
                               shot := decide (pitch = 0), cv := x.cv + cmpDir s u * pitch, pulseEnd := t + width }
  let fq := decide (1 ≤ target ∧ target ≤ 16)
  if fq && merged && x.level then queueEdge (dropEdges s (target - 1) (cmpLevel s u false)) (target - 1) (t + width) (cmpLevel s u false)
  else if merged then s
  else planEdge s target t (cmpLevel s u true)

/-- The single hit of a unit with PITCH 0 is committed (R249). -/
def cmpSpent (s : State) (u : Nat) : Bool := decide (s.get Ob.Cmp.PITCH u = 0) && (s.cmp u).shot

/-- Crossings at an edge of `t` that no committed prediction covers fire LATE, at the first instant the output allows (R250, R251). -/
def cmpCross : Nat → State → Nat → Nat → State
  | 0, s, _, _ => s
  | n + 1, s, u, t =>
    if !cmpSpent s u && decide (0 ≤ cmpDir s u * (cmpPos s u - (s.cmp u).cv)) then cmpCross n (cmpCommit s u (t + cmpLead s u) t true) u t else s

/-- Predictions of an edge at `t` with speed `v` (2⁻³² counts/s, not 0): every CV due before the next edge is committed (R251). -/
def cmpPredict : Nat → State → Nat → Nat → Nat → State
  | 0, s, _, _, _ => s
  | n + 1, s, u, t, v =>
    let x := s.cmp u
    let dt : Rat := mkRat ((cmpDir s u * (x.cv - cmpPos s u)).natAbs * 1000000000 : Nat) v
    let next : Rat := mkRat (1000000000 * 2 ^ 32) v
    if cmpSpent s u || decide (next ≤ dt - cmpLead s u) then s
    else
      let th := t + (roundRat dt).toNat
      let late := decide (dt < cmpLead s u)
      cmpPredict n (cmpCommit s u (if late then t + cmpLead s u else th) th late) u t v

/-- Values of CV within `d` (2⁻³² count) of the present one, and one more. -/
def cmpFuel (s : State) (u d : Nat) : Nat := d / max 1 (s.get Ob.Cmp.PITCH u).toNat + 2

/-- An edge against the direction of a unit, at `t`: committed hits whose CV the source has not reached and whose t_h lies ahead count as UNREACHED (R251). -/
def cmpReverse (s : State) (u t : Nat) : State :=
  let x := s.cmp u
  -- the position before this edge was one count further on
  let miss (h : CmpHit) : Bool := !h.unreached && decide (t < h.th) && decide (cmpDir s u * (cmpPos s u - h.cv) + 2 ^ 32 < 0)
  let n := (x.committed.filter miss).length
  let s := s.setCmp u { x with committed := x.committed.map fun h => { h with unreached := h.unreached || miss h } }
  if n = 0 then s else s.count Ob.Cmp.UNREACHED u 0 0 n

/-- One edge of the source at `t`, of direction `d`, judged by compare unit `u` (R250 to R255). -/
def cmpEdge (s : State) (u : Nat) (d : Int) (t : Nat) : State :=
  let src := s.nat Ob.Cmp.POS_SOURCE u
  if (s.fbu src).quad.fault then s else
    let s := if d ≠ cmpDir s u then cmpReverse s u t else s
    if s.get Ob.Cmp.STATE u ≠ 1 then s else
      let x := s.cmp u
      let s := if x.rearm then cmpSet (s.setCmp u { x with rearm := false }) u x.cv else s
      let x := s.cmp u
      let s := if x.corr = 0 then s else cmpSet (s.setCmp u { x with corr := 0 }) u (x.cv + x.corr)
      if d ≠ cmpDir s u then s
      else
        let s := cmpCross (cmpFuel s u (cmpPos s u - (s.cmp u).cv).natAbs) s u t
        let (v, pend) := unitSpeed s src t
        if pend || decide (v = 0) || decide (sgn v ≠ d) then s
        else cmpPredict (cmpFuel s u (2 ^ 32 + v.natAbs * cmpLead s u / 1000000000)) s u t v.natAbs

/-- Every compare unit on a source judges its edge. -/
def cmpEdges (s : State) (src : Nat) (d : Int) (t : Nat) : State :=
  forBelow 8 (fun u s => if s.nat Ob.Cmp.POS_SOURCE u = src then cmpEdge s u d t else s) s

/-- One hit fires (R252, R254); the single hit of the present arming makes the unit DONE (R249). -/
def cmpFire (s : State) (u : Nat) (h : CmpHit) : State :=
  let target := s.nat Ob.Cmp.TARGET u
  let s := (s.wrapInc Ob.Cmp.HITS u).set Ob.Cmp.LAST_HIT_TIME h.th u
  let s := if h.late then s.count Ob.Cmp.LATE u else s
  let s := if h.merged then s.count Ob.Cmp.MERGED u else s
  let x := s.cmp u
  let s := if h.single = some x.arming ∧ s.get Ob.Cmp.STATE u = 1 then s.set Ob.Cmp.STATE 2 u else s
  let started := !x.level
  let s := s.setCmp u { x with level := true }
  let s := pinEdge s target (cmpLevel s u true)
  let s := if started && decide (1 ≤ target ∧ target ≤ 16) then queueEdge s (target - 1) x.pulseEnd (cmpLevel s u false) else s
  cmpPublish s u

/-- Hits due at the present instant fire, in order (R251). -/
def cmpHits (s : State) (u : Nat) : State :=
  let x := s.cmp u
  let due := x.committed.takeWhile fun h => h.t ≤ s.now
  forList due (fun h s => cmpFire s u h) (s.setCmp u { x with committed := x.committed.dropWhile fun h => h.t ≤ s.now })

/-- The pulse of a unit ends (R254). -/
def cmpFall (s : State) (u : Nat) : State :=
  let x := s.cmp u
  if x.level ∧ x.pulseEnd ≤ s.now then pinEdge (s.setCmp u { x with level := false }) (s.nat Ob.Cmp.TARGET u) (cmpLevel s u false) else s

/-- COMPARE_ARM: ARM of unit `u` (R249). -/
def execCompareArm (u t : Nat) (s : State) : Host.Outcome State Fault Refusal := whileOn s t <|
  let s := s.at t
  let x := s.cmp u
  let s := ((s.setCmp u { x with corr := 0, rearm := false, arming := x.arming + 1, shot := false }).set Ob.Cmp.STATE 1 u).set Ob.Cmp.ARM 1 u
  .next (cmpSet s u (s.get Ob.Cmp.START_COUNT u * 2 ^ 32 + s.get Ob.Cmp.START_FRAC u))

/-- DISARM of unit `u` (R249): a committed hit still fires. -/
def execDisarm (u t : Nat) (s : State) : Host.Outcome State Fault Refusal := whileOn s t <| .next (((s.at t).set Ob.Cmp.STATE 0 u).set Ob.Cmp.DISARM 1 u)

/-- CORRECTION written to unit `u` (R252): added at the first edge after the write. -/
def execCorrection (u : Nat) (v : Int) (t : Nat) (s : State) : Host.Outcome State Fault Refusal := whileOn s t <|
  let s := (s.at t).set Ob.Cmp.CORRECTION v u
  .next (s.setCmp u { s.cmp u with corr := (s.cmp u).corr + v })

/-- COMPARE_HIT: a hit of unit `u` at t_h (R252). -/
def execCompareHit (u t : Nat) (s : State) : Host.Outcome State Fault Refusal := whileOn s t <| .next (cmpHits (s.at t) u)

/-- COMPARE_PULSE_FALL: the pulse of unit `u` ends (R254). -/
def execComparePulseFall (u t : Nat) (s : State) : Host.Outcome State Fault Refusal := whileOn s t <| .next (cmpFall (s.at t) u)

/-! ### Latch units -/

/-- An entry of EVENTS (Table 09-8). -/
def latchBytes (e : LatchEv) : List Byte :=
  leBytes 8 e.t ++ leBytes 8 (lowBits 64 e.cnt) ++ leBytes 2 e.frac ++ leBytes 1 (bitAt e.falling 0) ++ leBytes 1 e.seqNo ++ leBytes 4 0

/-- A latch unit replaced, with EVENTS brought up to it. -/
def putLatch (s : State) (l : Nat) (x : LatchRt) : State := (s.setLatch l x).setBytes Ob.Lat.EVENTS (x.fifo.flatMap latchBytes) l

/-- The integer position lies in the window (R247). -/
def inWindow (s : State) (l : Nat) (c : Int) : Bool :=
  let p := s.get Ob.Lat.WINDOW_PERIOD l
  let lo := s.get Ob.Lat.WINDOW_LO l
  let hi := s.get Ob.Lat.WINDOW_HI l
  if s.flag Ob.Lat.WINDOW_ENABLE l = false then true
  else if p = 0 then decide (lo ≤ c ∧ c < hi) else decide ((c - lo) % p < hi - lo)

/-- An entered event gives the axes bound to the unit their position and time (R248). -/
def latchAxes (s : State) (l : Nat) (e : LatchEv) : State :=
  let src := s.nat Ob.Lat.POS_SOURCE l
  forBelow 256 (fun a s =>
    if s.get Ob.Bind.LATCH_UNIT a = l then
      let p := sat 64 (toUnits s a (axisCount s a src e.cnt * 65536 + e.frac) 16 + s.get Ob.AxFb.POS_OFFSET a)
      (s.set Ob.Bind.LATCH_POSITION p a).set Ob.Bind.LATCH_TIME e.t a
    else s) s

/-- An entered event moves the axes bound to the unit and the compare units anchored on it (R248, R253). In a pair the axes take the active unit's events,
which it sends to the standby (R372). -/
def latchUse (s : State) (l : Nat) (e : LatchEv) : State :=
  let bound := (List.range 256).any fun a => decide (s.get Ob.Bind.LATCH_UNIT a = l)
  let s := if inPair s && isStandby s then s
    else if inPair s && bound then benchSend (latchAxes s l e) 5 [(l : Int), (e.t : Int), e.cnt, (e.frac : Int)]
    else latchAxes s l e
  forBelow 8 (fun u s =>
    if s.get Ob.Cmp.ANCHOR_LATCH u = (l : Int) + 1 ∧ s.get Ob.Cmp.STATE u = 1 then
      cmpSet s u (e.cnt * 2 ^ 32 + (e.frac : Int) * 65536 + s.get Ob.Cmp.ANCHOR_OFFSET u)
    else s) s

/-- One event that has become available: entered, missed or lost (R247). -/
def latchEnter (s : State) (l : Nat) (e : LatchEv) : State :=
  if s.get Ob.Lat.STATE l ≠ 1 ∨ inWindow s l e.cnt = false then s.count Ob.Lat.MISSED l
  else
    let x := s.latch l
    if 16 ≤ x.fifo.length then s.count Ob.Lat.LOST l
    else
      let e := { e with seqNo := x.seqNo }
      let s := putLatch s l { x with fifo := x.fifo ++ [e], seqNo := (x.seqNo + 1) % 256, last := some e, total := x.total + 1 }
      let s := if s.get Ob.Lat.MODE l = 0 then s.set Ob.Lat.STATE 2 l else s
      latchUse s l e

/-- Waiting events of a unit that are available at the present instant are entered, in order (R247). -/
def latchAvail (s : State) (l : Nat) : State :=
  let x := s.latch l
  let due := x.waiting.filter fun e => e.1 ≤ s.now
  forList due (fun e s => latchEnter s l e.2) (s.setLatch l { x with waiting := x.waiting.filter fun e => s.now < e.1 })

/-- A trigger edge of a latch unit at `t` (R245, R246). -/
def latchTrigger (s : State) (l t : Nat) (falling : Bool) : State :=
  let tr := s.nat Ob.Lat.TRIGGER l
  let src := s.nat Ob.Lat.POS_SOURCE l
  if tr = 0 ∨ (tr < 29 ∧ edgeWanted (s.get Ob.Lat.EDGE l) falling = false) then s
  else takeLatch s l t falling (if 29 ≤ tr ∧ tr - 29 = src then
    (match (s.fbu src).quad.index with | some (_, c) => (c, 0) | none => latchPosition s src t) else latchPosition s src t)

/-- LATCH_EVENT: a trigger edge of unit `l` at t_e (R245, R246). -/
def execLatchEvent (l t : Nat) (falling : Bool) (s : State) : Host.Outcome State Fault Refusal := whileOn s t <|
  .next (latchTrigger (s.at t) l t falling)

/-- LATCH_EVENT_AVAILABLE of unit `l` (R247). -/
def execLatchEventAvailable (l t : Nat) (s : State) : Host.Outcome State Fault Refusal := whileOn s t <| .next (latchAvail (s.at t) l)

/-- LATCH_ARM: ARM of unit `l` (R247). -/
def execLatchArm (l t : Nat) (s : State) : Host.Outcome State Fault Refusal := whileOn s t <| .next (((s.at t).set Ob.Lat.STATE 1 l).set Ob.Lat.ARM 1 l)

/-- LATCH_ACK: the `n` oldest entries removed (R247). -/
def execLatchAck (l n t : Nat) (s : State) : Host.Outcome State Fault Refusal := whileOn s t <|
  let s := s.at t
  let x := s.latch l
  .next ((putLatch s l { x with fifo := x.fifo.drop n }).set Ob.Lat.ACK n l)

/-! ### Edges of incremental inputs -/

/-- QUADRATURE_EDGE: A and B of unit `u` take new levels at `t`, held for `held` samples (R232 to R234). -/
def execQuadratureEdge (u : Nat) (a b : Bool) (t held : Nat) (s : State) : Host.Outcome State Fault Refusal :=
  let s := s.at t
  .next (if unitRuns s then
      let (s, d) := quadLevels s u a b t held
      if d = 0 then s else cmpEdges s u d t
    else
      let f := s.fbu u
      s.setFbu u { f with quad := { f.quad with a := a, b := b } })

/-- ILLEGAL_LIMIT: an illegal transition of unit `u` at `t`, judged against the limit (R234). -/
def execIllegalLimit (u t : Nat) (s : State) : Host.Outcome State Fault Refusal := whileOn s t <|
  let s := s.at t
  .next (if quadOn s u then illegalTransition s u t else s)

/-- INDEX_EVENT: Z of unit `u` takes a level at `t`, held for `held` samples (R235). -/
def execIndexEvent (u : Nat) (z : Bool) (t held : Nat) (s : State) : Host.Outcome State Fault Refusal :=
  let s := s.at t
  .next (if unitRuns s then indexLevel s u z t held
    else
      let f := s.fbu u
      s.setFbu u { f with quad := { f.quad with z := z } })

/-- WIRE: differential pair `pair` of ENC unit `u` inside the threshold window for 1 µs, or out of it again (R236). -/
def execWireFault (u pair : Nat) (inside : Bool) (t : Nat) (s : State) : Host.Outcome State Fault Refusal := whileOn s t <|
  let s := s.at t
  .next (if 8 ≤ u then s else wireReport s u pair inside)

/-- ABS_FRAME: the bits of a frame of ENC unit `u` after its request; `low`: the line was low before the first clock (R237, R238). -/
def execAbsFrame (u : Nat) (low : Bool) (l : List Bool) (t : Nat) (s : State) : Host.Outcome State Fault Refusal := whileOn s t <|
  let s := s.at t
  .next (if u < 8 ∧ 2 ≤ unitMode s u ∧ (s.fbu u).abs.req ≠ 0 then absReceive s u low l else s)

/-- ABS_ERR_LIMIT: consecutive invalid frames judged against the limit (R238). -/
def execAbsErrLimit (u t : Nat) (s : State) : Host.Outcome State Fault Refusal := whileOn s t <|
  let s := s.at t
  .next (if u < 8 ∧ 2 ≤ unitMode s u ∧ s.nat Ob.Fb.ABS_ERR_LIMIT u ≤ (s.fbu u).abs.badRun then unitFault s u else s)

/-- ABS_CHECK_PERIOD: a check frame of ENC unit `u` is due at the next whistle (R239). -/
def execAbsCheckPeriod (u t : Nat) (s : State) : Host.Outcome State Fault Refusal := whileOn s t <|
  let s := s.at t
  let f := s.fbu u
  let p := s.nat Ob.Fb.ABS_CHECK_PERIOD u * 1000000
  .next (if u < 8 ∧ unitMode s u = 3 ∧ 0 < p ∧ f.abs.lastCheck + p ≤ s.now then
    s.setFbu u { f with abs := { f.abs with checkDue := true, lastCheck := s.now } } else s)

/-- FB_HOLD_LIMIT: the run of invalid samples of axis `a` judged (R242). -/
def execFbHoldLimit (a t : Nat) (s : State) : Host.Outcome State Fault Refusal := whileOn s t <| .next (judgeHold (s.at t) a)

/-- CLEAR_FAULT of unit `u` (R234, R235, R243). -/
def execClearFault (u t : Nat) (s : State) : Host.Outcome State Fault Refusal := whileOn s t <|
  .next (if u < 8 then (clearUnitFault (s.at t) u).set Ob.Fb.CLEAR_FAULT 1 u else (clearUnitFault (s.at t) u).set Ob.FbMe.CLEAR_FAULT 1 (u - 8))

end Sys2Proof.Machine
end

