-- ==== Sys2Proof/Machine/Pulses.lean ====
section
/-! DEFINITION. Time-triggered pulses (R99, R100) and time latches (R101), and time of day (R80, R81). -/

namespace Sys2Proof.Machine

/-- Time of day at a machine time, in ns (R80). -/
def todAt (s : State) (t : Nat) : Int := (t * 65536 + s.time.todOff).fdiv 65536

/-- The machine time in 2⁻¹⁶ ns of a time of day in ns (R80). -/
def machineOf (s : State) (tod : Int) : Int := tod * 65536 - s.time.todOff

/-! ### Time-triggered pulses -/

/-- A pulse channel. -/
def State.ttp (s : State) (c : Nat) : TtpRt := SMap.getD s.time.ttps c {}
/-- The state with a pulse channel replaced. -/
def State.setTtp (s : State) (c : Nat) (x : TtpRt) : State := { s with time := { s.time with ttps := SMap.put s.time.ttps c x } }

/-- Instant of the rising edge `k` of a channel, on the 1 ns grid (R99). -/
def TtpRt.rise (x : TtpRt) (k : Nat) : Nat := (roundDiv (x.start + k * x.period) 65536).toNat
/-- Instant of the falling edge `k`: WIDTH after the exact rise, on the 1 ns grid (R99). -/
def TtpRt.fall (x : TtpRt) (k : Nat) : Nat := (roundDiv (x.start + k * x.period + x.width * 65536) 65536).toNat
/-- Instant of the next edge of a channel: the fall of a pulse in progress, or the next rise. -/
def TtpRt.next (x : TtpRt) : Nat := if x.high then x.fall x.k else x.rise x.k

/-- Output level of a channel (POLARITY). -/
def ttpLevel (s : State) (c : Nat) (pulse : Bool) : Bool := pulse != s.flag Ob.Ttp.POLARITY c

/-- PERIOD lies in its range for a TARGET (Table 04-9), in 2⁻¹⁶ ns: 0, or 10 µs (FQ) or 20 ns (otherwise) to 2⁴⁸ ns. -/
def ttpPeriodOk (target period : Nat) : Bool :=
  decide (period = 0) || decide ((if 1 ≤ target ∧ target ≤ 16 then 10000 else 20) * 65536 ≤ period ∧ period ≤ 2 ^ 64)

/-- WIDTH lies in its range for a TARGET and a PERIOD (Table 04-9): a margin of 2 µs (FQ) or 10 ns (otherwise) at both ends; PERIOD 0 bounds it from below only. -/
def ttpWidthOk (target period width : Nat) : Bool :=
  let m := if 1 ≤ target ∧ target ≤ 16 then 2000 else 10
  decide (m ≤ width) && (decide (period = 0) || decide ((width + m) * 65536 ≤ period))

/-- PERIOD or WIDTH of channel `c` written: RANGE outside the range for its TARGET and PERIOD (Table 04-9). -/
def ttpValueWrite (s : State) (o : Obj) (c n : Nat) : Act :=
  let target := s.nat Ob.Ttp.TARGET c
  if o = Ob.Ttp.PERIOD then (if ttpPeriodOk target n then (s, stOk) else (s, stRange))
  else if ttpWidthOk target (s.nat Ob.Ttp.PERIOD c) n then (s, stOk) else (s, stRange)

/-- ENABLE written to channel `c` (R99, R100): armed, armed late, or stopped. -/
def ttpEnable (s : State) (c : Nat) (on : Bool) : State :=
  let target := s.nat Ob.Ttp.TARGET c
  let st := s.get Ob.Ttp.STATUS c
  let running := decide (st = 1 ∨ st = 2)
  if on then
    let start := if s.get Ob.Ttp.TIMEBASE c = 0 then s.get Ob.Ttp.START c * 65536 else machineOf s (s.get Ob.Ttp.START_TOD c)
    let x : TtpRt := { start := start.toNat, period := s.nat Ob.Ttp.PERIOD c, width := s.nat Ob.Ttp.WIDTH c }
    let lead : Int := if 1 ≤ target ∧ target ≤ 16 then 5000 else 1000
    let s := if 1 ≤ target ∧ target ≤ 16 then dropEdges s (target - 1) (ttpLevel s c true) else s
    if roundDiv start 65536 < s.now + lead then
      (s.set Ob.Ttp.STATUS 4 c).set Ob.Ttp.ENABLE 0 c
    else
      let s := (((s.setTtp c x).set Ob.Ttp.STATUS 1 c).set Ob.Ttp.COUNT 0 c).set Ob.Ttp.ENABLE 1 c
      planEdge s target (x.rise 0) (ttpLevel s c true)
  else
    let s := s.set Ob.Ttp.ENABLE 0 c
    if running = false then s
    else if (s.ttp c).high then s.setTtp c { s.ttp c with stopping := true }
    else
      let s := if 1 ≤ target ∧ target ≤ 16 then dropEdges s (target - 1) (ttpLevel s c true) else s
      s.set Ob.Ttp.STATUS 0 c

/-- ENABLE written (R99): a channel whose PERIOD and WIDTH do not fit its TARGET is not armed, RANGE (assumption log 173). -/
def ttpWrite (s : State) (c : Nat) (on : Bool) : Act :=
  let target := s.nat Ob.Ttp.TARGET c
  if on = true ∧ (ttpPeriodOk target (s.nat Ob.Ttp.PERIOD c) && ttpWidthOk target (s.nat Ob.Ttp.PERIOD c) (s.nat Ob.Ttp.WIDTH c)) = false then (s, stRange)
  else (ttpEnable s c on, stOk)

/-- The next edge of channel `c`, due at the present instant (R99). -/
def ttpDue (s : State) (c : Nat) : State :=
  let st := s.get Ob.Ttp.STATUS c
  let x := s.ttp c
  let target := s.nat Ob.Ttp.TARGET c
  if (st ≠ 1 ∧ st ≠ 2) ∨ s.now < x.next then s
  else if x.high = false then
    let y := { x with high := true }
    let s := ((s.setTtp c y).set Ob.Ttp.STATUS 2 c).wrapInc Ob.Ttp.COUNT c
    planEdge (pinEdge s target (ttpLevel s c true)) target y.next (ttpLevel s c false)
  else
    let y := { x with high := false, k := x.k + 1, stopping := false }
    let s := pinEdge (s.setTtp c y) target (ttpLevel s c false)
    if x.stopping then s.set Ob.Ttp.STATUS 0 c
    else if x.period = 0 then s.set Ob.Ttp.STATUS 3 c
    else planEdge s target y.next (ttpLevel s c true)

/-- TTP_ENABLE: ENABLE of channel `c` written (R100). -/
def execTtpEnable (c : Nat) (on : Bool) (t : Nat) (s : State) : Host.Outcome State Fault Refusal := whileOn s t <| answer (ttpWrite (s.at t) c on)

/-- TTP_EDGE: a planned instant of channel `c` (R99). -/
def execTtpEdge (c t : Nat) (s : State) : Host.Outcome State Fault Refusal := whileOn s t <| .next (ttpDue (s.at t) c)

/-! ### Time latches -/

/-- A time latch. -/
def State.tlat (s : State) (l : Nat) : TLatRt := SMap.getD s.time.tlats l {}

/-- An entry of EVENTS (Table 04-10). -/
def stampBytes (e : Nat × Bool × Nat) : List Byte := leBytes 8 e.1 ++ leBytes 1 (bitAt e.2.1 0) ++ leBytes 1 e.2.2

/-- A time latch replaced, with EVENTS brought up to it. -/
def putTLat (s : State) (l : Nat) (x : TLatRt) : State :=
  ({ s with time := { s.time with tlats := SMap.put s.time.tlats l x } }).setBytes Ob.TLat.EVENTS (x.fifo.flatMap stampBytes) l

/-- A stamped edge of a latch's source (R101); a stamp already taken is the same event. -/
def takeStamp (s : State) (l t : Nat) (falling : Bool) : State :=
  let x := s.tlat l
  if s.get Ob.TLat.SOURCE l = 0 ∨ edgeWanted (s.get Ob.TLat.EDGE l) falling = false ∨ x.last = some (t, falling) then s
  else if 16 ≤ x.fifo.length then (putTLat s l { x with last := some (t, falling) }).count Ob.TLat.LOST l
  else putTLat s l { x with fifo := x.fifo ++ [(t, falling, x.seqNo)], seqNo := (x.seqNo + 1) % 256, last := some (t, falling) }

/-- TIME_LATCH_EVENT: an edge of the source of latch `l`, stamped `t` (R101). -/
def execTimeLatchEvent (l t : Nat) (falling : Bool) (s : State) : Host.Outcome State Fault Refusal := whileOn s t <|
  .next (takeStamp (s.at t) l t falling)

/-- ACK of time latch `l`: the `n` oldest entries removed (R101). -/
def execTimeLatchAck (l n t : Nat) (s : State) : Host.Outcome State Fault Refusal := whileOn s t <|
  let s := s.at t
  let x := s.tlat l
  .next ((putTLat s l { x with fifo := x.fifo.drop n }).set Ob.TLat.ACK n l)

end Sys2Proof.Machine
end

