-- ==== Sys2Proof/Machine/FieldIo.lean ====
section
/-! DEFINITION. Field inputs, outputs, brake channels and supply (R322 to R336): upstream frames and their records, diagnosis,
link loss and recovery. -/

namespace Sys2Proof.Machine

/-! ### Inputs at the head -/

/-- A field input is valid (R322, R329, R335, R336). -/
def fiValid (s : State) (i : Nat) : Bool :=
  decide (s.get Ob.Die.LINK_STATE = 1) && decide (s.get Ob.Die.SUPPLY_STATE ≤ 1) && !s.flag Ob.Inp.OPEN i &&
  decide ((s.field.inp i).validAt ≤ s.now)

/-- INPUT_VALID and the STATE of every input (Tables 13-9, 13-10). -/
def publishInputs (s : State) : State :=
  let w := ((List.range 24).map fun i => bitAt (fiValid s i) i).sum
  forBelow 24 (fun i s => s.set Ob.Inp.STATE (if bit w i then (if bit s.field.fi i then 1 else 0) else 2) i) (s.set Ob.Die.INPUT_VALID w)

/-- The field die at a whistle of LOCAL_RING (R17, R323): INPUTS takes the last good frame, the die latches encoder counters and
reports their speeds. In a pair the values of
the active unit at the whistle before are used (R372). -/
def whistleField (s : State) : State :=
  let on := (List.range 4).filter fun k => decide (unitMode s (8 + k) ≠ 0)
  let low := (List.range 4).map fun k => (s.fbu (8 + k)).quad.cnt % 4096
  let s := if on.isEmpty then s else s.modField fun f => { f with meDue := true, meLow := low }
  let s := forList on (fun k s =>
    let (v, pend) := unitSpeed s (8 + k) s.now
    s.modField fun f => f.queue 3 (meSpeedRec k v pend)) s
  let s := publishInputs s
  if inPair s then
    let held := s.pair.inputs
    let s := if isStandby s then s else { s with pair := { s.pair with inputs := (s.field.fi, s.nat Ob.Die.INPUT_VALID) } }
    (s.set Ob.Die.INPUTS held.1).set Ob.Die.INPUT_VALID held.2
  else s.set Ob.Die.INPUTS s.field.fi

/-- Third consecutive bad upstream frame (R322): LOST. -/
def judgeLost (s : State) : State :=
  if s.field.upBad < 3 ∨ s.get Ob.Die.LINK_STATE = 2 then s else
    let s := ((s.set Ob.Die.LINK_STATE 2).count Ob.Die.LINK_LOSS_COUNT).warn 322 0 0
    let s := publishInputs (s.modField fun f => { f with safeReq := true })
    forBelow 4 (fun k s => if unitMode s (8 + k) = 0 then s else unitFault s (8 + k)) s

/-- 1 000 consecutive good upstream frames (R323): SAFE_REQ is cleared, the link is GOOD. -/
def judgeRecovered (s : State) : State :=
  if s.field.safeReq ∧ 1000 ≤ s.field.upGood then
    publishInputs ((s.modField fun f => { f with safeReq := false }).set Ob.Die.LINK_STATE 1)
  else s

/-! ### Records at the head -/

/-- The delay of a record beyond its availability bound, in whole µs (R323). -/
def recordDelay (s : State) (bound : Nat) : State := s.raiseMax Ob.Die.RECORD_DELAY_MAX (min 65535 (((s.now - bound) + 999) / 1000 : Nat))

/-- A STAMP of input `i` (R101, R245): time latches, and position latches whose source the head decodes. -/
def takeInputStamp (s : State) (i t : Nat) (falling : Bool) : State :=
  let s := recordDelay s (t + debounceNs s i + 3000)
  let s := forBelow 8 (fun l s => if s.nat Ob.TLat.SOURCE l = i + 1 then takeStamp s l t falling else s) s
  forBelow 8 (fun l s => if s.nat Ob.Lat.TRIGGER l = i + 1 ∧ s.nat Ob.Lat.POS_SOURCE l < 8 then latchTrigger s l t falling else s) s

/-- An ME_SAMPLE (R323): each counter extended by nearest difference. -/
def takeMeSample (s : State) (rc : Nat) : State :=
  forBelow 4 (fun k s =>
    let u := 8 + k
    if unitMode s u = 0 ∨ (isStandby s = true ∧ inPair s = true) then s else
      let f := s.fbu u
      let low := bits rc (36 - 12 * k) 12
      let raw := lowBits 32 ((f.abs.raw0 : Int) + toSigned 12 (low + 4096 - f.abs.raw0 % 4096))
      (putUnit s u { f with abs := { f.abs with raw0 := raw, valid := !f.quad.fault, readyAt := some (max s.now (f.abs.t0 + 2000)) } }).set
        Ob.Fb.COUNT raw (fbIx u)) s

/-- An ME_SPEED (R323, R244): the speed estimate of a master encoder at the whistle. -/
def takeMeSpeed (s : State) (u : Nat) (v : Int) (pend : Bool) : State :=
  let f := s.fbu u
  if unitMode s u = 0 then s else
    (putUnit s u { f with abs := { f.abs with spd0 := v }, quad := { f.quad with pendingEst := pend } }).set Ob.Fb.SPEED v (fbIx u)

/-- A HIT of compare unit `u` on the die (R324): the head keeps its counters from it; a hit already counted is the same hit. -/
def takeHit (s : State) (u t : Nat) (late merged unreached : Bool) : State :=
  if s.get Ob.Cmp.LAST_HIT_TIME u = t then s else
    let s := (s.wrapInc Ob.Cmp.HITS u).set Ob.Cmp.LAST_HIT_TIME t u
    let s := if late then s.count Ob.Cmp.LATE u else s
    let s := if merged then s.count Ob.Cmp.MERGED u else s
    if unreached then s.count Ob.Cmp.UNREACHED u else s

/-- A STATUS record (Table 13-4): LOW entered raises WARN (Table 13-8). -/
def takeStatus (s : State) (rc : Nat) : State :=
  let st : Int := (bits rc 44 4 : Nat)
  let low := decide (st = 1 ∧ s.get Ob.Die.SUPPLY_STATE ≠ 1)
  let bad := (bits rc 16 8 + 256 - s.nat Ob.Die.BAD_DOWN % 256) % 256
  let s := ((s.set Ob.Die.SUPPLY_STATE st).set Ob.Die.VF (bits rc 32 12 : Nat)).set Ob.Die.DIE_TEMP ((bits rc 24 8 : Nat) - 64)
  let s := if bad = 0 then s else s.count Ob.Die.BAD_DOWN 0 0 0 bad
  publishInputs (if low then s.warn 335 0 1 else s)

/-- An OUT_DIAG record (R332): a new condition raises WARN. -/
def takeDiag (s : State) (rc : Nat) : State :=
  let q := bits rc 44 4
  let c : Int := (bits rc 40 4 : Nat)
  let fresh := decide (c ≠ 0 ∧ s.get Ob.Outp.DIAG q ≠ c)
  let s := (s.set Ob.Outp.DIAG c q).set Ob.Outp.LOAD_CURRENT ((bits rc 32 8 * 4 : Nat)) q
  if fresh then s.warn 332 q c.toNat else s

/-- A BRAKE_RB record (R334). -/
def takeBrake (s : State) (rc : Nat) : State :=
  let b := bits rc 45 3
  let m : Int := (bits rc 40 2 : Nat)
  let fresh := decide (m = 1 ∧ s.get Ob.Brk.MISMATCH b = 0)
  let s := ((s.set Ob.Brk.RB_H (bits rc 28 12 : Nat) b).set Ob.Brk.RB_L (bits rc 16 12 : Nat) b).set Ob.Brk.MISMATCH m b
  if fresh then s.count Ob.Brk.MISMATCH_COUNT b else s

/-- An IN_DIAG record (R329); an open input of an enabled master encoder sets WIRE and FAULT (R236). -/
def takeInDiag (s : State) (rc : Nat) : State :=
  let i := bits rc 43 5
  let o := decide (bits rc 40 3 = 1)
  let s := publishInputs (s.set Ob.Inp.OPEN (bitAt o 0) i)
  if i < 12 then wireReport s (8 + i / 3) (i % 3) o else s

/-- The record of a good upstream frame (Table 13-4). -/
def takeRecord (s : State) (kind rc : Nat) : State :=
  match kind with
  | 1 => takeMeSample s rc
  | 2 => if bits rc 43 5 < 24 then takeInputStamp s (bits rc 43 5) (nearest 40 s.now (bits rc 0 40)) (bit rc 42) else s
  | 3 =>
    if isStandby s = true ∧ inPair s = true then s else takeMeSpeed s (8 + bits rc 46 2) (toSigned 40 (bits rc 0 40) * 65536) (bit rc 45)
  | 4 => s.modField fun f => { f with latchTime := some (bits rc 45 3, bit rc 44, nearest 40 s.now (bits rc 0 40)) }
  | 5 =>
    match s.field.latchTime with
    | some (l, falling, t) =>
      let s := s.modField fun f => { f with latchTime := none }
      let ext := (s.fbu (s.nat Ob.Lat.POS_SOURCE l)).quad.ext
      let cnt := ext + toSigned 24 (bits rc 16 24 + 2 ^ 24 - lowBits 24 ext)
      if l = bits rc 45 3 then takeLatch (recordDelay s (latchReady s l t)) l t falling (cnt, bits rc 0 16) else s
    | none => s
  | 6 => takeHit s (bits rc 45 3) (nearest 40 s.now (bits rc 0 40)) (bit rc 44) (bit rc 43) (bit rc 42)
  | 7 => takeStatus s rc
  | 8 => takeDiag s rc
  | 9 => takeBrake s rc
  | 10 => if bits rc 43 5 < 24 then takeInDiag s rc else s
  | _ => s

/-- What the head does with an upstream frame of slot `t` as received (R321 to R323). -/
def headReceive (s : State) (t : Nat) (rx : List Byte) : State :=
  let f := s.field
  if linkGood 0x81 f.upLast (t / 1000) rx then
    let ctrl := beNat (slice rx 1 1)
    let fi := beNat (slice rx 2 3)
    let s := s.setField { f with upLast := some (ctrl / 16, t / 1000), upBad := 0, upGood := f.upGood + 1, fi := fi }
    judgeRecovered (takeRecord (if fi = f.fi then s else publishInputs s) (ctrl % 16) (beNat (slice rx 5 6)))
  else judgeLost ((s.setField { f with upBad := f.upBad + 1, upGood := 0 }).count Ob.Die.BAD_UP)

/-- The record of the next upstream frame (Table 13-4): kind, content, and the die after it. -/
def upRecord (s : State) : Nat × Nat × FieldRt :=
  let f := s.field
  if f.meDue then
    let low (k : Nat) : Nat := f.meLow.getD k 0
    (1, low 0 * 2 ^ 36 + low 1 * 2 ^ 24 + low 2 * 2 ^ 12 + low 3, { f with meDue := false })
  else match nextRec f.recs with
    | some i => ((f.recs.getD i (0, 0)).1, (f.recs.getD i (0, 0)).2, { f with recs := f.recs.eraseIdx i })
    | none => if 63 ≤ f.sinceStatus then (7, statusRec f, { f with sinceStatus := 0 }) else (0, 0, f)

/-- One upstream slot at `t`: the die sends its frame, the head takes it as it arrives 1.0 µs on (`rx`: what arrives in its place). -/
def upSlot (s : State) (t : Nat) (rx : Option (List Byte)) : State :=
  let s := if s.field.brakeAt + 1000000 ≤ t then
      s.modField fun f => (List.range 8).foldl (fun f b => f.queue 9 (brakeRec f b)) { f with brakeAt := t }
    else s
  let (kind, rc, f) := upRecord s
  let fi := ((List.range 24).map fun i => bitAt (f.inp i).level i).sum
  let frame := linkFrame 0x81 (upBody f.seqUp kind fi rc)
  let s := s.setField { f with seqUp := (f.seqUp + 1) % 16, sinceStatus := if kind = 7 then 0 else f.sinceStatus + 1 }
  headReceive (s.at (t + 1000)) t (rx.getD frame)

/-- UPSTREAM_FRAME: the frame of the slot at `t`, a whole microsecond of machine time; `rx` is what reaches the head where that differs from what the die sends (R319 to R324). -/
def execUpstreamFrame (t : Nat) (rx : Option (List Byte)) (s : State) : Host.Outcome State Fault Refusal := whileOn s t <|
  let s := s.at t
  .next (if s.now % 1000 = 0 then upSlot s s.now rx else s)

/-- LINK_LOST (R322). -/
def execLinkLost (t : Nat) (s : State) : Host.Outcome State Fault Refusal := whileOn s t <| .next (judgeLost (s.at t))

/-- LINK_RECOVERY (R323). -/
def execLinkRecovery (t : Nat) (s : State) : Host.Outcome State Fault Refusal := whileOn s t <| .next (judgeRecovered (s.at t))

/-! ### Inputs on the die -/

/-- The master encoder that decodes an input, where it is enabled (R328). -/
def inputMe (s : State) (i : Nat) : Bool := decide (i < 12) && decide (unitMode s (8 + i / 3) ≠ 0)

/-- A STAMP is sent for an input (R328): a time latch, a position latch or a homing method uses it. -/
def stampUsed (s : State) (i : Nat) : Bool :=
  ((List.range 8).any fun l => decide (s.nat Ob.TLat.SOURCE l = i + 1 ∨ s.nat Ob.Lat.TRIGGER l = i + 1)) ||
  (List.range 256).any fun a =>
    let w := s.nat Ob.Home.HOME_SOURCE a
    decide (s.get Ob.Home.HOME_METHOD a ≠ 0 ∧ bits w 30 2 = 1 ∧ bits w 0 5 = i)

/-- An accepted edge of an input, first crossed at `cross` (R328, R324). -/
def acceptInput (s : State) (i : Nat) (lv : Bool) (cross : Nat) : State :=
  let x := s.field.inp i
  if 24 ≤ i ∨ x.level = lv ∨ (inputMe s i = false ∧ s.now < cross + debounceNs s i) then s else
    let used := unitRuns s && stampUsed s i && !inputMe s i
    let s := s.modField fun f => f.setIn i { f.inp i with level := lv }
    let s := s.wrapInc Ob.Inp.EDGES i
    if used then
      let s := s.modField fun f => f.queue 2 (i * 2 ^ 43 + bitAt (!lv) 42 + cross % 2 ^ 40)
      forBelow 8 (fun l s => if s.nat Ob.Lat.TRIGGER l = i + 1 ∧ 8 ≤ s.nat Ob.Lat.POS_SOURCE l then latchTrigger s l cross (!lv) else s) s
    else s

/-- INPUT_EDGE_ACCEPTED: input `i` has held level `lv` since its first crossing at `cross` (R328). -/
def execInputEdgeAccepted (i : Nat) (lv : Bool) (cross t : Nat) (s : State) : Host.Outcome State Fault Refusal :=
  .next (acceptInput (s.at t) i lv cross)

/-- INPUT_OPEN: the current of input `i` has stayed below 0.3 mA for 10 ms (R329). -/
def execInputOpen (i t : Nat) (s : State) : Host.Outcome State Fault Refusal :=
  let s := s.at t
  .next (if s.flag Ob.Inp.OPEN_DETECT i ∧ (s.field.inp i).openIn = false then
    s.modField fun f => (f.setIn i { f.inp i with openIn := true }).queue 10 (i % 24 * 2 ^ 43 + 2 ^ 40) else s)

/-- INPUT_OPEN_CLEARED: the current of input `i` has stayed above 0.5 mA for 10 ms (R329). -/
def execInputOpenCleared (i t : Nat) (s : State) : Host.Outcome State Fault Refusal :=
  let s := s.at t
  .next (if (s.field.inp i).openIn then
    s.modField fun f => (f.setIn i { f.inp i with openIn := false }).queue 10 (i % 24 * 2 ^ 43) else s)

/-! ### Output stages -/

/-- An output latched at high impedance with a code (R332). -/
def latchOut (s : State) (q code ma : Nat) : State :=
  s.modField fun f => (f.setOut q { f.outp q with driven := false, latched := code, acked := false, openLoad := false }).queue 8 (diagRec q code ma)

/-- SHORT is not evaluated on a paired output for 100 µs after PAIRED_DRIVE sets (R333). -/
def shortBlanked (s : State) (q : Nat) : Bool :=
  s.flag Ob.Outp.PAIRED q && s.field.paired && decide (s.now < s.field.pairedFrom + 100000)

/-- OUTPUT_SHORT: output `q` in its limit for 50 µs; `other`: an output in the opposite limit for the last 40 µs (R332). -/
def execOutputShort (q : Nat) (other : Option Nat) (ma t : Nat) (s : State) : Host.Outcome State Fault Refusal :=
  let s := s.at t
  let x := s.field.outp q
  if x.driven = false ∨ shortBlanked s q = true then .next s
  else match other with
    | some r =>
      if (s.field.outp r).driven && ((s.field.outp r).level != x.level) then .next (latchOut (latchOut s q 4 ma) r 4 ma)
      else .next (latchOut s q (if x.level then 1 else 2) ma)
    | none => .next (latchOut s q (if x.level then 1 else 2) ma)

/-- OPEN_LOAD: output `q`, driven high, below 3 mA for 10 ms (R332). -/
def execOpenLoad (q ma t : Nat) (s : State) : Host.Outcome State Fault Refusal :=
  let s := s.at t
  let x := s.field.outp q
  .next (if s.flag Ob.Outp.OPEN_DETECT q && x.driven && x.level && !x.openLoad then
    s.modField fun f => (f.setOut q { x with openLoad := true }).queue 8 (diagRec q 3 ma) else s)

/-- OPEN_LOAD_CLEARED: the current of output `q` has stayed above 5 mA for 10 ms (R332). -/
def execOpenLoadCleared (q ma t : Nat) (s : State) : Host.Outcome State Fault Refusal :=
  let s := s.at t
  let x := s.field.outp q
  .next (if x.openLoad then s.modField fun f => (f.setOut q { x with openLoad := false }).queue 8 (diagRec q 0 ma) else s)

/-- OUT_ACK of output `q` (R332): driven again from the next frame. -/
def execOutAck (q t : Nat) (s : State) : Host.Outcome State Fault Refusal := whileOn s t <|
  let s := s.at t
  let x := s.field.outp q
  .next ((if x.latched = 0 then s else s.setField (s.field.setOut q { x with acked := true })).set Ob.Outp.OUT_ACK 1 q)

/-- OUT_VALUE of output `q` written (R327). -/
def execOutValue (q : Nat) (lv : Bool) (t : Nat) (s : State) : Host.Outcome State Fault Refusal := whileOn s t <|
  .next ((s.at t).set Ob.Outp.OUT_VALUE (bitAt lv 0) q)

/-! ### Brake channels and supply -/

/-- A reading agrees with its expected level (R334): high at least VF − 3 V, low at most 3 V. -/
def rbAgrees (vf rb : Nat) (high : Bool) : Bool := if high then decide (vf ≤ rb + 300) else decide (rb ≤ 300)

/-- The readings of a channel differ from Table 13-7. -/
def rbDiffers (f : FieldRt) (b h l : Nat) : Bool :=
  let e := expectRb (bit f.hs b) (bit f.ls b)
  !(rbAgrees f.vf h e.1 && rbAgrees f.vf l e.2)

/-- BRAKE_MISMATCH: the readings of channel `b` as they have stood for 200 µs (R334). -/
def execBrakeMismatch (b h l t : Nat) (s : State) : Host.Outcome State Fault Refusal :=
  let s := s.at t
  let f := s.field
  let m := if f.brakesAt + 1200000 ≤ s.now then rbDiffers f b h l else (f.brake b).mismatch
  let f := f.setBrake b { rbH := h, rbL := l, mismatch := m }
  .next (s.setField (f.queue 9 (brakeRec f b)))

/-- SUPPLY_STATE of the die changed, with a STATUS record (R323, R335). -/
def supplyTo (s : State) (st vf : Nat) : State :=
  s.modField fun f =>
    let f := { f with supply := st, vf := vf }
    let f := if 2 ≤ st then outputsOff f s.now else f
    f.queue 7 (statusRec f)

/-- SUPPLY_LOW: VF below 18 V for 100 µs (R335). -/
def execSupplyLow (vf t : Nat) (s : State) : Host.Outcome State Fault Refusal :=
  let s := s.at t
  .next (if s.field.supply = 0 ∧ vf < 1800 then supplyTo s 1 vf else s)

/-- SUPPLY_UNDER: VF below 14 V for 5 µs (R335). -/
def execSupplyUnder (vf t : Nat) (s : State) : Host.Outcome State Fault Refusal :=
  let s := s.at t
  .next (if s.field.supply ≠ 2 ∧ vf < 1400 then supplyTo s 2 vf else s)

/-- SUPPLY_OVER: VF above 33 V for 5 µs (R335). -/
def execSupplyOver (vf t : Nat) (s : State) : Host.Outcome State Fault Refusal :=
  let s := s.at t
  .next (if s.field.supply ≠ 3 ∧ 3300 < vf then supplyTo s 3 vf else s)

/-- SUPPLY_NORMAL: VF at or above 18.5 V for 100 µs (R335). -/
def execSupplyNormal (vf t : Nat) (s : State) : Host.Outcome State Fault Refusal :=
  let s := s.at t
  .next (if s.field.supply = 1 ∧ 1850 ≤ vf then supplyTo s 0 vf else s)

/-- SUPPLY_RESTORE: VF back in range for 10 ms (R335, R336). -/
def execSupplyRestore (vf t : Nat) (s : State) : Host.Outcome State Fault Refusal :=
  let s := s.at t
  .next (if (s.field.supply = 2 ∧ 1600 < vf) ∨ (s.field.supply = 3 ∧ vf < 3200) then
    outputsReturn (supplyTo s (if vf < 1800 then 1 else 0) vf) else s)

/-- RESTORE (R336): outputs and brake controls follow the frames again, or STATE. -/
def restoreField (s : State) : Act :=
  if s.get Ob.Die.LINK_STATE ≠ 1 ∨ 2 ≤ s.get Ob.Die.SUPPLY_STATE then (s, stState)
  else (s.modField fun f => { f with held := false }, stOk)

/-- RESTORE written (R336). -/
def execFieldRestore (t : Nat) (s : State) : Host.Outcome State Fault Refusal := whileOn s t <| answer (kept Ob.Die.RESTORE 1 (restoreField (s.at t)))

end Sys2Proof.Machine
end

