-- ==== Sys2Proof/Machine/LocalPort.lean ====
section
/-! DEFINITION. The local drive ports (R296 to R317): shadow registers and loads, period starts, dead time, the axis path, trips,
sigma-delta values, step output and step input. -/

namespace Sys2Proof.Machine

/-! ### Status -/

/-- FUNCTION of a port (Table 12-1). -/
def portFn (s : State) (p : Nat) : Int := s.get Ob.Port.FUNCTION p

/-- The axis mapped to a port, if any. -/
def portAxis (s : State) (p : Nat) : Option Nat := s.axesLocal.find? fun a => s.nat Ob.Map.LOCAL_PORT a = p

/-- A sigma-delta channel of a port. -/
def PortRt.chan (q : PortRt) (c : Nat) : SdRt := SMap.getD q.sd c {}

/-- STATUS of a port (Table 12-5). -/
def portStatus (q : PortRt) : Nat :=
  bitAt q.tripped 0 + bitAt q.tripInput 1 + bitAt q.armed.isSome 2 + bitAt q.cmpOver 3 + bitAt q.dropped 4 + bitAt q.ocSeen 5 +
  bitAt (q.chan 0).invalid 6 + bitAt (q.chan 1).invalid 7 + bitAt (q.chan 2).invalid 8 + bitAt q.step.halted 9 + bitAt q.step.delayed 10 +
  bitAt q.stepIn.pending 11

/-- A port replaced, with its status objects brought up to it. -/
def putPort (s : State) (p : Nat) (q : PortRt) : State :=
  ((s.setPort p q).set Ob.Port.STATUS (portStatus q) p).set Ob.Pwm.LOAD_ALL (if q.armed.isSome then 1 else 0) p

/-! ### Shadow registers and LOAD_ALL (R298, R304) -/

/-- The four shadow registers: PERIOD and three CMP. -/
def shadows (s : State) (p : Nat) : List Nat :=
  s.nat Ob.Pwm.PERIOD_SHADOW p :: (List.range 3).map fun k => s.nat Ob.Pwm.CMP_SHADOW p 0 k

/-- A shadow register written: 0 PERIOD, 1 to 3 CMP; STATE unless the function is PWM_DIRECT (R298, R304). -/
def shadowWrite (s : State) (p k : Nat) (v : Int) : Act :=
  if portFn s p ≠ 2 then (s, stState) else
    let q := s.port p
    let s := if q.heldAt = s.now ∧ !q.held.isEmpty then s else s.setPort p { q with held := shadows s p, heldAt := s.now }
    (if k = 0 then s.set Ob.Pwm.PERIOD_SHADOW v p else s.set Ob.Pwm.CMP_SHADOW v p 0 (k - 1), stOk)

/-- LOAD_ALL of a port set (R298). -/
def loadAll (s : State) (p : Nat) : Act :=
  if portFn s p ≠ 2 then (s, stState)
  else (putPort s p { s.port p with armed := some ((s.port p).armed.getD s.now) }, stOk)

/-- LOAD_ALL_MASK (R298): every port of the mask in one clock; STATE where one is not in PWM_DIRECT. -/
def loadAllMask (s : State) (m : Nat) : Act :=
  if m = 0 ∨ 255 < m then (s, stRange)
  else if (List.range 8).any fun p => bit m p && decide (portFn s p ≠ 2) then (s, stState)
  else (forBelow 8 (fun p s => if bit m p then (loadAll s p).1 else s) s, stOk)

/-- LOAD_ALL (B+0x2.05). -/
def execLoadAll (p t : Nat) (s : State) : Host.Outcome State Fault Refusal := whileOn s t <| answer (loadAll (s.at t) p)
/-- LOAD_ALL_MASK (0x8080.01). -/
def execLoadAllMask (m t : Nat) (s : State) : Host.Outcome State Fault Refusal := whileOn s t <| answer (kept Ob.Pwm.LOAD_ALL_MASK m (loadAllMask (s.at t) m))

/-! ### Period starts (R297 to R305) -/

/-- PERIOD of a PWM module: SERVO_PERIOD in SERVO, its shadow otherwise. -/
def pwmPeriod (s : State) (p : Nat) : Nat := if portFn s p = 1 then s.nat Ob.Pwm.SERVO_PERIOD p else s.nat Ob.Pwm.PERIOD_SHADOW p

/-- The active PERIOD; before the first load that of the module's configuration or shadow (assumption log 183). -/
def activePeriod (s : State) (p : Nat) : Nat := let v := s.nat Ob.Pwm.PERIOD_ACTIVE p; if v = 0 then pwmPeriod s p else v

/-- The instants, in 0.25 ns, at which the next period of a module starts by SYNC_SOURCE (R302): a count takes 1.25 ns. -/
def periodStarts (s : State) (p t : Nat) : List Nat :=
  let q := s.port p
  let phase := 5 * s.nat Ob.Pwm.SYNC_PHASE p
  let follow := match q.startQ with | some x => [x + 5 * activePeriod s p] | none => []
  match s.get Ob.Pwm.SYNC_SOURCE p with
  | 0 => if q.startQ.isNone then [4 * t] else follow
  | 1 => (4 * (s.ring s.localRing).tw + phase + 4) / 5 * 5 :: follow
  | _ => if p = 0 then [] else match (s.port (p - 1)).startQ with | some x => [x + phase] | none => []

/-- The period start of a module that falls into the nanosecond `t`, if any (R302). -/
def periodDue (s : State) (p t : Nat) : Option Nat :=
  (periodStarts s p t).find? fun x => decide (4 * t ≤ x ∧ x < 4 * t + 4) && decide ((s.port p).startQ ≠ some x)



/-- Four bits reversed (R300). -/
def rev4 (k : Nat) : Nat := bits k 0 1 * 8 + bits k 1 1 * 4 + bits k 2 1 * 2 + bits k 3 1

/-- High time H of a reference in period `k` (R299, R300). -/
def highTime (dither : Bool) (period cmp k : Nat) : Nat :=
  let h := if dither then cmp / 16 + (if rev4 (k % 16) < cmp % 16 then 1 else 0) else (roundDiv cmp 16).toNat
  min h period

/-- Count of a period at which a reference of high time `h` rises (R297): 0 UP, 1 DOWN, 2 UPDOWN. -/
def refRise (mode : Int) (p h : Nat) : Nat := match mode with | 0 => 0 | 1 => p - h | _ => (p - h) / 2

/-- High-side and low-side on-times of one period, and whether a pulse was dropped (Table 12-2). A reference that stays `high` across the start of
the period makes no transition there, so its pulse has no dead time (R301). -/
def onTimes (p h hl lh mn : Nat) (high : Bool) : Nat × Nat × Bool :=
  if h = 0 then (0, p, false)
  else if h = p then (p, 0, false)
  else if high = false ∧ h < hl + mn then (0, p, true)
  else if p < h + lh + mn then (p, 0, true)
  else (if high then h else h - hl, p - h - lh, false)

/-- √3/2 and 1/√3 as rationals with 64 fraction bits. -/
def halfSqrt3 : Rat := mkRat 15975348984942515102 (2 ^ 64)

/-- CMP values of a voltage vector (R303), in 1/16 count. -/
def servoCmp (period : Nat) (va vb : Int) : List Nat :=
  let a : Rat := (va : Rat)
  let b : Rat := -(va : Rat) / 2 + halfSqrt3 * vb
  let c : Rat := -(va : Rat) / 2 - halfSqrt3 * vb
  let mid := (max a (max b c) + min a (min b c)) / 2
  [a, b, c].map fun u =>
    let d := 1 / 2 + (u - mid) * invSqrt3 / (2 ^ 31 : Int)
    let d := max 0 (min 1 d)
    (roundRat (d * (period * 16 : Nat))).toNat

/-- A queue entry taken by a SERVO port (R303 to R305). -/
def takeServo (s : State) (p : Nat) (e : LoadEntry) : State :=
  let per := s.nat Ob.Pwm.SERVO_PERIOD p
  let l := servoCmp per e.a e.b
  let s := s.set Ob.Pwm.PERIOD_ACTIVE per p
  let s := forBelow 3 (fun k s => s.set Ob.Pwm.CMP_ACTIVE (l.getD k 0) p 0 k) s
  s.setPort p { s.port p with enabled := e.enable }

/-- The entry with tag `n` of a port's queue taken out, or LOAD_MISS (R304); nothing counts on a port that no axis names. -/
def takeEntry (s : State) (p n : Nat) (f : State → LoadEntry → State) : State :=
  let q := s.port p
  match q.queue.find? fun e => e.tag = n with
  | some e => f (s.setPort p { q with queue := q.queue.filter fun x => x.tag ≠ n, due := none }) e
  | none =>
    let s := s.setPort p { q with due := none }
    if (portAxis s p).isNone ∨ q.step.halted then s else s.count Ob.Port.LOAD_MISS p

/-- The active registers of a PWM_DIRECT port take an armed shadow transfer (R298): the clock of the start must come after the clock of
LOAD_ALL, and a shadow written in the clock of the start is left out. -/
def takeShadow (s : State) (p : Nat) : State :=
  let q := s.port p
  match q.armed with
  | some t0 =>
    if t0 < s.now then
      let l := if q.heldAt = s.now ∧ !q.held.isEmpty then q.held else shadows s p
      let s := s.set Ob.Pwm.PERIOD_ACTIVE (l.getD 0 0) p
      let s := forBelow 3 (fun k s => s.set Ob.Pwm.CMP_ACTIVE (l.getD (k + 1) 0) p 0 k) s
      putPort s p { s.port p with armed := none }
    else s
  | none => s

/-- Outputs of the period that starts (R297 to R301, R307). -/
def formPeriod (s : State) (p : Nat) : State :=
  let q := s.port p
  let per := activePeriod s p
  let k := s.nat Ob.Pwm.PERIODS p
  let cmp (j : Nat) : Nat := s.nat Ob.Pwm.CMP_ACTIVE p 0 j
  let h (j : Nat) : Nat := highTime (s.flag Ob.Pwm.DITHER p) per (cmp j) k
  let rise (j : Nat) : Nat := refRise (s.get Ob.Pwm.COUNT_MODE p) per (h j)
  let was (j : Nat) : Bool := match q.refs[j]? with | some r => decide (0 < r.2.1) && decide (per ≤ r.1 + r.2.1) | none => false
  let one (j : Nat) : Nat × Nat × Bool :=
    onTimes per (h j) (s.nat Ob.Pwm.DT_HL p) (s.nat Ob.Pwm.DT_LH p) (s.nat Ob.Pwm.MIN_PULSE p) (was j && decide (rise j = 0))
  let (a, b, c) := (one 0, one 1, one 2)
  let on := decide (portFn s p = 2) || (decide (portFn s p = 1) && q.enabled)
  let duty := if q.tripped then (if s.get Ob.Port.TRIP_STATE p = 1 ∧ portFn s p ≠ 3 then [0, per, 0, per, 0, per] else [0, 0, 0, 0, 0, 0])
    else if on then [a.1, a.2.1, b.1, b.2.1, c.1, c.2.1] else [0, 0, 0, 0, 0, 0]
  let high := (List.range 3).any fun j => decide (per * 16 < cmp j)
  putPort s p { q with duty := duty, dropped := q.dropped || a.2.2 || b.2.2 || c.2.2, cmpOver := q.cmpOver || high,
                       refs := (List.range 3).map fun j => (rise j, h j, was j) }

/-- An output of a phase is on at count `c` of the period in progress (R297, R301): even `k` high sides, odd ones low sides. The low side that
follows a fall turns on DT_LH later, also across the start of the period. -/
def outputOn (s : State) (p k c : Nat) : Bool :=
  let q := s.port p
  let per := activePeriod s p
  let on := q.duty.getD k 0
  let (rise, h, was) := q.refs.getD (k / 2) (0, 0, false)
  if on = 0 then false
  else if per ≤ on then true
  else if k % 2 = 0 then decide (rise + h - on ≤ c ∧ c < rise + h)
  else (decide (c < rise) && (!was || decide (s.nat Ob.Pwm.DT_LH p ≤ c))) || decide (rise + h + s.nat Ob.Pwm.DT_LH p ≤ c)

/-- Level of output pin `k` (UH, UL, VH, VL, WH, WL) of a port at the present instant (Table 12-1, R296): OUT_POLARITY inverts it. -/
def pinLevel (s : State) (p k : Nat) : Bool :=
  let q := s.port p
  let on := match portFn s p with
    | 3 => (match k with
      | 0 => (match q.step.lastRise with | some t0 => decide (s.now < t0 + s.nat Ob.Step.STEP_WIDTH p) | none => false)
      | 1 => q.step.dir
      | 2 => q.step.driveEn && !q.tripped
      | _ => false)
    | 0 => false
    | _ => outputOn s p k ((4 * s.now - q.startQ.getD 0) / 5)
  on != bit (s.nat Ob.Pwm.OUT_POLARITY p) k

/-- A period of PWM `p` starts at `x`, in 0.25 ns (R297 to R305). -/
def startPeriod (s : State) (p x : Nat) : State :=
  let s := (s.setPort p { s.port p with startQ := some x }).wrapInc Ob.Pwm.PERIODS p
  let s := match portFn s p with
    | 2 => takeShadow s p
    | 1 => (match (s.port p).due with
      | some n => takeEntry s p n fun s e => takeServo s p e
      | none => s)
    | _ => s
  formPeriod s p

/-- PWM_PERIOD_START: the period start of PWM `p` that falls into the nanosecond `t`, where one is due by SYNC_SOURCE (R297 to R305). -/
def execPwmPeriodStart (p t : Nat) (s : State) : Host.Outcome State Fault Refusal := whileOn s t <|
  let s := s.at t
  .next (match periodDue s p s.now with
    | some x => startPeriod s p x
    | none => s)

/-! ### Trips (R306, R307, R310, R312) -/

/-- A port trips with a cause (R306): latched, TRIP_STATE taken, a step output halted, and the axis FAULTED (R307, R192). -/
def tripPort (s : State) (p : Nat) (cause : Int) : State :=
  let q := s.port p
  if q.tripped then s else
    let per := activePeriod s p
    let low := decide (s.get Ob.Port.TRIP_STATE p = 1) && decide (portFn s p ≠ 3)
    let s := putPort s p { q with tripped := true, duty := if low then [0, per, 0, per, 0, per] else [0, 0, 0, 0, 0, 0] }
    let s := if s.get Ob.Port.TRIP_CAUSE p = 0 then s.set Ob.Port.TRIP_CAUSE cause p else s
    let s := s.count Ob.Port.TRIP_COUNT p
    match portAxis s p with
    | some a => faultAtOnce (if portFn s p = 3 then haltStep s a else s) a 13
    | none => if portFn s p = 3 then haltPort s p else s

/-- TRIP_N accepted active or inactive (R306). -/
def execTripInput (p : Nat) (active : Bool) (t : Nat) (s : State) : Host.Outcome State Fault Refusal :=
  let s := s.at t
  let s := putPort s p { s.port p with tripInput := active }
  .next (if active = true ∧ unitRuns s = true then tripPort s p 1 else s)

/-- TRIP_FORCE (R306). -/
def tripForce (s : State) (p : Nat) : Act := (tripPort s p 2, stOk)
/-- TRIP_FORCE (B+0x0.06). -/
def execTripForce (p t : Nat) (s : State) : Host.Outcome State Fault Refusal := whileOn s t <| answer (kept Ob.Port.TRIP_FORCE 1 (tripForce (s.at t) p) p)

/-- A cause that persists (R307). -/
def tripPersists (s : State) (p : Nat) : Bool :=
  let q := s.port p
  q.tripInput || (List.range 3).any fun c => (q.chan c).oc || (decide (portFn s p = 1) && (q.chan c).invalid && decide (c < s.nat Ob.Sd.SD_PHASES p))

/-- TRIP_CLEAR (R307): STATE while a cause persists; the outputs follow the active registers from the next period start. -/
def tripClear (s : State) (p : Nat) : Act :=
  if tripPersists s p then (s, stState)
  else ((putPort s p { s.port p with tripped := false, ocSeen := false }).set Ob.Port.TRIP_CAUSE 0 p, stOk)
/-- TRIP_CLEAR (B+0x0.05). -/
def execTripClear (p t : Nat) (s : State) : Host.Outcome State Fault Refusal := whileOn s t <| answer (kept Ob.Port.TRIP_CLEAR 1 (tripClear (s.at t) p) p)

/-! ### Sigma-delta (R308 to R312) -/

/-- Sums over every window of `r` consecutive values. -/
def movingSums (r : Nat) (l : List Nat) : List Nat := (List.range (l.length + 1 - r)).map fun i => ((l.drop i).take r).sum

/-- Sinc3 outputs of bits, newest first (R308): three cascaded moving sums. -/
def sinc3 (r : Nat) (l : List Bool) : List Nat := movingSums r (movingSums r (movingSums r (l.map fun b => if b then 1 else 0)))

/-- A sinc3 output normalised to Q1.31 (R308). -/
def sincNorm (r : Nat) (v : Nat) : Int := min (2 ^ 31 - 1) (roundDiv ((2 * (v : Int) - r ^ 3) * 2 ^ 31) (r ^ 3))

/-- SD_VALUE of a channel from its bits up to b₀, newest first (R309): the mean of SD_AVG outputs, R bits apart. -/
def sdValue (r n : Nat) (l : List Bool) : Int :=
  let o := (sinc3 r l).map fun v => sincNorm r v
  roundDiv (((List.range n).map fun k => o.getD (k * r) 0).sum) n

/-- Bits that the value of a whistle rests on (R308, R309). -/
def sdLength (r n : Nat) : Nat := 3 * r - 2 + (n - 1) * r

/-- The sigma-delta values of a whistle (R309): `sd` lists the channels (3·port + channel) whose bits are given, newest first. -/
def sampleSd (s : State) (sd : List (Nat × List Bool)) : State :=
  forList sd (fun e s =>
    let p := e.1 / 3
    let c := e.1 % 3
    let r := s.nat Ob.Sd.SD_OSR p
    let n := s.nat Ob.Sd.SD_AVG p
    if sdLength r n ≤ e.2.length then s.set Ob.Sd.SD_VALUE (sdValue r n e.2) p 0 c else s) s

/-- OVERCURRENT: the fast output of channel `c` of port `p` from its bits, newest first, judged against OC_LIMIT (R312). -/
def execOvercurrent (p c : Nat) (l : List Bool) (t : Nat) (s : State) : Host.Outcome State Fault Refusal := whileOn s t <|
  let s := s.at t
  let r := s.nat Ob.Sd.OC_OSR p
  let lim := q131 (s.get Ob.Sd.OC_LIMIT p)
  .next (match sinc3 r l with
    | [] => s
    | v :: _ =>
      let q := s.port p
      let high := decide (lim ≠ 0 ∧ lim < |sincNorm r v|)
      let s := putPort s p { q with sd := SMap.put q.sd c { q.chan c with oc := high }, ocSeen := q.ocSeen || high }
      if high then tripPort s p 3 else s)

/-- The last bits of a channel hold one level for SD_STUCK_LEN bits (R310). -/
def sdStuck (s : State) (p : Nat) (l : List Bool) : Bool :=
  let n := s.nat Ob.Sd.SD_STUCK_LEN p
  decide (n ≠ 0 ∧ n ≤ l.length) && ((l.take n).all (· = true) || (l.take n).all (· = false))

/-- SD_INVALID: channel `c` of port `p` judged from its last bits and the time without a clock edge (R310). -/
def execSdInvalid (p c : Nat) (l : List Bool) (noClock t : Nat) (s : State) : Host.Outcome State Fault Refusal := whileOn s t <|
  let s := s.at t
  let q := s.port p
  .next (if sdStuck s p l || (decide (s.get Ob.Sd.SD_CLK_MODE p = 1) && decide (1000 ≤ noClock)) then
      let s := putPort s p { q with sd := SMap.put q.sd c { q.chan c with invalid := true } }
      if portFn s p = 1 ∧ c < s.nat Ob.Sd.SD_PHASES p then tripPort s p 4 else s
    else s)

/-- SD_VALID: channel `c` of port `p` judged from its last bits, all taken with the clock present (R310). -/
def execSdValid (p c : Nat) (l : List Bool) (t : Nat) (s : State) : Host.Outcome State Fault Refusal := whileOn s t <|
  let s := s.at t
  let q := s.port p
  .next (if 3 * s.nat Ob.Sd.SD_OSR p ≤ l.length ∧ sdStuck s p l = false then putPort s p { q with sd := SMap.put q.sd c { q.chan c with invalid := false } } else s)

/-! ### Step output (R313 to R315) -/

/-- Target of a step entry in 2⁻¹⁶ step (R313); homing shifts are left out of the pulses. -/
def stepTarget (s : State) (p : Nat) (x : Int) : Int :=
  let sg : Int := if s.flag Ob.Step.STEP_INVERT p then -1 else 1
  roundDiv (sg * x * s.get Ob.Step.STEP_COUNTS p * 65536) (2 ^ 32 * max 1 (s.get Ob.Step.STEP_UNITS p))

/-- A queue entry taken by the step generator at a whistle (R304, R305, R313). -/
def takeStep (s : State) (p tc : Nat) (e : LoadEntry) : State :=
  let q := s.port p
  let x := stepTarget s p (e.a - e.b)
  let s := s.set Ob.Step.STEP_TARGET (x * 65536) p
  let st := q.step
  let st := if e.enable && !st.primed then { st with rPrev := x, at_ := roundDiv x 65536, primed := true } else { st with rPrev := st.rTgt }
  s.setPort p { q with enabled := e.enable,
                       step := { st with rTgt := x, tFrom := s.now, tTo := s.now + tc, driveEn := e.enable, primed := st.primed && e.enable } }

/-- The nanosecond of the 1.25 ns grid instant at which the reference reaches whole step `n` on its way to the target (R313); the load itself where
it stands there or beyond from the start. -/
def stepInstant (q : StepRt) (n : Int) : Nat :=
  let d := q.rTgt - q.rPrev
  let f : Rat := if d = 0 then 0 else ((n * 65536 - q.rPrev : Int) : Rat) / (d : Rat)
  if f ≤ 0 then q.tFrom else
    let at_ : Rat := (q.tFrom : Rat) + f * ((q.tTo - q.tFrom : Nat) : Rat)
    (roundRat (at_ * 4 / 5) * 5).toNat / 4

/-- The next step that the reference asks for at the present instant, with its direction and the instant it fell due (R313). -/
def stepAsked (q : StepRt) (now : Nat) : Option (Bool × Nat) :=
  let r := stepRef q now
  let nu := q.at_ + 1
  let nd := q.at_ - 1
  if r ≥ ((nu * 65536 : Int) : Rat) ∨ (nu * 65536 ≤ q.rTgt ∧ stepInstant q nu ≤ now) then some (true, stepInstant q nu)
  else if r ≤ ((nd * 65536 : Int) : Rat) ∨ (q.rTgt ≤ nd * 65536 ∧ stepInstant q nd ≤ now) then some (false, stepInstant q nd)
  else none

/-- A step of this cycle is delayed: RATE_LIMITED, counted once a cycle (R314). -/
def stepLate (s : State) (p : Nat) : State :=
  let q := s.port p
  if q.step.delayed then s else putPort (s.count Ob.Step.RATE_LIMIT_COUNT p) p { q with step := { q.step with delayed := true } }

/-- The step output of a port is at work. -/
def stepOn (s : State) (p : Nat) : Bool :=
  let q := s.port p
  decide (portFn s p = 3) && !q.step.halted && q.step.driveEn && !q.tripped

/-- One step of port `p` where the reference has reached the next whole step and the rate rules allow it (R313, R314). -/
def stepDue (s : State) (p : Nat) : State :=
  let q := s.port p
  let st := q.step
  match (if stepOn s p then stepAsked st s.now else none) with
  | none => s
  | some (up, due) =>
    let w := s.nat Ob.Step.STEP_WIDTH p
    let rateOk := match st.lastRise with | some t0 => decide (t0 + max 100 (2 * w) ≤ s.now) | none => true
    let dirOk := decide (st.dir = up)
    if !rateOk then stepLate s p
    else if !dirOk && decide (s.nat Ob.Step.DIR_SETUP p ≠ 0) then stepLate (s.setPort p { q with step := { st with dir := up, dirAt := s.now } }) p
    else if dirOk && decide (s.now < st.dirAt + s.nat Ob.Step.DIR_SETUP p) then stepLate s p
    else
      let d : Int := if up then 1 else -1
      let s := if due < s.now then stepLate s p else s
      let s := s.set Ob.Step.STEP_POSITION (s.get Ob.Step.STEP_POSITION p + d) p
      putPort s p { s.port p with step := { (s.port p).step with dir := up, at_ := st.at_ + d, lastRise := some s.now } }

/-- STEP_EMIT of port `p` (R313, R314). -/
def execStepEmit (p t : Nat) (s : State) : Host.Outcome State Fault Refusal := whileOn s t <| .next (stepDue (s.at t) p)

/-- STEP_HALT: a halt order reaches port `p` (R315, R204). -/
def execStepHalt (p t : Nat) (s : State) : Host.Outcome State Fault Refusal := whileOn s t <|
  let s := s.at t
  .next (if portFn s p ≠ 3 then s else
    let s := match portAxis s p with | some a => haltStep s a | none => haltPort s p
    putPort s p (s.port p))

/-! ### Step input (R316, R317) -/

/-- STEP_IN_EDGE: an accepted edge of port `p` with DIR high or low (R316). -/
def execStepInEdge (p : Nat) (dir : Bool) (t : Nat) (s : State) : Host.Outcome State Fault Refusal := whileOn s t <|
  let s := s.at t
  let q := s.port p
  let i := q.stepIn
  let d : Int := if dir then 1 else -1
  let run := runOf (addEdge i.run (s.nat Ob.Step.STEP_IN_STANDSTILL p) t d (i.ext + d))
  .next (if s.flag Ob.Step.STEP_IN_ENABLE p then
      putPort s p { q with stepIn := { cnt := lowBits 32 (i.cnt + d), ext := i.ext + d, run := trimEdges run (s.nat Ob.Step.STEP_IN_SPAN p),
                                       pending := decide (run.length < 2) } }
    else s)

/-- The step inputs at a whistle of LOCAL_RING (R317): STEP_IN_COUNT, STEP_IN_POSITION, the estimate. -/
def sampleStepIn (s : State) (p : Nat) : State :=
  if s.flag Ob.Step.STEP_IN_ENABLE p = false then s else
    let q := s.port p
    let i := q.stepIn
    let (v, pend) := edgeSpeed i.run (s.nat Ob.Step.STEP_IN_SPAN p) (s.nat Ob.Step.STEP_IN_STANDSTILL p) s.now
    let f : Int := match i.run with
      | k :: _ => if pend then 0 else k.d * min 65535 (roundDiv (|v| * ((s.now - k.t : Nat) : Int) * 65536) (2 ^ 32 * 1000000000))
      | [] => 0
    let s := (s.set Ob.Step.STEP_IN_COUNT i.cnt p).set Ob.Step.STEP_IN_POSITION (sat 64 (i.ext * 2 ^ 32 + f * 65536)) p
    putPort s p { q with stepIn := { i with pending := pend } }

/-! ### The ports at a whistle of LOCAL_RING (R304, R307, R309, R317) -/

/-- The local ports at the whistle of cycle `n`: step entries taken, PWM entries due, values sampled, per-cycle flags cleared, trips told
to the axes, TRIP_CLEAR issued while FAULT_RESET is 1 (R304, R307). -/
def whistlePorts (s : State) (n tc : Nat) (sd : List (Nat × List Bool)) : State :=
  let s := sampleSd s sd
  let s := forBelow 8 (fun p s =>
    -- a step still out at the end of the cycle has been delayed in it
    let s := match (if stepOn s p then stepAsked (s.port p).step s.now else none) with
      | some (_, due) => if due < s.now then stepLate s p else s
      | none => s
    let q := s.port p
    let s := s.setPort p { q with dropped := false, cmpOver := false, step := { q.step with delayed := false } }
    let tag := lowBits 32 ((n : Int) - 2)
    let s := match portFn s p with
      | 1 => s.setPort p { s.port p with due := some tag }
      | 3 =>
        let q := s.port p
        if (q.queue.find? fun e => e.tag = tag).isNone then
          takeEntry (s.setPort p { q with step := { q.step with rPrev := q.step.rTgt } }) p tag fun s _ => s
        else takeEntry s p tag fun s e => takeStep s p tc e
      | _ => s
    let s := sampleStepIn s p
    putPort s p (s.port p)) s
  forList s.axesLocal (fun a s =>
    let p := s.nat Ob.Map.LOCAL_PORT a
    if (s.port p).tripped then
      if (s.axis a).mot.state = .faulted ∧ bit (s.nat Ob.Ctl.CONTROL a) 4 = true then (tripClear s p).1
      else if (s.axis a).mot.state.powered then faultAtOnce s a 13 else s
    else s) s

end Sys2Proof.Machine
end

