-- ==== Sys2Proof/Machine/Sha.lean ====
section
/-! DEFINITION. SHA-256 (FIPS 180-4), as R358 and R426 use it. -/

namespace Sys2Proof.Machine

/-- The 32-bit words of a number written most significant word first, `n` words. -/
def wordsOf (n v : Nat) : List Word := (List.range n).map fun i => BitVec.ofNat 32 (v >>> (32 * (n - 1 - i)))

/-- Round constants, eight to a row: the first 32 fraction bits of the cube roots of the first 64 primes. -/
def shaRows : List Nat := [
  0x428A2F9871374491B5C0FBCFE9B5DBA53956C25B59F111F1923F82A4AB1C5ED5,
  0xD807AA9812835B01243185BE550C7DC372BE5D7480DEB1FE9BDC06A7C19BF174,
  0xE49B69C1EFBE47860FC19DC6240CA1CC2DE92C6F4A7484AA5CB0A9DC76F988DA,
  0x983E5152A831C66DB00327C8BF597FC7C6E00BF3D5A7914706CA635114292967,
  0x27B70A852E1B21384D2C6DFC53380D13650A7354766A0ABB81C2C92E92722C85,
  0xA2BFE8A1A81A664BC24B8B70C76C51A3D192E819D6990624F40E3585106AA070,
  0x19A4C1161E376C082748774C34B0BCB5391C0CB34ED8AA4A5B9CCA4F682E6FF3,
  0x748F82EE78A5636F84C878148CC7020890BEFFFAA4506CEBBEF9A3F7C67178F2]

/-- Round constants in order. -/
def shaRoundWords : List Word := shaRows.flatMap (wordsOf 8)

/-- Initial hash value: the first 32 fraction bits of the square roots of the first eight primes. -/
def shaStart : List Word := wordsOf 8 0x6A09E667BB67AE853C6EF372A54FF53A510E527F9B05688C1F83D9AB5BE0CD19

/-- Padded message: a bit 1, zeros, the length in bits, to whole blocks of 64 bytes. -/
def shaPad (l : List Byte) : List Byte :=
  let z := (119 - l.length % 64) % 64
  l ++ 0x80 :: List.replicate z 0 ++ (leBytes 8 (8 * l.length)).reverse

/-- The sixteen words of a block, most significant byte first. -/
def shaWords (b : List Byte) : List Word := (List.range 16).map fun i => BitVec.ofNat 32 (leNat ((b.drop (4 * i)).take 4).reverse)

/-- Message schedule: words still to be formed from the last sixteen, newest first. -/
def shaSchedule : Nat → List Word → List Word
  | 0, w => w
  | n + 1, w =>
    let at_ (k : Nat) : Word := w.getD (k - 1) 0
    let s0 := (at_ 15).rotateRight 7 ^^^ (at_ 15).rotateRight 18 ^^^ (at_ 15 >>> 3)
    let s1 := (at_ 2).rotateRight 17 ^^^ (at_ 2).rotateRight 19 ^^^ (at_ 2 >>> 10)
    shaSchedule n ((at_ 16 + s0 + at_ 7 + s1) :: w)

/-- One round: working variables a to h, a round constant and a schedule word. -/
def shaRound (v : List Word) (kw : Word × Word) : List Word :=
  match v with
  | [a, b, c, d, e, f, g, h] =>
    let s1 := e.rotateRight 6 ^^^ e.rotateRight 11 ^^^ e.rotateRight 25
    let ch := (e &&& f) ^^^ (~~~e &&& g)
    let t1 := h + s1 + ch + kw.1 + kw.2
    let s0 := a.rotateRight 2 ^^^ a.rotateRight 13 ^^^ a.rotateRight 22
    let mj := (a &&& b) ^^^ (a &&& c) ^^^ (b &&& c)
    [t1 + s0 + mj, a, b, c, d + t1, e, f, g]
  | _ => v

/-- One block compressed into the hash value. -/
def shaBlock (h : List Word) (b : List Byte) : List Word :=
  let w := (shaSchedule 48 (shaWords b).reverse).reverse
  let r := (shaRoundWords.zip w).foldl shaRound h
  h.zipWith (· + ·) r

/-- Blocks of a padded message, at most `n`. -/
def shaBlocks : Nat → List Word → List Byte → List Word
  | 0, h, _ => h
  | n + 1, h, l => if l.isEmpty then h else shaBlocks n (shaBlock h (l.take 64)) (l.drop 64)

/-- SHA-256 of bytes. -/
def sha256 (l : List Byte) : List Byte :=
  let p := shaPad l
  (shaBlocks (p.length / 64) shaStart p).flatMap fun w => (leBytes 4 w.toNat).reverse

end Sys2Proof.Machine
end

