-- ==== Sys2Proof/Machine/Safety.lean ====
section
/-! DEFINITION. The safety island (R338 to R366): referee phases, safe state and axis permission, safe brake control, the safety
sub-frame, dual-channel inputs, the brake test, password, safety session and change log. -/

namespace Sys2Proof.Machine

/-- The safety island changed. -/
def State.modSafe (s : State) (f : SafeRt → SafeRt) : State := { s with safe := f s.safe }
/-- The redundant pair changed. -/
def State.modPair (s : State) (f : PairRt → PairRt) : State := { s with pair := f s.pair }

/-- Operating time of the unit in ns, which MRAM keeps across resets (R341, R354, R359). -/
def opTime (s : State) : Nat := s.safe.opBase + s.now

/-- The unit safe state (R342): START, RECOVERY or HALT. -/
def unitSafe (s : State) : Bool := decide (s.get Ob.Isl.RF_STATE = 0 ∨ 3 ≤ s.get Ob.Isl.RF_STATE)

/-! ### Change log (R360, R361) -/

/-- Entries of the change log not yet exported. -/
def unexported (s : State) : Nat := s.safe.seqNo - s.safe.exported

/-- The objects of the change log (Table 14-7). -/
def publishLog (s : State) : State :=
  let u := unexported s
  ((s.set Ob.Isl.LOG_NEXT_SEQ (s.safe.seqNo + 1)).set Ob.Isl.UNEXPORTED u).set Ob.Isl.LOG_STATE (if 4096 ≤ u then 2 else if 3840 ≤ u then 1 else 0)

/-- The value field of an entry: its first 24 bytes, or the CRC-32C of a longer one. -/
def logValue (v : List Byte) : List Byte := if v.length ≤ 24 then slice v 0 24 else leBytes 4 (crc32c v) ++ List.replicate 20 0

/-- Bytes 0 to 55 of an entry (Table 14-5). An entry that names no object, axis or input carries INDEX, SUBINDEX and TYPE 0 (assumption log 184). -/
def logBody (s : State) (kind sess result idx sub typ : Nat) (v : List Byte) : List Byte :=
  leBytes 4 (s.safe.seqNo + 1) ++ leBytes 1 kind ++ leBytes 1 sess ++ leBytes 2 result ++ valBytes .tod80 (.num (todAt s s.now)) ++ leBytes 2 idx ++
  leBytes 1 sub ++ leBytes 1 typ ++ leBytes 2 v.length ++ logValue v ++ leBytes 4 (bits (s.nat Ob.Sess.PEER sess) 16 32) ++ leBytes 4 0

/-- An entry written to the change log; in FULL it is dropped and counted (R360, R361). -/
def logEntry (s : State) (kind sess result idx : Nat) (sub typ : Nat := 0) (v : List Byte := []) : State :=
  if 4096 ≤ unexported s then s.count Ob.Isl.EVENTS_DROPPED else
    let b := logBody s kind sess result idx sub typ v
    let c := crc32c (b ++ leBytes 4 s.safe.chain)
    let l := s.safe.log ++ [b ++ leBytes 4 c ++ leBytes 4 0]
    publishLog (s.modSafe fun f => { f with log := l.drop (l.length - 4096), seqNo := f.seqNo + 1, chain := c })

/-- Safety writes are refused (R361). -/
def logRefuses (s : State) : Bool := decide (3840 ≤ unexported s)

/-! ### Safe brake control (R344 to R346) -/

/-- The brake of an axis. -/
def State.sbc (s : State) (a : Nat) : SbcRt := SMap.getD s.safe.sbc a {}

/-- A brake changed, with its objects (Tables 13-12, 14-9). -/
def putSbc (s : State) (a : Nat) (b : SbcRt) : State :=
  let s := s.modSafe fun f => { f with sbc := SMap.put f.sbc a b }
  let s := s.put1 Ob.AxS.SBC_STATE (if b.fault then 2 else if b.pathA && b.pathB then 1 else 0) a
  if s.get Ob.AxS.BRAKE a = 1 then
    let c := s.nat Ob.AxS.BRAKE_CHANNEL a
    (s.put1 Ob.Brk.HS_ON (bitAt b.pathA 0) c).put1 Ob.Brk.LS_ON (bitAt b.pathB 0) c
  else s

/-- The axis is under a brake test. -/
def underTest (s : State) (a : Nat) : Bool := match s.safe.test with | some b => decide (b.axis = a) | none => false

/-- The axis requests release (R344). -/
def asksRelease (s : State) (a : Nat) : Bool :=
  let m := (s.axis a).mot
  m.state.powered && !(decide (m.state = .stopping) && decide (m.stopKind = some .brake))

/-- The gates and the core let the brake be released (R339, R344, R346, R379). -/
def mayRelease (s : State) (a : Nat) : Bool :=
  !unitSafe s && !underTest s a && !(s.sbc a).fault && decide (s.get Ob.AxS.SAFE_DEMAND a = 0 ∧ s.get Ob.AxS.BRAKE a ≠ 0) &&
  !(decide ((s.axis a).mot.state = .stopping) && decide ((s.axis a).mot.stopKind = some .brake)) &&
  (decide (s.get Ob.AxS.BRAKE a ≠ 1) || decide (s.get Ob.Pair.ROLE ≤ 1))

/-- SBC_STAGGER: 2 ms (R345). -/
def sbcStaggerNs : Nat := 2000000

/-- Both paths open at once (R342, R346). -/
def sbcOpen (s : State) (a : Nat) : State :=
  let b := s.sbc a
  if b.pathA || b.pathB || b.stagger.isSome then putSbc s a { b with pathA := false, pathB := false, stagger := none } else s

/-- The application of a brake (R345): path B opens and path A 2 ms later; a release whose path B has not closed ends at once. -/
def sbcApply (s : State) (a : Nat) : State :=
  let b := s.sbc a
  if b.pathB then putSbc s a { b with pathB := false, stagger := some (s.now + sbcStaggerNs), closing := false }
  else if b.pathA && b.closing then putSbc s a { b with pathA := false, stagger := none }
  else s

/-- The release of a brake (R345): path A closes and path B 2 ms later. -/
def sbcRelease (s : State) (a : Nat) : State :=
  let b := s.sbc a
  if b.pathA || b.pathB || b.stagger.isSome then s
  else putSbc s a { b with pathA := true, stagger := some (s.now + sbcStaggerNs), closing := true }

/-- An application demanded by the island or by a BRAKE stop, at the core's decision (R344). -/
def sbcDemand (s : State) : State :=
  forList (s.safe.sbc.map (·.1)) (fun a s => if mayRelease s a then s else if unitSafe s || (s.sbc a).fault then sbcOpen s a else sbcApply s a) s

/-- Release and application caused by the axis state at a whistle of ring `r` (R17, R344): the state that stood at the whistle before acts. A
local channel follows LOCAL_RING, a worker's brake its ring. -/
def sbcWhistle (s : State) (r : Nat) : State :=
  forBelow 256 (fun a s =>
    let k := s.get Ob.AxS.BRAKE a
    if (k = 1 ∧ r = s.localRing) ∨ (k = 2 ∧ s.onRing a r = true) then
      let b := s.sbc a
      let ask := asksRelease s a
      let s := if b.asked && mayRelease s a then sbcRelease s a else sbcApply s a
      if b.asked = ask then s else putSbc s a { s.sbc a with asked := ask }
    else s) s

/-- SBC_STAGGER of axis `a`: the second switch is due (R345). -/
def sbcSecond (s : State) (a : Nat) : State :=
  let b := s.sbc a
  match b.stagger with
  | some t => if t ≤ s.now then putSbc s a (if b.closing then { b with pathB := true, stagger := none } else { b with pathA := false, stagger := none }) else s
  | none => s

/-- SBC_STAGGER (R345). -/
def execSbcStagger (a t : Nat) (s : State) : Host.Outcome State Fault Refusal := whileOn s t <| .next (sbcSecond (s.at t) a)

/-- A readback mismatch of an axis's brake (R346): FAULT, both paths open, logged. -/
def sbcFault (s : State) (a : Nat) : State :=
  let b := s.sbc a
  if b.fault then s else logEntry (putSbc s a { b with pathA := false, pathB := false, stagger := none, fault := true }) 9 0xFF 0 a

/-- A worker position's safety answers. -/
def State.ssf (s : State) (r p : Nat) : SsfRt := SMap.getD s.safe.ssf (r * 128 + p) {}
/-- A worker position's safety answers replaced. -/
def State.setSsf (s : State) (r p : Nat) (x : SsfRt) : State := s.modSafe fun f => { f with ssf := SMap.put f.ssf (r * 128 + p) x }

/-- SSF of the position an axis is mapped to. -/
def axisSsf (s : State) (a : Nat) : SsfRt := s.ssf (s.nat Ob.Map.RING a) (s.nat Ob.Map.WORKER a)

/-- The readback shows the brake applied (R346). -/
def brakeApplied (s : State) (a : Nat) : Bool :=
  match s.get Ob.AxS.BRAKE a with
  | 1 =>
    let c := s.nat Ob.AxS.BRAKE_CHANNEL a
    decide (s.get Ob.Brk.RB_H c ≤ 300 ∧ s.get Ob.Brk.RB_L c ≤ 300)
  | 2 =>
    let c := s.nat Ob.Map.CHANNEL a
    bit (axisSsf s a).applied c && !bit (axisSsf s a).rbErr c
  | _ => false

/-- The readback of a paired channel differs from what the active unit's command gives (R379, Table 13-7), the command having stood for 1 ms and 200 µs
(R334). -/
def partnerMismatch (s : State) (c : Nat) : Bool :=
  let (w, t0) := s.pair.brakes
  isStandby s && decide (s.get Ob.Pair.PAIR_STATE = 2 ∧ t0 + 1200000 ≤ s.now) &&
  (decide (s.get Ob.Brk.RB_H c ≤ 300) == bit w c || decide (s.get Ob.Brk.RB_L c ≤ 300) == (bit w c && !bit w (c + 8)))

/-- Brake mismatches seen by the core in a safety cycle (R346). -/
def brakeChecks (s : State) : State :=
  forBelow 256 (fun a s =>
    match s.get Ob.AxS.BRAKE a with
    | 1 =>
      let c := s.nat Ob.AxS.BRAKE_CHANNEL a
      -- a paired channel of a unit that is not active follows the partner's command (R379)
      if bit (s.nat Ob.PairB.BRAKE_PAIRED) c = true ∧ 2 ≤ s.get Ob.Pair.ROLE then
        let s := if brakeApplied s a then s else s.modSafe fun f => { f with sbc := SMap.put f.sbc a { s.sbc a with seenFree := some s.now } }
        if partnerMismatch s c then sbcFault s a else s
      else if s.get Ob.Brk.MISMATCH c = 1 then sbcFault s a else s
    | 2 => if s.get Ob.Map.RING a < 4 ∧ bit (axisSsf s a).rbErr (s.nat Ob.Map.CHANNEL a) = true then sbcFault s a else s
    | _ => s) s

/-- SBC_RESET of an axis (R346). -/
def sbcReset (s : State) (a : Nat) : Act :=
  if brakeApplied s a then (logEntry (putSbc s a { s.sbc a with fault := false }) 9 0xFF 1 a, stOk) else (s, stState)

/-- SBC_RESET (0x9100 + a, .10). -/
def execSbcReset (a t : Nat) (s : State) : Host.Outcome State Fault Refusal := whileOn s t <| answer (kept Ob.AxS.SBC_RESET 1 (sbcReset (s.at t) a) a)

/-! ### Demands (R342, R343) -/

/-- A safety input pair. -/
def State.si (s : State) (k : Nat) : SiRt := SMap.getD s.safe.si k {}

/-- A demand on the axis beside those a brake test may start under (R343, R348, R355). -/
def demandBase (s : State) (a : Nat) : Bool :=
  unitSafe s || (s.sbc a).fault ||
  ((List.range 4).any fun k => (s.si k).set && bit (s.nat Ob.Si.GROUP_MASK k) (s.nat Ob.AxS.SAFETY_GROUP a)) ||
  (decide (s.get Ob.Map.RING a < 4) && (axisSsf s a).demand)

/-- SAFE_DEMAND of an axis (R343); FAILED and OVERDUE do not act during its own test (R354, R355). -/
def safeDemand (s : State) (a : Nat) : Bool :=
  demandBase s a || (!underTest s a && (s.safe.failed.contains a || decide (s.get Ob.AxS.BT_DUE a = 2)))

/-- SAFE_DEMAND of every axis brought up to date; a demand that begins faults the axis (R343). -/
def updateDemands (s : State) : State :=
  forBelow 256 (fun a s =>
    let d := safeDemand s a
    let was := decide (s.get Ob.AxS.SAFE_DEMAND a ≠ 0)
    let s := if d = was then s else s.set Ob.AxS.SAFE_DEMAND (bitAt d 0) a
    if d && (!was || (s.axis a).mot.state.powered) then faultAtOnce s a 17 else s) s

/-- The unit safe state held (R342): brakes applied, every local port tripped with cause FORCE, SAFE_DEMAND of every axis. -/
def safeHold (s : State) : State :=
  let s := s.put1 Ob.Isl.SAFE_STATE (bitAt (unitSafe s) 0)
  if unitSafe s then sbcDemand (updateDemands (forBelow 8 (fun p s => tripPort s p 2) s)) else updateDemands s

/-! ### The brake test: its end (R356, R357) -/

/-- The end of a brake test with a result: 2 PASSED, 3 FAILED, 4 INCONCLUSIVE, 5 ABORTED (R356, R357). -/
def btEnd (s : State) (b : BtRt) (res : Nat) : State :=
  let a := b.axis
  let s := s.modSafe fun f =>
    { f with test := none, passed := if res = 2 then SMap.put f.passed a (opTime s) else f.passed,
             failed := if res = 3 then a :: f.failed.filter (· ≠ a) else if res = 2 then f.failed.filter (· ≠ a) else f.failed }
  let s := (s.set Ob.AxS.BT_STATE res a).set Ob.AxS.BT_SLIP b.slip a
  let s := if s.get Ob.Isl.RF_STATE = 2 then s.set Ob.Isl.RF_STATE 1 else s
  let s := if res = 2 then (s.set Ob.AxS.BT_LAST (todAt s s.now) a).set Ob.AxS.BT_DUE 0 a else s
  let s := if res = 4 then s.warn 357 a 4 else s
  let s := if (s.axis a).mot.state = .enabled ∨ (s.axis a).mot.state = .arming then
      let s := s.modMot a fun m => if b.enabledByTest then { m.clearMotion with state := .disabled } else m
      publishState (s.modAxis a fun x =>
        { x with loop := { x.loop with xref := x.fb.xact, vref := 0, aref := 0 }, flags := { x.flags with power := x.flags.power && !b.enabledByTest } }) a
    else s
  updateDemands (logEntry s 8 0xFF res a)

/-- A brake test in progress aborted (R357). -/
def btAbort (s : State) : State := match s.safe.test with | some b => btEnd s b 5 | none => s

/-! ### Referee events (R340, R341) -/

/-- The unit is a standby's partner in step: an active unit with an eligible standby (R10, R341, R376). -/
def standbyEligible (s : State) : Bool := decide (s.get Ob.Pair.ROLE = 1) && s.flag Ob.Pair.ELIGIBLE

/-- The reaction UNIT (R185, Table 07-6). -/
def reactUnit (s : State) : State :=
  if s.get Ob.Pair.ROLE = 2 then (s.set Ob.Pair.PAIR_STATE 5).warn 185 0 5
  else if standbyEligible s then askPartner s 1
  else
    let s := if s.flag Ob.PairC.PAIR_ENABLE then s.count Ob.Pair.TAKEOVER_BLOCKED else s
    forBelow 256 (fun a s => if (s.axis a).mot.state.powered then react s a 4 else s) s

/-- An event of R340 or R341 with its cause (Table 14-7, LAST_CAUSE): RECOVERY, or HALT at the third event within an hour of operating
time and for a management-pair mismatch. -/
def refereeEvent (s : State) (cause : Nat) : State :=
  if s.get Ob.Isl.RF_STATE = 4 then s else
    let now := opTime s
    let ev := now :: s.safe.events.filter fun t => decide (now < t + 3600000000000)
    let halt := decide (cause = 8 ∨ 3 ≤ ev.length)
    let s := btAbort s
    let s := ((s.set Ob.Isl.LAST_CAUSE cause).count Ob.Isl.RECOVERY_COUNT).set Ob.Isl.RF_STATE (if halt then 4 else 3)
    let s := s.modSafe fun f => { f with events := ev, ready := false, tested := false, beatAt := none }
    let s := logEntry s 12 0xFF cause 0
    -- the restart of the core resets its mailbox endpoint (R394)
    let s := if halt then s else resetEndpoint s 13
    let s := if standbyEligible s then
        askPartner (forBelow 4 (fun r s => s.modRing r fun x => { x with txOn := false }) s) 2
      else if s.get Ob.Pair.ROLE = 1 ∧ s.flag Ob.PairC.PAIR_ENABLE = true then s.count Ob.Pair.TAKEOVER_BLOCKED else s
    safeHold s

/-- HEARTBEAT_FAULT: a heartbeat comes (`beat`), or none has come, judged against the window of R340. -/
def execHeartbeatFault (beat : Bool) (t : Nat) (s : State) : Host.Outcome State Fault Refusal := whileOn s t <|
  let s := s.at t
  .next (match s.safe.beatAt with
    | some b =>
      if b + 300000 < s.now ∨ (beat = true ∧ s.now < b + 200000) then refereeEvent s 1
      else if beat then s.modSafe fun f => { f with beatAt := some s.now } else s
    | none => s)

/-- CORE_FAULT: 2 ECC, 3 FLOW, 4 SELFTEST, 5 CLOCK, 8 a management-pair mismatch (R10, R340, R341). -/
def execCoreFault (cause t : Nat) (s : State) : Host.Outcome State Fault Refusal := whileOn s t <|
  let s := s.at t
  .next (if cause = 8 then (if standbyEligible s then reactUnit s else refereeEvent s 8)
    else if 2 ≤ cause ∧ cause ≤ 5 then refereeEvent s cause else s)

/-- A TEST phase longer than 5 s (R340). -/
def judgeTestTime (s : State) : State :=
  match s.safe.test with
  | some b => if s.get Ob.Isl.RF_STATE = 2 ∧ b.t0 + 5000000000 < s.now then refereeEvent s 7 else s
  | none => s

/-- TEST_TIMEOUT (R340). -/
def execTestTimeout (t : Nat) (s : State) : Host.Outcome State Fault Refusal := whileOn s t <| .next (judgeTestTime (s.at t))

/-- START or RECOVERY left for SERVICE (Table 14-1): self-test and configuration check passed, barrier link GOOD. -/
def judgeService (s : State) : State :=
  if (s.get Ob.Isl.RF_STATE = 0 ∨ s.get Ob.Isl.RF_STATE = 3) ∧ s.safe.ready = true ∧ s.get Ob.Die.LINK_STATE = 1 then
    judgeReady (safeHold (s.set Ob.Isl.RF_STATE 1))
  else s

/-- A HELLO of this unit: SERIAL, PAIR_PRIORITY, UNIT_END, whether its start-up self-test has passed, and whether it reports a restart (R369, R378,
R394). -/
def sendHello (s : State) (restarted : Bool := false) : State :=
  if s.flag Ob.PairC.PAIR_ENABLE = false then s
  else s.emit (.packet 2 9 [(unitSerial : Int), s.get Ob.PairC.PAIR_PRIORITY, s.get Ob.PairC.UNIT_END, bitAt s.safe.tested 0, bitAt restarted 0])

/-- The configuration check of a core that has passed its self-test, once the configuration step has ended (R362, R432): a mismatch keeps the
referee where it is with cause CONFIG. -/
def judgeConfig (s : State) : State :=
  if s.safe.tested = false ∨ s.safe.ready = true ∨ s.boot.configured = false then s
  else
    let c := safetyCrc s
    let s := s.set Ob.Isl.SAFETY_CRC c
    if s.safe.crc.isSome ∧ s.safe.crc ≠ some c then s.set Ob.Isl.LAST_CAUSE 6
    else judgeService (s.modSafe fun f => { f with ready := true, beatAt := none })

/-- The core's self-test completed (R339, R340, R432). -/
def coreStarted (s : State) (pass : Bool) : State :=
  if s.get Ob.Isl.RF_STATE ≠ 0 ∧ s.get Ob.Isl.RF_STATE ≠ 3 then s
  else if !pass then refereeEvent s 4
  else
    let s := judgeConfig (s.modSafe fun f => { f with tested := true })
    -- the partner of a yielded unit waits for its self-test (R378, R433)
    if s.get Ob.Pair.ROLE = 3 then sendHello s else s

/-- CORE_SELFTEST_COMPLETE (R339). -/
def execCoreSelftestComplete (pass : Bool) (t : Nat) (s : State) : Host.Outcome State Fault Refusal := whileOn s t <| .next (coreStarted (s.at t) pass)

/-! ### Dual-channel inputs (R351 to R353) -/

/-- A pair replaced, with SI_STATE. -/
def putSi (s : State) (k : Nat) (x : SiRt) : State :=
  let s := s.modSafe fun f => { f with si := SMap.put f.si k x }
  s.put1 Ob.Si.SI_STATE (if s.flag Ob.Si.SI_ENABLE k = false then 0 else if x.clear = 1 ∨ x.clear = 2 then 3 else if x.demand then 2 else 1) k

/-- A channel of a pair demands (R351): low, OPEN, INVALID, or the link LOST. -/
def siChannel (s : State) (i : Nat) : Bool := !(fiValid s i && bit s.field.fi i)

/-- Both channels of pair `k` (R330: SIk uses FI16 + 2k and FI17 + 2k). -/
def siChannels (s : State) (k : Nat) : Bool × Bool := (siChannel s (16 + 2 * k), siChannel s (17 + 2 * k))

/-- A disagreement judged at the first sample at or after its beginning + DISCREPANCY (R352). -/
def siJudge (s : State) (k : Nat) : State :=
  let x := s.si k
  let (d0, d1) := siChannels s k
  match x.since with
  | some t0 =>
    if d0 != d1 && decide (t0 + s.nat Ob.Si.DISCREPANCY k * 1000000 ≤ s.now) then
      logEntry ((putSi s k { x with since := none, clear := 1, demand := true }).count Ob.Si.DISC_COUNT k) 10 0xFF 0 k
    else s
  | none => s

/-- SI_DELAY after a delayed demand (R353). -/
def siDelayDue (s : State) (k : Nat) : State :=
  let x := s.si k
  match x.at_ with
  | some t => if t ≤ s.now ∧ x.demand = true then putSi s k { x with at_ := none, set := true } else s
  | none => s

/-- The beginning of a pair's demand (R353). -/
def siBegin (s : State) (k : Nat) : State :=
  let x := s.si k
  let d := s.nat Ob.Si.SI_DELAY k
  if d = 0 then putSi s k { x with demand := true, set := true }
  else
    let s := putSi s k { x with demand := true, at_ := some (s.now + d * 1000000) }
    forBelow 256 (fun a s =>
      if (s.axis a).mot.state = .enabled ∧ bit (s.nat Ob.Si.GROUP_MASK k) (s.nat Ob.AxS.SAFETY_GROUP a) = true then raiseFault s a 17 2 else s) s

/-- One sample of pair `k` (R351 to R353). -/
def siSample (s : State) (k : Nat) : State :=
  if s.flag Ob.Si.SI_ENABLE k = false then (if SMap.get? s.safe.si k = none then s else putSi s k {}) else
    let (d0, d1) := siChannels s k
    let x := s.si k
    let since := if d0 = d1 then none else if x.agreed then some s.now else x.since
    let clear := if x.clear = 1 ∧ d0 = true ∧ d1 = true then 2 else if x.clear = 2 ∧ d0 = false ∧ d1 = false then 3 else x.clear
    let s := putSi s k { x with agreed := decide (d0 = d1), since := since, clear := clear }
    let s := if (d0 || d1) && !x.demand then siBegin s k else s
    let s := siJudge s k
    let x := s.si k
    let s := if !d0 && !d1 && x.demand && decide (x.clear = 0 ∧ s.get Ob.Si.SI_RESTART k = 0) then putSi s k { x with demand := false, set := false, at_ := none } else s
    siDelayDue s k

/-- DISCREPANCY of pair `k` (R352). -/
def execDiscrepancy (k t : Nat) (s : State) : Host.Outcome State Fault Refusal := whileOn s t <| .next (siJudge (s.at t) k)
/-- SI_DELAY of pair `k` (R353). -/
def execSiDelay (k t : Nat) (s : State) : Host.Outcome State Fault Refusal := whileOn s t <| .next (safeHold (siDelayDue (s.at t) k))

/-- SAFETY_ACK (R352, R353): STATE while any channel of an enabled pair demands. -/
def safetyAck (s : State) : Act :=
  let en := (List.range 4).filter fun k => s.flag Ob.Si.SI_ENABLE k
  if en.any fun k => (siChannels s k).1 || (siChannels s k).2 then (s, stState)
  else
    let s := forList en (fun k s =>
      let x := s.si k
      if x.demand = true ∧ (x.clear = 0 ∨ x.clear = 3) then putSi s k { x with demand := false, set := false, at_ := none, clear := 0 } else s) s
    (safeHold (logEntry s 11 (s.nat Ob.Poss.CAPTAIN) 0 0), stOk)

/-- SAFETY_ACK (0x9000.06). -/
def execSafetyAck (t : Nat) (s : State) : Host.Outcome State Fault Refusal := whileOn s t <| answer (kept Ob.Isl.SAFETY_ACK 1 (safetyAck (s.at t)))

/-! ### The safety sub-frame (R347 to R349) -/

/-- CRC of a sub-frame or answer: its first four bytes under the virtual message of R347. -/
def ssfCrc (id cycle dir pos ring : Nat) (b : List Byte) : Nat :=
  crc32c (leBytes 4 id ++ leBytes 4 cycle ++ leBytes 1 dir ++ leBytes 1 pos ++ leBytes 1 ring ++ leBytes 1 0 ++ slice b 0 4)

/-- The downward sub-frame of a position in the frame of a cycle, as the referee passes it (R347 to R349, Table 14-1). -/
def subFrame (s : State) (r p cycle : Nat) : List Byte :=
  if s.safe.ready = false ∨ s.get Ob.Isl.RF_STATE = 4 then List.replicate 8 0 else
    let id := s.nat Ob.WkS.SAFETY_ID r p
    let safe := unitSafe s || decide (id = 0)
    let axes := (s.axesOn r).filter fun a => decide (s.nat Ob.Map.WORKER a = p ∧ s.get Ob.AxS.BRAKE a = 2)
    let word (f : Nat → Bool) : Nat := if safe then 0 else ((axes.filter f).map fun a => 2 ^ s.nat Ob.Map.CHANNEL a).sum % 256
    let test := !safe && axes.any fun a => underTest s a
    let b := leBytes 1 cycle ++ leBytes 1 (bitAt test 1 + bitAt safe 0) ++ leBytes 1 (word fun a => (s.sbc a).pathA) ++
      leBytes 1 (word fun a => (s.sbc a).pathB)
    b ++ leBytes 4 (ssfCrc id cycle 0 p r b)

/-- A position's answer in a returned frame judged (R348); none: the frame is missing. -/
def judgeAnswer (s : State) (r p cycle echo : Nat) (ans : Option (List Byte)) : State :=
  let id := s.nat Ob.WkS.SAFETY_ID r p
  if id = 0 then (if (s.ssf r p).demand then s.setSsf r p {} else s).put1 Ob.WkS.SSF_STATE 0 r p
  -- a core that is held in reset or in its self-test checks nothing (R341, R342)
  else if s.safe.ready = false ∨ s.get Ob.Isl.RF_STATE = 4 then s
  else
    let x := s.ssf r p
    let ok := match ans with
      | some b => decide (leAt b 0 1 = echo % 256 ∧ leAt b 4 4 = ssfCrc id cycle 1 p r b)
      | none => false
    if ok then
      let b := ans.getD []
      let w := leAt b 1 1
      let dem := bit w 7 || bit w 4
      let s := s.setSsf r p { bad := 0, demand := dem, applied := leAt b 2 1, rbErr := leAt b 3 1, wstate := w }
      (s.put1 Ob.WkS.SSF_STATE (if dem then 3 else 1) r p).put1 Ob.WkS.SSF_WSTATE w r p
    else
      let s := s.setSsf r p { x with bad := x.bad + 1, demand := x.demand || decide (8 ≤ x.bad + 1) }
      (s.put1 Ob.WkS.SSF_STATE 2 r p).count Ob.WkS.SSF_ERR r p

/-- SAFETY_ANSWER_LOSS: 8 consecutive frames without a valid answer from position `p` of ring `r` (R348). -/
def execSafetyAnswerLoss (r p t : Nat) (s : State) : Host.Outcome State Fault Refusal := whileOn s t <|
  let s := s.at t
  let x := s.ssf r p
  .next (if 8 ≤ x.bad then safeHold (s.setSsf r p { x with demand := true }) else s)

/-! ### The brake test (R354 to R357) -/

/-- An hour in ns. -/
def hourNs : Nat := 3600000000000

/-- Due-ness of an axis's brake test (R354): 0 OK, 1 DUE, 2 OVERDUE. -/
def btDueness (s : State) (a : Nat) : Int :=
  if s.get Ob.AxS.BRAKE a = 0 ∨ f32Key (s.get Ob.AxS.HOLD_LOAD a) ≤ 0 then 0 else
    let t := SMap.getD s.safe.passed a 0 + s.nat Ob.AxS.TEST_INTERVAL a * hourNs
    if opTime s < t then 0 else if opTime s < t + s.nat Ob.AxS.TEST_GRACE a * hourNs then 1 else 2

/-- BT_DUE of an axis brought up to date. -/
def judgeDue (s : State) (a : Nat) : State := s.put1 Ob.AxS.BT_DUE (btDueness s a) a

/-- TEST_INTERVAL of axis `a` (R354). -/
def execTestInterval (a t : Nat) (s : State) : Host.Outcome State Fault Refusal := whileOn s t <| .next (judgeDue (s.at t) a)
/-- TEST_GRACE of axis `a` (R354): OVERDUE sets SAFE_DEMAND. -/
def execTestGrace (a t : Nat) (s : State) : Host.Outcome State Fault Refusal := whileOn s t <| .next (safeHold (judgeDue (s.at t) a))

/-- BT_START of an axis (R355, R356). -/
def btStart (s : State) (a : Nat) : Act :=
  let m := (s.axis a).mot
  let enable := bit (s.nat Ob.Ctl.CONTROL a) 0
  let idle := decide (m.state = .disabled) && !enable
  if s.get Ob.Isl.RF_STATE ≠ 1 ∨ s.safe.test.isSome = true ∨ (idle = false ∧ ¬ (m.state = .enabled ∧ m.mode = 0)) ∨ s.get Ob.Mach.STOP_ACTIVE ≠ 0 ∨
      demandBase s a = true then (s, stState)
  else
    let s := s.modSafe fun f => { f with test := some { axis := a, t0 := s.now, enable := enable, stops := s.get Ob.Mach.STOP_COUNT, enabledByTest := idle } }
    let s := ((s.set Ob.Isl.RF_STATE 2).set Ob.AxS.BT_STATE 1 a).set Ob.AxS.BT_SLIP 0 a
    let s := sbcApply (updateDemands s) a
    (if idle && armConditions s a then enterArming s a else s, stOk)

/-- BT_START (0x9100 + a, .0A). -/
def execBtStart (a t : Nat) (s : State) : Host.Outcome State Fault Refusal := whileOn s t <| answer (kept Ob.AxS.BT_START 1 (btStart (s.at t) a) a)

/-- ENGAGE_TIME after the test's start (R356): x₀ is latched and the torque profile starts. -/
def btEngage (s : State) (a : Nat) : State :=
  match s.safe.test with
  | some b =>
    if b.axis = a ∧ b.x0 = none ∧ b.t0 + s.nat Ob.AxS.ENGAGE_TIME a * 1000000 ≤ s.now then
      s.modSafe fun f => { f with test := some { b with x0 := some (s.axis a).fb.xact } }
    else s
  | none => s

/-- ENGAGE_TIME of axis `a` (R356). -/
def execEngageTime (a t : Nat) (s : State) : Host.Outcome State Fault Refusal := whileOn s t <| .next (btEngage (s.at t) a)

/-- The core's checks of a test in a safety cycle, and the end of its profile (R356, R357). -/
def btCheck (s : State) : State :=
  match s.safe.test with
  | none => s
  | some b =>
    let a := b.axis
    if btAborted s b then btEnd s b 5
    else match b.x0 with
      | none => s
      | some x0 =>
        let p := s.now - (b.t0 + s.nat Ob.AxS.ENGAGE_TIME a * 1000000)
        let tq := s.get Ob.Map.TORQUE_ACTUAL a
        let need := btTorque s a * 9
        let slip := max b.slip |(s.axis a).fb.xact - x0|
        let b := { b with slip := slip,
                          maxPos := if 50000000 ≤ p ∧ p ≤ 250000000 then max b.maxPos tq else b.maxPos,
                          maxNeg := if 350000000 ≤ p ∧ p ≤ 550000000 then max b.maxNeg (-tq) else b.maxNeg }
        let s := (s.modSafe fun f => { f with test := some b }).put1 Ob.AxS.BT_SLIP slip a
        if s.get Ob.AxS.MAX_SLIP a < slip then btEnd s b 3
        else if (250000000 ≤ p ∧ b.maxPos * 10 < need) ∨ (550000000 ≤ p ∧ b.maxNeg * 10 < need) then btEnd s b 4
        else if 600000000 ≤ p then btEnd s b 2
        else s

/-- BT_PROFILE_END: the end of the profile or a failed check (R356, R357). -/
def execBtProfileEnd (t : Nat) (s : State) : Host.Outcome State Fault Refusal := whileOn s t <| .next (btCheck (s.at t))

/-! ### The safety cycle (R338, R340) -/

/-- The seconds left of a lockout (Table 14-7). -/
def lockoutLeft (s : State) : Nat := match s.safe.lockUntil with | some t => (t - opTime s + 999999999) / 1000000000 | none => 0

/-- What the core does in a safety cycle once it is ready (R338). -/
def coreCycle (s : State) : State :=
  let s := forBelow 4 (fun k s => siSample s k) s
  let s := brakeChecks s
  let s := match s.safe.test with | some b => btEngage s b.axis | none => s
  let s := judgeTestTime (btCheck s)
  let s := forBelow 256 (fun a s => judgeDue s a) s
  let s := s.put1 Ob.Isl.LOCKOUT_LEFT (lockoutLeft s)
  judgeService (sbcDemand (updateDemands s))

/-- SAFETY_CYCLE: one safety cycle at `t`, a multiple of 250 µs (R338); its heartbeat is judged under R340. -/
def safetyRun (s : State) : State :=
  if s.safe.ready = false then safeHold s else
    let bad := match s.safe.beatAt with | some b => decide (b + 300000 < s.now ∨ s.now < b + 200000) | none => false
    if bad then refereeEvent s 1 else coreCycle (s.modSafe fun f => { f with beatAt := some s.now })

/-- SAFETY_CYCLE (R338). -/
def execSafetyCycle (t : Nat) (s : State) : Host.Outcome State Fault Refusal := whileOn s t <| .next (if t % 250000 = 0 then safetyRun (s.at t) else s.at t)

/-! ### Password and safety session (R358, R359) -/

/-- The factory password: islia- and the serial as eight upper-case hexadecimal digits (R358). -/
def factoryPassword : List Byte :=
  let hex (n : Nat) : Nat := if n < 10 then 48 + n else 55 + n
  [0x69, 0x73, 0x6C, 0x69, 0x61, 0x2D] ++ (List.range 8).map fun i => BitVec.ofNat 8 (hex (bits unitSerial (28 - 4 * i) 4))

/-- A password is the one in force (R358). -/
def passwordRight (s : State) (pw : List Byte) : Bool :=
  if s.safe.factory then decide (pw = factoryPassword) else decide (sha256 (s.safe.salt ++ pw) = s.safe.hash)

/-- The safety session closed (R359), logged. -/
def safetyClose (s : State) : State :=
  match s.safe.session with
  | some (_, h, _) => logEntry ((s.modSafe fun f => { f with session := none }).set Ob.Isl.SAFETY_SESSION 0xFF) 6 h 0 0
  | none => s

/-- The safety session that a session holds, if it does. -/
def holdsSafety (s : State) (sess : Nat) : Option Nat :=
  match s.safe.session with
  | some (n, h, _) => if h = sess then some n else none
  | none => none

/-- A use of the safety session (R359): a SAF write or a login. -/
def safetyUsed (s : State) : State := s.modSafe fun f => { f with session := f.session.map fun x => (x.1, x.2.1, s.now) }

/-- SAFETY_LOGIN of a session (R358, R359, R361). -/
def safetyLogin (s : State) (sess : Nat) (pw : List Byte) : Act :=
  if logRefuses s then (s, stSafetyLocked)
  else if (match s.safe.lockUntil with | some t => decide (opTime s < t) | none => false) then (s, stSafetyLocked)
  else if passwordRight s pw then
    let n := match holdsSafety s sess with | some n => n | none => s.safe.sessions + 1
    let s := s.modSafe fun f => { f with session := some (n, sess, s.now), sessions := max f.sessions n, failures := 0, lockUntil := none }
    (logEntry (((s.set Ob.Isl.SAFETY_SESSION sess).set Ob.Isl.FAILED_ATTEMPTS 0).put1 Ob.Isl.LOCKOUT_LEFT 0) 3 sess 0 0, stOk)
  else
    let n := min 5 (s.safe.failures + 1)
    let s := logEntry ((s.modSafe fun f => { f with failures := n }).set Ob.Isl.FAILED_ATTEMPTS n) 4 sess stSafetyLocked 0
    let s := if n = 5 then
        let s := s.modSafe fun f => { f with lockUntil := some (opTime s + 900000000000) }
        logEntry (s.set Ob.Isl.LOCKOUT_LEFT 900) 5 sess 0 0
      else s
    (s, stSafetyLocked)

/-- Sixteen random bytes. -/
def freeBytes : Nat → State → List Byte × State
  | 0, s => ([], s)
  | n + 1, s =>
    let (x, s) := s.freeDraw 8
    let (l, s) := freeBytes n s
    (BitVec.ofNat 8 x :: l, s)

/-- NEW_PASSWORD of a session (R358, R361). -/
def newPassword (s : State) (sess : Nat) (pw : List Byte) : Act :=
  if logRefuses s || (holdsSafety s sess).isNone then (s, stSafetyLocked)
  else if pw.length < 8 ∨ 32 < pw.length ∨ (pw.all fun b => decide (0x20 ≤ b.toNat ∧ b.toNat ≤ 0x7E)) = false ∨ passwordRight s pw = true then (s, stRange)
  else
    let (salt, s) := freeBytes 16 s
    let s := s.modSafe fun f => { f with salt := salt, hash := sha256 (salt ++ pw), factory := false }
    (logEntry (safetyUsed (s.set Ob.Isl.FACTORY_PASSWORD 0)) 7 sess 0 0, stOk)

/-- SAFETY_LOGOUT (R359). -/
def safetyLogout (s : State) : Act := (safetyClose s, stOk)
/-- SAFETY_LOGOUT (0x9001.02). -/
def execSafetyLogout (t : Nat) (s : State) : Host.Outcome State Fault Refusal := whileOn s t <| answer (kept Ob.Isl.SAFETY_LOGOUT 1 (safetyLogout (s.at t)))

/-- SESSION_TIMEOUT judged (R359). -/
def execSessionTimeout (t : Nat) (s : State) : Host.Outcome State Fault Refusal := whileOn s t <|
  let s := s.at t
  .next (match s.safe.session with
    | some (_, _, u) => if u + s.nat Ob.Isl.SESSION_TIMEOUT * 60000000000 ≤ s.now then safetyClose s else s
    | none => s)

/-- LOCKOUT_END judged (R359). -/
def execLockoutEnd (t : Nat) (s : State) : Host.Outcome State Fault Refusal := whileOn s t <|
  let s := s.at t
  .next (match s.safe.lockUntil with
    | some u => if u ≤ opTime s then (s.modSafe fun f => { f with lockUntil := none }).set Ob.Isl.LOCKOUT_LEFT 0 else s
    | none => s)

/-- LOG_EXPORTED written (R361). -/
def logExported (s : State) (v : Int) : Act :=
  if v < s.safe.exported ∨ s.safe.seqNo < v then (s, stRange)
  else
    let s := publishLog (s.modSafe fun f => { f with exported := v.toNat })
    (logEntry s 13 (s.nat Ob.Poss.CAPTAIN) 0 Ob.Isl.LOG_EXPORTED.base Ob.Isl.LOG_EXPORTED.sub Ty.u32.code (leBytes 4 v.toNat), stOk)

/-- LOG_EXPORTED (0x9002.03). -/
def execLogExported (v t : Nat) (s : State) : Host.Outcome State Fault Refusal := whileOn s t <| answer (kept Ob.Isl.LOG_EXPORTED v (logExported (s.at t) v))

end Sys2Proof.Machine
end

