-- ==== Sys2Proof/Machine/Frames.lean ====
section
/-! DEFINITION. The rally frame as the head builds and reads it (R50 to R64): parameter blocks, service slots, worker slots, delay
measurement (R85 to R89). -/

namespace Sys2Proof.Machine

/-! ### Parameter blocks (R60) -/

/-- Records of a block: type and data; none where they do not fill the bytes exactly. -/
def recordsOf : Nat → List Byte → Option (List (Nat × List Byte))
  | _, [] => some []
  | 0, _ => none
  | n + 1, b =>
    if b.length < 4 then none else
      let l := leAt b 2 2
      if b.length < 4 + l then none
      else match recordsOf n (b.drop (4 + l)) with
        | some t => some ((leAt b 0 2, (b.drop 4).take l) :: t)
        | none => none

/-- Records of a PARAM_BLOCK object. -/
def paramRecords (s : State) (r p : Nat) : List (Nat × List Byte) :=
  let b := s.bytes Ob.Wk.PARAM_BLOCK r p
  (recordsOf b.length b).getD []

/-- SCHEDULE_SLOTS: S_p, d and u for every schedule (R60). -/
def slotRecord (s : State) (r p : Nat) : List Byte :=
  (List.range 8).flatMap fun sc => let w := s.workerSize r sc p; leBytes 2 (s.slotStart r sc p) ++ leBytes 1 w.1 ++ leBytes 1 w.2

/-- CHANNELS: channel count, layout codes (R60). -/
def channelRecord (s : State) (r p : Nat) : List Byte :=
  let n := layoutCount (s.nat Ob.Wk.CHANNEL_LAYOUTS r p)
  leBytes 1 n ++ (List.range n).flatMap fun c => leBytes 1 (s.layout r p c)

/-- Every record of a worker's parameter block. -/
def workerRecords (s : State) (r p : Nat) : List (Nat × List Byte) :=
  [(1, slotRecord s r p), (2, channelRecord s r p), (3, leBytes 1 p)] ++ paramRecords s r p

/-- The bytes of a block of records, with its CRC-32 (R60). -/
def blockOf (l : List (Nat × List Byte)) : List Byte :=
  let b := l.flatMap fun e => leBytes 2 e.1 ++ leBytes 2 e.2.length ++ e.2
  b ++ leBytes 4 (crc32 b)

/-- The whole block of a worker, as kickoff and rejoin send it (R66, R76). -/
def fullBlock (s : State) (r p : Nat) : List Byte := blockOf (workerRecords s r p)

/-- The records of a worker that a new configuration changes (assumption log 40). -/
def changedRecords (old new : State) (r p : Nat) : List (Nat × List Byte) :=
  (workerRecords new r p).filter fun e => !(workerRecords old r p).contains e

/-- Fragments of a block (R60, Table 03-8). -/
def fragCount (b : List Byte) : Nat := (b.length + 111) / 112

/-- Fragment `k` of a block as a service slot. -/
def fragSlot (typ dest tag apply k : Nat) (b : List Byte) : SvcSlot :=
  let p := (b.drop (112 * k)).take 112
  { typ := typ, dest := dest, tag := tag, frag := k, fragCount := fragCount b, len := p.length, applyCycle := apply, payload := p }

/-- A service slot from its 128 bytes (Table 03-9). -/
def svcOf (b : List Byte) : SvcSlot :=
  { typ := leAt b 0 1, dest := leAt b 1 1, tag := leAt b 2 1, frag := leAt b 3 1, fragCount := leAt b 4 1, len := leAt b 5 1,
    status := leAt b 6 1, applyCycle := leAt b 8 4, payload := slice b 16 112 }

/-- TAG of PARAM_NOW blocks (R66). -/
def nowTag (s : State) : Nat := max 1 (s.nat Ob.Sb.TAG_IN_FORCE)

/-! ### Delay measurement (R85 to R89, R92) -/

/-- Positions measured: the workers and, with FAR_END = 1, the partner as position N + 1 (R85). -/
def measuredPositions (s : State) (r : Nat) : Nat := s.nWorkers r + (if s.get Ob.Ring.FAR_END r = 1 then 1 else 0)

/-- ps as 2⁻¹⁶ ns. -/
def psUnits (x : Int) : Int := roundDiv (x * 65536) 1000
/-- 2⁻¹⁶ ns as ps. -/
def unitsPs (x : Int) : Int := roundDiv (x * 1000) 65536

/-- The head's own port asymmetry in ps, which the spec does not state (R86). -/
def headAsym (r : Nat) : Int := toSigned 16 (Config.freeValue (2 ^ 34 + r))

/-- This unit sends from the far end: its frames meet position N first, and the partner at the head end, which answers as N + 1, last (R93). -/
def fromFar (s : State) : Bool := s.flag Ob.PairC.UNIT_END

/-- The position that a frame of this unit passes just before `p`; 0 for the unit itself. -/
def hopBefore (s : State) (r p : Nat) : Nat :=
  let n := s.nWorkers r
  if fromFar s = false then p - 1 else if n < p then 1 else if p = n then 0 else p + 1

/-- The positions that a frame of this unit passes before `p`. -/
def hopsBefore (s : State) (r p : Nat) : List Nat :=
  let n := s.nWorkers r
  if fromFar s && decide (p ≤ n) then (List.range (n - p)).map (· + p + 1) else (List.range (min n (p - 1))).map (· + 1)

/-- The segment whose delay the frame of this unit shows at position `p`: p from the head end, p + 1 from the far end, where the partner shows segment 1. -/
def wireSegment (s : State) (r p : Nat) : Nat := if fromFar s = false then p else if s.nWorkers r < p then 1 else p + 1

/-- Forward delay and residence up to position `p`, in 2⁻¹⁶ ns: Σ d_q (q ≤ p) + Σ RES_FWD (q < p), in the order of passing (R86). -/
def travelTo (s : State) (r p : Nat) : Int :=
  let l := hopsBefore s r p
  ((l ++ [p]).map fun q => (s.wk r q).clk.d).sum + (l.map fun q => (s.wk r q).clk.fwd).sum

/-- Forward delay d_p (R86); `loop0` is H − E. In PLAY one DELAY names one worker, so the loop of the position before is that of its own last measurement
(assumption log 176). -/
def segmentDelay (s : State) (r p : Nat) (loop0 : Int) (k : WkClk) : Int :=
  let b := hopBefore s r p
  let c := (s.wk r b).clk
  let g := wireSegment s r p
  let declared := if s.nWorkers r < g then s.get Ob.RTime.FAR_ASYMMETRY r else s.get Ob.WkT.ASYMMETRY r g
  let far := fromFar s
  -- the port of the position before that faces away from the sender, and this position's port that faces it
  let away := if b = 0 then headAsym r else if far then c.up else c.down
  let near := if far && decide (p ≤ s.nWorkers r) then k.down else k.up
  let sp := (if b = 0 then loop0 else c.loop) - (k.fwd + k.loop + k.ret)
  roundDiv (sp + psUnits ((if far then -declared else declared) + away - near)) 2

/-- The SET fields of a DELAY payload: SET_NS and SET_FRAC of the REF_CYCLE's T_FI. -/
def setFields (s : State) (r p e0 : Nat) : List Byte :=
  let x := ((e0 : Int) * 65536 + travelTo s r p).toNat
  leBytes 8 (x / 65536) ++ leBytes 2 (x % 65536)

/-- A DELAY slot to position `p` (Table 04-2). -/
def delaySlot (s : State) (r p refCycle : Nat) (setValid step : Bool) (e0 : Nat) : SvcSlot :=
  let f := if setValid then setFields s r p e0 else List.replicate 10 0
  { typ := 7, dest := p, len := 112, payload := leBytes 4 refCycle ++ leBytes 1 (bitAt setValid 0 + bitAt step 1) ++ List.replicate 3 0 ++ f ++ List.replicate 94 0 }

/-- The worker fields of a DELAY answer with RESULT OK, over a worker's last clock figures. -/
def delayAnswer (k : WkClk) (b : List Byte) : WkClk :=
  { k with up := toSigned 16 (leAt b 18 2), down := toSigned 16 (leAt b 20 2), fwd := toSigned 64 (leAt b 40 8), loop := toSigned 64 (leAt b 48 8),
           ret := toSigned 64 (leAt b 56 8), state := leAt b 64 1 }

/-- T_FI of a DELAY answer in 2⁻¹⁶ ns. -/
def delayTfi (b : List Byte) : Int := ((leAt b 24 8 * 65536 + leAt b 32 2 : Nat) : Int)

/-- Mean of the residences measured last. -/
def meanFwd (k : WkClk) : Int := if k.fwds.isEmpty then k.fwd else roundDiv k.fwds.sum k.fwds.length

/-- The objects of a worker's timing entry brought up to its last measurement (R86, R87), and the standby's copy of the segment table (R95). MEASURED_LENGTH
is rounded to the nearest millimetre (assumption log 180). -/
def publishClock (s : State) (r p : Nat) : State :=
  let k := (s.wk r p).clk
  let n := s.nWorkers r
  let g := wireSegment s r p
  let s := if g ≤ n then s.set Ob.WkT.SEGMENT_DELAY (sat 32 (unitsPs k.d)) r g else s
  let s := if p ≤ n then
      let s := ((s.set Ob.WkT.RES_FWD (max 0 (unitsPs (meanFwd k))) r p).set Ob.WkT.CLOCK_STATE k.state r p).set Ob.WkT.LAST_MEASURED k.ref r p
      match k.errs with | e :: _ => s.set Ob.WkT.OFFSET_ERR (sat 32 (unitsPs e)) r p | [] => s
    else s
  let sum := ((List.range (measuredPositions s r)).map fun i => (s.wk r (i + 1)).clk.d).sum
  mirror (s.set Ob.RTime.MEASURED_LENGTH (max 0 (roundDiv (sum * 200) 65536)) r) (.segment r g k.d p k.fwd)

/-- A measurement of position `p` by a frame with REF_CYCLE of whistle `tw`, stamps `e0` and `loop0` (R86, R89). Nothing uses T_FI of the partner at N + 1
(R94). One DELAY names one worker, so the loop and the forward residence of the worker before it are those of its own last frames (assumption log 176). -/
def measured (s : State) (r p tw e0 : Nat) (loop0 : Int) (b : List Byte) : State :=
  let k := delayAnswer (s.wk r p).clk b
  let k := { k with d := segmentDelay s r p loop0 k, fwds := (k.fwd :: k.fwds).take 16, ref := tw }
  let s := s.modWk r p fun w => { w with clk := k }
  if s.nWorkers r < p then publishClock s r p else
    let e := delayTfi b - ((e0 : Int) * 65536 + travelTo s r p)
    let lim : Int := s.get Ob.RTime.OFFSIDE_LIMIT r * 65536
    let near := if |e| * 2 ≤ lim then k.near + 1 else 0
    publishClock (s.modWk r p fun w => { w with clk := { w.clk with errs := (e :: k.errs).take 4, near := near } }) r p

/-- A locked worker's clock is to be slewed (R89): the mean of the last four e_p exceeds 0.25 ns. -/
def wantsSet (k : WkClk) : Bool := decide (k.state = 1) && !k.hold && decide (k.errs.length = 4 ∧ 65536 < |k.errs.sum|)

/-- Time between two DELAY slots of the turn order, in ns: every position once in DELAY_REFRESH, with 32 cycles in hand for slots that go before (R89,
assumption log 89). -/
def delayStep (s : State) (r : Nat) : Nat := (s.nat Ob.RTime.DELAY_REFRESH r * 1000000 - 32 * (s.ring r).tc) / max 1 (measuredPositions s r)

/-- The position to measure in the frame of the cycle in progress on a ring in PLAY, and whether it goes ahead of the turn order (R89): a position in
holdover 16 frames after its last DELAY, the one that has waited longest first; else the turn, before its interval is over. -/
def delayDue (s : State) (r : Nat) : Option (Nat × Bool) :=
  let q := s.ring r
  let clk (p : Nat) : WkClk := (s.wk r p).clk
  let late := ((List.range (measuredPositions s r)).map (· + 1)).filter fun p =>
    (decide ((clk p).state = 2) || (clk p).hold) && decide ((clk p).sentAt + 16 * q.tc ≤ q.tw)
  match late with
  | p :: l => some (l.foldl (fun b x => if (clk x).sentAt < (clk b).sentAt then x else b) p, true)
  | [] => if q.delayAt + delayStep s r < q.tw + q.tc then some (q.delayNext, false) else none

/-! ### Worker slots (R53 to R55) -/

/-- The axis mapped to a channel. -/
def axisAt (s : State) (r p c : Nat) : Option Nat :=
  (List.range 256).find? fun a => decide (s.get Ob.Map.RING a = r ∧ s.get Ob.Map.WORKER a = p ∧ s.get Ob.Map.CHANNEL a = c)

/-- Axes of a worker. -/
def axesAt (s : State) (r p : Nat) : List Nat := (s.axesOn r).filter fun a => decide (s.nat Ob.Map.WORKER a = p)

/-- TORQUE_LIM of an axis (Table 03-7): the larger effective limit, rounded up to 2⁻¹⁶. -/
def torqueLim (s : State) (a : Nat) : Nat :=
  let l := torqueLimits s a
  min 65535 (((max 0 (max l.1.1 l.2.1)).toNat + 32767) / 32768)

/-- Command data of an IO channel: no rule names where they come from, so each byte is a free value (assumption log 41). -/
def ioDown (s : State) (r p c k : Nat) : List Byte :=
  (List.range k).map fun i => BitVec.ofNat 8 (Config.freeValue (2 ^ 35 + (((s.ring r).cycle * 64 + p) * 8 + c) * 32 + i + r * 2 ^ 60))

/-- Command data of a channel (Table 03-7). -/
def channelDown (s : State) (r sc p c : Nat) : List Byte :=
  match s.layout r p c with
  | 0 => []
  | 4 => ioDown s r p c (s.ioSize r sc p c).1
  | k =>
    match axisAt s r p c with
    | none => List.replicate (s.chanSize r sc p c).1 0
    | some a =>
      let x := s.axis a
      let h := x.h1.getD {}
      let w (v : Int) : List Byte := leBytes 4 (lowBits 32 (if x.flags.power then v else 0))
      let ctl := leBytes 2 (bitAt x.flags.power 0)
      if k = 3 then w h.cmd1 ++ w h.cmd2 ++ ctl ++ leBytes 2 0 else w h.cmd1 ++ leBytes 2 (torqueLim s a) ++ ctl

/-- CLEAR_FAULT of a worker (R192): an axis of it is FAULTED with FAULT_RESET 1 while the worker reports OWN_STOP. -/
def clearsFault (s : State) (r p : Nat) : Bool :=
  bit (s.wk r p).up 19 && (axesAt s r p).any fun a => decide ((s.axis a).mot.state = .faulted) && bit (s.nat Ob.Ctl.CONTROL a) 4

/-- The slot of worker `p` in a frame (Tables 03-4, 03-5); `valid` allows commands. -/
def workerSlot (s : State) (r sc p cycle : Nat) (valid : Bool) : DownSlot :=
  let cf := clearsFault s r p
  { pos := p, cmdValid := valid && (s.wk r p).admitted, qstopReq := (s.wk r p).qstop && !cf, clearFault := cf,
    cmd := (List.range 8).flatMap fun c => channelDown s r sc p c, safety := subFrame s r p cycle, up := (s.workerSize r sc p).2 }

/-- The down header of a slot as a word (Table 03-5). -/
def downHeader (d : DownSlot) : Nat := d.pos * 2 ^ 25 + bitAt d.cmdValid 24 + bitAt d.qstopReq 23 + bitAt d.clearFault 22

/-- SENDER (Table 03-2). -/
def senderByte (s : State) (r : Nat) : Nat :=
  bitAt (s.flag Ob.PairC.UNIT_END) 7 + bitAt (decide (s.get Ob.Pair.ROLE ≤ 1)) 6 +
  (if s.flag Ob.PairC.PAIR_ENABLE then s.nat Ob.PairC.PAIR_PRIORITY else s.nat Ob.Ring.PRIORITY r) % 16

/-- FLAGS of Table 03-3. -/
def flagsWord (r commit huddle : Nat) (split kickoff : Bool) : Nat := r * 1024 + bitAt split 9 + bitAt kickoff 8 + commit * 64 + huddle * 16

end Sys2Proof.Machine
end

