-- ==== Sys2Proof/Machine/Consist.lean ====
section
/-! DEFINITION. Commit steps 6 to 8 (Table 05-4): what relates the values of a configuration to one another (R157, R160, R174, R208, R217,
R222, R226, R229, R237, R240, R248, R254, R279, R284, R302, R316, R324, R326, R366, R367, R409, R416, R419, R100, R46, R60). Each check
answers the keys of the objects that fail it; which object of several a rule concerns is log entry 42. -/

namespace Sys2Proof.Machine

/-- The state with staged values in force: the resulting configuration of a commit. -/
def withEntries (s : State) (l : List Staged) : State := forList l (fun e s => s.putVal e.key e.val) s

/-- A key of its object, where a condition holds. -/
def failIf (b : Bool) (k : Nat) : List Nat := if b then [k] else []

/-- Numbers below `n` that a test accepts, as keys. -/
def failing (n : Nat) (f : Nat → Bool) (k : Nat → Nat) : List Nat := ((List.range n).filter f).map k

/-- An entry of the commit writes an object. -/
def writes (l : List Staged) (k : Nat) : Bool := l.any fun e => decide (e.key = k)

/-! ### Axes (R157, R174, R208, R209, R217, R222, R229, R248) -/

/-- An octet range of the sample data of a worker lies inside them in every schedule of the ring. -/
def inSamples (s : State) (r p lo n : Nat) : Bool := (List.range 8).all fun sc => decide (lo + n ≤ (s.workerSize r sc p).2)

/-- Two axes on one channel or one port, channels of layout IO or beyond the count, ports of another function, direct axes beyond 64. -/
def mappingFails (s : State) : List Nat :=
  let ax := List.range 256
  let ch (a : Nat) : Int × Int × Int := (s.get Ob.Map.RING a, s.get Ob.Map.WORKER a, s.get Ob.Map.CHANNEL a)
  let ring (a : Nat) : Bool := decide (s.get Ob.Map.RING a < 4)
  let loc (a : Nat) : Bool := s.onRing a 0xFE
  failing 256 (fun a => ring a && ax.any fun b => decide (a ≠ b) && decide (ch a = ch b)) (fun a => Ob.Map.CHANNEL.key a) ++
  failing 256 (fun a => loc a && ax.any fun b => decide (a ≠ b) && loc b && decide (s.get Ob.Map.LOCAL_PORT a = s.get Ob.Map.LOCAL_PORT b))
    (fun a => Ob.Map.LOCAL_PORT.key a) ++
  failing 256 (fun a => ring a && (let l := s.layout (s.nat Ob.Map.RING a) (s.nat Ob.Map.WORKER a) (s.nat Ob.Map.CHANNEL a); decide (l = 0 ∨ l = 4)))
    (fun a => Ob.Map.CHANNEL.key a) ++
  failing 256 (fun a => loc a && decide (s.kindOf a = 0)) (fun a => Ob.Map.LOCAL_PORT.key a) ++
  (((ax.filter fun a => isDirect (s.kindOf a)).drop 64).map fun a => Ob.Map.RING.key a)

/-- An enabled biquad that is not stable (R166): |a2| < 1 and |a1| < 1 + a2 of the converted coefficients. -/
def biquadFails (s : State) : List Nat :=
  (List.range 2).flatMap fun j => failing 256 (fun a =>
    let a1 := q428 (s.get Ob.Pos.BQ_A1 a j)
    let a2 := q428 (s.get Ob.Pos.BQ_A2 a j)
    s.flag Ob.Pos.BQ_ENABLE a j && !decide (|a2| < 2 ^ 28 ∧ |a1| < 2 ^ 28 + a2)) (fun a => Ob.Pos.BQ_ENABLE.key a j)

/-- FOLLOW sources (R174): a selection Table 07-4 does not give, worker bytes outside the sample data, or the axis's own feedback in any schedule. -/
def followFails (s : State) : List Nat :=
  failing 256 (fun a =>
    let v := s.nat Ob.Cur.FOLLOW_SELECT a
    let r := bits v 24 2
    let p := bits v 16 6 + 1
    let off := bits v 0 8
    let src := s.get Ob.AxFb.FB_SOURCE a
    match s.nat Ob.Cur.FOLLOW_SOURCE a with
    | 1 => decide (bits v 0 2 = 3)
    | 2 =>
      let own := s.onRing a r && decide (s.nat Ob.Map.WORKER a = p ∧ src ≤ 1)
      let hits := (List.range 8).any fun sc =>
        let at_ := (s.chanBase r sc p (s.nat Ob.Map.CHANNEL a)).2 + countOff (s.kindOf a) (decide (src = 1))
        decide (off < at_ + 4 ∧ at_ < off + 2)
      decide (off % 2 = 1) || !inSamples s r p off 2 || (own && hits)
    | 3 =>
      let k := bits v 0 4
      decide (12 ≤ k ∨ (src = 2 ∧ k < 8 ∧ s.nat Ob.AxFb.FB_UNIT a = k) ∨ (src = 3 ∧ 8 ≤ k ∧ s.nat Ob.AxFb.FB_UNIT a + 8 = k))
    | _ => false) (fun a => Ob.Cur.FOLLOW_SELECT.key a)

/-- The inputs of an enabled master encoder (R229): field input `i` is one of them. -/
def meInput (s : State) (i : Nat) : Bool := decide (i < 12) && decide (s.get Ob.FbMe.MODE (i / 3) ≠ 0)

/-- A source word that names a byte outside the sample data, or an input of an enabled master encoder (R208, R229). -/
def sourceFails (s : State) (w : Nat) : Bool :=
  match bits w 30 2 with
  | 1 => meInput s (bits w 0 5)
  | 2 => !inSamples s (bits w 24 2) (bits w 16 6 + 1) (bits w 8 8) 1
  | _ => false

/-- Limit and home sources of the axes; triggers of latches and time latches. -/
def inputFails (s : State) : List Nat :=
  failing 256 (fun a => sourceFails s (s.nat Ob.Lim.LIMIT_POS_SOURCE a)) (fun a => Ob.Lim.LIMIT_POS_SOURCE.key a) ++
  failing 256 (fun a => sourceFails s (s.nat Ob.Lim.LIMIT_NEG_SOURCE a)) (fun a => Ob.Lim.LIMIT_NEG_SOURCE.key a) ++
  failing 256 (fun a => sourceFails s (s.nat Ob.Home.HOME_SOURCE a)) (fun a => Ob.Home.HOME_SOURCE.key a) ++
  failing 8 (fun l => let t := s.nat Ob.Lat.TRIGGER l; decide (1 ≤ t ∧ t ≤ 24) && meInput s (t - 1)) (fun l => Ob.Lat.TRIGGER.key l) ++
  failing 8 (fun l => let t := s.nat Ob.TLat.SOURCE l; decide (1 ≤ t ∧ t ≤ 24) && meInput s (t - 1)) (fun l => Ob.TLat.SOURCE.key l)

/-- An axis whose master is itself (R217). -/
def masterFails (s : State) : List Nat :=
  failing 256 (fun a =>
    let k := s.nat Ob.Gear.MASTER a
    decide (3 ≤ s.get Ob.Mst.TYPE k ∧ s.nat Ob.Mst.SOURCE k = a)) (fun a => Ob.Gear.MASTER.key a)

/-- Ratios, ratio changes and cam switches (R222, Table 08-14). -/
def gearFails (s : State) : List Nat :=
  failing 256 (fun a => decide (s.get Ob.Gear.RATIO_DEN a = 0)) (fun a => Ob.Gear.RATIO_DEN.key a) ++
  failing 256 (fun a => decide (s.get Ob.Gear.NEXT_DEN a = 0)) (fun a => Ob.Gear.NEXT_DEN.key a) ++
  failing 256 (fun a =>
    let per := s.get Ob.Mst.PERIOD (s.nat Ob.Gear.MASTER a)
    let p := s.get Ob.Gear.CHANGE_AT a
    decide (per ≠ 0 ∧ (p < 0 ∨ per ≤ p))) (fun a => Ob.Gear.CHANGE_AT.key a) ++
  failing 256 (fun a =>
    let per := s.get Ob.Mst.PERIOD (s.nat Ob.Gear.MASTER a)
    decide (per ≠ 0 ∧ per ≤ 2 * s.get Ob.Gear.BLEND a)) (fun a => Ob.Gear.BLEND.key a) ++
  failing 256 (fun a =>
    let per := s.get Ob.Mst.PERIOD (s.nat Ob.Gear.MASTER a)
    let p := s.get Ob.Gear.SWITCH_AT a
    decide (per ≠ 0 ∧ (p < 0 ∨ per ≤ p))) (fun a => Ob.Gear.SWITCH_AT.key a)

/-- SOFT_LIMIT_POS lies above SOFT_LIMIT_NEG (Table 08-12). -/
def softFails (s : State) : List Nat :=
  failing 256 (fun a => decide (s.get Ob.Lim.SOFT_LIMIT_POS a ≤ s.get Ob.Lim.SOFT_LIMIT_NEG a)) (fun a => Ob.Lim.SOFT_LIMIT_POS.key a)

/-- Axes without feedback, bound latch and compare units (R229, R248, Table 09-10). -/
def feedbackFails (s : State) : List Nat :=
  failing 256 (fun a => decide (s.get Ob.AxFb.FB_SOURCE a = 0xFF ∧ s.kindOf a ≠ 5 ∧ s.kindOf a ≠ 0)) (fun a => Ob.AxFb.FB_SOURCE.key a) ++
  failing 256 (fun a => let l := s.nat Ob.Bind.LATCH_UNIT a; decide (l < 8) && decide (axisUnit s a ≠ some (s.nat Ob.Lat.POS_SOURCE l)))
    (fun a => Ob.Bind.LATCH_UNIT.key a) ++
  failing 256 (fun a => let u := s.nat Ob.Bind.COMPARE_UNIT a; decide (u < 8) && decide (axisUnit s a ≠ some (s.nat Ob.Cmp.POS_SOURCE u)))
    (fun a => Ob.Bind.COMPARE_UNIT.key a)

/-! ### Cams (R226) -/

/-- A SEGMENTS value holds its form (Table 08-10) and its continuity. -/
def camValueOk (b : List Byte) (sh : Nat) (tol : Int) : Bool :=
  let n := b.length / 32
  decide (b.length % 32 = 0) &&
  (List.range n).all fun k =>
    let m (j : Nat) : Nat := leAt b (32 * j) 4
    decide (leAt b (32 * k + 28) 4 = 0) && (if k = 0 then decide (m 0 = 0) else decide (m (k - 1) < m k)) &&
    (decide (n ≤ k + 1) || decide (|rq32 ((camSegOf b n k).at sh (2 ^ 32)).1 - (camSegOf b n (k + 1)).y0| ≤ tol))

/-- Cams an axis in CAM mode uses, and those armed on it, as they stand. -/
def camsInUse (s : State) (a : Nat) : List Nat :=
  let x := s.axis a
  if x.mot.mode = 4 then s.nat Ob.Gear.ACTIVE_CAM a :: (match x.mot.camSw with | some (_, c) => [c] | none => []) else []

/-- Cams an axis in CAM mode names or arms once the commit is in force. -/
def camsNamed (old new : State) (l : List Staged) (a : Nat) : List Nat :=
  let enters := ([Ob.Ctl.MODE, Ob.Ctl.MOVE, Ob.Ctl.TARGET_POSITION, Ob.Ctl.TARGET_VELOCITY].any fun o => writes l (o.key a)) && decide (new.get Ob.Ctl.MODE a = 4)
  let waits := match (old.axis a).mot.pend with | some (_, m) => decide (m = 4) | none => false
  camsInUse old a ++ (if enters || waits then [new.nat Ob.Gear.CAM a] else []) ++
  (if writes l (Ob.Gear.CAM_ARM.key a) then [new.nat Ob.Gear.NEXT_CAM a] else [])

/-- R226; the SEGMENTS objects that fail. -/
def camFails (old new : State) (l : List Staged) : List Nat :=
  let key (c : Nat) : Nat := Ob.Cam.SEGMENTS.key c
  let changed := (List.range 1024).filter fun c => writes l (key c) && decide (old.bytes Ob.Cam.SEGMENTS c ≠ new.bytes Ob.Cam.SEGMENTS c)
  let used := (List.range 256).flatMap fun a => camsInUse old a
  let named := (List.range 256).flatMap fun a => camsNamed old new l a
  let total := ((List.range 1024).map fun c => camCount old c).sum + (changed.map fun c => camCount new c).sum
  failing 1024 (fun c => !camValueOk (new.bytes Ob.Cam.SEGMENTS c) (new.nat Ob.Cam.COEF_SHIFT c) (new.get Ob.Cam.TOLERANCE c)) key ++
  ((named.filter fun c => decide (camCount new c = 0)).map key) ++ ((changed.filter fun c => used.contains c).map key) ++
  (if 65536 < total then (changed.take 1).map key else [])

/-! ### Local feedback, latch and compare, ports, time (R237, R240, R254, R302, R316, R324, R326, R100) -/

/-- Encoder formats and rates. -/
def encoderFails (s : State) : List Nat :=
  let tc := s.tcyc s.localRing
  failing 8 (fun u => decide (0 < absAckMax s u ∧ absStartBits s u = 0) || decide (absShift s u ≠ 0 ∧ s.get Ob.Fb.MODE u ≠ 3)) (fun u => Ob.Fb.ABS_FORMAT.key u) ++
  failing 8 (fun u => decide (2 ≤ s.get Ob.Fb.MODE u) && decide (2 * tc < absTimeHalf s u + 2 * (s.nat Ob.Fb.RECOVERY u * 1000))) (fun u => Ob.Fb.ABS_CLOCK_DIV.key u) ++
  failing 256 (fun a =>
    let u := s.nat Ob.AxFb.FB_UNIT a
    decide (s.get Ob.AxFb.FB_SOURCE a = 2 ∧ s.get Ob.Fb.MODE u = 2) &&
    decide (2 ^ (s.nat Ob.Fb.ABS_BITS u - 1) * 1000000000 ≤ tc * s.nat Ob.AxFb.MAX_COUNT_RATE a)) (fun a => Ob.AxFb.MAX_COUNT_RATE.key a)

/-- Latch and compare units. -/
def latchFails (s : State) : List Nat :=
  failing 8 (fun l =>
    let t := s.nat Ob.Lat.TRIGGER l
    decide (8 ≤ s.get Ob.Lat.POS_SOURCE l) && !decide (t ≤ 24 ∨ 37 ≤ t)) (fun l => Ob.Lat.TRIGGER.key l) ++
  -- the listed defaults are 0 and 0: the order is judged where the window is in use (assumption log 187)
  failing 8 (fun l => s.flag Ob.Lat.WINDOW_ENABLE l && decide (s.get Ob.Lat.WINDOW_HI l ≤ s.get Ob.Lat.WINDOW_LO l)) (fun l => Ob.Lat.WINDOW_HI.key l) ++
  failing 8 (fun u => decide (8 ≤ s.get Ob.Cmp.POS_SOURCE u ∧ 17 ≤ s.get Ob.Cmp.TARGET u)) (fun u => Ob.Cmp.TARGET.key u) ++
  failing 8 (fun u => decide (s.get Ob.Cmp.PITCH u ≠ 0 ∧ s.get Ob.Cmp.PITCH u < 2 ^ 28)) (fun u => Ob.Cmp.PITCH.key u)

/-- Outputs routed from two sources, and the edges per second of the TTP channels on field outputs. -/
def outputFails (s : State) : List Nat :=
  let t := List.range 8
  let ttp (k : Nat) : Nat := s.nat Ob.Ttp.TARGET k
  let cmp (k : Nat) : Nat := s.nat Ob.Cmp.TARGET k
  let all := t.map ttp ++ t.map cmp
  let twice (x : Nat) : Bool := decide (x ≠ 0) && decide (1 < (all.filter (· = x)).length)
  let fq := t.filter fun k => decide (1 ≤ ttp k ∧ ttp k ≤ 16 ∧ s.get Ob.Ttp.PERIOD k ≠ 0)
  let rate : Rat := (fq.map fun k => mkRat (2 * 1000000000 * 65536) (s.nat Ob.Ttp.PERIOD k)).sum
  failing 8 (fun k => twice (ttp k)) (fun k => Ob.Ttp.TARGET.key k) ++ failing 8 (fun k => twice (cmp k)) (fun k => Ob.Cmp.TARGET.key k) ++
  (if decide (800000 < rate) then (fq.take 1).map fun k => Ob.Ttp.TARGET.key k else [])

/-- OFFSIDE_STOP_LIMIT of a ring lies above OFFSIDE_LIMIT (Table 04-8). -/
def offsideFails (s : State) : List Nat :=
  failing 4 (fun r => decide (s.get Ob.RTime.OFFSIDE_STOP_LIMIT r ≤ s.get Ob.RTime.OFFSIDE_LIMIT r)) (fun r => Ob.RTime.OFFSIDE_STOP_LIMIT.key r)

/-- A WHISTLE module whose cycle length is no multiple of its period (R302). -/
def whistleBad (s : State) (p tc : Nat) : Bool := decide (s.get Ob.Pwm.SYNC_SOURCE p = 1) && decide ((4 * tc) % (5 * max 1 (pwmPeriod s p)) ≠ 0)

/-- A module whose chain leads back to a WHISTLE module. -/
def chainsToWhistle (s : State) : Nat → Bool
  | 0 => decide (s.get Ob.Pwm.SYNC_SOURCE 0 = 1)
  | p + 1 => match s.nat Ob.Pwm.SYNC_SOURCE (p + 1) with | 1 => true | 2 => chainsToWhistle s p | _ => false

/-- Local drive ports. -/
def portFails (s : State) : List Nat :=
  let tc := s.tcyc s.localRing
  failing 8 (fun p => decide (s.get Ob.Pwm.SYNC_SOURCE p = 2) && (decide (p = 0) || decide (pwmPeriod s p ≠ pwmPeriod s (p - 1)))) (fun p => Ob.Pwm.SYNC_SOURCE.key p) ++
  failing 8 (fun p => whistleBad s p tc) (fun p => Ob.Pwm.SYNC_SOURCE.key p) ++
  failing 8 (fun p => decide (pwmPeriod s p ≤ s.nat Ob.Pwm.SYNC_PHASE p)) (fun p => Ob.Pwm.SYNC_PHASE.key p) ++
  failing 8 (fun p => decide (portFn s p = 1) && !chainsToWhistle s p) (fun p => Ob.Pwm.SYNC_SOURCE.key p) ++
  failing 8 (fun p => s.flag Ob.Step.STEP_IN_ENABLE p && decide (s.get Ob.Fb.MODE p ≠ 0)) (fun p => Ob.Step.STEP_IN_ENABLE.key p)

/-! ### Rings and schedules (R46, R60, R284) -/

/-- IO_SIZES, WHISTLE_OFFSET and the pools of AXIS_PLAN. -/
def schedFails (s : State) : List Nat :=
  let floats (r sc : Nat) : List Nat :=
    ((entries4 (s.bytes Ob.Sched.AXIS_PLAN r sc)).map fun e => if bits e 16 8 = 0 then 0xFF else bits e 16 8).filter fun m => (fixedEngine m).isNone
  let clash (l m : List Nat) : Bool := l.any fun x => m.any fun y => decide (x ≠ y ∧ x &&& y ≠ 0)
  (List.range 4).flatMap fun r => (List.range 8).flatMap fun sc =>
    let io := (entries4 (s.bytes Ob.Sched.IO_SIZES r sc)).map fun e => (bits e 0 8, bits e 24 8)
    failIf (decide (s.tcycSched r sc ≤ s.nat Ob.Sched.WHISTLE_OFFSET r sc)) (Ob.Sched.WHISTLE_OFFSET.key r sc) ++
    failIf (clash (floats r sc) (floats r sc) ||
      (decide (sc = s.sched r) && (List.range 4).any fun q => decide (q ≠ r) && clash (floats r sc) (floats q (s.sched q)))) (Ob.Sched.AXIS_PLAN.key r sc) ++
    failIf (decide (io.eraseDups.length < io.length) || io.any fun e => decide (s.layout r e.1 e.2 ≠ 4)) (Ob.Sched.IO_SIZES.key r sc)

/-- PARAM_BLOCK: records that fill it exactly, of types from 0x8000 (R60). -/
def blockFails (s : State) : List Nat :=
  (List.range 4).flatMap fun r => failing 64 (fun i =>
    let b := s.bytes Ob.Wk.PARAM_BLOCK r (i + 1)
    match recordsOf b.length b with
    | some l => l.any fun e => decide (e.1 < 0x8000)
    | none => true) (fun i => Ob.Wk.PARAM_BLOCK.key r (i + 1))

/-! ### User blocks (R279) -/

/-- Destinations a syllable names: registers by class, p as 100 + n, m 110, l 120, c 130, special 200. -/
def destsM (w : Nat) : List Nat := let o := bits w 30 6; if (0x08 ≤ o ∧ o ≤ 0x0A) ∨ o = 0x0C ∨ o = 0x0D then [bits w 5 5] else []

/-- Destinations of an A syllable. -/
def destsA (w : Nat) : List Nat :=
  let o := bits w 30 6
  let d := bits w 25 5
  if (1 ≤ o ∧ o ≤ 0x11) ∨ o = 0x13 ∨ o = 0x14 then [d]
  else if o = 0x12 then [130 + d % 8]
  else if o = 0x15 then [100 + bits w 20 5 % 8 + 10 * (bits w 20 5 / 8)]
  else if o = 0x16 ∨ o = 0x18 then [d]
  else if o = 0x17 then [200 + bits w 20 5]
  else []

/-- Destinations of an L syllable. -/
def destsL (w : Nat) : List Nat :=
  let o := bits w 30 6
  let p := bits w 22 3
  let am : List Nat := if bits w 20 2 = 1 ∨ bits w 20 2 = 2 then [100 + p] else []
  if 1 ≤ o ∧ o ≤ 5 then bits w 25 5 :: am
  else if 8 ≤ o ∧ o ≤ 0x0A then am
  else if o = 0x10 then [2 * bits w 26 4, 2 * bits w 26 4 + 1]
  else if o = 0x12 then [bits w 25 5, 100 + p, 100 + bits w 14 3]
  else if o = 0x18 then [100 + p]
  else []

/-- A bundle of a user block passes the static check: its form, no privileged operation, no destination named in two slots. -/
def bundleOk (w : Nat) : Bool :=
  let as := bits w 40 40
  let ls := bits w 0 40
  let dm := if bit w 120 then [] else destsM (bits w 80 40)
  let da := destsA as
  let dl := destsL ls
  let clash (x y : List Nat) : Bool := x.any fun k => y.contains k
  let o := bits as 30 6
  bundleForm w && !decide (o = 0x23 ∨ o = 0x25 ∨ o = 0x26 ∨ bits ls 30 6 = 0x20 ∨ bits ls 30 6 = 0x21) && !clash dm da && !clash dm dl && !clash da dl

/-- The bundles of a CODE value. -/
def bundlesOf (b : List Byte) : List Nat := (List.range (b.length / 16)).map fun i => leAt b (16 * i) 16

/-- CODE of a block: bundles, branch targets, repeat bodies (R279, R271). -/
def codeOk (b : List Byte) (entry : Nat) : Bool :=
  let l := bundlesOf b
  let n := l.length
  let op (w : Nat) : Nat := bits w 70 6
  let at_ (i : Nat) : Nat := l.getD i 0
  let reps := (List.range n).filter fun i => decide (op (at_ i) = 0x24)
  let last (i : Nat) : Nat := i + bits (at_ i) 40 8
  decide (b.length % 16 = 0) && decide (entry < n) && l.all bundleOk &&
  ((List.range n).all fun i =>
    if op (at_ i) = 0x20 ∨ op (at_ i) = 0x21 then
      let t := (i : Int) + sbits (at_ i) 40 24
      decide (0 ≤ t ∧ t < n)
    else true) &&
  (reps.all fun i =>
    let inner := reps.filter fun k => decide (i < k ∧ k ≤ last i)
    decide (last i < n) && inner.all (fun k => decide (last k ≤ last i) && !(inner.any fun j => decide (k < j ∧ j ≤ last k))) &&
    (List.range n).all fun k => if last i ≤ k + 1 ∧ k ≤ last i ∧ i < k then !decide (0x20 ≤ op (at_ k) ∧ op (at_ k) ≤ 0x22) else true)

/-- A kind of axis may use a point (Table 10-10). -/
def pointKind (s : State) (point a : Nat) : Bool :=
  let k := s.kindOf a
  match point with
  | 1 => decide (1 ≤ k) && decide (s.get Ob.AxFb.FB_SOURCE a ≠ 0xFF)
  | 2 => hasVelocity k
  | 3 => hasVelocity k
  | _ => decide (1 ≤ k)

/-- R279; the objects of the blocks that fail. -/
def ubFails (old new : State) (l : List Staged) : List Nat :=
  let us := List.range 32
  let axes (u : Nat) : List Nat := (new.bytes Ob.Ub.AXES u).map fun b => b.toNat
  let at_ (a : Nat) (p : Nat) : List Nat := us.filter fun u => decide (new.nat Ob.Ub.POINT u = p) && (axes u).contains a
  let len (s : State) (o : Obj) (u : Nat) : Nat := (s.bytes o u).length
  let total (o : Obj) : Nat := (us.map fun u => len old o u).sum + ((us.filter fun u => writes l (o.key u)).map fun u => len new o u).sum
  let over_ (o : Obj) (lim : Nat) : List Nat := if lim < total o then ((us.filter fun u => writes l (o.key u)).take 1).map fun u => o.key u else []
  failing 32 (fun u => let b := new.bytes Ob.Ub.CODE u; !b.isEmpty && !codeOk b (new.nat Ob.Ub.ENTRY u)) (fun u => Ob.Ub.CODE.key u) ++
  failing 32 (fun u => !(axes u).isEmpty && (new.bytes Ob.Ub.CODE u).isEmpty) (fun u => Ob.Ub.ENTRY.key u) ++
  failing 32 (fun u => !(axes u).isEmpty && decide (new.get Ob.Ub.POINT u = 0)) (fun u => Ob.Ub.POINT.key u) ++
  failing 32 (fun u => let p := new.nat Ob.Ub.POINT u; decide (p ≠ 0) && (axes u).any fun a => !pointKind new p a || decide (1 < (at_ a p).length))
    (fun u => Ob.Ub.AXES.key u) ++
  failing 32 (fun u => (axes u).any fun a => decide (512 < ((us.filter fun v => (axes v).contains a).map fun v => new.nat Ob.Ub.STATE_SIZE v).sum))
    (fun u => Ob.Ub.STATE_SIZE.key u) ++
  over_ Ob.Ub.CODE 65536 ++ over_ Ob.Ub.DATA 114688

/-! ### Safety, the pair, tuning (R366, R367, R409, R416, R419) -/

/-- Safety objects. -/
def safetyFails (s : State) : List Nat :=
  let ids := (List.range 4).flatMap fun r => (List.range 64).map fun i => s.nat Ob.WkS.SAFETY_ID r (i + 1)
  let rep (x : Nat) : Bool := decide (x ≠ 0) && decide (1 < (ids.filter (· = x)).length)
  let loc (a : Nat) : Bool := decide (s.get Ob.AxS.BRAKE a = 1)
  ((List.range 4).flatMap fun r => failing 64 (fun i => rep (s.nat Ob.WkS.SAFETY_ID r (i + 1))) (fun i => Ob.WkS.SAFETY_ID.key r (i + 1))) ++
  failing 256 (fun a => decide (s.get Ob.AxS.BRAKE a = 2 ∧ s.get Ob.Map.RING a < 4) &&
    decide (s.get Ob.WkS.SAFETY_ID (s.nat Ob.Map.RING a) (s.nat Ob.Map.WORKER a) = 0)) (fun a => Ob.AxS.BRAKE.key a) ++
  failing 256 (fun a => loc a && (List.range 256).any fun b => decide (a ≠ b) && loc b && decide (s.get Ob.AxS.BRAKE_CHANNEL a = s.get Ob.AxS.BRAKE_CHANNEL b))
    (fun a => Ob.AxS.BRAKE_CHANNEL.key a)

/-- A unit of a pair: no local axis, a far end on every enabled ring, no USER_READ (R367, R409). -/
def pairFails (s : State) : List Nat :=
  if s.flag Ob.PairC.PAIR_ENABLE = false then [] else
    failing 256 (fun a => s.onRing a 0xFE) (fun a => Ob.Map.RING.key a) ++
    failing 4 (fun r => s.flag Ob.Ring.ENABLE r && decide (s.get Ob.Ring.FAR_END r = 0)) (fun r => Ob.Ring.FAR_END.key r) ++
    failIf (decide (s.get Ob.Cnt.USER_READ ≠ 0)) Ob.Cnt.USER_READ.key

/-- A node of Table 17-5 that an axis of kind `k` computes (Table 07-1). -/
def nodeOf (k node : Nat) : Bool :=
  if node = 0 then true
  else if node ≤ 3 ∨ node = 5 then decide (1 ≤ k)
  else if node = 4 ∨ node = 11 ∨ node = 16 then hasPosition k
  else if node ≤ 10 then hasVelocity k
  else isDirect k

/-- Trace slots (R416), and TRACE_PRE below TRACE_DEPTH (Table 17-8). -/
def traceFails (s : State) : List Nat :=
  let used := (List.range 16).filter fun q => decide (s.nat Ob.TrcSlot.AXIS q < 256)
  let rate (q : Nat) : Nat × Nat := let r := s.axisRing (s.nat Ob.TrcSlot.AXIS q); (s.tcyc r, s.woff r)
  ((used.filter fun q => decide (some (rate q) ≠ used.head?.map rate)).map fun q => Ob.TrcSlot.AXIS.key q) ++
  ((used.filter fun q => !nodeOf (s.kindOf (s.nat Ob.TrcSlot.AXIS q)) (s.nat Ob.TrcSlot.NODE q)).map fun q => Ob.TrcSlot.NODE.key q) ++
  failIf (decide (s.get Ob.Trc.TRACE_DEPTH ≤ s.get Ob.Trc.TRACE_PRE)) Ob.Trc.TRACE_PRE.key

/-- Injection (R419). -/
def injectFails (s : State) : List Nat :=
  let a := s.nat Ob.Inj.INJ_AXIS
  if 256 ≤ a then [] else
    let f0 := f32Rat (s.get Ob.Inj.F_START)
    let f1 := f32Rat (s.get Ob.Inj.F_STOP)
    let r := s.axisRing a
    let (dv, dx, _) := s.dividers r (s.sched r) a
    let node := s.nat Ob.Inj.INJ_NODE
    let d := if node = 1 then dx else if node = 2 ∧ s.kindOf a = 2 then 1 else dv
    failIf (decide (f0 ≤ 0)) Ob.Inj.F_START.key ++
    failIf (decide (f1 ≤ f0) || decide (mkRat 1000000000 (2 * (d * s.tcyc r)) < f1)) Ob.Inj.F_STOP.key ++
    failIf (decide (node = 4) && !isDirect (s.kindOf a)) Ob.Inj.INJ_NODE.key

/-! ### Step 6 and steps 7 and 8 -/

/-- Objects of a ring's active schedule whose value a commit changes (R40), for rings in PLAY. -/
def activeFails (old new : State) : List Nat :=
  (List.range 4).flatMap fun r => if old.inPlay r = false then [] else
    let sc := old.sched r
    failIf (decide (old.get Ob.Sched.CYCLE_EXP r sc ≠ new.get Ob.Sched.CYCLE_EXP r sc)) (Ob.Sched.CYCLE_EXP.key r sc) ++
    failIf (decide (old.get Ob.Sched.WHISTLE_OFFSET r sc ≠ new.get Ob.Sched.WHISTLE_OFFSET r sc)) (Ob.Sched.WHISTLE_OFFSET.key r sc) ++
    failIf (decide (old.bytes Ob.Sched.AXIS_PLAN r sc ≠ new.bytes Ob.Sched.AXIS_PLAN r sc)) (Ob.Sched.AXIS_PLAN.key r sc) ++
    failIf (decide (old.bytes Ob.Sched.IO_SIZES r sc ≠ new.bytes Ob.Sched.IO_SIZES r sc)) (Ob.Sched.IO_SIZES.key r sc)

/-- Step 7 (R112): every object that fails a cross-object rule. -/
def consistFails (old new : State) (l : List Staged) : List Nat :=
  mappingFails new ++ offsideFails new ++ biquadFails new ++ followFails new ++ inputFails new ++ masterFails new ++ gearFails new ++ softFails new ++ feedbackFails new ++
  camFails old new l ++ encoderFails new ++ latchFails new ++ outputFails new ++ portFails new ++ schedFails new ++ blockFails new ++
  ubFails old new l ++ safetyFails new ++ pairFails new ++ traceFails new ++ injectFails new

/-- A gain converts (R160). -/
def converts (g : Rat) : Bool := (gainConv g).isSome

/-- Gains of an axis that are converted by themselves (R160, R186), with their number of banks. -/
def axisGains : List (Obj × Nat) :=
  [(Ob.Pos.KP_POS, 4), (Ob.Pos.KVFF, 4), (Ob.Pos.KAFF, 4), (Ob.Pos.KP_VEL, 4), (Ob.Pos.KD_VEL, 4), (Ob.Cur.KP_CUR, 1), (Ob.Cur.LD_DEC, 1),
   (Ob.Cur.LQ_DEC, 1), (Ob.Cur.ELEC_PER_UNIT, 1), (Ob.Cur.FOLLOW_SCALE, 1)]

/-- Intervals T_v and T_cyc in ns of every schedule of an axis's ring that holds an entry for it (R160). -/
def axisIntervals (s : State) (a : Nat) : List (Nat × Nat) :=
  let r := s.axisRing a
  (List.range 8).filterMap fun sc => (s.planEntry r sc a).map fun e => (2 ^ bits e 8 2 * s.tcycSched r sc, s.tcycSched r sc)

/-- Step 8 (R112, R113, R160): gains and products that do not convert. -/
def gainFails (s : State) : List Nat :=
  (axisGains.flatMap fun (o, n) => (List.range n).flatMap fun j =>
    failing 256 (fun a => !converts (let g := f32Rat (s.get o a j); if g < 0 then -g else g)) (fun a => o.key a j)) ++
  ((List.range 4).flatMap fun j =>
    failing 256 (fun a => (axisIntervals s a).any fun i => !converts (f32Rat (s.get Ob.Pos.KI_VEL a j) * secs i.1)) (fun a => Ob.Pos.KI_VEL.key a j) ++
    failing 256 (fun a => (axisIntervals s a).any fun i => !converts (f32Rat (s.get Ob.Pos.K_AW a j) * secs i.1)) (fun a => Ob.Pos.K_AW.key a j)) ++
  failing 256 (fun a => (axisIntervals s a).any fun i => !converts (f32Rat (s.get Ob.Cur.KI_CUR a) * secs i.2)) (fun a => Ob.Cur.KI_CUR.key a) ++
  ((List.range 3).flatMap fun k => failing 8 (fun p => !converts (let g := f32Rat (s.get Ob.Sd.SD_GAIN p 0 k); if g < 0 then -g else g))
    (fun p => Ob.Sd.SD_GAIN.key p 0 k)) ++
  failIf (!converts (f32Rat (s.get Ob.Inj.INJ_AMPLITUDE))) Ob.Inj.INJ_AMPLITUDE.key

/-- The failing object with the lowest index and subindex. -/
def firstFail (l : List Nat) : Option Nat := match l with | [] => none | k :: t => some (t.foldl min k)

end Sys2Proof.Machine
end

