-- ==== Sys2Proof/Machine/Session.lean ====
section
/-! DEFINITION. What commands on sessions share: Linli messages and their transport (R132 to R138, R154), the staged copy's emptying
(R108), possession (R144, R147 to R149). -/

namespace Sys2Proof.Machine

/-! ### Tables of the state -/

/-- A session beside its objects. -/
def State.sess (s : State) (k : Nat) : SessRt := SMap.getD s.host.sess k {}
/-- A session replaced. -/
def State.setSess (s : State) (k : Nat) (x : SessRt) : State := { s with host := { s.host with sess := SMap.put s.host.sess k x } }
/-- A session changed. -/
def State.modSess (s : State) (k : Nat) (f : SessRt → SessRt) : State := s.setSess k (f (s.sess k))
/-- A PCIe channel. -/
def State.chan (s : State) (c : Nat) : ChanRt := SMap.getD s.host.chans c {}
/-- A PCIe channel replaced. -/
def State.setChan (s : State) (c : Nat) (x : ChanRt) : State := { s with host := { s.host with chans := SMap.put s.host.chans c x } }
/-- What a commit keeps, changed. -/
def State.modCom (s : State) (f : CommitRt → CommitRt) : State := { s with com := f s.com }

/-- The session is open. -/
def sessOpen (s : State) (k : Nat) : Bool := decide (k < 16) && decide (s.get Ob.Sess.STATE k = 1)

/-- The open sessions. -/
def openSessions (s : State) : List Nat := (List.range 16).filter fun k => sessOpen s k

/-- Sessions with a pending claim. -/
def claims (s : State) : List Nat := (openSessions s).filter fun k => decide (s.get Ob.Sess.CLAIM_PRIORITY k ≠ 0)

/-- The session holds possession; CAPTAIN on a standby may name a session of the active unit's own (R152). -/
def isCaptain (s : State) (k : Nat) : Bool := decide (s.get Ob.Poss.CAPTAIN = k) && decide (k < 16) && !s.host.away

/-! ### Messages (R132, R133, R138, R141, R154) -/

/-- A message that the G9256 sends (Table 06-1): FLAGS.REPLY is set. -/
def linliBytes (op sess seqNo status token : Nat) (body : List Byte) : List Byte :=
  leBytes 2 0x4E4C ++ leBytes 1 1 ++ leBytes 1 op ++ leBytes 1 1 ++ leBytes 1 sess ++ leBytes 2 seqNo ++ leBytes 2 status ++
  leBytes 2 body.length ++ leBytes 4 token ++ body

/-- The next queued reply written to the reply buffer of channel `c`, where REPLY_READY is 0 (R154); MSI-X vector `c` signals it. Octets of the
buffer beyond the message read 0 (assumption log 191). -/
def fillReply (s : State) (c : Nat) : State :=
  let x := s.chan c
  match x.queue with
  | b :: t => if bit x.status 31 then s else
      (s.setChan c { x with queue := t, reply := b, status := 2 ^ 31 + bitAt (bit x.status 30) 30 + b.length }).emit (.packet 3 c [])
  | [] => s

/-- The held notification written to the notify buffer of channel `c`, where NOTIFY_READY is 0 (R154). -/
def fillNote (s : State) (c : Nat) : State :=
  let x := s.chan c
  match x.held with
  | some b => if bit x.notify 31 then s else (s.setChan c { x with held := none, note := b, notify := 2 ^ 31 + b.length }).emit (.packet 3 c [])
  | none => s

/-- A reply sent the way its request came (R132, R154): over Ethernet at once, over PCIe through the queue of up to 8 replies. -/
def sendReply (s : State) (p : Path) (b : List Byte) : State :=
  if p.via < 2 then s.emit (.linli p b)
  else
    let x := s.chan (p.via - 2)
    fillReply (if x.queue.length < 8 then s.setChan (p.via - 2) { x with queue := x.queue ++ [b] } else s) (p.via - 2)

/-- Objects of session `k`, with their values (R150). -/
def sessObjects (s : State) (k : Nat) : SMap Val := s.od.filter fun e => decide (e.1 / 256 = 0x1110 + k)

/-- A session told to the standby, where it lives at SERVICE_IP (R150). -/
def mirrorSess (s : State) (k : Nat) : State := if (s.sess k).own then s else mirror s (.session k (s.sess k) (sessObjects s k))

/-- Possession told to the standby, with the cause of its change (R150). -/
def mirrorPoss (s : State) (cause : Nat) : State :=
  let c := s.nat Ob.Poss.CAPTAIN
  mirror s (.possession (decide (c < 16) && (s.sess c).own) cause s.host.looseAt s.host.firstClaim (s.od.filter fun e => decide (e.1 / 256 = 0x1100)))

/-- A session's answer waits for the standby (R150): the session lives at SERVICE_IP of a mirroring active unit. -/
def waitsForStandby (s : State) (k : Nat) : Bool := mirroring s && !(s.sess k).own

/-- A reply to a request of session `k` (R150): of a session at SERVICE_IP only once the standby has acknowledged what the request produced. -/
def replyTo (s : State) (k : Nat) (p : Path) (b : List Byte) : State :=
  if waitsForStandby s k then
    let s := mirrorSess s k
    { s with pair := { s.pair with held := s.pair.held ++ [(s.pair.mirrorNo, p, b)] } }
  else sendReply s p b

/-- A write by session `k` outside a WRITE message answered (assumption log 5), under R150 as any other reply. -/
def answerBy (k : Nat) (r : Act) : Host.Outcome State Fault Refusal :=
  if sessOpen r.1 k && waitsForStandby r.1 k then
    let s := mirrorSess r.1 k
    .next { s with pair := { s.pair with lone := s.pair.lone ++ [(s.pair.mirrorNo, r.2)] } }
  else answer r

/-- A notification sent to a session: NOTIFY_SEQ rises by 1 (R141); those of sessions at SERVICE_IP leave the active unit. -/
def notifySess (s : State) (k : Nat) (body : List Byte) : State :=
  if notActive s && !(s.sess k).own then s else
  let s := s.wrapInc Ob.Sess.NOTIFY_SEQ k
  let s := mirrorSess s k
  let b := linliBytes 0x31 k (s.nat Ob.Sess.NOTIFY_SEQ k) 0 (s.sess k).token body
  let via := s.nat Ob.Sess.TRANSPORT k
  if via < 2 then s.emit (.linli { via := via, own := (s.sess k).own, port := s.nat Ob.Poss.UDP_PORT, peer := s.nat Ob.Sess.PEER k } b)
  else fillNote (s.setChan (via - 2) { s.chan (via - 2) with held := some b }) (via - 2)

/-- The reply to a request kept in its session's window (R138). -/
def keepReply (s : State) (k seqNo status : Nat) (body : List Byte) : State :=
  s.modSess k fun x => { x with win := x.win.map fun r => if r.seqNo = seqNo then { r with reply := some (status, body) } else r }

/-! ### The staged copy (R107, R108) -/

/-- Bytes of the staged STR and DOMAIN values. -/
def stagedBytes (l : List Staged) : Nat := (l.map fun e => match e.val with | .bytes b => b.length | .num _ => 0).sum

/-- The staged copy replaced, with STAGED_COUNT and STAGED_BYTES, and told to the standby (R150). -/
def putStaged (s : State) (l : List Staged) : State :=
  mirror ((({ s with staged := l }).set Ob.Com.STAGED_COUNT l.length).set Ob.Com.STAGED_BYTES (stagedBytes l)) (.staged l)

/-- The staged copy emptied by a change of possession: counted where it held an entry (R108). -/
def dropStaged (s : State) : State := if s.staged.isEmpty then s else (putStaged s []).count Ob.Com.DISCARD_COUNT

/-! ### Possession (R144, R147 to R149) -/

/-- POSSESSION_STATE brought up to date (Table 06-9). -/
def publishPoss (s : State) : State :=
  s.set Ob.Poss.POSSESSION_STATE (if s.get Ob.Poss.CAPTAIN ≠ 0xFF then 1 else if (claims s).isEmpty then 0 else 2)

/-- The number of the next snapshot (R121). -/
def nextSnapshot (s : State) : Nat := let n := s.nat Ob.Sb.SNAPSHOT_ID; if 0xFFFFFFFE ≤ n then 1 else n + 1

/-- A POSSESSION notification to every open session (R141, Table 06-6). -/
def notifyPossession (s : State) (cause : Nat) : State :=
  forList (openSessions s) (fun k s => notifySess s k (leBytes 1 2 ++ leBytes 1 (s.nat Ob.Poss.CAPTAIN) ++ leBytes 1 cause ++ leBytes 1 0 ++
    leBytes 4 (nextSnapshot s))) s

/-- Possession passes to `c` (0xFF: loose) with a cause of Table 06-6: the old captain's staged copy and safety session end, the new
captain's claim is cleared, the jog bits of CONTROL clear (R108, R147 to R149, R188, R359). -/
def possessionTo (s : State) (c cause : Nat) : State :=
  if s.nat Ob.Poss.CAPTAIN = c then s else
    let held := decide (s.get Ob.Poss.CAPTAIN ≠ 0xFF)
    let s := if held then (if s.com.phase ≠ 0 then s.modCom fun k => { k with discardAfter := true } else dropStaged s) else s
    let s := clearJogs (safetyClose s)
    let s := (s.set Ob.Poss.CAPTAIN c).count Ob.Poss.POSSESSION_CHANGES
    let s := if c = 0xFF then s else (s.set Ob.Sess.CLAIM_PRIORITY 0 c).set Ob.Sess.CLAIM_TIME 0 c
    let s := { s with host := { s.host with looseAt := if c = 0xFF then s.now else s.host.looseAt,
                                            away := false,
                                            firstClaim := if c = 0xFF ∧ (claims s).isEmpty = false then some s.now else none } }
    mirrorPoss (publishPoss (notifyPossession s cause)) cause

/-- A session's claim set or withdrawn, with its claim time (R146); a captain's claim has no effect. -/
def setClaim (s : State) (k prio time : Nat) : State :=
  if isCaptain s k then s else
    let s := (s.set Ob.Sess.CLAIM_PRIORITY prio k).set Ob.Sess.CLAIM_TIME (if prio = 0 then 0 else time) k
    let loose := decide (s.get Ob.Poss.CAPTAIN = 0xFF)
    let first := if (claims s).isEmpty ∨ loose = false then none else some (s.host.firstClaim.getD s.now)
    mirrorPoss (mirrorSess (publishPoss { s with host := { s.host with firstClaim := first } }) k) 0

/-- A session closed (R144) with a cause of Table 06-6. -/
def closeSession (s : State) (k cause : Nat) : State :=
  if sessOpen s k = false then s else
    let s := ((s.set Ob.Sess.STATE 0 k).set Ob.Sess.SUBSCRIPTIONS 0 k).set Ob.Poss.SESSION_COUNT (s.get Ob.Poss.SESSION_COUNT - 1)
    let s := if isCaptain s k then possessionTo s 0xFF cause else s
    let s := setClaim s k 0 0
    mirrorSess (s.setSess k { s.sess k with win := [], subs := [], opened := [] }) k

end Sys2Proof.Machine
end

