-- ==== Sys2Proof/Machine/Apply.lean ====
section
/-! DEFINITION. What the values of a commit do when they come into force (R115, R119, R167, R168, R193, R198, R218, R222, R223, R227, R241,
R278, R280, R362, R419). `tA` is the whistle at which a share applies, `old` the state before it. -/

namespace Sys2Proof.Machine

/-! ### Shares of a commit (R115) -/

/-- The axis whose block a key lies in, or whose safety objects it names. -/
def axisOfKey (k : Nat) : Option Nat :=
  if 0x400000 ≤ k ∧ k < 0x800000 then some ((k / 256 - 0x4000) / 0x40)
  else if 0x910000 ≤ k ∧ k < 0x920000 then some (k / 256 - 0x9100)
  else none

/-- The share of an axis: its ring, or 4 where it is mapped to a local port or unmapped. -/
def axisShare (s : State) (a : Nat) : Nat := if s.get Ob.Map.RING a < 4 then s.nat Ob.Map.RING a else 4

/-- Shares a key belongs to in the resulting configuration `new` (R115): those of its axis, its ring, the injected axis, or the local
units; a mapping also leaves its old ring. -/
def sharesOf (old new : State) (k : Nat) : List Nat :=
  match axisOfKey k with
  | some a =>
    let n := axisShare new a
    if k / 256 = 0x4000 + 0x40 * a ∧ axisShare old a ≠ n then [n, axisShare old a] else [n]
  | none =>
    let i := k / 256
    if 0x2000 ≤ i ∧ i < 0x3000 then [(i - 0x2000) / 0x400]
    else if 0x3110 ≤ i ∧ i < 0x3130 then [(i - 0x3110) / 8]
    else if 0x9200 ≤ i ∧ i < 0x9300 then [(i - 0x9200) / 0x40]
    else if i = 0xC020 then [let a := new.nat Ob.Inj.INJ_AXIS; if a < 256 then axisShare new a else 4]
    else [4]

/-- The entries of a commit by share, for apply instant `a`; shares without entries are left out. -/
def splitShares (old : State) (l : List Staged) (a : Nat) : List (Nat × Nat × List Staged) :=
  let new := withEntries old l
  (List.range 5).filterMap fun sh =>
    match l.filter fun e => (sharesOf old new e.key).contains sh with
    | [] => none
    | m => some (sh, a, m)

/-! ### Axes -/

/-- The numbers of an object differ before and after for an axis. -/
def differs (old new : State) (o : Obj) (a : Nat) (j : Nat := 0) (k : Nat := 0) : Bool := decide (old.get o a j k ≠ new.get o a j k)

/-- Values of the velocity bank in force (R168). -/
def velocityBank : List Obj := [Ob.Pos.KP_VEL, Ob.Pos.KI_VEL, Ob.Pos.KD_VEL, Ob.Pos.TD_VEL, Ob.Pos.I_LIM_POS, Ob.Pos.I_LIM_NEG, Ob.Pos.K_AW]

/-- Values of the position bank in force (R168). -/
def positionBank : List Obj := [Ob.Pos.KP_POS, Ob.Pos.KVFF, Ob.Pos.KAFF]

/-- Coefficients of a biquad. -/
def biquadObjects : List Obj := [Ob.Pos.BQ_B0, Ob.Pos.BQ_B1, Ob.Pos.BQ_B2, Ob.Pos.BQ_A1, Ob.Pos.BQ_A2]

/-- Biquad `j` of an axis after a commit: its steady state is due at the next velocity run, or its states are 0 (R167). -/
def applyBiquad (old s : State) (a j : Nat) : State :=
  let on := s.flag Ob.Pos.BQ_ENABLE a j
  let was := old.flag Ob.Pos.BQ_ENABLE a j
  let changed := biquadObjects.any fun o => differs old s o a j
  if on ∧ (changed ∨ was = false) then
    s.modAxis a fun x => { x with loop := if j = 0 then { x.loop with bqInit1 := true } else { x.loop with bqInit2 := true } }
  else if was ∧ on = false then
    s.modAxis a fun x => { x with loop := if j = 0 then { x.loop with b1s1 := 0, b1s2 := 0, bqInit1 := false }
                                           else { x.loop with b2s1 := 0, b2s2 := 0, bqInit2 := false } }
  else s

/-- The loops of an axis after a commit: u_I is clamped under a changed bank (R168), biquads (R167). -/
def applyLoops (old s : State) (a : Nat) : State :=
  let b := bankOf s a
  let s := if bankOf old a ≠ b ∨ ((positionBank ++ velocityBank).any fun o => differs old s o a b) = true then
      s.modAxis a fun x => { x with loop := { x.loop with rebank := true } }
    else s
  applyBiquad old (applyBiquad old s a 0) a 1

/-- A running plan formed anew under changed limits, with its target unchanged (R198): the plan of a profile mode, of a jog, of a homing or of a RAMP_STOP. -/
def replanOf (s : State) (a t : Nat) (p : Plan) : Option Plan :=
  let x := s.axis a
  let k := setpointKinAt x t
  let l := axisLimits s a
  if p.endAt ≤ t then none
  else if x.mot.state = .stopping then (if x.mot.stopKind = some .ramp then some (stopPlan t k l.d l.j) else none)
  else match x.mot.mode with
    | 1 => some (positionPlan t k (q32 p.xEnd) l)
    | 2 => if p.vEnd = 0 ∧ s.get Ob.Ctl.TARGET_VELOCITY a ≠ 0 then some (positionPlan t k (q32 p.xEnd) l)
      else some (velocityPlan t k (q32 (clampInt (s.get Ob.Ctl.TARGET_VELOCITY a) (-(s.get Ob.Ctl.V_MAX a)) (s.get Ob.Ctl.V_MAX a))) l)
    | 7 => some (velocityPlan t k (x.mot.jog * min (q32 (s.get Ob.Ctl.JOG_VELOCITY a)) l.v) l)
    | 6 => if x.mot.home.phase = 8 then none else
      let acc := q32 (s.get Ob.Home.HOME_ACC a)
      some (velocityPlan t k (q32 p.vEnd) ⟨|q32 p.vEnd|, acc, acc, l.j⟩)
    | _ => none

/-- The plans of an axis after a commit that changes its limits (R198): its plan, and the correction of a coupling. -/
def replan (s : State) (a t : Nat) : State :=
  let m := (s.axis a).mot
  let s := match m.plan.bind fun p => replanOf s a t p with
    | some q => publishState (s.modMot a fun m => { m with plan := some q, motionDone := decide (q.endAt ≤ t) }) a
    | none => s
  match m.corr with
  | some p => if p.endAt ≤ t then s else let e := p.eval t; s.modMot a fun m => { m with corr := some (correction s a t e.1 e.2.1 e.2.2) }
  | none => s

/-- A ratio change armed at whistle `t` (R222, R223). -/
def armChange (s : State) (a t : Nat) : State :=
  let k := s.nat Ob.Gear.MASTER a
  let m := masterFor s k t
  let p := s.get Ob.Gear.CHANGE_AT a
  let late := decide (s.get Ob.Mst.PERIOD k = 0) && (decide (0 < m.vel ∧ p ≤ m.pos) || decide (m.vel < 0 ∧ m.pos ≤ p))
  let c : RatioChange := { num := s.get Ob.Gear.NEXT_NUM a, den := s.get Ob.Gear.NEXT_DEN a, p := if late then m.pos else p, b := s.get Ob.Gear.BLEND a }
  match (s.axis a).mot.chg with
  | some g =>
    if g.started then s.modMot a fun x => { x with chgNext := some c }
    else publishState ((s.modMot a fun x => { x with chg := some c }).set Ob.Gear.CHANGE_STATE (if late then 4 else 1) a) a
  | none => publishState ((s.modMot a fun x => { x with chg := some c }).set Ob.Gear.CHANGE_STATE (if late then 4 else 1) a) a

/-- A cam switch armed (R227). -/
def armCam (s : State) (a : Nat) : State :=
  publishState ((s.modMot a fun x => { x with camSw := some (s.get Ob.Gear.SWITCH_AT a, s.nat Ob.Gear.NEXT_CAM a) }).set Ob.Gear.SWITCH_STATE 1 a) a

/-- An axis after a commit: feedback source, loops, mode entry, limits of a running plan, armings, mapping. -/
def applyAxis (old s : State) (l : List Staged) (a tA : Nat) : State :=
  let w (o : Obj) : Bool := writes l (o.key a)
  let moved := [Ob.Map.RING, Ob.Map.WORKER, Ob.Map.CHANNEL, Ob.Map.LOCAL_PORT].any fun o => differs old s o a
  let s := if moved then s.modAxis a fun x => { x with waiting := none, undoneWhy := none } else s
  let s := if differs old s Ob.AxFb.FB_SOURCE a || differs old s Ob.AxFb.FB_UNIT a then startRebase s a else s
  let s := applyLoops old s a
  let s := if [Ob.Ctl.V_MAX, Ob.Ctl.A_MAX, Ob.Ctl.D_MAX, Ob.Ctl.J_MAX].any fun o => differs old s o a then replan s a tA else s
  let s := if w Ob.Ctl.MODE || w Ob.Ctl.MOVE || w Ob.Ctl.TARGET_POSITION || w Ob.Ctl.TARGET_VELOCITY then requestEntry s a tA else s
  let s := if w Ob.Gear.CHANGE_ARM then armChange s a tA else s
  if w Ob.Gear.CAM_ARM then armCam s a else s

/-! ### User blocks (R278 to R280) -/

/-- First place of `n` units from `lo` that no used range touches, stepping over the ranges. -/
def placeFrom : Nat → List (Nat × Nat) → Nat → Nat → Nat
  | 0, _, lo, _ => lo
  | f + 1, used, lo, n =>
    match used.find? fun r => decide (lo < r.1 + r.2 ∧ r.1 < lo + n) with
    | some r => placeFrom f used (r.1 + r.2) n
    | none => lo

/-- Ranges of CODE in bundles, and of DATA in bytes up to a multiple of 8, of the blocks that a test accepts. -/
def codeRanges (s : State) (f : Nat → Bool) : List (Nat × Nat) :=
  ((List.range 32).filter f).filterMap fun v =>
    let n := (s.bytes Ob.Ub.CODE v).length / 16
    if n = 0 then none else some (s.nat Ob.Ub.CODE_ADDR v, n)

/-- As `codeRanges`, of DATA. -/
def dataRanges (s : State) (f : Nat → Bool) : List (Nat × Nat) :=
  ((List.range 32).filter f).filterMap fun v =>
    let n := (s.bytes Ob.Ub.DATA v).length
    if n = 0 then none else some (s.nat Ob.Ub.DATA_ADDR v, (n + 7) / 8 * 8)

/-- The first fit for `n` units from `lo` below `hi` beside what was in use before the commit (R119, R279); where the free space is in pieces, beside what the
other blocks use after it. -/
def placeBeside (before after : List (Nat × Nat)) (lo hi n : Nat) : Nat :=
  let p := placeFrom (before.length + after.length + 1) (before ++ after) lo n
  if p + n ≤ hi then p else placeFrom (after.length + 1) after lo n

/-- Changed code of block `u` placed in the instruction SRAM, first fit (R279, R280). -/
def placeCode (old s : State) (u : Nat) : State :=
  let b := s.bytes Ob.Ub.CODE u
  if b.isEmpty then s.put1 Ob.Ub.CODE_ADDR 0 u else
    let p := placeBeside (codeRanges old fun _ => true) (codeRanges s fun v => decide (v ≠ u)) 0x1000 0x2000 (b.length / 16)
    ({ s with ucode := Mem.writeBytes s.ucode ((p - 0x1000) * 16) b }).set Ob.Ub.CODE_ADDR p u

/-- Changed constant data of block `u` placed in the data SRAM of every engine, first fit on 8-byte bounds. -/
def placeData (old s : State) (u : Nat) : State :=
  let b := s.bytes Ob.Ub.DATA u
  if b.isEmpty then s.put1 Ob.Ub.DATA_ADDR 0 u else
    let p := placeBeside (dataRanges old fun _ => true) (dataRanges s fun v => decide (v ≠ u)) 0x20000 0x3C000 ((b.length + 7) / 8 * 8)
    (forBelow 8 (fun e s => s.modAce e fun x => { x with mem := Mem.writeBytes x.mem p b }) s).set Ob.Ub.DATA_ADDR p u

/-- The state areas of an axis whose view of the user blocks changes from `old` to `new`: areas of blocks already bound keep their contents, newly bound ones are 0 (R278). -/
def applyAreas (old new s : State) (a : Nat) : State :=
  let lay (s : State) : List (Nat × Nat × Nat) := (blocksOf s a).map fun u => (u, areaOff s a u, s.nat Ob.Ub.STATE_SIZE u)
  if lay old = lay new then s else
    let m := (s.axis a).user
    let n : Mem := (lay new).foldl (fun n e => match (lay old).find? fun o => decide (o.1 = e.1) with
      | some o => Mem.copy m o.2.1 n e.2.1 (min o.2.2 e.2.2)
      | none => n) []
    s.modAxis a fun x => { x with user := n }

/-- User blocks after a commit (R278 to R280). -/
def applyBlocks (old s : State) : State :=
  let s := forBelow 32 (fun u s =>
    let s := if old.bytes Ob.Ub.CODE u ≠ s.bytes Ob.Ub.CODE u then placeCode old s u else s
    if old.bytes Ob.Ub.DATA u ≠ s.bytes Ob.Ub.DATA u then placeData old s u else s) s
  let s := s.put1 Ob.AceC.USER_CODE_USED ((List.range 32).map fun u => (s.bytes Ob.Ub.CODE u).length).sum
  s.put1 Ob.AceC.USER_DATA_USED ((List.range 32).map fun u => (s.bytes Ob.Ub.DATA u).length).sum

/-! ### Cams, masters, units, ports -/

/-- Places of the segments of the cams that a test accepts: first segment and number (R226). -/
def camRanges (s : State) (f : Nat → Bool) : List (Nat × Nat) :=
  ((List.range 1024).filter fun c => f c && decide (camCount s c ≠ 0)).map fun c => (s.nat Ob.Cam.FIRST_SEGMENT c, camCount s c)

/-- The segments of cam `c` placed in the cam region of the shared SRAM, beside what was in use before the commit (R11, R119, R226). -/
def placeCam (old s : State) (c : Nat) : State :=
  let b := s.bytes Ob.Cam.SEGMENTS c
  let n := camCount s c
  if n = 0 then s.put1 Ob.Cam.FIRST_SEGMENT 0 c else
    let p := placeBeside (camRanges old fun _ => true) (camRanges s fun k => decide (k ≠ c)) 0 65536 n
    ({ s with shared := Mem.writeBytes s.shared ((sharedRegion 3).1 + 32 * p) b }).set Ob.Cam.FIRST_SEGMENT p c

/-- Derived cam objects (Table 08-13): RISE, SEGMENT_COUNT, FIRST_SEGMENT, CAM_SEGMENTS_USED; the standby of a pair uses the active unit's places (R372). -/
def publishCams (old s : State) (l : List Staged) : State :=
  let touched := (List.range 1024).filter fun c => writes l (Ob.Cam.SEGMENTS.key c) || writes l (Ob.Cam.COEF_SHIFT.key c)
  if touched.isEmpty then s else
    let s := forList touched (fun c s =>
      (s.put1 Ob.Cam.RISE (camRiseOf (s.bytes Ob.Cam.SEGMENTS c) (s.nat Ob.Cam.COEF_SHIFT c)) c).put1 Ob.Cam.SEGMENT_COUNT (camCount s c) c) s
    let s := forList (touched.filter fun c => writes l (Ob.Cam.SEGMENTS.key c)) (fun c s => placeCam old s c) s
    let s := mirror s (.placement (touched.map fun c => (Ob.Cam.FIRST_SEGMENT.key c, .num (s.nat Ob.Cam.FIRST_SEGMENT c))))
    s.put1 Ob.Mach.CAM_SEGMENTS_USED ((List.range 1024).map fun c => camCount s c).sum

/-- USERS of every cam (Table 08-13): axes in CAM mode with the cam active or armed. -/
def publishUsers (s : State) : State :=
  let l := (List.range 256).flatMap fun a => (camsInUse s a).eraseDups
  forBelow 1024 (fun c s => s.put1 Ob.Cam.USERS (l.count c) c) s

/-- A virtual master after a commit (R218): replanned where VM_VELOCITY, VM_ACC or VM_JERK changes, from A + 1 ms. One that a machine stop has brought to
rest stays there until a commit after the stop changes VM_VELOCITY (R206). -/
def applyMasters (old s : State) (tA : Nat) : State :=
  forBelow 8 (fun k s =>
    let v := differs old s Ob.Mst.VM_VELOCITY k
    if v && decide (s.get Ob.Mach.STOP_ACTIVE = 0) then requestReplan (s.setMaster k { s.master k with stopped := false }) k tA
    else if (v || differs old s Ob.Mst.VM_ACC k || differs old s Ob.Mst.VM_JERK k) && !(s.master k).stopped then requestReplan s k tA else s) s

/-- Feedback units after a commit: a unit whose MODE changes starts anew, and its axes are rebased (R241); an open input is
reported again (R236). -/
def applyUnits (old s : State) : State :=
  forBelow 12 (fun u s =>
    if unitMode old u ≠ unitMode s u then
      let f := s.fbu u
      let q : QuadSt := { a := f.quad.a, b := f.quad.b, z := f.quad.z, wires := f.quad.wires }
      let s := forList (unitAxes s u) (fun a s => startRebase s a) (putUnit s u { quad := q })
      if q.wires ≠ 0 ∧ unitMode s u ≠ 0 then unitFault s u else s
    else s) s

/-- Local ports after a commit: a port whose FUNCTION changes starts that function anew (Table 12-15, PERIODS). -/
def applyPorts (old s : State) : State :=
  forBelow 8 (fun p s =>
    if differs old s Ob.Port.FUNCTION p then
      let q := s.port p
      putPort (s.set Ob.Pwm.PERIODS 0 p) p { q with armed := none, queue := [], due := none, enabled := false, duty := [0, 0, 0, 0, 0, 0], startQ := none, refs := [], step := {} }
    else s) s

/-- TIMED of every output (Table 13-11): named by a TTP channel or a compare unit. -/
def publishTimed (s : State) : State :=
  forBelow 16 (fun q s => s.put1 Ob.Outp.TIMED (bitAt ((List.range 8).any fun c =>
    decide (s.get Ob.Ttp.TARGET c = q + 1) || decide (s.get Ob.Cmp.TARGET c = q + 1)) 0) q) s

/-- Injection by commit (R419): INJ_GO starts it where the axis is ENABLED, INJ_STOP ends it. -/
def applyInjection (s : State) (l : List Staged) (tA : Nat) : State :=
  let a := s.nat Ob.Inj.INJ_AXIS
  let s := if writes l Ob.Inj.INJ_GO.key then
      if a < 256 ∧ (s.axis a).mot.state = .enabled then
        (({ s with obs := { s.obs with inj := { on := true, t0 := tA } } }).set Ob.Inj.INJ_STATE 1).set Ob.Inj.INJ_START_CYCLE (s.nat Ob.Cyc.CYCLE_NUMBER 0 0 (s.axisRing a))
      else s.set Ob.Inj.INJ_STATE 4
    else s
  if writes l Ob.Inj.INJ_STOP.key then injEnd s 3 else s

/-- Derived objects that follow from the configuration: KIND, DECLARED_LENGTH, VALID, ACTIVE_SCHEDULE of rings not in PLAY. -/
def publishDerived (s : State) : State :=
  let s := forBelow 256 (fun a s => s.put1 Ob.Map.KIND (s.kindOf a) a) s
  let s := forBelow 4 (fun r s =>
    let s := s.put1 Ob.Ring.DECLARED_LENGTH (declaredLength s r) r
    if s.inPlay r then s else s.put1 Ob.Cyc.ACTIVE_SCHEDULE (s.get Ob.Cyc.START_SCHEDULE 0 0 r) 0 0 r) s
  let s := forBelow 4 (fun r s => forBelow 8 (fun sc s => s.put1 Ob.Sched.VALID (bitAt (rateOk s r sc) 0) r sc) s) s
  publishTimed s

/-- An output that a commit routes to a pulse channel or a compare unit, or whose POLARITY it changes, goes to its idle level where no pulse is in progress
(R99, Table 09-9); a field output 5 µs on, the least lead of an edge (R100). -/
def idleOutputs (old s : State) : State :=
  let idle (s : State) (target : Nat) (lv : Bool) : State := planEdge (pinEdge s target lv) target (s.now + 5000) lv
  forBelow 8 (fun c s =>
    let s := if (differs old s Ob.Ttp.TARGET c || differs old s Ob.Ttp.POLARITY c) && !(s.ttp c).high then idle s (s.nat Ob.Ttp.TARGET c) (s.flag Ob.Ttp.POLARITY c) else s
    if (differs old s Ob.Cmp.TARGET c || differs old s Ob.Cmp.POLARITY c) && !(s.cmp c).level then idle s (s.nat Ob.Cmp.TARGET c) (s.flag Ob.Cmp.POLARITY c) else s) s

/-- Axes whose objects a share writes. -/
def axesTouched (l : List Staged) : List Nat := (List.range 256).filter fun a => l.any fun e => decide (axisOfKey e.key = some a)

/-- The axis keeps what its objects held before a commit until its first completed cycle (R39); its mapping changes at once. -/
def keepOld (old s : State) (l : List Staged) (a : Nat) : State :=
  let r := s.get Ob.Map.RING a
  if s.kindOf a = 0 ∨ (r < 4 ∧ s.inPlay r.toNat = false) then s
  else s.modAxis a fun x =>
    let ks := (l.filter fun e => decide (axisOfKey e.key = some a ∧ e.key / 256 ≠ 0x4000 + 0x40 * a ∧ SMap.get? x.oldVals e.key = none)).map (·.key)
    { x with oldVals := x.oldVals ++ old.entriesAt ks }

/-- A share of a commit comes into force at whistle `tA`; `a` is the apply instant. -/
def applyShare (s : State) (l : List Staged) (a tA : Nat) : State :=
  let old := s
  let s := withEntries s l
  let s := idleOutputs old (applyPorts old (applyUnits old (applyMasters old (applyBlocks old s) a)))
  let s := forList (axesTouched l) (fun x s => keepOld old (applyAxis old s l x tA) l x) s
  let s := applyInjection (publishCams old s l) l tA
  let s := publishDerived s
  if l.any fun e => (rowOf e.key).any fun o => decide (o.acc = .saf) then publishSafetyCrc s else s

end Sys2Proof.Machine
end

