-- ==== Sys2Proof/Machine/Commit.lean ====
section
/-! DEFINITION. Commit (R108, R109, R112 to R120) and the stored configuration (R126, R129). -/

namespace Sys2Proof.Machine

/-! ### Results -/

/-- LAST_RESULT, LAST_REASON and LAST_OBJECT (R112). -/
def commitResult (s : State) (status reason obj : Nat) : State :=
  ((s.set Ob.Com.LAST_RESULT status).set Ob.Com.LAST_REASON reason).set Ob.Com.LAST_OBJECT obj

/-- Body of a COMMIT reply (Table 06-2). -/
def commitBody (s : State) (tag : Nat) : List Byte :=
  leBytes 1 tag ++ leBytes 1 (s.nat Ob.Com.LAST_REASON) ++ leBytes 2 0 ++ leBytes 4 (s.nat Ob.Com.LAST_OBJECT) ++
  leBytes 4 (s.nat Ob.Com.LAST_APPLY_CYCLE) ++ leBytes 8 (s.nat Ob.Com.LAST_APPLY_TIME)

/-- The reply of a Linli COMMIT, to the session that sent it where that is still open (R120, R144). -/
def commitReplies (s : State) (k : CommitRt) (status tag : Nat) : State :=
  if k.viaObject ∨ k.startup ∨ sessOpen s k.sess = false ∨ (s.sess k.sess).token ≠ k.token then s
  else
    let b := commitBody s tag
    let s := keepReply s k.sess k.seqNo status b
    -- a session mirrored to a standby is answered by the active unit (R150)
    if notActive s && !(s.sess k.sess).own then s else replyTo s k.sess k.path (linliBytes 0x12 k.sess k.seqNo status k.token b)

/-- A commit carries SAF entries. -/
def carriesSafety (l : List Staged) : Bool := l.any fun e => e.safety.isSome

/-- The outcome of a commit recorded: LAST_RESULT, the change log's entry (R360), the staged copy (R108, R120). -/
def commitSettle (s : State) (status reason obj : Nat) : State :=
  let k := s.com
  let s := commitResult s status reason obj
  let s := if carriesSafety k.entries then logEntry s 2 k.sess status 0 else s
  let s := (s.modCom fun c => { c with blocks := [], discardAfter := false }).set Ob.Com.COMMIT_STATE 0
  if status = stOk then putStaged s [] else if k.discardAfter then dropStaged s else s

/-- A commit refused or rejected at a counted step: recorded and answered (R112, R117, R120). -/
def commitReject (s : State) (status reason obj : Nat) : State :=
  let k := s.com
  let s := commitSettle (s.count Ob.Com.REJECT_COUNT) status reason obj
  let s := s.modCom fun c => { c with phase := 0 }
  commitReplies (mirror s (.commit s.com)) k status (s.nat Ob.Com.LAST_TAG)

/-! ### Validation (R112, Table 05-4) -/

/-- Rings in PLAY. -/
def ringsPlaying (s : State) : List Nat := (List.range 4).filter fun r => s.inPlay r

/-- Worker parameter blocks of a commit for rings in PLAY (R60, R117, R118): the records that change, per worker. -/
def commitBlocks (old new : State) : List ParamBlock :=
  (ringsPlaying old).flatMap fun r => (List.range (old.nWorkers r)).filterMap fun i =>
    match changedRecords old new r (i + 1) with
    | [] => none
    | l => some { ring := r, pos := i + 1, bytes := blockOf l }

/-- Service slots that the blocks of a ring need. -/
def slotsNeeded (l : List ParamBlock) (r : Nat) : Nat := ((l.filter fun b => decide (b.ring = r)).map fun b => fragCount b.bytes).sum

/-- The blocks need more than 5 service slots on a ring (R62, step 10). -/
def slotsBeyond (s : State) (l : List ParamBlock) : Bool := (ringsPlaying s).any fun r => decide (5 < slotsNeeded l r)

/-- A rejoin of a ring that touches a worker of the commit's blocks (step 2, R76): positions behind the turning worker that do not yet serve their slot
again. -/
def rejoinTouched (s new : State) : Bool :=
  (List.range 4).any fun r => decide (s.get Ob.Ring.REJOIN_STATE r ≠ 0) &&
    (List.range (s.nWorkers r)).any fun i =>
      decide ((s.ring r).rejoinPos ≤ i) && !(s.wk r (i + 1)).admitted && !(changedRecords s new r (i + 1)).isEmpty

/-- Steps 1 and 2 of Table 05-4 for a sender: the status, OK where both pass. -/
def commitEntry (s : State) (captain : Bool) : Nat :=
  if captain = false then stNotCaptain
  else if s.com.phase ≠ 0 ∨ s.hud.active = true ∨ rejoinTouched s (withEntries s s.staged) = true then stBusy
  else stOk

/-- SAF entries whose safety session is no longer open (step 5). -/
def safetyOrphans (s : State) : List Nat :=
  (s.staged.filter fun e => match e.safety, s.safe.session with
    | none, _ => false
    | some n, some (m, _, _) => decide (n ≠ m)
    | some _, none => true).map (·.key)

/-- Steps 4 to 8 and 10 of Table 05-4: status, LAST_REASON and object of the first that fails. -/
def commitCheck (s new : State) : Option (Nat × Nat × Nat) :=
  match s.staged.find? fun e => e.total.isSome with
  | some e => some (stLength, 7, e.key)
  | none =>
    match firstFail (safetyOrphans s) with
    | some k => some (stSafetyLocked, 8, k)
    | none => match firstFail (activeFails s new) with
      | some k => some (stState, 2, k)
      | none => match firstFail (consistFails s new s.staged) with
        | some k => some (stRange, 1, k)
        | none => match firstFail (gainFails new) with
          | some k => some (stRange, 1, k)
          | none => none

/-- A commit in validation, with its staged copy frozen (R109, R114): validation ends within 50 µs + 0.25 µs per staged entry of the receipt; when within
that is a free value. `k` says who sent it. -/
def validating (s : State) (k : CommitRt) : State :=
  let (d, s) := s.freeDraw 21
  ({ s with com := { k with phase := 1, tQ := s.now + d % (50001 + 250 * s.staged.length), entries := s.staged, owed := s.com.owed, tell := s.com.tell } }).set
    Ob.Com.COMMIT_STATE 1

/-- Steps 4 to 10 of Table 05-4 on the configuration `new` that results, with the refusal of worker blocks for a split ring (R383): status, LAST_REASON and
object of the first that fails, and the state with the admission check's objects. -/
def commitVerdict (s new : State) : State × Option (Nat × Nat × Nat) :=
  match commitCheck s new with
  | some f => (s, some f)
  | none =>
    let (s, fits) := admissionCheck s new (fun _ => none)
    let blocks := commitBlocks s new
    (s, if fits = false then some (stBudget, 3, 0)
        else if blocks.any fun b => decide (s.get Ob.PairX.SPLIT_STATE 0 0 b.ring = 1) then some (stState, 0, 0)
        else if slotsBeyond s blocks then some (stRejected, 4, 0)
        else none)

/-- COMMIT received (R112): steps 1 to 3 of Table 05-4, then the others. `k` says who sent it; answers the state and the status of steps 1 and 2. -/
def startCommit (s : State) (k : CommitRt) (captain : Bool) : Act :=
  let st := commitEntry s captain
  if st ≠ stOk then (commitReplies (commitResult s st 0 0) k st (s.nat Ob.Com.LAST_TAG), st)
  else if s.staged.isEmpty then (commitReplies (commitResult s stOk 0 0) k stOk 0, stOk)
  else
    match commitVerdict (validating s k) (withEntries s s.staged) with
    | (s, some (status, reason, obj)) => (commitReject s status reason obj, stOk)
    | (s, none) => (s, stOk)

/-- COMMIT (0x3000.04) written by session `sess`: answered with the status of steps 1 and 2 (R112). -/
def commitWrite (s : State) (sess : Nat) (captain : Bool) : Act := startCommit s { viaObject := true, sess := sess } captain

/-! ### Admission (R114 to R116) -/

/-- The pacing ring: the ring in PLAY with the longest cycle, the lowest letter between equals; LOCAL_RING where none is in PLAY. -/
def pacingRing (s : State) : Nat :=
  match ringsPlaying s with
  | [] => s.localRing
  | r :: t => t.foldl (fun b x => if s.tcyc b < s.tcyc x then x else b) r

/-- Start of the cycle whose t_D is `t`, for a cycle length and whistle offset; none where `t` is no t_D (R23). -/
def cycleOfDeadline (tc w t : Nat) : Option Nat :=
  let d := w + tc - guardNs
  if d ≤ t ∧ (t - d) % tc = 0 then some (t - d) else none

/-- First t_E of a ring after `t` (R23). -/
def emissionAfter (s : State) (r t : Nat) : Nat :=
  let w := s.woff r + 500
  if t < w then w else ((t - w) / s.tcyc r + 1) * s.tcyc r + w

/-- m − c for blocks (R116): every ring's last fragment leaves no later than t_E of cycle m − 3, m ≥ c + 4, and in every case m ≤ c + 8 (R1, assumption log
166). -/
def latencyOf (s : State) (blocks : List ParamBlock) (start tp wp t : Nat) : Nat :=
  let last := (List.range 4).foldl (fun x r =>
    let k := slotsNeeded blocks r
    if k = 0 then x else max x (emissionAfter s r t + (k - 1) * s.tcyc r)) 0
  let base := start + wp + 500
  min 8 (max 4 (3 + (last - base + tp - 1) / tp))

/-- Admission of the validated commit at the present instant (R114 to R116). -/
def commitAdmit (s : State) : State :=
  if s.com.phase ≠ 1 ∨ isStandby s = true then s else
    let p := pacingRing s
    let tp := s.tcyc p
    let wp := s.woff p
    match cycleOfDeadline tp wp s.now with
    | none => s
    | some start =>
      if s.now < s.com.tQ then s else
        let blocks := commitBlocks s (withEntries s s.com.entries)
        -- a ring that has entered PLAY since the validation may need more slots (R62)
        if slotsBeyond s blocks then commitReject s stRejected 4 0 else
        let n := if blocks.isEmpty then 1 else latencyOf s blocks start tp wp s.now
        let a := start + n * tp
        let c := cycleNo start tp
        let tag := if s.com.startup then 0 else let x := s.nat Ob.Com.LAST_TAG; if 255 ≤ x then 1 else x + 1
        let s := s.modCom fun k => { k with pacing := p, tp := tp, wp := wp, c := c, m := (c + n) % 2 ^ 32, applyAt := a, tag := tag, blocks := blocks,
                                            phase := if blocks.isEmpty then 4 else 2,
                                            owed := if blocks.isEmpty then k.owed ++ splitShares s k.entries a else k.owed }
        let s := if s.com.startup then s else s.set Ob.Com.LAST_TAG tag
        let s := (s.set Ob.Com.LAST_LATENCY n).set Ob.Com.COMMIT_STATE (if blocks.isEmpty then 4 else 2)
        mirror s (.commit s.com)

/-- COMMIT_ADMISSION. -/
def execCommitAdmission (t : Nat) (s : State) : Host.Outcome State Fault Refusal := whileOn s t <| .next (commitAdmit (s.at t))

/-! ### Decision (R117, R118) -/

/-- A commit with worker blocks rejected after admission: its frames tell ABORT (R62, R117). -/
def commitAbort (s : State) (reason : Nat) : State :=
  commitReject (s.modCom fun k => { k with tell := some (k.tag, k.applyAt, k.tp, false) }) stRejected reason 0

/-- The workers of a commit that has just been confirmed (it was in phase `was`) are expected to show its tag from cycle m of their ring on (R63). -/
def expectTags (was : Nat) (s : State) : State :=
  if s.com.phase ≠ 3 ∨ was = 3 then s else
    forList s.com.blocks (fun b s => s.modWk b.ring b.pos fun w => { w with expectTag := some (s.com.tag, s.com.applyAt) }) s

/-- The joint decision at t_D of pacing cycle m − 3 (R117): CONFIRM where every block is COMPLETE. -/
def commitDecide (s : State) : State :=
  let k := s.com
  if k.phase ≠ 2 ∨ isStandby s = true ∨ s.now + guardNs + 2 * k.tp ≠ k.applyAt + k.wp then s
  else if k.blocks.any fun b => !b.complete then commitAbort s 5
  else
    let s := s.modCom fun k => { k with phase := 3, tell := some (k.tag, k.applyAt, k.tp, true), owed := k.owed ++ splitShares s k.entries k.applyAt }
    let s := expectTags k.phase s
    let s := mirror (s.set Ob.Com.COMMIT_STATE 3) (.commit s.com)
    if mirroring s then s.modPair fun p => { p with confirmWait := some p.mirrorNo } else s

/-- COMMIT_DECISION. -/
def execCommitDecision (t : Nat) (s : State) : Host.Outcome State Fault Refusal := whileOn s t <| .next (commitDecide (s.at t))

/-- A ring has left PLAY (R117): a commit with blocks for it whose decision is still to come is rejected. -/
def commitRingLeft (s : State) (r : Nat) : State :=
  if s.com.phase = 2 ∧ (s.com.blocks.any fun b => decide (b.ring = r)) = true then commitAbort s 6 else s

/-! ### Application (R115, R118, R119) -/

/-- The shares that a test accepts come into force at whistle `t`. -/
def applyOwed (s : State) (f : Nat × Nat × List Staged → Bool) (t : Nat) : State :=
  let due := s.com.owed.filter f
  if due.isEmpty then s else
    let s := s.modCom fun k => { k with owed := k.owed.filter fun o => !f o }
    let s := forList due (fun o s => applyShare s o.2.2 o.2.1 t) s
    if s.com.phase = 3 then (s.modCom fun k => { k with phase := 4 }).set Ob.Com.COMMIT_STATE 4 else s

/-- What ring `r` reads of the head's common objects: the state under its overlay. -/
def viewOf (s : State) (r : Nat) : State := s.overlay (s.ring r).overlay

/-- The common objects' entries that `new` holds and `old` does not; axis objects belong to their own ring's share. -/
def commonEntries (old new : State) : SMap (Option Val) := new.entriesAt ((changedKeys old new).filter fun k => (axisOfKey k).isNone)

/-- The share of the local units is owed for an apply instant not after `c`. -/
def owedLocal (s : State) (c : Nat) : List (Nat × Nat × List Staged) := s.com.owed.filter fun o => decide (o.1 = 4 ∧ o.2.1 ≤ c)

/-- The whistle of ring `r`, not LOCAL_RING, of a cycle that starts at `c` (R14, R119): its nodes read the common objects' new values from here on, also where
LOCAL_RING's whistle at the same apply instant is still to come. -/
def viewAhead (s : State) (r c t : Nat) : State :=
  match owedLocal s c with
  | [] => if (s.ring r).overlay.isEmpty then s else s.modRing r fun q => { q with overlay := [] }
  | l =>
    let n := forList l (fun o s => applyShare s o.2.2 o.2.1 t) s
    { s with ucode := n.ucode, aces := n.aces }.modRing r fun q => { q with overlay := commonEntries s n }

/-- After the share of the local units has come into force at LOCAL_RING's whistle, for the apply instant `a`: a ring in PLAY whose own whistle is still to
come reads the old values until then (R119); one that has read the new ones ahead reads them in place. -/
def viewBehind (old s : State) (a : Nat) : State :=
  forBelow 4 (fun r s =>
    if r = s.localRing ∨ s.inPlay r = false then s
    else s.modRing r fun q => { q with overlay := if a ≤ q.tw then [] else commonEntries s old }) s

/-- Objects that the whistle of ring `r` has switched stay hidden from snapshots until the ring's t_D (R124). -/
def hideChanges (old s : State) (r : Nat) : State :=
  s.modRing r fun q => { q with hidden := q.hidden ++ old.entriesAt ((changedKeys old s).filter fun k => (SMap.get? q.hidden k).isNone) }

/-- The shares due at the whistle at `t` of the cycle of ring `r` that starts at `c`: the ring's own in PLAY; with LOCAL_RING those of the
local units and of the rings not in PLAY (R115, R118). -/
def commitWhistle (s : State) (r c t : Nat) : State :=
  let old := s
  let isLocal := decide (r = s.localRing)
  let due (o : Nat × Nat × List Staged) : Bool :=
    decide (o.2.1 ≤ c) && ((decide (o.1 = r) && s.inPlay r) || (isLocal && (decide (o.1 = 4) || !s.inPlay o.1)))
  if s.com.owed.any (fun o => decide (o.2.1 ≤ c)) = false ∧ (s.ring r).overlay.isEmpty = true then s else
    let loc := owedLocal s c
    let s := applyOwed s due t
    let s := if isLocal then (match loc with | [] => s | o :: _ => viewBehind old s o.2.1) else viewAhead s r c t
    let before := viewOf old r
    let after := viewOf s r
    let mine (a : Nat) : Bool := let x := s.get Ob.Map.RING a; if s.inPlay r && s.onRing a r then true else isLocal && (decide (4 ≤ x) || !s.inPlay x.toNat)
    let s := forList ((List.range 256).filter mine) (fun a s => applyAreas before after s a) s
    if s.inPlay r then hideChanges old s r else s

/-- Start of the cycle whose whistle is `t`; none where `t` is no whistle (R20, R21). -/
def cycleOfWhistle (tc w t : Nat) : Option Nat := if w ≤ t ∧ (t - w) % tc = 0 then some (t - w) else none

/-- COMMIT_APPLY: the shares due at the whistle of ring `r` at `t`. -/
def execCommitApply (r t : Nat) (s : State) : Host.Outcome State Fault Refusal := whileOn s t <|
  let s := s.at t
  .next (match cycleOfWhistle (s.tcyc r) (s.woff r) t with
    | some c => commitWhistle s r c t
    | none => s)

/-! ### Outcome (R120) -/

/-- The commit is applied: at t_D of the LOCAL_RING cycle, starting at `start`, of A it is recorded, before the snapshot of that t_D is published (R120,
Table 05-5). A share whose whistle has not come stays owed: of a ring in PLAY whose whistle at A lies behind this t_D (R115). -/
def commitDone (s : State) (start : Nat) : State :=
  let k := s.com
  if (k.phase ≠ 3 ∧ k.phase ≠ 4) ∨ start < k.applyAt then s
  else
    let s := (applyOwed s (fun o => decide (4 ≤ o.1) || !s.inPlay o.1 || decide (o.2.1 ≤ (s.ring o.1).tw)) s.now).count Ob.Com.COMMIT_COUNT
    let s := ((s.set Ob.Com.LAST_APPLY_TIME k.applyAt).set Ob.Com.LAST_APPLY_CYCLE k.m).set Ob.Sb.TAG_IN_FORCE k.tag
    (commitSettle s stOk 0 0).modCom fun c => { c with phase := 5 }

/-- The reply OK of an applied commit (R120). -/
def commitOk (s : State) : State :=
  let k := s.com
  if k.phase ≠ 5 then s else commitReplies (s.modCom fun c => { c with phase := 0 }) k stOk k.tag

/-- COMMIT_REPLY at a t_D of LOCAL_RING. -/
def execCommitReply (t : Nat) (s : State) : Host.Outcome State Fault Refusal := whileOn s t <|
  let s := s.at t
  let r := s.localRing
  .next (match cycleOfDeadline (s.tcyc r) (s.woff r) t with
    | some c => commitOk (commitDone s c)
    | none => s)

/-! ### DISCARD (R108, R109) -/

/-- DISCARD written (R108, R109). -/
def discardWrite (s : State) : Act := if s.com.phase ≠ 0 then (s, stBusy) else (putStaged s [], stOk)

/-- DISCARD (0x3000.05). -/
def execDiscard (t : Nat) (s : State) : Host.Outcome State Fault Refusal := whileOn s t <| answer (kept Ob.Com.DISCARD 1 (discardWrite (s.at t)))

/-! ### Stored configuration (R126, R127, R129) -/

/-- Octets of a stored image's records (Table 05-8). -/
def imageBytes (l : SMap Val) : List Byte := l.flatMap fun e => match rowOf e.1 with | some o => storedRecord o e.1 e.2 | none => []

/-- Header of a stored image but its own CRC (Table 05-7): bytes 0 to 59. -/
def headerBytes (sq product fw tod count length crc : Nat) : List Byte :=
  leBytes 4 0x47464347 ++ leBytes 2 1 ++ leBytes 2 64 ++ leBytes 4 sq ++ leBytes 4 length ++ leBytes 4 count ++ leBytes 4 product ++ leBytes 4 fw ++
  valBytes .tod80 (.num tod) ++ leBytes 18 0 ++ leBytes 4 crc

/-- A header with its HEADER_CRC. -/
def sealHeader (b : List Byte) : List Byte := b ++ leBytes 4 (crc32 b)

/-- SEQUENCE of an image. -/
def StoredImage.sequence (i : StoredImage) : Nat := leAt i.header 8 4
/-- RECORD_CRC of an image. -/
def StoredImage.crc (i : StoredImage) : Nat := leAt i.header 56 4

/-- The image in a bank is valid (R127): MAGIC, VERSION, both CRCs and PRODUCT. -/
def storedValid (s : State) (i : StoredImage) : Bool :=
  let h := i.header
  decide (h.length = 64) && decide (leAt h 0 4 = 0x47464347) && decide (leAt h 4 2 = 1) && decide (leAt h 60 4 = crc32 (h.take 60)) &&
  decide (i.recordCrc = leAt h 56 4) && decide (leAt h 20 4 = s.nat Ob.Ident.PRODUCT)

/-- Sizes of the MRAM's regions in the order of Table 05-6 (R125): configuration banks 0 and 1, safety change log, fault history, reserved. -/
def mramSizes : List Nat := [3 * 2 ^ 20, 3 * 2 ^ 20, 2 ^ 18, 2 ^ 20, 768 * 2 ^ 10]

/-- The bank of the newest valid image (R128); none where no bank is valid. -/
def newestBank (s : State) : Option Nat :=
  match storedValid s s.store.bank0, storedValid s s.store.bank1 with
  | true, true => some (if serialLater s.store.bank1.sequence s.store.bank0.sequence then 1 else 0)
  | true, false => some 0
  | false, true => some 1
  | false, false => none

/-- The image in a bank. -/
def bankImage (s : State) (b : Nat) : StoredImage := if b = 0 then s.store.bank0 else s.store.bank1

/-- An image put into a bank. -/
def putBank (s : State) (b : Nat) (i : StoredImage) : State :=
  { s with store := if b = 0 then { s.store with bank0 := i } else { s.store with bank1 := i } }

/-- The stored image of the values in force (R126, R127). -/
def storedImage (s : State) (sq : Nat) : StoredImage :=
  -- a share still owed belongs to the last applied commit (R126)
  let l := storedRecords (withEntries s (s.com.owed.flatMap fun o => o.2.2))
  let b := imageBytes l
  { header := sealHeader (headerBytes sq (s.nat Ob.Ident.PRODUCT) (s.nat Ob.Ident.FW_VERSION) (todAt s s.now).toNat l.length b.length (crc32 b)),
    records := l, recordCrc := crc32 b, safetyCrc := safetyCrc s }

/-- SAVE written (R126). -/
def saveWrite (s : State) : Act :=
  if s.com.phase ≠ 0 ∨ s.store.saving.isSome then (s, stBusy)
  else
    let n := newestBank s
    let sq := match n with | some k => ((bankImage s k).sequence + 1) % 2 ^ 32 | none => 1
    let i := storedImage s sq
    let size := 64 + (imageBytes i.records).length
    let s := s.set Ob.Store.SAVE_SIZE size
    if mramSizes.headD 0 < size then ((s.set Ob.Store.SAVE_STATE 3).set Ob.Store.SAVE_REASON 2, stOk)
    else
      -- the bank being written is invalid until the save has completed
      let bank := match n with | some k => 1 - k | none => 0
      let s := putBank s bank {}
      (({ s with store := { s.store with saving := some (s.now, bank, i) } }).set Ob.Store.SAVE_STATE 1, stOk)

/-- SAVE (0x3002.01). -/
def execSaveConfig (t : Nat) (s : State) : Host.Outcome State Fault Refusal := whileOn s t <| answer (kept Ob.Store.SAVE 1 (saveWrite (s.at t)))

/-- STORED_SEQUENCE, STORED_CRC and STORED_BANK of the newest valid image (Table 05-13). -/
def publishStored (s : State) : State :=
  match newestBank s with
  | some b => ((s.set Ob.Store.STORED_SEQUENCE (bankImage s b).sequence).set Ob.Store.STORED_CRC (bankImage s b).crc).set Ob.Store.STORED_BANK b
  | none => ((s.set Ob.Store.STORED_SEQUENCE 0).set Ob.Store.STORED_CRC 0).set Ob.Store.STORED_BANK 0

/-- SAVE_COMPLETE: the read-back verification of the save has passed or failed (R126). SAVE_TIME is rounded up to whole µs (assumption log 84). -/
def execSaveComplete (verified : Bool) (t : Nat) (s : State) : Host.Outcome State Fault Refusal := whileOn s t <|
  let s := s.at t
  .next (match s.store.saving with
    | none => s
    | some (t0, bank, i) =>
      let s := ({ s with store := { s.store with saving := none } }).set Ob.Store.SAVE_TIME ((s.now - t0 + 999) / 1000)
      if verified then publishStored ((putBank s bank i).set Ob.Store.SAVE_STATE 2)
      else publishStored ((s.set Ob.Store.SAVE_STATE 3).set Ob.Store.SAVE_REASON 1))

/-- ERASE_STORED written (R129). -/
def eraseWrite (s : State) : Act :=
  if s.store.saving.isSome then (s, stBusy) else ({ s with store := { s.store with erase := true } }, stOk)

/-- ERASE_STORED (0x3002.07). -/
def execEraseStored (t : Nat) (s : State) : Host.Outcome State Fault Refusal := whileOn s t <| answer (kept Ob.Store.ERASE_STORED 1 (eraseWrite (s.at t)))

end Sys2Proof.Machine
end

