-- ==== Sys2Proof/Machine/Observe.lean ====
section
/-! DEFINITION. Performance counters, capture, trace and frequency response (R404 to R421). -/

namespace Sys2Proof.Machine

/-- What capture, trace and injection keep, changed. -/
def State.modObs (s : State) (f : ObsRt → ObsRt) : State := { s with obs := f s.obs }

/-! ### Counters (R404 to R409) -/

/-- Counters of an engine shown in its objects at a t_D of its ring (R404). -/
def publishCounters (s : State) (e : Nat) : State :=
  let x := s.ace e
  let s := s.set Ob.Core.CYCLE x.cycle e
  let s := forBelow 8 (fun k s => s.set Ob.Core.PMC (SMap.getD x.pmc k 0 : Nat) e 0 k) s
  forBelow 4 (fun k s => s.set Ob.Core.SLOT_COUNTS (SMap.getD x.slots k 0 : Nat) e 0 k) s

/-- Counters of the management cores at a snapshot (R404): what the cores do is no part of the spec, so each count is a free value;
the two cores of a pair count the same cycles. -/
def publishMcCounters (s : State) : State :=
  forBelow 2 (fun p s =>
    let (v, s) := s.freeDraw 64
    let s := (s.set Ob.CoreMc.CYCLE v (2 * p)).set Ob.CoreMc.CYCLE v (2 * p + 1)
    forBelow 16 (fun i s =>
      let c := 2 * p + i / 8
      if s.nat Ob.CoreMc.PMC_CFG c 0 (i % 8) = 0 then s
      else let (v, s) := s.freeDraw 48; s.set Ob.CoreMc.PMC v c 0 (i % 8)) s) s

/-- An engine with no item running stands at an item boundary. -/
def boundaryIfIdle (s : State) (e : Nat) : State := if (s.eng e).run.isNone then itemBoundary (countGated s e) e else s

/-- PMC_CFG of counter `k` written: cores 0–7 are the ACEs, 8–11 MC0–MC3 (R405, Table 17-1). -/
def pmcCfgWrite (s : State) (core k w : Nat) : Act :=
  if pmcCfgOk (decide (8 ≤ core)) w = false then (s, stRange)
  else if 8 ≤ core then ((s.set Ob.CoreMc.PMC_CFG w (core - 8) 0 k).set Ob.CoreMc.PMC 0 (core - 8) 0 k, stOk)
  else (boundaryIfIdle ((s.set Ob.Core.PMC_CFG w core 0 k).modAce core fun x => { x with cfgNext := x.cfgNext.filter (fun c => c.1 ≠ k) ++ [(k, w)] }) core, stOk)

/-- PMC_CFG. -/
def execPmcCfg (core k w t : Nat) (s : State) : Host.Outcome State Fault Refusal := whileOn s t <| answer (pmcCfgWrite (s.at t) core k w)

/-- SAMPLE_PERIOD of an ACE written (R405, R407). -/
def samplePeriodWrite (s : State) (e v : Nat) : Act :=
  if v < 4096 ∨ 2 ^ 32 ≤ v then (s, stRange)
  else (boundaryIfIdle ((s.set Ob.Core.SAMPLE_PERIOD v e).modAce e fun x => { x with periodNext := some v }) e, stOk)

/-- SAMPLE_PERIOD. -/
def execSamplePeriod (e v t : Nat) (s : State) : Host.Outcome State Fault Refusal := whileOn s t <| answer (samplePeriodWrite (s.at t) e v)

/-- CLEAR_COUNTERS of 0xB000 written (R405): every counter of the unit returns to 0 at its engine's item boundary. -/
def clearCountersWrite (s : State) : Act :=
  let s := forBelow 8 (fun e s => boundaryIfIdle (s.modAce e fun x => { x with clearNext := true }) e) s
  (forBelow 4 (fun c s => forBelow 8 (fun k s => s.set Ob.CoreMc.PMC 0 c 0 k) (s.set Ob.CoreMc.CYCLE 0 c)) s, stOk)

/-- CLEAR_COUNTERS (0xB000.05). -/
def execClearCounters (t : Nat) (s : State) : Host.Outcome State Fault Refusal := whileOn s t <| answer (kept Ob.Cnt.CLEAR_COUNTERS 1 (clearCountersWrite (s.at t)))

/-- Counter `k` of an engine passes 2⁴⁸ − 1 with SAMPLE = 1 (R407): reloaded, PMU interrupt raised; an overflow still waiting is lost. -/
def pmcOverflow (s : State) (e k : Nat) : State :=
  let x := s.ace e
  if bit (SMap.getD x.cfg k 0) 15 = false then s else
    let s := if x.ovf.contains k then s.count Ob.Cnt.SAMPLES_LOST else s
    s.modAce e fun x => { x with pmc := SMap.put x.pmc k (2 ^ 48 - x.period), ovf := if x.ovf.contains k then x.ovf else x.ovf ++ [k],
                                 irq := setBit x.irq 1 true }

/-- PMC_OVERFLOW. -/
def execPmcOverflow (e k t : Nat) (s : State) : Host.Outcome State Fault Refusal := whileOn s t <| .next (pmcOverflow (s.at t) e k)

/-- SAMPLE_CLEAR written (R421). -/
def sampleClearWrite (s : State) : Act := (s.setBytes Ob.Cnt.SAMPLES [], stOk)

/-- SAMPLE_CLEAR (0xB000.04). -/
def execSampleClear (t : Nat) (s : State) : Host.Outcome State Fault Refusal := whileOn s t <| answer (kept Ob.Cnt.SAMPLE_CLEAR 1 (sampleClearWrite (s.at t)))

/-! ### Capture (R410 to R415) -/

/-- KIND of a capture source. -/
def srcKind (w : Nat) : Nat := bits w 12 4

/-- The source is digital (kinds 1 to 5). -/
def srcDigital (w : Nat) : Bool := decide (1 ≤ srcKind w ∧ srcKind w ≤ 5)

/-- The source is numeric (kinds 8 to 11). -/
def srcNumeric (w : Nat) : Bool := decide (8 ≤ srcKind w)

/-- RECORD_BYTES of a list of sources (R411). -/
def recordBytes (l : List Nat) : Nat := (if l.any srcDigital then 8 else 0) + 8 * (l.filter srcNumeric).length

/-- Bytes of the capture SRAM. -/
def captureSram : Nat := 2 * 2 ^ 20

/-- The configuration in force (R415). -/
def capConfig (s : State) : CapCfg :=
  { stream := decide (s.get Ob.Capt.CAP_MODE = 1), whistle := decide (s.get Ob.Capt.CLOCK = 1), div := s.nat Ob.Capt.CLOCK_DIV,
    avg := s.nat Ob.Capt.AVG_LOG2, pre := s.nat Ob.Capt.PRE_SAMPLES, post := s.nat Ob.Capt.POST_SAMPLES, kind := s.nat Ob.Capt.TRIG_KIND,
    value := s.nat Ob.Capt.TRIG_VALUE, care := s.nat Ob.Capt.TRIG_CARE, edge := s.flag Ob.Capt.TRIG_EDGE, lvlCh := s.nat Ob.Capt.LEVEL_CHANNEL,
    level := s.get Ob.Capt.LEVEL, above := decide (s.get Ob.Capt.LEVEL_DIR = 1), time := s.nat Ob.Capt.TRIG_TIME,
    srcs := (List.range 64).map fun c => s.nat Ob.Capt.CHANNEL_SRC 0 0 c }

/-- ARM is refused with RANGE (R412). -/
def capRefused (c : CapCfg) : Bool :=
  let rb := recordBytes c.srcs
  let all := c.pre + c.post + 1
  decide (rb = 0) || (!c.whistle && decide (8 * c.div * 2 ^ c.avg < rb)) ||
  decide (captureSram / rb < (if c.stream then c.pre else all)) || (c.stream && decide (64 * 2 ^ 20 < all * rb))

/-- ARM written (R415). -/
def capArmWrite (s : State) (v : Bool) : Act :=
  let st := s.get Ob.Capt.STATE
  let busy := decide (st = 1 ∨ st = 2)
  if v then
    if busy then (s, stBusy)
    else
      let c := capConfig s
      if capRefused c then (s, stRange) else
        let s := s.modObs fun o => { o with cap := { cfg := some c, armedAt := s.now, last := s.now } }
        let s := ((((s.set Ob.Capt.STATE 1).set Ob.Capt.TRIGGER_INDEX 0).set Ob.Capt.TRIGGER_TIME 0).set Ob.Capt.OVERFLOW_INDEX 0xFFFFFFFF).set Ob.Capt.RECORDS_STORED 0
        (((s.set Ob.Capt.RECORD_BYTES (recordBytes c.srcs)).set Ob.Capt.PRE_SHORT 0).set Ob.Capt.START_TIME 0, stOk)
  else (if busy then s.set Ob.Capt.STATE 5 else s, stOk)

/-- ARM (0xB100.0F). -/
def execCaptureArm (v : Bool) (t : Nat) (s : State) : Host.Outcome State Fault Refusal := whileOn s t <|
  answer (let r := capArmWrite (s.at t) v; (if r.2 = stOk then r.1.set Ob.Capt.ARM (bitAt v 0) else r.1, r.2))

/-- Value of a capture channel (Table 17-4). `x` is the value of a source that is no part of the model's state: a pin TP_IN, DATA or LA, or
a sinc3 output. -/
def capValue (s : State) (w : Nat) (x : Int) : Int :=
  let i := bits w 0 12
  let b (v : Bool) : Int := bitAt v 0
  match srcKind w with
  | 1 => b (bit s.field.fi i)
  | 2 => if 4 ≤ i then b (bit s.time.tpOut (i - 4)) else x
  | 3 =>
    let q := (s.fbu (i / 4)).quad
    match i % 4 with
    | 0 => b q.a
    | 1 => b q.b
    | 2 => b q.z
    | _ => x
  | 4 => if i % 8 < 6 ∧ i / 8 < 8 then b (pinLevel s (i / 8) (i % 8)) else x
  | 5 => b (if timedOut s i then (s.field.outp i).level else bit s.field.fqSent i)
  | 8 => x
  | 9 => s.get Ob.Sd.SD_VALUE (i / 3) 0 (i % 3)
  | 10 => if i < 8 then s.get Ob.Fb.COUNT i else s.get Ob.FbMe.COUNT (i - 8)
  | 11 =>
    let a := s.nat Ob.TrcSlot.AXIS i
    if a < 256 then SMap.getD (s.axis a).nodes (s.nat Ob.TrcSlot.NODE i) 0 else 0
  | _ => 0

/-- The digital word: bit c the level of channel c (R411). -/
def capWord (srcs : List Nat) (vals : List Int) : Nat :=
  ((List.range 64).map fun c => bitAt (srcDigital (srcs.getD c 0) && decide (vals.getD c 0 ≠ 0)) c).sum

/-- Values of the numeric channels, in channel order. -/
def capNums (srcs : List Nat) (vals : List Int) : List Int :=
  (List.range 64).filterMap fun c => if srcNumeric (srcs.getD c 0) then some (vals.getD c 0) else none

/-- A match of PATTERN at a tick, before TRIG_EDGE (R413). -/
def capMatches (c : CapCfg) (word : Nat) : Bool := decide ((word ^^^ c.value) &&& c.care = 0)

/-- The trigger condition at a tick (R413). -/
def capTrigger (c : CapCfg) (k : CapRt) (word : Nat) (lv : Int) (t : Nat) : Bool :=
  let m := capMatches c word
  let pat := m && (!c.edge || (decide (0 < k.ticks) && !k.matched))
  let lev := match k.level with
    | none => false
    | some p => if c.above then decide (c.level < p ∧ lv ≤ c.level) else decide (p < c.level ∧ c.level ≤ lv)
  match c.kind with
  | 0 => true
  | 1 => pat
  | 2 => lev
  | 3 => pat && lev
  | _ => decide (c.time ≤ t)

/-- A record of the digital word and the sums, saturated to I64 (R411). -/
def capRecord (c : CapCfg) (word : Nat) (sums : List Int) : List Byte :=
  (if c.srcs.any srcDigital then leBytes 8 word else []) ++ sums.flatMap fun v => leBytes 8 (lowBits 64 (sat 64 v))

/-- A record of index `i` stored (R414); `full`: in STREAM the FIFO has no room for it. -/
def capStore (s : State) (c : CapCfg) (i : Nat) (rc : List Byte) (full : Bool) : State :=
  let k := s.obs.cap
  let rb := recordBytes c.srcs
  let put (s : State) (l : List (List Byte)) : State := s.modObs fun o => { o with cap := { o.cap with recs := l } }
  match k.trig with
  | none =>
    let l := (rc :: k.recs).take (captureSram / max 1 rb)
    (put s l).set Ob.Capt.RECORDS_STORED l.length
  | some tr =>
    -- the records before the triggering one: the newest PRE_SAMPLES of them
    let before := if i = tr then k.recs.take c.pre else k.recs
    if c.stream && full then
      let s := put s (List.replicate rb 0xA5 :: before)
      (((s.set Ob.Capt.OVERFLOW_INDEX i).set Ob.Capt.STATE 4).set Ob.Capt.RECORDS_STORED before.length)
    else
      let s := (put s (rc :: before)).set Ob.Capt.RECORDS_STORED (before.length + 1)
      if tr + c.post ≤ i then s.set Ob.Capt.STATE 3 else s

/-- A tick of the sample clock falls at the present instant (R411). -/
def capTickDue (s : State) (c : CapCfg) : Bool :=
  decide (s.obs.cap.last < s.now) && if c.whistle then decide (c.div ≤ s.obs.cap.whistles) else decide (s.now % (4 * c.div) = 0)

/-- One tick: all channels sampled, the trigger evaluated, a record stored at the end of its interval (R411, R413, R414). -/
def capTick (s : State) (outside : List Int) (full : Bool) : State :=
  match s.obs.cap.cfg with
  | none => s
  | some c =>
    let st := s.get Ob.Capt.STATE
    if (st ≠ 1 ∧ st ≠ 2) ∨ capTickDue s c = false then s else
      let k := s.obs.cap
      let vals := (List.range 64).map fun ch => capValue s (c.srcs.getD ch 0) (outside.getD ch 0)
      let word := capWord c.srcs vals
      let nums := capNums c.srcs vals
      let lv := vals.getD c.lvlCh 0
      let n := 2 ^ c.avg
      let i := k.ticks / n
      let hit := decide (st = 1) && capTrigger c k word lv s.now
      let s := if k.ticks = 0 then s.set Ob.Capt.START_TIME s.now else s
      let s := if hit then
          (((s.set Ob.Capt.STATE 2).set Ob.Capt.TRIGGER_INDEX i).set Ob.Capt.TRIGGER_TIME s.now).set Ob.Capt.PRE_SHORT (bitAt (decide (i < c.pre)) 0)
        else s
      let sums := if k.ticks % n = 0 then nums else (List.range nums.length).map fun j => k.sums.getD j 0 + nums.getD j 0
      let s := s.modObs fun o => { o with cap := { o.cap with ticks := k.ticks + 1, sums := sums, matched := capMatches c word, level := some lv,
                                                              trig := if hit then some i else k.trig, whistles := 0, last := s.now } }
      if (k.ticks + 1) % n = 0 then capStore s c i (capRecord c word sums) full else s

/-- CAPTURE_TICK: `outside` gives, per channel, the value of a source the model's state does not hold; `full` that the FIFO of a STREAM
capture has no room. -/
def execCaptureTick (outside : List Int) (full : Bool) (t : Nat) (s : State) : Host.Outcome State Fault Refusal := whileOn s t <| .next (capTick (s.at t) outside full)

/-! ### Trace (R416, R417) -/

/-- TRACE_ARM written (R417): 1 starts a trace, 0 aborts one. -/
def traceArmWrite (s : State) (v : Bool) : Act :=
  let st := s.get Ob.Trc.TRACE_STATE
  if v then
    let s := s.modObs fun o => { o with trc := { depth := s.nat Ob.Trc.TRACE_DEPTH, trigger := s.nat Ob.Trc.TRACE_TRIGGER,
                                                 pre := s.nat Ob.Trc.TRACE_PRE, armedAt := s.now } }
    ((((s.set Ob.Trc.TRACE_STATE 1).set Ob.Trc.TRACE_START_CYCLE 0).set Ob.Trc.TRACE_TRIGGER_INDEX 0).set Ob.Trc.UNDONE_OVER 0).setBytes
      Ob.Trc.UNDONE_LIST [] |> fun s => (s, stOk)
  else (if st = 1 ∨ st = 2 then s.set Ob.Trc.TRACE_STATE 4 else s, stOk)

/-- TRACE_ARM (0xC000.02). -/
def execTraceArm (v : Bool) (t : Nat) (s : State) : Host.Outcome State Fault Refusal := whileOn s t <|
  answer (let r := traceArmWrite (s.at t) v; (r.1.set Ob.Trc.TRACE_ARM (bitAt v 0), r.2))

/-- Trace slots that name an axis. -/
def traceSlots (s : State) : List Nat := (List.range 16).filter fun k => decide (s.nat Ob.TrcSlot.AXIS k < 256)

/-- The ring that counts the samples of a trace: that of the first configured slot, LOCAL_RING where none is. -/
def traceRing (s : State) : Nat := match traceSlots s with | k :: _ => s.axisRing (s.nat Ob.TrcSlot.AXIS k) | [] => s.localRing

/-- The trigger of an armed trace at whistle `tw` (R417). -/
def traceTrigger (s : State) (tw : Nat) : Bool :=
  match s.obs.trc.trigger with
  | 0 => true
  | 1 => s.obs.cap.trig.isSome && decide (s.nat Ob.Capt.TRIGGER_TIME ≤ tw)
  | _ => decide (s.obs.trc.armedAt ≤ s.obs.inj.t0 ∧ s.obs.inj.t0 ≤ tw ∧ s.get Ob.Inj.INJ_STATE ≠ 0 ∧ s.get Ob.Inj.INJ_STATE ≠ 4)

/-- Indices of the samples that some slot repeats for an undone cycle, in rising order. -/
def undoneIndices (q : TrcRt) : List Nat :=
  let l := q.data.map fun e => e.2.reverse
  (List.range q.cycles.length).filter fun i => l.any fun v => match v[i]? with | some x => x.2 | none => false

/-- UNDONE_LIST and UNDONE_OVER (R417). -/
def publishUndone (s : State) : State :=
  let l := undoneIndices s.obs.trc
  (s.setBytes Ob.Trc.UNDONE_LIST ((l.take 256).flatMap fun i => leBytes 4 i)).set Ob.Trc.UNDONE_OVER (bitAt (decide (256 < l.length)) 0)

/-- The samples of a ring's slots for the whistle at `tw` of cycle `n`, taken at its t_D (R416, R417). -/
def traceSample (s : State) (r tw n : Nat) : State :=
  let st := s.get Ob.Trc.TRACE_STATE
  let q := s.obs.trc
  if (st ≠ 1 ∧ st ≠ 2 ∧ st ≠ 3) ∨ tw ≤ q.armedAt then s else
    let keep := if st = 1 ∧ traceTrigger s tw = false then q.pre else q.depth
    -- each slot of this ring takes its value, or repeats it for an undone cycle
    let data := (traceSlots s).foldl (fun d k =>
      let a := s.nat Ob.TrcSlot.AXIS k
      let l := SMap.getD d k []
      if s.axisRing a ≠ r ∨ (st = 3 ∧ q.cycles.length ≤ l.length) then d else
        let undone := s.flag Ob.AxD.UNDONE a
        let v := if undone then (l.head?.map fun x => x.1).getD 0 else SMap.getD (s.axis a).nodes (s.nat Ob.TrcSlot.NODE k) 0
        SMap.put d k (((v, undone) :: l).take keep)) q.data
    let s := s.modObs fun o => { o with trc := { o.trc with data := data } }
    let s := if r ≠ traceRing s ∨ st = 3 then s
      else
        let cycles := (n :: q.cycles).take keep
        let hit := decide (st = 1) && traceTrigger s tw
        let s := s.modObs fun o => { o with trc := { o.trc with cycles := cycles, trig := if hit then some q.cycles.length else q.trig } }
        let s := if hit then (s.set Ob.Trc.TRACE_STATE 2).set Ob.Trc.TRACE_TRIGGER_INDEX q.cycles.length else s
        let s := s.set Ob.Trc.TRACE_START_CYCLE (cycles.getLastD n)
        if (hit ∨ st = 2) ∧ q.depth ≤ cycles.length then s.set Ob.Trc.TRACE_STATE 3 else s
    publishUndone s

/-! ### Frequency response (R420) -/

/-- A complex number with Q1.31 parts. -/
abbrev Cplx := Int × Int

/-- Members at even places, and at odd places. -/
def halves {α : Type} : List α → List α × List α
  | [] => ([], [])
  | x :: t => let h := halves t; (x :: h.2, h.1)

/-- w·b as the butterfly's CMPY and CEXT form it: 62 fraction bits rounded and saturated to Q1.31. -/
def cplxMul (w b : Cplx) : Cplx :=
  (sat 32 (roundShr (w.1 * b.1 - w.2 * b.2) 31), sat 32 (roundShr (w.1 * b.2 + w.2 * b.1) 31))

/-- Half of a sum of two lanes, which cannot overflow (R420 step 3: halving at every stage). -/
def halfLane (x : Int) : Int := sat 32 (roundShr x 1)

/-- The radix-2 transform of 2^k points in Q1.31, halved at every stage (R420 step 3). -/
def fftQ31 : Nat → List Cplx → List Cplx
  | 0, l => l
  | k + 1, l =>
    let h := halves l
    let e := fftQ31 k h.1
    let o := fftQ31 k h.2
    let n := 2 ^ k
    let tw (j : Nat) : Cplx := (cosQ31 (j * 2 ^ (31 - k)), -sinQ31 (j * 2 ^ (31 - k)))
    let p := (List.range n).map fun j => (e.getD j (0, 0), cplxMul (tw j) (o.getD j (0, 0)))
    (p.map fun x => (halfLane (x.1.1 + x.2.1), halfLane (x.1.2 + x.2.2))) ++ p.map fun x => (halfLane (x.1.1 - x.2.1), halfLane (x.1.2 - x.2.2))

/-- The window factor of point `i` of 2^k, with 31 fraction bits (R420 step 1). -/
def windowQ31 (hann : Bool) (k i : Nat) : Int := if hann then 2 ^ 30 - roundShr (cosQ31 (i * 2 ^ (32 - k))) 1 else 2 ^ 31

/-- A segment with its mean removed and the window applied, 2^k times the value, with 31 further fraction bits. -/
def segmentOf (hann : Bool) (k : Nat) (l : List Int) : List Int :=
  let m := l.sum
  (List.range l.length).map fun i => (l.getD i 0 * 2 ^ k - m) * windowQ31 hann k i

/-- Sums of one bin over segments: Re and Im of Σ Y·conj(U), Σ|U|², Σ|Y|². -/
structure FrfBin where
  re : Rat := 0
  im : Rat := 0
  uu : Rat := 0
  yy : Rat := 0
deriving DecidableEq

/-- What a segment adds to the sums of every bin (R420 steps 1 to 4). -/
def frfSegment (hann : Bool) (k : Nat) (us ys : List Int) (acc : List FrfBin) : List FrfBin :=
  let u := segmentOf hann k us
  let y := segmentOf hann k ys
  -- the largest magnitude of u + j·y, rounded up
  let big := isqrtUp ((List.range u.length).foldl (fun m i => max m ((u.getD i 0) ^ 2 + (y.getD i 0) ^ 2).toNat) 0)
  if big = 0 then acc else
    let sc (v : Int) : Int := roundDiv (v * (2 ^ 31 - 1)) big
    let x := fftQ31 k ((List.range (2 ^ k)).map fun i => (sc (u.getD i 0), sc (y.getD i 0)))
    let w : Rat := mkRat (big * big : Nat) ((2 ^ 31 - 1) ^ 2 * 4)
    (List.range (2 ^ (k - 1) + 1)).map fun j =>
      let a := x.getD j (0, 0)
      let b := x.getD ((2 ^ k - j) % 2 ^ k) (0, 0)
      -- twice the transforms of u and y
      let uk : Cplx := (a.1 + b.1, a.2 - b.2)
      let yk : Cplx := (a.2 + b.2, b.1 - a.1)
      let q := acc.getD j {}
      { re := q.re + w * (yk.1 * uk.1 + yk.2 * uk.2 : Int), im := q.im + w * (yk.2 * uk.1 - yk.1 * uk.2 : Int),
        uu := q.uu + w * (uk.1 * uk.1 + uk.2 * uk.2 : Int), yy := q.yy + w * (yk.1 * yk.1 + yk.2 * yk.2 : Int) }

/-- Fraction bits of a trace node (Table 07-3, Table 17-5). -/
def nodeFrac (s : State) (node : Nat) : Int := if node ≤ 6 then 32 else if node = 16 then injFrac (s.nat Ob.Inj.INJ_NODE) else 31

/-- The divider at which a node runs (R29, R162). -/
def nodeDivider (s : State) (a node : Nat) : Nat :=
  let r := s.axisRing a
  let d := s.dividers r (s.sched r) a
  let node := if node = 16 then (match s.nat Ob.Inj.INJ_NODE with | 1 => 1 | 2 => 4 | 3 => 9 | _ => 4) else node
  if node = 1 ∨ node = 3 then d.2.1
  else if s.kindOf a = 2 then 1
  else if node = 4 ∨ (6 ≤ node ∧ node ≤ 10) then d.1
  else 1

/-- γ² of a bin with Σ|U|² ≠ 0 over `segs` segments (R420): 1 for one segment; for more of them with Σ|Y|² = 0 the quotient is 0/0, which the spec does
not state (a free value, assumption log 186). -/
def frfGamma (segs i : Nat) (q : FrfBin) : Nat :=
  if segs = 1 then f32Of 1
  else if q.yy = 0 then Config.freeValue (2 ^ 36 + i) % 2 ^ 32
  else f32Of ((q.re * q.re + q.im * q.im) / (q.uu * q.yy))

/-- The octets of one bin of FRF_RESULT (Table 17-8). -/
def frfBinBytes (s : State) (segs k i tc inNode outNode : Nat) (q : FrfBin) : List Byte :=
  let unit : Rat := mkRat (2 ^ (32 + nodeFrac s inNode - nodeFrac s outNode).toNat) (2 ^ 32)
  let f := leBytes 4 (f32Of (mkRat (i * 1000000000 : Nat) (2 ^ k * max 1 tc)))
  if q.uu = 0 then f ++ leBytes 12 0
  else
    f ++ leBytes 4 (f32Of (q.re / q.uu * unit)) ++ leBytes 4 (f32Of (q.im / q.uu * unit)) ++ leBytes 4 (frfGamma segs i q)

/-- FRF_FAIL and the result of the computation over the trace in store (R420). -/
def frfCompute (s : State) : Nat × List Byte :=
  let k := s.nat Ob.Frf.FRF_LOG2N
  let n := 2 ^ k
  let segs := s.nat Ob.Frf.FRF_SEGMENTS
  let off := s.nat Ob.Frf.FRF_OFFSET
  let q := s.obs.trc
  let i := s.nat Ob.Frf.FRF_IN_SLOT
  let o := s.nat Ob.Frf.FRF_OUT_SLOT
  let ai := s.nat Ob.TrcSlot.AXIS i
  let ao := s.nat Ob.TrcSlot.AXIS o
  let inRange (x : Nat) : Bool := decide (off ≤ x ∧ x < off + n * segs)
  if q.cycles.length < off + n * segs then (1, [])
  else if s.flag Ob.Trc.UNDONE_OVER ∨ (undoneIndices q).any inRange = true then (2, [])
  else if (ai < 256 ∧ nodeDivider s ai (s.nat Ob.TrcSlot.NODE i) ≠ 1) ∨ (ao < 256 ∧ nodeDivider s ao (s.nat Ob.TrcSlot.NODE o) ≠ 1) then (3, [])
  else if 256 ≤ ai ∨ 256 ≤ ao then (4, [])
  else
    let vals (x : Nat) : List Int := ((SMap.getD q.data x []).map fun v => v.1).reverse
    let us := vals i
    let ys := vals o
    let bins := (List.range segs).foldl (fun acc g => frfSegment (s.flag Ob.Frf.FRF_WINDOW) k ((us.drop (off + n * g)).take n) ((ys.drop (off + n * g)).take n) acc) []
    let tc := s.tcyc (s.axisRing ai)
    (0, (List.range (n / 2 + 1)).flatMap fun b => frfBinBytes s segs k b tc (s.nat Ob.TrcSlot.NODE i) (s.nat Ob.TrcSlot.NODE o) (bins.getD b {}))

/-- FRF_START written (R420). -/
def frfStartWrite (s : State) : Act :=
  if s.get Ob.Frf.FRF_STATE = 1 then (s, stBusy)
  else if s.get Ob.Trc.TRACE_STATE ≠ 3 then (s, stState)
  else ((s.modObs fun o => { o with frf := some (frfCompute s) }).set Ob.Frf.FRF_STATE 1, stOk)

/-- FRF_START (0xC030.07). -/
def execFrfStart (t : Nat) (s : State) : Host.Outcome State Fault Refusal := whileOn s t <| answer (kept Ob.Frf.FRF_START 1 (frfStartWrite (s.at t)))

/-- FRF_DONE: the BACKGROUND items of the computation are over (R420). -/
def execFrfDone (t : Nat) (s : State) : Host.Outcome State Fault Refusal := whileOn s t <|
  let s := s.at t
  .next (match s.obs.frf with
    | none => s
    | some (fail, b) =>
      let s := (s.modObs fun o => { o with frf := none }).set Ob.Frf.FRF_FAIL fail
      if fail = 0 then (s.set Ob.Frf.FRF_STATE 2).setBytes Ob.Frf.FRF_RESULT b else s.set Ob.Frf.FRF_STATE 3)

end Sys2Proof.Machine
end

