-- ==== Sys2Proof/Machine/Read.lean ====
section
/-! DEFINITION. Reads from retained snapshots and DATA notifications (R121 to R123, R134, R135, R140, R141). -/

namespace Sys2Proof.Machine

/-- An entry of a READ or of a subscription (Table 06-3): object, KIND, and OFFSET and MAXLEN of a segment. -/
structure ReadName where
  idx : Nat
  sub : Nat
  kind : Nat
  off : Nat := 0
  maxLen : Nat := 0
deriving DecidableEq, Repr

/-- `n` entries from the front of a body; none where they overrun it. -/
def readNames : Nat → List Byte → Option (List ReadName)
  | 0, _ => some []
  | n + 1, b =>
    let k := leAt b 3 1
    let size := if k = 1 then 12 else 4
    if b.length < size then none else
      (readNames n (b.drop size)).map fun t =>
        { idx := leAt b 0 2, sub := leAt b 2 1, kind := k, off := if k = 1 then leAt b 4 4 else 0, maxLen := if k = 1 then leAt b 8 2 else 0 } :: t

/-- A retained snapshot by its number, or the newest for 0xFFFF_FFFF (R122, R123). -/
def snapOf (s : State) (id : Nat) : Option Snapshot := if id = 0xFFFFFFFF then s.snaps.head? else s.snaps.find? fun n => decide (n.id = id)

/-- Bytes from an instance's place in the stored records of the capture (Table 17-7). -/
def capturePage (s : State) (g : Nat) : List Byte := ((s.obs.cap.recs.reverse.flatten).drop (g * 2097152)).take 2097152

/-- Samples of a trace slot, oldest first (Table 17-8). -/
def traceBytes (s : State) (k : Nat) : List Byte := (SMap.getD s.obs.trc.data k []).reverse.flatMap fun v => leBytes 8 (lowBits 64 v.1)

/-- The number an object holds in a snapshot. -/
def Snapshot.num (n : Snapshot) (o : Obj) : Int := match SMap.get? n.values (o.key 0 0 0) with | some (.num v) => v | _ => o.dflt

/-- The value of an object in a snapshot; none where it may not be read there (R121, R123, R415, R417). -/
def snapValue (s : State) (n : Snapshot) (o : Obj) (key : Nat) : Option Val :=
  if o = Ob.CapPage.DATA then
    if 3 ≤ n.num Ob.Capt.STATE ∧ s.obs.cap.armedAt < n.time then some (.bytes (capturePage s (key / 256 - o.base))) else none
  else if o = Ob.TrcSlot.DATA then
    if n.num Ob.Trc.TRACE_STATE = 3 ∧ s.obs.trc.armedAt < n.time then some (.bytes (traceBytes s (key / 256 - o.base))) else none
  else some ((SMap.get? n.values key).getD o.default)

/-- One entry of a READ reply (Table 06-4). An entry whose RESULT is not 0 carries no value. -/
def readEntry (s : State) (n : Snapshot) (e : ReadName) : List Byte :=
  match lookup e.idx e.sub with
  | .inr st => leBytes 1 0 ++ leBytes 1 (if st = stNoObject then 1 else 2)
  | .inl o =>
    let head (r : Nat) : List Byte := leBytes 1 o.ty.code ++ leBytes 1 r
    match snapValue s n o (e.idx * 256 + e.sub) with
    | none => head 3
    | some v =>
      let b := valBytes o.ty v
      if e.kind = 0 then head 0 ++ (if o.ty.isBytes then leBytes 2 b.length else []) ++ b
      else if e.kind = 1 ∧ o.ty = .domain ∧ e.off ≤ b.length then
        let p := (b.drop e.off).take e.maxLen
        head 0 ++ leBytes 4 b.length ++ leBytes 2 p.length ++ p
      else head 3

/-- The entries of a reply or notification from one snapshot. -/
def readEntries (s : State) (n : Snapshot) (l : List ReadName) : List Byte := l.flatMap fun e => readEntry s n e

/-- READ (R123, R135): status and reply body. -/
def readRequest (s : State) (b : List Byte) : Nat × List Byte :=
  let c := leAt b 4 2
  if b.length < 8 then (stLength, [])
  else if 256 < c then (stLength, [])
  else if c = 0 then (stRange, [])
  else match readNames c (b.drop 8) with
    | none => (stLength, [])
    | some l => match snapOf s (leAt b 0 4) with
      | none => (stState, [])
      | some n =>
        let body := leBytes 4 n.id ++ leBytes 2 c ++ leBytes 2 0 ++ readEntries s n l
        if 1456 < body.length then (stLength, []) else (stOk, body)

/-- DATA notifications of a published snapshot: for the first after the SUBSCRIBE, then for every PERIOD-th (R141). -/
def notifyData (s : State) (n : Snapshot) : State :=
  forList (openSessions s) (fun k s =>
    forList (s.sess k).subs (fun u s =>
      let due := decide (u.left ≤ 1)
      let s := s.modSess k fun x => { x with subs := x.subs.map fun v => if v.id = u.id then { v with left := if due then max 1 v.period else v.left - 1 } else v }
      if due then
        notifySess s k (leBytes 1 1 ++ leBytes 1 u.id ++ leBytes 2 0 ++ leBytes 4 n.id ++ readEntries s n (u.names.map fun x => { idx := x.1, sub := x.2, kind := 0 }))
      else s) s) s

end Sys2Proof.Machine
end

