-- ==== Sys2Proof/Machine/Ring.lean ====
section
/-! DEFINITION. What the machine cycle, huddle and kickoff share about a ring: leaving PLAY (R44, R75, R117), roll-call checks (R70, R71,
R76), alignment (R88), service slots (R59 to R64, R76, R89), emission of frames (R50 to R56). -/

namespace Sys2Proof.Machine

/-! ### Cancelling a huddle, leaving PLAY -/

/-- The huddle replaced. -/
def State.modHud (s : State) (f : HuddleRt → HuddleRt) : State := { s with hud := f s.hud }

/-- A confirmed huddle is DONE once every involved ring still in PLAY has published its first scoreboard of the new schedule (Table 02-9). -/
def huddleSettle (s : State) : State :=
  let h := s.hud
  if h.active && decide (h.decided = 1 ∧ h.cstar ≤ s.now) && ((List.range 4).all fun r => !bit h.mask r || bit h.published r || !s.inPlay r) then
    (s.modHud fun h => { h with active := false }).set Ob.Hud.STATE 3
  else s

/-- A huddle that is announced or confirmed is cancelled with a REASON of Table 02-13 (R44). -/
def huddleCancel (s : State) (reason : Nat) : State :=
  if s.hud.active = false then s else
    let s := s.modHud fun h => { h with active := false, decided := 2 }
    (((s.set Ob.Hud.STATE 4).set Ob.Hud.REASON reason).count Ob.Hud.CANCEL_COUNT).warn 44 0 reason

/-- A switch-over or a drill begins: a huddle whose c* is still to come is cancelled (R44). -/
def huddleBreak (s : State) : State :=
  if s.now < s.hud.cstar then huddleCancel s 3
  else if s.hud.decided = 1 then s else s.modHud fun h => { h with active := false }

/-- Rings a huddle involves. -/
def hudRings (s : State) : List Nat := (List.range 4).filter fun r => bit s.hud.mask r

/-- Running items of ring `r` voided, unstarted ones cancelled (R31, R292); SERVICE and BACKGROUND items of its engines run again in the next
free window (R286). -/
def dispatcherDeadline (s : State) (r : Nat) (ax : List Nat) : State :=
  let s := forBelow 8 (fun e s =>
    match (s.eng e).run with
    | some g =>
      if g.item.prio ≤ 1 then (if ax.contains g.item.flow then orderVoid s e 1 else s)
      else if engineRing s e = r then orderVoid { s with disp := { s.disp with again := s.disp.again ++ [g.item] } } e 1
      else s
    | none => s) s
  let left := ax.filter fun a => (s.axis a).waiting.isSome && decide ((s.axis a).undoneWhy ≠ some 1 ∧ (s.axis a).undoneWhy ≠ some 3)
  let held := left.filter fun a => s.disp.held.any fun i => decide (i.flow = a ∧ i.prio ≤ 1)
  let s := dropItems s fun i => decide (i.prio ≤ 1) && ax.contains i.flow
  let s := dropDependents (s.count Ob.Disp.CANCELLED 0 0 0 left.length) left (s.ring r).tw
  s.count Ob.Disp.BP_UNDONE 0 0 0 held.length

/-- Ring `r` leaves PLAY for a STATE with a FAIL_REASON (R75, R44, R117). The items of its cycle end as at t_D; LOCAL_RING's own
whistle goes on (R22). -/
def leavePlay (s : State) (r : Nat) (state reason : Int) : State :=
  let was := s.inPlay r
  let s := if was && (s.ring r).open_ then dispatcherDeadline s r (s.axesOn r) else s
  let s := ((s.set Ob.Ring.STATE state r).set Ob.Ring.FAIL_REASON reason r).set Ob.Ring.REJOIN_STATE 0 r
  let s := s.modRing r fun q => { q with txOn := false, missRun := 0, open_ := q.open_ && decide (r = s.localRing), returned := false, lastOk := false, tx := none, echo := none, readSent := false }
  if was = false then s else
    let s := faultRing s r 7 true
    let s := commitRingLeft s r
    let s := if bit s.hud.mask r && decide (s.now < s.hud.cstar) then huddleCancel s 4 else s
    let s := forBelow 64 (fun i s => s.modWk r (i + 1) fun w => { w with admitted := false, expectTag := none, data := [] }) s
    let s := forList (s.axesOn r) (fun a s => s.modAxis a fun x => { x with waiting := none, undoneWhy := none }) s
    huddleSettle (s.set Ob.Cyc.ACTIVE_SCHEDULE (s.get Ob.Cyc.START_SCHEDULE 0 0 r) 0 0 r)

/-! ### Roll-call (R70, R71) -/

/-- The largest IO sizes, down and up, of a position over its IO channels and every schedule. -/
def ioMaxima (s : State) (r p : Nat) : Nat × Nat :=
  (List.range 8).foldl (fun m sc => (List.range 8).foldl (fun m c =>
    if s.layout r p c = 4 then let z := s.ioSize r sc p c; (max m.1 z.1, max m.2 z.2) else m) m) (0, 0)

/-- The checks of Table 03-16 on an IDENT payload, Count apart: 0 they pass, 1 all but Serial at a position that allows a substitute,
2 they fail. -/
def identOk (s : State) (r p : Nat) (b : List Byte) : Nat :=
  let lay := s.nat Ob.Wk.CHANNEL_LAYOUTS r p
  let io := ioMaxima s r p
  let ok := decide (leAt b 4 4 = s.nat Ob.Wk.VENDOR_ID r p ∧ leAt b 8 4 = s.nat Ob.Wk.PRODUCT r p) &&
    decide (s.nat Ob.Wk.REV_MIN r p ≤ leAt b 12 2) && decide (leAt b 24 4 = lay ∧ leAt b 20 1 = layoutCount lay) &&
    decide ((fullBlock s r p).length ≤ leAt b 22 2 ∧ io.1 ≤ leAt b 28 1 ∧ io.2 ≤ leAt b 29 1) &&
    bit (leAt b 30 1) (if s.get Ob.Ring.PHY_RATE r = 0 then 1 else 0)
  if ok = false then 2
  else if leAt b 16 4 = s.nat Ob.Wk.SERIAL r p then 0
  else if s.flag Ob.Wk.SUBSTITUTE_OK r p then 1 else 2

/-- The schedules' IO sizes of a position exceed the maxima of the worker that holds it (Table 03-8). -/
def ioBeyond (s : State) (r p sc : Nat) : Bool :=
  let b := s.bytes Ob.Wk.IDENT r p
  !b.isEmpty && (List.range 8).any fun c => decide (s.layout r p c = 4) &&
    (let z := s.ioSize r sc p c; decide (leAt b 28 1 < z.1 ∨ leAt b 29 1 < z.2))

/-- A worker claims position `p` at roll-call or rejoin: its identity recorded, checks of Table 03-16, STATUS `st` or SUBSTITUTED, or
MISMATCH. Answers whether it is admitted. -/
def admitWorker (s : State) (r p st : Nat) (b : List Byte) : State × Bool :=
  let s := s.setBytes Ob.Wk.IDENT b r p
  let v := identOk s r p b
  if v = 2 then (s.set Ob.Wk.STATUS 3 r p, false)
  else
    let q := s.wk r p
    let s := s.setWk r p { sub := decide (v = 1), qstop := q.qstop, clk := {} }
    let s := forList (axesAt s r p) (fun a s => startRebase s a) s
    let s := if v = 1 then (s.count Ob.Wk.SUBST_COUNT r p).warn 71 r p else s
    (s.set Ob.Wk.STATUS (if v = 1 ∧ st = 1 then 2 else st) r p, true)

/-! ### Alignment of one position (R88) -/

/-- CYCLE of the last frame sent on a ring. -/
def lastSent (s : State) (r : Nat) : Nat := match (s.ring r).tx with | some f => f.cycle | none => 0

/-- The DELAY slot to a position under alignment in the next frame, with the frame before it as REF_CYCLE: SET with STEP once 16 measurements of every
position concerned are averaged (`all`), a measurement otherwise, and always for the partner at N + 1. -/
def alignSlot (s : State) (r p : Nat) (all : Bool) : SvcSlot :=
  match (s.ring r).stampNew with
  | none => delaySlot s r p (lastSent s r) false false 0
  | some (c, e0, _) =>
    let k := (s.wk r p).clk
    let set := all && decide (p ≤ s.nWorkers r) && !k.stepped
    delaySlot s r p c set set e0

/-- The answer to an alignment slot: `e0` and `loop0` are the head's stamps of REF_CYCLE `c`, `ref` its t_W, `set` tells that the slot carried SET. The frame that
carried SET arrived before the step, so its own stamps tell nothing of the alignment: one pass is 22 frames, 5.5 ms (R88). -/
def alignTake (s : State) (r p c e0 ref : Nat) (loop0 : Int) (set : Bool) (b : List Byte) : State :=
  let k0 := (s.wk r p).clk
  if leAt b 5 1 ≠ 1 then s.modWk r p fun w => { w with clk := if k0.n < 16 then { w.clk with n := 0, sumD := 0, sumF := 0 } else w.clk }
  else
    let k := delayAnswer k0 b
    if set then s.modWk r p fun w => { w with clk := { k with fwd := k0.fwd, stepped := true, good := 0, errs := [], setIn := lastSent s r } }
    else if k.n < 16 then
      let d := segmentDelay s r p loop0 k
      let n := k.n + 1
      let sd := k.sumD + d
      let sf := k.sumF + k.fwd
      let k := { k with n := n, sumD := sd, sumF := sf, d := d, ref := ref, fwds := (k.fwd :: k.fwds).take 16 }
      let k := if n = 16 then { k with d := roundDiv sd 16, fwd := roundDiv sf 16 } else k
      s.modWk r p fun w => { w with clk := k }
    else if c = k0.setIn ∨ s.nWorkers r < p then s
    else
      let e := delayTfi b - ((e0 : Int) * 65536 + travelTo s r p)
      let errs := (e :: k.errs).take 4
      let good := k.good + 1
      let fail := decide (good = 4) && errs.any fun e => decide (65536 < |e|)
      let k := { k with fwd := k0.fwd, errs := errs, good := if fail then 0 else min 4 good, stepped := !fail, ref := ref }
      publishClock (s.modWk r p fun w => { w with clk := k }) r p

/-- A position is aligned. -/
def aligned (k : WkClk) : Bool := k.stepped && decide (4 ≤ k.good)

/-! ### PARAM_NOW download (R60, R66) -/

/-- The next PARAM_NOW fragment to a position. -/
def downloadSlot (s : State) (r p : Nat) : SvcSlot := fragSlot 2 p (nowTag s) 0 (s.wk r p).dlFrag (fullBlock s r p)

/-- The answer to a PARAM_NOW fragment: taken, complete, to be sent again (STATUS NONE), or refused (answered false). -/
def downloadTake (s : State) (r p status : Nat) : State × Bool :=
  match status with
  | 0 => (s, true)
  | 1 => (s.modWk r p fun w => { w with dlFrag := min (w.dlFrag + 1) (fragCount (fullBlock s r p) - 1) }, true)
  | 2 => (s.modWk r p fun w => { w with dlDone := true }, true)
  | _ => (s, false)

/-! ### The service slot of a play frame (R64) -/

/-- The block of the commit in progress whose fragments go out on ring `r`: the first that is not complete. -/
def paramDue (s : State) (r : Nat) : Option ParamBlock :=
  if s.com.phase = 2 then s.com.blocks.find? fun b => decide (b.ring = r) && !b.complete else none

/-- Positions of a ring that are rejoining and pass the checks. -/
def rejoining (s : State) (r : Nat) : List Nat := (List.range (s.nWorkers r)).filterMap fun i => if s.get Ob.Wk.STATUS r (i + 1) = 5 then some (i + 1) else none

/-- The slot of a rejoin in progress (R76). -/
def rejoinSlot (s : State) (r : Nat) : Option SvcSlot :=
  match s.get Ob.Ring.REJOIN_STATE r with
  | 1 => some { typ := 8, dest := (s.ring r).rejoinPos }
  | 2 => some { typ := 3, dest := 0xFF, len := 112, payload := List.replicate 112 0 }
  | 3 => match rejoining s r with
    | p :: _ => if aligned (s.wk r p).clk then some (downloadSlot s r p) else some (alignSlot s r p (decide (16 ≤ (s.wk r p).clk.n)))
    | [] => none
  | _ => none

/-- The slot of a diagnostic request (R64, Table 03-10): READ of the oldest, then REPLY to the same worker. -/
def readSlot (q : RingRt) : SvcSlot :=
  match q.reads with
  | [] => {}
  | (p, idx, sub) :: _ =>
    { typ := if q.readSent then 6 else 5, dest := p, len := if q.readSent then 112 else 3, payload := leBytes 2 idx ++ leBytes 1 sub ++ List.replicate 109 0 }

/-- The answer to a READ or a REPLY slot: a slot that was not processed is sent again, a REPLY ends the request (Table 03-10). -/
def readTake (q : RingRt) (v a : SvcSlot) : RingRt :=
  if a.status = 0 then q
  else if v.typ = 5 then (if a.status = 9 then { q with reads := q.reads.drop 1 } else { q with readSent := true })
  else { q with reads := q.reads.drop 1, readSent := false, replies := (v.dest, a.payload) :: q.replies }

/-- The service slot of the frame of cycle `n` on a ring in PLAY (R64, R89); a DELAY slot moves the turn on. -/
def serviceSlot (s : State) (r n : Nat) : SvcSlot × State :=
  match paramDue s r with
  | some b => (fragSlot 1 b.pos s.com.tag (cycleNo s.com.applyAt (s.tcyc r)) b.sent b.bytes, s)
  | none => match rejoinSlot s r with
    | some v => (v, s)
    | none => match delayDue s r, (s.ring r).stampNew with
      | some (p, ahead), some (c, e0, _) =>
        if (c + 1) % 2 ^ 32 ≠ n then (readSlot (s.ring r), s)
        else
          let np := max 1 (measuredPositions s r)
          let step := delayStep s r
          (delaySlot s r p c (wantsSet (s.wk r p).clk) false e0,
           (s.modWk r p fun w => { w with clk := { w.clk with sentAt := (s.ring r).tw } }).modRing r fun q =>
             { q with delayAt := if ahead then q.delayAt else max (q.delayAt + step) (q.tw - step), delayNext := if p = q.delayNext then p % np + 1 else q.delayNext })
      | _, _ => (readSlot (s.ring r), s)

/-! ### Emission (R23, R50 to R56) -/

/-- FLAGS.COMMIT and COMMIT_TAG of the frame of the cycle of ring `r` that starts at `c` (R62, R117): from two pacing cycles before A to A;
CONFIRM only once a standby has acknowledged the decision (R380). -/
def commitFlag (s : State) (c : Nat) : Nat × Nat :=
  match s.com.tell with
  | some (tag, a, tp, confirm) => if a ≤ c + 2 * tp ∧ c < a then
      (if confirm && s.pair.confirmWait.isSome then (0, 0) else (if confirm then 1 else 2, tag)) else (0, 0)
  | none => (0, 0)

/-- FLAGS.HUDDLE, HUDDLE_TARGET and HUDDLE_CYCLE of a frame of ring `r` in PLAY (Table 02-9). -/
def huddleFlag (s : State) (r : Nat) : Nat × Nat × Nat :=
  let h := s.hud
  if bit h.mask r && decide (s.now < h.cstar) then
    (match h.decided with | 0 => if h.active then 1 else 0 | 1 => 2 | _ => 3, h.targets.getD r 0, h.hr.getD r 0)
  else (0, 0, 0)

/-- WHISTLE of the frame of the cycle in progress on ring `r`: the next whistle, of the new schedule where a confirmed huddle switches
there (R45, R52). -/
def nextWhistle (s : State) (r : Nat) : Nat :=
  let q := s.ring r
  let next := q.tw + q.tc
  let c := next - s.woff r
  if bit s.hud.mask r && decide (s.hud.decided = 1 ∧ s.hud.cstar = c) then c + s.nat Ob.Sched.WHISTLE_OFFSET r (s.hud.targets.getD r 0) else next

/-- The bytes of a worker slot as the head sends it (Tables 03-4, 03-5); the worker's own region leaves as zeros (assumption log 170). -/
def slotBytes (d : DownSlot) : List Byte := leBytes 4 (downHeader d) ++ d.cmd ++ d.safety ++ List.replicate (4 + d.up) 0

/-- The bytes of a service slot as the head sends it (Table 03-9). -/
def svcBytes (v : SvcSlot) : List Byte :=
  leBytes 1 v.typ ++ leBytes 1 v.dest ++ leBytes 1 v.tag ++ leBytes 1 v.frag ++ leBytes 1 v.fragCount ++ leBytes 1 v.len ++ leBytes 2 0 ++
  leBytes 4 v.applyCycle ++ leBytes 4 0 ++ v.payload.take 112 ++ List.replicate (112 - v.payload.length) 0

/-- The Sahx header of a frame as the head sends it (Table 03-2): VERSION 0x01, ATTENDANCE clear. -/
def headerOut (f : RallyFrame) : List Byte :=
  leBytes 1 1 ++ leBytes 1 (f.huddleTarget * 8 + f.sched) ++ leBytes 2 f.flags ++ leBytes 4 f.cycle ++ leBytes 8 f.whistle ++ leBytes 2 f.length ++
  leBytes 1 f.commitTag ++ leBytes 1 f.sender ++ leBytes 4 f.huddleCycle ++ leBytes 8 0

/-- The bytes of a frame from Sahx offset 0 to the end of its last service slot. -/
def sahxBytes (f : RallyFrame) : List Byte := headerOut f ++ f.slots.flatMap slotBytes ++ f.svc.flatMap svcBytes

/-- The bytes of a rally frame from its destination address to its frame check sequence (Table 03-1). -/
def wireBytes (s : State) (f : RallyFrame) : List Byte :=
  let e := s.nat Ob.Ring.ETHERTYPE f.ring
  let b := (beBytes 6 (0x035341485800 + f.ring)) ++ beBytes 6 (Config.ringPort f.ring % 2 ^ 48) ++ beBytes 2 e ++ sahxBytes f
  b ++ leBytes 4 (crc32 b)

/-- A frame sent on a ring in the cycle whose whistle is `w`: kept until the next, its stamps of the frame before it becoming those of REF_CYCLE (R85). -/
def sendFrame (s : State) (r w : Nat) (f : RallyFrame) : State :=
  let echo (q : RingRt) : Option Nat := match q.tx with | some g => if g.whistle = w then some (g.cycle % 256) else none | none => none
  (s.modRing r fun q => { q with tx := some f, txAt := s.now, echo := echo q, stamp := q.stampNew, stampNew := none, returned := false,
                                 half := !q.half, rx0 := if q.half then [] else q.rx0, rx1 := if q.half then q.rx1 else [] }).emit (.frame f (wireBytes s f))

/-- The worker slots of a frame; the QSTOP_REQ of a worker ends with the first frame that sets CLEAR_FAULT for it (R35). -/
def emitSlots (s : State) (r sc n : Nat) (valid : Bool) : List DownSlot × State :=
  let l := (List.range (s.nWorkers r)).map fun i => workerSlot s r sc (i + 1) n valid
  (l, forList l (fun d s => if d.clearFault then s.modWk r d.pos fun w => { w with qstop := false } else s) s)

/-- The ring runs split (R381). -/
def isSplit (s : State) (r : Nat) : Bool := decide (s.get Ob.PairX.SPLIT_STATE 0 0 r = 1)

/-- Position `p` belongs to the half of a split ring that this unit serves (R381); on a whole ring every position does. -/
def ownHalf (s : State) (r p : Nat) : Bool :=
  !isSplit s r || (decide (p ≤ s.nat Ob.PairX.SPLIT_AT 0 0 r) != s.flag Ob.PairC.UNIT_END)

/-- The rally frame of the cycle in progress leaves on a ring in PLAY (R23, Tables 03-1 to 03-5). -/
def emitPlay (s : State) (r : Nat) : State :=
  let q := s.ring r
  let sc := s.sched r
  let (cf, tag) := commitFlag s (q.tw - s.woff r)
  let (hf, target, hc) := huddleFlag s r
  let (slots, s) := emitSlots s r sc q.cycle true
  let (svc, s) := serviceSlot s r q.cycle
  let s := if hf = 1 then s.modHud fun h => { h with announcedAt := if h.announcedAt = 0 then s.now else h.announcedAt } else s
  sendFrame s r q.tw { ring := r, sched := sc, huddleTarget := target, flags := flagsWord r cf hf (isSplit s r) false, cycle := q.cycle,
                       whistle := nextWhistle s r, length := sahxLength s r sc, commitTag := tag, sender := senderByte s r, huddleCycle := hc,
                       slots := slots, svc := [svc] }

/-! ### A returned frame -/

/-- The Sahx header of a frame as returned (Table 03-2): FLAGS, CYCLE, LENGTH, ATTENDANCE. -/
structure RxHeader where
  flags : Nat
  cycle : Nat
  length : Nat
  attendance : Nat
deriving DecidableEq, Repr

/-- The header of a returned frame given from Sahx offset 0. -/
def rxHeader (b : List Byte) : RxHeader := { flags := leAt b 2 2, cycle := leAt b 4 4, length := leAt b 16 2, attendance := leAt b 24 8 }

/-- A returned frame may be read (R36, R57, R58): LENGTH, FCS (`fcs`: 0 correct, 1 stomped, 2 a fresh error), CYCLE. The counters of Table 03-17
are kept. -/
def rxValid (s : State) (r fcs : Nat) (b : List Byte) : State × Bool :=
  let h := rxHeader b
  let lenOk := decide (160 ≤ h.length ∧ h.length ≤ 9216 ∧ h.length = b.length)
  let s := if fcs = 1 then s.count Ob.Ring.FCS_FWD r else if fcs = 0 then s else s.count Ob.Ring.FCS_ERR r
  let s := if lenOk then s else s.count Ob.Ring.LENGTH_ERR r
  let cycOk := match (s.ring r).tx with | some f => decide (h.cycle = f.cycle) | none => false
  (s, lenOk && decide (fcs = 0) && cycOk)

/-- The half of the receive buffer that takes the frame in flight. -/
def rxHalf (q : RingRt) : List Byte := if q.half then q.rx1 else q.rx0

/-- Bytes that land at Sahx offset `o` in the half of the receive buffer in use; none is written beyond its 9 216 bytes (R58). -/
def rxStore (s : State) (r o : Nat) (b : List Byte) : State :=
  s.modRing r fun q =>
    let h := rxHalf q
    let n := (h.take o ++ List.replicate (o - h.length) 0 ++ b ++ h.drop (o + b.length)).take 9216
    if q.half then { q with rx1 := n } else { q with rx0 := n }

/-- Up header of position `p` in a returned frame under schedule `sc` (Tables 03-4, 03-6). -/
def rxUp (s : State) (r sc p : Nat) (b : List Byte) : Nat := leAt b (s.slotStart r sc p + 12 + (s.workerSize r sc p).1) 4

/-- Safety answer of position `p` in a returned frame. -/
def rxSafety (s : State) (r sc p : Nat) (b : List Byte) : List Byte := slice b (s.slotStart r sc p + 4 + (s.workerSize r sc p).1) 8

/-- Sample data of position `p` in a returned frame. -/
def rxData (s : State) (r sc p : Nat) (b : List Byte) : List Byte :=
  let w := s.workerSize r sc p
  slice b (s.slotStart r sc p + 16 + w.1) w.2

/-- The service slot of a returned play frame. -/
def rxService (b : List Byte) : SvcSlot := svcOf (slice b (b.length - 128) 128)

end Sys2Proof.Machine
end

