-- ==== Sys2Proof/Machine/Undone.lean ====
section
/-! DEFINITION. Undone axes (R31 to R36, R38, R192, R292): missing frames, the values of Table 02-8, overrun, and the figures of the engines
at t_D (R295). -/

namespace Sys2Proof.Machine

/-! ### Stops that the worker runs (R35, R38, R192) -/

/-- Worker `p` of a ring is told to stop on its own (R35): QSTOP_REQ, and its axes FAULTED with a code (R192). -/
def tellStop (s : State) (r p code : Nat) : State :=
  let s := s.modWk r p fun w => { w with qstop := true }
  forList (axesAt s r p) (fun a s =>
    let s := if (s.axis a).mot.state = .disabled then s else s.modAxis a fun x => { x with flags := { x.flags with toldStop := true } }
    faultAtOnce s a code) s

/-- A worker with an axis that can take a reaction: ARMING, ENABLED or STOPPING (R35, R38). -/
def hasLiveAxis (s : State) (r p : Nat) : Bool :=
  (axesAt s r p).any fun a => decide ((s.axis a).mot.state = .arming ∨ (s.axis a).mot.state = .enabled ∨ (s.axis a).mot.state = .stopping)

/-- FRAME_MISSING_LIMIT judged (R38): as in R35, every worker of the ring with an axis that can react is told to stop; with an eligible standby the unit asks for a switch-over
instead (Table 15-4). -/
def judgeMissing (s : State) (r : Nat) : State :=
  if (s.ring r).missRun < s.nat Ob.Cyc.FRAME_MISSING_LIMIT ∨ s.inPlay r = false then s
  else if standbyEligible s then (if s.pair.want = 0 then askPartner s 3 else s)
  else
    let s := forBelow (s.nWorkers r) (fun i s => if hasLiveAxis s r (i + 1) then s.modWk r (i + 1) fun w => { w with qstop := true } else s) s
    faultRing s r 7 true

/-- FRAME_MISSING_LIMIT. -/
def execFrameMissingLimit (r t : Nat) (s : State) : Host.Outcome State Fault Refusal := whileOn s t <| .next (judgeMissing (s.at t) r)

/-! ### Missing frames (R36) -/

/-- Axes whose items belong to the cycle in progress on ring `r`: its own where it is in PLAY, and with LOCAL_RING those of local ports. -/
def cycleAxes (s : State) (r : Nat) : List Nat := (axesOf s r).filter fun a => decide (s.kindOf a ≠ 0) && (s.inPlay r || !s.onRing a r)

/-- The samples of position `p` that have landed in cycle `n` are discarded (R36). -/
def discardLanded (s : State) (r p n : Nat) : State :=
  s.modWk r p fun w => if w.landedCycle = some n then { w with data := w.before.1, landedCycle := w.before.2.1, landedSched := w.before.2.2 } else w

/-- The frame of the cycle in progress on ring `r` is missing (R36): counted once; its items that have not started are cancelled with cause
FRAME (Table 11-3), its samples are discarded, and no safety answer has come (R348). -/
def missFrame (s : State) (r : Nat) : State :=
  let q := s.ring r
  if q.lost || q.returned || !s.inPlay r then s else
    let s := ((s.count Ob.Cyc.FRAME_MISSING 0 0 r).set Ob.Ring.ATTENDANCE 0 r).modRing r fun q => { q with lost := true, lastOk := false, missRun := q.missRun + 1, stampNew := none }
    let l := (s.axesOn r).filter fun a => (s.axis a).waiting.isSome && !axisRuns s a && decide ((s.axis a).undoneWhy ≠ some 1)
    let s := dropItems s fun i => decide (i.prio ≤ 1 ∧ i.tw = q.tw) && l.contains i.flow
    let s := dropDependents (s.count Ob.Disp.CANCELLED 0 0 0 l.length) l q.tw
    let s := forList l (fun a s => s.modAxis a fun x => { x with undoneWhy := some 3 }) s
    let s := forBelow (s.nWorkers r) (fun i s => discardLanded (judgeAnswer s r (i + 1) q.cycle 0 none) r (i + 1) q.cycle) s
    judgeMissing (noteFree s) r

/-! ### The values of Table 02-8 -/

/-- 2·x(n−1) − x(n−2), held where there is no x(n−2) (R32). -/
def extrapolate (h1 : HistVal) (h2 : Option HistVal) (f : HistVal → Int) : Int :=
  match h2 with
  | some h => 2 * f h1 - f h
  | none => f h1

/-- A position saturated to the axis's soft limits, where they act (R32, R207). -/
def clampSoft (s : State) (a : Nat) (x : Int) : Int :=
  if s.get Ob.Lim.SOFT_LIMIT_ENABLE a = 1 ∧ (s.axis a).flags.homed = true then clampInt (sat 64 x) (s.get Ob.Lim.SOFT_LIMIT_NEG a) (s.get Ob.Lim.SOFT_LIMIT_POS a)
  else sat 64 x

/-- The actual position and velocity of the whistle's samples, from a FEEDBACK run on a copy: the live feedback state is not advanced
(R31). -/
def sampledActual (s : State) (a tw tc : Nat) : Int × Int := let f := (feedbackNode s a tw tc).axis a; (f.fb.xact, f.fb.vact)

/-- The values of an undone axis for the whistle at `tw` (Table 02-8); `landed` tells that its samples landed and stand. -/
def undoneValues (s : State) (a tw tc : Nat) (landed : Bool) : HistVal :=
  let x := s.axis a
  match x.h1 with
  | none => let m := if landed then sampledActual s a tw tc else (x.fb.xact, x.fb.vact)
    { xref := x.loop.xref, theta := x.cur.theta, xact := m.1, vact := m.2, cmd1 := if s.kindOf a = 5 then x.loop.xref else 0, cmd2 := if s.kindOf a = 5 then x.stepShift else 0 }
  | some h =>
    let ex := extrapolate h x.h2
    let vm := s.get Ob.Ctl.V_MAX a
    let xr := clampSoft s a (ex (·.xref))
    let th : Nat := match x.h2 with | some g => lowBits 32 ((2 * h.theta : Int) - g.theta) | none => h.theta
    let lim := torqueLimits s a
    let k := s.kindOf a
    let m := if s.get Ob.AxFb.FB_SOURCE a = 0xFF then (xr, clampInt (ex (·.vref)) (-vm) vm)
      else if landed then sampledActual s a tw tc else (h.xact, h.vact)
    let volt := rotate h.vd h.vq (lowBits 32 ((th : Int) + commandAngle s a tc - x.cur.theta))
    let c1 := match k with
      | 2 => let b := (velCmdWord s a tc vm).1; clampInt (ex (·.cmd1)) (-|b|) |b|
      | 5 => clampSoft s a (ex (·.cmd1))
      | 1 => h.cmd1
      | _ => if loopsOn x then volt.1 else 0
    { xref := xr, vref := clampInt (ex (·.vref)) (-vm) vm, aff := clampInt (ex (·.aff)) (-lim.2.1) lim.1.1, vcmd := clampInt (ex (·.vcmd)) (-vm) vm,
      torque := h.torque, vd := h.vd, vq := h.vq, theta := th, xact := m.1, vact := m.2, cmd1 := c1,
      cmd2 := match k with | 5 => h.cmd2 | 1 => 0 | 2 => 0 | _ => if loopsOn x then volt.2 else 0 }

/-- The torque and the currents that the whistle's samples show (R32, R186): the worker's TORQUE_ACT, or the current vector of a direct axis. -/
def showSamples (s : State) (a : Nat) (xact : Int) : State :=
  let k := s.kindOf a
  if k = 1 ∨ k = 2 then s.set Ob.Map.TORQUE_ACTUAL (torqueSample s a) a
  else if isDirect k ∧ loopsOn (s.axis a) = true then
    let i := currentVector s a (elecAngle s a xact)
    ((s.set Ob.Map.ID_ACTUAL i.1 a).set Ob.Map.IQ_ACTUAL i.2 a).set Ob.Map.TORQUE_ACTUAL i.2 a
  else s

/-- The objects of an undone axis show the values of Table 02-8 (R32, R121); `landed` tells that its samples landed and stand. -/
def showUndone (s : State) (a : Nat) (h : HistVal) (landed : Bool) : State :=
  let s := (s.set Ob.Map.ACTUAL_POSITION h.xact a).set Ob.Map.ACTUAL_VELOCITY h.vact a
  let s := if landed then showSamples s a h.xact else s
  if loopsOn (s.axis a) then
    let s := s.set Ob.Map.POSITION_DEMAND h.xref a
    if s.kindOf a = 5 then s else s.set Ob.Map.VELOCITY_DEMAND h.vcmd a
  else s

/-! ### Overrun (R34, R35) -/

/-- UNDONE_RUN of an axis, having been `prev` before this undone cycle, judged against OVERRUN_LIMIT (R35). -/
def judgeOverrun (s : State) (a prev : Nat) : State :=
  let lim := s.nat Ob.Cyc.OVERRUN_LIMIT
  let x := s.axis a
  if prev + 1 = lim ∧ x.flags.overran = false ∧ x.mot.state.powered = true then
    raiseFault (s.modAxis a fun x => { x with flags := { x.flags with overran := true } }) a 6 2
  else if lim < prev + 1 ∧ x.flags.overran = true then
    if s.get Ob.Map.RING a < 4 then
      if x.flags.toldStop then s else tellStop s (s.nat Ob.Map.RING a) (s.nat Ob.Map.WORKER a) 6
    else startStop s a .hard .fault
  else s

/-- OVERRUN of axis `a`. -/
def execOverrun (a t : Nat) (s : State) : Host.Outcome State Fault Refusal := whileOn s t <|
  let s := s.at t
  .next (match s.nat Ob.AxD.UNDONE_RUN a with
    | 0 => s
    | n + 1 => judgeOverrun s a n)

/-- The sample region of a ring axis landed for the cycle in progress, and by its admitted arrival a_p (R31). -/
def landedInTime (s : State) (a : Nat) : Bool × Bool :=
  let r := s.nat Ob.Map.RING a
  let p := s.nat Ob.Map.WORKER a
  let q := s.ring r
  let w := s.wk r p
  let ok := decide (w.landedCycle = some q.cycle)
  (ok && !q.lost, ok && decide (w.landedAt * 1000 ≤ q.tw * 1000 + arrival s r w.landedSched p + 999))

/-- The cause of an undone axis (R31): 1 COMPUTE, 2 LATE_SAMPLE, 3 FRAME. -/
def undoneCause (s : State) (a : Nat) : Nat :=
  match (s.axis a).undoneWhy with
  | some 3 => 3
  | some 2 => 2
  | _ => if s.get Ob.Map.RING a < 4 ∧ (landedInTime s a).2 = false then 2 else 1

/-- An axis that has completed the cycle (R34). -/
def settleDone (s : State) (a : Nat) : State :=
  let s := (s.put1 Ob.AxD.UNDONE 0 a).put1 Ob.AxD.UNDONE_RUN 0 a
  if (s.axis a).flags.overran || !(s.axis a).oldVals.isEmpty then
    s.modAxis a fun x => { x with flags := { x.flags with overran := false }, oldVals := [] }
  else s

/-- An axis undone in cycle `n` of the ring with whistle `tw` (R31 to R35): values of Table 02-8, counters, reactions. -/
def settleUndone (s : State) (a n tw tc : Nat) : State :=
  let cause := undoneCause s a
  let local_ := s.onRing a 0xFE
  let landed := local_ || (landedInTime s a).1
  let h := undoneValues (s.overlay (s.axis a).oldVals) a tw tc landed
  let s := s.modAxis a fun x => { x with h2 := x.h1, h1 := some h, waiting := none, undoneWhy := none, loop := { x.loop with late := true } }
  let s := if local_ then pushLoad s a n h.cmd1 h.cmd2 (s.axis a).flags.power else s
  let s := showUndone s a h landed
  let prev := s.nat Ob.AxD.UNDONE_RUN a
  let s := ((s.set Ob.AxD.UNDONE 1 a).count Ob.AxD.UNDONE_TOTAL a).count Ob.AxD.UNDONE_RUN a
  let s := s.count (match cause with | 1 => Ob.Cyc.UNDONE_COMPUTE | 2 => Ob.Cyc.UNDONE_LATE | _ => Ob.Cyc.UNDONE_FRAME)
  let s := if prev + 1 < s.nat Ob.Cyc.OVERRUN_LIMIT then s.warn 34 a cause else s
  judgeOverrun s a prev

/-! ### t_D at the dispatcher (R31, R286, R291, R292) -/

/-- Figures of the engines whose axes belong to ring `r` shown for the cycle that ends (Table 11-6), and counters (R404). -/
def publishEngines (s : State) (r : Nat) : State :=
  let q := s.ring r
  forBelow 8 (fun e s =>
    if engineRing s e ≠ r then s else
      let g := s.eng e
      let tD := q.tw + q.tc - guardNs
      let free := if (engineAxes s e).isEmpty then q.tc - guardNs - 500 else match g.freeFrom with | some t => tD - t | none => 0
      let load := min 10000 (g.busy * 10000 / max 1 q.tc)
      let s := ((s.set Ob.Eng.ITEMS_LAST (min 512 g.items) e).set Ob.Eng.BUSY_LAST g.busy e).set Ob.Eng.LOAD_LAST load e
      let s := s.raiseMax Ob.Eng.LOAD_MAX load e
      let s := ((s.set Ob.Eng.WAIT_MEAN_LAST (if g.waitN = 0 then 0 else g.waitSum / g.waitN : Nat) e).set Ob.Eng.FREE_WINDOW_LAST free e).set Ob.Eng.SERVICE_BUSY_LAST g.svcBusy e
      publishCounters (s.setEng e { g with busy := 0, svcBusy := 0, items := 0, waitSum := 0, waitN := 0, freeFrom := none }) e) s

/-! ### Offside workers (R92) -/

/-- b_p in 2⁻¹⁶ ns at the t_D of the cycle with whistle `tw` (R92), rounded down; none before the first measurement. A worker whose clock is UNSET is bounded
as a locked one (assumption log 179). -/
def errorBound (s : State) (r p tw : Nat) : Option Nat :=
  let k := (s.wk r p).clk
  match k.errs with
  | [] => none
  | e :: _ =>
    if k.state = 2 ∨ k.hold then some (e.natAbs + s.nat Ob.WkT.HOLDOVER_PPB r p * (tw - k.ref) * 65536 / 1000000000)
    else some (e.natAbs + 65536)

/-- Worker `p` judged against OFFSIDE_LIMIT and OFFSIDE_STOP_LIMIT (R92). -/
def judgeOffside (s : State) (r p tw : Nat) : State :=
  match errorBound s r p tw with
  | none => s
  | some b =>
    let k := (s.wk r p).clk
    let s := s.set Ob.WkT.ERR_BOUND (min (2 ^ 32 - 1) (b * 1000 / 65536) : Nat) r p
    let was := s.get Ob.WkT.OFFSIDE r p
    let beyond := decide (s.nat Ob.RTime.OFFSIDE_STOP_LIMIT r * 65536 < b)
    let off := decide (s.nat Ob.RTime.OFFSIDE_LIMIT r * 65536 < b)
    let leave := decide (k.state = 1) && !k.hold && decide (2 ≤ k.near)
    let now : Int := if beyond then 2 else if off then 1 else if was ≠ 0 ∧ leave = false then 1 else 0
    let s := if was = 0 ∧ now ≠ 0 then (s.count Ob.RTime.OFFSIDE_COUNT r).warn 92 r p else s
    let s := s.put1 Ob.WkT.OFFSIDE now r p
    let ax := axesAt s r p
    let s := forList ax (fun a s => s.put1 Ob.AxD.OFFSIDE (if now = 0 then 0 else 1) a) s
    -- an axis enabled later reacts as those enabled at the change
    if now ≠ 2 then s else forList ax (fun a s =>
      let st := (s.axis a).mot.state
      if st = .arming ∨ st = .enabled ∨ (was ≠ 2 ∧ st ≠ .disabled) then raiseFault s a 8 2 else s) s

end Sys2Proof.Machine
end

