-- ==== Sys2Proof/Machine/Digest.lean ====
section
/-! DEFINITION. What the machine cycle sends to the partner of a redundant pair (R373, R374): EMIT, DIGEST, INPUTS and REGIONS records. -/

namespace Sys2Proof.Machine

/-- The sample data of position `p` landed for the cycle in progress and stand (R36). -/
def regionStands (s : State) (r p : Nat) : Bool := let q := s.ring r; decide ((s.wk r p).landedCycle = some q.cycle) && !q.lost

/-- The hash over the ring's sample regions in position order, 4 bytes 0xFF for a region not landed (Table 15-3, INPUT_HASH). -/
def inputHash (s : State) (r : Nat) : Nat :=
  crc32c ((List.range (s.nWorkers r)).flatMap fun i => if regionStands s r (i + 1) then (s.wk r (i + 1)).data else List.replicate 4 0xFF)

/-- The hash over the down headers and command data of the next frame in slot order (Table 15-3, CMD_HASH). -/
def cmdHash (s : State) (r : Nat) : Nat :=
  let sc := s.sched r
  crc32c ((List.range (s.nWorkers r)).flatMap fun i =>
    let d := workerSlot s r sc (i + 1) ((s.ring r).cycle + 1) true
    leBytes 4 (downHeader d) ++ d.cmd)

/-- UNDONE of Table 15-3: positions with an undone axis. -/
def undonePositions (s : State) (r : Nat) : Nat :=
  ((List.range 64).map fun i => bitAt ((axesAt s r (i + 1)).any fun a => s.flag Ob.AxD.UNDONE a) i).sum

/-- Bytes 0 to 27 of the digest of ring `r` for the cycle in progress (Table 15-3). The byte layout of an axis's live state is no part of the
spec, so STATE_SUM is a free value. -/
def digestBytes (s : State) (r : Nat) : List Byte × State :=
  let q := s.ring r
  let (sum, s) := s.freeDraw 32
  (leBytes 1 r ++ leBytes 1 (bitAt (isSplit s r) 0) ++ leBytes 1 (s.nat Ob.Sb.TAG_IN_FORCE) ++ leBytes 1 0 ++ leBytes 4 q.cycle ++
   leBytes 4 (inputHash s r) ++ leBytes 4 (cmdHash s r) ++ leBytes 4 sum ++ leBytes 8 (undonePositions s r), s)

/-- A unit's own part of R376: BENCH_ALIGN_STATE, and the referee in SERVICE with the barrier link GOOD. -/
def ownReadiness (s : State) : Nat × Bool :=
  (s.nat Ob.Sby.BENCH_ALIGN_STATE, decide (s.get Ob.Isl.RF_STATE = 1) && decide (s.get Ob.Die.LINK_STATE = 1))

/-- ELIGIBLE of the standby (R376) for a decision at the present instant; the active unit shows a partner in step at the last digest compared. -/
def eligibleNow (s : State) : Bool :=
  let fresh := match s.pair.agreedAt with
    | some (r, n) => decide (((s.ring r).cycle + 2 ^ 32 - n) % 2 ^ 32 ≤ 2)
    | none => false
  let x := if isStandby s then ownReadiness s else s.pair.peer
  fresh && decide (s.get Ob.Pair.PAIR_STATE = 2) && (isStandby s || (decide (s.get Ob.Pair.ROLE = 1) && s.benchUp)) && x.2 && decide (x.1 = 2 ∨ x.1 = 3)

/-- ELIGIBLE brought up to date; a standby tells the active unit what has changed of its own readiness (assumption log 185). -/
def publishEligible (s : State) : State :=
  let x := ownReadiness s
  let s := if isStandby s = true ∧ s.benchUp = true ∧ s.pair.told ≠ x then
      benchSend (s.modPair fun p => { p with told := x }) 4 [7, (x.1 : Int), bitAt x.2 0]
    else s
  s.put1 Ob.Pair.ELIGIBLE (bitAt (eligibleNow s) 0)

/-- The standby is in step once every axis is installed and every enabled ring has had RESYNC_CONFIRM agreeing digests in a row (R371, R375). -/
def judgeInStep (s : State) : State :=
  let st := s.get Ob.Pair.PAIR_STATE
  let rings := (List.range 4).filter fun r => s.inPlay r
  if (st = 3 ∨ (st = 1 ∧ s.pair.step = 6)) ∧ (isStandby s = false ∨ s.pair.resync = []) ∧ rings.isEmpty = false ∧
      (rings.all fun r => decide (s.nat Ob.PairC.RESYNC_CONFIRM ≤ s.pair.agree.getD r 0)) = true then
    judgeReady ((s.set Ob.Pair.PAIR_STATE 2).modPair fun p => { p with step := 0, resync := [] })
  else s

/-- A divergence of ring `r` in cycle `n` (R375): classed, counted, and the standby resynchronised; a second COMPUTE within an hour of operating time
makes it SUSPECT. -/
def diverge (s : State) (r n : Nat) (a b : List Byte) : State :=
  let s := (s.set Ob.Pair.LAST_DIVERGE_CYCLE n).set Ob.Pair.LAST_DIVERGE_RING r
  let s := s.modPair fun p => { p with agree := p.agree.set r 0 }
  let st := s.get Ob.Pair.PAIR_STATE
  let resync (s : State) : State :=
    if st = 2 ∨ st = 3 then
      (s.set Ob.Pair.PAIR_STATE 3).modPair fun p =>
        { p with agree := [0, 0, 0, 0], resync := p.resync ++ (s.axesOn r).filter fun x => !p.resync.contains x }
    else s
  if slice a 8 4 ≠ slice b 8 4 then resync (s.count Ob.Pair.DIVERGE_INPUT)
  else if slice a 20 8 ≠ slice b 20 8 then resync (s.count Ob.Pair.DIVERGE_TIMING)
  else
    let now := opTime s
    let recent := s.pair.diverged.filter fun t => decide (now < t + 3600000000000)
    let s := (s.count Ob.Pair.DIVERGE_COMPUTE).modPair fun p => { p with diverged := now :: recent }
    if recent.isEmpty then resync s else if st = 5 then s else (s.set Ob.Pair.PAIR_STATE 5).warn 375 r n

/-- The digests of ring `r` and cycle `n` compared once both are there (R374): they agree where bytes 0 to 27 are equal. -/
def compareDigest (s : State) (r n : Nat) : State :=
  let get (l : List (Nat × Nat × List Byte)) : Option (List Byte) := (l.find? fun e => decide (e.1 = r ∧ e.2.1 = n)).map fun e => e.2.2
  match get s.pair.mine, get s.pair.theirs with
  | some a, some b =>
    let s := s.modPair fun p => { p with theirs := p.theirs.filter fun e => !decide (e.1 = r ∧ e.2.1 = n) }
    publishEligible (if slice a 0 28 = slice b 0 28 then
      -- a standby counts from when every axis is installed (R375)
      let s := if isStandby s = true ∧ s.pair.resync ≠ [] then s else s.modPair fun p => { p with agree := p.agree.set r (p.agree.getD r 0 + 1) }
      let s := judgeInStep s
      if s.get Ob.Pair.PAIR_STATE = 2 then s.modPair fun p => { p with agreedAt := some (r, n) } else s
    else diverge s r n a b)
  | _, _ => s

/-- The longest cycle of the rings in PLAY. -/
def slowestNs (s : State) : Nat := (List.range 4).foldl (fun m r => if s.inPlay r then max m (s.tcyc r) else m) 0

/-- A drill judged two cycles after the swap (R385): DONE where every ring's frames return valid. -/
def judgeDrill (s : State) : State :=
  match s.pair.drill with
  | none => s
  | some (d, was) =>
    let ok (r : Nat) : Bool := !s.inPlay r ||
      (if was then decide (d ≤ (s.ring r).seenAt.getD 0) else (s.ring r).lastOk && decide ((s.ring r).missRun = 0))
    if s.get Ob.PairX.DRILL_STATE ≠ 1 ∨ s.get Ob.Pair.ROLE ≠ (if was then 2 else 1) ∨ s.now < d + 2 * slowestNs s then s
    else if (List.range 4).all ok then
      ((s.set Ob.PairX.DRILL_STATE 2).count Ob.PairX.DRILL_COUNT).set Ob.PairX.LAST_DRILL (max 0 (todAt s s.now))
        |>.modPair fun p => { p with drill := none }
    else s

/-- STATE records of an active unit: the live state of up to 4 axes per cycle of a diverged ring, as written back in cycle `n` (R375). -/
def sendStates (s : State) (n : Nat) : State :=
  if s.get Ob.Pair.ROLE ≠ 1 ∨ s.pair.resync = [] then s else
    let l := s.pair.resync.take 4
    forList l (fun a s => benchSend s 7 [(a : Int), (n : Int)]) (s.modPair fun p => { p with resync := p.resync.drop 4 ++ l })

/-- The digest of ring `r` formed at t_D, kept for the comparison and sent to the partner (R374). -/
def formDigest (s : State) (r : Nat) : State :=
  if s.flag Ob.PairC.PAIR_ENABLE = false then s
  else if s.benchUp = false then publishEligible s
  else
    let n := (s.ring r).cycle
    let (b, s) := digestBytes s r
    let s := s.modPair fun p => { p with mine := (r, n, b) :: (p.mine.filter fun e => decide (e.1 ≠ r)) ++ (p.mine.filter fun e => decide (e.1 = r)).take 1 }
    let s := benchSend s 3 ((b ++ leBytes 4 (crc32c b)).map fun x => (x.toNat : Int))
    sendStates (publishEligible (compareDigest s r n)) n

/-- The path commands of the local brakes: A in bits 7:0, B in bits 15:8 (R379). -/
def brakeWord (s : State) : Nat :=
  (s.safe.sbc.map fun e =>
    if s.get Ob.AxS.BRAKE e.1 = 1 then let c := s.nat Ob.AxS.BRAKE_CHANNEL e.1; bitAt e.2.pathA c + bitAt e.2.pathB (c + 8) else 0).sum

/-- The INPUTS record of a whistle of LOCAL_RING (R372, R379, Table 15-2): field inputs with their validity, the brake commands, counts and speeds of the
master encoders. -/
def sendInputs (s : State) : State :=
  if s.get Ob.Pair.ROLE ≠ 1 then s else
    benchSend s 5 ([s.get Ob.Die.INPUTS, s.get Ob.Die.INPUT_VALID, (brakeWord s : Int)] ++ (List.range 4).map (fun k => ((s.fbu (8 + k)).quad.cnt : Int)) ++
      (List.range 4).map fun k => s.get Ob.Fb.SPEED (fbIx (8 + k)))

end Sys2Proof.Machine
end

