-- ==== Sys2Proof/Machine/TimeBase.lean ====
section
/-! DEFINITION. Network time (R96 to R98), time of day (R80, R81) and the alignment of a standby (R94, R95). -/

namespace Sys2Proof.Machine

/-- The network-time state changed. -/
def State.modPtp (s : State) (f : PtpRt → PtpRt) : State := { s with time := { s.time with ptp := f s.time.ptp } }

/-- A message of this clock's domain at an enabled port H1 (0) or H2 (1) (R96). -/
def ptpMine (s : State) (port domain : Nat) : Bool :=
  decide (port < 2) && bit (s.nat Ob.Ptp.PORT_ENABLE) port && decide (s.get Ob.Ptp.DOMAIN = domain)

/-- Receive latency of a port in ns (Table 04-6). -/
def rxLat (s : State) (port : Nat) : Int := (s.get (if port = 0 then Ob.Ptp.H1_RX_LAT else Ob.Ptp.H2_RX_LAT)) / 1000
/-- Transmit latency of a port in ns. -/
def txLat (s : State) (port : Nat) : Int := (s.get (if port = 0 then Ob.Ptp.H1_TX_LAT else Ob.Ptp.H2_TX_LAT)) / 1000

/-- A ring of the unit is in LINK to PLAY (R98). -/
def ringsUp (s : State) : Bool := (List.range 4).any fun r => decide (1 ≤ s.get Ob.Ring.STATE r ∧ s.get Ob.Ring.STATE r ≤ 5)

/-- SET_TOD (R81): accepted in FREE only. -/
def setTod (s : State) (tod : Int) : Act :=
  if s.get Ob.Clk.SYNC_STATE ≠ 0 then (s, stState)
  else ({ s with time := { s.time with todOff := (tod - s.now) * 65536 } }, stOk)

/-- RELOCK (R98): back to FREE with STEPPED cleared; refused while a ring is in LINK to PLAY. -/
def relock (s : State) : Act :=
  if ringsUp s then (s, stState)
  else (((s.set Ob.Clk.SYNC_STATE 0).set Ob.Clk.STEPPED 0).modPtp fun p =>
    { p with first := [], offsets := [], lockRun := 0, boundSince := none }, stOk)

/-- SET_TOD written (R81). -/
def execSetTod (tod : Int) (t : Nat) (s : State) : Host.Outcome State Fault Refusal := whileOn s t <| answer (kept Ob.Clk.SET_TOD tod (setTod (s.at t) tod))

/-- RELOCK written (R98). -/
def execRelock (t : Nat) (s : State) : Host.Outcome State Fault Refusal := whileOn s t <| answer (kept Ob.Clk.RELOCK 1 (relock (s.at t)))

/-! ### Discipline (R98) -/

/-- Bound of RATE_ADJ in an active or single unit, 50 ppm × 2⁴⁰ (R98). -/
def rateBound : Int := 54975581
/-- Bound of RATE_ADJ in a standby, 150 ppm × 2⁴⁰ (R94). -/
def rateBoundStandby : Int := 164926744
/-- 1 ppm in units of 2⁻⁴⁰, rounded down. -/
def ratePpm : Int := 1099511

/-- A value between two bounds that nothing else fixes (assumption log 2). -/
def State.freeIn (s : State) (lo hi : Int) : Int × State :=
  let (n, s) := s.freeDraw 64
  (if hi < lo then lo else lo + (n : Int) % (hi - lo + 1), s)

/-- RATE_ADJ after a new offset: a free value within the bound and within 1 ppm of every value of the last second (R98). -/
def adjustRate (s : State) : State :=
  let cur := s.get Ob.Clk.RATE_ADJ
  let hist := s.time.ptp.rates.filter fun e => s.now < e.1 + 1000000000
  let vals := cur :: hist.map (·.2)
  let lo := max (-rateBound) (vals.foldl max (-(2 ^ 62)) - ratePpm)
  let hi := min rateBound (vals.foldl min (2 ^ 62) + ratePpm)
  let (v, s) := s.freeIn lo hi
  let v := if hi < lo then cur else v
  (s.set Ob.Clk.RATE_ADJ v).modPtp fun p =>
    { p with rates := (s.now, cur) :: hist, boundSince := if |v| < rateBound then none else some (p.boundSince.getD s.now) }

/-- MASTER_OFFSET after a new offset: a filter of the last sixteen that the spec does not give, so a free value between their bounds. -/
def filterOffset (s : State) (off : Int) : State :=
  let l := (off :: s.time.ptp.offsets).take 16
  let (v, s) := s.freeIn (l.foldl min off) (l.foldl max off)
  (s.modPtp fun p => { p with offsets := l }).set Ob.Clk.MASTER_OFFSET (sat 64 v)

/-- A valid Sync and Delay exchange with offset `off` in ns (R98, Table 04-4). STEP_SIZE is the change of the time of day, minus the mean offset
(assumption log 178). -/
def exchange (s : State) (off : Int) : State :=
  match s.get Ob.Clk.SYNC_STATE with
  | 0 =>
    let l := s.time.ptp.first ++ [off]
    if l.length < 4 then s.modPtp fun p => { p with first := l }
    else
      let mean := roundDiv l.sum 4
      let s := { s with time := { s.time with todOff := s.time.todOff - mean * 65536 } }
      let s := ((s.set Ob.Clk.STEPPED 1).set Ob.Clk.STEP_SIZE (sat 64 (-mean))).set Ob.Clk.SYNC_STATE 1
      s.modPtp fun p => { p with first := [], offsets := [], lockRun := 0, msDiff := none }
  | 3 => adjustRate (filterOffset (s.set Ob.Clk.SYNC_STATE 1) off)
  | 4 => adjustRate (filterOffset (s.set Ob.Clk.SYNC_STATE 1) off)
  | _ => adjustRate (filterOffset s off)

/-- The end of a Sync interval with a valid Sync numbered `seqNo` (Table 04-4): 16 in a row within 1 µs lock; a Sync that was missed breaks the row. -/
def syncInterval (s : State) (seqNo : Nat) : State :=
  let row := match s.time.ptp.lastSeq with | some q => decide ((q + 1) % 65536 = seqNo) | none => false
  let s := s.modPtp fun p => { p with lastSeq := some seqNo, lockRun := if row then p.lockRun else 0 }
  if s.get Ob.Clk.SYNC_STATE ≠ 1 ∨ s.time.ptp.offsets.isEmpty = true then s
  else
    let run := if |s.get Ob.Clk.MASTER_OFFSET| ≤ 1000 then s.time.ptp.lockRun + 1 else 0
    let s := s.modPtp fun p => { p with lockRun := run }
    if 16 ≤ run then s.set Ob.Clk.SYNC_STATE 2 else s

/-- A complete Sync: t1 of the grandmaster and t2 of this clock, both time of day in ns (R96). A Delay_Req follows at its interval. -/
def syncPair (s : State) (port seqNo : Nat) (t1 t2 : Int) : State :=
  let s := syncInterval (s.modPtp fun p => { p with msDiff := some (t2 - t1), lastSync := s.now, sync := none }) seqNo
  let p := s.time.ptp
  let step := 1000000000 * 2 ^ (s.get Ob.Ptp.LOG_DELAY_REQ_INTERVAL + 7).toNat / 128
  if p.delayReq.isSome ∧ s.now < p.delayAt + step then s
  else
    let t3 := todAt s s.now + txLat s port
    (s.modPtp fun p => { p with delayReq := some (p.seqNo, t3), delayAt := s.now, seqNo := (p.seqNo + 1) % 65536 }).emit
      (.packet 1 1 [port, p.seqNo])

/-- A message of the selected grandmaster, by its port and source port identity (R96). -/
def ptpParent (s : State) (port domain src : Nat) : Bool :=
  ptpMine s port domain && s.time.ptp.gm.isSome && !s.time.ptp.master && decide (s.time.ptp.parent = (port, src))

/-- SYNC_MESSAGE: a Sync of clock `src` stamped `t` at a port; `t1` its origin time with correction, of a one-step Sync (R96, R98). -/
def execSyncMessage (port domain src seqNo : Nat) (twoStep : Bool) (t1 : Int) (t : Nat) (s : State) : Host.Outcome State Fault Refusal := whileOn s t <|
  let s := s.at t
  if ptpParent s port domain src = false then .next s else
    let t2 := todAt s t - rxLat s port
    .next (if twoStep then s.modPtp fun p => { p with sync := some (seqNo, t2) } else syncPair s port seqNo t1 t2)

/-- FOLLOW_UP_MESSAGE: the origin time with corrections of a two-step Sync (R96). -/
def execFollowUpMessage (port domain src seqNo : Nat) (t1 : Int) (t : Nat) (s : State) : Host.Outcome State Fault Refusal := whileOn s t <|
  let s := s.at t
  match s.time.ptp.sync with
  | some (q, t2) => .next (if ptpParent s port domain src = true ∧ q = seqNo then syncPair s port seqNo t1 t2 else s)
  | none => .next s

/-- DELAY_REQ_MESSAGE: a Delay_Req stamped `t`, answered by the master clock (R96). -/
def execDelayReqMessage (port domain seqNo src t : Nat) (s : State) : Host.Outcome State Fault Refusal := whileOn s t <|
  let s := s.at t
  .next (if ptpMine s port domain && s.time.ptp.master then s.emit (.packet 1 9 [port, src, seqNo, todAt s t - rxLat s port]) else s)

/-- DELAY_RESP_MESSAGE: t4 of this clock's Delay_Req completes an exchange (R96, R98). -/
def execDelayRespMessage (port domain src seqNo : Nat) (t4 : Int) (t : Nat) (s : State) : Host.Outcome State Fault Refusal := whileOn s t <|
  let s := s.at t
  let p := s.time.ptp
  match p.delayReq, p.msDiff with
  | some (q, t3), some d =>
    .next (if ptpParent s port domain src = true ∧ q = seqNo then
      exchange (s.modPtp fun p => { p with delayReq := none }) (roundDiv (d - (t4 - t3)) 2) else s)
  | _, _ => .next s

/-- A grandmaster's data are better than others by the standard algorithm: priority 1, quality, priority 2, identity, steps (R96). -/
def ptpBetter (a b : PtpDs) : Bool :=
  if a.priority1 ≠ b.priority1 then decide (a.priority1 < b.priority1)
  else if a.quality ≠ b.quality then decide (a.quality < b.quality)
  else if a.priority2 ≠ b.priority2 then decide (a.priority2 < b.priority2)
  else if a.identity ≠ b.identity then decide (a.identity < b.identity)
  else decide (a.steps < b.steps)

/-- The data set of this clock: its configured priorities, the default quality of an ordinary clock, its serial as identity. -/
def ptpOwn (s : State) : PtpDs := ⟨s.nat Ob.Ptp.PRIORITY1, 248 * 2 ^ 24 + 254 * 2 ^ 16 + 65535, s.nat Ob.Ptp.PRIORITY2, unitSerial, 0⟩

/-- The selected grandmaster has been silent for three of its announce intervals, or none has been heard (R96). -/
def gmAbsent (s : State) : Bool := let p := s.time.ptp; p.gm.isNone || decide (p.announceAt + 3 * p.interval < s.now)

/-- ANNOUNCE_MESSAGE: the data set of clock `src`, currentUtcOffset and its announce interval in ns (R96, R80): the best master clock algorithm chooses between
it, the grandmaster so far and, where ROLE allows, this clock. -/
def execAnnounceMessage (port domain src : Nat) (ds : List Nat) (utc : Int) (interval t : Nat) (s : State) :
    Host.Outcome State Fault Refusal := whileOn s t <|
  let s := s.at t
  if ptpMine s port domain = false then .next s else
    let d : PtpDs := ⟨ds.getD 0 255, ds.getD 1 0, ds.getD 2 255, ds.getD 3 0, ds.getD 4 0⟩
    let p := s.time.ptp
    let best := match p.gm with
      | none => true
      | some g => gmAbsent s || decide (p.parent = (port, src)) || ptpBetter d g
    if best = false then .next s
    else if s.get Ob.Ptp.ROLE = 1 ∧ ptpBetter (ptpOwn s) d = true then
      .next (s.modPtp fun p => { p with gm := none, announceAt := s.now, interval := interval, master := true })
    else .next ((s.modPtp fun p => { p with gm := some d, parent := (port, src), announceAt := s.now, interval := interval, master := false }).set Ob.Clk.UTC_OFFSET utc)

/-- TC_FORWARD: an event or follow-up message passes between H1 and H2 (R97): `kind` 0 one-step Sync, 1 two-step Sync, 2 Delay_Req,
3 Follow_Up, 4 Delay_Resp; its correction in 2⁻¹⁶ ns, its ingress and egress stamps. Without both ports enabled nothing is forwarded (assumption log 177). -/
def execTcForward (kind src seqNo : Nat) (corr : Int) (ingress egress : Nat) (s : State) : Host.Outcome State Fault Refusal := whileOn s egress <|
  let s := s.at egress
  let res : Int := ((egress - ingress : Nat) : Int) * 65536
  let send (s : State) (c : Int) : State := s.emit (.packet 1 (16 + kind) [src, seqNo, c])
  if s.nat Ob.Ptp.PORT_ENABLE ≠ 3 then .next s
  else if s.flag Ob.Ptp.TC_ENABLE = false then .next (send s corr)
  else match kind with
    | 1 => .next (send (s.modPtp fun p =>
        { p with tc := (src, seqNo, egress - ingress, ingress) :: p.tc.filter fun e => egress ≤ e.2.2.2 + 1000000000 }) corr)
    | 3 => match s.time.ptp.tc.find? fun e => e.1 = src ∧ e.2.1 = seqNo ∧ ingress ≤ e.2.2.2 + 1000000000 with
        | some e => .next (send s (corr + (e.2.2.1 : Int) * 65536))
        | none => .next (send s corr)
    | _ => .next (send s (corr + res))

/-- Announce interval of this clock as master: 2 s, the profile's default (assumption log 172). -/
def announceNs : Nat := 2000000000

/-- Messages of this clock as master leave both enabled ports. -/
def ptpSend (s : State) (f : Nat → List Msg) : State :=
  forBelow 2 (fun port s => if bit (s.nat Ob.Ptp.PORT_ENABLE) port then { s with out := (f port).reverse ++ s.out } else s) s

/-- SYNC_INTERVAL: a master-capable clock that hears no grandmaster becomes master (R96); as master it sends a two-step Sync, and Announce at its interval. -/
def execSyncInterval (t : Nat) (s : State) : Host.Outcome State Fault Refusal := whileOn s t <|
  let s := s.at t
  let s := if s.get Ob.Ptp.ROLE = 1 ∧ s.time.ptp.master = false ∧ gmAbsent s = true ∧ s.time.ptp.announceAt + 3 * s.time.ptp.interval < s.now then
      s.modPtp fun p => { p with master := true, gm := none }
    else if s.get Ob.Ptp.ROLE = 0 then s.modPtp fun p => { p with master := false } else s
  let p := s.time.ptp
  if p.master = false then .next s else
    let s := s.modPtp fun p => { p with seqNo := (p.seqNo + 1) % 65536 }
    let s := ptpSend s fun port => [.packet 1 0 [port, p.seqNo], .packet 1 8 [port, p.seqNo, todAt s s.now + txLat s port]]
    let due := match p.sentAt with | some x => decide (x + announceNs ≤ s.now) | none => true
    if due = false then .next s else
      let d := ptpOwn s
      .next (ptpSend (s.modPtp fun p => { p with sentAt := some s.now }) fun port =>
        [.packet 1 11 [port, d.priority1, d.quality, d.priority2, d.identity, d.steps, s.get Ob.Clk.UTC_OFFSET]])

/-- SYNC_LOSS: no valid Sync for three announce intervals (R98, Table 04-4). -/
def execSyncLoss (t : Nat) (s : State) : Host.Outcome State Fault Refusal := whileOn s t <|
  let s := s.at t
  let st := s.get Ob.Clk.SYNC_STATE
  let p := s.time.ptp
  .next (if (st = 1 ∨ st = 2) ∧ p.lastSync + 3 * p.interval ≤ s.now then
    (s.set Ob.Clk.SYNC_STATE 3).modPtp fun p => { p with lockRun := 0, boundSince := none } else s)

/-- OUT_OF_RANGE: RATE_ADJ at its bound for 10 s with the offset still growing (R98, Table 04-4). -/
def execOutOfRange (t : Nat) (s : State) : Host.Outcome State Fault Refusal := whileOn s t <|
  let s := s.at t
  let p := s.time.ptp
  let st := s.get Ob.Clk.SYNC_STATE
  let growing := decide (|p.offsets.getLast?.getD 0| < |p.offsets.head?.getD 0|)
  match p.boundSince with
  | some b => .next (if (st = 1 ∨ st = 2) ∧ growing = true ∧ b + 10000000000 ≤ s.now then
      (s.set Ob.Clk.SYNC_STATE 4).warn 98 0 0 else s)
  | none => .next s

/-! ### Standby alignment -/

/-- DEGRADED where BENCH_OFFSET or the crosschecks leave their bounds, ALIGNED where pairing brings the offset in (R94, R95). -/
def judgeAlign (s : State) : State :=
  let st := s.get Ob.Sby.BENCH_ALIGN_STATE
  let bad := decide (2000 < |s.get Ob.Sby.BENCH_OFFSET|) || s.time.cross.any fun n => decide (16 ≤ n)
  if st = 2 ∧ bad = true then s.set Ob.Sby.BENCH_ALIGN_STATE 3
  else if st = 1 ∧ s.time.stepTaken = true ∧ bad = false then s.set Ob.Sby.BENCH_ALIGN_STATE 2
  else s

/-- The pairing step of a standby (R79, R81, R94): machine time and TOD_OFFSET set once to the active unit's, `off` ns ahead
of it before the step. -/
def pairStep (s : State) (off : Int) (tod : Int) : State :=
  if s.time.stepTaken then s
  else { s with now := ((s.now : Int) - off).toNat, frac := 0, time := { s.time with todOff := tod, stepTaken := true } }

/-- BENCH_TIME: a time word at the standby: the four stamps in ps (sent by the active unit, received; sent, received by the active
unit) and the active unit's TOD_OFFSET in 2⁻¹⁶ ns (R94). -/
def execBenchTime (t1 t2 t3 t4 : Int) (tod : Int) (t : Nat) (s : State) : Host.Outcome State Fault Refusal := whileOn s t <|
  let s := s.at t
  if s.get Ob.Pair.ROLE ≠ 2 ∨ s.get Ob.Sby.BENCH_ALIGN_STATE = 0 then .next s else
    let off := roundDiv ((t2 - t1) - (t4 - t3)) 2 + roundDiv (s.get Ob.Sby.BENCH_ASYM) 2
    if s.time.stepTaken = false then .next (pairStep s (roundDiv off 1000) tod)
    else
      let (v, s) := s.freeIn (-rateBoundStandby) rateBoundStandby
      .next (judgeAlign ((s.set Ob.Clk.RATE_ADJ v).set Ob.Sby.BENCH_OFFSET (sat 32 off)))

/-- A standby's crosscheck on ring `r`: its T_FI less the active unit's expected arrival, in ps (R95). -/
def crosscheck (s : State) (r : Nat) (diff : Int) : State :=
  let n := if 5000 < |diff| then s.time.cross.getD r 0 + 1 else 0
  judgeAlign ({ s with time := { s.time with cross := s.time.cross.set r n } }.set Ob.Sby.CROSSCHECK (sat 32 diff) 0 0 r)

/-- A base tick of 15.625 µs that lies after `t`, up to the present instant, sends the partner a time word (R94): machine time and TOD_OFFSET. -/
def sendTime (s : State) (t : Nat) : State := if s.now / 15625 = t / 15625 then s else benchSend s 1 [(s.now : Int), s.time.todOff]

/-- One tick of the 1 GHz clock of the TBU (R79): 1 ns + RATE_ADJ × 2⁻⁴⁰ ns. The TBU stands still in reset, in STANDBY and without power. -/
def tick (s : State) : State :=
  if s.boot.off = true ∨ s.boot.standby = true ∨ s.boot.held ≠ 0 then s else
    let x := (s.frac : Int) + 2 ^ 40 + s.get Ob.Clk.RATE_ADJ
    sendTime { s with now := s.now + (x / 2 ^ 40).toNat, frac := (x % 2 ^ 40).toNat } s.now

end Sys2Proof.Machine
end

