-- ==== Sys2Proof/Machine/Cycle.lean ====
section
/-! DEFINITION. The machine cycle (R19 to R40, R73 to R77, R121): whistle, emission, landing, returned frames, t_D, snapshots, and losses of
synchronisation. -/

namespace Sys2Proof.Machine

/-! ### Changes of schedule at c* (R43, R45, R66) -/

/-- A confirmed huddle governs ring `r` from c* on (Table 02-9). -/
def huddleAct (s : State) (r : Nat) : State :=
  let h := s.hud
  if bit h.mask r && decide (h.decided = 1 ∧ h.cstar ≤ s.now) && !bit h.switched r && s.inPlay r then
    (s.set Ob.Cyc.ACTIVE_SCHEDULE (h.targets.getD r 0) 0 0 r).modHud fun h => { h with switched := setBit h.switched r true }
  else s

/-- The ring has published the scoreboard of a cycle whose whistle fell at or after c*: its first of the new schedule (Table 02-9). -/
def huddlePublished (s : State) (r : Nat) : State :=
  let h := s.hud
  if h.active && decide (h.decided = 1 ∧ h.cstar ≤ (s.ring r).tw) && bit h.switched r then
    huddleSettle (s.modHud fun h => { h with published := setBit h.published r true })
  else s

/-- Positions that attended and did not acknowledge; all of them where no announcing frame landed (R459). -/
def missingAck (n : Nat) (landed : Bool) (attend ack : Nat) : Nat :=
  if landed then ((List.range 64).map fun i => bitAt (bit attend i && !bit ack i) i).sum else 2 ^ n - 1

/-- The decision at t_J (R459): confirmed where every ring passes, otherwise cancelled with ACK_MISSING. -/
def huddleDecide (s : State) : State :=
  let h := s.hud
  if h.active = false ∨ h.decided ≠ 0 ∨ s.now < h.tJ ∨ isStandby s = true then s else
    let miss (r : Nat) : Nat := missingAck (s.nWorkers r) (bit h.landed r) (h.attend.getD r 0) (h.ack.getD r 0)
    let s := forList (hudRings s) (fun r s => s.set Ob.Hud.MISSING_ACK (miss r) 0 0 r) s
    if (hudRings s).all fun r => decide (miss r = 0) && bit h.landed r then (s.modHud fun h => { h with decided := 1 }).set Ob.Hud.STATE 2
    else huddleCancel s 1

/-- A confirmed kickoff huddle ends in PLAY at c* (Table 03-15). -/
def enterPlay (s : State) (r : Nat) : State :=
  let q := s.ring r
  if s.get Ob.Ring.STATE r = 4 ∧ q.kDecided = 1 ∧ q.kCstar ≤ s.now then
    let s := ((s.set Ob.Ring.STATE 5 r).set Ob.Cyc.ACTIVE_SCHEDULE (s.get Ob.Cyc.START_SCHEDULE 0 0 r) 0 0 r).set Ob.Ring.KICKOFF_TIME (roundDiv ((q.kCstar - q.tK : Nat) : Int) 1000) r
    let s := (s.set Ob.Ring.FAIL_REASON 0 r).modRing r fun q => { q with missRun := 0, lost := false, returned := false, loopSince := none, view := [], hidden := [], overlay := [] }
    let s := forList (s.axesOn r) (fun a s => s.modAxis a fun x => { x with oldVals := [] }) s
    judgeReady (forBelow (s.nWorkers r) (fun i s => s.modWk r (i + 1) fun w => { w with admitted := true }) s)
  else s

/-! ### t_D (R23, R31, R121) -/

/-- A key of an axis on a ring in PLAY whose value a snapshot takes from the ring's last t_D: read-only objects (R121). -/
def viewedKey (s : State) (k : Nat) : Option Nat :=
  if axisKey k = false then none else
    let r := s.get Ob.Map.RING ((k / 256 - 0x4000) / 0x40)
    if 0 ≤ r ∧ r < 4 ∧ s.inPlay r.toNat = true then
      match rowOf k with
      | some o => if o.acc = .ro then some r.toNat else none
      | none => none
    else none

/-- Number of the last cycle of ring `r` whose t_D has come (R20, R121), of a ring that runs no cycles. -/
def derivedCycle (s : State) (r : Nat) : Nat :=
  let d := s.woff r + s.tcyc r - guardNs
  if s.now < d then 0 else cycleNo ((s.now - d) / s.tcyc r * s.tcyc r) (s.tcyc r)

/-- STATE of an engine (Table 11-6). -/
def engineState (s : State) (e : Nat) : Int :=
  match (s.eng e).run with
  | some g => if g.item.prio ≤ 1 then 2 else 3
  | none => if (s.ace e).powered then 1 else 0

/-- The values of the present instant as a snapshot shows them (R121): what a ring's whistle has switched since its last t_D stays hidden (R124); an axis that
its ring's last t_D did not yet show stands as it is. -/
def snapshotValues (s : State) : SMap Val :=
  let v := forBelow 4 (fun r v => v.overlay (s.ring r).hidden) s
  v.od.map fun e => match viewedKey v e.1 with
    | none => e
    | some r => (e.1, SMap.getD (s.ring r).view e.1 e.2)

/-- A snapshot published at t_D of the LOCAL_RING cycle with whistle `tw`; the newest four are retained (R121, R122). -/
def publishSnapshot (s : State) (tw : Nat) : State :=
  let s := publishMcCounters (publishUsers s)
  let s := forBelow 8 (fun e s => s.put1 Ob.Eng.STATE (engineState s e) e) s
  let s := forBelow 4 (fun r s => s.put1 Ob.Sb.SNAP_CYCLE (if s.inPlay r ∨ r = s.localRing then (s.ring r).viewCycle else derivedCycle s r : Nat) 0 0 r) s
  let s := ((s.set Ob.Clk.MACHINE_TIME tw).set Ob.Clk.TOD (max 0 (todAt s tw))).setBytes Ob.Isl.LOG s.safe.log.flatten
  let id := nextSnapshot s
  let s := (s.set Ob.Sb.SNAPSHOT_ID id).set Ob.Sb.SNAPSHOT_TIME tw
  let n : Snapshot := { id := id, time := tw, cycles := (List.range 4).map fun r => s.nat Ob.Sb.SNAP_CYCLE 0 0 r, values := snapshotValues s }
  notifyData { s with snaps := (n :: s.snaps).take 4 } n

/-- Sessions whose last renewal is more than their LEASE ago close (R144); those mirrored to a standby are its partner's. -/
def expireLeases (s : State) : State :=
    forList (openSessions s) (fun k s =>
      if notActive s && !(s.sess k).own then s
      else if s.nat Ob.Sess.LAST_RENEWED k + s.nat Ob.Sess.LEASE k * 1000000 < s.now then closeSession s k 4 else s) s

/-- A claim that an election prefers to another (R147). -/
def claimBefore (s : State) (x y : Nat) : Bool :=
  let p (k : Nat) : Int := s.get Ob.Sess.CLAIM_PRIORITY k
  let t (k : Nat) : Int := s.get Ob.Sess.CLAIM_TIME k
  if p x ≠ p y then decide (p y < p x) else if t x ≠ t y then decide (t x < t y) else decide (x < y)

/-- The election due at a t_D of LOCAL_RING (R147). -/
def electCaptain (s : State) : State :=
  if notActive s ∨ s.get Ob.Poss.CAPTAIN ≠ 0xFF then s
  else match claims s with
    | [] => s
    | k :: l =>
      let te := max s.host.looseAt (s.host.firstClaim.getD s.host.looseAt)
      if s.now < te + s.nat Ob.Poss.ELECTION_HOLD * 1000000 then s
      else possessionTo s (l.foldl (fun b x => if claimBefore s x b then x else b) k) 5

/-- Axes mapped to a ring that is not in PLAY judged at a t_D of LOCAL_RING: no item runs for them (R187, R203). -/
def idleAxes (s : State) : State :=
  forBelow 256 (fun a s =>
    let r := s.get Ob.Map.RING a
    if s.kindOf a ≠ 0 ∧ ((0 ≤ r ∧ r < 4 ∧ s.inPlay r.toNat = true) ∨ 4 ≤ r) then s
    else if s.kindOf a = 0 then tryArm (judgeAsks s a) a
    else
      let s := judgeAsks s a
      checkStopTimeout (checkStandstill (checkArmed (checkArmTimeout (tryArm s a) a) a) a) a) s

/-- What t_D of LOCAL_RING adds (R120, R121, R144, R147): `start` is the cycle's start, `tw` its whistle. -/
def localDeadline (s : State) (start tw : Nat) : State :=
  let s := judgeDrill (publishEligible (electCaptain (expireLeases (idleAxes s))))
  commitOk (publishSnapshot (commitDone s start) tw)

/-- t_D of the cycle in progress on ring `r`: a frame still out is missing (R36), items are voided and cancelled (R31), undone axes settled, the
scoreboard published, commits decided and admitted (R114, R117). -/
def closeCycle (s : State) (r : Nat) : State :=
  let q := s.ring r
  if q.open_ = false then s else
    let s := missFrame s r
    let ax := cycleAxes s r
    let s := dispatcherDeadline s r ax
    let s := forList ax (fun a s => if (s.axis a).waiting.isSome then settleUndone s a q.cycle q.tw q.tc else settleDone s a) s
    let s := publishEngines s r
    let s := if s.inPlay r then forBelow (s.nWorkers r) (fun i s => judgeOffside s r (i + 1) q.tw) s else s
    let s := traceSample s r q.tw q.cycle
    let view := s.od.filter fun e => decide (viewedKey s e.1 = some r)
    let s := s.modRing r fun q => { q with view := view, viewCycle := q.cycle, hidden := [], settled := some q.tw, open_ := false }
    let s := if s.inPlay r then huddlePublished (formDigest s r) r else s
    let s := commitAdmit (commitDecide (huddleDecide s))
    if r = s.localRing then localDeadline s (q.tw - Nat.min q.tw (s.woffSched r q.sc)) q.tw else s

/-- COMPUTE_DEADLINE: t_D of the cycle in progress on ring `r` (R31). -/
def execComputeDeadline (r t : Nat) (s : State) : Host.Outcome State Fault Refusal := whileOn s t <|
  let s := s.at t
  let q := s.ring r
  .next (if q.open_ ∧ q.tw + q.tc - guardNs ≤ s.now then closeCycle s r else s)

/-! ### The whistle (R21, R22, R90) -/

/-- Pending mode entries of an axis that are due (R193, R195). -/
def entryDue (s : State) (a : Nat) : State :=
  match (s.axis a).mot.pend with
  | some (t0, mode) => if t0 ≤ s.now then (enterMode s a mode t0).modMot a fun m => { m with pend := none } else s
  | none => s

/-- The local drive ports, feedback units, field die and masters at a whistle of LOCAL_RING (R22): `sd` gives the bits of sigma-delta channels. -/
def localWhistle (s : State) (n tc : Nat) (sd : List (Nat × List Bool)) : State :=
  let s := whistlePorts (sampleUnits s s.now) n tc sd
  let s := publishMasters (whistleField s) s.now
  let s := s.modObs fun o => { o with cap := { o.cap with whistles := o.cap.whistles + 1 } }
  sendInputs s

/-- The whistle at the present instant of the cycle of ring `r` that starts at `c` (R21): commits apply, then everything samples. -/
def takeWhistle (s : State) (r c tc : Nat) (sd : List (Nat × List Bool)) : State :=
  let n := cycleNo c tc
  let s := (closeCycle s r).modRing r fun q =>
    { q with tw := s.now, cycle := n, tc := tc, sc := s.sched r, open_ := true, returned := false, lost := false }
  let s := commitWhistle (s.set Ob.Cyc.CYCLE_NUMBER n 0 0 r) r c s.now
  let ax := cycleAxes s r
  let s := forList ax (fun a s => (s.put1 Ob.AxD.LAST_ENGINE 0xFF a).modAxis a fun x => { x with waiting := some n, undoneWhy := none }) s
  let s := forList ax (fun a s => entryDue s a) s
  let s := forBelow 8 (fun e s => if engineRing s e = r then s.setEng e { s.eng e with freeFrom := none } else s) s
  let s := if r = s.localRing then localWhistle s n tc sd else s
  sbcWhistle (if s.axisRing (s.nat Ob.Inj.INJ_AXIS) = r then judgeInj s s.now else s) r

/-- WHISTLE: the whistle of ring `r` at `t`, for a ring in PLAY or LOCAL_RING (R21, R22); `sd` lists channels (3·port + channel) of the
sigma-delta inputs with their bits, newest first. -/
def execWhistle (r : Nat) (sd : List (Nat × List Bool)) (t : Nat) (s : State) : Host.Outcome State Fault Refusal := whileOn s t <|
  let s := s.at t
  let s := enterPlay (huddleAct s r) r
  let q := s.ring r
  .next (if (s.inPlay r = false ∧ r ≠ s.localRing) ∨ 4 ≤ r ∨ (q.open_ = true ∧ q.tw = s.now) then s else
    match cycleOfWhistle (s.tcyc r) (s.woff r) s.now with
    | some c => takeWhistle s r c (s.tcyc r) sd
    | none => s)

/-! ### Emission (R23, R37) -/

/-- FRAME_EMISSION: t_E of the cycle in progress on a ring in PLAY (R23). A standby sends on a split ring only (R18, R381). -/
def execFrameEmission (r t : Nat) (s : State) : Host.Outcome State Fault Refusal := whileOn s t <|
  let s := s.at t
  let q := s.ring r
  .next (if s.inPlay r = false ∨ q.txOn = false ∨ q.open_ = false ∨ s.now < q.tw + 500 ∨ q.tw + 500 < q.txFrom ∨ (q.tx.isSome ∧ q.tw ≤ q.txAt) ∨
            (isStandby s = true ∧ isSplit s r = false) then s
    else
      let s := emitPlay s r
      if s.get Ob.Pair.ROLE = 1 then benchSend s 2 [(r : Int), (q.cycle : Int), (sahxLength s r (s.sched r) : Int)] else s)

/-! ### Landing (R73, R283) -/

/-- The axes of a position in channel order. -/
def channelAxes (s : State) (r p : Nat) : List Nat := (List.range 8).filterMap fun c => axisAt s r p c

/-- The axes of a position have no samples in this cycle (R73). -/
def regionUnusable (s : State) (r p : Nat) : State :=
  forList (channelAxes s r p) (fun a s => s.modAxis a fun x => { x with undoneWhy := if x.waiting.isSome then some (x.undoneWhy.getD 2) else x.undoneWhy }) s

/-- The sample data of position `p` land in the receive buffer (R58, R283): the items of its axes are posted in channel order. -/
def landSamples (s : State) (r p sc : Nat) (data : List Byte) : State :=
  let q := s.ring r
  let s := rxStore s r (s.slotStart r sc p + 16 + (s.workerSize r sc p).1) data
  let s := s.modWk r p fun w =>
    { w with data := data, landedCycle := some q.cycle, landedAt := s.now, landedSched := sc, before := (w.data, w.landedCycle, w.landedSched) }
  forList (channelAxes s r p) (fun a s => postAxis s a r) s

/-- Regions of the cycle in progress may land on ring `r`. -/
def landingOpen (s : State) (r p : Nat) : Bool :=
  let q := s.ring r
  s.inPlay r && q.open_ && !q.lost && decide (s.now ≤ q.tw + q.tc - guardNs) && decide ((s.wk r p).landedCycle ≠ some q.cycle) && decide (1 ≤ p ∧ p ≤ s.nWorkers r)

/-- The slot of position `p` as it passes the port, with the worker's ATTENDANCE bit: landed where attended with SAMPLE_VALID (R73). On a split
ring the region is forwarded to the partner, and the other half's regions come from there (R382). -/
def landRegion (s : State) (r p sc : Nat) (att : Bool) (slot : List Byte) : State :=
  if landingOpen s r p = false then s else
    let w := s.workerSize r sc p
    if att && bit (leAt slot (12 + w.1) 4) 24 then
      let data := slice slot (16 + w.1) w.2
      let s := landSamples s r p sc data
      if isSplit s r then benchSend s 8 ([(r : Int), (p : Int), ((s.ring r).cycle : Int)] ++ data.map fun x => (x.toNat : Int)) else s
    else if !ownHalf s r p && !att then s
    else regionUnusable s r p

/-- SAMPLE_REGION_LANDED: the slot of position `p` of the frame in flight on ring `r` has passed the port; `att` is the worker's bit of
ATTENDANCE. -/
def execSampleRegionLanded (r p : Nat) (att : Bool) (slot : List Byte) (t : Nat) (s : State) : Host.Outcome State Fault Refusal := whileOn s t <|
  let s := s.at t
  .next (landRegion s r p (match (s.ring r).tx with | some f => f.sched | none => s.sched r) att slot)

/-! ### Returned frames (R36, R73 to R77, R192) -/

/-- STATUS of a worker that holds its position (Table 03-18): 0 ABSENT, 4 LOOPBACK, 6 OWN_STOP, else PRESENT or SUBSTITUTED. -/
def workerStatus (s : State) (r p up : Nat) (att : Bool) : Int :=
  if att = false then 0
  else if bit up 19 then 6
  else if bit up 20 && !(decide (p = s.nWorkers r) && decide (s.get Ob.Ring.FAR_END r = 0)) then 4
  else if (s.wk r p).sub then 2 else 1

/-- OWN_STOP, FAULT and STATUS of a worker judged for its axes (R192). -/
def workerFaults (s : State) (r p up : Nat) (usable : Bool) : State :=
  forList (axesAt s r p) (fun a s =>
    let x := s.axis a
    let s := if bit up 19 && !x.flags.toldStop then faultAtOnce s a 12 else s
    let st := (s.axis a).mot.state
    let dropped := usable && decide (st = .enabled ∨ st = .stopping) && decide (s.kindOf a ≤ 3) && !bit (chanStatus s a) 1
    if bit up 18 || dropped then faultAtOnce s a 13 else s) s

/-- PARAM_TAG of a worker after a confirmed commit (R63): the old tag is a split, with QSTOP of its axes. -/
def judgeTag (s : State) (r p up : Nat) : State :=
  let q := s.ring r
  match (s.wk r p).expectTag with
  | some (tag, a) =>
    if q.tw < a then s else
      let s := s.modWk r p fun w => { w with expectTag := none }
      if bits up 8 8 = tag then s else (forList (axesAt s r p) (fun a s => react s a 2) s).count Ob.Ring.COMMIT_SPLIT r
  | none => s

/-- A fresh frame check error that a worker reports (R57, R77). -/
def linkErr (s : State) (r p up : Nat) : State := if bit up 21 then (s.count Ob.Wk.LINK_ERR_COUNT r p).warn 77 r p else s

/-- One worker's part of a returned frame that is valid (R73, R77, R192, R63, R348). -/
def workerReturned (s : State) (r p sc : Nat) (b : List Byte) (att : Bool) : State :=
  let up := rxUp s r sc p b
  let s := landRegion s r p sc att (b.drop (s.slotStart r sc p))
  let usable := att && bit up 24
  let own := ownHalf s r p
  let s := if usable || !own then s else s.count Ob.Wk.ABSENT_COUNT r p
  let st := s.get Ob.Wk.STATUS r p
  let s := if (s.wk r p).admitted && decide (st ≠ 3 ∧ st ≠ 5) && (own || att) then s.put1 Ob.Wk.STATUS (workerStatus s r p up att) r p else s
  let q := s.ring r
  let echo := q.echo.getD ((q.cycle + 255) % 256)
  if att = false then (if own then judgeAnswer s r p q.cycle echo none else s)
  else
    let s := s.modWk r p fun w => { w with up := up, safety := rxSafety s r sc p b, clk := { w.clk with hold := bit up 22 } }
    let s := linkErr s r p up
    judgeTag (workerFaults (judgeAnswer s r p q.cycle echo (some (rxSafety s r sc p b))) r p up usable) r p up

/-- LOOPBACK_AT from a returned frame (R74). The WARN is reported once, when LOOPBACK_AT changes to another position (assumption log 175). -/
def judgeLoop (s : State) (r : Nat) (f : RallyFrame) (h : RxHeader) (b : List Byte) : State :=
  let n := s.nWorkers r
  let at_ (i : Nat) : Bool := bit h.attendance i
  let j := match (List.range n).find? fun i => at_ i && bit (rxUp s r f.sched (i + 1) b) 20 && !(List.range n).any (fun k => decide (i < k) && at_ k) with
    | some i => i + 1
    | none => 0
  let j := if bit h.flags 3 = false ∨ (j = n ∧ s.get Ob.Ring.FAR_END r = 0) then 0 else j
  let old := s.nat Ob.Ring.LOOPBACK_AT r
  let s := if j = old then s else s.set Ob.Ring.LOOPBACK_AT j r
  let s := if j ≠ old ∧ j ≠ 0 then s.warn 74 r j else s
  if j = 0 then s.modRing r fun q => { q with loopSince := none }
  else if old = 0 then s.modRing r fun q => { q with loopSince := some s.now } else s

/-- Acknowledgements of a returned frame that carried ANNOUNCE (R459). -/
def huddleLanded (s : State) (r : Nat) (f : RallyFrame) (h : RxHeader) (b : List Byte) : State :=
  let g := s.hud
  if bits f.flags 4 2 ≠ 1 ∨ g.active = false ∨ g.decided ≠ 0 ∨ bit g.mask r = false ∨ g.tJ < s.now then s else
    let ack := ((List.range (s.nWorkers r)).map fun i => bitAt (bit h.attendance i && bit (rxUp s r f.sched (i + 1) b) 23) i).sum
    s.modHud fun g => { g with landed := setBit g.landed r true, attend := g.attend.set r (g.attend.getD r 0 ||| h.attendance),
                               ack := g.ack.set r (g.ack.getD r 0 ||| ack) }

/-- The next step of a rejoin: configuring once there is a position to configure, IDLE when none is left (R76). -/
def rejoinNext (s : State) (r : Nat) : State :=
  if (rejoining s r).isEmpty then s.set Ob.Ring.REJOIN_STATE 0 r else s.set Ob.Ring.REJOIN_STATE 3 r

/-- A rejoined position serves its slot from the next frame; its axes come back DISABLED (R76). -/
def rejoinDone (s : State) (r p : Nat) : State :=
  let s := (s.modWk r p fun w => { w with admitted := true, qstop := false, up := 0 }).set Ob.Wk.STATUS (if (s.wk r p).sub then 2 else 1) r p
  let s := forList (axesAt s r p) (fun a s =>
    let s := (s.set Ob.Ctl.FAULT_SET 0 a).set Ob.Ctl.FAULT_CODE 0 a
    publishState (s.modAxis a fun x =>
      { x with mot := { x.mot.clearMotion with state := .disabled, enableSeen0 := !(bit (s.nat Ob.Ctl.CONTROL a) 0), stopKind := none, stopCause := none, seq := x.mot.seq + 1 },
               flags := { x.flags with power := false, toldStop := false, overran := false } }) a) s
  rejoinNext s r

/-- The answer to the service slot of the frame on a ring in PLAY (R59, R62, R76, R89): `v` the slot as sent, `a` as returned. -/
def serviceAnswer (s : State) (r : Nat) (v a : SvcSlot) : State :=
  let q := s.ring r
  match v.typ with
  | 1 =>
    let upd (f : ParamBlock → ParamBlock) : State :=
      s.modCom fun k => { k with blocks := k.blocks.map fun x => if x.ring = r ∧ x.pos = v.dest ∧ x.complete = false then f x else x }
    if s.com.phase ≠ 2 ∨ v.tag ≠ s.com.tag then s
    else if a.status = 1 then upd fun x => { x with sent := if x.sent = v.frag then x.sent + 1 else x.sent, lastFrame := q.cycle }
    else if a.status = 2 then upd fun x => { x with complete := true, lastFrame := q.cycle }
    else s
  | 2 =>
    if s.get Ob.Ring.REJOIN_STATE r ≠ 3 then s else
      let (s, ok) := downloadTake s r v.dest a.status
      if ok = false then rejoinNext (s.set Ob.Wk.STATUS 3 r v.dest) r
      else if (s.wk r v.dest).dlDone then rejoinDone s r v.dest else s
  | 3 =>
    if s.get Ob.Ring.REJOIN_STATE r ≠ 2 ∨ a.dest = 0xFF ∨ a.dest = 0 ∨ s.nWorkers r < a.dest then s
    else
      let (s, ok) := admitWorker s r a.dest 5 a.payload
      if ok = false ∨ a.dest = s.nWorkers r then rejoinNext s r else s
  | 7 =>
    match q.stamp with
    | none => s
    | some (c, e0, loop0) =>
      if leAt v.payload 0 4 ≠ c then s
      else if s.get Ob.Ring.REJOIN_STATE r = 3 ∧ s.get Ob.Wk.STATUS r v.dest = 5 then alignTake s r v.dest c e0 (q.tw - Nat.min q.tw q.tc) loop0 (bit (leAt v.payload 4 1) 0) a.payload
      else if leAt a.payload 5 1 = 1 then measured s r v.dest (q.tw - Nat.min q.tw q.tc) e0 loop0 a.payload
      else s
  | 5 => s.modRing r fun q => readTake q v a
  | 6 => s.modRing r fun q => readTake q v a
  | 8 => if s.get Ob.Ring.REJOIN_STATE r ≠ 1 then s else match a.status with
    | 0 => s
    | 1 => s.set Ob.Ring.REJOIN_STATE 2 r
    | 2 => s.set Ob.Ring.REJOIN_STATE 2 r
    | _ => s.set Ob.Ring.REJOIN_STATE 0 r
  | _ => s

/-- A split ring after a returned frame of the active unit (R381, R384): SPLIT_AT follows LOOPBACK_AT; a frame that comes back whole ends the split, which
the standby is told, or the healing. -/
def splitReturned (s : State) (r : Nat) : State :=
  let st := s.get Ob.PairX.SPLIT_STATE 0 0 r
  let j := s.nat Ob.Ring.LOOPBACK_AT r
  if s.get Ob.Pair.ROLE ≠ 1 ∨ st = 0 then s
  else if j = 0 then
    let s := s.set Ob.PairX.SPLIT_STATE 0 0 0 r
    if st = 1 then benchSend s 4 [4, (r : Int)] else s
  else if st = 1 ∧ s.nat Ob.PairX.SPLIT_AT 0 0 r ≠ j then benchSend (s.set Ob.PairX.SPLIT_AT j 0 0 r) 4 [3, (r : Int), (j : Int)]
  else s

/-- A returned play frame `b` on ring `r` (R36, R73 to R77): `loop` is H − E in 2⁻¹⁶ ns. -/
def frameBack (s : State) (r fcs : Nat) (loop : Int) (b : List Byte) : State :=
  match (s.ring r).tx with
  | none => s
  | some f =>
    let (s, ok) := rxValid (rxStore s r 0 b) r fcs b
    if ok = false then missFrame s r
    else
      let h := rxHeader b
      let s := s.modRing r fun q => { q with returned := true, lastOk := true, missRun := 0, stampNew := some (f.cycle, q.txAt, loop) }
      let s := splitReturned ((judgeLoop s r f h b).set Ob.Ring.ATTENDANCE h.attendance r) r
      let s := forBelow (s.nWorkers r) (fun i s => workerReturned s r (i + 1) f.sched b (bit h.attendance i)) s
      let s := huddleLanded s r f h b
      match f.svc with
      | v :: _ => serviceAnswer s r v (rxService b)
      | [] => s

/-- FRAME_RETURNED: the frame of the cycle in progress is back on ring `r`: `fcs` 0 correct, 1 stomped, 2 a fresh error (R57); `loop` H − E in
2⁻¹⁶ ns; `b` its bytes from Sahx offset 0. After t_D it is never used (R36); without synchronisation it is missing (R75). -/
def execFrameReturned (r fcs : Nat) (loop : Int) (b : List Byte) (t : Nat) (s : State) : Host.Outcome State Fault Refusal := whileOn s t <|
  let s := s.at t
  let q := s.ring r
  .next (if s.inPlay r = false ∨ q.open_ = false ∨ q.returned = true ∨ q.lost = true ∨ q.tw + q.tc - guardNs < s.now ∨ q.txAt < q.tw then s
    else if q.syncLost.isSome then missFrame s r
    else frameBack s r fcs loop b)

/-! ### Synchronisation of the receive port (R75) -/

/-- PORT_SYNC_LOSS at the receive port of ring `r`. -/
def execPortSyncLoss (r t : Nat) (s : State) : Host.Outcome State Fault Refusal := whileOn s t <|
  let s := s.at t
  .next (s.modRing r fun q => { q with syncLost := some (q.syncLost.getD s.now) })

/-- PORT_SYNC_REGAINED within 100 ms. -/
def execPortSyncRegained (r t : Nat) (s : State) : Host.Outcome State Fault Refusal := whileOn s t <|
  let s := s.at t
  .next (match (s.ring r).syncLost with
    | some t0 => if s.now ≤ t0 + 100000000 ∨ s.inPlay r = false then s.modRing r fun q => { q with syncLost := none } else s
    | none => s)

/-- PORT_SYNC_TIMEOUT: 100 ms without synchronisation: FAILED with NO_LINK. A ring cut in segment 1 (j = 0), which a standby serves, stays in PLAY at the active
unit (R381). -/
def execPortSyncTimeout (r t : Nat) (s : State) : Host.Outcome State Fault Refusal := whileOn s t <|
  let s := s.at t
  .next (match (s.ring r).syncLost with
    | some t0 => if s.inPlay r ∧ t0 + 100000000 ≤ s.now ∧ (isSplit s r = false ∨ s.get Ob.PairX.SPLIT_AT 0 0 r ≠ 0 ∨ isStandby s = true) then leavePlay s r 6 1 else s
    | none => s)

/-! ### Counters, PAUSE, the far end -/

/-- CLEAR_COUNTS written (Table 02-10). -/
def clearCountsWrite (s : State) : Act :=
  let s := ((s.set Ob.Cyc.UNDONE_COMPUTE 0).set Ob.Cyc.UNDONE_LATE 0).set Ob.Cyc.UNDONE_FRAME 0
  (forBelow 4 (fun r s => s.set Ob.Cyc.FRAME_MISSING 0 0 0 r) s, stOk)

/-- CLEAR_COUNTS (0x3103.09). -/
def execClearCounts (t : Nat) (s : State) : Host.Outcome State Fault Refusal := whileOn s t <| answer (kept Ob.Cyc.CLEAR_COUNTS 1 (clearCountsWrite (s.at t)))

/-- PAUSE_FRAME: a PAUSE frame received on a ring port is discarded (R47). -/
def execPauseFrame (_r t : Nat) (s : State) : Host.Outcome State Fault Refusal := whileOn s t <| .next (s.at t)

/-- The huddle that a standby reads in the active unit's frame (Table 02-9): its target and H_r in cycles of the schedule in force; announced, confirmed, or
cancelled. -/
def huddleSeen (s : State) (r : Nat) (b : List Byte) : State :=
  let q := s.ring r
  let hr := leAt b 20 4
  let k := bits (leAt b 2 2) 4 2
  if q.tc = 0 then s
  else if k = 0 then (if s.hud.decided = 0 ∧ s.hud.cstar ≤ s.now then s.modHud fun h => { h with active := false } else s)
  else if k = 3 then s.modHud fun h => { h with active := false, decided := 2 }
  else
    let c := (q.tw - s.woff r) + (hr + 2 ^ 32 - q.cycle) % 2 ^ 32 * q.tc
    let s := if s.hud.active then s else s.modHud fun _ => {}
    s.modHud fun h => { h with active := true, mask := setBit h.mask r true, decided := if k = 2 then 1 else 0, cstar := c,
                               targets := (h.targets ++ List.replicate 4 0).take 4 |>.set r (bits (leAt b 1 1) 3 3),
                               hr := (h.hr ++ List.replicate 4 0).take 4 |>.set r hr, switched := setBit h.switched r false }

/-- A standby's view of a frame of the active unit that passes its port (R18): it takes every worker's part as the active unit does, and the frame's
huddle. A frame that reaches it again ends the healing of a split (R384). -/
def passFrame (s : State) (r : Nat) (b : List Byte) : State :=
  let h := rxHeader b
  let s := (rxStore s r 0 b).modRing r fun q => { q with returned := true, lastOk := true, missRun := 0 }
  let s := s.set Ob.Ring.ATTENDANCE h.attendance r
  let s := if s.get Ob.PairX.SPLIT_STATE 0 0 r = 2 then s.set Ob.PairX.SPLIT_STATE 0 0 0 r else s
  forBelow (s.nWorkers r) (fun i s => workerReturned s r (i + 1) (leAt b 1 1 % 8) b (bit h.attendance i)) (huddleSeen s r b)

/-- The answer of this unit, as position N + 1, to a DELAY payload (R85, Table 04-2): its residence T_end up to the turning point, nothing for the loop and the
way back; NO_STAMP where it no longer holds the stamps of REF_CYCLE. It takes no time from a SET (R94). -/
def farDelay (s : State) (r : Nat) (b : List Byte) : List Byte :=
  if bit (leAt b 4 1) 0 then b.take 5 ++ leBytes 1 3 ++ b.drop 6
  else match (s.ring r).turned.find? fun e => decide (e.1 = leAt b 0 4) with
    | none => b.take 5 ++ leBytes 1 2 ++ b.drop 6
    | some (_, tfi) =>
      b.take 5 ++ leBytes 1 1 ++ slice b 6 12 ++ leBytes 2 (lowBits 16 (headAsym r)) ++ leBytes 4 0 ++ leBytes 8 (tfi / 65536) ++ leBytes 2 (tfi % 65536) ++
      leBytes 6 0 ++ leBytes 8 (psUnits (endPs s r)).toNat ++ leBytes 8 0 ++ leBytes 8 0 ++ leBytes 1 (bitAt s.time.stepTaken 0) ++ List.replicate 47 0

/-- Sahx offsets of the service slots of a frame (R50). -/
def svcOffsets (b : List Byte) : List Nat :=
  if bit (leAt b 2 2) 8 then (List.range ((b.length - 32) / 128)).map fun i => 32 + 128 * i else [b.length - 128]

/-- A frame as it leaves the far end: DELAY slots addressed to position N + 1 answered, all else as it came (R85). -/
def turnedFrame (s : State) (r : Nat) (b : List Byte) : List Byte :=
  (svcOffsets b).foldl (fun b o =>
    if leAt b o 1 = 7 ∧ leAt b (o + 1) 1 = s.nWorkers r + 1 then b.take (o + 16) ++ farDelay s r (slice b (o + 16) 112) ++ b.drop (o + 128) else b) b

/-- T_FI of a frame at a standby against E + Σ (d + RES_FWD) over the whole forward path, in ps, by the copied segment table (R95); none before the table has
come, or for a frame of another cycle. E is the emission instant, 0.5 µs after the whistle (R23). -/
def crossDiff (s : State) (r tfi : Nat) (b : List Byte) : Option Int :=
  let n := s.nWorkers r
  let q := s.ring r
  let d := (List.range (n + 1)).filterMap fun i => SMap.get? s.time.segD (r * 128 + i + 1)
  let f := (List.range n).filterMap fun i => SMap.get? s.time.segF (r * 128 + i + 1)
  if isStandby s && s.inPlay r && decide (d.length = n + 1 ∧ f.length = n ∧ leAt b 4 4 = q.cycle) && !bit (leAt b 2 2) 8 then
    some (unitsPs ((tfi : Int) - ((q.tw + 500) * 65536 : Nat) - d.sum - f.sum))
  else none

/-- TURN_ROUND: a rally frame `b` arrives at this unit as the far end of ring `r` (R18, R72, R368) at `t` and `frac` 2⁻¹⁶ ns: its regions are copied, DELAY slots
to position N + 1 answered, and it is turned back after T_end. A frame with a wrong FCS (`fcs` not 0) supplies no regions. -/
def execTurnRound (r fcs frac : Nat) (b : List Byte) (t : Nat) (s : State) : Host.Outcome State Fault Refusal := whileOn s t <|
  let s := s.at t
  let st := s.get Ob.Ring.STATE r
  let tfi := s.now * 65536 + frac % 65536
  .next (if isStandby s = false ∧ st ≠ 7 then s else
    let s := s.modRing r fun q => { q with seenAt := some s.now, winnerAt := s.now, anyReturned := true }
    let s := if fcs = 0 ∧ s.inPlay r = true ∧ isSplit s r = false ∧ (s.ring r).lost = false then passFrame s r b else s
    let s := match crossDiff s r tfi b with
      | some x => if fcs = 0 then crosscheck s r x else s
      | none => s
    let out := turnedFrame s r b
    (s.modRing r fun q => { q with turned := ((leAt b 4 4, tfi) :: q.turned).take 8 }).emit (.packet 6 r (out.map fun x => (x.toNat : Int))))

end Sys2Proof.Machine
end

