-- ==== Sys2Proof/Machine/Huddle.lean ====
section
/-! DEFINITION. The huddle (R41 to R45, R459). -/

namespace Sys2Proof.Machine

/-- The latest instants a huddle's check needs: every ring of the mask with its target schedule. -/
def hudTargets (s : State) : List Nat := (List.range 4).map fun r => s.nat Ob.Hud.TARGET 0 0 r

/-- Cycle lengths of the rings of a mask, under their old and their new schedules. -/
def hudCycles (s : State) (mask : Nat) (tg : List Nat) : List Nat :=
  (List.range 4).flatMap fun r => if bit mask r then [s.tcyc r, s.tcycSched r (tg.getD r 0)] else []

/-- The least common multiple of the cycle lengths of a list. -/
def commonCycle (l : List Nat) : Nat := l.foldl Nat.lcm 1

/-- c* of a request (R42, check 3): the earliest common cycle start at least LEAD slowest cycles after GO, or SWITCH_TIME where that is one; none where
SWITCH_TIME violates the rule. -/
def chooseSwitch (l : List Nat) (lead at_ now : Nat) : Option Nat :=
  let k := commonCycle l
  let least := now + lead * l.foldl max 0
  if at_ = 0 then some ((least + k - 1) / k * k)
  else if at_ % k = 0 ∧ least ≤ at_ then some at_ else none

/-- t_D of cycle H − 2 of a ring for a switch at c* (R43). -/
def decisionAt (s : State) (r cstar : Nat) : Nat := cstar - s.tcyc r + s.woff r - guardNs

/-- GO refused: STATE REFUSED with a REASON (R42). -/
def goRefused (s : State) (status : Nat) (reason : Int) : Act := ((s.set Ob.Hud.STATE 5).set Ob.Hud.REASON reason, status)

/-- A target schedule's whistle offset lies outside its cycle, or its IO sizes exceed a worker's maxima (Tables 02-10, 03-8). -/
def targetUnfit (s : State) (r sc : Nat) : Bool :=
  decide (s.tcycSched r sc ≤ s.woffSched r sc) || (List.range (s.nWorkers r)).any fun i => ioBeyond s r (i + 1) sc

/-- GO written (R42). A GO that completes at once leaves SWITCH_AT and MISSING_ACK as they are, and an accepted GO clears MISSING_ACK (assumption log 174). -/
def goWrite (s : State) : Act :=
  let mask := s.nat Ob.Hud.RING_MASK
  let tg := hudTargets s
  let rings := (List.range 4).filter fun r => bit mask r
  if s.hud.active then (s, stBusy)
  else if mask % 16 = 0 then goRefused s stRange 0
  else if rings.any fun r => !s.inPlay r then goRefused s stState 4
  else if (List.range 4).any fun r => isSplit s r then goRefused s stState 0
  else if s.com.phase ≠ 0 ∨ ((List.range 4).any fun r => decide (s.get Ob.Ring.REJOIN_STATE r ≠ 0)) = true then goRefused s stBusy 0
  else
    let (s, fits) := admissionCheck s s fun r => if bit mask r then some (tg.getD r 0) else none
    if rings.any fun r => s.get Ob.Sched.VALID r (tg.getD r 0) ≠ 1 ∨ targetUnfit s r (tg.getD r 0) = true then goRefused s stBudget 5
    else if fits = false then goRefused s stBudget 2
    else match chooseSwitch (hudCycles s mask tg) (s.nat Ob.Hud.LEAD) (s.nat Ob.Hud.SWITCH_TIME) s.now with
      | none => goRefused s stRange 0
      | some c =>
        if rings.all fun r => decide (tg.getD r 0 = s.nat Ob.Cyc.ACTIVE_SCHEDULE 0 0 r) then
          ((s.set Ob.Hud.STATE 3).set Ob.Hud.REASON 0, stOk)
        else
          let tJ := rings.foldl (fun m r => min m (decisionAt s r c)) c
          let hr := (List.range 4).map fun r => cycleNo c (s.tcyc r)
          let s := { s with hud := { active := true, mask := mask, targets := tg, cstar := c, hr := hr, tJ := tJ } }
          let s := forBelow 4 (fun r s => s.set Ob.Hud.MISSING_ACK 0 0 0 r) s
          (((s.set Ob.Hud.STATE 1).set Ob.Hud.REASON 0).set Ob.Hud.SWITCH_AT c, stOk)

/-- GO (0x3130.08). -/
def execHuddleGo (t : Nat) (s : State) : Host.Outcome State Fault Refusal := whileOn s t <| answer (kept Ob.Hud.GO 1 (goWrite (s.at t)))

/-! ### Decision (R459, R44) -/

/-- HUDDLE_DECISION at t_J. -/
def execHuddleDecision (t : Nat) (s : State) : Host.Outcome State Fault Refusal := whileOn s t <| .next (huddleDecide (s.at t))

/-- HUDDLE_SWITCH: at c* the new schedule governs ring `r`; the kickoff huddle of a ring ends in PLAY (R45). -/
def execHuddleSwitch (r t : Nat) (s : State) : Host.Outcome State Fault Refusal := whileOn s t <|
  let s := s.at t
  .next (enterPlay (huddleAct s r) r)

end Sys2Proof.Machine
end

