-- ==== Sys2Proof/Machine/Kickoff.lean ====
section
/-! DEFINITION. Kickoff, the let, STOP and REJOIN (R66 to R72, R76, R88). -/

namespace Sys2Proof.Machine

/-- Length of a kickoff cycle: 250 µs (R66). -/
def kickNs : Nat := 250000

/-- Kickoff fails (R66): transmitter off, FAILED with a FAIL_REASON. -/
def kickFail (s : State) (r : Nat) (reason : Int) : State := judgeReady (leavePlay s r 6 reason)

/-- A module passes the check of R48 at a ring's configured rate: its A0h page declares 1000BASE-X, or a signalling rate of 3.125 GBd for 2500BASE-X. The
places of the page are those of SFF-8472: byte 6, bits 0 to 2, and byte 12 in units of 100 MBd (assumption log 171). -/
def moduleOk (rate : Int) (id : List Byte) : Bool :=
  !id.isEmpty && (if rate = 0 then decide (leAt id 12 1 = 31) else decide (leAt id 6 1 % 8 ≠ 0))

/-- A module's identity read over the two-wire bus of the port of ring `r` (R48). -/
def readCage (s : State) (r : Nat) (id : List Byte) : State := s.modRing r fun q => { q with cage := id.take 256 }

/-- A kickoff starts from LINK at the present instant (R66), with the check of the port's module (R48). -/
def enterLink (s : State) (r : Nat) : State :=
  let s := ((((s.set Ob.Ring.STATE 1 r).set Ob.Ring.FAIL_REASON 0 r).set Ob.Ring.LOOPBACK_AT 0 r).set Ob.Ring.REJOIN_STATE 0 r).set Ob.RTime.ALIGN_STATE 0 r
  let s := s.modRing r fun q =>
    { q with txOn := true, tK := s.now, tries := 0, firstAnnounce := none, anyReturned := false, alignDone := false, kCstar := 0, kDecided := 0, tx := none,
             txAt := 0, stamp := none, stampNew := none, missRun := 0, backoffEnd := none, loopSince := none, echo := none, lost := false, returned := false }
  if moduleOk (s.get Ob.Ring.PHY_RATE r) (s.ring r).cage then s else kickFail s r 2

/-- KICKOFF written (Table 03-17): STATE unless the ring is DARK or FAILED. -/
def kickoffWrite (s : State) (r : Nat) : Act :=
  let st := s.get Ob.Ring.STATE r
  if st ≠ 0 ∧ st ≠ 6 then (s, stState) else (enterLink s r, stOk)

/-- KICKOFF (RG+0x001.01); `id` is the A0h page of the module in the port's cage, empty without one (R48). -/
def execKickoff (r : Nat) (id : List Byte) (t : Nat) (s : State) : Host.Outcome State Fault Refusal := whileOn s t <|
  answer (kept Ob.Ring.KICKOFF 1 (kickoffWrite (readCage (s.at t) r id) r) r)

/-! ### Kickoff frames (R50, R66) -/

/-- The claim priority of this unit on a ring (R72, R369). -/
def claimPriority (s : State) (r : Nat) : Nat := if s.flag Ob.PairC.PAIR_ENABLE then s.nat Ob.PairC.PAIR_PRIORITY else s.nat Ob.Ring.PRIORITY r

/-- A CLAIM slot (Table 03-10). -/
def claimSlot (s : State) (r : Nat) : SvcSlot :=
  { typ := 4, len := 8, payload := leBytes 1 0 ++ leBytes 1 (claimPriority s r) ++ leBytes 2 0 ++ leBytes 4 unitSerial ++ List.replicate 104 0 }

/-- An unclaimed IDENT slot. -/
def identSlot : SvcSlot := { typ := 3, dest := 0xFF, len := 112, payload := List.replicate 112 0 }

/-- A kickoff frame of the kickoff cycle in progress with its service slots. -/
def sendKickoff (s : State) (r : Nat) (svc : List SvcSlot) : State :=
  let q := s.ring r
  sendFrame s r q.kTw { ring := r, sched := s.sched r, huddleTarget := 0, flags := flagsWord r 0 0 false true, cycle := cycleNo q.kTw kickNs, whistle := q.kTw + kickNs,
                         length := 32 + 128 * svc.length, commitTag := 0, sender := senderByte s r, huddleCycle := 0, slots := [], svc := svc }

/-- Service slots of a returned kickoff frame, in order. -/
def kickSlots (b : List Byte) : List SvcSlot := (List.range ((b.length - 32) / 128)).map fun i => svcOf (slice b (32 + 128 * i) 128)

/-! ### The kickoff huddle (R66, R459) -/

/-- t_J of the kickoff huddle: t_D of kickoff cycle H − 2. -/
def kickDecisionAt (q : RingRt) : Nat := q.kCstar - kickNs - guardNs

/-- The kickoff huddle announced afresh: c* a common start of kickoff and schedule cycles at least 8 kickoff cycles on (Table 03-15). -/
def kickAnnounce (s : State) (r : Nat) : State :=
  let k := Nat.lcm kickNs (s.tcyc r)
  s.modRing r fun q => { q with kCstar := (q.kTw + 8 * kickNs + k - 1) / k * k, kLanded := false, kAttend := 0, kAck := 0, kDecided := 0,
                                firstAnnounce := some (q.firstAnnounce.getD s.now) }

/-- A cancelled kickoff huddle 4 ms or more after the first ANNOUNCE fails the kickoff (R66). -/
def judgeHuddleTime (s : State) (r : Nat) : State :=
  let q := s.ring r
  match q.firstAnnounce with
  | some t => if s.get Ob.Ring.STATE r = 4 ∧ q.kDecided = 2 ∧ t + 4000000 ≤ s.now then kickFail s r 8 else s
  | none => s

/-- The decision of the kickoff huddle of ring `r` at t_J (R459). -/
def kickDecide (s : State) (r : Nat) : State :=
  let q := s.ring r
  if s.get Ob.Ring.STATE r ≠ 4 ∨ q.kCstar = 0 ∨ q.kDecided ≠ 0 ∨ s.now < kickDecisionAt q then s else
    let miss := missingAck (s.nWorkers r) q.kLanded q.kAttend q.kAck
    judgeHuddleTime (s.modRing r fun q => { q with kDecided := if miss = 0 ∧ q.kLanded = true then 1 else 2 }) r

/-- A frame of the HUDDLE phase (R66): worker slots of START_SCHEDULE with CMD_VALID 0, FLAGS.KICKOFF clear. -/
def huddleFrame (s : State) (r : Nat) : State :=
  let s := kickDecide s r
  if s.get Ob.Ring.STATE r ≠ 4 then s else
    let s := if (s.ring r).kCstar = 0 then kickAnnounce s r else s
    let q := s.ring r
    let sc := s.sched r
    let (slots, s) := emitSlots s r sc (cycleNo q.kTw kickNs) false
    let last := decide (q.kTw + kickNs = q.kCstar ∧ q.kDecided = 1)
    let hf := match q.kDecided with | 0 => 1 | 1 => 2 | _ => 3
    let s := sendFrame s r q.kTw { ring := r, sched := sc, huddleTarget := sc, flags := flagsWord r 0 hf false false, cycle := cycleNo q.kTw kickNs,
                                     whistle := if last then q.kCstar + s.woff r else q.kTw + kickNs, length := sahxLength s r sc, commitTag := 0,
                                     sender := senderByte s r, huddleCycle := cycleNo q.kCstar kickNs, slots := slots, svc := [{}] }
    -- after CANCEL the huddle is announced afresh with the next frame
    if hf = 3 then s.modRing r fun q => { q with kCstar := 0 } else s

/-! ### One kickoff cycle -/

/-- LINK judged 30 ms after t_K, and a roll-call whose four frames have all come back wrong or not at all (Table 03-15). -/
def judgeLink (s : State) (r : Nat) : State :=
  let q := s.ring r
  match s.get Ob.Ring.STATE r with
  | 1 => if q.tK + 30000000 ≤ s.now then kickFail s r (if q.anyReturned then 3 else 1) else s
  | 2 => if 4 ≤ q.tries ∧ q.kTw + kickNs ≤ s.now then kickFail s r 1 else s
  | _ => s

/-- ALIGN judged 100 ms after ROLLCALL has ended (R88). -/
def judgeAlignment (s : State) (r : Nat) : State :=
  let q := s.ring r
  if s.get Ob.Ring.STATE r = 3 ∧ q.alignDone = false ∧ q.tP + 100000000 ≤ s.now then kickFail s r 5 else s

/-- The PARAM_NOW download judged 140 ms after ROLLCALL has ended (Table 03-15). -/
def judgeDownload (s : State) (r : Nat) : State :=
  let q := s.ring r
  if s.get Ob.Ring.STATE r = 3 ∧ q.alignDone = true ∧ q.tP + 140000000 ≤ s.now then kickFail s r 6 else s

/-- Sixteen consecutive frames have brought RESULT OK from every worker (R88). Position N + 1 answers only where a partner turns the frames, and is measured
beside them (assumption log 201). -/
def allMeasured (s : State) (r : Nat) : Bool := (List.range (s.nWorkers r)).all fun i => decide (16 ≤ (s.wk r (i + 1)).clk.n)

/-- Slots of a frame in ALIGN (R88, Table 03-15): DELAY per position, then PARAM_NOW per worker that is not complete. -/
def alignFrame (s : State) (r : Nat) : State :=
  if (s.ring r).alignDone then
    sendKickoff s r ((List.range (s.nWorkers r)).filterMap fun i => if (s.wk r (i + 1)).dlDone then none else some (downloadSlot s r (i + 1)))
  else sendKickoff s r ((List.range (measuredPositions s r)).map fun i => alignSlot s r (i + 1) (allMeasured s r))

/-- The frame of a kickoff cycle of ring `r` (R66). -/
def kickTick (s : State) (r : Nat) : State :=
  let s := judgeDownload (judgeAlignment (judgeLink s r) r) r
  let c := s.now / kickNs * kickNs
  let q := s.ring r
  let st := s.get Ob.Ring.STATE r
  if st < 1 ∨ 4 < st ∨ (q.tx.isSome ∧ c ≤ q.txAt) then s
  else if st = 4 ∧ q.kDecided = 1 ∧ q.kCstar ≤ s.now then enterPlay s r
  else
    let s := s.modRing r fun q => { q with kTw := c }
    match st with
    | 1 => sendKickoff s r [claimSlot s r]
    | 2 => sendKickoff (s.modRing r fun q => { q with tries := q.tries + 1 }) r (claimSlot s r :: List.replicate 64 identSlot)
    | 3 => alignFrame s r
    | _ => huddleFrame s r

/-- KICKOFF_FRAME_TICK of ring `r`. -/
def execKickoffFrameTick (r t : Nat) (s : State) : Host.Outcome State Fault Refusal := whileOn s t <| .next (kickTick (s.at t) r)

/-- KICKOFF_LINK_TIMEOUT. -/
def execKickoffLinkTimeout (r t : Nat) (s : State) : Host.Outcome State Fault Refusal := whileOn s t <| .next (judgeLink (s.at t) r)

/-- ALIGN_TIMEOUT. -/
def execAlignTimeout (r t : Nat) (s : State) : Host.Outcome State Fault Refusal := whileOn s t <| .next (judgeAlignment (s.at t) r)

/-- HUDDLE_TIMEOUT: the kickoff huddle is decided and its cancel judged. -/
def execHuddleTimeout (r t : Nat) (s : State) : Host.Outcome State Fault Refusal := whileOn s t <| .next (judgeHuddleTime (kickDecide (s.at t) r) r)

/-! ### Returned kickoff frames -/

/-- A returned frame in LINK (Table 03-15): HOPS of its CLAIM. -/
def linkBack (s : State) (r : Nat) (l : List SvcSlot) : State :=
  let hops := match l with | v :: _ => leAt v.payload 0 1 | [] => 0
  let n := s.nWorkers r
  let s := (s.set Ob.Ring.HOPS hops r).modRing r fun q => { q with anyReturned := true }
  if n < hops then kickFail s r 3
  else if hops = n then (s.set Ob.Ring.STATE 2 r).modRing r fun q => { q with tL := s.now, tries := 0 }
  else s

/-- A returned roll-call frame judged (R69 to R71, Table 03-16): where Count fails, nobody is admitted as a substitute. -/
def rollBack (s : State) (r : Nat) (l : List SvcSlot) : State :=
  let n := s.nWorkers r
  let got := (l.drop 1).filter fun v => decide (v.dest ≠ 0xFF)
  let s := match l with | v :: _ => s.set Ob.Ring.HOPS (leAt v.payload 0 1) r | [] => s
  let s := forBelow 64 (fun i s => if got.any fun v => decide (v.dest = i + 1) then s else s.put1 Ob.Wk.STATUS 0 r (i + 1)) s
  let countOk := decide (got.length = n) && got.all fun v => decide (1 ≤ v.dest ∧ v.dest ≤ n)
  let (s, ok) := got.foldl (fun (x : State × Bool) v =>
    if v.dest = 0 ∨ 64 < v.dest then x
    else if n < v.dest then ((x.1.setBytes Ob.Wk.IDENT v.payload r v.dest).set Ob.Wk.STATUS 3 r v.dest, x.2)
    else if countOk = false ∧ identOk x.1 r v.dest v.payload = 1 then (x.1.setBytes Ob.Wk.IDENT v.payload r v.dest, x.2)
    else let y := admitWorker x.1 r v.dest 1 v.payload; (y.1, x.2 && y.2)) (s, true)
  if countOk = false then kickFail s r 3
  else if ok = false then kickFail s r 4
  else
    let s := if s.get Ob.Ring.FAR_END r = 1 then s.modWk r (n + 1) fun w => { w with clk := {} } else s
    ((s.set Ob.Ring.STATE 3 r).set Ob.RTime.ALIGN_STATE 1 r).modRing r fun q => { q with tP := s.now, alignDone := false }

/-- The kickoff has aligned and configured every worker (Table 03-15): admission check, then HUDDLE. -/
def toHuddle (s : State) (r : Nat) : State :=
  let (s, fits) := admissionCheck s s fun _ => none
  if fits = false then kickFail s r 7
  else (s.set Ob.Ring.STATE 4 r).modRing r fun q => { q with tH := s.now, kCstar := 0, kDecided := 0, firstAnnounce := none }

/-- A returned frame in ALIGN (R88, Table 03-15): `v` the slots as sent, `a` as returned. -/
def alignBack (s : State) (r : Nat) (v a : List SvcSlot) : State :=
  let q := s.ring r
  let n := s.nWorkers r
  if q.alignDone then
    let (s, ok) := (v.zip a).foldl (fun (x : State × Bool) p =>
      if p.1.typ ≠ 2 then x else let y := downloadTake x.1 r p.1.dest p.2.status; (y.1, x.2 && y.2)) (s, true)
    if ok = false then kickFail s r 6
    else if (List.range n).all fun i => (s.wk r (i + 1)).dlDone then toHuddle s r else s
  else match q.stamp with
    | none => s
    | some (c, e0, loop0) =>
      let l := (v.zip a).filter fun p => decide (p.1.typ = 7 ∧ leAt p.1.payload 0 4 = c)
      -- the sixteen frames are consecutive ones with RESULT OK from every worker
      let s := if !allMeasured s r && l.any fun p => decide (p.1.dest ≤ n ∧ leAt p.2.payload 5 1 ≠ 1) then
          forBelow (measuredPositions s r) (fun i s => s.modWk r (i + 1) fun w => { w with clk := { w.clk with n := 0, sumD := 0, sumF := 0 } }) s
        else l.foldl (fun (s : State) p => alignTake s r p.1.dest c e0 (e0 / kickNs * kickNs) loop0 (bit (leAt p.1.payload 4 1) 0) p.2.payload) s
      if (List.range n).all fun i => aligned (s.wk r (i + 1)).clk then (s.set Ob.RTime.ALIGN_STATE 2 r).modRing r fun q => { q with alignDone := true } else s

/-- A returned frame of the HUDDLE phase: acknowledgements (R459), link errors (R77) and safety answers (R348). -/
def huddleBack (s : State) (r : Nat) (f : RallyFrame) (b : List Byte) : State :=
  let h := rxHeader b
  let q := s.ring r
  let up (i : Nat) : Nat := rxUp s r f.sched (i + 1) b
  let s := forBelow (s.nWorkers r) (fun i s =>
    if bit h.attendance i then
      judgeAnswer ((linkErr s r (i + 1) (up i)).modWk r (i + 1) fun w => { w with up := up i, safety := rxSafety s r f.sched (i + 1) b }) r (i + 1) f.cycle (q.echo.getD ((f.cycle + 255) % 256))
        (some (rxSafety s r f.sched (i + 1) b))
    else judgeAnswer s r (i + 1) f.cycle 0 none) s
  if bits f.flags 4 2 ≠ 1 ∨ q.kDecided ≠ 0 ∨ kickDecisionAt q < s.now then s
  else
    let ack := ((List.range (s.nWorkers r)).map fun i => bitAt (bit h.attendance i && bit (up i) 23) i).sum
    s.modRing r fun q => { q with kLanded := true, kAttend := q.kAttend ||| h.attendance, kAck := q.kAck ||| ack }

/-- A returned kickoff frame (R66): used where it is valid, before the next frame leaves. -/
def kickBack (s : State) (r fcs : Nat) (loop : Int) (b : List Byte) : State :=
  match (s.ring r).tx with
  | none => s
  | some f =>
    if (s.ring r).returned then s else
    let (s, ok) := rxValid (rxStore s r 0 b) r fcs b
    if ok = false then (if s.get Ob.Ring.STATE r = 2 ∧ 4 ≤ (s.ring r).tries then kickFail s r 1 else s)
    else
      let s := s.modRing r fun q => { q with returned := true, stampNew := some (f.cycle, q.txAt, loop) }
      match s.get Ob.Ring.STATE r with
      | 1 => linkBack s r (kickSlots b)
      | 2 => rollBack s r (kickSlots b)
      | 3 => alignBack s r f.svc (kickSlots b)
      | 4 => huddleBack s r f b
      | _ => s

/-- KICKOFF_FRAME_RETURNED: operands as FRAME_RETURNED. -/
def execKickoffFrameReturned (r fcs : Nat) (loop : Int) (b : List Byte) (t : Nat) (s : State) : Host.Outcome State Fault Refusal := whileOn s t <|
  let s := s.at t
  .next (if (s.ring r).syncLost.isSome then s else kickBack s r fcs loop b)

/-! ### The let (R72, R369) -/

/-- Ring `r` yields to the other end (R72): the transmitter is off, the backoff runs. -/
def yieldRing (s : State) (r : Nat) : State :=
  (s.set Ob.Ring.STATE 7 r).modRing r fun q => { q with txOn := false, tx := none, winnerAt := s.now, backoffEnd := some (s.now + 2000000 + unitSerial % 8 * 1000000) }

/-- A unit of a pair stops sending on all its rings (R369). -/
def yieldAll (s : State) : State :=
  forBelow 4 (fun x s =>
    let st := s.get Ob.Ring.STATE x
    if st = 5 then yieldRing (leavePlay s x 7 0) x else if 1 ≤ st ∧ st ≤ 4 then yieldRing s x else s) s

/-- A claim of the other end against this unit's (R72): the higher PRIORITY, then the lower SERIAL wins. -/
def claimLost (own theirs ownSerial serial : Nat) : Bool := decide (own < theirs) || (decide (own = theirs) && decide (serial < ownSerial))

/-- KICKOFF_COLLISION: a kickoff frame with SENDER.END `sender`, and `prio` and `serial` of its CLAIM, arrives on the port of ring `r`. -/
def execKickoffCollision (r sender prio serial t : Nat) (s : State) : Host.Outcome State Fault Refusal := whileOn s t <|
  let s := s.at t
  let st := s.get Ob.Ring.STATE r
  .next (if sender = s.nat Ob.PairC.UNIT_END ∨ st < 1 ∨ 4 < st ∨ claimLost (claimPriority s r) prio unitSerial serial = false then s
    else
      let s := (yieldRing s r).count Ob.Ring.LET_COUNT r
      if s.flag Ob.PairC.PAIR_ENABLE then
        yieldAll s
      else s)

/-- LET: the end of ring `r`'s backoff (R72): the kickoff is replayed where the winner has been silent for 1 ms; otherwise the unit stays the far end,
the standby of a pair (R369). -/
def execKickoffLet (r t : Nat) (s : State) : Host.Outcome State Fault Refusal := whileOn s t <|
  let s := s.at t
  let q := s.ring r
  .next (match q.backoffEnd with
    | some e =>
      if s.get Ob.Ring.STATE r ≠ 7 ∨ s.now < e then s
      else if q.winnerAt + 1000000 < s.now ∧ isStandby s = false then enterLink s r
      else
        let s := s.modRing r fun q => { q with backoffEnd := none }
        if s.flag Ob.PairC.PAIR_ENABLE = true ∧ isStandby s = false then ((yieldAll s).set Ob.Pair.ROLE 2).set Ob.Pair.PAIR_STATE 4 else s
    | none => s)

/-! ### STOP and REJOIN -/

/-- STOP of a ring (R66, R75). -/
def ringStopWrite (s : State) (r : Nat) : Act := (leavePlay s r 0 0, stOk)

/-- RING_STOP (RG+0x001.02). -/
def execRingStop (r t : Nat) (s : State) : Host.Outcome State Fault Refusal := whileOn s t <| answer (kept Ob.Ring.STOP 1 (ringStopWrite (s.at t) r) r)

/-- A rejoin of ring `r` starts behind position `j` (R76); with j = 0 no worker has a port to reopen (R384). -/
def startRejoin (s : State) (r j : Nat) : State :=
  let s := (s.set Ob.Ring.REJOIN_STATE (if j = 0 then 2 else 1) r).modRing r fun q => { q with rejoinPos := j }
  forBelow (s.nWorkers r) (fun i s => if j ≤ i then s.modWk r (i + 1) fun w => { w with admitted := false, dlDone := false, dlFrag := 0 } else s) s

/-- REJOIN written (R76). -/
def rejoinWrite (s : State) (r : Nat) : Act :=
  let long := match (s.ring r).loopSince with | some t => decide (t + 100000000 ≤ s.now) | none => false
  if s.inPlay r = false ∨ long = false then (s, stState)
  else if s.hud.active = true ∨ s.com.phase = 2 ∨ s.get Ob.Ring.REJOIN_STATE r ≠ 0 then (s, stBusy)
  else (startRejoin s r (s.nat Ob.Ring.LOOPBACK_AT r), stOk)

/-- REJOIN (RG+0x002.06). -/
def execRejoin (r t : Nat) (s : State) : Host.Outcome State Fault Refusal := whileOn s t <| answer (kept Ob.Ring.REJOIN 1 (rejoinWrite (s.at t) r) r)

end Sys2Proof.Machine
end

