-- ==== Sys2Proof/Machine/P256.lean ====
section
/-! DEFINITION. ECDSA over P-256 (FIPS 186-4, SEC 2), as R425 and R426 use it: verification of a signature. -/

namespace Sys2Proof.Machine

/-- The field prime. -/
def p256P : Nat := 0xFFFFFFFF00000001000000000000000000000000FFFFFFFFFFFFFFFFFFFFFFFF
/-- The curve coefficient b; a is −3. -/
def p256B : Nat := 0x5AC635D8AA3A93E7B3EBBD55769886BC651D06B0CC53B0F63BCE3C3E27D2604B
/-- The order of the base point. -/
def p256N : Nat := 0xFFFFFFFF00000000FFFFFFFFFFFFFFFFBCE6FAADA7179E84F3B9CAC2FC632551
/-- The base point. -/
def p256G : Nat × Nat :=
  (0x6B17D1F2E12C4247F8BCE6E563A440F277037D812DEB33A0F4A13945D898C296, 0x4FE342E2FE1A7F9B8EE7EB4A7C0F9E162BCE33576B315ECECBB6406837BF51F5)

/-- `x ^ k mod m` for exponents of at most `n` bits. -/
def powMod : Nat → Nat → Nat → Nat → Nat
  | 0, _, _, m => 1 % m
  | n + 1, x, k, m => let h := powMod n (x * x % m) (k / 2) m; if k % 2 = 1 then h * x % m else h

/-- The inverse modulo a prime. -/
def invMod (x m : Nat) : Nat := powMod 256 (x % m) (m - 2) m

/-- A difference modulo the field prime. -/
def subP (a b : Nat) : Nat := (a + p256P - b % p256P) % p256P

/-- A point in Jacobian coordinates; Z = 0 is the point at infinity. -/
abbrev JPoint := Nat × Nat × Nat

/-- Twice a point. -/
def jDouble (p : JPoint) : JPoint :=
  let (x, y, z) := p
  if z = 0 ∨ y = 0 then (1, 1, 0) else
    let yy := y * y % p256P
    let v := 4 * x * yy % p256P
    let zz := z * z % p256P
    let m := 3 * subP x zz * (x + zz) % p256P
    let x3 := subP (m * m) (2 * v)
    (x3, subP (m * subP v x3) (8 * yy * yy), 2 * y * z % p256P)

/-- The sum of two points. -/
def jAdd (p q : JPoint) : JPoint :=
  let (x1, y1, z1) := p
  let (x2, y2, z2) := q
  if z1 = 0 then q else if z2 = 0 then p else
    let w1 := z1 * z1 % p256P
    let w2 := z2 * z2 % p256P
    let u1 := x1 * w2 % p256P
    let u2 := x2 * w1 % p256P
    let s1 := y1 * z2 * w2 % p256P
    let s2 := y2 * z1 * w1 % p256P
    if u1 = u2 then (if s1 = s2 then jDouble p else (1, 1, 0)) else
      let h := subP u2 u1
      let r := subP s2 s1
      let hh := h * h % p256P
      let c := h * hh % p256P
      let v := u1 * hh % p256P
      let x3 := subP (r * r) (c + 2 * v)
      (x3, subP (r * subP v x3) (s1 * c), h * z1 * z2 % p256P)

/-- A multiple of a point, for scalars of at most `n` bits. -/
def jMul : Nat → Nat → JPoint → JPoint
  | 0, _, _ => (1, 1, 0)
  | n + 1, k, p => let h := jMul n (k / 2) (jDouble p); if k % 2 = 1 then jAdd h p else h

/-- A signature (r, s) of a 32-byte hash verifies against a public key. -/
def ecdsaOk (key : Nat × Nat) (hash : List Byte) (r v : Nat) : Bool :=
  let (x, y) := key
  if ¬(x < p256P ∧ y < p256P ∧ y * y % p256P = subP (x * x * x + p256B) (3 * x) ∧ 1 ≤ r ∧ r < p256N ∧ 1 ≤ v ∧ v < p256N) then false else
    let w := invMod v p256N
    let e := leNat hash.reverse
    let (px, _, pz) := jAdd (jMul 256 (e * w % p256N) (p256G.1, p256G.2, 1)) (jMul 256 (r * w % p256N) (x, y, 1))
    if pz = 0 then false else decide (px * invMod (pz * pz) p256P % p256P % p256N = r)

end Sys2Proof.Machine
end

