-- ==== Sys2Proof/Machine/Boot.lean ====
section
/-! DEFINITION. Reset, boot, the configuration step, power states and temperature (R399 to R402, R422 to R436, R449, R450, R452). -/

namespace Sys2Proof.Machine

/-- What start-up keeps, changed. -/
def State.modBoot (s : State) (f : BootRt → BootRt) : State := { s with boot := f s.boot }

/-! ### Firmware images (R425 to R428) -/

/-- Region 0 A or 1 B. -/
def BootRt.region (b : BootRt) (r : Nat) : ImageRt := if r = 0 then b.imgA else b.imgB
/-- A region replaced. -/
def BootRt.setRegion (b : BootRt) (r : Nat) (x : ImageRt) : BootRt := if r = 0 then { b with imgA := x } else { b with imgB := x }

/-- The public key of a slot in the flash hashes to what was fused, and the slot is not revoked. -/
def keyOk (k : BootKey) : Bool := !k.revoked && decide (sha256 ((leBytes 32 k.x).reverse ++ (leBytes 32 k.y).reverse) = k.hash)

/-- An image is valid (R426, Table 18-2). -/
def imageValid (b : BootRt) (l : List Byte) : Bool :=
  let f (o n : Nat) : Nat := leAt l o n
  let len := f 16 4
  let payload := (l.drop 256).take len
  decide (256 ≤ l.length ∧ f 0 4 = 0x47494D47 ∧ f 4 2 = 256 ∧ f 12 4 = 0x9256 ∧ len % 16 = 0 ∧ len ≤ 12582912 ∧ payload.length = len ∧ b.rollback ≤ f 6 2) &&
  (slice l 21 11).all (fun x => decide (x = 0)) && (slice l 128 128).all (fun x => decide (x = 0)) &&
  decide (sha256 payload = slice l 32 32) &&
  match b.keys.find? fun k => decide (k.slot = f 20 1) with
  | some k => keyOk k && ecdsaOk (k.x, k.y) (sha256 (slice l 0 64)) (leNat (slice l 64 32).reverse) (leNat (slice l 96 32).reverse)
  | none => false

/-- FW_VERSION of a region's header. -/
def imageVersion (x : ImageRt) : Nat := leAt x.bytes 8 4

/-- The objects of the flash and of the boot counters (Table 18-5), which MRAM, fuses and flash keep. -/
def publishImages (s : State) : State :=
  let b := s.boot
  let s := ((s.put1 Ob.Rst.IMAGE_STATE_A b.imgA.status).put1 Ob.Rst.IMAGE_STATE_B b.imgB.status).put1 Ob.Rst.ROLLBACK_MIN b.rollback
  (s.put1 Ob.Rst.IMAGE_VERSION_A (imageVersion b.imgA)).put1 Ob.Rst.IMAGE_VERSION_B (imageVersion b.imgB)

/-- IMAGE_STATE of a region whose bytes are checked (R426): TRIAL, CONFIRMED and REJECTED stand. -/
def checkRegion (b : BootRt) (x : ImageRt) : ImageRt :=
  if x.bytes.isEmpty then { x with status := 0 }
  else if imageValid b x.bytes = false then { x with status := 1 }
  else if x.status < 2 then { x with status := 2 } else x

/-! ### Reset (R422, R423, R449, R450) -/

/-- The time of day as the always-on domain resolves it: 32 768 counts a second (R81). -/
def alwaysOnTod (s : State) : Int := (todAt s s.now * 32768).fdiv 1000000000 * 1000000000 / 32768

/-- Objects whose values MRAM keeps across a reset. -/
def keptObjects : List Obj := [Ob.Rst.WATCHDOG_COUNT, Ob.AxS.BT_LAST, Ob.Isl.LOG_EXPORTED, Ob.Isl.FACTORY_PASSWORD, Ob.Isl.FAILED_ATTEMPTS, Ob.Pow.WAKE_AT]

/-- Regions, attempts and MRAM data of start-up across a reset (R427, R428). -/
def bootAcross (s : State) : BootRt :=
  let b := s.boot
  let b := match b.upload with | some (r, _, _) => b.setRegion r { b.region r with status := 1 } | none => b
  let b := match b.running with
    | some r =>
      let x := b.region r
      if x.status = 3 then b.setRegion r { x with fails := x.fails + 1, status := if 2 ≤ x.fails + 1 then 5 else 3 } else b
    | none => b
  { imgA := b.imgA, imgB := b.imgB, keys := b.keys, rollback := b.rollback, select := if b.configured then s.nat Ob.Rst.BOOT_SELECT else b.select }

/-- The state kept by MRAM of the safety island (R340, R354, R358 to R360). -/
def safeAcross (s : State) : SafeRt :=
  let f := s.safe
  { opBase := opTime s, events := f.events, passed := f.passed, failed := f.failed, salt := f.salt, hash := f.hash, factory := f.factory,
    failures := f.failures, lockUntil := f.lockUntil, sessions := f.sessions, log := f.log, seqNo := f.seqNo, exported := f.exported, chain := f.chain }

/-- The field die across a reset: the barrier link stops and the die takes its safe state (R322, R423); the head's side starts anew. -/
def fieldAcross (s : State) : FieldRt :=
  { (dieSafe s).field with seqDown := 0, fqSent := 0, sinceTime := 1024, edges := [], safeReq := true, upLast := none, upBad := 0, upGood := 0, fi := 0,
                           latchTime := none, pairedDrive := false, downGood := 0 }

/-- A reset of every domain but the always-on one (R422, R423, Table 18-1), with its kind; machine time restarts at 0 (R79). -/
def resetTo (s : State) (cause : Nat) : State :=
  let erased (i : StoredImage) : StoredImage := if s.store.erase then {} else i
  let e : State :=
    { State.reset with
      pending := s.pending, free := s.free, out := s.out, debugger := s.debugger,
      od := s.od.filter fun p => (rowOf p.1).any fun o => keptObjects.contains o,
      store := { bank0 := erased s.store.bank0, bank1 := erased s.store.bank1, faultHistory := s.store.faultHistory },
      safe := safeAcross s,
      field := fieldAcross s,
      time := { todOff := alwaysOnTod s * 65536 },
      fbs := s.fbs.map fun p => (p.1, { quad := { a := p.2.quad.a, b := p.2.quad.b, z := p.2.quad.z } }),
      ports := s.ports.map fun p => (p.1, { tripInput := p.2.tripInput }),
      pair := { yieldIn := s.pair.yieldIn, diverged := s.pair.diverged },
      boot := bootAcross s }
  publishImages (publishLog (publishStored (e.set Ob.Rst.RESET_CAUSE cause)))

/-- The unit is held in reset: 1 by the supervisor, 2 by temperature, 3 for EXTEST. -/
def holdReset (s : State) (k : Nat) : State := s.modBoot fun b => { b with held := k }

/-- The release instant t_R: the TBU starts (R79, R423). -/
def releaseReset (s : State) : State :=
  { s with now := 0, frac := 0, time := { s.time with todOff := alwaysOnTod s * 65536 }, boot := { s.boot with held := 0 } }

/-- The always-on domain lost (R81, R422): time of day restarts at 0, no wake is set. -/
def loseAlwaysOn (s : State) : State := ({ s with time := { s.time with todOff := -(s.now * 65536 : Int) } }).set Ob.Pow.WAKE_AT 0

/-- POWER_ON (R399, R422): a power-on reset; `vaonFell` tells that VAON has fallen below 1.62 V, `core` that VDD_CORE is present. The
supervisor holds the reset (R449). -/
def execPowerOn (vaonFell core : Bool) (t : Nat) (s : State) : Host.Outcome State Fault Refusal :=
  let s := s.at t
  let s := holdReset (resetTo (if vaonFell || s.boot.off then loseAlwaysOn s else s) 0) 1
  .next (if core then s else (s.modBoot fun b => { b with standby := true }).set Ob.Pow.POWER_STATE 1)

/-- SUPERVISOR_RELEASE: every rail has been in range for 10 ms, and RESET_N is high (R449). -/
def execSupervisorRelease (t : Nat) (s : State) : Host.Outcome State Fault Refusal :=
  let s := s.at t
  .next (if s.boot.held = 1 then releaseReset (s.set Ob.Therm.RAIL_STATUS 0x1FF) else s)

/-- RESET_N: the rising edge after the pin has been low for `low` ns (R423). In STANDBY every domain it resets is off: only a wake source ends
STANDBY (Table 16-6, assumption log 184). -/
def execResetN (low t : Nat) (s : State) : Host.Outcome State Fault Refusal :=
  let s := s.at t
  .next (if low < 1000 ∨ s.boot.off = true ∨ s.boot.standby = true then s
    else
      let k := s.boot.held
      let s := resetTo s 1
      if k = 1 ∨ k = 2 then holdReset s k else s)

/-- RAIL_FAULT: rail `rail` of Table 19-10 (row order from 0) has been below its minimum for `ns`; VAON has also fallen below 1.62 V or not
(R450). -/
def execRailFault (rail ns : Nat) (vaonFell : Bool) (t : Nat) (s : State) : Host.Outcome State Fault Refusal :=
  let s := s.at t
  .next (if ns ≤ 2000 ∨ rail = 5 ∨ 8 < rail then s
    else
      let st := s.nat Ob.Therm.RAIL_STATUS
      (holdReset (resetTo (if vaonFell then loseAlwaysOn s else s) 0) 1).set Ob.Therm.RAIL_STATUS (setBit st rail false))

/-- VAON_LOSS: VAON below 1.62 V loses the always-on domain; the unit is OFF (R399, R450). -/
def execVaonLoss (t : Nat) (s : State) : Host.Outcome State Fault Refusal :=
  .next ((holdReset (resetTo (loseAlwaysOn (s.at t)) 0) 1).modBoot fun b => { b with off := true })

/-- A fault record in the MRAM fault history, newest first; the region holds 65 536 records of 16 bytes (R125, assumption log 167). -/
def faultRecord (s : State) (k v : Nat) : State :=
  { s with store := { s.store with faultHistory := ((k, v) :: s.store.faultHistory).take (mramSizes.getD 3 0 / 16) } }

/-- WATCHDOG: management pair `p` restarts the watchdog (`fed`), or its 100 ms are judged (R424). The record names the pair and the last
cycle of LOCAL_RING. -/
def execWatchdog (p : Nat) (fed : Bool) (t : Nat) (s : State) : Host.Outcome State Fault Refusal :=
  let s := s.at t
  .next (if 2 ≤ p ∨ s.boot.held ≠ 0 ∨ s.boot.standby = true ∨ s.boot.off = true then s
    else if s.boot.fed.getD p 0 + 100000000 < s.now then
      resetTo ((faultRecord s p (s.nat Ob.Cyc.CYCLE_NUMBER 0 0 s.localRing)).count Ob.Rst.WATCHDOG_COUNT) 3
    else if fed then s.modBoot fun b => { b with fed := b.fed.set p s.now } else s)

/-- RESET_UNIT written (R423); the reset follows the acknowledgement. -/
def resetUnitWrite (s : State) : Act :=
  let busy := (List.range 256).any fun a => (s.axis a).mot.state.powered
  if (s.get Ob.Pair.ROLE = 1 ∧ busy = true) ∨ s.store.saving.isSome = true ∨ s.boot.upload.isSome = true then (s, stState)
  else (s.modBoot fun b => { b with resetDue := true }, stOk)

/-- EXTEST of the JTAG port: the unit is placed in reset (R447). The kind that RESET_CAUSE records is not stated: a free value. -/
def execExtest (t : Nat) (s : State) : Host.Outcome State Fault Refusal :=
  let (v, s) := (s.at t).freeDraw 32
  .next (holdReset (resetTo s (v % 5)) 3)

/-- PCIE_HOT_RESET: link down or hot reset of the host endpoint (R394, R395). -/
def execPcieHotReset (t : Nat) (s : State) : Host.Outcome State Fault Refusal := whileOn s t <| .next (resetEndpoint (s.at t) 0)

/-! ### Boot (R425 to R429) -/

/-- The image that BOOT_SELECT names (R427): with 0 the valid one of the higher FW_VERSION, A between equals. -/
def selectedImage (b : BootRt) : Nat :=
  if b.select = 1 then 0 else if b.select = 2 then 1
  else if b.imgB.status < 2 then 0
  else if b.imgA.status < 2 then 1
  else if imageVersion b.imgA < imageVersion b.imgB then 1 else 0

/-- An image may be taken: valid and not REJECTED. -/
def takable (b : BootRt) (r : Nat) : Bool := decide (2 ≤ (b.region r).status ∧ (b.region r).status ≠ 5)

/-- BOOT_IMAGE_LOADED: the boot ROM selects, copies and verifies an image and starts it. `prog` and `keys` are regions and keys that an external
programmer has written, or that were set at manufacture, since the last boot. -/
def execBootImageLoaded (prog : List (Nat × List Byte)) (keys : List BootKey) (t : Nat) (s : State) : Host.Outcome State Fault Refusal :=
  let s := s.at t
  .next (if s.get Ob.Rst.START_STATE ≠ 0 ∨ s.boot.held ≠ 0 ∨ s.boot.standby = true ∨ s.boot.off = true then s
    else
      let b := prog.foldl (fun (b : BootRt) p => if p.1 < 2 then b.setRegion p.1 { bytes := p.2 } else b) s.boot
      let b := { b with keys := keys ++ b.keys.filter fun (k : BootKey) => !(keys.any fun x => decide (x.slot = k.slot)) }
      let b := { b with imgA := checkRegion b b.imgA, imgB := checkRegion b b.imgB }
      let n := selectedImage b
      let pick := if takable b n then some n else if takable b (1 - n) then some (1 - n) else none
      match pick with
      | none => publishImages { s with boot := { b with noImage := true, running := none } }
      | some r =>
        let x := b.region r
        let b := b.setRegion r (if x.status = 4 then x else { x with status := 3 })
        let s := publishImages { s with boot := { b with noImage := false, running := some r, fed := [s.now, s.now] } }
        let s := ((s.set Ob.Ident.FW_VERSION (imageVersion x)).set Ob.Ident.FW_IMAGE r).set Ob.Rst.START_STATE 1
        publishAces ((s.set Ob.Pow.PLL_LOCK 0x1F).set Ob.Pow.POWER_STATE 2))

/-- FW_UPLOAD written by session `sess` (R428): bytes `v` at `off` of an image of `total` bytes. -/
def fwUploadWrite (s : State) (sess off total : Nat) (v : List Byte) : Act :=
  let b := s.boot
  let r := match b.running with | some 1 => 0 | _ => 1
  let x := b.region r
  let cont := match b.upload with | some (_, n, _) => decide (n = total ∧ off = x.bytes.length) | none => false
  if total < 256 ∨ 12583168 < total ∨ total < off + v.length ∨ (off ≠ 0 ∧ cont = false) then (s, stLength)
  else if (match b.running with | some k => decide ((b.region k).status = 3) | none => false) then (s, stState)
  else if s.store.saving.isSome ∨ (match b.upload with | some (_, _, o) => decide (o ≠ sess) | none => false) = true then (s, stBusy)
  else
    let l := (if off = 0 then [] else x.bytes) ++ v
    let b := if l.length < total then { b.setRegion r { bytes := l, status := 1 } with upload := some (r, total, sess) }
      else { b.setRegion r (checkRegion b { bytes := l }) with upload := none }
    (publishImages { s with boot := b }, stOk)

/-! ### The configuration step (R430, R431) -/

/-- Records of a stored image that the running firmware takes, and the numbers of unknown records and of records of a wrong type or range. -/
def usableRecords (l : SMap Val) : List Staged × Nat × Nat :=
  let ok (p : Nat × Val) : Bool := (rowOf p.1).any fun o =>
    decide (o.org = .stored) && decide (o.ty.isBytes = match p.2 with | .bytes _ => true | .num _ => false) && decide (rangeStatus o p.2 = stOk)
  ((l.filter ok).map fun p => { key := p.1, val := p.2 }, (l.filter fun p => (rowOf p.1).isNone).length,
   (l.filter fun p => (rowOf p.1).isSome && !ok p).length)

/-- A list of stored records applied as one commit (R371, R431): steps 4 to 9 of Table 05-4; the object at which it fails. -/
def applyRecords (s : State) (l : List Staged) : State × Option Nat :=
  let new := withEntries s l
  match commitCheck { s with staged := l } new with
  | some (_, _, k) => (s, some k)
  | none =>
    let (s, fits) := admissionCheck s new fun _ => none
    if fits then (applyShare s l s.now s.now, none) else (s, some 0)

/-- The stored image of a bank tried (R431). -/
def tryImage (s : State) (b : Nat) : State × Bool :=
  let i := bankImage s b
  let (l, unknown, wrong) := usableRecords i.records
  let s := (s.count Ob.Rst.UNKNOWN_RECORDS 0 0 0 unknown).count Ob.Rst.RANGE_RECORDS 0 0 0 wrong
  match applyRecords s l with
  | (s, none) => (((s.set Ob.Store.STORED_SOURCE (b + 1)).modSafe fun f => { f with crc := some i.safetyCrc }), true)
  | (s, some k) => (s.set Ob.Com.LAST_OBJECT k, false)

/-- The configuration chosen and applied (R128, R431): CONFIG_RESULT and STORED_SOURCE. -/
def applyStored (s : State) : State :=
  let s := match newestBank s with
    | none => (applyRecords (s.set Ob.Rst.CONFIG_RESULT 2) []).1
    | some b =>
      match tryImage s b with
      | (s, true) => s.set Ob.Rst.CONFIG_RESULT 0
      | (s, false) =>
        let (s, ok) := if storedValid s (bankImage s (1 - b)) then tryImage s (1 - b) else (s, false)
        if ok then s.set Ob.Rst.CONFIG_RESULT 1 else (applyRecords (s.set Ob.Rst.CONFIG_RESULT 2) []).1
  if 0 < s.get Ob.Rst.UNKNOWN_RECORDS ∨ 0 < s.get Ob.Rst.RANGE_RECORDS then s.warn 431 0 0 else s

/-- Every ring with ENABLE is kicked off, all at once (R66, R433); `ids` are the A0h pages of the
modules in the four cages (R48). -/
def kickAll (s : State) (ids : List (List Byte)) : State :=
  let s := forBelow 4 (fun r s => match ids[r]? with | some id => readCage s r id | none => s) s
  judgeReady (forBelow 4 (fun r s => if s.flag Ob.Ring.ENABLE r then enterLink s r else s) (s.set Ob.Rst.START_STATE 3))

/-- Pairing goes on from step 2 (Table 15-1); a standby's time alignment reads PAIRING from there (R94, Table 04-7). -/
def toStepTwo (s : State) : State :=
  let s := s.modPair fun p => { p with step := 2, told := (0, false) }
  if isStandby s then { s with time := { s.time with cross := [0, 0, 0, 0], segD := [], segF := [] } }.set Ob.Sby.BENCH_ALIGN_STATE 1 else s

/-- The role decided from the partner's HELLO (R369): the higher PAIR_PRIORITY, then the lower SERIAL is active and kicks off. A pair of two
units of one UNIT_END fails with END_CONFLICT (R371). -/
def decideRole (s : State) (ids : List (List Byte)) : State :=
  match s.pair.partner with
  | none => s
  | some (serial, prio, end_) =>
    let own := s.nat Ob.PairC.PAIR_PRIORITY
    let s := s.set Ob.Pair.PARTNER_SERIAL serial
    let s := if own > prio ∨ (own = prio ∧ unitSerial < serial) then kickAll (s.set Ob.Pair.ROLE 1) ids else s.set Ob.Pair.ROLE 2
    if end_ = s.nat Ob.PairC.UNIT_END then (s.set Ob.Pair.PAIR_STATE (if s.get Ob.Pair.ROLE = 2 then 4 else 0)).warn 371 0 1
    else toStepTwo (s.set Ob.Pair.PAIR_STATE 1)

/-- CONFIGURATION_STEP (R430 to R433): the stored image applied, SAFETY_CRC computed, a TRIAL image confirmed, the role taken; `ids` as at a
kickoff of all rings. -/
def execConfigurationStep (ids : List (List Byte)) (t : Nat) (s : State) : Host.Outcome State Fault Refusal :=
  let s := s.at t
  .next (if s.boot.configured = true ∨ unitRuns s = false then s
    else
      let s := (applyStored s).set Ob.Rst.START_STATE 2
      let b := { s.boot with configured := true }
      let b := match b.running with
        | some r =>
          let x := b.region r
          if x.status = 3 ∧ s.now ≤ 2000000000 then { b.setRegion r { x with status := 4, fails := 0 } with rollback := max b.rollback (leAt x.bytes 6 2) } else b
        | none => b
      let s := publishImages (({ s with boot := b }.set Ob.Isl.SAFETY_CRC (safetyCrc s)).modPair fun p => { p with since := s.now })
      let s := judgeConfig s
      let s := sendHello s true
      if s.flag Ob.PairC.PAIR_ENABLE = false then kickAll s ids
      else if s.pair.yieldIn then s.set Ob.Pair.ROLE 3
      else decideRole s ids)

/-! ### Power states (R399 to R402) -/

/-- A condition for PLAY holds (Table 16-6). -/
def playCondition (s : State) : Bool :=
  ((List.range 4).any fun r => let st := s.get Ob.Ring.STATE r; decide ((1 ≤ st ∧ st ≤ 5) ∨ st = 7)) ||
  ((List.range 256).any fun a => decide (s.get Ob.Map.RING a = 4)) ||
  decide (s.get Ob.Pair.ROLE = 2 ∧ s.get Ob.Pair.PAIR_STATE ≠ 0)

/-- POWER_STATE_CHANGE: the power-state machine follows the condition (R399). -/
def execPowerStateChange (t : Nat) (s : State) : Host.Outcome State Fault Refusal := whileOn s t <|
  let s := s.at t
  .next (if s.get Ob.Pow.POWER_STATE = 2 ∨ s.get Ob.Pow.POWER_STATE = 3 then s.put1 Ob.Pow.POWER_STATE (if playCondition s then 3 else 2) else s)

/-- POWER_REQUEST written (R400); STANDBY follows the acknowledgement. -/
def powerRequestWrite (s : State) : Act :=
  let ring := (List.range 4).any fun r => decide (s.get Ob.Ring.STATE r ≠ 0 ∧ s.get Ob.Ring.STATE r ≠ 6)
  let axes := (List.range 256).any fun a => (s.axis a).mot.state.powered
  let pair := s.flag Ob.PairC.PAIR_ENABLE && decide (s.get Ob.Pair.PAIR_STATE ≠ 0 ∧ s.get Ob.Pair.PAIR_STATE ≠ 4)
  if ring || axes || pair then (s, stState) else (s.modBoot fun b => { b with standbyDue := true }, stOk)

/-- The unit goes to STANDBY (R400): the referee's safe state, the link stopped, mailbox messages dropped, the domains off. -/
def toStandby (s : State) : State :=
  let s := dieSafe (safeHold ((s.set Ob.Isl.RF_STATE 0).modSafe fun f => { f with ready := false, tested := false, beatAt := none }))
  let s := forBelow 15 (fun x s => resetEndpoint s x) s
  let s := publishAces (forBelow 8 (fun e s => s.modAce e fun a => { a with powered := false }) s)
  (s.modBoot fun b => { b with standby := true }).set Ob.Pow.POWER_STATE 1

/-- What an acknowledged RESET_UNIT or POWER_REQUEST starts. -/
def actAfterReply (s : State) : State :=
  if s.boot.resetDue then resetTo s 4
  else if s.boot.standbyDue then toStandby (s.modBoot fun b => { b with standbyDue := false })
  else s

/-- A command answered by itself whose action follows its acknowledgement. -/
def answerThen (r : Act) : Host.Outcome State Fault Refusal := .next (actAfterReply (r.1.emit (.reply 0xFF 0 r.2 [])))

/-- RESET_UNIT (0x1010.02). -/
def execResetUnit (t : Nat) (s : State) : Host.Outcome State Fault Refusal := whileOn s t <| answerThen (kept Ob.Rst.RESET_UNIT 1 (resetUnitWrite (s.at t)))

/-- POWER_REQUEST (0x1300.02). -/
def execPowerRequest (t : Nat) (s : State) : Host.Outcome State Fault Refusal := whileOn s t <| answerThen (kept Ob.Pow.POWER_REQUEST 1 (powerRequestWrite (s.at t)))

/-- A wake from STANDBY by a source (R401): a power-on reset of every domain but always-on. -/
def wakeUnit (s : State) (src : Nat) : State :=
  if s.boot.standby = false ∨ s.boot.off = true then s else
    let k := s.boot.held
    let s := (resetTo s 2).set Ob.Pow.WAKE_SOURCE src
    if k = 0 then releaseReset s else holdReset s k

/-- WAKE_N: the pin has been low for `low` ns since its falling edge (R401). -/
def execWakeN (low t : Nat) (s : State) : Host.Outcome State Fault Refusal :=
  let s := s.at t
  .next (if low < 100000 then s else wakeUnit s 1)

/-- WAKE_AT: time of day judged against WAKE_AT (R401). -/
def execWakeAt (t : Nat) (s : State) : Host.Outcome State Fault Refusal :=
  let s := s.at t
  .next (if s.get Ob.Pow.WAKE_AT ≠ 0 ∧ s.get Ob.Pow.WAKE_AT ≤ todAt s s.now then wakeUnit s 2 else s)

/-- ACE_POWER_GATE: engine `e` judged (R402): in PLAY without an assigned axis, GATE_IDLE after its work ended, no item, no message, no
outstanding XLD. Its SRAM and registers keep their contents, on which the spec is silent (assumption log 189). -/
def execAcePowerGate (e t : Nat) (s : State) : Host.Outcome State Fault Refusal := whileOn s t <|
  let s := s.at t
  let x := s.ace e
  let holds := decide (s.get Ob.Pow.POWER_STATE = 3) && !(engineAxes s e).isEmpty
  let work := (s.eng e).run.isSome || s.disp.ready.any fun i => bit i.mask e
  .next (if 8 ≤ e ∨ x.powered = false ∨ holds = true ∨ work = true ∨ (s.ep (5 + e)).pending ≠ 0 ∨ x.xld.isEmpty = false ∨
      s.now < x.idleFrom + s.nat Ob.Pow.GATE_IDLE * 1000 then s
    else publishAces (s.modAce e fun a => { a with powered := false, waking := false }))

/-- ACE_WAKE: engine `e` is powered after a post's wake event (R402). -/
def execAceWake (e t : Nat) (s : State) : Host.Outcome State Fault Refusal := whileOn s t <|
  let s := s.at t
  .next (if e < 8 ∧ (s.ace e).waking = true then wakeEngine s e else s)

/-! ### Temperature (R452) -/

/-- LIMIT judged: TJ at 130 °C or more for 10 ms (R452). -/
def judgeThermal (s : State) : State :=
  match s.boot.hot with
  | some t0 =>
    if s.get Ob.Therm.THERMAL_STATE = 2 ∨ s.now < t0 + 10000000 then s else
      let s := s.set Ob.Therm.THERMAL_STATE 2
      if standbyEligible s || isStandby s then reactUnit s
      else
        -- the reaction UNIT in a pair without an eligible standby (R185)
        let s := if s.get Ob.Pair.ROLE = 1 ∧ s.flag Ob.PairC.PAIR_ENABLE = true then s.count Ob.Pair.TAKEOVER_BLOCKED else s
        forBelow 256 (fun a s => if (s.axis a).mot.state = .enabled then react s a 2 else s) s
  | none => s

/-- THERMAL_SAMPLE: the sensors of the logic die in °C, every 1 ms (R452). -/
def execThermalSample (temps : List Int) (t : Nat) (s : State) : Host.Outcome State Fault Refusal :=
  let s := s.at t
  .next (if s.boot.standby = true ∨ s.boot.off = true then s else match temps with
    | [] => s
    | x :: l =>
      let tj := l.foldl max x
      let put (s : State) : State := ((s.set Ob.Therm.TJ tj).set Ob.Therm.TJ_PEAK (if s.boot.sampled then max tj (s.get Ob.Therm.TJ_PEAK) else tj)).modBoot
        fun b => { b with sampled := true }
      if s.boot.held = 2 then (if tj < 115 then put (releaseReset s) else put s)
      else if 145 ≤ tj then holdReset (put (resetTo (faultRecord s 2 tj.toNat) 1)) 2
      else
        let s := (put s).modBoot fun b => { b with hot := if 130 ≤ tj then some (b.hot.getD s.now) else none }
        let w := s.get Ob.Therm.TJ_WARN
        let st := s.get Ob.Therm.THERMAL_STATE
        let s := if st = 2 ∧ tj < 125 then s.set Ob.Therm.THERMAL_STATE 1
          else if st = 0 ∧ w ≤ tj then (s.set Ob.Therm.THERMAL_STATE 1).warn 452 0 1
          else if st = 1 ∧ tj < w - 5 then s.set Ob.Therm.THERMAL_STATE 0 else s
        judgeThermal s)

/-- THERMAL_LIMIT judged (R452). -/
def execThermalLimit (t : Nat) (s : State) : Host.Outcome State Fault Refusal := whileOn s t <| .next (judgeThermal (s.at t))

/-- CLEAR_TJ_PEAK written (Table 19-19). -/
def clearPeakWrite (s : State) : Act := (s.set Ob.Therm.TJ_PEAK (s.get Ob.Therm.TJ), stOk)

/-- CLEAR_TJ_PEAK (0x1301.06). -/
def execClearTjPeak (t : Nat) (s : State) : Host.Outcome State Fault Refusal := whileOn s t <| answer (kept Ob.Therm.CLEAR_TJ_PEAK 1 (clearPeakWrite (s.at t)))

end Sys2Proof.Machine
end

