-- ==== Sys2Proof/Machine/Pair.lean ====
section
/-! DEFINITION. The redundant pair (R150 to R152, R367 to R386): roles, pairing, lockstep, switch-over, drills, split rings. -/

namespace Sys2Proof.Machine

/-! ### Roles and pairing (R369 to R371) -/

/-- A pairing fails (R371): the standby is LONELY, the active unit has no partner; a WARN event. -/
def pairingFails (s : State) : State :=
  (((s.set Ob.Pair.PAIR_STATE (if s.get Ob.Pair.ROLE = 1 then 0 else 4)).modPair fun p => { p with step := 0, resync := [] }).warn 371 0 s.pair.step)

/-- Pairing starts from step 1 (Table 15-1): an alone unit that runs becomes the active one. -/
def startPairing (s : State) : State :=
  let s := if s.get Ob.Pair.ROLE = 0 then s.set Ob.Pair.ROLE 1 else s
  (s.set Ob.Pair.PAIR_STATE 1).modPair fun p => { p with step := 1 }

/-- Step 1 is over where the partner's HELLO is known (Table 15-1): END_CONFLICT fails it. -/
def helloDone (s : State) : State :=
  match s.pair.partner with
  | none => s
  | some (_, _, e) => if e = s.nat Ob.PairC.UNIT_END then pairingFails s else toStepTwo s

/-- HELLO from the partner: its SERIAL, PAIR_PRIORITY and UNIT_END, whether its start-up self-test has passed and whether it reports a restart; `ids` as at
start-up. -/
def execHello (serial prio end_ : Nat) (tested restarted : Bool) (ids : List (List Byte)) (t : Nat) (s : State) : Host.Outcome State Fault Refusal := whileOn s t <|
  let s := s.at t
  .next (if s.flag Ob.PairC.PAIR_ENABLE = false then s
    else
      let first := s.pair.partner.isNone || !s.benchUp
      let s := ({ s with benchUp := true }.set Ob.Pair.PARTNER_SERIAL serial).modPair fun p =>
        { p with partner := some (serial, prio, end_), benchLost := none, yieldOut := p.yieldOut && !tested }
      let s := carryPosts (if restarted then partnerReset s else s)
      let s := if first then sendHello s else s
      let role := s.get Ob.Pair.ROLE
      let st := s.get Ob.Pair.PAIR_STATE
      if s.boot.configured = false then s
      else if role = 0 ∧ s.get Ob.Rst.START_STATE = 2 then decideRole s ids
      else if role = 3 then s
      else if st = 1 ∧ s.pair.step = 1 then helloDone s
      else if st = 0 ∨ st = 4 then helloDone (startPairing s)
      else s)

/-- PAIR_WAIT elapsed without a HELLO (R369): the unit kicks off alone. -/
def execPairWait (ids : List (List Byte)) (t : Nat) (s : State) : Host.Outcome State Fault Refusal := whileOn s t <|
  let s := s.at t
  .next (if s.flag Ob.PairC.PAIR_ENABLE = true ∧ s.boot.configured = true ∧ s.get Ob.Pair.ROLE = 0 ∧ s.get Ob.Rst.START_STATE = 2 ∧ s.pair.partner = none ∧
      s.pair.since + s.nat Ob.PairC.PAIR_WAIT * 1000000 ≤ s.now then kickAll s ids else s)

/-- PAIR written (Table 15-8): pairing from NO_PARTNER or LONELY, a full resync from SUSPECT; STATE otherwise. -/
def pairWrite (s : State) : Act :=
  let st := s.get Ob.Pair.PAIR_STATE
  if s.flag Ob.PairC.PAIR_ENABLE = false then (s, stState)
  else if st = 0 ∨ st = 4 then (helloDone (sendHello (startPairing s)), stOk)
  else if st = 5 then
    (benchSend ((s.set Ob.Pair.PAIR_STATE 3).modPair fun p =>
      { p with agree := [0, 0, 0, 0], resync := (List.range 256).filter fun a => decide (s.kindOf a ≠ 0) }) 4 [5], stOk)
  else (s, stState)

/-- PAIR (0xA002.01). -/
def execPairStart (t : Nat) (s : State) : Host.Outcome State Fault Refusal := whileOn s t <| answer (kept Ob.PairX.PAIR 1 (pairWrite (s.at t)))

/-- Objects that belong to a unit and are not mirrored (R367). -/
def unitSpecific : List Obj := [Ob.PairC.UNIT_END, Ob.Poss.UNIT_IP, Ob.Ident.DEVICE_NAME]

/-- Stored records in octets (Table 05-8), at most `n`; a record of another type or length ends the list. -/
def parseRecords : Nat → List Byte → SMap Val
  | 0, _ => []
  | n + 1, b =>
    let len := leAt b 4 4
    if b.length < 8 + len then [] else
      let rest := parseRecords n (b.drop (8 + (len + 3) / 4 * 4))
      match rowOf (leAt b 0 2 * 256 + leAt b 2 1) with
      | some o => match valOf o.ty ((b.drop 8).take len) with
        | some v => if o.ty.code = leAt b 3 1 then (leAt b 0 2 * 256 + leAt b 2 1, v) :: rest else rest
        | none => rest
      | none => rest

/-- The mirrored records in force: every stored object but the unit-specific ones (R367, R371). -/
def mirroredRecords (s : State) : SMap Val := (storedRecords s).filter fun e => !((rowOf e.1).any fun o => unitSpecific.contains o)

/-- Step 2 at the standby (Table 15-1): the active unit's records applied as one commit, then their CRC and SAFETY_CRC compared. -/
def mirrorStep (s : State) (recs : List Byte) (crc safety : Nat) : State × Bool :=
  let l := (usableRecords ((parseRecords recs.length recs).filter fun e => !((rowOf e.1).any fun o => unitSpecific.contains o))).1
  match applyRecords s l with
  | (s, none) => (publishSafetyCrc s, decide (crc32 (imageBytes (mirroredRecords s)) = crc ∧ safetyCrc s = safety))
  | (s, some _) => (s, false)

/-- Step 4 (Table 15-1): the active unit rejoins worker N where it turns frames; the standby terminates the rings and turns frames. -/
def ringStep (s : State) : State :=
  forBelow 4 (fun r s =>
    if s.flag Ob.Ring.ENABLE r = false then s
    else if isStandby s then
      if s.get Ob.Ring.STATE r = 5 then s
      else
        let s := (s.set Ob.Ring.STATE 5 r).modRing r fun q => { q with txOn := false, tx := none, missRun := 0, lost := false, returned := false }
        forBelow (s.nWorkers r) (fun i s => s.modWk r (i + 1) fun w => { w with admitted := true }) s
    else if s.inPlay r = true ∧ s.nat Ob.Ring.LOOPBACK_AT r = s.nWorkers r ∧ 0 < s.nWorkers r then startRejoin s r (s.nWorkers r)
    else s) s

/-- The mirror filled by the active unit (R150, Table 15-1 step 5). -/
def fillMirror (s : State) : State :=
  if s.get Ob.Pair.ROLE ≠ 1 then s else
    let s := forList (openSessions s) (fun k s => mirrorSess s k) s
    let s := mirror (mirror (mirrorPoss s 0) (.staged s.staged)) (.commit s.com)
    let s := forBelow 8 (fun k s => if s.get Ob.Mst.TYPE k = 1 then mirror s (.pieces k (s.master k)) else s) s
    let s := forBelow 4 (fun r s => if s.inPlay r then forBelow (measuredPositions s r) (fun i s =>
      let k := (s.wk r (i + 1)).clk
      mirror s (.segment r (wireSegment s r (i + 1)) k.d (i + 1) k.fwd)) s else s) s
    mirror s (.placement (s.od.filter fun e => (rowOf e.1).any fun o => decide (o = Ob.Cam.FIRST_SEGMENT)))

/-- PAIRING_STEP_COMPLETE: the step of Table 15-1 in progress has completed (`ok`) or failed. `recs`, `crc` and `safety` are what step 2 brings to the
standby: the active unit's records, their CRC and its SAFETY_CRC. -/
def execPairingStepComplete (ok : Bool) (recs : List Byte) (crc safety t : Nat) (s : State) : Host.Outcome State Fault Refusal := whileOn s t <|
  let s := s.at t
  let next (s : State) : State := s.modPair fun p => { p with step := p.step + 1 }
  -- the standby pairs once the active unit's rings are in PLAY (R369)
  let early := s.pair.step = 2 ∧ isStandby s = false ∧ ((List.range 4).any fun r => decide (1 ≤ s.get Ob.Ring.STATE r ∧ s.get Ob.Ring.STATE r ≤ 4)) = true
  .next (if s.get Ob.Pair.PAIR_STATE ≠ 1 ∨ s.pair.step = 0 ∨ early then s
    else if ok = false then pairingFails s
    else match s.pair.step with
      | 1 => helloDone s
      | 2 =>
        if isStandby s then
          let (s', pass) := mirrorStep s recs crc safety
          if pass then next s' else pairingFails s'
        else next s
      | 3 => if isStandby s = true ∧ s.get Ob.Sby.BENCH_ALIGN_STATE ≠ 2 then pairingFails s else next s
      | 4 => fillMirror ((next (ringStep s)).modPair fun p => { p with resync := (List.range 256).filter fun a => decide (s.kindOf a ≠ 0), agree := [0, 0, 0, 0] })
      | 5 => if isStandby s = true ∧ s.pair.resync ≠ [] then s else next s
      | _ => judgeInStep s)

/-! ### Lockstep (R372 to R375) -/

/-- DIGEST: the partner's record (Table 15-3); one whose CHECK is wrong is not used. -/
def execDigest (b : List Byte) (t : Nat) (s : State) : Host.Outcome State Fault Refusal := whileOn s t <|
  let s := s.at t
  let r := leAt b 0 1
  let n := leAt b 4 4
  .next (if b.length ≠ 32 ∨ 4 ≤ r ∨ leAt b 28 4 ≠ crc32c (slice b 0 28) then s
    else
      let s := s.modPair fun p => { p with theirs := (r, n, b) :: (p.theirs.filter fun e => decide (e.1 ≠ r)) ++ (p.theirs.filter fun e => decide (e.1 = r)).take 1 }
      compareDigest s r n)

/-- STATE: the live state of axis `a` as written back in cycle `k` (R375): installed before the axis's item of whistle k + 1 is dispatched, discarded after. -/
def execStateRecord (a k : Nat) (x : Machine.AxisRt) (t : Nat) (s : State) : Host.Outcome State Fault Refusal := whileOn s t <|
  let s := s.at t
  let own := s.axis a
  let q := s.ring (s.axisRing a)
  let inTime := (decide (q.cycle = k) && !q.open_) || (decide (q.cycle = (k + 1) % 2 ^ 32) && own.waiting.isSome && !axisRuns s a)
  .next (if isStandby s = false ∨ 256 ≤ a ∨ inTime = false then s
    else
      publishState ((s.setAxis a { x with waiting := own.waiting, undoneWhy := own.undoneWhy }).modPair fun p =>
        { p with resync := p.resync.filter (· ≠ a) }) a)

/-- INPUTS: field inputs with validity, the path commands of the active unit's local brakes (R379), counts and speeds of the master encoders, and latch events
(unit, t_e, position, fraction) bound to axes (R372). -/
def execInputsRecord (fi valid brakes : Nat) (counts : List Nat) (speeds : List Int) (lats : List (Nat × Nat × Int × Nat)) (t : Nat) (s : State) :
    Host.Outcome State Fault Refusal := whileOn s t <|
  let s := s.at t
  .next (if isStandby s = false then s
    else
      let s := s.modPair fun p => { p with inputs := (fi, valid), brakes := if p.brakes.1 = brakes % 2 ^ 16 then p.brakes else (brakes % 2 ^ 16, s.now) }
      let s := forBelow 4 (fun k s =>
        let u := 8 + k
        if unitMode s u = 0 then s else
          let f := s.fbu u
          let c := lowBits 32 ((counts.getD k 0 : Nat) : Int)
          ((s.setFbu u { f with abs := { f.abs with raw0 := c, spd0 := speeds.getD k 0, readyAt := some s.now } }).set Ob.Fb.COUNT c (fbIx u)).set Ob.Fb.SPEED (speeds.getD k 0) (fbIx u)) s
      forList lats (fun e s => latchAxes s e.1 { t := e.2.1, falling := false, cnt := e.2.2.1, frac := e.2.2.2, seqNo := 0 }) s)

/-- Objects that a MIRROR record brings, installed where they stand at an index. -/
def installObjects (s : State) (l : SMap Val) (f : Nat → Bool) : State := forList (l.filter fun e => f (e.1 / 256)) (fun e s => s.putVal e.1 e.2) s

/-- SESSION_COUNT as it stands. -/
def countSessions (s : State) : State := s.put1 Ob.Poss.SESSION_COUNT (openSessions s).length

/-- A mirrored session installed (R150). The unit's own session of that id, where there is one, closes (assumption log 168). -/
def installSession (s : State) (k : Nat) (x : SessRt) (objs : SMap Val) : State :=
  let s := if (s.sess k).own then closeSession s k 3 else s
  countSessions (installObjects (s.setSess k { x with own := false }) objs fun i => decide (i = 0x1110 + k))

/-- Possession as the active unit tells it (R150): the unit's own sessions hear of a change (R141). -/
def installPossession (s : State) (away : Bool) (cause looseAt : Nat) (first : Option Nat) (objs : SMap Val) : State :=
  let was := (s.get Ob.Poss.CAPTAIN, s.host.away)
  let s := countSessions (installObjects { s with host := { s.host with away := away, looseAt := looseAt, firstClaim := first } } objs fun i => decide (i = 0x1100))
  if (s.get Ob.Poss.CAPTAIN, s.host.away) = was then s else notifyPossession s cause

/-- MIRROR record `n` at the standby (R150, R372): installed, then acknowledged. -/
def execMirrorRecord (n : Nat) (m : Mirror) (t : Nat) (s : State) : Host.Outcome State Fault Refusal := whileOn s t <|
  let s := s.at t
  .next (if isStandby s = false then s
    else
      let s := match m with
        | .session k x objs => installSession s k x objs
        | .possession away cause looseAt first objs => installPossession s away cause looseAt first objs
        | .staged l => putStaged s l
        | .commit k => expectTags s.com.phase ((({ s with com := k }).set Ob.Com.COMMIT_STATE k.phase).set Ob.Com.LAST_TAG k.tag)
        | .pieces k x => s.setMaster k x
        | .placement objs => installObjects s objs fun _ => true
        | .segment r g d p fwd =>
          { s with time := { s.time with segD := SMap.put s.time.segD (r * 128 + g) d, segF := if p ≤ s.nWorkers r then SMap.put s.time.segF (r * 128 + p) fwd else s.time.segF } }
      benchSend s 10 [(n : Int)])

/-- Statuses of single writes that waited for the standby sent. -/
def sendLone (s : State) (l : List (Nat × Nat)) : State := forList l (fun h s => s.emit (.reply 0xFF 0 h.2 [])) s

/-- MIRROR_ACK: the standby has acknowledged the records up to `n` (R150, R373, R380): held replies go out, CONFIRM may be sent. -/
def execMirrorAck (n t : Nat) (s : State) : Host.Outcome State Fault Refusal := whileOn s t <|
  let s := s.at t
  let due := s.pair.held.filter fun h => decide (h.1 ≤ n)
  let s := s.modPair fun p =>
    { p with held := p.held.filter fun h => decide (n < h.1), confirmWait := match p.confirmWait with | some k => if k ≤ n then none else some k | none => none }
  let lone := s.pair.lone.filter fun h => decide (h.1 ≤ n)
  let s := s.modPair fun p => { p with lone := p.lone.filter fun h => decide (n < h.1) }
  let s := sendLone (forList due (fun h s => sendReply s h.2.1 h.2.2) s) lone
  .next (if due.isEmpty ∧ lone.isEmpty then s else actAfterReply s)

/-- EMIT: a frame of ring `r` has left the active unit (R381). -/
def execEmitRecord (r cycle len t : Nat) (s : State) : Host.Outcome State Fault Refusal := whileOn s t <|
  let s := s.at t
  .next (if isStandby s = false ∨ 4 ≤ r ∨ cycle ≠ (s.ring r).cycle ∨ len = 0 then s else s.modPair fun p => { p with emitAt := p.emitAt.set r (some s.now) })

/-- REGIONS: the sample region of position `p` of split ring `r` as it landed at the partner in cycle `n` (R382); it counts as landed now. -/
def execRegionsRecord (r p n : Nat) (data : List Byte) (t : Nat) (s : State) : Host.Outcome State Fault Refusal := whileOn s t <|
  let s := s.at t
  .next (if isSplit s r = false ∨ n ≠ (s.ring r).cycle ∨ landingOpen s r p = false then s else landSamples s r p (s.ring r).sc data)

/-! ### Leaving the active role (R378) -/

/-- Own sessions of a unit close (R152, R378). -/
def closeOwn (s : State) : State := forList (openSessions s) (fun k s => if (s.sess k).own || decide (2 ≤ s.nat Ob.Sess.TRANSPORT k) then closeSession s k 3 else s) s

/-- Sessions at SERVICE_IP of a unit that is YIELDED are its partner's: they are no longer here, and nobody is told (R150). -/
def dropMirrored (s : State) : State :=
  let s := forList (openSessions s) (fun k s =>
    if (s.sess k).own then s else (((s.set Ob.Sess.STATE 0 k).set Ob.Sess.SUBSCRIPTIONS 0 k).set Ob.Sess.CLAIM_PRIORITY 0 k).setSess k {}) s
  countSessions (publishPoss (s.set Ob.Poss.CAPTAIN 0xFF))

/-- What a unit does that leaves the active role for `role` (R378): items cancelled or voided, its axes undone with cause FRAME, its sessions closed. -/
def leaveActive (s : State) (role : Int) : State :=
  let s := safetyClose (btAbort s)
  let s := forBelow 4 (fun r s =>
    if s.inPlay r = false then s
    else
      let s := forList (s.axesOn r) (fun a s =>
        if (s.axis a).waiting.isSome then s.modAxis a fun x => { x with undoneWhy := some 3 } else s) s
      let s := cancelItems s fun i => decide (i.prio ≤ 1 ∧ i.ring = r)
      let s := forBelow 8 (fun e s => match (s.eng e).run with
        | some g => if g.item.prio ≤ 1 ∧ g.item.ring = r then orderVoid s e 3 else s
        | none => s) s
      s.modRing r fun q => { q with txOn := false, tx := none }) s
  let s := s.modPair fun p => { p with held := [], lone := [], confirmWait := none }
  let s := closeOwn (sbcDemand ((huddleBreak s).set Ob.Pair.ROLE role))
  -- after a swap the clocks of the pair stay aligned (R94, assumption log 185)
  let s := if role = 2 then
      { s with time := { s.time with stepTaken := true, cross := [0, 0, 0, 0] } }.set Ob.Sby.BENCH_ALIGN_STATE 2 |>.modPair fun p => { p with told := (0, false) }
    else s
  if role = 3 then sendHello (dropMirrored ((s.set Ob.Pair.PAIR_STATE 0).modPair fun p => { p with step := 0, resync := [], agreedAt := none })) else s

/-- YIELD_IN: YIELD_IN_N asserted (R370, R378): the transmitters idle, PAIRED_DRIVE clears, a unit of a pair that has ended its configuration step is
YIELDED; one that has not takes that role with the end of the step (R433). Of two units that assert at once the one of
the higher SERIAL releases its line; the other keeps the yield. -/
def execYieldIn (t : Nat) (s : State) : Host.Outcome State Fault Refusal :=
  let s := (s.at t).modPair fun p => { p with yieldIn := true }
  .next (if unitRuns s = false then s
    else if s.pair.yieldOut = true ∧ (match s.pair.partner with | some (n, _, _) => decide (unitSerial < n) | none => false) = true then s
    else
      let s := s.modPair fun p => { p with yieldOut := false }
      let s := if s.flag Ob.PairC.PAIR_ENABLE = false ∨ s.boot.configured = false then s
        else if s.get Ob.Pair.ROLE ≤ 1 then leaveActive s 3 else s.set Ob.Pair.ROLE 3
      (forBelow 4 (fun r s => s.modRing r fun q => { q with txOn := false, tx := none }) s).modField fun f => { f with pairedDrive := false })

/-- YIELD_RELEASE: YIELD_IN_N released; a yielded unit takes ROLE STANDBY and continues pairing from step 2 (R433). -/
def execYieldRelease (t : Nat) (s : State) : Host.Outcome State Fault Refusal :=
  let s := (s.at t).modPair fun p => { p with yieldIn := false }
  .next (if unitRuns s = false ∨ s.get Ob.Pair.ROLE ≠ 3 then s else toStepTwo ((s.set Ob.Pair.ROLE 2).set Ob.Pair.PAIR_STATE 1))

/-- BENCH_LOCK_LOSS: the bench link has been out of lock since `since` (R376): after 2 cycles the standby is LONELY; the active unit has no partner. -/
def execBenchLockLoss (since t : Nat) (s : State) : Host.Outcome State Fault Refusal := whileOn s t <|
  let s := s.at t
  let s := { s with benchUp := false }.modPair fun p => { p with benchLost := some since }
  .next (if s.flag Ob.PairC.PAIR_ENABLE = false ∨ s.now < since + 2 * slowestNs s then publishEligible s
    else
      let s := s.modPair fun p => { p with partner := none, step := 0, resync := [], agreedAt := none }
      if isStandby s then publishEligible (s.set Ob.Pair.PAIR_STATE 4)
      else if s.get Ob.Pair.ROLE = 1 then
        -- replies that waited for the standby go out
        let due := s.pair.held
        let lone := s.pair.lone
        let s := s.modPair fun p => { p with held := [], lone := [], confirmWait := none }
        let s := actAfterReply (sendLone (forList due (fun h s => sendReply s h.2.1 h.2.2) s) lone)
        publishEligible ((s.set Ob.Pair.PAIR_STATE 0).warn 376 0 0)
      else s)

/-! ### Switch-over (R151, R377 to R380) -/

/-- Start of the cycle of ring `r` whose frame is the first that leaves at least 1 µs after the present instant (R378). -/
def firstEmission (s : State) (r : Nat) : Nat := emissionAfter s r (s.now + 999) - s.woff r - 500

/-- Whistles of ring `r` without fresh commands at a switch-over (R378): between the last frame that reached the port and the first that leaves. -/
def gapOf (s : State) (r : Nat) : Nat :=
  let tc := s.tcyc r
  match (s.ring r).seenAt with
  | some t => min 2 ((firstEmission s r - (t - Nat.min t (s.woff r)) / tc * tc) / tc - 1)
  | none => 2

/-- A commit in progress settled at a take-over (R380, Table 15-5). -/
def settleCommit (s : State) : State :=
  match s.com.phase with
  | 1 => (s.modCom fun k => { k with phase := 0 }).set Ob.Com.COMMIT_STATE 0
  | 2 => commitReject (s.modCom fun k => { k with tell := some (k.tag, k.applyAt, k.tp, false) }) stRejected 9 0
  | _ => s

/-- Paired brake channels at a take-over (R379): a channel whose axis requests release and whose readback shows it released closes on both paths at once. -/
def takeBrakes (s : State) : State :=
  forBelow 256 (fun a s =>
    let c := s.nat Ob.AxS.BRAKE_CHANNEL a
    if s.get Ob.AxS.BRAKE a = 1 ∧ bit (s.nat Ob.PairB.BRAKE_PAIRED) c = true ∧ mayRelease s a = true ∧ asksRelease s a = true ∧
        (match (s.sbc a).seenFree with | some x => decide (s.now ≤ x + 1000000) | none => false) = true then
      putSbc s a { s.sbc a with pathA := true, pathB := true, stagger := none, closing := false }
    else s) s

/-- A request of the window that was not replied to is executed afresh when the host retries it (R150); a commit that goes on is not (R380). -/
def openRequests (s : State) (k : Nat) : State :=
  s.modSess k fun x => { x with win := x.win.filter fun r => r.reply.isSome || decide (s.com.phase ≠ 0 ∧ s.com.sess = k ∧ s.com.seqNo = r.seqNo) }

/-- Sessions at a take-over (R150 to R152): mirrored leases restart, possession of a session that is not here is loose, every session is told. -/
def takeSessions (s : State) : State :=
  let s := forList ((openSessions s).filter fun k => !(s.sess k).own) (fun k s => openRequests (s.set Ob.Sess.LAST_RENEWED s.now k) k) s
  let c := s.nat Ob.Poss.CAPTAIN
  let s := if c < 16 ∧ (s.host.away = true ∨ sessOpen s c = false) then possessionTo s 0xFF 6 else notifyPossession s 6
  { s with host := { s.host with arpAt := [s.now, s.now + 100000000, s.now + 200000000, s.now + 300000000] } }

/-- The copied segment table taken for the new sender's own way over ring `r`, until its measurements replace it (R93, R95). -/
def adoptTable (s : State) (r : Nat) : State :=
  forBelow (measuredPositions s r) (fun i s => s.modWk r (i + 1) fun w =>
    { w with clk := { w.clk with d := SMap.getD s.time.segD (r * 128 + wireSegment s r (i + 1)) 0, fwd := SMap.getD s.time.segF (r * 128 + i + 1) 0, fwds := [], errs := [] } }) s

/-- The earliest common cycle start of the rings in PLAY at or after an instant. -/
def commonStart (s : State) (t : Nat) : Nat :=
  let l := (List.range 4).foldl (fun m r => if s.inPlay r then Nat.lcm m (s.tcyc r) else m) 1
  (t + l - 1) / l * l

/-- The standby becomes the active unit by a trigger of Table 15-4 (R378 to R380). -/
def takeOver (s : State) (trigger : Nat) : State :=
  let gap := (List.range 4).foldl (fun m r => if s.inPlay r then max m (gapOf s r) else m) 0
  let s := if trigger ≤ 3 ∧ s.pair.yieldIn = false then s.modPair fun p => { p with yieldOut := true } else s
  let s := ((s.set Ob.Pair.ROLE 1).set Ob.Pair.LAST_TRIGGER trigger).set Ob.Pair.LAST_SWITCH_TIME s.now
  let s := s.set Ob.Pair.LAST_GAP (if trigger = 4 then 0 else gap : Nat)
  let s := if trigger = 4 then s else s.count Ob.Pair.SWITCH_COUNT
  -- the first frame leaves at least 1 µs after the decision (R378), at the swap (R385), or at the next common cycle start (DRILL_BACK)
  let start := if trigger ≤ 3 then s.now + 1000 else if trigger = 5 then commonStart s (s.now + 1) else s.now
  let s := forBelow 4 (fun r s =>
    if s.inPlay r = false then s
    else
      -- regions of the preceding whistle that did not arrive are missing; the workers are measured from this end
      let s := if trigger = 4 ∨ (s.ring r).tw ≤ (s.ring r).seenAt.getD 0 then s else missFrame s r
      (adoptTable s r).modRing r fun q => { q with txOn := true, txFrom := start, tx := none, stamp := none, stampNew := none, missRun := 0, delayAt := 0, delayNext := 1 }) s
  -- the bound of an active unit's RATE_ADJ holds from here on (R98)
  let s := s.set Ob.Clk.RATE_ADJ (clampInt (s.get Ob.Clk.RATE_ADJ) (-rateBound) rateBound)
  let s := takeBrakes (settleCommit (safetyClose (btAbort (huddleBreak s))))
  -- the partner that has yielded pairs anew (R378, R433); after a failed drill the standby is SUSPECT (R385)
  let s := if trigger ≤ 3 then (s.set Ob.Pair.PAIR_STATE 0).modPair fun p => { p with partner := none, step := 0, resync := [], agreedAt := none, peer := (0, false) }
    else if trigger = 5 then s.set Ob.Pair.PAIR_STATE 5 else s
  publishEligible (takeSessions s)

/-- A trigger found by a standby (R376, R377): it takes over where it is eligible, else the trigger is counted. -/
def trigger (s : State) (k : Nat) : State :=
  if isStandby s = false then s
  else if eligibleNow s then takeOver s k else s.count Ob.Pair.TAKEOVER_BLOCKED

/-- A ring in PLAY whose port no frame has reached since the whistle `k` cycles before that of the cycle in progress. -/
def silentRing (s : State) (k r : Nat) : Bool := let q := s.ring r; decide (q.seenAt.getD 0 + k * q.tc < q.tw)

/-- ACTIVE_LOST: the first frame is missing at the port, and both bench lanes have been out of lock since `since` (Table 15-4). -/
def execActiveLost (since t : Nat) (s : State) : Host.Outcome State Fault Refusal := whileOn s t <|
  let s := s.at t
  .next (if s.now < since + 1000 ∨ ((ringsPlaying s).any fun r => silentRing s 0 r) = false then s else trigger s 1)

/-- ACTIVE_STALL: no frame on any ring in two cycles in a row, with the bench link up (Table 15-4). -/
def execActiveStall (t : Nat) (s : State) : Host.Outcome State Fault Refusal := whileOn s t <|
  let s := s.at t
  .next (if s.benchUp = true ∧ ringsPlaying s ≠ [] ∧ ((ringsPlaying s).all fun r => silentRing s 1 r) = true then trigger s 2 else s)

/-- ACTIVE_REQUEST: the active unit's role request has arrived (Table 15-4). -/
def execActiveRequest (t : Nat) (s : State) : Host.Outcome State Fault Refusal := whileOn s t <| .next (trigger (s.at t) 3)

/-- GRATUITOUS_ARP: the ARPs for SERVICE_IP that are due leave H1 and H2 (R151). -/
def execGratuitousArp (t : Nat) (s : State) : Host.Outcome State Fault Refusal := whileOn s t <|
  let s := s.at t
  let due := s.host.arpAt.filter fun x => decide (x ≤ s.now)
  let ip := s.get Ob.Poss.SERVICE_IP
  .next (if due.isEmpty then s else ({ s with host := { s.host with arpAt := s.host.arpAt.filter fun x => decide (s.now < x) } }.emit (.packet 0 11 [0, ip])).emit (.packet 0 11 [1, ip]))

/-! ### Drills (R385) -/

/-- DRILL written (R385). -/
def drillWrite (s : State) : Act :=
  let busy := s.com.phase ≠ 0 ∨ s.hud.active = true ∨ s.safe.test.isSome = true ∨
    ((List.range 4).any fun r => decide (s.get Ob.Ring.REJOIN_STATE r ≠ 0 ∨ s.get Ob.PairX.SPLIT_STATE 0 0 r ≠ 0)) = true
  if standbyEligible s = false ∨ s.pair.peer.1 ≠ 2 ∨ busy then (s.set Ob.PairX.DRILL_STATE 4, stState)
  else
    let d := commonStart s (s.now + s.nat Ob.PairC.DRILL_LEAD * slowestNs s)
    let s := ((s.set Ob.PairX.DRILL_STATE 1).set Ob.PairX.DRILL_AT d).modPair fun p => { p with drill := some (d, true) }
    (benchSend s 4 [2, (d : Int)], stOk)

/-- DRILL (0xA002.02). -/
def execDrill (t : Nat) (s : State) : Host.Outcome State Fault Refusal := whileOn s t <| answer (kept Ob.PairX.DRILL 1 (drillWrite (s.at t)))

/-- DRILL_SWAP: the swap instant (R385): the active unit becomes the standby, the standby the active unit. -/
def execDrillSwap (t : Nat) (s : State) : Host.Outcome State Fault Refusal := whileOn s t <|
  let s := s.at t
  .next (match s.pair.drill with
    | some (d, was) =>
      if s.now < d ∨ s.get Ob.PairX.DRILL_STATE ≠ 1 then s
      else if was = true ∧ s.get Ob.Pair.ROLE = 1 then leaveActive s 2
      else if was = false ∧ isStandby s = true then takeOver s 4
      else s
    | none => s)

/-- DRILL_BACK: the first two frames of a ring from the new active unit have failed (R385): it becomes a SUSPECT standby, the old active unit resumes. -/
def execDrillBack (t : Nat) (s : State) : Host.Outcome State Fault Refusal := whileOn s t <|
  let s := s.at t
  .next (match s.pair.drill with
    | some (_, was) =>
      let done (s : State) : State := (s.set Ob.PairX.DRILL_STATE 3).modPair fun p => { p with drill := none }
      if s.get Ob.PairX.DRILL_STATE ≠ 1 then s
      else if was = false ∧ s.get Ob.Pair.ROLE = 1 then done ((leaveActive s 2).set Ob.Pair.PAIR_STATE 5)
      else if was = true ∧ isStandby s = true then done (takeOver s 5)
      else s
    | none => s)

/-! ### Split rings (R381 to R384) -/

/-- SPLIT_START: no frame of ring `r` has started at the standby's port while EMIT records arrive and the port is synchronised (R381). -/
def execSplitStart (r t : Nat) (s : State) : Host.Outcome State Fault Refusal := whileOn s t <|
  let s := s.at t
  let q := s.ring r
  let told := match s.pair.emitAt.getD r none with | some e => decide (q.tw ≤ e) | none => false
  .next (if isStandby s = false ∨ s.inPlay r = false ∨ told = false ∨ q.syncLost.isSome = true ∨ q.tw ≤ q.seenAt.getD 0 ∨ s.get Ob.PairX.SPLIT_STATE 0 0 r ≠ 0 then s
    else if s.get Ob.PairX.SPLIT_MARGIN < 0 then publishEligible (if s.get Ob.Pair.PAIR_STATE = 2 then s.set Ob.Pair.PAIR_STATE 3 else s)
    else benchSend ((s.set Ob.PairX.SPLIT_STATE 1 0 0 r).modRing r fun q => { q with txOn := true, txFrom := s.now + 1000, tx := none }) 4 [3, (r : Int), 0])

/-- HEAL of a ring written (R384): STATE unless it is split and every axis beyond the cut is DISABLED. -/
def healWrite (s : State) (r : Nat) : Act :=
  let j := s.nat Ob.PairX.SPLIT_AT 0 0 r
  let rest := (s.axesOn r).filter fun a => decide (j < s.nat Ob.Map.WORKER a)
  if isSplit s r = false ∨ (rest.any fun a => decide ((s.axis a).mot.state ≠ .disabled)) = true then (s, stState)
  else
    let s := (s.set Ob.PairX.SPLIT_STATE 2 0 0 r).modPair fun p => { p with healAt := p.healAt.set r (some (s.now + 100000000)) }
    (benchSend s 4 [6, (r : Int)], stOk)

/-- HEAL (0xA003.09 to .0C). -/
def execHealRing (r t : Nat) (s : State) : Host.Outcome State Fault Refusal := whileOn s t <| answer (kept Ob.PairX.HEAL 1 (healWrite (s.at t) r) 0 0 r)

/-- HEAL_REJOIN: 100 ms after HEAL the active unit runs the rejoin from LOOPBACK_AT = j (R384). -/
def execHealRejoin (r t : Nat) (s : State) : Host.Outcome State Fault Refusal := whileOn s t <|
  let s := s.at t
  .next (match s.pair.healAt.getD r none with
    | some h =>
      if s.now < h ∨ s.get Ob.PairX.SPLIT_STATE 0 0 r ≠ 2 then s
      else
        let s := s.modPair fun p => { p with healAt := p.healAt.set r none }
        if s.get Ob.Pair.ROLE = 1 then startRejoin s r (s.nat Ob.PairX.SPLIT_AT 0 0 r) else s
    | none => s)

/-- REQUEST: a request of the partner (Table 15-2): 1 a role request, 2 a drill announced for instant `v`, 3 ring `v` splits at `w`, 4 the split of ring `v`
has ended, 5 a full resync, 6 ring `v` heals, 7 the standby's BENCH_ALIGN_STATE `v` and readiness `w` (assumption log 185). -/
def execPairRequest (k v w t : Nat) (s : State) : Host.Outcome State Fault Refusal := whileOn s t <|
  let s := s.at t
  .next (match k with
    | 1 => trigger s 3
    | 2 => if isStandby s then ((s.set Ob.PairX.DRILL_STATE 1).set Ob.PairX.DRILL_AT v).modPair fun p => { p with drill := some (v, false) } else s
    | 3 =>
      if 4 ≤ v then s else
        let s := s.set Ob.PairX.SPLIT_STATE 1 0 0 v
        let j := s.get Ob.Ring.LOOPBACK_AT v
        let s := if isStandby s then s.set Ob.PairX.SPLIT_AT w 0 0 v else benchSend (s.set Ob.PairX.SPLIT_AT j 0 0 v) 4 [3, (v : Int), j]
        -- with j = N the far half is empty and the standby sends nothing
        if isStandby s = true ∧ w = s.nWorkers v then s.modRing v fun q => { q with txOn := false } else s
    | 4 =>
      if 4 ≤ v then s else
        let s := (s.set Ob.PairX.SPLIT_STATE 0 0 0 v).modRing v fun q => { q with txOn := q.txOn && !isStandby s }
        if isStandby s = true ∧ s.get Ob.Pair.PAIR_STATE = 2 then publishEligible (s.set Ob.Pair.PAIR_STATE 3) else s
    | 5 => (s.set Ob.Pair.PAIR_STATE 3).modPair fun p => { p with agree := [0, 0, 0, 0], resync := (List.range 256).filter fun a => decide (s.kindOf a ≠ 0) }
    | 6 =>
      if 4 ≤ v then s else
        -- the standby stops sending on the ring (R384)
        let s := (s.set Ob.PairX.SPLIT_STATE 2 0 0 v).modRing v fun q => { q with txOn := q.txOn && !isStandby s }
        s.modPair fun p => { p with healAt := p.healAt.set v (some (s.now + 100000000)) }
    | 7 => if s.get Ob.Pair.ROLE = 1 then publishEligible (s.modPair fun p => { p with peer := (v, decide (w ≠ 0)) }) else s
    | _ => s)

end Sys2Proof.Machine
end

