-- ==== Sys2Proof/Machine/Writes.lean ====
section
/-! DEFINITION. Writes to objects: the checks of every write, staging, and what each object written at once does (R105, R106, R109 to R111, R130,
R136). -/

namespace Sys2Proof.Machine

/-- An entry of a WRITE (Table 06-5): object, type code, OFFSET and TOTAL of a segment, value bytes. -/
structure WriteEntry where
  idx : Nat
  sub : Nat
  ty : Nat
  seg : Option (Nat × Nat) := none
  val : List Byte := []
deriving DecidableEq, Repr

/-- `n` entries from the front of a WRITE's body, padding included; none where they overrun it. -/
def writeEntries : Nat → List Byte → Option (List WriteEntry)
  | 0, _ => some []
  | n + 1, b =>
    let isSeg := bit (leAt b 6 2) 0
    let len := leAt b 4 2
    let at_ := if isSeg then 16 else 8
    let size := at_ + (len + 3) / 4 * 4
    if b.length < at_ ∨ b.length < size then none else
      (writeEntries n (b.drop size)).map fun t =>
        { idx := leAt b 0 2, sub := leAt b 2 1, ty := leAt b 3 1, seg := if isSeg then some (leAt b 8 4, leAt b 12 4) else none,
          val := slice b at_ len } :: t

/-! ### Staging (R106, R107, R111) -/

/-- The entry of the staged copy for a key. -/
def stagedAt (s : State) (key : Nat) : Option Staged := s.staged.find? fun e => decide (e.key = key)

/-- The staged copy with an entry, in the place of an earlier one for its object. -/
def withStaged (s : State) (e : Staged) : List Staged :=
  if (stagedAt s e.key).isSome then s.staged.map fun x => if x.key = e.key then e else x else s.staged ++ [e]

/-- A staged copy beyond its limits (R107). -/
def stagedBeyond (l : List Staged) : Bool := decide (4096 < l.length ∨ 4194304 < stagedBytes l)

/-- An entry put into the staged copy, in the place of an earlier one for its object; LENGTH beyond the limits (R107), BUSY while it is frozen (R109). -/
def stage (s : State) (e : Staged) : Act :=
  if stagedBeyond (withStaged s e) then (s, stLength)
  else if s.com.phase ≠ 0 then (s, stBusy)
  else (putStaged s (withStaged s e), stOk)

/-- The staged entry that a segment makes of a DOMAIN (R111), or the status that refuses it: the whole value is judged with its last segment, its
declared total with the first. -/
def segmentEntry (s : State) (o : Obj) (key off total : Nat) (b : List Byte) (safety : Option Nat) : Staged ⊕ Nat :=
  let hi := match o.rng with | .len _ hi _ => hi | _ => 0
  let have_ := match stagedAt s key with
    | some { val := .bytes v, total := some n, .. } => some (v, n)
    | _ => none
  let whole (v : List Byte) : Staged ⊕ Nat :=
    if total < v.length then .inr stLength
    else if v.length < total then .inl { key := key, val := .bytes v, total := some total, safety := safety }
    else
      let e : Staged := { key := key, val := .bytes v, safety := safety }
      let st := rangeStatus o (.bytes v)
      if st = stOk then .inl e else .inr (if stagedBeyond (withStaged s e) then stLength else st)
  if hi < total then .inr stLength
  else if off = 0 then whole b
  else match have_ with
    | some (v, n) => if n = total ∧ off = v.length then whole (v ++ b) else .inr stLength
    | none => .inr stLength

/-! ### Objects whose writes act at once (R106) -/

/-- A write that needs no checks of its own. -/
def done (s : State) : Act := (s, stOk)

/-- Objects of the machine cycle, the rings and time (chapters 2 to 4). -/
def writeCycle (s : State) (o : Obj) (i : Nat) (n : Int) : Option Act :=
  if o = Ob.Cyc.CLEAR_COUNTS then some (clearCountsWrite s)
  else if o = Ob.Hud.GO then some (goWrite s)
  else if o = Ob.Ring.KICKOFF then some (kickoffWrite s i)
  else if o = Ob.Ring.STOP then some (ringStopWrite s i)
  else if o = Ob.Ring.REJOIN then some (rejoinWrite s i)
  else if o = Ob.Clk.SET_TOD then some (setTod s n)
  else if o = Ob.Clk.RELOCK then some (relock s)
  else if o = Ob.Ttp.PERIOD ∨ o = Ob.Ttp.WIDTH then some (ttpValueWrite s o i n.toNat)
  else if o = Ob.TLat.ACK then some (done (stateOf (execTimeLatchAck i n.toNat s.now s) s))
  else none

/-- Objects of possession, commit and the stored configuration (chapters 5 and 6). -/
def writeConfig (s : State) (sess : Nat) (o : Obj) (n : Int) : Option Act :=
  if o = Ob.Com.COMMIT then some (commitWrite s sess (isCaptain s sess))
  else if o = Ob.Com.DISCARD then some (discardWrite s)
  else if o = Ob.Store.SAVE then some (saveWrite s)
  else if o = Ob.Store.ERASE_STORED then some (eraseWrite s)
  else if o = Ob.Poss.CLAIM then some (if isStandby s then (s, stState) else done (setClaim s sess n.toNat s.now))
  else if o = Ob.Poss.LEASE_RENEW then some (done (s.set Ob.Sess.LAST_RENEWED s.now sess))
  else none

/-- Objects of axes, feedback, compare and the dispatcher (chapters 7 to 11). -/
def writeMotion (s : State) (sess : Nat) (o : Obj) (i : Nat) (n : Int) : Option Act :=
  if o = Ob.AxD.CLEAR_PEAK then some (done (stateOf (execClearPeak i s.now s) s))
  else if o = Ob.Mach.STOP_REQUEST then some (stopRequest s sess n)
  else if o = Ob.Mach.STOP_CLEAR then some (stopClear s)
  else if o = Ob.Fb.CLEAR_FAULT then some (done (clearUnitFault s i))
  else if o = Ob.FbMe.CLEAR_FAULT then some (done (clearUnitFault s (8 + i)))
  else if o = Ob.Lat.ARM then some (done (stateOf (execLatchArm i s.now s) s))
  else if o = Ob.Lat.ACK then some (done (stateOf (execLatchAck i n.toNat s.now s) s))
  else if o = Ob.Cmp.ARM then some (done (stateOf (execCompareArm i s.now s) s))
  else if o = Ob.Cmp.DISARM then some (done (stateOf (execDisarm i s.now s) s))
  else if o = Ob.Cmp.CORRECTION then some (done (stateOf (execCorrection i n s.now s) s))
  else if o = Ob.Disp.CLEAR then some (done (clearDisp s))
  else none

/-- Objects of local ports and field I/O (chapters 12 and 13). -/
def writePorts (s : State) (o : Obj) (i : Nat) : Option Act :=
  if o = Ob.Port.TRIP_CLEAR then some (tripClear s i)
  else if o = Ob.Port.TRIP_FORCE then some (tripForce s i)
  else if o = Ob.Die.RESTORE then some (restoreField s)
  else if o = Ob.Outp.OUT_ACK then some (done (stateOf (execOutAck i s.now s) s))
  else none

/-- Objects of safety and of the pair (chapters 14 and 15). -/
def writeSafety (s : State) (o : Obj) (i k : Nat) (n : Int) : Option Act :=
  if o = Ob.Isl.SAFETY_ACK then some (safetyAck s)
  else if o = Ob.Isl.SAFETY_LOGOUT then some (safetyLogout s)
  else if o = Ob.Isl.LOG_EXPORTED then some (logExported s n)
  else if o = Ob.AxS.BT_START then some (btStart s i)
  else if o = Ob.AxS.SBC_RESET then some (sbcReset s i)
  else if o = Ob.PairX.PAIR then some (pairWrite s)
  else if o = Ob.PairX.DRILL then some (drillWrite s)
  else if o = Ob.PairX.HEAL then some (healWrite s k)
  else none

/-- Objects of power, observation and start-up (chapters 16 to 19). -/
def writeUnit (s : State) (o : Obj) (i k : Nat) (n : Int) : Option Act :=
  if o = Ob.Pow.POWER_REQUEST then some (powerRequestWrite s)
  else if o = Ob.Cnt.SAMPLE_CLEAR then some (sampleClearWrite s)
  else if o = Ob.Cnt.CLEAR_COUNTERS then some (clearCountersWrite s)
  else if o = Ob.Core.PMC_CFG then some (pmcCfgWrite s i k n.toNat)
  else if o = Ob.CoreMc.PMC_CFG then some (pmcCfgWrite s (8 + i) k n.toNat)
  else if o = Ob.Core.SAMPLE_PERIOD then some (samplePeriodWrite s i n.toNat)
  else if o = Ob.Capt.ARM then some (capArmWrite s (decide (n ≠ 0)))
  else if o = Ob.Trc.TRACE_ARM then some (traceArmWrite s (decide (n ≠ 0)))
  else if o = Ob.Frf.FRF_START then some (frfStartWrite s)
  else if o = Ob.Rst.RESET_UNIT then some (resetUnitWrite s)
  else if o = Ob.Therm.CLEAR_TJ_PEAK then some (clearPeakWrite s)
  else none

/-- Objects that keep no written value, or keep it in their own way: passwords read empty (R358), LOAD_ALL reads 1 while armed (R298). -/
def writeKept (s : State) (sess : Nat) (o : Obj) (i k : Nat) (v : Val) : Option Act :=
  let n : Int := match v with | .num x => x | .bytes _ => 0
  let b : List Byte := match v with | .bytes b => b | .num _ => []
  if o = Ob.Isl.SAFETY_LOGIN then some (safetyLogin s sess b)
  else if o = Ob.Isl.NEW_PASSWORD then some (newPassword s sess b)
  else if o = Ob.Pwm.LOAD_ALL then some (loadAll s i)
  else if o = Ob.Pwm.PERIOD_SHADOW then some (shadowWrite s i 0 n)
  else if o = Ob.Pwm.CMP_SHADOW then some (shadowWrite s i (k + 1) n)
  else if o = Ob.Ttp.ENABLE then some (ttpWrite s i (decide (n ≠ 0)))
  else if o = Ob.Ctl.CONTROL then some (done (controlWrite s i n.toNat))
  else if o = Ob.Rst.FW_UPLOAD then some (fwUploadWrite s sess 0 b.length b)
  else none

/-- An accepted value of an RWI, ANY or CMD object takes effect at once (R106). -/
def writeNow (s : State) (sess : Nat) (o : Obj) (key i k : Nat) (v : Val) : Act :=
  let n : Int := match v with | .num x => x | .bytes _ => 0
  match writeKept s sess o i k v with
  | some r => r
  | none =>
    keepValue key v ((writeCycle s o i n <|> writeConfig s sess o n <|> writeMotion s sess o i n <|>
      (if o = Ob.Pwm.LOAD_ALL_MASK then some (loadAllMask s n.toNat) else none) <|> writePorts s o i <|> writeSafety s o i k n <|>
      writeUnit s o i k n).getD (s, stOk))

/-! ### One write (R106, R130) -/

/-- A SAF write is accepted from a session (R106, R358, R361). -/
def safetyOpen (s : State) (sess : Nat) : Bool := (holdsSafety s sess).isSome && !logRefuses s && !s.flag Ob.Isl.FACTORY_PASSWORD

/-- An accepted SAF write is logged before it is acknowledged (R359, R360). -/
def logSafety (s : State) (sess : Nat) (e : WriteEntry) (r : Act) : Act :=
  if r.2 = stOk then (logEntry (safetyUsed r.1) 1 sess stOk e.idx e.sub e.ty e.val, stOk) else (s, r.2)

/-- A SAF or RWC value staged. -/
def stageWrite (s : State) (sess : Nat) (o : Obj) (e : WriteEntry) (x : Staged ⊕ Nat) : Act :=
  match x with
  | .inr st => (s, st)
  | .inl y => if o.acc = .saf then logSafety s sess e (stage s y) else stage s y

/-- One entry of a WRITE by an open session (R106, R111, R130): its status, and the state unchanged where it is refused. -/
def writeEntry (s : State) (sess : Nat) (e : WriteEntry) : Act :=
  match lookup e.idx e.sub with
  | .inr st => (s, st)
  | .inl o =>
    let key := e.idx * 256 + e.sub
    let p := (o.at_ e.idx).getD (0, 0)
    let staged := decide (o.acc = .rwc ∨ o.acc = .saf)
    let safety := if o.acc = .saf then holdsSafety s sess else none
    if o.acc = .ro ∨ o.acc = .fix then (s, stReadOnly)
    else if o.acc ≠ .any ∧ isCaptain s sess = false then (if o = Ob.Com.COMMIT then commitResult s stNotCaptain 0 0 else s, stNotCaptain)
    else if o.acc = .saf ∧ safetyOpen s sess = false then (s, stSafetyLocked)
    else if e.ty ≠ o.ty.code then (s, stType)
    else match e.seg with
      | some (off, total) =>
        if staged = true ∧ o.ty = .domain then stageWrite s sess o e (segmentEntry s o key off total e.val safety)
        else if o = Ob.Rst.FW_UPLOAD then fwUploadWrite s sess off total e.val
        else (s, stLength)
      | none =>
        match valOf o.ty e.val with
        | none => (s, stType)
        | some v =>
          let y : Staged := { key := key, val := v, safety := safety }
          if rangeStatus o v ≠ stOk then (s, if staged && stagedBeyond (withStaged s y) then stLength else rangeStatus o v)
          else if staged then stageWrite s sess o e (.inl y)
          else writeNow s sess o key p.1 (e.sub - o.sub) v

/-- The entries of a WRITE carried out one by one (R136): the statuses in order. -/
def writeAll (s : State) (sess : Nat) : List WriteEntry → State × List Nat
  | [] => (s, [])
  | e :: t =>
    let r := writeEntry s sess e
    let q := writeAll r.1 sess t
    (q.1, r.2 :: q.2)

/-- The status of a WRITE: of the first entry that failed (R136). -/
def firstFailure (l : List Nat) : Nat := (l.find? fun x => decide (x ≠ stOk)).getD stOk

/-- A write of one object's octets, or of a segment of them, by a session outside a WRITE message (assumption log 5): LEASE_EXPIRED where the
session is not open (R139), BUSY before the configuration step ends (R430). -/
def objectOctets (s : State) (sess : Nat) (o : Obj) (seg : Option (Nat × Nat)) (v : List Byte) : Act :=
  if sessOpen s sess = false then (s, stLeaseExpired)
  else
    let s := s.set Ob.Sess.LAST_RENEWED s.now sess
    if s.boot.configured = false then (s, stBusy)
    else writeEntry s sess { idx := o.base, sub := o.sub, ty := o.ty.code, val := v, seg := seg }

/-- A write of one object's number by a session outside a WRITE message. -/
def objectWrite (s : State) (sess : Nat) (o : Obj) (n : Int) : Act := objectOctets s sess o none (valBytes o.ty (.num n))

/-- CLAIM_OBJECT: CLAIM (0x1100.04) written by session `sess` (R146). -/
def execClaimObject (sess v t : Nat) (s : State) : Host.Outcome State Fault Refusal := whileOn s t <| answerBy sess (objectWrite (s.at t) sess Ob.Poss.CLAIM v)

/-- LEASE_RENEW (0x1100.05) written by session `sess` (R143). -/
def execLeaseRenew (sess v t : Nat) (s : State) : Host.Outcome State Fault Refusal := whileOn s t <| answerBy sess (objectWrite (s.at t) sess Ob.Poss.LEASE_RENEW v)

/-- COMMIT_OBJECT: COMMIT (0x3000.04) written by session `sess`: answered with the status of steps 1 and 2 (R112). -/
def execCommitObject (sess t : Nat) (s : State) : Host.Outcome State Fault Refusal := whileOn s t <| answerBy sess (objectWrite (s.at t) sess Ob.Com.COMMIT 1)

/-- STOP_REQUEST (0x3200.01) written by session `sess` (R145, R205). -/
def execStopRequest (sess v t : Nat) (s : State) : Host.Outcome State Fault Refusal := whileOn s t <| answerBy sess (objectWrite (s.at t) sess Ob.Mach.STOP_REQUEST v)

/-- SAFETY_LOGIN (0x9001.01) written by session `sess` (R358, R359). -/
def execSafetyLogin (sess : Nat) (pw : List Byte) (t : Nat) (s : State) : Host.Outcome State Fault Refusal := whileOn s t <|
  answerBy sess (objectOctets (s.at t) sess Ob.Isl.SAFETY_LOGIN none pw)

/-- NEW_PASSWORD (0x9001.03) written by session `sess` (R358). -/
def execNewPassword (sess : Nat) (pw : List Byte) (t : Nat) (s : State) : Host.Outcome State Fault Refusal := whileOn s t <|
  answerBy sess (objectOctets (s.at t) sess Ob.Isl.NEW_PASSWORD none pw)

/-- FW_UPLOAD (0x1010.0B) written by session `sess` (R428): bytes `v` at `off` of an image of `total` bytes. -/
def execFwUpload (sess off total : Nat) (v : List Byte) (t : Nat) (s : State) : Host.Outcome State Fault Refusal := whileOn s t <|
  answerBy sess (objectOctets (s.at t) sess Ob.Rst.FW_UPLOAD (some (off, total)) v)

end Sys2Proof.Machine
end

