-- ==== Sys2Proof/Machine/Host.lean ====
section
/-! DEFINITION. Host access: the Linli requests, sessions and possession, the sequence window, the PCIe window (R132 to R154). -/

namespace Sys2Proof.Machine

/-! ### Replies -/

/-- A reply that leaves without a session: to OPEN (SESSION 0xFF, TOKEN 0), to a request of no open session (Table 06-1). -/
def replyPlain (s : State) (op : Nat) (q : Req) (st : Nat) (body : List Byte) : State :=
  sendReply s q.toPath (linliBytes op q.sess q.seqNo st q.token body)

/-- A request done (R138): its reply is kept and sent; an accepted reset or power request acts once its reply has left. -/
def finish (s : State) (op : Nat) (q : Req) (st : Nat) (body : List Byte) : State :=
  let s := keepReply s q.sess q.seqNo st body
  let wait := waitsForStandby s q.sess
  let s := replyTo s q.sess q.toPath (linliBytes op q.sess q.seqNo st q.token body)
  if wait then s else actAfterReply s

/-! ### Sessions (R142 to R144) -/

/-- The session that an OPEN repeats (R142): the same NONCE, source address and port within that session's lease. -/
def openRepeat (s : State) (q : Req) : Option Nat :=
  (openSessions s).find? fun k =>
    let x := s.sess k
    decide (x.nonce = leAt q.body 0 4 ∧ s.nat Ob.Sess.PEER k = q.peer ∧ (q.via < 2 ∨ s.nat Ob.Sess.TRANSPORT k = q.via) ∧
      (s.nat Ob.Sess.TRANSPORT k < 2 ∨ 2 ≤ q.via) ∧ s.now ≤ x.openedAt + s.nat Ob.Sess.LEASE k * 1000000)

/-- A session made (R142): the lowest free id, a random token, the lease granted. -/
def newSession (s : State) (q : Req) (k lease : Nat) (name : List Byte) : State :=
  let (token, s) := s.freeDraw 32
  let s := (((s.set Ob.Sess.STATE 1 k).set Ob.Sess.TRANSPORT q.via k).set Ob.Sess.PEER q.peer k).setBytes Ob.Sess.NAME name k
  let s := ((s.set Ob.Sess.LEASE lease k).set Ob.Sess.LAST_RENEWED s.now k).set Ob.Sess.NOTIFY_SEQ 0 k
  let s := ((s.set Ob.Sess.CLAIM_PRIORITY 0 k).set Ob.Sess.CLAIM_TIME 0 k).set Ob.Sess.SUBSCRIPTIONS 0 k
  let s := s.set Ob.Poss.SESSION_COUNT (s.get Ob.Poss.SESSION_COUNT + 1)
  let body := leBytes 1 k ++ leBytes 1 (s.nat Ob.Poss.CAPTAIN) ++ leBytes 2 lease ++ leBytes 4 token ++ leBytes 4 (s.nat Ob.Sb.SNAPSHOT_ID)
  s.setSess k { nonce := leAt q.body 0 4, token := token, own := q.own || decide (2 ≤ q.via), opened := body, openedAt := s.now }

/-- OPEN (R142, Table 06-2). -/
def openRequest (s : State) (q : Req) : State :=
  let n := leAt q.body 6 1
  let lease := leAt q.body 4 2
  let name := slice q.body 8 n
  if q.body.length < 8 ∨ 32 < n ∨ q.body.length < 8 + n then replyPlain s 1 q stLength []
  else match openRepeat s q with
    | some k => replyTo s k q.toPath (linliBytes 1 q.sess q.seqNo stOk q.token (s.sess k).opened)
    | none =>
      match (List.range 16).find? fun k => !sessOpen s k with
      | none => replyPlain s 1 q stSessionLimit []
      | some k =>
        if utf8Ok n name = false ∨ (lease ≠ 0 ∧ (lease < 100 ∨ 10000 < lease)) then replyPlain s 1 q stRange []
        else
          let s := newSession s q k (if lease = 0 then s.nat Ob.Poss.LEASE_DEFAULT else lease) name
          replyTo s k q.toPath (linliBytes 1 q.sess q.seqNo stOk q.token (s.sess k).opened)

/-! ### Requests of an open session: status and reply body -/

/-- What a request leads to: state, status, reply body. -/
abbrev Done := State × Nat × List Byte

/-- WRITE (R136, R430, Table 06-5). -/
def writeRequest (s : State) (q : Req) : Done :=
  let c := leAt q.body 0 2
  if s.boot.configured = false then (s, stBusy, [])
  else if q.body.length < 4 then (s, stLength, [])
  else if c = 0 ∨ 64 < c then (s, stRange, [])
  else match writeEntries c (q.body.drop 4) with
    | none => (s, stLength, [])
    | some l =>
      let r := writeAll s q.sess l
      (r.1, firstFailure r.2, leBytes 2 c ++ leBytes 2 0 ++ r.2.flatMap fun x => leBytes 2 x)

/-- CLAIM (R146, R152): the claim time is that of the message's receipt. -/
def claimRequest (s : State) (q : Req) : Done :=
  if q.body.length < 4 then (s, stLength, [])
  else
    let n := leAt q.body 0 1
    if 15 < n then (s, stRange, [])
    else if isStandby s then (s, stState, [])
    else if s.boot.configured = false then (s, stBusy, [])
    else
      let s := setClaim s q.sess n s.now
      (s, stOk, leBytes 1 (s.nat Ob.Poss.CAPTAIN) ++ leBytes 3 0)

/-- PASS (R148, R152). -/
def passRequest (s : State) (q : Req) : Done :=
  let k := leAt q.body 0 1
  if q.body.length < 4 then (s, stLength, [])
  else if isStandby s then (s, stState, [])
  else if isCaptain s q.sess = false then (s, stNotCaptain, [])
  else if sessOpen s k = false then (s, stState, [])
  else (possessionTo s k 1, stOk, [])

/-- RELEASE (R148). -/
def releaseRequest (s : State) (q : Req) : Done :=
  if isCaptain s q.sess = false then (s, stNotCaptain, []) else (possessionTo s 0xFF 2, stOk, [])

/-- Bytes of an entry of a NOTIFY at most: a STR counts with its greatest length (R140, Table 06-4). -/
def notifySize (e : ReadName) : Nat :=
  match lookup e.idx e.sub with
  | .inr _ => 2
  | .inl o => if o.ty.isBytes then 4 + (match o.rng with | .len _ hi _ => hi | _ => 256) else 2 + o.ty.size

/-- SUBSCRIBE (R140). -/
def subscribeRequest (s : State) (q : Req) : Done :=
  let id := leAt q.body 0 1
  let c := leAt q.body 1 1
  let period := leAt q.body 2 2
  let put (s : State) (l : List SubRt) : State := (s.modSess q.sess fun x => { x with subs := l }).set Ob.Sess.SUBSCRIPTIONS l.length q.sess
  let others := (s.sess q.sess).subs.filter fun u => decide (u.id ≠ id)
  let least := if s.nat Ob.Sess.TRANSPORT q.sess < 2 then 1000000 else 125000
  if q.body.length < 4 then (s, stLength, [])
  else if 3 < id ∨ 64 < c then (s, stRange, [])
  else if c = 0 then (put s others, stOk, [])
  else match readNames c (q.body.drop 4) with
    | none => (s, stLength, [])
    | some l =>
      if (l.any fun e => decide (e.kind ≠ 0) || (match lookup e.idx e.sub with | .inl o => decide (o.ty = .domain) | .inr _ => false)) = true then (s, stRange, [])
      else if period * s.tcyc s.localRing < least then (s, stRange, [])
      else if 1472 < 24 + (l.map notifySize).sum then (s, stLength, [])
      else (put s (others.filter (fun u => decide (u.id < id)) ++ { id := id, period := period, names := l.map fun e => (e.idx, e.sub) } :: others.filter (fun u => decide (id < u.id))), stOk, [])

/-- A request of an open session but COMMIT, by its opcode (Table 06-2); an unknown opcode returns RANGE (R134). -/
def serve (s : State) (op : Nat) (q : Req) : Done :=
  match op with
  | 0x02 => (closeSession s q.sess 3, stOk, [])
  | 0x10 => let r := readRequest s q.body; (s, r.1, r.2)
  | 0x11 => writeRequest s q
  | 0x20 => claimRequest s q
  | 0x21 => passRequest s q
  | 0x22 => releaseRequest s q
  | 0x30 => subscribeRequest s q
  | _ => (s, stRange, [])

/-! ### The sequence window (R138, R139, R143) -/

/-- The request comes from the session it names: open, the right token, a PCIe session over its own channel (R139, R153). -/
def admitted (s : State) (q : Req) : Bool :=
  let via := s.nat Ob.Sess.TRANSPORT q.sess
  sessOpen s q.sess && !(notActive s && !(s.sess q.sess).own) && decide ((s.sess q.sess).token = q.token) && (if via < 2 then decide (q.via < 2) else decide (q.via = via))

/-- The number of a request as R138 judges it: the entry of an executed request of the window, whether it is new, and whether H moves on. -/
def windowOf (x : SessRt) (n : Nat) : Option ReqRt × Bool × Bool :=
  let back := (x.h + 65536 - n) % 65536
  let d := (n + 65536 - x.h) % 65536
  let fresh := decide (1 ≤ d ∧ d ≤ 8)
  (if back ≤ 7 then x.win.find? fun r => decide (r.seqNo = n) else none, decide (back ≤ 7) || fresh, fresh)

/-- A session's window with a request begun: H moves on, numbers that leave [H − 7, H] are dropped (R138). -/
def begin_ (x : SessRt) (n op : Nat) (moves : Bool) : SessRt :=
  let h := if moves then n else x.h
  { x with h := h, win := ({ seqNo := n, op := op } :: x.win).filter fun r => decide ((h + 65536 - r.seqNo) % 65536 ≤ 7) }

/-- A request that R139 lets pass: the lease is renewed; a retry, a new request, or one out of the window (R138). -/
def sequenced (s : State) (op : Nat) (q : Req) : State :=
  let s := s.set Ob.Sess.LAST_RENEWED s.now q.sess
  match windowOf (s.sess q.sess) q.seqNo with
  | (some r, _, _) => match r.reply with
    | some (st, body) => replyTo s q.sess q.toPath (linliBytes r.op q.sess q.seqNo st q.token body)
    | none => s
  | (none, false, _) => replyTo (s.count Ob.Poss.SEQ_ERR) q.sess q.toPath (linliBytes op q.sess q.seqNo stState q.token [])
  | (none, true, moves) =>
    let s := s.modSess q.sess fun x => begin_ x q.seqNo op moves
    if op = 0x12 then
      if s.boot.configured = false then finish s op q stBusy []
      else (startCommit s { sess := q.sess, token := q.token, seqNo := q.seqNo, path := q.toPath } (isCaptain s q.sess)).1
    else
      let r := serve s op q
      finish r.1 op q r.2.1 r.2.2

/-- The unit listens where a request or datagram arrives (R132): over Ethernet at UDP_PORT of UNIT_IP, and of SERVICE_IP where it is the active unit and the
address is not 0; over PCIe on every channel. -/
def listens (s : State) (p : Path) : Bool :=
  unitRuns s && (decide (2 ≤ p.via) || (decide (p.port = s.nat Ob.Poss.UDP_PORT) && (p.own || (!notActive s && decide (s.get Ob.Poss.SERVICE_IP ≠ 0)))))

/-- A Linli request (R134, R139). -/
def linliRun (s : State) (op : Nat) (q : Req) : State :=
  if listens s q.toPath = false then s
  else if op = 1 then openRequest s q
  else if admitted s q = false then replyPlain s op q stLeaseExpired []
  else sequenced s op q

/-- OPEN. -/
def execHostOpen (q : Req) (t : Nat) (s : State) : Host.Outcome State Fault Refusal := whileOn s t <| .next (linliRun (s.at t) 0x01 q)
/-- CLOSE. -/
def execHostClose (q : Req) (t : Nat) (s : State) : Host.Outcome State Fault Refusal := whileOn s t <| .next (linliRun (s.at t) 0x02 q)
/-- READ. -/
def execHostRead (q : Req) (t : Nat) (s : State) : Host.Outcome State Fault Refusal := whileOn s t <| .next (linliRun (s.at t) 0x10 q)
/-- WRITE. -/
def execHostWrite (q : Req) (t : Nat) (s : State) : Host.Outcome State Fault Refusal := whileOn s t <| .next (linliRun (s.at t) 0x11 q)
/-- COMMIT (R112): its reply follows at its outcome. -/
def execCommitMsg (q : Req) (t : Nat) (s : State) : Host.Outcome State Fault Refusal := whileOn s t <| .next (linliRun (s.at t) 0x12 q)
/-- CLAIM. -/
def execHostClaim (q : Req) (t : Nat) (s : State) : Host.Outcome State Fault Refusal := whileOn s t <| .next (linliRun (s.at t) 0x20 q)
/-- PASS. -/
def execHostPass (q : Req) (t : Nat) (s : State) : Host.Outcome State Fault Refusal := whileOn s t <| .next (linliRun (s.at t) 0x21 q)
/-- RELEASE. -/
def execHostRelease (q : Req) (t : Nat) (s : State) : Host.Outcome State Fault Refusal := whileOn s t <| .next (linliRun (s.at t) 0x22 q)
/-- SUBSCRIBE. -/
def execHostSubscribe (q : Req) (t : Nat) (s : State) : Host.Outcome State Fault Refusal := whileOn s t <| .next (linliRun (s.at t) 0x30 q)
/-- A request with an opcode `op` (R134). -/
def execUnknownOpcode (op : Nat) (q : Req) (t : Nat) (s : State) : Host.Outcome State Fault Refusal := whileOn s t <| .next (linliRun (s.at t) op q)

/-! ### Messages as octets (R132, R133) -/

/-- A Linli message of at most 1 472 bytes; none where R133 discards it. -/
def parseLinli (p : Path) (b : List Byte) : Option (Nat × Req) :=
  if b.length < 16 ∨ leAt b 0 2 ≠ 0x4E4C ∨ leAt b 2 1 ≠ 1 ∨ leAt b 10 2 ≠ b.length - 16 ∨ 1456 < leAt b 10 2 ∨ leAt b 4 1 % 2 = 1 then none
  else some (leAt b 3 1, { p with sess := leAt b 5 1, seqNo := leAt b 6 2, token := leAt b 12 4, body := b.drop 16 })

/-- A message received: BAD_MSG counts one that R133 discards. -/
def receive (s : State) (p : Path) (b : List Byte) : State :=
  match parseLinli p b with
  | none => s.count Ob.Poss.BAD_MSG
  | some (op, q) => linliRun s op q

/-- BAD_MSG: a datagram `b` at host port `p.via`, addressed to UDP port `p.port`; one with a wrong UDP checksum or in fragments (`intact` false) is discarded
(R132, R133). -/
def execBadMsg (p : Machine.Path) (intact : Bool) (b : List Byte) (t : Nat) (s : State) : Host.Outcome State Fault Refusal := whileOn s t <|
  let s := s.at t
  .next (if intact = false ∨ 2 ≤ p.via ∨ listens s p = false then s else receive s p b)

/-- The unit answers for an IPv4 address at its host ports (R132). -/
def answersFor (s : State) (ip : Nat) : Bool :=
  unitRuns s && decide (ip ≠ 0) && (decide (ip = s.nat Ob.Poss.UNIT_IP) || (decide (ip = s.nat Ob.Poss.SERVICE_IP) && !notActive s))

/-- ARP_REQUEST for `ip` at host port `port`, from the station of hardware address `mac` and IPv4 address `src` (R132): answered to it (packet 10). -/
def execArpRequest (port ip mac src t : Nat) (s : State) : Host.Outcome State Fault Refusal := whileOn s t <|
  let s := s.at t
  .next (if answersFor s ip then s.emit (.packet 0 10 [(port : Int), (ip : Int), (mac : Int), (src : Int)]) else s)

/-- ICMP_ECHO for `ip` at host port `port`, from the IPv4 address `src` (R132): answered to it with its own data (packet 12). -/
def execIcmpEcho (port ip src : Nat) (data : List Int) (t : Nat) (s : State) : Host.Outcome State Fault Refusal := whileOn s t <|
  let s := s.at t
  .next (if answersFor s ip then s.emit (.packet 0 12 ([(port : Int), (ip : Int), (src : Int)] ++ data)) else s)

/-! ### Claims, leases and elections -/

/-- LEASE_EXPIRY at a t_D of LOCAL_RING (R144). -/
def execLeaseExpiry (t : Nat) (s : State) : Host.Outcome State Fault Refusal := whileOn s t <|
  let s := s.at t
  .next (match cycleOfDeadline (s.tcyc s.localRing) (s.woff s.localRing) t with
    | some _ => expireLeases s
    | none => s)

/-- ELECTION at a t_D of LOCAL_RING (R147). -/
def execElection (t : Nat) (s : State) : Host.Outcome State Fault Refusal := whileOn s t <|
  let s := s.at t
  .next (match cycleOfDeadline (s.tcyc s.localRing) (s.woff s.localRing) t with
    | some _ => electCaptain s
    | none => s)

/-! ### The PCIe window (R153, R154, R388) -/

/-- GO of channel `c` set with REQ_LEN `len` (R154, Table 06-8): the G9256 takes the message, which clears GO. -/
def chanGo (s : State) (c len : Nat) : State :=
  let x := s.chan c
  let s := s.setChan c { x with ctrl := len % 65536 }
  if len < 16 ∨ 1472 < len then s.setChan c { s.chan c with status := setBit x.status 30 true }
  else receive s { via := 2 + c, own := true } ((List.range len).map fun i => Mem.get x.req i)

/-- CH_CTRL_GO. -/
def execChCtrlGo (c len t : Nat) (s : State) : Host.Outcome State Fault Refusal := whileOn s t <|
  let s := s.at t
  .next (if 4 ≤ c then s else chanGo s c len)

/-- CH_STATUS written (Table 06-8): REPLY_READY and LEN_ERR clear where their bit is 1; a queued reply follows (R154). -/
def chStatusWrite (s : State) (c w : Nat) : State :=
  let x := s.chan c
  fillReply (s.setChan c { x with status := setBit (setBit x.status 31 (bit x.status 31 && !bit w 31)) 30 (bit x.status 30 && !bit w 30) }) c

/-- CH_NOTIFY written (Table 06-8): NOTIFY_READY clears; the held notification follows (R154). -/
def chNotifyWrite (s : State) (c w : Nat) : State :=
  let x := s.chan c
  fillNote (s.setChan c { x with notify := setBit x.notify 31 (bit x.notify 31 && !bit w 31) }) c

/-- REPLY_READY_CLEAR. -/
def execReplyReadyClear (c t : Nat) (s : State) : Host.Outcome State Fault Refusal := whileOn s t <|
  let s := s.at t
  .next (if 4 ≤ c then s else chStatusWrite s c (2 ^ 31))

/-- NOTIFY_READY_CLEAR. -/
def execNotifyReadyClear (c t : Nat) (s : State) : Host.Outcome State Fault Refusal := whileOn s t <|
  let s := s.at t
  .next (if 4 ≤ c then s else chNotifyWrite s c (2 ^ 31))

/-- Four bytes of a buffer, as a word. -/
def wordAt (b : List Byte) (off : Nat) : Word := BitVec.ofNat 32 (leAt b off 4)

/-- A 32-bit word of BAR0 read (Tables 06-7, 06-8): reserved space reads 0. -/
def barRead (s : State) (off : Nat) : Word :=
  if off < 0x2000 then
    match off with
    | 0x0 => BitVec.ofNat 32 (s.nat Ob.Ident.VENDOR_ID)
    | 0x4 => BitVec.ofNat 32 (s.nat Ob.Ident.PRODUCT)
    | 0x8 => BitVec.ofNat 32 (s.nat Ob.Ident.SILICON_REV)
    | 0xC => BitVec.ofNat 32 (s.nat Ob.Ident.FW_VERSION)
    | _ => 0
  else if off < 0xA000 then
    let x := s.chan ((off - 0x2000) / 0x2000)
    let o := (off - 0x2000) % 0x2000
    if o < 1536 then BitVec.ofNat 32 (Mem.read x.req o 4)
    else if 0x800 ≤ o ∧ o < 0x800 + 1536 then wordAt x.reply (o - 0x800)
    else if 0x1000 ≤ o ∧ o < 0x1000 + 1536 then wordAt x.note (o - 0x1000)
    else if o = 0x1800 then BitVec.ofNat 32 x.ctrl
    else if o = 0x1804 then BitVec.ofNat 32 x.status
    else if o = 0x1808 then BitVec.ofNat 32 x.notify
    else 0
  else if off < 0xB000 then epRead s 0 (off - 0xA000)
  else 0

/-- A 32-bit word of BAR0 written (Tables 06-7, 06-8): writes to reserved space and to read-only parts are ignored. -/
def barWrite (s : State) (off : Nat) (w : Word) : State :=
  if off < 0x2000 then s
  else if off < 0xA000 then
    let c := (off - 0x2000) / 0x2000
    let o := (off - 0x2000) % 0x2000
    let x := s.chan c
    if o < 1536 then s.setChan c { x with req := Mem.write x.req o 4 w.toNat }
    else if o = 0x1800 then (if bit w.toNat 31 then chanGo s c (w.toNat % 65536) else s.setChan c { x with ctrl := w.toNat % 65536 })
    else if o = 0x1804 then chStatusWrite s c w.toNat
    else if o = 0x1808 then chNotifyWrite s c w.toNat
    else s
  else if off < 0xB000 then epWrite s 0 (off - 0xA000) w
  else s

/-- REGISTER_WRITE: the aligned word `w` at `off` of the block of endpoint `x` (1 to 13), or of BAR0 (`x` = 0) (R153, R388). -/
def execRegisterWrite (x off : Nat) (w : Word) (t : Nat) (s : State) : Host.Outcome State Fault Refusal := whileOn s t <|
  let s := s.at t
  .next (if off % 4 ≠ 0 ∨ 14 ≤ x then s else if x = 0 then barWrite s off w else epWrite s x off w)

end Sys2Proof.Machine
end

