-- ==== Sys2Proof/Machine/Dispatch.lean ====
section
/-! DEFINITION. Dispatch: one arm per command. -/

namespace Sys2Proof.Machine

open Sys2Proof

/-- The effect of a command on everything but the queue. -/
def exec (i : Instr) (s : State) : Host.Outcome State Fault Refusal :=
  match i with
  | .whistle r sd t => Sys2Proof.Machine.execWhistle r sd t s
  | .frameEmission r t => Sys2Proof.Machine.execFrameEmission r t s
  | .sampleRegionLanded r p att slot t => Sys2Proof.Machine.execSampleRegionLanded r p att slot t s
  | .frameReturned r fcs loop b t => Sys2Proof.Machine.execFrameReturned r fcs loop b t s
  | .computeDeadline r t => Sys2Proof.Machine.execComputeDeadline r t s
  | .overrun a t => Sys2Proof.Machine.execOverrun a t s
  | .frameMissingLimit r t => Sys2Proof.Machine.execFrameMissingLimit r t s
  | .huddleGo t => Sys2Proof.Machine.execHuddleGo t s
  | .huddleDecision t => Sys2Proof.Machine.execHuddleDecision t s
  | .huddleSwitch r t => Sys2Proof.Machine.execHuddleSwitch r t s
  | .clearCounts t => Sys2Proof.Machine.execClearCounts t s
  | .kickoff r id t => Sys2Proof.Machine.execKickoff r id t s
  | .kickoffFrameTick r t => Sys2Proof.Machine.execKickoffFrameTick r t s
  | .kickoffFrameReturned r fcs loop b t => Sys2Proof.Machine.execKickoffFrameReturned r fcs loop b t s
  | .kickoffLinkTimeout r t => Sys2Proof.Machine.execKickoffLinkTimeout r t s
  | .alignTimeout r t => Sys2Proof.Machine.execAlignTimeout r t s
  | .huddleTimeout r t => Sys2Proof.Machine.execHuddleTimeout r t s
  | .kickoffCollision r sender prio serial t => Sys2Proof.Machine.execKickoffCollision r sender prio serial t s
  | .kickoffLet r t => Sys2Proof.Machine.execKickoffLet r t s
  | .ringStop r t => Sys2Proof.Machine.execRingStop r t s
  | .rejoin r t => Sys2Proof.Machine.execRejoin r t s
  | .portSyncLoss r t => Sys2Proof.Machine.execPortSyncLoss r t s
  | .portSyncRegained r t => Sys2Proof.Machine.execPortSyncRegained r t s
  | .portSyncTimeout r t => Sys2Proof.Machine.execPortSyncTimeout r t s
  | .turnRound r fcs frac b t => Sys2Proof.Machine.execTurnRound r fcs frac b t s
  | .commitMsg q t => Sys2Proof.Machine.execCommitMsg q t s
  | .commitObject sess t => Sys2Proof.Machine.execCommitObject sess t s
  | .commitAdmission t => Sys2Proof.Machine.execCommitAdmission t s
  | .commitDecision t => Sys2Proof.Machine.execCommitDecision t s
  | .commitApply r t => Sys2Proof.Machine.execCommitApply r t s
  | .commitReply t => Sys2Proof.Machine.execCommitReply t s
  | .discard t => Sys2Proof.Machine.execDiscard t s
  | .saveConfig t => Sys2Proof.Machine.execSaveConfig t s
  | .saveComplete verified t => Sys2Proof.Machine.execSaveComplete verified t s
  | .eraseStored t => Sys2Proof.Machine.execEraseStored t s
  | .hostOpen q t => Sys2Proof.Machine.execHostOpen q t s
  | .hostClose q t => Sys2Proof.Machine.execHostClose q t s
  | .hostRead q t => Sys2Proof.Machine.execHostRead q t s
  | .hostWrite q t => Sys2Proof.Machine.execHostWrite q t s
  | .hostClaim q t => Sys2Proof.Machine.execHostClaim q t s
  | .claimObject sess v t => Sys2Proof.Machine.execClaimObject sess v t s
  | .hostPass q t => Sys2Proof.Machine.execHostPass q t s
  | .hostRelease q t => Sys2Proof.Machine.execHostRelease q t s
  | .hostSubscribe q t => Sys2Proof.Machine.execHostSubscribe q t s
  | .leaseRenew sess v t => Sys2Proof.Machine.execLeaseRenew sess v t s
  | .leaseExpiry t => Sys2Proof.Machine.execLeaseExpiry t s
  | .election t => Sys2Proof.Machine.execElection t s
  | .badMsg p intact b t => Sys2Proof.Machine.execBadMsg p intact b t s
  | .chCtrlGo c len t => Sys2Proof.Machine.execChCtrlGo c len t s
  | .replyReadyClear c t => Sys2Proof.Machine.execReplyReadyClear c t s
  | .notifyReadyClear c t => Sys2Proof.Machine.execNotifyReadyClear c t s
  | .registerWrite x off w t => Sys2Proof.Machine.execRegisterWrite x off w t s
  | .timerTrigger flow prio after t => Sys2Proof.Machine.execTimerTrigger flow prio after t s
  | .itemDispatch e t => Sys2Proof.Machine.execItemDispatch e t s
  | .itemComplete e t => Sys2Proof.Machine.execItemComplete e t s
  | .followingError a t => Sys2Proof.Machine.execFollowingError a t s
  | .currentSum a t => Sys2Proof.Machine.execCurrentSum a t s
  | .axisEnable a on t => Sys2Proof.Machine.execAxisEnable a on t s
  | .axisStop a t => Sys2Proof.Machine.execAxisStop a t s
  | .axisQstop a t => Sys2Proof.Machine.execAxisQstop a t s
  | .axisHstop a t => Sys2Proof.Machine.execAxisHstop a t s
  | .faultReset a t => Sys2Proof.Machine.execFaultReset a t s
  | .jogPos a on t => Sys2Proof.Machine.execJogPos a on t s
  | .jogNeg a on t => Sys2Proof.Machine.execJogNeg a on t s
  | .armDelay a t => Sys2Proof.Machine.execArmDelay a t s
  | .armTimeout a t => Sys2Proof.Machine.execArmTimeout a t s
  | .standstill a t => Sys2Proof.Machine.execStandstill a t s
  | .stopTimeout a t => Sys2Proof.Machine.execStopTimeout a t s
  | .modeEntry a t => Sys2Proof.Machine.execModeEntry a t s
  | .stopRequest sess v t => Sys2Proof.Machine.execStopRequest sess v t s
  | .stopClear t => Sys2Proof.Machine.execStopClear t s
  | .vmReplan k t => Sys2Proof.Machine.execVmReplan k t s
  | .limitTrip a pos t => Sys2Proof.Machine.execLimitTrip a pos t s
  | .homeTimeout a t => Sys2Proof.Machine.execHomeTimeout a t s
  | .clearPeak a t => Sys2Proof.Machine.execClearPeak a t s
  | .quadratureEdge u a b t held => Sys2Proof.Machine.execQuadratureEdge u a b t held s
  | .indexEvent u z t held => Sys2Proof.Machine.execIndexEvent u z t held s
  | .absFrame u low l t => Sys2Proof.Machine.execAbsFrame u low l t s
  | .absErrLimit u t => Sys2Proof.Machine.execAbsErrLimit u t s
  | .fbHoldLimit a t => Sys2Proof.Machine.execFbHoldLimit a t s
  | .clearFault u t => Sys2Proof.Machine.execClearFault u t s
  | .latchEvent l t falling => Sys2Proof.Machine.execLatchEvent l t falling s
  | .latchEventAvailable l t => Sys2Proof.Machine.execLatchEventAvailable l t s
  | .latchArm l t => Sys2Proof.Machine.execLatchArm l t s
  | .latchAck l n t => Sys2Proof.Machine.execLatchAck l n t s
  | .compareArm u t => Sys2Proof.Machine.execCompareArm u t s
  | .disarm u t => Sys2Proof.Machine.execDisarm u t s
  | .correction u v t => Sys2Proof.Machine.execCorrection u v t s
  | .compareHit u t => Sys2Proof.Machine.execCompareHit u t s
  | .setTod tod t => Sys2Proof.Machine.execSetTod tod t s
  | .relock t => Sys2Proof.Machine.execRelock t s
  | .ttpEnable c on t => Sys2Proof.Machine.execTtpEnable c on t s
  | .ttpEdge c t => Sys2Proof.Machine.execTtpEdge c t s
  | .timeLatchEvent l t falling => Sys2Proof.Machine.execTimeLatchEvent l t falling s
  | .timeLatchAck l n t => Sys2Proof.Machine.execTimeLatchAck l n t s
  | .loadAll p t => Sys2Proof.Machine.execLoadAll p t s
  | .loadAllMask m t => Sys2Proof.Machine.execLoadAllMask m t s
  | .pwmPeriodStart p t => Sys2Proof.Machine.execPwmPeriodStart p t s
  | .tripInput p active t => Sys2Proof.Machine.execTripInput p active t s
  | .tripForce p t => Sys2Proof.Machine.execTripForce p t s
  | .overcurrent p c l t => Sys2Proof.Machine.execOvercurrent p c l t s
  | .sdInvalid p c l noClock t => Sys2Proof.Machine.execSdInvalid p c l noClock t s
  | .sdValid p c l t => Sys2Proof.Machine.execSdValid p c l t s
  | .tripClear p t => Sys2Proof.Machine.execTripClear p t s
  | .stepEmit p t => Sys2Proof.Machine.execStepEmit p t s
  | .stepHalt p t => Sys2Proof.Machine.execStepHalt p t s
  | .stepInEdge p dir t => Sys2Proof.Machine.execStepInEdge p dir t s
  | .downstreamFrame t rx => Sys2Proof.Machine.execDownstreamFrame t rx s
  | .untimedOutputSwitch t => Sys2Proof.Machine.execUntimedOutputSwitch t s
  | .timedEdge q t => Sys2Proof.Machine.execTimedEdge q t s
  | .dieSafeState t => Sys2Proof.Machine.execDieSafeState t s
  | .dieSafeExit t => Sys2Proof.Machine.execDieSafeExit t s
  | .upstreamFrame t rx => Sys2Proof.Machine.execUpstreamFrame t rx s
  | .linkLost t => Sys2Proof.Machine.execLinkLost t s
  | .linkRecovery t => Sys2Proof.Machine.execLinkRecovery t s
  | .inputEdgeAccepted n0 lv cross t => Sys2Proof.Machine.execInputEdgeAccepted n0 lv cross t s
  | .inputOpen n0 t => Sys2Proof.Machine.execInputOpen n0 t s
  | .outputShort q other ma t => Sys2Proof.Machine.execOutputShort q other ma t s
  | .openLoad q ma t => Sys2Proof.Machine.execOpenLoad q ma t s
  | .outAck q t => Sys2Proof.Machine.execOutAck q t s
  | .outValue q lv t => Sys2Proof.Machine.execOutValue q lv t s
  | .brakeMismatch b h l t => Sys2Proof.Machine.execBrakeMismatch b h l t s
  | .supplyLow vf t => Sys2Proof.Machine.execSupplyLow vf t s
  | .supplyUnder vf t => Sys2Proof.Machine.execSupplyUnder vf t s
  | .supplyOver vf t => Sys2Proof.Machine.execSupplyOver vf t s
  | .supplyRestore vf t => Sys2Proof.Machine.execSupplyRestore vf t s
  | .fieldRestore t => Sys2Proof.Machine.execFieldRestore t s
  | .safetyCycle t => Sys2Proof.Machine.execSafetyCycle t s
  | .safetyAnswerLoss r p t => Sys2Proof.Machine.execSafetyAnswerLoss r p t s
  | .sbcStagger a t => Sys2Proof.Machine.execSbcStagger a t s
  | .heartbeatFault beat t => Sys2Proof.Machine.execHeartbeatFault beat t s
  | .coreFault cause t => Sys2Proof.Machine.execCoreFault cause t s
  | .testTimeout t => Sys2Proof.Machine.execTestTimeout t s
  | .coreSelftestComplete pass t => Sys2Proof.Machine.execCoreSelftestComplete pass t s
  | .discrepancy k t => Sys2Proof.Machine.execDiscrepancy k t s
  | .siDelay k t => Sys2Proof.Machine.execSiDelay k t s
  | .safetyAck t => Sys2Proof.Machine.execSafetyAck t s
  | .sbcReset a t => Sys2Proof.Machine.execSbcReset a t s
  | .btStart a t => Sys2Proof.Machine.execBtStart a t s
  | .engageTime a t => Sys2Proof.Machine.execEngageTime a t s
  | .btProfileEnd t => Sys2Proof.Machine.execBtProfileEnd t s
  | .safetyLogin sess pw t => Sys2Proof.Machine.execSafetyLogin sess pw t s
  | .newPassword sess pw t => Sys2Proof.Machine.execNewPassword sess pw t s
  | .safetyLogout t => Sys2Proof.Machine.execSafetyLogout t s
  | .sessionTimeout t => Sys2Proof.Machine.execSessionTimeout t s
  | .logExported v t => Sys2Proof.Machine.execLogExported v t s
  | .outCtrlGo x ctrl t => Sys2Proof.Machine.execOutCtrlGo x ctrl t s
  | .inAck x w t => Sys2Proof.Machine.execInAck x w t s
  | .mailboxTimeout x t => Sys2Proof.Machine.execMailboxTimeout x t s
  | .mailEcho t => Sys2Proof.Machine.execMailEcho t s
  | .powerRequest t => Sys2Proof.Machine.execPowerRequest t s
  | .wakeN low t => Sys2Proof.Machine.execWakeN low t s
  | .wakeAt t => Sys2Proof.Machine.execWakeAt t s
  | .powerStateChange t => Sys2Proof.Machine.execPowerStateChange t s
  | .acePowerGate e t => Sys2Proof.Machine.execAcePowerGate e t s
  | .aceWake e t => Sys2Proof.Machine.execAceWake e t s
  | .aceInterruptEntry e src t => Sys2Proof.Machine.execAceInterruptEntry e src t s
  | .aceException e code t => Sys2Proof.Machine.execAceException e code t s
  | .aceTimeAbort e t => Sys2Proof.Machine.execAceTimeAbort e t s
  | .aceXldComplete e t => Sys2Proof.Machine.execAceXldComplete e t s
  | .aceMnop n0 => Sys2Proof.Machine.execAceMnop n0 s
  | .aceMpy n0 k a b h => Sys2Proof.Machine.execAceMpy n0 k a b h s
  | .aceMac n0 k a b h => Sys2Proof.Machine.execAceMac n0 k a b h s
  | .aceMsu n0 k a b h => Sys2Proof.Machine.execAceMsu n0 k a b h s
  | .aceMova n0 k a sh => Sys2Proof.Machine.execAceMova n0 k a sh s
  | .aceAdda n0 k a sh => Sys2Proof.Machine.execAceAdda n0 k a sh s
  | .aceCmpy n0 k a b => Sys2Proof.Machine.execAceCmpy n0 k a b s
  | .aceCmac n0 k a b => Sys2Proof.Machine.execAceCmac n0 k a b s
  | .aceExtD n0 d k sh => Sys2Proof.Machine.execAceExtD n0 d k sh s
  | .aceExtW n0 d k sh => Sys2Proof.Machine.execAceExtW n0 d k sh s
  | .aceCext n0 d k sh => Sys2Proof.Machine.execAceCext n0 d k sh s
  | .aceClra n0 k => Sys2Proof.Machine.execAceClra n0 k s
  | .aceExtDv n0 d k t => Sys2Proof.Machine.execAceExtDv n0 d k t s
  | .aceExtWv n0 d k t => Sys2Proof.Machine.execAceExtWv n0 d k t s
  | .aceAnop n0 => Sys2Proof.Machine.execAceAnop n0 s
  | .aceAdd n0 d a b => Sys2Proof.Machine.execAceAdd n0 d a b s
  | .aceSub n0 d a b => Sys2Proof.Machine.execAceSub n0 d a b s
  | .aceAdds n0 d a b => Sys2Proof.Machine.execAceAdds n0 d a b s
  | .aceSubs n0 d a b => Sys2Proof.Machine.execAceSubs n0 d a b s
  | .aceAnd n0 d a b => Sys2Proof.Machine.execAceAnd n0 d a b s
  | .aceOr n0 d a b => Sys2Proof.Machine.execAceOr n0 d a b s
  | .aceXor n0 d a b => Sys2Proof.Machine.execAceXor n0 d a b s
  | .aceShl n0 d a n => Sys2Proof.Machine.execAceShl n0 d a n s
  | .aceShr n0 d a n => Sys2Proof.Machine.execAceShr n0 d a n s
  | .aceSar n0 d a n => Sys2Proof.Machine.execAceSar n0 d a n s
  | .aceSarr n0 d a n => Sys2Proof.Machine.execAceSarr n0 d a n s
  | .aceMin n0 d a b => Sys2Proof.Machine.execAceMin n0 d a b s
  | .aceMax n0 d a b => Sys2Proof.Machine.execAceMax n0 d a b s
  | .aceAbs n0 d a => Sys2Proof.Machine.execAceAbs n0 d a s
  | .aceNeg n0 d a => Sys2Proof.Machine.execAceNeg n0 d a s
  | .aceAddi n0 d a imm => Sys2Proof.Machine.execAceAddi n0 d a imm s
  | .aceLdi n0 d imm ext => Sys2Proof.Machine.execAceLdi n0 d imm ext s
  | .aceCmp n0 d a b cc => Sys2Proof.Machine.execAceCmp n0 d a b cc s
  | .acePadd2 n0 d a b h => Sys2Proof.Machine.execAcePadd2 n0 d a b h s
  | .acePsub2 n0 d a b h => Sys2Proof.Machine.execAcePsub2 n0 d a b h s
  | .aceMtr n0 n a => Sys2Proof.Machine.execAceMtr n0 n a s
  | .aceMfr n0 d n => Sys2Proof.Machine.execAceMfr n0 d n s
  | .aceMts n0 n a => Sys2Proof.Machine.execAceMts n0 n a s
  | .aceMfs n0 d n => Sys2Proof.Machine.execAceMfs n0 d n s
  | .aceBr n0 off => Sys2Proof.Machine.execAceBr n0 off s
  | .aceCall n0 off => Sys2Proof.Machine.execAceCall n0 off s
  | .aceRet n0 => Sys2Proof.Machine.execAceRet n0 s
  | .aceReti n0 => Sys2Proof.Machine.execAceReti n0 s
  | .aceRep n0 useReg a cnt len => Sys2Proof.Machine.execAceRep n0 useReg a cnt len s
  | .aceYield n0 => Sys2Proof.Machine.execAceYield n0 s
  | .aceXwait n0 => Sys2Proof.Machine.execAceXwait n0 s
  | .aceBkpt n0 => Sys2Proof.Machine.execAceBkpt n0 s
  | .aceLnop n0 => Sys2Proof.Machine.execAceLnop n0 s
  | .aceLdD n0 g pn am off => Sys2Proof.Machine.execAceLdD n0 g pn am off s
  | .aceLdW n0 g pn am off => Sys2Proof.Machine.execAceLdW n0 g pn am off s
  | .aceLdWu n0 g pn am off => Sys2Proof.Machine.execAceLdWu n0 g pn am off s
  | .aceLdH n0 g pn am off => Sys2Proof.Machine.execAceLdH n0 g pn am off s
  | .aceLdHu n0 g pn am off => Sys2Proof.Machine.execAceLdHu n0 g pn am off s
  | .aceStD n0 g pn am off => Sys2Proof.Machine.execAceStD n0 g pn am off s
  | .aceStW n0 g pn am off => Sys2Proof.Machine.execAceStW n0 g pn am off s
  | .aceStH n0 g pn am off => Sys2Proof.Machine.execAceStH n0 g pn am off s
  | .aceLd2D n0 rp pa oa pb ob => Sys2Proof.Machine.execAceLd2D n0 rp pa oa pb ob s
  | .aceSt2D n0 rp pa oa pb ob => Sys2Proof.Machine.execAceSt2D n0 rp pa oa pb ob s
  | .aceLdstD n0 d pa g pb => Sys2Proof.Machine.execAceLdstD n0 d pa g pb s
  | .acePmod n0 pn imm => Sys2Proof.Machine.execAcePmod n0 pn imm s
  | .aceXldD n0 g pn am off => Sys2Proof.Machine.execAceXldD n0 g pn am off s
  | .aceXstD n0 g pn am off => Sys2Proof.Machine.execAceXstD n0 g pn am off s
  | .dispClear t => Sys2Proof.Machine.execDispClear t s
  | .pmcCfg core k w t => Sys2Proof.Machine.execPmcCfg core k w t s
  | .samplePeriod e v t => Sys2Proof.Machine.execSamplePeriod e v t s
  | .clearCounters t => Sys2Proof.Machine.execClearCounters t s
  | .sampleClear t => Sys2Proof.Machine.execSampleClear t s
  | .captureArm v t => Sys2Proof.Machine.execCaptureArm v t s
  | .captureTick outside full t => Sys2Proof.Machine.execCaptureTick outside full t s
  | .traceArm v t => Sys2Proof.Machine.execTraceArm v t s
  | .frfStart t => Sys2Proof.Machine.execFrfStart t s
  | .injectionEnd t => Sys2Proof.Machine.execInjectionEnd t s
  | .powerOn vaonFell core t => Sys2Proof.Machine.execPowerOn vaonFell core t s
  | .resetN low t => Sys2Proof.Machine.execResetN low t s
  | .watchdog p fed t => Sys2Proof.Machine.execWatchdog p fed t s
  | .resetUnit t => Sys2Proof.Machine.execResetUnit t s
  | .bootImageLoaded prog keys t => Sys2Proof.Machine.execBootImageLoaded prog keys t s
  | .configurationStep ids t => Sys2Proof.Machine.execConfigurationStep ids t s
  | .unknownOpcode op q t => Sys2Proof.Machine.execUnknownOpcode op q t s
  | .supplyNormal vf t => Sys2Proof.Machine.execSupplyNormal vf t s
  | .inputOpenCleared n0 t => Sys2Proof.Machine.execInputOpenCleared n0 t s
  | .openLoadCleared q ma t => Sys2Proof.Machine.execOpenLoadCleared q ma t s
  | .comparePulseFall u t => Sys2Proof.Machine.execComparePulseFall u t s
  | .pauseFrame _r t => Sys2Proof.Machine.execPauseFrame _r t s
  | .arpRequest port ip mac src t => Sys2Proof.Machine.execArpRequest port ip mac src t s
  | .icmpEcho port ip src data t => Sys2Proof.Machine.execIcmpEcho port ip src data t s
  | .vmTableExtend t => Sys2Proof.Machine.execVmTableExtend t s
  | .illegalLimit u t => Sys2Proof.Machine.execIllegalLimit u t s
  | .wireFault u pair inside t => Sys2Proof.Machine.execWireFault u pair inside t s
  | .absCheckPeriod u t => Sys2Proof.Machine.execAbsCheckPeriod u t s
  | .syncMessage port domain src seqNo twoStep t1 t => Sys2Proof.Machine.execSyncMessage port domain src seqNo twoStep t1 t s
  | .followUpMessage port domain src seqNo t1 t => Sys2Proof.Machine.execFollowUpMessage port domain src seqNo t1 t s
  | .delayReqMessage port domain seqNo src t => Sys2Proof.Machine.execDelayReqMessage port domain seqNo src t s
  | .delayRespMessage port domain src seqNo t4 t => Sys2Proof.Machine.execDelayRespMessage port domain src seqNo t4 t s
  | .announceMessage port domain src ds utc interval t => Sys2Proof.Machine.execAnnounceMessage port domain src ds utc interval t s
  | .tcForward kind src seqNo corr ingress egress => Sys2Proof.Machine.execTcForward kind src seqNo corr ingress egress s
  | .syncInterval t => Sys2Proof.Machine.execSyncInterval t s
  | .syncLoss t => Sys2Proof.Machine.execSyncLoss t s
  | .outOfRange t => Sys2Proof.Machine.execOutOfRange t s
  | .benchTime t1 t2 t3 t4 tod t => Sys2Proof.Machine.execBenchTime t1 t2 t3 t4 tod t s
  | .testInterval a t => Sys2Proof.Machine.execTestInterval a t s
  | .testGrace a t => Sys2Proof.Machine.execTestGrace a t s
  | .lockoutEnd t => Sys2Proof.Machine.execLockoutEnd t s
  | .hello serial prio end_ tested restarted ids t => Sys2Proof.Machine.execHello serial prio end_ tested restarted ids t s
  | .pairWait ids t => Sys2Proof.Machine.execPairWait ids t s
  | .pairStart t => Sys2Proof.Machine.execPairStart t s
  | .pairingStepComplete ok recs crc safety t => Sys2Proof.Machine.execPairingStepComplete ok recs crc safety t s
  | .digest b t => Sys2Proof.Machine.execDigest b t s
  | .stateRecord a k x t => Sys2Proof.Machine.execStateRecord a k x t s
  | .inputsRecord fi valid brakes counts speeds lats t => Sys2Proof.Machine.execInputsRecord fi valid brakes counts speeds lats t s
  | .mirrorRecord n m t => Sys2Proof.Machine.execMirrorRecord n m t s
  | .emitRecord r cycle len t => Sys2Proof.Machine.execEmitRecord r cycle len t s
  | .pairRequest k v w t => Sys2Proof.Machine.execPairRequest k v w t s
  | .regionsRecord r p n data t => Sys2Proof.Machine.execRegionsRecord r p n data t s
  | .mailbox ack x words t => Sys2Proof.Machine.execMailbox ack x words t s
  | .activeLost since t => Sys2Proof.Machine.execActiveLost since t s
  | .activeStall t => Sys2Proof.Machine.execActiveStall t s
  | .activeRequest t => Sys2Proof.Machine.execActiveRequest t s
  | .yieldIn t => Sys2Proof.Machine.execYieldIn t s
  | .yieldRelease t => Sys2Proof.Machine.execYieldRelease t s
  | .benchLockLoss since t => Sys2Proof.Machine.execBenchLockLoss since t s
  | .drill t => Sys2Proof.Machine.execDrill t s
  | .drillSwap t => Sys2Proof.Machine.execDrillSwap t s
  | .drillBack t => Sys2Proof.Machine.execDrillBack t s
  | .splitStart r t => Sys2Proof.Machine.execSplitStart r t s
  | .healRing r t => Sys2Proof.Machine.execHealRing r t s
  | .healRejoin r t => Sys2Proof.Machine.execHealRejoin r t s
  | .gratuitousArp t => Sys2Proof.Machine.execGratuitousArp t s
  | .pmcOverflow e k t => Sys2Proof.Machine.execPmcOverflow e k t s
  | .frfDone t => Sys2Proof.Machine.execFrfDone t s
  | .railFault rail ns vaonFell t => Sys2Proof.Machine.execRailFault rail ns vaonFell t s
  | .fwUpload sess off total v t => Sys2Proof.Machine.execFwUpload sess off total v t s
  | .thermalSample temps t => Sys2Proof.Machine.execThermalSample temps t s
  | .thermalLimit t => Sys2Proof.Machine.execThermalLimit t s
  | .clearTjPeak t => Sys2Proof.Machine.execClearTjPeak t s
  | .pcieHotReset t => Sys2Proof.Machine.execPcieHotReset t s
  | .vaonLoss t => Sys2Proof.Machine.execVaonLoss t s
  | .supervisorRelease t => Sys2Proof.Machine.execSupervisorRelease t s
  | .extest t => Sys2Proof.Machine.execExtest t s
  | .mirrorAck n t => Sys2Proof.Machine.execMirrorAck n t s

end Sys2Proof.Machine
end

