-- ==== Sys2Proof/WellFormed.lean ====
section
/-! DEFINITION. Well-formed commands: every operand that names a thing of the block lies inside the range that the spec gives it. -/

namespace Sys2Proof

/-- The opcodes of Table 06-2. -/
def unknownOpcodes : List Nat := [1, 2, 16, 17, 18, 32, 33, 34, 48]

/-- A ring A to D (R20). -/
def okRing (r : Nat) : Bool := decide (r < 4)

/-- A worker position (R69). -/
def okPosition (p : Nat) : Bool := decide (1 ≤ p ∧ p ≤ 64)

/-- An axis (R2). -/
def okAxis (a : Nat) : Bool := decide (a < 256)

/-- One of eight: engines (R257), drive ports, compare and latch units, absolute encoders, pulse channels, virtual masters, brake channels, counters. -/
def okEight (x : Nat) : Bool := decide (x < 8)

/-- One of four: safety input pairs (R352), differential pairs of an ENC unit (R236). -/
def okFour (x : Nat) : Bool := decide (x < 4)

/-- The check of a frame as received: 0 correct, 1 stomped, 2 fresh (R57). -/
def okFcs (x : Nat) : Bool := decide (x < 3)

/-- A PCIe command channel (R153). -/
def okChannel (c : Nat) : Bool := decide (c < 4)

/-- A transport: 0 H1, 1 H2, 2 to 5 the PCIe channels. -/
def okTransport (v : Nat) : Bool := decide (v < 6)

/-- A host port: 0 H1, 1 H2. -/
def okPort (p : Nat) : Bool := decide (p < 2)

/-- A session id (R142). -/
def okSession (k : Nat) : Bool := decide (k < 16)

/-- A request comes over a transport. -/
def okReq (q : Req) : Bool := okTransport q.via

/-- An opcode outside Table 06-2. -/
def okUnknownOpcode (op : Nat) : Bool := decide (op < 256) && !unknownOpcodes.contains op

/-- A priority class of an item (R285). -/
def okPriority (p : Nat) : Bool := decide (p < 4)

/-- A mailbox endpoint (R386), 0 the host. -/
def okEndpoint (x : Nat) : Bool := decide (x < 15)

/-- An aligned 32-bit register (R153). -/
def okWordOffset (off : Nat) : Bool := decide (off % 4 = 0)

/-- A mailbox message (R389). -/
def okMessage (l : List Word) : Bool := decide (l.length ≤ 16)

/-- A field input FI0 to FI23 (R328). -/
def okInput (i : Nat) : Bool := decide (i < 24)

/-- A field output FQ0 to FQ15 (R327). -/
def okOutput (q : Nat) : Bool := decide (q < 16)

/-- An output, or none. -/
def okOptOutput (q : Option Nat) : Bool := q.all okOutput

/-- A sigma-delta channel of a port (R308). -/
def okPhase (c : Nat) : Bool := decide (c < 3)

/-- A feedback unit: 0 to 7 ENC, 8 to 11 ME (R232). -/
def okUnit (u : Nat) : Bool := decide (u < 12)

/-- A referee cause raised by the core: ECC, FLOW, SELFTEST, CLOCK, MC_MISMATCH (R340). -/
def okCoreCause (x : Nat) : Bool := [2, 3, 4, 5, 8].contains x

/-- An interrupt source of an engine: DOORBELL, PMU, DEBUG (R272). -/
def okIntSource (x : Nat) : Bool := decide (x < 3)

/-- An exception of an engine (R276). -/
def okExcCode (x : Nat) : Bool := decide (1 ≤ x ∧ x ≤ 4)

/-- A core with counters: eight engines, four management cores (R403). -/
def okCore (x : Nat) : Bool := decide (x < 12)

/-- A management pair (R424). -/
def okPairNo (p : Nat) : Bool := decide (p < 2)

/-- A rail of Table 19-10. -/
def okRail (x : Nat) : Bool := decide (x < 9)

/-- A PTP message that a transparent clock corrects (R97). -/
def okTcKind (x : Nat) : Bool := decide (x < 5)

/-- A REQUEST of the partner (Table 15-2). -/
def okRequest (k : Nat) : Bool := decide (1 ≤ k ∧ k ≤ 7)

/-- A place of an operation: engine and predicate; c0 takes no negation (R263). -/
def okAce (i : AceAt) : Bool := decide (i.eng < 8 ∧ i.pr < 8 ∧ (i.pn = true → i.pr ≠ 0))

/-- A general register g0 to g31 (Table 10-7). -/
def okReg (x : Nat) : Bool := decide (x < 32)

/-- A register pair (format L2). -/
def okRegPair (x : Nat) : Bool := decide (x < 16)

/-- A pointer p0 to p7. -/
def okPtr (x : Nat) : Bool := decide (x < 8)

/-- A predicate c0 to c7. -/
def okPred (x : Nat) : Bool := decide (x < 8)

/-- A register number of format X. -/
def okXreg (x : Nat) : Bool := decide (x < 32)

/-- An accumulator acc0 to acc3 (format M). -/
def okAcc (x : Nat) : Bool := decide (x < 4)

/-- A shift count N (format R). -/
def okShift6 (x : Nat) : Bool := decide (x < 64)

/-- A shift SH (format M). -/
def okShift7 (x : Nat) : Bool := decide (x < 128)

/-- A condition of CMP (Table 10-8). -/
def okCond (x : Nat) : Bool := decide (x < 6)

/-- IMM25 (format J). -/
def okImm25 (x : Nat) : Bool := decide (x < 2 ^ 25)

/-- The extension of LDI: bits [38:0] of the M syllable (R263). -/
def okImmExt (x : Option Nat) : Bool := x.all fun e => decide (e < 2 ^ 39)

/-- IMM20, signed. -/
def okImm20 (x : Int) : Bool := decide (-524288 ≤ x ∧ x < 524288)

/-- OFF24, signed (format B). -/
def okOff24 (x : Int) : Bool := decide (-8388608 ≤ x ∧ x < 8388608)

/-- OFF10, signed (format L). -/
def okOff10 (x : Int) : Bool := decide (-512 ≤ x ∧ x < 512)

/-- OA or OB, signed (format L2). -/
def okOff4 (x : Int) : Bool := decide (-8 ≤ x ∧ x < 8)

/-- AM: 3 is reserved (format L). -/
def okAddrMode (x : Nat) : Bool := decide (x < 3)

/-- COUNT16 (format P). -/
def okCount16 (x : Nat) : Bool := decide (x < 65536)

/-- LEN, 1 to 255 bundles (format P). -/
def okLen (x : Nat) : Bool := decide (1 ≤ x ∧ x ≤ 255)

/-- A command whose operands lie inside their ranges. -/
def Instr.wellFormed (x : Instr) : Bool :=
  match x with
  | .whistle r _ _ => okRing r
  | .frameEmission r _ => okRing r
  | .sampleRegionLanded r p _ _ _ => okRing r && okPosition p
  | .frameReturned r fcs _ _ _ => okRing r && okFcs fcs
  | .computeDeadline r _ => okRing r
  | .overrun a _ => okAxis a
  | .frameMissingLimit r _ => okRing r
  | .huddleGo _ => true
  | .huddleDecision _ => true
  | .huddleSwitch r _ => okRing r
  | .clearCounts _ => true
  | .kickoff r _ _ => okRing r
  | .kickoffFrameTick r _ => okRing r
  | .kickoffFrameReturned r fcs _ _ _ => okRing r && okFcs fcs
  | .kickoffLinkTimeout r _ => okRing r
  | .alignTimeout r _ => okRing r
  | .huddleTimeout r _ => okRing r
  | .kickoffCollision r _ _ _ _ => okRing r
  | .kickoffLet r _ => okRing r
  | .ringStop r _ => okRing r
  | .rejoin r _ => okRing r
  | .portSyncLoss r _ => okRing r
  | .portSyncRegained r _ => okRing r
  | .portSyncTimeout r _ => okRing r
  | .turnRound r fcs _ _ _ => okRing r && okFcs fcs
  | .commitMsg q _ => okReq q
  | .commitObject sess _ => okSession sess
  | .commitAdmission _ => true
  | .commitDecision _ => true
  | .commitApply r _ => okRing r
  | .commitReply _ => true
  | .discard _ => true
  | .saveConfig _ => true
  | .saveComplete _ _ => true
  | .eraseStored _ => true
  | .hostOpen q _ => okReq q
  | .hostClose q _ => okReq q
  | .hostRead q _ => okReq q
  | .hostWrite q _ => okReq q
  | .hostClaim q _ => okReq q
  | .claimObject sess _ _ => okSession sess
  | .hostPass q _ => okReq q
  | .hostRelease q _ => okReq q
  | .hostSubscribe q _ => okReq q
  | .leaseRenew sess _ _ => okSession sess
  | .leaseExpiry _ => true
  | .election _ => true
  | .badMsg p _ _ _ => okTransport p.via
  | .chCtrlGo c _ _ => okChannel c
  | .replyReadyClear c _ => okChannel c
  | .notifyReadyClear c _ => okChannel c
  | .registerWrite x off _ _ => okEndpoint x && okWordOffset off
  | .timerTrigger _ prio _ _ => okPriority prio
  | .itemDispatch e _ => okEight e
  | .itemComplete e _ => okEight e
  | .followingError a _ => okAxis a
  | .currentSum a _ => okAxis a
  | .axisEnable a _ _ => okAxis a
  | .axisStop a _ => okAxis a
  | .axisQstop a _ => okAxis a
  | .axisHstop a _ => okAxis a
  | .faultReset a _ => okAxis a
  | .jogPos a _ _ => okAxis a
  | .jogNeg a _ _ => okAxis a
  | .armDelay a _ => okAxis a
  | .armTimeout a _ => okAxis a
  | .standstill a _ => okAxis a
  | .stopTimeout a _ => okAxis a
  | .modeEntry a _ => okAxis a
  | .stopRequest sess _ _ => okSession sess
  | .stopClear _ => true
  | .vmReplan k _ => okEight k
  | .limitTrip a _ _ => okAxis a
  | .homeTimeout a _ => okAxis a
  | .clearPeak a _ => okAxis a
  | .quadratureEdge u _ _ _ _ => okUnit u
  | .indexEvent u _ _ _ => okUnit u
  | .absFrame u _ _ _ => okEight u
  | .absErrLimit u _ => okEight u
  | .fbHoldLimit a _ => okAxis a
  | .clearFault u _ => okUnit u
  | .latchEvent l _ _ => okEight l
  | .latchEventAvailable l _ => okEight l
  | .latchArm l _ => okEight l
  | .latchAck l _ _ => okEight l
  | .compareArm u _ => okEight u
  | .disarm u _ => okEight u
  | .correction u _ _ => okEight u
  | .compareHit u _ => okEight u
  | .setTod _ _ => true
  | .relock _ => true
  | .ttpEnable c _ _ => okEight c
  | .ttpEdge c _ => okEight c
  | .timeLatchEvent l _ _ => okEight l
  | .timeLatchAck l _ _ => okEight l
  | .loadAll p _ => okEight p
  | .loadAllMask _ _ => true
  | .pwmPeriodStart p _ => okEight p
  | .tripInput p _ _ => okEight p
  | .tripForce p _ => okEight p
  | .overcurrent p c _ _ => okEight p && okPhase c
  | .sdInvalid p c _ _ _ => okEight p && okPhase c
  | .sdValid p c _ _ => okEight p && okPhase c
  | .tripClear p _ => okEight p
  | .stepEmit p _ => okEight p
  | .stepHalt p _ => okEight p
  | .stepInEdge p _ _ => okEight p
  | .downstreamFrame _ _ => true
  | .untimedOutputSwitch _ => true
  | .timedEdge q _ => okOutput q
  | .dieSafeState _ => true
  | .dieSafeExit _ => true
  | .upstreamFrame _ _ => true
  | .linkLost _ => true
  | .linkRecovery _ => true
  | .inputEdgeAccepted i _ _ _ => okInput i
  | .inputOpen i _ => okInput i
  | .outputShort q other _ _ => okOutput q && okOptOutput other
  | .openLoad q _ _ => okOutput q
  | .outAck q _ => okOutput q
  | .outValue q _ _ => okOutput q
  | .brakeMismatch b _ _ _ => okEight b
  | .supplyLow _ _ => true
  | .supplyUnder _ _ => true
  | .supplyOver _ _ => true
  | .supplyRestore _ _ => true
  | .fieldRestore _ => true
  | .safetyCycle _ => true
  | .safetyAnswerLoss r p _ => okRing r && okPosition p
  | .sbcStagger a _ => okAxis a
  | .heartbeatFault _ _ => true
  | .coreFault cause _ => okCoreCause cause
  | .testTimeout _ => true
  | .coreSelftestComplete _ _ => true
  | .discrepancy k _ => okFour k
  | .siDelay k _ => okFour k
  | .safetyAck _ => true
  | .sbcReset a _ => okAxis a
  | .btStart a _ => okAxis a
  | .engageTime a _ => okAxis a
  | .btProfileEnd _ => true
  | .safetyLogin sess _ _ => okSession sess
  | .newPassword sess _ _ => okSession sess
  | .safetyLogout _ => true
  | .sessionTimeout _ => true
  | .logExported _ _ => true
  | .outCtrlGo x _ _ => okEndpoint x
  | .inAck x _ _ => okEndpoint x
  | .mailboxTimeout x _ => okEndpoint x
  | .mailEcho _ => true
  | .powerRequest _ => true
  | .wakeN _ _ => true
  | .wakeAt _ => true
  | .powerStateChange _ => true
  | .acePowerGate e _ => okEight e
  | .aceWake e _ => okEight e
  | .aceInterruptEntry e src _ => okEight e && okIntSource src
  | .aceException e code _ => okEight e && okExcCode code
  | .aceTimeAbort e _ => okEight e
  | .aceXldComplete e _ => okEight e
  | .aceMnop i => okAce i
  | .aceMpy i k a b _ => okAce i && okAcc k && okReg a && okReg b
  | .aceMac i k a b _ => okAce i && okAcc k && okReg a && okReg b
  | .aceMsu i k a b _ => okAce i && okAcc k && okReg a && okReg b
  | .aceMova i k a sh => okAce i && okAcc k && okReg a && okShift7 sh
  | .aceAdda i k a sh => okAce i && okAcc k && okReg a && okShift7 sh
  | .aceCmpy i k a b => okAce i && okAcc k && okReg a && okReg b
  | .aceCmac i k a b => okAce i && okAcc k && okReg a && okReg b
  | .aceExtD i d k sh => okAce i && okReg d && okAcc k && okShift7 sh
  | .aceExtW i d k sh => okAce i && okReg d && okAcc k && okShift7 sh
  | .aceCext i d k sh => okAce i && okReg d && okAcc k && okShift7 sh
  | .aceClra i k => okAce i && okAcc k
  | .aceExtDv i d k t => okAce i && okReg d && okAcc k && okReg t
  | .aceExtWv i d k t => okAce i && okReg d && okAcc k && okReg t
  | .aceAnop i => okAce i
  | .aceAdd i d a b => okAce i && okReg d && okReg a && okReg b
  | .aceSub i d a b => okAce i && okReg d && okReg a && okReg b
  | .aceAdds i d a b => okAce i && okReg d && okReg a && okReg b
  | .aceSubs i d a b => okAce i && okReg d && okReg a && okReg b
  | .aceAnd i d a b => okAce i && okReg d && okReg a && okReg b
  | .aceOr i d a b => okAce i && okReg d && okReg a && okReg b
  | .aceXor i d a b => okAce i && okReg d && okReg a && okReg b
  | .aceShl i d a n => okAce i && okReg d && okReg a && okShift6 n
  | .aceShr i d a n => okAce i && okReg d && okReg a && okShift6 n
  | .aceSar i d a n => okAce i && okReg d && okReg a && okShift6 n
  | .aceSarr i d a n => okAce i && okReg d && okReg a && okShift6 n
  | .aceMin i d a b => okAce i && okReg d && okReg a && okReg b
  | .aceMax i d a b => okAce i && okReg d && okReg a && okReg b
  | .aceAbs i d a => okAce i && okReg d && okReg a
  | .aceNeg i d a => okAce i && okReg d && okReg a
  | .aceAddi i d a imm => okAce i && okReg d && okReg a && okImm20 imm
  | .aceLdi i d imm ext => okAce i && okReg d && okImm25 imm && okImmExt ext
  | .aceCmp i d a b cc => okAce i && okPred d && okReg a && okReg b && okCond cc
  | .acePadd2 i d a b _ => okAce i && okReg d && okReg a && okReg b
  | .acePsub2 i d a b _ => okAce i && okReg d && okReg a && okReg b
  | .aceMtr i n a => okAce i && okXreg n && okReg a
  | .aceMfr i d n => okAce i && okReg d && okXreg n
  | .aceMts i n a => okAce i && okXreg n && okReg a
  | .aceMfs i d n => okAce i && okReg d && okXreg n
  | .aceBr i off => okAce i && okOff24 off
  | .aceCall i off => okAce i && okOff24 off
  | .aceRet i => okAce i
  | .aceReti i => okAce i
  | .aceRep i _ a cnt len => okAce i && okReg a && okCount16 cnt && okLen len
  | .aceYield i => okAce i
  | .aceXwait i => okAce i
  | .aceBkpt i => okAce i
  | .aceLnop i => okAce i
  | .aceLdD i g pn am off => okAce i && okReg g && okPtr pn && okAddrMode am && okOff10 off
  | .aceLdW i g pn am off => okAce i && okReg g && okPtr pn && okAddrMode am && okOff10 off
  | .aceLdWu i g pn am off => okAce i && okReg g && okPtr pn && okAddrMode am && okOff10 off
  | .aceLdH i g pn am off => okAce i && okReg g && okPtr pn && okAddrMode am && okOff10 off
  | .aceLdHu i g pn am off => okAce i && okReg g && okPtr pn && okAddrMode am && okOff10 off
  | .aceStD i g pn am off => okAce i && okReg g && okPtr pn && okAddrMode am && okOff10 off
  | .aceStW i g pn am off => okAce i && okReg g && okPtr pn && okAddrMode am && okOff10 off
  | .aceStH i g pn am off => okAce i && okReg g && okPtr pn && okAddrMode am && okOff10 off
  | .aceLd2D i rp pa oa pb ob => okAce i && okRegPair rp && okPtr pa && okOff4 oa && okPtr pb && okOff4 ob
  | .aceSt2D i rp pa oa pb ob => okAce i && okRegPair rp && okPtr pa && okOff4 oa && okPtr pb && okOff4 ob
  | .aceLdstD i d pa g pb => okAce i && okReg d && okPtr pa && okReg g && okPtr pb
  | .acePmod i pn imm => okAce i && okPtr pn && okImm20 imm
  | .aceXldD i g pn am off => okAce i && okReg g && okPtr pn && okAddrMode am && okOff10 off
  | .aceXstD i g pn am off => okAce i && okReg g && okPtr pn && okAddrMode am && okOff10 off
  | .dispClear _ => true
  | .pmcCfg core k _ _ => okCore core && okEight k
  | .samplePeriod e _ _ => okEight e
  | .clearCounters _ => true
  | .sampleClear _ => true
  | .captureArm _ _ => true
  | .captureTick _ _ _ => true
  | .traceArm _ _ => true
  | .frfStart _ => true
  | .injectionEnd _ => true
  | .powerOn _ _ _ => true
  | .resetN _ _ => true
  | .watchdog p _ _ => okPairNo p
  | .resetUnit _ => true
  | .bootImageLoaded _ _ _ => true
  | .configurationStep _ _ => true
  | .unknownOpcode op q _ => okUnknownOpcode op && okReq q
  | .supplyNormal _ _ => true
  | .inputOpenCleared i _ => okInput i
  | .openLoadCleared q _ _ => okOutput q
  | .comparePulseFall u _ => okEight u
  | .pauseFrame _ _ => true
  | .arpRequest port _ _ _ _ => okPort port
  | .icmpEcho port _ _ _ _ => okPort port
  | .vmTableExtend _ => true
  | .illegalLimit u _ => okUnit u
  | .wireFault u pair _ _ => okEight u && okFour pair
  | .absCheckPeriod u _ => okEight u
  | .syncMessage port _ _ _ _ _ _ => okPort port
  | .followUpMessage port _ _ _ _ _ => okPort port
  | .delayReqMessage port _ _ _ _ => okPort port
  | .delayRespMessage port _ _ _ _ _ => okPort port
  | .announceMessage port _ _ _ _ _ _ => okPort port
  | .tcForward kind _ _ _ _ _ => okTcKind kind
  | .syncInterval _ => true
  | .syncLoss _ => true
  | .outOfRange _ => true
  | .benchTime _ _ _ _ _ _ => true
  | .testInterval a _ => okAxis a
  | .testGrace a _ => okAxis a
  | .lockoutEnd _ => true
  | .hello _ _ _ _ _ _ _ => true
  | .pairWait _ _ => true
  | .pairStart _ => true
  | .pairingStepComplete _ _ _ _ _ => true
  | .digest _ _ => true
  | .stateRecord a _ _ _ => okAxis a
  | .inputsRecord _ _ _ _ _ _ _ => true
  | .mirrorRecord _ _ _ => true
  | .emitRecord r _ _ _ => okRing r
  | .pairRequest k _ _ _ => okRequest k
  | .regionsRecord r p _ _ _ => okRing r && okPosition p
  | .mailbox _ x words _ => okEndpoint x && okMessage words
  | .activeLost _ _ => true
  | .activeStall _ => true
  | .activeRequest _ => true
  | .yieldIn _ => true
  | .yieldRelease _ => true
  | .benchLockLoss _ _ => true
  | .drill _ => true
  | .drillSwap _ => true
  | .drillBack _ => true
  | .splitStart r _ => okRing r
  | .healRing r _ => okRing r
  | .healRejoin r _ => okRing r
  | .gratuitousArp _ => true
  | .pmcOverflow e k _ => okEight e && okEight k
  | .frfDone _ => true
  | .railFault rail _ _ _ => okRail rail
  | .fwUpload sess _ _ _ _ => okSession sess
  | .thermalSample _ _ => true
  | .thermalLimit _ => true
  | .clearTjPeak _ => true
  | .pcieHotReset _ => true
  | .vaonLoss _ => true
  | .supervisorRelease _ => true
  | .extest _ => true
  | .mirrorAck _ _ => true

end Sys2Proof
end

