-- ==== Sys2Proof/Safety.lean ====
section
/-! DEFINITION. What counts as a safe run, and the words the statements about the block are made of: what a command answers, what it
leaves as it was, when an operation of a bundle executes. -/

namespace Sys2Proof.Machine

/-- The step from a state answers a next state. -/
def Steps (s : State) : Prop := ∃ t, step s = .next t

/-- A command answers a next state of which `P` holds. -/
def Answers (c : Instr) (s : State) (P : State → Prop) : Prop := ∃ t, exec c s = .next t ∧ P t

/-- Every dictionary key but those of the list holds in `t` what it held in `s`. -/
def ObjectsKept (keys : List Nat) (s t : State) : Prop := ∀ k, k ∉ keys → SMap.get? t.od k = SMap.get? s.od k

/-- Every byte of the shared SRAM, of the user-code SRAM and of every engine's data SRAM reads in `t` as in `s`. -/
def BytesKept (s t : State) : Prop :=
  ∀ a, Mem.get t.shared a = Mem.get s.shared a ∧ Mem.get t.ucode a = Mem.get s.ucode a ∧
    ∀ e, Mem.get (t.ace e).mem a = Mem.get (s.ace e).mem a

/-- Every axis but those of the list is in `t` what it was in `s`. -/
def AxesKept (l : List Nat) (s t : State) : Prop := ∀ a, a ∉ l → t.axis a = s.axis a

/-! ### Invariants -/

/-- Every waiting command is one the spec's operand ranges admit. -/
def QueueWellFormed (s : State) : Prop := ∀ c ∈ s.pending, c.wellFormed = true

/-- The byte memories are in their one canonical form. -/
def MemoriesCanonical (s : State) : Prop := Mem.wf s.shared = true ∧ Mem.wf s.ucode = true ∧ ∀ e, Mem.wf (s.ace e).mem = true

/-! ### Operations of a bundle (R263) -/

/-- The operation at a place of a bundle executes: the unit runs, its engine is powered and not
halted, the bundle has raised no exception, and its predicate is true. -/
abbrev OpExecutes (i : AceAt) (s : State) : Prop :=
  unitRuns s = true ∧ (s.ace i.eng).powered = true ∧ (s.ace i.eng).halted = false ∧ (s.ace i.eng).exc = none ∧ (s.ace i.eng).pred i.pr ≠ i.pn

/-- `s` with the operation of a slot (0 M, 1 A, 2 L) entered as executed. -/
def marked (s : State) (e slot : Nat) : State := s.modAce e fun x => { x with ran := setBit x.ran slot true }

/-- The bundle issued after its last operation. -/
def issued (i : AceAt) (s : State) : State := if i.last then bundleEnd s i.eng else s

/-- The command answers by entering one result: of slot `slot`, usable `lat` bundles on, for `d`, of value `v`. -/
def Enters (c : Instr) (i : AceAt) (s : State) (slot lat : Nat) (d : Dest) (v : Int) : Prop :=
  exec c s = .next (issued i ((marked s i.eng slot).modAce i.eng fun x => x.send slot lat d v))

/-- The same for a result that may saturate: FLAGS bit `flag` is set and the event SAT counted where `satd` holds. -/
def EntersSat (c : Instr) (i : AceAt) (s : State) (slot lat : Nat) (d : Dest) (v : Int) (flag : Nat) (satd : Bool) : Prop :=
  exec c s = .next (issued i (aceSat ((marked s i.eng slot).modAce i.eng fun x => x.send slot lat d v) i.eng flag satd))

/-- The command answers by writing an accumulator of 96 bits with saturation, setting ACC_SAT where it saturates. -/
def Accumulates (c : Instr) (i : AceAt) (s : State) (k : Nat) (v : Int) : Prop :=
  exec c s = .next (issued i (aceSat ((marked s i.eng 0).modAce i.eng fun x =>
    { x.send 0 4 (.acc k) (sat 96 v) with acc := SMap.put x.acc k (sat 96 v) }) i.eng 1 (decide (sat 96 v ≠ v))))

/-! ### Resets (R422, R423) -/

/-- What a reset of a kind leaves of `s` (Table 18-1): RESET_CAUSE names it, start-up begins anew, axes, rings, workers, engines, shared memories, staged copy,
snapshots, sessions and commits are as at the very first reset, and the waiting commands are untouched. -/
def ResetLeaves (s u : State) (cause : Int) : Prop :=
  u.get Ob.Rst.RESET_CAUSE = cause ∧ u.get Ob.Rst.START_STATE = 0 ∧ u.boot.configured = false ∧ u.boot.running = none ∧ u.axes = [] ∧ u.rings = [] ∧
  u.wks = [] ∧ u.engs = [] ∧ u.aces = [] ∧ u.shared = [] ∧ u.ucode = [] ∧ u.staged = [] ∧ u.snaps = [] ∧ u.eps = [] ∧ u.host = State.reset.host ∧
  u.com = State.reset.com ∧ u.hud = State.reset.hud ∧ u.pending = s.pending

/-! ### Requests of sessions (R132, R138, R139) -/

/-- A request that reaches a running, configured unit (R132) without a partner serves as a new one of an open session over Ethernet. -/
abbrev NewRequest (s : State) (q : Req) : Prop :=
  listens s q.toPath = true ∧ s.boot.configured = true ∧ s.flag Ob.PairC.PAIR_ENABLE = false ∧ s.get Ob.Pair.ROLE = 0 ∧ q.via < 2 ∧ admitted s q = true ∧
  (windowOf (s.sess q.sess) q.seqNo).1 = none ∧ (windowOf (s.sess q.sess) q.seqNo).2.1 = true ∧ s.boot.resetDue = false ∧ s.boot.standbyDue = false

/-- An open session writes an object of a running, configured unit without a partner, so that the write is answered at once (R139, R150, R430). -/
abbrev SessionWrites (s : State) (sess : Nat) : Prop :=
  unitRuns s = true ∧ sessOpen s sess = true ∧ s.boot.configured = true ∧ s.flag Ob.PairC.PAIR_ENABLE = false

/-- The newest message sent is the reply to a request, with a status and a body. -/
def Replied (u : State) (op : Nat) (q : Req) (status : Nat) (body : List Byte) : Prop :=
  u.out.head? = some (.linli q.toPath (linliBytes op q.sess q.seqNo status q.token body))

/-- Objects of the sessions and of possession alone may differ; the staged copy, the commit, the axes and all bytes are as they were. -/
def OnlySessions (s u : State) : Prop :=
  (∀ k, k / 65536 ≠ 0x11 → SMap.get? u.od k = SMap.get? s.od k) ∧ u.staged = s.staged ∧ u.com = s.com ∧ (∀ a, u.axis a = s.axis a) ∧ BytesKept s u

end Sys2Proof.Machine
end

