-- ==== Sys2Proof/Certificates/Slice0/Obligations.lean ====
section
/-! DEFINITION. The statements about the block: what each command does, what it leaves as it was, and what every step keeps. -/

open Sys2Proof Sys2Proof.Machine

/-! ### The block as a whole -/

/-- A step takes the command at the front of the queue and is what that command does with the rest of the queue left waiting. On an empty queue the
block is idle: the step is one tick of the 1 GHz clock of the time base (R79), the model's choice (assumption log 3). -/
def Obligations.StepRunsTheFrontCommand : Prop :=
  ∀ (s : State) (c : Instr) (rest : List Instr),
    let idle := { s with pending := [] }
    step { s with pending := c :: rest } = exec c { s with pending := rest } ∧ step idle = .next (tick idle) ∧
    (s.boot.off = false → s.boot.standby = false → s.boot.held = 0 → s.get Ob.Clk.RATE_ADJ = 0 → s.frac = 0 → (tick idle).now = s.now + 1 ∧ (tick idle).frac = 0) ∧
    (s.boot.held ≠ 0 → tick idle = idle)

/-- Right after reset (R71, R98, R144, R186, R339, R369, R432): start-up is in its first state, every ring is dark, every axis disabled, no session is
open and the ball is loose, the clock runs free, the referee is in START with the safe state demanded, the unit is alone; no command waits, and the
memories list nothing. -/
def Obligations.ResetLeavesTheBlockAtRest : Prop :=
  let s := State.reset
  s.get Ob.Rst.START_STATE = 0 ∧ (∀ r, r < 4 → s.get Ob.Ring.STATE r = 0) ∧ (∀ a, a < 256 → (s.axis a).mot.state = .disabled) ∧ (∀ k, k < 16 → s.get Ob.Sess.STATE k = 0) ∧
  s.get Ob.Poss.CAPTAIN = 0xFF ∧ s.get Ob.Clk.SYNC_STATE = 0 ∧ s.get Ob.Isl.RF_STATE = 0 ∧ s.get Ob.Isl.SAFE_STATE = 1 ∧ s.get Ob.Pair.ROLE = 0 ∧ s.get Ob.Pair.PAIR_STATE = 0 ∧
  s.staged = [] ∧ s.com.phase = 0 ∧ s.pending = [] ∧ QueueWellFormed s ∧ MemoriesCanonical s ∧ s.shared = [] ∧ s.ucode = []

/-- No command ends the run, and none touches the commands that wait: every step answers a next state whose queue is the old one without its front, so
a queue of commands within the spec's operand ranges stays one. -/
def Obligations.EveryStepAnswersAndTakesOneCommand : Prop :=
  ∀ s : State, ∃ t, step s = .next t ∧ t.pending = s.pending.tail ∧ (QueueWellFormed s → QueueWellFormed t)

/-- The shared SRAM, the user-code SRAM and the data SRAM of every engine keep their one canonical form under every step: whatever command is taken,
equal memories stay equal data. -/
def Obligations.EveryStepKeepsTheMemoriesCanonical : Prop :=
  ∀ s t : State, MemoriesCanonical s → step s = .next t → MemoriesCanonical t

/-! ### Rules stated whole -/

/-- R139: a request of a session that is not open, or with another token than its session's, is answered with LEASE_EXPIRED, whatever it asks, and
nothing else changes; a retried CLOSE is one of them. -/
def Obligations.RequestsOfNoOpenSessionAnswerLeaseExpired : Prop :=
  ∀ (s : State) (q : Req) (t op : Nat), listens (s.at t) q.toPath = true → sessOpen s q.sess = false ∨ (s.sess q.sess).token ≠ q.token → op ≠ 1 →
    let a := s.at t
    let expired (c : Instr) (op : Nat) : Prop := Answers c s fun u =>
      u = sendReply a q.toPath (linliBytes op q.sess q.seqNo stLeaseExpired q.token []) ∧
      u.od = s.od ∧ u.host.sess = s.host.sess ∧ u.staged = s.staged ∧ u.com = s.com ∧ u.safe = s.safe ∧ u.pair = s.pair ∧ AxesKept [] s u ∧ BytesKept s u
    expired (.hostClose q t) 0x02 ∧ expired (.hostRead q t) 0x10 ∧ expired (.hostWrite q t) 0x11 ∧ expired (.commitMsg q t) 0x12 ∧ expired (.hostClaim q t) 0x20 ∧
    expired (.hostPass q t) 0x21 ∧ expired (.hostRelease q t) 0x22 ∧ expired (.hostSubscribe q t) 0x30 ∧ expired (.unknownOpcode op q t) op

/-- R146: a CLAIM of 1 to 15 sets its session's claim and claim time in place of any earlier one, PRIORITY 0 withdraws it; the captain's CLAIM answers
OK and leaves its claim and possession as they were; no claim moves possession, so while there is a captain the claims wait. -/
def Obligations.ClaimsAreSetWithdrawnAndWait : Prop :=
  ∀ (s : State) (q : Req) (t : Nat), NewRequest (s.at t) q → 4 ≤ q.body.length →
    let n := leAt q.body 0 1
    let answered (u : State) : Prop := Replied u 0x20 q stOk (leBytes 1 (s.nat Ob.Poss.CAPTAIN) ++ leBytes 3 0) ∧ u.get Ob.Poss.CAPTAIN = s.get Ob.Poss.CAPTAIN ∧ OnlySessions s u ∧
      ∀ k, k < 16 → k ≠ q.sess → u.get Ob.Sess.CLAIM_PRIORITY k = s.get Ob.Sess.CLAIM_PRIORITY k ∧ u.get Ob.Sess.CLAIM_TIME k = s.get Ob.Sess.CLAIM_TIME k
    (isCaptain s q.sess = false → 1 ≤ n → n ≤ 15 → Answers (.hostClaim q t) s fun u =>
      u.get Ob.Sess.CLAIM_PRIORITY q.sess = n ∧ u.get Ob.Sess.CLAIM_TIME q.sess = u.now ∧ u.now = (s.at t).now ∧ answered u) ∧
    (isCaptain s q.sess = false → n = 0 → Answers (.hostClaim q t) s fun u => u.get Ob.Sess.CLAIM_PRIORITY q.sess = 0 ∧ u.get Ob.Sess.CLAIM_TIME q.sess = 0 ∧ answered u) ∧
    (isCaptain s q.sess = true → n ≤ 15 → Answers (.hostClaim q t) s fun u =>
      u.get Ob.Sess.CLAIM_PRIORITY q.sess = s.get Ob.Sess.CLAIM_PRIORITY q.sess ∧ u.get Ob.Sess.CLAIM_TIME q.sess = s.get Ob.Sess.CLAIM_TIME q.sess ∧ answered u)

/-- R392: an acknowledgement of a pending message clears its bits in IN_PENDING and IN_ORPHAN and ends the sender's wait with ACKED, unless the
message is orphaned, whose sender it leaves as it was; one of a slot whose pending bit is clear is ignored. (That a receiver acknowledges before it
acts is the receiver's duty.) -/
def Obligations.AcknowledgementsTakePendingMessages : Prop :=
  ∀ (s : State) (x k t : Nat) (p : PostSt), unitRuns s = true → k < 14 →
    let c : Instr := .inAck x (BitVec.ofNat 32 (2 ^ k)) t
    (bit (s.ep x).pending k = true →
      (Answers c s fun u => bit (u.ep x).pending k = false ∧ bit (u.ep x).orphan k = false ∧
        ∀ j, j ≠ k → bit (u.ep x).pending j = bit (s.ep x).pending j ∧ bit (u.ep x).orphan j = bit (s.ep x).orphan j) ∧
      (bit (s.ep x).orphan k = false → (s.ep k).post = some p → p.dest = x → Answers c s fun u =>
        (u.ep k).post = none ∧ (u.ep k).status.getLsbD 31 = true ∧ u.get Ob.Mbx.ACKED k = satInc 32 (s.get Ob.Mbx.ACKED k)) ∧
      (bit (s.ep x).orphan k = true → Answers c s fun u => (u.ep k).post = (s.ep k).post ∧ (u.ep k).status = (s.ep k).status ∧ u.get Ob.Mbx.ACKED k = s.get Ob.Mbx.ACKED k ∧
        ∀ y, y ≠ x → u.ep y = s.ep y)) ∧
    (bit (s.ep x).pending k = false → exec c s = .next (s.at t))

/-! ### The Axis Compute Engines -/

/-- Where the operation executes, the A-slot results that cannot saturate are entered for the next bundle (R264, R265): wrapping sums and differences,
bitwise operations, shifts, minimum and maximum, immediates. The saturating A-slot results (R264): ADDS, SUBS, ABS and NEG saturate to 64 bits, PADD2
and PSUB2 each lane to 32 bits; ALU_SAT is set where one saturates. A lane with `.h` is halved after the saturation, with convergent rounding. -/
def Obligations.AluOperationsEnterTheirResults : Prop :=
  (∀ (s : State) (i : AceAt) (d a b n : Nat) (imm : Int) (v : Nat), OpExecutes i s →
    let x := s.ace i.eng
    Enters (.aceAdd i d a b) i s 1 1 (.g d) (x.gR a + x.gR b).toInt ∧
    Enters (.aceSub i d a b) i s 1 1 (.g d) (x.gR a - x.gR b).toInt ∧
    Enters (.aceAnd i d a b) i s 1 1 (.g d) (x.gR a &&& x.gR b).toInt ∧
    Enters (.aceOr i d a b) i s 1 1 (.g d) (x.gR a ||| x.gR b).toInt ∧
    Enters (.aceXor i d a b) i s 1 1 (.g d) (x.gR a ^^^ x.gR b).toInt ∧
    Enters (.aceShl i d a n) i s 1 1 (.g d) (x.gR a <<< n).toInt ∧
    Enters (.aceShr i d a n) i s 1 1 (.g d) (x.gR a >>> n).toInt ∧
    Enters (.aceSar i d a n) i s 1 1 (.g d) ((x.gR a).sshiftRight n).toInt ∧
    Enters (.aceSarr i d a n) i s 1 1 (.g d) (BitVec.ofInt 64 (roundShr (x.gR a).toInt n)).toInt ∧
    Enters (.aceMin i d a b) i s 1 1 (.g d) (min (x.gR a).toInt (x.gR b).toInt) ∧
    Enters (.aceMax i d a b) i s 1 1 (.g d) (max (x.gR a).toInt (x.gR b).toInt) ∧
    Enters (.aceAddi i d a imm) i s 1 1 (.g d) (x.gR a + BitVec.ofInt 64 imm).toInt ∧
    Enters (.aceLdi i d v none) i s 1 1 (.g d) (BitVec.ofInt 64 (toSigned 25 v)).toInt ∧
    ∀ h, Enters (.aceLdi i d v (some h)) i s 1 1 (.g d) (BitVec.ofNat 64 ((h % 2 ^ 39) * 2 ^ 25 + v % 2 ^ 25)).toInt) ∧
  (∀ (s : State) (i : AceAt) (d a b : Nat), OpExecutes i s →
    let x := s.ace i.eng
    let u := (x.gR a).toInt
    let v := (x.gR b).toInt
    let hi (w : DWord) : Int := toSigned 32 (w.toNat / 2 ^ 32)
    let lo (w : DWord) : Int := toSigned 32 w.toNat
    let pack (p q : Int) : Int := (BitVec.ofNat 64 (lowBits 32 p * 2 ^ 32 + lowBits 32 q)).toInt
    let p := hi (x.gR a)
    let q := lo (x.gR a)
    let p' := hi (x.gR b)
    let q' := lo (x.gR b)
    EntersSat (.aceAdds i d a b) i s 1 1 (.g d) (sat 64 (u + v)) 0 (decide (sat 64 (u + v) ≠ u + v)) ∧
    EntersSat (.aceSubs i d a b) i s 1 1 (.g d) (sat 64 (u - v)) 0 (decide (sat 64 (u - v) ≠ u - v)) ∧
    EntersSat (.aceAbs i d a) i s 1 1 (.g d) (sat 64 |u|) 0 (decide (sat 64 |u| ≠ |u|)) ∧
    EntersSat (.aceNeg i d a) i s 1 1 (.g d) (sat 64 (-u)) 0 (decide (sat 64 (-u) ≠ -u)) ∧
    EntersSat (.acePadd2 i d a b false) i s 1 1 (.g d) (pack (sat 32 (p + p')) (sat 32 (q + q'))) 0
      (decide (sat 32 (p + p') ≠ p + p') || decide (sat 32 (q + q') ≠ q + q')) ∧
    EntersSat (.acePsub2 i d a b false) i s 1 1 (.g d) (pack (sat 32 (p - p')) (sat 32 (q - q'))) 0
      (decide (sat 32 (p - p') ≠ p - p') || decide (sat 32 (q - q') ≠ q - q')) ∧
    EntersSat (.acePadd2 i d a b true) i s 1 1 (.g d) (pack (roundShr (sat 32 (p + p')) 1) (roundShr (sat 32 (q + q')) 1)) 0
      (decide (sat 32 (p + p') ≠ p + p') || decide (sat 32 (q + q') ≠ q + q')) ∧
    EntersSat (.acePsub2 i d a b true) i s 1 1 (.g d) (pack (roundShr (sat 32 (p - p')) 1) (roundShr (sat 32 (q - q')) 1)) 0
      (decide (sat 32 (p - p') ≠ p - p') || decide (sat 32 (q - q') ≠ q - q')))

/-- Compares and register moves (R261, R262, R264, Table 10-9): a compare result goes to its predicate for the next bundle, an address register
written from the second, a special register from the third; the counters read 0 to a user block without permission. The no-operations of the three
slots leave the engine as it was, and so does every operation whose predicate is false, in each slot (R263, R264): with more operations of the bundle
to come nothing at all changes. -/
def Obligations.ComparesMovesAndNoOperations : Prop :=
  (∀ (s : State) (i : AceAt) (d a b n : Nat), OpExecutes i s →
    let x := s.ace i.eng
    let u := x.gR a
    let v := x.gR b
    let truth (p : Bool) : Int := if p then 1 else 0
    Enters (.aceCmp i d a b 0) i s 1 1 (.c d) (truth (decide (u = v))) ∧
    Enters (.aceCmp i d a b 1) i s 1 1 (.c d) (truth (decide (u ≠ v))) ∧
    Enters (.aceCmp i d a b 2) i s 1 1 (.c d) (truth (decide (u.toInt < v.toInt))) ∧
    Enters (.aceCmp i d a b 3) i s 1 1 (.c d) (truth (decide (u.toInt ≤ v.toInt))) ∧
    Enters (.aceCmp i d a b 4) i s 1 1 (.c d) (truth (decide (u.toNat < v.toNat))) ∧
    Enters (.aceCmp i d a b 5) i s 1 1 (.c d) (truth (decide (u.toNat ≤ v.toNat))) ∧
    (n < 8 → Enters (.aceMtr i n a) i s 1 2 (.p n) (toSigned 32 u.toNat) ∧
      Enters (.aceMtr i (8 + n) a) i s 1 2 (.m n) (toSigned 32 u.toNat) ∧
      Enters (.aceMtr i (16 + n) a) i s 1 2 (.l n) (toSigned 32 u.toNat) ∧
      Enters (.aceMfr i d n) i s 1 1 (.g d) (((x.pR n).toNat : Nat) : Int) ∧
      Enters (.aceMfr i d (8 + n)) i s 1 1 (.g d) (x.mR n).toInt ∧
      Enters (.aceMfr i d (16 + n)) i s 1 1 (.g d) (((x.lR n).toNat : Nat) : Int)) ∧
    (n < 20 → (2 < n ∨ x.user = false) → Enters (.aceMts i n a) i s 1 3 (.spec n) u.toNat) ∧
    (n < 20 → (2 < n ∨ x.user = false) → (n < 11 ∨ x.user = false ∨ userRead s x = true) → Enters (.aceMfs i d n) i s 1 1 (.g d) (x.spec n)) ∧
    (11 ≤ n → n < 20 → x.user = true → userRead s x = false → Enters (.aceMfs i d n) i s 1 1 (.g d) 0)) ∧
  (∀ (s : State) (i : AceAt), unitRuns s = true → (s.ace i.eng).powered = true → (s.ace i.eng).halted = false → (s.ace i.eng).exc = none →
    (i.pr ≠ 0 ∨ i.pn = false →
      exec (.aceMnop i) s = .next (issued i s) ∧ exec (.aceAnop i) s = .next (issued i s) ∧ exec (.aceLnop i) s = .next (issued i s)) ∧
    (i.pr ≠ 0 → (s.ace i.eng).pred i.pr = i.pn → ∀ (d a b k n : Nat) (h : Bool) (off : Int),
      exec (.aceAdd i d a b) s = .next (issued i s) ∧ exec (.aceMac i k a b h) s = .next (issued i s) ∧
      exec (.aceExtD i d k n) s = .next (issued i s) ∧ exec (.aceCmp i d a b n) s = .next (issued i s) ∧
      exec (.aceBr i off) s = .next (issued i s) ∧ exec (.aceStD i d a n off) s = .next (issued i s) ∧
      exec (.aceLdD i d a n off) s = .next (issued i s) ∧ exec (.aceXstD i d a n off) s = .next (issued i s)))

/-- The M-slot operations that write accumulators (R264, R265, R269): products of 64 by 32 bits, shifted registers, complex products into a pair of
accumulators and CLRA, each saturated to 96 bits; an even ACC of a pair, a shift of at most 63. The extractions (R264, R265, R269): an accumulator, as
extractions see it, divided by 2^SH with convergent rounding, saturated to 64 or 32 bits for the second bundle on, setting EXT_SAT where it saturates;
SH from the operation or from gt[6:0], at most 95. -/
def Obligations.AccumulatorsAndExtractionsRoundAndSaturate : Prop :=
  (∀ (s : State) (i : AceAt) (k a b sh : Nat) (h : Bool), OpExecutes i s →
    let x := s.ace i.eng
    let prod := (x.gR a).toInt * toSigned 32 (if h then (x.gR b).toNat / 2 ^ 32 else (x.gR b).toNat)
    let shifted := (x.gR a).toInt * 2 ^ sh
    let hi (w : DWord) : Int := toSigned 32 (w.toNat / 2 ^ 32)
    let lo (w : DWord) : Int := toSigned 32 w.toNat
    let re := hi (x.gR a) * hi (x.gR b) - lo (x.gR a) * lo (x.gR b)
    let im := hi (x.gR a) * lo (x.gR b) + lo (x.gR a) * hi (x.gR b)
    Accumulates (.aceMpy i k a b h) i s k prod ∧
    Accumulates (.aceMac i k a b h) i s k (x.accR k + prod) ∧
    Accumulates (.aceMsu i k a b h) i s k (x.accR k - prod) ∧
    (sh ≤ 63 → sat 96 shifted = shifted → Accumulates (.aceMova i k a sh) i s k shifted) ∧
    (sh ≤ 63 → Accumulates (.aceAdda i k a sh) i s k (x.accR k + shifted)) ∧
    Accumulates (.aceClra i k) i s k 0 ∧
    (k % 2 = 0 →
      exec (.aceCmpy i k a b) s = .next (issued i (putAcc (putAcc (marked s i.eng 0) i.eng k re) i.eng (k + 1) im)) ∧
      exec (.aceCmac i k a b) s =
        .next (issued i (putAcc (putAcc (marked s i.eng 0) i.eng k (x.accR k + re)) i.eng (k + 1) (x.accR (k + 1) + im))))) ∧
  (∀ (s : State) (i : AceAt) (d k r sh : Nat), OpExecutes i s → sh ≤ 95 →
    let x := s.ace i.eng
    let q := roundShr (x.accS k) sh
    let im := roundShr (x.accS (k + 1)) sh
    EntersSat (.aceExtD i d k sh) i s 0 2 (.g d) (sat 64 q) 2 (decide (sat 64 q ≠ q)) ∧
    EntersSat (.aceExtW i d k sh) i s 0 2 (.g d) (sat 32 q) 2 (decide (sat 32 q ≠ q)) ∧
    ((x.gR r).toNat % 128 = sh →
      EntersSat (.aceExtDv i d k r) i s 0 2 (.g d) (sat 64 q) 2 (decide (sat 64 q ≠ q)) ∧
      EntersSat (.aceExtWv i d k r) i s 0 2 (.g d) (sat 32 q) 2 (decide (sat 32 q ≠ q))) ∧
    (k % 2 = 0 → EntersSat (.aceCext i d k sh) i s 0 2 (.g d) (((lowBits 32 (sat 32 q) * 2 ^ 32 + lowBits 32 (sat 32 im) : Nat) : Int)) 2
      (decide (sat 32 q ≠ q) || decide (sat 32 im ≠ im))))

/-- Loads (R258, R264, R265, R268, Table 10-9): the address is the pointer with its scaled offset, or the pointer before its modification; where the
access is allowed the bytes of the engine's data SRAM, sign- or zero-extended, are entered for the third bundle on, the modified pointer for the next
one, and the event of a load is counted. Addresses of the L slot (R268, Table 10-7): mode 0 adds the offset, in units of the access, to the pointer
and leaves it; mode 1 uses the pointer and then adds the modifier of the same number, mode 2 uses it and then adds the scaled offset, both under the
linear mode word. -/
def Obligations.LoadsAndAddressing : Prop :=
  (∀ (s : State) (i : AceAt) (g pn am : Nat) (off : Int), OpExecutes i s →
    let x := s.ace i.eng
    let loads (c : Instr) (w : Nat) (signed : Bool) : Prop :=
      (lAddr x pn am off w).2.2 = none → accessOk s i.eng (lAddr x pn am off w).1 w false = true →
        let v := Mem.read x.mem (lAddr x pn am off w).1 w
        let t := aceEvent ((marked s i.eng 2).modAce i.eng fun x => x.send 2 3 (.g g) (if signed then toSigned (8 * w) v else (v : Int))) i.eng 4 1
        exec c s = .next (issued i (match (lAddr x pn am off w).2.1 with
          | some p => t.modAce i.eng fun x => x.send 2 1 (.p pn) (p : Int)
          | none => t))
    loads (.aceLdD i g pn am off) 8 true ∧ loads (.aceLdW i g pn am off) 4 true ∧ loads (.aceLdWu i g pn am off) 4 false ∧
    loads (.aceLdH i g pn am off) 2 true ∧ loads (.aceLdHu i g pn am off) 2 false) ∧
  (∀ (x : AceRt) (pn : Nat) (off : Int) (w : Nat), bits (x.lR pn).toNat 30 2 = 0 →
    let p : Int := (x.pR pn).toNat
    lAddr x pn 0 off w = (lowBits 32 (p + off * w), none, none) ∧
    lAddr x pn 1 off w = ((x.pR pn).toNat, some (lowBits 32 (p + (x.mR pn).toInt)), none) ∧
    lAddr x pn 2 off w = ((x.pR pn).toNat, some (lowBits 32 (p + off * w)), none))

/-- Stores enter their bytes as the last results of the bundle (R264, R266): with more operations of the bundle to come, ST.D, ST.W and ST.H enter the
register's value for the next bundle, with the modified pointer, and count the event of a store; ST2.D enters both of a pair. LDST.D and PMOD under
the linear mode (R264, R267, R268): the load of phase A and the store of phase B, each pointer modified by its own modifier after its use; PMOD adds
its immediate to a pointer and touches no memory. -/
def Obligations.StoresPairsAndPointers : Prop :=
  (∀ (s : State) (i : AceAt) (g pn am rp pa pb : Nat) (off oa ob : Int), OpExecutes i s →
    let x := s.ace i.eng
    let stores (c : Instr) (w : Nat) : Prop :=
      (lAddr x pn am off w).2.2 = none → accessOk s i.eng (lAddr x pn am off w).1 w true = true →
        let t := aceEvent ((marked s i.eng 2).modAce i.eng fun y => y.send 2 1 (.mem (lAddr x pn am off w).1 w) (x.gR g).toInt) i.eng 5 1
        exec c s = .next (issued i (match (lAddr x pn am off w).2.1 with
          | some p => t.modAce i.eng fun x => x.send 2 1 (.p pn) (p : Int)
          | none => t))
    let a := lowBits 32 ((x.pR pa).toNat + 8 * oa)
    let b := lowBits 32 ((x.pR pb).toNat + 8 * ob)
    stores (.aceStD i g pn am off) 8 ∧ stores (.aceStW i g pn am off) 4 ∧ stores (.aceStH i g pn am off) 2 ∧
    (accessOk s i.eng a 8 true = true → accessOk s i.eng b 8 true = true →
      exec (.aceSt2D i rp pa oa pb ob) s = .next (issued i (aceEvent ((marked s i.eng 2).modAce i.eng fun y =>
        (y.send 2 1 (.mem a 8) (x.gR (2 * rp)).toInt).send 2 1 (.mem b 8) (x.gR (2 * rp + 1)).toInt) i.eng 5 2))) ∧
    (accessOk s i.eng a 8 false = true → accessOk s i.eng b 8 false = true →
      exec (.aceLd2D i rp pa oa pb ob) s = .next (issued i (aceEvent ((marked s i.eng 2).modAce i.eng fun y =>
        (y.send 2 3 (.g (2 * rp)) (Mem.read x.mem a 8 : Nat)).send 2 3 (.g (2 * rp + 1)) (Mem.read x.mem b 8 : Nat)) i.eng 4 2)))) ∧
  (∀ (s : State) (i : AceAt) (d pa g pb pn : Nat) (imm : Int), OpExecutes i s →
    let x := s.ace i.eng
    let a := (x.pR pa).toNat
    let b := (x.pR pb).toNat
    (bits (x.lR pa).toNat 30 2 = 0 → bits (x.lR pb).toNat 30 2 = 0 → accessOk s i.eng a 8 false = true → accessOk s i.eng b 8 true = true →
      exec (.aceLdstD i d pa g pb) s = .next (issued i (aceEvent (aceEvent ((marked s i.eng 2).modAce i.eng fun y =>
        (((y.send 2 3 (.g d) (Mem.read x.mem a 8 : Nat)).send 2 1 (.mem b 8) (x.gR g).toInt).send 2 1 (.p pa)
          (lowBits 32 ((a : Int) + (x.mR pa).toInt) : Nat)).send 2 1 (.p pb) (lowBits 32 ((b : Int) + (x.mR pb).toInt) : Nat)) i.eng 4 1) i.eng 5 1))) ∧
    (bits (x.lR pn).toNat 30 2 = 0 → Enters (.acePmod i pn imm) i s 2 1 (.p pn) (lowBits 32 (((x.pR pn).toNat : Int) + imm) : Nat)))

/-- A store that ends its bundle (R264 to R266): every byte from the address on, as many as the form stores, reads the register's bytes, least
significant first; every other byte of the engine's data SRAM, every byte of the other engines' data SRAMs and of the shared memories reads as before,
and so does every general register, pointer, modifier, mode word, accumulator and predicate. -/
def Obligations.StoresWriteTheirBytesAndNoOthers : Prop :=
  ∀ (s : State) (e g pn : Nat) (off : Int) (w : Nat) (c : Instr),
    (w = 8 ∧ c = .aceStD ⟨e, 0, false, true⟩ g pn 0 off) ∨ (w = 4 ∧ c = .aceStW ⟨e, 0, false, true⟩ g pn 0 off) ∨
      (w = 2 ∧ c = .aceStH ⟨e, 0, false, true⟩ g pn 0 off) →
    OpExecutes ⟨e, 0, false, true⟩ s → (s.ace e).fly = [] → (s.ace e).branch = none → (s.ace e).user = false → (s.ace e).depth = 0 → Mem.wf (s.ace e).mem = true →
    let a := lowBits 32 (((s.ace e).pR pn).toNat + off * w)
    accessOk s e a w true = true →
    Answers c s fun t =>
      (∀ k, k < w → Mem.get (t.ace e).mem (a + k) = BitVec.ofNat 8 (((s.ace e).gR g).toNat / 256 ^ k)) ∧
      (∀ b, b < a ∨ a + w ≤ b → Mem.get (t.ace e).mem b = Mem.get (s.ace e).mem b) ∧
      (∀ q, q ≠ e → (t.ace q).mem = (s.ace q).mem) ∧ t.shared = s.shared ∧ t.ucode = s.ucode ∧
      (t.ace e).g = (s.ace e).g ∧ (t.ace e).p = (s.ace e).p ∧ (t.ace e).m = (s.ace e).m ∧ (t.ace e).l = (s.ace e).l ∧
      (t.ace e).acc = (s.ace e).acc ∧ (t.ace e).c = (s.ace e).c

/-- A result lands when its bundle has come (R265): a bundle of one A-slot or M-slot result, with nothing else in flight, no repeat active and no
branch pending, ends with ADD, SUB, AND, OR or XOR in its register, and every other general register, every other register group, the data SRAM and
the other engines as they were. -/
def Obligations.AluResultsLandAtTheEndOfTheirBundle : Prop :=
  ∀ (s : State) (e d a b : Nat), OpExecutes ⟨e, 0, false, true⟩ s → (s.ace e).fly = [] → (s.ace e).branch = none →
    (s.ace e).user = false → (s.ace e).depth = 0 →
    let x := s.ace e
    let lands (c : Instr) (v : DWord) : Prop := Answers c s fun t =>
      (t.ace e).gR d = v ∧ (∀ k, k ≠ d → (t.ace e).gR k = x.gR k) ∧ (t.ace e).fly = [] ∧ (t.ace e).n = x.n + 1 ∧
      (t.ace e).p = x.p ∧ (t.ace e).m = x.m ∧ (t.ace e).l = x.l ∧ (t.ace e).acc = x.acc ∧ (t.ace e).accSeen = x.accSeen ∧
      (t.ace e).c = x.c ∧ (t.ace e).mem = x.mem ∧ (t.ace e).flags = x.flags ∧ (∀ q, q ≠ e → (t.ace q).mem = (s.ace q).mem ∧ (t.ace q).g = (s.ace q).g) ∧
      t.shared = s.shared
    lands (.aceAdd ⟨e, 0, false, true⟩ d a b) (x.gR a + x.gR b) ∧ lands (.aceSub ⟨e, 0, false, true⟩ d a b) (x.gR a - x.gR b) ∧
    lands (.aceAnd ⟨e, 0, false, true⟩ d a b) (x.gR a &&& x.gR b) ∧ lands (.aceOr ⟨e, 0, false, true⟩ d a b) (x.gR a ||| x.gR b) ∧
    lands (.aceXor ⟨e, 0, false, true⟩ d a b) (x.gR a ^^^ x.gR b)

/-- Branches (R264, R265, R271, R273, R277): outside a delay slot and the last two bundles of a repeat body, BR, CALL and RET take their target after
two delay slots, counted as an event; CALL leaves the index of the bundle after the second delay slot in LR; RETI goes to IPC. REP, YIELD and BKPT
(R264, R271, R281): with no branch pending and no repeat active, REP of a count above 0 makes the next LEN bundles the body of the outer loop; BKPT
halts for an attached debugger and raises ILLEGAL without one. -/
def Obligations.BranchesRepeatsAndBreakpoints : Prop :=
  (∀ (s : State) (i : AceAt) (off : Int), OpExecutes i s →
    let x := s.ace i.eng
    let goes (u : State) (t : Nat) (reti ret : Bool) : State :=
      issued i (aceEvent (u.modAce i.eng fun y => { y with branch := some ⟨y.n + 3, t % 2 ^ 13, reti, ret⟩ }) i.eng 0x0B 1)
    let dest := lowBits 13 ((x.pc : Int) + off)
    (x.branch = none → x.depth = 0 →
      exec (.aceBr i off) s = .next (goes (marked s i.eng 1) dest false false) ∧
      exec (.aceCall i off) s = .next (goes ((marked s i.eng 1).modAce i.eng fun y => { y with lr := (x.pc + 3) % 2 ^ 13 }) dest false false) ∧
      (x.call = none → exec (.aceRet i) s = .next (goes (marked s i.eng 1) x.lr false false))) ∧
    (x.branch = none → x.user = false → i.pr = 0 → exec (.aceReti i) s = .next (goes (marked s i.eng 1) x.ipc true false))) ∧
  (∀ (s : State) (i : AceAt) (a cnt len : Nat), OpExecutes i s →
    let x := s.ace i.eng
    (x.branch = none → x.depth = 0 → 0 < len → i.pr = 0 → 0 < cnt →
      exec (.aceRep i false a cnt len) s = .next (issued i ((marked s i.eng 1).modAce i.eng fun y =>
        { y.setDepth 1 with ls0 := (x.pc + 1) % 2 ^ 13, le0 := (x.pc + len) % 2 ^ 13, lc0 := cnt % 2 ^ 16 })) ∧
      ((x.gR a).toNat % 2 ^ 16 = cnt →
        exec (.aceRep i true a 0 len) s = .next (issued i ((marked s i.eng 1).modAce i.eng fun y =>
          { y.setDepth 1 with ls0 := (x.pc + 1) % 2 ^ 13, le0 := (x.pc + len) % 2 ^ 13, lc0 := cnt % 2 ^ 16 })))) ∧
    (s.debugger = true → exec (.aceBkpt i) s = .next (issued i ((marked s i.eng 1).modAce i.eng fun y => { y with halted := true }))) ∧
    (s.debugger = false → exec (.aceBkpt i) s = .next (issued i (aceRaise (marked s i.eng 1) i.eng 1))))

/-- The shared window (R270, R258, R388, R390): XLD.D joins the outstanding loads, XST.D the store buffer; a completing load takes the bytes of the
shared SRAM, or of the live axis state where the address lies in a user state area, into its register; XWAIT with nothing outstanding does nothing.
User mode (R261, R264, R276): RETI, XWAIT and XLD.D in user mode, and a write of STATUS, ISTAT or IPC, raise PRIV in place of their effect. -/
def Obligations.SharedWindowAndPrivilege : Prop :=
  (∀ (s : State) (i : AceAt) (g pn : Nat) (off : Int) (d at_ t k o : Nat), OpExecutes i s →
    let x := s.ace i.eng
    let a := lowBits 32 ((x.pR pn).toNat + off * 8)
    (x.user = false → x.xld.length < 4 → sharedOk a = true →
      exec (.aceXldD i g pn 0 off) s =
        .next (issued i (aceEvent ((marked s i.eng 2).modAce i.eng fun y => { y with xld := y.xld ++ [⟨a, g⟩] }) i.eng 6 1))) ∧
    (x.user = false → x.sbuf.length < 64 → sharedOk a = true → x.st 10 = false →
      exec (.aceXstD i g pn 0 off) s = .next (issued i ((marked s i.eng 2).modAce i.eng fun y => { y with sbuf := y.sbuf ++ [(a, x.gR g)] }))) ∧
    (let loaded (v : Nat) : Prop := exec (.aceXldComplete i.eng t) s = .next ((s.at t).modAce i.eng fun y => { y with xld := [], g := SMap.put y.g d (BitVec.ofNat 64 v) })
     x.xld = [⟨at_, d⟩] → at_ < 0x2000000 → (∀ w ∈ x.sbuf, w.1 ≠ at_) →
      (liveArea (at_ - 0x1000000) = none → loaded (Mem.read s.shared (at_ - 0x1000000) 8)) ∧
      (liveArea (at_ - 0x1000000) = some (k, o) → loaded (Mem.read (s.axis k).user o 8))) ∧
    (i.pr = 0 → x.user = false → x.xld = [] → exec (.aceXwait i) s = .next (issued i (marked s i.eng 1)))) ∧
  (∀ (s : State) (i : AceAt) (n a g pn am : Nat) (off : Int), OpExecutes i s → (s.ace i.eng).user = true →
    (i.pr = 0 → exec (.aceReti i) s = .next (issued i (aceRaise (marked s i.eng 1) i.eng 3)) ∧
      exec (.aceXwait i) s = .next (issued i (aceRaise (marked s i.eng 1) i.eng 3))) ∧
    exec (.aceXldD i g pn am off) s = .next (issued i (aceRaise (marked s i.eng 2) i.eng 3)) ∧
    (n ≤ 2 → exec (.aceMts i n a) s = .next (issued i (aceRaise (marked s i.eng 1) i.eng 3))))

/-- Exceptions, time aborts and interrupts (R273, R276, R277): an exception is counted and recorded with its code, the engine's axis and bundle, and
empties its pipeline, loads and store buffer; a block still running at 4 × DECLARED_TIME adds a time abort and an exception record of code 5, and its
item is voided; an interrupt that may be taken saves the next bundle in IPC and STATUS in ISTAT and enters the handler of its source. -/
def Obligations.ExceptionsTimeAbortsAndInterruptEntry : Prop :=
  ∀ (s : State) (e code t : Nat) (u : UserCall) (r : RunRt), unitRuns s = true → (s.ace e).powered = true →
    let x := s.ace e
    (1 ≤ code → code ≤ 4 → x.st 10 = false → x.call = none → Answers (.aceException e code t) s fun v =>
      v.get Ob.AceC.EXC_COUNT 0 0 e = satInc 32 (s.get Ob.AceC.EXC_COUNT 0 0 e) ∧
      v.get Ob.AceC.LAST_EXC 0 0 e = ((code * 2 ^ 24 + (aceAxis s e).getD 0 * 2 ^ 16 + x.pc % 2 ^ 13 : Nat) : Int) ∧
      (v.ace e).fly = [] ∧ (v.ace e).xld = [] ∧ (v.ace e).sbuf = [] ∧ (v.ace e).exc = none ∧ (v.ace e).mem = x.mem) ∧
    (x.call = some u → 4 * s.nat Ob.Ub.DECLARED_TIME u.block ≤ x.n - u.start → x.st 10 = false → (s.eng e).run = some r → Answers (.aceTimeAbort e t) s fun v =>
      v.get Ob.Ub.TIME_ABORTS u.block = satInc 32 (s.get Ob.Ub.TIME_ABORTS u.block) ∧ (v.ace e).call = none ∧ (v.eng e).run = none ∧
      v.get Ob.Disp.VOIDED = satInc 32 (s.get Ob.Disp.VOIDED) ∧
      v.get Ob.AceC.LAST_EXC 0 0 e = ((5 * 2 ^ 24 + (if r.item.flow < 256 then r.item.flow else 0) * 2 ^ 16 + x.pc % 2 ^ 13 : Nat) : Int)) ∧
    (interruptOk x = true → x.fly = [] → ∀ src, (src < 2 ∧ bit x.irq src = true) ∨ src = 2 → Answers (.aceInterruptEntry e src t) s fun v =>
      (v.ace e).ipc = x.pc ∧ (v.ace e).istat = x.status ∧ (v.ace e).pc = 0x10 + 4 * src ∧ (v.ace e).st 6 = false ∧ (v.ace e).st 7 = false ∧
      (v.ace e).st 8 = false ∧ (v.ace e).st 10 = true ∧ (v.ace e).g = x.g ∧ (v.ace e).mem = x.mem)

/-! ### The dispatcher -/

/-- The dispatcher (R259, R281 to R287, R289, R290, R295): a timer trigger posts its item, holds it where its list is full, or lets it wait for its
predecessor's completion; a free engine takes an eligible item, and nothing of an axis item shows among the axis objects before it completes but the
figures of its start; completion before t_D installs what the run computed and frees the engine, one at t_D is void; YIELD completes the item of its
engine; CLEAR returns every figure to 0. -/
def Obligations.ItemsArePostedRunAndCompleted : Prop :=
  ∀ (s : State) (flow prio e t : Nat) (after : Option Nat) (i : Item) (r : RunRt) (res : ItemResult) (p : AceAt), unitRuns s = true →
    let a := s.at t
    let q := s.ring s.localRing
    let f := r.item.flow
    (2 ≤ prio → prio ≤ 3 → 256 ≤ flow → s.disp.held = [] →
      (s.disp.ready.length < 64 → Answers (.timerTrigger flow prio none t) s fun u => ∃ x, u.disp.ready = s.disp.ready ++ [x] ∧ u.disp.held = [] ∧
        x.flow = flow ∧ x.prio = prio ∧ x.ready = a.now ∧ x.mask = 0xFF ∧ AxesKept [] s u ∧ BytesKept s u) ∧
      (256 ≤ (s.disp.ready.filter fun x => decide (x.mask = 0xFF ∧ x.prio = prio)).length → Answers (.timerTrigger flow prio none t) s fun u =>
        u.disp.ready = s.disp.ready ∧ u.disp.held.length = 1 ∧ u.get Ob.Disp.BP_EVENTS = satInc 32 (s.get Ob.Disp.BP_EVENTS) ∧ AxesKept [] s u ∧ BytesKept s u) ∧
      (∀ x, s.disp.ready = [i] → i.flow = x → x < 256 → i.tw = (s.ring (s.axisRing x)).tw → Answers (.timerTrigger flow prio (some x) t) s fun u =>
        ∃ y, u.disp.chained = s.disp.chained ++ [y] ∧ y.flow = flow ∧ y.prio = prio ∧ y.after = some x ∧ u.disp.ready = s.disp.ready ∧ AxesKept [] s u ∧ BytesKept s u)) ∧
    (flow < 256 → prio ≤ 1 → s.onRing flow 0xFE = true → q.tw + 1000 ≤ a.now → (s.axis flow).waiting = some q.cycle → s.disp.ready = [] → s.disp.held = [] →
      (∀ x, x < 8 → (s.eng x).run = none) → a.now < itemDeadline a (axisItem a flow s.localRing q.cycle q.tw) → Answers (.timerTrigger flow prio after t) s fun u =>
        u.disp.ready = [axisItem a flow s.localRing q.cycle q.tw] ∧ AxesKept [] s u ∧ BytesKept s u) ∧
    (flow < 256 → prio ≤ 1 → s.onRing flow 0xFE = false → exec (.timerTrigger flow prio after t) s = .next a) ∧
    (e < 8 → (s.eng e).run = none → s.disp.again = [] → s.disp.held = [] →
      (s.disp.ready = [] → exec (.itemDispatch e t) s = .next a) ∧
      (s.disp.ready = [i] → eligible a e i = false → exec (.itemDispatch e t) s = .next a) ∧
      (s.disp.ready = [i] → eligible a e i = true →
        (2 ≤ i.prio → Answers (.itemDispatch e t) s fun u =>
          u.disp.ready = [] ∧ (u.eng e).run = some ⟨i, a.now, 0, s.axis i.flow, none⟩ ∧ u.get Ob.Disp.DISPATCHED = satInc 32 (s.get Ob.Disp.DISPATCHED) ∧ (u.ace e).powered = true ∧ AxesKept [] s u) ∧
        (i.prio ≤ 1 → i.flow < 256 → Answers (.itemDispatch e t) s fun u =>
          u.get Ob.AxD.LAST_ENGINE i.flow = e ∧ u.get Ob.AxD.LAST_WAIT i.flow = (a.now - i.ready : Nat) ∧ u.get Ob.AxD.LAST_START i.flow = (a.now - i.tw : Nat) ∧ AxesKept [i.flow] s u ∧
          ∀ k, axisKey k = true → k ∉ [Ob.AxD.LAST_ENGINE.key i.flow, Ob.AxD.LAST_WAIT.key i.flow, Ob.AxD.LAST_START.key i.flow] → SMap.get? u.od k = SMap.get? s.od k))) ∧
    (∀ r, (s.eng e).run = some r → exec (.itemDispatch e t) s = .next a) ∧
    ((s.eng e).run = none → exec (.itemComplete e t) s = .next a) ∧
    ((s.eng e).run = some r → e < 8 → r.item.prio ≤ 1 → itemDeadline a r.item ≤ a.now → Answers (.itemComplete e t) s fun u => (u.eng e).run = none ∧ (u.eng e).items = (s.eng e).items) ∧
    ((s.eng e).run = some r → e < 8 → (r.item.prio ≤ 1 → a.now < itemDeadline a r.item) →
      (r.result = none → (s.ace e).sbuf = [] → s.disp.chained = [] → s.disp.held = [] → Answers (.itemComplete e t) s fun u =>
        (u.eng e).run = none ∧ (u.eng e).items = (s.eng e).items + 1 ∧ (u.eng e).lastEnd = a.now ∧ u.get Ob.Disp.COMPLETED = satInc 32 (s.get Ob.Disp.COMPLETED) ∧
        AxesKept [] s u ∧ BytesKept s u) ∧
      (r.result = some res → f < 256 → s.axis f = r.before → res.evs = [] → res.halt = false → Answers (.itemComplete e t) s fun u =>
        (u.eng e).run = none ∧ (u.axis f).loop = res.ax.loop ∧ (u.axis f).waiting = none ∧ (u.axis f).undoneWhy = none ∧ AxesKept [f] s u)) ∧
    (OpExecutes p s → p.pr = 0 → (s.ace p.eng).user = false → exec (.aceYield p) s = .next (issued p (completeItem (marked s p.eng 1) p.eng))) ∧
    (OpExecutes p s → p.pr = 0 → (s.ace p.eng).user = true → exec (.aceYield p) s = .next (issued p (aceRaise (marked s p.eng 1) p.eng 3))) ∧
    (Answers (.dispClear t) s fun u =>
      u.get Ob.Disp.DISPATCHED = 0 ∧ u.get Ob.Disp.COMPLETED = 0 ∧ u.get Ob.Disp.VOIDED = 0 ∧ u.get Ob.Disp.CANCELLED = 0 ∧ u.get Ob.Disp.BP_EVENTS = 0 ∧ u.get Ob.Disp.BP_UNDONE = 0 ∧
      u.get Ob.Disp.POOL_DEPTH_MAX = 0 ∧ (∀ x, x < 8 → u.get Ob.Eng.LOAD_MAX x = 0 ∧ u.get Ob.Eng.QUEUE_DEPTH_MAX x = 0 ∧ u.get Ob.Eng.WAIT_MAX x = 0) ∧ u.disp = s.disp ∧
      AxesKept [] s u ∧ BytesKept s u)

/-! ### Axes and virtual masters -/

/-- CONTROL bits (R187, R188): the seven writes of one CONTROL bit leave the word with that bit as written and the others as they were, and ask the
change of the axis's next node; nothing else of the axis, no other axis, no other object and no memory changes. What a CONTROL edge brings about in
the axis's next node (R187, R191, R199, R201, Table 08-1), with nothing else asked: ENABLE arms a DISABLED axis whose conditions hold; STOP, QSTOP and
HSTOP start their stop on an ENABLED axis with cause COMMAND; FAULT_RESET makes a FAULTED axis whose faults may be reset DISABLED and empties
FAULT_SET; a jog bit starts a jog of an axis in HOLD. -/
def Obligations.ControlWritesAndEdges : Prop :=
  (∀ (s : State) (a t : Nat) (on : Bool), unitRuns s = true →
    let old := s.nat Ob.Ctl.CONTROL a
    let writes (c : Instr) (k : Nat) (v : Bool) : Prop := Answers c s fun u =>
      u.get Ob.Ctl.CONTROL a = setBit old k v ∧
      u.axis a = { s.axis a with mot := { (s.axis a).mot with asks := (s.axis a).mot.asks ++ [.control old (setBit old k v)] } } ∧
      ObjectsKept [Ob.Ctl.CONTROL.key a] s u ∧ AxesKept [a] s u ∧ BytesKept s u
    writes (.axisEnable a on t) 0 on ∧ writes (.axisStop a t) 1 true ∧ writes (.axisQstop a t) 2 true ∧ writes (.axisHstop a t) 3 true ∧
    writes (.faultReset a t) 4 true ∧ writes (.jogPos a on t) 5 on ∧ writes (.jogNeg a on t) 6 on) ∧
  (∀ (s : State) (a t : Nat), unitRuns s = true → (s.axis a).mot.asks = [] →
    let st := (s.axis a).mot.state
    let old := s.nat Ob.Ctl.CONTROL a
    let then_ (c : Instr) (P : AxisRt → State → Prop) : Prop := Answers c s fun u => P ((judgeAsks u a).axis a) (judgeAsks u a)
    (bit old 0 = false → st = .disabled → (s.axis a).mot.enableSeen0 = true → armConditions s a = true →
      then_ (.axisEnable a true t) fun x _ => x.mot.state = .arming ∧ x.mot.armAt = max s.now t ∧ x.flags.power = true) ∧
    (bit old 1 = false → st = .enabled → then_ (.axisStop a t) fun x _ => x.mot.state = .stopping ∧ x.mot.stopKind = some .ramp ∧ x.mot.stopCause = some .command) ∧
    (bit old 2 = false → st = .enabled → then_ (.axisQstop a t) fun x _ => x.mot.state = .stopping ∧ x.mot.stopKind = some .quick ∧ x.mot.stopCause = some .command) ∧
    (bit old 3 = false → st = .enabled → then_ (.axisHstop a t) fun x _ => x.mot.state = .stopping ∧ x.mot.stopKind = some .hard ∧ x.mot.stopCause = some .command) ∧
    (bit old 4 = false → st = .faulted → allClearable s a = true →
      then_ (.faultReset a t) fun x u => x.mot.state = .disabled ∧ u.get Ob.Ctl.FAULT_SET a = 0 ∧ u.get Ob.Ctl.FAULT_CODE a = 0) ∧
    (bit old 5 = false → bit old 6 = false → st = .enabled → (s.axis a).mot.mode = 0 → (s.axis a).mot.jog = 0 → s.get Ob.Mach.STOP_ACTIVE = 0 →
      then_ (.jogPos a true t) (fun x _ => x.mot.jog = 1 ∧ x.mot.mode = 7) ∧ then_ (.jogNeg a true t) (fun x _ => x.mot.jog = -1 ∧ x.mot.mode = 7)))

/-- Arming ends (R187, R190): with the worker ENABLED, ARM_DELAY after the entry into ARMING makes the axis ENABLED in HOLD; ARM_TIMEOUT after it
makes the axis FAULTED with ARM_TIMEOUT in FAULT_SET, and in FAULT_CODE where it is the first fault. Entry into a committed mode at t₀ (R193, R194):
an entry that is not refused makes the mode the active one and clears MOVE_REFUSED; a refused one sets MOVE_REFUSED and leaves the mode; either way no
entry is pending any more. -/
def Obligations.ArmingAndModeEntry : Prop :=
  (∀ (s : State) (a t : Nat), unitRuns s = true → s.now ≤ t → (s.axis a).mot.state = .arming →
    (workerEnabled s a = true → (s.axis a).mot.armAt + s.nat Ob.Lim.ARM_DELAY a * 1000000 ≤ t →
      Answers (.armDelay a t) s fun u =>
        u.axis a = { s.axis a with mot := { (s.axis a).mot with state := .enabled, mode := 0, seq := (s.axis a).mot.seq + 1 } } ∧ AxesKept [a] s u ∧
        u.get Ob.Ctl.ACTIVE_MODE a = 0 ∧ u.get Ob.Ctl.STATE_WORD a = stateWord (u.axis a) ∧
        ObjectsKept [Ob.Ctl.STATE_WORD.key a, Ob.Ctl.ACTIVE_MODE.key a, Ob.Ctl.STOP_CAUSE.key a] s u ∧ BytesKept s u) ∧
    ((s.axis a).mot.armAt + s.nat Ob.Lim.ARM_TIMEOUT a * 1000000 ≤ t →
      Answers (.armTimeout a t) s fun u =>
        (u.axis a).mot.state = .faulted ∧ (u.axis a).flags.power = false ∧ AxesKept [a] s u ∧
        u.get Ob.Ctl.FAULT_SET a = setBit (s.nat Ob.Ctl.FAULT_SET a) 14 true ∧
        (s.get Ob.Ctl.FAULT_CODE a = 0 → u.get Ob.Ctl.FAULT_CODE a = 14) ∧ BytesKept s u)) ∧
  (∀ (s : State) (a t t0 mode : Nat), unitRuns s = true → s.now ≤ t → t0 ≤ t → (s.axis a).mot.pend = some (t0, mode) →
    (entryRefused s a mode = true → Answers (.modeEntry a t) s fun u =>
      (u.axis a).mot.pend = none ∧ (u.axis a).flags.moveRefused = true ∧ (u.axis a).mot.mode = (s.axis a).mot.mode ∧
      (u.axis a).mot.plan = (s.axis a).mot.plan ∧ AxesKept [a] s u ∧ BytesKept s u) ∧
    (entryRefused s a mode = false → mode = 1 ∨ mode = 2 → Answers (.modeEntry a t) s fun u =>
      (u.axis a).mot.pend = none ∧ (u.axis a).flags.moveRefused = false ∧ (u.axis a).mot.mode = mode ∧ (u.axis a).mot.plan.isSome = true ∧
      u.get Ob.Ctl.ACTIVE_MODE a = mode ∧ AxesKept [a] s u ∧ BytesKept s u))

/-- Stops end (R200, R201, R203): at standstill a stop ends in ENABLED, DISABLED or FAULTED by its strongest cause; past STOP_TIMEOUT without
standstill a RAMP_STOP or QUICK_STOP becomes a HARD_STOP with a fresh timeout, and a HARD_STOP or BRAKE makes the axis FAULTED with STOP_TIMEOUT. -/
def Obligations.StopsEndAtStandstillOrTimeOut : Prop :=
  ∀ (s : State) (a t : Nat), unitRuns s = true → s.now ≤ t → (s.axis a).mot.state = .stopping →
    let m := (s.axis a).mot
    (atStandstill (s.at t) a = true → Answers (.standstill a t) s fun u =>
      (u.axis a).mot.stopKind = none ∧ (u.axis a).mot.stopCause = none ∧ (u.axis a).mot.mode = 0 ∧ AxesKept [a] s u ∧ BytesKept s u ∧
      (m.stopCause = some .disable → (u.axis a).mot.state = .disabled ∧ (u.axis a).flags.power = false) ∧
      (m.stopCause = some .fault → (u.axis a).mot.state = .faulted ∧ (u.axis a).flags.power = false) ∧
      (m.stopCause = some .command ∨ m.stopCause = some .machineStop → (u.axis a).mot.state = .enabled ∧ (u.axis a).flags.power = true)) ∧
    (atStandstill (s.at t) a = false → m.stopStart + s.nat Ob.Lim.STOP_TIMEOUT a * 1000000 ≤ t → Answers (.stopTimeout a t) s fun u =>
      AxesKept [a] s u ∧ BytesKept s u ∧
      (m.stopKind = some .ramp ∨ m.stopKind = some .quick →
        (u.axis a).mot.state = .stopping ∧ (u.axis a).mot.stopKind = some .hard ∧ (u.axis a).mot.stopStart = t) ∧
      (m.stopKind = some .hard ∨ m.stopKind = some .brake →
        (u.axis a).mot.state = .faulted ∧ u.get Ob.Ctl.FAULT_SET a = setBit (s.nat Ob.Ctl.FAULT_SET a) 15 true))

/-- The machine stop (R205, R206): a request of a higher level than the active one raises STOP_ACTIVE, counts the stop, records the session of the
first, sets every virtual master on its way to rest and asks every axis that is not DISABLED to stop; STOP_CLEAR returns STOP_ACTIVE to 0 unless an
axis is still stopping for it. -/
def Obligations.MachineStopIsRequestedAndCleared : Prop :=
  ∀ (s : State) (sess v t : Nat), 1 ≤ v → v ≤ 3 → SessionWrites s sess →
    (s.get Ob.Mach.STOP_ACTIVE < v → Answers (.stopRequest sess v t) s fun u => u.out.head? = some (.reply 0xFF 0 stOk []) ∧ u.get Ob.Mach.STOP_REQUEST = v ∧
      u.get Ob.Mach.STOP_ACTIVE = v ∧ u.get Ob.Mach.STOP_COUNT = satInc 32 (s.get Ob.Mach.STOP_COUNT) ∧
      (s.get Ob.Mach.STOP_ACTIVE = 0 → u.get Ob.Mach.STOP_SESSION = sess) ∧
      (∀ a, a < 256 → (s.axis a).mot.state ≠ .disabled → (u.axis a).mot.asks = (s.axis a).mot.asks ++ [.machine v]) ∧
      (∀ a, (s.axis a).mot.state = .disabled → u.axis a = s.axis a) ∧
      (∀ k, k < 8 → s.get Ob.Mst.TYPE k = 1 → ∃ t0 d j, (u.master k).replan = some (t0, 0, d, j)) ∧ BytesKept s u) ∧
    ((∀ a, a < 256 → ¬((s.axis a).mot.state = .stopping ∧ (s.axis a).mot.stopCause = some .machineStop)) → Answers (.stopClear t) s fun u =>
      u.get Ob.Mach.STOP_ACTIVE = 0 ∧ u.get Ob.Mach.STOP_SESSION = 0xFF ∧ ObjectsKept [Ob.Mach.STOP_ACTIVE.key, Ob.Mach.STOP_SESSION.key, Ob.Mach.STOP_CLEAR.key] s u ∧ (∀ a, u.axis a = s.axis a) ∧ BytesKept s u)

/-- Virtual masters (R218): a due replan leaves a table whose new plan starts at its instant, VM_CHANGE_AT shows it, and no replan is due; the table
extension records that the tables of the virtual masters reach 1 ms beyond the latest whistle. Limits and homing (R209, R216): the positive limit
going active with no latch set, outside a homing, sets the latch and records x_act in LIMIT_TRIP_POS, and raises LIMIT_POS on a powered axis; the same
for the negative one; a homing still running HOME_TIMEOUT after its start fails with HOMING and HOME_STATE FAILED. -/
def Obligations.MastersLimitsAndHoming : Prop :=
  (∀ (s : State) (k t t0 : Nat) (v acc j : Int), unitRuns s = true →
    ((s.master k).replan = some (t0, v, acc, j) → s.flag Ob.PairC.PAIR_ENABLE = false → Answers (.vmReplan k t) s fun u =>
      (u.master k).replan = none ∧ u.get Ob.Mst.VM_CHANGE_AT k = t0 ∧ (∀ q, q ≠ k → u.master q = s.master q) ∧
      ObjectsKept [Ob.Mst.VM_CHANGE_AT.key k] s u ∧ (∀ a, u.axis a = s.axis a) ∧ BytesKept s u) ∧
    Answers (.vmTableExtend t) s fun u =>
      (∀ q r, q < 8 → r < 4 → s.get Ob.Mst.TYPE q = 1 → (s.ring r).tw + 1000000 ≤ (u.master q).tableTo) ∧
      (∀ q, q < 8 → (u.master q).pieces = (s.master q).pieces) ∧ ObjectsKept [] s u ∧ (∀ a, u.axis a = s.axis a) ∧ BytesKept s u) ∧
  (∀ (s : State) (a t : Nat) (pos : Bool), unitRuns s = true → s.now ≤ t →
    (limitActive (s.at t) a (if pos then s.nat Ob.Lim.LIMIT_POS_SOURCE a else s.nat Ob.Lim.LIMIT_NEG_SOURCE a) = true →
      (if pos then (s.axis a).flags.limPos else (s.axis a).flags.limNeg) = false → (s.axis a).mot.mode ≠ 6 →
      Answers (.limitTrip a pos t) s fun u =>
        (if pos then (u.axis a).flags.limPos else (u.axis a).flags.limNeg) = true ∧ u.get Ob.Lim.LIMIT_TRIP_POS a = (s.axis a).fb.xact ∧
        ((s.axis a).mot.state.powered = true → bit (u.nat Ob.Ctl.FAULT_SET a) (if pos then 2 else 3) = true) ∧ AxesKept [a] s u ∧ BytesKept s u) ∧
    ((s.axis a).mot.mode = 6 → (s.axis a).mot.state = .enabled → (s.axis a).mot.home.t0 + s.nat Ob.Home.HOME_TIMEOUT a * 1000000 ≤ t →
      Answers (.homeTimeout a t) s fun u =>
        u.get Ob.Home.HOME_STATE a = 5 ∧ u.get Ob.Ctl.FAULT_SET a = setBit (s.nat Ob.Ctl.FAULT_SET a) 16 true ∧
        (u.axis a).mot.state = .stopping ∧ (u.axis a).mot.stopKind = some .quick ∧ AxesKept [a] s u ∧ BytesKept s u))

/-- Supervision of a cycle (R35, R180, R182): the following error above its limit in FE_TIME runs, the current sum above its limit in four cycles and
UNDONE_RUN at OVERRUN_LIMIT set their flag and fault and take their reaction; CLEAR_PEAK clears FE_PEAK and EXEC_MAX alone. -/
def Obligations.SupervisionFaultsAndPeaks : Prop :=
  ∀ (s : State) (a t : Nat), unitRuns s = true →
    (s.get Ob.Cur.FE_LIMIT a ≠ 0 → s.nat Ob.Cur.FE_TIME a ≤ (s.axis a).cur.feRun → bit (s.nat Ob.AxD.LOOP_FLAGS a) 8 = false → (s.axis a).mot.state = .enabled →
      Answers (.followingError a t) s fun u =>
        bit (u.nat Ob.AxD.LOOP_FLAGS a) 8 = true ∧ bit (u.nat Ob.Ctl.FAULT_SET a) 1 = true ∧ AxesKept [a] s u ∧ BytesKept s u ∧
        (s.get Ob.Cur.FE_REACTION a = 2 → (u.axis a).mot.stopKind = some .quick ∧ (u.axis a).mot.stopCause = some .fault) ∧
        (s.get Ob.Cur.FE_REACTION a = 3 → (u.axis a).mot.stopKind = some .hard ∧ (u.axis a).mot.stopCause = some .fault)) ∧
    (4 ≤ (s.axis a).cur.sumRun → bit (s.nat Ob.AxD.LOOP_FLAGS a) 9 = false → (s.axis a).mot.state = .enabled →
      Answers (.currentSum a t) s fun u =>
        bit (u.nat Ob.AxD.LOOP_FLAGS a) 9 = true ∧ bit (u.nat Ob.Ctl.FAULT_SET a) 10 = true ∧ AxesKept [a] s u ∧ BytesKept s u ∧
        (s.get Ob.Cur.SUM_REACTION a = 3 → (u.axis a).mot.stopKind = some .hard ∧ (u.axis a).mot.stopCause = some .fault)) ∧
    (s.get Ob.AxD.UNDONE_RUN a = s.get Ob.Cyc.OVERRUN_LIMIT → 1 ≤ s.get Ob.Cyc.OVERRUN_LIMIT → (s.axis a).flags.overran = false → (s.axis a).mot.state = .enabled →
      Answers (.overrun a t) s fun u =>
        bit (u.nat Ob.Ctl.FAULT_SET a) 6 = true ∧ (u.axis a).mot.state = .stopping ∧ (u.axis a).mot.stopKind = some .quick ∧ AxesKept [a] s u ∧ BytesKept s u) ∧
    Answers (.clearPeak a t) s fun u =>
      u.get Ob.AxD.FE_PEAK a = 0 ∧ u.get Ob.AxD.EXEC_MAX a = 0 ∧ ObjectsKept [Ob.AxD.FE_PEAK.key a, Ob.AxD.EXEC_MAX.key a, Ob.AxD.CLEAR_PEAK.key a] s u ∧ (∀ q, u.axis q = s.axis q) ∧ BytesKept s u

/-! ### The machine cycle and the rings -/

/-- The whistle (R20 to R22) of a ring in PLAY, or of LOCAL_RING, with no change of schedule or commit due: it opens the cycle with its number, in
CYCLE_NUMBER too, and every axis of the cycle waits for its item; an instant that is no whistle of the ring does nothing. The rally frame of a cycle
(R23, R50 to R56): half a microsecond or more after the whistle it leaves once, with the cycle's number, the ring's schedule and LENGTH, a slot for
every worker and one service slot; a PAUSE frame received is ignored (R47); CLEAR_COUNTS clears the counters of undone axes and missing frames. -/
def Obligations.WhistlesAndFrames : Prop :=
  (∀ (s : State) (r t c : Nat) (sd : List (Nat × List Bool)), r < 4 → unitRuns s = true →
    let a := s.at t
    let n := cycleNo c (s.tcyc r)
    s.inPlay r = true ∨ r = s.localRing → s.hud.decided ≠ 1 → s.get Ob.Ring.STATE r ≠ 4 → (s.ring r).open_ = false → s.com.owed = [] → (s.ring r).overlay = [] →
      (cycleOfWhistle (s.tcyc r) (s.woff r) a.now = some c → Answers (.whistle r sd t) s fun u =>
        u.get Ob.Cyc.CYCLE_NUMBER 0 0 r = n ∧ (u.ring r).tw = a.now ∧ (u.ring r).cycle = n ∧ (u.ring r).tc = s.tcyc r ∧ (u.ring r).sc = s.sched r ∧
        (u.ring r).open_ = true ∧ (u.ring r).returned = false ∧ (∀ x ∈ cycleAxes s r, (u.axis x).waiting = some n) ∧ (∀ x, x ∉ cycleAxes s r → (u.axis x).waiting = (s.axis x).waiting) ∧
        u.staged = s.staged ∧ u.snaps = s.snaps) ∧
      (cycleOfWhistle (s.tcyc r) (s.woff r) a.now = none → exec (.whistle r sd t) s = .next a)) ∧
  (∀ (s : State) (r t : Nat), unitRuns s = true →
    let a := s.at t
    let q := s.ring r
    (s.inPlay r = true → q.txOn = true → q.open_ = true → q.tw + 500 ≤ a.now → q.txFrom ≤ q.tw + 500 → q.tx = none ∨ q.txAt < q.tw → s.get Ob.Pair.ROLE = 0 →
      Answers (.frameEmission r t) s fun u => ∃ f w, u.out = .frame f w :: s.out ∧ (u.ring r).tx = some f ∧ (u.ring r).txAt = a.now ∧
        f.ring = r ∧ f.cycle = q.cycle ∧ f.sched = s.sched r ∧ f.length = sahxLength s r (s.sched r) ∧ f.slots.map (fun d => d.pos) = (List.range (s.nWorkers r)).map (· + 1) ∧ f.svc.length = 1 ∧
        u.od = s.od ∧ (∀ x, u.axis x = s.axis x) ∧ BytesKept s u ∧ ∀ z, z ≠ r → u.ring z = s.ring z) ∧
    (a.now < q.tw + 500 → exec (.frameEmission r t) s = .next a) ∧
    exec (.pauseFrame r t) s = .next a ∧
    Answers (.clearCounts t) s fun u =>
      u.get Ob.Cyc.UNDONE_COMPUTE = 0 ∧ u.get Ob.Cyc.UNDONE_LATE = 0 ∧ u.get Ob.Cyc.UNDONE_FRAME = 0 ∧ (∀ k, k < 4 → u.get Ob.Cyc.FRAME_MISSING 0 0 k = 0) ∧
      u.get Ob.Cyc.CLEAR_COUNTS = 1 ∧ ObjectsKept [Ob.Cyc.CLEAR_COUNTS.key, Ob.Cyc.UNDONE_COMPUTE.key, Ob.Cyc.UNDONE_LATE.key, Ob.Cyc.UNDONE_FRAME.key, Ob.Cyc.FRAME_MISSING.key 0 0 0, Ob.Cyc.FRAME_MISSING.key 0 0 1,
        Ob.Cyc.FRAME_MISSING.key 0 0 2, Ob.Cyc.FRAME_MISSING.key 0 0 3] s u ∧ (∀ x, u.axis x = s.axis x) ∧ BytesKept s u)

/-- Regions and returned frames (R36, R73, R57, R58, R283): the attended, valid slot of a position lands its sample data for the cycle; a slot without
attendance or SAMPLE_VALID leaves its waiting axes with cause LATE_SAMPLE; a valid returned frame ends the run of missing frames and shows its
ATTENDANCE; a frame that may not be read makes the cycle's frame missing, counted once. -/
def Obligations.RegionsAndFramesLandOrAreMissing : Prop :=
  ∀ (s : State) (r p fcs t : Nat) (att : Bool) (slot b : List Byte) (loop : Int) (f : RallyFrame), unitRuns s = true → 1 ≤ p → p < 128 →
    let a := s.at t
    let q := s.ring r
    let w := s.workerSize r f.sched p
    let valid := bit (leAt slot (12 + w.1) 4) 24
    (q.tx = some f → landingOpen a r p = true → isSplit s r = false →
      (att = true → valid = true → Answers (.sampleRegionLanded r p att slot t) s fun u =>
        (u.wk r p).data = slice slot (16 + w.1) w.2 ∧ (u.wk r p).landedCycle = some q.cycle ∧ (u.wk r p).landedSched = f.sched ∧ (u.wk r p).landedAt = a.now ∧ (∀ x, u.axis x = s.axis x) ∧ BytesKept s u) ∧
      (att = false ∨ valid = false → Answers (.sampleRegionLanded r p att slot t) s fun u =>
        u.wk r p = s.wk r p ∧ (∀ x ∈ channelAxes s r p, (s.axis x).waiting.isSome = true → (u.axis x).undoneWhy = some ((s.axis x).undoneWhy.getD 2)) ∧
        u.od = s.od ∧ u.disp = s.disp ∧ BytesKept s u)) ∧
    (s.inPlay r = true → q.open_ = true → q.returned = false → q.lost = false → a.now ≤ q.tw + q.tc - guardNs → q.tw ≤ q.txAt → q.syncLost = none → q.tx = some f → r < 4 →
      ((rxValid (rxStore a r 0 b) r fcs b).2 = true → Answers (.frameReturned r fcs loop b t) s fun u =>
        (u.ring r).returned = true ∧ (u.ring r).missRun = 0 ∧ u.get Ob.Ring.ATTENDANCE r = (rxHeader b).attendance ∧ u.get Ob.Cyc.FRAME_MISSING 0 0 r = s.get Ob.Cyc.FRAME_MISSING 0 0 r) ∧
      ((rxValid (rxStore a r 0 b) r fcs b).2 = false → Answers (.frameReturned r fcs loop b t) s fun u =>
        (u.ring r).lost = true ∧ (u.ring r).missRun = q.missRun + 1 ∧ u.get Ob.Ring.ATTENDANCE r = 0 ∧ u.get Ob.Cyc.FRAME_MISSING 0 0 r = satInc 32 (s.get Ob.Cyc.FRAME_MISSING 0 0 r)))

/-- t_D and lost frames (R31, R36, R38, R75, R121): at t_D the cycle closes, before it nothing happens, and with LOCAL_RING a snapshot with the next
number is the newest; FRAME_MISSING_LIMIT missing frames in a row stop every worker with a live axis and fault the ring's axes; a receive port that
loses synchronisation for 100 ms takes its ring out of PLAY as FAILED with NO_LINK; the far end turns a frame back, its own DELAY slots answered
(R85). -/
def Obligations.DeadlinesCloseCyclesAndLossesEndPlay : Prop :=
  ∀ (s : State) (r t t0 fcs frac : Nat) (b : List Byte), r < 4 → unitRuns s = true →
    let a := s.at t
    let q := s.ring r
    (q.open_ = true → q.tw + q.tc - guardNs ≤ a.now → Answers (.computeDeadline r t) s fun u =>
      (u.ring r).open_ = false ∧ (u.ring r).settled = some q.tw ∧ (r = s.localRing → (u.snaps.head?.map fun x => x.id) = some (nextSnapshot s) ∧ u.get Ob.Sb.SNAPSHOT_ID = nextSnapshot s)) ∧
    (a.now < q.tw + q.tc - guardNs → exec (.computeDeadline r t) s = .next a) ∧
    (s.nat Ob.Cyc.FRAME_MISSING_LIMIT ≤ q.missRun → s.inPlay r = true → standbyEligible s = false → s.nWorkers r ≤ 64 → Answers (.frameMissingLimit r t) s fun u =>
      (∀ i, i < s.nWorkers r → hasLiveAxis s r (i + 1) = true → (u.wk r (i + 1)).qstop = true) ∧
      ∀ x, x < 256 → s.onRing x r = true → (s.axis x).mot.state ≠ .disabled →
        (u.axis x).mot.state = .faulted ∧ (u.axis x).flags.toldStop = true ∧ bit (u.nat Ob.Ctl.FAULT_SET x) 7 = true) ∧
    (q.missRun < s.nat Ob.Cyc.FRAME_MISSING_LIMIT → exec (.frameMissingLimit r t) s = .next a) ∧
    (Answers (.portSyncLoss r t) s fun u => (u.ring r).syncLost = some (q.syncLost.getD a.now) ∧ (∀ z, z ≠ r → u.ring z = s.ring z) ∧ u.od = s.od ∧ (∀ x, u.axis x = s.axis x) ∧ BytesKept s u) ∧
    (q.syncLost = some t0 →
      (a.now ≤ t0 + 100000000 → Answers (.portSyncRegained r t) s fun u => (u.ring r).syncLost = none ∧ u.od = s.od ∧ (∀ x, u.axis x = s.axis x) ∧ BytesKept s u) ∧
      (t0 + 100000000 ≤ a.now → s.inPlay r = true → isSplit s r = false → Answers (.portSyncTimeout r t) s fun u =>
        u.get Ob.Ring.STATE r = 6 ∧ u.get Ob.Ring.FAIL_REASON r = 1 ∧ (u.ring r).txOn = false)) ∧
    (isStandby s = false → s.get Ob.Ring.STATE r = 7 → Answers (.turnRound r fcs frac b t) s fun u =>
      u.out = .packet 6 r ((turnedFrame a r b).map fun x => (x.toNat : Int)) :: s.out ∧ (u.ring r).seenAt = some a.now ∧ u.od = s.od ∧ (∀ x, u.axis x = s.axis x)) ∧
    (isStandby s = false → s.get Ob.Ring.STATE r ≠ 7 → exec (.turnRound r fcs frac b t) s = .next a)

/-- The huddle (R42 to R45, R459): GO of a check that passes announces a switch at a start common to the old and new cycles of every ring of the mask,
LEAD slowest cycles away or more; GO without a ring, or with a ring outside PLAY, is refused with its reason; at t_J the huddle is confirmed where
every worker of every ring acknowledged, and cancelled with ACK_MISSING otherwise; from c* on the target schedule governs the ring. -/
def Obligations.HuddlesAnnounceDecideAndSwitchTogether : Prop :=
  ∀ (s : State) (r t c : Nat), unitRuns s = true →
    let a := s.at t
    let mask := s.nat Ob.Hud.RING_MASK
    let tg := hudTargets s
    let rings := (List.range 4).filter fun r => bit mask r
    let lists := [Ob.Hud.STATE.key, Ob.Hud.REASON.key]
    let answered (st : Nat) (u : State) : Prop := u.out.head? = some (.reply 0xFF 0 st []) ∧ (∀ x, u.axis x = s.axis x) ∧ BytesKept s u
    (s.hud.active = true → exec (.huddleGo t) s = .next (a.emit (.reply 0xFF 0 stBusy []))) ∧
    (s.hud.active = false → mask % 16 = 0 → Answers (.huddleGo t) s fun u =>
      u.get Ob.Hud.STATE = 5 ∧ u.get Ob.Hud.REASON = 0 ∧ ObjectsKept lists s u ∧ u.hud = s.hud ∧ answered stRange u) ∧
    (s.hud.active = false → mask % 16 ≠ 0 → (∃ z ∈ rings, s.inPlay z = false) → Answers (.huddleGo t) s fun u =>
      u.get Ob.Hud.STATE = 5 ∧ u.get Ob.Hud.REASON = 4 ∧ ObjectsKept lists s u ∧ u.hud = s.hud ∧ answered stState u) ∧
    (s.hud.active = false → mask % 16 ≠ 0 → (∀ z ∈ rings, s.inPlay z = true) → (∀ z, z < 4 → isSplit s z = false ∧ s.get Ob.Ring.REJOIN_STATE z = 0) → s.com.phase = 0 →
      (∀ z ∈ rings, s.get Ob.Sched.VALID z (tg.getD z 0) = 1 ∧ targetUnfit s z (tg.getD z 0) = false) →
      (admissionCheck a a fun z => if bit mask z then some (tg.getD z 0) else none).2 = true →
      chooseSwitch (hudCycles s mask tg) (s.nat Ob.Hud.LEAD) (s.nat Ob.Hud.SWITCH_TIME) a.now = some c → (∃ z ∈ rings, tg.getD z 0 ≠ s.nat Ob.Cyc.ACTIVE_SCHEDULE 0 0 z) →
      Answers (.huddleGo t) s fun u =>
        u.hud.active = true ∧ u.hud.mask = mask ∧ u.hud.cstar = c ∧ u.hud.decided = 0 ∧ u.get Ob.Hud.STATE = 1 ∧ u.get Ob.Hud.SWITCH_AT = c ∧ answered stOk u ∧
        ∀ z ∈ rings, c % s.tcyc z = 0 ∧ c % s.tcycSched z (tg.getD z 0) = 0 ∧ a.now + s.nat Ob.Hud.LEAD * s.tcyc z ≤ c) ∧
    (s.hud.active = true → s.hud.decided = 0 → s.hud.tJ ≤ a.now →
      let acked (z : Nat) : Prop := bit s.hud.landed z = true ∧ missingAck (s.nWorkers z) true (s.hud.attend.getD z 0) (s.hud.ack.getD z 0) = 0
      ((∀ z ∈ hudRings s, acked z) → Answers (.huddleDecision t) s fun u => u.hud = { s.hud with decided := 1 } ∧ u.get Ob.Hud.STATE = 2 ∧ ∀ x, u.axis x = s.axis x) ∧
      ((∃ z ∈ hudRings s, ¬ acked z) → Answers (.huddleDecision t) s fun u =>
        u.hud = { s.hud with active := false, decided := 2 } ∧ u.get Ob.Hud.STATE = 4 ∧ u.get Ob.Hud.REASON = 1 ∧ u.get Ob.Hud.CANCEL_COUNT = satInc 32 (s.get Ob.Hud.CANCEL_COUNT))) ∧
    (bit s.hud.mask r = true → s.hud.decided = 1 → bit s.hud.switched r = false → s.inPlay r = true →
      (s.hud.cstar ≤ a.now → Answers (.huddleSwitch r t) s fun u =>
        u.get Ob.Cyc.ACTIVE_SCHEDULE 0 0 r = s.hud.targets.getD r 0 ∧ ObjectsKept [Ob.Cyc.ACTIVE_SCHEDULE.key 0 0 r] s u ∧ bit u.hud.switched r = true ∧ ∀ x, u.axis x = s.axis x) ∧
      (a.now < s.hud.cstar → exec (.huddleSwitch r t) s = .next a))

/-- Kickoff (R48, R66 to R72, R76, R88, R459): KICKOFF of a dark or failed ring whose module passes turns the transmitter on in LINK; each kickoff
cycle sends its frame; HOPS equal to WORKER_COUNT begins the roll-call, more is COUNT; LINK, ALIGN and the kickoff huddle end FAILED at their limits;
a lost collision is a let, played again when the winner falls silent; STOP makes the ring DARK; REJOIN of a ring looped for 100 ms begins configuring
it. -/
def Obligations.KickoffBringsRingsUpOrFails : Prop :=
  ∀ (s : State) (r t t0 hops sender prio serial fcs e : Nat) (v : SvcSlot) (l : List SvcSlot) (id b : List Byte) (loop : Int) (f : RallyFrame),
    r < 4 → unitRuns s = true →
    let a := s.at t
    let q := s.ring r
    let st := s.get Ob.Ring.STATE r
    let c := a.now / kickNs * kickNs
    let replied (x : Nat) (u : State) : Prop := u.out.head? = some (.reply 0xFF 0 x [])
    let failed (u : State) (why : Int) : Prop := u.get Ob.Ring.STATE r = 6 ∧ u.get Ob.Ring.FAIL_REASON r = why ∧ (u.ring r).txOn = false
    let linked (u : State) : Prop := u.get Ob.Ring.STATE r = 1 ∧ u.get Ob.Ring.FAIL_REASON r = 0 ∧ (u.ring r).txOn = true ∧ (u.ring r).tK = a.now
    (st = 0 ∨ st = 6 →
      (moduleOk (s.get Ob.Ring.PHY_RATE r) (id.take 256) = true → Answers (.kickoff r id t) s fun u => linked u ∧ replied stOk u) ∧
      (moduleOk (s.get Ob.Ring.PHY_RATE r) (id.take 256) = false → Answers (.kickoff r id t) s fun u => failed u 2 ∧ replied stOk u)) ∧
    (st ≠ 0 → st ≠ 6 → exec (.kickoff r id t) s = .next ((readCage a r id).emit (.reply 0xFF 0 stState []))) ∧
    (q.tx = none ∨ q.txAt < c →
      (st = 1 → a.now < q.tK + 30000000 → Answers (.kickoffFrameTick r t) s fun u =>
        ∃ g w, u.out = .frame g w :: s.out ∧ g.ring = r ∧ g.cycle = cycleNo c kickNs ∧ g.svc = [claimSlot s r] ∧ g.length = 160 ∧ (u.ring r).txAt = a.now ∧ u.od = s.od) ∧
      (st = 2 → q.tries < 4 → Answers (.kickoffFrameTick r t) s fun u =>
        ∃ g w, u.out = .frame g w :: s.out ∧ g.svc = claimSlot s r :: List.replicate 64 identSlot ∧ (u.ring r).tries = q.tries + 1 ∧ u.od = s.od)) ∧
    (st = 1 → q.tK + 30000000 ≤ a.now → Answers (.kickoffLinkTimeout r t) s fun u => failed u (if q.anyReturned then 3 else 1)) ∧
    (st = 3 → q.alignDone = false → q.tP + 100000000 ≤ a.now → Answers (.alignTimeout r t) s fun u => failed u 5) ∧
    (st = 4 → q.kCstar ≠ 0 → q.kDecided = 0 → kickDecisionAt q ≤ a.now →
      let miss := missingAck (s.nWorkers r) q.kLanded q.kAttend q.kAck
      (miss = 0 → q.kLanded = true → Answers (.huddleTimeout r t) s fun u => (u.ring r).kDecided = 1 ∧ u.od = s.od) ∧
      (miss ≠ 0 → q.firstAnnounce = some t0 → t0 + 4000000 ≤ a.now → Answers (.huddleTimeout r t) s fun u => failed u 8)) ∧
    (st = 1 → q.tx = some f → q.returned = false → q.syncLost = none → (rxValid (rxStore a r 0 b) r fcs b).2 = true → kickSlots b = v :: l → leAt v.payload 0 1 = hops →
      (hops = s.nWorkers r → Answers (.kickoffFrameReturned r fcs loop b t) s fun u => u.get Ob.Ring.STATE r = 2 ∧ u.get Ob.Ring.HOPS r = hops ∧ (u.ring r).tL = a.now) ∧
      (s.nWorkers r < hops → Answers (.kickoffFrameReturned r fcs loop b t) s fun u => failed u 3 ∧ u.get Ob.Ring.HOPS r = hops)) ∧
    (1 ≤ st → st ≤ 4 → sender ≠ s.nat Ob.PairC.UNIT_END →
      (claimLost (claimPriority s r) prio unitSerial serial = true → Answers (.kickoffCollision r sender prio serial t) s fun u =>
        u.get Ob.Ring.STATE r = 7 ∧ (u.ring r).txOn = false ∧ u.get Ob.Ring.LET_COUNT r = satInc 32 (s.get Ob.Ring.LET_COUNT r) ∧
        ∃ x, (u.ring r).backoffEnd = some x ∧ a.now + 2000000 ≤ x ∧ x ≤ a.now + 9000000) ∧
      (claimLost (claimPriority s r) prio unitSerial serial = false → exec (.kickoffCollision r sender prio serial t) s = .next a)) ∧
    (st = 7 → q.backoffEnd = some e → e ≤ a.now →
      (q.winnerAt + 1000000 < a.now → isStandby s = false → moduleOk (s.get Ob.Ring.PHY_RATE r) q.cage = true → Answers (.kickoffLet r t) s linked) ∧
      (a.now ≤ q.winnerAt + 1000000 → Answers (.kickoffLet r t) s fun u =>
        (u.ring r).backoffEnd = none ∧ u.get Ob.Ring.STATE r = 7 ∧ (s.flag Ob.PairC.PAIR_ENABLE = true → u.get Ob.Pair.ROLE = 2))) ∧
    (Answers (.ringStop r t) s fun u => u.get Ob.Ring.STATE r = 0 ∧ u.get Ob.Ring.FAIL_REASON r = 0 ∧ (u.ring r).txOn = false ∧ replied stOk u ∧
      (st = 5 → ∀ x, x < 256 → s.onRing x r = true → (s.axis x).mot.state ≠ .disabled → (u.axis x).mot.state = .faulted ∧ bit (u.nat Ob.Ctl.FAULT_SET x) 7 = true)) ∧
    (st = 5 → q.loopSince = some t0 → t0 + 100000000 ≤ a.now → s.hud.active = false → s.com.phase ≠ 2 → s.get Ob.Ring.REJOIN_STATE r = 0 → Answers (.rejoin r t) s fun u =>
      u.get Ob.Ring.REJOIN_STATE r = (if s.nat Ob.Ring.LOOPBACK_AT r = 0 then 2 else 1) ∧ (u.ring r).rejoinPos = s.nat Ob.Ring.LOOPBACK_AT r ∧ ObjectsKept [Ob.Ring.REJOIN_STATE.key r, Ob.Ring.REJOIN.key r] s u ∧ replied stOk u) ∧
    (st ≠ 5 → exec (.rejoin r t) s = .next (a.emit (.reply 0xFF 0 stState [])))

/-! ### The time base -/

/-- Network time (R96, R98): a Sync of the selected grandmaster, of DOMAIN at an enabled port, gives the master-to-slave difference, two-step Syncs
through their Follow_Up; a Delay_Resp completes an exchange: the fourth from FREE on steps TOD_OFFSET by the mean and enters LOCKING, later ones leave
time of day alone and move RATE_ADJ within 50 ppm by at most 1 ppm; sixteen Sync intervals within 1 µs lock; a master-capable clock that hears no
grandmaster becomes master; the master answers Delay_Req, sends two-step Syncs, and Announce at its interval (assumption log 172). The values of the
filter and of the servo themselves are free (assumption log 2). -/
def Obligations.NetworkTimeTakesSyncAndDelayExchanges : Prop :=
  ∀ (s : State) (port dom q src t : Nat) (t1 t2 t3 t4 d : Int) (ds : List Nat) (utc : Int) (iv x : Nat), unitRuns s = true →
    let a := s.at t
    let p := s.time.ptp
    let synced (m1 m2 : Int) (u : State) : Prop :=
      u.time.ptp.msDiff = some (m2 - m1) ∧ u.time.ptp.lastSync = a.now ∧ u.time.ptp.sync = none ∧ u.time.todOff = s.time.todOff ∧ u.now = a.now ∧
      (s.get Ob.Clk.SYNC_STATE = 1 → |s.get Ob.Clk.MASTER_OFFSET| ≤ 1000 → p.offsets ≠ [] → p.lockRun = 15 → (p.lastSeq.map fun e => (e + 1) % 65536) = some q → u.get Ob.Clk.SYNC_STATE = 2) ∧
      (s.get Ob.Clk.SYNC_STATE ≠ 1 → u.od = s.od) ∧ ObjectsKept [Ob.Clk.SYNC_STATE.key] s u ∧ AxesKept [] s u ∧ BytesKept s u
    let off := roundDiv (d - (t4 - t3)) 2
    let mean := roundDiv (p.first ++ [off]).sum 4
    (ptpParent s port dom src = true →
      Answers (.syncMessage port dom src q false t1 t) s (synced t1 (todAt a t - rxLat s port)) ∧
      exec (.syncMessage port dom src q true t1 t) s = .next (a.modPtp fun p => { p with sync := some (q, todAt a t - rxLat s port) }) ∧
      (p.sync = some (q, t2) → Answers (.followUpMessage port dom src q t1 t) s (synced t1 t2)) ∧
      (p.delayReq = some (q, t3) → p.msDiff = some d →
        (s.get Ob.Clk.SYNC_STATE = 0 → p.first.length < 3 → Answers (.delayRespMessage port dom src q t4 t) s fun u =>
          u.time.ptp.first = p.first ++ [off] ∧ u.time.ptp.delayReq = none ∧ u.time.todOff = s.time.todOff ∧ u.od = s.od) ∧
        (s.get Ob.Clk.SYNC_STATE = 0 → p.first.length = 3 → Answers (.delayRespMessage port dom src q t4 t) s fun u =>
          u.time.todOff = s.time.todOff - mean * 65536 ∧ u.get Ob.Clk.SYNC_STATE = 1 ∧ u.get Ob.Clk.STEPPED = 1 ∧ u.get Ob.Clk.STEP_SIZE = sat 64 (-mean) ∧
          u.get Ob.Clk.RATE_ADJ = s.get Ob.Clk.RATE_ADJ ∧ u.now = a.now) ∧
        (s.get Ob.Clk.SYNC_STATE ≠ 0 → |s.get Ob.Clk.RATE_ADJ| ≤ 54975581 → Answers (.delayRespMessage port dom src q t4 t) s fun u =>
          u.time.todOff = s.time.todOff ∧ u.now = a.now ∧ |u.get Ob.Clk.RATE_ADJ| ≤ 54975581 ∧ |u.get Ob.Clk.RATE_ADJ - s.get Ob.Clk.RATE_ADJ| ≤ 1099511 ∧
          u.get Ob.Clk.SYNC_STATE = (if s.get Ob.Clk.SYNC_STATE = 3 ∨ s.get Ob.Clk.SYNC_STATE = 4 then 1 else s.get Ob.Clk.SYNC_STATE) ∧
          ObjectsKept [Ob.Clk.SYNC_STATE.key, Ob.Clk.RATE_ADJ.key, Ob.Clk.MASTER_OFFSET.key] s u))) ∧
    (ptpMine s port dom = true →
      (p.gm = none → s.get Ob.Ptp.ROLE ≠ 1 → Answers (.announceMessage port dom src ds utc iv t) s fun u =>
        u.get Ob.Clk.UTC_OFFSET = utc ∧ u.time.ptp.master = false ∧ u.time.ptp.parent = (port, src) ∧ u.time.ptp.announceAt = a.now ∧ u.time.ptp.interval = iv ∧
        u.time.todOff = s.time.todOff ∧ ObjectsKept [Ob.Clk.UTC_OFFSET.key] s u) ∧
      (p.master = true → exec (.delayReqMessage port dom q src t) s = .next (a.emit (.packet 1 9 [port, src, q, todAt a t - rxLat s port])))) ∧
    (ptpParent s port dom src = false → exec (.syncMessage port dom src q false t1 t) s = .next a) ∧
    (ptpMine s port dom = false → exec (.announceMessage port dom src ds utc iv t) s = .next a ∧ exec (.delayReqMessage port dom q src t) s = .next a) ∧
    (p.sync = none → exec (.followUpMessage port dom src q t1 t) s = .next a) ∧
    (p.delayReq = none → exec (.delayRespMessage port dom src q t4 t) s = .next a) ∧
    (p.master = false → s.get Ob.Ptp.ROLE ≠ 1 → exec (.syncInterval t) s = .next a) ∧
    (p.master = false → s.get Ob.Ptp.ROLE = 1 → p.announceAt + 3 * p.interval < a.now → Answers (.syncInterval t) s fun u =>
      u.time.ptp.master = true ∧ u.time.ptp.gm = none ∧ u.time.ptp.seqNo = (p.seqNo + 1) % 65536 ∧ u.od = s.od) ∧
    (p.master = true → s.get Ob.Ptp.ROLE = 1 → s.nat Ob.Ptp.PORT_ENABLE = 3 → p.sentAt = some x →
      let syncs : List Msg := [.packet 1 8 [1, p.seqNo, todAt a a.now + txLat s 1], .packet 1 0 [1, p.seqNo], .packet 1 8 [0, p.seqNo, todAt a a.now + txLat s 0], .packet 1 0 [0, p.seqNo]] ++ s.out
      let mine (port : Int) : Msg := .packet 1 11 [port, s.nat Ob.Ptp.PRIORITY1, (ptpOwn s).quality, s.nat Ob.Ptp.PRIORITY2, unitSerial, 0, s.get Ob.Clk.UTC_OFFSET]
      (a.now < x + announceNs → Answers (.syncInterval t) s fun u => u.out = syncs ∧ u.time.ptp.seqNo = (p.seqNo + 1) % 65536 ∧ u.time.ptp.sentAt = p.sentAt ∧ u.od = s.od) ∧
      (x + announceNs ≤ a.now → Answers (.syncInterval t) s fun u =>
        u.out = mine 1 :: mine 0 :: syncs ∧ u.time.ptp.seqNo = (p.seqNo + 1) % 65536 ∧ u.time.ptp.sentAt = some a.now ∧ u.od = s.od))

/-- Time of day and the clock's states (R80, R81, R94, R97, R98): SET_TOD is taken in FREE alone and makes time of day read its value, RELOCK only
with no ring in LINK to PLAY; a lost Sync holds over, a held bound with growing offset warns; the transparent clock adds the residence time, to the
matching Follow_Up within 1 s for a two-step Sync; a standby steps machine time once and is disciplined within 150 ppm afterwards, DEGRADED beyond 2
ns. -/
def Obligations.TimeOfDayIsSetHeldAndForwarded : Prop :=
  ∀ (s : State) (tod corr t1 t2 t3 t4 : Int) (t b kind src q ing egr res at_ : Nat), unitRuns s = true →
    let a := s.at t
    let p := s.time.ptp
    let st := s.get Ob.Clk.SYNC_STATE
    let e := s.at egr
    let off := roundDiv ((t2 - t1) - (t4 - t3)) 2 + roundDiv (s.get Ob.Sby.BENCH_ASYM) 2
    (st = 0 → Answers (.setTod tod t) s fun u =>
      todAt u u.now = tod ∧ u.now = a.now ∧ ObjectsKept [Ob.Clk.SET_TOD.key] s u ∧ u.out.head? = some (.reply 0xFF 0 stOk []) ∧ AxesKept [] s u ∧ BytesKept s u) ∧
    (st ≠ 0 → exec (.setTod tod t) s = .next (a.emit (.reply 0xFF 0 stState []))) ∧
    ((∀ r, r < 4 → s.get Ob.Ring.STATE r < 1 ∨ 5 < s.get Ob.Ring.STATE r) → Answers (.relock t) s fun u =>
      u.get Ob.Clk.SYNC_STATE = 0 ∧ u.get Ob.Clk.STEPPED = 0 ∧ u.time.ptp.first = [] ∧ u.time.todOff = s.time.todOff ∧ u.out.head? = some (.reply 0xFF 0 stOk []) ∧
      ObjectsKept [Ob.Clk.SYNC_STATE.key, Ob.Clk.STEPPED.key, Ob.Clk.RELOCK.key] s u ∧ AxesKept [] s u ∧ BytesKept s u) ∧
    ((∃ r, r < 4 ∧ 1 ≤ s.get Ob.Ring.STATE r ∧ s.get Ob.Ring.STATE r ≤ 5) → exec (.relock t) s = .next (a.emit (.reply 0xFF 0 stState []))) ∧
    ((st = 1 ∨ st = 2) → p.lastSync + 3 * p.interval ≤ a.now → Answers (.syncLoss t) s fun u =>
      u.get Ob.Clk.SYNC_STATE = 3 ∧ u.time.todOff = s.time.todOff ∧ ObjectsKept [Ob.Clk.SYNC_STATE.key] s u ∧ AxesKept [] s u ∧ BytesKept s u) ∧
    (a.now < p.lastSync + 3 * p.interval → exec (.syncLoss t) s = .next a) ∧
    ((st = 1 ∨ st = 2) → p.boundSince = some b → b + 10000000000 ≤ a.now → |p.offsets.getLast?.getD 0| < |p.offsets.head?.getD 0| → Answers (.outOfRange t) s fun u =>
      u.get Ob.Clk.SYNC_STATE = 4 ∧ u.out.head? = some (.event 98 0 0) ∧ ObjectsKept [Ob.Clk.SYNC_STATE.key] s u ∧ AxesKept [] s u ∧ BytesKept s u) ∧
    (p.boundSince = none → exec (.outOfRange t) s = .next a) ∧
    (s.nat Ob.Ptp.PORT_ENABLE = 3 → ing + res = egr →
      (s.flag Ob.Ptp.TC_ENABLE = false → exec (.tcForward kind src q corr ing egr) s = .next (e.emit (.packet 1 (16 + kind) [src, q, corr]))) ∧
      (s.flag Ob.Ptp.TC_ENABLE = true →
        (kind = 0 ∨ kind = 2 → exec (.tcForward kind src q corr ing egr) s = .next (e.emit (.packet 1 (16 + kind) [src, q, corr + (res : Int) * 65536]))) ∧
        Answers (.tcForward 1 src q corr ing egr) s (fun u => u.out = .packet 1 17 [src, q, corr] :: s.out ∧ u.time.ptp.tc.head? = some (src, q, res, ing) ∧ u.od = s.od) ∧
        (p.tc.head? = some (src, q, b, at_) → ing ≤ at_ + 1000000000 →
          exec (.tcForward 3 src q corr ing egr) s = .next (e.emit (.packet 1 19 [src, q, corr + (b : Int) * 65536]))) ∧
        (p.tc = [(src, q, b, at_)] → at_ + 1000000000 < ing → exec (.tcForward 3 src q corr ing egr) s = .next (e.emit (.packet 1 19 [src, q, corr]))))) ∧
    (s.get Ob.Pair.ROLE = 2 → s.get Ob.Sby.BENCH_ALIGN_STATE ≠ 0 →
      (s.time.stepTaken = false → Answers (.benchTime t1 t2 t3 t4 tod t) s fun u =>
        (u.now : Int) = max 0 ((a.now : Int) - roundDiv off 1000) ∧ u.time.todOff = tod ∧ u.time.stepTaken = true ∧ u.od = s.od ∧ AxesKept [] s u ∧ BytesKept s u) ∧
      (s.time.stepTaken = true → Answers (.benchTime t1 t2 t3 t4 tod t) s fun u =>
        u.now = a.now ∧ u.time.todOff = s.time.todOff ∧ u.get Ob.Sby.BENCH_OFFSET = sat 32 off ∧ |u.get Ob.Clk.RATE_ADJ| ≤ 164926744 ∧
        (s.get Ob.Sby.BENCH_ALIGN_STATE = 2 → 2000 < |sat 32 off| → u.get Ob.Sby.BENCH_ALIGN_STATE = 3) ∧
        ObjectsKept [Ob.Clk.RATE_ADJ.key, Ob.Sby.BENCH_OFFSET.key, Ob.Sby.BENCH_ALIGN_STATE.key] s u ∧ AxesKept [] s u ∧ BytesKept s u)) ∧
    (s.get Ob.Pair.ROLE ≠ 2 → exec (.benchTime t1 t2 t3 t4 tod t) s = .next a)

/-! ### Commits, sessions and the host windows -/

/-- Admission, decision, application and outcome of a commit (R62, R115 to R120): without worker blocks a validated commit comes into force one pacing
cycle after its admission, with them four to eight; blocks that no longer fit five slots are rejected. The joint decision confirms where every block
is complete and rejects as INCOMPLETE otherwise. A share due at a whistle comes into force there and the others stay owed; at t_D of the cycle of A
the commit is counted, recorded and answered, the staged copy emptied, and only the shares of rings whose whistle is still to come stay owed. -/
def Obligations.CommitIsAdmittedDecidedAppliedAndAnswered : Prop :=
  ∀ (s : State) (r t c : Nat), unitRuns s = true →
    let a := s.at t
    let p := pacingRing a
    let blocks := commitBlocks a (withEntries a a.com.entries)
    let kept (u : State) : Prop := u.staged = s.staged ∧ (∀ q, u.axis q = s.axis q) ∧ BytesKept s u
    let rejected (u : State) (reason : Nat) : Prop := u.com.phase = 0 ∧ u.get Ob.Com.COMMIT_STATE = 0 ∧ u.get Ob.Com.LAST_RESULT = stRejected ∧
      u.get Ob.Com.LAST_REASON = reason ∧ u.get Ob.Com.REJECT_COUNT = satInc 32 (s.get Ob.Com.REJECT_COUNT) ∧ (a.com.discardAfter = false → kept u)
    (a.com.phase = 1 → isStandby a = false → cycleOfDeadline (a.tcyc p) (a.woff p) a.now = some c → a.com.tQ ≤ a.now → a.com.startup = false →
      (blocks = [] → Answers (.commitAdmission t) s fun u =>
        u.com.phase = 4 ∧ u.com.pacing = p ∧ u.com.applyAt = c + a.tcyc p ∧ u.get Ob.Com.LAST_LATENCY = 1 ∧ u.get Ob.Com.COMMIT_STATE = 4 ∧
        1 ≤ u.com.tag ∧ u.com.tag ≤ 255 ∧ u.get Ob.Com.LAST_TAG = u.com.tag ∧ u.com.owed = a.com.owed ++ splitShares a a.com.entries (c + a.tcyc p) ∧ kept u) ∧
      (blocks ≠ [] → slotsBeyond a blocks = false → Answers (.commitAdmission t) s fun u =>
        u.com.phase = 2 ∧ u.com.pacing = p ∧ c + 4 * a.tcyc p ≤ u.com.applyAt ∧ u.com.applyAt ≤ c + 8 * a.tcyc p ∧
        u.com.applyAt = c + latencyOf a blocks c (a.tcyc p) (a.woff p) a.now * a.tcyc p ∧ u.com.blocks = blocks ∧ u.get Ob.Com.COMMIT_STATE = 2 ∧
        1 ≤ u.com.tag ∧ u.com.tag ≤ 255 ∧ u.get Ob.Com.LAST_TAG = u.com.tag ∧ kept u) ∧
      (slotsBeyond a blocks = true → Answers (.commitAdmission t) s fun u => rejected u 4)) ∧
    (a.com.phase = 2 → isStandby a = false → a.now + guardNs + 2 * a.com.tp = a.com.applyAt + a.com.wp →
      ((∀ b ∈ a.com.blocks, b.complete = true) → Answers (.commitDecision t) s fun u =>
        u.com.phase = 3 ∧ u.com.tell = some (a.com.tag, a.com.applyAt, a.com.tp, true) ∧ u.get Ob.Com.COMMIT_STATE = 3 ∧
        u.com.owed = a.com.owed ++ splitShares a a.com.entries a.com.applyAt ∧ kept u) ∧
      ((∃ b ∈ a.com.blocks, b.complete = false) → Answers (.commitDecision t) s fun u =>
        u.com.tell = some (a.com.tag, a.com.applyAt, a.com.tp, false) ∧ rejected u 5)) ∧
    (∀ (o : Nat × Nat × List Staged) (v : Int), r < 4 → o ∈ a.com.owed → o.1 = r → a.inPlay r = true → cycleOfWhistle (a.tcyc r) (a.woff r) t = some c → o.2.1 ≤ c → a.com.phase = 3 →
      (∀ o' ∈ a.com.owed, o' = o ∨ c < o'.2.1) → o.2.2 = [{ key := Ob.Poss.ELECTION_HOLD.key, val := .num v }] →
      Answers (.commitApply r t) s fun u => u.com.owed = a.com.owed.filter (fun o' => decide (c < o'.2.1)) ∧ u.com.phase = 4 ∧ u.get Ob.Com.COMMIT_STATE = 4 ∧
        u.get Ob.Poss.ELECTION_HOLD = v ∧ u.staged = s.staged) ∧
    (a.com.phase = 3 ∨ a.com.phase = 4 → cycleOfDeadline (a.tcyc a.localRing) (a.woff a.localRing) t = some c → a.com.applyAt ≤ c →
      (∀ o ∈ a.com.owed, o.1 < 4 ∧ a.inPlay o.1 = true ∧ (a.ring o.1).tw < o.2.1) →
      let applied (u : State) : Prop := u.com.phase = 0 ∧ u.staged = [] ∧ u.com.owed = a.com.owed ∧ u.get Ob.Com.LAST_RESULT = stOk ∧
        u.get Ob.Com.COMMIT_COUNT = satInc 32 (s.get Ob.Com.COMMIT_COUNT) ∧ u.get Ob.Com.LAST_APPLY_TIME = a.com.applyAt ∧ u.get Ob.Sb.TAG_IN_FORCE = a.com.tag ∧
        (∀ q, u.axis q = s.axis q) ∧ BytesKept s u
      Answers (.commitReply t) s applied ∧
      (a.com.viaObject = false → a.com.startup = false → sessOpen s a.com.sess = true → (s.sess a.com.sess).token = a.com.token → a.com.path.via < 2 →
        s.flag Ob.PairC.PAIR_ENABLE = false → s.get Ob.Pair.ROLE = 0 → Answers (.commitReply t) s fun u => applied u ∧
          u.out.head? = some (.linli a.com.path (linliBytes 0x12 a.com.sess a.com.seqNo stOk a.com.token (commitBody u a.com.tag)))))

/-- COMMIT (R109, R112, R114, R120): a session without possession, and a block that is committing or in a huddle, is refused with its status in
LAST_RESULT; an empty staged copy answers OK and commits nothing. Where Table 05-4 finds no fault in the resulting configuration the commit is in
validation, its staged copy frozen and its end due within 50 µs + 0.25 µs per entry; where it finds one, the commit is rejected with the status,
reason and object of the first failing step, counted once, the staged copy kept. DISCARD, SAVE and ERASE_STORED (R109, R126 to R129): DISCARD empties
the staged copy unless a commit runs; SAVE of a configuration that fits starts a save into the bank that does not hold the newest image, which is
invalid from then on, or fails with its reason where the image is too large; the save's end puts the image into that bank and shows it as stored, or
shows the failure; ERASE_STORED is remembered for the next reset. -/
def Obligations.CommitsAndCopiesAreTakenOrRefused : Prop :=
  (∀ (s : State) (sess t : Nat), SessionWrites s sess →
    let a := (s.at t).set Ob.Sess.LAST_RENEWED (s.at t).now sess
    let verdict := (commitVerdict (validating a { viaObject := true, sess := sess }) (withEntries a a.staged)).2
    let results := [Ob.Com.LAST_RESULT.key, Ob.Com.LAST_REASON.key, Ob.Com.LAST_OBJECT.key, Ob.Com.COMMIT.key, Ob.Sess.LAST_RENEWED.key sess]
    let kept (u : State) : Prop := u.staged = s.staged ∧ (∀ q, u.axis q = s.axis q) ∧ BytesKept s u
    let replied (u : State) (status : Nat) : Prop := u.out = .reply 0xFF 0 status [] :: s.out
    let only (status : Nat) : Prop := Answers (.commitObject sess t) s fun u =>
      u.get Ob.Com.LAST_RESULT = status ∧ ObjectsKept results s u ∧ u.com = s.com ∧ replied u status ∧ kept u
    (isCaptain s sess = false → only stNotCaptain) ∧
    (isCaptain s sess = true → s.com.phase ≠ 0 ∨ s.hud.active = true → only stBusy) ∧
    (isCaptain s sess = true → s.com.phase = 0 → s.hud.active = false → (∀ r, r < 4 → s.get Ob.Ring.REJOIN_STATE r = 0) →
      (s.staged = [] → only stOk) ∧
      (s.staged ≠ [] → verdict = none → Answers (.commitObject sess t) s fun u =>
        u.com.phase = 1 ∧ u.get Ob.Com.COMMIT_STATE = 1 ∧ u.com.entries = s.staged ∧ u.com.viaObject = true ∧ u.com.sess = sess ∧ u.now ≤ u.com.tQ ∧
        u.com.tQ ≤ u.now + 50000 + 250 * s.staged.length ∧ u.get Ob.Com.REJECT_COUNT = s.get Ob.Com.REJECT_COUNT ∧ replied u stOk ∧ kept u) ∧
      (∀ (status reason obj : Nat), s.staged ≠ [] → verdict = some (status, reason, obj) → Answers (.commitObject sess t) s fun u =>
        u.com.phase = 0 ∧ u.get Ob.Com.COMMIT_STATE = 0 ∧ u.get Ob.Com.LAST_RESULT = status ∧ u.get Ob.Com.LAST_REASON = reason ∧ u.get Ob.Com.LAST_OBJECT = obj ∧
        u.get Ob.Com.REJECT_COUNT = satInc 32 (s.get Ob.Com.REJECT_COUNT) ∧ replied u stOk ∧ kept u))) ∧
  (∀ (s : State) (t : Nat) (t0 bank : Nat) (i : StoredImage), unitRuns s = true →
    let a := s.at t
    let size := 64 + (imageBytes (storedImage a 0).records).length
    let target := match newestBank s with | some k => 1 - k | none => 0
    let kept (u : State) : Prop := (∀ q, u.axis q = s.axis q) ∧ BytesKept s u
    (s.com.phase = 0 → Answers (.discard t) s fun u => u.staged = [] ∧ u.get Ob.Com.STAGED_COUNT = 0 ∧ u.get Ob.Com.STAGED_BYTES = 0 ∧
      ObjectsKept [Ob.Com.STAGED_COUNT.key, Ob.Com.STAGED_BYTES.key, Ob.Com.DISCARD.key] s u ∧ kept u) ∧
    (s.com.phase ≠ 0 → exec (.discard t) s = .next (a.emit (.reply 0xFF 0 stBusy []))) ∧
    (s.com.phase = 0 → s.store.saving = none →
      (size ≤ 3 * 2 ^ 20 → Answers (.saveConfig t) s fun u => (∃ x, u.store.saving = some (u.now, target, x)) ∧ bankImage u target = {} ∧
        bankImage u (1 - target) = bankImage s (1 - target) ∧ u.get Ob.Store.SAVE_STATE = 1 ∧ u.get Ob.Store.SAVE_SIZE = size ∧
        ObjectsKept [Ob.Store.SAVE.key, Ob.Store.SAVE_STATE.key, Ob.Store.SAVE_SIZE.key] s u ∧ kept u) ∧
      (3 * 2 ^ 20 < size → Answers (.saveConfig t) s fun u => u.store = s.store ∧ u.get Ob.Store.SAVE_STATE = 3 ∧ u.get Ob.Store.SAVE_REASON = 2 ∧ kept u)) ∧
    (s.store.saving = some (t0, bank, i) → bank < 2 →
      let stored := [Ob.Store.SAVE_STATE.key, Ob.Store.SAVE_TIME.key, Ob.Store.STORED_SEQUENCE.key, Ob.Store.STORED_CRC.key, Ob.Store.STORED_BANK.key]
      (Answers (.saveComplete true t) s fun u => u.store.saving = none ∧ u.get Ob.Store.SAVE_STATE = 2 ∧ bankImage u bank = i ∧
        bankImage u (1 - bank) = bankImage s (1 - bank) ∧ (newestBank u = some bank → u.get Ob.Store.STORED_BANK = bank ∧ u.get Ob.Store.STORED_SEQUENCE = i.sequence) ∧
        ObjectsKept stored s u ∧ kept u) ∧
      (Answers (.saveComplete false t) s fun u => u.store = { s.store with saving := none } ∧ u.get Ob.Store.SAVE_STATE = 3 ∧ u.get Ob.Store.SAVE_REASON = 1 ∧
        ObjectsKept (Ob.Store.SAVE_REASON.key :: stored) s u ∧ kept u)) ∧
    (s.store.saving = none → Answers (.eraseStored t) s fun u => u.store = { s.store with erase := true } ∧ ObjectsKept [Ob.Store.ERASE_STORED.key] s u ∧ kept u))

/-- OPEN (R142): a new OPEN in range takes the lowest free session with the lease asked for, or the default, and answers with its acceptance; with
every session in use it is refused with SESSION_LIMIT. A SUBSCRIBE in range (R140) leaves exactly one subscription of its id, with its objects and
period, beside the others of its session. -/
def Obligations.SessionsOpenAndSubscribe : Prop :=
  (∀ (s : State) (q : Req) (t k : Nat),
    let a := s.at t
    let n := leAt q.body 6 1
    let lease := leAt q.body 4 2
    listens a q.toPath = true → s.flag Ob.PairC.PAIR_ENABLE = false → s.get Ob.Pair.ROLE = 0 → q.via < 2 → n ≤ 32 → 8 + n ≤ q.body.length → openRepeat a q = none →
      (((List.range 16).find? fun k => !sessOpen a k) = some k → utf8Ok n (slice q.body 8 n) = true → lease = 0 ∨ (100 ≤ lease ∧ lease ≤ 10000) →
        Answers (.hostOpen q t) s fun u =>
          u.get Ob.Sess.STATE k = 1 ∧ u.get Ob.Sess.LEASE k = (if lease = 0 then s.nat Ob.Poss.LEASE_DEFAULT else lease) ∧ u.get Ob.Sess.TRANSPORT k = q.via ∧
          u.get Ob.Sess.PEER k = q.peer ∧ u.bytes Ob.Sess.NAME k = slice q.body 8 n ∧ u.get Ob.Sess.LAST_RENEWED k = a.now ∧ u.get Ob.Sess.CLAIM_PRIORITY k = 0 ∧
          u.get Ob.Poss.SESSION_COUNT = s.get Ob.Poss.SESSION_COUNT + 1 ∧ (∀ j, j < 16 → j ≠ k → sessOpen u j = sessOpen s j ∧ u.sess j = s.sess j) ∧
          Replied u 1 q stOk (u.sess k).opened ∧ OnlySessions s u) ∧
      ((∀ j, j < 16 → sessOpen s j = true) → exec (.hostOpen q t) s = .next (a.emit (.linli q.toPath (linliBytes 1 q.sess q.seqNo stSessionLimit q.token []))))) ∧
  (∀ (s : State) (q : Req) (t : Nat) (l : List ReadName), NewRequest (s.at t) q →
    let id := leAt q.body 0 1
    let c := leAt q.body 1 1
    let period := leAt q.body 2 2
    4 ≤ q.body.length → id ≤ 3 → 1 ≤ c → c ≤ 64 → readNames c (q.body.drop 4) = some l →
    (∀ e ∈ l, e.kind = 0 ∧ ∀ o, lookup e.idx e.sub = .inl o → o.ty ≠ .domain) →
    (if s.nat Ob.Sess.TRANSPORT q.sess < 2 then 1000000 else 125000) ≤ period * s.tcyc s.localRing → 24 + (l.map notifySize).sum ≤ 1472 →
    Answers (.hostSubscribe q t) s fun u =>
      (u.sess q.sess).subs.filter (fun x => decide (x.id = id)) = [{ id := id, period := period, names := l.map fun e => (e.idx, e.sub) }] ∧
      (∀ x, x.id ≠ id → (x ∈ (u.sess q.sess).subs ↔ x ∈ (s.sess q.sess).subs)) ∧
      u.get Ob.Sess.SUBSCRIPTIONS q.sess = (u.sess q.sess).subs.length ∧ Replied u 0x30 q stOk [] ∧ OnlySessions s u)

/-- CLAIM, PASS, RELEASE and CLOSE (R144, R146, R148): a claim is set with its time of receipt; PASS and RELEASE by the captain move possession or
make the ball loose, counted, and are refused with NOT_CAPTAIN otherwise; CLOSE ends the session and, of the captain, its possession. -/
def Obligations.SessionsClaimPassReleaseAndClose : Prop :=
  ∀ (s : State) (q : Req) (t : Nat), NewRequest (s.at t) q →
    let n := leAt q.body 0 1
    let moved (u : State) (c : Int) : Prop := u.get Ob.Poss.CAPTAIN = c ∧ u.get Ob.Poss.POSSESSION_CHANGES = satInc 32 (s.get Ob.Poss.POSSESSION_CHANGES) ∧ BytesKept s u
    (4 ≤ q.body.length → n ≤ 15 → isCaptain s q.sess = false → Answers (.hostClaim q t) s fun u =>
      u.get Ob.Sess.CLAIM_PRIORITY q.sess = n ∧ u.get Ob.Sess.CLAIM_TIME q.sess = (if n = 0 then 0 else u.now) ∧ u.get Ob.Poss.CAPTAIN = s.get Ob.Poss.CAPTAIN ∧
      Replied u 0x20 q stOk (leBytes 1 (s.nat Ob.Poss.CAPTAIN) ++ leBytes 3 0) ∧ OnlySessions s u) ∧
    (4 ≤ q.body.length → isCaptain s q.sess = true → sessOpen s n = true → n ≠ q.sess → Answers (.hostPass q t) s fun u =>
      moved u n ∧ u.get Ob.Sess.CLAIM_PRIORITY n = 0 ∧ Replied u 0x21 q stOk []) ∧
    (4 ≤ q.body.length → isCaptain s q.sess = false → Answers (.hostPass q t) s fun u =>
      u.get Ob.Poss.CAPTAIN = s.get Ob.Poss.CAPTAIN ∧ Replied u 0x21 q stNotCaptain [] ∧ OnlySessions s u) ∧
    (isCaptain s q.sess = true → Answers (.hostRelease q t) s fun u => moved u 0xFF ∧ Replied u 0x22 q stOk []) ∧
    (isCaptain s q.sess = false → Answers (.hostRelease q t) s fun u =>
      u.get Ob.Poss.CAPTAIN = s.get Ob.Poss.CAPTAIN ∧ Replied u 0x22 q stNotCaptain [] ∧ OnlySessions s u) ∧
    Answers (.hostClose q t) s fun u =>
      sessOpen u q.sess = false ∧ u.get Ob.Sess.SUBSCRIPTIONS q.sess = 0 ∧ u.get Ob.Poss.SESSION_COUNT = s.get Ob.Poss.SESSION_COUNT - 1 ∧ Replied u 0x02 q stOk [] ∧
      u.get Ob.Poss.CAPTAIN = (if isCaptain s q.sess then 0xFF else s.get Ob.Poss.CAPTAIN) ∧ (∀ j, j < 16 → j ≠ q.sess → sessOpen u j = sessOpen s j)

/-- READ, WRITE, SUBSCRIBE, COMMIT and unknown requests (R106, R112, R120, R121, R134 to R136, R140): a READ of named objects in range answers OK with
each object's value in the retained snapshot it names, and changes no object; a staged write by the captain puts the value into the staged copy in its
object's place, by another session it is refused; SUBSCRIBE with COUNT 0 ends one subscription; COMMIT of a staged copy that passes Table 05-4 starts
the commit, whose reply follows at its outcome, and is answered with the failing step otherwise; an unknown opcode answers RANGE. -/
def Obligations.SessionsReadWriteSubscribeAndCommit : Prop :=
  ∀ (s : State) (q : Req) (t op : Nat) (e : WriteEntry) (o : Obj) (v : Val), NewRequest (s.at t) q →
    let key := e.idx * 256 + e.sub
    let id := leAt q.body 0 1
    let c := leAt q.body 4 2
    let a := (s.at t).set Ob.Sess.LAST_RENEWED (s.at t).now q.sess
    let b := a.modSess q.sess fun x => begin_ x q.seqNo 0x12 (windowOf (a.sess q.sess) q.seqNo).2.2
    let verdict := (commitVerdict (validating b { sess := q.sess, token := q.token, seqNo := q.seqNo, path := q.toPath }) (withEntries b b.staged)).2
    (∀ (l : List ReadName) (n : Snapshot), 8 ≤ q.body.length → 1 ≤ c → c ≤ 256 → readNames c (q.body.drop 8) = some l → snapOf s (leAt q.body 0 4) = some n →
      8 + (readEntries s n l).length ≤ 1456 → Answers (.hostRead q t) s fun u =>
        Replied u 0x10 q stOk (leBytes 4 n.id ++ leBytes 2 c ++ leBytes 2 0 ++ readEntries s n l) ∧ OnlySessions s u) ∧
    (∀ (n : Snapshot) (x : ReadName) (w : Val), 8 ≤ q.body.length → c = 1 → readNames 1 (q.body.drop 8) = some [x] → snapOf s (leAt q.body 0 4) = some n → x.kind = 0 →
      lookup x.idx x.sub = .inl o → o.ty.isBytes = false → snapValue s n o (x.idx * 256 + x.sub) = some w → (valBytes o.ty w).length ≤ 8 → Answers (.hostRead q t) s fun u =>
        Replied u 0x10 q stOk (leBytes 4 n.id ++ leBytes 2 1 ++ leBytes 2 0 ++ (leBytes 1 o.ty.code ++ leBytes 1 0 ++ valBytes o.ty w)) ∧ OnlySessions s u) ∧
    (leAt q.body 0 2 = 1 → writeEntries 1 (q.body.drop 4) = some [e] → 4 ≤ q.body.length → lookup e.idx e.sub = .inl o → o.acc = .rwc →
      (isCaptain s q.sess = true → e.ty = o.ty.code → e.seg = none → valOf o.ty e.val = some v → rangeStatus o v = stOk → s.com.phase = 0 →
        stagedBeyond (withStaged s { key := key, val := v }) = false → Answers (.hostWrite q t) s fun u =>
          stagedAt u key = some { key := key, val := v } ∧ (∀ k, k ≠ key → stagedAt u k = stagedAt s k) ∧ SMap.get? u.od key = SMap.get? s.od key ∧
          Replied u 0x11 q stOk (leBytes 2 1 ++ leBytes 2 0 ++ leBytes 2 stOk) ∧ (∀ x, u.axis x = s.axis x) ∧ BytesKept s u) ∧
      (isCaptain s q.sess = false → Answers (.hostWrite q t) s fun u =>
        Replied u 0x11 q stNotCaptain (leBytes 2 1 ++ leBytes 2 0 ++ leBytes 2 stNotCaptain) ∧ OnlySessions s u)) ∧
    (4 ≤ q.body.length → id ≤ 3 → leAt q.body 1 1 = 0 → Answers (.hostSubscribe q t) s fun u =>
      (u.sess q.sess).subs = (s.sess q.sess).subs.filter (fun x => decide (x.id ≠ id)) ∧ u.get Ob.Sess.SUBSCRIPTIONS q.sess = (u.sess q.sess).subs.length ∧
      Replied u 0x30 q stOk [] ∧ OnlySessions s u) ∧
    (isCaptain s q.sess = false → Answers (.commitMsg q t) s fun u =>
      u.get Ob.Com.LAST_RESULT = stNotCaptain ∧ u.com = s.com ∧ u.staged = s.staged ∧ Replied u 0x12 q stNotCaptain (commitBody u (u.nat Ob.Com.LAST_TAG))) ∧
    (isCaptain s q.sess = true → s.com.phase = 0 → s.hud.active = false → (∀ r, r < 4 → s.get Ob.Ring.REJOIN_STATE r = 0) →
      (s.staged = [] → Answers (.commitMsg q t) s fun u =>
        u.get Ob.Com.LAST_RESULT = stOk ∧ u.com = s.com ∧ u.staged = s.staged ∧ Replied u 0x12 q stOk (commitBody u 0)) ∧
      (s.staged ≠ [] → verdict = none → Answers (.commitMsg q t) s fun u =>
        u.com.phase = 1 ∧ u.com.entries = s.staged ∧ u.com.viaObject = false ∧ u.com.sess = q.sess ∧ u.com.seqNo = q.seqNo ∧ u.com.path = q.toPath ∧
        u.get Ob.Com.COMMIT_STATE = 1 ∧ u.com.tQ ≤ u.now + 50000 + 250 * s.staged.length ∧ u.staged = s.staged ∧ u.out = s.out ∧
        (∀ x, u.axis x = s.axis x) ∧ BytesKept s u) ∧
      (∀ (status reason obj : Nat), s.staged ≠ [] → verdict = some (status, reason, obj) → Answers (.commitMsg q t) s fun u =>
        u.com.phase = 0 ∧ u.get Ob.Com.LAST_RESULT = status ∧ u.get Ob.Com.LAST_REASON = reason ∧ u.get Ob.Com.LAST_OBJECT = obj ∧ u.staged = s.staged ∧
        u.get Ob.Com.REJECT_COUNT = satInc 32 (s.get Ob.Com.REJECT_COUNT) ∧ Replied u 0x12 q status (commitBody u (u.nat Ob.Com.LAST_TAG)))) ∧
    (op ∉ [0x01, 0x02, 0x10, 0x11, 0x12, 0x20, 0x21, 0x22, 0x30] → Answers (.unknownOpcode op q t) s fun u => Replied u op q stRange [] ∧ OnlySessions s u)

/-- Messages that are no new request (R132, R133, R138, R139): one that does not parse is counted in BAD_MSG and discarded, one with a wrong checksum
or for another UDP port does nothing; a request of no open session answers LEASE_EXPIRED and does nothing; a repetition of an executed request, by its
number alone, gets the kept reply again; one outside the window counts in SEQ_ERR and answers STATE; ARP and ICMP requests for one of the unit's
addresses are answered to their sender. Leases, elections, and CLAIM and LEASE_RENEW as objects (R139, R143, R144, R146, R147): at a t_D of LOCAL_RING
the sessions whose last renewal lies more than their lease back close, and no other; with the ball loose for its hold a claim of greatest priority,
earliest time and lowest number takes it; an open session's own write sets its claim or renews its lease, and that of a closed session answers
LEASE_EXPIRED. -/
def Obligations.RepeatsLeasesAndElections : Prop :=
  (∀ (s : State) (q : Req) (p : Path) (r : ReqRt) (t port ip mac src st : Nat) (b body : List Byte) (data : List Int),
    let a := s.at t
    unitRuns s = true → s.get Ob.Pair.ROLE = 0 → s.flag Ob.PairC.PAIR_ENABLE = false →
    (p.via < 2 → listens a p = true → parseLinli p b = none → Answers (.badMsg p true b t) s fun u =>
      u.get Ob.Poss.BAD_MSG = satInc 32 (s.get Ob.Poss.BAD_MSG) ∧ ObjectsKept [Ob.Poss.BAD_MSG.key] s u ∧ u.out = s.out ∧ u.host = s.host ∧ BytesKept s u) ∧
    (exec (.badMsg p false b t) s = .next a) ∧
    (p.via < 2 → p.port ≠ s.nat Ob.Poss.UDP_PORT → exec (.badMsg p true b t) s = .next a) ∧
    (listens a q.toPath = true → q.via < 2 →
      (admitted a q = false → exec (.hostWrite q t) s = .next (a.emit (.linli q.toPath (linliBytes 0x11 q.sess q.seqNo stLeaseExpired q.token [])))) ∧
      (admitted a q = true → (windowOf (s.sess q.sess) q.seqNo).1 = some r → r.reply = some (st, body) → Answers (.hostWrite q t) s fun u =>
        Replied u r.op q st body ∧ u.get Ob.Sess.LAST_RENEWED q.sess = u.now ∧ ObjectsKept [Ob.Sess.LAST_RENEWED.key q.sess] s u ∧ OnlySessions s u) ∧
      (admitted a q = true → (windowOf (s.sess q.sess) q.seqNo).1 = none → (windowOf (s.sess q.sess) q.seqNo).2.1 = false → Answers (.hostClaim q t) s fun u =>
        Replied u 0x20 q stState [] ∧ u.get Ob.Poss.SEQ_ERR = satInc 32 (s.get Ob.Poss.SEQ_ERR) ∧
        ObjectsKept [Ob.Sess.LAST_RENEWED.key q.sess, Ob.Poss.SEQ_ERR.key] s u ∧ OnlySessions s u)) ∧
    (ip ≠ 0 → ip = s.nat Ob.Poss.UNIT_IP ∨ ip = s.nat Ob.Poss.SERVICE_IP →
      exec (.arpRequest port ip mac src t) s = .next (a.emit (.packet 0 10 [(port : Int), (ip : Int), (mac : Int), (src : Int)])) ∧
      exec (.icmpEcho port ip src data t) s = .next (a.emit (.packet 0 12 ([(port : Int), (ip : Int), (src : Int)] ++ data))))) ∧
  (∀ (s : State) (t c k v : Nat), unitRuns s = true → s.get Ob.Pair.ROLE = 0 →
    let a := s.at t
    let expired (j : Nat) : Prop := s.nat Ob.Sess.LAST_RENEWED j + s.nat Ob.Sess.LEASE j * 1000000 < a.now
    (cycleOfDeadline (s.tcyc s.localRing) (s.woff s.localRing) t = some c →
      (Answers (.leaseExpiry t) s fun u =>
        (∀ j, j < 16 → (sessOpen u j = true ↔ sessOpen s j = true ∧ ¬ expired j)) ∧
        ((∃ j, isCaptain s j = true ∧ sessOpen s j = true ∧ expired j) → u.get Ob.Poss.CAPTAIN = 0xFF) ∧ BytesKept s u) ∧
      (s.get Ob.Poss.CAPTAIN = 0xFF → claims s ≠ [] →
        max s.host.looseAt (s.host.firstClaim.getD s.host.looseAt) + s.nat Ob.Poss.ELECTION_HOLD * 1000000 ≤ a.now → Answers (.election t) s fun u =>
          ∃ w ∈ claims s, u.get Ob.Poss.CAPTAIN = w ∧ (∀ x ∈ claims s, claimBefore s x w = false) ∧ u.get Ob.Sess.CLAIM_PRIORITY w = 0)) ∧
    (SessionWrites s k →
      (isCaptain s k = false → v ≤ 15 → Answers (.claimObject k v t) s fun u =>
        u.get Ob.Sess.CLAIM_PRIORITY k = v ∧ u.get Ob.Sess.LAST_RENEWED k = u.now ∧ u.out = .reply 0xFF 0 stOk [] :: s.out ∧ OnlySessions s u) ∧
      (Answers (.leaseRenew k 1 t) s fun u => u.get Ob.Sess.LAST_RENEWED k = u.now ∧ u.out = .reply 0xFF 0 stOk [] :: s.out ∧ OnlySessions s u)) ∧
    (sessOpen s k = false → exec (.claimObject k v t) s = .next (a.emit (.reply 0xFF 0 stLeaseExpired []))))

/-- The PCIe window (R153, R154, Tables 06-7 and 06-8): a GO with a length out of range sets LEN_ERR, with a request that does not parse counts
BAD_MSG, and one with a request has it carried out, the refusal of a request of no open session standing in the reply buffer; clearing REPLY_READY or
NOTIFY_READY lets the next waiting one follow; a word written to a request buffer is what its bytes then hold, every other byte of the buffer as
before; reserved space ignores writes; a word written to the outbox of an endpoint's own block is that word of the outbox (R388), and the block of
endpoint 14 takes no writes. -/
def Obligations.PcieChannelsTakeRequestsAndHandOutReplies : Prop :=
  ∀ (s : State) (c len t off y k : Nat) (w : Word) (b : List Byte) (l : List (List Byte)), unitRuns s = true → c < 4 →
    let x := s.chan c
    let message := parseLinli { via := 2 + c, own := true } ((List.range len).map fun i => Mem.get x.req i)
    let others (u : State) : Prop := (∀ d, d ≠ c → u.chan d = s.chan d) ∧ BytesKept s u ∧ ∀ a, u.axis a = s.axis a
    (len < 16 ∨ 1472 < len → Answers (.chCtrlGo c len t) s fun u =>
      u.chan c = { x with ctrl := len % 65536, status := setBit x.status 30 true } ∧ u.od = s.od ∧ others u) ∧
    (16 ≤ len → len ≤ 1472 → message = none → Answers (.chCtrlGo c len t) s fun u =>
      u.chan c = { x with ctrl := len } ∧ u.get Ob.Poss.BAD_MSG = satInc 32 (s.get Ob.Poss.BAD_MSG) ∧ ObjectsKept [Ob.Poss.BAD_MSG.key] s u ∧ others u) ∧
    (∀ (op : Nat) (q : Req), 16 ≤ len → len ≤ 1472 → message = some (op, q) →
      exec (.chCtrlGo c len t) s = .next (linliRun ((s.at t).setChan c { x with ctrl := len }) op q) ∧
      (op ≠ 1 → admitted s q = false → x.queue = [] → bit x.status 31 = false → Answers (.chCtrlGo c len t) s fun u =>
        (u.chan c).reply = linliBytes op q.sess q.seqNo stLeaseExpired q.token [] ∧ bit (u.chan c).status 31 = true ∧ u.od = s.od ∧ others u)) ∧
    (x.queue = b :: l → b.length ≤ 1472 → Answers (.replyReadyClear c t) s fun u =>
      (u.chan c).reply = b ∧ (u.chan c).queue = l ∧ bit (u.chan c).status 31 = true ∧ bits (u.chan c).status 0 16 = b.length ∧ u.od = s.od ∧ others u) ∧
    (x.queue = [] → Answers (.replyReadyClear c t) s fun u => bit (u.chan c).status 31 = false ∧ (u.chan c).reply = x.reply ∧ u.od = s.od ∧ others u) ∧
    (x.held = some b → b.length ≤ 1472 → Answers (.notifyReadyClear c t) s fun u =>
      (u.chan c).note = b ∧ (u.chan c).held = none ∧ bit (u.chan c).notify 31 = true ∧ u.od = s.od ∧ others u) ∧
    (x.held = none → Answers (.notifyReadyClear c t) s fun u => bit (u.chan c).notify 31 = false ∧ (u.chan c).note = x.note ∧ u.od = s.od ∧ others u) ∧
    (off % 4 = 0 → off < 1536 → Answers (.registerWrite 0 (0x2000 + 0x2000 * c + off) w t) s fun u =>
      Mem.read (u.chan c).req off 4 = w.toNat ∧ (∀ i, i < off ∨ off + 4 ≤ i → Mem.get (u.chan c).req i = Mem.get x.req i) ∧ u.od = s.od ∧ others u) ∧
    (off % 4 = 0 → off < 0x2000 → exec (.registerWrite 0 off w t) s = .next (s.at t)) ∧
    (1 ≤ y → y < 14 → k < 16 → Answers (.registerWrite y (4 * k) w t) s fun u =>
      (u.ep y).word k = w ∧ (∀ j, j ≠ k → (u.ep y).word j = (s.ep y).word j) ∧ (u.ep y).slots = (s.ep y).slots ∧ (u.ep y).pending = (s.ep y).pending ∧
      (∀ z, z ≠ y → u.ep z = s.ep z) ∧ u.od = s.od ∧ BytesKept s u) ∧
    exec (.registerWrite 14 off w t) s = .next (s.at t)

/-! ### Start-up, power and mailboxes -/

/-- The resets of Table 18-1 (R422, R423, R424, R449, R450): each leaves RESET_CAUSE naming its kind and the unit at its start; a power-on or rail
fault is held by the supervisor, a watchdog is counted and recorded, the loss of VAON leaves the unit OFF with no wake set, RESET_N and RESET_UNIT
release at once. The ends of a held reset and of STANDBY (R401, R423, R449): the supervisor's release and the wakes start machine time at 0 with
RESET_CAUSE and WAKE_SOURCE naming a wake; a wake pin low for less than 100 µs, or a wake of a unit that is not in STANDBY, does nothing. -/
def Obligations.ResetsReleasesAndWakes : Prop :=
  (∀ (s : State) (t low rail ns p : Nat) (vaonFell core : Bool),
    (Answers (.powerOn vaonFell core t) s fun u => ResetLeaves s u 0 ∧ u.boot.held = 1 ∧ u.boot.standby = !core ∧ (core = false → u.get Ob.Pow.POWER_STATE = 1)) ∧
    (1000 ≤ low → s.boot.off = false → s.boot.standby = false → s.boot.held = 0 → Answers (.resetN low t) s fun u => ResetLeaves s u 1 ∧ u.boot.held = 0) ∧
    (2000 < ns → rail ≤ 8 → rail ≠ 5 → Answers (.railFault rail ns vaonFell t) s fun u =>
      ResetLeaves s u 0 ∧ u.boot.held = 1 ∧ bit (u.nat Ob.Therm.RAIL_STATUS) rail = false) ∧
    (Answers (.vaonLoss t) s fun u => ResetLeaves s u 0 ∧ u.boot.off = true ∧ u.get Ob.Pow.WAKE_AT = 0) ∧
    (p < 2 → s.boot.held = 0 → s.boot.standby = false → s.boot.off = false → s.boot.fed.getD p 0 + 100000000 < t → Answers (.watchdog p false t) s fun u =>
      ResetLeaves s u 3 ∧ u.get Ob.Rst.WATCHDOG_COUNT = satInc 32 (s.get Ob.Rst.WATCHDOG_COUNT) ∧
      u.store.faultHistory = ((p, s.nat Ob.Cyc.CYCLE_NUMBER 0 0 s.localRing) :: s.store.faultHistory).take 65536) ∧
    (unitRuns s = true → (∀ a, a < 256 → (s.axis a).mot.state.powered = false) → s.store.saving = none → s.boot.upload = none →
      Answers (.resetUnit t) s fun u => ResetLeaves s u 4) ∧
    (Answers (.extest t) s fun u => u.boot.held = 3 ∧ ∃ c, ResetLeaves s u c)) ∧
  (∀ (s : State) (t low : Nat),
    (s.boot.held = 1 → Answers (.supervisorRelease t) s fun u =>
      u.now = 0 ∧ u.boot.held = 0 ∧ u.get Ob.Therm.RAIL_STATUS = 0x1FF ∧ ObjectsKept [Ob.Therm.RAIL_STATUS.key] s u ∧ BytesKept s u) ∧
    (100000 ≤ low → s.boot.standby = true → s.boot.off = false → s.boot.held = 0 → Answers (.wakeN low t) s fun u =>
      u.now = 0 ∧ ResetLeaves s u 2 ∧ u.get Ob.Pow.WAKE_SOURCE = 1 ∧ u.boot.standby = false) ∧
    (low < 100000 → exec (.wakeN low t) s = .next (s.at t)) ∧
    (s.get Ob.Pow.WAKE_AT ≠ 0 → s.get Ob.Pow.WAKE_AT ≤ todAt (s.at t) (s.at t).now → s.boot.standby = true → s.boot.off = false → s.boot.held = 0 →
      Answers (.wakeAt t) s fun u => u.now = 0 ∧ ResetLeaves s u 2 ∧ u.get Ob.Pow.WAKE_SOURCE = 2 ∧ u.boot.standby = false) ∧
    (s.boot.standby = false → exec (.wakeAt t) s = .next (s.at t)))

/-- Boot (R426 to R431): with no region that may be taken the unit stays in the boot ROM; otherwise the selected region, or the other where that one
may not be taken, runs, shown in FW_IMAGE, and START_STATE leaves BOOT; the configuration step then runs once and moves START_STATE on. Firmware
upload (R428): the captain's first segment of an upload, shorter than the image, replaces the bytes of the region that does not run, makes its image
INVALID and records the upload; one that is the whole image is judged at once; a segment beyond the image's length is refused with LENGTH and changes
no region. -/
def Obligations.BootConfigurationAndUpload : Prop :=
  (∀ (s : State) (t : Nat) (ids : List (List Byte)),
    let a := checkRegion s.boot s.boot.imgA
    let b := { s.boot with imgA := a, imgB := checkRegion s.boot s.boot.imgB }
    let n := selectedImage b
    (s.get Ob.Rst.START_STATE = 0 → s.boot.held = 0 → s.boot.standby = false → s.boot.off = false →
      (takable b 0 = false → takable b 1 = false → Answers (.bootImageLoaded [] [] t) s fun u =>
        u.boot.noImage = true ∧ u.boot.running = none ∧ u.get Ob.Rst.START_STATE = 0 ∧ (∀ q, u.axis q = s.axis q) ∧ BytesKept s u) ∧
      (takable b n = true → Answers (.bootImageLoaded [] [] t) s fun u =>
        u.boot.noImage = false ∧ u.boot.running = some n ∧ u.get Ob.Ident.FW_IMAGE = n ∧ u.get Ob.Rst.START_STATE = 1 ∧ u.get Ob.Pow.POWER_STATE = 2 ∧
        (∀ q, u.axis q = s.axis q) ∧ BytesKept s u)) ∧
    (s.boot.configured = false → unitRuns s = true → Answers (.configurationStep ids t) s fun u => u.boot.configured = true ∧ 2 ≤ u.get Ob.Rst.START_STATE) ∧
    (s.boot.configured = true → exec (.configurationStep ids t) s = .next (s.at t))) ∧
  (∀ (s : State) (sess total t : Nat) (v : List Byte), SessionWrites s sess → isCaptain s sess = true → 256 ≤ total → total ≤ 12583168 →
    s.store.saving = none → s.boot.upload = none → (∀ k, s.boot.running = some k → (s.boot.region k).status ≠ 3) →
    let r := if s.boot.running = some 1 then 0 else 1
    let replied (u : State) (x : Nat) : Prop := u.out = .reply 0xFF 0 x [] :: s.out ∧ u.get Ob.Sess.LAST_RENEWED sess = u.now ∧ BytesKept s u
    (v.length < total → Answers (.fwUpload sess 0 total v t) s fun u =>
      u.boot.region r = { bytes := v, status := 1 } ∧ u.boot.upload = some (r, total, sess) ∧ u.boot.region (1 - r) = s.boot.region (1 - r) ∧ replied u stOk) ∧
    (v.length = total → Answers (.fwUpload sess 0 total v t) s fun u =>
      u.boot.region r = checkRegion s.boot { bytes := v } ∧ u.boot.upload = none ∧ u.boot.region (1 - r) = s.boot.region (1 - r) ∧ replied u stOk) ∧
    (total < v.length → Answers (.fwUpload sess 0 total v t) s fun u => u.boot = s.boot ∧ replied u stLength))

/-- Power (R399, R400, R402): the power state follows the conditions for PLAY; an accepted POWER_REQUEST puts the unit in STANDBY with every engine's
power off; an idle engine without axis, message or load is power-gated GATE_IDLE after its work, and a post's wake event powers it again. Temperature
(R452, R457): a sample below the shutdown temperature updates TJ and TJ_PEAK to the hottest sensor; at 145 °C the unit is reset and held with a fault
record, below 115 °C released; 10 ms at the limit set THERMAL_STATE to LIMIT and stop every enabled axis of a unit without an eligible standby;
CLEAR_TJ_PEAK makes TJ_PEAK the present TJ. -/
def Obligations.PowerStatesAndTemperature : Prop :=
  (∀ (s : State) (t e : Nat), unitRuns s = true →
    (s.get Ob.Pow.POWER_STATE = 2 ∨ s.get Ob.Pow.POWER_STATE = 3 → Answers (.powerStateChange t) s fun u =>
      u.get Ob.Pow.POWER_STATE = (if playCondition s then 3 else 2) ∧ ObjectsKept [Ob.Pow.POWER_STATE.key] s u ∧ (∀ q, u.axis q = s.axis q) ∧ BytesKept s u) ∧
    ((∀ r, r < 4 → s.get Ob.Ring.STATE r = 0 ∨ s.get Ob.Ring.STATE r = 6) → (∀ a, a < 256 → (s.axis a).mot.state.powered = false) →
      s.flag Ob.PairC.PAIR_ENABLE = false → s.boot.resetDue = false → Answers (.powerRequest t) s fun u =>
        u.boot.standby = true ∧ u.get Ob.Pow.POWER_STATE = 1 ∧ ∀ q, q < 8 → (u.ace q).powered = false) ∧
    (e < 8 → (s.ace e).powered = true → s.get Ob.Pow.POWER_STATE ≠ 3 → (s.eng e).run = none → (∀ i ∈ s.disp.ready, bit i.mask e = false) →
      (s.ep (5 + e)).pending = 0 → (s.ace e).xld = [] → (s.ace e).idleFrom + s.nat Ob.Pow.GATE_IDLE * 1000 ≤ t →
      Answers (.acePowerGate e t) s fun u =>
        u.ace e = { s.ace e with powered := false, waking := false } ∧ (∀ q, q ≠ e → u.ace q = s.ace q) ∧ ObjectsKept [Ob.Pow.ACE_POWER.key] s u) ∧
    (e < 8 → (s.ace e).powered = false → (s.ace e).waking = true → Answers (.aceWake e t) s fun u =>
      (u.ace e).powered = true ∧ (u.ace e).waking = false ∧ u.get Ob.Pow.WAKE_COUNT = satInc 32 (s.get Ob.Pow.WAKE_COUNT) ∧
      (u.ace e).mem = (s.ace e).mem ∧ ∀ q, q ≠ e → u.ace q = s.ace q)) ∧
  (∀ (s : State) (x : Int) (l : List Int) (t t0 : Nat),
    let tj := l.foldl max x
    let on := s.boot.standby = false ∧ s.boot.off = false
    (on → s.boot.held ≠ 2 → tj < 145 → Answers (.thermalSample (x :: l) t) s fun u =>
      u.get Ob.Therm.TJ = tj ∧ u.get Ob.Therm.TJ_PEAK = (if s.boot.sampled then max tj (s.get Ob.Therm.TJ_PEAK) else tj) ∧ (tj < 130 → u.boot.hot = none) ∧ BytesKept s u) ∧
    (on → s.boot.held = 2 → tj < 115 → Answers (.thermalSample (x :: l) t) s fun u => u.boot.held = 0 ∧ u.now = 0 ∧ u.get Ob.Therm.TJ = tj ∧ BytesKept s u) ∧
    (on → s.boot.held ≠ 2 → 145 ≤ tj → Answers (.thermalSample (x :: l) t) s fun u =>
      ResetLeaves s u 1 ∧ u.boot.held = 2 ∧ u.get Ob.Therm.TJ = tj ∧ u.store.faultHistory = ((2, tj.toNat) :: s.store.faultHistory).take 65536) ∧
    (unitRuns s = true → s.boot.hot = some t0 → t0 + 10000000 ≤ t → s.get Ob.Therm.THERMAL_STATE ≠ 2 → standbyEligible s = false → isStandby s = false → Answers (.thermalLimit t) s fun u =>
      u.get Ob.Therm.THERMAL_STATE = 2 ∧ BytesKept s u ∧
      ∀ a, a < 256 → (s.axis a).mot.state = .enabled → (u.axis a).mot.state = .stopping ∧ (u.axis a).mot.stopKind = some .quick) ∧
    (unitRuns s = true → Answers (.clearTjPeak t) s fun u =>
      u.get Ob.Therm.TJ_PEAK = s.get Ob.Therm.TJ ∧ ObjectsKept [Ob.Therm.TJ_PEAK.key, Ob.Therm.CLEAR_TJ_PEAK.key] s u ∧ (∀ q, u.axis q = s.axis q) ∧ BytesKept s u))

/-- Mailbox posts (R389, R391 to R393): an accepted GO puts the message's words into the sender's slot at the receiver, sets its IN_PENDING bit,
starts the sender's wait and counts a post; a refused one leaves every slot as it was, counts REFUSED and shows the reason; an acknowledgement or the
timeout ends the wait with its bit. -/
def Obligations.MailboxPostsAcknowledgementsAndTimeouts : Prop :=
  ∀ (s : State) (x t k : Nat) (ctrl : Word) (p : PostSt), unitRuns s = true →
    let c := ctrl ||| 0x80000000
    let d := ctrlDest c
    ((s.ep x).post = none → goRefusal s x c = 0 → d < 14 → x ≠ d → hasPost s d x = false → Answers (.outCtrlGo x ctrl t) s fun u =>
      (∃ q, (u.ep x).post = some q ∧ q.dest = d ∧ q.deadline = max s.now t + ctrlTimeout c * 1000) ∧ bit (u.ep d).pending x = true ∧
      (∀ i, i < bits ((s.ep x).word 0).toNat 0 5 → SMap.getD (u.ep d).slots (x * 16 + i) 0 = (s.ep x).word i) ∧
      (u.ep x).status.getLsbD 27 = true ∧ u.get Ob.Mbx.POSTS x = satInc 32 (s.get Ob.Mbx.POSTS x) ∧ (∀ y, y ≠ x → y ≠ d → u.ep y = s.ep y)) ∧
    ((s.ep x).post = none → goRefusal s x c ≠ 0 → Answers (.outCtrlGo x ctrl t) s fun u =>
      (u.ep x).post = none ∧ u.get Ob.Mbx.REFUSED x = satInc 32 (s.get Ob.Mbx.REFUSED x) ∧ (u.ep x).slots = (s.ep x).slots ∧ (u.ep x).pending = (s.ep x).pending ∧
      (∀ y, y ≠ x → u.ep y = s.ep y) ∧ ObjectsKept [Ob.Mbx.REFUSED.key x] s u) ∧
    (k < 14 → k ≠ x → bit (s.ep x).pending k = true → bit (s.ep x).orphan k = false → (s.ep k).post = some p → p.dest = x →
      Answers (.inAck x (BitVec.ofNat 32 (2 ^ k)) t) s fun u =>
        bit (u.ep x).pending k = false ∧ (u.ep k).post = none ∧ (u.ep k).status.getLsbD 31 = true ∧ u.get Ob.Mbx.ACKED k = satInc 32 (s.get Ob.Mbx.ACKED k)) ∧
    ((s.ep x).post = some p → p.deadline ≤ t → p.dest < 14 → p.dest ≠ x → Answers (.mailboxTimeout x t) s fun u =>
      (u.ep x).post = none ∧ (u.ep x).status.getLsbD 30 = true ∧ bit (u.ep p.dest).pending x = false ∧ u.get Ob.Mbx.TIMEOUTS x = satInc 32 (s.get Ob.Mbx.TIMEOUTS x))

/-- ECHO, the partner's records and the reset of the host's endpoint (R394, R395, R397, R398): MC0 takes the host's ECHO and leaves the same words,
typed as an answer, in its outbox; a MAILBOX post stands in slot 14, an acknowledgement ends the wait; a hot reset empties endpoint 0. -/
def Obligations.EchoPartnerMailAndEndpointReset : Prop :=
  ∀ (s : State) (x t : Nat) (words : List Word) (p : PostSt), unitRuns s = true →
    let w0 := (SMap.getD (s.ep 1).slots 0 0).toNat
    (bit (s.ep 1).pending 0 = true → bits w0 8 16 = 1 → Answers (.mailEcho t) s fun u =>
      bit (u.ep 1).pending 0 = false ∧ (u.ep 1).word 0 = BitVec.ofNat 32 (0x8001 * 256 + bits w0 0 5) ∧
      ∀ k, 1 ≤ k → k < bits w0 0 5 → (u.ep 1).word k = SMap.getD (s.ep 1).slots k 0) ∧
    ((s.ep x).post = none → Answers (.mailbox false x words t) s fun u =>
      bit (u.ep x).pending 14 = true ∧ (∀ i, i < words.length → SMap.getD (u.ep x).slots (14 * 16 + i) 0 = words.getD i 0) ∧ ∀ y, y ≠ x → u.ep y = s.ep y) ∧
    ((s.ep x).post = some p → p.dest = 14 → Answers (.mailbox true x words t) s fun u =>
      (u.ep x).post = none ∧ (u.ep x).status.getLsbD 31 = true ∧ u.get Ob.Mbx.ACKED x = satInc 32 (s.get Ob.Mbx.ACKED x)) ∧
    Answers (.pcieHotReset t) s fun u =>
      (u.ep 0).pending = 0 ∧ (u.ep 0).orphan = 0 ∧ (u.ep 0).post = none ∧ (u.ep 0).out = [] ∧ (u.ep 0).ctrl = 0 ∧ (u.ep 0).status = 0

/-! ### Field die, ports, feedback and pulses -/

/-- Barrier frames (R319 to R323), which start at whole microseconds: a frame that arrives as sent brings the head's output levels and brake controls
to the die, and the die's input levels to the head; one that arrives bad is counted, the third in a row puts the die in its safe state or the head's
link LOST, with every input invalid and SAFE_REQ set; 1 000 good frames end either. -/
def Obligations.BarrierFramesCarryLevelsAndLossesMakeTheDieSafe : Prop :=
  ∀ (s : State) (t : Nat) (b : List Byte), unitRuns s = true →
    let f := s.field
    let n := (s.at t).now
    let inSlot (last : Option (Nat × Nat)) (seq : Nat) : Prop := ∀ x ∈ last, seq % 16 = (x.1 + (n / 1000 - x.2)) % 16
    let allOff (u : State) : Prop := u.field.safe = true ∧ (f.safe = false → ∀ q, (u.field.outp q).driven = false ∧ (u.field.outp q).edges = [])
    let fiWord := ((List.range 24).map fun i => bitAt (f.inp i).level i).sum
    (n % 1000 = 0 → inSlot f.downLast f.seqDown → Answers (.downstreamFrame t none) s fun u =>
      u.field.downBad = 0 ∧ u.field.fqLevel = fqWord s ∧ u.field.fbHs = hsWord s ∧ u.field.fbLs = lsWord s ∧ u.field.frameAt = n ∧
      u.field.seqDown = (f.seqDown + 1) % 16 ∧ u.field.fqSent = fqWord s ∧ (∀ x, u.axis x = s.axis x) ∧ BytesKept s u) ∧
    (n % 1000 = 0 → linkGood 0x7E f.downLast (n / 1000) b = false → Answers (.downstreamFrame t (some b)) s fun u =>
      u.field.downBad = f.downBad + 1 ∧ u.field.downBadAll = f.downBadAll + 1 ∧ u.field.downGood = 0 ∧ u.field.fqLevel = f.fqLevel ∧ u.od = s.od ∧
      (3 ≤ u.field.downBad → allOff u)) ∧
    (n % 1000 = 0 → inSlot f.upLast f.seqUp → Answers (.upstreamFrame t none) s fun u => u.field.upBad = 0 ∧ u.field.upGood = f.upGood + 1 ∧ u.field.fi = fiWord ∧ u.now = n + 1000) ∧
    (n % 1000 ≠ 0 → exec (.downstreamFrame t (some b)) s = .next (s.at t) ∧ exec (.upstreamFrame t (some b)) s = .next (s.at t)) ∧
    (n % 1000 = 0 → linkGood 0x81 f.upLast (n / 1000) b = false → Answers (.upstreamFrame t (some b)) s fun u =>
      u.field.upBad = f.upBad + 1 ∧ u.field.upGood = 0 ∧ u.field.fi = f.fi ∧ u.get Ob.Die.BAD_UP = satInc 32 (s.get Ob.Die.BAD_UP) ∧
      (3 ≤ u.field.upBad → u.get Ob.Die.LINK_STATE = 2)) ∧
    (3 ≤ f.upBad → s.get Ob.Die.LINK_STATE ≠ 2 → Answers (.linkLost t) s fun u =>
      u.get Ob.Die.LINK_STATE = 2 ∧ u.get Ob.Die.LINK_LOSS_COUNT = satInc 32 (s.get Ob.Die.LINK_LOSS_COUNT) ∧ u.field.safeReq = true ∧ u.get Ob.Die.INPUT_VALID = 0) ∧
    (f.upBad < 3 → exec (.linkLost t) s = .next (s.at t)) ∧
    (f.safeReq = true → 1000 ≤ f.upGood → Answers (.linkRecovery t) s fun u => u.get Ob.Die.LINK_STATE = 1 ∧ u.field.safeReq = false) ∧
    (f.upGood < 1000 → exec (.linkRecovery t) s = .next (s.at t)) ∧
    (3 ≤ f.downBad ∨ f.reqSeen = true → Answers (.dieSafeState t) s fun u => allOff u ∧ u.od = s.od ∧ ∀ x, u.axis x = s.axis x) ∧
    (f.downBad < 3 → f.reqSeen = false → exec (.dieSafeState t) s = .next (s.at t)) ∧
    (f.safe = true → 1000 ≤ f.downGood → Answers (.dieSafeExit t) s fun u =>
      u.field.safe = false ∧ u.field.held = decide (s.get Ob.Die.RESTORE_MODE = 1) ∧ u.od = s.od ∧ ∀ x, u.axis x = s.axis x) ∧
    (f.downGood < 1000 → exec (.dieSafeExit t) s = .next (s.at t))

/-- Field outputs (R325, R327, R332, R333): 1.2 µs after a good frame an untimed output with no latched code is driven to its level and the brake
controls follow; a timed edge switches its output when due; a short latches the output off with its code, an open load is recorded, OUT_ACK and
OUT_VALUE act on one output. -/
def Obligations.FieldOutputsSwitchLatchAndAcknowledge : Prop :=
  ∀ (s : State) (t q r ma e : Nat) (lv : Bool), q < 16 → r < 16 →
    let a := s.at t
    let f := s.field
    let x := f.outp q
    let quiet (u : State) : Prop := u.od = s.od ∧ (∀ y, u.axis y = s.axis y) ∧ BytesKept s u
    let others (u : State) : Prop := ∀ k, k ≠ q → u.field.outp k = f.outp k
    (f.frameAt + 1200 ≤ a.now → f.switched = false → f.off = false → timedOut s q = false → s.flag Ob.Outp.PAIRED q = false → x.latched = 0 →
      Answers (.untimedOutputSwitch t) s fun u =>
        (u.field.outp q).driven = true ∧ (u.field.outp q).level = bit f.fqLevel q ∧ u.field.hs = f.fbHs ∧ u.field.ls = f.fbLs ∧ u.field.switched = true ∧ quiet u) ∧
    (a.now < f.frameAt + 1200 → exec (.untimedOutputSwitch t) s = .next a) ∧
    (x.edges = [(e, lv)] → f.off = false →
      (e ≤ a.now → Answers (.timedEdge q t) s fun u =>
        (u.field.outp q).edges = [] ∧ (u.field.outp q).level = lv ∧ (u.field.outp q).driven = (decide (x.latched = 0) && pairedOk s q) ∧ others u ∧ quiet u) ∧
      (a.now < e → Answers (.timedEdge q t) s fun u => u.field.outp q = x ∧ others u ∧ quiet u)) ∧
    (x.driven = true → shortBlanked a q = false →
      (Answers (.outputShort q none ma t) s fun u =>
        u.field.outp q = { x with driven := false, latched := if x.level then 1 else 2, acked := false, openLoad := false } ∧ others u ∧ quiet u) ∧
      (r ≠ q → (f.outp r).driven = true → (f.outp r).level ≠ x.level → Answers (.outputShort q (some r) ma t) s fun u =>
        (u.field.outp q).driven = false ∧ (u.field.outp q).latched = 4 ∧ (u.field.outp r).driven = false ∧ (u.field.outp r).latched = 4 ∧ quiet u)) ∧
    (s.flag Ob.Outp.OPEN_DETECT q = true → x.driven = true → x.level = true → x.openLoad = false → Answers (.openLoad q ma t) s fun u =>
      u.field.outp q = { x with openLoad := true } ∧ others u ∧ quiet u) ∧
    (x.openLoad = true → Answers (.openLoadCleared q ma t) s fun u => u.field.outp q = { x with openLoad := false } ∧ others u ∧ quiet u) ∧
    (unitRuns s = true → x.latched ≠ 0 → Answers (.outAck q t) s fun u =>
      u.field.outp q = { x with acked := true } ∧ others u ∧ ObjectsKept [Ob.Outp.OUT_ACK.key q] s u ∧ (∀ y, u.axis y = s.axis y) ∧ BytesKept s u) ∧
    (unitRuns s = true → Answers (.outValue q lv t) s fun u =>
      u.get Ob.Outp.OUT_VALUE q = (if lv then 1 else 0) ∧ ObjectsKept [Ob.Outp.OUT_VALUE.key q] s u ∧ u.field = f ∧ (∀ y, u.axis y = s.axis y) ∧ BytesKept s u)

/-- Field inputs, brake readbacks and the field supply (R323, R328, R329, R334 to R336): an accepted edge is the input's level and counted; an open
input is recorded and cleared; a brake channel keeps its readings and, 1.2 ms after its controls changed, judges them; under- and overvoltage turn
every output and brake control off; the supply's return and RESTORE let them follow the frames. -/
def Obligations.FieldInputsBrakesAndSupplyAreFollowed : Prop :=
  ∀ (s : State) (t i bk h l vf cross : Nat) (lv : Bool), i < 24 → bk < 8 →
    let a := s.at t
    let f := s.field
    let quiet (u : State) : Prop := u.od = s.od ∧ (∀ y, u.axis y = s.axis y) ∧ BytesKept s u
    let off (u : State) : Prop := (∀ q, (u.field.outp q).driven = false) ∧ u.field.hs = 0 ∧ u.field.ls = 0
    ((f.inp i).level ≠ lv → inputMe s i = true ∨ cross + debounceNs s i ≤ a.now → Answers (.inputEdgeAccepted i lv cross t) s fun u =>
      (u.field.inp i).level = lv ∧ u.get Ob.Inp.EDGES i = (s.get Ob.Inp.EDGES i + 1) % 2 ^ 32 ∧ ∀ k, k ≠ i → u.field.inp k = f.inp k) ∧
    ((f.inp i).level = lv → exec (.inputEdgeAccepted i lv cross t) s = .next a) ∧
    (s.flag Ob.Inp.OPEN_DETECT i = true → (f.inp i).openIn = false → Answers (.inputOpen i t) s fun u =>
      (u.field.inp i).openIn = true ∧ (f.recs.length < 64 → u.field.recs = f.recs ++ [(10, i * 2 ^ 43 + 2 ^ 40)]) ∧ quiet u) ∧
    ((f.inp i).openIn = true → Answers (.inputOpenCleared i t) s fun u =>
      (u.field.inp i).openIn = false ∧ (f.recs.length < 64 → u.field.recs = f.recs ++ [(10, i * 2 ^ 43)]) ∧ quiet u) ∧
    (Answers (.brakeMismatch bk h l t) s fun u =>
      (u.field.brake bk).rbH = h ∧ (u.field.brake bk).rbL = l ∧ (∀ k, k ≠ bk → u.field.brake k = f.brake k) ∧ quiet u ∧
      (u.field.brake bk).mismatch = (if f.brakesAt + 1200000 ≤ a.now then rbDiffers f bk h l else (f.brake bk).mismatch)) ∧
    (f.supply = 0 → vf < 1800 → Answers (.supplyLow vf t) s fun u => u.field.supply = 1 ∧ u.field.outs = f.outs ∧ quiet u) ∧
    (f.supply ≠ 2 → vf < 1400 → Answers (.supplyUnder vf t) s fun u => u.field.supply = 2 ∧ u.field.vf = vf ∧ off u ∧ quiet u) ∧
    (f.supply ≠ 3 → 3300 < vf → Answers (.supplyOver vf t) s fun u => u.field.supply = 3 ∧ u.field.vf = vf ∧ off u ∧ quiet u) ∧
    (f.supply = 1 → 1850 ≤ vf → Answers (.supplyNormal vf t) s fun u => u.field.supply = 0 ∧ u.field.outs = f.outs ∧ quiet u) ∧
    (vf < 1850 → exec (.supplyNormal vf t) s = .next a) ∧
    (f.supply = 2 → 1600 < vf → Answers (.supplyRestore vf t) s fun u =>
      u.field.supply = (if vf < 1800 then 1 else 0) ∧ u.field.held = decide (s.get Ob.Die.RESTORE_MODE = 1) ∧ quiet u) ∧
    (unitRuns s = true → s.get Ob.Die.LINK_STATE = 1 → s.get Ob.Die.SUPPLY_STATE ≤ 1 → Answers (.fieldRestore t) s fun u =>
      u.field = { f with held := false } ∧ u.out = .reply 0xFF 0 stOk [] :: s.out ∧ ObjectsKept [Ob.Die.RESTORE.key] s u ∧ (∀ y, u.axis y = s.axis y) ∧ BytesKept s u) ∧
    (unitRuns s = true → s.get Ob.Die.LINK_STATE ≠ 1 → exec (.fieldRestore t) s = .next (a.emit (.reply 0xFF 0 stState [])))

/-- PWM loads, periods and trips (R297 to R301, R306, R307): LOAD_ALL arms a PWM_DIRECT port, the mask every port named or none; the next period start
takes the shadow registers, and no phase ever has its two sides on for more than the period together; a trip latches with its first cause, is counted,
takes the outputs to TRIP_STATE and faults the port's axis; TRIP_CLEAR ends it unless a cause persists. -/
def Obligations.PwmLoadsPeriodsAndTrips : Prop :=
  ∀ (s : State) (p m t t0 x : Nat), p < 8 → unitRuns s = true →
    let a := s.at t
    let q := s.port p
    let replied (x : Nat) (u : State) : Prop := u.out.head? = some (.reply 0xFF 0 x [])
    let quiet (u : State) : Prop := (∀ y, u.axis y = s.axis y) ∧ BytesKept s u
    let trips (u : State) (cause : Int) : Prop :=
      (u.port p).tripped = true ∧ u.get Ob.Port.TRIP_CAUSE p = (if s.get Ob.Port.TRIP_CAUSE p = 0 then cause else s.get Ob.Port.TRIP_CAUSE p) ∧
      u.get Ob.Port.TRIP_COUNT p = satInc 32 (s.get Ob.Port.TRIP_COUNT p) ∧ bit (u.nat Ob.Port.STATUS p) 0 = true ∧
      (s.get Ob.Port.TRIP_STATE p ≠ 1 → (u.port p).duty = [0, 0, 0, 0, 0, 0]) ∧
      ∀ y, portAxis s p = some y → (s.axis y).mot.state ≠ .disabled → (u.axis y).mot.state = .faulted ∧ bit (u.nat Ob.Ctl.FAULT_SET y) 13 = true
    (portFn s p = 2 → Answers (.loadAll p t) s fun u => (u.port p).armed.isSome = true ∧ u.get Ob.Pwm.LOAD_ALL p = 1 ∧ replied stOk u ∧ quiet u ∧ ∀ k, k ≠ p → u.port k = s.port k) ∧
    (portFn s p ≠ 2 → exec (.loadAll p t) s = .next (a.emit (.reply 0xFF 0 stState []))) ∧
    (1 ≤ m → m ≤ 255 → (∀ k, k < 8 → bit m k = true → portFn s k = 2) → Answers (.loadAllMask m t) s fun u =>
      (∀ k, k < 8 → if bit m k then (u.port k).armed.isSome = true else u.port k = s.port k) ∧ replied stOk u ∧ quiet u) ∧
    (1 ≤ m → m ≤ 255 → (∃ k, k < 8 ∧ bit m k = true ∧ portFn s k ≠ 2) → exec (.loadAllMask m t) s = .next (a.emit (.reply 0xFF 0 stState []))) ∧
    (m = 0 ∨ 255 < m → exec (.loadAllMask m t) s = .next (a.emit (.reply 0xFF 0 stRange []))) ∧
    (portFn s p = 2 → periodDue a p a.now = some x → q.armed = some t0 → t0 < a.now → q.heldAt ≠ a.now → Answers (.pwmPeriodStart p t) s fun u =>
      u.get Ob.Pwm.PERIOD_ACTIVE p = s.nat Ob.Pwm.PERIOD_SHADOW p ∧ (∀ k, k < 3 → u.get Ob.Pwm.CMP_ACTIVE p 0 k = s.nat Ob.Pwm.CMP_SHADOW p 0 k) ∧ (u.port p).armed = none ∧
      u.get Ob.Pwm.LOAD_ALL p = 0 ∧ (u.port p).startQ = some x ∧ u.get Ob.Pwm.PERIODS p = (s.get Ob.Pwm.PERIODS p + 1) % 2 ^ 32 ∧ quiet u) ∧
    (periodDue a p a.now = some x → Answers (.pwmPeriodStart p t) s fun u => (u.port p).startQ = some x ∧ (u.port p).duty.length = 6 ∧
      ∀ j, j < 3 → (u.port p).duty.getD (2 * j) 0 + (u.port p).duty.getD (2 * j + 1) 0 ≤ activePeriod u p) ∧
    (periodDue a p a.now = none → exec (.pwmPeriodStart p t) s = .next a) ∧
    (q.tripped = false → Answers (.tripInput p true t) s (fun u => trips u 1 ∧ (u.port p).tripInput = true) ∧ Answers (.tripForce p t) s (fun u => trips u 2 ∧ replied stOk u)) ∧
    (Answers (.tripInput p false t) s fun u => u.port p = { q with tripInput := false } ∧ (∀ k, k ≠ p → u.port k = s.port k) ∧ quiet u) ∧
    (tripPersists s p = false → Answers (.tripClear p t) s fun u =>
      (u.port p).tripped = false ∧ u.get Ob.Port.TRIP_CAUSE p = 0 ∧ bit (u.nat Ob.Port.STATUS p) 0 = false ∧ replied stOk u ∧ quiet u) ∧
    (tripPersists s p = true → exec (.tripClear p t) s = .next (a.emit (.reply 0xFF 0 stState [])))

/-- Sigma-delta judgements, step output and step input (R308 to R317): a fast value beyond OC_LIMIT trips the port; a stuck channel is invalid until
enough good bits, and trips a SERVO port; a step goes out and STEP_POSITION moves by one where the reference has reached it and the rate and direction
rules allow, one that is behind its instant counted as delayed; a halt order stops the steps; an accepted edge of an enabled step input moves its
count by one. -/
def Obligations.SigmaDeltaStepsAndStepInputs : Prop :=
  ∀ (s : State) (p c noClock t v due : Nat) (l : List Bool) (vs : List Nat) (dir : Bool), p < 8 → c < 3 → unitRuns s = true →
    let a := s.at t
    let q := s.port p
    let lim := q131 (s.get Ob.Sd.OC_LIMIT p)
    let quiet (u : State) : Prop := (∀ y, u.axis y = s.axis y) ∧ BytesKept s u
    let d : Int := if dir then 1 else -1
    (sinc3 (s.nat Ob.Sd.OC_OSR p) l = v :: vs →
      (lim ≠ 0 → lim < |sincNorm (s.nat Ob.Sd.OC_OSR p) v| → Answers (.overcurrent p c l t) s fun u =>
        (u.port p).tripped = true ∧ (u.port p).ocSeen = true ∧ ((u.port p).chan c).oc = true ∧
        (q.tripped = false → s.get Ob.Port.TRIP_CAUSE p = 0 → u.get Ob.Port.TRIP_CAUSE p = 3)) ∧
      (|sincNorm (s.nat Ob.Sd.OC_OSR p) v| ≤ lim → Answers (.overcurrent p c l t) s fun u =>
        ((u.port p).chan c).oc = false ∧ (u.port p).tripped = q.tripped ∧ (u.port p).ocSeen = q.ocSeen ∧ quiet u)) ∧
    (sdStuck s p l = true → Answers (.sdInvalid p c l noClock t) s fun u =>
      ((u.port p).chan c).invalid = true ∧ (portFn s p = 1 → c < s.nat Ob.Sd.SD_PHASES p → (u.port p).tripped = true)) ∧
    (sdStuck s p l = false → s.get Ob.Sd.SD_CLK_MODE p ≠ 1 ∨ noClock < 1000 → exec (.sdInvalid p c l noClock t) s = .next a) ∧
    (3 * s.nat Ob.Sd.SD_OSR p ≤ l.length → sdStuck s p l = false → Answers (.sdValid p c l t) s fun u =>
      ((u.port p).chan c).invalid = false ∧ (∀ k, k ≠ c → (u.port p).chan k = q.chan k) ∧ (u.port p).tripped = q.tripped ∧ quiet u) ∧
    (stepOn s p = true → stepAsked q.step a.now = some (dir, due) → q.step.lastRise = none → q.step.dir = dir → q.step.dirAt + s.nat Ob.Step.DIR_SETUP p ≤ a.now →
      let stepped (u : State) : Prop := u.get Ob.Step.STEP_POSITION p = s.get Ob.Step.STEP_POSITION p + d ∧ (u.port p).step.at_ = q.step.at_ + d ∧
        (u.port p).step.lastRise = some a.now ∧ quiet u
      (a.now ≤ due → Answers (.stepEmit p t) s fun u => stepped u ∧ (u.port p).step.delayed = q.step.delayed ∧
        u.get Ob.Step.RATE_LIMIT_COUNT p = s.get Ob.Step.RATE_LIMIT_COUNT p) ∧
      (due < a.now → q.step.delayed = false → Answers (.stepEmit p t) s fun u => stepped u ∧ (u.port p).step.delayed = true ∧
        u.get Ob.Step.RATE_LIMIT_COUNT p = satInc 32 (s.get Ob.Step.RATE_LIMIT_COUNT p))) ∧
    (portFn s p = 3 → q.step.halted = true → exec (.stepEmit p t) s = .next a) ∧
    (portFn s p = 3 → Answers (.stepHalt p t) s fun u => (u.port p).step.halted = true) ∧
    (s.flag Ob.Step.STEP_IN_ENABLE p = true → Answers (.stepInEdge p dir t) s fun u =>
      (u.port p).stepIn.ext = q.stepIn.ext + d ∧ (u.port p).stepIn.cnt = lowBits 32 (q.stepIn.cnt + d) ∧ (u.port p).tripped = q.tripped ∧ (u.port p).step = q.step ∧ quiet u) ∧
    (s.flag Ob.Step.STEP_IN_ENABLE p = false → exec (.stepInEdge p dir t) s = .next a)

/-- Incremental inputs (R232 to R236, R242, R243): levels held for FILTER_LEN samples count one edge up or down by their order, or one illegal
transition that makes the count uncertain; shorter ones leave no trace; an index event keeps its stamp and count; a wire fault faults the unit; a run
of invalid samples faults the axis; CLEAR_FAULT of a healthy unit ends its fault. -/
def Obligations.EncoderEdgesCountAndFaultsLatch : Prop :=
  ∀ (s : State) (u t held a pair : Nat) (x y z : Bool) (d : Int), u < 12 → unitRuns s = true →
    let s' := s.at t
    let q := (s.fbu u).quad
    let bytes (v : State) : Prop := BytesKept s v
    let others (v : State) : Prop := ∀ k, k ≠ u → v.fbu k = s.fbu k
    (held < unitFilter s u → exec (.quadratureEdge u x y t held) s = .next s') ∧
    (quadOn s u = true → unitFilter s u ≤ held →
      (quadMove q.a q.b x y = some d → d ≠ 0 → Answers (.quadratureEdge u x y t held) s fun v =>
        (v.fbu u).quad.ext = q.ext + d ∧ (v.fbu u).quad.cnt = lowBits 32 (q.cnt + d) ∧ (v.fbu u).quad.a = x ∧ (v.fbu u).quad.b = y ∧ others v ∧ bytes v) ∧
      (quadMove q.a q.b x y = none → Answers (.quadratureEdge u x y t held) s fun v =>
        (v.fbu u).quad.ext = q.ext ∧ (v.fbu u).quad.uncertain = true ∧ (v.fbu u).quad.edges = ⟨t, 0, q.ext, true⟩ :: q.edges ∧ (v.fbu u).quad.a = x ∧ (v.fbu u).quad.b = y ∧
        v.get Ob.Fb.ILLEGAL_COUNT (fbIx u) = satInc 32 (s.get Ob.Fb.ILLEGAL_COUNT (fbIx u)) ∧ others v)) ∧
    (quadOn s u = true → Answers (.illegalLimit u t) s fun v =>
      (v.fbu u).quad.uncertain = true ∧ (v.fbu u).quad.ext = q.ext ∧
      (s.nat Ob.Fb.ILLEGAL_LIMIT (fbIx u) ≠ 0 → s.nat Ob.Fb.ILLEGAL_LIMIT (fbIx u) ≤ (v.fbu u).quad.illegal.length → (v.fbu u).quad.fault = true)) ∧
    (quadOn s u = true → unitFilter s u ≤ held → q.z ≠ z → s.get Ob.Fb.INDEX_GATE (fbIx u) = 0 → Answers (.indexEvent u z t held) s fun v =>
      (v.fbu u).quad.z = z ∧ (v.fbu u).quad.ext = q.ext ∧ (z = true → (v.fbu u).quad.index = some (t, q.ext) ∧ (v.fbu u).quad.indexSeen = true) ∧
      (z = false → (v.fbu u).quad.index = q.index) ∧ others v ∧ bytes v) ∧
    (u < 8 → pair < 4 → unitMode s u ≠ 0 →
      Answers (.wireFault u pair true t) s (fun v => bit (v.fbu u).quad.wires pair = true ∧ (v.fbu u).quad.fault = true) ∧
      Answers (.wireFault u pair false t) s (fun v => (v.fbu u).quad = { q with wires := setBit q.wires pair false } ∧ others v ∧ (∀ k, v.axis k = s.axis k) ∧ bytes v)) ∧
    (a < 256 → s.get Ob.AxFb.FB_SOURCE a ≤ 1 → s.nat Ob.AxFb.FB_HOLD_LIMIT a ≤ (s.axis a).fb.hold → 0 < (s.axis a).fb.hold → (s.axis a).mot.state ≠ .disabled →
      Answers (.fbHoldLimit a t) s fun v => v.get Ob.AxFb.FB_STATE a = 3 ∧ bit (v.nat Ob.Ctl.FAULT_SET a) 18 = true ∧ AxesKept [a] s v) ∧
    ((s.axis a).fb.hold < s.nat Ob.AxFb.FB_HOLD_LIMIT a → exec (.fbHoldLimit a t) s = .next s') ∧
    (q.wires = 0 → u < 8 ∨ s.get Ob.Die.LINK_STATE ≠ 2 → (∀ w ∈ q.illegal, w + s.nat Ob.Fb.ILLEGAL_WINDOW (fbIx u) * 1000000 < s'.now) → (s.fbu u).abs.errNow = false → Answers (.clearFault u t) s fun v =>
      (v.fbu u).quad.fault = false ∧ (v.fbu u).quad.uncertain = false ∧ (v.fbu u).quad.indexSeen = false ∧ (v.fbu u).quad.ext = q.ext)

/-- Clocked absolute encoders (R237 to R239): a frame that decodes without error gives ABS_WORD and a valid sample, another is counted with its code
and the sample is invalid; ABS_ERR_LIMIT bad frames in a row fault the unit; every ABS_CHECK_PERIOD a check frame falls due at the next whistle. -/
def Obligations.AbsoluteFramesAreTakenOrCounted : Prop :=
  ∀ (s : State) (u t word code : Nat) (low : Bool) (l : List Bool), u < 8 → unitRuns s = true →
    let s' := s.at t
    let f := s.fbu u
    (unitMode s u = 2 → f.abs.req ≠ 0 → absDecode s u low l = (word, code) →
      (code = 0 → Answers (.absFrame u low l t) s fun v =>
        (v.fbu u).abs.word = word ∧ (v.fbu u).abs.valid = true ∧ (v.fbu u).abs.raw0 = word ∧ (v.fbu u).abs.badRun = 0 ∧ (v.fbu u).abs.req = 0 ∧ (v.fbu u).abs.readyAt = some (max s'.now (f.abs.reqAt + absTime s u + 100)) ∧ v.get Ob.Fb.ABS_WORD u = word ∧
        v.get Ob.Fb.ABS_ERR_CODE u = 0 ∧ (∀ k, k ≠ u → v.fbu k = s.fbu k) ∧ (∀ k, v.axis k = s.axis k) ∧ BytesKept s v) ∧
      (code ≠ 0 → Answers (.absFrame u low l t) s fun v =>
        (v.fbu u).abs.word = f.abs.word ∧ (v.fbu u).abs.valid = false ∧ (v.fbu u).abs.badRun = f.abs.badRun + 1 ∧ v.get Ob.Fb.ABS_ERR_CODE u = code ∧
        v.get Ob.Fb.ABS_ERR_COUNT u = satInc 32 (s.get Ob.Fb.ABS_ERR_COUNT u) ∧ (s.nat Ob.Fb.ABS_ERR_LIMIT u ≤ f.abs.badRun + 1 → (v.fbu u).quad.fault = true))) ∧
    (f.abs.req = 0 → exec (.absFrame u low l t) s = .next s') ∧
    (2 ≤ unitMode s u → s.nat Ob.Fb.ABS_ERR_LIMIT u ≤ f.abs.badRun → Answers (.absErrLimit u t) s fun v => (v.fbu u).quad.fault = true ∧ (v.fbu u).abs = f.abs) ∧
    (f.abs.badRun < s.nat Ob.Fb.ABS_ERR_LIMIT u → exec (.absErrLimit u t) s = .next s') ∧
    (unitMode s u = 3 → 0 < s.nat Ob.Fb.ABS_CHECK_PERIOD u →
      (f.abs.lastCheck + s.nat Ob.Fb.ABS_CHECK_PERIOD u * 1000000 ≤ s'.now → Answers (.absCheckPeriod u t) s fun v =>
        (v.fbu u).abs = { f.abs with checkDue := true, lastCheck := s'.now } ∧ (v.fbu u).quad = f.quad ∧ v.od = s.od ∧ (∀ k, k ≠ u → v.fbu k = s.fbu k)) ∧
      (s'.now < f.abs.lastCheck + s.nat Ob.Fb.ABS_CHECK_PERIOD u * 1000000 → exec (.absCheckPeriod u t) s = .next s'))

/-- Latch and compare units (R245 to R254): a wanted edge waits as an event, an available one in the window enters the FIFO with the next sequence, a
full FIFO or an idle unit counts it lost or missed; ARM brings the compare value ahead of the source by whole pitches; a hit due fires, counted, with
its time; a pulse ends at its end. -/
def Obligations.LatchesAndCompareUnitsTakeTheirEvents : Prop :=
  ∀ (s : State) (l u t n r : Nat) (falling : Bool) (e : LatchEv) (h : CmpHit) (v : Int), l < 8 → u < 8 → unitRuns s = true →
    let s' := s.at t
    let x := s.latch l
    let c := s.cmp u
    let start := s.get Ob.Cmp.START_COUNT u * 2 ^ 32 + s.get Ob.Cmp.START_FRAC u
    let axes (w : State) : Prop := (∀ k, w.axis k = s.axis k) ∧ BytesKept s w
    (Answers (.latchArm l t) s fun w => w.get Ob.Lat.STATE l = 1 ∧ ObjectsKept [Ob.Lat.STATE.key l, Ob.Lat.ARM.key l] s w ∧ w.latch l = x ∧ axes w) ∧
    (1 ≤ s.nat Ob.Lat.TRIGGER l → s.nat Ob.Lat.POS_SOURCE l < 8 ∨ s.get Ob.Die.LINK_STATE ≠ 2 → edgeWanted (s.get Ob.Lat.EDGE l) falling = true → latchHas x t falling = false → Answers (.latchEvent l t falling) s fun w =>
      (∃ p ∈ (w.latch l).waiting, p.1 = latchReady s l t ∧ p.2.t = t ∧ p.2.falling = falling) ∧ (∀ p ∈ x.waiting, p ∈ (w.latch l).waiting) ∧ (w.latch l).fifo = x.fifo ∧
      (∀ k, k ≠ l → w.latch k = s.latch k) ∧ w.od = s.od ∧ axes w) ∧
    (s.nat Ob.Lat.TRIGGER l = 0 → exec (.latchEvent l t falling) s = .next s') ∧
    (x.waiting = [(r, e)] → r ≤ s'.now →
      (s.get Ob.Lat.STATE l = 1 → inWindow s l e.cnt = true →
        (x.fifo.length < 16 → Answers (.latchEventAvailable l t) s fun w =>
          (w.latch l).fifo = x.fifo ++ [{ e with seqNo := x.seqNo }] ∧ (w.latch l).waiting = [] ∧ (w.latch l).seqNo = (x.seqNo + 1) % 256 ∧
          w.get Ob.Lat.STATE l = (if s.get Ob.Lat.MODE l = 0 then 2 else 1) ∧ axes w) ∧
        (16 ≤ x.fifo.length → Answers (.latchEventAvailable l t) s fun w => (w.latch l).fifo = x.fifo ∧ w.get Ob.Lat.LOST l = satInc 32 (s.get Ob.Lat.LOST l) ∧ axes w)) ∧
      (s.get Ob.Lat.STATE l ≠ 1 → Answers (.latchEventAvailable l t) s fun w => (w.latch l).fifo = x.fifo ∧ w.get Ob.Lat.MISSED l = satInc 32 (s.get Ob.Lat.MISSED l) ∧ axes w)) ∧
    (Answers (.latchAck l n t) s fun w => (w.latch l).fifo = x.fifo.drop n ∧ w.bytes Ob.Lat.EVENTS l = (x.fifo.drop n).flatMap latchBytes ∧ (∀ k, k ≠ l → w.latch k = s.latch k) ∧ axes w) ∧
    (Answers (.compareArm u t) s fun w => w.get Ob.Cmp.STATE u = 1 ∧ (w.cmp u).arming = c.arming + 1 ∧ (w.cmp u).committed = c.committed ∧ axes w ∧ (∀ k, k ≠ u → w.cmp k = s.cmp k) ∧
      (0 < s.get Ob.Cmp.PITCH u → 0 < cmpDir s u * ((w.cmp u).cv - cmpPos s u) ∧ ((w.cmp u).cv - start) % s.get Ob.Cmp.PITCH u = 0) ∧
      (s.get Ob.Cmp.PITCH u = 0 → (w.cmp u).cv = start)) ∧
    (Answers (.disarm u t) s fun w => w.get Ob.Cmp.STATE u = 0 ∧ ObjectsKept [Ob.Cmp.STATE.key u, Ob.Cmp.DISARM.key u] s w ∧ w.cmp u = c ∧ axes w) ∧
    (Answers (.correction u v t) s fun w => w.cmp u = { c with corr := c.corr + v } ∧ w.get Ob.Cmp.CORRECTION u = v ∧ ObjectsKept [Ob.Cmp.CORRECTION.key u] s w ∧ axes w) ∧
    (c.committed = [h] →
      (h.t ≤ s'.now → Answers (.compareHit u t) s fun w =>
        (w.cmp u).committed = [] ∧ (w.cmp u).level = true ∧ w.get Ob.Cmp.HITS u = (s.get Ob.Cmp.HITS u + 1) % 2 ^ 32 ∧ w.get Ob.Cmp.LAST_HIT_TIME u = h.th ∧
        w.get Ob.Cmp.LATE u = (if h.late then satInc 32 (s.get Ob.Cmp.LATE u) else s.get Ob.Cmp.LATE u) ∧ w.get Ob.Cmp.STATE u = (if h.single = some c.arming ∧ s.get Ob.Cmp.STATE u = 1 then 2 else s.get Ob.Cmp.STATE u) ∧ axes w) ∧
      (s'.now < h.t → Answers (.compareHit u t) s fun w => w.cmp u = c ∧ w.od = s.od ∧ axes w)) ∧
    (c.level = true → c.pulseEnd ≤ s'.now → Answers (.comparePulseFall u t) s fun w => w.cmp u = { c with level := false } ∧ w.od = s.od ∧ axes w) ∧
    (c.level = false → exec (.comparePulseFall u t) s = .next s')

/-- Time-triggered pulses and time latches (R99 to R101): ENABLE arms a channel whose start lies ahead by its lead and refuses a late one, or one
whose PERIOD and WIDTH do not fit its target; a planned rise is counted and switches a pin target, a single pulse's end makes the channel DONE, a stop
in a pulse acts at its end; a wanted stamp enters the latch's FIFO or counts as lost, ACK removes the oldest. -/
def Obligations.PulsesAndTimeLatchesFollowTheTimeBase : Prop :=
  ∀ (s : State) (c l n t : Nat) (falling : Bool), c < 8 → l < 8 → unitRuns s = true →
    let s' := s.at t
    let x := s.ttp c
    let st := s.get Ob.Ttp.STATUS c
    let target := s.nat Ob.Ttp.TARGET c
    let start := s.nat Ob.Ttp.START c
    let lead := if 1 ≤ target ∧ target ≤ 16 then 5000 else 1000
    let fits := ttpPeriodOk target (s.nat Ob.Ttp.PERIOD c) && ttpWidthOk target (s.nat Ob.Ttp.PERIOD c) (s.nat Ob.Ttp.WIDTH c)
    let y := s.tlat l
    let axes (w : State) : Prop := (∀ k, w.axis k = s.axis k) ∧ BytesKept s w
    (fits = false → exec (.ttpEnable c true t) s = .next (s'.emit (.reply 0xFF 0 stRange []))) ∧
    (fits = true → s.get Ob.Ttp.TIMEBASE c = 0 → (s'.now + lead ≤ start → Answers (.ttpEnable c true t) s fun w =>
        w.get Ob.Ttp.STATUS c = 1 ∧ w.get Ob.Ttp.ENABLE c = 1 ∧ w.get Ob.Ttp.COUNT c = 0 ∧ (w.ttp c).rise 0 = start ∧ (w.ttp c).high = false ∧ w.out = .reply 0xFF 0 stOk [] :: s.out ∧ axes w) ∧
      (0 ≤ s.get Ob.Ttp.START c → start < s'.now + lead → Answers (.ttpEnable c true t) s fun w => w.get Ob.Ttp.STATUS c = 4 ∧ w.get Ob.Ttp.ENABLE c = 0 ∧ axes w)) ∧
    (st = 1 ∨ st = 2 → (x.high = true → Answers (.ttpEnable c false t) s fun w => w.ttp c = { x with stopping := true } ∧ w.get Ob.Ttp.ENABLE c = 0 ∧ w.get Ob.Ttp.STATUS c = st ∧ axes w) ∧
      (x.high = false → Answers (.ttpEnable c false t) s fun w => w.get Ob.Ttp.STATUS c = 0 ∧ w.get Ob.Ttp.ENABLE c = 0 ∧ w.ttp c = x ∧ axes w)) ∧
    (st = 1 ∨ st = 2 → x.next ≤ s'.now →
      (x.high = false → Answers (.ttpEdge c t) s fun w =>
        w.ttp c = { x with high := true } ∧ w.get Ob.Ttp.STATUS c = 2 ∧ w.get Ob.Ttp.COUNT c = (s.get Ob.Ttp.COUNT c + 1) % 2 ^ 32 ∧
        (17 ≤ target → target ≤ 20 → bit w.time.tpOut (target - 17) = ttpLevel s c true) ∧ axes w) ∧
      (x.high = true → Answers (.ttpEdge c t) s fun w =>
        w.ttp c = { x with high := false, k := x.k + 1, stopping := false } ∧ w.get Ob.Ttp.STATUS c = (if x.stopping then 0 else if x.period = 0 then 3 else st) ∧
        (17 ≤ target → target ≤ 20 → bit w.time.tpOut (target - 17) = ttpLevel s c false) ∧ axes w)) ∧
    (s'.now < x.next → exec (.ttpEdge c t) s = .next s') ∧
    (s.get Ob.TLat.SOURCE l ≠ 0 → edgeWanted (s.get Ob.TLat.EDGE l) falling = true → y.last ≠ some (t, falling) →
      (y.fifo.length < 16 → Answers (.timeLatchEvent l t falling) s fun w =>
        w.tlat l = { y with fifo := y.fifo ++ [(t, falling, y.seqNo)], seqNo := (y.seqNo + 1) % 256, last := some (t, falling) } ∧ ObjectsKept [Ob.TLat.EVENTS.key l] s w ∧ axes w) ∧
      (16 ≤ y.fifo.length → Answers (.timeLatchEvent l t falling) s fun w => (w.tlat l).fifo = y.fifo ∧ w.get Ob.TLat.LOST l = satInc 32 (s.get Ob.TLat.LOST l) ∧ axes w)) ∧
    (s.get Ob.TLat.SOURCE l = 0 → exec (.timeLatchEvent l t falling) s = .next s') ∧
    Answers (.timeLatchAck l n t) s fun w => w.tlat l = { y with fifo := y.fifo.drop n } ∧ w.bytes Ob.TLat.EVENTS l = (y.fifo.drop n).flatMap stampBytes ∧ axes w

/-! ### The safety island -/

/-- Referee events (R339 to R342): a core fault, a missing or early heartbeat, a failed self-test or an overlong TEST phase, outside HALT, makes the
unit RECOVERY, or HALT at the third event within an hour of operating time and for a management-pair mismatch; its cause is recorded and counted,
every local port trips, every axis has SAFE_DEMAND and no power; a passed self-test with the configured CRC and a good link ends START or RECOVERY. -/
def Obligations.RefereeEventsMakeTheUnitSafe : Prop :=
  ∀ (s : State) (cause t : Nat) (b : BtRt) (b0 : Nat), unitRuns s = true →
    let a := s.at t
    let recent := s.safe.events.filter fun x => decide (opTime a < x + 3600000000000)
    let event (why : Nat) (u : State) : Prop :=
      u.get Ob.Isl.RF_STATE = (if why = 8 ∨ 2 ≤ recent.length then 4 else 3) ∧ u.get Ob.Isl.LAST_CAUSE = why ∧ u.get Ob.Isl.RECOVERY_COUNT = satInc 32 (s.get Ob.Isl.RECOVERY_COUNT) ∧
      u.get Ob.Isl.SAFE_STATE = 1 ∧ u.safe.ready = false ∧ u.safe.test = none ∧ (∀ p, p < 8 → (u.port p).tripped = true) ∧
      ∀ x, x < 256 → u.get Ob.AxS.SAFE_DEMAND x ≠ 0 ∧ (u.axis x).mot.state.powered = false
    (s.get Ob.Isl.RF_STATE ≠ 4 →
      (2 ≤ cause → cause ≤ 5 → Answers (.coreFault cause t) s (event cause)) ∧
      (standbyEligible s = false → Answers (.coreFault 8 t) s (event 8)) ∧
      (s.safe.beatAt = some b0 → b0 + 300000 < a.now → Answers (.heartbeatFault false t) s (event 1)) ∧
      (s.safe.beatAt = some b0 → a.now < b0 + 200000 → Answers (.heartbeatFault true t) s (event 1)) ∧
      (s.safe.test = some b → s.get Ob.Isl.RF_STATE = 2 → b.t0 + 5000000000 < a.now → Answers (.testTimeout t) s (event 7))) ∧
    (s.get Ob.Isl.RF_STATE = 4 → 2 ≤ cause → cause ≤ 5 → exec (.coreFault cause t) s = .next a) ∧
    (s.safe.beatAt = some b0 → b0 + 200000 ≤ a.now → a.now ≤ b0 + 300000 → Answers (.heartbeatFault true t) s fun u =>
      u.safe = { s.safe with beatAt := some a.now } ∧ u.od = s.od ∧ (∀ x, u.axis x = s.axis x) ∧ BytesKept s u) ∧
    (s.safe.test = none → exec (.testTimeout t) s = .next a) ∧
    (s.get Ob.Isl.RF_STATE = 0 ∨ s.get Ob.Isl.RF_STATE = 3 →
      (s.safe.crc = none ∨ s.safe.crc = some (safetyCrc s) → s.get Ob.Die.LINK_STATE = 1 → s.boot.configured = true → s.safe.ready = false → Answers (.coreSelftestComplete true t) s fun u =>
        u.get Ob.Isl.RF_STATE = 1 ∧ u.get Ob.Isl.SAFE_STATE = 0 ∧ u.safe.ready = true ∧ u.safe.tested = true ∧ u.get Ob.Isl.SAFETY_CRC = safetyCrc s) ∧
      Answers (.coreSelftestComplete false t) s (event 4))

/-- Safety inputs, answers and brakes (R343 to R346, R348, R351 to R353): a discrepancy of a pair is a demand that must be acknowledged, counted; a
delayed demand, or eight missing answers of a worker, set SAFE_DEMAND of their axes and take their power; SAFETY_ACK ends the demands of pairs that no
longer demand; the second switch of a brake follows the first by the stagger; SBC_RESET needs an applied brake. -/
def Obligations.SafetyDemandsAndBrakesAct : Prop :=
  ∀ (s : State) (k r p x t t0 : Nat), unitRuns s = true →
    let a := s.at t
    let q := s.si k
    let y := s.sbc x
    let demanded (u : State) (z : Nat) : Prop := u.get Ob.AxS.SAFE_DEMAND z ≠ 0 ∧ (u.axis z).mot.state.powered = false
    (k < 4 → q.since = some t0 → (siChannels a k).1 ≠ (siChannels a k).2 → t0 + s.nat Ob.Si.DISCREPANCY k * 1000000 ≤ a.now → Answers (.discrepancy k t) s fun u =>
      u.si k = { q with since := none, clear := 1, demand := true } ∧ u.get Ob.Si.DISC_COUNT k = satInc 32 (s.get Ob.Si.DISC_COUNT k) ∧
      (s.flag Ob.Si.SI_ENABLE k = true → u.get Ob.Si.SI_STATE k = 3) ∧ (∀ z, u.axis z = s.axis z) ∧ BytesKept s u) ∧
    (q.since = none → exec (.discrepancy k t) s = .next a) ∧
    (k < 4 → q.at_ = some t0 → t0 ≤ a.now → q.demand = true → Answers (.siDelay k t) s fun u =>
      (u.si k).set = true ∧ ∀ z, z < 256 → bit (s.nat Ob.Si.GROUP_MASK k) (s.nat Ob.AxS.SAFETY_GROUP z) = true → demanded u z) ∧
    ((∀ j, j < 4 → s.flag Ob.Si.SI_ENABLE j = true → siChannels a j = (false, false)) → Answers (.safetyAck t) s fun u =>
      u.out.head? = some (.reply 0xFF 0 stOk []) ∧ ∀ j, j < 4 → s.flag Ob.Si.SI_ENABLE j = true → (s.si j).clear = 0 ∨ (s.si j).clear = 3 → (u.si j).demand = false) ∧
    ((∃ j, j < 4 ∧ s.flag Ob.Si.SI_ENABLE j = true ∧ ((siChannels a j).1 = true ∨ (siChannels a j).2 = true)) → exec (.safetyAck t) s = .next (a.emit (.reply 0xFF 0 stState []))) ∧
    (r < 4 → 8 ≤ (s.ssf r p).bad → Answers (.safetyAnswerLoss r p t) s fun u =>
      (u.ssf r p).demand = true ∧ ∀ z, z < 256 → s.onRing z r = true → s.nat Ob.Map.WORKER z = p → demanded u z) ∧
    ((s.ssf r p).bad < 8 → exec (.safetyAnswerLoss r p t) s = .next a) ∧
    (x < 256 → y.stagger = some t0 →
      (t0 ≤ a.now → Answers (.sbcStagger x t) s fun u =>
        u.sbc x = (if y.closing then { y with pathB := true, stagger := none } else { y with pathA := false, stagger := none }) ∧ (∀ z, z ≠ x → u.sbc z = s.sbc z) ∧ (∀ z, u.axis z = s.axis z) ∧ BytesKept s u) ∧
      (a.now < t0 → exec (.sbcStagger x t) s = .next a)) ∧
    (x < 256 → brakeApplied s x = true → Answers (.sbcReset x t) s fun u =>
      u.sbc x = { y with fault := false } ∧ u.out.head? = some (.reply 0xFF 0 stOk []) ∧ (∀ z, u.axis z = s.axis z) ∧ BytesKept s u) ∧
    (brakeApplied s x = false → exec (.sbcReset x t) s = .next (a.emit (.reply 0xFF 0 stState [])))

/-- The brake test and the safety cycle (R338, R354 to R357): due-ness follows the last passed test, and an overdue axis is demanded safe; BT_START of
a resting axis begins the TEST phase and is refused otherwise; after ENGAGE_TIME the position is latched; slip beyond MAX_SLIP fails the test and
demands the axis safe, a completed profile with its torques passes it; a safety cycle judges every input pair and the heartbeat. -/
def Obligations.BrakeTestsAndSafetyCycles : Prop :=
  ∀ (s : State) (x k t : Nat) (b : BtRt) (x0 : Int), x < 256 → unitRuns s = true →
    let a := s.at t
    let m := (s.axis x).mot
    let p := a.now - (b.t0 + s.nat Ob.AxS.ENGAGE_TIME x * 1000000)
    let slip := max b.slip |(s.axis x).fb.xact - x0|
    let demanded (u : State) (z : Nat) : Prop := u.get Ob.AxS.SAFE_DEMAND z ≠ 0 ∧ (u.axis z).mot.state.powered = false
    let idle := m.state = .disabled ∧ bit (s.nat Ob.Ctl.CONTROL x) 0 = false
    let mayStart := s.get Ob.Isl.RF_STATE = 1 ∧ s.safe.test = none ∧ (idle ∨ (m.state = .enabled ∧ m.mode = 0)) ∧ s.get Ob.Mach.STOP_ACTIVE = 0 ∧ demandBase s x = false
    (Answers (.testInterval x t) s fun u => u.get Ob.AxS.BT_DUE x = btDueness a x ∧ ObjectsKept [Ob.AxS.BT_DUE.key x] s u ∧ (∀ z, u.axis z = s.axis z) ∧ BytesKept s u) ∧
    (btDueness a x = 2 → s.safe.test = none → Answers (.testGrace x t) s fun u => u.get Ob.AxS.BT_DUE x = 2 ∧ demanded u x) ∧
    (mayStart → Answers (.btStart x t) s fun u =>
      u.get Ob.Isl.RF_STATE = 2 ∧ u.get Ob.AxS.BT_STATE x = 1 ∧ u.get Ob.AxS.BT_SLIP x = 0 ∧ u.out.head? = some (.reply 0xFF 0 stOk []) ∧
      ∃ c, u.safe.test = some c ∧ c.axis = x ∧ c.t0 = a.now ∧ c.x0 = none) ∧
    (¬ mayStart → exec (.btStart x t) s = .next (a.emit (.reply 0xFF 0 stState []))) ∧
    (s.safe.test = some b → b.axis = x →
      (b.x0 = none → b.t0 + s.nat Ob.AxS.ENGAGE_TIME x * 1000000 ≤ a.now → Answers (.engageTime x t) s fun u =>
        u.safe = { s.safe with test := some { b with x0 := some (s.axis x).fb.xact } } ∧ u.od = s.od ∧ (∀ z, u.axis z = s.axis z) ∧ BytesKept s u) ∧
      (b.x0 = some x0 → btAborted a b = false →
        (s.get Ob.AxS.MAX_SLIP x < slip → Answers (.btProfileEnd t) s fun u =>
          u.safe.test = none ∧ u.get Ob.AxS.BT_STATE x = 3 ∧ u.get Ob.AxS.BT_SLIP x = slip ∧ x ∈ u.safe.failed ∧ demanded u x) ∧
        (slip ≤ s.get Ob.AxS.MAX_SLIP x → 600000000 ≤ p → btTorque s x * 9 ≤ b.maxPos * 10 → btTorque s x * 9 ≤ b.maxNeg * 10 → Answers (.btProfileEnd t) s fun u =>
          u.safe.test = none ∧ u.get Ob.AxS.BT_STATE x = 2 ∧ u.get Ob.AxS.BT_DUE x = 0 ∧ x ∉ u.safe.failed ∧ SMap.getD u.safe.passed x 0 = opTime a) ∧
        (slip ≤ s.get Ob.AxS.MAX_SLIP x → p < 250000000 → Answers (.btProfileEnd t) s fun u => ∃ c, u.safe.test = some c ∧ c.slip = slip ∧ u.get Ob.AxS.BT_SLIP x = slip))) ∧
    (t % 250000 = 0 → s.safe.ready = true → s.safe.test = none → (∀ b0, s.safe.beatAt = some b0 → b0 + 200000 ≤ a.now ∧ a.now ≤ b0 + 300000) → Answers (.safetyCycle t) s fun u =>
      u.safe.beatAt = some a.now ∧ u.get Ob.AxS.BT_DUE x = btDueness a x ∧
      (k < 4 → s.flag Ob.Si.SI_ENABLE k = true → siChannels a k = (true, true) → (s.si k).demand = false → s.nat Ob.Si.SI_DELAY k = 0 →
        (u.si k).demand = true ∧ (u.si k).set = true ∧ ∀ z, z < 256 → bit (s.nat Ob.Si.GROUP_MASK k) (s.nat Ob.AxS.SAFETY_GROUP z) = true → demanded u z)) ∧
    (t % 250000 ≠ 0 → exec (.safetyCycle t) s = .next a)

/-- Password and safety session (R358, R359, R361): the right password, written by the captain's session, opens its safety session, a wrong one is
counted and the fifth locks further tries out for 900 s; a new password from the holder ends the factory password; logout, the timeout and the
lockout's end act when due; LOG_EXPORTED within the log frees its entries. -/
def Obligations.SafetySessionsNeedThePassword : Prop :=
  ∀ (s : State) (sess t n h v u0 : Nat) (pw : List Byte), unitRuns s = true →
    let a := s.at t
    let printable := 8 ≤ pw.length ∧ pw.length ≤ 32 ∧ ∀ c ∈ pw, 0x20 ≤ c.toNat ∧ c.toNat ≤ 0x7E
    let mine := SessionWrites s sess ∧ isCaptain s sess = true
    let locked := ∃ d, s.safe.lockUntil = some d ∧ opTime a < d
    let replied (st : Nat) (u : State) : Prop := u.out.head? = some (.reply 0xFF 0 st [])
    let quiet (u : State) : Prop := (∀ z, u.axis z = s.axis z) ∧ BytesKept s u
    (mine → printable → logRefuses s = false → ¬ locked →
      (passwordRight s pw = true → Answers (.safetyLogin sess pw t) s fun u =>
        (∃ m, u.safe.session = some (m, sess, a.now)) ∧ u.get Ob.Isl.SAFETY_SESSION = sess ∧ u.get Ob.Isl.FAILED_ATTEMPTS = 0 ∧ u.safe.failures = 0 ∧ replied stOk u ∧ quiet u) ∧
      (passwordRight s pw = false → Answers (.safetyLogin sess pw t) s fun u =>
        u.safe.session = s.safe.session ∧ u.safe.failures = min 5 (s.safe.failures + 1) ∧ u.get Ob.Isl.FAILED_ATTEMPTS = u.safe.failures ∧
        (4 ≤ s.safe.failures → u.get Ob.Isl.LOCKOUT_LEFT = 900 ∧ u.safe.lockUntil = some (opTime a + 900000000000)) ∧ replied stSafetyLocked u ∧ quiet u)) ∧
    (mine → printable → locked → exec (.safetyLogin sess pw t) s = .next ((a.set Ob.Sess.LAST_RENEWED a.now sess).emit (.reply 0xFF 0 stSafetyLocked []))) ∧
    (mine → printable → logRefuses s = false → s.safe.session = some (n, sess, h) → passwordRight s pw = false →
      Answers (.newPassword sess pw t) s fun u => u.safe.factory = false ∧ u.safe.hash = sha256 (u.safe.salt ++ pw) ∧ u.get Ob.Isl.FACTORY_PASSWORD = 0 ∧ replied stOk u ∧ quiet u) ∧
    (mine → printable → s.safe.session = none → exec (.newPassword sess pw t) s = .next ((a.set Ob.Sess.LAST_RENEWED a.now sess).emit (.reply 0xFF 0 stSafetyLocked []))) ∧
    (s.safe.session = some (n, h, u0) →
      (Answers (.safetyLogout t) s fun u => u.safe.session = none ∧ u.get Ob.Isl.SAFETY_SESSION = 0xFF ∧ replied stOk u ∧ quiet u) ∧
      (u0 + s.nat Ob.Isl.SESSION_TIMEOUT * 60000000000 ≤ a.now → Answers (.sessionTimeout t) s fun u => u.safe.session = none ∧ u.get Ob.Isl.SAFETY_SESSION = 0xFF ∧ quiet u) ∧
      (a.now < u0 + s.nat Ob.Isl.SESSION_TIMEOUT * 60000000000 → exec (.sessionTimeout t) s = .next a)) ∧
    (s.safe.lockUntil = some v →
      (v ≤ opTime a → Answers (.lockoutEnd t) s fun u => u.safe.lockUntil = none ∧ u.get Ob.Isl.LOCKOUT_LEFT = 0 ∧ ObjectsKept [Ob.Isl.LOCKOUT_LEFT.key] s u ∧ quiet u) ∧
      (opTime a < v → exec (.lockoutEnd t) s = .next a)) ∧
    (s.safe.exported ≤ v → v ≤ s.safe.seqNo → Answers (.logExported v t) s fun u => u.safe.exported = v ∧ replied stOk u ∧ quiet u) ∧
    (v < s.safe.exported ∨ s.safe.seqNo < v → exec (.logExported v t) s = .next (a.emit (.reply 0xFF 0 stRange [])))

/-! ### The redundant pair -/

/-- Pairing and the records of the bench link (R369, R371 to R376, R381, R382): a HELLO starts pairing, or fails it where both units are one end;
without a partner the unit kicks off its enabled rings alone after PAIR_WAIT, FAILED with MEDIA where the cage's module does not fit; each step of
Table 15-1 leads to the next or to a failure; agreeing digests are counted, a differing INPUT_HASH is counted and resynchronises; STATE, INPUTS,
MIRROR, EMIT and REGIONS records take effect at the standby (REGIONS at both), in time, and MIRROR is acknowledged before its reply goes out. -/
def Obligations.PairingAndRecordsFollowThePartner : Prop :=
  ∀ (s : State) (serial prio en t r n k x m crc safety fi valid brakes len : Nat) (tested away : Bool) (ids : List (List Byte)) (path : Path) (b b' recs data : List Byte) (y : AxisRt)
    (counts : List Nat) (speeds : List Int) (l : List Staged) (z : SessRt) (mst : MasterRt), unitRuns s = true →
    let a := s.at t
    let p := s.pair
    let st := s.get Ob.Pair.PAIR_STATE
    let q := s.ring r
    let standby := s.get Ob.Pair.ROLE = 2
    let enabled := s.flag Ob.PairC.PAIR_ENABLE = true
    let kept (u : State) : Prop := (∀ w, u.axis w = s.axis w) ∧ BytesKept s u
    let reply (u : State) (c : Nat) : Prop := u.out.head? = some (.reply 0xFF 0 c [])
    (enabled → s.boot.configured = true → s.get Ob.Pair.ROLE = 1 → st = 0 →
      (en ≠ s.nat Ob.PairC.UNIT_END → Answers (.hello serial prio en tested false ids t) s fun u =>
        u.get Ob.Pair.PAIR_STATE = 1 ∧ u.get Ob.Pair.PARTNER_SERIAL = serial ∧ u.pair.partner = some (serial, prio, en) ∧ u.pair.step = 2 ∧ u.benchUp = true ∧ kept u) ∧
      (en = s.nat Ob.PairC.UNIT_END → Answers (.hello serial prio en tested false ids t) s fun u => u.get Ob.Pair.PAIR_STATE = 0 ∧ u.pair.step = 0 ∧ u.out.head? = some (.event 371 0 1))) ∧
    (¬ enabled → exec (.hello serial prio en tested false ids t) s = .next a) ∧
    (p.partner = none →
      (enabled → s.boot.configured = true → s.get Ob.Pair.ROLE = 0 → s.get Ob.Rst.START_STATE = 2 → p.since + s.nat Ob.PairC.PAIR_WAIT * 1000000 ≤ a.now → Answers (.pairWait [] t) s fun u =>
        (∀ z, z < 4 → s.flag Ob.Ring.ENABLE z = true →
          (moduleOk (s.get Ob.Ring.PHY_RATE z) (s.ring z).cage = true → u.get Ob.Ring.STATE z = 1 ∧ (u.ring z).txOn = true) ∧
          (moduleOk (s.get Ob.Ring.PHY_RATE z) (s.ring z).cage = false → u.get Ob.Ring.STATE z = 6 ∧ u.get Ob.Ring.FAIL_REASON z = 2)) ∧ kept u) ∧
      (a.now < p.since + s.nat Ob.PairC.PAIR_WAIT * 1000000 → exec (.pairWait ids t) s = .next a)) ∧
    (enabled →
      ((st = 0 ∨ st = 4) → p.partner = none → Answers (.pairStart t) s fun u => u.get Ob.Pair.PAIR_STATE = 1 ∧ u.pair.step = 1 ∧ reply u stOk ∧ kept u) ∧
      (st = 5 → Answers (.pairStart t) s fun u => u.get Ob.Pair.PAIR_STATE = 3 ∧ u.pair.agree = [0, 0, 0, 0] ∧ reply u stOk ∧ kept u) ∧
      (st ≠ 0 → st ≠ 4 → st ≠ 5 → exec (.pairStart t) s = .next (a.emit (.reply 0xFF 0 stState [])))) ∧
    (st = 1 → p.step ≠ 0 →
      (p.step ≠ 2 ∨ standby ∨ (∀ z, z < 4 → s.get Ob.Ring.STATE z < 1 ∨ 4 < s.get Ob.Ring.STATE z) →
        (Answers (.pairingStepComplete false recs crc safety t) s fun u =>
          u.get Ob.Pair.PAIR_STATE = (if s.get Ob.Pair.ROLE = 1 then 0 else 4) ∧ u.pair.step = 0 ∧ u.out.head? = some (.event 371 0 p.step) ∧ u.get Ob.Pair.LAST_TRIGGER = s.get Ob.Pair.LAST_TRIGGER ∧ kept u) ∧
        (p.step = 2 ∨ p.step = 3 ∨ p.step = 5 → ¬ standby → Answers (.pairingStepComplete true recs crc safety t) s fun u => u.pair = { p with step := p.step + 1 } ∧ u.od = s.od ∧ kept u)) ∧
      (p.step = 3 → standby → s.get Ob.Sby.BENCH_ALIGN_STATE ≠ 2 → Answers (.pairingStepComplete true recs crc safety t) s fun u => u.get Ob.Pair.PAIR_STATE = 4 ∧ kept u) ∧
      (p.step = 4 → standby → Answers (.pairingStepComplete true recs crc safety t) s fun u =>
        u.pair.step = 5 ∧ u.pair.agree = [0, 0, 0, 0] ∧ (∀ z, z < 4 → s.flag Ob.Ring.ENABLE z = true → u.get Ob.Ring.STATE z = 5) ∧ kept u)) ∧
    (st ≠ 1 → exec (.pairingStepComplete true recs crc safety t) s = .next a) ∧
    (b.length = 32 → leAt b 0 1 = r → r < 4 → leAt b 4 4 = n → leAt b 28 4 = crc32c (slice b 0 28) → p.theirs = [] →
      (p.mine = [] → Answers (.digest b t) s fun u => u.pair.theirs = [(r, n, b)] ∧ u.od = s.od ∧ kept u) ∧
      (p.mine = [(r, n, b')] → st = 2 →
        (slice b' 0 28 = slice b 0 28 → p.resync = [] → Answers (.digest b t) s fun u =>
          u.pair.agree = p.agree.set r (p.agree.getD r 0 + 1) ∧ u.pair.agreedAt = some (r, n) ∧ u.get Ob.Pair.PAIR_STATE = 2 ∧ kept u) ∧
        (slice b' 8 4 ≠ slice b 8 4 → Answers (.digest b t) s fun u =>
          u.get Ob.Pair.PAIR_STATE = 3 ∧ u.get Ob.Pair.DIVERGE_INPUT = satInc 32 (s.get Ob.Pair.DIVERGE_INPUT) ∧ u.get Ob.Pair.LAST_DIVERGE_CYCLE = n ∧ u.get Ob.Pair.LAST_DIVERGE_RING = r ∧ kept u))) ∧
    (b.length ≠ 32 ∨ leAt b 28 4 ≠ crc32c (slice b 0 28) → exec (.digest b t) s = .next a) ∧
    (standby →
      (let w := s.ring (s.axisRing x)
       let installed (u : State) : Prop := u.axis x = { y with waiting := (s.axis x).waiting, undoneWhy := (s.axis x).undoneWhy } ∧ x ∉ u.pair.resync ∧ AxesKept [x] s u ∧ BytesKept s u
       x < 256 → (w.cycle = k → w.open_ = false → Answers (.stateRecord x k y t) s installed) ∧
        (w.cycle = (k + 1) % 2 ^ 32 → (s.axis x).waiting.isSome = true → axisRuns s x = false → Answers (.stateRecord x k y t) s installed) ∧
        (w.cycle ≠ k → w.cycle ≠ (k + 1) % 2 ^ 32 ∨ (s.axis x).waiting = none ∨ axisRuns s x = true → exec (.stateRecord x k y t) s = .next a)) ∧
      (Answers (.inputsRecord fi valid brakes counts speeds [] t) s fun u => u.pair.inputs = (fi, valid) ∧ u.pair.brakes.1 = brakes % 2 ^ 16 ∧ kept u ∧
        ∀ j, j < 4 → unitMode s (8 + j) ≠ 0 → u.get Ob.Fb.COUNT (16 + j) = lowBits 32 (counts.getD j 0) ∧ u.get Ob.Fb.SPEED (16 + j) = speeds.getD j 0) ∧
      (let acked (u : State) : Prop := s.benchUp = true → enabled → u.out.head? = some (.packet 2 10 [(n : Int)])
       (Answers (.mirrorRecord n (.staged l) t) s fun u => u.staged = l ∧ u.get Ob.Com.STAGED_COUNT = l.length ∧ kept u ∧ acked u) ∧
       ((s.sess k).own = false → Answers (.mirrorRecord n (.session k z []) t) s fun u => u.sess k = { z with own := false } ∧ u.staged = s.staged ∧ kept u ∧ acked u) ∧
       (Answers (.mirrorRecord n (.possession away 6 m none []) t) s fun u => u.host.away = away ∧ u.host.looseAt = m ∧ u.host.firstClaim = none ∧ u.staged = s.staged ∧ kept u ∧ acked u) ∧
       (Answers (.mirrorRecord n (.pieces k mst) t) s fun u => u.master k = mst ∧ u.staged = s.staged ∧ u.od = s.od ∧ kept u ∧ acked u) ∧
       (Answers (.mirrorRecord n (.segment r k m x len) t) s fun u => SMap.get? u.time.segD (r * 128 + k) = some (m : Int) ∧ u.staged = s.staged ∧ u.od = s.od ∧ kept u ∧ acked u)) ∧
      (r < 4 → q.cycle = n → len ≠ 0 → exec (.emitRecord r n len t) s = .next (a.modPair fun p => { p with emitAt := p.emitAt.set r (some a.now) }))) ∧
    (¬ standby → exec (.stateRecord x k y t) s = .next a ∧ exec (.inputsRecord fi valid brakes counts speeds [] t) s = .next a ∧ exec (.mirrorRecord n (.staged l) t) s = .next a ∧
      exec (.emitRecord r n len t) s = .next a) ∧
    (p.held = [(m, path, b)] → p.lone = [] → path.via < 2 → s.boot.resetDue = false → s.boot.standbyDue = false →
      (m ≤ n → Answers (.mirrorAck n t) s fun u => u.out = .linli path b :: s.out ∧ u.pair.held = [] ∧ u.od = s.od ∧ kept u) ∧
      (n < m → Answers (.mirrorAck n t) s fun u => u.out = s.out ∧ u.pair.held = p.held ∧ u.od = s.od ∧ kept u)) ∧
    (isSplit s r = true → q.cycle = n → landingOpen a r k = true → Answers (.regionsRecord r k n data t) s fun u =>
      (u.wk r k).data = data ∧ (u.wk r k).landedCycle = some n ∧ (u.wk r k).landedAt = a.now ∧ BytesKept s u) ∧
    (isSplit s r = false → exec (.regionsRecord r k n data t) s = .next a)

/-- Roles (R151, R376 to R378, R381, R384, R385, R433): a yield turns the transmitters off and takes the drive; its release makes a standby; a lost
bench link leaves LONELY or NO_PARTNER after 2 cycles; the triggers of Table 15-4 make an eligible standby active with a gap of at most 2 and are
counted in any other; drills swap the roles at a common cycle start and go back where they fail; a standby splits a ring whose frames stay out while
EMIT records come, and HEAL rejoins it. That REQUEST 7 carries the standby's readiness is assumption log 185. -/
def Obligations.RolesChangeHandsAsThePairDecides : Prop :=
  ∀ (s : State) (t since d h e r v w x : Nat) (was : Bool), unitRuns s = true →
    let a := s.at t
    let p := s.pair
    let role := s.get Ob.Pair.ROLE
    let ds := s.get Ob.PairX.DRILL_STATE
    let q := s.ring r
    let reply (u : State) (c : Nat) : Prop := u.out.head? = some (.reply 0xFF 0 c [])
    let active (trig : Nat) (u : State) : Prop :=
      u.get Ob.Pair.ROLE = 1 ∧ u.get Ob.Pair.LAST_TRIGGER = trig ∧ u.get Ob.Pair.LAST_SWITCH_TIME = a.now ∧ u.get Ob.Pair.LAST_GAP ≤ 2 ∧
      u.get Ob.Pair.SWITCH_COUNT = satInc 32 (s.get Ob.Pair.SWITCH_COUNT) ∧ (∀ z, z < 4 → s.inPlay z = true → (u.ring z).txOn = true) ∧
      (trig ≤ 3 → u.get Ob.Pair.PAIR_STATE = 0 ∧ (p.yieldIn = false → u.pair.yieldOut = true))
    let blocked (u : State) : Prop := u = a.count Ob.Pair.TAKEOVER_BLOCKED
    let triggered (c : Instr) (trig : Nat) : Prop :=
      (role = 2 → eligibleNow a = true → Answers c s (active trig)) ∧ (role = 2 → eligibleNow a = false → Answers c s blocked) ∧ (role ≠ 2 → exec c s = .next a)
    let ringsQuiet := ∀ z, z < 4 → s.get Ob.Ring.REJOIN_STATE z = 0 ∧ s.get Ob.PairX.SPLIT_STATE 0 0 z = 0
    let mayDrill := standbyEligible s = true ∧ p.peer.1 = 2 ∧ s.com.phase = 0 ∧ s.hud.active = false ∧ s.safe.test = none ∧ ringsQuiet
    (p.yieldOut = false → s.flag Ob.PairC.PAIR_ENABLE = true → s.boot.configured = true → Answers (.yieldIn t) s fun u =>
      u.get Ob.Pair.ROLE = 3 ∧ u.pair.yieldIn = true ∧ u.field.pairedDrive = false ∧ ∀ z, z < 4 → (u.ring z).txOn = false) ∧
    (p.yieldOut = true → p.partner = some (v, w, x) → unitSerial < v → exec (.yieldIn t) s = .next (a.modPair fun p => { p with yieldIn := true })) ∧
    (role = 3 → Answers (.yieldRelease t) s fun u =>
      u.get Ob.Pair.ROLE = 2 ∧ u.get Ob.Pair.PAIR_STATE = 1 ∧ u.get Ob.Sby.BENCH_ALIGN_STATE = 1 ∧ u.pair.step = 2 ∧ u.pair.yieldIn = false ∧
      ObjectsKept [Ob.Pair.ROLE.key, Ob.Pair.PAIR_STATE.key, Ob.Sby.BENCH_ALIGN_STATE.key] s u ∧ AxesKept [] s u ∧ BytesKept s u) ∧
    (role ≠ 3 → exec (.yieldRelease t) s = .next (a.modPair fun p => { p with yieldIn := false })) ∧
    (s.flag Ob.PairC.PAIR_ENABLE = true → since + 2 * slowestNs s ≤ a.now →
      (role = 2 → Answers (.benchLockLoss since t) s fun u =>
        u.get Ob.Pair.PAIR_STATE = 4 ∧ u.get Ob.Pair.ELIGIBLE = 0 ∧ u.benchUp = false ∧ u.pair.partner = none ∧ AxesKept [] s u ∧ BytesKept s u) ∧
      (role = 1 → p.held = [] → p.lone = [] → s.boot.resetDue = false → s.boot.standbyDue = false → Answers (.benchLockLoss since t) s fun u =>
        u.get Ob.Pair.PAIR_STATE = 0 ∧ u.get Ob.Pair.ELIGIBLE = 0 ∧ u.pair.partner = none ∧ u.out.head? = some (.event 376 0 0) ∧ AxesKept [] s u ∧ BytesKept s u)) ∧
    (since + 1000 ≤ a.now → r < 4 → s.inPlay r = true → silentRing a 0 r = true → triggered (.activeLost since t) 1) ∧
    (a.now < since + 1000 ∨ (∀ z, z < 4 → s.inPlay z = true → silentRing a 0 z = false) → exec (.activeLost since t) s = .next a) ∧
    (s.benchUp = true → r < 4 → s.inPlay r = true → (∀ z, z < 4 → s.inPlay z = true → silentRing a 1 z = true) → triggered (.activeStall t) 2) ∧
    (s.benchUp = false ∨ (r < 4 ∧ s.inPlay r = true ∧ silentRing a 1 r = false) → exec (.activeStall t) s = .next a) ∧
    triggered (.activeRequest t) 3 ∧ exec (.pairRequest 1 v w t) s = exec (.activeRequest t) s ∧
    (s.host.arpAt = [x] → x ≤ a.now → Answers (.gratuitousArp t) s fun u =>
      u.out = [.packet 0 11 [1, s.get Ob.Poss.SERVICE_IP], .packet 0 11 [0, s.get Ob.Poss.SERVICE_IP]] ++ s.out ∧ u.host.arpAt = [] ∧ u.od = s.od) ∧
    (s.host.arpAt = [x] → a.now < x → exec (.gratuitousArp t) s = .next a) ∧
    (mayDrill → (∀ z, z < 4 → s.inPlay z = true → 0 < s.tcyc z) → Answers (.drill t) s fun u => ∃ c : Nat,
      u.get Ob.PairX.DRILL_STATE = 1 ∧ u.get Ob.PairX.DRILL_AT = c ∧ u.pair.drill = some (c, true) ∧ reply u stOk ∧ a.now + s.nat Ob.PairC.DRILL_LEAD * slowestNs s ≤ c ∧
      (∀ z, z < 4 → s.inPlay z = true → c % s.tcyc z = 0) ∧ u.get Ob.Pair.ROLE = role ∧ AxesKept [] s u ∧ BytesKept s u) ∧
    (¬ mayDrill → Answers (.drill t) s fun u => u.get Ob.PairX.DRILL_STATE = 4 ∧ reply u stState ∧ u.pair = p ∧ ObjectsKept [Ob.PairX.DRILL_STATE.key] s u ∧ AxesKept [] s u) ∧
    (p.drill = some (d, was) → ds = 1 →
      (d ≤ a.now → was = true → role = 1 → Answers (.drillSwap t) s fun u => u.get Ob.Pair.ROLE = 2 ∧ ∀ z, z < 4 → s.inPlay z = true → (u.ring z).txOn = false) ∧
      (d ≤ a.now → was = false → role = 2 → Answers (.drillSwap t) s fun u =>
        u.get Ob.Pair.ROLE = 1 ∧ u.get Ob.Pair.LAST_TRIGGER = 4 ∧ u.get Ob.Pair.LAST_GAP = 0 ∧ u.get Ob.Pair.SWITCH_COUNT = s.get Ob.Pair.SWITCH_COUNT) ∧
      (a.now < d → exec (.drillSwap t) s = .next a) ∧
      (was = false → role = 1 → Answers (.drillBack t) s fun u => u.get Ob.Pair.ROLE = 2 ∧ u.get Ob.Pair.PAIR_STATE = 5 ∧ u.get Ob.PairX.DRILL_STATE = 3 ∧ u.pair.drill = none) ∧
      (was = true → role = 2 → Answers (.drillBack t) s fun u => active 5 u ∧ u.get Ob.PairX.DRILL_STATE = 3 ∧ u.pair.drill = none)) ∧
    (p.drill = none → exec (.drillSwap t) s = .next a ∧ exec (.drillBack t) s = .next a) ∧
    (role = 2 → s.inPlay r = true → p.emitAt.getD r none = some e → q.tw ≤ e → q.syncLost = none → q.seenAt.getD 0 < q.tw → s.get Ob.PairX.SPLIT_STATE 0 0 r = 0 →
      (0 ≤ s.get Ob.PairX.SPLIT_MARGIN → Answers (.splitStart r t) s fun u => u.get Ob.PairX.SPLIT_STATE 0 0 r = 1 ∧ (u.ring r).txOn = true ∧ AxesKept [] s u ∧ BytesKept s u) ∧
      (s.get Ob.PairX.SPLIT_MARGIN < 0 → s.get Ob.Pair.PAIR_STATE = 2 → Answers (.splitStart r t) s fun u =>
        u.get Ob.PairX.SPLIT_STATE 0 0 r = 0 ∧ u.get Ob.Pair.PAIR_STATE = 3 ∧ AxesKept [] s u ∧ BytesKept s u)) ∧
    (role ≠ 2 → exec (.splitStart r t) s = .next a) ∧
    (isSplit s r = true → (∀ y ∈ s.axesOn r, s.nat Ob.PairX.SPLIT_AT 0 0 r < s.nat Ob.Map.WORKER y → (s.axis y).mot.state = .disabled) → Answers (.healRing r t) s fun u =>
      u.get Ob.PairX.SPLIT_STATE 0 0 r = 2 ∧ u.pair.healAt = p.healAt.set r (some (a.now + 100000000)) ∧ reply u stOk ∧
      ObjectsKept [Ob.PairX.SPLIT_STATE.key 0 0 r, Ob.PairX.HEAL.key 0 0 r] s u ∧ AxesKept [] s u) ∧
    (isSplit s r = false → exec (.healRing r t) s = .next (a.emit (.reply 0xFF 0 stState []))) ∧
    (p.healAt.getD r none = some h → s.get Ob.PairX.SPLIT_STATE 0 0 r = 2 →
      (h ≤ a.now → role = 1 → Answers (.healRejoin r t) s fun u =>
        u.get Ob.Ring.REJOIN_STATE r = (if s.nat Ob.PairX.SPLIT_AT 0 0 r = 0 then 2 else 1) ∧ (u.ring r).rejoinPos = s.nat Ob.PairX.SPLIT_AT 0 0 r ∧
        u.pair.healAt = p.healAt.set r none ∧ ObjectsKept [Ob.Ring.REJOIN_STATE.key r] s u ∧ AxesKept [] s u) ∧
      (a.now < h → exec (.healRejoin r t) s = .next a)) ∧
    (role = 2 → Answers (.pairRequest 2 v w t) s fun u => u.get Ob.PairX.DRILL_STATE = 1 ∧ u.get Ob.PairX.DRILL_AT = v ∧ u.pair.drill = some (v, false)) ∧
    (v < 4 → role = 2 →
      (Answers (.pairRequest 3 v w t) s fun u => u.get Ob.PairX.SPLIT_STATE 0 0 v = 1 ∧ u.get Ob.PairX.SPLIT_AT 0 0 v = w ∧ (w = s.nWorkers v → (u.ring v).txOn = false)) ∧
      (Answers (.pairRequest 4 v w t) s fun u => u.get Ob.PairX.SPLIT_STATE 0 0 v = 0 ∧ (u.ring v).txOn = false ∧ (s.get Ob.Pair.PAIR_STATE = 2 → u.get Ob.Pair.PAIR_STATE = 3)) ∧
      (Answers (.pairRequest 6 v w t) s fun u => u.get Ob.PairX.SPLIT_STATE 0 0 v = 2 ∧ (u.ring v).txOn = false)) ∧
    (Answers (.pairRequest 5 v w t) s fun u => u.get Ob.Pair.PAIR_STATE = 3 ∧ u.pair.agree = [0, 0, 0, 0] ∧ ObjectsKept [Ob.Pair.PAIR_STATE.key] s u ∧ AxesKept [] s u) ∧
    (role = 1 → Answers (.pairRequest 7 v w t) s fun u => u.pair.peer = (v, decide (w ≠ 0)) ∧ ObjectsKept [Ob.Pair.ELIGIBLE.key] s u ∧ AxesKept [] s u)

/-! ### Observation -/

/-- Performance counters (R404, R405, R407, R421): the configuration of a counter of an idle engine is in force at once and restarts it, values out of
range are refused; CLEAR_COUNTERS returns the counters to 0, a running engine's at its item boundary; a SAMPLE counter that overflows reloads and
interrupts, an overflow still waiting is lost and counted; SAMPLE_CLEAR empties the samples. -/
def Obligations.CountersAreConfiguredClearedAndSampled : Prop :=
  ∀ (s : State) (core k w v t : Nat), unitRuns s = true →
    let a := s.at t
    let x := s.ace core
    let reply (u : State) (c : Nat) : Prop := u.out.head? = some (.reply 0xFF 0 c [])
    let idle := (s.eng core).run = none
    (pmcCfgOk (decide (8 ≤ core)) w = false → exec (.pmcCfg core k w t) s = .next (a.emit (.reply 0xFF 0 stRange []))) ∧
    (pmcCfgOk (decide (8 ≤ core)) w = true → k < 8 →
      (core < 8 → Answers (.pmcCfg core k w t) s fun u => u.get Ob.Core.PMC_CFG core 0 k = w ∧ reply u stOk ∧ AxesKept [] s u ∧ BytesKept s u ∧
        (idle → x.periodNext = none → x.cfgNext = [] → x.clearNext = false →
          SMap.getD (u.ace core).cfg k 0 = w ∧ SMap.getD (u.ace core).pmc k 0 = if bit w 15 then 2 ^ 48 - x.period else 0)) ∧
      (8 ≤ core → core < 12 → Answers (.pmcCfg core k w t) s fun u =>
        u.get Ob.CoreMc.PMC_CFG (core - 8) 0 k = w ∧ u.get Ob.CoreMc.PMC (core - 8) 0 k = 0 ∧ reply u stOk ∧ AxesKept [] s u ∧ BytesKept s u)) ∧
    (v < 4096 ∨ 2 ^ 32 ≤ v → exec (.samplePeriod core v t) s = .next (a.emit (.reply 0xFF 0 stRange []))) ∧
    (core < 8 → 4096 ≤ v → v < 2 ^ 32 → Answers (.samplePeriod core v t) s fun u =>
      u.get Ob.Core.SAMPLE_PERIOD core = v ∧ reply u stOk ∧ (idle → (u.ace core).period = v) ∧ AxesKept [] s u ∧ BytesKept s u) ∧
    (core < 8 → Answers (.clearCounters t) s fun u =>
      reply u stOk ∧ (∀ c j, c < 4 → j < 8 → u.get Ob.CoreMc.PMC c 0 j = 0 ∧ u.get Ob.CoreMc.CYCLE c = 0) ∧ AxesKept [] s u ∧ BytesKept s u ∧
      (idle → (u.ace core).cycle = 0 ∧ (u.ace core).pmc = [] ∧ (u.ace core).slots = []) ∧ (¬ idle → (u.ace core).clearNext = true ∧ (u.ace core).pmc = x.pmc)) ∧
    (bit (SMap.getD x.cfg k 0) 15 = false → exec (.pmcOverflow core k t) s = .next a) ∧
    (bit (SMap.getD x.cfg k 0) 15 = true → Answers (.pmcOverflow core k t) s fun u =>
      SMap.getD (u.ace core).pmc k 0 = 2 ^ 48 - x.period ∧ k ∈ (u.ace core).ovf ∧ bit (u.ace core).irq 1 = true ∧ (u.ace core).g = x.g ∧
      u.get Ob.Cnt.SAMPLES_LOST = (if k ∈ x.ovf then satInc 32 (s.get Ob.Cnt.SAMPLES_LOST) else s.get Ob.Cnt.SAMPLES_LOST) ∧ ObjectsKept [Ob.Cnt.SAMPLES_LOST.key] s u ∧ BytesKept s u) ∧
    (Answers (.sampleClear t) s fun u => u.bytes Ob.Cnt.SAMPLES = [] ∧ reply u stOk ∧ ObjectsKept [Ob.Cnt.SAMPLES.key, Ob.Cnt.SAMPLE_CLEAR.key] s u ∧ AxesKept [] s u ∧ BytesKept s u)

/-- Capture, trace, frequency response and injection (R410 to R420): ARM starts a capture whose configuration fits, is refused with BUSY or RANGE
otherwise and ends one in progress; a tick that is due samples, and triggers on an immediate trigger; TRACE_ARM starts or aborts a trace; FRF_START
needs a complete trace and no computation in progress, whose end shows its result or its failure; injection ends DONE at its duration and STOPPED
where its axis is not ENABLED. -/
def Obligations.CaptureTraceResponseAndInjectionRun : Prop :=
  ∀ (s : State) (c : CapCfg) (outside : List Int) (full : Bool) (fail t : Nat) (b : List Byte), unitRuns s = true →
    let a := s.at t
    let st := s.get Ob.Capt.STATE
    let k := s.obs.cap
    let j := s.obs.inj
    let ax := (s.axis (s.nat Ob.Inj.INJ_AXIS)).mot.state
    let reply (u : State) (c : Nat) : Prop := u.out.head? = some (.reply 0xFF 0 c [])
    let kept (u : State) : Prop := AxesKept [] s u ∧ BytesKept s u
    (st = 1 ∨ st = 2 → exec (.captureArm true t) s = .next (a.emit (.reply 0xFF 0 stBusy [])) ∧
      Answers (.captureArm false t) s fun u => u.get Ob.Capt.STATE = 5 ∧ reply u stOk ∧ ObjectsKept [Ob.Capt.STATE.key, Ob.Capt.ARM.key] s u ∧ kept u) ∧
    (st ≠ 1 → st ≠ 2 →
      (capRefused (capConfig s) = true → exec (.captureArm true t) s = .next (a.emit (.reply 0xFF 0 stRange []))) ∧
      (capRefused (capConfig s) = false → Answers (.captureArm true t) s fun u =>
        u.get Ob.Capt.STATE = 1 ∧ u.obs.cap.cfg = some (capConfig s) ∧ u.obs.cap.ticks = 0 ∧ u.obs.cap.recs = [] ∧ u.get Ob.Capt.RECORD_BYTES = recordBytes (capConfig s).srcs ∧
        u.get Ob.Capt.RECORDS_STORED = 0 ∧ u.get Ob.Capt.OVERFLOW_INDEX = 0xFFFFFFFF ∧ reply u stOk ∧ kept u)) ∧
    (k.cfg = some c →
      (st ≠ 1 → st ≠ 2 → exec (.captureTick outside full t) s = .next a) ∧ (capTickDue a c = false → exec (.captureTick outside full t) s = .next a) ∧
      (st = 1 → capTickDue a c = true → c.kind = 0 → Answers (.captureTick outside full t) s fun u =>
        u.obs.cap.ticks = k.ticks + 1 ∧ u.obs.cap.trig = some (k.ticks / 2 ^ c.avg) ∧ u.get Ob.Capt.TRIGGER_INDEX = (k.ticks / 2 ^ c.avg : Nat) ∧ u.get Ob.Capt.TRIGGER_TIME = a.now ∧
        (k.ticks = 0 → u.get Ob.Capt.START_TIME = a.now) ∧ (u.get Ob.Capt.STATE = 2 ∨ u.get Ob.Capt.STATE = 3 ∨ u.get Ob.Capt.STATE = 4) ∧ kept u)) ∧
    (Answers (.traceArm true t) s fun u => u.get Ob.Trc.TRACE_STATE = 1 ∧ u.obs.trc.armedAt = a.now ∧ u.obs.trc.data = [] ∧ u.obs.trc.depth = s.nat Ob.Trc.TRACE_DEPTH ∧
      u.get Ob.Trc.UNDONE_OVER = 0 ∧ reply u stOk ∧ kept u) ∧
    (Answers (.traceArm false t) s fun u => u.get Ob.Trc.TRACE_STATE = (if s.get Ob.Trc.TRACE_STATE = 1 ∨ s.get Ob.Trc.TRACE_STATE = 2 then 4 else s.get Ob.Trc.TRACE_STATE) ∧
      u.obs = s.obs ∧ reply u stOk ∧ ObjectsKept [Ob.Trc.TRACE_STATE.key, Ob.Trc.TRACE_ARM.key] s u ∧ kept u) ∧
    (s.get Ob.Frf.FRF_STATE = 1 → exec (.frfStart t) s = .next (a.emit (.reply 0xFF 0 stBusy []))) ∧
    (s.get Ob.Frf.FRF_STATE ≠ 1 →
      (s.get Ob.Trc.TRACE_STATE ≠ 3 → exec (.frfStart t) s = .next (a.emit (.reply 0xFF 0 stState []))) ∧
      (s.get Ob.Trc.TRACE_STATE = 3 → Answers (.frfStart t) s fun u =>
        u.get Ob.Frf.FRF_STATE = 1 ∧ u.obs.frf = some (frfCompute a) ∧ reply u stOk ∧ ObjectsKept [Ob.Frf.FRF_STATE.key, Ob.Frf.FRF_START.key] s u ∧ kept u)) ∧
    (s.obs.frf = none → exec (.frfDone t) s = .next a) ∧
    (s.obs.frf = some (fail, b) → Answers (.frfDone t) s fun u =>
      u.get Ob.Frf.FRF_FAIL = fail ∧ u.get Ob.Frf.FRF_STATE = (if fail = 0 then 2 else 3) ∧ u.obs.frf = none ∧ (fail = 0 → u.bytes Ob.Frf.FRF_RESULT = b) ∧ kept u) ∧
    (j.on = false → exec (.injectionEnd t) s = .next a) ∧
    (j.on = true →
      (ax ≠ .enabled → Answers (.injectionEnd t) s fun u => u.get Ob.Inj.INJ_STATE = 3 ∧ u.obs.inj.on = false ∧ ObjectsKept [Ob.Inj.INJ_STATE.key] s u ∧ kept u) ∧
      (ax = .enabled → s.get Ob.Inj.INJ_SIGNAL ≠ 2 → j.t0 + s.nat Ob.Inj.DURATION * 1000000 ≤ a.now → Answers (.injectionEnd t) s fun u =>
        u.get Ob.Inj.INJ_STATE = 2 ∧ u.obs.inj.on = false ∧ ObjectsKept [Ob.Inj.INJ_STATE.key] s u ∧ kept u))
end

