-- ==== Sys2Proof/Laws/Memory.lean ====
section
/-! SUPPORT. Byte memories: reading after writing, and the canonical form, which every memory operation keeps. -/

namespace Sys2Proof.Machine

/-- A byte below the first listed address reads 0. -/
theorem Mem.get_of_lt (m : Mem) (lo a : Nat) (h : Mem.wfFrom lo m = true) (ha : a < lo) : m.get a = 0 := by
  induction m generalizing lo with
  | nil => rfl
  | cons e t ih =>
    obtain ⟨k, v⟩ := e
    simp only [Mem.wfFrom, Bool.and_eq_true, decide_eq_true_eq] at h
    unfold Mem.get
    rw [if_neg (by omega)]
    exact ih (k + 1) h.2 (by omega)

/-- A byte read after one is set, in a memory of canonical form. -/
theorem Mem.get_set_from (m : Mem) (lo a c : Nat) (b : Byte) (h : Mem.wfFrom lo m = true) :
    (m.set a b).get c = if c = a then b else m.get c := by
  induction m generalizing lo with
  | nil =>
    unfold Mem.set
    by_cases hb : b = 0#8 <;> by_cases hc : c = a <;> simp [Mem.get, hb, hc]
  | cons e t ih =>
    obtain ⟨k, v⟩ := e
    simp only [Mem.wfFrom, Bool.and_eq_true, decide_eq_true_eq] at h
    have hk : Mem.get t k = 0 := Mem.get_of_lt t (k + 1) k h.2 (by omega)
    unfold Mem.set
    by_cases hak : a = k
    · subst hak
      by_cases hb : b = 0#8 <;> by_cases hc : c = a <;> simp [Mem.get, hb, hc, hk]
    · by_cases hlt : a < k
      · have ha : Mem.get t a = 0 := Mem.get_of_lt t (k + 1) a h.2 (by omega)
        by_cases hb : b = 0#8 <;> by_cases hc : c = a <;> simp [Mem.get, hak, hlt, hb, hc, ha]
      · have := ih (k + 1) h.2
        by_cases hc : c = k
        · subst hc
          simp [Mem.get, hak, hlt, Ne.symm hak]
        · simp [Mem.get, hak, hlt, hc, this]

/-- A byte read after one is set. -/
theorem Mem.get_set (m : Mem) (a c : Nat) (b : Byte) (h : m.wf = true) : (m.set a b).get c = if c = a then b else m.get c :=
  Mem.get_set_from m 0 a c b h

/-- A weaker bound of the first address. -/
theorem Mem.wfFrom_mono (m : Mem) (lo lo' : Nat) (hl : lo' ≤ lo) (h : Mem.wfFrom lo m = true) : Mem.wfFrom lo' m = true := by
  cases m with
  | nil => rfl
  | cons e t =>
    obtain ⟨k, v⟩ := e
    simp only [Mem.wfFrom, Bool.and_eq_true, decide_eq_true_eq] at h ⊢
    exact ⟨⟨by omega, h.1.2⟩, h.2⟩

/-- Setting a byte keeps the canonical form. -/
theorem Mem.wfFrom_set (m : Mem) (lo a : Nat) (b : Byte) (h : Mem.wfFrom lo m = true) (ha : lo ≤ a) : Mem.wfFrom lo (m.set a b) = true := by
  induction m generalizing lo with
  | nil =>
    unfold Mem.set
    split <;> simp_all [Mem.wfFrom]
  | cons e t ih =>
    obtain ⟨k, v⟩ := e
    simp only [Mem.wfFrom, Bool.and_eq_true, decide_eq_true_eq] at h
    unfold Mem.set
    split
    · rename_i hak
      subst hak
      split
      · exact Mem.wfFrom_mono t (a + 1) lo (by omega) h.2
      · simp only [Mem.wfFrom, Bool.and_eq_true, decide_eq_true_eq]; exact ⟨⟨ha, ‹_›⟩, h.2⟩
    · split
      · split
        · simp only [Mem.wfFrom, Bool.and_eq_true, decide_eq_true_eq]; exact h
        · simp only [Mem.wfFrom, Bool.and_eq_true, decide_eq_true_eq]
          exact ⟨⟨ha, ‹_›⟩, ⟨by omega, h.1.2⟩, h.2⟩
      · simp only [Mem.wfFrom, Bool.and_eq_true, decide_eq_true_eq]
        exact ⟨h.1, ih (k + 1) h.2 (by omega)⟩

/-- Setting a byte keeps the canonical form. -/
theorem Mem.wf_set (m : Mem) (a : Nat) (b : Byte) (h : m.wf = true) : (m.set a b).wf = true := Mem.wfFrom_set m 0 a b h (by omega)

/-- Writing bytes of a number keeps the canonical form. -/
theorem Mem.wf_write (m : Mem) (a n x : Nat) (h : m.wf = true) : (m.write a n x).wf = true := by
  induction n generalizing m a x with
  | zero => exact h
  | succ n ih => exact ih _ _ _ (Mem.wf_set m a _ h)

/-- Writing a list of bytes keeps the canonical form. -/
theorem Mem.wf_writeBytes (m : Mem) (a : Nat) (b : List Byte) (h : m.wf = true) : (m.writeBytes a b).wf = true := by
  induction b generalizing m a with
  | nil => exact h
  | cons c t ih => exact ih _ _ (Mem.wf_set m a c h)

/-- Copying bytes keeps the canonical form of the memory written. -/
theorem Mem.wf_copy (src : Mem) (a : Nat) (dst : Mem) (b n : Nat) (h : dst.wf = true) : (Mem.copy src a dst b n).wf = true := by
  induction n generalizing a dst b with
  | zero => exact h
  | succ n ih => exact ih _ _ _ (Mem.wf_set dst b _ h)

/-- A byte outside the `n` bytes written reads as before. -/
theorem Mem.get_write_out (m : Mem) (a n x c : Nat) (h : m.wf = true) (hc : c < a ∨ a + n ≤ c) : (m.write a n x).get c = m.get c := by
  induction n generalizing m a x with
  | zero => rfl
  | succ n ih =>
    unfold Mem.write
    rw [ih _ _ _ (Mem.wf_set m a _ h) (by omega), Mem.get_set m a c _ h, if_neg (by omega)]

/-- A number read back where it was written: its low `n` bytes. -/
theorem Mem.read_write (m : Mem) (a n x : Nat) (h : m.wf = true) : Mem.read (m.write a n x) a n = x % 256 ^ n := by
  induction n generalizing m a x with
  | zero => simp [Mem.read, Nat.mod_one]
  | succ n ih =>
    unfold Mem.write Mem.read
    rw [ih _ _ _ (Mem.wf_set m a _ h), Mem.get_write_out _ _ _ _ _ (Mem.wf_set m a _ h) (by omega), Mem.get_set m a a _ h, if_pos rfl]
    rw [BitVec.toNat_ofNat, show 256 ^ (n + 1) = 256 * 256 ^ n from by ring, Nat.mod_mul]

/-- Bytes outside a write do not change what is read. -/
theorem Mem.read_write_out (m : Mem) (a n x b w : Nat) (h : m.wf = true) (hd : b + w ≤ a ∨ a + n ≤ b) :
    Mem.read (m.write a n x) b w = Mem.read m b w := by
  induction w generalizing b with
  | zero => rfl
  | succ w ih =>
    unfold Mem.read
    rw [Mem.get_write_out m a n x b h (by omega), ih (b + 1) (by omega)]

/-- The memories after reset are in canonical form. -/
theorem State.reset_mem_wf : (Mem.wf State.reset.shared = true) ∧ (Mem.wf State.reset.ucode = true) ∧ State.reset.aces = [] := by decide

end Sys2Proof.Machine
end

