-- ==== Sys2Proof/Laws/State.lean ====
section
/-! SUPPORT. What each update of the state leaves as it was: one lemma per field per update, and the readings of the dictionary
and of the tables. -/

namespace Sys2Proof.Machine

/-! ### State.putVal -/

@[simp] theorem State.putVal_pending (s : State) (key : Nat) (v : Val) : (s.putVal key v).pending = s.pending := rfl
@[simp] theorem State.putVal_now (s : State) (key : Nat) (v : Val) : (s.putVal key v).now = s.now := rfl
@[simp] theorem State.putVal_frac (s : State) (key : Nat) (v : Val) : (s.putVal key v).frac = s.frac := rfl
@[simp] theorem State.putVal_free (s : State) (key : Nat) (v : Val) : (s.putVal key v).free = s.free := rfl
@[simp] theorem State.putVal_out (s : State) (key : Nat) (v : Val) : (s.putVal key v).out = s.out := rfl
@[simp] theorem State.putVal_staged (s : State) (key : Nat) (v : Val) : (s.putVal key v).staged = s.staged := rfl
@[simp] theorem State.putVal_snaps (s : State) (key : Nat) (v : Val) : (s.putVal key v).snaps = s.snaps := rfl
@[simp] theorem State.putVal_axes (s : State) (key : Nat) (v : Val) : (s.putVal key v).axes = s.axes := rfl
@[simp] theorem State.putVal_fbs (s : State) (key : Nat) (v : Val) : (s.putVal key v).fbs = s.fbs := rfl
@[simp] theorem State.putVal_lats (s : State) (key : Nat) (v : Val) : (s.putVal key v).lats = s.lats := rfl
@[simp] theorem State.putVal_cmps (s : State) (key : Nat) (v : Val) : (s.putVal key v).cmps = s.cmps := rfl
@[simp] theorem State.putVal_msts (s : State) (key : Nat) (v : Val) : (s.putVal key v).msts = s.msts := rfl
@[simp] theorem State.putVal_disp (s : State) (key : Nat) (v : Val) : (s.putVal key v).disp = s.disp := rfl
@[simp] theorem State.putVal_engs (s : State) (key : Nat) (v : Val) : (s.putVal key v).engs = s.engs := rfl
@[simp] theorem State.putVal_aces (s : State) (key : Nat) (v : Val) : (s.putVal key v).aces = s.aces := rfl
@[simp] theorem State.putVal_shared (s : State) (key : Nat) (v : Val) : (s.putVal key v).shared = s.shared := rfl
@[simp] theorem State.putVal_ucode (s : State) (key : Nat) (v : Val) : (s.putVal key v).ucode = s.ucode := rfl
@[simp] theorem State.putVal_eps (s : State) (key : Nat) (v : Val) : (s.putVal key v).eps = s.eps := rfl
@[simp] theorem State.putVal_field (s : State) (key : Nat) (v : Val) : (s.putVal key v).field = s.field := rfl
@[simp] theorem State.putVal_time (s : State) (key : Nat) (v : Val) : (s.putVal key v).time = s.time := rfl
@[simp] theorem State.putVal_obs (s : State) (key : Nat) (v : Val) : (s.putVal key v).obs = s.obs := rfl
@[simp] theorem State.putVal_safe (s : State) (key : Nat) (v : Val) : (s.putVal key v).safe = s.safe := rfl
@[simp] theorem State.putVal_debugger (s : State) (key : Nat) (v : Val) : (s.putVal key v).debugger = s.debugger := rfl
@[simp] theorem State.putVal_benchUp (s : State) (key : Nat) (v : Val) : (s.putVal key v).benchUp = s.benchUp := rfl
@[simp] theorem State.putVal_ports (s : State) (key : Nat) (v : Val) : (s.putVal key v).ports = s.ports := rfl
@[simp] theorem State.putVal_rings (s : State) (key : Nat) (v : Val) : (s.putVal key v).rings = s.rings := rfl
@[simp] theorem State.putVal_wks (s : State) (key : Nat) (v : Val) : (s.putVal key v).wks = s.wks := rfl
@[simp] theorem State.putVal_hud (s : State) (key : Nat) (v : Val) : (s.putVal key v).hud = s.hud := rfl
@[simp] theorem State.putVal_com (s : State) (key : Nat) (v : Val) : (s.putVal key v).com = s.com := rfl
@[simp] theorem State.putVal_store (s : State) (key : Nat) (v : Val) : (s.putVal key v).store = s.store := rfl
@[simp] theorem State.putVal_pair (s : State) (key : Nat) (v : Val) : (s.putVal key v).pair = s.pair := rfl
@[simp] theorem State.putVal_host (s : State) (key : Nat) (v : Val) : (s.putVal key v).host = s.host := rfl
@[simp] theorem State.putVal_boot (s : State) (key : Nat) (v : Val) : (s.putVal key v).boot = s.boot := rfl
@[simp] theorem State.putVal_axis (s : State) (key : Nat) (v : Val) (q : Nat) : (s.putVal key v).axis q = s.axis q := rfl
@[simp] theorem State.putVal_fbu (s : State) (key : Nat) (v : Val) (q : Nat) : (s.putVal key v).fbu q = s.fbu q := rfl
@[simp] theorem State.putVal_latch (s : State) (key : Nat) (v : Val) (q : Nat) : (s.putVal key v).latch q = s.latch q := rfl
@[simp] theorem State.putVal_cmp (s : State) (key : Nat) (v : Val) (q : Nat) : (s.putVal key v).cmp q = s.cmp q := rfl
@[simp] theorem State.putVal_master (s : State) (key : Nat) (v : Val) (q : Nat) : (s.putVal key v).master q = s.master q := rfl
@[simp] theorem State.putVal_eng (s : State) (key : Nat) (v : Val) (q : Nat) : (s.putVal key v).eng q = s.eng q := rfl
@[simp] theorem State.putVal_ace (s : State) (key : Nat) (v : Val) (q : Nat) : (s.putVal key v).ace q = s.ace q := rfl
@[simp] theorem State.putVal_ep (s : State) (key : Nat) (v : Val) (q : Nat) : (s.putVal key v).ep q = s.ep q := rfl
@[simp] theorem State.putVal_port (s : State) (key : Nat) (v : Val) (q : Nat) : (s.putVal key v).port q = s.port q := rfl
@[simp] theorem State.putVal_ring (s : State) (key : Nat) (v : Val) (q : Nat) : (s.putVal key v).ring q = s.ring q := rfl
@[simp] theorem State.putVal_wk (s : State) (key : Nat) (v : Val) (q q' : Nat) : (s.putVal key v).wk q q' = s.wk q q' := rfl

/-! ### State.set -/

@[simp] theorem State.set_pending (s : State) (o : Obj) (v : Int) (i j k : Nat) : (s.set o v i j k).pending = s.pending := rfl
@[simp] theorem State.set_now (s : State) (o : Obj) (v : Int) (i j k : Nat) : (s.set o v i j k).now = s.now := rfl
@[simp] theorem State.set_frac (s : State) (o : Obj) (v : Int) (i j k : Nat) : (s.set o v i j k).frac = s.frac := rfl
@[simp] theorem State.set_free (s : State) (o : Obj) (v : Int) (i j k : Nat) : (s.set o v i j k).free = s.free := rfl
@[simp] theorem State.set_out (s : State) (o : Obj) (v : Int) (i j k : Nat) : (s.set o v i j k).out = s.out := rfl
@[simp] theorem State.set_staged (s : State) (o : Obj) (v : Int) (i j k : Nat) : (s.set o v i j k).staged = s.staged := rfl
@[simp] theorem State.set_snaps (s : State) (o : Obj) (v : Int) (i j k : Nat) : (s.set o v i j k).snaps = s.snaps := rfl
@[simp] theorem State.set_axes (s : State) (o : Obj) (v : Int) (i j k : Nat) : (s.set o v i j k).axes = s.axes := rfl
@[simp] theorem State.set_fbs (s : State) (o : Obj) (v : Int) (i j k : Nat) : (s.set o v i j k).fbs = s.fbs := rfl
@[simp] theorem State.set_lats (s : State) (o : Obj) (v : Int) (i j k : Nat) : (s.set o v i j k).lats = s.lats := rfl
@[simp] theorem State.set_cmps (s : State) (o : Obj) (v : Int) (i j k : Nat) : (s.set o v i j k).cmps = s.cmps := rfl
@[simp] theorem State.set_msts (s : State) (o : Obj) (v : Int) (i j k : Nat) : (s.set o v i j k).msts = s.msts := rfl
@[simp] theorem State.set_disp (s : State) (o : Obj) (v : Int) (i j k : Nat) : (s.set o v i j k).disp = s.disp := rfl
@[simp] theorem State.set_engs (s : State) (o : Obj) (v : Int) (i j k : Nat) : (s.set o v i j k).engs = s.engs := rfl
@[simp] theorem State.set_aces (s : State) (o : Obj) (v : Int) (i j k : Nat) : (s.set o v i j k).aces = s.aces := rfl
@[simp] theorem State.set_shared (s : State) (o : Obj) (v : Int) (i j k : Nat) : (s.set o v i j k).shared = s.shared := rfl
@[simp] theorem State.set_ucode (s : State) (o : Obj) (v : Int) (i j k : Nat) : (s.set o v i j k).ucode = s.ucode := rfl
@[simp] theorem State.set_eps (s : State) (o : Obj) (v : Int) (i j k : Nat) : (s.set o v i j k).eps = s.eps := rfl
@[simp] theorem State.set_field (s : State) (o : Obj) (v : Int) (i j k : Nat) : (s.set o v i j k).field = s.field := rfl
@[simp] theorem State.set_time (s : State) (o : Obj) (v : Int) (i j k : Nat) : (s.set o v i j k).time = s.time := rfl
@[simp] theorem State.set_obs (s : State) (o : Obj) (v : Int) (i j k : Nat) : (s.set o v i j k).obs = s.obs := rfl
@[simp] theorem State.set_safe (s : State) (o : Obj) (v : Int) (i j k : Nat) : (s.set o v i j k).safe = s.safe := rfl
@[simp] theorem State.set_debugger (s : State) (o : Obj) (v : Int) (i j k : Nat) : (s.set o v i j k).debugger = s.debugger := rfl
@[simp] theorem State.set_benchUp (s : State) (o : Obj) (v : Int) (i j k : Nat) : (s.set o v i j k).benchUp = s.benchUp := rfl
@[simp] theorem State.set_ports (s : State) (o : Obj) (v : Int) (i j k : Nat) : (s.set o v i j k).ports = s.ports := rfl
@[simp] theorem State.set_rings (s : State) (o : Obj) (v : Int) (i j k : Nat) : (s.set o v i j k).rings = s.rings := rfl
@[simp] theorem State.set_wks (s : State) (o : Obj) (v : Int) (i j k : Nat) : (s.set o v i j k).wks = s.wks := rfl
@[simp] theorem State.set_hud (s : State) (o : Obj) (v : Int) (i j k : Nat) : (s.set o v i j k).hud = s.hud := rfl
@[simp] theorem State.set_com (s : State) (o : Obj) (v : Int) (i j k : Nat) : (s.set o v i j k).com = s.com := rfl
@[simp] theorem State.set_store (s : State) (o : Obj) (v : Int) (i j k : Nat) : (s.set o v i j k).store = s.store := rfl
@[simp] theorem State.set_pair (s : State) (o : Obj) (v : Int) (i j k : Nat) : (s.set o v i j k).pair = s.pair := rfl
@[simp] theorem State.set_host (s : State) (o : Obj) (v : Int) (i j k : Nat) : (s.set o v i j k).host = s.host := rfl
@[simp] theorem State.set_boot (s : State) (o : Obj) (v : Int) (i j k : Nat) : (s.set o v i j k).boot = s.boot := rfl
@[simp] theorem State.set_axis (s : State) (o : Obj) (v : Int) (i j k : Nat) (q : Nat) : (s.set o v i j k).axis q = s.axis q := rfl
@[simp] theorem State.set_fbu (s : State) (o : Obj) (v : Int) (i j k : Nat) (q : Nat) : (s.set o v i j k).fbu q = s.fbu q := rfl
@[simp] theorem State.set_latch (s : State) (o : Obj) (v : Int) (i j k : Nat) (q : Nat) : (s.set o v i j k).latch q = s.latch q := rfl
@[simp] theorem State.set_cmp (s : State) (o : Obj) (v : Int) (i j k : Nat) (q : Nat) : (s.set o v i j k).cmp q = s.cmp q := rfl
@[simp] theorem State.set_master (s : State) (o : Obj) (v : Int) (i j k : Nat) (q : Nat) : (s.set o v i j k).master q = s.master q := rfl
@[simp] theorem State.set_eng (s : State) (o : Obj) (v : Int) (i j k : Nat) (q : Nat) : (s.set o v i j k).eng q = s.eng q := rfl
@[simp] theorem State.set_ace (s : State) (o : Obj) (v : Int) (i j k : Nat) (q : Nat) : (s.set o v i j k).ace q = s.ace q := rfl
@[simp] theorem State.set_ep (s : State) (o : Obj) (v : Int) (i j k : Nat) (q : Nat) : (s.set o v i j k).ep q = s.ep q := rfl
@[simp] theorem State.set_port (s : State) (o : Obj) (v : Int) (i j k : Nat) (q : Nat) : (s.set o v i j k).port q = s.port q := rfl
@[simp] theorem State.set_ring (s : State) (o : Obj) (v : Int) (i j k : Nat) (q : Nat) : (s.set o v i j k).ring q = s.ring q := rfl
@[simp] theorem State.set_wk (s : State) (o : Obj) (v : Int) (i j k : Nat) (q q' : Nat) : (s.set o v i j k).wk q q' = s.wk q q' := rfl

/-! ### State.setBytes -/

@[simp] theorem State.setBytes_pending (s : State) (o : Obj) (b : List Byte) (i j k : Nat) : (s.setBytes o b i j k).pending = s.pending := rfl
@[simp] theorem State.setBytes_now (s : State) (o : Obj) (b : List Byte) (i j k : Nat) : (s.setBytes o b i j k).now = s.now := rfl
@[simp] theorem State.setBytes_frac (s : State) (o : Obj) (b : List Byte) (i j k : Nat) : (s.setBytes o b i j k).frac = s.frac := rfl
@[simp] theorem State.setBytes_free (s : State) (o : Obj) (b : List Byte) (i j k : Nat) : (s.setBytes o b i j k).free = s.free := rfl
@[simp] theorem State.setBytes_out (s : State) (o : Obj) (b : List Byte) (i j k : Nat) : (s.setBytes o b i j k).out = s.out := rfl
@[simp] theorem State.setBytes_staged (s : State) (o : Obj) (b : List Byte) (i j k : Nat) : (s.setBytes o b i j k).staged = s.staged := rfl
@[simp] theorem State.setBytes_snaps (s : State) (o : Obj) (b : List Byte) (i j k : Nat) : (s.setBytes o b i j k).snaps = s.snaps := rfl
@[simp] theorem State.setBytes_axes (s : State) (o : Obj) (b : List Byte) (i j k : Nat) : (s.setBytes o b i j k).axes = s.axes := rfl
@[simp] theorem State.setBytes_fbs (s : State) (o : Obj) (b : List Byte) (i j k : Nat) : (s.setBytes o b i j k).fbs = s.fbs := rfl
@[simp] theorem State.setBytes_lats (s : State) (o : Obj) (b : List Byte) (i j k : Nat) : (s.setBytes o b i j k).lats = s.lats := rfl
@[simp] theorem State.setBytes_cmps (s : State) (o : Obj) (b : List Byte) (i j k : Nat) : (s.setBytes o b i j k).cmps = s.cmps := rfl
@[simp] theorem State.setBytes_msts (s : State) (o : Obj) (b : List Byte) (i j k : Nat) : (s.setBytes o b i j k).msts = s.msts := rfl
@[simp] theorem State.setBytes_disp (s : State) (o : Obj) (b : List Byte) (i j k : Nat) : (s.setBytes o b i j k).disp = s.disp := rfl
@[simp] theorem State.setBytes_engs (s : State) (o : Obj) (b : List Byte) (i j k : Nat) : (s.setBytes o b i j k).engs = s.engs := rfl
@[simp] theorem State.setBytes_aces (s : State) (o : Obj) (b : List Byte) (i j k : Nat) : (s.setBytes o b i j k).aces = s.aces := rfl
@[simp] theorem State.setBytes_shared (s : State) (o : Obj) (b : List Byte) (i j k : Nat) : (s.setBytes o b i j k).shared = s.shared := rfl
@[simp] theorem State.setBytes_ucode (s : State) (o : Obj) (b : List Byte) (i j k : Nat) : (s.setBytes o b i j k).ucode = s.ucode := rfl
@[simp] theorem State.setBytes_eps (s : State) (o : Obj) (b : List Byte) (i j k : Nat) : (s.setBytes o b i j k).eps = s.eps := rfl
@[simp] theorem State.setBytes_field (s : State) (o : Obj) (b : List Byte) (i j k : Nat) : (s.setBytes o b i j k).field = s.field := rfl
@[simp] theorem State.setBytes_time (s : State) (o : Obj) (b : List Byte) (i j k : Nat) : (s.setBytes o b i j k).time = s.time := rfl
@[simp] theorem State.setBytes_obs (s : State) (o : Obj) (b : List Byte) (i j k : Nat) : (s.setBytes o b i j k).obs = s.obs := rfl
@[simp] theorem State.setBytes_safe (s : State) (o : Obj) (b : List Byte) (i j k : Nat) : (s.setBytes o b i j k).safe = s.safe := rfl
@[simp] theorem State.setBytes_debugger (s : State) (o : Obj) (b : List Byte) (i j k : Nat) : (s.setBytes o b i j k).debugger = s.debugger := rfl
@[simp] theorem State.setBytes_benchUp (s : State) (o : Obj) (b : List Byte) (i j k : Nat) : (s.setBytes o b i j k).benchUp = s.benchUp := rfl
@[simp] theorem State.setBytes_ports (s : State) (o : Obj) (b : List Byte) (i j k : Nat) : (s.setBytes o b i j k).ports = s.ports := rfl
@[simp] theorem State.setBytes_rings (s : State) (o : Obj) (b : List Byte) (i j k : Nat) : (s.setBytes o b i j k).rings = s.rings := rfl
@[simp] theorem State.setBytes_wks (s : State) (o : Obj) (b : List Byte) (i j k : Nat) : (s.setBytes o b i j k).wks = s.wks := rfl
@[simp] theorem State.setBytes_hud (s : State) (o : Obj) (b : List Byte) (i j k : Nat) : (s.setBytes o b i j k).hud = s.hud := rfl
@[simp] theorem State.setBytes_com (s : State) (o : Obj) (b : List Byte) (i j k : Nat) : (s.setBytes o b i j k).com = s.com := rfl
@[simp] theorem State.setBytes_store (s : State) (o : Obj) (b : List Byte) (i j k : Nat) : (s.setBytes o b i j k).store = s.store := rfl
@[simp] theorem State.setBytes_pair (s : State) (o : Obj) (b : List Byte) (i j k : Nat) : (s.setBytes o b i j k).pair = s.pair := rfl
@[simp] theorem State.setBytes_host (s : State) (o : Obj) (b : List Byte) (i j k : Nat) : (s.setBytes o b i j k).host = s.host := rfl
@[simp] theorem State.setBytes_boot (s : State) (o : Obj) (b : List Byte) (i j k : Nat) : (s.setBytes o b i j k).boot = s.boot := rfl
@[simp] theorem State.setBytes_axis (s : State) (o : Obj) (b : List Byte) (i j k : Nat) (q : Nat) : (s.setBytes o b i j k).axis q = s.axis q := rfl
@[simp] theorem State.setBytes_fbu (s : State) (o : Obj) (b : List Byte) (i j k : Nat) (q : Nat) : (s.setBytes o b i j k).fbu q = s.fbu q := rfl
@[simp] theorem State.setBytes_latch (s : State) (o : Obj) (b : List Byte) (i j k : Nat) (q : Nat) : (s.setBytes o b i j k).latch q = s.latch q := rfl
@[simp] theorem State.setBytes_cmp (s : State) (o : Obj) (b : List Byte) (i j k : Nat) (q : Nat) : (s.setBytes o b i j k).cmp q = s.cmp q := rfl
@[simp] theorem State.setBytes_master (s : State) (o : Obj) (b : List Byte) (i j k : Nat) (q : Nat) : (s.setBytes o b i j k).master q = s.master q := rfl
@[simp] theorem State.setBytes_eng (s : State) (o : Obj) (b : List Byte) (i j k : Nat) (q : Nat) : (s.setBytes o b i j k).eng q = s.eng q := rfl
@[simp] theorem State.setBytes_ace (s : State) (o : Obj) (b : List Byte) (i j k : Nat) (q : Nat) : (s.setBytes o b i j k).ace q = s.ace q := rfl
@[simp] theorem State.setBytes_ep (s : State) (o : Obj) (b : List Byte) (i j k : Nat) (q : Nat) : (s.setBytes o b i j k).ep q = s.ep q := rfl
@[simp] theorem State.setBytes_port (s : State) (o : Obj) (b : List Byte) (i j k : Nat) (q : Nat) : (s.setBytes o b i j k).port q = s.port q := rfl
@[simp] theorem State.setBytes_ring (s : State) (o : Obj) (b : List Byte) (i j k : Nat) (q : Nat) : (s.setBytes o b i j k).ring q = s.ring q := rfl
@[simp] theorem State.setBytes_wk (s : State) (o : Obj) (b : List Byte) (i j k : Nat) (q q' : Nat) : (s.setBytes o b i j k).wk q q' = s.wk q q' := rfl

/-! ### State.count -/

@[simp] theorem State.count_pending (s : State) (o : Obj) (i j k : Nat) (n : Int) : (s.count o i j k n).pending = s.pending := rfl
@[simp] theorem State.count_now (s : State) (o : Obj) (i j k : Nat) (n : Int) : (s.count o i j k n).now = s.now := rfl
@[simp] theorem State.count_frac (s : State) (o : Obj) (i j k : Nat) (n : Int) : (s.count o i j k n).frac = s.frac := rfl
@[simp] theorem State.count_free (s : State) (o : Obj) (i j k : Nat) (n : Int) : (s.count o i j k n).free = s.free := rfl
@[simp] theorem State.count_out (s : State) (o : Obj) (i j k : Nat) (n : Int) : (s.count o i j k n).out = s.out := rfl
@[simp] theorem State.count_staged (s : State) (o : Obj) (i j k : Nat) (n : Int) : (s.count o i j k n).staged = s.staged := rfl
@[simp] theorem State.count_snaps (s : State) (o : Obj) (i j k : Nat) (n : Int) : (s.count o i j k n).snaps = s.snaps := rfl
@[simp] theorem State.count_axes (s : State) (o : Obj) (i j k : Nat) (n : Int) : (s.count o i j k n).axes = s.axes := rfl
@[simp] theorem State.count_fbs (s : State) (o : Obj) (i j k : Nat) (n : Int) : (s.count o i j k n).fbs = s.fbs := rfl
@[simp] theorem State.count_lats (s : State) (o : Obj) (i j k : Nat) (n : Int) : (s.count o i j k n).lats = s.lats := rfl
@[simp] theorem State.count_cmps (s : State) (o : Obj) (i j k : Nat) (n : Int) : (s.count o i j k n).cmps = s.cmps := rfl
@[simp] theorem State.count_msts (s : State) (o : Obj) (i j k : Nat) (n : Int) : (s.count o i j k n).msts = s.msts := rfl
@[simp] theorem State.count_disp (s : State) (o : Obj) (i j k : Nat) (n : Int) : (s.count o i j k n).disp = s.disp := rfl
@[simp] theorem State.count_engs (s : State) (o : Obj) (i j k : Nat) (n : Int) : (s.count o i j k n).engs = s.engs := rfl
@[simp] theorem State.count_aces (s : State) (o : Obj) (i j k : Nat) (n : Int) : (s.count o i j k n).aces = s.aces := rfl
@[simp] theorem State.count_shared (s : State) (o : Obj) (i j k : Nat) (n : Int) : (s.count o i j k n).shared = s.shared := rfl
@[simp] theorem State.count_ucode (s : State) (o : Obj) (i j k : Nat) (n : Int) : (s.count o i j k n).ucode = s.ucode := rfl
@[simp] theorem State.count_eps (s : State) (o : Obj) (i j k : Nat) (n : Int) : (s.count o i j k n).eps = s.eps := rfl
@[simp] theorem State.count_field (s : State) (o : Obj) (i j k : Nat) (n : Int) : (s.count o i j k n).field = s.field := rfl
@[simp] theorem State.count_time (s : State) (o : Obj) (i j k : Nat) (n : Int) : (s.count o i j k n).time = s.time := rfl
@[simp] theorem State.count_obs (s : State) (o : Obj) (i j k : Nat) (n : Int) : (s.count o i j k n).obs = s.obs := rfl
@[simp] theorem State.count_safe (s : State) (o : Obj) (i j k : Nat) (n : Int) : (s.count o i j k n).safe = s.safe := rfl
@[simp] theorem State.count_debugger (s : State) (o : Obj) (i j k : Nat) (n : Int) : (s.count o i j k n).debugger = s.debugger := rfl
@[simp] theorem State.count_benchUp (s : State) (o : Obj) (i j k : Nat) (n : Int) : (s.count o i j k n).benchUp = s.benchUp := rfl
@[simp] theorem State.count_ports (s : State) (o : Obj) (i j k : Nat) (n : Int) : (s.count o i j k n).ports = s.ports := rfl
@[simp] theorem State.count_rings (s : State) (o : Obj) (i j k : Nat) (n : Int) : (s.count o i j k n).rings = s.rings := rfl
@[simp] theorem State.count_wks (s : State) (o : Obj) (i j k : Nat) (n : Int) : (s.count o i j k n).wks = s.wks := rfl
@[simp] theorem State.count_hud (s : State) (o : Obj) (i j k : Nat) (n : Int) : (s.count o i j k n).hud = s.hud := rfl
@[simp] theorem State.count_com (s : State) (o : Obj) (i j k : Nat) (n : Int) : (s.count o i j k n).com = s.com := rfl
@[simp] theorem State.count_store (s : State) (o : Obj) (i j k : Nat) (n : Int) : (s.count o i j k n).store = s.store := rfl
@[simp] theorem State.count_pair (s : State) (o : Obj) (i j k : Nat) (n : Int) : (s.count o i j k n).pair = s.pair := rfl
@[simp] theorem State.count_host (s : State) (o : Obj) (i j k : Nat) (n : Int) : (s.count o i j k n).host = s.host := rfl
@[simp] theorem State.count_boot (s : State) (o : Obj) (i j k : Nat) (n : Int) : (s.count o i j k n).boot = s.boot := rfl
@[simp] theorem State.count_axis (s : State) (o : Obj) (i j k : Nat) (n : Int) (q : Nat) : (s.count o i j k n).axis q = s.axis q := rfl
@[simp] theorem State.count_fbu (s : State) (o : Obj) (i j k : Nat) (n : Int) (q : Nat) : (s.count o i j k n).fbu q = s.fbu q := rfl
@[simp] theorem State.count_latch (s : State) (o : Obj) (i j k : Nat) (n : Int) (q : Nat) : (s.count o i j k n).latch q = s.latch q := rfl
@[simp] theorem State.count_cmp (s : State) (o : Obj) (i j k : Nat) (n : Int) (q : Nat) : (s.count o i j k n).cmp q = s.cmp q := rfl
@[simp] theorem State.count_master (s : State) (o : Obj) (i j k : Nat) (n : Int) (q : Nat) : (s.count o i j k n).master q = s.master q := rfl
@[simp] theorem State.count_eng (s : State) (o : Obj) (i j k : Nat) (n : Int) (q : Nat) : (s.count o i j k n).eng q = s.eng q := rfl
@[simp] theorem State.count_ace (s : State) (o : Obj) (i j k : Nat) (n : Int) (q : Nat) : (s.count o i j k n).ace q = s.ace q := rfl
@[simp] theorem State.count_ep (s : State) (o : Obj) (i j k : Nat) (n : Int) (q : Nat) : (s.count o i j k n).ep q = s.ep q := rfl
@[simp] theorem State.count_port (s : State) (o : Obj) (i j k : Nat) (n : Int) (q : Nat) : (s.count o i j k n).port q = s.port q := rfl
@[simp] theorem State.count_ring (s : State) (o : Obj) (i j k : Nat) (n : Int) (q : Nat) : (s.count o i j k n).ring q = s.ring q := rfl
@[simp] theorem State.count_wk (s : State) (o : Obj) (i j k : Nat) (n : Int) (q q' : Nat) : (s.count o i j k n).wk q q' = s.wk q q' := rfl

/-! ### State.wrapInc -/

@[simp] theorem State.wrapInc_pending (s : State) (o : Obj) (i j k : Nat) : (s.wrapInc o i j k).pending = s.pending := rfl
@[simp] theorem State.wrapInc_now (s : State) (o : Obj) (i j k : Nat) : (s.wrapInc o i j k).now = s.now := rfl
@[simp] theorem State.wrapInc_frac (s : State) (o : Obj) (i j k : Nat) : (s.wrapInc o i j k).frac = s.frac := rfl
@[simp] theorem State.wrapInc_free (s : State) (o : Obj) (i j k : Nat) : (s.wrapInc o i j k).free = s.free := rfl
@[simp] theorem State.wrapInc_out (s : State) (o : Obj) (i j k : Nat) : (s.wrapInc o i j k).out = s.out := rfl
@[simp] theorem State.wrapInc_staged (s : State) (o : Obj) (i j k : Nat) : (s.wrapInc o i j k).staged = s.staged := rfl
@[simp] theorem State.wrapInc_snaps (s : State) (o : Obj) (i j k : Nat) : (s.wrapInc o i j k).snaps = s.snaps := rfl
@[simp] theorem State.wrapInc_axes (s : State) (o : Obj) (i j k : Nat) : (s.wrapInc o i j k).axes = s.axes := rfl
@[simp] theorem State.wrapInc_fbs (s : State) (o : Obj) (i j k : Nat) : (s.wrapInc o i j k).fbs = s.fbs := rfl
@[simp] theorem State.wrapInc_lats (s : State) (o : Obj) (i j k : Nat) : (s.wrapInc o i j k).lats = s.lats := rfl
@[simp] theorem State.wrapInc_cmps (s : State) (o : Obj) (i j k : Nat) : (s.wrapInc o i j k).cmps = s.cmps := rfl
@[simp] theorem State.wrapInc_msts (s : State) (o : Obj) (i j k : Nat) : (s.wrapInc o i j k).msts = s.msts := rfl
@[simp] theorem State.wrapInc_disp (s : State) (o : Obj) (i j k : Nat) : (s.wrapInc o i j k).disp = s.disp := rfl
@[simp] theorem State.wrapInc_engs (s : State) (o : Obj) (i j k : Nat) : (s.wrapInc o i j k).engs = s.engs := rfl
@[simp] theorem State.wrapInc_aces (s : State) (o : Obj) (i j k : Nat) : (s.wrapInc o i j k).aces = s.aces := rfl
@[simp] theorem State.wrapInc_shared (s : State) (o : Obj) (i j k : Nat) : (s.wrapInc o i j k).shared = s.shared := rfl
@[simp] theorem State.wrapInc_ucode (s : State) (o : Obj) (i j k : Nat) : (s.wrapInc o i j k).ucode = s.ucode := rfl
@[simp] theorem State.wrapInc_eps (s : State) (o : Obj) (i j k : Nat) : (s.wrapInc o i j k).eps = s.eps := rfl
@[simp] theorem State.wrapInc_field (s : State) (o : Obj) (i j k : Nat) : (s.wrapInc o i j k).field = s.field := rfl
@[simp] theorem State.wrapInc_time (s : State) (o : Obj) (i j k : Nat) : (s.wrapInc o i j k).time = s.time := rfl
@[simp] theorem State.wrapInc_obs (s : State) (o : Obj) (i j k : Nat) : (s.wrapInc o i j k).obs = s.obs := rfl
@[simp] theorem State.wrapInc_safe (s : State) (o : Obj) (i j k : Nat) : (s.wrapInc o i j k).safe = s.safe := rfl
@[simp] theorem State.wrapInc_debugger (s : State) (o : Obj) (i j k : Nat) : (s.wrapInc o i j k).debugger = s.debugger := rfl
@[simp] theorem State.wrapInc_benchUp (s : State) (o : Obj) (i j k : Nat) : (s.wrapInc o i j k).benchUp = s.benchUp := rfl
@[simp] theorem State.wrapInc_ports (s : State) (o : Obj) (i j k : Nat) : (s.wrapInc o i j k).ports = s.ports := rfl
@[simp] theorem State.wrapInc_rings (s : State) (o : Obj) (i j k : Nat) : (s.wrapInc o i j k).rings = s.rings := rfl
@[simp] theorem State.wrapInc_wks (s : State) (o : Obj) (i j k : Nat) : (s.wrapInc o i j k).wks = s.wks := rfl
@[simp] theorem State.wrapInc_hud (s : State) (o : Obj) (i j k : Nat) : (s.wrapInc o i j k).hud = s.hud := rfl
@[simp] theorem State.wrapInc_com (s : State) (o : Obj) (i j k : Nat) : (s.wrapInc o i j k).com = s.com := rfl
@[simp] theorem State.wrapInc_store (s : State) (o : Obj) (i j k : Nat) : (s.wrapInc o i j k).store = s.store := rfl
@[simp] theorem State.wrapInc_pair (s : State) (o : Obj) (i j k : Nat) : (s.wrapInc o i j k).pair = s.pair := rfl
@[simp] theorem State.wrapInc_host (s : State) (o : Obj) (i j k : Nat) : (s.wrapInc o i j k).host = s.host := rfl
@[simp] theorem State.wrapInc_boot (s : State) (o : Obj) (i j k : Nat) : (s.wrapInc o i j k).boot = s.boot := rfl
@[simp] theorem State.wrapInc_axis (s : State) (o : Obj) (i j k : Nat) (q : Nat) : (s.wrapInc o i j k).axis q = s.axis q := rfl
@[simp] theorem State.wrapInc_fbu (s : State) (o : Obj) (i j k : Nat) (q : Nat) : (s.wrapInc o i j k).fbu q = s.fbu q := rfl
@[simp] theorem State.wrapInc_latch (s : State) (o : Obj) (i j k : Nat) (q : Nat) : (s.wrapInc o i j k).latch q = s.latch q := rfl
@[simp] theorem State.wrapInc_cmp (s : State) (o : Obj) (i j k : Nat) (q : Nat) : (s.wrapInc o i j k).cmp q = s.cmp q := rfl
@[simp] theorem State.wrapInc_master (s : State) (o : Obj) (i j k : Nat) (q : Nat) : (s.wrapInc o i j k).master q = s.master q := rfl
@[simp] theorem State.wrapInc_eng (s : State) (o : Obj) (i j k : Nat) (q : Nat) : (s.wrapInc o i j k).eng q = s.eng q := rfl
@[simp] theorem State.wrapInc_ace (s : State) (o : Obj) (i j k : Nat) (q : Nat) : (s.wrapInc o i j k).ace q = s.ace q := rfl
@[simp] theorem State.wrapInc_ep (s : State) (o : Obj) (i j k : Nat) (q : Nat) : (s.wrapInc o i j k).ep q = s.ep q := rfl
@[simp] theorem State.wrapInc_port (s : State) (o : Obj) (i j k : Nat) (q : Nat) : (s.wrapInc o i j k).port q = s.port q := rfl
@[simp] theorem State.wrapInc_ring (s : State) (o : Obj) (i j k : Nat) (q : Nat) : (s.wrapInc o i j k).ring q = s.ring q := rfl
@[simp] theorem State.wrapInc_wk (s : State) (o : Obj) (i j k : Nat) (q q' : Nat) : (s.wrapInc o i j k).wk q q' = s.wk q q' := rfl

/-! ### State.put1 -/

@[simp] theorem State.put1_pending (s : State) (o : Obj) (v : Int) (i j k : Nat) : (s.put1 o v i j k).pending = s.pending := by unfold State.put1; split <;> rfl
@[simp] theorem State.put1_now (s : State) (o : Obj) (v : Int) (i j k : Nat) : (s.put1 o v i j k).now = s.now := by unfold State.put1; split <;> rfl
@[simp] theorem State.put1_frac (s : State) (o : Obj) (v : Int) (i j k : Nat) : (s.put1 o v i j k).frac = s.frac := by unfold State.put1; split <;> rfl
@[simp] theorem State.put1_free (s : State) (o : Obj) (v : Int) (i j k : Nat) : (s.put1 o v i j k).free = s.free := by unfold State.put1; split <;> rfl
@[simp] theorem State.put1_out (s : State) (o : Obj) (v : Int) (i j k : Nat) : (s.put1 o v i j k).out = s.out := by unfold State.put1; split <;> rfl
@[simp] theorem State.put1_staged (s : State) (o : Obj) (v : Int) (i j k : Nat) : (s.put1 o v i j k).staged = s.staged := by unfold State.put1; split <;> rfl
@[simp] theorem State.put1_snaps (s : State) (o : Obj) (v : Int) (i j k : Nat) : (s.put1 o v i j k).snaps = s.snaps := by unfold State.put1; split <;> rfl
@[simp] theorem State.put1_axes (s : State) (o : Obj) (v : Int) (i j k : Nat) : (s.put1 o v i j k).axes = s.axes := by unfold State.put1; split <;> rfl
@[simp] theorem State.put1_fbs (s : State) (o : Obj) (v : Int) (i j k : Nat) : (s.put1 o v i j k).fbs = s.fbs := by unfold State.put1; split <;> rfl
@[simp] theorem State.put1_lats (s : State) (o : Obj) (v : Int) (i j k : Nat) : (s.put1 o v i j k).lats = s.lats := by unfold State.put1; split <;> rfl
@[simp] theorem State.put1_cmps (s : State) (o : Obj) (v : Int) (i j k : Nat) : (s.put1 o v i j k).cmps = s.cmps := by unfold State.put1; split <;> rfl
@[simp] theorem State.put1_msts (s : State) (o : Obj) (v : Int) (i j k : Nat) : (s.put1 o v i j k).msts = s.msts := by unfold State.put1; split <;> rfl
@[simp] theorem State.put1_disp (s : State) (o : Obj) (v : Int) (i j k : Nat) : (s.put1 o v i j k).disp = s.disp := by unfold State.put1; split <;> rfl
@[simp] theorem State.put1_engs (s : State) (o : Obj) (v : Int) (i j k : Nat) : (s.put1 o v i j k).engs = s.engs := by unfold State.put1; split <;> rfl
@[simp] theorem State.put1_aces (s : State) (o : Obj) (v : Int) (i j k : Nat) : (s.put1 o v i j k).aces = s.aces := by unfold State.put1; split <;> rfl
@[simp] theorem State.put1_shared (s : State) (o : Obj) (v : Int) (i j k : Nat) : (s.put1 o v i j k).shared = s.shared := by unfold State.put1; split <;> rfl
@[simp] theorem State.put1_ucode (s : State) (o : Obj) (v : Int) (i j k : Nat) : (s.put1 o v i j k).ucode = s.ucode := by unfold State.put1; split <;> rfl
@[simp] theorem State.put1_eps (s : State) (o : Obj) (v : Int) (i j k : Nat) : (s.put1 o v i j k).eps = s.eps := by unfold State.put1; split <;> rfl
@[simp] theorem State.put1_field (s : State) (o : Obj) (v : Int) (i j k : Nat) : (s.put1 o v i j k).field = s.field := by unfold State.put1; split <;> rfl
@[simp] theorem State.put1_time (s : State) (o : Obj) (v : Int) (i j k : Nat) : (s.put1 o v i j k).time = s.time := by unfold State.put1; split <;> rfl
@[simp] theorem State.put1_obs (s : State) (o : Obj) (v : Int) (i j k : Nat) : (s.put1 o v i j k).obs = s.obs := by unfold State.put1; split <;> rfl
@[simp] theorem State.put1_safe (s : State) (o : Obj) (v : Int) (i j k : Nat) : (s.put1 o v i j k).safe = s.safe := by unfold State.put1; split <;> rfl
@[simp] theorem State.put1_debugger (s : State) (o : Obj) (v : Int) (i j k : Nat) : (s.put1 o v i j k).debugger = s.debugger := by unfold State.put1; split <;> rfl
@[simp] theorem State.put1_benchUp (s : State) (o : Obj) (v : Int) (i j k : Nat) : (s.put1 o v i j k).benchUp = s.benchUp := by unfold State.put1; split <;> rfl
@[simp] theorem State.put1_ports (s : State) (o : Obj) (v : Int) (i j k : Nat) : (s.put1 o v i j k).ports = s.ports := by unfold State.put1; split <;> rfl
@[simp] theorem State.put1_rings (s : State) (o : Obj) (v : Int) (i j k : Nat) : (s.put1 o v i j k).rings = s.rings := by unfold State.put1; split <;> rfl
@[simp] theorem State.put1_wks (s : State) (o : Obj) (v : Int) (i j k : Nat) : (s.put1 o v i j k).wks = s.wks := by unfold State.put1; split <;> rfl
@[simp] theorem State.put1_hud (s : State) (o : Obj) (v : Int) (i j k : Nat) : (s.put1 o v i j k).hud = s.hud := by unfold State.put1; split <;> rfl
@[simp] theorem State.put1_com (s : State) (o : Obj) (v : Int) (i j k : Nat) : (s.put1 o v i j k).com = s.com := by unfold State.put1; split <;> rfl
@[simp] theorem State.put1_store (s : State) (o : Obj) (v : Int) (i j k : Nat) : (s.put1 o v i j k).store = s.store := by unfold State.put1; split <;> rfl
@[simp] theorem State.put1_pair (s : State) (o : Obj) (v : Int) (i j k : Nat) : (s.put1 o v i j k).pair = s.pair := by unfold State.put1; split <;> rfl
@[simp] theorem State.put1_host (s : State) (o : Obj) (v : Int) (i j k : Nat) : (s.put1 o v i j k).host = s.host := by unfold State.put1; split <;> rfl
@[simp] theorem State.put1_boot (s : State) (o : Obj) (v : Int) (i j k : Nat) : (s.put1 o v i j k).boot = s.boot := by unfold State.put1; split <;> rfl
@[simp] theorem State.put1_axis (s : State) (o : Obj) (v : Int) (i j k : Nat) (q : Nat) : (s.put1 o v i j k).axis q = s.axis q := by unfold State.put1; split <;> rfl
@[simp] theorem State.put1_fbu (s : State) (o : Obj) (v : Int) (i j k : Nat) (q : Nat) : (s.put1 o v i j k).fbu q = s.fbu q := by unfold State.put1; split <;> rfl
@[simp] theorem State.put1_latch (s : State) (o : Obj) (v : Int) (i j k : Nat) (q : Nat) : (s.put1 o v i j k).latch q = s.latch q := by unfold State.put1; split <;> rfl
@[simp] theorem State.put1_cmp (s : State) (o : Obj) (v : Int) (i j k : Nat) (q : Nat) : (s.put1 o v i j k).cmp q = s.cmp q := by unfold State.put1; split <;> rfl
@[simp] theorem State.put1_master (s : State) (o : Obj) (v : Int) (i j k : Nat) (q : Nat) : (s.put1 o v i j k).master q = s.master q := by unfold State.put1; split <;> rfl
@[simp] theorem State.put1_eng (s : State) (o : Obj) (v : Int) (i j k : Nat) (q : Nat) : (s.put1 o v i j k).eng q = s.eng q := by unfold State.put1; split <;> rfl
@[simp] theorem State.put1_ace (s : State) (o : Obj) (v : Int) (i j k : Nat) (q : Nat) : (s.put1 o v i j k).ace q = s.ace q := by unfold State.put1; split <;> rfl
@[simp] theorem State.put1_ep (s : State) (o : Obj) (v : Int) (i j k : Nat) (q : Nat) : (s.put1 o v i j k).ep q = s.ep q := by unfold State.put1; split <;> rfl
@[simp] theorem State.put1_port (s : State) (o : Obj) (v : Int) (i j k : Nat) (q : Nat) : (s.put1 o v i j k).port q = s.port q := by unfold State.put1; split <;> rfl
@[simp] theorem State.put1_ring (s : State) (o : Obj) (v : Int) (i j k : Nat) (q : Nat) : (s.put1 o v i j k).ring q = s.ring q := by unfold State.put1; split <;> rfl
@[simp] theorem State.put1_wk (s : State) (o : Obj) (v : Int) (i j k : Nat) (q q' : Nat) : (s.put1 o v i j k).wk q q' = s.wk q q' := by unfold State.put1; split <;> rfl

/-! ### State.raiseMax -/

@[simp] theorem State.raiseMax_pending (s : State) (o : Obj) (v : Int) (i j k : Nat) : (s.raiseMax o v i j k).pending = s.pending := by unfold State.raiseMax; split <;> rfl
@[simp] theorem State.raiseMax_now (s : State) (o : Obj) (v : Int) (i j k : Nat) : (s.raiseMax o v i j k).now = s.now := by unfold State.raiseMax; split <;> rfl
@[simp] theorem State.raiseMax_frac (s : State) (o : Obj) (v : Int) (i j k : Nat) : (s.raiseMax o v i j k).frac = s.frac := by unfold State.raiseMax; split <;> rfl
@[simp] theorem State.raiseMax_free (s : State) (o : Obj) (v : Int) (i j k : Nat) : (s.raiseMax o v i j k).free = s.free := by unfold State.raiseMax; split <;> rfl
@[simp] theorem State.raiseMax_out (s : State) (o : Obj) (v : Int) (i j k : Nat) : (s.raiseMax o v i j k).out = s.out := by unfold State.raiseMax; split <;> rfl
@[simp] theorem State.raiseMax_staged (s : State) (o : Obj) (v : Int) (i j k : Nat) : (s.raiseMax o v i j k).staged = s.staged := by unfold State.raiseMax; split <;> rfl
@[simp] theorem State.raiseMax_snaps (s : State) (o : Obj) (v : Int) (i j k : Nat) : (s.raiseMax o v i j k).snaps = s.snaps := by unfold State.raiseMax; split <;> rfl
@[simp] theorem State.raiseMax_axes (s : State) (o : Obj) (v : Int) (i j k : Nat) : (s.raiseMax o v i j k).axes = s.axes := by unfold State.raiseMax; split <;> rfl
@[simp] theorem State.raiseMax_fbs (s : State) (o : Obj) (v : Int) (i j k : Nat) : (s.raiseMax o v i j k).fbs = s.fbs := by unfold State.raiseMax; split <;> rfl
@[simp] theorem State.raiseMax_lats (s : State) (o : Obj) (v : Int) (i j k : Nat) : (s.raiseMax o v i j k).lats = s.lats := by unfold State.raiseMax; split <;> rfl
@[simp] theorem State.raiseMax_cmps (s : State) (o : Obj) (v : Int) (i j k : Nat) : (s.raiseMax o v i j k).cmps = s.cmps := by unfold State.raiseMax; split <;> rfl
@[simp] theorem State.raiseMax_msts (s : State) (o : Obj) (v : Int) (i j k : Nat) : (s.raiseMax o v i j k).msts = s.msts := by unfold State.raiseMax; split <;> rfl
@[simp] theorem State.raiseMax_disp (s : State) (o : Obj) (v : Int) (i j k : Nat) : (s.raiseMax o v i j k).disp = s.disp := by unfold State.raiseMax; split <;> rfl
@[simp] theorem State.raiseMax_engs (s : State) (o : Obj) (v : Int) (i j k : Nat) : (s.raiseMax o v i j k).engs = s.engs := by unfold State.raiseMax; split <;> rfl
@[simp] theorem State.raiseMax_aces (s : State) (o : Obj) (v : Int) (i j k : Nat) : (s.raiseMax o v i j k).aces = s.aces := by unfold State.raiseMax; split <;> rfl
@[simp] theorem State.raiseMax_shared (s : State) (o : Obj) (v : Int) (i j k : Nat) : (s.raiseMax o v i j k).shared = s.shared := by unfold State.raiseMax; split <;> rfl
@[simp] theorem State.raiseMax_ucode (s : State) (o : Obj) (v : Int) (i j k : Nat) : (s.raiseMax o v i j k).ucode = s.ucode := by unfold State.raiseMax; split <;> rfl
@[simp] theorem State.raiseMax_eps (s : State) (o : Obj) (v : Int) (i j k : Nat) : (s.raiseMax o v i j k).eps = s.eps := by unfold State.raiseMax; split <;> rfl
@[simp] theorem State.raiseMax_field (s : State) (o : Obj) (v : Int) (i j k : Nat) : (s.raiseMax o v i j k).field = s.field := by unfold State.raiseMax; split <;> rfl
@[simp] theorem State.raiseMax_time (s : State) (o : Obj) (v : Int) (i j k : Nat) : (s.raiseMax o v i j k).time = s.time := by unfold State.raiseMax; split <;> rfl
@[simp] theorem State.raiseMax_obs (s : State) (o : Obj) (v : Int) (i j k : Nat) : (s.raiseMax o v i j k).obs = s.obs := by unfold State.raiseMax; split <;> rfl
@[simp] theorem State.raiseMax_safe (s : State) (o : Obj) (v : Int) (i j k : Nat) : (s.raiseMax o v i j k).safe = s.safe := by unfold State.raiseMax; split <;> rfl
@[simp] theorem State.raiseMax_debugger (s : State) (o : Obj) (v : Int) (i j k : Nat) : (s.raiseMax o v i j k).debugger = s.debugger := by unfold State.raiseMax; split <;> rfl
@[simp] theorem State.raiseMax_benchUp (s : State) (o : Obj) (v : Int) (i j k : Nat) : (s.raiseMax o v i j k).benchUp = s.benchUp := by unfold State.raiseMax; split <;> rfl
@[simp] theorem State.raiseMax_ports (s : State) (o : Obj) (v : Int) (i j k : Nat) : (s.raiseMax o v i j k).ports = s.ports := by unfold State.raiseMax; split <;> rfl
@[simp] theorem State.raiseMax_rings (s : State) (o : Obj) (v : Int) (i j k : Nat) : (s.raiseMax o v i j k).rings = s.rings := by unfold State.raiseMax; split <;> rfl
@[simp] theorem State.raiseMax_wks (s : State) (o : Obj) (v : Int) (i j k : Nat) : (s.raiseMax o v i j k).wks = s.wks := by unfold State.raiseMax; split <;> rfl
@[simp] theorem State.raiseMax_hud (s : State) (o : Obj) (v : Int) (i j k : Nat) : (s.raiseMax o v i j k).hud = s.hud := by unfold State.raiseMax; split <;> rfl
@[simp] theorem State.raiseMax_com (s : State) (o : Obj) (v : Int) (i j k : Nat) : (s.raiseMax o v i j k).com = s.com := by unfold State.raiseMax; split <;> rfl
@[simp] theorem State.raiseMax_store (s : State) (o : Obj) (v : Int) (i j k : Nat) : (s.raiseMax o v i j k).store = s.store := by unfold State.raiseMax; split <;> rfl
@[simp] theorem State.raiseMax_pair (s : State) (o : Obj) (v : Int) (i j k : Nat) : (s.raiseMax o v i j k).pair = s.pair := by unfold State.raiseMax; split <;> rfl
@[simp] theorem State.raiseMax_host (s : State) (o : Obj) (v : Int) (i j k : Nat) : (s.raiseMax o v i j k).host = s.host := by unfold State.raiseMax; split <;> rfl
@[simp] theorem State.raiseMax_boot (s : State) (o : Obj) (v : Int) (i j k : Nat) : (s.raiseMax o v i j k).boot = s.boot := by unfold State.raiseMax; split <;> rfl
@[simp] theorem State.raiseMax_axis (s : State) (o : Obj) (v : Int) (i j k : Nat) (q : Nat) : (s.raiseMax o v i j k).axis q = s.axis q := by unfold State.raiseMax; split <;> rfl
@[simp] theorem State.raiseMax_fbu (s : State) (o : Obj) (v : Int) (i j k : Nat) (q : Nat) : (s.raiseMax o v i j k).fbu q = s.fbu q := by unfold State.raiseMax; split <;> rfl
@[simp] theorem State.raiseMax_latch (s : State) (o : Obj) (v : Int) (i j k : Nat) (q : Nat) : (s.raiseMax o v i j k).latch q = s.latch q := by unfold State.raiseMax; split <;> rfl
@[simp] theorem State.raiseMax_cmp (s : State) (o : Obj) (v : Int) (i j k : Nat) (q : Nat) : (s.raiseMax o v i j k).cmp q = s.cmp q := by unfold State.raiseMax; split <;> rfl
@[simp] theorem State.raiseMax_master (s : State) (o : Obj) (v : Int) (i j k : Nat) (q : Nat) : (s.raiseMax o v i j k).master q = s.master q := by unfold State.raiseMax; split <;> rfl
@[simp] theorem State.raiseMax_eng (s : State) (o : Obj) (v : Int) (i j k : Nat) (q : Nat) : (s.raiseMax o v i j k).eng q = s.eng q := by unfold State.raiseMax; split <;> rfl
@[simp] theorem State.raiseMax_ace (s : State) (o : Obj) (v : Int) (i j k : Nat) (q : Nat) : (s.raiseMax o v i j k).ace q = s.ace q := by unfold State.raiseMax; split <;> rfl
@[simp] theorem State.raiseMax_ep (s : State) (o : Obj) (v : Int) (i j k : Nat) (q : Nat) : (s.raiseMax o v i j k).ep q = s.ep q := by unfold State.raiseMax; split <;> rfl
@[simp] theorem State.raiseMax_port (s : State) (o : Obj) (v : Int) (i j k : Nat) (q : Nat) : (s.raiseMax o v i j k).port q = s.port q := by unfold State.raiseMax; split <;> rfl
@[simp] theorem State.raiseMax_ring (s : State) (o : Obj) (v : Int) (i j k : Nat) (q : Nat) : (s.raiseMax o v i j k).ring q = s.ring q := by unfold State.raiseMax; split <;> rfl
@[simp] theorem State.raiseMax_wk (s : State) (o : Obj) (v : Int) (i j k : Nat) (q q' : Nat) : (s.raiseMax o v i j k).wk q q' = s.wk q q' := by unfold State.raiseMax; split <;> rfl

/-! ### State.emit -/

@[simp] theorem State.emit_pending (s : State) (m : Msg) : (s.emit m).pending = s.pending := rfl
@[simp] theorem State.emit_now (s : State) (m : Msg) : (s.emit m).now = s.now := rfl
@[simp] theorem State.emit_frac (s : State) (m : Msg) : (s.emit m).frac = s.frac := rfl
@[simp] theorem State.emit_free (s : State) (m : Msg) : (s.emit m).free = s.free := rfl
@[simp] theorem State.emit_od (s : State) (m : Msg) : (s.emit m).od = s.od := rfl
@[simp] theorem State.emit_staged (s : State) (m : Msg) : (s.emit m).staged = s.staged := rfl
@[simp] theorem State.emit_snaps (s : State) (m : Msg) : (s.emit m).snaps = s.snaps := rfl
@[simp] theorem State.emit_axes (s : State) (m : Msg) : (s.emit m).axes = s.axes := rfl
@[simp] theorem State.emit_fbs (s : State) (m : Msg) : (s.emit m).fbs = s.fbs := rfl
@[simp] theorem State.emit_lats (s : State) (m : Msg) : (s.emit m).lats = s.lats := rfl
@[simp] theorem State.emit_cmps (s : State) (m : Msg) : (s.emit m).cmps = s.cmps := rfl
@[simp] theorem State.emit_msts (s : State) (m : Msg) : (s.emit m).msts = s.msts := rfl
@[simp] theorem State.emit_disp (s : State) (m : Msg) : (s.emit m).disp = s.disp := rfl
@[simp] theorem State.emit_engs (s : State) (m : Msg) : (s.emit m).engs = s.engs := rfl
@[simp] theorem State.emit_aces (s : State) (m : Msg) : (s.emit m).aces = s.aces := rfl
@[simp] theorem State.emit_shared (s : State) (m : Msg) : (s.emit m).shared = s.shared := rfl
@[simp] theorem State.emit_ucode (s : State) (m : Msg) : (s.emit m).ucode = s.ucode := rfl
@[simp] theorem State.emit_eps (s : State) (m : Msg) : (s.emit m).eps = s.eps := rfl
@[simp] theorem State.emit_field (s : State) (m : Msg) : (s.emit m).field = s.field := rfl
@[simp] theorem State.emit_time (s : State) (m : Msg) : (s.emit m).time = s.time := rfl
@[simp] theorem State.emit_obs (s : State) (m : Msg) : (s.emit m).obs = s.obs := rfl
@[simp] theorem State.emit_safe (s : State) (m : Msg) : (s.emit m).safe = s.safe := rfl
@[simp] theorem State.emit_debugger (s : State) (m : Msg) : (s.emit m).debugger = s.debugger := rfl
@[simp] theorem State.emit_benchUp (s : State) (m : Msg) : (s.emit m).benchUp = s.benchUp := rfl
@[simp] theorem State.emit_ports (s : State) (m : Msg) : (s.emit m).ports = s.ports := rfl
@[simp] theorem State.emit_rings (s : State) (m : Msg) : (s.emit m).rings = s.rings := rfl
@[simp] theorem State.emit_wks (s : State) (m : Msg) : (s.emit m).wks = s.wks := rfl
@[simp] theorem State.emit_hud (s : State) (m : Msg) : (s.emit m).hud = s.hud := rfl
@[simp] theorem State.emit_com (s : State) (m : Msg) : (s.emit m).com = s.com := rfl
@[simp] theorem State.emit_store (s : State) (m : Msg) : (s.emit m).store = s.store := rfl
@[simp] theorem State.emit_pair (s : State) (m : Msg) : (s.emit m).pair = s.pair := rfl
@[simp] theorem State.emit_host (s : State) (m : Msg) : (s.emit m).host = s.host := rfl
@[simp] theorem State.emit_boot (s : State) (m : Msg) : (s.emit m).boot = s.boot := rfl
@[simp] theorem State.emit_get (s : State) (m : Msg) (o' : Obj) (i' j' k' : Nat) : (s.emit m).get o' i' j' k' = s.get o' i' j' k' := rfl
@[simp] theorem State.emit_nat (s : State) (m : Msg) (o' : Obj) (i' j' k' : Nat) : (s.emit m).nat o' i' j' k' = s.nat o' i' j' k' := rfl
@[simp] theorem State.emit_flag (s : State) (m : Msg) (o' : Obj) (i' j' k' : Nat) : (s.emit m).flag o' i' j' k' = s.flag o' i' j' k' := rfl
@[simp] theorem State.emit_bytes (s : State) (m : Msg) (o' : Obj) (i' j' k' : Nat) : (s.emit m).bytes o' i' j' k' = s.bytes o' i' j' k' := rfl
@[simp] theorem State.emit_axis (s : State) (m : Msg) (q : Nat) : (s.emit m).axis q = s.axis q := rfl
@[simp] theorem State.emit_fbu (s : State) (m : Msg) (q : Nat) : (s.emit m).fbu q = s.fbu q := rfl
@[simp] theorem State.emit_latch (s : State) (m : Msg) (q : Nat) : (s.emit m).latch q = s.latch q := rfl
@[simp] theorem State.emit_cmp (s : State) (m : Msg) (q : Nat) : (s.emit m).cmp q = s.cmp q := rfl
@[simp] theorem State.emit_master (s : State) (m : Msg) (q : Nat) : (s.emit m).master q = s.master q := rfl
@[simp] theorem State.emit_eng (s : State) (m : Msg) (q : Nat) : (s.emit m).eng q = s.eng q := rfl
@[simp] theorem State.emit_ace (s : State) (m : Msg) (q : Nat) : (s.emit m).ace q = s.ace q := rfl
@[simp] theorem State.emit_ep (s : State) (m : Msg) (q : Nat) : (s.emit m).ep q = s.ep q := rfl
@[simp] theorem State.emit_port (s : State) (m : Msg) (q : Nat) : (s.emit m).port q = s.port q := rfl
@[simp] theorem State.emit_ring (s : State) (m : Msg) (q : Nat) : (s.emit m).ring q = s.ring q := rfl
@[simp] theorem State.emit_wk (s : State) (m : Msg) (q q' : Nat) : (s.emit m).wk q q' = s.wk q q' := rfl

/-! ### State.warn -/

@[simp] theorem State.warn_pending (s : State) (rule who what : Nat) : (s.warn rule who what).pending = s.pending := rfl
@[simp] theorem State.warn_now (s : State) (rule who what : Nat) : (s.warn rule who what).now = s.now := rfl
@[simp] theorem State.warn_frac (s : State) (rule who what : Nat) : (s.warn rule who what).frac = s.frac := rfl
@[simp] theorem State.warn_free (s : State) (rule who what : Nat) : (s.warn rule who what).free = s.free := rfl
@[simp] theorem State.warn_od (s : State) (rule who what : Nat) : (s.warn rule who what).od = s.od := rfl
@[simp] theorem State.warn_staged (s : State) (rule who what : Nat) : (s.warn rule who what).staged = s.staged := rfl
@[simp] theorem State.warn_snaps (s : State) (rule who what : Nat) : (s.warn rule who what).snaps = s.snaps := rfl
@[simp] theorem State.warn_axes (s : State) (rule who what : Nat) : (s.warn rule who what).axes = s.axes := rfl
@[simp] theorem State.warn_fbs (s : State) (rule who what : Nat) : (s.warn rule who what).fbs = s.fbs := rfl
@[simp] theorem State.warn_lats (s : State) (rule who what : Nat) : (s.warn rule who what).lats = s.lats := rfl
@[simp] theorem State.warn_cmps (s : State) (rule who what : Nat) : (s.warn rule who what).cmps = s.cmps := rfl
@[simp] theorem State.warn_msts (s : State) (rule who what : Nat) : (s.warn rule who what).msts = s.msts := rfl
@[simp] theorem State.warn_disp (s : State) (rule who what : Nat) : (s.warn rule who what).disp = s.disp := rfl
@[simp] theorem State.warn_engs (s : State) (rule who what : Nat) : (s.warn rule who what).engs = s.engs := rfl
@[simp] theorem State.warn_aces (s : State) (rule who what : Nat) : (s.warn rule who what).aces = s.aces := rfl
@[simp] theorem State.warn_shared (s : State) (rule who what : Nat) : (s.warn rule who what).shared = s.shared := rfl
@[simp] theorem State.warn_ucode (s : State) (rule who what : Nat) : (s.warn rule who what).ucode = s.ucode := rfl
@[simp] theorem State.warn_eps (s : State) (rule who what : Nat) : (s.warn rule who what).eps = s.eps := rfl
@[simp] theorem State.warn_field (s : State) (rule who what : Nat) : (s.warn rule who what).field = s.field := rfl
@[simp] theorem State.warn_time (s : State) (rule who what : Nat) : (s.warn rule who what).time = s.time := rfl
@[simp] theorem State.warn_obs (s : State) (rule who what : Nat) : (s.warn rule who what).obs = s.obs := rfl
@[simp] theorem State.warn_safe (s : State) (rule who what : Nat) : (s.warn rule who what).safe = s.safe := rfl
@[simp] theorem State.warn_debugger (s : State) (rule who what : Nat) : (s.warn rule who what).debugger = s.debugger := rfl
@[simp] theorem State.warn_benchUp (s : State) (rule who what : Nat) : (s.warn rule who what).benchUp = s.benchUp := rfl
@[simp] theorem State.warn_ports (s : State) (rule who what : Nat) : (s.warn rule who what).ports = s.ports := rfl
@[simp] theorem State.warn_rings (s : State) (rule who what : Nat) : (s.warn rule who what).rings = s.rings := rfl
@[simp] theorem State.warn_wks (s : State) (rule who what : Nat) : (s.warn rule who what).wks = s.wks := rfl
@[simp] theorem State.warn_hud (s : State) (rule who what : Nat) : (s.warn rule who what).hud = s.hud := rfl
@[simp] theorem State.warn_com (s : State) (rule who what : Nat) : (s.warn rule who what).com = s.com := rfl
@[simp] theorem State.warn_store (s : State) (rule who what : Nat) : (s.warn rule who what).store = s.store := rfl
@[simp] theorem State.warn_pair (s : State) (rule who what : Nat) : (s.warn rule who what).pair = s.pair := rfl
@[simp] theorem State.warn_host (s : State) (rule who what : Nat) : (s.warn rule who what).host = s.host := rfl
@[simp] theorem State.warn_boot (s : State) (rule who what : Nat) : (s.warn rule who what).boot = s.boot := rfl
@[simp] theorem State.warn_get (s : State) (rule who what : Nat) (o' : Obj) (i' j' k' : Nat) : (s.warn rule who what).get o' i' j' k' = s.get o' i' j' k' := rfl
@[simp] theorem State.warn_nat (s : State) (rule who what : Nat) (o' : Obj) (i' j' k' : Nat) : (s.warn rule who what).nat o' i' j' k' = s.nat o' i' j' k' := rfl
@[simp] theorem State.warn_flag (s : State) (rule who what : Nat) (o' : Obj) (i' j' k' : Nat) : (s.warn rule who what).flag o' i' j' k' = s.flag o' i' j' k' := rfl
@[simp] theorem State.warn_bytes (s : State) (rule who what : Nat) (o' : Obj) (i' j' k' : Nat) : (s.warn rule who what).bytes o' i' j' k' = s.bytes o' i' j' k' := rfl
@[simp] theorem State.warn_axis (s : State) (rule who what : Nat) (q : Nat) : (s.warn rule who what).axis q = s.axis q := rfl
@[simp] theorem State.warn_fbu (s : State) (rule who what : Nat) (q : Nat) : (s.warn rule who what).fbu q = s.fbu q := rfl
@[simp] theorem State.warn_latch (s : State) (rule who what : Nat) (q : Nat) : (s.warn rule who what).latch q = s.latch q := rfl
@[simp] theorem State.warn_cmp (s : State) (rule who what : Nat) (q : Nat) : (s.warn rule who what).cmp q = s.cmp q := rfl
@[simp] theorem State.warn_master (s : State) (rule who what : Nat) (q : Nat) : (s.warn rule who what).master q = s.master q := rfl
@[simp] theorem State.warn_eng (s : State) (rule who what : Nat) (q : Nat) : (s.warn rule who what).eng q = s.eng q := rfl
@[simp] theorem State.warn_ace (s : State) (rule who what : Nat) (q : Nat) : (s.warn rule who what).ace q = s.ace q := rfl
@[simp] theorem State.warn_ep (s : State) (rule who what : Nat) (q : Nat) : (s.warn rule who what).ep q = s.ep q := rfl
@[simp] theorem State.warn_port (s : State) (rule who what : Nat) (q : Nat) : (s.warn rule who what).port q = s.port q := rfl
@[simp] theorem State.warn_ring (s : State) (rule who what : Nat) (q : Nat) : (s.warn rule who what).ring q = s.ring q := rfl
@[simp] theorem State.warn_wk (s : State) (rule who what : Nat) (q q' : Nat) : (s.warn rule who what).wk q q' = s.wk q q' := rfl

/-! ### State.at -/

@[simp] theorem State.at_pending (s : State) (t : Nat) : (s.at t).pending = s.pending := by unfold State.at; split <;> rfl
@[simp] theorem State.at_free (s : State) (t : Nat) : (s.at t).free = s.free := by unfold State.at; split <;> rfl
@[simp] theorem State.at_out (s : State) (t : Nat) : (s.at t).out = s.out := by unfold State.at; split <;> rfl
@[simp] theorem State.at_od (s : State) (t : Nat) : (s.at t).od = s.od := by unfold State.at; split <;> rfl
@[simp] theorem State.at_staged (s : State) (t : Nat) : (s.at t).staged = s.staged := by unfold State.at; split <;> rfl
@[simp] theorem State.at_snaps (s : State) (t : Nat) : (s.at t).snaps = s.snaps := by unfold State.at; split <;> rfl
@[simp] theorem State.at_axes (s : State) (t : Nat) : (s.at t).axes = s.axes := by unfold State.at; split <;> rfl
@[simp] theorem State.at_fbs (s : State) (t : Nat) : (s.at t).fbs = s.fbs := by unfold State.at; split <;> rfl
@[simp] theorem State.at_lats (s : State) (t : Nat) : (s.at t).lats = s.lats := by unfold State.at; split <;> rfl
@[simp] theorem State.at_cmps (s : State) (t : Nat) : (s.at t).cmps = s.cmps := by unfold State.at; split <;> rfl
@[simp] theorem State.at_msts (s : State) (t : Nat) : (s.at t).msts = s.msts := by unfold State.at; split <;> rfl
@[simp] theorem State.at_disp (s : State) (t : Nat) : (s.at t).disp = s.disp := by unfold State.at; split <;> rfl
@[simp] theorem State.at_engs (s : State) (t : Nat) : (s.at t).engs = s.engs := by unfold State.at; split <;> rfl
@[simp] theorem State.at_aces (s : State) (t : Nat) : (s.at t).aces = s.aces := by unfold State.at; split <;> rfl
@[simp] theorem State.at_shared (s : State) (t : Nat) : (s.at t).shared = s.shared := by unfold State.at; split <;> rfl
@[simp] theorem State.at_ucode (s : State) (t : Nat) : (s.at t).ucode = s.ucode := by unfold State.at; split <;> rfl
@[simp] theorem State.at_eps (s : State) (t : Nat) : (s.at t).eps = s.eps := by unfold State.at; split <;> rfl
@[simp] theorem State.at_field (s : State) (t : Nat) : (s.at t).field = s.field := by unfold State.at; split <;> rfl
@[simp] theorem State.at_time (s : State) (t : Nat) : (s.at t).time = s.time := by unfold State.at; split <;> rfl
@[simp] theorem State.at_obs (s : State) (t : Nat) : (s.at t).obs = s.obs := by unfold State.at; split <;> rfl
@[simp] theorem State.at_safe (s : State) (t : Nat) : (s.at t).safe = s.safe := by unfold State.at; split <;> rfl
@[simp] theorem State.at_debugger (s : State) (t : Nat) : (s.at t).debugger = s.debugger := by unfold State.at; split <;> rfl
@[simp] theorem State.at_benchUp (s : State) (t : Nat) : (s.at t).benchUp = s.benchUp := by unfold State.at; split <;> rfl
@[simp] theorem State.at_ports (s : State) (t : Nat) : (s.at t).ports = s.ports := by unfold State.at; split <;> rfl
@[simp] theorem State.at_rings (s : State) (t : Nat) : (s.at t).rings = s.rings := by unfold State.at; split <;> rfl
@[simp] theorem State.at_wks (s : State) (t : Nat) : (s.at t).wks = s.wks := by unfold State.at; split <;> rfl
@[simp] theorem State.at_hud (s : State) (t : Nat) : (s.at t).hud = s.hud := by unfold State.at; split <;> rfl
@[simp] theorem State.at_com (s : State) (t : Nat) : (s.at t).com = s.com := by unfold State.at; split <;> rfl
@[simp] theorem State.at_store (s : State) (t : Nat) : (s.at t).store = s.store := by unfold State.at; split <;> rfl
@[simp] theorem State.at_pair (s : State) (t : Nat) : (s.at t).pair = s.pair := by unfold State.at; split <;> rfl
@[simp] theorem State.at_host (s : State) (t : Nat) : (s.at t).host = s.host := by unfold State.at; split <;> rfl
@[simp] theorem State.at_boot (s : State) (t : Nat) : (s.at t).boot = s.boot := by unfold State.at; split <;> rfl
@[simp] theorem State.at_get (s : State) (t : Nat) (o' : Obj) (i' j' k' : Nat) : (s.at t).get o' i' j' k' = s.get o' i' j' k' := by unfold State.at; split <;> rfl
@[simp] theorem State.at_nat (s : State) (t : Nat) (o' : Obj) (i' j' k' : Nat) : (s.at t).nat o' i' j' k' = s.nat o' i' j' k' := by unfold State.at; split <;> rfl
@[simp] theorem State.at_flag (s : State) (t : Nat) (o' : Obj) (i' j' k' : Nat) : (s.at t).flag o' i' j' k' = s.flag o' i' j' k' := by unfold State.at; split <;> rfl
@[simp] theorem State.at_bytes (s : State) (t : Nat) (o' : Obj) (i' j' k' : Nat) : (s.at t).bytes o' i' j' k' = s.bytes o' i' j' k' := by unfold State.at; split <;> rfl
@[simp] theorem State.at_axis (s : State) (t : Nat) (q : Nat) : (s.at t).axis q = s.axis q := by unfold State.at; split <;> rfl
@[simp] theorem State.at_fbu (s : State) (t : Nat) (q : Nat) : (s.at t).fbu q = s.fbu q := by unfold State.at; split <;> rfl
@[simp] theorem State.at_latch (s : State) (t : Nat) (q : Nat) : (s.at t).latch q = s.latch q := by unfold State.at; split <;> rfl
@[simp] theorem State.at_cmp (s : State) (t : Nat) (q : Nat) : (s.at t).cmp q = s.cmp q := by unfold State.at; split <;> rfl
@[simp] theorem State.at_master (s : State) (t : Nat) (q : Nat) : (s.at t).master q = s.master q := by unfold State.at; split <;> rfl
@[simp] theorem State.at_eng (s : State) (t : Nat) (q : Nat) : (s.at t).eng q = s.eng q := by unfold State.at; split <;> rfl
@[simp] theorem State.at_ace (s : State) (t : Nat) (q : Nat) : (s.at t).ace q = s.ace q := by unfold State.at; split <;> rfl
@[simp] theorem State.at_ep (s : State) (t : Nat) (q : Nat) : (s.at t).ep q = s.ep q := by unfold State.at; split <;> rfl
@[simp] theorem State.at_port (s : State) (t : Nat) (q : Nat) : (s.at t).port q = s.port q := by unfold State.at; split <;> rfl
@[simp] theorem State.at_ring (s : State) (t : Nat) (q : Nat) : (s.at t).ring q = s.ring q := by unfold State.at; split <;> rfl
@[simp] theorem State.at_wk (s : State) (t : Nat) (q q' : Nat) : (s.at t).wk q q' = s.wk q q' := by unfold State.at; split <;> rfl

/-! ### State.setAxis -/

@[simp] theorem State.setAxis_pending (s : State) (a : Nat) (x : AxisRt) : (s.setAxis a x).pending = s.pending := rfl
@[simp] theorem State.setAxis_now (s : State) (a : Nat) (x : AxisRt) : (s.setAxis a x).now = s.now := rfl
@[simp] theorem State.setAxis_frac (s : State) (a : Nat) (x : AxisRt) : (s.setAxis a x).frac = s.frac := rfl
@[simp] theorem State.setAxis_free (s : State) (a : Nat) (x : AxisRt) : (s.setAxis a x).free = s.free := rfl
@[simp] theorem State.setAxis_out (s : State) (a : Nat) (x : AxisRt) : (s.setAxis a x).out = s.out := rfl
@[simp] theorem State.setAxis_od (s : State) (a : Nat) (x : AxisRt) : (s.setAxis a x).od = s.od := rfl
@[simp] theorem State.setAxis_staged (s : State) (a : Nat) (x : AxisRt) : (s.setAxis a x).staged = s.staged := rfl
@[simp] theorem State.setAxis_snaps (s : State) (a : Nat) (x : AxisRt) : (s.setAxis a x).snaps = s.snaps := rfl
@[simp] theorem State.setAxis_fbs (s : State) (a : Nat) (x : AxisRt) : (s.setAxis a x).fbs = s.fbs := rfl
@[simp] theorem State.setAxis_lats (s : State) (a : Nat) (x : AxisRt) : (s.setAxis a x).lats = s.lats := rfl
@[simp] theorem State.setAxis_cmps (s : State) (a : Nat) (x : AxisRt) : (s.setAxis a x).cmps = s.cmps := rfl
@[simp] theorem State.setAxis_msts (s : State) (a : Nat) (x : AxisRt) : (s.setAxis a x).msts = s.msts := rfl
@[simp] theorem State.setAxis_disp (s : State) (a : Nat) (x : AxisRt) : (s.setAxis a x).disp = s.disp := rfl
@[simp] theorem State.setAxis_engs (s : State) (a : Nat) (x : AxisRt) : (s.setAxis a x).engs = s.engs := rfl
@[simp] theorem State.setAxis_aces (s : State) (a : Nat) (x : AxisRt) : (s.setAxis a x).aces = s.aces := rfl
@[simp] theorem State.setAxis_shared (s : State) (a : Nat) (x : AxisRt) : (s.setAxis a x).shared = s.shared := rfl
@[simp] theorem State.setAxis_ucode (s : State) (a : Nat) (x : AxisRt) : (s.setAxis a x).ucode = s.ucode := rfl
@[simp] theorem State.setAxis_eps (s : State) (a : Nat) (x : AxisRt) : (s.setAxis a x).eps = s.eps := rfl
@[simp] theorem State.setAxis_field (s : State) (a : Nat) (x : AxisRt) : (s.setAxis a x).field = s.field := rfl
@[simp] theorem State.setAxis_time (s : State) (a : Nat) (x : AxisRt) : (s.setAxis a x).time = s.time := rfl
@[simp] theorem State.setAxis_obs (s : State) (a : Nat) (x : AxisRt) : (s.setAxis a x).obs = s.obs := rfl
@[simp] theorem State.setAxis_safe (s : State) (a : Nat) (x : AxisRt) : (s.setAxis a x).safe = s.safe := rfl
@[simp] theorem State.setAxis_debugger (s : State) (a : Nat) (x : AxisRt) : (s.setAxis a x).debugger = s.debugger := rfl
@[simp] theorem State.setAxis_benchUp (s : State) (a : Nat) (x : AxisRt) : (s.setAxis a x).benchUp = s.benchUp := rfl
@[simp] theorem State.setAxis_ports (s : State) (a : Nat) (x : AxisRt) : (s.setAxis a x).ports = s.ports := rfl
@[simp] theorem State.setAxis_rings (s : State) (a : Nat) (x : AxisRt) : (s.setAxis a x).rings = s.rings := rfl
@[simp] theorem State.setAxis_wks (s : State) (a : Nat) (x : AxisRt) : (s.setAxis a x).wks = s.wks := rfl
@[simp] theorem State.setAxis_hud (s : State) (a : Nat) (x : AxisRt) : (s.setAxis a x).hud = s.hud := rfl
@[simp] theorem State.setAxis_com (s : State) (a : Nat) (x : AxisRt) : (s.setAxis a x).com = s.com := rfl
@[simp] theorem State.setAxis_store (s : State) (a : Nat) (x : AxisRt) : (s.setAxis a x).store = s.store := rfl
@[simp] theorem State.setAxis_pair (s : State) (a : Nat) (x : AxisRt) : (s.setAxis a x).pair = s.pair := rfl
@[simp] theorem State.setAxis_host (s : State) (a : Nat) (x : AxisRt) : (s.setAxis a x).host = s.host := rfl
@[simp] theorem State.setAxis_boot (s : State) (a : Nat) (x : AxisRt) : (s.setAxis a x).boot = s.boot := rfl
@[simp] theorem State.setAxis_get (s : State) (a : Nat) (x : AxisRt) (o' : Obj) (i' j' k' : Nat) : (s.setAxis a x).get o' i' j' k' = s.get o' i' j' k' := rfl
@[simp] theorem State.setAxis_nat (s : State) (a : Nat) (x : AxisRt) (o' : Obj) (i' j' k' : Nat) : (s.setAxis a x).nat o' i' j' k' = s.nat o' i' j' k' := rfl
@[simp] theorem State.setAxis_flag (s : State) (a : Nat) (x : AxisRt) (o' : Obj) (i' j' k' : Nat) : (s.setAxis a x).flag o' i' j' k' = s.flag o' i' j' k' := rfl
@[simp] theorem State.setAxis_bytes (s : State) (a : Nat) (x : AxisRt) (o' : Obj) (i' j' k' : Nat) : (s.setAxis a x).bytes o' i' j' k' = s.bytes o' i' j' k' := rfl
@[simp] theorem State.setAxis_fbu (s : State) (a : Nat) (x : AxisRt) (q : Nat) : (s.setAxis a x).fbu q = s.fbu q := rfl
@[simp] theorem State.setAxis_latch (s : State) (a : Nat) (x : AxisRt) (q : Nat) : (s.setAxis a x).latch q = s.latch q := rfl
@[simp] theorem State.setAxis_cmp (s : State) (a : Nat) (x : AxisRt) (q : Nat) : (s.setAxis a x).cmp q = s.cmp q := rfl
@[simp] theorem State.setAxis_master (s : State) (a : Nat) (x : AxisRt) (q : Nat) : (s.setAxis a x).master q = s.master q := rfl
@[simp] theorem State.setAxis_eng (s : State) (a : Nat) (x : AxisRt) (q : Nat) : (s.setAxis a x).eng q = s.eng q := rfl
@[simp] theorem State.setAxis_ace (s : State) (a : Nat) (x : AxisRt) (q : Nat) : (s.setAxis a x).ace q = s.ace q := rfl
@[simp] theorem State.setAxis_ep (s : State) (a : Nat) (x : AxisRt) (q : Nat) : (s.setAxis a x).ep q = s.ep q := rfl
@[simp] theorem State.setAxis_port (s : State) (a : Nat) (x : AxisRt) (q : Nat) : (s.setAxis a x).port q = s.port q := rfl
@[simp] theorem State.setAxis_ring (s : State) (a : Nat) (x : AxisRt) (q : Nat) : (s.setAxis a x).ring q = s.ring q := rfl
@[simp] theorem State.setAxis_wk (s : State) (a : Nat) (x : AxisRt) (q q' : Nat) : (s.setAxis a x).wk q q' = s.wk q q' := rfl

/-! ### State.modAxis -/

@[simp] theorem State.modAxis_pending (s : State) (a : Nat) (f : AxisRt → AxisRt) : (s.modAxis a f).pending = s.pending := rfl
@[simp] theorem State.modAxis_now (s : State) (a : Nat) (f : AxisRt → AxisRt) : (s.modAxis a f).now = s.now := rfl
@[simp] theorem State.modAxis_frac (s : State) (a : Nat) (f : AxisRt → AxisRt) : (s.modAxis a f).frac = s.frac := rfl
@[simp] theorem State.modAxis_free (s : State) (a : Nat) (f : AxisRt → AxisRt) : (s.modAxis a f).free = s.free := rfl
@[simp] theorem State.modAxis_out (s : State) (a : Nat) (f : AxisRt → AxisRt) : (s.modAxis a f).out = s.out := rfl
@[simp] theorem State.modAxis_od (s : State) (a : Nat) (f : AxisRt → AxisRt) : (s.modAxis a f).od = s.od := rfl
@[simp] theorem State.modAxis_staged (s : State) (a : Nat) (f : AxisRt → AxisRt) : (s.modAxis a f).staged = s.staged := rfl
@[simp] theorem State.modAxis_snaps (s : State) (a : Nat) (f : AxisRt → AxisRt) : (s.modAxis a f).snaps = s.snaps := rfl
@[simp] theorem State.modAxis_fbs (s : State) (a : Nat) (f : AxisRt → AxisRt) : (s.modAxis a f).fbs = s.fbs := rfl
@[simp] theorem State.modAxis_lats (s : State) (a : Nat) (f : AxisRt → AxisRt) : (s.modAxis a f).lats = s.lats := rfl
@[simp] theorem State.modAxis_cmps (s : State) (a : Nat) (f : AxisRt → AxisRt) : (s.modAxis a f).cmps = s.cmps := rfl
@[simp] theorem State.modAxis_msts (s : State) (a : Nat) (f : AxisRt → AxisRt) : (s.modAxis a f).msts = s.msts := rfl
@[simp] theorem State.modAxis_disp (s : State) (a : Nat) (f : AxisRt → AxisRt) : (s.modAxis a f).disp = s.disp := rfl
@[simp] theorem State.modAxis_engs (s : State) (a : Nat) (f : AxisRt → AxisRt) : (s.modAxis a f).engs = s.engs := rfl
@[simp] theorem State.modAxis_aces (s : State) (a : Nat) (f : AxisRt → AxisRt) : (s.modAxis a f).aces = s.aces := rfl
@[simp] theorem State.modAxis_shared (s : State) (a : Nat) (f : AxisRt → AxisRt) : (s.modAxis a f).shared = s.shared := rfl
@[simp] theorem State.modAxis_ucode (s : State) (a : Nat) (f : AxisRt → AxisRt) : (s.modAxis a f).ucode = s.ucode := rfl
@[simp] theorem State.modAxis_eps (s : State) (a : Nat) (f : AxisRt → AxisRt) : (s.modAxis a f).eps = s.eps := rfl
@[simp] theorem State.modAxis_field (s : State) (a : Nat) (f : AxisRt → AxisRt) : (s.modAxis a f).field = s.field := rfl
@[simp] theorem State.modAxis_time (s : State) (a : Nat) (f : AxisRt → AxisRt) : (s.modAxis a f).time = s.time := rfl
@[simp] theorem State.modAxis_obs (s : State) (a : Nat) (f : AxisRt → AxisRt) : (s.modAxis a f).obs = s.obs := rfl
@[simp] theorem State.modAxis_safe (s : State) (a : Nat) (f : AxisRt → AxisRt) : (s.modAxis a f).safe = s.safe := rfl
@[simp] theorem State.modAxis_debugger (s : State) (a : Nat) (f : AxisRt → AxisRt) : (s.modAxis a f).debugger = s.debugger := rfl
@[simp] theorem State.modAxis_benchUp (s : State) (a : Nat) (f : AxisRt → AxisRt) : (s.modAxis a f).benchUp = s.benchUp := rfl
@[simp] theorem State.modAxis_ports (s : State) (a : Nat) (f : AxisRt → AxisRt) : (s.modAxis a f).ports = s.ports := rfl
@[simp] theorem State.modAxis_rings (s : State) (a : Nat) (f : AxisRt → AxisRt) : (s.modAxis a f).rings = s.rings := rfl
@[simp] theorem State.modAxis_wks (s : State) (a : Nat) (f : AxisRt → AxisRt) : (s.modAxis a f).wks = s.wks := rfl
@[simp] theorem State.modAxis_hud (s : State) (a : Nat) (f : AxisRt → AxisRt) : (s.modAxis a f).hud = s.hud := rfl
@[simp] theorem State.modAxis_com (s : State) (a : Nat) (f : AxisRt → AxisRt) : (s.modAxis a f).com = s.com := rfl
@[simp] theorem State.modAxis_store (s : State) (a : Nat) (f : AxisRt → AxisRt) : (s.modAxis a f).store = s.store := rfl
@[simp] theorem State.modAxis_pair (s : State) (a : Nat) (f : AxisRt → AxisRt) : (s.modAxis a f).pair = s.pair := rfl
@[simp] theorem State.modAxis_host (s : State) (a : Nat) (f : AxisRt → AxisRt) : (s.modAxis a f).host = s.host := rfl
@[simp] theorem State.modAxis_boot (s : State) (a : Nat) (f : AxisRt → AxisRt) : (s.modAxis a f).boot = s.boot := rfl
@[simp] theorem State.modAxis_get (s : State) (a : Nat) (f : AxisRt → AxisRt) (o' : Obj) (i' j' k' : Nat) : (s.modAxis a f).get o' i' j' k' = s.get o' i' j' k' := rfl
@[simp] theorem State.modAxis_nat (s : State) (a : Nat) (f : AxisRt → AxisRt) (o' : Obj) (i' j' k' : Nat) : (s.modAxis a f).nat o' i' j' k' = s.nat o' i' j' k' := rfl
@[simp] theorem State.modAxis_flag (s : State) (a : Nat) (f : AxisRt → AxisRt) (o' : Obj) (i' j' k' : Nat) : (s.modAxis a f).flag o' i' j' k' = s.flag o' i' j' k' := rfl
@[simp] theorem State.modAxis_bytes (s : State) (a : Nat) (f : AxisRt → AxisRt) (o' : Obj) (i' j' k' : Nat) : (s.modAxis a f).bytes o' i' j' k' = s.bytes o' i' j' k' := rfl
@[simp] theorem State.modAxis_fbu (s : State) (a : Nat) (f : AxisRt → AxisRt) (q : Nat) : (s.modAxis a f).fbu q = s.fbu q := rfl
@[simp] theorem State.modAxis_latch (s : State) (a : Nat) (f : AxisRt → AxisRt) (q : Nat) : (s.modAxis a f).latch q = s.latch q := rfl
@[simp] theorem State.modAxis_cmp (s : State) (a : Nat) (f : AxisRt → AxisRt) (q : Nat) : (s.modAxis a f).cmp q = s.cmp q := rfl
@[simp] theorem State.modAxis_master (s : State) (a : Nat) (f : AxisRt → AxisRt) (q : Nat) : (s.modAxis a f).master q = s.master q := rfl
@[simp] theorem State.modAxis_eng (s : State) (a : Nat) (f : AxisRt → AxisRt) (q : Nat) : (s.modAxis a f).eng q = s.eng q := rfl
@[simp] theorem State.modAxis_ace (s : State) (a : Nat) (f : AxisRt → AxisRt) (q : Nat) : (s.modAxis a f).ace q = s.ace q := rfl
@[simp] theorem State.modAxis_ep (s : State) (a : Nat) (f : AxisRt → AxisRt) (q : Nat) : (s.modAxis a f).ep q = s.ep q := rfl
@[simp] theorem State.modAxis_port (s : State) (a : Nat) (f : AxisRt → AxisRt) (q : Nat) : (s.modAxis a f).port q = s.port q := rfl
@[simp] theorem State.modAxis_ring (s : State) (a : Nat) (f : AxisRt → AxisRt) (q : Nat) : (s.modAxis a f).ring q = s.ring q := rfl
@[simp] theorem State.modAxis_wk (s : State) (a : Nat) (f : AxisRt → AxisRt) (q q' : Nat) : (s.modAxis a f).wk q q' = s.wk q q' := rfl

/-! ### State.modMot -/

@[simp] theorem State.modMot_pending (s : State) (a : Nat) (f : MotSt → MotSt) : (s.modMot a f).pending = s.pending := rfl
@[simp] theorem State.modMot_now (s : State) (a : Nat) (f : MotSt → MotSt) : (s.modMot a f).now = s.now := rfl
@[simp] theorem State.modMot_frac (s : State) (a : Nat) (f : MotSt → MotSt) : (s.modMot a f).frac = s.frac := rfl
@[simp] theorem State.modMot_free (s : State) (a : Nat) (f : MotSt → MotSt) : (s.modMot a f).free = s.free := rfl
@[simp] theorem State.modMot_out (s : State) (a : Nat) (f : MotSt → MotSt) : (s.modMot a f).out = s.out := rfl
@[simp] theorem State.modMot_od (s : State) (a : Nat) (f : MotSt → MotSt) : (s.modMot a f).od = s.od := rfl
@[simp] theorem State.modMot_staged (s : State) (a : Nat) (f : MotSt → MotSt) : (s.modMot a f).staged = s.staged := rfl
@[simp] theorem State.modMot_snaps (s : State) (a : Nat) (f : MotSt → MotSt) : (s.modMot a f).snaps = s.snaps := rfl
@[simp] theorem State.modMot_fbs (s : State) (a : Nat) (f : MotSt → MotSt) : (s.modMot a f).fbs = s.fbs := rfl
@[simp] theorem State.modMot_lats (s : State) (a : Nat) (f : MotSt → MotSt) : (s.modMot a f).lats = s.lats := rfl
@[simp] theorem State.modMot_cmps (s : State) (a : Nat) (f : MotSt → MotSt) : (s.modMot a f).cmps = s.cmps := rfl
@[simp] theorem State.modMot_msts (s : State) (a : Nat) (f : MotSt → MotSt) : (s.modMot a f).msts = s.msts := rfl
@[simp] theorem State.modMot_disp (s : State) (a : Nat) (f : MotSt → MotSt) : (s.modMot a f).disp = s.disp := rfl
@[simp] theorem State.modMot_engs (s : State) (a : Nat) (f : MotSt → MotSt) : (s.modMot a f).engs = s.engs := rfl
@[simp] theorem State.modMot_aces (s : State) (a : Nat) (f : MotSt → MotSt) : (s.modMot a f).aces = s.aces := rfl
@[simp] theorem State.modMot_shared (s : State) (a : Nat) (f : MotSt → MotSt) : (s.modMot a f).shared = s.shared := rfl
@[simp] theorem State.modMot_ucode (s : State) (a : Nat) (f : MotSt → MotSt) : (s.modMot a f).ucode = s.ucode := rfl
@[simp] theorem State.modMot_eps (s : State) (a : Nat) (f : MotSt → MotSt) : (s.modMot a f).eps = s.eps := rfl
@[simp] theorem State.modMot_field (s : State) (a : Nat) (f : MotSt → MotSt) : (s.modMot a f).field = s.field := rfl
@[simp] theorem State.modMot_time (s : State) (a : Nat) (f : MotSt → MotSt) : (s.modMot a f).time = s.time := rfl
@[simp] theorem State.modMot_obs (s : State) (a : Nat) (f : MotSt → MotSt) : (s.modMot a f).obs = s.obs := rfl
@[simp] theorem State.modMot_safe (s : State) (a : Nat) (f : MotSt → MotSt) : (s.modMot a f).safe = s.safe := rfl
@[simp] theorem State.modMot_debugger (s : State) (a : Nat) (f : MotSt → MotSt) : (s.modMot a f).debugger = s.debugger := rfl
@[simp] theorem State.modMot_benchUp (s : State) (a : Nat) (f : MotSt → MotSt) : (s.modMot a f).benchUp = s.benchUp := rfl
@[simp] theorem State.modMot_ports (s : State) (a : Nat) (f : MotSt → MotSt) : (s.modMot a f).ports = s.ports := rfl
@[simp] theorem State.modMot_rings (s : State) (a : Nat) (f : MotSt → MotSt) : (s.modMot a f).rings = s.rings := rfl
@[simp] theorem State.modMot_wks (s : State) (a : Nat) (f : MotSt → MotSt) : (s.modMot a f).wks = s.wks := rfl
@[simp] theorem State.modMot_hud (s : State) (a : Nat) (f : MotSt → MotSt) : (s.modMot a f).hud = s.hud := rfl
@[simp] theorem State.modMot_com (s : State) (a : Nat) (f : MotSt → MotSt) : (s.modMot a f).com = s.com := rfl
@[simp] theorem State.modMot_store (s : State) (a : Nat) (f : MotSt → MotSt) : (s.modMot a f).store = s.store := rfl
@[simp] theorem State.modMot_pair (s : State) (a : Nat) (f : MotSt → MotSt) : (s.modMot a f).pair = s.pair := rfl
@[simp] theorem State.modMot_host (s : State) (a : Nat) (f : MotSt → MotSt) : (s.modMot a f).host = s.host := rfl
@[simp] theorem State.modMot_boot (s : State) (a : Nat) (f : MotSt → MotSt) : (s.modMot a f).boot = s.boot := rfl
@[simp] theorem State.modMot_get (s : State) (a : Nat) (f : MotSt → MotSt) (o' : Obj) (i' j' k' : Nat) : (s.modMot a f).get o' i' j' k' = s.get o' i' j' k' := rfl
@[simp] theorem State.modMot_nat (s : State) (a : Nat) (f : MotSt → MotSt) (o' : Obj) (i' j' k' : Nat) : (s.modMot a f).nat o' i' j' k' = s.nat o' i' j' k' := rfl
@[simp] theorem State.modMot_flag (s : State) (a : Nat) (f : MotSt → MotSt) (o' : Obj) (i' j' k' : Nat) : (s.modMot a f).flag o' i' j' k' = s.flag o' i' j' k' := rfl
@[simp] theorem State.modMot_bytes (s : State) (a : Nat) (f : MotSt → MotSt) (o' : Obj) (i' j' k' : Nat) : (s.modMot a f).bytes o' i' j' k' = s.bytes o' i' j' k' := rfl
@[simp] theorem State.modMot_fbu (s : State) (a : Nat) (f : MotSt → MotSt) (q : Nat) : (s.modMot a f).fbu q = s.fbu q := rfl
@[simp] theorem State.modMot_latch (s : State) (a : Nat) (f : MotSt → MotSt) (q : Nat) : (s.modMot a f).latch q = s.latch q := rfl
@[simp] theorem State.modMot_cmp (s : State) (a : Nat) (f : MotSt → MotSt) (q : Nat) : (s.modMot a f).cmp q = s.cmp q := rfl
@[simp] theorem State.modMot_master (s : State) (a : Nat) (f : MotSt → MotSt) (q : Nat) : (s.modMot a f).master q = s.master q := rfl
@[simp] theorem State.modMot_eng (s : State) (a : Nat) (f : MotSt → MotSt) (q : Nat) : (s.modMot a f).eng q = s.eng q := rfl
@[simp] theorem State.modMot_ace (s : State) (a : Nat) (f : MotSt → MotSt) (q : Nat) : (s.modMot a f).ace q = s.ace q := rfl
@[simp] theorem State.modMot_ep (s : State) (a : Nat) (f : MotSt → MotSt) (q : Nat) : (s.modMot a f).ep q = s.ep q := rfl
@[simp] theorem State.modMot_port (s : State) (a : Nat) (f : MotSt → MotSt) (q : Nat) : (s.modMot a f).port q = s.port q := rfl
@[simp] theorem State.modMot_ring (s : State) (a : Nat) (f : MotSt → MotSt) (q : Nat) : (s.modMot a f).ring q = s.ring q := rfl
@[simp] theorem State.modMot_wk (s : State) (a : Nat) (f : MotSt → MotSt) (q q' : Nat) : (s.modMot a f).wk q q' = s.wk q q' := rfl

/-! ### State.setFbu -/

@[simp] theorem State.setFbu_pending (s : State) (u : Nat) (x : FbUnit) : (s.setFbu u x).pending = s.pending := rfl
@[simp] theorem State.setFbu_now (s : State) (u : Nat) (x : FbUnit) : (s.setFbu u x).now = s.now := rfl
@[simp] theorem State.setFbu_frac (s : State) (u : Nat) (x : FbUnit) : (s.setFbu u x).frac = s.frac := rfl
@[simp] theorem State.setFbu_free (s : State) (u : Nat) (x : FbUnit) : (s.setFbu u x).free = s.free := rfl
@[simp] theorem State.setFbu_out (s : State) (u : Nat) (x : FbUnit) : (s.setFbu u x).out = s.out := rfl
@[simp] theorem State.setFbu_od (s : State) (u : Nat) (x : FbUnit) : (s.setFbu u x).od = s.od := rfl
@[simp] theorem State.setFbu_staged (s : State) (u : Nat) (x : FbUnit) : (s.setFbu u x).staged = s.staged := rfl
@[simp] theorem State.setFbu_snaps (s : State) (u : Nat) (x : FbUnit) : (s.setFbu u x).snaps = s.snaps := rfl
@[simp] theorem State.setFbu_axes (s : State) (u : Nat) (x : FbUnit) : (s.setFbu u x).axes = s.axes := rfl
@[simp] theorem State.setFbu_lats (s : State) (u : Nat) (x : FbUnit) : (s.setFbu u x).lats = s.lats := rfl
@[simp] theorem State.setFbu_cmps (s : State) (u : Nat) (x : FbUnit) : (s.setFbu u x).cmps = s.cmps := rfl
@[simp] theorem State.setFbu_msts (s : State) (u : Nat) (x : FbUnit) : (s.setFbu u x).msts = s.msts := rfl
@[simp] theorem State.setFbu_disp (s : State) (u : Nat) (x : FbUnit) : (s.setFbu u x).disp = s.disp := rfl
@[simp] theorem State.setFbu_engs (s : State) (u : Nat) (x : FbUnit) : (s.setFbu u x).engs = s.engs := rfl
@[simp] theorem State.setFbu_aces (s : State) (u : Nat) (x : FbUnit) : (s.setFbu u x).aces = s.aces := rfl
@[simp] theorem State.setFbu_shared (s : State) (u : Nat) (x : FbUnit) : (s.setFbu u x).shared = s.shared := rfl
@[simp] theorem State.setFbu_ucode (s : State) (u : Nat) (x : FbUnit) : (s.setFbu u x).ucode = s.ucode := rfl
@[simp] theorem State.setFbu_eps (s : State) (u : Nat) (x : FbUnit) : (s.setFbu u x).eps = s.eps := rfl
@[simp] theorem State.setFbu_field (s : State) (u : Nat) (x : FbUnit) : (s.setFbu u x).field = s.field := rfl
@[simp] theorem State.setFbu_time (s : State) (u : Nat) (x : FbUnit) : (s.setFbu u x).time = s.time := rfl
@[simp] theorem State.setFbu_obs (s : State) (u : Nat) (x : FbUnit) : (s.setFbu u x).obs = s.obs := rfl
@[simp] theorem State.setFbu_safe (s : State) (u : Nat) (x : FbUnit) : (s.setFbu u x).safe = s.safe := rfl
@[simp] theorem State.setFbu_debugger (s : State) (u : Nat) (x : FbUnit) : (s.setFbu u x).debugger = s.debugger := rfl
@[simp] theorem State.setFbu_benchUp (s : State) (u : Nat) (x : FbUnit) : (s.setFbu u x).benchUp = s.benchUp := rfl
@[simp] theorem State.setFbu_ports (s : State) (u : Nat) (x : FbUnit) : (s.setFbu u x).ports = s.ports := rfl
@[simp] theorem State.setFbu_rings (s : State) (u : Nat) (x : FbUnit) : (s.setFbu u x).rings = s.rings := rfl
@[simp] theorem State.setFbu_wks (s : State) (u : Nat) (x : FbUnit) : (s.setFbu u x).wks = s.wks := rfl
@[simp] theorem State.setFbu_hud (s : State) (u : Nat) (x : FbUnit) : (s.setFbu u x).hud = s.hud := rfl
@[simp] theorem State.setFbu_com (s : State) (u : Nat) (x : FbUnit) : (s.setFbu u x).com = s.com := rfl
@[simp] theorem State.setFbu_store (s : State) (u : Nat) (x : FbUnit) : (s.setFbu u x).store = s.store := rfl
@[simp] theorem State.setFbu_pair (s : State) (u : Nat) (x : FbUnit) : (s.setFbu u x).pair = s.pair := rfl
@[simp] theorem State.setFbu_host (s : State) (u : Nat) (x : FbUnit) : (s.setFbu u x).host = s.host := rfl
@[simp] theorem State.setFbu_boot (s : State) (u : Nat) (x : FbUnit) : (s.setFbu u x).boot = s.boot := rfl
@[simp] theorem State.setFbu_get (s : State) (u : Nat) (x : FbUnit) (o' : Obj) (i' j' k' : Nat) : (s.setFbu u x).get o' i' j' k' = s.get o' i' j' k' := rfl
@[simp] theorem State.setFbu_nat (s : State) (u : Nat) (x : FbUnit) (o' : Obj) (i' j' k' : Nat) : (s.setFbu u x).nat o' i' j' k' = s.nat o' i' j' k' := rfl
@[simp] theorem State.setFbu_flag (s : State) (u : Nat) (x : FbUnit) (o' : Obj) (i' j' k' : Nat) : (s.setFbu u x).flag o' i' j' k' = s.flag o' i' j' k' := rfl
@[simp] theorem State.setFbu_bytes (s : State) (u : Nat) (x : FbUnit) (o' : Obj) (i' j' k' : Nat) : (s.setFbu u x).bytes o' i' j' k' = s.bytes o' i' j' k' := rfl
@[simp] theorem State.setFbu_axis (s : State) (u : Nat) (x : FbUnit) (q : Nat) : (s.setFbu u x).axis q = s.axis q := rfl
@[simp] theorem State.setFbu_latch (s : State) (u : Nat) (x : FbUnit) (q : Nat) : (s.setFbu u x).latch q = s.latch q := rfl
@[simp] theorem State.setFbu_cmp (s : State) (u : Nat) (x : FbUnit) (q : Nat) : (s.setFbu u x).cmp q = s.cmp q := rfl
@[simp] theorem State.setFbu_master (s : State) (u : Nat) (x : FbUnit) (q : Nat) : (s.setFbu u x).master q = s.master q := rfl
@[simp] theorem State.setFbu_eng (s : State) (u : Nat) (x : FbUnit) (q : Nat) : (s.setFbu u x).eng q = s.eng q := rfl
@[simp] theorem State.setFbu_ace (s : State) (u : Nat) (x : FbUnit) (q : Nat) : (s.setFbu u x).ace q = s.ace q := rfl
@[simp] theorem State.setFbu_ep (s : State) (u : Nat) (x : FbUnit) (q : Nat) : (s.setFbu u x).ep q = s.ep q := rfl
@[simp] theorem State.setFbu_port (s : State) (u : Nat) (x : FbUnit) (q : Nat) : (s.setFbu u x).port q = s.port q := rfl
@[simp] theorem State.setFbu_ring (s : State) (u : Nat) (x : FbUnit) (q : Nat) : (s.setFbu u x).ring q = s.ring q := rfl
@[simp] theorem State.setFbu_wk (s : State) (u : Nat) (x : FbUnit) (q q' : Nat) : (s.setFbu u x).wk q q' = s.wk q q' := rfl

/-! ### State.setLatch -/

@[simp] theorem State.setLatch_pending (s : State) (l : Nat) (x : LatchRt) : (s.setLatch l x).pending = s.pending := rfl
@[simp] theorem State.setLatch_now (s : State) (l : Nat) (x : LatchRt) : (s.setLatch l x).now = s.now := rfl
@[simp] theorem State.setLatch_frac (s : State) (l : Nat) (x : LatchRt) : (s.setLatch l x).frac = s.frac := rfl
@[simp] theorem State.setLatch_free (s : State) (l : Nat) (x : LatchRt) : (s.setLatch l x).free = s.free := rfl
@[simp] theorem State.setLatch_out (s : State) (l : Nat) (x : LatchRt) : (s.setLatch l x).out = s.out := rfl
@[simp] theorem State.setLatch_od (s : State) (l : Nat) (x : LatchRt) : (s.setLatch l x).od = s.od := rfl
@[simp] theorem State.setLatch_staged (s : State) (l : Nat) (x : LatchRt) : (s.setLatch l x).staged = s.staged := rfl
@[simp] theorem State.setLatch_snaps (s : State) (l : Nat) (x : LatchRt) : (s.setLatch l x).snaps = s.snaps := rfl
@[simp] theorem State.setLatch_axes (s : State) (l : Nat) (x : LatchRt) : (s.setLatch l x).axes = s.axes := rfl
@[simp] theorem State.setLatch_fbs (s : State) (l : Nat) (x : LatchRt) : (s.setLatch l x).fbs = s.fbs := rfl
@[simp] theorem State.setLatch_cmps (s : State) (l : Nat) (x : LatchRt) : (s.setLatch l x).cmps = s.cmps := rfl
@[simp] theorem State.setLatch_msts (s : State) (l : Nat) (x : LatchRt) : (s.setLatch l x).msts = s.msts := rfl
@[simp] theorem State.setLatch_disp (s : State) (l : Nat) (x : LatchRt) : (s.setLatch l x).disp = s.disp := rfl
@[simp] theorem State.setLatch_engs (s : State) (l : Nat) (x : LatchRt) : (s.setLatch l x).engs = s.engs := rfl
@[simp] theorem State.setLatch_aces (s : State) (l : Nat) (x : LatchRt) : (s.setLatch l x).aces = s.aces := rfl
@[simp] theorem State.setLatch_shared (s : State) (l : Nat) (x : LatchRt) : (s.setLatch l x).shared = s.shared := rfl
@[simp] theorem State.setLatch_ucode (s : State) (l : Nat) (x : LatchRt) : (s.setLatch l x).ucode = s.ucode := rfl
@[simp] theorem State.setLatch_eps (s : State) (l : Nat) (x : LatchRt) : (s.setLatch l x).eps = s.eps := rfl
@[simp] theorem State.setLatch_field (s : State) (l : Nat) (x : LatchRt) : (s.setLatch l x).field = s.field := rfl
@[simp] theorem State.setLatch_time (s : State) (l : Nat) (x : LatchRt) : (s.setLatch l x).time = s.time := rfl
@[simp] theorem State.setLatch_obs (s : State) (l : Nat) (x : LatchRt) : (s.setLatch l x).obs = s.obs := rfl
@[simp] theorem State.setLatch_safe (s : State) (l : Nat) (x : LatchRt) : (s.setLatch l x).safe = s.safe := rfl
@[simp] theorem State.setLatch_debugger (s : State) (l : Nat) (x : LatchRt) : (s.setLatch l x).debugger = s.debugger := rfl
@[simp] theorem State.setLatch_benchUp (s : State) (l : Nat) (x : LatchRt) : (s.setLatch l x).benchUp = s.benchUp := rfl
@[simp] theorem State.setLatch_ports (s : State) (l : Nat) (x : LatchRt) : (s.setLatch l x).ports = s.ports := rfl
@[simp] theorem State.setLatch_rings (s : State) (l : Nat) (x : LatchRt) : (s.setLatch l x).rings = s.rings := rfl
@[simp] theorem State.setLatch_wks (s : State) (l : Nat) (x : LatchRt) : (s.setLatch l x).wks = s.wks := rfl
@[simp] theorem State.setLatch_hud (s : State) (l : Nat) (x : LatchRt) : (s.setLatch l x).hud = s.hud := rfl
@[simp] theorem State.setLatch_com (s : State) (l : Nat) (x : LatchRt) : (s.setLatch l x).com = s.com := rfl
@[simp] theorem State.setLatch_store (s : State) (l : Nat) (x : LatchRt) : (s.setLatch l x).store = s.store := rfl
@[simp] theorem State.setLatch_pair (s : State) (l : Nat) (x : LatchRt) : (s.setLatch l x).pair = s.pair := rfl
@[simp] theorem State.setLatch_host (s : State) (l : Nat) (x : LatchRt) : (s.setLatch l x).host = s.host := rfl
@[simp] theorem State.setLatch_boot (s : State) (l : Nat) (x : LatchRt) : (s.setLatch l x).boot = s.boot := rfl
@[simp] theorem State.setLatch_get (s : State) (l : Nat) (x : LatchRt) (o' : Obj) (i' j' k' : Nat) : (s.setLatch l x).get o' i' j' k' = s.get o' i' j' k' := rfl
@[simp] theorem State.setLatch_nat (s : State) (l : Nat) (x : LatchRt) (o' : Obj) (i' j' k' : Nat) : (s.setLatch l x).nat o' i' j' k' = s.nat o' i' j' k' := rfl
@[simp] theorem State.setLatch_flag (s : State) (l : Nat) (x : LatchRt) (o' : Obj) (i' j' k' : Nat) : (s.setLatch l x).flag o' i' j' k' = s.flag o' i' j' k' := rfl
@[simp] theorem State.setLatch_bytes (s : State) (l : Nat) (x : LatchRt) (o' : Obj) (i' j' k' : Nat) : (s.setLatch l x).bytes o' i' j' k' = s.bytes o' i' j' k' := rfl
@[simp] theorem State.setLatch_axis (s : State) (l : Nat) (x : LatchRt) (q : Nat) : (s.setLatch l x).axis q = s.axis q := rfl
@[simp] theorem State.setLatch_fbu (s : State) (l : Nat) (x : LatchRt) (q : Nat) : (s.setLatch l x).fbu q = s.fbu q := rfl
@[simp] theorem State.setLatch_cmp (s : State) (l : Nat) (x : LatchRt) (q : Nat) : (s.setLatch l x).cmp q = s.cmp q := rfl
@[simp] theorem State.setLatch_master (s : State) (l : Nat) (x : LatchRt) (q : Nat) : (s.setLatch l x).master q = s.master q := rfl
@[simp] theorem State.setLatch_eng (s : State) (l : Nat) (x : LatchRt) (q : Nat) : (s.setLatch l x).eng q = s.eng q := rfl
@[simp] theorem State.setLatch_ace (s : State) (l : Nat) (x : LatchRt) (q : Nat) : (s.setLatch l x).ace q = s.ace q := rfl
@[simp] theorem State.setLatch_ep (s : State) (l : Nat) (x : LatchRt) (q : Nat) : (s.setLatch l x).ep q = s.ep q := rfl
@[simp] theorem State.setLatch_port (s : State) (l : Nat) (x : LatchRt) (q : Nat) : (s.setLatch l x).port q = s.port q := rfl
@[simp] theorem State.setLatch_ring (s : State) (l : Nat) (x : LatchRt) (q : Nat) : (s.setLatch l x).ring q = s.ring q := rfl
@[simp] theorem State.setLatch_wk (s : State) (l : Nat) (x : LatchRt) (q q' : Nat) : (s.setLatch l x).wk q q' = s.wk q q' := rfl

/-! ### State.setCmp -/

@[simp] theorem State.setCmp_pending (s : State) (u : Nat) (x : CmpRt) : (s.setCmp u x).pending = s.pending := rfl
@[simp] theorem State.setCmp_now (s : State) (u : Nat) (x : CmpRt) : (s.setCmp u x).now = s.now := rfl
@[simp] theorem State.setCmp_frac (s : State) (u : Nat) (x : CmpRt) : (s.setCmp u x).frac = s.frac := rfl
@[simp] theorem State.setCmp_free (s : State) (u : Nat) (x : CmpRt) : (s.setCmp u x).free = s.free := rfl
@[simp] theorem State.setCmp_out (s : State) (u : Nat) (x : CmpRt) : (s.setCmp u x).out = s.out := rfl
@[simp] theorem State.setCmp_od (s : State) (u : Nat) (x : CmpRt) : (s.setCmp u x).od = s.od := rfl
@[simp] theorem State.setCmp_staged (s : State) (u : Nat) (x : CmpRt) : (s.setCmp u x).staged = s.staged := rfl
@[simp] theorem State.setCmp_snaps (s : State) (u : Nat) (x : CmpRt) : (s.setCmp u x).snaps = s.snaps := rfl
@[simp] theorem State.setCmp_axes (s : State) (u : Nat) (x : CmpRt) : (s.setCmp u x).axes = s.axes := rfl
@[simp] theorem State.setCmp_fbs (s : State) (u : Nat) (x : CmpRt) : (s.setCmp u x).fbs = s.fbs := rfl
@[simp] theorem State.setCmp_lats (s : State) (u : Nat) (x : CmpRt) : (s.setCmp u x).lats = s.lats := rfl
@[simp] theorem State.setCmp_msts (s : State) (u : Nat) (x : CmpRt) : (s.setCmp u x).msts = s.msts := rfl
@[simp] theorem State.setCmp_disp (s : State) (u : Nat) (x : CmpRt) : (s.setCmp u x).disp = s.disp := rfl
@[simp] theorem State.setCmp_engs (s : State) (u : Nat) (x : CmpRt) : (s.setCmp u x).engs = s.engs := rfl
@[simp] theorem State.setCmp_aces (s : State) (u : Nat) (x : CmpRt) : (s.setCmp u x).aces = s.aces := rfl
@[simp] theorem State.setCmp_shared (s : State) (u : Nat) (x : CmpRt) : (s.setCmp u x).shared = s.shared := rfl
@[simp] theorem State.setCmp_ucode (s : State) (u : Nat) (x : CmpRt) : (s.setCmp u x).ucode = s.ucode := rfl
@[simp] theorem State.setCmp_eps (s : State) (u : Nat) (x : CmpRt) : (s.setCmp u x).eps = s.eps := rfl
@[simp] theorem State.setCmp_field (s : State) (u : Nat) (x : CmpRt) : (s.setCmp u x).field = s.field := rfl
@[simp] theorem State.setCmp_time (s : State) (u : Nat) (x : CmpRt) : (s.setCmp u x).time = s.time := rfl
@[simp] theorem State.setCmp_obs (s : State) (u : Nat) (x : CmpRt) : (s.setCmp u x).obs = s.obs := rfl
@[simp] theorem State.setCmp_safe (s : State) (u : Nat) (x : CmpRt) : (s.setCmp u x).safe = s.safe := rfl
@[simp] theorem State.setCmp_debugger (s : State) (u : Nat) (x : CmpRt) : (s.setCmp u x).debugger = s.debugger := rfl
@[simp] theorem State.setCmp_benchUp (s : State) (u : Nat) (x : CmpRt) : (s.setCmp u x).benchUp = s.benchUp := rfl
@[simp] theorem State.setCmp_ports (s : State) (u : Nat) (x : CmpRt) : (s.setCmp u x).ports = s.ports := rfl
@[simp] theorem State.setCmp_rings (s : State) (u : Nat) (x : CmpRt) : (s.setCmp u x).rings = s.rings := rfl
@[simp] theorem State.setCmp_wks (s : State) (u : Nat) (x : CmpRt) : (s.setCmp u x).wks = s.wks := rfl
@[simp] theorem State.setCmp_hud (s : State) (u : Nat) (x : CmpRt) : (s.setCmp u x).hud = s.hud := rfl
@[simp] theorem State.setCmp_com (s : State) (u : Nat) (x : CmpRt) : (s.setCmp u x).com = s.com := rfl
@[simp] theorem State.setCmp_store (s : State) (u : Nat) (x : CmpRt) : (s.setCmp u x).store = s.store := rfl
@[simp] theorem State.setCmp_pair (s : State) (u : Nat) (x : CmpRt) : (s.setCmp u x).pair = s.pair := rfl
@[simp] theorem State.setCmp_host (s : State) (u : Nat) (x : CmpRt) : (s.setCmp u x).host = s.host := rfl
@[simp] theorem State.setCmp_boot (s : State) (u : Nat) (x : CmpRt) : (s.setCmp u x).boot = s.boot := rfl
@[simp] theorem State.setCmp_get (s : State) (u : Nat) (x : CmpRt) (o' : Obj) (i' j' k' : Nat) : (s.setCmp u x).get o' i' j' k' = s.get o' i' j' k' := rfl
@[simp] theorem State.setCmp_nat (s : State) (u : Nat) (x : CmpRt) (o' : Obj) (i' j' k' : Nat) : (s.setCmp u x).nat o' i' j' k' = s.nat o' i' j' k' := rfl
@[simp] theorem State.setCmp_flag (s : State) (u : Nat) (x : CmpRt) (o' : Obj) (i' j' k' : Nat) : (s.setCmp u x).flag o' i' j' k' = s.flag o' i' j' k' := rfl
@[simp] theorem State.setCmp_bytes (s : State) (u : Nat) (x : CmpRt) (o' : Obj) (i' j' k' : Nat) : (s.setCmp u x).bytes o' i' j' k' = s.bytes o' i' j' k' := rfl
@[simp] theorem State.setCmp_axis (s : State) (u : Nat) (x : CmpRt) (q : Nat) : (s.setCmp u x).axis q = s.axis q := rfl
@[simp] theorem State.setCmp_fbu (s : State) (u : Nat) (x : CmpRt) (q : Nat) : (s.setCmp u x).fbu q = s.fbu q := rfl
@[simp] theorem State.setCmp_latch (s : State) (u : Nat) (x : CmpRt) (q : Nat) : (s.setCmp u x).latch q = s.latch q := rfl
@[simp] theorem State.setCmp_master (s : State) (u : Nat) (x : CmpRt) (q : Nat) : (s.setCmp u x).master q = s.master q := rfl
@[simp] theorem State.setCmp_eng (s : State) (u : Nat) (x : CmpRt) (q : Nat) : (s.setCmp u x).eng q = s.eng q := rfl
@[simp] theorem State.setCmp_ace (s : State) (u : Nat) (x : CmpRt) (q : Nat) : (s.setCmp u x).ace q = s.ace q := rfl
@[simp] theorem State.setCmp_ep (s : State) (u : Nat) (x : CmpRt) (q : Nat) : (s.setCmp u x).ep q = s.ep q := rfl
@[simp] theorem State.setCmp_port (s : State) (u : Nat) (x : CmpRt) (q : Nat) : (s.setCmp u x).port q = s.port q := rfl
@[simp] theorem State.setCmp_ring (s : State) (u : Nat) (x : CmpRt) (q : Nat) : (s.setCmp u x).ring q = s.ring q := rfl
@[simp] theorem State.setCmp_wk (s : State) (u : Nat) (x : CmpRt) (q q' : Nat) : (s.setCmp u x).wk q q' = s.wk q q' := rfl

/-! ### State.setMaster -/

@[simp] theorem State.setMaster_pending (s : State) (k : Nat) (x : MasterRt) : (s.setMaster k x).pending = s.pending := rfl
@[simp] theorem State.setMaster_now (s : State) (k : Nat) (x : MasterRt) : (s.setMaster k x).now = s.now := rfl
@[simp] theorem State.setMaster_frac (s : State) (k : Nat) (x : MasterRt) : (s.setMaster k x).frac = s.frac := rfl
@[simp] theorem State.setMaster_free (s : State) (k : Nat) (x : MasterRt) : (s.setMaster k x).free = s.free := rfl
@[simp] theorem State.setMaster_out (s : State) (k : Nat) (x : MasterRt) : (s.setMaster k x).out = s.out := rfl
@[simp] theorem State.setMaster_od (s : State) (k : Nat) (x : MasterRt) : (s.setMaster k x).od = s.od := rfl
@[simp] theorem State.setMaster_staged (s : State) (k : Nat) (x : MasterRt) : (s.setMaster k x).staged = s.staged := rfl
@[simp] theorem State.setMaster_snaps (s : State) (k : Nat) (x : MasterRt) : (s.setMaster k x).snaps = s.snaps := rfl
@[simp] theorem State.setMaster_axes (s : State) (k : Nat) (x : MasterRt) : (s.setMaster k x).axes = s.axes := rfl
@[simp] theorem State.setMaster_fbs (s : State) (k : Nat) (x : MasterRt) : (s.setMaster k x).fbs = s.fbs := rfl
@[simp] theorem State.setMaster_lats (s : State) (k : Nat) (x : MasterRt) : (s.setMaster k x).lats = s.lats := rfl
@[simp] theorem State.setMaster_cmps (s : State) (k : Nat) (x : MasterRt) : (s.setMaster k x).cmps = s.cmps := rfl
@[simp] theorem State.setMaster_disp (s : State) (k : Nat) (x : MasterRt) : (s.setMaster k x).disp = s.disp := rfl
@[simp] theorem State.setMaster_engs (s : State) (k : Nat) (x : MasterRt) : (s.setMaster k x).engs = s.engs := rfl
@[simp] theorem State.setMaster_aces (s : State) (k : Nat) (x : MasterRt) : (s.setMaster k x).aces = s.aces := rfl
@[simp] theorem State.setMaster_shared (s : State) (k : Nat) (x : MasterRt) : (s.setMaster k x).shared = s.shared := rfl
@[simp] theorem State.setMaster_ucode (s : State) (k : Nat) (x : MasterRt) : (s.setMaster k x).ucode = s.ucode := rfl
@[simp] theorem State.setMaster_eps (s : State) (k : Nat) (x : MasterRt) : (s.setMaster k x).eps = s.eps := rfl
@[simp] theorem State.setMaster_field (s : State) (k : Nat) (x : MasterRt) : (s.setMaster k x).field = s.field := rfl
@[simp] theorem State.setMaster_time (s : State) (k : Nat) (x : MasterRt) : (s.setMaster k x).time = s.time := rfl
@[simp] theorem State.setMaster_obs (s : State) (k : Nat) (x : MasterRt) : (s.setMaster k x).obs = s.obs := rfl
@[simp] theorem State.setMaster_safe (s : State) (k : Nat) (x : MasterRt) : (s.setMaster k x).safe = s.safe := rfl
@[simp] theorem State.setMaster_debugger (s : State) (k : Nat) (x : MasterRt) : (s.setMaster k x).debugger = s.debugger := rfl
@[simp] theorem State.setMaster_benchUp (s : State) (k : Nat) (x : MasterRt) : (s.setMaster k x).benchUp = s.benchUp := rfl
@[simp] theorem State.setMaster_ports (s : State) (k : Nat) (x : MasterRt) : (s.setMaster k x).ports = s.ports := rfl
@[simp] theorem State.setMaster_rings (s : State) (k : Nat) (x : MasterRt) : (s.setMaster k x).rings = s.rings := rfl
@[simp] theorem State.setMaster_wks (s : State) (k : Nat) (x : MasterRt) : (s.setMaster k x).wks = s.wks := rfl
@[simp] theorem State.setMaster_hud (s : State) (k : Nat) (x : MasterRt) : (s.setMaster k x).hud = s.hud := rfl
@[simp] theorem State.setMaster_com (s : State) (k : Nat) (x : MasterRt) : (s.setMaster k x).com = s.com := rfl
@[simp] theorem State.setMaster_store (s : State) (k : Nat) (x : MasterRt) : (s.setMaster k x).store = s.store := rfl
@[simp] theorem State.setMaster_pair (s : State) (k : Nat) (x : MasterRt) : (s.setMaster k x).pair = s.pair := rfl
@[simp] theorem State.setMaster_host (s : State) (k : Nat) (x : MasterRt) : (s.setMaster k x).host = s.host := rfl
@[simp] theorem State.setMaster_boot (s : State) (k : Nat) (x : MasterRt) : (s.setMaster k x).boot = s.boot := rfl
@[simp] theorem State.setMaster_get (s : State) (k : Nat) (x : MasterRt) (o' : Obj) (i' j' k' : Nat) : (s.setMaster k x).get o' i' j' k' = s.get o' i' j' k' := rfl
@[simp] theorem State.setMaster_nat (s : State) (k : Nat) (x : MasterRt) (o' : Obj) (i' j' k' : Nat) : (s.setMaster k x).nat o' i' j' k' = s.nat o' i' j' k' := rfl
@[simp] theorem State.setMaster_flag (s : State) (k : Nat) (x : MasterRt) (o' : Obj) (i' j' k' : Nat) : (s.setMaster k x).flag o' i' j' k' = s.flag o' i' j' k' := rfl
@[simp] theorem State.setMaster_bytes (s : State) (k : Nat) (x : MasterRt) (o' : Obj) (i' j' k' : Nat) : (s.setMaster k x).bytes o' i' j' k' = s.bytes o' i' j' k' := rfl
@[simp] theorem State.setMaster_axis (s : State) (k : Nat) (x : MasterRt) (q : Nat) : (s.setMaster k x).axis q = s.axis q := rfl
@[simp] theorem State.setMaster_fbu (s : State) (k : Nat) (x : MasterRt) (q : Nat) : (s.setMaster k x).fbu q = s.fbu q := rfl
@[simp] theorem State.setMaster_latch (s : State) (k : Nat) (x : MasterRt) (q : Nat) : (s.setMaster k x).latch q = s.latch q := rfl
@[simp] theorem State.setMaster_cmp (s : State) (k : Nat) (x : MasterRt) (q : Nat) : (s.setMaster k x).cmp q = s.cmp q := rfl
@[simp] theorem State.setMaster_eng (s : State) (k : Nat) (x : MasterRt) (q : Nat) : (s.setMaster k x).eng q = s.eng q := rfl
@[simp] theorem State.setMaster_ace (s : State) (k : Nat) (x : MasterRt) (q : Nat) : (s.setMaster k x).ace q = s.ace q := rfl
@[simp] theorem State.setMaster_ep (s : State) (k : Nat) (x : MasterRt) (q : Nat) : (s.setMaster k x).ep q = s.ep q := rfl
@[simp] theorem State.setMaster_port (s : State) (k : Nat) (x : MasterRt) (q : Nat) : (s.setMaster k x).port q = s.port q := rfl
@[simp] theorem State.setMaster_ring (s : State) (k : Nat) (x : MasterRt) (q : Nat) : (s.setMaster k x).ring q = s.ring q := rfl
@[simp] theorem State.setMaster_wk (s : State) (k : Nat) (x : MasterRt) (q q' : Nat) : (s.setMaster k x).wk q q' = s.wk q q' := rfl

/-! ### State.setEng -/

@[simp] theorem State.setEng_pending (s : State) (e : Nat) (x : EngRt) : (s.setEng e x).pending = s.pending := rfl
@[simp] theorem State.setEng_now (s : State) (e : Nat) (x : EngRt) : (s.setEng e x).now = s.now := rfl
@[simp] theorem State.setEng_frac (s : State) (e : Nat) (x : EngRt) : (s.setEng e x).frac = s.frac := rfl
@[simp] theorem State.setEng_free (s : State) (e : Nat) (x : EngRt) : (s.setEng e x).free = s.free := rfl
@[simp] theorem State.setEng_out (s : State) (e : Nat) (x : EngRt) : (s.setEng e x).out = s.out := rfl
@[simp] theorem State.setEng_od (s : State) (e : Nat) (x : EngRt) : (s.setEng e x).od = s.od := rfl
@[simp] theorem State.setEng_staged (s : State) (e : Nat) (x : EngRt) : (s.setEng e x).staged = s.staged := rfl
@[simp] theorem State.setEng_snaps (s : State) (e : Nat) (x : EngRt) : (s.setEng e x).snaps = s.snaps := rfl
@[simp] theorem State.setEng_axes (s : State) (e : Nat) (x : EngRt) : (s.setEng e x).axes = s.axes := rfl
@[simp] theorem State.setEng_fbs (s : State) (e : Nat) (x : EngRt) : (s.setEng e x).fbs = s.fbs := rfl
@[simp] theorem State.setEng_lats (s : State) (e : Nat) (x : EngRt) : (s.setEng e x).lats = s.lats := rfl
@[simp] theorem State.setEng_cmps (s : State) (e : Nat) (x : EngRt) : (s.setEng e x).cmps = s.cmps := rfl
@[simp] theorem State.setEng_msts (s : State) (e : Nat) (x : EngRt) : (s.setEng e x).msts = s.msts := rfl
@[simp] theorem State.setEng_disp (s : State) (e : Nat) (x : EngRt) : (s.setEng e x).disp = s.disp := rfl
@[simp] theorem State.setEng_aces (s : State) (e : Nat) (x : EngRt) : (s.setEng e x).aces = s.aces := rfl
@[simp] theorem State.setEng_shared (s : State) (e : Nat) (x : EngRt) : (s.setEng e x).shared = s.shared := rfl
@[simp] theorem State.setEng_ucode (s : State) (e : Nat) (x : EngRt) : (s.setEng e x).ucode = s.ucode := rfl
@[simp] theorem State.setEng_eps (s : State) (e : Nat) (x : EngRt) : (s.setEng e x).eps = s.eps := rfl
@[simp] theorem State.setEng_field (s : State) (e : Nat) (x : EngRt) : (s.setEng e x).field = s.field := rfl
@[simp] theorem State.setEng_time (s : State) (e : Nat) (x : EngRt) : (s.setEng e x).time = s.time := rfl
@[simp] theorem State.setEng_obs (s : State) (e : Nat) (x : EngRt) : (s.setEng e x).obs = s.obs := rfl
@[simp] theorem State.setEng_safe (s : State) (e : Nat) (x : EngRt) : (s.setEng e x).safe = s.safe := rfl
@[simp] theorem State.setEng_debugger (s : State) (e : Nat) (x : EngRt) : (s.setEng e x).debugger = s.debugger := rfl
@[simp] theorem State.setEng_benchUp (s : State) (e : Nat) (x : EngRt) : (s.setEng e x).benchUp = s.benchUp := rfl
@[simp] theorem State.setEng_ports (s : State) (e : Nat) (x : EngRt) : (s.setEng e x).ports = s.ports := rfl
@[simp] theorem State.setEng_rings (s : State) (e : Nat) (x : EngRt) : (s.setEng e x).rings = s.rings := rfl
@[simp] theorem State.setEng_wks (s : State) (e : Nat) (x : EngRt) : (s.setEng e x).wks = s.wks := rfl
@[simp] theorem State.setEng_hud (s : State) (e : Nat) (x : EngRt) : (s.setEng e x).hud = s.hud := rfl
@[simp] theorem State.setEng_com (s : State) (e : Nat) (x : EngRt) : (s.setEng e x).com = s.com := rfl
@[simp] theorem State.setEng_store (s : State) (e : Nat) (x : EngRt) : (s.setEng e x).store = s.store := rfl
@[simp] theorem State.setEng_pair (s : State) (e : Nat) (x : EngRt) : (s.setEng e x).pair = s.pair := rfl
@[simp] theorem State.setEng_host (s : State) (e : Nat) (x : EngRt) : (s.setEng e x).host = s.host := rfl
@[simp] theorem State.setEng_boot (s : State) (e : Nat) (x : EngRt) : (s.setEng e x).boot = s.boot := rfl
@[simp] theorem State.setEng_get (s : State) (e : Nat) (x : EngRt) (o' : Obj) (i' j' k' : Nat) : (s.setEng e x).get o' i' j' k' = s.get o' i' j' k' := rfl
@[simp] theorem State.setEng_nat (s : State) (e : Nat) (x : EngRt) (o' : Obj) (i' j' k' : Nat) : (s.setEng e x).nat o' i' j' k' = s.nat o' i' j' k' := rfl
@[simp] theorem State.setEng_flag (s : State) (e : Nat) (x : EngRt) (o' : Obj) (i' j' k' : Nat) : (s.setEng e x).flag o' i' j' k' = s.flag o' i' j' k' := rfl
@[simp] theorem State.setEng_bytes (s : State) (e : Nat) (x : EngRt) (o' : Obj) (i' j' k' : Nat) : (s.setEng e x).bytes o' i' j' k' = s.bytes o' i' j' k' := rfl
@[simp] theorem State.setEng_axis (s : State) (e : Nat) (x : EngRt) (q : Nat) : (s.setEng e x).axis q = s.axis q := rfl
@[simp] theorem State.setEng_fbu (s : State) (e : Nat) (x : EngRt) (q : Nat) : (s.setEng e x).fbu q = s.fbu q := rfl
@[simp] theorem State.setEng_latch (s : State) (e : Nat) (x : EngRt) (q : Nat) : (s.setEng e x).latch q = s.latch q := rfl
@[simp] theorem State.setEng_cmp (s : State) (e : Nat) (x : EngRt) (q : Nat) : (s.setEng e x).cmp q = s.cmp q := rfl
@[simp] theorem State.setEng_master (s : State) (e : Nat) (x : EngRt) (q : Nat) : (s.setEng e x).master q = s.master q := rfl
@[simp] theorem State.setEng_ace (s : State) (e : Nat) (x : EngRt) (q : Nat) : (s.setEng e x).ace q = s.ace q := rfl
@[simp] theorem State.setEng_ep (s : State) (e : Nat) (x : EngRt) (q : Nat) : (s.setEng e x).ep q = s.ep q := rfl
@[simp] theorem State.setEng_port (s : State) (e : Nat) (x : EngRt) (q : Nat) : (s.setEng e x).port q = s.port q := rfl
@[simp] theorem State.setEng_ring (s : State) (e : Nat) (x : EngRt) (q : Nat) : (s.setEng e x).ring q = s.ring q := rfl
@[simp] theorem State.setEng_wk (s : State) (e : Nat) (x : EngRt) (q q' : Nat) : (s.setEng e x).wk q q' = s.wk q q' := rfl

/-! ### State.setAce -/

@[simp] theorem State.setAce_pending (s : State) (e : Nat) (x : AceRt) : (s.setAce e x).pending = s.pending := rfl
@[simp] theorem State.setAce_now (s : State) (e : Nat) (x : AceRt) : (s.setAce e x).now = s.now := rfl
@[simp] theorem State.setAce_frac (s : State) (e : Nat) (x : AceRt) : (s.setAce e x).frac = s.frac := rfl
@[simp] theorem State.setAce_free (s : State) (e : Nat) (x : AceRt) : (s.setAce e x).free = s.free := rfl
@[simp] theorem State.setAce_out (s : State) (e : Nat) (x : AceRt) : (s.setAce e x).out = s.out := rfl
@[simp] theorem State.setAce_od (s : State) (e : Nat) (x : AceRt) : (s.setAce e x).od = s.od := rfl
@[simp] theorem State.setAce_staged (s : State) (e : Nat) (x : AceRt) : (s.setAce e x).staged = s.staged := rfl
@[simp] theorem State.setAce_snaps (s : State) (e : Nat) (x : AceRt) : (s.setAce e x).snaps = s.snaps := rfl
@[simp] theorem State.setAce_axes (s : State) (e : Nat) (x : AceRt) : (s.setAce e x).axes = s.axes := rfl
@[simp] theorem State.setAce_fbs (s : State) (e : Nat) (x : AceRt) : (s.setAce e x).fbs = s.fbs := rfl
@[simp] theorem State.setAce_lats (s : State) (e : Nat) (x : AceRt) : (s.setAce e x).lats = s.lats := rfl
@[simp] theorem State.setAce_cmps (s : State) (e : Nat) (x : AceRt) : (s.setAce e x).cmps = s.cmps := rfl
@[simp] theorem State.setAce_msts (s : State) (e : Nat) (x : AceRt) : (s.setAce e x).msts = s.msts := rfl
@[simp] theorem State.setAce_disp (s : State) (e : Nat) (x : AceRt) : (s.setAce e x).disp = s.disp := rfl
@[simp] theorem State.setAce_engs (s : State) (e : Nat) (x : AceRt) : (s.setAce e x).engs = s.engs := rfl
@[simp] theorem State.setAce_shared (s : State) (e : Nat) (x : AceRt) : (s.setAce e x).shared = s.shared := rfl
@[simp] theorem State.setAce_ucode (s : State) (e : Nat) (x : AceRt) : (s.setAce e x).ucode = s.ucode := rfl
@[simp] theorem State.setAce_eps (s : State) (e : Nat) (x : AceRt) : (s.setAce e x).eps = s.eps := rfl
@[simp] theorem State.setAce_field (s : State) (e : Nat) (x : AceRt) : (s.setAce e x).field = s.field := rfl
@[simp] theorem State.setAce_time (s : State) (e : Nat) (x : AceRt) : (s.setAce e x).time = s.time := rfl
@[simp] theorem State.setAce_obs (s : State) (e : Nat) (x : AceRt) : (s.setAce e x).obs = s.obs := rfl
@[simp] theorem State.setAce_safe (s : State) (e : Nat) (x : AceRt) : (s.setAce e x).safe = s.safe := rfl
@[simp] theorem State.setAce_debugger (s : State) (e : Nat) (x : AceRt) : (s.setAce e x).debugger = s.debugger := rfl
@[simp] theorem State.setAce_benchUp (s : State) (e : Nat) (x : AceRt) : (s.setAce e x).benchUp = s.benchUp := rfl
@[simp] theorem State.setAce_ports (s : State) (e : Nat) (x : AceRt) : (s.setAce e x).ports = s.ports := rfl
@[simp] theorem State.setAce_rings (s : State) (e : Nat) (x : AceRt) : (s.setAce e x).rings = s.rings := rfl
@[simp] theorem State.setAce_wks (s : State) (e : Nat) (x : AceRt) : (s.setAce e x).wks = s.wks := rfl
@[simp] theorem State.setAce_hud (s : State) (e : Nat) (x : AceRt) : (s.setAce e x).hud = s.hud := rfl
@[simp] theorem State.setAce_com (s : State) (e : Nat) (x : AceRt) : (s.setAce e x).com = s.com := rfl
@[simp] theorem State.setAce_store (s : State) (e : Nat) (x : AceRt) : (s.setAce e x).store = s.store := rfl
@[simp] theorem State.setAce_pair (s : State) (e : Nat) (x : AceRt) : (s.setAce e x).pair = s.pair := rfl
@[simp] theorem State.setAce_host (s : State) (e : Nat) (x : AceRt) : (s.setAce e x).host = s.host := rfl
@[simp] theorem State.setAce_boot (s : State) (e : Nat) (x : AceRt) : (s.setAce e x).boot = s.boot := rfl
@[simp] theorem State.setAce_get (s : State) (e : Nat) (x : AceRt) (o' : Obj) (i' j' k' : Nat) : (s.setAce e x).get o' i' j' k' = s.get o' i' j' k' := rfl
@[simp] theorem State.setAce_nat (s : State) (e : Nat) (x : AceRt) (o' : Obj) (i' j' k' : Nat) : (s.setAce e x).nat o' i' j' k' = s.nat o' i' j' k' := rfl
@[simp] theorem State.setAce_flag (s : State) (e : Nat) (x : AceRt) (o' : Obj) (i' j' k' : Nat) : (s.setAce e x).flag o' i' j' k' = s.flag o' i' j' k' := rfl
@[simp] theorem State.setAce_bytes (s : State) (e : Nat) (x : AceRt) (o' : Obj) (i' j' k' : Nat) : (s.setAce e x).bytes o' i' j' k' = s.bytes o' i' j' k' := rfl
@[simp] theorem State.setAce_axis (s : State) (e : Nat) (x : AceRt) (q : Nat) : (s.setAce e x).axis q = s.axis q := rfl
@[simp] theorem State.setAce_fbu (s : State) (e : Nat) (x : AceRt) (q : Nat) : (s.setAce e x).fbu q = s.fbu q := rfl
@[simp] theorem State.setAce_latch (s : State) (e : Nat) (x : AceRt) (q : Nat) : (s.setAce e x).latch q = s.latch q := rfl
@[simp] theorem State.setAce_cmp (s : State) (e : Nat) (x : AceRt) (q : Nat) : (s.setAce e x).cmp q = s.cmp q := rfl
@[simp] theorem State.setAce_master (s : State) (e : Nat) (x : AceRt) (q : Nat) : (s.setAce e x).master q = s.master q := rfl
@[simp] theorem State.setAce_eng (s : State) (e : Nat) (x : AceRt) (q : Nat) : (s.setAce e x).eng q = s.eng q := rfl
@[simp] theorem State.setAce_ep (s : State) (e : Nat) (x : AceRt) (q : Nat) : (s.setAce e x).ep q = s.ep q := rfl
@[simp] theorem State.setAce_port (s : State) (e : Nat) (x : AceRt) (q : Nat) : (s.setAce e x).port q = s.port q := rfl
@[simp] theorem State.setAce_ring (s : State) (e : Nat) (x : AceRt) (q : Nat) : (s.setAce e x).ring q = s.ring q := rfl
@[simp] theorem State.setAce_wk (s : State) (e : Nat) (x : AceRt) (q q' : Nat) : (s.setAce e x).wk q q' = s.wk q q' := rfl

/-! ### State.modAce -/

@[simp] theorem State.modAce_pending (s : State) (e : Nat) (f : AceRt → AceRt) : (s.modAce e f).pending = s.pending := rfl
@[simp] theorem State.modAce_now (s : State) (e : Nat) (f : AceRt → AceRt) : (s.modAce e f).now = s.now := rfl
@[simp] theorem State.modAce_frac (s : State) (e : Nat) (f : AceRt → AceRt) : (s.modAce e f).frac = s.frac := rfl
@[simp] theorem State.modAce_free (s : State) (e : Nat) (f : AceRt → AceRt) : (s.modAce e f).free = s.free := rfl
@[simp] theorem State.modAce_out (s : State) (e : Nat) (f : AceRt → AceRt) : (s.modAce e f).out = s.out := rfl
@[simp] theorem State.modAce_od (s : State) (e : Nat) (f : AceRt → AceRt) : (s.modAce e f).od = s.od := rfl
@[simp] theorem State.modAce_staged (s : State) (e : Nat) (f : AceRt → AceRt) : (s.modAce e f).staged = s.staged := rfl
@[simp] theorem State.modAce_snaps (s : State) (e : Nat) (f : AceRt → AceRt) : (s.modAce e f).snaps = s.snaps := rfl
@[simp] theorem State.modAce_axes (s : State) (e : Nat) (f : AceRt → AceRt) : (s.modAce e f).axes = s.axes := rfl
@[simp] theorem State.modAce_fbs (s : State) (e : Nat) (f : AceRt → AceRt) : (s.modAce e f).fbs = s.fbs := rfl
@[simp] theorem State.modAce_lats (s : State) (e : Nat) (f : AceRt → AceRt) : (s.modAce e f).lats = s.lats := rfl
@[simp] theorem State.modAce_cmps (s : State) (e : Nat) (f : AceRt → AceRt) : (s.modAce e f).cmps = s.cmps := rfl
@[simp] theorem State.modAce_msts (s : State) (e : Nat) (f : AceRt → AceRt) : (s.modAce e f).msts = s.msts := rfl
@[simp] theorem State.modAce_disp (s : State) (e : Nat) (f : AceRt → AceRt) : (s.modAce e f).disp = s.disp := rfl
@[simp] theorem State.modAce_engs (s : State) (e : Nat) (f : AceRt → AceRt) : (s.modAce e f).engs = s.engs := rfl
@[simp] theorem State.modAce_shared (s : State) (e : Nat) (f : AceRt → AceRt) : (s.modAce e f).shared = s.shared := rfl
@[simp] theorem State.modAce_ucode (s : State) (e : Nat) (f : AceRt → AceRt) : (s.modAce e f).ucode = s.ucode := rfl
@[simp] theorem State.modAce_eps (s : State) (e : Nat) (f : AceRt → AceRt) : (s.modAce e f).eps = s.eps := rfl
@[simp] theorem State.modAce_field (s : State) (e : Nat) (f : AceRt → AceRt) : (s.modAce e f).field = s.field := rfl
@[simp] theorem State.modAce_time (s : State) (e : Nat) (f : AceRt → AceRt) : (s.modAce e f).time = s.time := rfl
@[simp] theorem State.modAce_obs (s : State) (e : Nat) (f : AceRt → AceRt) : (s.modAce e f).obs = s.obs := rfl
@[simp] theorem State.modAce_safe (s : State) (e : Nat) (f : AceRt → AceRt) : (s.modAce e f).safe = s.safe := rfl
@[simp] theorem State.modAce_debugger (s : State) (e : Nat) (f : AceRt → AceRt) : (s.modAce e f).debugger = s.debugger := rfl
@[simp] theorem State.modAce_benchUp (s : State) (e : Nat) (f : AceRt → AceRt) : (s.modAce e f).benchUp = s.benchUp := rfl
@[simp] theorem State.modAce_ports (s : State) (e : Nat) (f : AceRt → AceRt) : (s.modAce e f).ports = s.ports := rfl
@[simp] theorem State.modAce_rings (s : State) (e : Nat) (f : AceRt → AceRt) : (s.modAce e f).rings = s.rings := rfl
@[simp] theorem State.modAce_wks (s : State) (e : Nat) (f : AceRt → AceRt) : (s.modAce e f).wks = s.wks := rfl
@[simp] theorem State.modAce_hud (s : State) (e : Nat) (f : AceRt → AceRt) : (s.modAce e f).hud = s.hud := rfl
@[simp] theorem State.modAce_com (s : State) (e : Nat) (f : AceRt → AceRt) : (s.modAce e f).com = s.com := rfl
@[simp] theorem State.modAce_store (s : State) (e : Nat) (f : AceRt → AceRt) : (s.modAce e f).store = s.store := rfl
@[simp] theorem State.modAce_pair (s : State) (e : Nat) (f : AceRt → AceRt) : (s.modAce e f).pair = s.pair := rfl
@[simp] theorem State.modAce_host (s : State) (e : Nat) (f : AceRt → AceRt) : (s.modAce e f).host = s.host := rfl
@[simp] theorem State.modAce_boot (s : State) (e : Nat) (f : AceRt → AceRt) : (s.modAce e f).boot = s.boot := rfl
@[simp] theorem State.modAce_get (s : State) (e : Nat) (f : AceRt → AceRt) (o' : Obj) (i' j' k' : Nat) : (s.modAce e f).get o' i' j' k' = s.get o' i' j' k' := rfl
@[simp] theorem State.modAce_nat (s : State) (e : Nat) (f : AceRt → AceRt) (o' : Obj) (i' j' k' : Nat) : (s.modAce e f).nat o' i' j' k' = s.nat o' i' j' k' := rfl
@[simp] theorem State.modAce_flag (s : State) (e : Nat) (f : AceRt → AceRt) (o' : Obj) (i' j' k' : Nat) : (s.modAce e f).flag o' i' j' k' = s.flag o' i' j' k' := rfl
@[simp] theorem State.modAce_bytes (s : State) (e : Nat) (f : AceRt → AceRt) (o' : Obj) (i' j' k' : Nat) : (s.modAce e f).bytes o' i' j' k' = s.bytes o' i' j' k' := rfl
@[simp] theorem State.modAce_axis (s : State) (e : Nat) (f : AceRt → AceRt) (q : Nat) : (s.modAce e f).axis q = s.axis q := rfl
@[simp] theorem State.modAce_fbu (s : State) (e : Nat) (f : AceRt → AceRt) (q : Nat) : (s.modAce e f).fbu q = s.fbu q := rfl
@[simp] theorem State.modAce_latch (s : State) (e : Nat) (f : AceRt → AceRt) (q : Nat) : (s.modAce e f).latch q = s.latch q := rfl
@[simp] theorem State.modAce_cmp (s : State) (e : Nat) (f : AceRt → AceRt) (q : Nat) : (s.modAce e f).cmp q = s.cmp q := rfl
@[simp] theorem State.modAce_master (s : State) (e : Nat) (f : AceRt → AceRt) (q : Nat) : (s.modAce e f).master q = s.master q := rfl
@[simp] theorem State.modAce_eng (s : State) (e : Nat) (f : AceRt → AceRt) (q : Nat) : (s.modAce e f).eng q = s.eng q := rfl
@[simp] theorem State.modAce_ep (s : State) (e : Nat) (f : AceRt → AceRt) (q : Nat) : (s.modAce e f).ep q = s.ep q := rfl
@[simp] theorem State.modAce_port (s : State) (e : Nat) (f : AceRt → AceRt) (q : Nat) : (s.modAce e f).port q = s.port q := rfl
@[simp] theorem State.modAce_ring (s : State) (e : Nat) (f : AceRt → AceRt) (q : Nat) : (s.modAce e f).ring q = s.ring q := rfl
@[simp] theorem State.modAce_wk (s : State) (e : Nat) (f : AceRt → AceRt) (q q' : Nat) : (s.modAce e f).wk q q' = s.wk q q' := rfl

/-! ### State.setEp -/

@[simp] theorem State.setEp_pending (s : State) (x : Nat) (v : Endpoint) : (s.setEp x v).pending = s.pending := rfl
@[simp] theorem State.setEp_now (s : State) (x : Nat) (v : Endpoint) : (s.setEp x v).now = s.now := rfl
@[simp] theorem State.setEp_frac (s : State) (x : Nat) (v : Endpoint) : (s.setEp x v).frac = s.frac := rfl
@[simp] theorem State.setEp_free (s : State) (x : Nat) (v : Endpoint) : (s.setEp x v).free = s.free := rfl
@[simp] theorem State.setEp_out (s : State) (x : Nat) (v : Endpoint) : (s.setEp x v).out = s.out := rfl
@[simp] theorem State.setEp_od (s : State) (x : Nat) (v : Endpoint) : (s.setEp x v).od = s.od := rfl
@[simp] theorem State.setEp_staged (s : State) (x : Nat) (v : Endpoint) : (s.setEp x v).staged = s.staged := rfl
@[simp] theorem State.setEp_snaps (s : State) (x : Nat) (v : Endpoint) : (s.setEp x v).snaps = s.snaps := rfl
@[simp] theorem State.setEp_axes (s : State) (x : Nat) (v : Endpoint) : (s.setEp x v).axes = s.axes := rfl
@[simp] theorem State.setEp_fbs (s : State) (x : Nat) (v : Endpoint) : (s.setEp x v).fbs = s.fbs := rfl
@[simp] theorem State.setEp_lats (s : State) (x : Nat) (v : Endpoint) : (s.setEp x v).lats = s.lats := rfl
@[simp] theorem State.setEp_cmps (s : State) (x : Nat) (v : Endpoint) : (s.setEp x v).cmps = s.cmps := rfl
@[simp] theorem State.setEp_msts (s : State) (x : Nat) (v : Endpoint) : (s.setEp x v).msts = s.msts := rfl
@[simp] theorem State.setEp_disp (s : State) (x : Nat) (v : Endpoint) : (s.setEp x v).disp = s.disp := rfl
@[simp] theorem State.setEp_engs (s : State) (x : Nat) (v : Endpoint) : (s.setEp x v).engs = s.engs := rfl
@[simp] theorem State.setEp_aces (s : State) (x : Nat) (v : Endpoint) : (s.setEp x v).aces = s.aces := rfl
@[simp] theorem State.setEp_shared (s : State) (x : Nat) (v : Endpoint) : (s.setEp x v).shared = s.shared := rfl
@[simp] theorem State.setEp_ucode (s : State) (x : Nat) (v : Endpoint) : (s.setEp x v).ucode = s.ucode := rfl
@[simp] theorem State.setEp_field (s : State) (x : Nat) (v : Endpoint) : (s.setEp x v).field = s.field := rfl
@[simp] theorem State.setEp_time (s : State) (x : Nat) (v : Endpoint) : (s.setEp x v).time = s.time := rfl
@[simp] theorem State.setEp_obs (s : State) (x : Nat) (v : Endpoint) : (s.setEp x v).obs = s.obs := rfl
@[simp] theorem State.setEp_safe (s : State) (x : Nat) (v : Endpoint) : (s.setEp x v).safe = s.safe := rfl
@[simp] theorem State.setEp_debugger (s : State) (x : Nat) (v : Endpoint) : (s.setEp x v).debugger = s.debugger := rfl
@[simp] theorem State.setEp_benchUp (s : State) (x : Nat) (v : Endpoint) : (s.setEp x v).benchUp = s.benchUp := rfl
@[simp] theorem State.setEp_ports (s : State) (x : Nat) (v : Endpoint) : (s.setEp x v).ports = s.ports := rfl
@[simp] theorem State.setEp_rings (s : State) (x : Nat) (v : Endpoint) : (s.setEp x v).rings = s.rings := rfl
@[simp] theorem State.setEp_wks (s : State) (x : Nat) (v : Endpoint) : (s.setEp x v).wks = s.wks := rfl
@[simp] theorem State.setEp_hud (s : State) (x : Nat) (v : Endpoint) : (s.setEp x v).hud = s.hud := rfl
@[simp] theorem State.setEp_com (s : State) (x : Nat) (v : Endpoint) : (s.setEp x v).com = s.com := rfl
@[simp] theorem State.setEp_store (s : State) (x : Nat) (v : Endpoint) : (s.setEp x v).store = s.store := rfl
@[simp] theorem State.setEp_pair (s : State) (x : Nat) (v : Endpoint) : (s.setEp x v).pair = s.pair := rfl
@[simp] theorem State.setEp_host (s : State) (x : Nat) (v : Endpoint) : (s.setEp x v).host = s.host := rfl
@[simp] theorem State.setEp_boot (s : State) (x : Nat) (v : Endpoint) : (s.setEp x v).boot = s.boot := rfl
@[simp] theorem State.setEp_get (s : State) (x : Nat) (v : Endpoint) (o' : Obj) (i' j' k' : Nat) : (s.setEp x v).get o' i' j' k' = s.get o' i' j' k' := rfl
@[simp] theorem State.setEp_nat (s : State) (x : Nat) (v : Endpoint) (o' : Obj) (i' j' k' : Nat) : (s.setEp x v).nat o' i' j' k' = s.nat o' i' j' k' := rfl
@[simp] theorem State.setEp_flag (s : State) (x : Nat) (v : Endpoint) (o' : Obj) (i' j' k' : Nat) : (s.setEp x v).flag o' i' j' k' = s.flag o' i' j' k' := rfl
@[simp] theorem State.setEp_bytes (s : State) (x : Nat) (v : Endpoint) (o' : Obj) (i' j' k' : Nat) : (s.setEp x v).bytes o' i' j' k' = s.bytes o' i' j' k' := rfl
@[simp] theorem State.setEp_axis (s : State) (x : Nat) (v : Endpoint) (q : Nat) : (s.setEp x v).axis q = s.axis q := rfl
@[simp] theorem State.setEp_fbu (s : State) (x : Nat) (v : Endpoint) (q : Nat) : (s.setEp x v).fbu q = s.fbu q := rfl
@[simp] theorem State.setEp_latch (s : State) (x : Nat) (v : Endpoint) (q : Nat) : (s.setEp x v).latch q = s.latch q := rfl
@[simp] theorem State.setEp_cmp (s : State) (x : Nat) (v : Endpoint) (q : Nat) : (s.setEp x v).cmp q = s.cmp q := rfl
@[simp] theorem State.setEp_master (s : State) (x : Nat) (v : Endpoint) (q : Nat) : (s.setEp x v).master q = s.master q := rfl
@[simp] theorem State.setEp_eng (s : State) (x : Nat) (v : Endpoint) (q : Nat) : (s.setEp x v).eng q = s.eng q := rfl
@[simp] theorem State.setEp_ace (s : State) (x : Nat) (v : Endpoint) (q : Nat) : (s.setEp x v).ace q = s.ace q := rfl
@[simp] theorem State.setEp_port (s : State) (x : Nat) (v : Endpoint) (q : Nat) : (s.setEp x v).port q = s.port q := rfl
@[simp] theorem State.setEp_ring (s : State) (x : Nat) (v : Endpoint) (q : Nat) : (s.setEp x v).ring q = s.ring q := rfl
@[simp] theorem State.setEp_wk (s : State) (x : Nat) (v : Endpoint) (q q' : Nat) : (s.setEp x v).wk q q' = s.wk q q' := rfl

/-! ### State.modEp -/

@[simp] theorem State.modEp_pending (s : State) (x : Nat) (f : Endpoint → Endpoint) : (s.modEp x f).pending = s.pending := rfl
@[simp] theorem State.modEp_now (s : State) (x : Nat) (f : Endpoint → Endpoint) : (s.modEp x f).now = s.now := rfl
@[simp] theorem State.modEp_frac (s : State) (x : Nat) (f : Endpoint → Endpoint) : (s.modEp x f).frac = s.frac := rfl
@[simp] theorem State.modEp_free (s : State) (x : Nat) (f : Endpoint → Endpoint) : (s.modEp x f).free = s.free := rfl
@[simp] theorem State.modEp_out (s : State) (x : Nat) (f : Endpoint → Endpoint) : (s.modEp x f).out = s.out := rfl
@[simp] theorem State.modEp_od (s : State) (x : Nat) (f : Endpoint → Endpoint) : (s.modEp x f).od = s.od := rfl
@[simp] theorem State.modEp_staged (s : State) (x : Nat) (f : Endpoint → Endpoint) : (s.modEp x f).staged = s.staged := rfl
@[simp] theorem State.modEp_snaps (s : State) (x : Nat) (f : Endpoint → Endpoint) : (s.modEp x f).snaps = s.snaps := rfl
@[simp] theorem State.modEp_axes (s : State) (x : Nat) (f : Endpoint → Endpoint) : (s.modEp x f).axes = s.axes := rfl
@[simp] theorem State.modEp_fbs (s : State) (x : Nat) (f : Endpoint → Endpoint) : (s.modEp x f).fbs = s.fbs := rfl
@[simp] theorem State.modEp_lats (s : State) (x : Nat) (f : Endpoint → Endpoint) : (s.modEp x f).lats = s.lats := rfl
@[simp] theorem State.modEp_cmps (s : State) (x : Nat) (f : Endpoint → Endpoint) : (s.modEp x f).cmps = s.cmps := rfl
@[simp] theorem State.modEp_msts (s : State) (x : Nat) (f : Endpoint → Endpoint) : (s.modEp x f).msts = s.msts := rfl
@[simp] theorem State.modEp_disp (s : State) (x : Nat) (f : Endpoint → Endpoint) : (s.modEp x f).disp = s.disp := rfl
@[simp] theorem State.modEp_engs (s : State) (x : Nat) (f : Endpoint → Endpoint) : (s.modEp x f).engs = s.engs := rfl
@[simp] theorem State.modEp_aces (s : State) (x : Nat) (f : Endpoint → Endpoint) : (s.modEp x f).aces = s.aces := rfl
@[simp] theorem State.modEp_shared (s : State) (x : Nat) (f : Endpoint → Endpoint) : (s.modEp x f).shared = s.shared := rfl
@[simp] theorem State.modEp_ucode (s : State) (x : Nat) (f : Endpoint → Endpoint) : (s.modEp x f).ucode = s.ucode := rfl
@[simp] theorem State.modEp_field (s : State) (x : Nat) (f : Endpoint → Endpoint) : (s.modEp x f).field = s.field := rfl
@[simp] theorem State.modEp_time (s : State) (x : Nat) (f : Endpoint → Endpoint) : (s.modEp x f).time = s.time := rfl
@[simp] theorem State.modEp_obs (s : State) (x : Nat) (f : Endpoint → Endpoint) : (s.modEp x f).obs = s.obs := rfl
@[simp] theorem State.modEp_safe (s : State) (x : Nat) (f : Endpoint → Endpoint) : (s.modEp x f).safe = s.safe := rfl
@[simp] theorem State.modEp_debugger (s : State) (x : Nat) (f : Endpoint → Endpoint) : (s.modEp x f).debugger = s.debugger := rfl
@[simp] theorem State.modEp_benchUp (s : State) (x : Nat) (f : Endpoint → Endpoint) : (s.modEp x f).benchUp = s.benchUp := rfl
@[simp] theorem State.modEp_ports (s : State) (x : Nat) (f : Endpoint → Endpoint) : (s.modEp x f).ports = s.ports := rfl
@[simp] theorem State.modEp_rings (s : State) (x : Nat) (f : Endpoint → Endpoint) : (s.modEp x f).rings = s.rings := rfl
@[simp] theorem State.modEp_wks (s : State) (x : Nat) (f : Endpoint → Endpoint) : (s.modEp x f).wks = s.wks := rfl
@[simp] theorem State.modEp_hud (s : State) (x : Nat) (f : Endpoint → Endpoint) : (s.modEp x f).hud = s.hud := rfl
@[simp] theorem State.modEp_com (s : State) (x : Nat) (f : Endpoint → Endpoint) : (s.modEp x f).com = s.com := rfl
@[simp] theorem State.modEp_store (s : State) (x : Nat) (f : Endpoint → Endpoint) : (s.modEp x f).store = s.store := rfl
@[simp] theorem State.modEp_pair (s : State) (x : Nat) (f : Endpoint → Endpoint) : (s.modEp x f).pair = s.pair := rfl
@[simp] theorem State.modEp_host (s : State) (x : Nat) (f : Endpoint → Endpoint) : (s.modEp x f).host = s.host := rfl
@[simp] theorem State.modEp_boot (s : State) (x : Nat) (f : Endpoint → Endpoint) : (s.modEp x f).boot = s.boot := rfl
@[simp] theorem State.modEp_get (s : State) (x : Nat) (f : Endpoint → Endpoint) (o' : Obj) (i' j' k' : Nat) : (s.modEp x f).get o' i' j' k' = s.get o' i' j' k' := rfl
@[simp] theorem State.modEp_nat (s : State) (x : Nat) (f : Endpoint → Endpoint) (o' : Obj) (i' j' k' : Nat) : (s.modEp x f).nat o' i' j' k' = s.nat o' i' j' k' := rfl
@[simp] theorem State.modEp_flag (s : State) (x : Nat) (f : Endpoint → Endpoint) (o' : Obj) (i' j' k' : Nat) : (s.modEp x f).flag o' i' j' k' = s.flag o' i' j' k' := rfl
@[simp] theorem State.modEp_bytes (s : State) (x : Nat) (f : Endpoint → Endpoint) (o' : Obj) (i' j' k' : Nat) : (s.modEp x f).bytes o' i' j' k' = s.bytes o' i' j' k' := rfl
@[simp] theorem State.modEp_axis (s : State) (x : Nat) (f : Endpoint → Endpoint) (q : Nat) : (s.modEp x f).axis q = s.axis q := rfl
@[simp] theorem State.modEp_fbu (s : State) (x : Nat) (f : Endpoint → Endpoint) (q : Nat) : (s.modEp x f).fbu q = s.fbu q := rfl
@[simp] theorem State.modEp_latch (s : State) (x : Nat) (f : Endpoint → Endpoint) (q : Nat) : (s.modEp x f).latch q = s.latch q := rfl
@[simp] theorem State.modEp_cmp (s : State) (x : Nat) (f : Endpoint → Endpoint) (q : Nat) : (s.modEp x f).cmp q = s.cmp q := rfl
@[simp] theorem State.modEp_master (s : State) (x : Nat) (f : Endpoint → Endpoint) (q : Nat) : (s.modEp x f).master q = s.master q := rfl
@[simp] theorem State.modEp_eng (s : State) (x : Nat) (f : Endpoint → Endpoint) (q : Nat) : (s.modEp x f).eng q = s.eng q := rfl
@[simp] theorem State.modEp_ace (s : State) (x : Nat) (f : Endpoint → Endpoint) (q : Nat) : (s.modEp x f).ace q = s.ace q := rfl
@[simp] theorem State.modEp_port (s : State) (x : Nat) (f : Endpoint → Endpoint) (q : Nat) : (s.modEp x f).port q = s.port q := rfl
@[simp] theorem State.modEp_ring (s : State) (x : Nat) (f : Endpoint → Endpoint) (q : Nat) : (s.modEp x f).ring q = s.ring q := rfl
@[simp] theorem State.modEp_wk (s : State) (x : Nat) (f : Endpoint → Endpoint) (q q' : Nat) : (s.modEp x f).wk q q' = s.wk q q' := rfl

/-! ### State.setPort -/

@[simp] theorem State.setPort_pending (s : State) (p : Nat) (x : PortRt) : (s.setPort p x).pending = s.pending := rfl
@[simp] theorem State.setPort_now (s : State) (p : Nat) (x : PortRt) : (s.setPort p x).now = s.now := rfl
@[simp] theorem State.setPort_frac (s : State) (p : Nat) (x : PortRt) : (s.setPort p x).frac = s.frac := rfl
@[simp] theorem State.setPort_free (s : State) (p : Nat) (x : PortRt) : (s.setPort p x).free = s.free := rfl
@[simp] theorem State.setPort_out (s : State) (p : Nat) (x : PortRt) : (s.setPort p x).out = s.out := rfl
@[simp] theorem State.setPort_od (s : State) (p : Nat) (x : PortRt) : (s.setPort p x).od = s.od := rfl
@[simp] theorem State.setPort_staged (s : State) (p : Nat) (x : PortRt) : (s.setPort p x).staged = s.staged := rfl
@[simp] theorem State.setPort_snaps (s : State) (p : Nat) (x : PortRt) : (s.setPort p x).snaps = s.snaps := rfl
@[simp] theorem State.setPort_axes (s : State) (p : Nat) (x : PortRt) : (s.setPort p x).axes = s.axes := rfl
@[simp] theorem State.setPort_fbs (s : State) (p : Nat) (x : PortRt) : (s.setPort p x).fbs = s.fbs := rfl
@[simp] theorem State.setPort_lats (s : State) (p : Nat) (x : PortRt) : (s.setPort p x).lats = s.lats := rfl
@[simp] theorem State.setPort_cmps (s : State) (p : Nat) (x : PortRt) : (s.setPort p x).cmps = s.cmps := rfl
@[simp] theorem State.setPort_msts (s : State) (p : Nat) (x : PortRt) : (s.setPort p x).msts = s.msts := rfl
@[simp] theorem State.setPort_disp (s : State) (p : Nat) (x : PortRt) : (s.setPort p x).disp = s.disp := rfl
@[simp] theorem State.setPort_engs (s : State) (p : Nat) (x : PortRt) : (s.setPort p x).engs = s.engs := rfl
@[simp] theorem State.setPort_aces (s : State) (p : Nat) (x : PortRt) : (s.setPort p x).aces = s.aces := rfl
@[simp] theorem State.setPort_shared (s : State) (p : Nat) (x : PortRt) : (s.setPort p x).shared = s.shared := rfl
@[simp] theorem State.setPort_ucode (s : State) (p : Nat) (x : PortRt) : (s.setPort p x).ucode = s.ucode := rfl
@[simp] theorem State.setPort_eps (s : State) (p : Nat) (x : PortRt) : (s.setPort p x).eps = s.eps := rfl
@[simp] theorem State.setPort_field (s : State) (p : Nat) (x : PortRt) : (s.setPort p x).field = s.field := rfl
@[simp] theorem State.setPort_time (s : State) (p : Nat) (x : PortRt) : (s.setPort p x).time = s.time := rfl
@[simp] theorem State.setPort_obs (s : State) (p : Nat) (x : PortRt) : (s.setPort p x).obs = s.obs := rfl
@[simp] theorem State.setPort_safe (s : State) (p : Nat) (x : PortRt) : (s.setPort p x).safe = s.safe := rfl
@[simp] theorem State.setPort_debugger (s : State) (p : Nat) (x : PortRt) : (s.setPort p x).debugger = s.debugger := rfl
@[simp] theorem State.setPort_benchUp (s : State) (p : Nat) (x : PortRt) : (s.setPort p x).benchUp = s.benchUp := rfl
@[simp] theorem State.setPort_rings (s : State) (p : Nat) (x : PortRt) : (s.setPort p x).rings = s.rings := rfl
@[simp] theorem State.setPort_wks (s : State) (p : Nat) (x : PortRt) : (s.setPort p x).wks = s.wks := rfl
@[simp] theorem State.setPort_hud (s : State) (p : Nat) (x : PortRt) : (s.setPort p x).hud = s.hud := rfl
@[simp] theorem State.setPort_com (s : State) (p : Nat) (x : PortRt) : (s.setPort p x).com = s.com := rfl
@[simp] theorem State.setPort_store (s : State) (p : Nat) (x : PortRt) : (s.setPort p x).store = s.store := rfl
@[simp] theorem State.setPort_pair (s : State) (p : Nat) (x : PortRt) : (s.setPort p x).pair = s.pair := rfl
@[simp] theorem State.setPort_host (s : State) (p : Nat) (x : PortRt) : (s.setPort p x).host = s.host := rfl
@[simp] theorem State.setPort_boot (s : State) (p : Nat) (x : PortRt) : (s.setPort p x).boot = s.boot := rfl
@[simp] theorem State.setPort_get (s : State) (p : Nat) (x : PortRt) (o' : Obj) (i' j' k' : Nat) : (s.setPort p x).get o' i' j' k' = s.get o' i' j' k' := rfl
@[simp] theorem State.setPort_nat (s : State) (p : Nat) (x : PortRt) (o' : Obj) (i' j' k' : Nat) : (s.setPort p x).nat o' i' j' k' = s.nat o' i' j' k' := rfl
@[simp] theorem State.setPort_flag (s : State) (p : Nat) (x : PortRt) (o' : Obj) (i' j' k' : Nat) : (s.setPort p x).flag o' i' j' k' = s.flag o' i' j' k' := rfl
@[simp] theorem State.setPort_bytes (s : State) (p : Nat) (x : PortRt) (o' : Obj) (i' j' k' : Nat) : (s.setPort p x).bytes o' i' j' k' = s.bytes o' i' j' k' := rfl
@[simp] theorem State.setPort_axis (s : State) (p : Nat) (x : PortRt) (q : Nat) : (s.setPort p x).axis q = s.axis q := rfl
@[simp] theorem State.setPort_fbu (s : State) (p : Nat) (x : PortRt) (q : Nat) : (s.setPort p x).fbu q = s.fbu q := rfl
@[simp] theorem State.setPort_latch (s : State) (p : Nat) (x : PortRt) (q : Nat) : (s.setPort p x).latch q = s.latch q := rfl
@[simp] theorem State.setPort_cmp (s : State) (p : Nat) (x : PortRt) (q : Nat) : (s.setPort p x).cmp q = s.cmp q := rfl
@[simp] theorem State.setPort_master (s : State) (p : Nat) (x : PortRt) (q : Nat) : (s.setPort p x).master q = s.master q := rfl
@[simp] theorem State.setPort_eng (s : State) (p : Nat) (x : PortRt) (q : Nat) : (s.setPort p x).eng q = s.eng q := rfl
@[simp] theorem State.setPort_ace (s : State) (p : Nat) (x : PortRt) (q : Nat) : (s.setPort p x).ace q = s.ace q := rfl
@[simp] theorem State.setPort_ep (s : State) (p : Nat) (x : PortRt) (q : Nat) : (s.setPort p x).ep q = s.ep q := rfl
@[simp] theorem State.setPort_ring (s : State) (p : Nat) (x : PortRt) (q : Nat) : (s.setPort p x).ring q = s.ring q := rfl
@[simp] theorem State.setPort_wk (s : State) (p : Nat) (x : PortRt) (q q' : Nat) : (s.setPort p x).wk q q' = s.wk q q' := rfl

/-! ### State.setRing -/

@[simp] theorem State.setRing_pending (s : State) (r : Nat) (x : RingRt) : (s.setRing r x).pending = s.pending := rfl
@[simp] theorem State.setRing_now (s : State) (r : Nat) (x : RingRt) : (s.setRing r x).now = s.now := rfl
@[simp] theorem State.setRing_frac (s : State) (r : Nat) (x : RingRt) : (s.setRing r x).frac = s.frac := rfl
@[simp] theorem State.setRing_free (s : State) (r : Nat) (x : RingRt) : (s.setRing r x).free = s.free := rfl
@[simp] theorem State.setRing_out (s : State) (r : Nat) (x : RingRt) : (s.setRing r x).out = s.out := rfl
@[simp] theorem State.setRing_od (s : State) (r : Nat) (x : RingRt) : (s.setRing r x).od = s.od := rfl
@[simp] theorem State.setRing_staged (s : State) (r : Nat) (x : RingRt) : (s.setRing r x).staged = s.staged := rfl
@[simp] theorem State.setRing_snaps (s : State) (r : Nat) (x : RingRt) : (s.setRing r x).snaps = s.snaps := rfl
@[simp] theorem State.setRing_axes (s : State) (r : Nat) (x : RingRt) : (s.setRing r x).axes = s.axes := rfl
@[simp] theorem State.setRing_fbs (s : State) (r : Nat) (x : RingRt) : (s.setRing r x).fbs = s.fbs := rfl
@[simp] theorem State.setRing_lats (s : State) (r : Nat) (x : RingRt) : (s.setRing r x).lats = s.lats := rfl
@[simp] theorem State.setRing_cmps (s : State) (r : Nat) (x : RingRt) : (s.setRing r x).cmps = s.cmps := rfl
@[simp] theorem State.setRing_msts (s : State) (r : Nat) (x : RingRt) : (s.setRing r x).msts = s.msts := rfl
@[simp] theorem State.setRing_disp (s : State) (r : Nat) (x : RingRt) : (s.setRing r x).disp = s.disp := rfl
@[simp] theorem State.setRing_engs (s : State) (r : Nat) (x : RingRt) : (s.setRing r x).engs = s.engs := rfl
@[simp] theorem State.setRing_aces (s : State) (r : Nat) (x : RingRt) : (s.setRing r x).aces = s.aces := rfl
@[simp] theorem State.setRing_shared (s : State) (r : Nat) (x : RingRt) : (s.setRing r x).shared = s.shared := rfl
@[simp] theorem State.setRing_ucode (s : State) (r : Nat) (x : RingRt) : (s.setRing r x).ucode = s.ucode := rfl
@[simp] theorem State.setRing_eps (s : State) (r : Nat) (x : RingRt) : (s.setRing r x).eps = s.eps := rfl
@[simp] theorem State.setRing_field (s : State) (r : Nat) (x : RingRt) : (s.setRing r x).field = s.field := rfl
@[simp] theorem State.setRing_time (s : State) (r : Nat) (x : RingRt) : (s.setRing r x).time = s.time := rfl
@[simp] theorem State.setRing_obs (s : State) (r : Nat) (x : RingRt) : (s.setRing r x).obs = s.obs := rfl
@[simp] theorem State.setRing_safe (s : State) (r : Nat) (x : RingRt) : (s.setRing r x).safe = s.safe := rfl
@[simp] theorem State.setRing_debugger (s : State) (r : Nat) (x : RingRt) : (s.setRing r x).debugger = s.debugger := rfl
@[simp] theorem State.setRing_benchUp (s : State) (r : Nat) (x : RingRt) : (s.setRing r x).benchUp = s.benchUp := rfl
@[simp] theorem State.setRing_ports (s : State) (r : Nat) (x : RingRt) : (s.setRing r x).ports = s.ports := rfl
@[simp] theorem State.setRing_wks (s : State) (r : Nat) (x : RingRt) : (s.setRing r x).wks = s.wks := rfl
@[simp] theorem State.setRing_hud (s : State) (r : Nat) (x : RingRt) : (s.setRing r x).hud = s.hud := rfl
@[simp] theorem State.setRing_com (s : State) (r : Nat) (x : RingRt) : (s.setRing r x).com = s.com := rfl
@[simp] theorem State.setRing_store (s : State) (r : Nat) (x : RingRt) : (s.setRing r x).store = s.store := rfl
@[simp] theorem State.setRing_pair (s : State) (r : Nat) (x : RingRt) : (s.setRing r x).pair = s.pair := rfl
@[simp] theorem State.setRing_host (s : State) (r : Nat) (x : RingRt) : (s.setRing r x).host = s.host := rfl
@[simp] theorem State.setRing_boot (s : State) (r : Nat) (x : RingRt) : (s.setRing r x).boot = s.boot := rfl
@[simp] theorem State.setRing_get (s : State) (r : Nat) (x : RingRt) (o' : Obj) (i' j' k' : Nat) : (s.setRing r x).get o' i' j' k' = s.get o' i' j' k' := rfl
@[simp] theorem State.setRing_nat (s : State) (r : Nat) (x : RingRt) (o' : Obj) (i' j' k' : Nat) : (s.setRing r x).nat o' i' j' k' = s.nat o' i' j' k' := rfl
@[simp] theorem State.setRing_flag (s : State) (r : Nat) (x : RingRt) (o' : Obj) (i' j' k' : Nat) : (s.setRing r x).flag o' i' j' k' = s.flag o' i' j' k' := rfl
@[simp] theorem State.setRing_bytes (s : State) (r : Nat) (x : RingRt) (o' : Obj) (i' j' k' : Nat) : (s.setRing r x).bytes o' i' j' k' = s.bytes o' i' j' k' := rfl
@[simp] theorem State.setRing_axis (s : State) (r : Nat) (x : RingRt) (q : Nat) : (s.setRing r x).axis q = s.axis q := rfl
@[simp] theorem State.setRing_fbu (s : State) (r : Nat) (x : RingRt) (q : Nat) : (s.setRing r x).fbu q = s.fbu q := rfl
@[simp] theorem State.setRing_latch (s : State) (r : Nat) (x : RingRt) (q : Nat) : (s.setRing r x).latch q = s.latch q := rfl
@[simp] theorem State.setRing_cmp (s : State) (r : Nat) (x : RingRt) (q : Nat) : (s.setRing r x).cmp q = s.cmp q := rfl
@[simp] theorem State.setRing_master (s : State) (r : Nat) (x : RingRt) (q : Nat) : (s.setRing r x).master q = s.master q := rfl
@[simp] theorem State.setRing_eng (s : State) (r : Nat) (x : RingRt) (q : Nat) : (s.setRing r x).eng q = s.eng q := rfl
@[simp] theorem State.setRing_ace (s : State) (r : Nat) (x : RingRt) (q : Nat) : (s.setRing r x).ace q = s.ace q := rfl
@[simp] theorem State.setRing_ep (s : State) (r : Nat) (x : RingRt) (q : Nat) : (s.setRing r x).ep q = s.ep q := rfl
@[simp] theorem State.setRing_port (s : State) (r : Nat) (x : RingRt) (q : Nat) : (s.setRing r x).port q = s.port q := rfl
@[simp] theorem State.setRing_wk (s : State) (r : Nat) (x : RingRt) (q q' : Nat) : (s.setRing r x).wk q q' = s.wk q q' := rfl

/-! ### State.modRing -/

@[simp] theorem State.modRing_pending (s : State) (r : Nat) (f : RingRt → RingRt) : (s.modRing r f).pending = s.pending := rfl
@[simp] theorem State.modRing_now (s : State) (r : Nat) (f : RingRt → RingRt) : (s.modRing r f).now = s.now := rfl
@[simp] theorem State.modRing_frac (s : State) (r : Nat) (f : RingRt → RingRt) : (s.modRing r f).frac = s.frac := rfl
@[simp] theorem State.modRing_free (s : State) (r : Nat) (f : RingRt → RingRt) : (s.modRing r f).free = s.free := rfl
@[simp] theorem State.modRing_out (s : State) (r : Nat) (f : RingRt → RingRt) : (s.modRing r f).out = s.out := rfl
@[simp] theorem State.modRing_od (s : State) (r : Nat) (f : RingRt → RingRt) : (s.modRing r f).od = s.od := rfl
@[simp] theorem State.modRing_staged (s : State) (r : Nat) (f : RingRt → RingRt) : (s.modRing r f).staged = s.staged := rfl
@[simp] theorem State.modRing_snaps (s : State) (r : Nat) (f : RingRt → RingRt) : (s.modRing r f).snaps = s.snaps := rfl
@[simp] theorem State.modRing_axes (s : State) (r : Nat) (f : RingRt → RingRt) : (s.modRing r f).axes = s.axes := rfl
@[simp] theorem State.modRing_fbs (s : State) (r : Nat) (f : RingRt → RingRt) : (s.modRing r f).fbs = s.fbs := rfl
@[simp] theorem State.modRing_lats (s : State) (r : Nat) (f : RingRt → RingRt) : (s.modRing r f).lats = s.lats := rfl
@[simp] theorem State.modRing_cmps (s : State) (r : Nat) (f : RingRt → RingRt) : (s.modRing r f).cmps = s.cmps := rfl
@[simp] theorem State.modRing_msts (s : State) (r : Nat) (f : RingRt → RingRt) : (s.modRing r f).msts = s.msts := rfl
@[simp] theorem State.modRing_disp (s : State) (r : Nat) (f : RingRt → RingRt) : (s.modRing r f).disp = s.disp := rfl
@[simp] theorem State.modRing_engs (s : State) (r : Nat) (f : RingRt → RingRt) : (s.modRing r f).engs = s.engs := rfl
@[simp] theorem State.modRing_aces (s : State) (r : Nat) (f : RingRt → RingRt) : (s.modRing r f).aces = s.aces := rfl
@[simp] theorem State.modRing_shared (s : State) (r : Nat) (f : RingRt → RingRt) : (s.modRing r f).shared = s.shared := rfl
@[simp] theorem State.modRing_ucode (s : State) (r : Nat) (f : RingRt → RingRt) : (s.modRing r f).ucode = s.ucode := rfl
@[simp] theorem State.modRing_eps (s : State) (r : Nat) (f : RingRt → RingRt) : (s.modRing r f).eps = s.eps := rfl
@[simp] theorem State.modRing_field (s : State) (r : Nat) (f : RingRt → RingRt) : (s.modRing r f).field = s.field := rfl
@[simp] theorem State.modRing_time (s : State) (r : Nat) (f : RingRt → RingRt) : (s.modRing r f).time = s.time := rfl
@[simp] theorem State.modRing_obs (s : State) (r : Nat) (f : RingRt → RingRt) : (s.modRing r f).obs = s.obs := rfl
@[simp] theorem State.modRing_safe (s : State) (r : Nat) (f : RingRt → RingRt) : (s.modRing r f).safe = s.safe := rfl
@[simp] theorem State.modRing_debugger (s : State) (r : Nat) (f : RingRt → RingRt) : (s.modRing r f).debugger = s.debugger := rfl
@[simp] theorem State.modRing_benchUp (s : State) (r : Nat) (f : RingRt → RingRt) : (s.modRing r f).benchUp = s.benchUp := rfl
@[simp] theorem State.modRing_ports (s : State) (r : Nat) (f : RingRt → RingRt) : (s.modRing r f).ports = s.ports := rfl
@[simp] theorem State.modRing_wks (s : State) (r : Nat) (f : RingRt → RingRt) : (s.modRing r f).wks = s.wks := rfl
@[simp] theorem State.modRing_hud (s : State) (r : Nat) (f : RingRt → RingRt) : (s.modRing r f).hud = s.hud := rfl
@[simp] theorem State.modRing_com (s : State) (r : Nat) (f : RingRt → RingRt) : (s.modRing r f).com = s.com := rfl
@[simp] theorem State.modRing_store (s : State) (r : Nat) (f : RingRt → RingRt) : (s.modRing r f).store = s.store := rfl
@[simp] theorem State.modRing_pair (s : State) (r : Nat) (f : RingRt → RingRt) : (s.modRing r f).pair = s.pair := rfl
@[simp] theorem State.modRing_host (s : State) (r : Nat) (f : RingRt → RingRt) : (s.modRing r f).host = s.host := rfl
@[simp] theorem State.modRing_boot (s : State) (r : Nat) (f : RingRt → RingRt) : (s.modRing r f).boot = s.boot := rfl
@[simp] theorem State.modRing_get (s : State) (r : Nat) (f : RingRt → RingRt) (o' : Obj) (i' j' k' : Nat) : (s.modRing r f).get o' i' j' k' = s.get o' i' j' k' := rfl
@[simp] theorem State.modRing_nat (s : State) (r : Nat) (f : RingRt → RingRt) (o' : Obj) (i' j' k' : Nat) : (s.modRing r f).nat o' i' j' k' = s.nat o' i' j' k' := rfl
@[simp] theorem State.modRing_flag (s : State) (r : Nat) (f : RingRt → RingRt) (o' : Obj) (i' j' k' : Nat) : (s.modRing r f).flag o' i' j' k' = s.flag o' i' j' k' := rfl
@[simp] theorem State.modRing_bytes (s : State) (r : Nat) (f : RingRt → RingRt) (o' : Obj) (i' j' k' : Nat) : (s.modRing r f).bytes o' i' j' k' = s.bytes o' i' j' k' := rfl
@[simp] theorem State.modRing_axis (s : State) (r : Nat) (f : RingRt → RingRt) (q : Nat) : (s.modRing r f).axis q = s.axis q := rfl
@[simp] theorem State.modRing_fbu (s : State) (r : Nat) (f : RingRt → RingRt) (q : Nat) : (s.modRing r f).fbu q = s.fbu q := rfl
@[simp] theorem State.modRing_latch (s : State) (r : Nat) (f : RingRt → RingRt) (q : Nat) : (s.modRing r f).latch q = s.latch q := rfl
@[simp] theorem State.modRing_cmp (s : State) (r : Nat) (f : RingRt → RingRt) (q : Nat) : (s.modRing r f).cmp q = s.cmp q := rfl
@[simp] theorem State.modRing_master (s : State) (r : Nat) (f : RingRt → RingRt) (q : Nat) : (s.modRing r f).master q = s.master q := rfl
@[simp] theorem State.modRing_eng (s : State) (r : Nat) (f : RingRt → RingRt) (q : Nat) : (s.modRing r f).eng q = s.eng q := rfl
@[simp] theorem State.modRing_ace (s : State) (r : Nat) (f : RingRt → RingRt) (q : Nat) : (s.modRing r f).ace q = s.ace q := rfl
@[simp] theorem State.modRing_ep (s : State) (r : Nat) (f : RingRt → RingRt) (q : Nat) : (s.modRing r f).ep q = s.ep q := rfl
@[simp] theorem State.modRing_port (s : State) (r : Nat) (f : RingRt → RingRt) (q : Nat) : (s.modRing r f).port q = s.port q := rfl
@[simp] theorem State.modRing_wk (s : State) (r : Nat) (f : RingRt → RingRt) (q q' : Nat) : (s.modRing r f).wk q q' = s.wk q q' := rfl

/-! ### State.setWk -/

@[simp] theorem State.setWk_pending (s : State) (r p : Nat) (x : WorkerRt) : (s.setWk r p x).pending = s.pending := rfl
@[simp] theorem State.setWk_now (s : State) (r p : Nat) (x : WorkerRt) : (s.setWk r p x).now = s.now := rfl
@[simp] theorem State.setWk_frac (s : State) (r p : Nat) (x : WorkerRt) : (s.setWk r p x).frac = s.frac := rfl
@[simp] theorem State.setWk_free (s : State) (r p : Nat) (x : WorkerRt) : (s.setWk r p x).free = s.free := rfl
@[simp] theorem State.setWk_out (s : State) (r p : Nat) (x : WorkerRt) : (s.setWk r p x).out = s.out := rfl
@[simp] theorem State.setWk_od (s : State) (r p : Nat) (x : WorkerRt) : (s.setWk r p x).od = s.od := rfl
@[simp] theorem State.setWk_staged (s : State) (r p : Nat) (x : WorkerRt) : (s.setWk r p x).staged = s.staged := rfl
@[simp] theorem State.setWk_snaps (s : State) (r p : Nat) (x : WorkerRt) : (s.setWk r p x).snaps = s.snaps := rfl
@[simp] theorem State.setWk_axes (s : State) (r p : Nat) (x : WorkerRt) : (s.setWk r p x).axes = s.axes := rfl
@[simp] theorem State.setWk_fbs (s : State) (r p : Nat) (x : WorkerRt) : (s.setWk r p x).fbs = s.fbs := rfl
@[simp] theorem State.setWk_lats (s : State) (r p : Nat) (x : WorkerRt) : (s.setWk r p x).lats = s.lats := rfl
@[simp] theorem State.setWk_cmps (s : State) (r p : Nat) (x : WorkerRt) : (s.setWk r p x).cmps = s.cmps := rfl
@[simp] theorem State.setWk_msts (s : State) (r p : Nat) (x : WorkerRt) : (s.setWk r p x).msts = s.msts := rfl
@[simp] theorem State.setWk_disp (s : State) (r p : Nat) (x : WorkerRt) : (s.setWk r p x).disp = s.disp := rfl
@[simp] theorem State.setWk_engs (s : State) (r p : Nat) (x : WorkerRt) : (s.setWk r p x).engs = s.engs := rfl
@[simp] theorem State.setWk_aces (s : State) (r p : Nat) (x : WorkerRt) : (s.setWk r p x).aces = s.aces := rfl
@[simp] theorem State.setWk_shared (s : State) (r p : Nat) (x : WorkerRt) : (s.setWk r p x).shared = s.shared := rfl
@[simp] theorem State.setWk_ucode (s : State) (r p : Nat) (x : WorkerRt) : (s.setWk r p x).ucode = s.ucode := rfl
@[simp] theorem State.setWk_eps (s : State) (r p : Nat) (x : WorkerRt) : (s.setWk r p x).eps = s.eps := rfl
@[simp] theorem State.setWk_field (s : State) (r p : Nat) (x : WorkerRt) : (s.setWk r p x).field = s.field := rfl
@[simp] theorem State.setWk_time (s : State) (r p : Nat) (x : WorkerRt) : (s.setWk r p x).time = s.time := rfl
@[simp] theorem State.setWk_obs (s : State) (r p : Nat) (x : WorkerRt) : (s.setWk r p x).obs = s.obs := rfl
@[simp] theorem State.setWk_safe (s : State) (r p : Nat) (x : WorkerRt) : (s.setWk r p x).safe = s.safe := rfl
@[simp] theorem State.setWk_debugger (s : State) (r p : Nat) (x : WorkerRt) : (s.setWk r p x).debugger = s.debugger := rfl
@[simp] theorem State.setWk_benchUp (s : State) (r p : Nat) (x : WorkerRt) : (s.setWk r p x).benchUp = s.benchUp := rfl
@[simp] theorem State.setWk_ports (s : State) (r p : Nat) (x : WorkerRt) : (s.setWk r p x).ports = s.ports := rfl
@[simp] theorem State.setWk_rings (s : State) (r p : Nat) (x : WorkerRt) : (s.setWk r p x).rings = s.rings := rfl
@[simp] theorem State.setWk_hud (s : State) (r p : Nat) (x : WorkerRt) : (s.setWk r p x).hud = s.hud := rfl
@[simp] theorem State.setWk_com (s : State) (r p : Nat) (x : WorkerRt) : (s.setWk r p x).com = s.com := rfl
@[simp] theorem State.setWk_store (s : State) (r p : Nat) (x : WorkerRt) : (s.setWk r p x).store = s.store := rfl
@[simp] theorem State.setWk_pair (s : State) (r p : Nat) (x : WorkerRt) : (s.setWk r p x).pair = s.pair := rfl
@[simp] theorem State.setWk_host (s : State) (r p : Nat) (x : WorkerRt) : (s.setWk r p x).host = s.host := rfl
@[simp] theorem State.setWk_boot (s : State) (r p : Nat) (x : WorkerRt) : (s.setWk r p x).boot = s.boot := rfl
@[simp] theorem State.setWk_get (s : State) (r p : Nat) (x : WorkerRt) (o' : Obj) (i' j' k' : Nat) : (s.setWk r p x).get o' i' j' k' = s.get o' i' j' k' := rfl
@[simp] theorem State.setWk_nat (s : State) (r p : Nat) (x : WorkerRt) (o' : Obj) (i' j' k' : Nat) : (s.setWk r p x).nat o' i' j' k' = s.nat o' i' j' k' := rfl
@[simp] theorem State.setWk_flag (s : State) (r p : Nat) (x : WorkerRt) (o' : Obj) (i' j' k' : Nat) : (s.setWk r p x).flag o' i' j' k' = s.flag o' i' j' k' := rfl
@[simp] theorem State.setWk_bytes (s : State) (r p : Nat) (x : WorkerRt) (o' : Obj) (i' j' k' : Nat) : (s.setWk r p x).bytes o' i' j' k' = s.bytes o' i' j' k' := rfl
@[simp] theorem State.setWk_axis (s : State) (r p : Nat) (x : WorkerRt) (q : Nat) : (s.setWk r p x).axis q = s.axis q := rfl
@[simp] theorem State.setWk_fbu (s : State) (r p : Nat) (x : WorkerRt) (q : Nat) : (s.setWk r p x).fbu q = s.fbu q := rfl
@[simp] theorem State.setWk_latch (s : State) (r p : Nat) (x : WorkerRt) (q : Nat) : (s.setWk r p x).latch q = s.latch q := rfl
@[simp] theorem State.setWk_cmp (s : State) (r p : Nat) (x : WorkerRt) (q : Nat) : (s.setWk r p x).cmp q = s.cmp q := rfl
@[simp] theorem State.setWk_master (s : State) (r p : Nat) (x : WorkerRt) (q : Nat) : (s.setWk r p x).master q = s.master q := rfl
@[simp] theorem State.setWk_eng (s : State) (r p : Nat) (x : WorkerRt) (q : Nat) : (s.setWk r p x).eng q = s.eng q := rfl
@[simp] theorem State.setWk_ace (s : State) (r p : Nat) (x : WorkerRt) (q : Nat) : (s.setWk r p x).ace q = s.ace q := rfl
@[simp] theorem State.setWk_ep (s : State) (r p : Nat) (x : WorkerRt) (q : Nat) : (s.setWk r p x).ep q = s.ep q := rfl
@[simp] theorem State.setWk_port (s : State) (r p : Nat) (x : WorkerRt) (q : Nat) : (s.setWk r p x).port q = s.port q := rfl
@[simp] theorem State.setWk_ring (s : State) (r p : Nat) (x : WorkerRt) (q : Nat) : (s.setWk r p x).ring q = s.ring q := rfl

/-! ### State.modWk -/

@[simp] theorem State.modWk_pending (s : State) (r p : Nat) (f : WorkerRt → WorkerRt) : (s.modWk r p f).pending = s.pending := rfl
@[simp] theorem State.modWk_now (s : State) (r p : Nat) (f : WorkerRt → WorkerRt) : (s.modWk r p f).now = s.now := rfl
@[simp] theorem State.modWk_frac (s : State) (r p : Nat) (f : WorkerRt → WorkerRt) : (s.modWk r p f).frac = s.frac := rfl
@[simp] theorem State.modWk_free (s : State) (r p : Nat) (f : WorkerRt → WorkerRt) : (s.modWk r p f).free = s.free := rfl
@[simp] theorem State.modWk_out (s : State) (r p : Nat) (f : WorkerRt → WorkerRt) : (s.modWk r p f).out = s.out := rfl
@[simp] theorem State.modWk_od (s : State) (r p : Nat) (f : WorkerRt → WorkerRt) : (s.modWk r p f).od = s.od := rfl
@[simp] theorem State.modWk_staged (s : State) (r p : Nat) (f : WorkerRt → WorkerRt) : (s.modWk r p f).staged = s.staged := rfl
@[simp] theorem State.modWk_snaps (s : State) (r p : Nat) (f : WorkerRt → WorkerRt) : (s.modWk r p f).snaps = s.snaps := rfl
@[simp] theorem State.modWk_axes (s : State) (r p : Nat) (f : WorkerRt → WorkerRt) : (s.modWk r p f).axes = s.axes := rfl
@[simp] theorem State.modWk_fbs (s : State) (r p : Nat) (f : WorkerRt → WorkerRt) : (s.modWk r p f).fbs = s.fbs := rfl
@[simp] theorem State.modWk_lats (s : State) (r p : Nat) (f : WorkerRt → WorkerRt) : (s.modWk r p f).lats = s.lats := rfl
@[simp] theorem State.modWk_cmps (s : State) (r p : Nat) (f : WorkerRt → WorkerRt) : (s.modWk r p f).cmps = s.cmps := rfl
@[simp] theorem State.modWk_msts (s : State) (r p : Nat) (f : WorkerRt → WorkerRt) : (s.modWk r p f).msts = s.msts := rfl
@[simp] theorem State.modWk_disp (s : State) (r p : Nat) (f : WorkerRt → WorkerRt) : (s.modWk r p f).disp = s.disp := rfl
@[simp] theorem State.modWk_engs (s : State) (r p : Nat) (f : WorkerRt → WorkerRt) : (s.modWk r p f).engs = s.engs := rfl
@[simp] theorem State.modWk_aces (s : State) (r p : Nat) (f : WorkerRt → WorkerRt) : (s.modWk r p f).aces = s.aces := rfl
@[simp] theorem State.modWk_shared (s : State) (r p : Nat) (f : WorkerRt → WorkerRt) : (s.modWk r p f).shared = s.shared := rfl
@[simp] theorem State.modWk_ucode (s : State) (r p : Nat) (f : WorkerRt → WorkerRt) : (s.modWk r p f).ucode = s.ucode := rfl
@[simp] theorem State.modWk_eps (s : State) (r p : Nat) (f : WorkerRt → WorkerRt) : (s.modWk r p f).eps = s.eps := rfl
@[simp] theorem State.modWk_field (s : State) (r p : Nat) (f : WorkerRt → WorkerRt) : (s.modWk r p f).field = s.field := rfl
@[simp] theorem State.modWk_time (s : State) (r p : Nat) (f : WorkerRt → WorkerRt) : (s.modWk r p f).time = s.time := rfl
@[simp] theorem State.modWk_obs (s : State) (r p : Nat) (f : WorkerRt → WorkerRt) : (s.modWk r p f).obs = s.obs := rfl
@[simp] theorem State.modWk_safe (s : State) (r p : Nat) (f : WorkerRt → WorkerRt) : (s.modWk r p f).safe = s.safe := rfl
@[simp] theorem State.modWk_debugger (s : State) (r p : Nat) (f : WorkerRt → WorkerRt) : (s.modWk r p f).debugger = s.debugger := rfl
@[simp] theorem State.modWk_benchUp (s : State) (r p : Nat) (f : WorkerRt → WorkerRt) : (s.modWk r p f).benchUp = s.benchUp := rfl
@[simp] theorem State.modWk_ports (s : State) (r p : Nat) (f : WorkerRt → WorkerRt) : (s.modWk r p f).ports = s.ports := rfl
@[simp] theorem State.modWk_rings (s : State) (r p : Nat) (f : WorkerRt → WorkerRt) : (s.modWk r p f).rings = s.rings := rfl
@[simp] theorem State.modWk_hud (s : State) (r p : Nat) (f : WorkerRt → WorkerRt) : (s.modWk r p f).hud = s.hud := rfl
@[simp] theorem State.modWk_com (s : State) (r p : Nat) (f : WorkerRt → WorkerRt) : (s.modWk r p f).com = s.com := rfl
@[simp] theorem State.modWk_store (s : State) (r p : Nat) (f : WorkerRt → WorkerRt) : (s.modWk r p f).store = s.store := rfl
@[simp] theorem State.modWk_pair (s : State) (r p : Nat) (f : WorkerRt → WorkerRt) : (s.modWk r p f).pair = s.pair := rfl
@[simp] theorem State.modWk_host (s : State) (r p : Nat) (f : WorkerRt → WorkerRt) : (s.modWk r p f).host = s.host := rfl
@[simp] theorem State.modWk_boot (s : State) (r p : Nat) (f : WorkerRt → WorkerRt) : (s.modWk r p f).boot = s.boot := rfl
@[simp] theorem State.modWk_get (s : State) (r p : Nat) (f : WorkerRt → WorkerRt) (o' : Obj) (i' j' k' : Nat) : (s.modWk r p f).get o' i' j' k' = s.get o' i' j' k' := rfl
@[simp] theorem State.modWk_nat (s : State) (r p : Nat) (f : WorkerRt → WorkerRt) (o' : Obj) (i' j' k' : Nat) : (s.modWk r p f).nat o' i' j' k' = s.nat o' i' j' k' := rfl
@[simp] theorem State.modWk_flag (s : State) (r p : Nat) (f : WorkerRt → WorkerRt) (o' : Obj) (i' j' k' : Nat) : (s.modWk r p f).flag o' i' j' k' = s.flag o' i' j' k' := rfl
@[simp] theorem State.modWk_bytes (s : State) (r p : Nat) (f : WorkerRt → WorkerRt) (o' : Obj) (i' j' k' : Nat) : (s.modWk r p f).bytes o' i' j' k' = s.bytes o' i' j' k' := rfl
@[simp] theorem State.modWk_axis (s : State) (r p : Nat) (f : WorkerRt → WorkerRt) (q : Nat) : (s.modWk r p f).axis q = s.axis q := rfl
@[simp] theorem State.modWk_fbu (s : State) (r p : Nat) (f : WorkerRt → WorkerRt) (q : Nat) : (s.modWk r p f).fbu q = s.fbu q := rfl
@[simp] theorem State.modWk_latch (s : State) (r p : Nat) (f : WorkerRt → WorkerRt) (q : Nat) : (s.modWk r p f).latch q = s.latch q := rfl
@[simp] theorem State.modWk_cmp (s : State) (r p : Nat) (f : WorkerRt → WorkerRt) (q : Nat) : (s.modWk r p f).cmp q = s.cmp q := rfl
@[simp] theorem State.modWk_master (s : State) (r p : Nat) (f : WorkerRt → WorkerRt) (q : Nat) : (s.modWk r p f).master q = s.master q := rfl
@[simp] theorem State.modWk_eng (s : State) (r p : Nat) (f : WorkerRt → WorkerRt) (q : Nat) : (s.modWk r p f).eng q = s.eng q := rfl
@[simp] theorem State.modWk_ace (s : State) (r p : Nat) (f : WorkerRt → WorkerRt) (q : Nat) : (s.modWk r p f).ace q = s.ace q := rfl
@[simp] theorem State.modWk_ep (s : State) (r p : Nat) (f : WorkerRt → WorkerRt) (q : Nat) : (s.modWk r p f).ep q = s.ep q := rfl
@[simp] theorem State.modWk_port (s : State) (r p : Nat) (f : WorkerRt → WorkerRt) (q : Nat) : (s.modWk r p f).port q = s.port q := rfl
@[simp] theorem State.modWk_ring (s : State) (r p : Nat) (f : WorkerRt → WorkerRt) (q : Nat) : (s.modWk r p f).ring q = s.ring q := rfl

end Sys2Proof.Machine
end

