-- ==== Sys2Proof/Laws/Tables.lean ====
section
/-! SUPPORT. Sparse tables, the object dictionary, and the tables of axes, units, engines and rings: what a reading gives after one
update. -/

namespace Sys2Proof.Machine

/-- Reading a table after one key is put. -/
@[simp] theorem SMap.get?_put {α : Type} (m : SMap α) (x y : Nat) (w : α) :
    SMap.get? (SMap.put m x w) y = if y = x then some w else SMap.get? m y := by
  induction m with
  | nil => simp [SMap.put, SMap.get?]
  | cons e t ih =>
    obtain ⟨k, v⟩ := e
    unfold SMap.put
    split
    · rename_i h; subst h
      by_cases hy : y = x <;> simp [SMap.get?, hy]
    · split
      · by_cases hy : y = x <;> simp [SMap.get?, hy]
      · by_cases hk : y = k
        · subst hk
          have : y ≠ x := fun h => by simp_all
          simp [SMap.get?, this]
        · simp only [SMap.get?, hk, if_false, ih]

/-- The same with a default. -/
@[simp] theorem SMap.getD_put {α : Type} (m : SMap α) (x y : Nat) (w d : α) :
    SMap.getD (SMap.put m x w) y d = if y = x then w else SMap.getD m y d := by
  unfold SMap.getD
  rw [SMap.get?_put]
  split <;> rfl

/-! ### The dictionary -/

/-- The dictionary after one key is put. -/
@[simp] theorem State.putVal_od (s : State) (key : Nat) (v : Val) : (s.putVal key v).od = SMap.put s.od key v := rfl

/-- An object read after one is set. -/
theorem State.get_set (s : State) (o o' : Obj) (v : Int) (i j k i' j' k' : Nat) :
    (s.set o v i j k).get o' i' j' k' = if o'.key i' j' k' = o.key i j k then v else s.get o' i' j' k' := by
  simp only [State.get, State.numAt, State.set, State.putVal_od, SMap.get?_put]
  by_cases h : o'.key i' j' k' = o.key i j k <;> simp [h]

/-- An object read after it is set. -/
@[simp] theorem State.get_set_self (s : State) (o : Obj) (v : Int) (i j k : Nat) : (s.set o v i j k).get o i j k = v := by
  simp [State.get_set]

/-- An object read after another is set. -/
theorem State.get_set_ne (s : State) (o o' : Obj) (v : Int) (i j k i' j' k' : Nat) (h : o'.key i' j' k' ≠ o.key i j k) :
    (s.set o v i j k).get o' i' j' k' = s.get o' i' j' k' := by
  simp [State.get_set, h]

/-- An object read after a counter is raised. -/
theorem State.get_count (s : State) (o o' : Obj) (i j k : Nat) (n : Int) (i' j' k' : Nat) :
    (s.count o i j k n).get o' i' j' k' =
      if o'.key i' j' k' = o.key i j k then satInc o.ty.bits (s.get o i j k) n else s.get o' i' j' k' :=
  State.get_set ..

/-- An object read after octets are set. -/
theorem State.get_setBytes_ne (s : State) (o o' : Obj) (b : List Byte) (i j k i' j' k' : Nat) (h : o'.key i' j' k' ≠ o.key i j k) :
    (s.setBytes o b i j k).get o' i' j' k' = s.get o' i' j' k' := by
  simp [State.get, State.numAt, State.setBytes, h]

/-- Octets read after they are set. -/
@[simp] theorem State.bytes_setBytes_self (s : State) (o : Obj) (b : List Byte) (i j k : Nat) : (s.setBytes o b i j k).bytes o i j k = b := by
  simp [State.bytes, State.setBytes]

/-- A dictionary key that one set does not touch. -/
theorem State.set_od_ne (s : State) (o : Obj) (v : Int) (i j k key : Nat) (h : key ≠ o.key i j k) :
    SMap.get? (s.set o v i j k).od key = SMap.get? s.od key := by
  simp [State.set, h]

/-! ### Tables -/

@[simp] theorem State.axis_setAxis (s : State) (a b : Nat) (x : AxisRt) : (s.setAxis a x).axis b = if b = a then x else s.axis b := by
  simp [State.axis, State.setAxis]
@[simp] theorem State.axis_modAxis (s : State) (a b : Nat) (f : AxisRt → AxisRt) :
    (s.modAxis a f).axis b = if b = a then f (s.axis a) else s.axis b := by
  simp [State.modAxis]
@[simp] theorem State.axis_modMot (s : State) (a b : Nat) (f : MotSt → MotSt) :
    (s.modMot a f).axis b =
      if b = a then { s.axis a with mot := { f (s.axis a).mot with seq := (s.axis a).mot.seq + 1 } } else s.axis b := by
  simp [State.modMot]
@[simp] theorem State.fbu_setFbu (s : State) (u v : Nat) (x : FbUnit) : (s.setFbu u x).fbu v = if v = u then x else s.fbu v := by
  simp [State.fbu, State.setFbu]
@[simp] theorem State.latch_setLatch (s : State) (u v : Nat) (x : LatchRt) : (s.setLatch u x).latch v = if v = u then x else s.latch v := by
  simp [State.latch, State.setLatch]
@[simp] theorem State.cmp_setCmp (s : State) (u v : Nat) (x : CmpRt) : (s.setCmp u x).cmp v = if v = u then x else s.cmp v := by
  simp [State.cmp, State.setCmp]
@[simp] theorem State.master_setMaster (s : State) (u v : Nat) (x : MasterRt) :
    (s.setMaster u x).master v = if v = u then x else s.master v := by
  simp [State.master, State.setMaster]
@[simp] theorem State.eng_setEng (s : State) (u v : Nat) (x : EngRt) : (s.setEng u x).eng v = if v = u then x else s.eng v := by
  simp [State.eng, State.setEng]
@[simp] theorem State.ace_setAce (s : State) (u v : Nat) (x : AceRt) : (s.setAce u x).ace v = if v = u then x else s.ace v := by
  simp [State.ace, State.setAce]
@[simp] theorem State.ace_modAce (s : State) (u v : Nat) (f : AceRt → AceRt) :
    (s.modAce u f).ace v = if v = u then f (s.ace u) else s.ace v := by
  simp [State.modAce]
@[simp] theorem State.ep_setEp (s : State) (u v : Nat) (x : Endpoint) : (s.setEp u x).ep v = if v = u then x else s.ep v := by
  simp [State.ep, State.setEp]
@[simp] theorem State.ep_modEp (s : State) (u v : Nat) (f : Endpoint → Endpoint) :
    (s.modEp u f).ep v = if v = u then f (s.ep u) else s.ep v := by
  simp [State.modEp]
@[simp] theorem State.port_setPort (s : State) (u v : Nat) (x : PortRt) : (s.setPort u x).port v = if v = u then x else s.port v := by
  simp [State.port, State.setPort]
@[simp] theorem State.ring_setRing (s : State) (u v : Nat) (x : RingRt) : (s.setRing u x).ring v = if v = u then x else s.ring v := by
  simp [State.ring, State.setRing]
@[simp] theorem State.ring_modRing (s : State) (u v : Nat) (f : RingRt → RingRt) :
    (s.modRing u f).ring v = if v = u then f (s.ring u) else s.ring v := by
  simp [State.modRing]
/-- The worker of a place, and every place of another key (places 1 to 127 of the four rings have keys of their own). -/
@[simp] theorem State.wk_setWk (s : State) (r p r' p' : Nat) (x : WorkerRt) :
    (s.setWk r p x).wk r' p' = if r' * 128 + p' = r * 128 + p then x else s.wk r' p' := by
  simp [State.wk, State.setWk]

/-! ### Time -/

/-- Machine time never goes back. -/
theorem State.le_at_now (s : State) (t : Nat) : s.now ≤ (s.at t).now := by
  unfold State.at
  split
  · simp only; omega
  · exact le_refl _

/-- Machine time after a move to an instant. -/
theorem State.at_now (s : State) (t : Nat) : (s.at t).now = max s.now t := by
  unfold State.at
  split
  · simp only; omega
  · omega

end Sys2Proof.Machine
end

