-- ==== Sys2Proof/Laws/Ace.lean ====
section
/-! SUPPORT. The engines: what one operation of a bundle can do, and what counting an event leaves as it was. -/

namespace Sys2Proof.Machine

/-- A property that every pass of a loop over numbers keeps holds after the loop. -/
theorem forBelow_keeps {P : State → Prop} (n : Nat) (f : Nat → State → State) (s : State) (h : P s) (hf : ∀ i t, P t → P (f i t)) :
    P (forBelow n f s) := by
  unfold forBelow
  generalize List.range n = l
  induction l generalizing s with
  | nil => exact h
  | cons i t ih => exact ih _ (hf i s h)

/-- A property that every pass of a loop over a list keeps holds after the loop. -/
theorem forList_keeps {α : Type} {P : State → Prop} (l : List α) (f : α → State → State) (s : State) (h : P s)
    (hf : ∀ i t, P t → P (f i t)) : P (forList l f s) := by
  unfold forList
  induction l generalizing s with
  | nil => exact h
  | cons i t ih => exact ih _ (hf i s h)

/-- An operation that executes: it is marked, it has its effect, and the bundle issues after its last operation (R263). -/
theorem aceOp_executes {s : State} {i : AceAt} (h : OpExecutes i s) (slot : Nat) (f : State → State) :
    aceOp s i slot false false f = issued i (f (marked s i.eng slot)) := by
  obtain ⟨hu, hw, h1, h2, h3⟩ := h
  have h4 : ¬(i.pr = 0 ∧ i.pn = true) := by
    rintro ⟨a, b⟩
    exact h3 (by simp [AceRt.pred, a, b])
  unfold aceOp issued marked
  dsimp only
  rw [if_neg (show ¬((s.ace i.eng).halted || !(s.ace i.eng).powered || !unitRuns s) = true by simp [h1, hw, hu]), if_neg (show ¬(s.ace i.eng).exc.isSome = true by simp [h2]), 
    if_neg (show ¬((i.pr = 0 ∧ i.pn = true) ∨ (false = true ∧ (i.pr ≠ 0 ∨ i.pn = true))) by rintro (a | ⟨a, _⟩); exacts [h4 a, Bool.noConfusion a]), if_neg h3,
    if_neg Bool.false_ne_true]

/-- A bare operation that executes carries no predicate. -/
theorem aceOp_bare {s : State} {i : AceAt} (h : OpExecutes i s) (hp : i.pr = 0) (slot : Nat) (f : State → State) :
    aceOp s i slot false true f = issued i (f (marked s i.eng slot)) := by
  obtain ⟨hu, hw, h1, h2, h3⟩ := h
  have h4 : i.pn = false := by
    have : true ≠ i.pn := by simpa [AceRt.pred, hp] using h3
    cases hq : i.pn <;> simp_all
  unfold aceOp issued marked
  dsimp only
  rw [if_neg (show ¬((s.ace i.eng).halted || !(s.ace i.eng).powered || !unitRuns s) = true by simp [h1, hw, hu]), if_neg (show ¬(s.ace i.eng).exc.isSome = true by simp [h2]), 
    if_neg (show ¬((i.pr = 0 ∧ i.pn = true) ∨ (true = true ∧ (i.pr ≠ 0 ∨ i.pn = true))) by simp [hp, h4]), if_neg h3, if_neg Bool.false_ne_true]

/-- An operation whose predicate is false does nothing. -/
theorem aceOp_false {s : State} {i : AceAt} (hu : unitRuns s = true) (hw : (s.ace i.eng).powered = true) (h1 : (s.ace i.eng).halted = false) (h2 : (s.ace i.eng).exc = none) (h3 : i.pr ≠ 0)
    (h4 : (s.ace i.eng).pred i.pr = i.pn) (slot : Nat) (nop : Bool) (f : State → State) : aceOp s i slot nop false f = issued i s := by
  unfold aceOp issued
  dsimp only
  rw [if_neg (show ¬((s.ace i.eng).halted || !(s.ace i.eng).powered || !unitRuns s) = true by simp [h1, hw, hu]), if_neg (show ¬(s.ace i.eng).exc.isSome = true by simp [h2]), 
    if_neg (show ¬((i.pr = 0 ∧ i.pn = true) ∨ (false = true ∧ (i.pr ≠ 0 ∨ i.pn = true))) by
      rintro (⟨a, _⟩ | ⟨a, _⟩); exacts [h3 a, Bool.noConfusion a]), if_pos h4]

/-! ### An event counted (R404 to R407): PMC, the overflow list and the PMU request of the engine, and SAMPLES_LOST, may change -/

/-- What counting an event keeps: every field of the state but the dictionary and the engines, every key but SAMPLES_LOST, and every field
of every engine but its counters, its overflows and its requests. -/
structure EventKeeps (s t : State) : Prop where
  pending : t.pending = s.pending
  now : t.now = s.now
  frac : t.frac = s.frac
  free : t.free = s.free
  out : t.out = s.out
  staged : t.staged = s.staged
  snaps : t.snaps = s.snaps
  axes : t.axes = s.axes
  fbs : t.fbs = s.fbs
  lats : t.lats = s.lats
  cmps : t.cmps = s.cmps
  msts : t.msts = s.msts
  disp : t.disp = s.disp
  engs : t.engs = s.engs
  shared : t.shared = s.shared
  ucode : t.ucode = s.ucode
  eps : t.eps = s.eps
  field : t.field = s.field
  time : t.time = s.time
  obs : t.obs = s.obs
  safe : t.safe = s.safe
  debugger : t.debugger = s.debugger
  benchUp : t.benchUp = s.benchUp
  ports : t.ports = s.ports
  rings : t.rings = s.rings
  wks : t.wks = s.wks
  hud : t.hud = s.hud
  com : t.com = s.com
  store : t.store = s.store
  pair : t.pair = s.pair
  host : t.host = s.host
  boot : t.boot = s.boot
  od : ∀ k, k ≠ Ob.Cnt.SAMPLES_LOST.key → SMap.get? t.od k = SMap.get? s.od k
  ace_g : ∀ q, (t.ace q).g = (s.ace q).g
  ace_acc : ∀ q, (t.ace q).acc = (s.ace q).acc
  ace_accSeen : ∀ q, (t.ace q).accSeen = (s.ace q).accSeen
  ace_p : ∀ q, (t.ace q).p = (s.ace q).p
  ace_m : ∀ q, (t.ace q).m = (s.ace q).m
  ace_l : ∀ q, (t.ace q).l = (s.ace q).l
  ace_c : ∀ q, (t.ace q).c = (s.ace q).c
  ace_ls0 : ∀ q, (t.ace q).ls0 = (s.ace q).ls0
  ace_le0 : ∀ q, (t.ace q).le0 = (s.ace q).le0
  ace_lc0 : ∀ q, (t.ace q).lc0 = (s.ace q).lc0
  ace_ls1 : ∀ q, (t.ace q).ls1 = (s.ace q).ls1
  ace_le1 : ∀ q, (t.ace q).le1 = (s.ace q).le1
  ace_lc1 : ∀ q, (t.ace q).lc1 = (s.ace q).lc1
  ace_lr : ∀ q, (t.ace q).lr = (s.ace q).lr
  ace_ipc : ∀ q, (t.ace q).ipc = (s.ace q).ipc
  ace_status : ∀ q, (t.ace q).status = (s.ace q).status
  ace_istat : ∀ q, (t.ace q).istat = (s.ace q).istat
  ace_flags : ∀ q, (t.ace q).flags = (s.ace q).flags
  ace_pc : ∀ q, (t.ace q).pc = (s.ace q).pc
  ace_n : ∀ q, (t.ace q).n = (s.ace q).n
  ace_fly : ∀ q, (t.ace q).fly = (s.ace q).fly
  ace_branch : ∀ q, (t.ace q).branch = (s.ace q).branch
  ace_xld : ∀ q, (t.ace q).xld = (s.ace q).xld
  ace_sbuf : ∀ q, (t.ace q).sbuf = (s.ace q).sbuf
  ace_mem : ∀ q, (t.ace q).mem = (s.ace q).mem
  ace_frameB : ∀ q, (t.ace q).frameB = (s.ace q).frameB
  ace_call : ∀ q, (t.ace q).call = (s.ace q).call
  ace_halted : ∀ q, (t.ace q).halted = (s.ace q).halted
  ace_warnAt : ∀ q, (t.ace q).warnAt = (s.ace q).warnAt
  ace_exc : ∀ q, (t.ace q).exc = (s.ace q).exc
  ace_cycle : ∀ q, (t.ace q).cycle = (s.ace q).cycle
  ace_cfg : ∀ q, (t.ace q).cfg = (s.ace q).cfg
  ace_period : ∀ q, (t.ace q).period = (s.ace q).period
  ace_slots : ∀ q, (t.ace q).slots = (s.ace q).slots
  ace_itemDone : ∀ q, (t.ace q).itemDone = (s.ace q).itemDone
  ace_itemIdle : ∀ q, (t.ace q).itemIdle = (s.ace q).itemIdle
  ace_ran : ∀ q, (t.ace q).ran = (s.ace q).ran
  ace_cfgNext : ∀ q, (t.ace q).cfgNext = (s.ace q).cfgNext
  ace_periodNext : ∀ q, (t.ace q).periodNext = (s.ace q).periodNext
  ace_clearNext : ∀ q, (t.ace q).clearNext = (s.ace q).clearNext
  ace_powered : ∀ q, (t.ace q).powered = (s.ace q).powered
  ace_waking : ∀ q, (t.ace q).waking = (s.ace q).waking
  ace_idleFrom : ∀ q, (t.ace q).idleFrom = (s.ace q).idleFrom
  ace_gatedAt : ∀ q, (t.ace q).gatedAt = (s.ace q).gatedAt

/-- Keeping is transitive. -/
theorem EventKeeps.trans {s t u : State} (h : EventKeeps s t) (k : EventKeeps t u) : EventKeeps s u where
  pending := k.pending.trans h.pending
  now := k.now.trans h.now
  frac := k.frac.trans h.frac
  free := k.free.trans h.free
  out := k.out.trans h.out
  staged := k.staged.trans h.staged
  snaps := k.snaps.trans h.snaps
  axes := k.axes.trans h.axes
  fbs := k.fbs.trans h.fbs
  lats := k.lats.trans h.lats
  cmps := k.cmps.trans h.cmps
  msts := k.msts.trans h.msts
  disp := k.disp.trans h.disp
  engs := k.engs.trans h.engs
  shared := k.shared.trans h.shared
  ucode := k.ucode.trans h.ucode
  eps := k.eps.trans h.eps
  field := k.field.trans h.field
  time := k.time.trans h.time
  obs := k.obs.trans h.obs
  safe := k.safe.trans h.safe
  debugger := k.debugger.trans h.debugger
  benchUp := k.benchUp.trans h.benchUp
  ports := k.ports.trans h.ports
  rings := k.rings.trans h.rings
  wks := k.wks.trans h.wks
  hud := k.hud.trans h.hud
  com := k.com.trans h.com
  store := k.store.trans h.store
  pair := k.pair.trans h.pair
  host := k.host.trans h.host
  boot := k.boot.trans h.boot
  od := fun x hx => (k.od x hx).trans (h.od x hx)
  ace_g := fun q => (k.ace_g q).trans (h.ace_g q)
  ace_acc := fun q => (k.ace_acc q).trans (h.ace_acc q)
  ace_accSeen := fun q => (k.ace_accSeen q).trans (h.ace_accSeen q)
  ace_p := fun q => (k.ace_p q).trans (h.ace_p q)
  ace_m := fun q => (k.ace_m q).trans (h.ace_m q)
  ace_l := fun q => (k.ace_l q).trans (h.ace_l q)
  ace_c := fun q => (k.ace_c q).trans (h.ace_c q)
  ace_ls0 := fun q => (k.ace_ls0 q).trans (h.ace_ls0 q)
  ace_le0 := fun q => (k.ace_le0 q).trans (h.ace_le0 q)
  ace_lc0 := fun q => (k.ace_lc0 q).trans (h.ace_lc0 q)
  ace_ls1 := fun q => (k.ace_ls1 q).trans (h.ace_ls1 q)
  ace_le1 := fun q => (k.ace_le1 q).trans (h.ace_le1 q)
  ace_lc1 := fun q => (k.ace_lc1 q).trans (h.ace_lc1 q)
  ace_lr := fun q => (k.ace_lr q).trans (h.ace_lr q)
  ace_ipc := fun q => (k.ace_ipc q).trans (h.ace_ipc q)
  ace_status := fun q => (k.ace_status q).trans (h.ace_status q)
  ace_istat := fun q => (k.ace_istat q).trans (h.ace_istat q)
  ace_flags := fun q => (k.ace_flags q).trans (h.ace_flags q)
  ace_pc := fun q => (k.ace_pc q).trans (h.ace_pc q)
  ace_n := fun q => (k.ace_n q).trans (h.ace_n q)
  ace_fly := fun q => (k.ace_fly q).trans (h.ace_fly q)
  ace_branch := fun q => (k.ace_branch q).trans (h.ace_branch q)
  ace_xld := fun q => (k.ace_xld q).trans (h.ace_xld q)
  ace_sbuf := fun q => (k.ace_sbuf q).trans (h.ace_sbuf q)
  ace_mem := fun q => (k.ace_mem q).trans (h.ace_mem q)
  ace_frameB := fun q => (k.ace_frameB q).trans (h.ace_frameB q)
  ace_call := fun q => (k.ace_call q).trans (h.ace_call q)
  ace_halted := fun q => (k.ace_halted q).trans (h.ace_halted q)
  ace_warnAt := fun q => (k.ace_warnAt q).trans (h.ace_warnAt q)
  ace_exc := fun q => (k.ace_exc q).trans (h.ace_exc q)
  ace_cycle := fun q => (k.ace_cycle q).trans (h.ace_cycle q)
  ace_cfg := fun q => (k.ace_cfg q).trans (h.ace_cfg q)
  ace_period := fun q => (k.ace_period q).trans (h.ace_period q)
  ace_slots := fun q => (k.ace_slots q).trans (h.ace_slots q)
  ace_itemDone := fun q => (k.ace_itemDone q).trans (h.ace_itemDone q)
  ace_itemIdle := fun q => (k.ace_itemIdle q).trans (h.ace_itemIdle q)
  ace_ran := fun q => (k.ace_ran q).trans (h.ace_ran q)
  ace_cfgNext := fun q => (k.ace_cfgNext q).trans (h.ace_cfgNext q)
  ace_periodNext := fun q => (k.ace_periodNext q).trans (h.ace_periodNext q)
  ace_clearNext := fun q => (k.ace_clearNext q).trans (h.ace_clearNext q)
  ace_powered := fun q => (k.ace_powered q).trans (h.ace_powered q)
  ace_waking := fun q => (k.ace_waking q).trans (h.ace_waking q)
  ace_idleFrom := fun q => (k.ace_idleFrom q).trans (h.ace_idleFrom q)
  ace_gatedAt := fun q => (k.ace_gatedAt q).trans (h.ace_gatedAt q)

/-- A state keeps itself. -/
theorem EventKeeps.refl (s : State) : EventKeeps s s := by constructor <;> intros <;> rfl

/-- An engine whose counters, overflows and requests alone change. -/
theorem EventKeeps.setAce (s : State) (e : Nat) (pm : SMap Nat) (ov : List Nat) (iq : Nat) :
    EventKeeps s (s.setAce e { s.ace e with pmc := pm, ovf := ov, irq := iq }) := by
  constructor <;> intros <;> first | rfl | (rw [State.ace_setAce]; split <;> simp_all)

/-- SAMPLES_LOST counted. -/
theorem EventKeeps.lost (s : State) : EventKeeps s (s.count Ob.Cnt.SAMPLES_LOST) := by
  constructor <;> intros <;> first | rfl | (exact State.set_od_ne _ _ _ _ _ _ _ ‹_›)

/-- Counting an event. -/
theorem aceEvent_keeps (s : State) (e code n : Nat) : EventKeeps s (aceEvent s e code n) := by
  unfold aceEvent
  refine forBelow_keeps (P := fun t => EventKeeps s t) 8 _ s (EventKeeps.refl s) ?_
  intro k t h
  refine h.trans ?_
  dsimp only
  split
  · exact EventKeeps.refl t
  · split
    · split
      · exact (EventKeeps.lost t).trans (EventKeeps.setAce (t.count Ob.Cnt.SAMPLES_LOST) e _ _ _)
      · exact EventKeeps.setAce t e _ _ _
    · exact EventKeeps.setAce t e _ _ _

/-- Slots credited to a class (R406): the event of the class counted, the class counter raised. -/
theorem slotCount_keeps (s : State) (e k n : Nat) :
    EventKeeps (s.modAce e fun x => x.slot k n) (slotCount s e k n) := aceEvent_keeps _ _ _ _

/-- Sequential flow changes the bundle index, the repeat counts and STATUS alone (R271). -/
theorem AceRt.flow_keeps (x : AceRt) : ∃ pc lc0 lc1 st, x.flow.1 = { x with pc := pc, lc0 := lc0, lc1 := lc1, status := st } := by
  unfold AceRt.flow
  dsimp only
  split
  · exact ⟨_, x.lc0, x.lc1, x.status, rfl⟩
  · split
    · split
      · exact ⟨_, x.lc0, _, x.status, rfl⟩
      · unfold AceRt.setDepth
        split
        · split
          · exact ⟨_, _, x.lc1, _, rfl⟩
          · exact ⟨_, x.lc0, x.lc1, _, rfl⟩
        · exact ⟨_, x.lc0, x.lc1, _, rfl⟩
    · split
      · split
        · exact ⟨_, _, x.lc1, x.status, rfl⟩
        · unfold AceRt.setDepth
          exact ⟨_, x.lc0, x.lc1, _, rfl⟩
      · exact ⟨_, x.lc0, x.lc1, x.status, rfl⟩

end Sys2Proof.Machine
end

