-- ==== Sys2Proof/Laws/Groups.lean ====
section
/-! SUPPORT. What each update of a field that holds one thing (the huddle, the commit, the pair, the island, sessions …) leaves as
it was: one lemma per field per update, as Laws/State.lean has them for the tables. -/

namespace Sys2Proof.Machine

/-! ### State.modHud -/

@[simp] theorem State.modHud_pending (s : State) (f : HuddleRt → HuddleRt) : (s.modHud f).pending = s.pending := rfl
@[simp] theorem State.modHud_now (s : State) (f : HuddleRt → HuddleRt) : (s.modHud f).now = s.now := rfl
@[simp] theorem State.modHud_frac (s : State) (f : HuddleRt → HuddleRt) : (s.modHud f).frac = s.frac := rfl
@[simp] theorem State.modHud_free (s : State) (f : HuddleRt → HuddleRt) : (s.modHud f).free = s.free := rfl
@[simp] theorem State.modHud_out (s : State) (f : HuddleRt → HuddleRt) : (s.modHud f).out = s.out := rfl
@[simp] theorem State.modHud_od (s : State) (f : HuddleRt → HuddleRt) : (s.modHud f).od = s.od := rfl
@[simp] theorem State.modHud_staged (s : State) (f : HuddleRt → HuddleRt) : (s.modHud f).staged = s.staged := rfl
@[simp] theorem State.modHud_snaps (s : State) (f : HuddleRt → HuddleRt) : (s.modHud f).snaps = s.snaps := rfl
@[simp] theorem State.modHud_axes (s : State) (f : HuddleRt → HuddleRt) : (s.modHud f).axes = s.axes := rfl
@[simp] theorem State.modHud_fbs (s : State) (f : HuddleRt → HuddleRt) : (s.modHud f).fbs = s.fbs := rfl
@[simp] theorem State.modHud_lats (s : State) (f : HuddleRt → HuddleRt) : (s.modHud f).lats = s.lats := rfl
@[simp] theorem State.modHud_cmps (s : State) (f : HuddleRt → HuddleRt) : (s.modHud f).cmps = s.cmps := rfl
@[simp] theorem State.modHud_msts (s : State) (f : HuddleRt → HuddleRt) : (s.modHud f).msts = s.msts := rfl
@[simp] theorem State.modHud_disp (s : State) (f : HuddleRt → HuddleRt) : (s.modHud f).disp = s.disp := rfl
@[simp] theorem State.modHud_engs (s : State) (f : HuddleRt → HuddleRt) : (s.modHud f).engs = s.engs := rfl
@[simp] theorem State.modHud_aces (s : State) (f : HuddleRt → HuddleRt) : (s.modHud f).aces = s.aces := rfl
@[simp] theorem State.modHud_shared (s : State) (f : HuddleRt → HuddleRt) : (s.modHud f).shared = s.shared := rfl
@[simp] theorem State.modHud_ucode (s : State) (f : HuddleRt → HuddleRt) : (s.modHud f).ucode = s.ucode := rfl
@[simp] theorem State.modHud_eps (s : State) (f : HuddleRt → HuddleRt) : (s.modHud f).eps = s.eps := rfl
@[simp] theorem State.modHud_field (s : State) (f : HuddleRt → HuddleRt) : (s.modHud f).field = s.field := rfl
@[simp] theorem State.modHud_time (s : State) (f : HuddleRt → HuddleRt) : (s.modHud f).time = s.time := rfl
@[simp] theorem State.modHud_obs (s : State) (f : HuddleRt → HuddleRt) : (s.modHud f).obs = s.obs := rfl
@[simp] theorem State.modHud_safe (s : State) (f : HuddleRt → HuddleRt) : (s.modHud f).safe = s.safe := rfl
@[simp] theorem State.modHud_debugger (s : State) (f : HuddleRt → HuddleRt) : (s.modHud f).debugger = s.debugger := rfl
@[simp] theorem State.modHud_benchUp (s : State) (f : HuddleRt → HuddleRt) : (s.modHud f).benchUp = s.benchUp := rfl
@[simp] theorem State.modHud_ports (s : State) (f : HuddleRt → HuddleRt) : (s.modHud f).ports = s.ports := rfl
@[simp] theorem State.modHud_rings (s : State) (f : HuddleRt → HuddleRt) : (s.modHud f).rings = s.rings := rfl
@[simp] theorem State.modHud_wks (s : State) (f : HuddleRt → HuddleRt) : (s.modHud f).wks = s.wks := rfl
@[simp] theorem State.modHud_hud (s : State) (f : HuddleRt → HuddleRt) : (s.modHud f).hud = f s.hud := rfl
@[simp] theorem State.modHud_com (s : State) (f : HuddleRt → HuddleRt) : (s.modHud f).com = s.com := rfl
@[simp] theorem State.modHud_store (s : State) (f : HuddleRt → HuddleRt) : (s.modHud f).store = s.store := rfl
@[simp] theorem State.modHud_pair (s : State) (f : HuddleRt → HuddleRt) : (s.modHud f).pair = s.pair := rfl
@[simp] theorem State.modHud_host (s : State) (f : HuddleRt → HuddleRt) : (s.modHud f).host = s.host := rfl
@[simp] theorem State.modHud_boot (s : State) (f : HuddleRt → HuddleRt) : (s.modHud f).boot = s.boot := rfl
@[simp] theorem State.modHud_get (s : State) (f : HuddleRt → HuddleRt) (o' : Obj) (i' j' k' : Nat) : (s.modHud f).get o' i' j' k' = s.get o' i' j' k' := rfl
@[simp] theorem State.modHud_nat (s : State) (f : HuddleRt → HuddleRt) (o' : Obj) (i' j' k' : Nat) : (s.modHud f).nat o' i' j' k' = s.nat o' i' j' k' := rfl
@[simp] theorem State.modHud_flag (s : State) (f : HuddleRt → HuddleRt) (o' : Obj) (i' j' k' : Nat) : (s.modHud f).flag o' i' j' k' = s.flag o' i' j' k' := rfl
@[simp] theorem State.modHud_bytes (s : State) (f : HuddleRt → HuddleRt) (o' : Obj) (i' j' k' : Nat) : (s.modHud f).bytes o' i' j' k' = s.bytes o' i' j' k' := rfl
@[simp] theorem State.modHud_axis (s : State) (f : HuddleRt → HuddleRt) (q : Nat) : (s.modHud f).axis q = s.axis q := rfl
@[simp] theorem State.modHud_fbu (s : State) (f : HuddleRt → HuddleRt) (q : Nat) : (s.modHud f).fbu q = s.fbu q := rfl
@[simp] theorem State.modHud_latch (s : State) (f : HuddleRt → HuddleRt) (q : Nat) : (s.modHud f).latch q = s.latch q := rfl
@[simp] theorem State.modHud_cmp (s : State) (f : HuddleRt → HuddleRt) (q : Nat) : (s.modHud f).cmp q = s.cmp q := rfl
@[simp] theorem State.modHud_master (s : State) (f : HuddleRt → HuddleRt) (q : Nat) : (s.modHud f).master q = s.master q := rfl
@[simp] theorem State.modHud_eng (s : State) (f : HuddleRt → HuddleRt) (q : Nat) : (s.modHud f).eng q = s.eng q := rfl
@[simp] theorem State.modHud_ace (s : State) (f : HuddleRt → HuddleRt) (q : Nat) : (s.modHud f).ace q = s.ace q := rfl
@[simp] theorem State.modHud_ep (s : State) (f : HuddleRt → HuddleRt) (q : Nat) : (s.modHud f).ep q = s.ep q := rfl
@[simp] theorem State.modHud_port (s : State) (f : HuddleRt → HuddleRt) (q : Nat) : (s.modHud f).port q = s.port q := rfl
@[simp] theorem State.modHud_ring (s : State) (f : HuddleRt → HuddleRt) (q : Nat) : (s.modHud f).ring q = s.ring q := rfl
@[simp] theorem State.modHud_wk (s : State) (f : HuddleRt → HuddleRt) (q q' : Nat) : (s.modHud f).wk q q' = s.wk q q' := rfl

/-! ### State.modCom -/

@[simp] theorem State.modCom_pending (s : State) (f : CommitRt → CommitRt) : (s.modCom f).pending = s.pending := rfl
@[simp] theorem State.modCom_now (s : State) (f : CommitRt → CommitRt) : (s.modCom f).now = s.now := rfl
@[simp] theorem State.modCom_frac (s : State) (f : CommitRt → CommitRt) : (s.modCom f).frac = s.frac := rfl
@[simp] theorem State.modCom_free (s : State) (f : CommitRt → CommitRt) : (s.modCom f).free = s.free := rfl
@[simp] theorem State.modCom_out (s : State) (f : CommitRt → CommitRt) : (s.modCom f).out = s.out := rfl
@[simp] theorem State.modCom_od (s : State) (f : CommitRt → CommitRt) : (s.modCom f).od = s.od := rfl
@[simp] theorem State.modCom_staged (s : State) (f : CommitRt → CommitRt) : (s.modCom f).staged = s.staged := rfl
@[simp] theorem State.modCom_snaps (s : State) (f : CommitRt → CommitRt) : (s.modCom f).snaps = s.snaps := rfl
@[simp] theorem State.modCom_axes (s : State) (f : CommitRt → CommitRt) : (s.modCom f).axes = s.axes := rfl
@[simp] theorem State.modCom_fbs (s : State) (f : CommitRt → CommitRt) : (s.modCom f).fbs = s.fbs := rfl
@[simp] theorem State.modCom_lats (s : State) (f : CommitRt → CommitRt) : (s.modCom f).lats = s.lats := rfl
@[simp] theorem State.modCom_cmps (s : State) (f : CommitRt → CommitRt) : (s.modCom f).cmps = s.cmps := rfl
@[simp] theorem State.modCom_msts (s : State) (f : CommitRt → CommitRt) : (s.modCom f).msts = s.msts := rfl
@[simp] theorem State.modCom_disp (s : State) (f : CommitRt → CommitRt) : (s.modCom f).disp = s.disp := rfl
@[simp] theorem State.modCom_engs (s : State) (f : CommitRt → CommitRt) : (s.modCom f).engs = s.engs := rfl
@[simp] theorem State.modCom_aces (s : State) (f : CommitRt → CommitRt) : (s.modCom f).aces = s.aces := rfl
@[simp] theorem State.modCom_shared (s : State) (f : CommitRt → CommitRt) : (s.modCom f).shared = s.shared := rfl
@[simp] theorem State.modCom_ucode (s : State) (f : CommitRt → CommitRt) : (s.modCom f).ucode = s.ucode := rfl
@[simp] theorem State.modCom_eps (s : State) (f : CommitRt → CommitRt) : (s.modCom f).eps = s.eps := rfl
@[simp] theorem State.modCom_field (s : State) (f : CommitRt → CommitRt) : (s.modCom f).field = s.field := rfl
@[simp] theorem State.modCom_time (s : State) (f : CommitRt → CommitRt) : (s.modCom f).time = s.time := rfl
@[simp] theorem State.modCom_obs (s : State) (f : CommitRt → CommitRt) : (s.modCom f).obs = s.obs := rfl
@[simp] theorem State.modCom_safe (s : State) (f : CommitRt → CommitRt) : (s.modCom f).safe = s.safe := rfl
@[simp] theorem State.modCom_debugger (s : State) (f : CommitRt → CommitRt) : (s.modCom f).debugger = s.debugger := rfl
@[simp] theorem State.modCom_benchUp (s : State) (f : CommitRt → CommitRt) : (s.modCom f).benchUp = s.benchUp := rfl
@[simp] theorem State.modCom_ports (s : State) (f : CommitRt → CommitRt) : (s.modCom f).ports = s.ports := rfl
@[simp] theorem State.modCom_rings (s : State) (f : CommitRt → CommitRt) : (s.modCom f).rings = s.rings := rfl
@[simp] theorem State.modCom_wks (s : State) (f : CommitRt → CommitRt) : (s.modCom f).wks = s.wks := rfl
@[simp] theorem State.modCom_hud (s : State) (f : CommitRt → CommitRt) : (s.modCom f).hud = s.hud := rfl
@[simp] theorem State.modCom_com (s : State) (f : CommitRt → CommitRt) : (s.modCom f).com = f s.com := rfl
@[simp] theorem State.modCom_store (s : State) (f : CommitRt → CommitRt) : (s.modCom f).store = s.store := rfl
@[simp] theorem State.modCom_pair (s : State) (f : CommitRt → CommitRt) : (s.modCom f).pair = s.pair := rfl
@[simp] theorem State.modCom_host (s : State) (f : CommitRt → CommitRt) : (s.modCom f).host = s.host := rfl
@[simp] theorem State.modCom_boot (s : State) (f : CommitRt → CommitRt) : (s.modCom f).boot = s.boot := rfl
@[simp] theorem State.modCom_get (s : State) (f : CommitRt → CommitRt) (o' : Obj) (i' j' k' : Nat) : (s.modCom f).get o' i' j' k' = s.get o' i' j' k' := rfl
@[simp] theorem State.modCom_nat (s : State) (f : CommitRt → CommitRt) (o' : Obj) (i' j' k' : Nat) : (s.modCom f).nat o' i' j' k' = s.nat o' i' j' k' := rfl
@[simp] theorem State.modCom_flag (s : State) (f : CommitRt → CommitRt) (o' : Obj) (i' j' k' : Nat) : (s.modCom f).flag o' i' j' k' = s.flag o' i' j' k' := rfl
@[simp] theorem State.modCom_bytes (s : State) (f : CommitRt → CommitRt) (o' : Obj) (i' j' k' : Nat) : (s.modCom f).bytes o' i' j' k' = s.bytes o' i' j' k' := rfl
@[simp] theorem State.modCom_axis (s : State) (f : CommitRt → CommitRt) (q : Nat) : (s.modCom f).axis q = s.axis q := rfl
@[simp] theorem State.modCom_fbu (s : State) (f : CommitRt → CommitRt) (q : Nat) : (s.modCom f).fbu q = s.fbu q := rfl
@[simp] theorem State.modCom_latch (s : State) (f : CommitRt → CommitRt) (q : Nat) : (s.modCom f).latch q = s.latch q := rfl
@[simp] theorem State.modCom_cmp (s : State) (f : CommitRt → CommitRt) (q : Nat) : (s.modCom f).cmp q = s.cmp q := rfl
@[simp] theorem State.modCom_master (s : State) (f : CommitRt → CommitRt) (q : Nat) : (s.modCom f).master q = s.master q := rfl
@[simp] theorem State.modCom_eng (s : State) (f : CommitRt → CommitRt) (q : Nat) : (s.modCom f).eng q = s.eng q := rfl
@[simp] theorem State.modCom_ace (s : State) (f : CommitRt → CommitRt) (q : Nat) : (s.modCom f).ace q = s.ace q := rfl
@[simp] theorem State.modCom_ep (s : State) (f : CommitRt → CommitRt) (q : Nat) : (s.modCom f).ep q = s.ep q := rfl
@[simp] theorem State.modCom_port (s : State) (f : CommitRt → CommitRt) (q : Nat) : (s.modCom f).port q = s.port q := rfl
@[simp] theorem State.modCom_ring (s : State) (f : CommitRt → CommitRt) (q : Nat) : (s.modCom f).ring q = s.ring q := rfl
@[simp] theorem State.modCom_wk (s : State) (f : CommitRt → CommitRt) (q q' : Nat) : (s.modCom f).wk q q' = s.wk q q' := rfl

/-! ### State.modBoot -/

@[simp] theorem State.modBoot_pending (s : State) (f : BootRt → BootRt) : (s.modBoot f).pending = s.pending := rfl
@[simp] theorem State.modBoot_now (s : State) (f : BootRt → BootRt) : (s.modBoot f).now = s.now := rfl
@[simp] theorem State.modBoot_frac (s : State) (f : BootRt → BootRt) : (s.modBoot f).frac = s.frac := rfl
@[simp] theorem State.modBoot_free (s : State) (f : BootRt → BootRt) : (s.modBoot f).free = s.free := rfl
@[simp] theorem State.modBoot_out (s : State) (f : BootRt → BootRt) : (s.modBoot f).out = s.out := rfl
@[simp] theorem State.modBoot_od (s : State) (f : BootRt → BootRt) : (s.modBoot f).od = s.od := rfl
@[simp] theorem State.modBoot_staged (s : State) (f : BootRt → BootRt) : (s.modBoot f).staged = s.staged := rfl
@[simp] theorem State.modBoot_snaps (s : State) (f : BootRt → BootRt) : (s.modBoot f).snaps = s.snaps := rfl
@[simp] theorem State.modBoot_axes (s : State) (f : BootRt → BootRt) : (s.modBoot f).axes = s.axes := rfl
@[simp] theorem State.modBoot_fbs (s : State) (f : BootRt → BootRt) : (s.modBoot f).fbs = s.fbs := rfl
@[simp] theorem State.modBoot_lats (s : State) (f : BootRt → BootRt) : (s.modBoot f).lats = s.lats := rfl
@[simp] theorem State.modBoot_cmps (s : State) (f : BootRt → BootRt) : (s.modBoot f).cmps = s.cmps := rfl
@[simp] theorem State.modBoot_msts (s : State) (f : BootRt → BootRt) : (s.modBoot f).msts = s.msts := rfl
@[simp] theorem State.modBoot_disp (s : State) (f : BootRt → BootRt) : (s.modBoot f).disp = s.disp := rfl
@[simp] theorem State.modBoot_engs (s : State) (f : BootRt → BootRt) : (s.modBoot f).engs = s.engs := rfl
@[simp] theorem State.modBoot_aces (s : State) (f : BootRt → BootRt) : (s.modBoot f).aces = s.aces := rfl
@[simp] theorem State.modBoot_shared (s : State) (f : BootRt → BootRt) : (s.modBoot f).shared = s.shared := rfl
@[simp] theorem State.modBoot_ucode (s : State) (f : BootRt → BootRt) : (s.modBoot f).ucode = s.ucode := rfl
@[simp] theorem State.modBoot_eps (s : State) (f : BootRt → BootRt) : (s.modBoot f).eps = s.eps := rfl
@[simp] theorem State.modBoot_field (s : State) (f : BootRt → BootRt) : (s.modBoot f).field = s.field := rfl
@[simp] theorem State.modBoot_time (s : State) (f : BootRt → BootRt) : (s.modBoot f).time = s.time := rfl
@[simp] theorem State.modBoot_obs (s : State) (f : BootRt → BootRt) : (s.modBoot f).obs = s.obs := rfl
@[simp] theorem State.modBoot_safe (s : State) (f : BootRt → BootRt) : (s.modBoot f).safe = s.safe := rfl
@[simp] theorem State.modBoot_debugger (s : State) (f : BootRt → BootRt) : (s.modBoot f).debugger = s.debugger := rfl
@[simp] theorem State.modBoot_benchUp (s : State) (f : BootRt → BootRt) : (s.modBoot f).benchUp = s.benchUp := rfl
@[simp] theorem State.modBoot_ports (s : State) (f : BootRt → BootRt) : (s.modBoot f).ports = s.ports := rfl
@[simp] theorem State.modBoot_rings (s : State) (f : BootRt → BootRt) : (s.modBoot f).rings = s.rings := rfl
@[simp] theorem State.modBoot_wks (s : State) (f : BootRt → BootRt) : (s.modBoot f).wks = s.wks := rfl
@[simp] theorem State.modBoot_hud (s : State) (f : BootRt → BootRt) : (s.modBoot f).hud = s.hud := rfl
@[simp] theorem State.modBoot_com (s : State) (f : BootRt → BootRt) : (s.modBoot f).com = s.com := rfl
@[simp] theorem State.modBoot_store (s : State) (f : BootRt → BootRt) : (s.modBoot f).store = s.store := rfl
@[simp] theorem State.modBoot_pair (s : State) (f : BootRt → BootRt) : (s.modBoot f).pair = s.pair := rfl
@[simp] theorem State.modBoot_host (s : State) (f : BootRt → BootRt) : (s.modBoot f).host = s.host := rfl
@[simp] theorem State.modBoot_boot (s : State) (f : BootRt → BootRt) : (s.modBoot f).boot = f s.boot := rfl
@[simp] theorem State.modBoot_get (s : State) (f : BootRt → BootRt) (o' : Obj) (i' j' k' : Nat) : (s.modBoot f).get o' i' j' k' = s.get o' i' j' k' := rfl
@[simp] theorem State.modBoot_nat (s : State) (f : BootRt → BootRt) (o' : Obj) (i' j' k' : Nat) : (s.modBoot f).nat o' i' j' k' = s.nat o' i' j' k' := rfl
@[simp] theorem State.modBoot_flag (s : State) (f : BootRt → BootRt) (o' : Obj) (i' j' k' : Nat) : (s.modBoot f).flag o' i' j' k' = s.flag o' i' j' k' := rfl
@[simp] theorem State.modBoot_bytes (s : State) (f : BootRt → BootRt) (o' : Obj) (i' j' k' : Nat) : (s.modBoot f).bytes o' i' j' k' = s.bytes o' i' j' k' := rfl
@[simp] theorem State.modBoot_axis (s : State) (f : BootRt → BootRt) (q : Nat) : (s.modBoot f).axis q = s.axis q := rfl
@[simp] theorem State.modBoot_fbu (s : State) (f : BootRt → BootRt) (q : Nat) : (s.modBoot f).fbu q = s.fbu q := rfl
@[simp] theorem State.modBoot_latch (s : State) (f : BootRt → BootRt) (q : Nat) : (s.modBoot f).latch q = s.latch q := rfl
@[simp] theorem State.modBoot_cmp (s : State) (f : BootRt → BootRt) (q : Nat) : (s.modBoot f).cmp q = s.cmp q := rfl
@[simp] theorem State.modBoot_master (s : State) (f : BootRt → BootRt) (q : Nat) : (s.modBoot f).master q = s.master q := rfl
@[simp] theorem State.modBoot_eng (s : State) (f : BootRt → BootRt) (q : Nat) : (s.modBoot f).eng q = s.eng q := rfl
@[simp] theorem State.modBoot_ace (s : State) (f : BootRt → BootRt) (q : Nat) : (s.modBoot f).ace q = s.ace q := rfl
@[simp] theorem State.modBoot_ep (s : State) (f : BootRt → BootRt) (q : Nat) : (s.modBoot f).ep q = s.ep q := rfl
@[simp] theorem State.modBoot_port (s : State) (f : BootRt → BootRt) (q : Nat) : (s.modBoot f).port q = s.port q := rfl
@[simp] theorem State.modBoot_ring (s : State) (f : BootRt → BootRt) (q : Nat) : (s.modBoot f).ring q = s.ring q := rfl
@[simp] theorem State.modBoot_wk (s : State) (f : BootRt → BootRt) (q q' : Nat) : (s.modBoot f).wk q q' = s.wk q q' := rfl

/-! ### State.setField -/

@[simp] theorem State.setField_pending (s : State) (f : FieldRt) : (s.setField f).pending = s.pending := rfl
@[simp] theorem State.setField_now (s : State) (f : FieldRt) : (s.setField f).now = s.now := rfl
@[simp] theorem State.setField_frac (s : State) (f : FieldRt) : (s.setField f).frac = s.frac := rfl
@[simp] theorem State.setField_free (s : State) (f : FieldRt) : (s.setField f).free = s.free := rfl
@[simp] theorem State.setField_out (s : State) (f : FieldRt) : (s.setField f).out = s.out := rfl
@[simp] theorem State.setField_od (s : State) (f : FieldRt) : (s.setField f).od = s.od := rfl
@[simp] theorem State.setField_staged (s : State) (f : FieldRt) : (s.setField f).staged = s.staged := rfl
@[simp] theorem State.setField_snaps (s : State) (f : FieldRt) : (s.setField f).snaps = s.snaps := rfl
@[simp] theorem State.setField_axes (s : State) (f : FieldRt) : (s.setField f).axes = s.axes := rfl
@[simp] theorem State.setField_fbs (s : State) (f : FieldRt) : (s.setField f).fbs = s.fbs := rfl
@[simp] theorem State.setField_lats (s : State) (f : FieldRt) : (s.setField f).lats = s.lats := rfl
@[simp] theorem State.setField_cmps (s : State) (f : FieldRt) : (s.setField f).cmps = s.cmps := rfl
@[simp] theorem State.setField_msts (s : State) (f : FieldRt) : (s.setField f).msts = s.msts := rfl
@[simp] theorem State.setField_disp (s : State) (f : FieldRt) : (s.setField f).disp = s.disp := rfl
@[simp] theorem State.setField_engs (s : State) (f : FieldRt) : (s.setField f).engs = s.engs := rfl
@[simp] theorem State.setField_aces (s : State) (f : FieldRt) : (s.setField f).aces = s.aces := rfl
@[simp] theorem State.setField_shared (s : State) (f : FieldRt) : (s.setField f).shared = s.shared := rfl
@[simp] theorem State.setField_ucode (s : State) (f : FieldRt) : (s.setField f).ucode = s.ucode := rfl
@[simp] theorem State.setField_eps (s : State) (f : FieldRt) : (s.setField f).eps = s.eps := rfl
@[simp] theorem State.setField_field (s : State) (f : FieldRt) : (s.setField f).field = f := rfl
@[simp] theorem State.setField_time (s : State) (f : FieldRt) : (s.setField f).time = s.time := rfl
@[simp] theorem State.setField_obs (s : State) (f : FieldRt) : (s.setField f).obs = s.obs := rfl
@[simp] theorem State.setField_safe (s : State) (f : FieldRt) : (s.setField f).safe = s.safe := rfl
@[simp] theorem State.setField_debugger (s : State) (f : FieldRt) : (s.setField f).debugger = s.debugger := rfl
@[simp] theorem State.setField_benchUp (s : State) (f : FieldRt) : (s.setField f).benchUp = s.benchUp := rfl
@[simp] theorem State.setField_ports (s : State) (f : FieldRt) : (s.setField f).ports = s.ports := rfl
@[simp] theorem State.setField_rings (s : State) (f : FieldRt) : (s.setField f).rings = s.rings := rfl
@[simp] theorem State.setField_wks (s : State) (f : FieldRt) : (s.setField f).wks = s.wks := rfl
@[simp] theorem State.setField_hud (s : State) (f : FieldRt) : (s.setField f).hud = s.hud := rfl
@[simp] theorem State.setField_com (s : State) (f : FieldRt) : (s.setField f).com = s.com := rfl
@[simp] theorem State.setField_store (s : State) (f : FieldRt) : (s.setField f).store = s.store := rfl
@[simp] theorem State.setField_pair (s : State) (f : FieldRt) : (s.setField f).pair = s.pair := rfl
@[simp] theorem State.setField_host (s : State) (f : FieldRt) : (s.setField f).host = s.host := rfl
@[simp] theorem State.setField_boot (s : State) (f : FieldRt) : (s.setField f).boot = s.boot := rfl
@[simp] theorem State.setField_get (s : State) (f : FieldRt) (o' : Obj) (i' j' k' : Nat) : (s.setField f).get o' i' j' k' = s.get o' i' j' k' := rfl
@[simp] theorem State.setField_nat (s : State) (f : FieldRt) (o' : Obj) (i' j' k' : Nat) : (s.setField f).nat o' i' j' k' = s.nat o' i' j' k' := rfl
@[simp] theorem State.setField_flag (s : State) (f : FieldRt) (o' : Obj) (i' j' k' : Nat) : (s.setField f).flag o' i' j' k' = s.flag o' i' j' k' := rfl
@[simp] theorem State.setField_bytes (s : State) (f : FieldRt) (o' : Obj) (i' j' k' : Nat) : (s.setField f).bytes o' i' j' k' = s.bytes o' i' j' k' := rfl
@[simp] theorem State.setField_axis (s : State) (f : FieldRt) (q : Nat) : (s.setField f).axis q = s.axis q := rfl
@[simp] theorem State.setField_fbu (s : State) (f : FieldRt) (q : Nat) : (s.setField f).fbu q = s.fbu q := rfl
@[simp] theorem State.setField_latch (s : State) (f : FieldRt) (q : Nat) : (s.setField f).latch q = s.latch q := rfl
@[simp] theorem State.setField_cmp (s : State) (f : FieldRt) (q : Nat) : (s.setField f).cmp q = s.cmp q := rfl
@[simp] theorem State.setField_master (s : State) (f : FieldRt) (q : Nat) : (s.setField f).master q = s.master q := rfl
@[simp] theorem State.setField_eng (s : State) (f : FieldRt) (q : Nat) : (s.setField f).eng q = s.eng q := rfl
@[simp] theorem State.setField_ace (s : State) (f : FieldRt) (q : Nat) : (s.setField f).ace q = s.ace q := rfl
@[simp] theorem State.setField_ep (s : State) (f : FieldRt) (q : Nat) : (s.setField f).ep q = s.ep q := rfl
@[simp] theorem State.setField_port (s : State) (f : FieldRt) (q : Nat) : (s.setField f).port q = s.port q := rfl
@[simp] theorem State.setField_ring (s : State) (f : FieldRt) (q : Nat) : (s.setField f).ring q = s.ring q := rfl
@[simp] theorem State.setField_wk (s : State) (f : FieldRt) (q q' : Nat) : (s.setField f).wk q q' = s.wk q q' := rfl

/-! ### State.modField -/

@[simp] theorem State.modField_pending (s : State) (f : FieldRt → FieldRt) : (s.modField f).pending = s.pending := rfl
@[simp] theorem State.modField_now (s : State) (f : FieldRt → FieldRt) : (s.modField f).now = s.now := rfl
@[simp] theorem State.modField_frac (s : State) (f : FieldRt → FieldRt) : (s.modField f).frac = s.frac := rfl
@[simp] theorem State.modField_free (s : State) (f : FieldRt → FieldRt) : (s.modField f).free = s.free := rfl
@[simp] theorem State.modField_out (s : State) (f : FieldRt → FieldRt) : (s.modField f).out = s.out := rfl
@[simp] theorem State.modField_od (s : State) (f : FieldRt → FieldRt) : (s.modField f).od = s.od := rfl
@[simp] theorem State.modField_staged (s : State) (f : FieldRt → FieldRt) : (s.modField f).staged = s.staged := rfl
@[simp] theorem State.modField_snaps (s : State) (f : FieldRt → FieldRt) : (s.modField f).snaps = s.snaps := rfl
@[simp] theorem State.modField_axes (s : State) (f : FieldRt → FieldRt) : (s.modField f).axes = s.axes := rfl
@[simp] theorem State.modField_fbs (s : State) (f : FieldRt → FieldRt) : (s.modField f).fbs = s.fbs := rfl
@[simp] theorem State.modField_lats (s : State) (f : FieldRt → FieldRt) : (s.modField f).lats = s.lats := rfl
@[simp] theorem State.modField_cmps (s : State) (f : FieldRt → FieldRt) : (s.modField f).cmps = s.cmps := rfl
@[simp] theorem State.modField_msts (s : State) (f : FieldRt → FieldRt) : (s.modField f).msts = s.msts := rfl
@[simp] theorem State.modField_disp (s : State) (f : FieldRt → FieldRt) : (s.modField f).disp = s.disp := rfl
@[simp] theorem State.modField_engs (s : State) (f : FieldRt → FieldRt) : (s.modField f).engs = s.engs := rfl
@[simp] theorem State.modField_aces (s : State) (f : FieldRt → FieldRt) : (s.modField f).aces = s.aces := rfl
@[simp] theorem State.modField_shared (s : State) (f : FieldRt → FieldRt) : (s.modField f).shared = s.shared := rfl
@[simp] theorem State.modField_ucode (s : State) (f : FieldRt → FieldRt) : (s.modField f).ucode = s.ucode := rfl
@[simp] theorem State.modField_eps (s : State) (f : FieldRt → FieldRt) : (s.modField f).eps = s.eps := rfl
@[simp] theorem State.modField_field (s : State) (f : FieldRt → FieldRt) : (s.modField f).field = f s.field := rfl
@[simp] theorem State.modField_time (s : State) (f : FieldRt → FieldRt) : (s.modField f).time = s.time := rfl
@[simp] theorem State.modField_obs (s : State) (f : FieldRt → FieldRt) : (s.modField f).obs = s.obs := rfl
@[simp] theorem State.modField_safe (s : State) (f : FieldRt → FieldRt) : (s.modField f).safe = s.safe := rfl
@[simp] theorem State.modField_debugger (s : State) (f : FieldRt → FieldRt) : (s.modField f).debugger = s.debugger := rfl
@[simp] theorem State.modField_benchUp (s : State) (f : FieldRt → FieldRt) : (s.modField f).benchUp = s.benchUp := rfl
@[simp] theorem State.modField_ports (s : State) (f : FieldRt → FieldRt) : (s.modField f).ports = s.ports := rfl
@[simp] theorem State.modField_rings (s : State) (f : FieldRt → FieldRt) : (s.modField f).rings = s.rings := rfl
@[simp] theorem State.modField_wks (s : State) (f : FieldRt → FieldRt) : (s.modField f).wks = s.wks := rfl
@[simp] theorem State.modField_hud (s : State) (f : FieldRt → FieldRt) : (s.modField f).hud = s.hud := rfl
@[simp] theorem State.modField_com (s : State) (f : FieldRt → FieldRt) : (s.modField f).com = s.com := rfl
@[simp] theorem State.modField_store (s : State) (f : FieldRt → FieldRt) : (s.modField f).store = s.store := rfl
@[simp] theorem State.modField_pair (s : State) (f : FieldRt → FieldRt) : (s.modField f).pair = s.pair := rfl
@[simp] theorem State.modField_host (s : State) (f : FieldRt → FieldRt) : (s.modField f).host = s.host := rfl
@[simp] theorem State.modField_boot (s : State) (f : FieldRt → FieldRt) : (s.modField f).boot = s.boot := rfl
@[simp] theorem State.modField_get (s : State) (f : FieldRt → FieldRt) (o' : Obj) (i' j' k' : Nat) : (s.modField f).get o' i' j' k' = s.get o' i' j' k' := rfl
@[simp] theorem State.modField_nat (s : State) (f : FieldRt → FieldRt) (o' : Obj) (i' j' k' : Nat) : (s.modField f).nat o' i' j' k' = s.nat o' i' j' k' := rfl
@[simp] theorem State.modField_flag (s : State) (f : FieldRt → FieldRt) (o' : Obj) (i' j' k' : Nat) : (s.modField f).flag o' i' j' k' = s.flag o' i' j' k' := rfl
@[simp] theorem State.modField_bytes (s : State) (f : FieldRt → FieldRt) (o' : Obj) (i' j' k' : Nat) : (s.modField f).bytes o' i' j' k' = s.bytes o' i' j' k' := rfl
@[simp] theorem State.modField_axis (s : State) (f : FieldRt → FieldRt) (q : Nat) : (s.modField f).axis q = s.axis q := rfl
@[simp] theorem State.modField_fbu (s : State) (f : FieldRt → FieldRt) (q : Nat) : (s.modField f).fbu q = s.fbu q := rfl
@[simp] theorem State.modField_latch (s : State) (f : FieldRt → FieldRt) (q : Nat) : (s.modField f).latch q = s.latch q := rfl
@[simp] theorem State.modField_cmp (s : State) (f : FieldRt → FieldRt) (q : Nat) : (s.modField f).cmp q = s.cmp q := rfl
@[simp] theorem State.modField_master (s : State) (f : FieldRt → FieldRt) (q : Nat) : (s.modField f).master q = s.master q := rfl
@[simp] theorem State.modField_eng (s : State) (f : FieldRt → FieldRt) (q : Nat) : (s.modField f).eng q = s.eng q := rfl
@[simp] theorem State.modField_ace (s : State) (f : FieldRt → FieldRt) (q : Nat) : (s.modField f).ace q = s.ace q := rfl
@[simp] theorem State.modField_ep (s : State) (f : FieldRt → FieldRt) (q : Nat) : (s.modField f).ep q = s.ep q := rfl
@[simp] theorem State.modField_port (s : State) (f : FieldRt → FieldRt) (q : Nat) : (s.modField f).port q = s.port q := rfl
@[simp] theorem State.modField_ring (s : State) (f : FieldRt → FieldRt) (q : Nat) : (s.modField f).ring q = s.ring q := rfl
@[simp] theorem State.modField_wk (s : State) (f : FieldRt → FieldRt) (q q' : Nat) : (s.modField f).wk q q' = s.wk q q' := rfl

/-! ### State.modObs -/

@[simp] theorem State.modObs_pending (s : State) (f : ObsRt → ObsRt) : (s.modObs f).pending = s.pending := rfl
@[simp] theorem State.modObs_now (s : State) (f : ObsRt → ObsRt) : (s.modObs f).now = s.now := rfl
@[simp] theorem State.modObs_frac (s : State) (f : ObsRt → ObsRt) : (s.modObs f).frac = s.frac := rfl
@[simp] theorem State.modObs_free (s : State) (f : ObsRt → ObsRt) : (s.modObs f).free = s.free := rfl
@[simp] theorem State.modObs_out (s : State) (f : ObsRt → ObsRt) : (s.modObs f).out = s.out := rfl
@[simp] theorem State.modObs_od (s : State) (f : ObsRt → ObsRt) : (s.modObs f).od = s.od := rfl
@[simp] theorem State.modObs_staged (s : State) (f : ObsRt → ObsRt) : (s.modObs f).staged = s.staged := rfl
@[simp] theorem State.modObs_snaps (s : State) (f : ObsRt → ObsRt) : (s.modObs f).snaps = s.snaps := rfl
@[simp] theorem State.modObs_axes (s : State) (f : ObsRt → ObsRt) : (s.modObs f).axes = s.axes := rfl
@[simp] theorem State.modObs_fbs (s : State) (f : ObsRt → ObsRt) : (s.modObs f).fbs = s.fbs := rfl
@[simp] theorem State.modObs_lats (s : State) (f : ObsRt → ObsRt) : (s.modObs f).lats = s.lats := rfl
@[simp] theorem State.modObs_cmps (s : State) (f : ObsRt → ObsRt) : (s.modObs f).cmps = s.cmps := rfl
@[simp] theorem State.modObs_msts (s : State) (f : ObsRt → ObsRt) : (s.modObs f).msts = s.msts := rfl
@[simp] theorem State.modObs_disp (s : State) (f : ObsRt → ObsRt) : (s.modObs f).disp = s.disp := rfl
@[simp] theorem State.modObs_engs (s : State) (f : ObsRt → ObsRt) : (s.modObs f).engs = s.engs := rfl
@[simp] theorem State.modObs_aces (s : State) (f : ObsRt → ObsRt) : (s.modObs f).aces = s.aces := rfl
@[simp] theorem State.modObs_shared (s : State) (f : ObsRt → ObsRt) : (s.modObs f).shared = s.shared := rfl
@[simp] theorem State.modObs_ucode (s : State) (f : ObsRt → ObsRt) : (s.modObs f).ucode = s.ucode := rfl
@[simp] theorem State.modObs_eps (s : State) (f : ObsRt → ObsRt) : (s.modObs f).eps = s.eps := rfl
@[simp] theorem State.modObs_field (s : State) (f : ObsRt → ObsRt) : (s.modObs f).field = s.field := rfl
@[simp] theorem State.modObs_time (s : State) (f : ObsRt → ObsRt) : (s.modObs f).time = s.time := rfl
@[simp] theorem State.modObs_obs (s : State) (f : ObsRt → ObsRt) : (s.modObs f).obs = f s.obs := rfl
@[simp] theorem State.modObs_safe (s : State) (f : ObsRt → ObsRt) : (s.modObs f).safe = s.safe := rfl
@[simp] theorem State.modObs_debugger (s : State) (f : ObsRt → ObsRt) : (s.modObs f).debugger = s.debugger := rfl
@[simp] theorem State.modObs_benchUp (s : State) (f : ObsRt → ObsRt) : (s.modObs f).benchUp = s.benchUp := rfl
@[simp] theorem State.modObs_ports (s : State) (f : ObsRt → ObsRt) : (s.modObs f).ports = s.ports := rfl
@[simp] theorem State.modObs_rings (s : State) (f : ObsRt → ObsRt) : (s.modObs f).rings = s.rings := rfl
@[simp] theorem State.modObs_wks (s : State) (f : ObsRt → ObsRt) : (s.modObs f).wks = s.wks := rfl
@[simp] theorem State.modObs_hud (s : State) (f : ObsRt → ObsRt) : (s.modObs f).hud = s.hud := rfl
@[simp] theorem State.modObs_com (s : State) (f : ObsRt → ObsRt) : (s.modObs f).com = s.com := rfl
@[simp] theorem State.modObs_store (s : State) (f : ObsRt → ObsRt) : (s.modObs f).store = s.store := rfl
@[simp] theorem State.modObs_pair (s : State) (f : ObsRt → ObsRt) : (s.modObs f).pair = s.pair := rfl
@[simp] theorem State.modObs_host (s : State) (f : ObsRt → ObsRt) : (s.modObs f).host = s.host := rfl
@[simp] theorem State.modObs_boot (s : State) (f : ObsRt → ObsRt) : (s.modObs f).boot = s.boot := rfl
@[simp] theorem State.modObs_get (s : State) (f : ObsRt → ObsRt) (o' : Obj) (i' j' k' : Nat) : (s.modObs f).get o' i' j' k' = s.get o' i' j' k' := rfl
@[simp] theorem State.modObs_nat (s : State) (f : ObsRt → ObsRt) (o' : Obj) (i' j' k' : Nat) : (s.modObs f).nat o' i' j' k' = s.nat o' i' j' k' := rfl
@[simp] theorem State.modObs_flag (s : State) (f : ObsRt → ObsRt) (o' : Obj) (i' j' k' : Nat) : (s.modObs f).flag o' i' j' k' = s.flag o' i' j' k' := rfl
@[simp] theorem State.modObs_bytes (s : State) (f : ObsRt → ObsRt) (o' : Obj) (i' j' k' : Nat) : (s.modObs f).bytes o' i' j' k' = s.bytes o' i' j' k' := rfl
@[simp] theorem State.modObs_axis (s : State) (f : ObsRt → ObsRt) (q : Nat) : (s.modObs f).axis q = s.axis q := rfl
@[simp] theorem State.modObs_fbu (s : State) (f : ObsRt → ObsRt) (q : Nat) : (s.modObs f).fbu q = s.fbu q := rfl
@[simp] theorem State.modObs_latch (s : State) (f : ObsRt → ObsRt) (q : Nat) : (s.modObs f).latch q = s.latch q := rfl
@[simp] theorem State.modObs_cmp (s : State) (f : ObsRt → ObsRt) (q : Nat) : (s.modObs f).cmp q = s.cmp q := rfl
@[simp] theorem State.modObs_master (s : State) (f : ObsRt → ObsRt) (q : Nat) : (s.modObs f).master q = s.master q := rfl
@[simp] theorem State.modObs_eng (s : State) (f : ObsRt → ObsRt) (q : Nat) : (s.modObs f).eng q = s.eng q := rfl
@[simp] theorem State.modObs_ace (s : State) (f : ObsRt → ObsRt) (q : Nat) : (s.modObs f).ace q = s.ace q := rfl
@[simp] theorem State.modObs_ep (s : State) (f : ObsRt → ObsRt) (q : Nat) : (s.modObs f).ep q = s.ep q := rfl
@[simp] theorem State.modObs_port (s : State) (f : ObsRt → ObsRt) (q : Nat) : (s.modObs f).port q = s.port q := rfl
@[simp] theorem State.modObs_ring (s : State) (f : ObsRt → ObsRt) (q : Nat) : (s.modObs f).ring q = s.ring q := rfl
@[simp] theorem State.modObs_wk (s : State) (f : ObsRt → ObsRt) (q q' : Nat) : (s.modObs f).wk q q' = s.wk q q' := rfl

/-! ### State.modSafe -/

@[simp] theorem State.modSafe_pending (s : State) (f : SafeRt → SafeRt) : (s.modSafe f).pending = s.pending := rfl
@[simp] theorem State.modSafe_now (s : State) (f : SafeRt → SafeRt) : (s.modSafe f).now = s.now := rfl
@[simp] theorem State.modSafe_frac (s : State) (f : SafeRt → SafeRt) : (s.modSafe f).frac = s.frac := rfl
@[simp] theorem State.modSafe_free (s : State) (f : SafeRt → SafeRt) : (s.modSafe f).free = s.free := rfl
@[simp] theorem State.modSafe_out (s : State) (f : SafeRt → SafeRt) : (s.modSafe f).out = s.out := rfl
@[simp] theorem State.modSafe_od (s : State) (f : SafeRt → SafeRt) : (s.modSafe f).od = s.od := rfl
@[simp] theorem State.modSafe_staged (s : State) (f : SafeRt → SafeRt) : (s.modSafe f).staged = s.staged := rfl
@[simp] theorem State.modSafe_snaps (s : State) (f : SafeRt → SafeRt) : (s.modSafe f).snaps = s.snaps := rfl
@[simp] theorem State.modSafe_axes (s : State) (f : SafeRt → SafeRt) : (s.modSafe f).axes = s.axes := rfl
@[simp] theorem State.modSafe_fbs (s : State) (f : SafeRt → SafeRt) : (s.modSafe f).fbs = s.fbs := rfl
@[simp] theorem State.modSafe_lats (s : State) (f : SafeRt → SafeRt) : (s.modSafe f).lats = s.lats := rfl
@[simp] theorem State.modSafe_cmps (s : State) (f : SafeRt → SafeRt) : (s.modSafe f).cmps = s.cmps := rfl
@[simp] theorem State.modSafe_msts (s : State) (f : SafeRt → SafeRt) : (s.modSafe f).msts = s.msts := rfl
@[simp] theorem State.modSafe_disp (s : State) (f : SafeRt → SafeRt) : (s.modSafe f).disp = s.disp := rfl
@[simp] theorem State.modSafe_engs (s : State) (f : SafeRt → SafeRt) : (s.modSafe f).engs = s.engs := rfl
@[simp] theorem State.modSafe_aces (s : State) (f : SafeRt → SafeRt) : (s.modSafe f).aces = s.aces := rfl
@[simp] theorem State.modSafe_shared (s : State) (f : SafeRt → SafeRt) : (s.modSafe f).shared = s.shared := rfl
@[simp] theorem State.modSafe_ucode (s : State) (f : SafeRt → SafeRt) : (s.modSafe f).ucode = s.ucode := rfl
@[simp] theorem State.modSafe_eps (s : State) (f : SafeRt → SafeRt) : (s.modSafe f).eps = s.eps := rfl
@[simp] theorem State.modSafe_field (s : State) (f : SafeRt → SafeRt) : (s.modSafe f).field = s.field := rfl
@[simp] theorem State.modSafe_time (s : State) (f : SafeRt → SafeRt) : (s.modSafe f).time = s.time := rfl
@[simp] theorem State.modSafe_obs (s : State) (f : SafeRt → SafeRt) : (s.modSafe f).obs = s.obs := rfl
@[simp] theorem State.modSafe_safe (s : State) (f : SafeRt → SafeRt) : (s.modSafe f).safe = f s.safe := rfl
@[simp] theorem State.modSafe_debugger (s : State) (f : SafeRt → SafeRt) : (s.modSafe f).debugger = s.debugger := rfl
@[simp] theorem State.modSafe_benchUp (s : State) (f : SafeRt → SafeRt) : (s.modSafe f).benchUp = s.benchUp := rfl
@[simp] theorem State.modSafe_ports (s : State) (f : SafeRt → SafeRt) : (s.modSafe f).ports = s.ports := rfl
@[simp] theorem State.modSafe_rings (s : State) (f : SafeRt → SafeRt) : (s.modSafe f).rings = s.rings := rfl
@[simp] theorem State.modSafe_wks (s : State) (f : SafeRt → SafeRt) : (s.modSafe f).wks = s.wks := rfl
@[simp] theorem State.modSafe_hud (s : State) (f : SafeRt → SafeRt) : (s.modSafe f).hud = s.hud := rfl
@[simp] theorem State.modSafe_com (s : State) (f : SafeRt → SafeRt) : (s.modSafe f).com = s.com := rfl
@[simp] theorem State.modSafe_store (s : State) (f : SafeRt → SafeRt) : (s.modSafe f).store = s.store := rfl
@[simp] theorem State.modSafe_pair (s : State) (f : SafeRt → SafeRt) : (s.modSafe f).pair = s.pair := rfl
@[simp] theorem State.modSafe_host (s : State) (f : SafeRt → SafeRt) : (s.modSafe f).host = s.host := rfl
@[simp] theorem State.modSafe_boot (s : State) (f : SafeRt → SafeRt) : (s.modSafe f).boot = s.boot := rfl
@[simp] theorem State.modSafe_get (s : State) (f : SafeRt → SafeRt) (o' : Obj) (i' j' k' : Nat) : (s.modSafe f).get o' i' j' k' = s.get o' i' j' k' := rfl
@[simp] theorem State.modSafe_nat (s : State) (f : SafeRt → SafeRt) (o' : Obj) (i' j' k' : Nat) : (s.modSafe f).nat o' i' j' k' = s.nat o' i' j' k' := rfl
@[simp] theorem State.modSafe_flag (s : State) (f : SafeRt → SafeRt) (o' : Obj) (i' j' k' : Nat) : (s.modSafe f).flag o' i' j' k' = s.flag o' i' j' k' := rfl
@[simp] theorem State.modSafe_bytes (s : State) (f : SafeRt → SafeRt) (o' : Obj) (i' j' k' : Nat) : (s.modSafe f).bytes o' i' j' k' = s.bytes o' i' j' k' := rfl
@[simp] theorem State.modSafe_axis (s : State) (f : SafeRt → SafeRt) (q : Nat) : (s.modSafe f).axis q = s.axis q := rfl
@[simp] theorem State.modSafe_fbu (s : State) (f : SafeRt → SafeRt) (q : Nat) : (s.modSafe f).fbu q = s.fbu q := rfl
@[simp] theorem State.modSafe_latch (s : State) (f : SafeRt → SafeRt) (q : Nat) : (s.modSafe f).latch q = s.latch q := rfl
@[simp] theorem State.modSafe_cmp (s : State) (f : SafeRt → SafeRt) (q : Nat) : (s.modSafe f).cmp q = s.cmp q := rfl
@[simp] theorem State.modSafe_master (s : State) (f : SafeRt → SafeRt) (q : Nat) : (s.modSafe f).master q = s.master q := rfl
@[simp] theorem State.modSafe_eng (s : State) (f : SafeRt → SafeRt) (q : Nat) : (s.modSafe f).eng q = s.eng q := rfl
@[simp] theorem State.modSafe_ace (s : State) (f : SafeRt → SafeRt) (q : Nat) : (s.modSafe f).ace q = s.ace q := rfl
@[simp] theorem State.modSafe_ep (s : State) (f : SafeRt → SafeRt) (q : Nat) : (s.modSafe f).ep q = s.ep q := rfl
@[simp] theorem State.modSafe_port (s : State) (f : SafeRt → SafeRt) (q : Nat) : (s.modSafe f).port q = s.port q := rfl
@[simp] theorem State.modSafe_ring (s : State) (f : SafeRt → SafeRt) (q : Nat) : (s.modSafe f).ring q = s.ring q := rfl
@[simp] theorem State.modSafe_wk (s : State) (f : SafeRt → SafeRt) (q q' : Nat) : (s.modSafe f).wk q q' = s.wk q q' := rfl

/-! ### State.modPair -/

@[simp] theorem State.modPair_pending (s : State) (f : PairRt → PairRt) : (s.modPair f).pending = s.pending := rfl
@[simp] theorem State.modPair_now (s : State) (f : PairRt → PairRt) : (s.modPair f).now = s.now := rfl
@[simp] theorem State.modPair_frac (s : State) (f : PairRt → PairRt) : (s.modPair f).frac = s.frac := rfl
@[simp] theorem State.modPair_free (s : State) (f : PairRt → PairRt) : (s.modPair f).free = s.free := rfl
@[simp] theorem State.modPair_out (s : State) (f : PairRt → PairRt) : (s.modPair f).out = s.out := rfl
@[simp] theorem State.modPair_od (s : State) (f : PairRt → PairRt) : (s.modPair f).od = s.od := rfl
@[simp] theorem State.modPair_staged (s : State) (f : PairRt → PairRt) : (s.modPair f).staged = s.staged := rfl
@[simp] theorem State.modPair_snaps (s : State) (f : PairRt → PairRt) : (s.modPair f).snaps = s.snaps := rfl
@[simp] theorem State.modPair_axes (s : State) (f : PairRt → PairRt) : (s.modPair f).axes = s.axes := rfl
@[simp] theorem State.modPair_fbs (s : State) (f : PairRt → PairRt) : (s.modPair f).fbs = s.fbs := rfl
@[simp] theorem State.modPair_lats (s : State) (f : PairRt → PairRt) : (s.modPair f).lats = s.lats := rfl
@[simp] theorem State.modPair_cmps (s : State) (f : PairRt → PairRt) : (s.modPair f).cmps = s.cmps := rfl
@[simp] theorem State.modPair_msts (s : State) (f : PairRt → PairRt) : (s.modPair f).msts = s.msts := rfl
@[simp] theorem State.modPair_disp (s : State) (f : PairRt → PairRt) : (s.modPair f).disp = s.disp := rfl
@[simp] theorem State.modPair_engs (s : State) (f : PairRt → PairRt) : (s.modPair f).engs = s.engs := rfl
@[simp] theorem State.modPair_aces (s : State) (f : PairRt → PairRt) : (s.modPair f).aces = s.aces := rfl
@[simp] theorem State.modPair_shared (s : State) (f : PairRt → PairRt) : (s.modPair f).shared = s.shared := rfl
@[simp] theorem State.modPair_ucode (s : State) (f : PairRt → PairRt) : (s.modPair f).ucode = s.ucode := rfl
@[simp] theorem State.modPair_eps (s : State) (f : PairRt → PairRt) : (s.modPair f).eps = s.eps := rfl
@[simp] theorem State.modPair_field (s : State) (f : PairRt → PairRt) : (s.modPair f).field = s.field := rfl
@[simp] theorem State.modPair_time (s : State) (f : PairRt → PairRt) : (s.modPair f).time = s.time := rfl
@[simp] theorem State.modPair_obs (s : State) (f : PairRt → PairRt) : (s.modPair f).obs = s.obs := rfl
@[simp] theorem State.modPair_safe (s : State) (f : PairRt → PairRt) : (s.modPair f).safe = s.safe := rfl
@[simp] theorem State.modPair_debugger (s : State) (f : PairRt → PairRt) : (s.modPair f).debugger = s.debugger := rfl
@[simp] theorem State.modPair_benchUp (s : State) (f : PairRt → PairRt) : (s.modPair f).benchUp = s.benchUp := rfl
@[simp] theorem State.modPair_ports (s : State) (f : PairRt → PairRt) : (s.modPair f).ports = s.ports := rfl
@[simp] theorem State.modPair_rings (s : State) (f : PairRt → PairRt) : (s.modPair f).rings = s.rings := rfl
@[simp] theorem State.modPair_wks (s : State) (f : PairRt → PairRt) : (s.modPair f).wks = s.wks := rfl
@[simp] theorem State.modPair_hud (s : State) (f : PairRt → PairRt) : (s.modPair f).hud = s.hud := rfl
@[simp] theorem State.modPair_com (s : State) (f : PairRt → PairRt) : (s.modPair f).com = s.com := rfl
@[simp] theorem State.modPair_store (s : State) (f : PairRt → PairRt) : (s.modPair f).store = s.store := rfl
@[simp] theorem State.modPair_pair (s : State) (f : PairRt → PairRt) : (s.modPair f).pair = f s.pair := rfl
@[simp] theorem State.modPair_host (s : State) (f : PairRt → PairRt) : (s.modPair f).host = s.host := rfl
@[simp] theorem State.modPair_boot (s : State) (f : PairRt → PairRt) : (s.modPair f).boot = s.boot := rfl
@[simp] theorem State.modPair_get (s : State) (f : PairRt → PairRt) (o' : Obj) (i' j' k' : Nat) : (s.modPair f).get o' i' j' k' = s.get o' i' j' k' := rfl
@[simp] theorem State.modPair_nat (s : State) (f : PairRt → PairRt) (o' : Obj) (i' j' k' : Nat) : (s.modPair f).nat o' i' j' k' = s.nat o' i' j' k' := rfl
@[simp] theorem State.modPair_flag (s : State) (f : PairRt → PairRt) (o' : Obj) (i' j' k' : Nat) : (s.modPair f).flag o' i' j' k' = s.flag o' i' j' k' := rfl
@[simp] theorem State.modPair_bytes (s : State) (f : PairRt → PairRt) (o' : Obj) (i' j' k' : Nat) : (s.modPair f).bytes o' i' j' k' = s.bytes o' i' j' k' := rfl
@[simp] theorem State.modPair_axis (s : State) (f : PairRt → PairRt) (q : Nat) : (s.modPair f).axis q = s.axis q := rfl
@[simp] theorem State.modPair_fbu (s : State) (f : PairRt → PairRt) (q : Nat) : (s.modPair f).fbu q = s.fbu q := rfl
@[simp] theorem State.modPair_latch (s : State) (f : PairRt → PairRt) (q : Nat) : (s.modPair f).latch q = s.latch q := rfl
@[simp] theorem State.modPair_cmp (s : State) (f : PairRt → PairRt) (q : Nat) : (s.modPair f).cmp q = s.cmp q := rfl
@[simp] theorem State.modPair_master (s : State) (f : PairRt → PairRt) (q : Nat) : (s.modPair f).master q = s.master q := rfl
@[simp] theorem State.modPair_eng (s : State) (f : PairRt → PairRt) (q : Nat) : (s.modPair f).eng q = s.eng q := rfl
@[simp] theorem State.modPair_ace (s : State) (f : PairRt → PairRt) (q : Nat) : (s.modPair f).ace q = s.ace q := rfl
@[simp] theorem State.modPair_ep (s : State) (f : PairRt → PairRt) (q : Nat) : (s.modPair f).ep q = s.ep q := rfl
@[simp] theorem State.modPair_port (s : State) (f : PairRt → PairRt) (q : Nat) : (s.modPair f).port q = s.port q := rfl
@[simp] theorem State.modPair_ring (s : State) (f : PairRt → PairRt) (q : Nat) : (s.modPair f).ring q = s.ring q := rfl
@[simp] theorem State.modPair_wk (s : State) (f : PairRt → PairRt) (q q' : Nat) : (s.modPair f).wk q q' = s.wk q q' := rfl

/-! ### State.modPtp -/

@[simp] theorem State.modPtp_pending (s : State) (f : PtpRt → PtpRt) : (s.modPtp f).pending = s.pending := rfl
@[simp] theorem State.modPtp_now (s : State) (f : PtpRt → PtpRt) : (s.modPtp f).now = s.now := rfl
@[simp] theorem State.modPtp_frac (s : State) (f : PtpRt → PtpRt) : (s.modPtp f).frac = s.frac := rfl
@[simp] theorem State.modPtp_free (s : State) (f : PtpRt → PtpRt) : (s.modPtp f).free = s.free := rfl
@[simp] theorem State.modPtp_out (s : State) (f : PtpRt → PtpRt) : (s.modPtp f).out = s.out := rfl
@[simp] theorem State.modPtp_od (s : State) (f : PtpRt → PtpRt) : (s.modPtp f).od = s.od := rfl
@[simp] theorem State.modPtp_staged (s : State) (f : PtpRt → PtpRt) : (s.modPtp f).staged = s.staged := rfl
@[simp] theorem State.modPtp_snaps (s : State) (f : PtpRt → PtpRt) : (s.modPtp f).snaps = s.snaps := rfl
@[simp] theorem State.modPtp_axes (s : State) (f : PtpRt → PtpRt) : (s.modPtp f).axes = s.axes := rfl
@[simp] theorem State.modPtp_fbs (s : State) (f : PtpRt → PtpRt) : (s.modPtp f).fbs = s.fbs := rfl
@[simp] theorem State.modPtp_lats (s : State) (f : PtpRt → PtpRt) : (s.modPtp f).lats = s.lats := rfl
@[simp] theorem State.modPtp_cmps (s : State) (f : PtpRt → PtpRt) : (s.modPtp f).cmps = s.cmps := rfl
@[simp] theorem State.modPtp_msts (s : State) (f : PtpRt → PtpRt) : (s.modPtp f).msts = s.msts := rfl
@[simp] theorem State.modPtp_disp (s : State) (f : PtpRt → PtpRt) : (s.modPtp f).disp = s.disp := rfl
@[simp] theorem State.modPtp_engs (s : State) (f : PtpRt → PtpRt) : (s.modPtp f).engs = s.engs := rfl
@[simp] theorem State.modPtp_aces (s : State) (f : PtpRt → PtpRt) : (s.modPtp f).aces = s.aces := rfl
@[simp] theorem State.modPtp_shared (s : State) (f : PtpRt → PtpRt) : (s.modPtp f).shared = s.shared := rfl
@[simp] theorem State.modPtp_ucode (s : State) (f : PtpRt → PtpRt) : (s.modPtp f).ucode = s.ucode := rfl
@[simp] theorem State.modPtp_eps (s : State) (f : PtpRt → PtpRt) : (s.modPtp f).eps = s.eps := rfl
@[simp] theorem State.modPtp_field (s : State) (f : PtpRt → PtpRt) : (s.modPtp f).field = s.field := rfl
@[simp] theorem State.modPtp_obs (s : State) (f : PtpRt → PtpRt) : (s.modPtp f).obs = s.obs := rfl
@[simp] theorem State.modPtp_safe (s : State) (f : PtpRt → PtpRt) : (s.modPtp f).safe = s.safe := rfl
@[simp] theorem State.modPtp_debugger (s : State) (f : PtpRt → PtpRt) : (s.modPtp f).debugger = s.debugger := rfl
@[simp] theorem State.modPtp_benchUp (s : State) (f : PtpRt → PtpRt) : (s.modPtp f).benchUp = s.benchUp := rfl
@[simp] theorem State.modPtp_ports (s : State) (f : PtpRt → PtpRt) : (s.modPtp f).ports = s.ports := rfl
@[simp] theorem State.modPtp_rings (s : State) (f : PtpRt → PtpRt) : (s.modPtp f).rings = s.rings := rfl
@[simp] theorem State.modPtp_wks (s : State) (f : PtpRt → PtpRt) : (s.modPtp f).wks = s.wks := rfl
@[simp] theorem State.modPtp_hud (s : State) (f : PtpRt → PtpRt) : (s.modPtp f).hud = s.hud := rfl
@[simp] theorem State.modPtp_com (s : State) (f : PtpRt → PtpRt) : (s.modPtp f).com = s.com := rfl
@[simp] theorem State.modPtp_store (s : State) (f : PtpRt → PtpRt) : (s.modPtp f).store = s.store := rfl
@[simp] theorem State.modPtp_pair (s : State) (f : PtpRt → PtpRt) : (s.modPtp f).pair = s.pair := rfl
@[simp] theorem State.modPtp_host (s : State) (f : PtpRt → PtpRt) : (s.modPtp f).host = s.host := rfl
@[simp] theorem State.modPtp_boot (s : State) (f : PtpRt → PtpRt) : (s.modPtp f).boot = s.boot := rfl
@[simp] theorem State.modPtp_get (s : State) (f : PtpRt → PtpRt) (o' : Obj) (i' j' k' : Nat) : (s.modPtp f).get o' i' j' k' = s.get o' i' j' k' := rfl
@[simp] theorem State.modPtp_nat (s : State) (f : PtpRt → PtpRt) (o' : Obj) (i' j' k' : Nat) : (s.modPtp f).nat o' i' j' k' = s.nat o' i' j' k' := rfl
@[simp] theorem State.modPtp_flag (s : State) (f : PtpRt → PtpRt) (o' : Obj) (i' j' k' : Nat) : (s.modPtp f).flag o' i' j' k' = s.flag o' i' j' k' := rfl
@[simp] theorem State.modPtp_bytes (s : State) (f : PtpRt → PtpRt) (o' : Obj) (i' j' k' : Nat) : (s.modPtp f).bytes o' i' j' k' = s.bytes o' i' j' k' := rfl
@[simp] theorem State.modPtp_axis (s : State) (f : PtpRt → PtpRt) (q : Nat) : (s.modPtp f).axis q = s.axis q := rfl
@[simp] theorem State.modPtp_fbu (s : State) (f : PtpRt → PtpRt) (q : Nat) : (s.modPtp f).fbu q = s.fbu q := rfl
@[simp] theorem State.modPtp_latch (s : State) (f : PtpRt → PtpRt) (q : Nat) : (s.modPtp f).latch q = s.latch q := rfl
@[simp] theorem State.modPtp_cmp (s : State) (f : PtpRt → PtpRt) (q : Nat) : (s.modPtp f).cmp q = s.cmp q := rfl
@[simp] theorem State.modPtp_master (s : State) (f : PtpRt → PtpRt) (q : Nat) : (s.modPtp f).master q = s.master q := rfl
@[simp] theorem State.modPtp_eng (s : State) (f : PtpRt → PtpRt) (q : Nat) : (s.modPtp f).eng q = s.eng q := rfl
@[simp] theorem State.modPtp_ace (s : State) (f : PtpRt → PtpRt) (q : Nat) : (s.modPtp f).ace q = s.ace q := rfl
@[simp] theorem State.modPtp_ep (s : State) (f : PtpRt → PtpRt) (q : Nat) : (s.modPtp f).ep q = s.ep q := rfl
@[simp] theorem State.modPtp_port (s : State) (f : PtpRt → PtpRt) (q : Nat) : (s.modPtp f).port q = s.port q := rfl
@[simp] theorem State.modPtp_ring (s : State) (f : PtpRt → PtpRt) (q : Nat) : (s.modPtp f).ring q = s.ring q := rfl
@[simp] theorem State.modPtp_wk (s : State) (f : PtpRt → PtpRt) (q q' : Nat) : (s.modPtp f).wk q q' = s.wk q q' := rfl

/-! ### State.setTtp -/

@[simp] theorem State.setTtp_pending (s : State) (c : Nat) (x : TtpRt) : (s.setTtp c x).pending = s.pending := rfl
@[simp] theorem State.setTtp_now (s : State) (c : Nat) (x : TtpRt) : (s.setTtp c x).now = s.now := rfl
@[simp] theorem State.setTtp_frac (s : State) (c : Nat) (x : TtpRt) : (s.setTtp c x).frac = s.frac := rfl
@[simp] theorem State.setTtp_free (s : State) (c : Nat) (x : TtpRt) : (s.setTtp c x).free = s.free := rfl
@[simp] theorem State.setTtp_out (s : State) (c : Nat) (x : TtpRt) : (s.setTtp c x).out = s.out := rfl
@[simp] theorem State.setTtp_od (s : State) (c : Nat) (x : TtpRt) : (s.setTtp c x).od = s.od := rfl
@[simp] theorem State.setTtp_staged (s : State) (c : Nat) (x : TtpRt) : (s.setTtp c x).staged = s.staged := rfl
@[simp] theorem State.setTtp_snaps (s : State) (c : Nat) (x : TtpRt) : (s.setTtp c x).snaps = s.snaps := rfl
@[simp] theorem State.setTtp_axes (s : State) (c : Nat) (x : TtpRt) : (s.setTtp c x).axes = s.axes := rfl
@[simp] theorem State.setTtp_fbs (s : State) (c : Nat) (x : TtpRt) : (s.setTtp c x).fbs = s.fbs := rfl
@[simp] theorem State.setTtp_lats (s : State) (c : Nat) (x : TtpRt) : (s.setTtp c x).lats = s.lats := rfl
@[simp] theorem State.setTtp_cmps (s : State) (c : Nat) (x : TtpRt) : (s.setTtp c x).cmps = s.cmps := rfl
@[simp] theorem State.setTtp_msts (s : State) (c : Nat) (x : TtpRt) : (s.setTtp c x).msts = s.msts := rfl
@[simp] theorem State.setTtp_disp (s : State) (c : Nat) (x : TtpRt) : (s.setTtp c x).disp = s.disp := rfl
@[simp] theorem State.setTtp_engs (s : State) (c : Nat) (x : TtpRt) : (s.setTtp c x).engs = s.engs := rfl
@[simp] theorem State.setTtp_aces (s : State) (c : Nat) (x : TtpRt) : (s.setTtp c x).aces = s.aces := rfl
@[simp] theorem State.setTtp_shared (s : State) (c : Nat) (x : TtpRt) : (s.setTtp c x).shared = s.shared := rfl
@[simp] theorem State.setTtp_ucode (s : State) (c : Nat) (x : TtpRt) : (s.setTtp c x).ucode = s.ucode := rfl
@[simp] theorem State.setTtp_eps (s : State) (c : Nat) (x : TtpRt) : (s.setTtp c x).eps = s.eps := rfl
@[simp] theorem State.setTtp_field (s : State) (c : Nat) (x : TtpRt) : (s.setTtp c x).field = s.field := rfl
@[simp] theorem State.setTtp_obs (s : State) (c : Nat) (x : TtpRt) : (s.setTtp c x).obs = s.obs := rfl
@[simp] theorem State.setTtp_safe (s : State) (c : Nat) (x : TtpRt) : (s.setTtp c x).safe = s.safe := rfl
@[simp] theorem State.setTtp_debugger (s : State) (c : Nat) (x : TtpRt) : (s.setTtp c x).debugger = s.debugger := rfl
@[simp] theorem State.setTtp_benchUp (s : State) (c : Nat) (x : TtpRt) : (s.setTtp c x).benchUp = s.benchUp := rfl
@[simp] theorem State.setTtp_ports (s : State) (c : Nat) (x : TtpRt) : (s.setTtp c x).ports = s.ports := rfl
@[simp] theorem State.setTtp_rings (s : State) (c : Nat) (x : TtpRt) : (s.setTtp c x).rings = s.rings := rfl
@[simp] theorem State.setTtp_wks (s : State) (c : Nat) (x : TtpRt) : (s.setTtp c x).wks = s.wks := rfl
@[simp] theorem State.setTtp_hud (s : State) (c : Nat) (x : TtpRt) : (s.setTtp c x).hud = s.hud := rfl
@[simp] theorem State.setTtp_com (s : State) (c : Nat) (x : TtpRt) : (s.setTtp c x).com = s.com := rfl
@[simp] theorem State.setTtp_store (s : State) (c : Nat) (x : TtpRt) : (s.setTtp c x).store = s.store := rfl
@[simp] theorem State.setTtp_pair (s : State) (c : Nat) (x : TtpRt) : (s.setTtp c x).pair = s.pair := rfl
@[simp] theorem State.setTtp_host (s : State) (c : Nat) (x : TtpRt) : (s.setTtp c x).host = s.host := rfl
@[simp] theorem State.setTtp_boot (s : State) (c : Nat) (x : TtpRt) : (s.setTtp c x).boot = s.boot := rfl
@[simp] theorem State.setTtp_get (s : State) (c : Nat) (x : TtpRt) (o' : Obj) (i' j' k' : Nat) : (s.setTtp c x).get o' i' j' k' = s.get o' i' j' k' := rfl
@[simp] theorem State.setTtp_nat (s : State) (c : Nat) (x : TtpRt) (o' : Obj) (i' j' k' : Nat) : (s.setTtp c x).nat o' i' j' k' = s.nat o' i' j' k' := rfl
@[simp] theorem State.setTtp_flag (s : State) (c : Nat) (x : TtpRt) (o' : Obj) (i' j' k' : Nat) : (s.setTtp c x).flag o' i' j' k' = s.flag o' i' j' k' := rfl
@[simp] theorem State.setTtp_bytes (s : State) (c : Nat) (x : TtpRt) (o' : Obj) (i' j' k' : Nat) : (s.setTtp c x).bytes o' i' j' k' = s.bytes o' i' j' k' := rfl
@[simp] theorem State.setTtp_axis (s : State) (c : Nat) (x : TtpRt) (q : Nat) : (s.setTtp c x).axis q = s.axis q := rfl
@[simp] theorem State.setTtp_fbu (s : State) (c : Nat) (x : TtpRt) (q : Nat) : (s.setTtp c x).fbu q = s.fbu q := rfl
@[simp] theorem State.setTtp_latch (s : State) (c : Nat) (x : TtpRt) (q : Nat) : (s.setTtp c x).latch q = s.latch q := rfl
@[simp] theorem State.setTtp_cmp (s : State) (c : Nat) (x : TtpRt) (q : Nat) : (s.setTtp c x).cmp q = s.cmp q := rfl
@[simp] theorem State.setTtp_master (s : State) (c : Nat) (x : TtpRt) (q : Nat) : (s.setTtp c x).master q = s.master q := rfl
@[simp] theorem State.setTtp_eng (s : State) (c : Nat) (x : TtpRt) (q : Nat) : (s.setTtp c x).eng q = s.eng q := rfl
@[simp] theorem State.setTtp_ace (s : State) (c : Nat) (x : TtpRt) (q : Nat) : (s.setTtp c x).ace q = s.ace q := rfl
@[simp] theorem State.setTtp_ep (s : State) (c : Nat) (x : TtpRt) (q : Nat) : (s.setTtp c x).ep q = s.ep q := rfl
@[simp] theorem State.setTtp_port (s : State) (c : Nat) (x : TtpRt) (q : Nat) : (s.setTtp c x).port q = s.port q := rfl
@[simp] theorem State.setTtp_ring (s : State) (c : Nat) (x : TtpRt) (q : Nat) : (s.setTtp c x).ring q = s.ring q := rfl
@[simp] theorem State.setTtp_wk (s : State) (c : Nat) (x : TtpRt) (q q' : Nat) : (s.setTtp c x).wk q q' = s.wk q q' := rfl

/-! ### State.setSsf -/

@[simp] theorem State.setSsf_pending (s : State) (r p : Nat) (x : SsfRt) : (s.setSsf r p x).pending = s.pending := rfl
@[simp] theorem State.setSsf_now (s : State) (r p : Nat) (x : SsfRt) : (s.setSsf r p x).now = s.now := rfl
@[simp] theorem State.setSsf_frac (s : State) (r p : Nat) (x : SsfRt) : (s.setSsf r p x).frac = s.frac := rfl
@[simp] theorem State.setSsf_free (s : State) (r p : Nat) (x : SsfRt) : (s.setSsf r p x).free = s.free := rfl
@[simp] theorem State.setSsf_out (s : State) (r p : Nat) (x : SsfRt) : (s.setSsf r p x).out = s.out := rfl
@[simp] theorem State.setSsf_od (s : State) (r p : Nat) (x : SsfRt) : (s.setSsf r p x).od = s.od := rfl
@[simp] theorem State.setSsf_staged (s : State) (r p : Nat) (x : SsfRt) : (s.setSsf r p x).staged = s.staged := rfl
@[simp] theorem State.setSsf_snaps (s : State) (r p : Nat) (x : SsfRt) : (s.setSsf r p x).snaps = s.snaps := rfl
@[simp] theorem State.setSsf_axes (s : State) (r p : Nat) (x : SsfRt) : (s.setSsf r p x).axes = s.axes := rfl
@[simp] theorem State.setSsf_fbs (s : State) (r p : Nat) (x : SsfRt) : (s.setSsf r p x).fbs = s.fbs := rfl
@[simp] theorem State.setSsf_lats (s : State) (r p : Nat) (x : SsfRt) : (s.setSsf r p x).lats = s.lats := rfl
@[simp] theorem State.setSsf_cmps (s : State) (r p : Nat) (x : SsfRt) : (s.setSsf r p x).cmps = s.cmps := rfl
@[simp] theorem State.setSsf_msts (s : State) (r p : Nat) (x : SsfRt) : (s.setSsf r p x).msts = s.msts := rfl
@[simp] theorem State.setSsf_disp (s : State) (r p : Nat) (x : SsfRt) : (s.setSsf r p x).disp = s.disp := rfl
@[simp] theorem State.setSsf_engs (s : State) (r p : Nat) (x : SsfRt) : (s.setSsf r p x).engs = s.engs := rfl
@[simp] theorem State.setSsf_aces (s : State) (r p : Nat) (x : SsfRt) : (s.setSsf r p x).aces = s.aces := rfl
@[simp] theorem State.setSsf_shared (s : State) (r p : Nat) (x : SsfRt) : (s.setSsf r p x).shared = s.shared := rfl
@[simp] theorem State.setSsf_ucode (s : State) (r p : Nat) (x : SsfRt) : (s.setSsf r p x).ucode = s.ucode := rfl
@[simp] theorem State.setSsf_eps (s : State) (r p : Nat) (x : SsfRt) : (s.setSsf r p x).eps = s.eps := rfl
@[simp] theorem State.setSsf_field (s : State) (r p : Nat) (x : SsfRt) : (s.setSsf r p x).field = s.field := rfl
@[simp] theorem State.setSsf_time (s : State) (r p : Nat) (x : SsfRt) : (s.setSsf r p x).time = s.time := rfl
@[simp] theorem State.setSsf_obs (s : State) (r p : Nat) (x : SsfRt) : (s.setSsf r p x).obs = s.obs := rfl
@[simp] theorem State.setSsf_debugger (s : State) (r p : Nat) (x : SsfRt) : (s.setSsf r p x).debugger = s.debugger := rfl
@[simp] theorem State.setSsf_benchUp (s : State) (r p : Nat) (x : SsfRt) : (s.setSsf r p x).benchUp = s.benchUp := rfl
@[simp] theorem State.setSsf_ports (s : State) (r p : Nat) (x : SsfRt) : (s.setSsf r p x).ports = s.ports := rfl
@[simp] theorem State.setSsf_rings (s : State) (r p : Nat) (x : SsfRt) : (s.setSsf r p x).rings = s.rings := rfl
@[simp] theorem State.setSsf_wks (s : State) (r p : Nat) (x : SsfRt) : (s.setSsf r p x).wks = s.wks := rfl
@[simp] theorem State.setSsf_hud (s : State) (r p : Nat) (x : SsfRt) : (s.setSsf r p x).hud = s.hud := rfl
@[simp] theorem State.setSsf_com (s : State) (r p : Nat) (x : SsfRt) : (s.setSsf r p x).com = s.com := rfl
@[simp] theorem State.setSsf_store (s : State) (r p : Nat) (x : SsfRt) : (s.setSsf r p x).store = s.store := rfl
@[simp] theorem State.setSsf_pair (s : State) (r p : Nat) (x : SsfRt) : (s.setSsf r p x).pair = s.pair := rfl
@[simp] theorem State.setSsf_host (s : State) (r p : Nat) (x : SsfRt) : (s.setSsf r p x).host = s.host := rfl
@[simp] theorem State.setSsf_boot (s : State) (r p : Nat) (x : SsfRt) : (s.setSsf r p x).boot = s.boot := rfl
@[simp] theorem State.setSsf_get (s : State) (r p : Nat) (x : SsfRt) (o' : Obj) (i' j' k' : Nat) : (s.setSsf r p x).get o' i' j' k' = s.get o' i' j' k' := rfl
@[simp] theorem State.setSsf_nat (s : State) (r p : Nat) (x : SsfRt) (o' : Obj) (i' j' k' : Nat) : (s.setSsf r p x).nat o' i' j' k' = s.nat o' i' j' k' := rfl
@[simp] theorem State.setSsf_flag (s : State) (r p : Nat) (x : SsfRt) (o' : Obj) (i' j' k' : Nat) : (s.setSsf r p x).flag o' i' j' k' = s.flag o' i' j' k' := rfl
@[simp] theorem State.setSsf_bytes (s : State) (r p : Nat) (x : SsfRt) (o' : Obj) (i' j' k' : Nat) : (s.setSsf r p x).bytes o' i' j' k' = s.bytes o' i' j' k' := rfl
@[simp] theorem State.setSsf_axis (s : State) (r p : Nat) (x : SsfRt) (q : Nat) : (s.setSsf r p x).axis q = s.axis q := rfl
@[simp] theorem State.setSsf_fbu (s : State) (r p : Nat) (x : SsfRt) (q : Nat) : (s.setSsf r p x).fbu q = s.fbu q := rfl
@[simp] theorem State.setSsf_latch (s : State) (r p : Nat) (x : SsfRt) (q : Nat) : (s.setSsf r p x).latch q = s.latch q := rfl
@[simp] theorem State.setSsf_cmp (s : State) (r p : Nat) (x : SsfRt) (q : Nat) : (s.setSsf r p x).cmp q = s.cmp q := rfl
@[simp] theorem State.setSsf_master (s : State) (r p : Nat) (x : SsfRt) (q : Nat) : (s.setSsf r p x).master q = s.master q := rfl
@[simp] theorem State.setSsf_eng (s : State) (r p : Nat) (x : SsfRt) (q : Nat) : (s.setSsf r p x).eng q = s.eng q := rfl
@[simp] theorem State.setSsf_ace (s : State) (r p : Nat) (x : SsfRt) (q : Nat) : (s.setSsf r p x).ace q = s.ace q := rfl
@[simp] theorem State.setSsf_ep (s : State) (r p : Nat) (x : SsfRt) (q : Nat) : (s.setSsf r p x).ep q = s.ep q := rfl
@[simp] theorem State.setSsf_port (s : State) (r p : Nat) (x : SsfRt) (q : Nat) : (s.setSsf r p x).port q = s.port q := rfl
@[simp] theorem State.setSsf_ring (s : State) (r p : Nat) (x : SsfRt) (q : Nat) : (s.setSsf r p x).ring q = s.ring q := rfl
@[simp] theorem State.setSsf_wk (s : State) (r p : Nat) (x : SsfRt) (q q' : Nat) : (s.setSsf r p x).wk q q' = s.wk q q' := rfl

/-! ### State.setSess -/

@[simp] theorem State.setSess_pending (s : State) (k : Nat) (x : SessRt) : (s.setSess k x).pending = s.pending := rfl
@[simp] theorem State.setSess_now (s : State) (k : Nat) (x : SessRt) : (s.setSess k x).now = s.now := rfl
@[simp] theorem State.setSess_frac (s : State) (k : Nat) (x : SessRt) : (s.setSess k x).frac = s.frac := rfl
@[simp] theorem State.setSess_free (s : State) (k : Nat) (x : SessRt) : (s.setSess k x).free = s.free := rfl
@[simp] theorem State.setSess_out (s : State) (k : Nat) (x : SessRt) : (s.setSess k x).out = s.out := rfl
@[simp] theorem State.setSess_od (s : State) (k : Nat) (x : SessRt) : (s.setSess k x).od = s.od := rfl
@[simp] theorem State.setSess_staged (s : State) (k : Nat) (x : SessRt) : (s.setSess k x).staged = s.staged := rfl
@[simp] theorem State.setSess_snaps (s : State) (k : Nat) (x : SessRt) : (s.setSess k x).snaps = s.snaps := rfl
@[simp] theorem State.setSess_axes (s : State) (k : Nat) (x : SessRt) : (s.setSess k x).axes = s.axes := rfl
@[simp] theorem State.setSess_fbs (s : State) (k : Nat) (x : SessRt) : (s.setSess k x).fbs = s.fbs := rfl
@[simp] theorem State.setSess_lats (s : State) (k : Nat) (x : SessRt) : (s.setSess k x).lats = s.lats := rfl
@[simp] theorem State.setSess_cmps (s : State) (k : Nat) (x : SessRt) : (s.setSess k x).cmps = s.cmps := rfl
@[simp] theorem State.setSess_msts (s : State) (k : Nat) (x : SessRt) : (s.setSess k x).msts = s.msts := rfl
@[simp] theorem State.setSess_disp (s : State) (k : Nat) (x : SessRt) : (s.setSess k x).disp = s.disp := rfl
@[simp] theorem State.setSess_engs (s : State) (k : Nat) (x : SessRt) : (s.setSess k x).engs = s.engs := rfl
@[simp] theorem State.setSess_aces (s : State) (k : Nat) (x : SessRt) : (s.setSess k x).aces = s.aces := rfl
@[simp] theorem State.setSess_shared (s : State) (k : Nat) (x : SessRt) : (s.setSess k x).shared = s.shared := rfl
@[simp] theorem State.setSess_ucode (s : State) (k : Nat) (x : SessRt) : (s.setSess k x).ucode = s.ucode := rfl
@[simp] theorem State.setSess_eps (s : State) (k : Nat) (x : SessRt) : (s.setSess k x).eps = s.eps := rfl
@[simp] theorem State.setSess_field (s : State) (k : Nat) (x : SessRt) : (s.setSess k x).field = s.field := rfl
@[simp] theorem State.setSess_time (s : State) (k : Nat) (x : SessRt) : (s.setSess k x).time = s.time := rfl
@[simp] theorem State.setSess_obs (s : State) (k : Nat) (x : SessRt) : (s.setSess k x).obs = s.obs := rfl
@[simp] theorem State.setSess_safe (s : State) (k : Nat) (x : SessRt) : (s.setSess k x).safe = s.safe := rfl
@[simp] theorem State.setSess_debugger (s : State) (k : Nat) (x : SessRt) : (s.setSess k x).debugger = s.debugger := rfl
@[simp] theorem State.setSess_benchUp (s : State) (k : Nat) (x : SessRt) : (s.setSess k x).benchUp = s.benchUp := rfl
@[simp] theorem State.setSess_ports (s : State) (k : Nat) (x : SessRt) : (s.setSess k x).ports = s.ports := rfl
@[simp] theorem State.setSess_rings (s : State) (k : Nat) (x : SessRt) : (s.setSess k x).rings = s.rings := rfl
@[simp] theorem State.setSess_wks (s : State) (k : Nat) (x : SessRt) : (s.setSess k x).wks = s.wks := rfl
@[simp] theorem State.setSess_hud (s : State) (k : Nat) (x : SessRt) : (s.setSess k x).hud = s.hud := rfl
@[simp] theorem State.setSess_com (s : State) (k : Nat) (x : SessRt) : (s.setSess k x).com = s.com := rfl
@[simp] theorem State.setSess_store (s : State) (k : Nat) (x : SessRt) : (s.setSess k x).store = s.store := rfl
@[simp] theorem State.setSess_pair (s : State) (k : Nat) (x : SessRt) : (s.setSess k x).pair = s.pair := rfl
@[simp] theorem State.setSess_boot (s : State) (k : Nat) (x : SessRt) : (s.setSess k x).boot = s.boot := rfl
@[simp] theorem State.setSess_get (s : State) (k : Nat) (x : SessRt) (o' : Obj) (i' j' k' : Nat) : (s.setSess k x).get o' i' j' k' = s.get o' i' j' k' := rfl
@[simp] theorem State.setSess_nat (s : State) (k : Nat) (x : SessRt) (o' : Obj) (i' j' k' : Nat) : (s.setSess k x).nat o' i' j' k' = s.nat o' i' j' k' := rfl
@[simp] theorem State.setSess_flag (s : State) (k : Nat) (x : SessRt) (o' : Obj) (i' j' k' : Nat) : (s.setSess k x).flag o' i' j' k' = s.flag o' i' j' k' := rfl
@[simp] theorem State.setSess_bytes (s : State) (k : Nat) (x : SessRt) (o' : Obj) (i' j' k' : Nat) : (s.setSess k x).bytes o' i' j' k' = s.bytes o' i' j' k' := rfl
@[simp] theorem State.setSess_axis (s : State) (k : Nat) (x : SessRt) (q : Nat) : (s.setSess k x).axis q = s.axis q := rfl
@[simp] theorem State.setSess_fbu (s : State) (k : Nat) (x : SessRt) (q : Nat) : (s.setSess k x).fbu q = s.fbu q := rfl
@[simp] theorem State.setSess_latch (s : State) (k : Nat) (x : SessRt) (q : Nat) : (s.setSess k x).latch q = s.latch q := rfl
@[simp] theorem State.setSess_cmp (s : State) (k : Nat) (x : SessRt) (q : Nat) : (s.setSess k x).cmp q = s.cmp q := rfl
@[simp] theorem State.setSess_master (s : State) (k : Nat) (x : SessRt) (q : Nat) : (s.setSess k x).master q = s.master q := rfl
@[simp] theorem State.setSess_eng (s : State) (k : Nat) (x : SessRt) (q : Nat) : (s.setSess k x).eng q = s.eng q := rfl
@[simp] theorem State.setSess_ace (s : State) (k : Nat) (x : SessRt) (q : Nat) : (s.setSess k x).ace q = s.ace q := rfl
@[simp] theorem State.setSess_ep (s : State) (k : Nat) (x : SessRt) (q : Nat) : (s.setSess k x).ep q = s.ep q := rfl
@[simp] theorem State.setSess_port (s : State) (k : Nat) (x : SessRt) (q : Nat) : (s.setSess k x).port q = s.port q := rfl
@[simp] theorem State.setSess_ring (s : State) (k : Nat) (x : SessRt) (q : Nat) : (s.setSess k x).ring q = s.ring q := rfl
@[simp] theorem State.setSess_wk (s : State) (k : Nat) (x : SessRt) (q q' : Nat) : (s.setSess k x).wk q q' = s.wk q q' := rfl

/-! ### State.modSess -/

@[simp] theorem State.modSess_pending (s : State) (k : Nat) (f : SessRt → SessRt) : (s.modSess k f).pending = s.pending := rfl
@[simp] theorem State.modSess_now (s : State) (k : Nat) (f : SessRt → SessRt) : (s.modSess k f).now = s.now := rfl
@[simp] theorem State.modSess_frac (s : State) (k : Nat) (f : SessRt → SessRt) : (s.modSess k f).frac = s.frac := rfl
@[simp] theorem State.modSess_free (s : State) (k : Nat) (f : SessRt → SessRt) : (s.modSess k f).free = s.free := rfl
@[simp] theorem State.modSess_out (s : State) (k : Nat) (f : SessRt → SessRt) : (s.modSess k f).out = s.out := rfl
@[simp] theorem State.modSess_od (s : State) (k : Nat) (f : SessRt → SessRt) : (s.modSess k f).od = s.od := rfl
@[simp] theorem State.modSess_staged (s : State) (k : Nat) (f : SessRt → SessRt) : (s.modSess k f).staged = s.staged := rfl
@[simp] theorem State.modSess_snaps (s : State) (k : Nat) (f : SessRt → SessRt) : (s.modSess k f).snaps = s.snaps := rfl
@[simp] theorem State.modSess_axes (s : State) (k : Nat) (f : SessRt → SessRt) : (s.modSess k f).axes = s.axes := rfl
@[simp] theorem State.modSess_fbs (s : State) (k : Nat) (f : SessRt → SessRt) : (s.modSess k f).fbs = s.fbs := rfl
@[simp] theorem State.modSess_lats (s : State) (k : Nat) (f : SessRt → SessRt) : (s.modSess k f).lats = s.lats := rfl
@[simp] theorem State.modSess_cmps (s : State) (k : Nat) (f : SessRt → SessRt) : (s.modSess k f).cmps = s.cmps := rfl
@[simp] theorem State.modSess_msts (s : State) (k : Nat) (f : SessRt → SessRt) : (s.modSess k f).msts = s.msts := rfl
@[simp] theorem State.modSess_disp (s : State) (k : Nat) (f : SessRt → SessRt) : (s.modSess k f).disp = s.disp := rfl
@[simp] theorem State.modSess_engs (s : State) (k : Nat) (f : SessRt → SessRt) : (s.modSess k f).engs = s.engs := rfl
@[simp] theorem State.modSess_aces (s : State) (k : Nat) (f : SessRt → SessRt) : (s.modSess k f).aces = s.aces := rfl
@[simp] theorem State.modSess_shared (s : State) (k : Nat) (f : SessRt → SessRt) : (s.modSess k f).shared = s.shared := rfl
@[simp] theorem State.modSess_ucode (s : State) (k : Nat) (f : SessRt → SessRt) : (s.modSess k f).ucode = s.ucode := rfl
@[simp] theorem State.modSess_eps (s : State) (k : Nat) (f : SessRt → SessRt) : (s.modSess k f).eps = s.eps := rfl
@[simp] theorem State.modSess_field (s : State) (k : Nat) (f : SessRt → SessRt) : (s.modSess k f).field = s.field := rfl
@[simp] theorem State.modSess_time (s : State) (k : Nat) (f : SessRt → SessRt) : (s.modSess k f).time = s.time := rfl
@[simp] theorem State.modSess_obs (s : State) (k : Nat) (f : SessRt → SessRt) : (s.modSess k f).obs = s.obs := rfl
@[simp] theorem State.modSess_safe (s : State) (k : Nat) (f : SessRt → SessRt) : (s.modSess k f).safe = s.safe := rfl
@[simp] theorem State.modSess_debugger (s : State) (k : Nat) (f : SessRt → SessRt) : (s.modSess k f).debugger = s.debugger := rfl
@[simp] theorem State.modSess_benchUp (s : State) (k : Nat) (f : SessRt → SessRt) : (s.modSess k f).benchUp = s.benchUp := rfl
@[simp] theorem State.modSess_ports (s : State) (k : Nat) (f : SessRt → SessRt) : (s.modSess k f).ports = s.ports := rfl
@[simp] theorem State.modSess_rings (s : State) (k : Nat) (f : SessRt → SessRt) : (s.modSess k f).rings = s.rings := rfl
@[simp] theorem State.modSess_wks (s : State) (k : Nat) (f : SessRt → SessRt) : (s.modSess k f).wks = s.wks := rfl
@[simp] theorem State.modSess_hud (s : State) (k : Nat) (f : SessRt → SessRt) : (s.modSess k f).hud = s.hud := rfl
@[simp] theorem State.modSess_com (s : State) (k : Nat) (f : SessRt → SessRt) : (s.modSess k f).com = s.com := rfl
@[simp] theorem State.modSess_store (s : State) (k : Nat) (f : SessRt → SessRt) : (s.modSess k f).store = s.store := rfl
@[simp] theorem State.modSess_pair (s : State) (k : Nat) (f : SessRt → SessRt) : (s.modSess k f).pair = s.pair := rfl
@[simp] theorem State.modSess_boot (s : State) (k : Nat) (f : SessRt → SessRt) : (s.modSess k f).boot = s.boot := rfl
@[simp] theorem State.modSess_get (s : State) (k : Nat) (f : SessRt → SessRt) (o' : Obj) (i' j' k' : Nat) : (s.modSess k f).get o' i' j' k' = s.get o' i' j' k' := rfl
@[simp] theorem State.modSess_nat (s : State) (k : Nat) (f : SessRt → SessRt) (o' : Obj) (i' j' k' : Nat) : (s.modSess k f).nat o' i' j' k' = s.nat o' i' j' k' := rfl
@[simp] theorem State.modSess_flag (s : State) (k : Nat) (f : SessRt → SessRt) (o' : Obj) (i' j' k' : Nat) : (s.modSess k f).flag o' i' j' k' = s.flag o' i' j' k' := rfl
@[simp] theorem State.modSess_bytes (s : State) (k : Nat) (f : SessRt → SessRt) (o' : Obj) (i' j' k' : Nat) : (s.modSess k f).bytes o' i' j' k' = s.bytes o' i' j' k' := rfl
@[simp] theorem State.modSess_axis (s : State) (k : Nat) (f : SessRt → SessRt) (q : Nat) : (s.modSess k f).axis q = s.axis q := rfl
@[simp] theorem State.modSess_fbu (s : State) (k : Nat) (f : SessRt → SessRt) (q : Nat) : (s.modSess k f).fbu q = s.fbu q := rfl
@[simp] theorem State.modSess_latch (s : State) (k : Nat) (f : SessRt → SessRt) (q : Nat) : (s.modSess k f).latch q = s.latch q := rfl
@[simp] theorem State.modSess_cmp (s : State) (k : Nat) (f : SessRt → SessRt) (q : Nat) : (s.modSess k f).cmp q = s.cmp q := rfl
@[simp] theorem State.modSess_master (s : State) (k : Nat) (f : SessRt → SessRt) (q : Nat) : (s.modSess k f).master q = s.master q := rfl
@[simp] theorem State.modSess_eng (s : State) (k : Nat) (f : SessRt → SessRt) (q : Nat) : (s.modSess k f).eng q = s.eng q := rfl
@[simp] theorem State.modSess_ace (s : State) (k : Nat) (f : SessRt → SessRt) (q : Nat) : (s.modSess k f).ace q = s.ace q := rfl
@[simp] theorem State.modSess_ep (s : State) (k : Nat) (f : SessRt → SessRt) (q : Nat) : (s.modSess k f).ep q = s.ep q := rfl
@[simp] theorem State.modSess_port (s : State) (k : Nat) (f : SessRt → SessRt) (q : Nat) : (s.modSess k f).port q = s.port q := rfl
@[simp] theorem State.modSess_ring (s : State) (k : Nat) (f : SessRt → SessRt) (q : Nat) : (s.modSess k f).ring q = s.ring q := rfl
@[simp] theorem State.modSess_wk (s : State) (k : Nat) (f : SessRt → SessRt) (q q' : Nat) : (s.modSess k f).wk q q' = s.wk q q' := rfl

/-! ### State.setChan -/

@[simp] theorem State.setChan_pending (s : State) (c : Nat) (x : ChanRt) : (s.setChan c x).pending = s.pending := rfl
@[simp] theorem State.setChan_now (s : State) (c : Nat) (x : ChanRt) : (s.setChan c x).now = s.now := rfl
@[simp] theorem State.setChan_frac (s : State) (c : Nat) (x : ChanRt) : (s.setChan c x).frac = s.frac := rfl
@[simp] theorem State.setChan_free (s : State) (c : Nat) (x : ChanRt) : (s.setChan c x).free = s.free := rfl
@[simp] theorem State.setChan_out (s : State) (c : Nat) (x : ChanRt) : (s.setChan c x).out = s.out := rfl
@[simp] theorem State.setChan_od (s : State) (c : Nat) (x : ChanRt) : (s.setChan c x).od = s.od := rfl
@[simp] theorem State.setChan_staged (s : State) (c : Nat) (x : ChanRt) : (s.setChan c x).staged = s.staged := rfl
@[simp] theorem State.setChan_snaps (s : State) (c : Nat) (x : ChanRt) : (s.setChan c x).snaps = s.snaps := rfl
@[simp] theorem State.setChan_axes (s : State) (c : Nat) (x : ChanRt) : (s.setChan c x).axes = s.axes := rfl
@[simp] theorem State.setChan_fbs (s : State) (c : Nat) (x : ChanRt) : (s.setChan c x).fbs = s.fbs := rfl
@[simp] theorem State.setChan_lats (s : State) (c : Nat) (x : ChanRt) : (s.setChan c x).lats = s.lats := rfl
@[simp] theorem State.setChan_cmps (s : State) (c : Nat) (x : ChanRt) : (s.setChan c x).cmps = s.cmps := rfl
@[simp] theorem State.setChan_msts (s : State) (c : Nat) (x : ChanRt) : (s.setChan c x).msts = s.msts := rfl
@[simp] theorem State.setChan_disp (s : State) (c : Nat) (x : ChanRt) : (s.setChan c x).disp = s.disp := rfl
@[simp] theorem State.setChan_engs (s : State) (c : Nat) (x : ChanRt) : (s.setChan c x).engs = s.engs := rfl
@[simp] theorem State.setChan_aces (s : State) (c : Nat) (x : ChanRt) : (s.setChan c x).aces = s.aces := rfl
@[simp] theorem State.setChan_shared (s : State) (c : Nat) (x : ChanRt) : (s.setChan c x).shared = s.shared := rfl
@[simp] theorem State.setChan_ucode (s : State) (c : Nat) (x : ChanRt) : (s.setChan c x).ucode = s.ucode := rfl
@[simp] theorem State.setChan_eps (s : State) (c : Nat) (x : ChanRt) : (s.setChan c x).eps = s.eps := rfl
@[simp] theorem State.setChan_field (s : State) (c : Nat) (x : ChanRt) : (s.setChan c x).field = s.field := rfl
@[simp] theorem State.setChan_time (s : State) (c : Nat) (x : ChanRt) : (s.setChan c x).time = s.time := rfl
@[simp] theorem State.setChan_obs (s : State) (c : Nat) (x : ChanRt) : (s.setChan c x).obs = s.obs := rfl
@[simp] theorem State.setChan_safe (s : State) (c : Nat) (x : ChanRt) : (s.setChan c x).safe = s.safe := rfl
@[simp] theorem State.setChan_debugger (s : State) (c : Nat) (x : ChanRt) : (s.setChan c x).debugger = s.debugger := rfl
@[simp] theorem State.setChan_benchUp (s : State) (c : Nat) (x : ChanRt) : (s.setChan c x).benchUp = s.benchUp := rfl
@[simp] theorem State.setChan_ports (s : State) (c : Nat) (x : ChanRt) : (s.setChan c x).ports = s.ports := rfl
@[simp] theorem State.setChan_rings (s : State) (c : Nat) (x : ChanRt) : (s.setChan c x).rings = s.rings := rfl
@[simp] theorem State.setChan_wks (s : State) (c : Nat) (x : ChanRt) : (s.setChan c x).wks = s.wks := rfl
@[simp] theorem State.setChan_hud (s : State) (c : Nat) (x : ChanRt) : (s.setChan c x).hud = s.hud := rfl
@[simp] theorem State.setChan_com (s : State) (c : Nat) (x : ChanRt) : (s.setChan c x).com = s.com := rfl
@[simp] theorem State.setChan_store (s : State) (c : Nat) (x : ChanRt) : (s.setChan c x).store = s.store := rfl
@[simp] theorem State.setChan_pair (s : State) (c : Nat) (x : ChanRt) : (s.setChan c x).pair = s.pair := rfl
@[simp] theorem State.setChan_boot (s : State) (c : Nat) (x : ChanRt) : (s.setChan c x).boot = s.boot := rfl
@[simp] theorem State.setChan_get (s : State) (c : Nat) (x : ChanRt) (o' : Obj) (i' j' k' : Nat) : (s.setChan c x).get o' i' j' k' = s.get o' i' j' k' := rfl
@[simp] theorem State.setChan_nat (s : State) (c : Nat) (x : ChanRt) (o' : Obj) (i' j' k' : Nat) : (s.setChan c x).nat o' i' j' k' = s.nat o' i' j' k' := rfl
@[simp] theorem State.setChan_flag (s : State) (c : Nat) (x : ChanRt) (o' : Obj) (i' j' k' : Nat) : (s.setChan c x).flag o' i' j' k' = s.flag o' i' j' k' := rfl
@[simp] theorem State.setChan_bytes (s : State) (c : Nat) (x : ChanRt) (o' : Obj) (i' j' k' : Nat) : (s.setChan c x).bytes o' i' j' k' = s.bytes o' i' j' k' := rfl
@[simp] theorem State.setChan_axis (s : State) (c : Nat) (x : ChanRt) (q : Nat) : (s.setChan c x).axis q = s.axis q := rfl
@[simp] theorem State.setChan_fbu (s : State) (c : Nat) (x : ChanRt) (q : Nat) : (s.setChan c x).fbu q = s.fbu q := rfl
@[simp] theorem State.setChan_latch (s : State) (c : Nat) (x : ChanRt) (q : Nat) : (s.setChan c x).latch q = s.latch q := rfl
@[simp] theorem State.setChan_cmp (s : State) (c : Nat) (x : ChanRt) (q : Nat) : (s.setChan c x).cmp q = s.cmp q := rfl
@[simp] theorem State.setChan_master (s : State) (c : Nat) (x : ChanRt) (q : Nat) : (s.setChan c x).master q = s.master q := rfl
@[simp] theorem State.setChan_eng (s : State) (c : Nat) (x : ChanRt) (q : Nat) : (s.setChan c x).eng q = s.eng q := rfl
@[simp] theorem State.setChan_ace (s : State) (c : Nat) (x : ChanRt) (q : Nat) : (s.setChan c x).ace q = s.ace q := rfl
@[simp] theorem State.setChan_ep (s : State) (c : Nat) (x : ChanRt) (q : Nat) : (s.setChan c x).ep q = s.ep q := rfl
@[simp] theorem State.setChan_port (s : State) (c : Nat) (x : ChanRt) (q : Nat) : (s.setChan c x).port q = s.port q := rfl
@[simp] theorem State.setChan_ring (s : State) (c : Nat) (x : ChanRt) (q : Nat) : (s.setChan c x).ring q = s.ring q := rfl
@[simp] theorem State.setChan_wk (s : State) (c : Nat) (x : ChanRt) (q q' : Nat) : (s.setChan c x).wk q q' = s.wk q q' := rfl

end Sys2Proof.Machine
end

