-- ==== Sys2Proof/Laws/Image.lean ====
section
/-! SUPPORT. The octets of a stored image: how many there are, and what stands among its records (R126, R127). -/

namespace Sys2Proof.Machine
open Sys2Proof

/-- Little-endian octets of a number. -/
@[simp] theorem leBytes_length (n v : Nat) : (leBytes n v).length = n := by
  induction n generalizing v with
  | zero => rfl
  | succ n ih => simp [leBytes, ih]

/-- A stored record fills eight octets, its value and at most three of padding (Table 05-8). -/
theorem storedRecord_length (o : Obj) (key : Nat) (v : Val) :
    (storedRecord o key v).length = 8 + (valBytes o.ty v).length + (4 - (valBytes o.ty v).length % 4) % 4 := by
  simp only [storedRecord, List.length_append, leBytes_length, List.length_replicate]

/-- The octets of a number are as many as its type has. -/
theorem valBytes_num_length (ty : Ty) (x : Int) : (valBytes ty (.num x)).length ≤ 10 := by
  cases ty <;> simp [valBytes, leBytes_length, Ty.size]

/-- Records that fill at most `m` octets each fill at most `m` times their number. -/
theorem imageBytes_length_le (l : SMap Val) (m : Nat) (h : ∀ e ∈ l, ∀ o, (storedRecord o e.1 e.2).length ≤ m) :
    (imageBytes l).length ≤ l.length * m := by
  induction l with
  | nil => simp [imageBytes]
  | cons e t ih =>
    have ht := ih fun x hx => h x (by simp [hx])
    have h0 := h e (by simp)
    simp only [imageBytes, List.flatMap_cons, List.length_append, List.length_cons, Nat.add_mul, Nat.one_mul] at ht ⊢
    rcases rowOf e.1 with _ | o
    · simp only [List.length_nil]; omega
    · have := h0 o; simp only; omega

/-- A record of the image is part of its octets. -/
theorem length_le_imageBytes (l : SMap Val) (e : Nat × Val) (o : Obj) (he : e ∈ l) (ho : rowOf e.1 = some o) :
    (valBytes o.ty e.2).length ≤ (imageBytes l).length := by
  induction l with
  | nil => simp at he
  | cons x t ih =>
    simp only [imageBytes, List.flatMap_cons, List.length_append] at ih ⊢
    rcases List.mem_cons.1 he with rfl | ht
    · simp only [ho, storedRecord_length]; omega
    · have := ih ht; omega

/-- A row has as many keys as instances. -/
theorem Obj.keys_length (o : Obj) : o.keys.length = o.n1 * (o.n2 * o.subn) := by
  simp [Obj.keys, List.length_flatMap]

/-- The stored records are as many as the stored rows have instances. -/
theorem storedRecords_length (s : State) :
    (storedRecords s).length = ((catalogue.filter fun o => decide (o.org = .stored)).map fun o => o.n1 * (o.n2 * o.subn)).sum := by
  simp [storedRecords, keysWhere, List.length_mergeSort, List.length_flatMap, Obj.keys_length]

/-- A stored row's keys all stand among the records. -/
theorem mem_storedRecords (s : State) (o : Obj) (key : Nat) (ho : o ∈ catalogue) (hs : o.org = .stored) (hk : key ∈ o.keys) :
    (key, valueAt s o key) ∈ storedRecords s := by
  simp only [storedRecords, keysWhere, List.mem_map, List.mem_mergeSort, List.mem_flatMap, List.mem_filter]
  exact ⟨(key, o), ⟨o, ⟨ho, by simp [hs]⟩, key, hk, rfl⟩, rfl⟩

/-- The stored objects of the catalogue, with all their instances. -/
theorem stored_total : ((catalogue.filter fun o => decide (o.org = .stored)).map fun o => o.n1 * (o.n2 * o.subn)).sum = 48855 := by
  decide +kernel

end Sys2Proof.Machine
end

