-- ==== Sys2Proof/Tests/Slice0.lean ====
section
/-! SUPPORT. Tests: well-formedness, single steps, and for every statement with premises concrete states and operands that meet them, clause by clause. -/

namespace Sys2Proof.Tests
open Sys2Proof Sys2Proof.Machine

/-! The theorems of this file are checked one after the other. -/

section
set_option Elab.async false

/-- The block at reset. -/
def atReset : State := State.reset

/-- A configured unit that runs its image. -/
def running : State := { State.reset with boot := { configured := true, running := some 0 } }

/-- An axis in a state of its state machine. -/
def withAxisState (s : State) (a : Nat) (x : AxState) : State := s.modMot a fun m => { m with state := x }

/-- A ring in PLAY. -/
def playing (s : State) (r : Nat) : State := (s.set Ob.Ring.STATE 5 r).modRing r fun q => { q with txOn := true }

/-- Axis `a` at local port `p`. -/
def withLocalAxis (s : State) (a p : Nat) : State := ((s.set Ob.Map.RING 0xFE a).set Ob.Map.LOCAL_PORT p a).set Ob.Port.FUNCTION 1 p

/-- Session `k` open. -/
def opened (s : State) (k : Nat) : State :=
  ((s.set Ob.Sess.STATE 1 k).set Ob.Poss.SESSION_COUNT 1).setSess k { token := 9, h := 4, openedAt := 1 }

/-- ACE 2 with values in its registers. -/
def aceLoaded (s : State) : State := s.modAce 2 fun x => { x with g := [(1, 0x7000000012345678), (2, 0x8000000000000005), (3, 7)], p := [(1, 0x40), (2, 0x80)], m := [(1, 16), (2, 0xFFFFFFF8)], acc := [(0, 5), (1, 7)], accSeen := [(0, 2 ^ 70), (1, 7)] }

/-- ACE 2 in user mode. -/
def aceInUser (s : State) : State := s.modAce 2 fun x => { x with status := 0x1C0 }

/-- An item of axis or flow `flow`. -/
def itemOf (prio flow : Nat) : Item := ⟨prio, flow, 0, 7, 1000, 1500, 0xFF, 0, none⟩

/-- The run of an item. -/
def runOfItem (i : Item) (s : State) : RunRt := ⟨i, 100, 50, s.axis i.flow, none⟩

/-- The result of a run that leaves its axis. -/
def resultOf (s : State) (a : Nat) : ItemResult := { ax := s.axis a, writes := [], evs := [], halt := false }

/-- The dispatcher changed. -/
def modDisp (s : State) (f : DispRt → DispRt) : State := { s with disp := f s.disp }

/-- Axis `a` waiting for its item of cycle 7. -/
def waitingAxis (a : Nat) : State := ((withLocalAxis running a 0).modRing 0 fun q => { q with cycle := 7, tw := 1000000, open_ := true, tc := 250000 }).modAxis a fun x => { x with waiting := some 7 }

/-- A returned header. -/
def backBytes (len cyc : Nat) (rest : List Byte) : List Byte := List.replicate 4 0 ++ leBytes 4 cyc ++ List.replicate 8 0 ++ leBytes 2 len ++ List.replicate 6 0 ++ leBytes 8 0 ++ rest

/-- A sent frame. -/
def frameOf (r cyc len : Nat) : RallyFrame := ⟨r, 0, 0, 0, cyc, 0, len, 0, 0, 0, [], []⟩

/-- Ring `r` in PLAY with an open cycle and its frame under way. -/
def sent (s : State) (r : Nat) : State := (playing s r).modRing r fun q => { q with open_ := true, tw := 312500, cycle := 10, tc := 31250, tx := some (frameOf r 10 192), txAt := 313000 }

/-- Two workers on ring `r`. -/
def worker1 (s : State) (r : Nat) : State := ((s.set Ob.Ring.WORKER_COUNT 2 r).set Ob.Wk.CHANNEL_LAYOUTS 1 r 1).set Ob.Wk.CHANNEL_LAYOUTS 1 r 2

/-- Axis `a` at worker `p` of ring `r`. -/
def onR (s : State) (a r p : Nat) : State := ((s.set Ob.Map.RING r a).set Ob.Map.WORKER p a).set Ob.Map.CHANNEL 0 a

/-- Identity of a module. -/
def sfp : List Byte := List.replicate 256 31

/-- A huddle announced on ring 1. -/
def inHuddle (s : State) : State := { s with hud := { active := true, mask := 2, targets := [0, 1, 0, 0], cstar := 625000, tJ := 590000, decided := 0, landed := 2, attend := [0, 3, 0, 0], ack := [0, 3, 0, 0] } }

/-- The commit changed. -/
def modCom (s : State) (f : CommitRt → CommitRt) : State := { s with com := f s.com }

/-- A boot image signed with `signingKey` (R423). -/
def signedImage : List Byte := leBytes 272 0x70707070707070707070707070707070000000000000000000000000000000000000000000000000000000000000000000000000000000000000000000000000000000000000000000000000000000000000000000000000000000000000000000000000000000000000000000000000000000000000000000000000000000000000000000000000000000000000000a2c88a63b0ee1d9995b374d824ac2cb50a10b24bb7edf8fdcfdb9ec748e6cf4578996647fc480ba6351bf277e26989c0c31ab5040338528a7e4f038d187bf27c65cd3b9b78596f36c77fa3f1135cf8d188ed7843927cf6155a4a2aaf06d461d70000000000000000000000000000001000009256000000050001010047494d47

/-- A key of the boot ROM. -/
def signingKey : BootKey := { slot := 0, x := 0x6b17d1f2e12c4247f8bce6e563a440f277037d812deb33a0f4a13945d898c296, y := 0x4fe342e2fe1a7f9b8ee7eb4a7c0f9e162bce33576b315ececbb6406837bf51f5, hash := leBytes 32 0x9f0db5cbf5eed6fe24dff4d80f5d2f14803ebbb0c638c7ae362223ef7ddb75d8 }

/-- A snapshot. -/
def oneSnapshot : Snapshot := { id := 4, time := 10, cycles := [1, 2, 3, 4], values := [(Ob.Poss.ELECTION_HOLD.key, .num 77)] }

/-- A PCIe channel changed. -/
def modChan (s : State) (c : Nat) (f : ChanRt → ChanRt) : State := s.setChan c (f (s.chan c))

/-- A request in channel memory. -/
def channelMessage : Mem := Mem.writeBytes [] 0 [0x4C, 0x4E, 1, 2, 0, 2, 5, 0, 0, 0, 0, 0, 9, 0, 0, 0]

/-- The field side changed. -/
def modFld (s : State) (f : FieldRt → FieldRt) : State := s.modField f

/-- A field output outside the safe state. -/
def withOutput (s : State) (q : Nat) (x : FieldOut) : State := modFld s fun f => { f with safe := false, outs := SMap.put f.outs q x }

/-- A port in PWM_DIRECT. -/
def pwm (p : Nat) : State := running.set Ob.Port.FUNCTION 2 p

/-- A port changed. -/
def modPrt (s : State) (p : Nat) (f : PortRt → PortRt) : State := s.setPort p (f (s.port p))

/-- The period start due. -/
def dueStart (s : State) (p t : Nat) : Nat := (periodDue (s.at t) p t).getD 0

/-- A constant bit stream. -/
def bitsA : List Bool := List.replicate 200 true

/-- An alternating bit stream. -/
def bitsB : List Bool := (List.range 200).map fun k => decide (k % 2 = 0)

/-- Its sums. -/
def sincOf (s : State) (p : Nat) (l : List Bool) : List Nat := sinc3 (s.nat Ob.Sd.OC_OSR p) l

/-- A step output under way. -/
def stepOutput : State := modPrt (running.set Ob.Port.FUNCTION 3 2) 2 fun q => { q with step := { rPrev := 0, rTgt := 65536 * 2, tFrom := 0, tTo := 1000, primed := true, driveEn := true, dir := true } }

/-- 0.1 as F32. -/
def oneTenth : Int := 0x3DCCCCCD

/-- A feedback unit in a mode. -/
def encoderIn (s : State) (u : Nat) (m : Int) : State := s.set Ob.Fb.MODE m (fbIx u)

/-- Its quadrature changed. -/
def modQuad (s : State) (u : Nat) (f : QuadSt → QuadSt) : State := s.setFbu u { s.fbu u with quad := f (s.fbu u).quad }

/-- Its absolute side changed. -/
def modAbs (s : State) (u : Nat) (f : AbsSt → AbsSt) : State := s.setFbu u { s.fbu u with abs := f (s.fbu u).abs }

/-- A word received and its check. -/
def absWord (s : State) (l : List Bool) : Nat × Nat := absDecode s 2 false l

/-- Unit 2 with a request open. -/
def absAsked : State := modAbs (encoderIn running 2 2) 2 fun x => { x with req := 1 }

/-- Latch unit 1 changed. -/
def modLatch (s : State) (f : LatchRt → LatchRt) : State := s.setLatch 1 (f (s.latch 1))

/-- Compare unit 2 changed. -/
def modCmp (s : State) (f : CmpRt → CmpRt) : State := s.setCmp 2 (f (s.cmp 2))

/-- Pulse channel 1 changed. -/
def modTtp (s : State) (f : TtpRt → TtpRt) : State := s.setTtp 1 (f (s.ttp 1))

/-- Pulse channel 1 with a pulse to come. -/
def pulseSet : State := (running.set Ob.Ttp.WIDTH 5000 1).set Ob.Ttp.START 90000 1

/-- The island changed. -/
def modSaf (s : State) (f : SafeRt → SafeRt) : State := s.modSafe f

/-- The referee in a state. -/
def refereeIn (s : State) (v : Int) : State := s.set Ob.Isl.RF_STATE v

/-- Safety input 1 set. -/
def withSi (s : State) (x : SiRt) : State := modSaf s fun f => { f with si := SMap.put f.si 1 x }

/-- The brake of axis 3 set. -/
def withSbc (s : State) (x : SbcRt) : State := modSaf s fun f => { f with sbc := SMap.put f.sbc 3 x }

/-- A field input at a level. -/
def inputLevel (s : State) (i : Nat) (v : Bool) : State := modFld s fun f => { f with fi := setBit f.fi i v, ins := SMap.put f.ins i { level := v } }

/-- A wrong password. -/
def wrongPassword : List Byte := List.replicate 9 65

/-- Pairing enabled. -/
def pairOn (s : State) : State := s.set Ob.PairC.PAIR_ENABLE 1

/-- A unit in a role and a pairing state. -/
def pairIn (s : State) (ro st : Int) : State := ((pairOn s).set Ob.Pair.ROLE ro).set Ob.Pair.PAIR_STATE st

/-- The pair changed. -/
def modPr (s : State) (f : PairRt → PairRt) : State := s.modPair f

/-- A digest of ring 0, cycle 5. -/
def digestB : List Byte := let h : List Byte := (List.replicate 4 0) ++ [5, 0, 0, 0] ++ List.replicate 20 3; h ++ leBytes 4 (crc32c h)

/-- Another of the same cycle. -/
def digestC : List Byte := let h : List Byte := (List.replicate 4 0) ++ [5, 0, 0, 0] ++ [4] ++ List.replicate 19 3; h ++ leBytes 4 (crc32c h)

/-- The capture changed. -/
def modCap (s : State) (f : CapRt → CapRt) : State := s.modObs fun o => { o with cap := f o.cap }


/-! ### Well-formed commands -/

/-- Slot of an ACE that is not there. -/
def badAce : AceAt := { eng := 8, pr := 0, pn := false, last := true }

/-- Slot of ACE 2, the last of its bundle. -/
def goodAce : AceAt := { eng := 2, pr := 0, pn := false, last := true }

/-- A request over a transport that is not there. -/
def badReq : Req := { via := 6, own := true, peer := 1, sess := 0, seqNo := 0, token := 0, body := [] }

/-- A request over H1. -/
def goodReq : Req := { via := 0, own := true, peer := 1, sess := 0, seqNo := 0, token := 0, body := [] }

/-- One command outside its ranges for each check over rings, positions, axes, units, transports and the like: the check refuses it. -/
theorem test_ill_formed_refused :
    [Instr.whistle 4 [] 0, .sampleRegionLanded 0 0 true [] 0, .sampleRegionLanded 0 65 true [] 0, .overrun 256 0, .itemDispatch 8 0, .discrepancy 4 0,
     .frameReturned 0 3 0 [] 0, .chCtrlGo 4 0 0, .commitMsg badReq 0, .arpRequest 2 0 0 0 0, .hostOpen badReq 0, .commitObject 16 0,
     .unknownOpcode 2 goodReq 0, .unknownOpcode 256 goodReq 0, .timerTrigger 0 4 none 0, .outCtrlGo 15 0 0, .registerWrite 0 2 0 0].all (fun x => !x.wellFormed) = true := by
  decide +kernel

/-- The same over inputs, outputs, phases, causes and numbers of records. -/
theorem test_ill_formed_events_refused :
    [Instr.inputOpen 24 0, .outAck 16 0, .outputShort 0 (some 16) 0 0, .sdValid 0 3 [] 0, .clearFault 12 0, .coreFault 1 0, .aceInterruptEntry 0 3 0, .aceException 0 0 0,
     .pmcOverflow 0 8 0, .pmcCfg 12 0 0 0, .watchdog 2 false 0, .railFault 9 0 false 0, .tcForward 5 0 0 0 0 0, .pairRequest 0 0 0 0].all (fun x => !x.wellFormed) = true := by
  decide +kernel

/-- The same over the fields of an ACE's operations. -/
theorem test_ill_formed_operations_refused :
    [Instr.aceMnop badAce, .aceMnop { goodAce with pn := true }, .aceAdd goodAce 32 0 0, .aceLd2D goodAce 16 0 0 0 0, .aceLdD goodAce 0 8 0 0, .aceCmp goodAce 8 0 0 0,
     .aceMtr goodAce 32 0, .aceClra goodAce 4, .aceShl goodAce 0 0 64, .aceExtD goodAce 0 0 128, .aceCmp goodAce 0 0 0 6, .aceLdi goodAce 0 (2 ^ 25) none,
     .aceLdi goodAce 0 0 (some (2 ^ 39)), .aceAddi goodAce 0 0 524288, .aceBr goodAce (-8388609), .aceLdD goodAce 0 0 0 512, .aceLd2D goodAce 0 0 8 0 0, .aceLdD goodAce 0 0 3 0,
     .aceRep goodAce true 0 65536 1, .aceRep goodAce true 0 0 0].all (fun x => !x.wellFormed) = true := by
  decide +kernel

/-- Commands inside their ranges are taken. -/
theorem test_well_formed_taken :
    [Instr.whistle 3 [] 0, .sampleRegionLanded 0 64 true [] 0, .overrun 255 0, .hostOpen goodReq 0, .unknownOpcode 3 goodReq 0, .aceRep goodAce true 31 65535 255,
     .aceLdD goodAce 31 7 2 (-512)].all (fun x => x.wellFormed) = true := by
  decide +kernel

/-! ### Single steps -/

/-- What a step answers next, tested. -/
def nextIs (o : Host.Outcome State Fault Refusal) (f : State → Bool) : Bool :=
  match o with
  | .next t => f t
  | _ => false

/-- The clock of an idle block counts one nanosecond (R79). -/
theorem test_idle_counts : nextIs (step State.reset) (fun t => decide (t.now = 1)) = true := by decide +kernel

/-- The command at the front is taken, the rest waits. -/
theorem test_front_taken :
    nextIs (step { running with pending := [.discard 5, .axisStop 1 9] }) (fun t => decide (t.pending = [.axisStop 1 9] ∧ t.now = 5)) = true := by decide +kernel

/-- SAMPLE_PERIOD below 4 096 is refused with RANGE (R407). -/
theorem test_sample_period_range : nextIs (exec (.samplePeriod 0 4095 1) running) (fun t => decide (t.out.head? = some (.reply 0xFF 0 stRange []))) = true := by
  decide +kernel

/-- ARM during a capture answers BUSY (R415). -/
theorem test_capture_busy : nextIs (exec (.captureArm true 1) (running.set Ob.Capt.STATE 2)) (fun t => decide (t.out.head? = some (.reply 0xFF 0 stBusy []))) = true := by
  decide +kernel

/-- LOAD_ALL_MASK 0 is out of range (R298). -/
theorem test_load_mask_range : nextIs (exec (.loadAllMask 0 1) running) (fun t => decide (t.out.head? = some (.reply 0xFF 0 stRange []))) = true := by
  decide +kernel

/-- A KICKOFF of a ring whose port holds no module fails in LINK with MEDIA (R48, R66). -/
theorem test_kickoff_no_module :
    nextIs (exec (.kickoff 0 [] 10) (running.set Ob.Ring.ENABLE 1 0)) (fun t => decide (t.get Ob.Ring.STATE 0 = 6 ∧ t.get Ob.Ring.FAIL_REASON 0 = 2)) = true := by
  decide +kernel

/-- In a unit that is off a command moves time and nothing else (R15). -/
theorem test_off_unit : nextIs (exec (.loadAllMask 0 7) (running.modBoot fun b => { b with off := true })) (fun t => decide (t.now = 7 ∧ t.out = [])) = true := by
  decide +kernel

/-- Signed 64-bit addition wraps: 0x7000000012345678 + 0x8000000000000005 (Table 10-8, R264), one bundle later. -/
theorem test_add_lands :
    nextIs (exec (.aceAdd goodAce 4 1 2) (aceLoaded State.reset)) (fun t => nextIs (exec (.aceMnop goodAce) t) (fun u => decide ((u.ace 2).gR 4 = 0xF00000001234567D))) = true := by
  decide +kernel

/-! ### The premises of the statements -/

/-- The premises of StepRunsTheFrontCommand, clause by clause. -/
theorem witness_StepRunsTheFrontCommand :
    (let s : State := atReset
     s.boot.off = false ∧ s.boot.standby = false ∧ s.boot.held = 0 ∧ s.get Ob.Clk.RATE_ADJ = 0 ∧ s.frac = 0) ∧
    (let s : State := atReset.modBoot fun b => { b with held := 1 }
     s.boot.held ≠ 0) := by
  refine ⟨?_, ?_⟩ <;> decide +kernel

/-- The premises of RequestsOfNoOpenSessionAnswerLeaseExpired, clause by clause. -/
theorem witness_RequestsOfNoOpenSessionAnswerLeaseExpired :
    (let s : State := running
     let q : Req := { via := 0, own := true, peer := 77, sess := 2, seqNo := 5, token := 9, body := [3, 0, 0, 0] }
     let t : Nat := 100
     let op : Nat := 0x55
     listens (s.at t) q.toPath = true ∧ (sessOpen s q.sess = false ∨ (s.sess q.sess).token ≠ q.token) ∧ op ≠ 1) := by
  decide +kernel

/-- The premises of ClaimsAreSetWithdrawnAndWait, clause by clause. -/
theorem witness_ClaimsAreSetWithdrawnAndWait :
    (let s : State := opened running 2
     let q : Req := { via := 0, own := true, peer := 77, sess := 2, seqNo := 5, token := 9, body := [3, 0, 0, 0] }
     let t : Nat := 100
     let n := leAt q.body 0 1
     NewRequest (s.at t) q ∧ 4 ≤ q.body.length ∧ isCaptain s q.sess = false ∧ 1 ≤ n ∧ n ≤ 15) ∧
    (let s : State := opened running 2
     let q : Req := { via := 0, own := true, peer := 77, sess := 2, seqNo := 5, token := 9, body := [0, 0, 0, 0] }
     let t : Nat := 100
     let n := leAt q.body 0 1
     NewRequest (s.at t) q ∧ 4 ≤ q.body.length ∧ isCaptain s q.sess = false ∧ n = 0) ∧
    (let s : State := (opened running 2).set Ob.Poss.CAPTAIN 2
     let q : Req := { via := 0, own := true, peer := 77, sess := 2, seqNo := 5, token := 9, body := [3, 0, 0, 0] }
     let t : Nat := 100
     let n := leAt q.body 0 1
     NewRequest (s.at t) q ∧ 4 ≤ q.body.length ∧ isCaptain s q.sess = true ∧ n ≤ 15) := by
  refine ⟨?_, ?_, ?_⟩ <;> decide +kernel

/-- The premises of AcknowledgementsTakePendingMessages, clause by clause. -/
theorem witness_AcknowledgementsTakePendingMessages :
    (let s : State := (atReset.modEp 6 fun e => { e with pending := 2 }).modEp 1 fun e => { e with post := some { dest := 6, remote := 0, deadline := 1000 } }
     let x : Nat := 6
     let k : Nat := 1
     let p : PostSt := { dest := 6, remote := 0, deadline := 1000 }
     unitRuns s = true ∧ k < 14 ∧ bit (s.ep x).pending k = true ∧ bit (s.ep x).orphan k = false ∧ (s.ep k).post = some p ∧ p.dest = x) ∧
    (let s : State := (atReset.modEp 6 fun e => { e with pending := 2, orphan := 2 }).modEp 1 fun e => { e with post := some { dest := 6, remote := 0, deadline := 1000 } }
     let x : Nat := 6
     let k : Nat := 1
     unitRuns s = true ∧ k < 14 ∧ bit (s.ep x).pending k = true ∧ bit (s.ep x).orphan k = true) ∧
    (let s : State := atReset
     let x : Nat := 6
     let k : Nat := 3
     unitRuns s = true ∧ k < 14 ∧ bit (s.ep x).pending k = false) := by
  refine ⟨?_, ?_, ?_⟩ <;> decide +kernel

/-- The premises of AluOperationsEnterTheirResults, clause by clause. -/
theorem witness_AluOperationsEnterTheirResults :
    (let s : State := aceLoaded atReset
     let i : AceAt := { eng := 2, pr := 0, pn := false, last := true }
     OpExecutes i s) ∧
    (let s : State := aceLoaded atReset
     let i : AceAt := { eng := 2, pr := 0, pn := false, last := true }
     OpExecutes i s) := by
  refine ⟨?_, ?_⟩ <;> decide +kernel

/-- The premises of ComparesMovesAndNoOperations, clause by clause. -/
theorem witness_ComparesMovesAndNoOperations :
    (let s : State := aceLoaded atReset
     let i : AceAt := { eng := 2, pr := 0, pn := false, last := true }
     let n : Nat := 3
     let x := s.ace i.eng
     OpExecutes i s ∧ n < 8 ∧ n < 20 ∧ (2 < n ∨ x.user = false) ∧ (n < 11 ∨ x.user = false ∨ userRead s x = true)) ∧
    (let s : State := aceInUser (aceLoaded atReset)
     let i : AceAt := { eng := 2, pr := 0, pn := false, last := true }
     let n : Nat := 12
     let x := s.ace i.eng
     OpExecutes i s ∧ 11 ≤ n ∧ n < 20 ∧ x.user = true ∧ userRead s x = false) ∧
    (let s : State := aceLoaded atReset
     let i : AceAt := { eng := 2, pr := 1, pn := false, last := true }
     unitRuns s = true ∧ (s.ace i.eng).powered = true ∧ (s.ace i.eng).halted = false ∧ (s.ace i.eng).exc = none ∧ (i.pr ≠ 0 ∨ i.pn = false) ∧ i.pr ≠ 0 ∧ (s.ace i.eng).pred i.pr = i.pn) := by
  refine ⟨?_, ?_, ?_⟩ <;> decide +kernel

/-- The premises of AccumulatorsAndExtractionsRoundAndSaturate, clause by clause. -/
theorem witness_AccumulatorsAndExtractionsRoundAndSaturate :
    (let s : State := aceLoaded atReset
     let i : AceAt := { eng := 2, pr := 0, pn := false, last := true }
     let k : Nat := 0
     let a : Nat := 1
     let sh : Nat := 5
     let x := s.ace i.eng
     let shifted := (x.gR a).toInt * 2 ^ sh
     OpExecutes i s ∧ sh ≤ 63 ∧ sat 96 shifted = shifted ∧ k % 2 = 0) ∧
    (let s : State := aceLoaded atReset
     let i : AceAt := { eng := 2, pr := 0, pn := false, last := true }
     let k : Nat := 0
     let r : Nat := 3
     let sh : Nat := 7
     let x := s.ace i.eng
     OpExecutes i s ∧ sh ≤ 95 ∧ (x.gR r).toNat % 128 = sh ∧ k % 2 = 0) := by
  refine ⟨?_, ?_⟩ <;> decide +kernel

/-- The premises of LoadsAndAddressing, clause by clause. -/
theorem witness_LoadsAndAddressing :
    (let s : State := aceLoaded atReset
     let i : AceAt := { eng := 2, pr := 0, pn := false, last := true }
     OpExecutes i s) := by
  decide +kernel

/-- The premises of StoresPairsAndPointers, clause by clause. -/
theorem witness_StoresPairsAndPointers :
    (let s : State := aceLoaded atReset
     let i : AceAt := { eng := 2, pr := 0, pn := false, last := true }
     let pa : Nat := 1
     let pb : Nat := 2
     let oa : Int := 2
     let ob : Int := 2
     let x := s.ace i.eng
     let a := lowBits 32 ((x.pR pa).toNat + 8 * oa)
     let b := lowBits 32 ((x.pR pb).toNat + 8 * ob)
     OpExecutes i s ∧ accessOk s i.eng a 8 true = true ∧ accessOk s i.eng b 8 true = true ∧ accessOk s i.eng a 8 false = true ∧ accessOk s i.eng b 8 false = true) ∧
    (let s : State := aceLoaded atReset
     let i : AceAt := { eng := 2, pr := 0, pn := false, last := true }
     let pa : Nat := 1
     let pb : Nat := 2
     let pn : Nat := 1
     let x := s.ace i.eng
     let a := (x.pR pa).toNat
     let b := (x.pR pb).toNat
     OpExecutes i s ∧ bits (x.lR pa).toNat 30 2 = 0 ∧ bits (x.lR pb).toNat 30 2 = 0 ∧ accessOk s i.eng a 8 false = true ∧ accessOk s i.eng b 8 true = true ∧ bits (x.lR pn).toNat 30 2 = 0) := by
  refine ⟨?_, ?_⟩ <;> decide +kernel

/-- The premises of StoresWriteTheirBytesAndNoOthers, clause by clause. -/
theorem witness_StoresWriteTheirBytesAndNoOthers :
    (let s : State := aceLoaded atReset
     let e : Nat := 2
     let g : Nat := 1
     let pn : Nat := 1
     let off : Int := 2
     let w : Nat := 8
     let c : Instr := .aceStD { eng := 2, pr := 0, pn := false, last := true } 1 1 0 2
     let a := lowBits 32 (((s.ace e).pR pn).toNat + off * w)
     ((w = 8 ∧ c = .aceStD ⟨e, 0, false, true⟩ g pn 0 off) ∨ (w = 4 ∧ c = .aceStW ⟨e, 0, false, true⟩ g pn 0 off) ∨
      (w = 2 ∧ c = .aceStH ⟨e, 0, false, true⟩ g pn 0 off)) ∧ OpExecutes ⟨e, 0, false, true⟩ s ∧ (s.ace e).fly = [] ∧ (s.ace e).branch = none ∧ (s.ace e).user = false ∧ (s.ace e).depth = 0 ∧ Mem.wf (s.ace e).mem = true ∧ accessOk s e a w true = true) := by
  decide +kernel

/-- The premises of AluResultsLandAtTheEndOfTheirBundle, clause by clause. -/
theorem witness_AluResultsLandAtTheEndOfTheirBundle :
    (let s : State := aceLoaded atReset
     let e : Nat := 2
     OpExecutes ⟨e, 0, false, true⟩ s ∧ (s.ace e).fly = [] ∧ (s.ace e).branch = none ∧ (s.ace e).user = false ∧ (s.ace e).depth = 0) := by
  decide +kernel

/-- The premises of BranchesRepeatsAndBreakpoints, clause by clause. -/
theorem witness_BranchesRepeatsAndBreakpoints :
    (let s : State := aceLoaded atReset
     let i : AceAt := { eng := 2, pr := 0, pn := false, last := true }
     let x := s.ace i.eng
     OpExecutes i s ∧ x.branch = none ∧ x.depth = 0 ∧ x.call = none ∧ x.user = false ∧ i.pr = 0) ∧
    (let s : State := aceLoaded atReset
     let i : AceAt := { eng := 2, pr := 0, pn := false, last := true }
     let a : Nat := 3
     let cnt : Nat := 7
     let len : Nat := 4
     let x := s.ace i.eng
     OpExecutes i s ∧ x.branch = none ∧ x.depth = 0 ∧ 0 < len ∧ i.pr = 0 ∧ 0 < cnt ∧ (x.gR a).toNat % 2 ^ 16 = cnt ∧ s.debugger = false) ∧
    (let s : State := { aceLoaded atReset with debugger := true }
     let i : AceAt := { eng := 2, pr := 0, pn := false, last := true }
     OpExecutes i s ∧ s.debugger = true) := by
  refine ⟨?_, ?_, ?_⟩ <;> decide +kernel

/-- The premises of SharedWindowAndPrivilege, clause by clause. -/
theorem witness_SharedWindowAndPrivilege :
    (let s : State := (aceLoaded atReset).modAce 2 fun x => { x with p := [(1, 0x1000000)], xld := [⟨0x1000008, 4⟩] }
     let i : AceAt := { eng := 2, pr := 0, pn := false, last := false }
     let pn : Nat := 1
     let off : Int := 2
     let d : Nat := 4
     let at_ : Nat := 0x1000008
     let x := s.ace i.eng
     let a := lowBits 32 ((x.pR pn).toNat + off * 8)
     OpExecutes i s ∧ x.user = false ∧ x.xld.length < 4 ∧ sharedOk a = true ∧ x.sbuf.length < 64 ∧ x.st 10 = false ∧ x.xld = [⟨at_, d⟩] ∧ at_ < 0x2000000 ∧ (∀ w ∈ x.sbuf, w.1 ≠ at_) ∧ liveArea (at_ - 0x1000000) = none) ∧
    (let s : State := (aceLoaded atReset).modAce 2 fun x => { x with p := [(1, 0x1000000)], xld := [⟨0x1000E08, 4⟩] }
     let i : AceAt := { eng := 2, pr := 0, pn := false, last := true }
     let d : Nat := 4
     let at_ : Nat := 0x1000E08
     let k : Nat := 0
     let o : Nat := 0xE08
     let x := s.ace i.eng
     OpExecutes i s ∧ x.xld = [⟨at_, d⟩] ∧ at_ < 0x2000000 ∧ (∀ w ∈ x.sbuf, w.1 ≠ at_) ∧ liveArea (at_ - 0x1000000) = some (k, o)) ∧
    (let s : State := (aceLoaded atReset).modAce 2 fun x => { x with p := [(1, 0x1000000)] }
     let i : AceAt := { eng := 2, pr := 0, pn := false, last := true }
     let x := s.ace i.eng
     OpExecutes i s ∧ i.pr = 0 ∧ x.user = false ∧ x.xld = []) ∧
    (let s : State := aceInUser (aceLoaded atReset)
     let i : AceAt := { eng := 2, pr := 0, pn := false, last := true }
     let n : Nat := 1
     OpExecutes i s ∧ (s.ace i.eng).user = true ∧ i.pr = 0 ∧ n ≤ 2) := by
  refine ⟨?_, ?_, ?_, ?_⟩ <;> decide +kernel

/-- The premises of ExceptionsTimeAbortsAndInterruptEntry, clause by clause. -/
theorem witness_ExceptionsTimeAbortsAndInterruptEntry :
    (let s : State := aceLoaded atReset
     let e : Nat := 2
     let code : Nat := 3
     let x := s.ace e
     unitRuns s = true ∧ (s.ace e).powered = true ∧ 1 ≤ code ∧ code ≤ 4 ∧ x.st 10 = false ∧ x.call = none ∧ interruptOk x = true ∧ x.fly = []) ∧
    (let s : State := (((aceLoaded atReset).set Ob.Ub.DECLARED_TIME 10 3).modAce 2 fun x => { x with n := 90, call := some ⟨3, 1, 2, 3, 4, 0⟩ }).setEng 2 { atReset.eng 2 with run := some (runOfItem (itemOf 1 3) atReset) }
     let e : Nat := 2
     let u : UserCall := ⟨3, 1, 2, 3, 4, 0⟩
     let r : RunRt := runOfItem (itemOf 1 3) atReset
     let x := s.ace e
     unitRuns s = true ∧ (s.ace e).powered = true ∧ x.call = some u ∧ 4 * s.nat Ob.Ub.DECLARED_TIME u.block ≤ x.n - u.start ∧ x.st 10 = false ∧ (s.eng e).run = some r) := by
  refine ⟨?_, ?_⟩ <;> decide +kernel

/-- The premises of ItemsArePostedRunAndCompleted, clause by clause (part 1). -/
theorem witness_ItemsArePostedRunAndCompleted_1 :
    (let s : State := running
     let flow : Nat := 300
     let prio : Nat := 2
     let e : Nat := 2
     let p : AceAt := { eng := 2, pr := 0, pn := false, last := true }
     unitRuns s = true ∧ 2 ≤ prio ∧ prio ≤ 3 ∧ 256 ≤ flow ∧ s.disp.held = [] ∧ s.disp.ready.length < 64 ∧ e < 8 ∧ (s.eng e).run = none ∧ s.disp.again = [] ∧ s.disp.ready = [] ∧ OpExecutes p s ∧ p.pr = 0 ∧ (s.ace p.eng).user = false) ∧
    (let s : State := modDisp running fun d => { d with ready := List.replicate 256 (itemOf 2 300) }
     let flow : Nat := 300
     let prio : Nat := 2
     unitRuns s = true ∧ 2 ≤ prio ∧ prio ≤ 3 ∧ 256 ≤ flow ∧ s.disp.held = [] ∧ (256 ≤ (s.disp.ready.filter fun x => decide (x.mask = 0xFF ∧ x.prio = prio)).length)) ∧
    (let s : State := waitingAxis 3
     let flow : Nat := 3
     let prio : Nat := 1
     let t : Nat := 1001000
     let a := s.at t
     let q := s.ring s.localRing
     unitRuns s = true ∧ flow < 256 ∧ prio ≤ 1 ∧ s.onRing flow 0xFE = true ∧ q.tw + 1000 ≤ a.now ∧ (s.axis flow).waiting = some q.cycle ∧ s.disp.ready = [] ∧ s.disp.held = [] ∧ (∀ x, x < 8 → (s.eng x).run = none) ∧ a.now < itemDeadline a (axisItem a flow s.localRing q.cycle q.tw)) ∧
    (let s : State := modDisp running fun d => { d with ready := [itemOf 1 3] }
     let flow : Nat := 3
     let prio : Nat := 1
     let e : Nat := 2
     let t : Nat := 1001000
     let i : Item := itemOf 1 3
     let a := s.at t
     unitRuns s = true ∧ flow < 256 ∧ prio ≤ 1 ∧ s.onRing flow 0xFE = false ∧ e < 8 ∧ (s.eng e).run = none ∧ s.disp.again = [] ∧ s.disp.held = [] ∧ s.disp.ready = [i] ∧ eligible a e i = false) := by
  refine ⟨?_, ?_, ?_, ?_⟩ <;> decide +kernel

/-- The premises of ItemsArePostedRunAndCompleted, clause by clause (part 2). -/
theorem witness_ItemsArePostedRunAndCompleted_2 :
    (let s : State := modDisp (running.modRing 0 fun q => { q with open_ := true, tw := 1000, tc := 250000 }) fun d => { d with ready := [itemOf 2 300] }
     let e : Nat := 2
     let t : Nat := 3000
     let i : Item := itemOf 2 300
     let a := s.at t
     unitRuns s = true ∧ e < 8 ∧ (s.eng e).run = none ∧ s.disp.again = [] ∧ s.disp.held = [] ∧ s.disp.ready = [i] ∧ eligible a e i = true ∧ 2 ≤ i.prio) ∧
    (let s : State := modDisp running fun d => { d with ready := [itemOf 1 3] }
     let e : Nat := 2
     let t : Nat := 3000
     let i : Item := itemOf 1 3
     let a := s.at t
     unitRuns s = true ∧ e < 8 ∧ (s.eng e).run = none ∧ s.disp.again = [] ∧ s.disp.held = [] ∧ s.disp.ready = [i] ∧ eligible a e i = true ∧ i.prio ≤ 1 ∧ i.flow < 256) ∧
    (let s : State := running.setEng 2 { running.eng 2 with run := some (runOfItem (itemOf 1 3) atReset) }
     let e : Nat := 2
     let t : Nat := 300000
     let r : RunRt := runOfItem (itemOf 1 3) atReset
     let a := s.at t
     unitRuns s = true ∧ (s.eng e).run = some r ∧ e < 8 ∧ r.item.prio ≤ 1 ∧ itemDeadline a r.item ≤ a.now) ∧
    (let s : State := aceLoaded (running.setEng 2 { running.eng 2 with run := some (runOfItem (itemOf 2 300) atReset) })
     let e : Nat := 2
     let t : Nat := 1001000
     let r : RunRt := runOfItem (itemOf 2 300) atReset
     let a := s.at t
     unitRuns s = true ∧ (s.eng e).run = some r ∧ e < 8 ∧ (r.item.prio ≤ 1 → a.now < itemDeadline a r.item) ∧ r.result = none ∧ (s.ace e).sbuf = [] ∧ s.disp.chained = [] ∧ s.disp.held = []) := by
  refine ⟨?_, ?_, ?_, ?_⟩ <;> decide +kernel

/-- The premises of ItemsArePostedRunAndCompleted, clause by clause (part 3). -/
theorem witness_ItemsArePostedRunAndCompleted_3 :
    (let s : State := running.setEng 2 { running.eng 2 with run := some { runOfItem (itemOf 1 3) atReset with result := some (resultOf atReset 3) } }
     let e : Nat := 2
     let t : Nat := 3000
     let r : RunRt := { runOfItem (itemOf 1 3) atReset with result := some (resultOf atReset 3) }
     let res : ItemResult := resultOf atReset 3
     let a := s.at t
     let f := r.item.flow
     unitRuns s = true ∧ (s.eng e).run = some r ∧ e < 8 ∧ (r.item.prio ≤ 1 → a.now < itemDeadline a r.item) ∧ r.result = some res ∧ f < 256 ∧ s.axis f = r.before ∧ res.evs = [] ∧ res.halt = false) ∧
    (let s : State := aceInUser running
     let p : AceAt := { eng := 2, pr := 0, pn := false, last := true }
     unitRuns s = true ∧ OpExecutes p s ∧ p.pr = 0 ∧ (s.ace p.eng).user = true) := by
  refine ⟨?_, ?_⟩ <;> decide +kernel

/-- The premises of ControlWritesAndEdges, clause by clause. -/
theorem witness_ControlWritesAndEdges :
    (let s : State := atReset
     unitRuns s = true) ∧
    (let s : State := (withLocalAxis atReset 3 0).set Ob.AxS.SAFE_DEMAND 0 3
     let a : Nat := 3
     let st := (s.axis a).mot.state
     let old := s.nat Ob.Ctl.CONTROL a
     unitRuns s = true ∧ (s.axis a).mot.asks = [] ∧ bit old 0 = false ∧ st = .disabled ∧ (s.axis a).mot.enableSeen0 = true ∧ armConditions s a = true) ∧
    (let s : State := atReset.modMot 3 fun m => { m with state := .enabled }
     let a : Nat := 3
     let st := (s.axis a).mot.state
     let old := s.nat Ob.Ctl.CONTROL a
     unitRuns s = true ∧ (s.axis a).mot.asks = [] ∧ bit old 1 = false ∧ st = .enabled ∧ bit old 2 = false ∧ bit old 3 = false ∧ bit old 5 = false ∧ bit old 6 = false ∧ (s.axis a).mot.mode = 0 ∧ (s.axis a).mot.jog = 0 ∧ s.get Ob.Mach.STOP_ACTIVE = 0) ∧
    (let s : State := atReset.modMot 3 fun m => { m with state := .faulted }
     let a : Nat := 3
     let st := (s.axis a).mot.state
     let old := s.nat Ob.Ctl.CONTROL a
     unitRuns s = true ∧ (s.axis a).mot.asks = [] ∧ bit old 4 = false ∧ st = .faulted ∧ allClearable s a = true) := by
  refine ⟨?_, ?_, ?_, ?_⟩ <;> decide +kernel

/-- The premises of ArmingAndModeEntry, clause by clause. -/
theorem witness_ArmingAndModeEntry :
    (let s : State := withAxisState (withLocalAxis atReset 3 0) 3 .arming
     let a : Nat := 3
     let t : Nat := 2000000
     unitRuns s = true ∧ s.now ≤ t ∧ (s.axis a).mot.state = .arming ∧ workerEnabled s a = true ∧ (s.axis a).mot.armAt + s.nat Ob.Lim.ARM_DELAY a * 1000000 ≤ t) ∧
    (let s : State := withAxisState (withLocalAxis atReset 3 0) 3 .arming
     let a : Nat := 3
     let t : Nat := 200000000000
     unitRuns s = true ∧ s.now ≤ t ∧ (s.axis a).mot.state = .arming ∧ (s.axis a).mot.armAt + s.nat Ob.Lim.ARM_TIMEOUT a * 1000000 ≤ t) ∧
    (let s : State := (withAxisState atReset 3 .stopping).modMot 3 fun m => { m with pend := some (4000, 1) }
     let a : Nat := 3
     let t : Nat := 5000
     let t0 : Nat := 4000
     let mode : Nat := 1
     unitRuns s = true ∧ s.now ≤ t ∧ t0 ≤ t ∧ (s.axis a).mot.pend = some (t0, mode) ∧ entryRefused s a mode = true) ∧
    (let s : State := (withAxisState atReset 3 .enabled).modMot 3 fun m => { m with pend := some (4000, 1) }
     let a : Nat := 3
     let t : Nat := 5000
     let t0 : Nat := 4000
     let mode : Nat := 1
     unitRuns s = true ∧ s.now ≤ t ∧ t0 ≤ t ∧ (s.axis a).mot.pend = some (t0, mode) ∧ entryRefused s a mode = false ∧ (mode = 1 ∨ mode = 2)) := by
  refine ⟨?_, ?_, ?_, ?_⟩ <;> decide +kernel

/-- The premises of StopsEndAtStandstillOrTimeOut, clause by clause. -/
theorem witness_StopsEndAtStandstillOrTimeOut :
    (let s : State := (withAxisState atReset 3 .stopping).modMot 3 fun m => { m with stopKind := some .ramp, stopCause := some .disable, stillSince := some 0 }
     let a : Nat := 3
     let t : Nat := 2000000000
     unitRuns s = true ∧ s.now ≤ t ∧ (s.axis a).mot.state = .stopping ∧ atStandstill (s.at t) a = true) ∧
    (let s : State := (withAxisState atReset 3 .stopping).modMot 3 fun m => { m with stopKind := some .ramp, stopCause := some .command, stillSince := none }
     let a : Nat := 3
     let t : Nat := 2000000000
     let m := (s.axis a).mot
     unitRuns s = true ∧ s.now ≤ t ∧ (s.axis a).mot.state = .stopping ∧ atStandstill (s.at t) a = false ∧ m.stopStart + s.nat Ob.Lim.STOP_TIMEOUT a * 1000000 ≤ t) := by
  refine ⟨?_, ?_⟩ <;> decide +kernel

/-- The premises of MachineStopIsRequestedAndCleared, clause by clause. -/
theorem witness_MachineStopIsRequestedAndCleared :
    (let s : State := withAxisState (withAxisState ((opened running 2).set Ob.Mst.TYPE 1 1) 1 .enabled) 2 .arming
     let sess : Nat := 2
     let v : Nat := 3
     1 ≤ v ∧ v ≤ 3 ∧ SessionWrites s sess ∧ s.get Ob.Mach.STOP_ACTIVE < v ∧ (∀ a, a < 256 → ¬((s.axis a).mot.state = .stopping ∧ (s.axis a).mot.stopCause = some .machineStop))) := by
  decide +kernel

/-- The premises of MastersLimitsAndHoming, clause by clause. -/
theorem witness_MastersLimitsAndHoming :
    (let s : State := (atReset.set Ob.Mst.TYPE 1 1).setMaster 1 { atReset.master 1 with replan := some (900, 2 ^ 32, 2 ^ 33, 0) }
     let k : Nat := 1
     let t0 : Nat := 900
     let v : Int := 2 ^ 32
     let acc : Int := 2 ^ 33
     let j : Int := 0
     unitRuns s = true ∧ (s.master k).replan = some (t0, v, acc, j) ∧ s.flag Ob.PairC.PAIR_ENABLE = false) ∧
    (let s : State := (withLocalAxis (withAxisState atReset 3 .enabled) 3 2).set Ob.Lim.LIMIT_POS_SOURCE 0x40000005 3
     let a : Nat := 3
     let t : Nat := 900
     let pos : Bool := true
     unitRuns s = true ∧ s.now ≤ t ∧ limitActive (s.at t) a (if pos then s.nat Ob.Lim.LIMIT_POS_SOURCE a else s.nat Ob.Lim.LIMIT_NEG_SOURCE a) = true ∧ (if pos then (s.axis a).flags.limPos else (s.axis a).flags.limNeg) = false ∧ (s.axis a).mot.mode ≠ 6) ∧
    (let s : State := (withAxisState atReset 3 .enabled).modMot 3 fun m => { m with mode := 6 }
     let a : Nat := 3
     let t : Nat := 900000000000
     unitRuns s = true ∧ s.now ≤ t ∧ (s.axis a).mot.mode = 6 ∧ (s.axis a).mot.state = .enabled ∧ (s.axis a).mot.home.t0 + s.nat Ob.Home.HOME_TIMEOUT a * 1000000 ≤ t) := by
  refine ⟨?_, ?_, ?_⟩ <;> decide +kernel

/-- The premises of SupervisionFaultsAndPeaks, clause by clause. -/
theorem witness_SupervisionFaultsAndPeaks :
    (let s : State := (((withAxisState atReset 3 .enabled).set Ob.Cur.FE_LIMIT 5 3).set Ob.Cur.FE_REACTION 1 3).modAxis 3 fun x => { x with cur := { x.cur with feRun := 1000, sumRun := 5 } }
     let a : Nat := 3
     unitRuns s = true ∧ s.get Ob.Cur.FE_LIMIT a ≠ 0 ∧ s.nat Ob.Cur.FE_TIME a ≤ (s.axis a).cur.feRun ∧ bit (s.nat Ob.AxD.LOOP_FLAGS a) 8 = false ∧ (s.axis a).mot.state = .enabled ∧ 4 ≤ (s.axis a).cur.sumRun ∧ bit (s.nat Ob.AxD.LOOP_FLAGS a) 9 = false) ∧
    (let s : State := ((withAxisState atReset 3 .enabled).set Ob.AxD.UNDONE_RUN 4 3).set Ob.Cyc.OVERRUN_LIMIT 4
     let a : Nat := 3
     unitRuns s = true ∧ s.get Ob.AxD.UNDONE_RUN a = s.get Ob.Cyc.OVERRUN_LIMIT ∧ 1 ≤ s.get Ob.Cyc.OVERRUN_LIMIT ∧ (s.axis a).flags.overran = false ∧ (s.axis a).mot.state = .enabled) := by
  refine ⟨?_, ?_⟩ <;> decide +kernel

/-- The premises of WhistlesAndFrames, clause by clause. -/
theorem witness_WhistlesAndFrames :
    (let s : State := (playing running 1).modRing 1 fun q => { q with cycle := 3 }
     let r : Nat := 0
     let t : Nat := 312500
     let c : Nat := 312500
     let a := s.at t
     r < 4 ∧ unitRuns s = true ∧ (s.inPlay r = true ∨ r = s.localRing) ∧ s.hud.decided ≠ 1 ∧ s.get Ob.Ring.STATE r ≠ 4 ∧ (s.ring r).open_ = false ∧ s.com.owed = [] ∧ (s.ring r).overlay = [] ∧ cycleOfWhistle (s.tcyc r) (s.woff r) a.now = some c) ∧
    (let s : State := playing running 1
     let r : Nat := 1
     let t : Nat := 312501
     let a := s.at t
     r < 4 ∧ unitRuns s = true ∧ (s.inPlay r = true ∨ r = s.localRing) ∧ s.hud.decided ≠ 1 ∧ s.get Ob.Ring.STATE r ≠ 4 ∧ (s.ring r).open_ = false ∧ s.com.owed = [] ∧ (s.ring r).overlay = [] ∧ cycleOfWhistle (s.tcyc r) (s.woff r) a.now = none) ∧
    (let s : State := (sent (worker1 running 1) 1).modRing 1 fun q => { q with tx := none }
     let r : Nat := 1
     let t : Nat := 313000
     let a := s.at t
     let q := s.ring r
     unitRuns s = true ∧ s.inPlay r = true ∧ q.txOn = true ∧ q.open_ = true ∧ q.tw + 500 ≤ a.now ∧ q.txFrom ≤ q.tw + 500 ∧ (q.tx = none ∨ q.txAt < q.tw) ∧ s.get Ob.Pair.ROLE = 0) ∧
    (let s : State := sent running 1
     let r : Nat := 1
     let t : Nat := 312999
     let a := s.at t
     let q := s.ring r
     unitRuns s = true ∧ a.now < q.tw + 500) := by
  refine ⟨?_, ?_, ?_, ?_⟩ <;> decide +kernel

/-- The premises of RegionsAndFramesLandOrAreMissing, clause by clause. -/
theorem witness_RegionsAndFramesLandOrAreMissing :
    (let s : State := onR (sent (worker1 running 1) 1) 3 1 1
     let r : Nat := 1
     let p : Nat := 1
     let fcs : Nat := 0
     let t : Nat := 320000
     let att : Bool := true
     let slot : List Byte := List.replicate 60 0xFF
     let b : List Byte := backBytes 192 10 (List.replicate 160 0)
     let f : RallyFrame := frameOf 1 10 192
     let a := s.at t
     let q := s.ring r
     let w := s.workerSize r f.sched p
     let valid := bit (leAt slot (12 + w.1) 4) 24
     unitRuns s = true ∧ 1 ≤ p ∧ p < 128 ∧ q.tx = some f ∧ landingOpen a r p = true ∧ isSplit s r = false ∧ att = true ∧ valid = true ∧ s.inPlay r = true ∧ q.open_ = true ∧ q.returned = false ∧ q.lost = false ∧ a.now ≤ q.tw + q.tc - guardNs ∧ q.tw ≤ q.txAt ∧ q.syncLost = none ∧ r < 4 ∧ (rxValid (rxStore a r 0 b) r fcs b).2 = true) ∧
    (let s : State := onR (sent (worker1 running 1) 1) 3 1 1
     let r : Nat := 1
     let p : Nat := 1
     let t : Nat := 320000
     let att : Bool := true
     let slot : List Byte := List.replicate 60 0
     let f : RallyFrame := frameOf 1 10 192
     let a := s.at t
     let q := s.ring r
     let w := s.workerSize r f.sched p
     let valid := bit (leAt slot (12 + w.1) 4) 24
     unitRuns s = true ∧ 1 ≤ p ∧ p < 128 ∧ q.tx = some f ∧ landingOpen a r p = true ∧ isSplit s r = false ∧ (att = false ∨ valid = false)) ∧
    (let s : State := onR (sent (worker1 running 1) 1) 3 1 1
     let r : Nat := 1
     let p : Nat := 1
     let fcs : Nat := 0
     let t : Nat := 320000
     let b : List Byte := backBytes 192 11 (List.replicate 160 0)
     let f : RallyFrame := frameOf 1 10 192
     let a := s.at t
     let q := s.ring r
     unitRuns s = true ∧ 1 ≤ p ∧ p < 128 ∧ s.inPlay r = true ∧ q.open_ = true ∧ q.returned = false ∧ q.lost = false ∧ a.now ≤ q.tw + q.tc - guardNs ∧ q.tw ≤ q.txAt ∧ q.syncLost = none ∧ q.tx = some f ∧ r < 4 ∧ (rxValid (rxStore a r 0 b) r fcs b).2 = false) := by
  refine ⟨?_, ?_, ?_⟩ <;> decide +kernel

/-- The premises of DeadlinesCloseCyclesAndLossesEndPlay, clause by clause (part 1). -/
theorem witness_DeadlinesCloseCyclesAndLossesEndPlay_1 :
    (let s : State := sent running 0
     let r : Nat := 0
     let t : Nat := 342250
     let a := s.at t
     let q := s.ring r
     r < 4 ∧ unitRuns s = true ∧ q.open_ = true ∧ q.tw + q.tc - guardNs ≤ a.now ∧ q.missRun < s.nat Ob.Cyc.FRAME_MISSING_LIMIT ∧ isStandby s = false ∧ s.get Ob.Ring.STATE r ≠ 7) ∧
    (let s : State := sent running 1
     let r : Nat := 1
     let t : Nat := 342249
     let a := s.at t
     let q := s.ring r
     r < 4 ∧ unitRuns s = true ∧ a.now < q.tw + q.tc - guardNs) ∧
    (let s : State := withAxisState (onR (worker1 ((sent running 1).modRing 1 fun q => { q with missRun := 10 }) 1) 3 1 1) 3 .enabled
     let r : Nat := 1
     let q := s.ring r
     r < 4 ∧ unitRuns s = true ∧ s.nat Ob.Cyc.FRAME_MISSING_LIMIT ≤ q.missRun ∧ s.inPlay r = true ∧ standbyEligible s = false ∧ s.nWorkers r ≤ 64) ∧
    (let s : State := (sent running 1).modRing 1 fun q => { q with syncLost := some 500 }
     let r : Nat := 1
     let t : Nat := 100000500
     let t0 : Nat := 500
     let a := s.at t
     let q := s.ring r
     r < 4 ∧ unitRuns s = true ∧ q.syncLost = some t0 ∧ a.now ≤ t0 + 100000000 ∧ t0 + 100000000 ≤ a.now ∧ s.inPlay r = true ∧ isSplit s r = false) := by
  refine ⟨?_, ?_, ?_, ?_⟩ <;> decide +kernel

/-- The premises of DeadlinesCloseCyclesAndLossesEndPlay, clause by clause (part 2). -/
theorem witness_DeadlinesCloseCyclesAndLossesEndPlay_2 :
    (let s : State := running.set Ob.Ring.STATE 7 1
     let r : Nat := 1
     r < 4 ∧ unitRuns s = true ∧ isStandby s = false ∧ s.get Ob.Ring.STATE r = 7) := by
  decide +kernel

/-- The premises of HuddlesAnnounceDecideAndSwitchTogether, clause by clause (part 1). -/
theorem witness_HuddlesAnnounceDecideAndSwitchTogether_1 :
    (let s : State := inHuddle (sent running 1)
     unitRuns s = true ∧ s.hud.active = true) ∧
    (let s : State := sent running 1
     let mask := s.nat Ob.Hud.RING_MASK
     unitRuns s = true ∧ s.hud.active = false ∧ mask % 16 = 0) ∧
    (let s : State := (sent running 1).set Ob.Hud.RING_MASK 3
     let r : Nat := 1
     let mask := s.nat Ob.Hud.RING_MASK
     let rings := (List.range 4).filter fun r => bit mask r
     unitRuns s = true ∧ s.hud.active = false ∧ mask % 16 ≠ 0 ∧ (∃ z ∈ rings, s.inPlay z = false)) ∧
    (let s : State := ((((sent running 1).set Ob.Hud.RING_MASK 2).set Ob.Hud.TARGET 1 0 0 1).set Ob.Sched.CYCLE_EXP 2 1 1).set Ob.Sched.VALID 1 1 1
     let r : Nat := 1
     let t : Nat := 400000
     let c : Nat := chooseSwitch (hudCycles (((((sent running 1).set Ob.Hud.RING_MASK 2).set Ob.Hud.TARGET 1 0 0 1).set Ob.Sched.CYCLE_EXP 2 1 1).set Ob.Sched.VALID 1 1 1) 2 [0, 1, 0, 0]) ((((sent running 1).set Ob.Hud.RING_MASK 2).set Ob.Hud.TARGET 1 0 0 1).nat Ob.Hud.LEAD) 0 400000 |>.getD 0
     let a := s.at t
     let mask := s.nat Ob.Hud.RING_MASK
     let tg := hudTargets s
     let rings := (List.range 4).filter fun r => bit mask r
     unitRuns s = true ∧ s.hud.active = false ∧ mask % 16 ≠ 0 ∧ (∀ z ∈ rings, s.inPlay z = true) ∧ (∀ z, z < 4 → isSplit s z = false ∧ s.get Ob.Ring.REJOIN_STATE z = 0) ∧ s.com.phase = 0 ∧ (∀ z ∈ rings, s.get Ob.Sched.VALID z (tg.getD z 0) = 1 ∧ targetUnfit s z (tg.getD z 0) = false) ∧ (admissionCheck a a fun z => if bit mask z then some (tg.getD z 0) else none).2 = true ∧ chooseSwitch (hudCycles s mask tg) (s.nat Ob.Hud.LEAD) (s.nat Ob.Hud.SWITCH_TIME) a.now = some c ∧ (∃ z ∈ rings, tg.getD z 0 ≠ s.nat Ob.Cyc.ACTIVE_SCHEDULE 0 0 z)) := by
  refine ⟨?_, ?_, ?_, ?_⟩ <;> decide +kernel

/-- The premises of HuddlesAnnounceDecideAndSwitchTogether, clause by clause (part 2). -/
theorem witness_HuddlesAnnounceDecideAndSwitchTogether_2 :
    (let s : State := inHuddle (sent (worker1 running 1) 1)
     let t : Nat := 600000
     let a := s.at t
     let acked (z : Nat) : Prop := bit s.hud.landed z = true ∧ missingAck (s.nWorkers z) true (s.hud.attend.getD z 0) (s.hud.ack.getD z 0) = 0
     unitRuns s = true ∧ s.hud.active = true ∧ s.hud.decided = 0 ∧ s.hud.tJ ≤ a.now ∧ (∀ z ∈ hudRings s, acked z)) ∧
    (let s : State := (inHuddle (sent (worker1 running 1) 1)).modHud fun h => { h with ack := [0, 1, 0, 0] }
     let t : Nat := 600000
     let a := s.at t
     let acked (z : Nat) : Prop := bit s.hud.landed z = true ∧ missingAck (s.nWorkers z) true (s.hud.attend.getD z 0) (s.hud.ack.getD z 0) = 0
     unitRuns s = true ∧ s.hud.active = true ∧ s.hud.decided = 0 ∧ s.hud.tJ ≤ a.now ∧ (∃ z ∈ hudRings s, ¬ acked z)) ∧
    (let s : State := (inHuddle (sent running 1)).modHud fun h => { h with decided := 1 }
     let r : Nat := 1
     let t : Nat := 625000
     let a := s.at t
     unitRuns s = true ∧ bit s.hud.mask r = true ∧ s.hud.decided = 1 ∧ bit s.hud.switched r = false ∧ s.inPlay r = true ∧ s.hud.cstar ≤ a.now) ∧
    (let s : State := (inHuddle (sent running 1)).modHud fun h => { h with decided := 1 }
     let r : Nat := 1
     let t : Nat := 624999
     let a := s.at t
     unitRuns s = true ∧ bit s.hud.mask r = true ∧ s.hud.decided = 1 ∧ bit s.hud.switched r = false ∧ s.inPlay r = true ∧ a.now < s.hud.cstar) := by
  refine ⟨?_, ?_, ?_, ?_⟩ <;> decide +kernel

/-- The premises of KickoffBringsRingsUpOrFails, clause by clause (part 1). -/
theorem witness_KickoffBringsRingsUpOrFails_1 :
    (let s : State := running
     let r : Nat := 1
     let id : List Byte := sfp
     let st := s.get Ob.Ring.STATE r
     r < 4 ∧ unitRuns s = true ∧ (st = 0 ∨ st = 6) ∧ moduleOk (s.get Ob.Ring.PHY_RATE r) (id.take 256) = true ∧ st ≠ 5) ∧
    (let s : State := running
     let r : Nat := 1
     let id : List Byte := []
     let st := s.get Ob.Ring.STATE r
     r < 4 ∧ unitRuns s = true ∧ (st = 0 ∨ st = 6) ∧ moduleOk (s.get Ob.Ring.PHY_RATE r) (id.take 256) = false) ∧
    (let s : State := ((worker1 running 1).set Ob.Ring.STATE 1 1).modRing 1 fun q => { q with tK := 500000, tx := some (frameOf 1 2 160), txAt := 500000, kTw := 500000 }
     let r : Nat := 1
     let t : Nat := 800000
     let hops : Nat := 2
     let sender : Nat := 1
     let prio : Nat := 9
     let serial : Nat := 99
     let fcs : Nat := 0
     let v : SvcSlot := svcOf (List.replicate 128 2)
     let l : List SvcSlot := []
     let b : List Byte := backBytes 160 2 (List.replicate 128 2)
     let f : RallyFrame := frameOf 1 2 160
     let st := s.get Ob.Ring.STATE r
     let a := s.at t
     let q := s.ring r
     let c := a.now / kickNs * kickNs
     r < 4 ∧ unitRuns s = true ∧ st ≠ 0 ∧ st ≠ 6 ∧ (q.tx = none ∨ q.txAt < c) ∧ st = 1 ∧ a.now < q.tK + 30000000 ∧ q.tx = some f ∧ q.returned = false ∧ q.syncLost = none ∧ (rxValid (rxStore a r 0 b) r fcs b).2 = true ∧ kickSlots b = v :: l ∧ leAt v.payload 0 1 = hops ∧ hops = s.nWorkers r ∧ 1 ≤ st ∧ st ≤ 4 ∧ sender ≠ s.nat Ob.PairC.UNIT_END ∧ claimLost (claimPriority s r) prio unitSerial serial = true) ∧
    (let s : State := (((worker1 running 1).set Ob.Ring.STATE 1 1).modRing 1 fun q => { q with tK := 500000, tx := some (frameOf 1 2 160), txAt := 500000, kTw := 500000 }).set Ob.Ring.STATE 2 1
     let r : Nat := 1
     let t : Nat := 800000
     let a := s.at t
     let q := s.ring r
     let st := s.get Ob.Ring.STATE r
     let c := a.now / kickNs * kickNs
     r < 4 ∧ unitRuns s = true ∧ (q.tx = none ∨ q.txAt < c) ∧ st = 2 ∧ q.tries < 4) := by
  refine ⟨?_, ?_, ?_, ?_⟩ <;> decide +kernel

/-- The premises of KickoffBringsRingsUpOrFails, clause by clause (part 2). -/
theorem witness_KickoffBringsRingsUpOrFails_2 :
    (let s : State := ((worker1 running 1).set Ob.Ring.STATE 1 1).modRing 1 fun q => { q with tK := 500000, tx := some (frameOf 1 2 160), txAt := 500000, kTw := 500000 }
     let r : Nat := 1
     let t : Nat := 30500000
     let a := s.at t
     let q := s.ring r
     let st := s.get Ob.Ring.STATE r
     r < 4 ∧ unitRuns s = true ∧ st = 1 ∧ q.tK + 30000000 ≤ a.now) ∧
    (let s : State := (((worker1 running 1).set Ob.Ring.STATE 1 1).modRing 1 fun q => { q with tK := 500000, tx := some (frameOf 1 2 160), txAt := 500000, kTw := 500000 }).set Ob.Ring.STATE 3 1
     let r : Nat := 1
     let t : Nat := 200000000
     let a := s.at t
     let q := s.ring r
     let st := s.get Ob.Ring.STATE r
     r < 4 ∧ unitRuns s = true ∧ st = 3 ∧ q.alignDone = false ∧ q.tP + 100000000 ≤ a.now) ∧
    (let s : State := (((worker1 running 1).set Ob.Ring.STATE 1 1).modRing 1 fun q => { q with tK := 500000, tx := some (frameOf 1 2 160), txAt := 500000, kTw := 500000 }).set Ob.Ring.STATE 4 1 |>.modRing 1 fun q => { q with kCstar := 1000000, kLanded := true, kAttend := 3, kAck := 3, firstAnnounce := some 0 }
     let r : Nat := 1
     let t : Nat := 1100000
     let a := s.at t
     let q := s.ring r
     let st := s.get Ob.Ring.STATE r
     let miss := missingAck (s.nWorkers r) q.kLanded q.kAttend q.kAck
     r < 4 ∧ unitRuns s = true ∧ st = 4 ∧ q.kCstar ≠ 0 ∧ q.kDecided = 0 ∧ kickDecisionAt q ≤ a.now ∧ miss = 0 ∧ q.kLanded = true) ∧
    (let s : State := (((worker1 running 1).set Ob.Ring.STATE 1 1).modRing 1 fun q => { q with tK := 500000, tx := some (frameOf 1 2 160), txAt := 500000, kTw := 500000 }).set Ob.Ring.STATE 4 1 |>.modRing 1 fun q => { q with kCstar := 1000000, kLanded := true, kAttend := 3, kAck := 1, firstAnnounce := some 0 }
     let r : Nat := 1
     let t : Nat := 5100000
     let t0 : Nat := 0
     let a := s.at t
     let q := s.ring r
     let st := s.get Ob.Ring.STATE r
     let miss := missingAck (s.nWorkers r) q.kLanded q.kAttend q.kAck
     r < 4 ∧ unitRuns s = true ∧ st = 4 ∧ q.kCstar ≠ 0 ∧ q.kDecided = 0 ∧ kickDecisionAt q ≤ a.now ∧ miss ≠ 0 ∧ q.firstAnnounce = some t0 ∧ t0 + 4000000 ≤ a.now) := by
  refine ⟨?_, ?_, ?_, ?_⟩ <;> decide +kernel

/-- The premises of KickoffBringsRingsUpOrFails, clause by clause (part 3). -/
theorem witness_KickoffBringsRingsUpOrFails_3 :
    (let s : State := (((worker1 running 1).set Ob.Ring.STATE 1 1).modRing 1 fun q => { q with tK := 500000, tx := some (frameOf 1 2 160), txAt := 500000, kTw := 500000 }).set Ob.Ring.WORKER_COUNT 1 1
     let r : Nat := 1
     let t : Nat := 600000
     let hops : Nat := 2
     let fcs : Nat := 0
     let v : SvcSlot := svcOf (List.replicate 128 2)
     let l : List SvcSlot := []
     let b : List Byte := backBytes 160 2 (List.replicate 128 2)
     let f : RallyFrame := frameOf 1 2 160
     let a := s.at t
     let q := s.ring r
     let st := s.get Ob.Ring.STATE r
     r < 4 ∧ unitRuns s = true ∧ st = 1 ∧ q.tx = some f ∧ q.returned = false ∧ q.syncLost = none ∧ (rxValid (rxStore a r 0 b) r fcs b).2 = true ∧ kickSlots b = v :: l ∧ leAt v.payload 0 1 = hops ∧ s.nWorkers r < hops) ∧
    (let s : State := ((worker1 running 1).set Ob.Ring.STATE 1 1).modRing 1 fun q => { q with tK := 500000, tx := some (frameOf 1 2 160), txAt := 500000, kTw := 500000 }
     let r : Nat := 1
     let sender : Nat := 1
     let prio : Nat := 0
     let serial : Nat := 0
     let st := s.get Ob.Ring.STATE r
     r < 4 ∧ unitRuns s = true ∧ 1 ≤ st ∧ st ≤ 4 ∧ sender ≠ s.nat Ob.PairC.UNIT_END ∧ claimLost (claimPriority s r) prio unitSerial serial = false) ∧
    (let s : State := (running.set Ob.Ring.STATE 7 1).modRing 1 fun q => { q with cage := sfp, backoffEnd := some 700000, winnerAt := 1000 }
     let r : Nat := 1
     let t : Nat := 9000000
     let e : Nat := 700000
     let a := s.at t
     let q := s.ring r
     let st := s.get Ob.Ring.STATE r
     r < 4 ∧ unitRuns s = true ∧ st = 7 ∧ q.backoffEnd = some e ∧ e ≤ a.now ∧ q.winnerAt + 1000000 < a.now ∧ isStandby s = false ∧ moduleOk (s.get Ob.Ring.PHY_RATE r) q.cage = true) ∧
    (let s : State := (running.set Ob.Ring.STATE 7 1).modRing 1 fun q => { q with backoffEnd := some 700000, winnerAt := 1000 }
     let r : Nat := 1
     let t : Nat := 900000
     let e : Nat := 700000
     let a := s.at t
     let q := s.ring r
     let st := s.get Ob.Ring.STATE r
     r < 4 ∧ unitRuns s = true ∧ st = 7 ∧ q.backoffEnd = some e ∧ e ≤ a.now ∧ a.now ≤ q.winnerAt + 1000000) := by
  refine ⟨?_, ?_, ?_, ?_⟩ <;> decide +kernel

/-- The premises of KickoffBringsRingsUpOrFails, clause by clause (part 4). -/
theorem witness_KickoffBringsRingsUpOrFails_4 :
    (let s : State := (sent running 1).modRing 1 fun q => { q with loopSince := some 0 }
     let r : Nat := 1
     let t : Nat := 100000000
     let t0 : Nat := 0
     let a := s.at t
     let q := s.ring r
     let st := s.get Ob.Ring.STATE r
     r < 4 ∧ unitRuns s = true ∧ st = 5 ∧ q.loopSince = some t0 ∧ t0 + 100000000 ≤ a.now ∧ s.hud.active = false ∧ s.com.phase ≠ 2 ∧ s.get Ob.Ring.REJOIN_STATE r = 0) := by
  decide +kernel

/-- The premises of NetworkTimeTakesSyncAndDelayExchanges, clause by clause (part 1). -/
theorem witness_NetworkTimeTakesSyncAndDelayExchanges_1 :
    (let s : State := (running.set Ob.Ptp.PORT_ENABLE 3).modPtp fun p => { p with parent := (0, 8), gm := some ⟨1, 2, 3, 8, 1⟩ }
     let port : Nat := 0
     let dom : Nat := 0
     let src : Nat := 8
     unitRuns s = true ∧ ptpParent s port dom src = true) ∧
    (let s : State := (running.set Ob.Ptp.PORT_ENABLE 3).modPtp fun p => { p with parent := (0, 8), gm := some ⟨1, 2, 3, 8, 1⟩, sync := some (5, 200) }
     let port : Nat := 0
     let dom : Nat := 0
     let q : Nat := 5
     let src : Nat := 8
     let t2 : Int := 200
     let p := s.time.ptp
     unitRuns s = true ∧ ptpParent s port dom src = true ∧ p.sync = some (q, t2)) ∧
    (let s : State := (running.set Ob.Ptp.PORT_ENABLE 3).modPtp fun p => { p with parent := (0, 8), gm := some ⟨1, 2, 3, 8, 1⟩, delayReq := some (5, 300), msDiff := some 50 }
     let port : Nat := 0
     let dom : Nat := 0
     let q : Nat := 5
     let src : Nat := 8
     let t3 : Int := 300
     let d : Int := 50
     let p := s.time.ptp
     unitRuns s = true ∧ ptpParent s port dom src = true ∧ p.delayReq = some (q, t3) ∧ p.msDiff = some d ∧ s.get Ob.Clk.SYNC_STATE = 0 ∧ p.first.length < 3) ∧
    (let s : State := (running.set Ob.Ptp.PORT_ENABLE 3).modPtp fun p => { p with parent := (0, 8), gm := some ⟨1, 2, 3, 8, 1⟩, delayReq := some (5, 300), msDiff := some 50, first := [1, 2, 3] }
     let port : Nat := 0
     let dom : Nat := 0
     let q : Nat := 5
     let src : Nat := 8
     let t3 : Int := 300
     let d : Int := 50
     let p := s.time.ptp
     unitRuns s = true ∧ ptpParent s port dom src = true ∧ p.delayReq = some (q, t3) ∧ p.msDiff = some d ∧ s.get Ob.Clk.SYNC_STATE = 0 ∧ p.first.length = 3) := by
  refine ⟨?_, ?_, ?_, ?_⟩ <;> decide +kernel

/-- The premises of NetworkTimeTakesSyncAndDelayExchanges, clause by clause (part 2). -/
theorem witness_NetworkTimeTakesSyncAndDelayExchanges_2 :
    (let s : State := (running.set Ob.Ptp.PORT_ENABLE 3 |>.set Ob.Clk.SYNC_STATE 1).modPtp fun p => { p with parent := (0, 8), gm := some ⟨1, 2, 3, 8, 1⟩, delayReq := some (5, 300), msDiff := some 50 }
     let port : Nat := 0
     let dom : Nat := 0
     let q : Nat := 5
     let src : Nat := 8
     let t3 : Int := 300
     let d : Int := 50
     let p := s.time.ptp
     unitRuns s = true ∧ ptpParent s port dom src = true ∧ p.delayReq = some (q, t3) ∧ p.msDiff = some d ∧ s.get Ob.Clk.SYNC_STATE ≠ 0 ∧ |s.get Ob.Clk.RATE_ADJ| ≤ 54975581) ∧
    (let s : State := running.set Ob.Ptp.PORT_ENABLE 3
     let port : Nat := 0
     let dom : Nat := 0
     let src : Nat := 8
     let p := s.time.ptp
     unitRuns s = true ∧ ptpMine s port dom = true ∧ p.gm = none ∧ s.get Ob.Ptp.ROLE ≠ 1 ∧ ptpParent s port dom src = false ∧ p.sync = none ∧ p.delayReq = none ∧ p.master = false) ∧
    (let s : State := (running.set Ob.Ptp.PORT_ENABLE 3).modPtp fun p => { p with master := true }
     let port : Nat := 0
     let dom : Nat := 0
     let p := s.time.ptp
     unitRuns s = true ∧ ptpMine s port dom = true ∧ p.master = true) ∧
    (let s : State := running.set Ob.Ptp.PORT_ENABLE 3
     let port : Nat := 0
     let dom : Nat := 3
     unitRuns s = true ∧ ptpMine s port dom = false) := by
  refine ⟨?_, ?_, ?_, ?_⟩ <;> decide +kernel

/-- The premises of NetworkTimeTakesSyncAndDelayExchanges, clause by clause (part 3). -/
theorem witness_NetworkTimeTakesSyncAndDelayExchanges_3 :
    (let s : State := (running.set Ob.Ptp.PORT_ENABLE 3 |>.set Ob.Ptp.ROLE 1).modPtp fun p => { p with announceAt := 0, interval := 5 }
     let t : Nat := 9000000000
     let a := s.at t
     let p := s.time.ptp
     unitRuns s = true ∧ p.master = false ∧ s.get Ob.Ptp.ROLE = 1 ∧ p.announceAt + 3 * p.interval < a.now) ∧
    (let s : State := (running.set Ob.Ptp.PORT_ENABLE 3 |>.set Ob.Ptp.ROLE 1).modPtp fun p => { p with master := true, sentAt := some 100 }
     let t : Nat := 5000
     let x : Nat := 100
     let a := s.at t
     let p := s.time.ptp
     unitRuns s = true ∧ p.master = true ∧ s.get Ob.Ptp.ROLE = 1 ∧ s.nat Ob.Ptp.PORT_ENABLE = 3 ∧ p.sentAt = some x ∧ a.now < x + announceNs) ∧
    (let s : State := (running.set Ob.Ptp.PORT_ENABLE 3 |>.set Ob.Ptp.ROLE 1).modPtp fun p => { p with master := true, sentAt := some 100 }
     let t : Nat := 9000000000
     let x : Nat := 100
     let a := s.at t
     let p := s.time.ptp
     unitRuns s = true ∧ p.master = true ∧ s.get Ob.Ptp.ROLE = 1 ∧ s.nat Ob.Ptp.PORT_ENABLE = 3 ∧ p.sentAt = some x ∧ x + announceNs ≤ a.now) := by
  refine ⟨?_, ?_, ?_⟩ <;> decide +kernel

/-- The premises of TimeOfDayIsSetHeldAndForwarded, clause by clause (part 1). -/
theorem witness_TimeOfDayIsSetHeldAndForwarded_1 :
    (let s : State := running
     let t : Nat := 5000
     let kind : Nat := 0
     let ing : Nat := 4000
     let egr : Nat := 4300
     let res : Nat := 300
     let st := s.get Ob.Clk.SYNC_STATE
     let a := s.at t
     let p := s.time.ptp
     unitRuns s = true ∧ st = 0 ∧ (∀ r, r < 4 → s.get Ob.Ring.STATE r < 1 ∨ 5 < s.get Ob.Ring.STATE r) ∧ a.now < p.lastSync + 3 * p.interval ∧ p.boundSince = none ∧ s.nat Ob.Ptp.PORT_ENABLE = 3 ∧ ing + res = egr ∧ s.flag Ob.Ptp.TC_ENABLE = true ∧ (kind = 0 ∨ kind = 2) ∧ s.get Ob.Pair.ROLE ≠ 2) ∧
    (let s : State := running.set Ob.Clk.SYNC_STATE 1
     let st := s.get Ob.Clk.SYNC_STATE
     unitRuns s = true ∧ st ≠ 0) ∧
    (let s : State := playing running 1
     unitRuns s = true ∧ (∃ r, r < 4 ∧ 1 ≤ s.get Ob.Ring.STATE r ∧ s.get Ob.Ring.STATE r ≤ 5)) ∧
    (let s : State := running.set Ob.Clk.SYNC_STATE 2
     let t : Nat := 9000000000
     let a := s.at t
     let p := s.time.ptp
     let st := s.get Ob.Clk.SYNC_STATE
     unitRuns s = true ∧ (st = 1 ∨ st = 2) ∧ p.lastSync + 3 * p.interval ≤ a.now) := by
  refine ⟨?_, ?_, ?_, ?_⟩ <;> decide +kernel

/-- The premises of TimeOfDayIsSetHeldAndForwarded, clause by clause (part 2). -/
theorem witness_TimeOfDayIsSetHeldAndForwarded_2 :
    (let s : State := (running.set Ob.Clk.SYNC_STATE 1).modPtp fun p => { p with boundSince := some 0, offsets := [5, 2] }
     let t : Nat := 20000000000
     let b : Nat := 0
     let a := s.at t
     let p := s.time.ptp
     let st := s.get Ob.Clk.SYNC_STATE
     unitRuns s = true ∧ (st = 1 ∨ st = 2) ∧ p.boundSince = some b ∧ b + 10000000000 ≤ a.now ∧ |p.offsets.getLast?.getD 0| < |p.offsets.head?.getD 0|) ∧
    (let s : State := (running.set Ob.Ptp.PORT_ENABLE 3).set Ob.Ptp.TC_ENABLE 0
     let ing : Nat := 4000
     let egr : Nat := 4300
     let res : Nat := 300
     unitRuns s = true ∧ s.nat Ob.Ptp.PORT_ENABLE = 3 ∧ ing + res = egr ∧ s.flag Ob.Ptp.TC_ENABLE = false) ∧
    (let s : State := ((running.set Ob.Ptp.PORT_ENABLE 3).set Ob.Ptp.TC_ENABLE 1).modPtp fun p => { p with tc := [(8, 5, 300, 4000)] }
     let b : Nat := 300
     let src : Nat := 8
     let q : Nat := 5
     let ing : Nat := 4000
     let egr : Nat := 4300
     let res : Nat := 300
     let at_ : Nat := 4000
     let p := s.time.ptp
     unitRuns s = true ∧ s.nat Ob.Ptp.PORT_ENABLE = 3 ∧ ing + res = egr ∧ s.flag Ob.Ptp.TC_ENABLE = true ∧ p.tc.head? = some (src, q, b, at_) ∧ ing ≤ at_ + 1000000000) ∧
    (let s : State := ((running.set Ob.Ptp.PORT_ENABLE 3).set Ob.Ptp.TC_ENABLE 1).modPtp fun p => { p with tc := [(8, 5, 300, 0)] }
     let b : Nat := 300
     let src : Nat := 8
     let q : Nat := 5
     let ing : Nat := 1000000001
     let egr : Nat := 1000000301
     let res : Nat := 300
     let at_ : Nat := 0
     let p := s.time.ptp
     unitRuns s = true ∧ s.nat Ob.Ptp.PORT_ENABLE = 3 ∧ ing + res = egr ∧ s.flag Ob.Ptp.TC_ENABLE = true ∧ p.tc = [(src, q, b, at_)] ∧ at_ + 1000000000 < ing) := by
  refine ⟨?_, ?_, ?_, ?_⟩ <;> decide +kernel

/-- The premises of TimeOfDayIsSetHeldAndForwarded, clause by clause (part 3). -/
theorem witness_TimeOfDayIsSetHeldAndForwarded_3 :
    (let s : State := (running.set Ob.Pair.ROLE 2).set Ob.Sby.BENCH_ALIGN_STATE 1
     unitRuns s = true ∧ s.get Ob.Pair.ROLE = 2 ∧ s.get Ob.Sby.BENCH_ALIGN_STATE ≠ 0 ∧ s.time.stepTaken = false) ∧
    (let s : State := { (running.set Ob.Pair.ROLE 2).set Ob.Sby.BENCH_ALIGN_STATE 2 with time := { stepTaken := true } }
     unitRuns s = true ∧ s.get Ob.Pair.ROLE = 2 ∧ s.get Ob.Sby.BENCH_ALIGN_STATE ≠ 0 ∧ s.time.stepTaken = true) := by
  refine ⟨?_, ?_⟩ <;> decide +kernel

/-- The premises of CommitIsAdmittedDecidedAppliedAndAnswered, clause by clause (part 1). -/
theorem witness_CommitIsAdmittedDecidedAppliedAndAnswered_1 :
    (let s : State := modCom running fun c => { c with phase := 1, entries := [{ key := Ob.Poss.ELECTION_HOLD.key, val := .num 100 }] }
     let t : Nat := 61000
     let c : Nat := 31250
     let a := s.at t
     let p := pacingRing a
     let blocks := commitBlocks a (withEntries a a.com.entries)
     unitRuns s = true ∧ a.com.phase = 1 ∧ isStandby a = false ∧ cycleOfDeadline (a.tcyc p) (a.woff p) a.now = some c ∧ a.com.tQ ≤ a.now ∧ a.com.startup = false ∧ blocks = []) ∧
    (let s : State := modCom (sent (worker1 running 1) 1) fun c => { c with phase := 1, entries := [{ key := Ob.Wk.CHANNEL_LAYOUTS.key 1 1, val := .num 2 }] }
     let t : Nat := 342250
     let c : Nat := 312500
     let a := s.at t
     let p := pacingRing a
     let blocks := commitBlocks a (withEntries a a.com.entries)
     unitRuns s = true ∧ a.com.phase = 1 ∧ isStandby a = false ∧ cycleOfDeadline (a.tcyc p) (a.woff p) a.now = some c ∧ a.com.tQ ≤ a.now ∧ a.com.startup = false ∧ blocks ≠ [] ∧ slotsBeyond a blocks = false) ∧
    (let s : State := modCom ((sent (worker1 running 1) 1).set Ob.Ring.WORKER_COUNT 6 1) fun c => { c with phase := 1, entries := (List.range 6).map fun k => { key := Ob.Wk.CHANNEL_LAYOUTS.key 1 (k + 1), val := .num 2 } }
     let t : Nat := 342250
     let c : Nat := 312500
     let a := s.at t
     let p := pacingRing a
     let blocks := commitBlocks a (withEntries a a.com.entries)
     unitRuns s = true ∧ a.com.phase = 1 ∧ isStandby a = false ∧ cycleOfDeadline (a.tcyc p) (a.woff p) a.now = some c ∧ a.com.tQ ≤ a.now ∧ a.com.startup = false ∧ slotsBeyond a blocks = true) ∧
    (let s : State := modCom (sent running 1) fun c => { c with phase := 2, applyAt := 1000000, tp := 100000, tag := 3, blocks := [{ ring := 1, pos := 1, bytes := [1, 2], complete := true }] }
     let t : Nat := 798500
     let a := s.at t
     unitRuns s = true ∧ a.com.phase = 2 ∧ isStandby a = false ∧ a.now + guardNs + 2 * a.com.tp = a.com.applyAt + a.com.wp ∧ (∀ b ∈ a.com.blocks, b.complete = true)) := by
  refine ⟨?_, ?_, ?_, ?_⟩ <;> decide +kernel

/-- The premises of CommitIsAdmittedDecidedAppliedAndAnswered, clause by clause (part 2). -/
theorem witness_CommitIsAdmittedDecidedAppliedAndAnswered_2 :
    (let s : State := modCom (sent running 1) fun c => { c with phase := 2, applyAt := 1000000, tp := 100000, tag := 3, blocks := [{ ring := 1, pos := 1, bytes := [1, 2], complete := false }] }
     let t : Nat := 798500
     let a := s.at t
     unitRuns s = true ∧ a.com.phase = 2 ∧ isStandby a = false ∧ a.now + guardNs + 2 * a.com.tp = a.com.applyAt + a.com.wp ∧ (∃ b ∈ a.com.blocks, b.complete = false)) ∧
    (let s : State := modCom (playing running 1) fun c => { c with phase := 3, owed := [(1, 31250, [{ key := Ob.Poss.ELECTION_HOLD.key, val := .num 100 }])] }
     let r : Nat := 1
     let t : Nat := 62500
     let c : Nat := 62500
     let o_0 : Nat × Nat × List Staged := (1, 31250, [{ key := Ob.Poss.ELECTION_HOLD.key, val := .num 100 }])
     let v_0 : Int := 100
     let a := s.at t
     unitRuns s = true ∧ r < 4 ∧ o_0 ∈ a.com.owed ∧ o_0.1 = r ∧ a.inPlay r = true ∧ cycleOfWhistle (a.tcyc r) (a.woff r) t = some c ∧ o_0.2.1 ≤ c ∧ a.com.phase = 3 ∧ (∀ o' ∈ a.com.owed, o' = o_0 ∨ c < o'.2.1) ∧ o_0.2.2 = [{ key := Ob.Poss.ELECTION_HOLD.key, val := .num v_0 }]) ∧
    (let s : State := modCom running fun c => { c with phase := 4, applyAt := 31250, tag := 3 }
     let t : Nat := 61000
     let c : Nat := 31250
     let a := s.at t
     unitRuns s = true ∧ (a.com.phase = 3 ∨ a.com.phase = 4) ∧ cycleOfDeadline (a.tcyc a.localRing) (a.woff a.localRing) t = some c ∧ a.com.applyAt ≤ c ∧ (∀ o ∈ a.com.owed, o.1 < 4 ∧ a.inPlay o.1 = true ∧ (a.ring o.1).tw < o.2.1)) ∧
    (let s : State := modCom (opened running 2) fun c => { c with phase := 4, applyAt := 31250, tag := 3, sess := 2, token := 9, seqNo := 5, path := { peer := 77 } }
     let t : Nat := 61000
     let c : Nat := 31250
     let a := s.at t
     unitRuns s = true ∧ (a.com.phase = 3 ∨ a.com.phase = 4) ∧ cycleOfDeadline (a.tcyc a.localRing) (a.woff a.localRing) t = some c ∧ a.com.applyAt ≤ c ∧ (∀ o ∈ a.com.owed, o.1 < 4 ∧ a.inPlay o.1 = true ∧ (a.ring o.1).tw < o.2.1) ∧ a.com.viaObject = false ∧ a.com.startup = false ∧ sessOpen s a.com.sess = true ∧ (s.sess a.com.sess).token = a.com.token ∧ a.com.path.via < 2 ∧ s.flag Ob.PairC.PAIR_ENABLE = false ∧ s.get Ob.Pair.ROLE = 0) := by
  refine ⟨?_, ?_, ?_, ?_⟩ <;> decide +kernel

/-- The premises of CommitsAndCopiesAreTakenOrRefused, clause by clause (part 1). -/
theorem witness_CommitsAndCopiesAreTakenOrRefused_1 :
    (let s : State := opened running 2
     let sess : Nat := 2
     SessionWrites s sess ∧ isCaptain s sess = false) ∧
    (let s : State := modCom ((opened running 2).set Ob.Poss.CAPTAIN 2) fun c => { c with phase := 2 }
     let sess : Nat := 2
     SessionWrites s sess ∧ isCaptain s sess = true ∧ (s.com.phase ≠ 0 ∨ s.hud.active = true)) ∧
    (let s : State := ((opened running 2).set Ob.Poss.CAPTAIN 2)
     let sess : Nat := 2
     SessionWrites s sess ∧ isCaptain s sess = true ∧ s.com.phase = 0 ∧ s.hud.active = false ∧ (∀ r, r < 4 → s.get Ob.Ring.REJOIN_STATE r = 0) ∧ s.staged = []) ∧
    (let s : State := { ((opened running 2).set Ob.Poss.CAPTAIN 2) with staged := [{ key := Ob.Poss.ELECTION_HOLD.key, val := .num 100 }] }
     let sess : Nat := 2
     SessionWrites s sess ∧ isCaptain s sess = true ∧ s.com.phase = 0 ∧ s.hud.active = false ∧ (∀ r, r < 4 → s.get Ob.Ring.REJOIN_STATE r = 0) ∧ s.staged ≠ []) := by
  refine ⟨?_, ?_, ?_, ?_⟩ <;> decide +kernel

/-- The premises of CommitsAndCopiesAreTakenOrRefused, clause by clause (part 2). -/
theorem witness_CommitsAndCopiesAreTakenOrRefused_2 :
    (let s : State := { ((opened running 2).set Ob.Poss.CAPTAIN 2) with staged := [{ key := Ob.Poss.ELECTION_HOLD.key, val := .bytes [], total := some 5 }] }
     let sess : Nat := 2
     let t : Nat := 100
     let status_0 : Nat := stLength
     let reason_0 : Nat := 7
     let obj_0 : Nat := Ob.Poss.ELECTION_HOLD.key
     let a := (s.at t).set Ob.Sess.LAST_RENEWED (s.at t).now sess
     let verdict := (commitVerdict (validating a { viaObject := true, sess := sess }) (withEntries a a.staged)).2
     SessionWrites s sess ∧ isCaptain s sess = true ∧ s.com.phase = 0 ∧ s.hud.active = false ∧ (∀ r, r < 4 → s.get Ob.Ring.REJOIN_STATE r = 0) ∧ s.staged ≠ [] ∧ verdict = some (status_0, reason_0, obj_0)) ∧
    (let s : State := { running with staged := [{ key := Ob.Poss.ELECTION_HOLD.key, val := .num 100 }] }
     unitRuns s = true ∧ s.com.phase = 0 ∧ s.store.saving = none) ∧
    (let s : State := modCom running fun c => { c with phase := 2 }
     unitRuns s = true ∧ s.com.phase ≠ 0) ∧
    (let s : State := { running with store := { running.store with saving := some (50, 1, { header := [1], recordCrc := 3 }) } }
     let t0 : Nat := 50
     let bank : Nat := 1
     let i : StoredImage := { header := [1], recordCrc := 3 }
     unitRuns s = true ∧ s.store.saving = some (t0, bank, i) ∧ bank < 2) := by
  refine ⟨?_, ?_, ?_, ?_⟩ <;> decide +kernel

/-- The premises of SessionsOpenAndSubscribe, clause by clause. -/
theorem witness_SessionsOpenAndSubscribe :
    (let s : State := running
     let q : Req := { via := 0, own := true, peer := 77, sess := 0, seqNo := 5, token := 9, body := [1, 2, 3, 4, 0, 0, 2, 0, 65, 66] }
     let t : Nat := 100
     let k : Nat := 0
     let a := s.at t
     let n := leAt q.body 6 1
     let lease := leAt q.body 4 2
     listens a q.toPath = true ∧ s.flag Ob.PairC.PAIR_ENABLE = false ∧ s.get Ob.Pair.ROLE = 0 ∧ q.via < 2 ∧ n ≤ 32 ∧ 8 + n ≤ q.body.length ∧ openRepeat a q = none ∧ ((List.range 16).find? fun k => !sessOpen a k) = some k ∧ utf8Ok n (slice q.body 8 n) = true ∧ (lease = 0 ∨ (100 ≤ lease ∧ lease ≤ 10000))) ∧
    (let s : State := (List.range 16).foldl opened running
     let q : Req := { via := 0, own := true, peer := 77, sess := 0, seqNo := 5, token := 9, body := [1, 2, 3, 4, 0, 0, 2, 0, 65, 66] }
     let t : Nat := 100
     let a := s.at t
     let n := leAt q.body 6 1
     listens a q.toPath = true ∧ s.flag Ob.PairC.PAIR_ENABLE = false ∧ s.get Ob.Pair.ROLE = 0 ∧ q.via < 2 ∧ n ≤ 32 ∧ 8 + n ≤ q.body.length ∧ openRepeat a q = none ∧ (∀ j, j < 16 → sessOpen s j = true)) ∧
    (let s : State := opened running 2
     let q : Req := { via := 0, own := true, peer := 77, sess := 2, seqNo := 5, token := 9, body := [1, 1, 40, 0] ++ leBytes 2 (Ob.Poss.ELECTION_HOLD.key / 256) ++ leBytes 1 (Ob.Poss.ELECTION_HOLD.key % 256) ++ [0] }
     let t : Nat := 100
     let l : List ReadName := [{ idx := Ob.Poss.ELECTION_HOLD.key / 256, sub := Ob.Poss.ELECTION_HOLD.key % 256, kind := 0 }]
     let id := leAt q.body 0 1
     let c := leAt q.body 1 1
     let period := leAt q.body 2 2
     NewRequest (s.at t) q ∧ 4 ≤ q.body.length ∧ id ≤ 3 ∧ 1 ≤ c ∧ c ≤ 64 ∧ readNames c (q.body.drop 4) = some l ∧ (∀ e ∈ l, e.kind = 0 ∧ (match lookup e.idx e.sub with | .inl o => decide (o.ty ≠ .domain) | _ => true) = true) ∧ (if s.nat Ob.Sess.TRANSPORT q.sess < 2 then 1000000 else 125000) ≤ period * s.tcyc s.localRing ∧ 24 + (l.map notifySize).sum ≤ 1472) := by
  refine ⟨?_, ?_, ?_⟩ <;> decide +kernel

/-- The premises of SessionsClaimPassReleaseAndClose, clause by clause. -/
theorem witness_SessionsClaimPassReleaseAndClose :
    (let s : State := opened running 2
     let q : Req := { via := 0, own := true, peer := 77, sess := 2, seqNo := 5, token := 9, body := [3, 0, 0, 0] }
     let t : Nat := 100
     let n := leAt q.body 0 1
     NewRequest (s.at t) q ∧ 4 ≤ q.body.length ∧ n ≤ 15 ∧ isCaptain s q.sess = false) ∧
    (let s : State := opened ((opened running 2).set Ob.Poss.CAPTAIN 2) 3
     let q : Req := { via := 0, own := true, peer := 77, sess := 2, seqNo := 5, token := 9, body := [3, 0, 0, 0] }
     let t : Nat := 100
     let n := leAt q.body 0 1
     NewRequest (s.at t) q ∧ 4 ≤ q.body.length ∧ isCaptain s q.sess = true ∧ sessOpen s n = true ∧ n ≠ q.sess) ∧
    (let s : State := ((opened running 2).set Ob.Poss.CAPTAIN 2)
     let q : Req := { via := 0, own := true, peer := 77, sess := 2, seqNo := 5, token := 9, body := [3, 0, 0, 0] }
     let t : Nat := 100
     NewRequest (s.at t) q ∧ isCaptain s q.sess = true) := by
  refine ⟨?_, ?_, ?_⟩ <;> decide +kernel

/-- The premises of SessionsReadWriteSubscribeAndCommit, clause by clause (part 1). -/
theorem witness_SessionsReadWriteSubscribeAndCommit_1 :
    (let s : State := { opened running 2 with snaps := [oneSnapshot] }
     let q : Req := { via := 0, own := true, peer := 77, sess := 2, seqNo := 5, token := 9, body := [255, 255, 255, 255, 1, 0, 0, 0] ++ leBytes 2 (Ob.Poss.ELECTION_HOLD.key / 256) ++ leBytes 1 (Ob.Poss.ELECTION_HOLD.key % 256) ++ [0] }
     let t : Nat := 100
     let o : Obj := Ob.Poss.ELECTION_HOLD
     let l_0 : List ReadName := [{ idx := Ob.Poss.ELECTION_HOLD.key / 256, sub := Ob.Poss.ELECTION_HOLD.key % 256, kind := 0 }]
     let n_0 : Snapshot := oneSnapshot
     let n_1 : Snapshot := oneSnapshot
     let x_1 : ReadName := { idx := Ob.Poss.ELECTION_HOLD.key / 256, sub := Ob.Poss.ELECTION_HOLD.key % 256, kind := 0 }
     let w_1 : Val := .num 77
     let c := leAt q.body 4 2
     NewRequest (s.at t) q ∧ 8 ≤ q.body.length ∧ 1 ≤ c ∧ c ≤ 256 ∧ readNames c (q.body.drop 8) = some l_0 ∧ snapOf s (leAt q.body 0 4) = some n_0 ∧ 8 + (readEntries s n_0 l_0).length ≤ 1456 ∧ c = 1 ∧ readNames 1 (q.body.drop 8) = some [x_1] ∧ snapOf s (leAt q.body 0 4) = some n_1 ∧ x_1.kind = 0 ∧ lookup x_1.idx x_1.sub = .inl o ∧ o.ty.isBytes = false ∧ snapValue s n_1 o (x_1.idx * 256 + x_1.sub) = some w_1 ∧ (valBytes o.ty w_1).length ≤ 8) ∧
    (let s : State := ((opened running 2).set Ob.Poss.CAPTAIN 2)
     let q : Req := { via := 0, own := true, peer := 77, sess := 2, seqNo := 5, token := 9, body := [1, 0, 0, 0] ++ leBytes 2 (Ob.Poss.ELECTION_HOLD.key / 256) ++ leBytes 1 (Ob.Poss.ELECTION_HOLD.key % 256) ++ leBytes 1 Ob.Poss.ELECTION_HOLD.ty.code ++ leBytes 2 Ob.Poss.ELECTION_HOLD.ty.size ++ [0, 0] ++ [100, 0, 0, 0] }
     let t : Nat := 100
     let e : WriteEntry := { idx := Ob.Poss.ELECTION_HOLD.key / 256, sub := Ob.Poss.ELECTION_HOLD.key % 256, ty := Ob.Poss.ELECTION_HOLD.ty.code, val := leBytes Ob.Poss.ELECTION_HOLD.ty.size 100 }
     let o : Obj := Ob.Poss.ELECTION_HOLD
     let v : Val := .num 100
     let key := e.idx * 256 + e.sub
     NewRequest (s.at t) q ∧ leAt q.body 0 2 = 1 ∧ writeEntries 1 (q.body.drop 4) = some [e] ∧ 4 ≤ q.body.length ∧ lookup e.idx e.sub = .inl o ∧ o.acc = .rwc ∧ isCaptain s q.sess = true ∧ e.ty = o.ty.code ∧ e.seg = none ∧ valOf o.ty e.val = some v ∧ rangeStatus o v = stOk ∧ s.com.phase = 0 ∧ stagedBeyond (withStaged s { key := key, val := v }) = false ∧ s.hud.active = false ∧ (∀ r, r < 4 → s.get Ob.Ring.REJOIN_STATE r = 0) ∧ s.staged = []) ∧
    (let s : State := opened running 2
     let q : Req := { via := 0, own := true, peer := 77, sess := 2, seqNo := 5, token := 9, body := [1, 0, 0, 0] ++ leBytes 2 (Ob.Poss.ELECTION_HOLD.key / 256) ++ leBytes 1 (Ob.Poss.ELECTION_HOLD.key % 256) ++ leBytes 1 Ob.Poss.ELECTION_HOLD.ty.code ++ leBytes 2 Ob.Poss.ELECTION_HOLD.ty.size ++ [0, 0] ++ [100, 0, 0, 0] }
     let t : Nat := 100
     let op : Nat := 0x55
     let e : WriteEntry := { idx := Ob.Poss.ELECTION_HOLD.key / 256, sub := Ob.Poss.ELECTION_HOLD.key % 256, ty := Ob.Poss.ELECTION_HOLD.ty.code, val := leBytes Ob.Poss.ELECTION_HOLD.ty.size 100 }
     let o : Obj := Ob.Poss.ELECTION_HOLD
     let id := leAt q.body 0 1
     NewRequest (s.at t) q ∧ leAt q.body 0 2 = 1 ∧ writeEntries 1 (q.body.drop 4) = some [e] ∧ 4 ≤ q.body.length ∧ lookup e.idx e.sub = .inl o ∧ o.acc = .rwc ∧ isCaptain s q.sess = false ∧ id ≤ 3 ∧ leAt q.body 1 1 = 0 ∧ op ∉ [0x01, 0x02, 0x10, 0x11, 0x12, 0x20, 0x21, 0x22, 0x30]) ∧
    (let s : State := { ((opened running 2).set Ob.Poss.CAPTAIN 2) with staged := [{ key := Ob.Poss.ELECTION_HOLD.key, val := .num 100 }] }
     let q : Req := { via := 0, own := true, peer := 77, sess := 2, seqNo := 5, token := 9, body := [1, 0, 0, 0] ++ leBytes 2 (Ob.Poss.ELECTION_HOLD.key / 256) ++ leBytes 1 (Ob.Poss.ELECTION_HOLD.key % 256) ++ leBytes 1 Ob.Poss.ELECTION_HOLD.ty.code ++ leBytes 2 Ob.Poss.ELECTION_HOLD.ty.size ++ [0, 0] ++ [100, 0, 0, 0] }
     let t : Nat := 100
     NewRequest (s.at t) q ∧ isCaptain s q.sess = true ∧ s.com.phase = 0 ∧ s.hud.active = false ∧ (∀ r, r < 4 → s.get Ob.Ring.REJOIN_STATE r = 0) ∧ s.staged ≠ []) := by
  refine ⟨?_, ?_, ?_, ?_⟩ <;> decide +kernel

/-- The premises of SessionsReadWriteSubscribeAndCommit, clause by clause (part 2). -/
theorem witness_SessionsReadWriteSubscribeAndCommit_2 :
    (let s : State := { ((opened running 2).set Ob.Poss.CAPTAIN 2) with staged := [{ key := Ob.Poss.ELECTION_HOLD.key, val := .bytes [], total := some 5 }] }
     let q : Req := { via := 0, own := true, peer := 77, sess := 2, seqNo := 5, token := 9, body := [1, 0, 0, 0] }
     let t : Nat := 100
     let status_2 : Nat := stLength
     let reason_2 : Nat := 7
     let obj_2 : Nat := Ob.Poss.ELECTION_HOLD.key
     let a := (s.at t).set Ob.Sess.LAST_RENEWED (s.at t).now q.sess
     let b := a.modSess q.sess fun x => begin_ x q.seqNo 0x12 (windowOf (a.sess q.sess) q.seqNo).2.2
     let verdict := (commitVerdict (validating b { sess := q.sess, token := q.token, seqNo := q.seqNo, path := q.toPath }) (withEntries b b.staged)).2
     NewRequest (s.at t) q ∧ isCaptain s q.sess = true ∧ s.com.phase = 0 ∧ s.hud.active = false ∧ (∀ r, r < 4 → s.get Ob.Ring.REJOIN_STATE r = 0) ∧ s.staged ≠ [] ∧ verdict = some (status_2, reason_2, obj_2)) := by
  decide +kernel

/-- The premises of RepeatsLeasesAndElections, clause by clause (part 1). -/
theorem witness_RepeatsLeasesAndElections_1 :
    (let s : State := running
     let q : Req := { via := 0, own := true, peer := 77, sess := 2, seqNo := 5, token := 9, body := [3, 0, 0, 0] }
     let p : Path := { own := true, peer := 77 }
     let t : Nat := 100
     let b : List Byte := [1, 2, 3]
     let a := s.at t
     unitRuns s = true ∧ s.get Ob.Pair.ROLE = 0 ∧ s.flag Ob.PairC.PAIR_ENABLE = false ∧ p.via < 2 ∧ listens a p = true ∧ parseLinli p b = none ∧ listens a q.toPath = true ∧ q.via < 2 ∧ admitted a q = false) ∧
    (let s : State := running
     let p : Path := { own := true, port := 5 }
     unitRuns s = true ∧ s.get Ob.Pair.ROLE = 0 ∧ s.flag Ob.PairC.PAIR_ENABLE = false ∧ p.via < 2 ∧ p.port ≠ s.nat Ob.Poss.UDP_PORT) ∧
    (let s : State := (opened running 2).modSess 2 fun x => { x with h := 5, win := [{ seqNo := 5, op := 17, reply := some (0, [1, 2]) }] }
     let q : Req := { via := 0, own := true, peer := 77, sess := 2, seqNo := 5, token := 9, body := [3, 0, 0, 0] }
     let r : ReqRt := { seqNo := 5, op := 17, reply := some (0, [1, 2]) }
     let t : Nat := 100
     let st : Nat := 0
     let body : List Byte := [1, 2]
     let a := s.at t
     unitRuns s = true ∧ s.get Ob.Pair.ROLE = 0 ∧ s.flag Ob.PairC.PAIR_ENABLE = false ∧ listens a q.toPath = true ∧ q.via < 2 ∧ admitted a q = true ∧ (windowOf (s.sess q.sess) q.seqNo).1 = some r ∧ r.reply = some (st, body)) ∧
    (let s : State := (opened running 2).modSess 2 fun x => { x with h := 50 }
     let q : Req := { via := 0, own := true, peer := 77, sess := 2, seqNo := 5, token := 9, body := [3, 0, 0, 0] }
     let t : Nat := 100
     let a := s.at t
     unitRuns s = true ∧ s.get Ob.Pair.ROLE = 0 ∧ s.flag Ob.PairC.PAIR_ENABLE = false ∧ listens a q.toPath = true ∧ q.via < 2 ∧ admitted a q = true ∧ (windowOf (s.sess q.sess) q.seqNo).1 = none ∧ (windowOf (s.sess q.sess) q.seqNo).2.1 = false) := by
  refine ⟨?_, ?_, ?_, ?_⟩ <;> decide +kernel

/-- The premises of RepeatsLeasesAndElections, clause by clause (part 2). -/
theorem witness_RepeatsLeasesAndElections_2 :
    (let s : State := running.set Ob.Poss.UNIT_IP 0x0A000001
     let ip : Nat := 0x0A000001
     unitRuns s = true ∧ s.get Ob.Pair.ROLE = 0 ∧ s.flag Ob.PairC.PAIR_ENABLE = false ∧ ip ≠ 0 ∧ (ip = s.nat Ob.Poss.UNIT_IP ∨ ip = s.nat Ob.Poss.SERVICE_IP)) ∧
    (let s : State := opened running 2
     let t : Nat := 29750
     let c : Nat := 0
     let k : Nat := 3
     unitRuns s = true ∧ s.get Ob.Pair.ROLE = 0 ∧ cycleOfDeadline (s.tcyc s.localRing) (s.woff s.localRing) t = some c ∧ sessOpen s k = false) ∧
    (let s : State := ((opened (opened running 2) 3).set Ob.Sess.CLAIM_PRIORITY 4 2).set Ob.Sess.CLAIM_PRIORITY 5 3
     let t : Nat := 10000029750
     let c : Nat := 10000000000
     let a := s.at t
     unitRuns s = true ∧ s.get Ob.Pair.ROLE = 0 ∧ cycleOfDeadline (s.tcyc s.localRing) (s.woff s.localRing) t = some c ∧ s.get Ob.Poss.CAPTAIN = 0xFF ∧ claims s ≠ [] ∧ max s.host.looseAt (s.host.firstClaim.getD s.host.looseAt) + s.nat Ob.Poss.ELECTION_HOLD * 1000000 ≤ a.now) ∧
    (let s : State := opened running 2
     let k : Nat := 2
     let v : Nat := 3
     unitRuns s = true ∧ s.get Ob.Pair.ROLE = 0 ∧ SessionWrites s k ∧ isCaptain s k = false ∧ v ≤ 15) := by
  refine ⟨?_, ?_, ?_, ?_⟩ <;> decide +kernel

/-- The premises of PcieChannelsTakeRequestsAndHandOutReplies, clause by clause (part 1). -/
theorem witness_PcieChannelsTakeRequestsAndHandOutReplies_1 :
    (let s : State := running
     let c : Nat := 1
     let len : Nat := 12
     unitRuns s = true ∧ c < 4 ∧ (len < 16 ∨ 1472 < len)) ∧
    (let s : State := running
     let c : Nat := 1
     let len : Nat := 20
     let x := s.chan c
     let message := parseLinli { via := 2 + c, own := true } ((List.range len).map fun i => Mem.get x.req i)
     unitRuns s = true ∧ c < 4 ∧ 16 ≤ len ∧ len ≤ 1472 ∧ message = none) ∧
    (let s : State := modChan running 1 fun x => { x with req := channelMessage }
     let c : Nat := 1
     let len : Nat := 16
     let off : Nat := 8
     let y : Nat := 2
     let k : Nat := 3
     let op_0 : Nat := 2
     let q_0 : Req := { via := 3, own := true, port := 40917, sess := 2, seqNo := 5, token := 9, body := [] }
     let x := s.chan c
     let message := parseLinli { via := 2 + c, own := true } ((List.range len).map fun i => Mem.get x.req i)
     unitRuns s = true ∧ c < 4 ∧ 16 ≤ len ∧ len ≤ 1472 ∧ message = some (op_0, q_0) ∧ op_0 ≠ 1 ∧ admitted s q_0 = false ∧ x.queue = [] ∧ bit x.status 31 = false ∧ x.held = none ∧ off % 4 = 0 ∧ off < 1536 ∧ off < 0x2000 ∧ 1 ≤ y ∧ y < 14 ∧ k < 16) ∧
    (let s : State := modChan running 1 fun x => { x with queue := [[1, 2], [3]] }
     let c : Nat := 1
     let b : List Byte := [1, 2]
     let l : List (List Byte) := [[3]]
     let x := s.chan c
     unitRuns s = true ∧ c < 4 ∧ x.queue = b :: l ∧ b.length ≤ 1472) := by
  refine ⟨?_, ?_, ?_, ?_⟩ <;> decide +kernel

/-- The premises of PcieChannelsTakeRequestsAndHandOutReplies, clause by clause (part 2). -/
theorem witness_PcieChannelsTakeRequestsAndHandOutReplies_2 :
    (let s : State := modChan running 1 fun x => { x with held := some [1, 2], status := 2 ^ 31, notify := 2 ^ 31 + 7 }
     let c : Nat := 1
     let b : List Byte := [1, 2]
     let x := s.chan c
     unitRuns s = true ∧ c < 4 ∧ x.held = some b ∧ b.length ≤ 1472) := by
  decide +kernel

/-- The premises of ResetsReleasesAndWakes, clause by clause (part 1). -/
theorem witness_ResetsReleasesAndWakes_1 :
    (let s : State := running
     let low : Nat := 1000
     let rail : Nat := 3
     let ns : Nat := 2001
     1000 ≤ low ∧ s.boot.off = false ∧ s.boot.standby = false ∧ s.boot.held = 0 ∧ 2000 < ns ∧ rail ≤ 8 ∧ rail ≠ 5 ∧ unitRuns s = true ∧ (∀ a, a < 256 → (s.axis a).mot.state.powered = false) ∧ s.store.saving = none ∧ s.boot.upload = none) ∧
    (let s : State := withAxisState running 3 .enabled
     let t : Nat := 100000001
     let p : Nat := 1
     p < 2 ∧ s.boot.held = 0 ∧ s.boot.standby = false ∧ s.boot.off = false ∧ s.boot.fed.getD p 0 + 100000000 < t) ∧
    (let s : State := (running.set Ob.Pow.WAKE_AT 1).modBoot fun b => { b with standby := true, held := 1 }
     s.boot.held = 1) ∧
    (let s : State := (running.set Ob.Pow.WAKE_AT 1).modBoot fun b => { b with standby := true }
     let t : Nat := 100
     let low : Nat := 100000
     100000 ≤ low ∧ s.boot.standby = true ∧ s.boot.off = false ∧ s.boot.held = 0 ∧ s.get Ob.Pow.WAKE_AT ≠ 0 ∧ s.get Ob.Pow.WAKE_AT ≤ todAt (s.at t) (s.at t).now) := by
  refine ⟨?_, ?_, ?_, ?_⟩ <;> decide +kernel

/-- The premises of ResetsReleasesAndWakes, clause by clause (part 2). -/
theorem witness_ResetsReleasesAndWakes_2 :
    (let low : Nat := 99999
     low < 100000) ∧
    (let s : State := running
     s.boot.standby = false) := by
  refine ⟨?_, ?_⟩ <;> decide +kernel

/-- The premises of BootConfigurationAndUpload, clause by clause (part 1). -/
theorem witness_BootConfigurationAndUpload_1 :
    (let s : State := atReset
     let a := checkRegion s.boot s.boot.imgA
     let b := { s.boot with imgA := a, imgB := checkRegion s.boot s.boot.imgB }
     s.get Ob.Rst.START_STATE = 0 ∧ s.boot.held = 0 ∧ s.boot.standby = false ∧ s.boot.off = false ∧ takable b 0 = false ∧ takable b 1 = false ∧ s.boot.configured = false ∧ unitRuns s = true) ∧
    (let s : State := { atReset with boot := { running := none, imgA := { bytes := signedImage }, keys := [signingKey], configured := false } }
     let a := checkRegion s.boot s.boot.imgA
     let b := { s.boot with imgA := a, imgB := checkRegion s.boot s.boot.imgB }
     let n := selectedImage b
     s.get Ob.Rst.START_STATE = 0 ∧ s.boot.held = 0 ∧ s.boot.standby = false ∧ s.boot.off = false ∧ takable b n = true) ∧
    (let s : State := running
     s.boot.configured = true) ∧
    (let s : State := ((opened running 2).set Ob.Poss.CAPTAIN 2)
     let sess : Nat := 2
     let total : Nat := 300
     let v : List Byte := [1, 2, 3]
     SessionWrites s sess ∧ isCaptain s sess = true ∧ 256 ≤ total ∧ total ≤ 12583168 ∧ s.store.saving = none ∧ s.boot.upload = none ∧ (∀ k, s.boot.running = some k → (s.boot.region k).status ≠ 3) ∧ v.length < total) := by
  refine ⟨?_, ?_, ?_, ?_⟩ <;> decide +kernel

/-- The premises of BootConfigurationAndUpload, clause by clause (part 2). -/
theorem witness_BootConfigurationAndUpload_2 :
    (let s : State := ((opened running 2).set Ob.Poss.CAPTAIN 2)
     let sess : Nat := 2
     let total : Nat := 300
     let v : List Byte := List.replicate 300 1
     SessionWrites s sess ∧ isCaptain s sess = true ∧ 256 ≤ total ∧ total ≤ 12583168 ∧ s.store.saving = none ∧ s.boot.upload = none ∧ (∀ k, s.boot.running = some k → (s.boot.region k).status ≠ 3) ∧ v.length = total) ∧
    (let s : State := ((opened running 2).set Ob.Poss.CAPTAIN 2)
     let sess : Nat := 2
     let total : Nat := 300
     let v : List Byte := List.replicate 301 1
     SessionWrites s sess ∧ isCaptain s sess = true ∧ 256 ≤ total ∧ total ≤ 12583168 ∧ s.store.saving = none ∧ s.boot.upload = none ∧ (∀ k, s.boot.running = some k → (s.boot.region k).status ≠ 3) ∧ total < v.length) := by
  refine ⟨?_, ?_⟩ <;> decide +kernel

/-- The premises of PowerStatesAndTemperature, clause by clause (part 1). -/
theorem witness_PowerStatesAndTemperature_1 :
    (let s : State := running
     let t : Nat := 20000000
     let e : Nat := 2
     unitRuns s = true ∧ (s.get Ob.Pow.POWER_STATE = 2 ∨ s.get Ob.Pow.POWER_STATE = 3) ∧ (∀ r, r < 4 → s.get Ob.Ring.STATE r = 0 ∨ s.get Ob.Ring.STATE r = 6) ∧ (∀ a, a < 256 → (s.axis a).mot.state.powered = false) ∧ s.flag Ob.PairC.PAIR_ENABLE = false ∧ s.boot.resetDue = false ∧ e < 8 ∧ (s.ace e).powered = true ∧ s.get Ob.Pow.POWER_STATE ≠ 3 ∧ (s.eng e).run = none ∧ (∀ i ∈ s.disp.ready, bit i.mask e = false) ∧ (s.ep (5 + e)).pending = 0 ∧ (s.ace e).xld = [] ∧ (s.ace e).idleFrom + s.nat Ob.Pow.GATE_IDLE * 1000 ≤ t) ∧
    (let s : State := (running.set Ob.Pow.POWER_STATE 2).modAce 2 fun x => { x with powered := false, waking := true }
     let e : Nat := 2
     unitRuns s = true ∧ e < 8 ∧ (s.ace e).powered = false ∧ (s.ace e).waking = true) ∧
    (let s : State := running
     let x : Int := 100
     let l : List Int := [3, 90]
     let tj := l.foldl max x
     let on := s.boot.standby = false ∧ s.boot.off = false
     on ∧ s.boot.held ≠ 2 ∧ tj < 145 ∧ unitRuns s = true) ∧
    (let s : State := running.modBoot fun b => { b with held := 2 }
     let x : Int := 100
     let l : List Int := []
     let tj := l.foldl max x
     let on := s.boot.standby = false ∧ s.boot.off = false
     on ∧ s.boot.held = 2 ∧ tj < 115) := by
  refine ⟨?_, ?_, ?_, ?_⟩ <;> decide +kernel

/-- The premises of PowerStatesAndTemperature, clause by clause (part 2). -/
theorem witness_PowerStatesAndTemperature_2 :
    (let s : State := running
     let x : Int := 140
     let l : List Int := [145]
     let tj := l.foldl max x
     let on := s.boot.standby = false ∧ s.boot.off = false
     on ∧ s.boot.held ≠ 2 ∧ 145 ≤ tj) ∧
    (let s : State := (withAxisState running 3 .enabled).modBoot fun b => { b with hot := some 5 }
     let t : Nat := 10000005
     let t0 : Nat := 5
     unitRuns s = true ∧ s.boot.hot = some t0 ∧ t0 + 10000000 ≤ t ∧ s.get Ob.Therm.THERMAL_STATE ≠ 2 ∧ standbyEligible s = false ∧ isStandby s = false) := by
  refine ⟨?_, ?_⟩ <;> decide +kernel

/-- The premises of MailboxPostsAcknowledgementsAndTimeouts, clause by clause. -/
theorem witness_MailboxPostsAcknowledgementsAndTimeouts :
    (let s : State := atReset.modEp 1 fun e => { e with out := [(0, 3), (1, 5)] }
     let x : Nat := 1
     let ctrl : Word := BitVec.ofNat 32 (2 * 2 ^ 17 + 100)
     let c := ctrl ||| 0x80000000
     let d := ctrlDest c
     unitRuns s = true ∧ (s.ep x).post = none ∧ goRefusal s x c = 0 ∧ d < 14 ∧ x ≠ d ∧ hasPost s d x = false) ∧
    (let s : State := atReset
     let x : Nat := 1
     let ctrl : Word := BitVec.ofNat 32 (2 * 2 ^ 17 + 100)
     let c := ctrl ||| 0x80000000
     unitRuns s = true ∧ (s.ep x).post = none ∧ goRefusal s x c ≠ 0) ∧
    (let s : State := (atReset.modEp 2 fun e => { e with pending := 2 }).modEp 1 fun e => { e with post := some { dest := 2, remote := 0, deadline := 100 } }
     let x : Nat := 2
     let k : Nat := 1
     let p : PostSt := { dest := 2, remote := 0, deadline := 100 }
     unitRuns s = true ∧ k < 14 ∧ k ≠ x ∧ bit (s.ep x).pending k = true ∧ bit (s.ep x).orphan k = false ∧ (s.ep k).post = some p ∧ p.dest = x) ∧
    (let s : State := (atReset.modEp 2 fun e => { e with pending := 2 }).modEp 1 fun e => { e with post := some { dest := 2, remote := 0, deadline := 100 } }
     let x : Nat := 1
     let t : Nat := 500
     let p : PostSt := { dest := 2, remote := 0, deadline := 100 }
     unitRuns s = true ∧ (s.ep x).post = some p ∧ p.deadline ≤ t ∧ p.dest < 14 ∧ p.dest ≠ x) := by
  refine ⟨?_, ?_, ?_, ?_⟩ <;> decide +kernel

/-- The premises of EchoPartnerMailAndEndpointReset, clause by clause. -/
theorem witness_EchoPartnerMailAndEndpointReset :
    (let s : State := atReset.modEp 1 fun e => { e with pending := 1, slots := [(0, 0x103), (1, 77), (2, 78)] }
     let w0 := (SMap.getD (s.ep 1).slots 0 0).toNat
     unitRuns s = true ∧ bit (s.ep 1).pending 0 = true ∧ bits w0 8 16 = 1) ∧
    (let s : State := atReset
     let x : Nat := 1
     unitRuns s = true ∧ (s.ep x).post = none) ∧
    (let s : State := atReset.modEp 1 fun e => { e with post := some { dest := 14, remote := 1, deadline := 100 } }
     let x : Nat := 1
     let p : PostSt := { dest := 14, remote := 1, deadline := 100 }
     unitRuns s = true ∧ (s.ep x).post = some p ∧ p.dest = 14) := by
  refine ⟨?_, ?_, ?_⟩ <;> decide +kernel

/-- The premises of BarrierFramesCarryLevelsAndLossesMakeTheDieSafe, clause by clause (part 1). -/
theorem witness_BarrierFramesCarryLevelsAndLossesMakeTheDieSafe_1 :
    (let s : State := running
     let t : Nat := 1000
     let b : List Byte := []
     let f := s.field
     let n := (s.at t).now
     let inSlot (last : Option (Nat × Nat)) (seq : Nat) : Prop := ∀ x ∈ last, seq % 16 = (x.1 + (n / 1000 - x.2)) % 16
     unitRuns s = true ∧ n % 1000 = 0 ∧ inSlot f.downLast f.seqDown ∧ linkGood 0x7E f.downLast (n / 1000) b = false ∧ inSlot f.upLast f.seqUp ∧ linkGood 0x81 f.upLast (n / 1000) b = false ∧ f.upBad < 3 ∧ f.upGood < 1000 ∧ f.downBad < 3 ∧ f.reqSeen = false ∧ f.downGood < 1000) ∧
    (let s : State := running
     let t : Nat := 1001
     let n := (s.at t).now
     unitRuns s = true ∧ n % 1000 ≠ 0) ∧
    (let s : State := modFld (running) fun f => { f with upBad := 3 }
     let f := s.field
     unitRuns s = true ∧ 3 ≤ f.upBad ∧ s.get Ob.Die.LINK_STATE ≠ 2) ∧
    (let s : State := modFld (running) fun f => { f with upGood := 1000, safeReq := true }
     let f := s.field
     unitRuns s = true ∧ f.safeReq = true ∧ 1000 ≤ f.upGood) := by
  refine ⟨?_, ?_, ?_, ?_⟩ <;> decide +kernel

/-- The premises of BarrierFramesCarryLevelsAndLossesMakeTheDieSafe, clause by clause (part 2). -/
theorem witness_BarrierFramesCarryLevelsAndLossesMakeTheDieSafe_2 :
    (let s : State := modFld (running) fun f => { f with downBad := 3, safe := false }
     let f := s.field
     unitRuns s = true ∧ (3 ≤ f.downBad ∨ f.reqSeen = true)) ∧
    (let s : State := modFld (running) fun f => { f with downGood := 1000, safe := true }
     let f := s.field
     unitRuns s = true ∧ f.safe = true ∧ 1000 ≤ f.downGood) := by
  refine ⟨?_, ?_⟩ <;> decide +kernel

/-- The premises of FieldOutputsSwitchLatchAndAcknowledge, clause by clause (part 1). -/
theorem witness_FieldOutputsSwitchLatchAndAcknowledge_1 :
    (let s : State := modFld (running) fun f => { f with frameAt := 0, switched := false, safe := false, fqLevel := 8 }
     let t : Nat := 5000
     let q : Nat := 3
     let r : Nat := 4
     let a := s.at t
     let f := s.field
     let x := f.outp q
     q < 16 ∧ r < 16 ∧ f.frameAt + 1200 ≤ a.now ∧ f.switched = false ∧ f.off = false ∧ timedOut s q = false ∧ s.flag Ob.Outp.PAIRED q = false ∧ x.latched = 0 ∧ unitRuns s = true) ∧
    (let s : State := modFld (running) fun f => { f with frameAt := 0, switched := false, safe := false }
     let t : Nat := 500
     let q : Nat := 3
     let r : Nat := 4
     let a := s.at t
     let f := s.field
     q < 16 ∧ r < 16 ∧ a.now < f.frameAt + 1200) ∧
    (let s : State := withOutput running 3 { edges := [(100, true)], driven := true }
     let t : Nat := 5000
     let q : Nat := 3
     let r : Nat := 4
     let e : Nat := 100
     let lv : Bool := true
     let a := s.at t
     let f := s.field
     let x := f.outp q
     q < 16 ∧ r < 16 ∧ x.edges = [(e, lv)] ∧ f.off = false ∧ e ≤ a.now ∧ x.driven = true ∧ shortBlanked a q = false) ∧
    (let s : State := withOutput running 3 { edges := [(9000, true)], driven := true }
     let t : Nat := 5000
     let q : Nat := 3
     let r : Nat := 4
     let e : Nat := 9000
     let lv : Bool := true
     let a := s.at t
     let f := s.field
     let x := f.outp q
     q < 16 ∧ r < 16 ∧ x.edges = [(e, lv)] ∧ f.off = false ∧ a.now < e) := by
  refine ⟨?_, ?_, ?_, ?_⟩ <;> decide +kernel

/-- The premises of FieldOutputsSwitchLatchAndAcknowledge, clause by clause (part 2). -/
theorem witness_FieldOutputsSwitchLatchAndAcknowledge_2 :
    (let s : State := withOutput (withOutput running 4 { driven := true }) 3 { driven := true, level := true }
     let t : Nat := 5000
     let q : Nat := 3
     let r : Nat := 4
     let a := s.at t
     let f := s.field
     let x := f.outp q
     q < 16 ∧ r < 16 ∧ x.driven = true ∧ shortBlanked a q = false ∧ r ≠ q ∧ (f.outp r).driven = true ∧ (f.outp r).level ≠ x.level) ∧
    (let s : State := (withOutput running 3 { driven := true, level := true }).set Ob.Outp.OPEN_DETECT 1 3
     let q : Nat := 3
     let r : Nat := 4
     let f := s.field
     let x := f.outp q
     q < 16 ∧ r < 16 ∧ s.flag Ob.Outp.OPEN_DETECT q = true ∧ x.driven = true ∧ x.level = true ∧ x.openLoad = false) ∧
    (let s : State := withOutput running 3 { driven := true, level := true, openLoad := true }
     let q : Nat := 3
     let r : Nat := 4
     let f := s.field
     let x := f.outp q
     q < 16 ∧ r < 16 ∧ x.openLoad = true) ∧
    (let s : State := withOutput running 3 { latched := 2 }
     let q : Nat := 3
     let r : Nat := 4
     let f := s.field
     let x := f.outp q
     q < 16 ∧ r < 16 ∧ unitRuns s = true ∧ x.latched ≠ 0) := by
  refine ⟨?_, ?_, ?_, ?_⟩ <;> decide +kernel

/-- The premises of FieldInputsBrakesAndSupplyAreFollowed, clause by clause (part 1). -/
theorem witness_FieldInputsBrakesAndSupplyAreFollowed_1 :
    (let s : State := running
     let t : Nat := 9000000
     let i : Nat := 2
     let bk : Nat := 1
     let cross : Nat := 0
     let lv : Bool := true
     let a := s.at t
     let f := s.field
     i < 24 ∧ bk < 8 ∧ (f.inp i).level ≠ lv ∧ (inputMe s i = true ∨ cross + debounceNs s i ≤ a.now) ∧ unitRuns s = true ∧ s.get Ob.Die.LINK_STATE ≠ 1) ∧
    (let s : State := running
     let i : Nat := 2
     let bk : Nat := 1
     let lv : Bool := false
     let f := s.field
     i < 24 ∧ bk < 8 ∧ (f.inp i).level = lv) ∧
    (let s : State := running.set Ob.Inp.OPEN_DETECT 1 2
     let i : Nat := 2
     let bk : Nat := 1
     let f := s.field
     i < 24 ∧ bk < 8 ∧ s.flag Ob.Inp.OPEN_DETECT i = true ∧ (f.inp i).openIn = false) ∧
    (let s : State := modFld (running) fun f => { f with ins := [(2, { openIn := true })] }
     let i : Nat := 2
     let bk : Nat := 1
     let f := s.field
     i < 24 ∧ bk < 8 ∧ (f.inp i).openIn = true) := by
  refine ⟨?_, ?_, ?_, ?_⟩ <;> decide +kernel

/-- The premises of FieldInputsBrakesAndSupplyAreFollowed, clause by clause (part 2). -/
theorem witness_FieldInputsBrakesAndSupplyAreFollowed_2 :
    (let s : State := running
     let i : Nat := 2
     let bk : Nat := 1
     let vf : Nat := 1700
     let f := s.field
     i < 24 ∧ bk < 8 ∧ f.supply = 0 ∧ vf < 1800 ∧ vf < 1850) ∧
    (let s : State := running
     let i : Nat := 2
     let bk : Nat := 1
     let vf : Nat := 1000
     let f := s.field
     i < 24 ∧ bk < 8 ∧ f.supply ≠ 2 ∧ vf < 1400) ∧
    (let s : State := running
     let i : Nat := 2
     let bk : Nat := 1
     let vf : Nat := 4000
     let f := s.field
     i < 24 ∧ bk < 8 ∧ f.supply ≠ 3 ∧ 3300 < vf) ∧
    (let s : State := modFld (running) fun f => { f with supply := 1 }
     let i : Nat := 2
     let bk : Nat := 1
     let vf : Nat := 1850
     let f := s.field
     i < 24 ∧ bk < 8 ∧ f.supply = 1 ∧ 1850 ≤ vf) := by
  refine ⟨?_, ?_, ?_, ?_⟩ <;> decide +kernel

/-- The premises of FieldInputsBrakesAndSupplyAreFollowed, clause by clause (part 3). -/
theorem witness_FieldInputsBrakesAndSupplyAreFollowed_3 :
    (let s : State := modFld (running) fun f => { f with supply := 2 }
     let i : Nat := 2
     let bk : Nat := 1
     let vf : Nat := 1700
     let f := s.field
     i < 24 ∧ bk < 8 ∧ f.supply = 2 ∧ 1600 < vf) ∧
    (let s : State := running.set Ob.Die.LINK_STATE 1
     let i : Nat := 2
     let bk : Nat := 1
     i < 24 ∧ bk < 8 ∧ unitRuns s = true ∧ s.get Ob.Die.LINK_STATE = 1 ∧ s.get Ob.Die.SUPPLY_STATE ≤ 1) := by
  refine ⟨?_, ?_⟩ <;> decide +kernel

/-- The premises of PwmLoadsPeriodsAndTrips, clause by clause (part 1). -/
theorem witness_PwmLoadsPeriodsAndTrips_1 :
    (let s : State := pwm 2
     let p : Nat := 2
     p < 8 ∧ unitRuns s = true ∧ portFn s p = 2) ∧
    (let s : State := running
     let p : Nat := 2
     let m : Nat := 6
     let t : Nat := 5000
     let a := s.at t
     let q := s.port p
     p < 8 ∧ unitRuns s = true ∧ portFn s p ≠ 2 ∧ 1 ≤ m ∧ m ≤ 255 ∧ (∃ k, k < 8 ∧ bit m k = true ∧ portFn s k ≠ 2) ∧ periodDue a p a.now = none ∧ q.tripped = false ∧ tripPersists s p = false) ∧
    (let s : State := (pwm 2).set Ob.Port.FUNCTION 2 1
     let p : Nat := 2
     let m : Nat := 6
     p < 8 ∧ unitRuns s = true ∧ 1 ≤ m ∧ m ≤ 255 ∧ (∀ k, k < 8 → bit m k = true → portFn s k = 2)) ∧
    (let s : State := pwm 2
     let p : Nat := 2
     let m : Nat := 0
     p < 8 ∧ unitRuns s = true ∧ (m = 0 ∨ 255 < m)) := by
  refine ⟨?_, ?_, ?_, ?_⟩ <;> decide +kernel

/-- The premises of PwmLoadsPeriodsAndTrips, clause by clause (part 2). -/
theorem witness_PwmLoadsPeriodsAndTrips_2 :
    (let s : State := modPrt ((pwm 2).set Ob.Pwm.SYNC_SOURCE 0 2) 2 fun q => { q with armed := some 100 }
     let p : Nat := 2
     let t : Nat := 5000
     let t0 : Nat := 100
     let x : Nat := dueStart (modPrt ((pwm 2).set Ob.Pwm.SYNC_SOURCE 0 2) 2 fun q => { q with armed := some 100 }) 2 5000
     let a := s.at t
     let q := s.port p
     p < 8 ∧ unitRuns s = true ∧ portFn s p = 2 ∧ periodDue a p a.now = some x ∧ q.armed = some t0 ∧ t0 < a.now ∧ q.heldAt ≠ a.now) ∧
    (let s : State := (pwm 2).set Ob.Pwm.SYNC_SOURCE 0 2
     let p : Nat := 2
     let t : Nat := 5000
     let x : Nat := dueStart ((pwm 2).set Ob.Pwm.SYNC_SOURCE 0 2) 2 5000
     let a := s.at t
     p < 8 ∧ unitRuns s = true ∧ periodDue a p a.now = some x) ∧
    (let s : State := modPrt (pwm 2) 2 fun q => { q with tripped := true, tripInput := true }
     let p : Nat := 2
     p < 8 ∧ unitRuns s = true ∧ tripPersists s p = true) := by
  refine ⟨?_, ?_, ?_⟩ <;> decide +kernel

/-- The premises of SigmaDeltaStepsAndStepInputs, clause by clause (part 1). -/
theorem witness_SigmaDeltaStepsAndStepInputs_1 :
    (let s : State := (running.set Ob.Port.FUNCTION 1 2).set Ob.Sd.OC_LIMIT (oneTenth) 2
     let p : Nat := 2
     let c : Nat := 1
     let v : Nat := (sincOf ((running.set Ob.Port.FUNCTION 1 2).set Ob.Sd.OC_LIMIT (oneTenth) 2) 2 bitsA).headD 0
     let l : List Bool := bitsA
     let vs : List Nat := (sincOf ((running.set Ob.Port.FUNCTION 1 2).set Ob.Sd.OC_LIMIT (oneTenth) 2) 2 bitsA).tail
     let lim := q131 (s.get Ob.Sd.OC_LIMIT p)
     p < 8 ∧ c < 3 ∧ unitRuns s = true ∧ sinc3 (s.nat Ob.Sd.OC_OSR p) l = v :: vs ∧ lim ≠ 0 ∧ lim < |sincNorm (s.nat Ob.Sd.OC_OSR p) v| ∧ sdStuck s p l = true ∧ s.flag Ob.Step.STEP_IN_ENABLE p = false) ∧
    (let s : State := running.set Ob.Sd.OC_LIMIT (oneTenth) 2
     let p : Nat := 2
     let c : Nat := 1
     let noClock : Nat := 5000
     let v : Nat := (sincOf (running.set Ob.Sd.OC_LIMIT (oneTenth) 2) 2 bitsB).headD 0
     let l : List Bool := bitsB
     let vs : List Nat := (sincOf (running.set Ob.Sd.OC_LIMIT (oneTenth) 2) 2 bitsB).tail
     let lim := q131 (s.get Ob.Sd.OC_LIMIT p)
     p < 8 ∧ c < 3 ∧ unitRuns s = true ∧ sinc3 (s.nat Ob.Sd.OC_OSR p) l = v :: vs ∧ |sincNorm (s.nat Ob.Sd.OC_OSR p) v| ≤ lim ∧ sdStuck s p l = false ∧ (s.get Ob.Sd.SD_CLK_MODE p ≠ 1 ∨ noClock < 1000) ∧ 3 * s.nat Ob.Sd.SD_OSR p ≤ l.length) ∧
    (let s : State := modPrt stepOutput 2 fun q => { q with step := { q.step with rTgt := 65536 } }
     let p : Nat := 2
     let c : Nat := 1
     let t : Nat := 1000
     let due : Nat := 1000
     let dir : Bool := true
     let a := s.at t
     let q := s.port p
     p < 8 ∧ c < 3 ∧ unitRuns s = true ∧ stepOn s p = true ∧ stepAsked q.step a.now = some (dir, due) ∧ q.step.lastRise = none ∧ q.step.dir = dir ∧ q.step.dirAt + s.nat Ob.Step.DIR_SETUP p ≤ a.now ∧ a.now ≤ due) ∧
    (let s : State := stepOutput
     let p : Nat := 2
     let c : Nat := 1
     let t : Nat := 5000
     let due : Nat := ((stepAsked (stepOutput.port 2).step 5000).map (·.2)).getD 0
     let dir : Bool := true
     let a := s.at t
     let q := s.port p
     p < 8 ∧ c < 3 ∧ unitRuns s = true ∧ stepOn s p = true ∧ stepAsked q.step a.now = some (dir, due) ∧ q.step.lastRise = none ∧ q.step.dir = dir ∧ q.step.dirAt + s.nat Ob.Step.DIR_SETUP p ≤ a.now ∧ due < a.now ∧ q.step.delayed = false ∧ portFn s p = 3) := by
  refine ⟨?_, ?_, ?_, ?_⟩ <;> decide +kernel

/-- The premises of SigmaDeltaStepsAndStepInputs, clause by clause (part 2). -/
theorem witness_SigmaDeltaStepsAndStepInputs_2 :
    (let s : State := modPrt stepOutput 2 fun q => { q with step := { q.step with halted := true } }
     let p : Nat := 2
     let c : Nat := 1
     let q := s.port p
     p < 8 ∧ c < 3 ∧ unitRuns s = true ∧ portFn s p = 3 ∧ q.step.halted = true) ∧
    (let s : State := running.set Ob.Step.STEP_IN_ENABLE 1 2
     let p : Nat := 2
     let c : Nat := 1
     p < 8 ∧ c < 3 ∧ unitRuns s = true ∧ s.flag Ob.Step.STEP_IN_ENABLE p = true) := by
  refine ⟨?_, ?_⟩ <;> decide +kernel

/-- The premises of EncoderEdgesCountAndFaultsLatch, clause by clause. -/
theorem witness_EncoderEdgesCountAndFaultsLatch :
    (let s : State := encoderIn running 2 1
     let u : Nat := 2
     let held : Nat := 1
     u < 12 ∧ unitRuns s = true ∧ held < unitFilter s u) ∧
    (let s : State := encoderIn running 2 1
     let u : Nat := 2
     let t : Nat := 50000
     let held : Nat := 100
     let a : Nat := 3
     let pair : Nat := 1
     let x : Bool := true
     let y : Bool := false
     let z : Bool := true
     let d : Int := 1
     let q := (s.fbu u).quad
     let s' := s.at t
     u < 12 ∧ unitRuns s = true ∧ quadOn s u = true ∧ unitFilter s u ≤ held ∧ quadMove q.a q.b x y = some d ∧ d ≠ 0 ∧ q.z ≠ z ∧ s.get Ob.Fb.INDEX_GATE (fbIx u) = 0 ∧ u < 8 ∧ pair < 4 ∧ unitMode s u ≠ 0 ∧ (s.axis a).fb.hold < s.nat Ob.AxFb.FB_HOLD_LIMIT a ∧ q.wires = 0 ∧ (u < 8 ∨ s.get Ob.Die.LINK_STATE ≠ 2) ∧ (∀ w ∈ q.illegal, w + s.nat Ob.Fb.ILLEGAL_WINDOW (fbIx u) * 1000000 < s'.now) ∧ (s.fbu u).abs.errNow = false) ∧
    (let s : State := encoderIn running 2 1
     let u : Nat := 2
     let held : Nat := 100
     let x : Bool := true
     let y : Bool := true
     let q := (s.fbu u).quad
     u < 12 ∧ unitRuns s = true ∧ quadOn s u = true ∧ unitFilter s u ≤ held ∧ quadMove q.a q.b x y = none) ∧
    (let s : State := (withAxisState (running.set Ob.AxFb.FB_SOURCE 0 3) 3 .enabled).modAxis 3 fun x => { x with fb := { x.fb with hold := 1000 } }
     let u : Nat := 2
     let a : Nat := 3
     u < 12 ∧ unitRuns s = true ∧ a < 256 ∧ s.get Ob.AxFb.FB_SOURCE a ≤ 1 ∧ s.nat Ob.AxFb.FB_HOLD_LIMIT a ≤ (s.axis a).fb.hold ∧ 0 < (s.axis a).fb.hold ∧ (s.axis a).mot.state ≠ .disabled) := by
  refine ⟨?_, ?_, ?_, ?_⟩ <;> decide +kernel

/-- The premises of AbsoluteFramesAreTakenOrCounted, clause by clause (part 1). -/
theorem witness_AbsoluteFramesAreTakenOrCounted_1 :
    (let s : State := absAsked
     let u : Nat := 2
     let word : Nat := (absWord (absAsked) bitsB).1
     let code : Nat := (absWord (absAsked) bitsB).2
     let low : Bool := false
     let l : List Bool := bitsB
     let f := s.fbu u
     u < 8 ∧ unitRuns s = true ∧ unitMode s u = 2 ∧ f.abs.req ≠ 0 ∧ absDecode s u low l = (word, code) ∧ code = 0 ∧ f.abs.badRun < s.nat Ob.Fb.ABS_ERR_LIMIT u) ∧
    (let s : State := absAsked
     let u : Nat := 2
     let word : Nat := (absDecode absAsked 2 true bitsB).1
     let code : Nat := (absDecode absAsked 2 true bitsB).2
     let low : Bool := true
     let l : List Bool := bitsB
     let f := s.fbu u
     u < 8 ∧ unitRuns s = true ∧ unitMode s u = 2 ∧ f.abs.req ≠ 0 ∧ absDecode s u low l = (word, code) ∧ code ≠ 0) ∧
    (let s : State := running
     let u : Nat := 2
     let f := s.fbu u
     u < 8 ∧ unitRuns s = true ∧ f.abs.req = 0) ∧
    (let s : State := modAbs (encoderIn running 2 2) 2 fun x => { x with badRun := 20 }
     let u : Nat := 2
     let f := s.fbu u
     u < 8 ∧ unitRuns s = true ∧ 2 ≤ unitMode s u ∧ s.nat Ob.Fb.ABS_ERR_LIMIT u ≤ f.abs.badRun) := by
  refine ⟨?_, ?_, ?_, ?_⟩ <;> decide +kernel

/-- The premises of AbsoluteFramesAreTakenOrCounted, clause by clause (part 2). -/
theorem witness_AbsoluteFramesAreTakenOrCounted_2 :
    (let s : State := (encoderIn running 2 3).set Ob.Fb.ABS_CHECK_PERIOD 10 2
     let u : Nat := 2
     let t : Nat := 50000000
     let s' := s.at t
     let f := s.fbu u
     u < 8 ∧ unitRuns s = true ∧ unitMode s u = 3 ∧ 0 < s.nat Ob.Fb.ABS_CHECK_PERIOD u ∧ f.abs.lastCheck + s.nat Ob.Fb.ABS_CHECK_PERIOD u * 1000000 ≤ s'.now) ∧
    (let s : State := (encoderIn running 2 3).set Ob.Fb.ABS_CHECK_PERIOD 10 2
     let u : Nat := 2
     let t : Nat := 50000
     let s' := s.at t
     let f := s.fbu u
     u < 8 ∧ unitRuns s = true ∧ unitMode s u = 3 ∧ 0 < s.nat Ob.Fb.ABS_CHECK_PERIOD u ∧ s'.now < f.abs.lastCheck + s.nat Ob.Fb.ABS_CHECK_PERIOD u * 1000000) := by
  refine ⟨?_, ?_⟩ <;> decide +kernel

/-- The premises of LatchesAndCompareUnitsTakeTheirEvents, clause by clause (part 1). -/
theorem witness_LatchesAndCompareUnitsTakeTheirEvents_1 :
    (let s : State := running
     let l : Nat := 1
     let u : Nat := 2
     let c := s.cmp u
     l < 8 ∧ u < 8 ∧ unitRuns s = true ∧ s.nat Ob.Lat.TRIGGER l = 0 ∧ c.level = false) ∧
    (let s : State := (running.set Ob.Lat.TRIGGER 1 1).set Ob.Lat.POS_SOURCE 2 1
     let l : Nat := 1
     let u : Nat := 2
     let t : Nat := 50000
     let falling : Bool := false
     let x := s.latch l
     l < 8 ∧ u < 8 ∧ unitRuns s = true ∧ 1 ≤ s.nat Ob.Lat.TRIGGER l ∧ (s.nat Ob.Lat.POS_SOURCE l < 8 ∨ s.get Ob.Die.LINK_STATE ≠ 2) ∧ edgeWanted (s.get Ob.Lat.EDGE l) falling = true ∧ latchHas x t falling = false) ∧
    (let s : State := modLatch (running.set Ob.Lat.STATE 1 1) fun x => { x with waiting := [(45000, { t := 40000, cnt := 5, frac := 6, falling := false, seqNo := 0 })] }
     let l : Nat := 1
     let u : Nat := 2
     let t : Nat := 50000
     let r : Nat := 45000
     let e : LatchEv := { t := 40000, cnt := 5, frac := 6, falling := false, seqNo := 0 }
     let s' := s.at t
     let x := s.latch l
     l < 8 ∧ u < 8 ∧ unitRuns s = true ∧ x.waiting = [(r, e)] ∧ r ≤ s'.now ∧ s.get Ob.Lat.STATE l = 1 ∧ inWindow s l e.cnt = true ∧ x.fifo.length < 16) ∧
    (let s : State := modLatch (running.set Ob.Lat.STATE 1 1) fun x => { x with waiting := [(45000, { t := 40000, cnt := 5, frac := 6, falling := false, seqNo := 0 })], fifo := List.replicate 16 { t := 40000, cnt := 5, frac := 6, falling := false, seqNo := 0 } }
     let l : Nat := 1
     let u : Nat := 2
     let t : Nat := 50000
     let r : Nat := 45000
     let e : LatchEv := { t := 40000, cnt := 5, frac := 6, falling := false, seqNo := 0 }
     let s' := s.at t
     let x := s.latch l
     l < 8 ∧ u < 8 ∧ unitRuns s = true ∧ x.waiting = [(r, e)] ∧ r ≤ s'.now ∧ s.get Ob.Lat.STATE l = 1 ∧ inWindow s l e.cnt = true ∧ 16 ≤ x.fifo.length) := by
  refine ⟨?_, ?_, ?_, ?_⟩ <;> decide +kernel

/-- The premises of LatchesAndCompareUnitsTakeTheirEvents, clause by clause (part 2). -/
theorem witness_LatchesAndCompareUnitsTakeTheirEvents_2 :
    (let s : State := modLatch running fun x => { x with waiting := [(45000, { t := 40000, cnt := 5, frac := 6, falling := false, seqNo := 0 })] }
     let l : Nat := 1
     let u : Nat := 2
     let t : Nat := 50000
     let r : Nat := 45000
     let e : LatchEv := { t := 40000, cnt := 5, frac := 6, falling := false, seqNo := 0 }
     let s' := s.at t
     let x := s.latch l
     l < 8 ∧ u < 8 ∧ unitRuns s = true ∧ x.waiting = [(r, e)] ∧ r ≤ s'.now ∧ s.get Ob.Lat.STATE l ≠ 1) ∧
    (let s : State := modCmp (running.set Ob.Cmp.STATE 1 2) fun x => { x with arming := 1, committed := [{ t := 40000, th := 39000, late := true, merged := false, cv := 5, single := some 1 }] }
     let l : Nat := 1
     let u : Nat := 2
     let t : Nat := 50000
     let h : CmpHit := { t := 40000, th := 39000, late := true, merged := false, cv := 5, single := some 1 }
     let s' := s.at t
     let c := s.cmp u
     l < 8 ∧ u < 8 ∧ unitRuns s = true ∧ c.committed = [h] ∧ h.t ≤ s'.now) ∧
    (let s : State := modCmp running fun x => { x with committed := [{ t := 40000, th := 39000, late := true, merged := false, cv := 5, single := some 1 }] }
     let l : Nat := 1
     let u : Nat := 2
     let t : Nat := 39999
     let h : CmpHit := { t := 40000, th := 39000, late := true, merged := false, cv := 5, single := some 1 }
     let s' := s.at t
     let c := s.cmp u
     l < 8 ∧ u < 8 ∧ unitRuns s = true ∧ c.committed = [h] ∧ s'.now < h.t) ∧
    (let s : State := modCmp running fun x => { x with level := true, pulseEnd := 40000 }
     let l : Nat := 1
     let u : Nat := 2
     let t : Nat := 50000
     let s' := s.at t
     let c := s.cmp u
     l < 8 ∧ u < 8 ∧ unitRuns s = true ∧ c.level = true ∧ c.pulseEnd ≤ s'.now) := by
  refine ⟨?_, ?_, ?_, ?_⟩ <;> decide +kernel

/-- The premises of PulsesAndTimeLatchesFollowTheTimeBase, clause by clause (part 1). -/
theorem witness_PulsesAndTimeLatchesFollowTheTimeBase_1 :
    (let s : State := pulseSet.set Ob.Ttp.WIDTH 1 1
     let c : Nat := 1
     let l : Nat := 2
     let target := s.nat Ob.Ttp.TARGET c
     let fits := ttpPeriodOk target (s.nat Ob.Ttp.PERIOD c) && ttpWidthOk target (s.nat Ob.Ttp.PERIOD c) (s.nat Ob.Ttp.WIDTH c)
     c < 8 ∧ l < 8 ∧ unitRuns s = true ∧ fits = false) ∧
    (let s : State := pulseSet
     let c : Nat := 1
     let l : Nat := 2
     let t : Nat := 50000
     let s' := s.at t
     let target := s.nat Ob.Ttp.TARGET c
     let start := s.nat Ob.Ttp.START c
     let lead := if 1 ≤ target ∧ target ≤ 16 then 5000 else 1000
     let fits := ttpPeriodOk target (s.nat Ob.Ttp.PERIOD c) && ttpWidthOk target (s.nat Ob.Ttp.PERIOD c) (s.nat Ob.Ttp.WIDTH c)
     c < 8 ∧ l < 8 ∧ unitRuns s = true ∧ fits = true ∧ s.get Ob.Ttp.TIMEBASE c = 0 ∧ s'.now + lead ≤ start) ∧
    (let s : State := running
     let c : Nat := 1
     let l : Nat := 2
     let t : Nat := 50000
     let s' := s.at t
     let target := s.nat Ob.Ttp.TARGET c
     let start := s.nat Ob.Ttp.START c
     let lead := if 1 ≤ target ∧ target ≤ 16 then 5000 else 1000
     let fits := ttpPeriodOk target (s.nat Ob.Ttp.PERIOD c) && ttpWidthOk target (s.nat Ob.Ttp.PERIOD c) (s.nat Ob.Ttp.WIDTH c)
     c < 8 ∧ l < 8 ∧ unitRuns s = true ∧ fits = true ∧ s.get Ob.Ttp.TIMEBASE c = 0 ∧ 0 ≤ s.get Ob.Ttp.START c ∧ start < s'.now + lead ∧ s.get Ob.TLat.SOURCE l = 0) ∧
    (let s : State := modTtp ((pulseSet.set Ob.Ttp.STATUS 2 1).set Ob.Ttp.TARGET 17 1) fun x => { x with start := 45000, width := 5000, high := true }
     let c : Nat := 1
     let l : Nat := 2
     let t : Nat := 50000
     let x := s.ttp c
     let st := s.get Ob.Ttp.STATUS c
     let s' := s.at t
     c < 8 ∧ l < 8 ∧ unitRuns s = true ∧ (st = 1 ∨ st = 2) ∧ x.high = true ∧ x.next ≤ s'.now) := by
  refine ⟨?_, ?_, ?_, ?_⟩ <;> decide +kernel

/-- The premises of PulsesAndTimeLatchesFollowTheTimeBase, clause by clause (part 2). -/
theorem witness_PulsesAndTimeLatchesFollowTheTimeBase_2 :
    (let s : State := modTtp (pulseSet.set Ob.Ttp.STATUS 1 1) fun x => { x with start := 45000, width := 5000 }
     let c : Nat := 1
     let l : Nat := 2
     let t : Nat := 50000
     let x := s.ttp c
     let st := s.get Ob.Ttp.STATUS c
     let s' := s.at t
     c < 8 ∧ l < 8 ∧ unitRuns s = true ∧ (st = 1 ∨ st = 2) ∧ x.high = false ∧ x.next ≤ s'.now) ∧
    (let s : State := modTtp (pulseSet.set Ob.Ttp.STATUS 1 1) fun x => { x with start := 65536000000, width := 5000 }
     let c : Nat := 1
     let l : Nat := 2
     let t : Nat := 50000
     let s' := s.at t
     let x := s.ttp c
     c < 8 ∧ l < 8 ∧ unitRuns s = true ∧ s'.now < x.next) ∧
    (let s : State := running.set Ob.TLat.SOURCE 1 2
     let c : Nat := 1
     let l : Nat := 2
     let t : Nat := 50000
     let falling : Bool := false
     let y := s.tlat l
     c < 8 ∧ l < 8 ∧ unitRuns s = true ∧ s.get Ob.TLat.SOURCE l ≠ 0 ∧ edgeWanted (s.get Ob.TLat.EDGE l) falling = true ∧ y.last ≠ some (t, falling) ∧ y.fifo.length < 16) ∧
    (let s : State := { running with time := { running.time with tlats := [(2, { fifo := List.replicate 16 (5, false, 1) })] } } |>.set Ob.TLat.SOURCE 1 2
     let c : Nat := 1
     let l : Nat := 2
     let t : Nat := 50000
     let falling : Bool := false
     let y := s.tlat l
     c < 8 ∧ l < 8 ∧ unitRuns s = true ∧ s.get Ob.TLat.SOURCE l ≠ 0 ∧ edgeWanted (s.get Ob.TLat.EDGE l) falling = true ∧ y.last ≠ some (t, falling) ∧ 16 ≤ y.fifo.length) := by
  refine ⟨?_, ?_, ?_, ?_⟩ <;> decide +kernel

/-- The premises of RefereeEventsMakeTheUnitSafe, clause by clause (part 1). -/
theorem witness_RefereeEventsMakeTheUnitSafe_1 :
    (let s : State := withAxisState (refereeIn running 1) 3 .enabled
     let cause : Nat := 2
     unitRuns s = true ∧ s.get Ob.Isl.RF_STATE ≠ 4 ∧ 2 ≤ cause ∧ cause ≤ 5 ∧ standbyEligible s = false ∧ s.safe.test = none) ∧
    (let s : State := modSaf (refereeIn running 1) fun f => { f with beatAt := some 100 }
     let t : Nat := 500000
     let b0 : Nat := 100
     let a := s.at t
     unitRuns s = true ∧ s.get Ob.Isl.RF_STATE ≠ 4 ∧ s.safe.beatAt = some b0 ∧ b0 + 300000 < a.now) ∧
    (let s : State := modSaf (refereeIn running 1) fun f => { f with beatAt := some 450000 }
     let t : Nat := 500000
     let b0 : Nat := 450000
     let a := s.at t
     unitRuns s = true ∧ s.get Ob.Isl.RF_STATE ≠ 4 ∧ s.safe.beatAt = some b0 ∧ a.now < b0 + 200000) ∧
    (let s : State := modSaf (refereeIn running 2) fun f => { f with test := some { axis := 3, t0 := 100 } }
     let t : Nat := 6000000000
     let b : BtRt := { axis := 3, t0 := 100 }
     let a := s.at t
     unitRuns s = true ∧ s.get Ob.Isl.RF_STATE ≠ 4 ∧ s.safe.test = some b ∧ s.get Ob.Isl.RF_STATE = 2 ∧ b.t0 + 5000000000 < a.now) := by
  refine ⟨?_, ?_, ?_, ?_⟩ <;> decide +kernel

/-- The premises of RefereeEventsMakeTheUnitSafe, clause by clause (part 2). -/
theorem witness_RefereeEventsMakeTheUnitSafe_2 :
    (let s : State := refereeIn running 4
     let cause : Nat := 2
     unitRuns s = true ∧ s.get Ob.Isl.RF_STATE = 4 ∧ 2 ≤ cause ∧ cause ≤ 5) ∧
    (let s : State := modSaf (refereeIn running 1) fun f => { f with beatAt := some 250000 }
     let t : Nat := 500000
     let b0 : Nat := 250000
     let a := s.at t
     unitRuns s = true ∧ s.safe.beatAt = some b0 ∧ b0 + 200000 ≤ a.now ∧ a.now ≤ b0 + 300000) ∧
    (let s : State := (refereeIn running 3).set Ob.Die.LINK_STATE 1
     unitRuns s = true ∧ (s.get Ob.Isl.RF_STATE = 0 ∨ s.get Ob.Isl.RF_STATE = 3) ∧ (s.safe.crc = none ∨ s.safe.crc = some (safetyCrc s)) ∧ s.get Ob.Die.LINK_STATE = 1 ∧ s.boot.configured = true ∧ s.safe.ready = false) ∧
    (let s : State := refereeIn running 0
     unitRuns s = true ∧ (s.get Ob.Isl.RF_STATE = 0 ∨ s.get Ob.Isl.RF_STATE = 3)) := by
  refine ⟨?_, ?_, ?_, ?_⟩ <;> decide +kernel

/-- The premises of SafetyDemandsAndBrakesAct, clause by clause (part 1). -/
theorem witness_SafetyDemandsAndBrakesAct_1 :
    (let s : State := withSi (inputLevel (running.set Ob.Die.LINK_STATE 1) 18 true) { since := some 100 }
     let k : Nat := 1
     let t : Nat := 900000000
     let t0 : Nat := 100
     let a := s.at t
     let q := s.si k
     unitRuns s = true ∧ k < 4 ∧ q.since = some t0 ∧ (siChannels a k).1 ≠ (siChannels a k).2 ∧ t0 + s.nat Ob.Si.DISCREPANCY k * 1000000 ≤ a.now) ∧
    (let s : State := running
     let k : Nat := 1
     let r : Nat := 1
     let p : Nat := 2
     let x : Nat := 3
     let t : Nat := 900000000
     let q := s.si k
     let a := s.at t
     unitRuns s = true ∧ q.since = none ∧ (∀ j, j < 4 → s.flag Ob.Si.SI_ENABLE j = true → siChannels a j = (false, false)) ∧ (s.ssf r p).bad < 8 ∧ brakeApplied s x = false) ∧
    (let s : State := withSi ((running.set Ob.Si.GROUP_MASK 1 1).set Ob.Si.SI_ENABLE 1 1) { at_ := some 100, demand := true }
     let k : Nat := 1
     let t : Nat := 900000000
     let t0 : Nat := 100
     let a := s.at t
     let q := s.si k
     unitRuns s = true ∧ k < 4 ∧ q.at_ = some t0 ∧ t0 ≤ a.now ∧ q.demand = true ∧ (∃ j, j < 4 ∧ s.flag Ob.Si.SI_ENABLE j = true ∧ ((siChannels a j).1 = true ∨ (siChannels a j).2 = true))) ∧
    (let s : State := modSaf running fun f => { f with ssf := SMap.put f.ssf (1 * 128 + 2) { bad := 8 } }
     let r : Nat := 1
     let p : Nat := 2
     unitRuns s = true ∧ r < 4 ∧ 8 ≤ (s.ssf r p).bad) := by
  refine ⟨?_, ?_, ?_, ?_⟩ <;> decide +kernel

/-- The premises of SafetyDemandsAndBrakesAct, clause by clause (part 2). -/
theorem witness_SafetyDemandsAndBrakesAct_2 :
    (let s : State := withSbc running { stagger := some 100 }
     let x : Nat := 3
     let t : Nat := 900000000
     let t0 : Nat := 100
     let a := s.at t
     let y := s.sbc x
     unitRuns s = true ∧ x < 256 ∧ y.stagger = some t0 ∧ t0 ≤ a.now) ∧
    (let s : State := withSbc running { stagger := some 1000000000 }
     let x : Nat := 3
     let t : Nat := 900000000
     let t0 : Nat := 1000000000
     let a := s.at t
     let y := s.sbc x
     unitRuns s = true ∧ x < 256 ∧ y.stagger = some t0 ∧ a.now < t0) ∧
    (let s : State := withSbc (running.set Ob.AxS.BRAKE 1 3) { stagger := some 1000000000 }
     let x : Nat := 3
     unitRuns s = true ∧ x < 256 ∧ brakeApplied s x = true) := by
  refine ⟨?_, ?_, ?_⟩ <;> decide +kernel

/-- The premises of BrakeTestsAndSafetyCycles, clause by clause (part 1). -/
theorem witness_BrakeTestsAndSafetyCycles_1 :
    (let s : State := running
     let x : Nat := 3
     let m := (s.axis x).mot
     let idle := m.state = .disabled ∧ bit (s.nat Ob.Ctl.CONTROL x) 0 = false
     let mayStart := s.get Ob.Isl.RF_STATE = 1 ∧ s.safe.test = none ∧ (idle ∨ (m.state = .enabled ∧ m.mode = 0)) ∧ s.get Ob.Mach.STOP_ACTIVE = 0 ∧ demandBase s x = false
     x < 256 ∧ unitRuns s = true ∧ (¬ mayStart)) ∧
    (let s : State := (running.set Ob.AxS.BRAKE 1 3).set Ob.AxS.HOLD_LOAD oneTenth 3
     let x : Nat := 3
     let t : Nat := 90000000000000000
     let a := s.at t
     x < 256 ∧ unitRuns s = true ∧ btDueness a x = 2 ∧ s.safe.test = none) ∧
    (let s : State := (refereeIn (running.set Ob.AxS.BRAKE 1 3) 1)
     let x : Nat := 3
     let m := (s.axis x).mot
     let idle := m.state = .disabled ∧ bit (s.nat Ob.Ctl.CONTROL x) 0 = false
     let mayStart := s.get Ob.Isl.RF_STATE = 1 ∧ s.safe.test = none ∧ (idle ∨ (m.state = .enabled ∧ m.mode = 0)) ∧ s.get Ob.Mach.STOP_ACTIVE = 0 ∧ demandBase s x = false
     x < 256 ∧ unitRuns s = true ∧ mayStart) ∧
    (let s : State := modSaf (refereeIn running 2) fun f => { f with test := some { axis := 3, t0 := 100 } }
     let x : Nat := 3
     let t : Nat := 900000000
     let b : BtRt := { axis := 3, t0 := 100 }
     let a := s.at t
     x < 256 ∧ unitRuns s = true ∧ s.safe.test = some b ∧ b.axis = x ∧ b.x0 = none ∧ b.t0 + s.nat Ob.AxS.ENGAGE_TIME x * 1000000 ≤ a.now) := by
  refine ⟨?_, ?_, ?_, ?_⟩ <;> decide +kernel

/-- The premises of BrakeTestsAndSafetyCycles, clause by clause (part 2). -/
theorem witness_BrakeTestsAndSafetyCycles_2 :
    (let s : State := modSaf ((refereeIn running 2).set Ob.AxS.MAX_SLIP 5 3) fun f => { f with test := some { axis := 3, t0 := 100, x0 := some 0, slip := 9, enabledByTest := true } }
     let x : Nat := 3
     let t : Nat := 900000000
     let b : BtRt := { axis := 3, t0 := 100, x0 := some 0, slip := 9, enabledByTest := true }
     let x0 : Int := 0
     let a := s.at t
     let slip := max b.slip |(s.axis x).fb.xact - x0|
     x < 256 ∧ unitRuns s = true ∧ s.safe.test = some b ∧ b.axis = x ∧ b.x0 = some x0 ∧ btAborted a b = false ∧ s.get Ob.AxS.MAX_SLIP x < slip) ∧
    (let s : State := modSaf ((refereeIn running 2).set Ob.AxS.MAX_SLIP 5 3) fun f => { f with test := some { axis := 3, t0 := 100, x0 := some 0, enabledByTest := true } }
     let x : Nat := 3
     let t : Nat := 900000000
     let b : BtRt := { axis := 3, t0 := 100, x0 := some 0, enabledByTest := true }
     let x0 : Int := 0
     let a := s.at t
     let p := a.now - (b.t0 + s.nat Ob.AxS.ENGAGE_TIME x * 1000000)
     let slip := max b.slip |(s.axis x).fb.xact - x0|
     x < 256 ∧ unitRuns s = true ∧ s.safe.test = some b ∧ b.axis = x ∧ b.x0 = some x0 ∧ btAborted a b = false ∧ slip ≤ s.get Ob.AxS.MAX_SLIP x ∧ 600000000 ≤ p ∧ btTorque s x * 9 ≤ b.maxPos * 10 ∧ btTorque s x * 9 ≤ b.maxNeg * 10) ∧
    (let s : State := modSaf (((refereeIn running 2).set Ob.AxS.MAX_SLIP 5 3).set Ob.AxS.ENGAGE_TIME 100 3) fun f => { f with test := some { axis := 3, t0 := 100, x0 := some 0, enabledByTest := true } }
     let x : Nat := 3
     let t : Nat := 200000000
     let b : BtRt := { axis := 3, t0 := 100, x0 := some 0, enabledByTest := true }
     let x0 : Int := 0
     let a := s.at t
     let p := a.now - (b.t0 + s.nat Ob.AxS.ENGAGE_TIME x * 1000000)
     let slip := max b.slip |(s.axis x).fb.xact - x0|
     x < 256 ∧ unitRuns s = true ∧ s.safe.test = some b ∧ b.axis = x ∧ b.x0 = some x0 ∧ btAborted a b = false ∧ slip ≤ s.get Ob.AxS.MAX_SLIP x ∧ p < 250000000) ∧
    (let s : State := modSaf (refereeIn running 1) fun f => { f with ready := true }
     let x : Nat := 3
     let t : Nat := 1000000
     let a := s.at t
     x < 256 ∧ unitRuns s = true ∧ t % 250000 = 0 ∧ s.safe.ready = true ∧ s.safe.test = none ∧ (∀ b0, s.safe.beatAt = some b0 → b0 + 200000 ≤ a.now ∧ a.now ≤ b0 + 300000)) := by
  refine ⟨?_, ?_, ?_, ?_⟩ <;> decide +kernel

/-- The premises of BrakeTestsAndSafetyCycles, clause by clause (part 3). -/
theorem witness_BrakeTestsAndSafetyCycles_3 :
    (let s : State := running
     let x : Nat := 3
     let t : Nat := 1000001
     x < 256 ∧ unitRuns s = true ∧ t % 250000 ≠ 0) := by
  decide +kernel

/-- The premises of SafetySessionsNeedThePassword, clause by clause (part 1). -/
theorem witness_SafetySessionsNeedThePassword_1 :
    (let s : State := modSaf (((opened running 2).set Ob.Poss.CAPTAIN 2)) fun f => { f with factory := false, hash := sha256 wrongPassword }
     let sess : Nat := 2
     let t : Nat := 5000
     let pw : List Byte := wrongPassword
     let a := s.at t
     let printable := 8 ≤ pw.length ∧ pw.length ≤ 32 ∧ ∀ c ∈ pw, 0x20 ≤ c.toNat ∧ c.toNat ≤ 0x7E
     let mine := SessionWrites s sess ∧ isCaptain s sess = true
     let locked := ∃ d, s.safe.lockUntil = some d ∧ opTime a < d
     unitRuns s = true ∧ mine ∧ printable ∧ logRefuses s = false ∧ (¬ locked) ∧ passwordRight s pw = true) ∧
    (let s : State := modSaf (((opened running 2).set Ob.Poss.CAPTAIN 2)) fun f => { f with factory := false }
     let sess : Nat := 2
     let t : Nat := 5000
     let v : Nat := 0
     let pw : List Byte := wrongPassword
     let a := s.at t
     let printable := 8 ≤ pw.length ∧ pw.length ≤ 32 ∧ ∀ c ∈ pw, 0x20 ≤ c.toNat ∧ c.toNat ≤ 0x7E
     let mine := SessionWrites s sess ∧ isCaptain s sess = true
     let locked := ∃ d, s.safe.lockUntil = some d ∧ opTime a < d
     unitRuns s = true ∧ mine ∧ printable ∧ logRefuses s = false ∧ (¬ locked) ∧ passwordRight s pw = false ∧ s.safe.session = none ∧ s.safe.exported ≤ v ∧ v ≤ s.safe.seqNo) ∧
    (let s : State := modSaf (((opened running 2).set Ob.Poss.CAPTAIN 2)) fun f => { f with lockUntil := some 9000000000000 }
     let sess : Nat := 2
     let t : Nat := 5000
     let pw : List Byte := wrongPassword
     let a := s.at t
     let printable := 8 ≤ pw.length ∧ pw.length ≤ 32 ∧ ∀ c ∈ pw, 0x20 ≤ c.toNat ∧ c.toNat ≤ 0x7E
     let mine := SessionWrites s sess ∧ isCaptain s sess = true
     let locked := ∃ d, s.safe.lockUntil = some d ∧ opTime a < d
     unitRuns s = true ∧ mine ∧ printable ∧ locked) ∧
    (let s : State := modSaf (((opened running 2).set Ob.Poss.CAPTAIN 2)) fun f => { f with session := some (1, 2, 100) }
     let sess : Nat := 2
     let n : Nat := 1
     let h : Nat := 100
     let pw : List Byte := wrongPassword
     let printable := 8 ≤ pw.length ∧ pw.length ≤ 32 ∧ ∀ c ∈ pw, 0x20 ≤ c.toNat ∧ c.toNat ≤ 0x7E
     let mine := SessionWrites s sess ∧ isCaptain s sess = true
     unitRuns s = true ∧ mine ∧ printable ∧ logRefuses s = false ∧ s.safe.session = some (n, sess, h) ∧ passwordRight s pw = false) := by
  refine ⟨?_, ?_, ?_, ?_⟩ <;> decide +kernel

/-- The premises of SafetySessionsNeedThePassword, clause by clause (part 2). -/
theorem witness_SafetySessionsNeedThePassword_2 :
    (let s : State := modSaf (((opened running 2).set Ob.Poss.CAPTAIN 2)) fun f => { f with session := some (1, 2, 100) }
     let t : Nat := 5000
     let n : Nat := 1
     let h : Nat := 2
     let u0 : Nat := 100
     let a := s.at t
     unitRuns s = true ∧ s.safe.session = some (n, h, u0) ∧ a.now < u0 + s.nat Ob.Isl.SESSION_TIMEOUT * 60000000000) ∧
    (let s : State := modSaf (((opened running 2).set Ob.Poss.CAPTAIN 2)) fun f => { f with session := some (1, 2, 100) }
     let t : Nat := 90000000000000
     let n : Nat := 1
     let h : Nat := 2
     let u0 : Nat := 100
     let a := s.at t
     unitRuns s = true ∧ s.safe.session = some (n, h, u0) ∧ u0 + s.nat Ob.Isl.SESSION_TIMEOUT * 60000000000 ≤ a.now) ∧
    (let s : State := modSaf (((opened running 2).set Ob.Poss.CAPTAIN 2)) fun f => { f with lockUntil := some 100 }
     let t : Nat := 5000
     let v : Nat := 100
     let a := s.at t
     unitRuns s = true ∧ s.safe.lockUntil = some v ∧ v ≤ opTime a) ∧
    (let s : State := modSaf (((opened running 2).set Ob.Poss.CAPTAIN 2)) fun f => { f with lockUntil := some 9000000000000 }
     let t : Nat := 5000
     let v : Nat := 9000000000000
     let a := s.at t
     unitRuns s = true ∧ s.safe.lockUntil = some v ∧ opTime a < v ∧ (v < s.safe.exported ∨ s.safe.seqNo < v)) := by
  refine ⟨?_, ?_, ?_, ?_⟩ <;> decide +kernel

/-- The premises of PairingAndRecordsFollowThePartner, clause by clause (part 1). -/
theorem witness_PairingAndRecordsFollowThePartner_1 :
    (let s : State := pairIn running 1 0
     let en : Nat := 1
     let r : Nat := 0
     let b : List Byte := []
     let st := s.get Ob.Pair.PAIR_STATE
     let enabled := s.flag Ob.PairC.PAIR_ENABLE = true
     let p := s.pair
     let standby := s.get Ob.Pair.ROLE = 2
     unitRuns s = true ∧ enabled ∧ s.boot.configured = true ∧ s.get Ob.Pair.ROLE = 1 ∧ st = 0 ∧ en ≠ s.nat Ob.PairC.UNIT_END ∧ (st = 0 ∨ st = 4) ∧ p.partner = none ∧ st ≠ 1 ∧ (b.length ≠ 32 ∨ leAt b 28 4 ≠ crc32c (slice b 0 28)) ∧ (¬ standby) ∧ isSplit s r = false) ∧
    (let s : State := pairIn running 1 0
     let en : Nat := running.nat Ob.PairC.UNIT_END
     let st := s.get Ob.Pair.PAIR_STATE
     let enabled := s.flag Ob.PairC.PAIR_ENABLE = true
     unitRuns s = true ∧ enabled ∧ s.boot.configured = true ∧ s.get Ob.Pair.ROLE = 1 ∧ st = 0 ∧ en = s.nat Ob.PairC.UNIT_END) ∧
    (let s : State := running
     let enabled := s.flag Ob.PairC.PAIR_ENABLE = true
     unitRuns s = true ∧ (¬ enabled)) ∧
    (let s : State := ((pairIn running 0 0).set Ob.Rst.START_STATE 2).set Ob.Ring.ENABLE 1 2
     let t : Nat := 90000000000
     let a := s.at t
     let p := s.pair
     let enabled := s.flag Ob.PairC.PAIR_ENABLE = true
     unitRuns s = true ∧ p.partner = none ∧ enabled ∧ s.boot.configured = true ∧ s.get Ob.Pair.ROLE = 0 ∧ s.get Ob.Rst.START_STATE = 2 ∧ p.since + s.nat Ob.PairC.PAIR_WAIT * 1000000 ≤ a.now) := by
  refine ⟨?_, ?_, ?_, ?_⟩ <;> decide +kernel

/-- The premises of PairingAndRecordsFollowThePartner, clause by clause (part 2). -/
theorem witness_PairingAndRecordsFollowThePartner_2 :
    (let s : State := running
     let t : Nat := 5
     let a := s.at t
     let p := s.pair
     unitRuns s = true ∧ p.partner = none ∧ a.now < p.since + s.nat Ob.PairC.PAIR_WAIT * 1000000) ∧
    (let s : State := pairIn running 1 5
     let st := s.get Ob.Pair.PAIR_STATE
     let enabled := s.flag Ob.PairC.PAIR_ENABLE = true
     unitRuns s = true ∧ enabled ∧ st = 5) ∧
    (let s : State := pairIn running 1 3
     let st := s.get Ob.Pair.PAIR_STATE
     let enabled := s.flag Ob.PairC.PAIR_ENABLE = true
     unitRuns s = true ∧ enabled ∧ st ≠ 0 ∧ st ≠ 4 ∧ st ≠ 5) ∧
    (let s : State := modPr (pairIn running 1 1) fun p => { p with step := 2 }
     let z : SessRt := { token := 9, h := 4, openedAt := 1, own := true }
     let p := s.pair
     let st := s.get Ob.Pair.PAIR_STATE
     let standby := s.get Ob.Pair.ROLE = 2
     unitRuns s = true ∧ st = 1 ∧ p.step ≠ 0 ∧ (p.step ≠ 2 ∨ standby ∨ (∀ z, z < 4 → s.get Ob.Ring.STATE z < 1 ∨ 4 < s.get Ob.Ring.STATE z)) ∧ (p.step = 2 ∨ p.step = 3 ∨ p.step = 5) ∧ (¬ standby)) := by
  refine ⟨?_, ?_, ?_, ?_⟩ <;> decide +kernel

/-- The premises of PairingAndRecordsFollowThePartner, clause by clause (part 3). -/
theorem witness_PairingAndRecordsFollowThePartner_3 :
    (let s : State := modPr (pairIn running 2 1) fun p => { p with step := 3 }
     let p := s.pair
     let st := s.get Ob.Pair.PAIR_STATE
     let standby := s.get Ob.Pair.ROLE = 2
     unitRuns s = true ∧ st = 1 ∧ p.step ≠ 0 ∧ p.step = 3 ∧ standby ∧ s.get Ob.Sby.BENCH_ALIGN_STATE ≠ 2) ∧
    (let s : State := (modPr (pairIn running 2 1) fun p => { p with step := 4 }).set Ob.Ring.ENABLE 1 1
     let p := s.pair
     let st := s.get Ob.Pair.PAIR_STATE
     let standby := s.get Ob.Pair.ROLE = 2
     unitRuns s = true ∧ st = 1 ∧ p.step ≠ 0 ∧ p.step = 4 ∧ standby) ∧
    (let s : State := pairIn running 2 2
     let r : Nat := 0
     let n : Nat := 5
     let b : List Byte := digestB
     let p := s.pair
     unitRuns s = true ∧ b.length = 32 ∧ leAt b 0 1 = r ∧ r < 4 ∧ leAt b 4 4 = n ∧ leAt b 28 4 = crc32c (slice b 0 28) ∧ p.theirs = [] ∧ p.mine = []) ∧
    (let s : State := modPr (pairIn running 2 2) fun p => { p with mine := [(0, 5, digestB)] }
     let r : Nat := 0
     let n : Nat := 5
     let b : List Byte := digestB
     let b' : List Byte := digestB
     let p := s.pair
     let st := s.get Ob.Pair.PAIR_STATE
     unitRuns s = true ∧ b.length = 32 ∧ leAt b 0 1 = r ∧ r < 4 ∧ leAt b 4 4 = n ∧ leAt b 28 4 = crc32c (slice b 0 28) ∧ p.theirs = [] ∧ p.mine = [(r, n, b')] ∧ st = 2 ∧ slice b' 0 28 = slice b 0 28 ∧ p.resync = []) := by
  refine ⟨?_, ?_, ?_, ?_⟩ <;> decide +kernel

/-- The premises of PairingAndRecordsFollowThePartner, clause by clause (part 4). -/
theorem witness_PairingAndRecordsFollowThePartner_4 :
    (let s : State := modPr (pairIn running 2 2) fun p => { p with mine := [(0, 5, digestC)] }
     let r : Nat := 0
     let n : Nat := 5
     let b : List Byte := digestB
     let b' : List Byte := digestC
     let p := s.pair
     let st := s.get Ob.Pair.PAIR_STATE
     unitRuns s = true ∧ b.length = 32 ∧ leAt b 0 1 = r ∧ r < 4 ∧ leAt b 4 4 = n ∧ leAt b 28 4 = crc32c (slice b 0 28) ∧ p.theirs = [] ∧ p.mine = [(r, n, b')] ∧ st = 2 ∧ slice b' 8 4 ≠ slice b 8 4) ∧
    (let s : State := (pairIn running 2 2).modRing 0 fun q => { q with cycle := 2, tc := 250000, tw := 80000000000 }
     let k : Nat := 2
     let x : Nat := 3
     let standby := s.get Ob.Pair.ROLE = 2
     let w := s.ring (s.axisRing x)
     unitRuns s = true ∧ standby ∧ x < 256 ∧ w.cycle = k ∧ w.open_ = false) ∧
    (let s : State := ((pairIn running 2 2).modRing 0 fun q => { q with cycle := 3, tc := 250000, tw := 80000000000 }).modAxis 3 fun x => { x with waiting := some 3 }
     let k : Nat := 2
     let x : Nat := 3
     let standby := s.get Ob.Pair.ROLE = 2
     let w := s.ring (s.axisRing x)
     unitRuns s = true ∧ standby ∧ x < 256 ∧ w.cycle = (k + 1) % 2 ^ 32 ∧ (s.axis x).waiting.isSome = true ∧ axisRuns s x = false) ∧
    (let s : State := modPr (pairIn running 2 1) fun p => { p with step := 2 }
     let k : Nat := 2
     let x : Nat := 3
     let standby := s.get Ob.Pair.ROLE = 2
     let w := s.ring (s.axisRing x)
     unitRuns s = true ∧ standby ∧ x < 256 ∧ w.cycle ≠ k ∧ (w.cycle ≠ (k + 1) % 2 ^ 32 ∨ (s.axis x).waiting = none ∨ axisRuns s x = true) ∧ (s.sess k).own = false) := by
  refine ⟨?_, ?_, ?_, ?_⟩ <;> decide +kernel

/-- The premises of PairingAndRecordsFollowThePartner, clause by clause (part 5). -/
theorem witness_PairingAndRecordsFollowThePartner_5 :
    (let s : State := (pairIn running 2 2).modRing 0 fun q => { q with cycle := 5, tc := 250000, tw := 80000000000 }
     let r : Nat := 0
     let n : Nat := 5
     let len : Nat := 100
     let q := s.ring r
     let standby := s.get Ob.Pair.ROLE = 2
     unitRuns s = true ∧ standby ∧ r < 4 ∧ q.cycle = n ∧ len ≠ 0) ∧
    (let s : State := modPr running fun p => { p with held := [(4, { via := 1 }, [])] }
     let n : Nat := 5
     let m : Nat := 4
     let path : Path := { via := 1 }
     let b : List Byte := []
     let p := s.pair
     unitRuns s = true ∧ p.held = [(m, path, b)] ∧ p.lone = [] ∧ path.via < 2 ∧ s.boot.resetDue = false ∧ s.boot.standbyDue = false ∧ m ≤ n) ∧
    (let s : State := modPr running fun p => { p with held := [(4, { via := 1 }, [])] }
     let n : Nat := 3
     let m : Nat := 4
     let path : Path := { via := 1 }
     let b : List Byte := []
     let p := s.pair
     unitRuns s = true ∧ p.held = [(m, path, b)] ∧ p.lone = [] ∧ path.via < 2 ∧ s.boot.resetDue = false ∧ s.boot.standbyDue = false ∧ n < m) ∧
    (let s : State := (((((pairIn running 2 2).modRing 0 fun q => { q with cycle := 5, tc := 250000, tw := 80000000000 }).set Ob.PairX.SPLIT_STATE 1 0 0 0).set Ob.Ring.STATE 5 0).modRing 0 fun q => { q with open_ := true }).set Ob.Ring.WORKER_COUNT 4 0
     let t : Nat := 80000100000
     let r : Nat := 0
     let n : Nat := 5
     let k : Nat := 2
     let a := s.at t
     let q := s.ring r
     unitRuns s = true ∧ isSplit s r = true ∧ q.cycle = n ∧ landingOpen a r k = true) := by
  refine ⟨?_, ?_, ?_, ?_⟩ <;> decide +kernel

/-- The premises of RolesChangeHandsAsThePairDecides, clause by clause (part 1). -/
theorem witness_RolesChangeHandsAsThePairDecides_1 :
    (let s : State := pairIn running 1 2
     let t : Nat := 90000000000
     let since : Nat := 100
     let r : Nat := 0
     let p := s.pair
     let role := s.get Ob.Pair.ROLE
     let a := s.at t
     let ringsQuiet := ∀ z, z < 4 → s.get Ob.Ring.REJOIN_STATE z = 0 ∧ s.get Ob.PairX.SPLIT_STATE 0 0 z = 0
     let mayDrill := standbyEligible s = true ∧ p.peer.1 = 2 ∧ s.com.phase = 0 ∧ s.hud.active = false ∧ s.safe.test = none ∧ ringsQuiet
     unitRuns s = true ∧ p.yieldOut = false ∧ s.flag Ob.PairC.PAIR_ENABLE = true ∧ s.boot.configured = true ∧ role ≠ 3 ∧ since + 2 * slowestNs s ≤ a.now ∧ role = 1 ∧ p.held = [] ∧ p.lone = [] ∧ s.boot.resetDue = false ∧ s.boot.standbyDue = false ∧ (a.now < since + 1000 ∨ (∀ z, z < 4 → s.inPlay z = true → silentRing a 0 z = false)) ∧ (s.benchUp = false ∨ (r < 4 ∧ s.inPlay r = true ∧ silentRing a 1 r = false)) ∧ (¬ mayDrill) ∧ p.drill = none ∧ role ≠ 2 ∧ isSplit s r = false) ∧
    (let s : State := modPr (pairIn running 1 2) fun p => { p with yieldOut := true, partner := some (unitSerial + 1, 2, 3) }
     let v : Nat := unitSerial + 1
     let w : Nat := 2
     let x : Nat := 3
     let p := s.pair
     unitRuns s = true ∧ p.yieldOut = true ∧ p.partner = some (v, w, x) ∧ unitSerial < v) ∧
    (let s : State := pairIn running 3 0
     let role := s.get Ob.Pair.ROLE
     unitRuns s = true ∧ role = 3) ∧
    (let s : State := pairIn running 2 2
     let t : Nat := 90000000000
     let since : Nat := 100
     let v : Nat := 1
     let a := s.at t
     let role := s.get Ob.Pair.ROLE
     unitRuns s = true ∧ s.flag Ob.PairC.PAIR_ENABLE = true ∧ since + 2 * slowestNs s ≤ a.now ∧ role = 2 ∧ v < 4) := by
  refine ⟨?_, ?_, ?_, ?_⟩ <;> first | decide +kernel | exact ⟨by decide +kernel, rfl, rfl, Nat.lt_succ_self _⟩

/-- The premises of RolesChangeHandsAsThePairDecides, clause by clause (part 2). -/
theorem witness_RolesChangeHandsAsThePairDecides_2 :
    (let s : State := (playing (pairIn running 2 2) 0).modRing 0 fun q => { q with cycle := 5, tc := 250000, tw := 80000000000, txOn := false, seenAt := some 70000000000 }
     let t : Nat := 90000000000
     let since : Nat := 100
     let r : Nat := 0
     let a := s.at t
     unitRuns s = true ∧ since + 1000 ≤ a.now ∧ r < 4 ∧ s.inPlay r = true ∧ silentRing a 0 r = true) ∧
    (let s : State := (modPr ((((playing (pairIn { running with benchUp := true } 2 2) 0).modRing 0 fun q => { q with cycle := 5, tc := 250000, tw := 80000000000, txOn := false, seenAt := some 70000000000 }).set Ob.Sby.BENCH_ALIGN_STATE 2).set Ob.Isl.RF_STATE 1) fun p => { p with agreedAt := some (0, 5) }).set Ob.Die.LINK_STATE 1
     let t : Nat := 90000000000
     let r : Nat := 0
     let a := s.at t
     unitRuns s = true ∧ s.benchUp = true ∧ r < 4 ∧ s.inPlay r = true ∧ (∀ z, z < 4 → s.inPlay z = true → silentRing a 1 z = true)) ∧
    (let s : State := { running with host := { running.host with arpAt := [500] } }
     let t : Nat := 90000000000
     let x : Nat := 500
     let a := s.at t
     unitRuns s = true ∧ s.host.arpAt = [x] ∧ x ≤ a.now) ∧
    (let s : State := { running with host := { running.host with arpAt := [500] } }
     let t : Nat := 400
     let x : Nat := 500
     let a := s.at t
     unitRuns s = true ∧ s.host.arpAt = [x] ∧ a.now < x) := by
  refine ⟨?_, ?_, ?_, ?_⟩ <;> decide +kernel

/-- The premises of RolesChangeHandsAsThePairDecides, clause by clause (part 3). -/
theorem witness_RolesChangeHandsAsThePairDecides_3 :
    (let s : State := (modPr ((playing (pairIn running 1 2) 0).modRing 0 fun q => { q with cycle := 5, tc := 250000, tw := 80000000000, txOn := false, seenAt := some 70000000000 }) fun p => { p with peer := (2, true) }).set Ob.Pair.ELIGIBLE 1
     let p := s.pair
     let ringsQuiet := ∀ z, z < 4 → s.get Ob.Ring.REJOIN_STATE z = 0 ∧ s.get Ob.PairX.SPLIT_STATE 0 0 z = 0
     let mayDrill := standbyEligible s = true ∧ p.peer.1 = 2 ∧ s.com.phase = 0 ∧ s.hud.active = false ∧ s.safe.test = none ∧ ringsQuiet
     unitRuns s = true ∧ mayDrill ∧ (∀ z, z < 4 → s.inPlay z = true → 0 < s.tcyc z)) ∧
    (let s : State := (modPr ((playing (pairIn running 1 2) 0).modRing 0 fun q => { q with cycle := 5, tc := 250000, tw := 80000000000, txOn := false, seenAt := some 70000000000 }) fun p => { p with drill := some (5000, true) }).set Ob.PairX.DRILL_STATE 1
     let t : Nat := 90000000000
     let d : Nat := 5000
     let was : Bool := true
     let a := s.at t
     let p := s.pair
     let role := s.get Ob.Pair.ROLE
     let ds := s.get Ob.PairX.DRILL_STATE
     unitRuns s = true ∧ p.drill = some (d, was) ∧ ds = 1 ∧ d ≤ a.now ∧ was = true ∧ role = 1) ∧
    (let s : State := (modPr ((playing (pairIn running 2 2) 0).modRing 0 fun q => { q with cycle := 5, tc := 250000, tw := 80000000000, txOn := false, seenAt := some 70000000000 }) fun p => { p with drill := some (5000, false) }).set Ob.PairX.DRILL_STATE 1
     let t : Nat := 90000000000
     let d : Nat := 5000
     let was : Bool := false
     let a := s.at t
     let p := s.pair
     let role := s.get Ob.Pair.ROLE
     let ds := s.get Ob.PairX.DRILL_STATE
     unitRuns s = true ∧ p.drill = some (d, was) ∧ ds = 1 ∧ d ≤ a.now ∧ was = false ∧ role = 2) ∧
    (let s : State := (modPr ((playing (pairIn running 1 2) 0).modRing 0 fun q => { q with cycle := 5, tc := 250000, tw := 80000000000, txOn := false, seenAt := some 70000000000 }) fun p => { p with drill := some (5000, true) }).set Ob.PairX.DRILL_STATE 1
     let t : Nat := 4000
     let d : Nat := 5000
     let was : Bool := true
     let a := s.at t
     let p := s.pair
     let ds := s.get Ob.PairX.DRILL_STATE
     unitRuns s = true ∧ p.drill = some (d, was) ∧ ds = 1 ∧ a.now < d) := by
  refine ⟨?_, ?_, ?_, ?_⟩ <;> decide +kernel

/-- The premises of RolesChangeHandsAsThePairDecides, clause by clause (part 4). -/
theorem witness_RolesChangeHandsAsThePairDecides_4 :
    (let s : State := (modPr ((playing (pairIn running 1 2) 0).modRing 0 fun q => { q with cycle := 5, tc := 250000, tw := 80000000000, txOn := false, seenAt := some 70000000000 }) fun p => { p with drill := some (5000, false) }).set Ob.PairX.DRILL_STATE 1
     let d : Nat := 5000
     let was : Bool := false
     let p := s.pair
     let role := s.get Ob.Pair.ROLE
     let ds := s.get Ob.PairX.DRILL_STATE
     unitRuns s = true ∧ p.drill = some (d, was) ∧ ds = 1 ∧ was = false ∧ role = 1) ∧
    (let s : State := (modPr ((playing (pairIn running 2 2) 0).modRing 0 fun q => { q with cycle := 5, tc := 250000, tw := 80000000000, txOn := false, seenAt := some 70000000000 }) fun p => { p with drill := some (5000, true) }).set Ob.PairX.DRILL_STATE 1
     let d : Nat := 5000
     let was : Bool := true
     let p := s.pair
     let role := s.get Ob.Pair.ROLE
     let ds := s.get Ob.PairX.DRILL_STATE
     unitRuns s = true ∧ p.drill = some (d, was) ∧ ds = 1 ∧ was = true ∧ role = 2) ∧
    (let s : State := (modPr ((playing (pairIn running 2 2) 0).modRing 0 fun q => { q with cycle := 5, tc := 250000, tw := 80000000000, txOn := false, seenAt := some 70000000000 }) fun p => { p with emitAt := [some 80000001000, none, none, none] })
     let e : Nat := 80000001000
     let r : Nat := 0
     let p := s.pair
     let role := s.get Ob.Pair.ROLE
     let q := s.ring r
     unitRuns s = true ∧ role = 2 ∧ s.inPlay r = true ∧ p.emitAt.getD r none = some e ∧ q.tw ≤ e ∧ q.syncLost = none ∧ q.seenAt.getD 0 < q.tw ∧ s.get Ob.PairX.SPLIT_STATE 0 0 r = 0 ∧ 0 ≤ s.get Ob.PairX.SPLIT_MARGIN) ∧
    (let s : State := (modPr ((playing (pairIn running 2 2) 0).modRing 0 fun q => { q with cycle := 5, tc := 250000, tw := 80000000000, txOn := false, seenAt := some 70000000000 }) fun p => { p with emitAt := [some 80000001000, none, none, none] }).set Ob.PairX.SPLIT_MARGIN (-5)
     let e : Nat := 80000001000
     let r : Nat := 0
     let p := s.pair
     let role := s.get Ob.Pair.ROLE
     let q := s.ring r
     unitRuns s = true ∧ role = 2 ∧ s.inPlay r = true ∧ p.emitAt.getD r none = some e ∧ q.tw ≤ e ∧ q.syncLost = none ∧ q.seenAt.getD 0 < q.tw ∧ s.get Ob.PairX.SPLIT_STATE 0 0 r = 0 ∧ s.get Ob.PairX.SPLIT_MARGIN < 0 ∧ s.get Ob.Pair.PAIR_STATE = 2) := by
  refine ⟨?_, ?_, ?_, ?_⟩ <;> decide +kernel

/-- The premises of RolesChangeHandsAsThePairDecides, clause by clause (part 5). -/
theorem witness_RolesChangeHandsAsThePairDecides_5 :
    (let s : State := (playing ((pairIn running 1 2).set Ob.PairX.SPLIT_STATE 1 0 0 0) 0).modRing 0 fun q => { q with cycle := 5, tc := 250000, tw := 80000000000, txOn := false, seenAt := some 70000000000 }
     let r : Nat := 0
     unitRuns s = true ∧ isSplit s r = true ∧ (∀ y ∈ s.axesOn r, s.nat Ob.PairX.SPLIT_AT 0 0 r < s.nat Ob.Map.WORKER y → (s.axis y).mot.state = .disabled)) ∧
    (let s : State := (modPr ((playing (pairIn running 1 2) 0).modRing 0 fun q => { q with cycle := 5, tc := 250000, tw := 80000000000, txOn := false, seenAt := some 70000000000 }) fun p => { p with healAt := [some 5000, none, none, none] }).set Ob.PairX.SPLIT_STATE 2 0 0 0
     let t : Nat := 90000000000
     let h : Nat := 5000
     let r : Nat := 0
     let a := s.at t
     let p := s.pair
     let role := s.get Ob.Pair.ROLE
     unitRuns s = true ∧ p.healAt.getD r none = some h ∧ s.get Ob.PairX.SPLIT_STATE 0 0 r = 2 ∧ h ≤ a.now ∧ role = 1) ∧
    (let s : State := (modPr ((playing (pairIn running 1 2) 0).modRing 0 fun q => { q with cycle := 5, tc := 250000, tw := 80000000000, txOn := false, seenAt := some 70000000000 }) fun p => { p with healAt := [some 5000, none, none, none] }).set Ob.PairX.SPLIT_STATE 2 0 0 0
     let t : Nat := 4000
     let h : Nat := 5000
     let r : Nat := 0
     let a := s.at t
     let p := s.pair
     unitRuns s = true ∧ p.healAt.getD r none = some h ∧ s.get Ob.PairX.SPLIT_STATE 0 0 r = 2 ∧ a.now < h) := by
  refine ⟨?_, ?_, ?_⟩ <;> decide +kernel

/-- The premises of CountersAreConfiguredClearedAndSampled, clause by clause (part 1). -/
theorem witness_CountersAreConfiguredClearedAndSampled_1 :
    (let s : State := running
     let core : Nat := 2
     let w : Nat := 0x7FFF
     unitRuns s = true ∧ pmcCfgOk (decide (8 ≤ core)) w = false) ∧
    (let s : State := running
     let core : Nat := 2
     let k : Nat := 1
     let w : Nat := 5
     let v : Nat := 8192
     let x := s.ace core
     unitRuns s = true ∧ pmcCfgOk (decide (8 ≤ core)) w = true ∧ k < 8 ∧ core < 8 ∧ 4096 ≤ v ∧ v < 2 ^ 32 ∧ bit (SMap.getD x.cfg k 0) 15 = false) ∧
    (let s : State := running
     let core : Nat := 9
     let k : Nat := 1
     let w : Nat := 0x41
     unitRuns s = true ∧ pmcCfgOk (decide (8 ≤ core)) w = true ∧ k < 8 ∧ 8 ≤ core ∧ core < 12) ∧
    (let s : State := running
     let v : Nat := 5
     unitRuns s = true ∧ (v < 4096 ∨ 2 ^ 32 ≤ v)) := by
  refine ⟨?_, ?_, ?_, ?_⟩ <;> decide +kernel

/-- The premises of CountersAreConfiguredClearedAndSampled, clause by clause (part 2). -/
theorem witness_CountersAreConfiguredClearedAndSampled_2 :
    (let s : State := running.modAce 2 fun x => { x with cfg := [(1, 0x8005)] }
     let core : Nat := 2
     let k : Nat := 1
     let x := s.ace core
     unitRuns s = true ∧ bit (SMap.getD x.cfg k 0) 15 = true) := by
  decide +kernel

/-- The premises of CaptureTraceResponseAndInjectionRun, clause by clause (part 1). -/
theorem witness_CaptureTraceResponseAndInjectionRun_1 :
    (let s : State := running.set Ob.Capt.STATE 1
     let st := s.get Ob.Capt.STATE
     unitRuns s = true ∧ (st = 1 ∨ st = 2)) ∧
    (let s : State := running
     let st := s.get Ob.Capt.STATE
     let j := s.obs.inj
     unitRuns s = true ∧ st ≠ 1 ∧ st ≠ 2 ∧ capRefused (capConfig s) = true ∧ s.get Ob.Frf.FRF_STATE ≠ 1 ∧ s.get Ob.Trc.TRACE_STATE ≠ 3 ∧ s.obs.frf = none ∧ j.on = false) ∧
    (let s : State := (running.set Ob.Capt.CHANNEL_SRC 0x8000 0 0 0).set Ob.Capt.CLOCK 1
     let st := s.get Ob.Capt.STATE
     unitRuns s = true ∧ st ≠ 1 ∧ st ≠ 2 ∧ capRefused (capConfig s) = false) ∧
    (let s : State := modCap running fun k => { k with cfg := some { stream := false, whistle := true, div := 1, avg := 0, pre := 4, post := 4, kind := 0, value := 0, care := 0, edge := false, lvlCh := 0, level := 0, above := false, time := 0, srcs := [1, 2] }, whistles := 1 }
     let c : CapCfg := { stream := false, whistle := true, div := 1, avg := 0, pre := 4, post := 4, kind := 0, value := 0, care := 0, edge := false, lvlCh := 0, level := 0, above := false, time := 0, srcs := [1, 2] }
     let st := s.get Ob.Capt.STATE
     let k := s.obs.cap
     unitRuns s = true ∧ k.cfg = some c ∧ st ≠ 1 ∧ st ≠ 2) := by
  refine ⟨?_, ?_, ?_, ?_⟩ <;> decide +kernel

/-- The premises of CaptureTraceResponseAndInjectionRun, clause by clause (part 2). -/
theorem witness_CaptureTraceResponseAndInjectionRun_2 :
    (let s : State := modCap (running.set Ob.Capt.STATE 1) fun k => { k with cfg := some { stream := false, whistle := true, div := 1, avg := 0, pre := 4, post := 4, kind := 0, value := 0, care := 0, edge := false, lvlCh := 0, level := 0, above := false, time := 0, srcs := [1, 2] } }
     let c : CapCfg := { stream := false, whistle := true, div := 1, avg := 0, pre := 4, post := 4, kind := 0, value := 0, care := 0, edge := false, lvlCh := 0, level := 0, above := false, time := 0, srcs := [1, 2] }
     let t : Nat := 5000
     let a := s.at t
     let k := s.obs.cap
     unitRuns s = true ∧ k.cfg = some c ∧ capTickDue a c = false) ∧
    (let s : State := modCap (running.set Ob.Capt.STATE 1) fun k => { k with cfg := some { stream := false, whistle := true, div := 1, avg := 0, pre := 4, post := 4, kind := 0, value := 0, care := 0, edge := false, lvlCh := 0, level := 0, above := false, time := 0, srcs := [1, 2] }, whistles := 1 }
     let c : CapCfg := { stream := false, whistle := true, div := 1, avg := 0, pre := 4, post := 4, kind := 0, value := 0, care := 0, edge := false, lvlCh := 0, level := 0, above := false, time := 0, srcs := [1, 2] }
     let t : Nat := 5000
     let a := s.at t
     let st := s.get Ob.Capt.STATE
     let k := s.obs.cap
     unitRuns s = true ∧ k.cfg = some c ∧ st = 1 ∧ capTickDue a c = true ∧ c.kind = 0) ∧
    (let s : State := running.set Ob.Frf.FRF_STATE 1
     unitRuns s = true ∧ s.get Ob.Frf.FRF_STATE = 1) ∧
    (let s : State := running.set Ob.Trc.TRACE_STATE 3
     unitRuns s = true ∧ s.get Ob.Frf.FRF_STATE ≠ 1 ∧ s.get Ob.Trc.TRACE_STATE = 3) := by
  refine ⟨?_, ?_, ?_, ?_⟩ <;> decide +kernel

/-- The premises of CaptureTraceResponseAndInjectionRun, clause by clause (part 3). -/
theorem witness_CaptureTraceResponseAndInjectionRun_3 :
    (let s : State := running.modObs fun o => { o with frf := some (0, [1, 2]) }
     let fail : Nat := 0
     let b : List Byte := [1, 2]
     unitRuns s = true ∧ s.obs.frf = some (fail, b)) ∧
    (let s : State := running.modObs fun o => { o with inj := { on := true } }
     let j := s.obs.inj
     let ax := (s.axis (s.nat Ob.Inj.INJ_AXIS)).mot.state
     unitRuns s = true ∧ j.on = true ∧ ax ≠ .enabled) ∧
    (let s : State := ((withAxisState running 3 .enabled).set Ob.Inj.INJ_AXIS 3).modObs fun o => { o with inj := { on := true } }
     let t : Nat := 99000000000000
     let a := s.at t
     let j := s.obs.inj
     let ax := (s.axis (s.nat Ob.Inj.INJ_AXIS)).mot.state
     unitRuns s = true ∧ j.on = true ∧ ax = .enabled ∧ s.get Ob.Inj.INJ_SIGNAL ≠ 2 ∧ j.t0 + s.nat Ob.Inj.DURATION * 1000000 ≤ a.now) := by
  refine ⟨?_, ?_, ?_⟩ <;> decide +kernel

/-- The records of an image with no share owed. -/
theorem storedImage_records (s : State) (h : s.com.owed = []) : (storedImage s 0).records = storedRecords s := by
  simp [storedImage, h, withEntries, forList]

/-- The configuration at its defaults fits into a bank: the premise of SAVE that succeeds (R125, R126). -/
theorem witness_small_image (t : Nat) : 64 + (imageBytes (storedImage (running.at t) 0).records).length ≤ 3 * 2 ^ 20 := by
  have hod : (running.at t).od = [] := by unfold State.at; split <;> rfl
  have how : (running.at t).com.owed = [] := by unfold State.at; split <;> rfl
  rw [storedImage_records _ how]
  have h : ∀ e ∈ storedRecords (running.at t), ∀ o, (storedRecord o e.1 e.2).length ≤ 24 := by
    intro e he o
    simp only [storedRecords, List.mem_map] at he
    obtain ⟨⟨k, o'⟩, -, rfl⟩ := he
    have hv : (valBytes o.ty (valueAt (running.at t) o' k)).length ≤ 10 := by
      simp only [valueAt, hod, SMap.get?, Option.getD_none, Obj.default]
      split
      · exact valBytes_num_length ..
      · split
        · simp [valBytes]
        · exact valBytes_num_length ..
    simp only [storedRecord_length]; omega
  have := imageBytes_length_le _ 24 h
  rw [storedRecords_length, stored_total] at this
  omega

/-- A cam whose segments fill 3 MiB. -/
def bigCam : State := running.setBytes Ob.Cam.SEGMENTS (List.replicate (3 * 2 ^ 20) 0)

/-- An image that does not fit: the premise of SAVE that fails. -/
theorem witness_large_image (t : Nat) : 3 * 2 ^ 20 < 64 + (imageBytes (storedImage (bigCam.at t) 0).records).length := by
  have hod : (bigCam.at t).od = bigCam.od := by unfold State.at; split <;> rfl
  have how : (bigCam.at t).com.owed = [] := by unfold State.at; split <;> rfl
  rw [storedImage_records _ how]
  have hm := mem_storedRecords (bigCam.at t) Ob.Cam.SEGMENTS (Ob.Cam.SEGMENTS.key) (by decide +kernel) (by decide) (by decide +kernel)
  have hl := length_le_imageBytes _ _ Ob.Cam.SEGMENTS hm (show rowOf Ob.Cam.SEGMENTS.key = some Ob.Cam.SEGMENTS by decide +kernel)
  have hv : valueAt (bigCam.at t) Ob.Cam.SEGMENTS Ob.Cam.SEGMENTS.key = .bytes (List.replicate (3 * 2 ^ 20) 0) := by
    have hb : bigCam.od = SMap.put [] Ob.Cam.SEGMENTS.key (.bytes (List.replicate (3 * 2 ^ 20) 0)) := rfl
    simp only [valueAt, hod, hb, SMap.get?_put, if_true, Option.getD_some]
  simp only [hv, valBytes, List.length_replicate] at hl
  omega

/-- Nothing fails where every test passes. -/
theorem failing_nil (n : Nat) (f : Nat → Bool) (k : Nat → Nat) (h : ∀ a, a < n → f a = false) : failing n f k = [] := by
  simp only [failing, List.map_eq_nil_iff, List.filter_eq_nil_iff, List.mem_range]
  intro a ha; simp [h a ha]

/-- Gains at their defaults convert (R160). -/
theorem gainFails_default (s : State) (hg : ∀ x ∈ axisGains, ∀ j, j < x.2 → ∀ a, a < 256 → s.get x.1 a j = x.1.dflt) (hi : ∀ a, a < 256 → axisIntervals s a = [])
    (hs : ∀ k, k < 3 → ∀ p, p < 8 → s.get Ob.Sd.SD_GAIN p 0 k = Ob.Sd.SD_GAIN.dflt) (hj : s.get Ob.Inj.INJ_AMPLITUDE = Ob.Inj.INJ_AMPLITUDE.dflt) : gainFails s = [] := by
  have hd : ∀ x ∈ axisGains, (!converts (let g := f32Rat x.1.dflt; if g < 0 then -g else g)) = false := by decide +kernel
  have e1 : (axisGains.flatMap fun (o, n) => (List.range n).flatMap fun j =>
      failing 256 (fun a => !converts (let g := f32Rat (s.get o a j); if g < 0 then -g else g)) (fun a => o.key a j)) = [] := by
    rw [List.flatMap_eq_nil_iff]
    rintro ⟨o, n⟩ hx
    rw [List.flatMap_eq_nil_iff]
    intro j hjn
    refine failing_nil _ _ _ fun a ha => ?_
    rw [hg _ hx j (List.mem_range.1 hjn) a ha]
    exact hd _ hx
  have e2 : ∀ (f : Nat → (Nat × Nat) → Bool) (k : Nat → Nat), failing 256 (fun a => (axisIntervals s a).any (f a)) k = [] := fun f k =>
    failing_nil _ _ _ fun a ha => by rw [hi a ha]; rfl
  have e3 : ((List.range 3).flatMap fun k => failing 8 (fun p => !converts (let g := f32Rat (s.get Ob.Sd.SD_GAIN p 0 k); if g < 0 then -g else g))
      (fun p => Ob.Sd.SD_GAIN.key p 0 k)) = [] := by
    rw [List.flatMap_eq_nil_iff]
    intro k hk
    refine failing_nil _ _ _ fun p hp => ?_
    rw [hs k (List.mem_range.1 hk) p hp]
    decide +kernel
  simp only [gainFails, e1, e2, e3, hj, List.append_nil, List.nil_append]
  simp [failIf]
  decide +kernel

/-- A commit that passes steps 4 to 10 with no ring in PLAY. -/
theorem verdict_none (s n : State) (h4 : (s.staged.find? fun e => e.total.isSome) = none) (h5 : safetyOrphans s = []) (h6 : activeFails s n = [])
    (h7 : consistFails s n s.staged = []) (h8 : gainFails n = []) (h9 : (admissionCheck s n fun _ => none).2 = true)
    (hp : ringsPlaying (admissionCheck s n fun _ => none).1 = []) : (commitVerdict s n).2 = none := by
  have hc : commitCheck s n = none := by simp [commitCheck, h4, h5, h6, h7, h8, firstFail]
  simp only [commitVerdict, hc]
  simp [h9, hp, commitBlocks, slotsBeyond]

/-- A staged copy of one entry, session 2 captain. -/
def oneStaged : State := { ((opened running 2).set Ob.Poss.CAPTAIN 2) with staged := [{ key := Ob.Poss.ELECTION_HOLD.key, val := .num 100 }] }

/-- The same as the commit of CommitsAndCopiesAreTakenOrRefused finds it. -/
def stagedObject : State := (oneStaged.at 100).set Ob.Sess.LAST_RENEWED (oneStaged.at 100).now 2

/-- Its configuration passes steps 4 to 10 of Table 05-4. -/
theorem witness_commit_object_passes :
    (commitVerdict (validating stagedObject { viaObject := true, sess := 2 }) (withEntries stagedObject stagedObject.staged)).2 = none :=
  verdict_none _ _ (by decide +kernel) (by decide +kernel) (by decide +kernel) (by decide +kernel)
    (gainFails_default _ (by decide +kernel) (by decide +kernel) (by decide +kernel) (by decide +kernel)) (by decide +kernel) (by decide +kernel)

/-- The COMMIT message of SessionsReadWriteSubscribeAndCommit. -/
def commitRequest : Req := { via := 0, own := true, peer := 77, sess := 2, seqNo := 5, token := 9, body := [1, 0, 0, 0] }

/-- The staged copy as that commit finds it. -/
def stagedMessage : State :=
  stagedObject.modSess commitRequest.sess fun x => begin_ x commitRequest.seqNo 0x12 (windowOf (stagedObject.sess commitRequest.sess) commitRequest.seqNo).2.2

/-- The same of the message. -/
theorem witness_commit_message_passes :
    (commitVerdict (validating stagedMessage { sess := commitRequest.sess, token := commitRequest.token, seqNo := commitRequest.seqNo, path := commitRequest.toPath })
      (withEntries stagedMessage stagedMessage.staged)).2 = none :=
  verdict_none _ _ (by decide +kernel) (by decide +kernel) (by decide +kernel) (by decide +kernel)
    (gainFails_default _ (by decide +kernel) (by decide +kernel) (by decide +kernel) (by decide +kernel)) (by decide +kernel) (by decide +kernel)

/-- The premises of the invariant of the memories. -/
theorem witness_EveryStepKeepsTheMemoriesCanonical : MemoriesCanonical State.reset ∧ ∃ t, step State.reset = .next t :=
  ⟨⟨rfl, rfl, fun _ => rfl⟩, _, rfl⟩

/-- The premise on the addressing modes of LoadsAndAddressing and of the pointer operations: a pointer register without a ring. -/
theorem witness_linear_pointer : bits ((atReset.ace 2).lR 1).toNat 30 2 = 0 := by decide +kernel

/-- The premises of SAVE but the size of the image. -/
theorem witness_save : unitRuns running = true ∧ running.com.phase = 0 ∧ running.store.saving = none ∧ unitRuns bigCam = true ∧ bigCam.com.phase = 0 ∧ bigCam.store.saving = none := by
  decide +kernel

/-- A standby that may take over, and one that may not, at a trigger of Table 15-4. -/
theorem witness_triggers :
    (let s : State := (modPr ((((playing (pairIn { running with benchUp := true } 2 2) 0).modRing 0 fun q => { q with cycle := 5, tc := 250000, tw := 80000000000, txOn := false, seenAt := some 70000000000 }).set Ob.Sby.BENCH_ALIGN_STATE 2).set Ob.Isl.RF_STATE 1) fun p => { p with agreedAt := some (0, 5) }).set Ob.Die.LINK_STATE 1
     unitRuns s = true ∧ s.get Ob.Pair.ROLE = 2 ∧ eligibleNow (s.at 90000000000) = true) ∧
    (let s : State := pairIn running 2 2
     unitRuns s = true ∧ s.get Ob.Pair.ROLE = 2 ∧ eligibleNow (s.at 90000000000) = false) := by
  refine ⟨?_, ?_⟩ <;> decide +kernel

end

end Sys2Proof.Tests
end

