-- ==== Sys2Proof/Proofs/Answers.lean ====
section
/-! What a command answers, once its outcome is known. -/

namespace Sys2Proof.Machine

/-- A command whose outcome is known answers exactly what holds of that next state. -/
theorem answers_iff {c : Instr} {s u : State} {P : State → Prop} (h : exec c s = .next u) : Answers c s P ↔ P u := by
  unfold Answers
  rw [h]
  constructor
  · rintro ⟨t, ht, hp⟩
    cases ht
    exact hp
  · exact fun hp => ⟨u, rfl, hp⟩

/-- While the unit runs a command is not held back (R15). -/
@[simp] theorem whileOn_runs {s : State} {t : Nat} {o : Host.Outcome State Fault Refusal} (h : unitRuns s = true) : whileOn s t o = o := by
  simp [whileOn, h]

end Sys2Proof.Machine
end

