-- ==== Sys2Proof/Proofs/Supervision.lean ====
section
/-! The run of following errors that has raised its fault, and O24. -/

namespace Sys2Proof.Machine

/-- FOLLOWING_ERROR is the judgement of the run (R182). -/
theorem exec_followingError {s : State} (h : unitRuns s = true) (a t : Nat) : exec (.followingError a t) s = .next (judgeFe (s.at t) a) :=
  whileOn_runs h

/-- A run of excesses that has raised its fault raises none again (R182): the mark of that is `feDone`, not LOOP_FLAGS. -/
theorem judgeFe_of_feDone {s : State} {a : Nat} (h : (s.axis a).cur.feDone = true) : judgeFe s a = s := by
  simp [judgeFe, h]

/-- Axis 0 ENABLED above its limit, in a run of excesses that has raised its fault, with LOOP_FLAGS clear. -/
def faultTaken : State :=
  { State.reset.set Ob.Cur.FE_LIMIT 1 with axes := [(0, { mot := { state := .enabled }, cur := { feRun := 1000, feDone := true } })] }

end Sys2Proof.Machine

open Sys2Proof Sys2Proof.Machine

/-- Refutes O24: FE_FAULT is not set by a run of excesses whose fault has already been raised (`feDone`) where LOOP_FLAGS bit 8 has been cleared since,
as FAULT_RESET clears it. -/
theorem not_supervisionFaultsAndPeaks : ¬ Obligations.SupervisionFaultsAndPeaks := by
  unfold Obligations.SupervisionFaultsAndPeaks
  intro h
  obtain ⟨hfe, -, -, -⟩ := h faultTaken 0 0 (by decide +kernel)
  have hset := hfe (by decide +kernel) (by decide +kernel) (by decide +kernel) (by decide +kernel)
  rw [answers_iff (exec_followingError (by decide +kernel) 0 0), judgeFe_of_feDone (by decide +kernel)] at hset
  exact absurd hset.1 (by decide +kernel)
end

