-- ==== Sys2Proof/Proofs/HuddleDecision.lean ====
section
/-! The decision at t_J of a standby, and O28. -/

namespace Sys2Proof.Machine

/-- HUDDLE_DECISION is the decision at t_J (R459). -/
theorem exec_huddleDecision {s : State} (h : unitRuns s = true) (t : Nat) : exec (.huddleDecision t) s = .next (huddleDecide (s.at t)) :=
  whileOn_runs h

/-- A standby decides no huddle: it reads the decision of the active unit in its frames (R18). -/
theorem huddleDecide_of_standby {s : State} (h : isStandby s = true) : huddleDecide s = s := by
  simp [huddleDecide, h]

/-- A standby with a huddle of no ring, announced and undecided at its t_J. -/
def standbyHuddle : State := { State.reset.set Ob.Pair.ROLE 2 with hud := { active := true } }

end Sys2Proof.Machine

open Sys2Proof Sys2Proof.Machine

/-- Refutes O28: at t_J a standby leaves the huddle undecided, and the statement's clause of the decision does not exclude ROLE 2. -/
theorem not_huddlesAnnounceDecideAndSwitchTogether : ¬ Obligations.HuddlesAnnounceDecideAndSwitchTogether := by
  unfold Obligations.HuddlesAnnounceDecideAndSwitchTogether
  intro h
  obtain ⟨-, -, -, -, hdecide, -⟩ := h standbyHuddle 0 0 0 (by decide +kernel)
  obtain ⟨hconfirm, -⟩ := hdecide rfl rfl (by decide +kernel)
  have hacked := hconfirm (by decide +kernel)
  rw [answers_iff (exec_huddleDecision (by decide +kernel) 0), huddleDecide_of_standby (by decide +kernel)] at hacked
  exact absurd (congrArg HuddleRt.decided hacked.1) (by decide +kernel)
end

