-- ==== Sys2Proof/Proofs/AxisFrame.lean ====
section
/-! What the operations of one axis leave unchanged: everything but that axis, the objects of its block, the ports and what is sent. -/

namespace Sys2Proof.Machine

/-! ### Keys of the dictionary -/

theorem Obj.base_le_key (o : Obj) (i j k : Nat) : o.base * 256 ≤ o.key i j k := by
  unfold Obj.key
  exact le_trans (Nat.mul_le_mul_right 256 (by omega : o.base ≤ o.base + o.st1 * i + o.st2 * j)) (by omega)

/-- The object stands once in the block of 64 indexes that every axis has (0x4000 to 0x7FFF). -/
@[reducible] def Obj.PerAxis (o : Obj) : Prop := 0x4000 ≤ o.base ∧ o.base < 0x4040 ∧ o.st1 = 0x40 ∧ o.sub < 256

theorem Obj.key_div_of_perAxis {o : Obj} (h : o.PerAxis) (a : Nat) : o.key a / 16384 = 256 + a := by
  obtain ⟨hlo, hhi, hst, hsub⟩ := h
  simp only [Obj.key, hst]
  omega


/-- An object's number rests on the dictionary's entry at its key alone. -/
theorem get_congr {s u : State} {o : Obj} {i j k : Nat} (h : SMap.get? u.od (o.key i j k) = SMap.get? s.od (o.key i j k)) : u.get o i j k = s.get o i j k := by
  simp only [State.get, State.numAt, h]

/-! ### Operations of one axis -/

/-- `u` differs from `s` at most in axis `a`, of which `waiting` stands, in the objects of its block, in ports and in what is sent. -/
structure OnAxis (a : Nat) (s u : State) : Prop where
  od : ∀ k, k / 16384 ≠ 256 + a → SMap.get? u.od k = SMap.get? s.od k
  axis : ∀ x, x ≠ a → u.axis x = s.axis x
  waiting : (u.axis a).waiting = (s.axis a).waiting
  rest : { u with od := s.od, axes := s.axes, ports := s.ports, out := s.out } = s

variable {a : Nat} {s u v : State}

@[simp] theorem OnAxis.refl : OnAxis a s s := ⟨fun _ _ => rfl, fun _ _ => rfl, rfl, rfl⟩

theorem OnAxis.trans (h : OnAxis a s u) (g : OnAxis a u v) : OnAxis a s v where
  od k hk := (g.od k hk).trans (h.od k hk)
  axis x hx := (g.axis x hx).trans (h.axis x hx)
  waiting := g.waiting.trans h.waiting
  rest := by
    have hr := h.rest
    rw [← g.rest] at hr
    exact hr

theorem OnAxis.symm (h : OnAxis a s u) : OnAxis a u s where
  od k hk := (h.od k hk).symm
  axis x hx := (h.axis x hx).symm
  waiting := h.waiting.symm
  rest := by
    conv_lhs => rw [← h.rest]

/-- A further operation of the axis changes nothing of what may differ. -/
theorem OnAxis.step (g : OnAxis a u v) : OnAxis a s v ↔ OnAxis a s u := ⟨fun h => h.trans g.symm, fun h => h.trans g⟩

@[simp] theorem onAxis_set {o : Obj} (x : Int) (ho : o.PerAxis) : OnAxis a s (u.set o x a) ↔ OnAxis a s u :=
  OnAxis.step
    { od := fun k hk => State.set_od_ne u o x a 0 0 k fun h => hk (h ▸ Obj.key_div_of_perAxis ho a)
      axis := fun _ _ => rfl
      waiting := rfl
      rest := rfl }

@[simp] theorem onAxis_setAxis (x : AxisRt) (hx : x.waiting = (u.axis a).waiting) : OnAxis a s (u.setAxis a x) ↔ OnAxis a s u :=
  OnAxis.step
    { od := fun _ _ => rfl
      axis := fun y hy => by simp [hy]
      waiting := by simp [hx]
      rest := rfl }

@[simp] theorem onAxis_modAxis (f : AxisRt → AxisRt) (hf : ∀ x, (f x).waiting = x.waiting) : OnAxis a s (u.modAxis a f) ↔ OnAxis a s u :=
  onAxis_setAxis _ (hf _)

@[simp] theorem onAxis_modMot (f : MotSt → MotSt) : OnAxis a s (u.modMot a f) ↔ OnAxis a s u := onAxis_modAxis _ fun _ => rfl

@[simp] theorem onAxis_emit (m : Msg) : OnAxis a s (u.emit m) ↔ OnAxis a s u := OnAxis.step ⟨fun _ _ => rfl, fun _ _ => rfl, rfl, rfl⟩
@[simp] theorem onAxis_warn (x y z : Nat) : OnAxis a s (u.warn x y z) ↔ OnAxis a s u := onAxis_emit _
@[simp] theorem onAxis_setPort (p : Nat) (q : PortRt) : OnAxis a s (u.setPort p q) ↔ OnAxis a s u := OnAxis.step ⟨fun _ _ => rfl, fun _ _ => rfl, rfl, rfl⟩

@[simp] theorem onAxis_ite (c : Prop) [Decidable c] : OnAxis a s (if c then u else v) ↔ (c → OnAxis a s u) ∧ (¬c → OnAxis a s v) := by
  by_cases h : c <;> simp [h]

@[simp] theorem onAxis_publishState : OnAxis a s (publishState u a) ↔ OnAxis a s u := by simp +decide [publishState]
@[simp] theorem onAxis_dropArmed : OnAxis a s (dropArmed u a) ↔ OnAxis a s u := OnAxis.step (by simp +decide [dropArmed])
@[simp] theorem onAxis_dropEntry : OnAxis a s (dropEntry u a) ↔ OnAxis a s u := OnAxis.step (by simp +decide [dropEntry])
@[simp] theorem onAxis_haltPort (p : Nat) : OnAxis a s (haltPort u p) ↔ OnAxis a s u := by simp +decide [haltPort]
@[simp] theorem onAxis_haltStep : OnAxis a s (haltStep u a) ↔ OnAxis a s u := OnAxis.step (by simp +decide [haltStep])
@[simp] theorem onAxis_faultNow : OnAxis a s (faultNow u a) ↔ OnAxis a s u := OnAxis.step (by simp +decide [faultNow])
@[simp] theorem onAxis_startStop (k : StopKind) (c : StopCause) : OnAxis a s (startStop u a k c) ↔ OnAxis a s u :=
  OnAxis.step (by unfold startStop; split <;> simp +decide)
@[simp] theorem onAxis_react (r : Int) : OnAxis a s (react u a r) ↔ OnAxis a s u :=
  OnAxis.step (by unfold react; split <;> [skip; split] <;> simp +decide)
@[simp] theorem onAxis_recordFault (c : Nat) : OnAxis a s (recordFault u a c) ↔ OnAxis a s u := OnAxis.step (by simp +decide [recordFault])
@[simp] theorem onAxis_raiseFault (c : Nat) (r : Int) : OnAxis a s (raiseFault u a c r) ↔ OnAxis a s u := by simp +decide [raiseFault]
@[simp] theorem onAxis_faultAtOnce (c : Nat) : OnAxis a s (faultAtOnce u a c) ↔ OnAxis a s u := OnAxis.step (by simp +decide [faultAtOnce])
@[simp] theorem onAxis_homingFailed : OnAxis a s (homingFailed u a) ↔ OnAxis a s u := by simp +decide [homingFailed]
@[simp] theorem onAxis_homeEntry (t : Nat) : OnAxis a s (homeEntry u a t) ↔ OnAxis a s u :=
  OnAxis.step (by
    unfold homeEntry
    generalize (if u.get Ob.Home.HOME_DIR a = 0 then (1 : Int) else -1) = dir
    split <;> [skip; split] <;> simp +decide)
@[simp] theorem onAxis_enterMode (m t : Nat) : OnAxis a s (enterMode u a m t) ↔ OnAxis a s u :=
  OnAxis.step (by unfold enterMode; split <;> [skip; split] <;> simp +decide)
@[simp] theorem onAxis_entryDue : OnAxis a s (entryDue u a) ↔ OnAxis a s u :=
  OnAxis.step (by unfold entryDue; split <;> simp +decide)

end Sys2Proof.Machine
end

