-- ==== Sys2Proof/Proofs/WhistleFrame.lean ====
section
/-! What the sampling at a whistle leaves unchanged: the objects below 0x3200, the rings, the staged copy, the snapshots and the cycle that each axis waits for. -/

namespace Sys2Proof.Machine

/-- `u` shows what `s` shows of the rings, the commits and the cycle objects. -/
structure Calm (s u : State) : Prop where
  od : ∀ k, k < 0x320000 → SMap.get? u.od k = SMap.get? s.od k
  waiting : ∀ a, (u.axis a).waiting = (s.axis a).waiting
  rings : u.rings = s.rings
  staged : u.staged = s.staged
  snaps : u.snaps = s.snaps

variable {s u v : State}

@[simp] theorem Calm.refl : Calm s s := ⟨fun _ _ => rfl, fun _ => rfl, rfl, rfl, rfl⟩

theorem Calm.trans (h : Calm s u) (g : Calm u v) : Calm s v where
  od k hk := (g.od k hk).trans (h.od k hk)
  waiting a := (g.waiting a).trans (h.waiting a)
  rings := g.rings.trans h.rings
  staged := g.staged.trans h.staged
  snaps := g.snaps.trans h.snaps

theorem Calm.symm (h : Calm s u) : Calm u s where
  od k hk := (h.od k hk).symm
  waiting a := (h.waiting a).symm
  rings := h.rings.symm
  staged := h.staged.symm
  snaps := h.snaps.symm

/-- A further calm operation changes nothing of what is kept. -/
theorem Calm.step (g : Calm u v) : Calm s v ↔ Calm s u := ⟨fun h => h.trans g.symm, fun h => h.trans g⟩

theorem Calm.of_onAxis {a : Nat} (h : OnAxis a s u) : Calm s u where
  od k hk := h.od k (by omega)
  waiting x := by
    by_cases hx : x = a
    · rw [hx, h.waiting]
    · rw [h.axis x hx]
  rings := by simpa using congrArg State.rings h.rest
  staged := by simpa using congrArg State.staged h.rest
  snaps := by simpa using congrArg State.snaps h.rest

/-! ### Loops and branches -/

@[simp] theorem calm_ite (c : Prop) [Decidable c] : Calm s (if c then u else v) ↔ (c → Calm s u) ∧ (¬c → Calm s v) := by
  by_cases h : c <;> simp [h]

@[simp] theorem calm_forBelow {f : Nat → State → State} (hf : ∀ i u, Calm u (f i u)) (n : Nat) : Calm s (forBelow n f u) ↔ Calm s u :=
  Calm.step (List.foldlRecOn (motive := Calm u) _ _ Calm.refl fun w hw i _ => hw.trans (hf i w))

@[simp] theorem calm_forList {α : Type} {f : α → State → State} (hf : ∀ x u, Calm u (f x u)) (l : List α) : Calm s (forList l f u) ↔ Calm s u :=
  Calm.step (List.foldlRecOn (motive := Calm u) _ _ Calm.refl fun w hw x _ => hw.trans (hf x w))

/-! ### Operations of the state -/

@[simp] theorem calm_putVal {o : Obj} (ho : 0x3200 ≤ o.base) (x : Val) (i j k : Nat) : Calm s (u.putVal (o.key i j k) x) ↔ Calm s u :=
  Calm.step
    { od := fun n hn => by
        have := o.base_le_key i j k
        rw [State.putVal_od, SMap.get?_put, if_neg (by omega)]
      waiting := fun _ => rfl
      rings := rfl
      staged := rfl
      snaps := rfl }

@[simp] theorem calm_set {o : Obj} (ho : 0x3200 ≤ o.base) (x : Int) (i j k : Nat) : Calm s (u.set o x i j k) ↔ Calm s u := calm_putVal ho ..
@[simp] theorem calm_put1 {o : Obj} (ho : 0x3200 ≤ o.base) (x : Int) (i j k : Nat) : Calm s (u.put1 o x i j k) ↔ Calm s u :=
  Calm.step (by simp [State.put1, ho])
@[simp] theorem calm_count {o : Obj} (ho : 0x3200 ≤ o.base) (i j k : Nat) (n : Int) : Calm s (u.count o i j k n) ↔ Calm s u := calm_set ho ..

@[simp] theorem calm_setFbu (x : Nat) (f : FbUnit) : Calm s (u.setFbu x f) ↔ Calm s u := Calm.step ⟨fun _ _ => rfl, fun _ => rfl, rfl, rfl, rfl⟩
@[simp] theorem calm_setEng (x : Nat) (f : EngRt) : Calm s (u.setEng x f) ↔ Calm s u := Calm.step ⟨fun _ _ => rfl, fun _ => rfl, rfl, rfl, rfl⟩
@[simp] theorem calm_setPort (x : Nat) (f : PortRt) : Calm s (u.setPort x f) ↔ Calm s u := Calm.step ⟨fun _ _ => rfl, fun _ => rfl, rfl, rfl, rfl⟩
@[simp] theorem calm_modField (f : FieldRt → FieldRt) : Calm s (u.modField f) ↔ Calm s u := Calm.step ⟨fun _ _ => rfl, fun _ => rfl, rfl, rfl, rfl⟩
@[simp] theorem calm_withPair (p : PairRt) : Calm s { u with pair := p } ↔ Calm s u := Calm.step ⟨fun _ _ => rfl, fun _ => rfl, rfl, rfl, rfl⟩
@[simp] theorem calm_withObs (o : ObsRt) : Calm s { u with obs := o } ↔ Calm s u := Calm.step ⟨fun _ _ => rfl, fun _ => rfl, rfl, rfl, rfl⟩
@[simp] theorem calm_modSafe (f : SafeRt → SafeRt) : Calm s (u.modSafe f) ↔ Calm s u := Calm.step ⟨fun _ _ => rfl, fun _ => rfl, rfl, rfl, rfl⟩
@[simp] theorem calm_modObs (f : ObsRt → ObsRt) : Calm s (u.modObs f) ↔ Calm s u := Calm.step ⟨fun _ _ => rfl, fun _ => rfl, rfl, rfl, rfl⟩
@[simp] theorem calm_emit (m : Msg) : Calm s (u.emit m) ↔ Calm s u := Calm.step ⟨fun _ _ => rfl, fun _ => rfl, rfl, rfl, rfl⟩

/-! ### Feedback units, masters, ports -/

@[simp] theorem calm_putUnit (x : Nat) (f : FbUnit) : Calm s (putUnit u x f) ↔ Calm s u := by simp +decide [putUnit]
@[simp] theorem calm_sampleUnits (t : Nat) : Calm s (sampleUnits u t) ↔ Calm s u := by simp +decide [sampleUnits]
@[simp] theorem calm_publishMasters (t : Nat) : Calm s (publishMasters u t) ↔ Calm s u := by simp +decide [publishMasters]
@[simp] theorem calm_sampleSd (l : List (Nat × List Bool)) : Calm s (sampleSd u l) ↔ Calm s u := by simp +decide [sampleSd]
@[simp] theorem calm_putPort (p : Nat) (q : PortRt) : Calm s (putPort u p q) ↔ Calm s u := by simp +decide [putPort]
@[simp] theorem calm_stepLate (p : Nat) : Calm s (stepLate u p) ↔ Calm s u := Calm.step (by simp +decide [stepLate])
@[simp] theorem calm_takeStep (p tc : Nat) (e : LoadEntry) : Calm s (takeStep u p tc e) ↔ Calm s u := by simp +decide [takeStep]
@[simp] theorem calm_takeEntry {f : State → LoadEntry → State} (hf : ∀ u e, Calm u (f u e)) (p n : Nat) : Calm s (takeEntry u p n f) ↔ Calm s u :=
  Calm.step (by
    dsimp only [takeEntry]
    split
    · exact Calm.trans (by simp) (hf _ _)
    · simp +decide)
@[simp] theorem calm_sampleStepIn (p : Nat) : Calm s (sampleStepIn u p) ↔ Calm s u := Calm.step (by simp +decide [sampleStepIn])
@[simp] theorem calm_tripClear (p : Nat) : Calm s (tripClear u p).1 ↔ Calm s u := Calm.step (by unfold tripClear; split <;> simp +decide)
@[simp] theorem calm_faultAtOnce (a c : Nat) : Calm s (faultAtOnce u a c) ↔ Calm s u := Calm.step (.of_onAxis (a := a) (by simp))
@[simp] theorem calm_entryDue (a : Nat) : Calm s (entryDue u a) ↔ Calm s u := Calm.step (.of_onAxis (a := a) (by simp))

@[simp] theorem calm_whistlePorts (n tc : Nat) (l : List (Nat × List Bool)) : Calm s (whistlePorts u n tc l) ↔ Calm s u := by
  refine Calm.step ((calm_forList (by simp) _).2 ((calm_forBelow (fun p w => ?_) 8).2 (by simp)))
  extract_lets late q st clean tag queued stQueued entry sampled
  have hlate : Calm w late := by
    unfold late
    split <;> simp
  have hentry : Calm clean entry := by
    unfold entry
    split <;> simp
  simpa [sampled] using Calm.trans (by simpa [clean]) hentry

/-! ### The local whistle, the injection and the brakes -/

@[simp] theorem calm_publishInputs : Calm s (publishInputs u) ↔ Calm s u :=
  Calm.step ((calm_forBelow (fun _ _ => (calm_set (by decide) ..).2 .refl) 24).2 ((calm_set (by decide) ..).2 .refl))
@[simp] theorem calm_whistleField : Calm s (whistleField u) ↔ Calm s u := Calm.step (by simp +decide [whistleField])
@[simp] theorem calm_benchSend (k : Nat) (l : List Int) : Calm s (benchSend u k l) ↔ Calm s u := Calm.step (by simp [benchSend])
@[simp] theorem calm_sendInputs : Calm s (sendInputs u) ↔ Calm s u := Calm.step (by simp [sendInputs])
@[simp] theorem calm_localWhistle (n tc : Nat) (l : List (Nat × List Bool)) : Calm s (localWhistle u n tc l) ↔ Calm s u := by simp [localWhistle]
@[simp] theorem calm_injEnd (x : Int) : Calm s (injEnd u x) ↔ Calm s u := Calm.step (by simp +decide [injEnd])
@[simp] theorem calm_judgeInj (t : Nat) : Calm s (judgeInj u t) ↔ Calm s u := Calm.step (by simp [judgeInj])
@[simp] theorem calm_putSbc (a : Nat) (b : SbcRt) : Calm s (putSbc u a b) ↔ Calm s u := Calm.step (by simp +decide [putSbc])
@[simp] theorem calm_sbcApply (a : Nat) : Calm s (sbcApply u a) ↔ Calm s u := Calm.step (by simp [sbcApply])
@[simp] theorem calm_sbcRelease (a : Nat) : Calm s (sbcRelease u a) ↔ Calm s u := Calm.step (by simp [sbcRelease])
@[simp] theorem calm_sbcWhistle (r : Nat) : Calm s (sbcWhistle u r) ↔ Calm s u := by simp [sbcWhistle]

end Sys2Proof.Machine
end

