-- ==== Sys2Proof/Proofs/Whistle.lean ====
section
/-! The whistle of a ring with no change of schedule and no commit due (R20 to R22). -/

namespace Sys2Proof.Machine

variable {s : State}

/-! ### The axes of a cycle -/

/-- Which axes a cycle has does not rest on CYCLE_NUMBER. -/
theorem cycleAxes_set_cycleNumber {r : Nat} (hr : r < 4) (x : Int) (y : Nat) : cycleAxes (s.set Ob.Cyc.CYCLE_NUMBER x 0 0 r) y = cycleAxes s y := by
  have hget (o : Obj) (i j : Nat) (h : o.key i j ≠ Ob.Cyc.CYCLE_NUMBER.key 0 0 r) : (s.set Ob.Cyc.CYCLE_NUMBER x 0 0 r).get o i j = s.get o i j :=
    State.get_set_ne _ _ _ _ _ _ _ _ _ _ h
  have hring (a : Nat) := hget Ob.Map.RING a 0 (by simp only [Obj.key, Ob.Map.RING, Ob.Cyc.CYCLE_NUMBER]; omega)
  have hport (a : Nat) := hget Ob.Map.LOCAL_PORT a 0 (by simp only [Obj.key, Ob.Map.LOCAL_PORT, Ob.Cyc.CYCLE_NUMBER]; omega)
  have hworker (a : Nat) := hget Ob.Map.WORKER a 0 (by simp only [Obj.key, Ob.Map.WORKER, Ob.Cyc.CYCLE_NUMBER]; omega)
  have hchannel (a : Nat) := hget Ob.Map.CHANNEL a 0 (by simp only [Obj.key, Ob.Map.CHANNEL, Ob.Cyc.CYCLE_NUMBER]; omega)
  have hfunction (p : Nat) := hget Ob.Port.FUNCTION p 0 (by simp only [Obj.key, Ob.Port.FUNCTION, Ob.Cyc.CYCLE_NUMBER]; omega)
  have hlayouts (z p : Nat) := hget Ob.Wk.CHANNEL_LAYOUTS z p (by simp only [Obj.key, Ob.Wk.CHANNEL_LAYOUTS, Ob.Cyc.CYCLE_NUMBER]; omega)
  have hstate (z : Nat) := hget Ob.Ring.STATE z 0 (by simp only [Obj.key, Ob.Ring.STATE, Ob.Cyc.CYCLE_NUMBER]; omega)
  have hlocal := hget Ob.Cyc.LOCAL_RING 0 0 (by simp only [Obj.key, Ob.Cyc.LOCAL_RING, Ob.Cyc.CYCLE_NUMBER]; omega)
  simp only [cycleAxes, axesOf, State.onRing, State.kindOf, State.layout, State.inPlay, State.localRing, State.nat, hring, hport, hworker, hchannel, hfunction, hlayouts, hstate, hlocal] <;> rfl

/-! ### The items that a cycle's axes wait for -/

/-- LAST_ENGINE 0xFF and a new item to wait for, for every axis of a list (R29, R283). -/
def awaitItems (n : Nat) (l : List Nat) (s : State) : State :=
  forList l (fun a s => (s.put1 Ob.AxD.LAST_ENGINE 0xFF a).modAxis a fun x => { x with waiting := some n, undoneWhy := none }) s

theorem awaitItems_cons (n a : Nat) (l : List Nat) :
    awaitItems n (a :: l) s = awaitItems n l ((s.put1 Ob.AxD.LAST_ENGINE 0xFF a).modAxis a fun x => { x with waiting := some n, undoneWhy := none }) := rfl

theorem put1_axis (o : Obj) (x : Int) (i j k a : Nat) : (s.put1 o x i j k).axis a = s.axis a := by
  unfold State.put1
  split <;> rfl

theorem put1_od_ne (o : Obj) (x : Int) (i j k n : Nat) (h : n ≠ o.key i j k) : SMap.get? (s.put1 o x i j k).od n = SMap.get? s.od n := by
  unfold State.put1
  split
  · rfl
  · exact State.set_od_ne _ _ _ _ _ _ _ h

@[simp] theorem put1_rings (o : Obj) (x : Int) (i j k : Nat) : (s.put1 o x i j k).rings = s.rings := by
  unfold State.put1
  split <;> rfl
@[simp] theorem put1_staged (o : Obj) (x : Int) (i j k : Nat) : (s.put1 o x i j k).staged = s.staged := by
  unfold State.put1
  split <;> rfl
@[simp] theorem put1_snaps (o : Obj) (x : Int) (i j k : Nat) : (s.put1 o x i j k).snaps = s.snaps := by
  unfold State.put1
  split <;> rfl

theorem awaitItems_od (n k : Nat) (hk : k < 0x320000) (l : List Nat) : SMap.get? (awaitItems n l s).od k = SMap.get? s.od k := by
  induction l generalizing s with
  | nil => rfl
  | cons a l ih =>
    rw [awaitItems_cons, ih, State.modAxis_od, put1_od_ne]
    simp only [Obj.key, Ob.AxD.LAST_ENGINE]
    omega

@[simp] theorem awaitItems_rings (n : Nat) (l : List Nat) : (awaitItems n l s).rings = s.rings := by
  induction l generalizing s with
  | nil => rfl
  | cons a l ih => simp [awaitItems_cons, ih]
@[simp] theorem awaitItems_staged (n : Nat) (l : List Nat) : (awaitItems n l s).staged = s.staged := by
  induction l generalizing s with
  | nil => rfl
  | cons a l ih => simp [awaitItems_cons, ih]
@[simp] theorem awaitItems_snaps (n : Nat) (l : List Nat) : (awaitItems n l s).snaps = s.snaps := by
  induction l generalizing s with
  | nil => rfl
  | cons a l ih => simp [awaitItems_cons, ih]

/-- The listed axes wait for the new item, the others for what they waited for. -/
theorem awaitItems_waiting (n x : Nat) (l : List Nat) : ((awaitItems n l s).axis x).waiting = if x ∈ l then some n else (s.axis x).waiting := by
  induction l generalizing s with
  | nil => rfl
  | cons a l ih =>
    rw [awaitItems_cons, ih, State.axis_modAxis, put1_axis]
    by_cases hx : x = a <;> simp [hx]

/-! ### The whistle -/

/-- The cycle opened on ring `r` by the whistle of the cycle that starts at `c`. -/
def openedBy (s : State) (r c tc : Nat) : State :=
  (s.modRing r fun q => { q with tw := s.now, cycle := cycleNo c tc, tc := tc, sc := s.sched r, open_ := true, returned := false, lost := false }).set
    Ob.Cyc.CYCLE_NUMBER (cycleNo c tc) 0 0 r

theorem closeCycle_of_closed {r : Nat} (h : (s.ring r).open_ = false) : closeCycle s r = s := by simp [closeCycle, h]

theorem commitWhistle_of_none_due {r : Nat} (howed : s.com.owed = []) (hover : (s.ring r).overlay = []) (c t : Nat) : commitWhistle s r c t = s := by
  simp [commitWhistle, howed, hover]

theorem huddleAct_of_undecided {r : Nat} (h : s.hud.decided ≠ 1) : huddleAct s r = s := by simp [huddleAct, h]

theorem enterPlay_of_not_huddle {r : Nat} (h : s.get Ob.Ring.STATE r ≠ 4) : enterPlay s r = s := by simp [enterPlay, h]

/-- Once the axes wait for their items, the rest of a whistle samples and decides, and changes nothing of the cycle. -/
theorem calm_takeWhistle {r : Nat} (hr : r < 4) (hopen : (s.ring r).open_ = false) (howed : s.com.owed = []) (hover : (s.ring r).overlay = []) (c tc : Nat)
    (sd : List (Nat × List Bool)) : Calm (awaitItems (cycleNo c tc) (cycleAxes s r) (openedBy s r c tc)) (takeWhistle s r c tc sd) := by
  unfold takeWhistle
  rw [closeCycle_of_closed hopen]
  extract_lets n opened whistled ax waiting entered free sampled
  have hwhistled : whistled = openedBy s r c tc := commitWhistle_of_none_due (s := openedBy s r c tc) howed (by simpa [openedBy]) c s.now
  have hax : ax = cycleAxes s r := by
    unfold ax
    rw [hwhistled]
    exact cycleAxes_set_cycleNumber hr _ r
  have hwaiting : waiting = awaitItems (cycleNo c tc) (cycleAxes s r) (openedBy s r c tc) := by rw [← hax, ← hwhistled]; rfl
  have hentered : Calm waiting entered := by simp [entered]
  have hfree : Calm entered free := by simp [free]
  have hsampled : Calm free sampled := by simp [sampled]
  rw [← hwaiting]
  simpa using (hentered.trans hfree).trans hsampled

/-! What moving time leaves of the readings that a whistle rests on. -/

@[simp] theorem at_inPlay (t r : Nat) : (s.at t).inPlay r = s.inPlay r := by simp [State.inPlay]
@[simp] theorem at_localRing (t : Nat) : (s.at t).localRing = s.localRing := State.at_nat ..
@[simp] theorem at_sched (t r : Nat) : (s.at t).sched r = s.sched r := by simp [State.sched]
@[simp] theorem at_tcyc (t r : Nat) : (s.at t).tcyc r = s.tcyc r := by simp [State.tcyc, State.tcycSched]
@[simp] theorem at_woff (t r : Nat) : (s.at t).woff r = s.woff r := by simp [State.woff, State.woffSched]
@[simp] theorem at_cycleAxes (t r : Nat) : cycleAxes (s.at t) r = cycleAxes s r := by
  unfold State.at
  split <;> rfl

/-- WHISTLE of a ring in PLAY or of LOCAL_RING, where no huddle acts, is the whistle of the cycle that starts there (R21, R22). -/
theorem exec_whistle {r : Nat} (hr : r < 4) (hrun : unitRuns s = true) (hring : s.inPlay r = true ∨ r = s.localRing) (hhud : s.hud.decided ≠ 1)
    (hst : s.get Ob.Ring.STATE r ≠ 4) (hopen : (s.ring r).open_ = false) (t : Nat) (sd : List (Nat × List Bool)) :
    exec (.whistle r sd t) s = .next (match cycleOfWhistle (s.tcyc r) (s.woff r) (s.at t).now with
      | some c => takeWhistle (s.at t) r c (s.tcyc r) sd
      | none => s.at t) := by
  have hact : enterPlay (huddleAct (s.at t) r) r = s.at t := by
    rw [huddleAct_of_undecided (by simpa), enterPlay_of_not_huddle (by simpa)]
  have hgo : ¬((s.inPlay r = false ∧ r ≠ s.localRing) ∨ 4 ≤ r ∨ (s.ring r).open_ = true ∧ (s.ring r).tw = (s.at t).now) := by
    rw [hopen]
    rcases hring with h | h <;> simp [h] <;> omega
  refine (whileOn_runs hrun).trans ?_
  rw [hact]
  simp only [at_inPlay, at_localRing, State.at_ring, at_tcyc, at_woff, if_neg hgo] <;> rfl

/-- What the whistle of the cycle that starts at `c` leaves. -/
theorem takeWhistle_opens {r : Nat} (hr : r < 4) (hopen : (s.ring r).open_ = false) (howed : s.com.owed = []) (hover : (s.ring r).overlay = []) (c tc : Nat)
    (sd : List (Nat × List Bool)) :
    let u := takeWhistle s r c tc sd
    let n := cycleNo c tc
    u.get Ob.Cyc.CYCLE_NUMBER 0 0 r = n ∧ (u.ring r).tw = s.now ∧ (u.ring r).cycle = n ∧ (u.ring r).tc = tc ∧ (u.ring r).sc = s.sched r ∧
      (u.ring r).open_ = true ∧ (u.ring r).returned = false ∧ (∀ x ∈ cycleAxes s r, (u.axis x).waiting = some n) ∧
      (∀ x, x ∉ cycleAxes s r → (u.axis x).waiting = (s.axis x).waiting) ∧ u.staged = s.staged ∧ u.snaps = s.snaps := by
  intro u n
  have hcalm : Calm _ u := calm_takeWhistle hr hopen howed hover c tc sd
  have hring : u.ring r = (openedBy s r c tc).ring r := by simp only [State.ring, hcalm.rings, awaitItems_rings]
  have hnum : u.get Ob.Cyc.CYCLE_NUMBER 0 0 r = n := by
    have hkey : Ob.Cyc.CYCLE_NUMBER.key 0 0 r < 0x320000 := by
      simp only [Obj.key, Ob.Cyc.CYCLE_NUMBER]
      omega
    exact (get_congr ((hcalm.od _ hkey).trans (awaitItems_od _ _ hkey _))).trans (State.get_set_self ..)
  have hwaiting (x : Nat) : (u.axis x).waiting = if x ∈ cycleAxes s r then some n else (s.axis x).waiting := by
    rw [hcalm.waiting, awaitItems_waiting]
    rfl
  rw [hring]
  refine ⟨hnum, ?_, ?_, ?_, ?_, ?_, ?_, fun x hx => by simp [hwaiting, hx], fun x hx => by simp [hwaiting, hx], hcalm.staged.trans (by simp [openedBy]),
    hcalm.snaps.trans (by simp [openedBy])⟩ <;> simp [openedBy, n]

end Sys2Proof.Machine
end

