-- ==== Sys2Proof/Proofs/Emission.lean ====
section
/-! The rally frame of a cycle in PLAY (R23, R50 to R56), PAUSE and CLEAR_COUNTS, and O25. -/

namespace Sys2Proof.Machine

variable {s u v : State} {r : Nat}

/-! ### Forming a frame -/

/-- `u` differs from `s` at most in workers, in the huddle and in the record of ring `r`. -/
structure Forming (r : Nat) (s u : State) : Prop where
  ring : ∀ z, z ≠ r → u.ring z = s.ring z
  rest : { u with rings := s.rings, wks := s.wks, hud := s.hud } = s

theorem Forming.refl : Forming r s s := ⟨fun _ _ => rfl, rfl⟩

theorem Forming.trans (h : Forming r s u) (g : Forming r u v) : Forming r s v where
  ring z hz := (g.ring z hz).trans (h.ring z hz)
  rest := by
    have hr := h.rest
    rw [← g.rest] at hr
    exact hr

theorem Forming.modWk (p : Nat) (f : WorkerRt → WorkerRt) : Forming r s (s.modWk r p f) := ⟨fun _ _ => rfl, rfl⟩
theorem Forming.modHud (f : HuddleRt → HuddleRt) : Forming r s (s.modHud f) := ⟨fun _ _ => rfl, rfl⟩
theorem Forming.modRing (f : RingRt → RingRt) : Forming r s (s.modRing r f) := ⟨fun z hz => by simp [hz], rfl⟩

theorem Forming.now (h : Forming r s u) : u.now = s.now := by simpa using congrArg State.now h.rest
theorem Forming.out (h : Forming r s u) : u.out = s.out := by simpa using congrArg State.out h.rest
theorem Forming.od (h : Forming r s u) : u.od = s.od := by simpa using congrArg State.od h.rest
theorem Forming.axes (h : Forming r s u) : u.axes = s.axes := by simpa using congrArg State.axes h.rest
theorem Forming.shared (h : Forming r s u) : u.shared = s.shared := by simpa using congrArg State.shared h.rest
theorem Forming.ucode (h : Forming r s u) : u.ucode = s.ucode := by simpa using congrArg State.ucode h.rest
theorem Forming.aces (h : Forming r s u) : u.aces = s.aces := by simpa using congrArg State.aces h.rest

/-- The slots of a frame stand in the order of the positions, whatever their commands. -/
theorem emitSlots_pos (sc n : Nat) (valid : Bool) : (emitSlots s r sc n valid).1.map (fun d => d.pos) = (List.range (s.nWorkers r)).map (· + 1) := by
  simp [emitSlots, workerSlot]

theorem emitSlots_forming (sc n : Nat) (valid : Bool) : Forming r s (emitSlots s r sc n valid).2 :=
  List.foldlRecOn (motive := Forming r s) _ _ Forming.refl fun w hw d _ => by
    dsimp only
    split
    · exact hw.trans (.modWk _ _)
    · exact hw

theorem serviceSlot_forming (n : Nat) : Forming r s (serviceSlot s r n).2 := by
  unfold serviceSlot
  split
  · exact .refl
  split
  · exact .refl
  split
  · split
    · exact .refl
    · dsimp only
      exact (Forming.modWk _ _).trans (.modRing _)
  · exact .refl

/-- The length of a frame rests on the dictionary alone. -/
theorem sahxLength_congr (h : u.od = s.od) (sc : Nat) : sahxLength u r sc = sahxLength s r sc := by
  change sahxLength { s with od := u.od } r sc = _
  rw [h]

/-- A frame sent from the state `u` that formed it: the message, what the ring keeps of it, and what the cycle it began in keeps. -/
theorem sendFrame_spec (h : Forming r s u) (w : Nat) (f : RallyFrame) :
    let v := sendFrame u r w f
    v.out = .frame f (wireBytes u f) :: s.out ∧ (v.ring r).tx = some f ∧ (v.ring r).txAt = s.now ∧ v.od = s.od ∧ (∀ x, v.axis x = s.axis x) ∧ BytesKept s v ∧
      ∀ z, z ≠ r → v.ring z = s.ring z := by
  intro v
  refine ⟨?_, ?_, ?_, h.od, ?_, ?_, ?_⟩
  · simp [v, sendFrame, State.emit, h.out]
  · simp [v, sendFrame]
  · simp [v, sendFrame, h.now]
  · intro x
    exact congrArg (fun m => SMap.getD m x {}) h.axes
  · intro a
    exact ⟨congrArg (Mem.get · a) h.shared, congrArg (Mem.get · a) h.ucode, fun e => congrArg (fun m => Mem.get (SMap.getD m e {} : AceRt).mem a) h.aces⟩
  · intro z hz
    simp [v, sendFrame, hz, h.ring z hz]

/-- The state in which the frame of a ring in PLAY is sent. -/
def formed (s : State) (r : Nat) : State :=
  let u := (serviceSlot (emitSlots s r (s.sched r) (s.ring r).cycle true).2 r (s.ring r).cycle).2
  if (huddleFlag s r).1 = 1 then u.modHud fun h => { h with announcedAt := if h.announcedAt = 0 then u.now else h.announcedAt } else u

theorem formed_forming : Forming r s (formed s r) := by
  have h : Forming r s (serviceSlot (emitSlots s r (s.sched r) (s.ring r).cycle true).2 r (s.ring r).cycle).2 :=
    (emitSlots_forming _ _ _).trans (serviceSlot_forming _)
  unfold formed
  dsimp only
  split
  · exact h.trans (.modHud _)
  · exact h

/-- The frame of a ring in PLAY (Tables 03-1 to 03-5). -/
def playFrame (s : State) (r : Nat) : RallyFrame :=
  let (cf, tag) := commitFlag s ((s.ring r).tw - s.woff r)
  let (hf, target, hc) := huddleFlag s r
  { ring := r, sched := s.sched r, huddleTarget := target, flags := flagsWord r cf hf (isSplit (formed s r) r) false, cycle := (s.ring r).cycle,
    whistle := nextWhistle (formed s r) r, length := sahxLength (formed s r) r (s.sched r), commitTag := tag, sender := senderByte (formed s r) r,
    huddleCycle := hc, slots := (emitSlots s r (s.sched r) (s.ring r).cycle true).1,
    svc := [(serviceSlot (emitSlots s r (s.sched r) (s.ring r).cycle true).2 r (s.ring r).cycle).1] }

/-- The fields of the frame that Tables 03-1 to 03-5 tie to the cycle. -/
theorem playFrame_spec :
    let f := playFrame s r
    f.ring = r ∧ f.cycle = (s.ring r).cycle ∧ f.sched = s.sched r ∧ f.length = sahxLength s r (s.sched r) ∧
      f.slots.map (fun d => d.pos) = (List.range (s.nWorkers r)).map (· + 1) ∧ f.svc.length = 1 :=
  ⟨rfl, rfl, rfl, sahxLength_congr formed_forming.od _, emitSlots_pos _ _ _, rfl⟩

theorem emitPlay_eq : emitPlay s r = sendFrame (formed s r) r (s.ring r).tw (playFrame s r) := rfl

/-- The frame that leaves in PLAY, and what its emission leaves unchanged. -/
theorem emitPlay_spec :
    let u := emitPlay s r
    ∃ f w, u.out = .frame f w :: s.out ∧ (u.ring r).tx = some f ∧ (u.ring r).txAt = s.now ∧ f.ring = r ∧ f.cycle = (s.ring r).cycle ∧ f.sched = s.sched r ∧
      f.length = sahxLength s r (s.sched r) ∧ f.slots.map (fun d => d.pos) = (List.range (s.nWorkers r)).map (· + 1) ∧ f.svc.length = 1 ∧ u.od = s.od ∧
      (∀ x, u.axis x = s.axis x) ∧ BytesKept s u ∧ ∀ z, z ≠ r → u.ring z = s.ring z := by
  intro u
  obtain ⟨hout, htx, hat, hod, haxis, hbytes, hother⟩ := sendFrame_spec formed_forming (s.ring r).tw (playFrame s r)
  obtain ⟨hring, hcycle, hsched, hlength, hslots, hsvc⟩ := playFrame_spec (s := s) (r := r)
  rw [← emitPlay_eq] at hout htx hat hod haxis hbytes hother
  exact ⟨_, _, hout, htx, hat, hring, hcycle, hsched, hlength, hslots, hsvc, hod, haxis, hbytes, hother⟩

/-! ### The commands -/

@[simp] theorem at_nWorkers (t : Nat) : (s.at t).nWorkers r = s.nWorkers r := State.at_nat ..

@[simp] theorem bytesKept_at (t : Nat) : BytesKept (s.at t) u ↔ BytesKept s u := by simp [BytesKept]

/-- FRAME_EMISSION of a ring in PLAY at or after t_E, where the frame of the cycle has not left, on a unit outside a pair (R23). -/
theorem exec_frameEmission (hrun : unitRuns s = true) (t : Nat) (hplay : s.inPlay r = true) (hon : (s.ring r).txOn = true) (hopen : (s.ring r).open_ = true)
    (hte : (s.ring r).tw + 500 ≤ (s.at t).now) (hfrom : (s.ring r).txFrom ≤ (s.ring r).tw + 500) (htx : (s.ring r).tx = none ∨ (s.ring r).txAt < (s.ring r).tw)
    (hrole : s.get Ob.Pair.ROLE = 0) : exec (.frameEmission r t) s = .next (emitPlay (s.at t) r) := by
  have hleft : ¬((s.ring r).tx.isSome ∧ (s.ring r).tw ≤ (s.ring r).txAt) := by
    rcases htx with h | h <;> simp [h]
  have hnostandby : isStandby (s.at t) = false := by simp [isStandby, hrole]
  have hnobench : (emitPlay (s.at t) r).get Ob.Pair.ROLE ≠ 1 := by
    obtain ⟨_, _, -, -, -, -, -, -, -, -, -, hod, -⟩ := emitPlay_spec (s := s.at t) (r := r)
    simp [get_congr (congrArg (SMap.get? · _) hod), hrole]
  refine (whileOn_runs hrun).trans ?_
  dsimp only
  rw [if_neg (by simp [hplay, hon, hopen, hte, hfrom, hleft, hnostandby]), if_neg hnobench]

theorem exec_frameEmission_early (hrun : unitRuns s = true) (t : Nat) (h : (s.at t).now < (s.ring r).tw + 500) : exec (.frameEmission r t) s = .next (s.at t) := by
  refine (whileOn_runs hrun).trans ?_
  dsimp only
  rw [if_pos (by simp [h])]

/-- A PAUSE frame received is discarded (R47). -/
theorem exec_pauseFrame (hrun : unitRuns s = true) (t : Nat) : exec (.pauseFrame r t) s = .next (s.at t) := whileOn_runs hrun

/-- CLEAR_COUNTS as the dictionary keeps it (R36). -/
theorem exec_clearCounts (hrun : unitRuns s = true) (t : Nat) : exec (.clearCounts t) s = answer (kept Ob.Cyc.CLEAR_COUNTS 1 (clearCountsWrite (s.at t))) :=
  whileOn_runs hrun

/-- CLEAR_COUNTS sets eight objects, one after the other. -/
theorem kept_clearCounts : (kept Ob.Cyc.CLEAR_COUNTS 1 (clearCountsWrite s)).1 =
    (((((((s.set Ob.Cyc.UNDONE_COMPUTE 0).set Ob.Cyc.UNDONE_LATE 0).set Ob.Cyc.UNDONE_FRAME 0).set Ob.Cyc.FRAME_MISSING 0 0 0 0).set Ob.Cyc.FRAME_MISSING 0 0 0 1).set
      Ob.Cyc.FRAME_MISSING 0 0 0 2).set Ob.Cyc.FRAME_MISSING 0 0 0 3).set Ob.Cyc.CLEAR_COUNTS 1 := rfl

end Sys2Proof.Machine

open Sys2Proof Sys2Proof.Machine

/-- Settles O25: the whistle by what the sampling at it leaves unchanged (`Calm`), the frame by what forming it may change (`Forming`). -/
theorem whistlesAndFrames : Obligations.WhistlesAndFrames := by
  unfold Obligations.WhistlesAndFrames
  refine ⟨?_, ?_⟩
  · intro s r t c sd hr hrun a n hring hhud hst hopen howed hover
    have hexec := exec_whistle hr hrun hring hhud hst hopen t sd
    refine ⟨fun hc => ?_, fun hc => ?_⟩
    · rw [hc] at hexec
      rw [answers_iff hexec]
      simpa [a] using takeWhistle_opens (s := s.at t) hr (by simpa) (by simpa) (by simpa) c (s.tcyc r) sd
    · rw [hc] at hexec
      exact hexec
  · intro s r t hrun a q
    refine ⟨fun hplay hon hopen hte hfrom htx hrole => ?_, exec_frameEmission_early hrun t, exec_pauseFrame hrun t, ?_⟩
    · rw [answers_iff (exec_frameEmission hrun t hplay hon hopen hte hfrom htx hrole)]
      have h := emitPlay_spec (s := s.at t) (r := r)
      simp only [State.at_out, State.at_ring, at_sched, State.at_od, State.at_axis, sahxLength_congr (State.at_od s t), at_nWorkers, bytesKept_at] at h
      obtain ⟨f, w, hout, htx, hat, hring, hcycle, hsched, hlength, hslots, hsvc, hod, haxis, hbytes, hother⟩ := h
      exact ⟨f, w, hout, htx, hat, hring, hcycle, hsched, hlength, hslots, hsvc, hod, haxis, hbytes, hother⟩
    · rw [answers_iff (exec_clearCounts hrun t), kept_clearCounts]
      refine ⟨?_, ?_, ?_, fun k hk => ?_, ?_, fun k hk => ?_, fun x => ?_, ?_⟩
      · simp +decide [State.get_set]
      · simp +decide [State.get_set]
      · simp +decide [State.get_set]
      · interval_cases k <;> simp +decide [State.get_set]
      · simp
      · simp only [List.mem_cons, List.not_mem_nil, not_or] at hk
        simp [State.set, hk]
      · simp
      · simp [BytesKept]
end
-- ==== Sys2Proof/Proofs/RingExit.lean ====
section
/-! What the dispatcher, the commit and the huddle leave unchanged when a ring leaves PLAY: the objects of rings and axes, the rings, and the motion state of
every axis. -/

namespace Sys2Proof.Machine

/-- A key outside the blocks of the rings (0x2000 to 0x2FFF) and of the axes (0x4000 to 0x7FFF). -/
@[reducible] def Outside (k : Nat) : Prop := k < 0x200000 ∨ (0x300000 ≤ k ∧ k < 0x400000) ∨ 0x800000 ≤ k

/-- `u` agrees with `s` on the objects of rings and axes, on the rings and on the motion states. -/
structure Aside (s u : State) : Prop where
  od : ∀ k, ¬Outside k → SMap.get? u.od k = SMap.get? s.od k
  rings : u.rings = s.rings
  mot : ∀ a, (u.axis a).mot = (s.axis a).mot

variable {s u v : State}

@[simp] theorem Aside.refl : Aside s s := ⟨fun _ _ => rfl, rfl, fun _ => rfl⟩

theorem Aside.trans (h : Aside s u) (g : Aside u v) : Aside s v where
  od k hk := (g.od k hk).trans (h.od k hk)
  rings := g.rings.trans h.rings
  mot a := (g.mot a).trans (h.mot a)

theorem Aside.symm (h : Aside s u) : Aside u s where
  od k hk := (h.od k hk).symm
  rings := h.rings.symm
  mot a := (h.mot a).symm

/-- A further operation that stays aside changes nothing of what is kept. -/
theorem Aside.step (g : Aside u v) : Aside s v ↔ Aside s u := ⟨fun h => h.trans g.symm, fun h => h.trans g⟩

theorem Aside.get (h : Aside s u) {o : Obj} {i j k : Nat} (hk : ¬Outside (o.key i j k)) : u.get o i j k = s.get o i j k := get_congr (h.od _ hk)

theorem Aside.ring (h : Aside s u) (r : Nat) : u.ring r = s.ring r := congrArg (fun m => (SMap.getD m r {} : RingRt)) h.rings

/-! ### Loops and branches -/

@[simp] theorem aside_ite (c : Prop) [Decidable c] : Aside s (if c then u else v) ↔ (c → Aside s u) ∧ (¬c → Aside s v) := by
  by_cases h : c <;> simp [h]

@[simp] theorem aside_forBelow {f : Nat → State → State} (hf : ∀ i u, Aside u (f i u)) (n : Nat) : Aside s (forBelow n f u) ↔ Aside s u :=
  Aside.step (List.foldlRecOn (motive := Aside u) _ _ Aside.refl fun w hw i _ => hw.trans (hf i w))

@[simp] theorem aside_forList {α : Type} {f : α → State → State} (hf : ∀ x u, Aside u (f x u)) (l : List α) : Aside s (forList l f u) ↔ Aside s u :=
  Aside.step (List.foldlRecOn (motive := Aside u) _ _ Aside.refl fun w hw x _ => hw.trans (hf x w))

/-! ### Operations of the state -/

/-- An object outside the blocks of rings and axes set. -/
@[simp] theorem aside_set {o : Obj} {i j k : Nat} (ho : Outside (o.key i j k)) (x : Int) : Aside s (u.set o x i j k) ↔ Aside s u :=
  Aside.step ⟨fun _ hn => State.set_od_ne _ _ _ _ _ _ _ fun h => hn (h ▸ ho), rfl, fun _ => rfl⟩
/-- An object above the axes' blocks set. -/
@[simp] theorem aside_set_high {o : Obj} (ho : 0x8000 ≤ o.base) (i j k : Nat) (x : Int) : Aside s (u.set o x i j k) ↔ Aside s u :=
  aside_set (.inr (.inr (le_trans (Nat.mul_le_mul_right 256 ho) (o.base_le_key i j k)))) x
@[simp] theorem aside_count {o : Obj} {i j k : Nat} (ho : Outside (o.key i j k)) (n : Int) : Aside s (u.count o i j k n) ↔ Aside s u := aside_set ho _
@[simp] theorem aside_count_high {o : Obj} (ho : 0x8000 ≤ o.base) (i j k : Nat) (n : Int) : Aside s (u.count o i j k n) ↔ Aside s u := aside_set_high ho ..

@[simp] theorem aside_modAxis (a : Nat) (f : AxisRt → AxisRt) (hf : ∀ x, (f x).mot = x.mot) : Aside s (u.modAxis a f) ↔ Aside s u :=
  Aside.step
    { od := fun _ _ => rfl
      rings := rfl
      mot := fun x => by
        rw [State.axis_modAxis]
        split
        · next h => rw [hf, h]
        · rfl }

@[simp] theorem aside_modAce (e : Nat) (f : AceRt → AceRt) : Aside s (u.modAce e f) ↔ Aside s u := Aside.step ⟨fun _ _ => rfl, rfl, fun _ => rfl⟩
@[simp] theorem aside_setAce (e : Nat) (f : AceRt) : Aside s (u.setAce e f) ↔ Aside s u := Aside.step ⟨fun _ _ => rfl, rfl, fun _ => rfl⟩
@[simp] theorem aside_setEng (e : Nat) (f : EngRt) : Aside s (u.setEng e f) ↔ Aside s u := Aside.step ⟨fun _ _ => rfl, rfl, fun _ => rfl⟩
@[simp] theorem aside_withDisp (d : DispRt) : Aside s { u with disp := d } ↔ Aside s u := Aside.step ⟨fun _ _ => rfl, rfl, fun _ => rfl⟩
@[simp] theorem aside_withPair (p : PairRt) : Aside s { u with pair := p } ↔ Aside s u := Aside.step ⟨fun _ _ => rfl, rfl, fun _ => rfl⟩
@[simp] theorem aside_withStaged (l : List Staged) : Aside s { u with staged := l } ↔ Aside s u := Aside.step ⟨fun _ _ => rfl, rfl, fun _ => rfl⟩
@[simp] theorem aside_modCom (f : CommitRt → CommitRt) : Aside s (u.modCom f) ↔ Aside s u := Aside.step ⟨fun _ _ => rfl, rfl, fun _ => rfl⟩
@[simp] theorem aside_modHud (f : HuddleRt → HuddleRt) : Aside s (u.modHud f) ↔ Aside s u := Aside.step ⟨fun _ _ => rfl, rfl, fun _ => rfl⟩
@[simp] theorem aside_modSafe (f : SafeRt → SafeRt) : Aside s (u.modSafe f) ↔ Aside s u := Aside.step ⟨fun _ _ => rfl, rfl, fun _ => rfl⟩
@[simp] theorem aside_modSess (k : Nat) (f : SessRt → SessRt) : Aside s (u.modSess k f) ↔ Aside s u := Aside.step ⟨fun _ _ => rfl, rfl, fun _ => rfl⟩
@[simp] theorem aside_modWk (r p : Nat) (f : WorkerRt → WorkerRt) : Aside s (u.modWk r p f) ↔ Aside s u := Aside.step ⟨fun _ _ => rfl, rfl, fun _ => rfl⟩
@[simp] theorem aside_emit (m : Msg) : Aside s (u.emit m) ↔ Aside s u := Aside.step ⟨fun _ _ => rfl, rfl, fun _ => rfl⟩
@[simp] theorem aside_warn (x y z : Nat) : Aside s (u.warn x y z) ↔ Aside s u := aside_emit _

/-! ### The dispatcher -/

@[simp] theorem aside_aceEvent (e x n : Nat) : Aside s (aceEvent u e x n) ↔ Aside s u := by simp +decide [aceEvent]
@[simp] theorem aside_slotCount (e k n : Nat) : Aside s (slotCount u e k n) ↔ Aside s u := by simp [slotCount]
@[simp] theorem aside_clearPipe (e : Nat) : Aside s (clearPipe u e) ↔ Aside s u := by simp [clearPipe]
@[simp] theorem aside_voidRun (e why : Nat) : Aside s (voidRun u e why) ↔ Aside s u :=
  Aside.step (by
    unfold voidRun
    split
    · simp
    · extract_lets cleared x counted noted g ax d ended voided gone dep disp dropped cancelled
      have hvoided : Aside u voided := by simp +decide [voided, ended, noted, counted, cleared]
      have hdropped : Aside voided dropped := ⟨fun _ _ => rfl, rfl, fun _ => rfl⟩
      have hcancelled : Aside u cancelled := by simpa +decide [cancelled] using hvoided.trans hdropped
      simp [hcancelled])
@[simp] theorem aside_orderVoid (e why : Nat) : Aside s (orderVoid u e why) ↔ Aside s u := Aside.step (by simp [orderVoid])
@[simp] theorem aside_dropItems (f : Item → Bool) : Aside s (dropItems u f) ↔ Aside s u := by simp [dropItems]
@[simp] theorem aside_dropDependents (l : List Nat) (t : Nat) : Aside s (dropDependents u l t) ↔ Aside s u := by simp +decide [dropDependents]
@[simp] theorem aside_dispatcherDeadline (r : Nat) (l : List Nat) : Aside s (dispatcherDeadline u r l) ↔ Aside s u :=
  Aside.step (by
    unfold dispatcherDeadline
    extract_lets voided left held dropped cancelled
    have hvoided : Aside u voided := (aside_forBelow (fun e w => by split <;> simp) 8).2 .refl
    simpa +decide [cancelled, dropped] using hvoided)

/-! ### The commit -/

@[simp] theorem aside_mirror (m : Mirror) : Aside s (mirror u m) ↔ Aside s u := Aside.step (by simp [mirror])
@[simp] theorem aside_publishLog : Aside s (publishLog u) ↔ Aside s u := by simp +decide [publishLog]
@[simp] theorem aside_logEntry (a b c d e f : Nat) (l : List Byte) : Aside s (logEntry u a b c d e f l) ↔ Aside s u := Aside.step (by simp +decide [logEntry])
@[simp] theorem aside_putStaged (l : List Staged) : Aside s (putStaged u l) ↔ Aside s u := by simp +decide [putStaged]
@[simp] theorem aside_dropStaged : Aside s (dropStaged u) ↔ Aside s u := Aside.step (by simp +decide [dropStaged])
@[simp] theorem aside_commitResult (a b c : Nat) : Aside s (commitResult u a b c) ↔ Aside s u := by simp +decide [commitResult]
@[simp] theorem aside_commitSettle (a b c : Nat) : Aside s (commitSettle u a b c) ↔ Aside s u := Aside.step (by simp +decide [commitSettle])
@[simp] theorem aside_keepReply (k n st : Nat) (b : List Byte) : Aside s (keepReply u k n st b) ↔ Aside s u := by simp [keepReply]
@[simp] theorem aside_setChan (c : Nat) (x : ChanRt) : Aside s (u.setChan c x) ↔ Aside s u := Aside.step ⟨fun _ _ => rfl, rfl, fun _ => rfl⟩
@[simp] theorem aside_fillReply (c : Nat) : Aside s (fillReply u c) ↔ Aside s u := Aside.step (by dsimp only [fillReply]; split <;> simp)
@[simp] theorem aside_sendReply (p : Path) (b : List Byte) : Aside s (sendReply u p b) ↔ Aside s u := Aside.step (by simp [sendReply])
@[simp] theorem aside_mirrorSess (k : Nat) : Aside s (mirrorSess u k) ↔ Aside s u := Aside.step (by simp [mirrorSess])
@[simp] theorem aside_replyTo (k : Nat) (p : Path) (b : List Byte) : Aside s (replyTo u k p b) ↔ Aside s u := Aside.step (by simp [replyTo])
@[simp] theorem aside_commitReplies (k : CommitRt) (st tag : Nat) : Aside s (commitReplies u k st tag) ↔ Aside s u := Aside.step (by simp [commitReplies])
@[simp] theorem aside_commitReject (a b c : Nat) : Aside s (commitReject u a b c) ↔ Aside s u := by simp +decide [commitReject]
@[simp] theorem aside_commitAbort (a : Nat) : Aside s (commitAbort u a) ↔ Aside s u := by simp [commitAbort]
@[simp] theorem aside_commitRingLeft (r : Nat) : Aside s (commitRingLeft u r) ↔ Aside s u := Aside.step (by simp [commitRingLeft])

/-! ### The huddle and READY -/

@[simp] theorem aside_huddleCancel (x : Nat) : Aside s (huddleCancel u x) ↔ Aside s u := Aside.step (by simp +decide [huddleCancel])
@[simp] theorem aside_huddleSettle : Aside s (huddleSettle u) ↔ Aside s u := Aside.step (by simp +decide [huddleSettle])
@[simp] theorem aside_judgeReady : Aside s (judgeReady u) ↔ Aside s u := Aside.step (by simp +decide [judgeReady])

end Sys2Proof.Machine
end
-- ==== Sys2Proof/Proofs/LeavePlay.lean ====
section
/-! A ring leaves PLAY (R66, R75): its axes are made FAULTED, the other rings stay as they are. -/

namespace Sys2Proof.Machine

variable {s u v : State} {r : Nat}

/-! ### Keys of one ring -/

/-- Two objects of the same stride stand at different keys of every ring or axis. -/
theorem Obj.key_ne_of_stride {o o' : Obj} (hst : o'.st1 = o.st1) (h : o'.base * 256 + o'.sub ≠ o.base * 256 + o.sub) (i : Nat) : o'.key i ≠ o.key i := by
  obtain ⟨b, _, d, _, e, _, x, _⟩ := o
  obtain ⟨b', _, d', _, e', _, x', _⟩ := o'
  simp only [Obj.key] at hst h ⊢
  subst hst
  exact fun hkey => h (by linarith)

/-- An object read after another of the same ring or axis is set. -/
@[simp] theorem get_set_stride {o o' : Obj} (hst : o'.st1 = o.st1) (h : o'.base * 256 + o'.sub ≠ o.base * 256 + o.sub) (x : Int) (i : Nat) :
    (s.set o x i).get o' i = s.get o' i :=
  State.get_set_ne _ _ _ _ _ _ _ _ _ _ (Obj.key_ne_of_stride hst h i)

/-- The object stands once in the block of 1 024 indexes that every ring has (0x2000 to 0x2FFF). -/
@[reducible] def Obj.PerRing (o : Obj) : Prop := 0x2000 ≤ o.base ∧ o.base < 0x2400 ∧ o.st1 = 0x400 ∧ o.sub < 256

theorem Obj.key_div_of_perRing {o : Obj} (h : o.PerRing) (r : Nat) : o.key r / 262144 = 8 + r := by
  obtain ⟨hlo, hhi, hst, hsub⟩ := h
  simp only [Obj.key, hst]
  omega

/-! ### Other rings -/

/-- `u` agrees with `s` on the objects and the record of ring `r`. -/
structure RingKept (r : Nat) (s u : State) : Prop where
  od : ∀ k, k / 262144 = 8 + r → SMap.get? u.od k = SMap.get? s.od k
  ring : u.ring r = s.ring r

@[simp] theorem RingKept.refl : RingKept r s s := ⟨fun _ _ => rfl, rfl⟩
theorem RingKept.trans (h : RingKept r s u) (g : RingKept r u v) : RingKept r s v := ⟨fun k hk => (g.od k hk).trans (h.od k hk), g.ring.trans h.ring⟩

theorem RingKept.get (h : RingKept r s u) {o : Obj} (ho : o.PerRing) : u.get o r = s.get o r := get_congr (h.od _ (Obj.key_div_of_perRing ho r))

theorem RingKept.of_aside (hr : r < 4) (h : Aside s u) : RingKept r s u := ⟨fun k hk => h.od k (by unfold Outside; omega), h.ring r⟩

theorem RingKept.of_onAxis (hr : r < 4) {a : Nat} (h : OnAxis a s u) : RingKept r s u where
  od k hk := h.od k (by omega)
  ring := by
    have hrings : u.rings = s.rings := by simpa using congrArg State.rings h.rest
    exact congrArg (fun m => (SMap.getD m r {} : RingRt)) hrings

theorem RingKept.forList {α : Type} {f : α → State → State} (hf : ∀ x u, RingKept r u (f x u)) (l : List α) : RingKept r s (forList l f s) :=
  List.foldlRecOn (motive := RingKept r s) _ _ .refl fun w hw x _ => hw.trans (hf x w)

theorem RingKept.set_ring (o : Obj) (ho : o.PerRing) {z : Nat} (hz : z ≠ r) (x : Int) : RingKept r s (s.set o x z) where
  od k hk := State.set_od_ne _ _ _ _ _ _ _ fun h => hz (by have := Obj.key_div_of_perRing ho z; omega)
  ring := rfl

theorem RingKept.modRing {z : Nat} (hz : r ≠ z) (f : RingRt → RingRt) : RingKept r s (s.modRing z f) := ⟨fun _ _ => rfl, by simp [hz]⟩

theorem ringKept_faultRing (hr : r < 4) (z code : Nat) (told : Bool) : RingKept r s (faultRing s z code told) :=
  .forList (fun a w => .of_onAxis hr (a := a) (by simp)) _

/-! ### The axes of the ring that leaves -/

/-- Axis `x` is FAULTED with bit `c` of FAULT_SET. -/
def FaultedBy (x c : Nat) (s : State) : Prop := (s.axis x).mot.state = .faulted ∧ bit (s.nat Ob.Ctl.FAULT_SET x) c = true

theorem bit_setBit_self (n k : Nat) : bit (setBit n k true) k = true := by
  unfold setBit
  split
  · next h => exact h
  · next h =>
    have hk : n / 2 ^ k % 2 = 0 := by simpa [bit] using h
    have hdiv : (n + 2 ^ k) / 2 ^ k = n / 2 ^ k + 1 := Nat.add_div_right n (Nat.two_pow_pos k)
    simp only [bit, if_true, hdiv, decide_eq_true_eq]
    omega

theorem recordFault_axis (a c x : Nat) : (recordFault s a c).axis x = s.axis x := by
  unfold recordFault
  dsimp only
  split <;> rfl

theorem recordFault_faultSet (a c : Nat) : bit ((recordFault s a c).nat Ob.Ctl.FAULT_SET a) c = true := by
  have h : (recordFault s a c).nat Ob.Ctl.FAULT_SET a = setBit (s.nat Ob.Ctl.FAULT_SET a) c true := by
    unfold recordFault
    dsimp only
    split <;> simp +decide [State.nat]
  rw [h, bit_setBit_self]

theorem publishState_axis (a x : Nat) : (publishState s a).axis x = s.axis x := rfl

theorem publishState_faultSet (a : Nat) : (publishState s a).get Ob.Ctl.FAULT_SET a = s.get Ob.Ctl.FAULT_SET a := by simp +decide [publishState]

theorem dropArmed_faultSet (a : Nat) : (dropArmed s a).get Ob.Ctl.FAULT_SET a = s.get Ob.Ctl.FAULT_SET a := by
  unfold dropArmed
  dsimp only
  split <;> split <;> split <;> simp +decide

/-- An axis that is not DISABLED is FAULTED at once; its FAULT_SET stands. -/
theorem faultNow_spec {a : Nat} (h : (s.axis a).mot.state ≠ .disabled) :
    ((faultNow s a).axis a).mot.state = .faulted ∧ (faultNow s a).get Ob.Ctl.FAULT_SET a = s.get Ob.Ctl.FAULT_SET a := by
  unfold faultNow
  rw [if_neg h]
  dsimp only
  rw [publishState_axis, publishState_faultSet]
  exact ⟨by simp, by simp [dropArmed_faultSet]⟩

theorem faultAtOnce_faultedBy {a : Nat} (c : Nat) (h : (s.axis a).mot.state ≠ .disabled) : FaultedBy a c (faultAtOnce s a c) := by
  unfold faultAtOnce
  rw [if_neg h]
  split
  · next hf => exact ⟨by rw [recordFault_axis, hf], recordFault_faultSet a c⟩
  · obtain ⟨hstate, hset⟩ := faultNow_spec (s := (recordFault s a c).warn 192 a c) (a := a) (by
      change ((recordFault s a c).axis a).mot.state ≠ .disabled
      rwa [recordFault_axis])
    exact ⟨hstate, by rw [State.nat, hset]; exact recordFault_faultSet a c⟩

/-- What making one axis of a ring FAULTED does (R75). -/
def faultAxis (c : Nat) (told : Bool) (a : Nat) (s : State) : State :=
  let s := if (s.axis a).mot.state = .disabled then s
    else s.modAxis a fun x => { x with flags := { x.flags with toldStop := x.flags.toldStop || told } }
  faultAtOnce s a c

theorem faultAxis_onAxis (c : Nat) (told : Bool) (a : Nat) : OnAxis a s (faultAxis c told a s) := by simp [faultAxis]

theorem faultAxis_faultedBy (c : Nat) (told : Bool) {a : Nat} (h : (s.axis a).mot.state ≠ .disabled) : FaultedBy a c (faultAxis c told a s) := by
  unfold faultAxis
  rw [if_neg h]
  exact faultAtOnce_faultedBy c (by simpa using h)

/-- An operation of another axis leaves the motion state and FAULT_SET of axis `x`. -/
theorem OnAxis.mot_and_faultSet {a x : Nat} (h : OnAxis a s u) (hx : x ≠ a) :
    (u.axis x).mot = (s.axis x).mot ∧ u.get Ob.Ctl.FAULT_SET x = s.get Ob.Ctl.FAULT_SET x := by
  refine ⟨by rw [h.axis x hx], get_congr (h.od _ ?_)⟩
  rw [Obj.key_div_of_perAxis (by decide)]
  omega

theorem FaultedBy.faultAxis {x c : Nat} (h : FaultedBy x c s) (told : Bool) (a : Nat) : FaultedBy x c (faultAxis c told a s) := by
  by_cases hx : x = a
  · subst hx
    exact faultAxis_faultedBy c told (by simp [h.1])
  · obtain ⟨hmot, hset⟩ := (faultAxis_onAxis (s := s) c told a).mot_and_faultSet hx
    exact ⟨by rw [hmot, h.1], by rw [State.nat, hset]; exact h.2⟩

/-- Every listed axis that is not DISABLED ends FAULTED. -/
theorem forList_faultAxis {x c : Nat} (told : Bool) {l : List Nat} (hx : x ∈ l) (h : (s.axis x).mot.state ≠ .disabled) :
    FaultedBy x c (forList l (faultAxis c told) s) := by
  induction l generalizing s with
  | nil => simp at hx
  | cons a l ih =>
    change FaultedBy x c (forList l (faultAxis c told) (Machine.faultAxis c told a s))
    by_cases hxa : x = a
    · subst hxa
      exact List.foldlRecOn (motive := FaultedBy x c) _ _ (faultAxis_faultedBy c told h) fun w hw a _ => hw.faultAxis told a
    · refine ih (List.mem_of_ne_of_mem hxa hx) ?_
      rwa [((faultAxis_onAxis c told a).mot_and_faultSet hxa).1]

theorem faultRing_faultedBy (c : Nat) (told : Bool) {x : Nat} (hx : x < 256) (hring : s.onRing x r = true) (h : (s.axis x).mot.state ≠ .disabled) :
    FaultedBy x c (faultRing s r c told) :=
  forList_faultAxis told (by simp [State.axesOn, hx, hring]) h

/-! ### The ring leaves PLAY -/

/-- The ring's own objects and record as it leaves PLAY or fails a kickoff (R66, R75). -/
def ringOff (s : State) (r : Nat) (state reason : Int) : State :=
  let s := ((s.set Ob.Ring.STATE state r).set Ob.Ring.FAIL_REASON reason r).set Ob.Ring.REJOIN_STATE 0 r
  s.modRing r fun q =>
    { q with txOn := false, missRun := 0, open_ := q.open_ && decide (r = s.localRing), returned := false, lastOk := false, tx := none, echo := none, readSent := false }

/-- The end of PLAY once the ring is off: faults, commit, huddle, workers, axes, schedule (R38, R44, R75, R117). -/
def endPlay (s : State) (r : Nat) : State :=
  let s := faultRing s r 7 true
  let s := commitRingLeft s r
  let s := if bit s.hud.mask r && decide (s.now < s.hud.cstar) then huddleCancel s 4 else s
  let s := forBelow 64 (fun i s => s.modWk r (i + 1) fun w => { w with admitted := false, expectTag := none, data := [] }) s
  let s := forList (s.axesOn r) (fun a s => s.modAxis a fun x => { x with waiting := none, undoneWhy := none }) s
  huddleSettle (s.set Ob.Cyc.ACTIVE_SCHEDULE (s.get Ob.Cyc.START_SCHEDULE 0 0 r) 0 0 r)

/-- The cycle in progress of a ring that leaves PLAY, voided. -/
def cycleVoided (s : State) (r : Nat) : State := if s.inPlay r && (s.ring r).open_ then dispatcherDeadline s r (s.axesOn r) else s

theorem aside_cycleVoided : Aside s (cycleVoided s r) := by simp [cycleVoided]

theorem leavePlay_of_not_playing (h : s.inPlay r = false) (state reason : Int) : leavePlay s r state reason = ringOff s r state reason := by
  simp [leavePlay, ringOff, h]

theorem leavePlay_of_playing (h : s.inPlay r = true) (state reason : Int) : leavePlay s r state reason = endPlay (ringOff (cycleVoided s r) r state reason) r := by
  unfold leavePlay cycleVoided
  simp only [h, Bool.true_and, Bool.true_eq_false, if_false]
  rfl

/-- What the ring shows once it is off. -/
theorem ringOff_spec (state reason : Int) :
    let u := ringOff s r state reason
    u.get Ob.Ring.STATE r = state ∧ u.get Ob.Ring.FAIL_REASON r = reason ∧ (u.ring r).txOn = false := by
  simp +decide [ringOff]

theorem ringKept_ringOff {z : Nat} (hz : z ≠ r) (state reason : Int) : RingKept r s (ringOff s z state reason) := by
  unfold ringOff
  exact (((RingKept.set_ring Ob.Ring.STATE (by decide) hz _).trans (.set_ring Ob.Ring.FAIL_REASON (by decide) hz _)).trans
    (.set_ring Ob.Ring.REJOIN_STATE (by decide) hz _)).trans (.modRing hz.symm _)

/-- Beside making the axes FAULTED, the end of PLAY stays aside. -/
theorem aside_endPlay (hr : r < 4) : Aside (faultRing s r 7 true) (endPlay s r) := by
  have hkey : Outside (Ob.Cyc.ACTIVE_SCHEDULE.key 0 0 r) := by
    simp only [Obj.key, Ob.Cyc.ACTIVE_SCHEDULE, Outside]
    omega
  simp [endPlay, hkey]

theorem ringKept_endPlay (hr : r < 4) {z : Nat} (hz : z < 4) : RingKept r s (endPlay s z) :=
  (ringKept_faultRing hr z 7 true).trans (.of_aside hr (aside_endPlay hz))

/-- A ring that leaves PLAY leaves the others' objects and records. -/
theorem ringKept_leavePlay (hr : r < 4) {z : Nat} (hz : z < 4) (hne : z ≠ r) (state reason : Int) : RingKept r s (leavePlay s z state reason) := by
  cases h : s.inPlay z with
  | false => exact leavePlay_of_not_playing h .. ▸ ringKept_ringOff hne state reason
  | true =>
    rw [leavePlay_of_playing h]
    exact ((RingKept.of_aside hr aside_cycleVoided).trans (ringKept_ringOff hne state reason)).trans (ringKept_endPlay hr hz)

/-- What a ring shows once it has left PLAY, or failed to reach it. -/
theorem leavePlay_spec (hr : r < 4) (state reason : Int) :
    let u := leavePlay s r state reason
    u.get Ob.Ring.STATE r = state ∧ u.get Ob.Ring.FAIL_REASON r = reason ∧ (u.ring r).txOn = false := by
  dsimp only
  cases h : s.inPlay r with
  | false =>
    rw [leavePlay_of_not_playing h]
    exact ringOff_spec state reason
  | true =>
    have hkept : RingKept r (ringOff (cycleVoided s r) r state reason) (endPlay _ r) := ringKept_endPlay hr hr
    rw [leavePlay_of_playing h, hkept.get (by decide), hkept.get (by decide), hkept.ring]
    exact ringOff_spec state reason

/-- What stays aside leaves a FAULTED axis FAULTED. -/
theorem Aside.faultedBy (h : Aside s u) {x c : Nat} (hx : x < 256) (hf : FaultedBy x c s) : FaultedBy x c u := by
  have hkey : ¬Outside (Ob.Ctl.FAULT_SET.key x) := by
    simp only [Obj.key, Ob.Ctl.FAULT_SET, Outside]
    omega
  exact ⟨by rw [h.mot, hf.1], by rw [State.nat, h.get hkey]; exact hf.2⟩

theorem onRing_ringOff (hr : r < 4) (x : Nat) (state reason : Int) : (ringOff s r state reason).onRing x r = s.onRing x r := by
  have hget (o : Obj) (ho : o.PerRing) (u : State) (y : Int) : (u.set o y r).get Ob.Map.RING x = u.get Ob.Map.RING x := by
    refine State.get_set_ne _ _ _ _ _ _ _ _ _ _ fun h => ?_
    have := Obj.key_div_of_perRing ho r
    have := Ob.Map.RING.base_le_key x 0 0
    simp only [Ob.Map.RING] at *
    omega
  simp only [State.onRing, ringOff, State.modRing_get, hget Ob.Ring.STATE (by decide), hget Ob.Ring.FAIL_REASON (by decide),
    hget Ob.Ring.REJOIN_STATE (by decide)]

/-- Every axis of a ring that leaves PLAY is FAULTED but those DISABLED (R75). -/
theorem leavePlay_faults (hr : r < 4) (hplay : s.inPlay r = true) (state reason : Int) {x : Nat} (hx : x < 256) (hring : s.onRing x r = true)
    (hlive : (s.axis x).mot.state ≠ .disabled) : FaultedBy x 7 (leavePlay s r state reason) := by
  have hvoided : Aside s (cycleVoided s r) := aside_cycleVoided
  have hkey : ¬Outside (Ob.Map.RING.key x) := by
    simp only [Obj.key, Ob.Map.RING, Outside]
    omega
  rw [leavePlay_of_playing hplay]
  refine (aside_endPlay hr).faultedBy hx (faultRing_faultedBy 7 true hx ?_ ?_)
  · rw [onRing_ringOff hr, State.onRing, hvoided.get hkey]
    exact hring
  · change ((cycleVoided s r).axis x).mot.state ≠ .disabled
    rwa [hvoided.mot]

end Sys2Proof.Machine
end
-- ==== Sys2Proof/Proofs/Kickoff.lean ====
section
/-! The kickoff of a ring (R66 to R72, R88): how it begins, what it sends, how it fails, the let, STOP and REJOIN. -/

namespace Sys2Proof.Machine

variable {s u v : State} {r : Nat}

/-- A ring whose kickoff has failed with a reason (R66). -/
def FailedBy (r : Nat) (why : Int) (u : State) : Prop := u.get Ob.Ring.STATE r = 6 ∧ u.get Ob.Ring.FAIL_REASON r = why ∧ (u.ring r).txOn = false

/-- A ring in LINK from the instant `t` on (R66). -/
def LinkedAt (r t : Nat) (u : State) : Prop := u.get Ob.Ring.STATE r = 1 ∧ u.get Ob.Ring.FAIL_REASON r = 0 ∧ (u.ring r).txOn = true ∧ (u.ring r).tK = t

/-- A command answered outside every session with a status. -/
def AnsweredBy (st : Nat) (u : State) : Prop := u.out.head? = some (.reply 0xFF 0 st [])

/-! ### A kickoff that fails -/

theorem kickFail_failedBy (hr : r < 4) (why : Int) : FailedBy r why (kickFail s r why) := by
  have h : RingKept r (leavePlay s r 6 why) (kickFail s r why) := .of_aside hr (by simp [kickFail])
  unfold FailedBy
  rw [h.get (by decide), h.get (by decide), h.ring]
  exact leavePlay_spec hr 6 why

theorem kickFail_hops (hr : r < 4) (hst : s.inPlay r = false) (why : Int) : (kickFail s r why).get Ob.Ring.HOPS r = s.get Ob.Ring.HOPS r := by
  have h : RingKept r (leavePlay s r 6 why) (kickFail s r why) := .of_aside hr (by simp [kickFail])
  rw [h.get (by decide), leavePlay_of_not_playing hst]
  simp +decide [ringOff]

/-! ### LINK entered -/

/-- A kickoff whose module passes enters LINK, one whose module fails ends FAILED with NO_MODULE (R48, R66). -/
theorem enterLink_linkedAt (h : moduleOk (s.get Ob.Ring.PHY_RATE r) (s.ring r).cage = true) : LinkedAt r s.now (enterLink s r) := by
  simp +decide [LinkedAt, enterLink, h]

theorem enterLink_failedBy (hr : r < 4) (h : moduleOk (s.get Ob.Ring.PHY_RATE r) (s.ring r).cage = false) : FailedBy r 2 (enterLink s r) := by
  unfold enterLink
  dsimp only
  rw [if_neg (by simp +decide [h])]
  exact kickFail_failedBy hr 2

/-! ### KICKOFF -/

/-- What an accepted write of a ring's object leaves once it is answered. -/
def written (o : Obj) (r : Nat) (u : State) : State := (u.set o 1 r).emit (.reply 0xFF 0 stOk [])

theorem answer_written (o : Obj) : answer (kept o 1 (u, stOk) r) = .next (written o r u) := rfl

/-- A refused write keeps nothing. -/
theorem kept_refused {st : Nat} (h : st ≠ stOk) (o : Obj) (x : Int) (i : Nat) : kept o x (u, st) i = (u, st) := by
  simp [kept, keepValue, h]

theorem written_answered (o : Obj) : AnsweredBy stOk (written o r u) := rfl

@[simp] theorem written_ring (o : Obj) (z : Nat) : (written o r u).ring z = u.ring z := rfl
@[simp] theorem written_axis (o : Obj) (a : Nat) : (written o r u).axis a = u.axis a := rfl
theorem written_get {o o' : Obj} (hst : o'.st1 = o.st1) (h : o'.base * 256 + o'.sub ≠ o.base * 256 + o.sub) : (written o r u).get o' r = u.get o' r :=
  get_set_stride hst h 1 r

theorem exec_kickoff (hrun : unitRuns s = true) (id : List Byte) (t : Nat) :
    exec (.kickoff r id t) s = answer (kept Ob.Ring.KICKOFF 1 (kickoffWrite (readCage (s.at t) r id) r) r) := whileOn_runs hrun

/-- KICKOFF of a DARK or FAILED ring enters LINK (Table 03-17). -/
theorem exec_kickoff_off (hrun : unitRuns s = true) (h : s.get Ob.Ring.STATE r = 0 ∨ s.get Ob.Ring.STATE r = 6) (id : List Byte) (t : Nat) :
    exec (.kickoff r id t) s = .next (written Ob.Ring.KICKOFF r (enterLink (readCage (s.at t) r id) r)) := by
  have hoff : kickoffWrite (readCage (s.at t) r id) r = (enterLink (readCage (s.at t) r id) r, stOk) := by
    unfold kickoffWrite
    rcases h with h | h <;> simp [readCage, h]
  rw [exec_kickoff hrun, hoff, answer_written]

theorem exec_kickoff_refused (hrun : unitRuns s = true) (h0 : s.get Ob.Ring.STATE r ≠ 0) (h6 : s.get Ob.Ring.STATE r ≠ 6) (id : List Byte) (t : Nat) :
    exec (.kickoff r id t) s = .next ((readCage (s.at t) r id).emit (.reply 0xFF 0 stState [])) := by
  have hon : kickoffWrite (readCage (s.at t) r id) r = (readCage (s.at t) r id, stState) := by
    simp [kickoffWrite, readCage, h0, h6]
  rw [exec_kickoff hrun, hon, kept_refused (by decide)]
  rfl

/-- The clause of KICKOFF (R48, R66). -/
theorem kickoff_clause (hr : r < 4) (hrun : unitRuns s = true) (h : s.get Ob.Ring.STATE r = 0 ∨ s.get Ob.Ring.STATE r = 6) (id : List Byte) (t : Nat) :
    (moduleOk (s.get Ob.Ring.PHY_RATE r) (id.take 256) = true →
      Answers (.kickoff r id t) s fun u => LinkedAt r (s.at t).now u ∧ AnsweredBy stOk u) ∧
    (moduleOk (s.get Ob.Ring.PHY_RATE r) (id.take 256) = false → Answers (.kickoff r id t) s fun u => FailedBy r 2 u ∧ AnsweredBy stOk u) := by
  rw [answers_iff (exec_kickoff_off hrun h id t), answers_iff (exec_kickoff_off hrun h id t)]
  refine ⟨fun hok => ⟨?_, written_answered _⟩, fun hno => ⟨?_, written_answered _⟩⟩
  · have hlink := enterLink_linkedAt (s := readCage (s.at t) r id) (r := r) (by simpa [readCage] using hok)
    simpa +decide [LinkedAt, written_get, readCage] using hlink
  · have hfail := enterLink_failedBy (s := readCage (s.at t) r id) hr (by simpa [readCage] using hno)
    simpa +decide [FailedBy, written_get] using hfail

/-! ### Kickoff frames -/

/-- The state in which the frame of the kickoff cycle in progress is sent. -/
def kickCycle (s : State) (r : Nat) : State := s.modRing r fun q => { q with kTw := s.now / kickNs * kickNs }

/-- The frame that a ring sends in LINK and in the roll-call (R66). -/
def kickFrame (s : State) (r : Nat) (svc : List SvcSlot) : RallyFrame :=
  { ring := r, sched := s.sched r, huddleTarget := 0, flags := flagsWord r 0 0 false true, cycle := cycleNo (s.ring r).kTw kickNs,
    whistle := (s.ring r).kTw + kickNs, length := 32 + 128 * svc.length, commitTag := 0, sender := senderByte s r, huddleCycle := 0, slots := [], svc := svc }

theorem sendKickoff_eq (svc : List SvcSlot) : sendKickoff s r svc = sendFrame s r (s.ring r).kTw (kickFrame s r svc) := rfl

theorem judgeLink_of_link (h : s.get Ob.Ring.STATE r = 1) (ht : s.now < (s.ring r).tK + 30000000) : judgeLink s r = s := by
  simp [judgeLink, h, ht]
theorem judgeLink_of_rollcall (h : s.get Ob.Ring.STATE r = 2) (ht : (s.ring r).tries < 4) : judgeLink s r = s := by
  simp [judgeLink, h, ht]
theorem judgeAlignment_of_not_align (h : s.get Ob.Ring.STATE r ≠ 3) : judgeAlignment s r = s := by simp [judgeAlignment, h]
theorem judgeDownload_of_not_align (h : s.get Ob.Ring.STATE r ≠ 3) : judgeDownload s r = s := by simp [judgeDownload, h]

/-- A tick of a ring in LINK sends the kickoff cycle's frame with one CLAIM (R66). -/
theorem kickTick_link (h : s.get Ob.Ring.STATE r = 1) (ht : s.now < (s.ring r).tK + 30000000)
    (htx : (s.ring r).tx = none ∨ (s.ring r).txAt < s.now / kickNs * kickNs) :
    kickTick s r = sendKickoff (kickCycle s r) r [claimSlot (kickCycle s r) r] := by
  have hsent : ¬((s.ring r).tx.isSome ∧ s.now / kickNs * kickNs ≤ (s.ring r).txAt) := by
    rcases htx with h | h <;> simp [h]
  unfold kickTick
  rw [judgeLink_of_link h ht, judgeAlignment_of_not_align (by simp [h]), judgeDownload_of_not_align (by simp [h])]
  simp [h, hsent, kickCycle]

/-- A tick of a ring in the roll-call sends a CLAIM and 64 unclaimed IDENT slots (R66, R69). -/
theorem kickTick_rollcall (h : s.get Ob.Ring.STATE r = 2) (ht : (s.ring r).tries < 4)
    (htx : (s.ring r).tx = none ∨ (s.ring r).txAt < s.now / kickNs * kickNs) :
    kickTick s r = sendKickoff ((kickCycle s r).modRing r fun q => { q with tries := q.tries + 1 }) r (claimSlot (kickCycle s r) r :: List.replicate 64 identSlot) := by
  have hsent : ¬((s.ring r).tx.isSome ∧ s.now / kickNs * kickNs ≤ (s.ring r).txAt) := by
    rcases htx with h | h <;> simp [h]
  unfold kickTick
  rw [judgeLink_of_rollcall h ht, judgeAlignment_of_not_align (by simp [h]), judgeDownload_of_not_align (by simp [h])]
  simp [h, hsent, kickCycle]

theorem exec_kickoffFrameTick (hrun : unitRuns s = true) (t : Nat) : exec (.kickoffFrameTick r t) s = .next (kickTick (s.at t) r) := whileOn_runs hrun

theorem kickCycle_forming : Forming r s (kickCycle s r) := .modRing _

@[simp] theorem kickCycle_kTw : ((kickCycle s r).ring r).kTw = s.now / kickNs * kickNs := by simp [kickCycle]

theorem claimSlot_congr (h : u.od = s.od) : claimSlot u r = claimSlot s r := by
  change claimSlot { s with od := u.od } r = _
  rw [h]

/-- The clause of a tick in LINK. -/
theorem kickoffFrameTick_link (hrun : unitRuns s = true) (t : Nat) (h : s.get Ob.Ring.STATE r = 1) (ht : (s.at t).now < (s.ring r).tK + 30000000)
    (htx : (s.ring r).tx = none ∨ (s.ring r).txAt < (s.at t).now / kickNs * kickNs) :
    Answers (.kickoffFrameTick r t) s fun u => ∃ g w, u.out = .frame g w :: s.out ∧ g.ring = r ∧ g.cycle = cycleNo ((s.at t).now / kickNs * kickNs) kickNs ∧
      g.svc = [claimSlot s r] ∧ g.length = 160 ∧ (u.ring r).txAt = (s.at t).now ∧ u.od = s.od := by
  rw [answers_iff (exec_kickoffFrameTick hrun t), kickTick_link (by simpa) (by simpa) (by simpa), claimSlot_congr (s := s) (by simp [kickCycle]), sendKickoff_eq]
  obtain ⟨hout, -, hat, hod, -⟩ :=
    sendFrame_spec (kickCycle_forming (s := s.at t) (r := r)) ((kickCycle (s.at t) r).ring r).kTw (kickFrame (kickCycle (s.at t) r) r [claimSlot s r])
  exact ⟨_, _, by simpa using hout, rfl, by simp [kickFrame], rfl, rfl, hat, by simpa using hod⟩

/-- The clause of a tick in the roll-call. -/
theorem kickoffFrameTick_rollcall (hrun : unitRuns s = true) (t : Nat) (h : s.get Ob.Ring.STATE r = 2) (ht : (s.ring r).tries < 4)
    (htx : (s.ring r).tx = none ∨ (s.ring r).txAt < (s.at t).now / kickNs * kickNs) :
    Answers (.kickoffFrameTick r t) s fun u => ∃ g w, u.out = .frame g w :: s.out ∧ g.svc = claimSlot s r :: List.replicate 64 identSlot ∧
      (u.ring r).tries = (s.ring r).tries + 1 ∧ u.od = s.od := by
  rw [answers_iff (exec_kickoffFrameTick hrun t), kickTick_rollcall (by simpa) (by simpa) (by simpa), claimSlot_congr (s := s) (by simp [kickCycle])]
  generalize claimSlot s r :: List.replicate 64 identSlot = svc
  have hcounted : Forming r (s.at t) ((kickCycle (s.at t) r).modRing r fun q => { q with tries := q.tries + 1 }) := kickCycle_forming.trans (.modRing _)
  have htries : (((kickCycle (s.at t) r).modRing r fun q => { q with tries := q.tries + 1 }).ring r).tries = (s.ring r).tries + 1 := by simp [kickCycle]
  generalize (kickCycle (s.at t) r).modRing r (fun q => { q with tries := q.tries + 1 }) = w at hcounted htries
  obtain ⟨hout, -, -, hod, -⟩ := sendFrame_spec hcounted (w.ring r).kTw (kickFrame w r svc)
  rw [sendKickoff_eq]
  exact ⟨kickFrame w r svc, _, by simpa using hout, rfl, by simpa [sendFrame] using htries, by simpa using hod⟩

/-! ### Limits of the kickoff -/

/-- The clause of KICKOFF_LINK_TIMEOUT (Table 03-15). -/
theorem kickoffLinkTimeout_clause (hr : r < 4) (hrun : unitRuns s = true) (t : Nat) (h : s.get Ob.Ring.STATE r = 1) (ht : (s.ring r).tK + 30000000 ≤ (s.at t).now) :
    Answers (.kickoffLinkTimeout r t) s (FailedBy r (if (s.ring r).anyReturned then 3 else 1)) := by
  have hexec : exec (.kickoffLinkTimeout r t) s = .next (judgeLink (s.at t) r) := whileOn_runs hrun
  rw [answers_iff hexec]
  have hfail : judgeLink (s.at t) r = kickFail (s.at t) r (if (s.ring r).anyReturned then 3 else 1) := by simp [judgeLink, h, ht]
  rw [hfail]
  exact kickFail_failedBy hr _

/-- The clause of ALIGN_TIMEOUT (R88). -/
theorem alignTimeout_clause (hr : r < 4) (hrun : unitRuns s = true) (t : Nat) (h : s.get Ob.Ring.STATE r = 3) (hdone : (s.ring r).alignDone = false)
    (ht : (s.ring r).tP + 100000000 ≤ (s.at t).now) : Answers (.alignTimeout r t) s (FailedBy r 5) := by
  have hexec : exec (.alignTimeout r t) s = .next (judgeAlignment (s.at t) r) := whileOn_runs hrun
  have hfail : judgeAlignment (s.at t) r = kickFail (s.at t) r 5 := by simp [judgeAlignment, h, hdone, ht]
  rw [answers_iff hexec, hfail]
  exact kickFail_failedBy hr 5

/-! ### The kickoff huddle -/

/-- The positions that have not acknowledged the kickoff huddle of a ring (R459). -/
def kickMissing (s : State) (r : Nat) : Nat := missingAck (s.nWorkers r) (s.ring r).kLanded (s.ring r).kAttend (s.ring r).kAck

/-- The kickoff huddle of ring `r` decided: 1 confirmed, 2 cancelled. -/
def kickDecidedAs (s : State) (r k : Nat) : State := s.modRing r fun q => { q with kDecided := k }

theorem kickDecide_due (h : s.get Ob.Ring.STATE r = 4) (hc : (s.ring r).kCstar ≠ 0) (hd : (s.ring r).kDecided = 0) (ht : kickDecisionAt (s.ring r) ≤ s.now) :
    kickDecide s r = judgeHuddleTime (kickDecidedAs s r (if kickMissing s r = 0 ∧ (s.ring r).kLanded = true then 1 else 2)) r := by
  unfold kickDecide
  dsimp only
  rw [if_neg (by simp [h, hc, hd, ht])]
  rfl

theorem judgeHuddleTime_of_confirmed (h : (s.ring r).kDecided ≠ 2) : judgeHuddleTime s r = s := by
  unfold judgeHuddleTime
  dsimp only
  split
  · rw [if_neg (by simp [h])]
  · rfl

theorem judgeHuddleTime_of_failed (h : s.get Ob.Ring.STATE r ≠ 4) : judgeHuddleTime s r = s := by
  unfold judgeHuddleTime
  dsimp only
  split
  · rw [if_neg (by simp [h])]
  · rfl

theorem judgeHuddleTime_late {t0 : Nat} (h : s.get Ob.Ring.STATE r = 4) (hd : (s.ring r).kDecided = 2) (ht0 : (s.ring r).firstAnnounce = some t0)
    (ht : t0 + 4000000 ≤ s.now) : judgeHuddleTime s r = kickFail s r 8 := by
  simp [judgeHuddleTime, h, hd, ht0, ht]

theorem exec_huddleTimeout (hrun : unitRuns s = true) (t : Nat) : exec (.huddleTimeout r t) s = .next (judgeHuddleTime (kickDecide (s.at t) r) r) := whileOn_runs hrun

/-- The clause of HUDDLE_TIMEOUT where every worker has acknowledged. -/
theorem huddleTimeout_confirmed (hrun : unitRuns s = true) (t : Nat) (h : s.get Ob.Ring.STATE r = 4) (hc : (s.ring r).kCstar ≠ 0) (hd : (s.ring r).kDecided = 0)
    (ht : kickDecisionAt (s.ring r) ≤ (s.at t).now) (hmiss : kickMissing s r = 0) (hlanded : (s.ring r).kLanded = true) :
    Answers (.huddleTimeout r t) s fun u => (u.ring r).kDecided = 1 ∧ u.od = s.od := by
  have hacked : kickMissing (s.at t) r = 0 := by simpa [kickMissing] using hmiss
  have hdecide : kickDecide (s.at t) r = kickDecidedAs (s.at t) r 1 := by
    rw [kickDecide_due (by simpa) (by simpa) (by simpa) (by simpa), if_pos ⟨hacked, by simpa⟩]
    exact judgeHuddleTime_of_confirmed (by simp [kickDecidedAs])
  rw [answers_iff (exec_huddleTimeout hrun t), hdecide, judgeHuddleTime_of_confirmed (by simp [kickDecidedAs])]
  simp [kickDecidedAs]

/-- The clause of HUDDLE_TIMEOUT 4 ms or more after the first ANNOUNCE, where a worker has not acknowledged (R66). -/
theorem huddleTimeout_cancelled (hr : r < 4) (hrun : unitRuns s = true) (t : Nat) {t0 : Nat} (h : s.get Ob.Ring.STATE r = 4) (hc : (s.ring r).kCstar ≠ 0)
    (hd : (s.ring r).kDecided = 0) (ht : kickDecisionAt (s.ring r) ≤ (s.at t).now) (hmiss : kickMissing s r ≠ 0) (hfirst : (s.ring r).firstAnnounce = some t0)
    (hlate : t0 + 4000000 ≤ (s.at t).now) : Answers (.huddleTimeout r t) s (FailedBy r 8) := by
  have hacked : ¬(kickMissing (s.at t) r = 0 ∧ ((s.at t).ring r).kLanded = true) := fun h => hmiss (by simpa [kickMissing] using h.1)
  have hfail : FailedBy r 8 (kickDecide (s.at t) r) := by
    have hcancel : judgeHuddleTime (kickDecidedAs (s.at t) r 2) r = kickFail (kickDecidedAs (s.at t) r 2) r 8 :=
      judgeHuddleTime_late (t0 := t0) (by simpa [kickDecidedAs]) (by simp [kickDecidedAs]) (by simpa [kickDecidedAs]) hlate
    rw [kickDecide_due (by simpa) (by simpa) (by simpa) (by simpa using ht), if_neg hacked, hcancel]
    exact kickFail_failedBy hr 8
  rw [answers_iff (exec_huddleTimeout hrun t), judgeHuddleTime_of_failed (by simp [hfail.1])]
  exact hfail

/-! ### A returned frame in LINK -/

/-- A frame that may be read has moved no counter (R36, R57, R58). -/
theorem rxValid_of_valid {fcs : Nat} {b : List Byte} (h : (rxValid s r fcs b).2 = true) : (rxValid s r fcs b).1 = s := by
  simp only [rxValid, Bool.and_eq_true, decide_eq_true_eq] at h
  obtain ⟨⟨hlen, hfcs⟩, -⟩ := h
  unfold rxValid
  dsimp only
  rw [if_pos (decide_eq_true hlen), if_neg (by rw [hfcs]; decide), if_pos hfcs]

theorem exec_kickoffFrameReturned (hrun : unitRuns s = true) (t : Nat) (hsync : (s.ring r).syncLost = none) (fcs : Nat) (loop : Int) (b : List Byte) :
    exec (.kickoffFrameReturned r fcs loop b t) s = .next (kickBack (s.at t) r fcs loop b) := by
  refine (whileOn_runs hrun).trans ?_
  rw [if_neg (by simp [hsync])]

/-- The receive buffer and the stamp as a valid frame of a kickoff has left them. -/
def kickLanded (s : State) (r : Nat) (f : RallyFrame) (loop : Int) (b : List Byte) : State :=
  (rxStore s r 0 b).modRing r fun q => { q with returned := true, stampNew := some (f.cycle, q.txAt, loop) }

/-- A valid frame returned in LINK is judged by the HOPS of its CLAIM (Table 03-15). -/
theorem kickBack_link {f : RallyFrame} {fcs : Nat} {b : List Byte} (hst : s.get Ob.Ring.STATE r = 1) (htx : (s.ring r).tx = some f)
    (hret : (s.ring r).returned = false) (hvalid : (rxValid (rxStore s r 0 b) r fcs b).2 = true) (loop : Int) :
    kickBack s r fcs loop b = linkBack (kickLanded s r f loop b) r (kickSlots b) := by
  have hkept : (rxValid (rxStore s r 0 b) r fcs b).1 = rxStore s r 0 b := rxValid_of_valid hvalid
  unfold kickBack
  simp only [htx, hret, hvalid, hkept]
  simp [rxStore, hst, kickLanded]

/-- HOPS read from the CLAIM, with the mark that a frame has returned. -/
def hopsRead (s : State) (r hops : Nat) : State := (s.set Ob.Ring.HOPS hops r).modRing r fun q => { q with anyReturned := true }

theorem linkBack_equal {v : SvcSlot} (l : List SvcSlot) (h : leAt v.payload 0 1 = s.nWorkers r) :
    linkBack s r (v :: l) = ((hopsRead s r (s.nWorkers r)).set Ob.Ring.STATE 2 r).modRing r fun q => { q with tL := s.now, tries := 0 } := by
  simp [linkBack, h, hopsRead]

theorem linkBack_more {v : SvcSlot} (l : List SvcSlot) (h : s.nWorkers r < leAt v.payload 0 1) :
    linkBack s r (v :: l) = kickFail (hopsRead s r (leAt v.payload 0 1)) r 3 := by
  simp [linkBack, h, hopsRead]

/-- What a frame returned in LINK leaves where HOPS agrees, and where it is more (Table 03-15). -/
theorem kickoffFrameReturned_clause (hr : r < 4) (hrun : unitRuns s = true) {f : RallyFrame} {fcs t : Nat} {b : List Byte} {v : SvcSlot} {l : List SvcSlot}
    (hst : s.get Ob.Ring.STATE r = 1) (htx : (s.ring r).tx = some f) (hret : (s.ring r).returned = false) (hsync : (s.ring r).syncLost = none)
    (hvalid : (rxValid (rxStore (s.at t) r 0 b) r fcs b).2 = true) (hslots : kickSlots b = v :: l) (loop : Int) :
    (leAt v.payload 0 1 = s.nWorkers r → Answers (.kickoffFrameReturned r fcs loop b t) s fun u =>
      u.get Ob.Ring.STATE r = 2 ∧ u.get Ob.Ring.HOPS r = leAt v.payload 0 1 ∧ (u.ring r).tL = (s.at t).now) ∧
    (s.nWorkers r < leAt v.payload 0 1 → Answers (.kickoffFrameReturned r fcs loop b t) s fun u =>
      FailedBy r 3 u ∧ u.get Ob.Ring.HOPS r = leAt v.payload 0 1) := by
  have hexec := exec_kickoffFrameReturned hrun t hsync fcs loop b
  rw [kickBack_link (by simpa) (by simpa) (by simpa) hvalid, hslots] at hexec
  rw [answers_iff hexec, answers_iff hexec]
  have hworkers : (kickLanded (s.at t) r f loop b).nWorkers r = s.nWorkers r := at_nWorkers t
  refine ⟨fun hequal => ?_, fun hmore => ?_⟩
  · rw [linkBack_equal l (hequal.trans hworkers.symm), hworkers, hequal]
    simp +decide [hopsRead, kickLanded, rxStore]
  · rw [linkBack_more l (hworkers ▸ hmore)]
    refine ⟨kickFail_failedBy hr 3, ?_⟩
    rw [kickFail_hops hr (by simp +decide [State.inPlay, hopsRead, kickLanded, rxStore, hst])]
    simp [hopsRead]

/-! ### The let (R72, R369) -/

theorem yieldRing_spec : (yieldRing s r).get Ob.Ring.STATE r = 7 ∧ ((yieldRing s r).ring r).txOn = false ∧
    ((yieldRing s r).ring r).backoffEnd = some (s.now + 2000000 + unitSerial % 8 * 1000000) := by
  simp [yieldRing]

theorem ringKept_yieldRing {z : Nat} (hz : z ≠ r) : RingKept r s (yieldRing s z) :=
  (RingKept.set_ring Ob.Ring.STATE (by decide) hz _).trans (.modRing hz.symm _)

/-- What one ring does where the unit stops sending on all of them. -/
def yieldOne (z : Nat) (s : State) : State :=
  let st := s.get Ob.Ring.STATE z
  if st = 5 then yieldRing (leavePlay s z 7 0) z else if 1 ≤ st ∧ st ≤ 4 then yieldRing s z else s

theorem yieldOne_of_let (h : s.get Ob.Ring.STATE r = 7) : yieldOne r s = s := by simp [yieldOne, h]

theorem ringKept_yieldOne (hr : r < 4) {z : Nat} (hz : z < 4) (hne : z ≠ r) : RingKept r s (yieldOne z s) := by
  unfold yieldOne
  dsimp only
  split
  · exact (ringKept_leavePlay hr hz hne 7 0).trans (ringKept_yieldRing hne)
  split
  · exact ringKept_yieldRing hne
  · exact .refl

/-- A ring in LET stays as it is where the unit stops sending on all its rings. -/
theorem ringKept_yieldAll (hr : r < 4) (h : s.get Ob.Ring.STATE r = 7) : RingKept r s (yieldAll s) := by
  refine List.foldlRecOn (motive := RingKept r s) _ (fun s z => yieldOne z s) .refl fun w hw z hz => hw.trans ?_
  by_cases hzr : z = r
  · rw [hzr, yieldOne_of_let (by rw [hw.get (by decide), h])]
    exact .refl
  · exact ringKept_yieldOne hr (List.mem_range.1 hz) hzr

/-- A lost collision (R72): the ring that yields, with its let counted; on a unit of a pair the other rings after it. -/
def collisionLost (s : State) (r : Nat) : State :=
  let s := (yieldRing s r).count Ob.Ring.LET_COUNT r
  if s.flag Ob.PairC.PAIR_ENABLE then yieldAll s else s

theorem collisionLost_spec (hr : r < 4) :
    let u := collisionLost s r
    u.get Ob.Ring.STATE r = 7 ∧ (u.ring r).txOn = false ∧ u.get Ob.Ring.LET_COUNT r = satInc 32 (s.get Ob.Ring.LET_COUNT r) ∧
      (u.ring r).backoffEnd = some (s.now + 2000000 + unitSerial % 8 * 1000000) := by
  intro u
  obtain ⟨hst, hoff, hend⟩ := yieldRing_spec (s := s) (r := r)
  have hlet : (yieldRing s r).get Ob.Ring.LET_COUNT r = s.get Ob.Ring.LET_COUNT r := by simp +decide [yieldRing]
  have hst' : ((yieldRing s r).count Ob.Ring.LET_COUNT r).get Ob.Ring.STATE r = 7 := (get_set_stride (by decide) (by decide) _ r).trans hst
  have hcount : ((yieldRing s r).count Ob.Ring.LET_COUNT r).get Ob.Ring.LET_COUNT r = satInc 32 (s.get Ob.Ring.LET_COUNT r) := by
    rw [State.get_count, if_pos rfl, hlet]
    rfl
  have hkept : RingKept r ((yieldRing s r).count Ob.Ring.LET_COUNT r) u := by
    unfold u collisionLost
    dsimp only
    split
    · exact ringKept_yieldAll hr hst'
    · exact .refl
  rw [hkept.get (by decide), hkept.get (by decide), hkept.ring]
  exact ⟨hst', hoff, hcount, hend⟩

theorem exec_kickoffCollision_lost (hrun : unitRuns s = true) (t : Nat) {sender prio serial : Nat} (h1 : 1 ≤ s.get Ob.Ring.STATE r) (h4 : s.get Ob.Ring.STATE r ≤ 4)
    (hsender : sender ≠ s.nat Ob.PairC.UNIT_END) (hlost : claimLost (claimPriority s r) prio unitSerial serial = true) :
    exec (.kickoffCollision r sender prio serial t) s = .next (collisionLost (s.at t) r) := by
  have hprio : claimPriority (s.at t) r = claimPriority s r := by simp [claimPriority]
  refine (whileOn_runs hrun).trans ?_
  dsimp only
  rw [if_neg (by simp [hprio, hlost, hsender, h1, h4])]
  rfl

theorem exec_kickoffCollision_won (hrun : unitRuns s = true) (t : Nat) {sender prio serial : Nat}
    (hwon : claimLost (claimPriority s r) prio unitSerial serial = false) : exec (.kickoffCollision r sender prio serial t) s = .next (s.at t) := by
  have hprio : claimPriority (s.at t) r = claimPriority s r := by simp [claimPriority]
  refine (whileOn_runs hrun).trans ?_
  dsimp only
  rw [if_pos (by simp [hprio, hwon])]

/-- The clause of a lost collision: the backoff ends 2 to 9 ms on (R72). -/
theorem kickoffCollision_lost (hr : r < 4) (hrun : unitRuns s = true) (t : Nat) {sender prio serial : Nat} (h1 : 1 ≤ s.get Ob.Ring.STATE r)
    (h4 : s.get Ob.Ring.STATE r ≤ 4) (hsender : sender ≠ s.nat Ob.PairC.UNIT_END) (hlost : claimLost (claimPriority s r) prio unitSerial serial = true) :
    Answers (.kickoffCollision r sender prio serial t) s fun u =>
      u.get Ob.Ring.STATE r = 7 ∧ (u.ring r).txOn = false ∧ u.get Ob.Ring.LET_COUNT r = satInc 32 (s.get Ob.Ring.LET_COUNT r) ∧
        ∃ x, (u.ring r).backoffEnd = some x ∧ (s.at t).now + 2000000 ≤ x ∧ x ≤ (s.at t).now + 9000000 := by
  rw [answers_iff (exec_kickoffCollision_lost hrun t h1 h4 hsender hlost)]
  obtain ⟨hst, hoff, hcount, hend⟩ := collisionLost_spec (s := s.at t) hr
  refine ⟨hst, hoff, by simpa using hcount, _, hend, ?_, ?_⟩
  · omega
  · have := Nat.mod_lt unitSerial (by decide : 0 < 8)
    generalize unitSerial % 8 = m at this ⊢
    omega

/-- The ring's backoff is over and its winner still sends: the ring stays in LET, a unit of a pair becomes its standby (R369). -/
def stayedBehind (s : State) (r : Nat) : State :=
  let s := s.modRing r fun q => { q with backoffEnd := none }
  if s.flag Ob.PairC.PAIR_ENABLE = true ∧ isStandby s = false then ((yieldAll s).set Ob.Pair.ROLE 2).set Ob.Pair.PAIR_STATE 4 else s

theorem exec_kickoffLet_replay (hrun : unitRuns s = true) {t e : Nat} (hst : s.get Ob.Ring.STATE r = 7) (hend : (s.ring r).backoffEnd = some e) (he : e ≤ (s.at t).now)
    (hsilent : (s.ring r).winnerAt + 1000000 < (s.at t).now) (hactive : isStandby s = false) : exec (.kickoffLet r t) s = .next (enterLink (s.at t) r) := by
  have hactive' : isStandby (s.at t) = false := by simpa [isStandby] using hactive
  refine (whileOn_runs hrun).trans ?_
  simp [hst, hend, he, hsilent, hactive']

theorem exec_kickoffLet_behind (hrun : unitRuns s = true) {t e : Nat} (hst : s.get Ob.Ring.STATE r = 7) (hend : (s.ring r).backoffEnd = some e) (he : e ≤ (s.at t).now)
    (hheard : (s.at t).now ≤ (s.ring r).winnerAt + 1000000) : exec (.kickoffLet r t) s = .next (stayedBehind (s.at t) r) := by
  refine (whileOn_runs hrun).trans ?_
  simp only [State.at_ring, hend]
  rw [if_neg (by simp [hst, he]), if_neg (by omega)]
  rfl

theorem stayedBehind_spec (hr : r < 4) (hst : s.get Ob.Ring.STATE r = 7) :
    let u := stayedBehind s r
    (u.ring r).backoffEnd = none ∧ u.get Ob.Ring.STATE r = 7 ∧ (s.flag Ob.PairC.PAIR_ENABLE = true → u.get Ob.Pair.ROLE = 2) := by
  intro u
  have hcleared : (s.modRing r fun q => { q with backoffEnd := none }).get Ob.Ring.STATE r = 7 := hst
  unfold u stayedBehind
  dsimp only
  split
  · have hkept : RingKept r (s.modRing r fun q => { q with backoffEnd := none }) (((yieldAll (s.modRing r fun q => { q with backoffEnd := none })).set Ob.Pair.ROLE 2).set
        Ob.Pair.PAIR_STATE 4) := (ringKept_yieldAll hr hcleared).trans (.of_aside hr (by simp +decide))
    rw [hkept.get (by decide), hkept.ring]
    exact ⟨by simp, hst, fun _ => by simp +decide [State.get_set]⟩
  · next h =>
    refine ⟨by simp, hst, fun hpair => ?_⟩
    exact of_decide_eq_true (by simpa [hpair, isStandby] using h)

/-! ### STOP and REJOIN -/

theorem exec_ringStop (hrun : unitRuns s = true) (t : Nat) : exec (.ringStop r t) s = .next (written Ob.Ring.STOP r (leavePlay (s.at t) r 0 0)) := whileOn_runs hrun

/-- The clause of STOP (R66, R75). -/
theorem ringStop_clause (hr : r < 4) (hrun : unitRuns s = true) (t : Nat) :
    Answers (.ringStop r t) s fun u => u.get Ob.Ring.STATE r = 0 ∧ u.get Ob.Ring.FAIL_REASON r = 0 ∧ (u.ring r).txOn = false ∧ AnsweredBy stOk u ∧
      (s.get Ob.Ring.STATE r = 5 → ∀ x, x < 256 → s.onRing x r = true → (s.axis x).mot.state ≠ .disabled → FaultedBy x 7 u) := by
  rw [answers_iff (exec_ringStop hrun t), written_get (by decide) (by decide), written_get (by decide) (by decide), written_ring]
  obtain ⟨hst, hreason, hoff⟩ := leavePlay_spec (s := s.at t) hr 0 0
  refine ⟨hst, hreason, hoff, written_answered _, fun hplay x hx hring hlive => ?_⟩
  have hfaulted : FaultedBy x 7 (leavePlay (s.at t) r 0 0) :=
    leavePlay_faults hr (by simpa [State.inPlay] using hplay) 0 0 hx (by simpa [State.onRing] using hring) (by simpa using hlive)
  have hkey : Ob.Ctl.FAULT_SET.key x ≠ Ob.Ring.STOP.key r := by
    simp only [Obj.key, Ob.Ctl.FAULT_SET, Ob.Ring.STOP]
    omega
  have hset : (written Ob.Ring.STOP r (leavePlay (s.at t) r 0 0)).get Ob.Ctl.FAULT_SET x = (leavePlay (s.at t) r 0 0).get Ob.Ctl.FAULT_SET x :=
    State.get_set_ne _ _ _ _ _ _ _ _ _ _ hkey
  exact ⟨hfaulted.1, by rw [State.nat, hset]; exact hfaulted.2⟩

theorem exec_rejoin (hrun : unitRuns s = true) (t : Nat) : exec (.rejoin r t) s = answer (kept Ob.Ring.REJOIN 1 (rejoinWrite (s.at t) r) r) := whileOn_runs hrun

theorem exec_rejoin_refused (hrun : unitRuns s = true) (t : Nat) (h : s.get Ob.Ring.STATE r ≠ 5) :
    exec (.rejoin r t) s = .next ((s.at t).emit (.reply 0xFF 0 stState [])) := by
  have hout : rejoinWrite (s.at t) r = (s.at t, stState) := by
    unfold rejoinWrite
    dsimp only
    rw [if_pos (.inl (by simp [State.inPlay, h]))]
  rw [exec_rejoin hrun, hout, kept_refused (by decide)]
  rfl

theorem exec_rejoin_long (hrun : unitRuns s = true) {t t0 : Nat} (hst : s.get Ob.Ring.STATE r = 5) (hloop : (s.ring r).loopSince = some t0)
    (ht : t0 + 100000000 ≤ (s.at t).now) (hhud : s.hud.active = false) (hcom : s.com.phase ≠ 2) (hidle : s.get Ob.Ring.REJOIN_STATE r = 0) :
    exec (.rejoin r t) s = .next (written Ob.Ring.REJOIN r (startRejoin (s.at t) r (s.nat Ob.Ring.LOOPBACK_AT r))) := by
  have hstart : rejoinWrite (s.at t) r = (startRejoin (s.at t) r (s.nat Ob.Ring.LOOPBACK_AT r), stOk) := by
    simp [rejoinWrite, State.inPlay, hst, hloop, ht, hhud, hcom, hidle]
  rw [exec_rejoin hrun, hstart, answer_written]

/-- The state in which a rejoin that starts behind position `j` forgets the workers from there on. -/
def rejoinBegun (s : State) (r j : Nat) : State :=
  (s.set Ob.Ring.REJOIN_STATE (if j = 0 then 2 else 1) r).modRing r fun q => { q with rejoinPos := j }

theorem startRejoin_spec (j : Nat) : (startRejoin s r j).od = (rejoinBegun s r j).od ∧ (startRejoin s r j).ring r = (rejoinBegun s r j).ring r := by
  have hkept : (startRejoin s r j).od = (rejoinBegun s r j).od ∧ (startRejoin s r j).rings = (rejoinBegun s r j).rings :=
    List.foldlRecOn (motive := fun (w : State) => w.od = (rejoinBegun s r j).od ∧ w.rings = (rejoinBegun s r j).rings) _ _ ⟨rfl, rfl⟩ fun w hw i _ => by
      dsimp only
      split <;> exact hw
  exact ⟨hkept.1, congrArg (fun m => (SMap.getD m r {} : RingRt)) hkept.2⟩

/-- The clause of REJOIN of a ring looped for 100 ms (R76). -/
theorem rejoin_clause (hrun : unitRuns s = true) {t t0 : Nat} (hst : s.get Ob.Ring.STATE r = 5) (hloop : (s.ring r).loopSince = some t0)
    (ht : t0 + 100000000 ≤ (s.at t).now) (hhud : s.hud.active = false) (hcom : s.com.phase ≠ 2) (hidle : s.get Ob.Ring.REJOIN_STATE r = 0) :
    Answers (.rejoin r t) s fun u => u.get Ob.Ring.REJOIN_STATE r = (if s.nat Ob.Ring.LOOPBACK_AT r = 0 then 2 else 1) ∧
      (u.ring r).rejoinPos = s.nat Ob.Ring.LOOPBACK_AT r ∧ ObjectsKept [Ob.Ring.REJOIN_STATE.key r, Ob.Ring.REJOIN.key r] s u ∧ AnsweredBy stOk u := by
  rw [answers_iff (exec_rejoin_long hrun hst hloop ht hhud hcom hidle)]
  generalize s.nat Ob.Ring.LOOPBACK_AT r = j
  obtain ⟨hod, hring⟩ := startRejoin_spec (s := s.at t) (r := r) j
  refine ⟨?_, ?_, fun k hk => ?_, written_answered _⟩
  · rw [written_get (by decide) (by decide), get_congr (congrArg (SMap.get? · _) hod)]
    exact State.get_set_self ..
  · rw [written_ring, hring]
    simp [rejoinBegun]
  · simp only [List.mem_cons, List.not_mem_nil, or_false, not_or] at hk
    obtain ⟨hstate, hrejoin⟩ := hk
    refine (State.set_od_ne _ _ _ _ _ _ _ hrejoin).trans ?_
    rw [hod]
    exact (State.set_od_ne _ _ _ _ _ _ _ hstate).trans (by simp)

end Sys2Proof.Machine

open Sys2Proof Sys2Proof.Machine

/-- Settles O29: one clause per command of the kickoff; what leaving PLAY and the let leave of the other rings is `RingKept`, what they leave of axes, commits and
dispatcher is `Aside`. -/
theorem kickoffBringsRingsUpOrFails : Obligations.KickoffBringsRingsUpOrFails := by
  unfold Obligations.KickoffBringsRingsUpOrFails
  intro s r t t0 hops sender prio serial fcs e v l id b loop f hr hrun a q st c replied failed linked
  refine ⟨fun hoff => kickoff_clause hr hrun hoff id t, fun h0 h6 => exec_kickoff_refused hrun h0 h6 id t, fun htx => ⟨fun h ht => ?_, fun h ht => ?_⟩,
    fun h ht => kickoffLinkTimeout_clause hr hrun t h ht, fun h hdone ht => alignTimeout_clause hr hrun t h hdone ht, fun h hc hd ht => ⟨fun hm hl => ?_, fun hm hfirst hlate => ?_⟩,
    fun h htx hret hsync hvalid hslots hhops => ?_, fun h1 h4 hsender => ⟨fun hlost => ?_, fun hwon => ?_⟩, fun h hend he => ⟨fun hsilent hactive hok => ?_, fun hheard => ?_⟩,
    ringStop_clause hr hrun t, fun h hloop ht hhud hcom hidle => rejoin_clause hrun h hloop ht hhud hcom hidle, fun h => exec_rejoin_refused hrun t h⟩
  · exact kickoffFrameTick_link hrun t h ht htx
  · exact kickoffFrameTick_rollcall hrun t h ht htx
  · exact huddleTimeout_confirmed hrun t h hc hd ht hm hl
  · exact huddleTimeout_cancelled hr hrun t h hc hd ht hm hfirst hlate
  · subst hhops
    exact kickoffFrameReturned_clause hr hrun h htx hret hsync hvalid hslots loop
  · exact kickoffCollision_lost hr hrun t h1 h4 hsender hlost
  · exact exec_kickoffCollision_won hrun t hwon
  · rw [answers_iff (exec_kickoffLet_replay hrun h hend he hsilent hactive)]
    exact enterLink_linkedAt (by simpa using hok)
  · rw [answers_iff (exec_kickoffLet_behind hrun h hend he hheard)]
    simpa using stayedBehind_spec (s := s.at t) hr (by simpa using h)
end
-- ==== Sys2Proof/Proofs/Snapshot.lean ====
section
/-! The number of the snapshot at t_D of LOCAL_RING (R121), a share that comes into force at the same t_D (R115), and O27. -/

namespace Sys2Proof.Machine

variable {s u v : State}

/-! ### SNAPSHOT_ID -/

/-- `u` holds the SNAPSHOT_ID of `s`. -/
def SameId (s u : State) : Prop := SMap.get? u.od Ob.Sb.SNAPSHOT_ID.key = SMap.get? s.od Ob.Sb.SNAPSHOT_ID.key

@[simp] theorem SameId.refl : SameId s s := rfl
theorem SameId.trans (h : SameId s u) (g : SameId u v) : SameId s v := Eq.trans g h
theorem SameId.step (g : SameId u v) : SameId s v ↔ SameId s u := ⟨fun h => (Eq.symm g).trans h, fun h => h.trans g⟩

theorem SameId.nextSnapshot (h : SameId s u) : nextSnapshot u = nextSnapshot s := by
  have hget : u.get Ob.Sb.SNAPSHOT_ID = s.get Ob.Sb.SNAPSHOT_ID := get_congr h
  unfold Machine.nextSnapshot State.nat
  rw [hget]

@[simp] theorem sameId_ite (c : Prop) [Decidable c] : SameId s (if c then u else v) ↔ (c → SameId s u) ∧ (¬c → SameId s v) := by
  by_cases h : c <;> simp [h]

@[simp] theorem sameId_forBelow {f : Nat → State → State} (hf : ∀ i u, SameId u (f i u)) (n : Nat) : SameId s (forBelow n f u) ↔ SameId s u :=
  SameId.step (List.foldlRecOn (motive := SameId u) _ _ SameId.refl fun w hw i _ => hw.trans (hf i w))

theorem sameId_putVal {o : Obj} {i j k : Nat} (h : o.key i j k ≠ Ob.Sb.SNAPSHOT_ID.key) (x : Val) : SameId s (u.putVal (o.key i j k) x) ↔ SameId s u :=
  SameId.step (by rw [SameId, State.putVal_od, SMap.get?_put, if_neg (Ne.symm h)])

theorem Obj.base_sub_le_key (o : Obj) (i j k : Nat) : o.base * 256 + o.sub ≤ o.key i j k := by
  have := Nat.mul_le_mul_right 256 (by omega : o.base ≤ o.base + o.st1 * i + o.st2 * j)
  unfold Obj.key
  linarith

/-- An object that begins above SNAPSHOT_ID set. -/
@[simp] theorem sameId_set_above {o : Obj} (ho : Ob.Sb.SNAPSHOT_ID.key < o.base * 256 + o.sub) (i j k : Nat) (x : Int) : SameId s (u.set o x i j k) ↔ SameId s u :=
  sameId_putVal (by have := o.base_sub_le_key i j k; omega) _
/-- An object of another subindex set. -/
@[simp] theorem sameId_set_sub {o : Obj} (ho : o.sub % 256 ≠ 1) (i j : Nat) (x : Int) : SameId s (u.set o x i j) ↔ SameId s u :=
  sameId_putVal (by
    have hid : Ob.Sb.SNAPSHOT_ID.key = 0x300101 := rfl
    unfold Obj.key at *
    omega) _
@[simp] theorem sameId_put1_above {o : Obj} (ho : Ob.Sb.SNAPSHOT_ID.key < o.base * 256 + o.sub) (i j k : Nat) (x : Int) : SameId s (u.put1 o x i j k) ↔ SameId s u :=
  SameId.step (by simp [State.put1, ho])
@[simp] theorem sameId_put1_sub {o : Obj} (ho : o.sub % 256 ≠ 1) (i j : Nat) (x : Int) : SameId s (u.put1 o x i j) ↔ SameId s u :=
  SameId.step (by simp [State.put1, ho])

theorem sameId_publishTimed : SameId s (publishTimed u) ↔ SameId s u := by simp +decide [publishTimed]
theorem sameId_publishDerived : SameId s (publishDerived u) ↔ SameId s u := by
  have hvalid (r : Nat) (u : State) : SameId u (forBelow 8 (fun sc s => s.put1 Ob.Sched.VALID (bitAt (rateOk s r sc) 0) r sc) u) := by simp +decide
  simp +decide [publishDerived, sameId_publishTimed, hvalid]
theorem sameId_publishUsers : SameId s (publishUsers u) ↔ SameId s u := by simp +decide [publishUsers]

theorem sameId_publishMcCounters : SameId s (publishMcCounters u) ↔ SameId s u := by
  refine sameId_forBelow (fun p w => ?_) 2
  have hfree : SameId w { w with free := w.free + 1 } := rfl
  have hcounters (i : Nat) (w : State) :
      SameId w (let c := 2 * p + i / 8
        if w.nat Ob.CoreMc.PMC_CFG c 0 (i % 8) = 0 then w else let (v, w) := w.freeDraw 48; w.set Ob.CoreMc.PMC v c 0 (i % 8)) := by
    dsimp only [State.freeDraw]
    split
    · exact .refl
    · exact (sameId_set_above (by decide) _ _ _ _).2 rfl
  exact (sameId_forBelow hcounters 16).2 ((sameId_set_above (by decide) _ _ _ _).2 ((sameId_set_above (by decide) _ _ _ _).2 hfree))

/-! ### The newest snapshot -/

theorem mirror_snaps (m : Mirror) : (mirror s m).snaps = s.snaps := by
  unfold mirror
  split <;> rfl

theorem mirrorSess_snaps (k : Nat) : (mirrorSess s k).snaps = s.snaps := by
  unfold mirrorSess
  split
  · rfl
  · exact mirror_snaps _

theorem fillNote_snaps (c : Nat) : (fillNote s c).snaps = s.snaps := by
  unfold fillNote
  dsimp only
  split
  · split <;> rfl
  · rfl

theorem notifySess_snaps (k : Nat) (b : List Byte) : (notifySess s k b).snaps = s.snaps := by
  have hmirrored : (mirrorSess (s.wrapInc Ob.Sess.NOTIFY_SEQ k) k).snaps = s.snaps := mirrorSess_snaps k
  unfold notifySess
  dsimp only
  split
  · rfl
  split
  · exact hmirrored
  · exact (fillNote_snaps _).trans hmirrored

theorem notifyData_snaps (n : Snapshot) : (notifyData s n).snaps = s.snaps :=
  List.foldlRecOn (motive := fun (w : State) => w.snaps = s.snaps) _ _ rfl fun w hw k _ =>
    List.foldlRecOn (motive := fun (w : State) => w.snaps = s.snaps) _ _ hw fun w hw x _ => by
      dsimp only
      split
      · exact (notifySess_snaps _ _).trans hw
      · exact hw

/-- What a snapshot takes its number from: the scoreboard brought up to t_D. -/
def scoreboard (s : State) (tw : Nat) : State :=
  let s := publishMcCounters (publishUsers s)
  let s := forBelow 8 (fun e s => s.put1 Ob.Eng.STATE (engineState s e) e) s
  let s := forBelow 4 (fun r s => s.put1 Ob.Sb.SNAP_CYCLE (if s.inPlay r ∨ r = s.localRing then (s.ring r).viewCycle else derivedCycle s r : Nat) 0 0 r) s
  ((s.set Ob.Clk.MACHINE_TIME tw).set Ob.Clk.TOD (max 0 (todAt s tw))).setBytes Ob.Isl.LOG s.safe.log.flatten

theorem sameId_scoreboard (tw : Nat) : SameId s (scoreboard s tw) := by
  unfold scoreboard
  extract_lets counted states cycles
  have hcounted : SameId s counted := by simp [counted, sameId_publishMcCounters, sameId_publishUsers]
  have hstates : SameId counted states := (sameId_forBelow (fun _ _ => (sameId_put1_above (by decide) ..).2 .refl) 8).2 .refl
  have hcycles : SameId states cycles := (sameId_forBelow (fun _ _ => (sameId_put1_above (by decide) ..).2 .refl) 4).2 .refl
  have htime : SameId s (cycles.set Ob.Clk.MACHINE_TIME tw) := (sameId_putVal (by decide) _).2 ((hcounted.trans hstates).trans hcycles)
  exact (sameId_putVal (by decide) _).2 ((sameId_set_sub (by decide) ..).2 htime)

/-- The snapshot taken from a scoreboard brought up to t_D. -/
def snapshotOf (s : State) (id tw : Nat) : Snapshot :=
  let s := (s.set Ob.Sb.SNAPSHOT_ID id).set Ob.Sb.SNAPSHOT_TIME tw
  { id := id, time := tw, cycles := (List.range 4).map fun r => s.nat Ob.Sb.SNAP_CYCLE 0 0 r, values := snapshotValues s }

/-- The snapshot taken, newest of the four retained. -/
def retained (s : State) (id tw : Nat) : State :=
  let u := (s.set Ob.Sb.SNAPSHOT_ID id).set Ob.Sb.SNAPSHOT_TIME tw
  { u with snaps := (snapshotOf s id tw :: u.snaps).take 4 }

theorem publishSnapshot_eq (tw : Nat) : publishSnapshot s tw =
    notifyData (retained (scoreboard s tw) (nextSnapshot (scoreboard s tw)) tw) (snapshotOf (scoreboard s tw) (nextSnapshot (scoreboard s tw)) tw) := rfl

theorem publishSnapshot_head (tw : Nat) : ((publishSnapshot s tw).snaps.head?.map fun x => x.id) = some (nextSnapshot s) := by
  rw [← (sameId_scoreboard (s := s) tw).nextSnapshot]
  rw [publishSnapshot_eq, notifyData_snaps]
  generalize nextSnapshot (scoreboard s tw) = id
  rfl

/-! ### What follows the snapshot -/

theorem fillReply_snaps (c : Nat) : (fillReply s c).snaps = s.snaps := by
  unfold fillReply
  dsimp only
  split
  · split <;> rfl
  · rfl

theorem replyTo_snaps (k : Nat) (p : Path) (b : List Byte) : (replyTo s k p b).snaps = s.snaps := by
  unfold replyTo
  split
  · exact mirrorSess_snaps k
  unfold sendReply
  split
  · rfl
  · refine (fillReply_snaps _).trans ?_
    split <;> rfl

theorem commitOk_snaps : (commitOk s).snaps = s.snaps := by
  unfold commitOk commitReplies
  dsimp only
  split
  · rfl
  split
  · rfl
  split
  · rfl
  · exact replyTo_snaps _ _ _

/-! ### t_D of LOCAL_RING -/

/-- The ring's own share of its t_D (R31, R36): all that precedes what t_D of LOCAL_RING adds. -/
def ringClosed (s : State) (r : Nat) : State :=
  let q := s.ring r
  let s := missFrame s r
  let ax := cycleAxes s r
  let s := dispatcherDeadline s r ax
  let s := forList ax (fun a s => if (s.axis a).waiting.isSome then settleUndone s a q.cycle q.tw q.tc else settleDone s a) s
  let s := publishEngines s r
  let s := if s.inPlay r then forBelow (s.nWorkers r) (fun i s => judgeOffside s r (i + 1) q.tw) s else s
  let s := traceSample s r q.tw q.cycle
  let view := s.od.filter fun e => decide (viewedKey s e.1 = some r)
  let s := s.modRing r fun q => { q with view := view, viewCycle := q.cycle, hidden := [], settled := some q.tw, open_ := false }
  let s := if s.inPlay r then huddlePublished (formDigest s r) r else s
  commitAdmit (commitDecide (huddleDecide s))

/-- The head's own judgements at t_D of LOCAL_RING, before the commit (R120, R144, R147). -/
def judged (s : State) : State := judgeDrill (publishEligible (electCaptain (expireLeases (idleAxes s))))

theorem closeCycle_local {r : Nat} (hopen : (s.ring r).open_ = true) (hlocal : r = (ringClosed s r).localRing) :
    closeCycle s r = commitOk (publishSnapshot (commitDone (judged (ringClosed s r))
      ((s.ring r).tw - Nat.min (s.ring r).tw ((ringClosed s r).woffSched r (s.ring r).sc))) (s.ring r).tw) := by
  unfold closeCycle
  dsimp only
  rw [if_neg (by simp [hopen])]
  exact if_pos hlocal

theorem exec_computeDeadline {r t : Nat} (hrun : unitRuns s = true) (hopen : (s.ring r).open_ = true) (ht : (s.ring r).tw + (s.ring r).tc - guardNs ≤ (s.at t).now) :
    exec (.computeDeadline r t) s = .next (closeCycle (s.at t) r) := by
  refine (whileOn_runs hrun).trans ?_
  rw [if_pos (by simp [hopen, ht])]

/-! ### The share in force -/

/-- One entry for SNAPSHOT_ID. -/
def idShare : List Staged := [{ key := Ob.Sb.SNAPSHOT_ID.key, val := .num 7 }]

/-- LOCAL_RING at its t_D, which owes the local units a share that holds SNAPSHOT_ID. Axis 0 stands on ring 1, so that no engine's figures belong to
LOCAL_RING. -/
def owesSnapshotId : State :=
  { (State.reset.set Ob.Map.RING 1 0).set Ob.Wk.CHANNEL_LAYOUTS 1 1 0 with
    rings := [(0, { open_ := true })]
    com := { phase := 4, owed := [(4, 0, idShare)] } }

/-- The share's values in force, before what is derived from them (R115). -/
def entriesInForce (old : State) : State :=
  idleOutputs old (applyPorts old (applyUnits old (applyMasters old (applyBlocks old (withEntries old idShare)) 0)))

theorem publishCams_idShare (old : State) : publishCams old s idShare = s := by
  have htouched : ((List.range 1024).filter fun c => writes idShare (Ob.Cam.SEGMENTS.key c) || writes idShare (Ob.Cam.COEF_SHIFT.key c)) = [] := by
    rw [List.filter_eq_nil_iff]
    intro c _
    simp [idShare, writes, Obj.key, Ob.Cam.SEGMENTS, Ob.Cam.COEF_SHIFT, Ob.Sb.SNAPSHOT_ID]
    omega
  unfold publishCams
  dsimp only
  rw [htouched]
  rfl

theorem applyShare_idShare (old : State) (tA : Nat) : applyShare old idShare 0 tA = publishDerived (entriesInForce old) := by
  have htouched : axesTouched idShare = [] := by decide +kernel
  have hgo : writes idShare Ob.Inj.INJ_GO.key = false := by decide +kernel
  have hstop : writes idShare Ob.Inj.INJ_STOP.key = false := by decide +kernel
  have hsaf : (idShare.any fun e => (rowOf e.key).any fun o => decide (o.acc = .saf)) = false := by decide +kernel
  unfold applyShare
  dsimp only
  rw [htouched, publishCams_idShare, hsaf]
  unfold applyInjection
  simp [hgo, hstop, forList, entriesInForce]

theorem sameId_mirror (m : Mirror) : SameId s (mirror s m) := by
  unfold mirror
  split <;> exact .refl

theorem sameId_modSafe (f : SafeRt → SafeRt) : SameId s (s.modSafe f) := rfl

theorem sameId_publishLog : SameId s (publishLog s) :=
  (sameId_set_above (by decide) ..).2 ((sameId_set_above (by decide) ..).2 ((sameId_set_above (by decide) ..).2 .refl))

theorem sameId_logEntry (a b c d e f : Nat) (l : List Byte) : SameId s (logEntry s a b c d e f l) := by
  unfold logEntry
  split
  · exact (sameId_set_above (by decide) ..).2 .refl
  · exact (sameId_modSafe _).trans sameId_publishLog

theorem sameId_putStaged (l : List Staged) : SameId s (putStaged s l) :=
  SameId.trans ((sameId_set_sub (by decide) ..).2 ((sameId_set_sub (by decide) ..).2 rfl)) (sameId_mirror _)

theorem sameId_dropStaged : SameId s (dropStaged s) := by
  unfold dropStaged
  split
  · exact .refl
  · exact (sameId_set_sub (by decide) ..).2 (sameId_putStaged [])

theorem sameId_commitSettle (a b c : Nat) : SameId s (commitSettle s a b c) := by
  unfold commitSettle
  extract_lets k result logged idle
  have hresult : SameId s result := (sameId_set_sub (by decide) ..).2 ((sameId_set_sub (by decide) ..).2 ((sameId_set_sub (by decide) ..).2 .refl))
  have hlogged : SameId result logged := by
    unfold logged
    split
    · exact sameId_logEntry ..
    · exact .refl
  have hidle : SameId logged idle := (sameId_putVal (by decide) _).2 rfl
  have h := (hresult.trans hlogged).trans hidle
  split
  · exact h.trans (sameId_putStaged [])
  split
  · exact h.trans sameId_dropStaged
  · exact h

/-- The owed share as `commitDone` takes it out. -/
def dueTaken (s : State) : State := s.modCom fun k => { k with owed := [] }

theorem sameId_applying (h : SameId s u) (f : CommitRt → CommitRt) : SameId s (if u.com.phase = 3 then (u.modCom f).set Ob.Com.COMMIT_STATE 4 else u) :=
  (sameId_ite _).2 ⟨fun _ => (sameId_putVal (by decide) _).2 h, fun _ => h⟩

/-- A commit whose only share falls due with the local units comes into force. -/
theorem sameId_commitDone (hcom : s.com = owesSnapshotId.com) (start : Nat) : SameId (entriesInForce (dueTaken s)) (commitDone s start) := by
  have happlied (f : Nat × Nat × List Staged → Bool) (hf : f (4, 0, idShare) = true) (tA : Nat) : SameId (entriesInForce (dueTaken s)) (applyOwed s f tA) := by
    have hdue : s.com.owed.filter f = [(4, 0, idShare)] := by simp [hcom, owesSnapshotId, hf]
    have htaken : (s.modCom fun k => { k with owed := k.owed.filter fun o => !f o }) = dueTaken s := by
      simp [State.modCom, dueTaken, hcom, owesSnapshotId, hf]
    have hshare : SameId (entriesInForce (dueTaken s)) (forList [(4, 0, idShare)] (fun o s => applyShare s o.2.2 o.2.1 tA) (dueTaken s)) := by
      simp only [forList, List.foldl_cons, List.foldl_nil, applyShare_idShare, sameId_publishDerived, SameId.refl]
    unfold applyOwed
    dsimp only
    rw [hdue, htaken, if_neg (by decide)]
    exact sameId_applying hshare _
  unfold commitDone
  dsimp only
  rw [if_neg (by simp [hcom, owesSnapshotId])]
  refine SameId.trans ?_ (SameId.trans (sameId_commitSettle _ _ _) rfl)
  refine (sameId_set_sub (by decide) ..).2 ((sameId_set_sub (by decide) ..).2 ((sameId_set_sub (by decide) ..).2 ((sameId_set_sub (by decide) ..).2 ?_)))
  exact happlied _ rfl _

/-! ### LOCAL_RING at its t_D, owing SNAPSHOT_ID -/

/-- The state that the commit meets at that t_D. -/
def meetsCommit : State := judged (ringClosed owesSnapshotId 0)

theorem ringClosed_localRing : 0 = (ringClosed owesSnapshotId 0).localRing := by decide +kernel

theorem meetsCommit_com : meetsCommit.com = owesSnapshotId.com := by decide +kernel

theorem meetsCommit_id : (entriesInForce (dueTaken meetsCommit)).get Ob.Sb.SNAPSHOT_ID = 7 := by decide +kernel

/-- The snapshot of that t_D follows the committed number, not that of the snapshot before. -/
theorem computeDeadline_snapshot : Answers (.computeDeadline 0 0) owesSnapshotId fun u => (u.snaps.head?.map fun x => x.id) = some 8 := by
  have hexec : exec (.computeDeadline 0 0) owesSnapshotId = .next (closeCycle (owesSnapshotId.at 0) 0) :=
    exec_computeDeadline (by decide +kernel) rfl (by decide +kernel)
  have hat : owesSnapshotId.at 0 = owesSnapshotId := if_neg (Nat.not_lt_zero _)
  rw [answers_iff hexec, hat, closeCycle_local rfl ringClosed_localRing, commitOk_snaps, publishSnapshot_head, ← meetsCommit,
    (sameId_commitDone (s := meetsCommit) meetsCommit_com _).nextSnapshot]
  unfold nextSnapshot State.nat
  rw [meetsCommit_id]
  decide

end Sys2Proof.Machine

open Sys2Proof Sys2Proof.Machine

/-- Refutes O27: the snapshot at t_D of LOCAL_RING does not have the number that follows SNAPSHOT_ID where a share of a commit that puts SNAPSHOT_ID itself comes
into force at the same t_D. -/
theorem not_deadlinesCloseCyclesAndLossesEndPlay : ¬ Obligations.DeadlinesCloseCyclesAndLossesEndPlay := by
  unfold Obligations.DeadlinesCloseCyclesAndLossesEndPlay
  intro h
  obtain ⟨hclose, -⟩ := h owesSnapshotId 0 0 0 0 0 [] (by decide) (by decide +kernel)
  obtain ⟨u, hu, -, -, hsnap⟩ := hclose rfl (by decide +kernel)
  obtain ⟨w, hw, hid⟩ := computeDeadline_snapshot
  cases hu.symm.trans hw
  exact absurd (hid.symm.trans (hsnap (by decide +kernel)).1) (by decide +kernel)
end
-- ==== Sys2Proof/Proofs/ReturnedFrame.lean ====
section
/-! A returned frame of a split ring whose other half did not attend (R36, R89, R381), and O26. -/

namespace Sys2Proof.Machine

variable {s : State} {r : Nat}

/-- A position of the other half of a split ring that did not attend changes nothing (R381, R382). -/
theorem workerReturned_of_other_half {p : Nat} (h : ownHalf s r p = false) (sc : Nat) (b : List Byte) : workerReturned s r p sc b false = s := by
  have hland (slot : List Byte) : landRegion s r p sc false slot = s := by
    unfold landRegion
    split
    · rfl
    · simp [h]
  unfold workerReturned
  dsimp only
  simp [hland, h]

theorem forBelow_of_fixed {f : Nat → State → State} (h : ∀ i, f i s = s) (n : Nat) : forBelow n f s = s :=
  List.foldlRecOn (motive := fun w => w = s) _ _ rfl fun w hw i _ => by rw [hw, h]

/-- A valid frame as the ring takes it, before its workers' regions and its service slot are judged (R36, R74, R384). -/
def frameTaken (s : State) (r : Nat) (f : RallyFrame) (loop : Int) (b : List Byte) : State :=
  let h := rxHeader b
  let s := (rxStore s r 0 b).modRing r fun q => { q with returned := true, lastOk := true, missRun := 0, stampNew := some (f.cycle, q.txAt, loop) }
  splitReturned ((judgeLoop s r f h b).set Ob.Ring.ATTENDANCE h.attendance r) r

/-- A valid frame that nobody of the other half attended comes down to its service slot. -/
theorem frameBack_of_other_half {f : RallyFrame} {v : SvcSlot} {l : List SvcSlot} {fcs : Nat} {b : List Byte} {loop : Int} (htx : (s.ring r).tx = some f)
    (hsvc : f.svc = v :: l) (hvalid : (rxValid (rxStore s r 0 b) r fcs b).2 = true) (hatt : (rxHeader b).attendance = 0)
    (hother : ∀ p, 1 ≤ p → ownHalf (frameTaken s r f loop b) r p = false) :
    frameBack s r fcs loop b = serviceAnswer (huddleLanded (frameTaken s r f loop b) r f (rxHeader b) b) r v (rxService b) := by
  have hkept : (rxValid (rxStore s r 0 b) r fcs b).1 = rxStore s r 0 b := rxValid_of_valid hvalid
  have hworkers (n : Nat) : forBelow n (fun i s => workerReturned s r (i + 1) f.sched b (bit (rxHeader b).attendance i)) (frameTaken s r f loop b) = frameTaken s r f loop b :=
    forBelow_of_fixed (fun i => by
      have hbit : bit (rxHeader b).attendance i = false := by simp [hatt, bit]
      rw [hbit]
      exact workerReturned_of_other_half (hother _ (by omega)) _ _) n
  unfold frameBack
  simp only [htx, hvalid, hkept, Bool.true_eq_false, if_false, hsvc]
  exact congrArg (fun w => serviceAnswer (huddleLanded w r f (rxHeader b) b) r v (rxService b)) (hworkers _)

/-! ### A ring with more workers than positions -/

/-- A frame in flight on ring 2 with a DELAY slot to position 1795. -/
def delayFrame : RallyFrame :=
  { ring := 2, sched := 0, huddleTarget := 0, flags := 0, cycle := 0, whistle := 0, length := 160, commitTag := 0, sender := 0, huddleCycle := 0, slots := [],
    svc := [{ typ := 7, dest := 1795 }] }

/-- That frame as it returns: LENGTH 160, nobody attended, RESULT OK with CLOCK_STATE 1 in the service slot. -/
def delayBytes : List Byte := (((List.replicate 160 (0 : Byte)).set 16 160).set 53 1).set 112 1

/-- Ring 2 in PLAY with WORKER_COUNT 1795, split in front of position 1 and not at the unit's end, its frame in flight. -/
def manyWorkers : State :=
  { ((State.reset.set Ob.Ring.STATE 5 2).set Ob.Ring.WORKER_COUNT 1795 2).set Ob.PairX.SPLIT_STATE 1 0 0 2 with
    rings := [(2, { open_ := true, tc := 250000, tx := some delayFrame, stamp := some (0, 0, 0) })] }

theorem frameTaken_other_half (p : Nat) (hp : 1 ≤ p) : ownHalf (frameTaken manyWorkers 2 delayFrame 0 delayBytes) 2 p = false := by
  have hsplit : isSplit (frameTaken manyWorkers 2 delayFrame 0 delayBytes) 2 = true := by decide +kernel
  have hat : (frameTaken manyWorkers 2 delayFrame 0 delayBytes).nat Ob.PairX.SPLIT_AT 0 0 2 = 0 := by decide +kernel
  have hend : (frameTaken manyWorkers 2 delayFrame 0 delayBytes).flag Ob.PairC.UNIT_END = false := by decide +kernel
  simp [ownHalf, hsplit, hat, hend]
  omega

/-- FRAME_RETURNED in the cycle of its frame, with synchronisation, is the judgement of the frame (R36, R75). -/
theorem exec_frameReturned (hrun : unitRuns s = true) {fcs t : Nat} {loop : Int} {b : List Byte} (hplay : s.inPlay r = true) (hopen : (s.ring r).open_ = true)
    (hret : (s.ring r).returned = false) (hlost : (s.ring r).lost = false) (hin : (s.at t).now ≤ (s.ring r).tw + (s.ring r).tc - guardNs)
    (htx : (s.ring r).tw ≤ (s.ring r).txAt) (hsync : (s.ring r).syncLost = none) : exec (.frameReturned r fcs loop b t) s = .next (frameBack (s.at t) r fcs loop b) := by
  refine (whileOn_runs hrun).trans ?_
  rw [if_neg (by simp [hplay, hopen, hret, hlost, hin, htx]), if_neg (by simp [hsync])]

/-- The DELAY answer of position 1795 of ring 2 puts its CLOCK_STATE where FRAME_MISSING of ring 2 stands. -/
theorem serviceAnswer_frameMissing :
    (serviceAnswer (huddleLanded (frameTaken manyWorkers 2 delayFrame 0 delayBytes) 2 delayFrame (rxHeader delayBytes) delayBytes) 2 { typ := 7, dest := 1795 }
      (rxService delayBytes)).get Ob.Cyc.FRAME_MISSING 0 0 2 = 1 := by decide +kernel

theorem frameReturned_frameMissing : Answers (.frameReturned 2 0 0 delayBytes 0) manyWorkers fun u => u.get Ob.Cyc.FRAME_MISSING 0 0 2 = 1 := by
  have hexec : exec (.frameReturned 2 0 0 delayBytes 0) manyWorkers = .next (frameBack (manyWorkers.at 0) 2 0 0 delayBytes) :=
    exec_frameReturned (s := manyWorkers) (r := 2) (by decide +kernel) (by decide +kernel) (by decide +kernel) (by decide +kernel) (by decide +kernel)
      (by decide +kernel) (by decide +kernel) (by decide +kernel)
  have hat : manyWorkers.at 0 = manyWorkers := if_neg (Nat.not_lt_zero _)
  rw [answers_iff hexec, hat, frameBack_of_other_half rfl rfl (by decide +kernel) (by decide +kernel) frameTaken_other_half]
  exact serviceAnswer_frameMissing

end Sys2Proof.Machine

open Sys2Proof Sys2Proof.Machine

/-- Refutes O26: a valid returned frame does not leave FRAME_MISSING where WORKER_COUNT names more workers than a ring has positions: CLOCK_STATE of position 1795 of
ring 2 has the key of FRAME_MISSING of ring 2, and nothing in the statement bounds WORKER_COUNT or the slot's DEST. -/
theorem not_regionsAndFramesLandOrAreMissing : ¬ Obligations.RegionsAndFramesLandOrAreMissing := by
  unfold Obligations.RegionsAndFramesLandOrAreMissing
  intro h
  obtain ⟨-, hframe⟩ := h manyWorkers 2 1 0 0 false [] delayBytes 0 delayFrame (by decide +kernel) (by decide) (by decide)
  obtain ⟨hvalid, -⟩ := hframe (by decide +kernel) rfl rfl rfl (by decide +kernel) (by decide +kernel) rfl rfl (by decide)
  obtain ⟨u, hu, -, -, -, hkept⟩ := hvalid (by decide +kernel)
  obtain ⟨w, hw, hmissing⟩ := frameReturned_frameMissing
  cases hu.symm.trans hw
  exact absurd (hmissing.symm.trans hkept) (by decide +kernel)
end

