-- ==== Sys2Proof/Proofs/Reset.lean ====
section
/-! The block right after reset, and O2. -/

open Sys2Proof Sys2Proof.Machine

/-- Settles O2: an object that the empty dictionary does not list holds the default of its row, and every table of the state is empty. -/
theorem resetLeavesTheBlockAtRest : Obligations.ResetLeavesTheBlockAtRest := by
  unfold Obligations.ResetLeavesTheBlockAtRest
  intro s
  have hqueue : QueueWellFormed s := fun c hc => absurd hc List.not_mem_nil
  have hmem : MemoriesCanonical s := ⟨State.reset_mem_wf.1, State.reset_mem_wf.2.1, fun _ => rfl⟩
  exact ⟨rfl, fun _ _ => rfl, fun _ _ => rfl, fun _ _ => rfl, rfl, rfl, rfl, rfl, rfl, rfl, rfl, rfl, rfl, hqueue, hmem, rfl, rfl⟩
end

