-- ==== Sys2Proof/Proofs/CommitRecord.lean ====
section
/-! How the outcome of a commit is recorded and answered (R112, R120, R360), and what that leaves as it was. -/

namespace Sys2Proof.Machine

/-! ### Paperwork: objects of a list, the commit, the staged copy, messages, the change log and the workers -/

/-- `u` differs from `s` at most in the objects of the list, the commit, the staged copy, what is sent or waits to be sent, the safety island and the workers. -/
structure Paperwork (keys : List Nat) (s u : State) : Prop where
  od : ObjectsKept keys s u
  rest : { u with od := s.od, com := s.com, staged := s.staged, out := s.out, pair := s.pair, host := s.host, safe := s.safe, wks := s.wks } = s

variable {keys : List Nat} {s u v : State}

@[simp] theorem Paperwork.refl : Paperwork keys s s := ⟨fun _ _ => rfl, rfl⟩

theorem Paperwork.trans (h : Paperwork keys s u) (g : Paperwork keys u v) : Paperwork keys s v where
  od k hk := (g.od k hk).trans (h.od k hk)
  rest := by
    have hr := h.rest
    rw [← g.rest] at hr
    exact hr

theorem Paperwork.symm (h : Paperwork keys s u) : Paperwork keys u s where
  od k hk := (h.od k hk).symm
  rest := by
    conv_lhs => rw [← h.rest]

/-- A further piece of paperwork changes nothing of what is kept. -/
theorem Paperwork.step (g : Paperwork keys u v) : Paperwork keys s v ↔ Paperwork keys s u := ⟨fun h => h.trans g.symm, fun h => h.trans g⟩

theorem Paperwork.mono {keys' : List Nat} (h : Paperwork keys s u) (hsub : keys ⊆ keys') : Paperwork keys' s u := ⟨fun k hk => h.od k fun hm => hk (hsub hm), h.rest⟩

theorem Paperwork.get (h : Paperwork keys s u) {o : Obj} {i j k : Nat} (hk : o.key i j k ∉ keys) : u.get o i j k = s.get o i j k := get_congr (h.od _ hk)

theorem Paperwork.axis (h : Paperwork keys s u) (a : Nat) : u.axis a = s.axis a := by
  have haxes : u.axes = s.axes := by simpa using congrArg State.axes h.rest
  rw [State.axis, haxes]
  rfl

theorem Paperwork.bytesKept (h : Paperwork keys s u) : BytesKept s u := by
  have hshared : u.shared = s.shared := by simpa using congrArg State.shared h.rest
  have hucode : u.ucode = s.ucode := by simpa using congrArg State.ucode h.rest
  have haces : u.aces = s.aces := by simpa using congrArg State.aces h.rest
  intro a
  simp only [State.ace, hshared, hucode, haces]
  exact ⟨trivial, trivial, fun _ => trivial⟩

@[simp] theorem paperwork_ite (c : Prop) [Decidable c] : Paperwork keys s (if c then u else v) ↔ (c → Paperwork keys s u) ∧ (¬c → Paperwork keys s v) := by
  by_cases h : c <;> simp [h]

@[simp] theorem paperwork_set {o : Obj} {i j k : Nat} (ho : o.key i j k ∈ keys) (x : Int) : Paperwork keys s (u.set o x i j k) ↔ Paperwork keys s u :=
  Paperwork.step ⟨fun _ hn => State.set_od_ne _ _ _ _ _ _ _ fun h => hn (h ▸ ho), rfl⟩
@[simp] theorem paperwork_count {o : Obj} {i j k : Nat} (ho : o.key i j k ∈ keys) (n : Int) : Paperwork keys s (u.count o i j k n) ↔ Paperwork keys s u :=
  paperwork_set ho _
@[simp] theorem paperwork_modCom (f : CommitRt → CommitRt) : Paperwork keys s (u.modCom f) ↔ Paperwork keys s u := Paperwork.step ⟨fun _ _ => rfl, rfl⟩
@[simp] theorem paperwork_modSafe (f : SafeRt → SafeRt) : Paperwork keys s (u.modSafe f) ↔ Paperwork keys s u := Paperwork.step ⟨fun _ _ => rfl, rfl⟩
@[simp] theorem paperwork_modPair (f : PairRt → PairRt) : Paperwork keys s (u.modPair f) ↔ Paperwork keys s u := Paperwork.step ⟨fun _ _ => rfl, rfl⟩
@[simp] theorem paperwork_withStaged (l : List Staged) : Paperwork keys s { u with staged := l } ↔ Paperwork keys s u := Paperwork.step ⟨fun _ _ => rfl, rfl⟩
@[simp] theorem paperwork_modWk (r p : Nat) (f : WorkerRt → WorkerRt) : Paperwork keys s (u.modWk r p f) ↔ Paperwork keys s u :=
  Paperwork.step ⟨fun _ _ => rfl, rfl⟩

/-! ### Messages to the standby and replies -/

/-- `u` differs from `s` at most in what is sent or waits to be sent. -/
def Sent (s u : State) : Prop := { u with out := s.out, pair := s.pair, host := s.host } = s

theorem Sent.trans (h : Sent s u) (g : Sent u v) : Sent s v := by
  unfold Sent at h
  rw [← g] at h
  exact h

theorem Sent.od (h : Sent s u) : u.od = s.od := by simpa using congrArg State.od h
theorem Sent.com (h : Sent s u) : u.com = s.com := by simpa using congrArg State.com h
theorem Sent.staged (h : Sent s u) : u.staged = s.staged := by simpa using congrArg State.staged h
theorem Sent.get (h : Sent s u) (o : Obj) (i j k : Nat) : u.get o i j k = s.get o i j k := get_congr (by rw [h.od])

theorem Sent.paperwork (h : Sent s u) : Paperwork keys s u where
  od k _ := by rw [h.od]
  rest := by
    conv_rhs => rw [← h]
    conv_lhs => rw [← h]

theorem sent_mirror (m : Mirror) : Sent s (mirror s m) := by
  unfold mirror
  split <;> rfl

theorem sent_fillReply (c : Nat) : Sent s (fillReply s c) := by
  unfold fillReply
  dsimp only
  split
  · split <;> rfl
  · rfl

theorem sent_sendReply (p : Path) (b : List Byte) : Sent s (sendReply s p b) := by
  unfold sendReply
  split
  · rfl
  · refine Sent.trans ?_ (sent_fillReply _)
    split <;> rfl

theorem sent_mirrorSess (k : Nat) : Sent s (mirrorSess s k) := by
  unfold mirrorSess
  split
  · rfl
  · exact sent_mirror _

theorem sent_replyTo (k : Nat) (p : Path) (b : List Byte) : Sent s (replyTo s k p b) := by
  unfold replyTo
  split
  · exact Sent.trans (sent_mirrorSess k) rfl
  · exact sent_sendReply p b

theorem sent_commitReplies (k : CommitRt) (status tag : Nat) : Sent s (commitReplies s k status tag) := by
  unfold commitReplies
  split
  · rfl
  · dsimp only
    split
    · rfl
    · refine Sent.trans ?_ (sent_replyTo _ _ _)
      rfl

@[simp] theorem mirror_get (m : Mirror) (o : Obj) (i j k : Nat) : (mirror s m).get o i j k = s.get o i j k := (sent_mirror m).get ..
@[simp] theorem mirror_com (m : Mirror) : (mirror s m).com = s.com := (sent_mirror m).com
@[simp] theorem mirror_staged (m : Mirror) : (mirror s m).staged = s.staged := (sent_mirror m).staged
@[simp] theorem mirror_host (m : Mirror) : (mirror s m).host = s.host := by
  unfold mirror
  split <;> rfl
@[simp] theorem paperwork_mirror (m : Mirror) : Paperwork keys s (mirror u m) ↔ Paperwork keys s u := (sent_mirror m).paperwork.step

/-! ### The outcome recorded -/

/-- Objects that recording an outcome writes beside the result itself: the change log (Table 14-7), COMMIT_STATE and the staged copy's (Table 05-11). -/
def settledKeys : List Nat :=
  [Ob.Isl.LOG_NEXT_SEQ.key, Ob.Isl.UNEXPORTED.key, Ob.Isl.LOG_STATE.key, Ob.Isl.EVENTS_DROPPED.key, Ob.Com.COMMIT_STATE.key, Ob.Com.STAGED_COUNT.key,
    Ob.Com.STAGED_BYTES.key, Ob.Com.DISCARD_COUNT.key]

/-- Those and the result. -/
def resultKeys : List Nat := [Ob.Com.LAST_RESULT.key, Ob.Com.LAST_REASON.key, Ob.Com.LAST_OBJECT.key] ++ settledKeys

@[simp] theorem paperwork_logEntry (a b c d e f : Nat) (l : List Byte) : Paperwork settledKeys s (logEntry u a b c d e f l) ↔ Paperwork settledKeys s u :=
  Paperwork.step (by simp +decide [logEntry, publishLog])
@[simp] theorem paperwork_putStaged (l : List Staged) : Paperwork settledKeys s (putStaged u l) ↔ Paperwork settledKeys s u := by simp +decide [putStaged]
@[simp] theorem paperwork_dropStaged : Paperwork settledKeys s (dropStaged u) ↔ Paperwork settledKeys s u := Paperwork.step (by simp +decide [dropStaged])

theorem publishLog_com : (publishLog s).com = s.com := rfl
theorem publishLog_staged : (publishLog s).staged = s.staged := rfl
theorem publishLog_host : (publishLog s).host = s.host := rfl

@[simp] theorem logEntry_com (a b c d e f : Nat) (l : List Byte) : (logEntry s a b c d e f l).com = s.com := by
  unfold logEntry
  split
  · exact State.set_com ..
  · exact publishLog_com.trans (State.modSafe_com _ _)
@[simp] theorem logEntry_staged (a b c d e f : Nat) (l : List Byte) : (logEntry s a b c d e f l).staged = s.staged := by
  unfold logEntry
  split
  · exact State.set_staged ..
  · exact publishLog_staged.trans (State.modSafe_staged _ _)
@[simp] theorem logEntry_host (a b c d e f : Nat) (l : List Byte) : (logEntry s a b c d e f l).host = s.host := by
  unfold logEntry
  split
  · exact State.set_host ..
  · exact publishLog_host.trans (State.modSafe_host _ _)

@[simp] theorem putStaged_host (l : List Staged) : (putStaged s l).host = s.host := by simp [putStaged]
@[simp] theorem putStaged_com (l : List Staged) : (putStaged s l).com = s.com := by simp [putStaged]
@[simp] theorem putStaged_staged (l : List Staged) : (putStaged s l).staged = l := by simp [putStaged]
@[simp] theorem dropStaged_com : (dropStaged s).com = s.com := by
  unfold dropStaged
  split
  · rfl
  · exact putStaged_com []
@[simp] theorem putStaged_commitState (l : List Staged) : (putStaged s l).get Ob.Com.COMMIT_STATE = s.get Ob.Com.COMMIT_STATE := by
  rw [putStaged, mirror_get, State.get_set_ne _ _ _ _ _ _ _ _ _ _ (by decide), State.get_set_ne _ _ _ _ _ _ _ _ _ _ (by decide)]
  rfl
@[simp] theorem dropStaged_commitState : (dropStaged s).get Ob.Com.COMMIT_STATE = s.get Ob.Com.COMMIT_STATE := by
  unfold dropStaged
  split
  · rfl
  · simp +decide [State.get_count]

/-- The result is recorded, and logged where the commit carried safety entries (R112, R360). -/
def resultLogged (s : State) (status reason obj : Nat) : State :=
  let u := commitResult s status reason obj
  if carriesSafety s.com.entries then logEntry u 2 s.com.sess status 0 else u

/-- The commit is over: its blocks go and COMMIT_STATE reads IDLE. -/
def commitOver (s : State) : State := (s.modCom fun c => { c with blocks := [], discardAfter := false }).set Ob.Com.COMMIT_STATE 0

theorem commitSettle_eq (status reason obj : Nat) : commitSettle s status reason obj =
    let u := commitOver (resultLogged s status reason obj)
    if status = stOk then putStaged u [] else if s.com.discardAfter then dropStaged u else u := rfl

theorem resultLogged_com (status reason obj : Nat) : (resultLogged s status reason obj).com = s.com := by
  unfold resultLogged commitResult
  dsimp only
  split <;> simp

theorem resultLogged_staged (status reason obj : Nat) : (resultLogged s status reason obj).staged = s.staged := by
  unfold resultLogged commitResult
  dsimp only
  split <;> simp

theorem resultLogged_host (status reason obj : Nat) : (resultLogged s status reason obj).host = s.host := by
  unfold resultLogged commitResult
  dsimp only
  split <;> simp

theorem paperwork_commitSettle (status reason obj : Nat) : Paperwork settledKeys (commitResult s status reason obj) (commitSettle s status reason obj) := by
  simp +decide [commitSettle_eq, commitOver, resultLogged]

/-- What an outcome shows beside the staged copy. -/
theorem commitSettle_spec (status reason obj : Nat) :
    let u := commitSettle s status reason obj
    u.get Ob.Com.LAST_RESULT = status ∧ u.get Ob.Com.LAST_REASON = reason ∧ u.get Ob.Com.COMMIT_STATE = 0 ∧
      u.com = { s.com with blocks := [], discardAfter := false } := by
  intro u
  have hbook : Paperwork settledKeys (commitResult s status reason obj) u := paperwork_commitSettle status reason obj
  have hresult : u.get Ob.Com.LAST_RESULT = status := (hbook.get (by decide)).trans (by simp +decide [commitResult, State.get_set])
  have hreason : u.get Ob.Com.LAST_REASON = reason := (hbook.get (by decide)).trans (by simp +decide [commitResult, State.get_set])
  refine ⟨hresult, hreason, ?_⟩
  unfold u
  rw [commitSettle_eq]
  dsimp only
  split
  · simp [commitOver, resultLogged_com]
  · split <;> simp [commitOver, resultLogged_com]

theorem commitSettle_paperwork (status reason obj : Nat) : Paperwork resultKeys s (commitSettle s status reason obj) := by
  have hresult : Paperwork resultKeys s (commitResult s status reason obj) := by simp +decide [commitResult]
  exact hresult.trans ((paperwork_commitSettle status reason obj).mono (List.subset_append_right _ _))

/-- An applied commit's staged copy is emptied (R120). -/
theorem commitSettle_staged_of_ok (reason obj : Nat) : (commitSettle s stOk reason obj).staged = [] := by
  rw [commitSettle_eq]
  dsimp only
  rw [if_pos rfl, putStaged_staged]

/-- A rejected commit's staged copy stays unless it was to be discarded (R108). -/
theorem commitSettle_staged_of_rejected {status : Nat} (hst : status ≠ stOk) (hkeep : s.com.discardAfter = false) (reason obj : Nat) :
    (commitSettle s status reason obj).staged = s.staged := by
  rw [commitSettle_eq]
  dsimp only
  rw [if_neg hst, hkeep]
  exact resultLogged_staged _ _ _

/-! ### The outcome answered -/

/-- Objects that a rejection writes. -/
def rejectKeys : List Nat := Ob.Com.REJECT_COUNT.key :: resultKeys

/-- What the rejection of a commit shows (R112, R117). -/
theorem commitReject_spec {status : Nat} (hst : status ≠ stOk) (reason obj : Nat) :
    let u := commitReject s status reason obj
    u.com.phase = 0 ∧ u.com.tell = s.com.tell ∧ u.get Ob.Com.COMMIT_STATE = 0 ∧ u.get Ob.Com.LAST_RESULT = status ∧ u.get Ob.Com.LAST_REASON = reason ∧
      u.get Ob.Com.REJECT_COUNT = satInc 32 (s.get Ob.Com.REJECT_COUNT) ∧ (s.com.discardAfter = false → u.staged = s.staged) ∧ Paperwork rejectKeys s u := by
  intro u
  have hcounted : Paperwork rejectKeys s (s.count Ob.Com.REJECT_COUNT) := (paperwork_count (by decide) _).2 .refl
  obtain ⟨hresult, hreason, hstate, hcom⟩ := commitSettle_spec (s := s.count Ob.Com.REJECT_COUNT) status reason obj
  have hbook := commitSettle_paperwork (s := s.count Ob.Com.REJECT_COUNT) status reason obj
  have hcount := hbook.get (o := Ob.Com.REJECT_COUNT) (i := 0) (j := 0) (k := 0) (by decide)
  have hstaged := commitSettle_staged_of_rejected (s := s.count Ob.Com.REJECT_COUNT) hst (reason := reason) (obj := obj)
  generalize hsettled : commitSettle (s.count Ob.Com.REJECT_COUNT) status reason obj = w at *
  have hsent : Sent (w.modCom fun c => { c with phase := 0 }) u := by
    unfold u commitReject
    rw [hsettled]
    exact (sent_mirror _).trans (sent_commitReplies _ _ _)
  refine ⟨?_, ?_, ?_, ?_, ?_, ?_, ?_, ?_⟩
  · rw [hsent.com]
    rfl
  · rw [hsent.com, State.modCom_com, hcom]
    rfl
  · rw [hsent.get]
    exact hstate
  · rw [hsent.get]
    exact hresult
  · rw [hsent.get]
    exact hreason
  · rw [hsent.get, State.modCom_get, hcount, State.get_count, if_pos rfl]
    rfl
  · intro hkeep
    rw [hsent.staged]
    exact hstaged hkeep
  · refine hcounted.trans (hsent.paperwork.step.2 ((paperwork_modCom _).2 ?_))
    exact hbook.mono (List.subset_cons_self _ _)

end Sys2Proof.Machine
end

