-- ==== Sys2Proof/Proofs/CommitCourse.lean ====
section
/-! Admission and decision of a commit (R62, R114 to R118). -/

namespace Sys2Proof.Machine

variable {s : State}

/-! ### What a commit on its way leaves -/

@[simp] theorem at_isStandby (t : Nat) : isStandby (s.at t) = isStandby s := by simp [isStandby]

/-- The staged copy, the axes and all bytes are as they were. -/
def CommitKept (s u : State) : Prop := u.staged = s.staged ∧ (∀ q, u.axis q = s.axis q) ∧ BytesKept s u

/-- Paperwork done at an instant leaves axes and bytes as they were before time moved. -/
theorem Paperwork.kept_at {keys : List Nat} {u : State} {t : Nat} (h : Paperwork keys (s.at t) u) : (∀ q, u.axis q = s.axis q) ∧ BytesKept s u :=
  ⟨fun q => (h.axis q).trans (State.at_axis ..), (bytesKept_at t).1 h.bytesKept⟩

theorem Paperwork.commitKept {keys : List Nat} {u : State} {t : Nat} (h : Paperwork keys (s.at t) u) (hstaged : u.staged = (s.at t).staged) : CommitKept s u :=
  ⟨hstaged.trans (State.at_staged ..), h.kept_at⟩

/-- `u` shows the commit rejected for a reason, and kept what a rejection keeps unless the staged copy was to be discarded (R108, R112). -/
def CommitRejected (s u : State) (reason : Nat) : Prop :=
  u.com.phase = 0 ∧ u.get Ob.Com.COMMIT_STATE = 0 ∧ u.get Ob.Com.LAST_RESULT = stRejected ∧ u.get Ob.Com.LAST_REASON = reason ∧
    u.get Ob.Com.REJECT_COUNT = satInc 32 (s.get Ob.Com.REJECT_COUNT) ∧ (s.com.discardAfter = false → CommitKept s u)

/-- A rejection at an instant, whatever the commit has been made to tell before (R117). -/
theorem commitRejected_at (t : Nat) (f : CommitRt → CommitRt) (hf : ∀ k, (f k).discardAfter = k.discardAfter) (reason : Nat) :
    CommitRejected s (commitReject ((s.at t).modCom f) stRejected reason 0) reason := by
  obtain ⟨hphase, -, hstate, hresult, hreason, hcount, hstays, hbook⟩ := commitReject_spec (s := (s.at t).modCom f) (status := stRejected) (by decide) reason 0
  have hpaper : Paperwork rejectKeys (s.at t) (commitReject ((s.at t).modCom f) stRejected reason 0) := ((paperwork_modCom f).2 .refl).trans hbook
  refine ⟨hphase, hstate, hresult, hreason, ?_, fun hkeep => hpaper.commitKept (hstays ?_)⟩
  · rw [hcount, State.modCom_get, State.at_get]
  · rw [State.modCom_com, hf, State.at_com, hkeep]

/-! ### Admission -/

theorem exec_commitAdmission (hrun : unitRuns s = true) (t : Nat) : exec (.commitAdmission t) s = .next (commitAdmit (s.at t)) := whileOn_runs hrun

theorem exec_commitDecision (hrun : unitRuns s = true) (t : Nat) : exec (.commitDecision t) s = .next (commitDecide (s.at t)) := whileOn_runs hrun

/-- A validated commit stands before the t_D of the pacing cycle that starts at `start` (R114). -/
structure Admissible (s : State) (start : Nat) : Prop where
  phase : s.com.phase = 1
  active : isStandby s = false
  deadline : cycleOfDeadline (s.tcyc (pacingRing s)) (s.woff (pacingRing s)) s.now = some start
  validated : s.com.tQ ≤ s.now
  sent : s.com.startup = false

/-- The worker blocks of the commit in progress (R60). -/
def ownBlocks (s : State) : List ParamBlock := commitBlocks s (withEntries s s.com.entries)

/-- The tag that follows LAST_TAG (R116). -/
def nextTag (s : State) : Nat := let x := s.nat Ob.Com.LAST_TAG; if 255 ≤ x then 1 else x + 1

theorem nextTag_pos : 1 ≤ nextTag s := by
  unfold nextTag
  dsimp only
  split <;> omega

theorem nextTag_le : nextTag s ≤ 255 := by
  unfold nextTag
  dsimp only
  split <;> omega

/-- The latency of the commit in pacing cycles (R116). -/
def ownLatency (s : State) (start : Nat) : Nat :=
  let p := pacingRing s
  if (ownBlocks s).isEmpty then 1 else latencyOf s (ownBlocks s) start (s.tcyc p) (s.woff p) s.now

/-- The commit admitted in the pacing cycle that starts at `start`, with its objects. -/
def admittedAt (s : State) (start : Nat) : State :=
  let p := pacingRing s
  let a := start + ownLatency s start * s.tcyc p
  let c := cycleNo start (s.tcyc p)
  let e := (ownBlocks s).isEmpty
  let s' := s.modCom fun k => { k with pacing := p, tp := s.tcyc p, wp := s.woff p, c := c, m := (c + ownLatency s start) % 2 ^ 32, applyAt := a,
                                       tag := nextTag s, blocks := ownBlocks s, phase := if e then 4 else 2,
                                       owed := if e then k.owed ++ splitShares s k.entries a else k.owed }
  ((s'.set Ob.Com.LAST_TAG (nextTag s)).set Ob.Com.LAST_LATENCY (ownLatency s start)).set Ob.Com.COMMIT_STATE (if e then 4 else 2)

variable {start : Nat}

theorem commitAdmit_of_fitting (h : Admissible s start) (hfit : slotsBeyond s (ownBlocks s) = false) :
    commitAdmit s = mirror (admittedAt s start) (.commit (admittedAt s start).com) := by
  obtain ⟨hphase, hactive, hdeadline, hvalid, hsent⟩ := h
  unfold ownBlocks at hfit
  unfold commitAdmit
  rw [if_neg (by simp [hphase, hactive])]
  simp only [hdeadline, if_neg (Nat.not_lt.2 hvalid), hfit, State.modCom_com, hsent, Bool.false_eq_true, if_false]
  rfl

theorem commitAdmit_of_beyond (h : Admissible s start) (hbeyond : slotsBeyond s (ownBlocks s) = true) : commitAdmit s = commitReject s stRejected 4 0 := by
  obtain ⟨hphase, hactive, hdeadline, hvalid, -⟩ := h
  unfold ownBlocks at hbeyond
  unfold commitAdmit
  rw [if_neg (by simp [hphase, hactive])]
  simp only [hdeadline, if_neg (Nat.not_lt.2 hvalid), hbeyond, if_true]

theorem slotsNeeded_nil (r : Nat) : slotsNeeded [] r = 0 := rfl

theorem slotsBeyond_nil : slotsBeyond s [] = false := by simp [slotsBeyond, slotsNeeded_nil]

/-- The bound of R116: at least four pacing cycles, at most eight. -/
theorem latencyOf_mem (l : List ParamBlock) (st tp wp t : Nat) : 4 ≤ latencyOf s l st tp wp t ∧ latencyOf s l st tp wp t ≤ 8 := by
  unfold latencyOf
  dsimp only
  omega

/-- Objects that an admission writes. -/
def admitKeys : List Nat := [Ob.Com.LAST_TAG.key, Ob.Com.LAST_LATENCY.key, Ob.Com.COMMIT_STATE.key]

/-- What an admission shows, and what it leaves. -/
theorem commitAdmit_spec (h : Admissible s start) (hfit : slotsBeyond s (ownBlocks s) = false) :
    let u := commitAdmit s
    u.com = (admittedAt s start).com ∧ u.get Ob.Com.LAST_TAG = nextTag s ∧ u.get Ob.Com.LAST_LATENCY = ownLatency s start ∧
      u.get Ob.Com.COMMIT_STATE = (if (ownBlocks s).isEmpty then 4 else 2) ∧ u.staged = s.staged ∧ Paperwork admitKeys s u := by
  rw [commitAdmit_of_fitting h hfit]
  refine ⟨by simp, ?_, ?_, ?_, ?_, ?_⟩ <;> simp +decide [admittedAt, State.get_set]

/-- Without worker blocks the commit comes into force one pacing cycle after its admission (R115, R116). -/
theorem commitAdmit_without_blocks {t : Nat} (h : Admissible (s.at t) start) (hnone : ownBlocks (s.at t) = []) :
    let a := s.at t
    let p := pacingRing a
    let u := commitAdmit a
    u.com.phase = 4 ∧ u.com.pacing = p ∧ u.com.applyAt = start + a.tcyc p ∧ u.get Ob.Com.LAST_LATENCY = 1 ∧ u.get Ob.Com.COMMIT_STATE = 4 ∧
      1 ≤ u.com.tag ∧ u.com.tag ≤ 255 ∧ u.get Ob.Com.LAST_TAG = u.com.tag ∧ u.com.owed = a.com.owed ++ splitShares a a.com.entries (start + a.tcyc p) ∧
      CommitKept s u := by
  obtain ⟨hcom, htag, hlatency, hstate, hstaged, hbook⟩ := commitAdmit_spec h (by rw [hnone, slotsBeyond_nil])
  dsimp only
  rw [hcom, htag, hlatency, hstate]
  simp [admittedAt, ownLatency, hnone, nextTag_pos, nextTag_le, hbook.commitKept hstaged]

/-- With worker blocks it waits for them, and comes into force four to eight pacing cycles on (R116, R117). -/
theorem commitAdmit_with_blocks {t : Nat} (h : Admissible (s.at t) start) (hsome : ownBlocks (s.at t) ≠ []) (hfit : slotsBeyond (s.at t) (ownBlocks (s.at t)) = false) :
    let a := s.at t
    let p := pacingRing a
    let u := commitAdmit a
    u.com.phase = 2 ∧ u.com.pacing = p ∧ start + 4 * a.tcyc p ≤ u.com.applyAt ∧ u.com.applyAt ≤ start + 8 * a.tcyc p ∧
      u.com.applyAt = start + latencyOf a (ownBlocks a) start (a.tcyc p) (a.woff p) a.now * a.tcyc p ∧ u.com.blocks = ownBlocks a ∧
      u.get Ob.Com.COMMIT_STATE = 2 ∧ 1 ≤ u.com.tag ∧ u.com.tag ≤ 255 ∧ u.get Ob.Com.LAST_TAG = u.com.tag ∧ CommitKept s u := by
  intro a p u
  obtain ⟨hcom, htag, -, hstate, hstaged, hbook⟩ := commitAdmit_spec h hfit
  obtain ⟨hmin, hmax⟩ := latencyOf_mem (s := a) (ownBlocks a) start (a.tcyc p) (a.woff p) a.now
  have hsome : (ownBlocks a).isEmpty = false := List.isEmpty_eq_false_iff.2 hsome
  have happly : u.com.applyAt = start + latencyOf a (ownBlocks a) start (a.tcyc p) (a.woff p) a.now * a.tcyc p := by
    rw [hcom]
    simp [admittedAt, ownLatency, hsome, a, p]
  refine ⟨?_, ?_, happly ▸ Nat.add_le_add_left (Nat.mul_le_mul_right _ hmin) _, happly ▸ Nat.add_le_add_left (Nat.mul_le_mul_right _ hmax) _, happly, ?_, ?_, ?_, ?_, ?_,
    hbook.commitKept hstaged⟩ <;> simp [u, a, p, hcom, hstate, htag, admittedAt, hsome, nextTag_pos, nextTag_le]

/-- Blocks that no longer fit are rejected (R62). -/
theorem commitAdmit_beyond {t : Nat} (h : Admissible (s.at t) start) (hbeyond : slotsBeyond (s.at t) (ownBlocks (s.at t)) = true) :
    CommitRejected s (commitAdmit (s.at t)) 4 :=
  commitAdmit_of_beyond h hbeyond ▸ commitRejected_at t id (fun _ => rfl) 4

/-! ### The joint decision -/

/-- A commit stands at the t_D at which its pacing ring decides it (R117). -/
structure DecisionDue (s : State) : Prop where
  phase : s.com.phase = 2
  active : isStandby s = false
  deadline : s.now + guardNs + 2 * s.com.tp = s.com.applyAt + s.com.wp

/-- The commit confirmed: frames tell it, and its shares are owed (R115, R117). -/
def confirmed (s : State) : State :=
  s.modCom fun k => { k with phase := 3, tell := some (k.tag, k.applyAt, k.tp, true), owed := k.owed ++ splitShares s k.entries k.applyAt }

theorem expectTags_keeps {keys : List Nat} (was : Nat) (s : State) :
    (expectTags was s).com = s.com ∧ (expectTags was s).staged = s.staged ∧ Paperwork keys s (expectTags was s) := by
  unfold expectTags
  split
  · exact ⟨rfl, rfl, .refl⟩
  · exact forList_keeps (P := fun u => u.com = s.com ∧ u.staged = s.staged ∧ Paperwork keys s u) _ _ _ ⟨rfl, rfl, .refl⟩
      fun b u ⟨hcom, hstaged, hbook⟩ => ⟨hcom, hstaged, (paperwork_modWk ..).2 hbook⟩

/-- The confirmed commit as the workers, the dictionary and the standby have it (R63, R117, R150). -/
def confirmedTold (s : State) : State :=
  let u := expectTags 2 (confirmed s)
  mirror (u.set Ob.Com.COMMIT_STATE 3) (.commit u.com)

/-- Every block complete: the commit is confirmed (R117); a mirroring unit notes what it waits for. -/
theorem commitDecide_of_complete (h : DecisionDue s) (hall : ∀ b ∈ s.com.blocks, b.complete = true) :
    commitDecide s = if mirroring (confirmedTold s) then (confirmedTold s).modPair fun p => { p with confirmWait := some p.mirrorNo } else confirmedTold s := by
  obtain ⟨hphase, hactive, hdeadline⟩ := h
  unfold commitDecide
  rw [if_neg (by simp [hphase, hactive, hdeadline]), if_neg (by simpa using hall), hphase]
  rfl

theorem commitDecide_spec (h : DecisionDue s) (hall : ∀ b ∈ s.com.blocks, b.complete = true) :
    let u := commitDecide s
    u.com = (confirmed s).com ∧ u.get Ob.Com.COMMIT_STATE = 3 ∧ u.staged = s.staged ∧ Paperwork [Ob.Com.COMMIT_STATE.key] s u := by
  obtain ⟨hcom, hstaged, hbook⟩ := expectTags_keeps (keys := [Ob.Com.COMMIT_STATE.key]) 2 (confirmed s)
  have htags : Paperwork [Ob.Com.COMMIT_STATE.key] s (expectTags 2 (confirmed s)) := ((paperwork_modCom _).2 .refl).trans hbook
  rw [commitDecide_of_complete h hall]
  have hstood : (confirmed s).staged = s.staged := rfl
  split <;> simp +decide [confirmedTold, hcom, hstaged, htags, hstood]

/-- Frames tell the commit's ABORT. -/
def tellAbort (k : CommitRt) : CommitRt := { k with tell := some (k.tag, k.applyAt, k.tp, false) }

theorem commitAbort_eq (reason : Nat) : commitAbort s reason = commitReject (s.modCom tellAbort) stRejected reason 0 := rfl

/-- A block that is not complete: the commit is rejected as INCOMPLETE, and frames tell it (R117). -/
theorem commitDecide_of_incomplete (h : DecisionDue s) (hsome : ∃ b ∈ s.com.blocks, b.complete = false) : commitDecide s = commitAbort s 5 := by
  obtain ⟨hphase, hactive, hdeadline⟩ := h
  unfold commitDecide
  rw [if_neg (by simp [hphase, hactive, hdeadline]), if_pos (by simpa using hsome)]

/-- A commit with every block complete is confirmed at the decision, and its shares are owed (R115, R117). -/
theorem commitDecide_confirms {t : Nat} (h : DecisionDue (s.at t)) (hall : ∀ b ∈ (s.at t).com.blocks, b.complete = true) :
    let a := s.at t
    let u := commitDecide a
    u.com.phase = 3 ∧ u.com.tell = some (a.com.tag, a.com.applyAt, a.com.tp, true) ∧ u.get Ob.Com.COMMIT_STATE = 3 ∧
      u.com.owed = a.com.owed ++ splitShares a a.com.entries a.com.applyAt ∧ CommitKept s u := by
  obtain ⟨hcom, hstate, hstaged, hbook⟩ := commitDecide_spec h hall
  dsimp only
  rw [hcom]
  exact ⟨rfl, rfl, hstate, rfl, hbook.commitKept hstaged⟩

/-- A commit with an incomplete block is rejected at the decision, and frames tell it (R117). -/
theorem commitDecide_rejects {t : Nat} (h : DecisionDue (s.at t)) (hsome : ∃ b ∈ (s.at t).com.blocks, b.complete = false) :
    let a := s.at t
    let u := commitDecide a
    u.com.tell = some (a.com.tag, a.com.applyAt, a.com.tp, false) ∧ CommitRejected s u 5 := by
  obtain ⟨-, htell, -⟩ := commitReject_spec (s := (s.at t).modCom tellAbort) (status := stRejected) (by decide) 5 0
  dsimp only
  rw [commitDecide_of_incomplete h hsome, commitAbort_eq]
  exact ⟨htell, commitRejected_at t tellAbort (fun _ => rfl) 5⟩

end Sys2Proof.Machine
end

