-- ==== Sys2Proof/Proofs/CommitOutcome.lean ====
section
/-! The commit counted, recorded and answered at t_D of the cycle of A (R120). -/

namespace Sys2Proof.Machine

variable {s u : State}

/-! ### The record -/

theorem applyOwed_of_none_due {f : Nat × Nat × List Staged → Bool} (h : ∀ o ∈ s.com.owed, f o = false) (t : Nat) : applyOwed s f t = s := by
  have hdue : s.com.owed.filter f = [] := by simpa [List.filter_eq_nil_iff] using h
  simp [applyOwed, hdue]

/-- The application counted, with its instant, cycle and tag (R120, Table 05-5). -/
def counted (s : State) : State :=
  (((s.count Ob.Com.COMMIT_COUNT).set Ob.Com.LAST_APPLY_TIME s.com.applyAt).set Ob.Com.LAST_APPLY_CYCLE s.com.m).set Ob.Sb.TAG_IN_FORCE s.com.tag

/-- The commit recorded as applied. -/
def recorded (s : State) : State := (commitSettle (counted s) stOk 0 0).modCom fun c => { c with phase := 0 }

/-- A commit in force stands at a t_D of LOCAL_RING not before A, with no share due but those of whistles to come (R115). -/
structure OutcomeDue (s : State) (start : Nat) : Prop where
  phase : s.com.phase = 3 ∨ s.com.phase = 4
  due : s.com.applyAt ≤ start
  later : ∀ o ∈ s.com.owed, o.1 < 4 ∧ s.inPlay o.1 = true ∧ (s.ring o.1).tw < o.2.1

/-- What the record leaves of the commit for its reply. -/
def answeredCom (k : CommitRt) : CommitRt := { k with phase := 5, blocks := [], discardAfter := false }

theorem commitOk_commitDone {start : Nat} (h : OutcomeDue s start) :
    commitOk (commitDone s start) = commitReplies (recorded s) (answeredCom s.com) stOk s.com.tag := by
  obtain ⟨hphase, hdue, hlater⟩ := h
  have hnone : ∀ o ∈ s.com.owed, (decide (4 ≤ o.1) || !s.inPlay o.1 || decide (o.2.1 ≤ (s.ring o.1).tw)) = false := by
    intro o ho
    obtain ⟨hring, hplay, hto⟩ := hlater o ho
    simp [hring, hplay, hto]
  have hdone : commitDone s start = (commitSettle (counted s) stOk 0 0).modCom fun c => { c with phase := 5 } := by
    unfold commitDone
    dsimp only
    rw [if_neg (by omega), applyOwed_of_none_due hnone]
    rfl
  obtain ⟨-, -, -, hcom⟩ := commitSettle_spec (s := counted s) stOk 0 0
  have hanswered : (commitDone s start).com = answeredCom s.com := by
    rw [hdone, State.modCom_com, hcom]
    rfl
  unfold commitOk
  rw [if_neg (by simp [hanswered, answeredCom]), hanswered, hdone]
  rfl

/-- Objects that the record of an applied commit writes. -/
def recordKeys : List Nat := [Ob.Com.COMMIT_COUNT.key, Ob.Com.LAST_APPLY_TIME.key, Ob.Com.LAST_APPLY_CYCLE.key, Ob.Sb.TAG_IN_FORCE.key] ++ resultKeys

theorem recorded_spec :
    let u := recorded s
    u.com.phase = 0 ∧ u.staged = [] ∧ u.com.owed = s.com.owed ∧ u.get Ob.Com.LAST_RESULT = stOk ∧
      u.get Ob.Com.COMMIT_COUNT = satInc 32 (s.get Ob.Com.COMMIT_COUNT) ∧ u.get Ob.Com.LAST_APPLY_TIME = s.com.applyAt ∧
      u.get Ob.Sb.TAG_IN_FORCE = s.com.tag ∧ Paperwork recordKeys s u := by
  intro u
  obtain ⟨hresult, -, -, hcom⟩ := commitSettle_spec (s := counted s) stOk 0 0
  have hbook : Paperwork resultKeys (counted s) u := (paperwork_modCom _).2 (commitSettle_paperwork stOk 0 0)
  have hcounted : Paperwork recordKeys s (counted s) := by simp +decide [counted]
  have howed := congrArg CommitRt.owed hcom
  refine ⟨rfl, commitSettle_staged_of_ok 0 0, howed, hresult, (hbook.get (by decide)).trans ?_, (hbook.get (by decide)).trans ?_,
    (hbook.get (by decide)).trans ?_, hcounted.trans (hbook.mono (List.subset_append_right _ _))⟩
  · simp +decide [counted, State.get_set, State.get_count]
    rfl
  · simp +decide [counted, State.get_set]
  · simp +decide [counted]

/-! ### The answer -/

theorem Sent.commitBody (h : Sent s u) (tag : Nat) : commitBody u tag = commitBody s tag := by simp only [Machine.commitBody, State.nat, h.get]

/-- The reply of a Linli COMMIT goes out at once over Ethernet where no standby has to acknowledge it (R120, R132). -/
theorem commitReplies_head {k : CommitRt} {status tag : Nat} (hvia : k.viaObject = false) (hstart : k.startup = false) (hopen : sessOpen s k.sess = true)
    (htoken : (s.sess k.sess).token = k.token) (hpath : k.path.via < 2) (hpair : s.flag Ob.PairC.PAIR_ENABLE = false) (hrole : s.get Ob.Pair.ROLE = 0) :
    (commitReplies s k status tag).out.head? = some (.linli k.path (linliBytes 0x12 k.sess k.seqNo status k.token (commitBody s tag))) := by
  have hwaits (w : State) (x : Nat) (h : w.od = s.od) : waitsForStandby w x = false := by
    have hflag : w.flag Ob.PairC.PAIR_ENABLE = false := by
      rw [State.flag, get_congr (s := s) (by rw [h])]
      exact hpair
    simp [waitsForStandby, mirroring, hflag]
  have hserves (w : State) (h : w.od = s.od) : notActive w = false := by
    have hget : w.get Ob.Pair.ROLE = 0 := (get_congr (by rw [h])).trans hrole
    simp [notActive, hget]
  unfold commitReplies
  rw [if_neg (by simp [hvia, hstart, hopen, htoken])]
  dsimp only
  rw [hserves (keepReply ..) rfl, Bool.false_and, if_neg Bool.false_ne_true, replyTo, hwaits (keepReply ..) _ rfl, if_neg Bool.false_ne_true, sendReply, if_pos hpath]
  rfl

/-! ### COMMIT_REPLY -/

theorem exec_commitReply (hrun : unitRuns s = true) {t c : Nat}
    (hc : cycleOfDeadline ((s.at t).tcyc (s.at t).localRing) ((s.at t).woff (s.at t).localRing) t = some c) :
    exec (.commitReply t) s = .next (commitOk (commitDone (s.at t) c)) := by
  refine (whileOn_runs hrun).trans ?_
  rw [hc]

/-- `u` shows the commit applied: counted and recorded, its staged copy emptied, its later shares still owed (R115, R120). -/
def CommitApplied (s u : State) : Prop :=
  u.com.phase = 0 ∧ u.staged = [] ∧ u.com.owed = s.com.owed ∧ u.get Ob.Com.LAST_RESULT = stOk ∧ u.get Ob.Com.COMMIT_COUNT = satInc 32 (s.get Ob.Com.COMMIT_COUNT) ∧
    u.get Ob.Com.LAST_APPLY_TIME = s.com.applyAt ∧ u.get Ob.Sb.TAG_IN_FORCE = s.com.tag ∧ (∀ q, u.axis q = s.axis q) ∧ BytesKept s u

theorem Sent.commitApplied {t : Nat} (h : Sent (recorded (s.at t)) u) : CommitApplied s u := by
  obtain ⟨hphase, hstaged, howed, hresult, hcount, htime, htag, hbook⟩ := recorded_spec (s := s.at t)
  unfold CommitApplied
  rw [h.com, h.staged, h.get, h.get, h.get, h.get, hphase, hstaged, howed, hresult, hcount, htime, htag]
  have hkept := (hbook.trans h.paperwork).kept_at
  simpa using hkept

/-- Recording leaves the sessions: what the standby is told goes out in messages (R150). -/
theorem recorded_host : (recorded s).host = s.host := by
  have hcounted : (counted s).host = s.host := rfl
  rw [recorded, commitSettle_eq]
  simp [commitOver, resultLogged_host, hcounted]

theorem recorded_sessOpen {k : Nat} (h : sessOpen s k = true) : sessOpen (recorded s) k = true := by
  have hkeys : ∀ i < 16, Ob.Sess.STATE.key i ∉ recordKeys := by decide
  obtain ⟨-, -, -, -, -, -, -, hbook⟩ := recorded_spec (s := s)
  simp only [sessOpen, Bool.and_eq_true, decide_eq_true_eq] at h ⊢
  exact ⟨h.1, (hbook.get (hkeys k h.1)).trans h.2⟩

/-- An applied commit of a Linli session is answered OK with its tag (R120). -/
theorem commitOk_head {t c : Nat} (h : OutcomeDue (s.at t) c) (hvia : s.com.viaObject = false) (hstart : s.com.startup = false)
    (hopen : sessOpen s s.com.sess = true) (htoken : (s.sess s.com.sess).token = s.com.token) (hpath : s.com.path.via < 2)
    (hpair : s.flag Ob.PairC.PAIR_ENABLE = false) (hrole : s.get Ob.Pair.ROLE = 0) :
    let u := commitOk (commitDone (s.at t) c)
    u.out.head? = some (.linli s.com.path (linliBytes 0x12 s.com.sess s.com.seqNo stOk s.com.token (commitBody u s.com.tag))) := by
  obtain ⟨-, -, -, -, -, -, -, hbook⟩ := recorded_spec (s := s.at t)
  have hopen' : sessOpen (recorded (s.at t)) s.com.sess = true := recorded_sessOpen (by simpa [sessOpen] using hopen)
  have htoken' : ((recorded (s.at t)).sess s.com.sess).token = s.com.token := by
    rw [State.sess, recorded_host, State.at_host]
    exact htoken
  have hpair' : (recorded (s.at t)).flag Ob.PairC.PAIR_ENABLE = false := by
    rw [State.flag, hbook.get (by decide), State.at_get]
    exact hpair
  have hrole' : (recorded (s.at t)).get Ob.Pair.ROLE = 0 := by rw [hbook.get (by decide), State.at_get, hrole]
  dsimp only
  rw [commitOk_commitDone h, (sent_commitReplies _ stOk _).commitBody, State.at_com]
  exact commitReplies_head (k := answeredCom s.com) hvia hstart hopen' htoken' hpath hpair' hrole'

end Sys2Proof.Machine
end

