-- ==== Sys2Proof/Proofs/CommitShare.lean ====
section
/-! A share that holds ELECTION_HOLD comes into force at a whistle (R115, R119), and O32. -/

namespace Sys2Proof.Machine

variable {s u old : State}

/-! ### Objects that do not differ -/

theorem forBelow_of_fixed_below {f : Nat → State → State} {n : Nat} (h : ∀ i, i < n → f i s = s) : forBelow n f s = s :=
  List.foldlRecOn (motive := fun w => w = s) _ _ rfl fun w hw i hi => by rw [hw, h i (List.mem_range.1 hi)]

theorem bytes_congr {o : Obj} {i j k : Nat} (h : SMap.get? u.od (o.key i j k) = SMap.get? s.od (o.key i j k)) : u.bytes o i j k = s.bytes o i j k := by
  simp only [State.bytes, h]

theorem differs_of_kept {keys : List Nat} (h : ObjectsKept keys old s) {o : Obj} {a : Nat} (ho : o.key a ∉ keys) : differs old s o a = false := by
  have hget : s.get o a = old.get o a := get_congr (h _ ho)
  simp [differs, hget]

/-! ### The share of ELECTION_HOLD -/

/-- One entry for ELECTION_HOLD. -/
def holdShare (v : Int) : List Staged := [{ key := Ob.Poss.ELECTION_HOLD.key, val := .num v }]

/-- What the share changes before anything is derived from it: the object itself and the counts of user blocks. -/
def holdKeys : List Nat := [Ob.Poss.ELECTION_HOLD.key, Ob.AceC.USER_CODE_USED.key, Ob.AceC.USER_DATA_USED.key]

theorem objectsKept_put1 {keys : List Nat} {o : Obj} {i j k : Nat} (h : ObjectsKept keys old s) (ho : o.key i j k ∈ keys) (x : Int) :
    ObjectsKept keys old (s.put1 o x i j k) := by
  intro n hn
  have hne : n ≠ o.key i j k := fun he => hn (he ▸ ho)
  rw [put1_od_ne _ _ _ _ _ _ hne]
  exact h n hn

/-- The counts of the user blocks brought up to date. -/
def blocksCounted (s : State) : State :=
  let s := s.put1 Ob.AceC.USER_CODE_USED ((List.range 32).map fun u => (s.bytes Ob.Ub.CODE u).length).sum
  s.put1 Ob.AceC.USER_DATA_USED ((List.range 32).map fun u => (s.bytes Ob.Ub.DATA u).length).sum

theorem applyBlocks_of_kept (h : ObjectsKept holdKeys old s) : applyBlocks old s = blocksCounted s := by
  have hcode : ∀ i < 32, Ob.Ub.CODE.key i ∉ holdKeys := by decide
  have hdata : ∀ i < 32, Ob.Ub.DATA.key i ∉ holdKeys := by decide
  unfold applyBlocks
  rw [forBelow_of_fixed_below fun i hi => by
    simp [bytes_congr (h _ (hcode i hi)), bytes_congr (h _ (hdata i hi))]]
  rfl

theorem applyMasters_of_kept (h : ObjectsKept holdKeys old s) (tA : Nat) : applyMasters old s tA = s := by
  have hkeys : ∀ i < 8, Ob.Mst.VM_VELOCITY.key i ∉ holdKeys ∧ Ob.Mst.VM_ACC.key i ∉ holdKeys ∧ Ob.Mst.VM_JERK.key i ∉ holdKeys := by decide
  refine forBelow_of_fixed_below fun i hi => ?_
  obtain ⟨hvel, hacc, hjerk⟩ := hkeys i hi
  simp [differs_of_kept h hvel, differs_of_kept h hacc, differs_of_kept h hjerk]

theorem applyUnits_of_kept (h : ObjectsKept holdKeys old s) : applyUnits old s = s := by
  have hkeys : ∀ i < 12, Ob.Fb.MODE.key (fbIx i) ∉ holdKeys := by decide
  refine forBelow_of_fixed_below fun i hi => ?_
  have hmode : unitMode s i = unitMode old i := get_congr (h _ (hkeys i hi))
  simp [hmode]

theorem applyPorts_of_kept (h : ObjectsKept holdKeys old s) : applyPorts old s = s := by
  have hkeys : ∀ i < 8, Ob.Port.FUNCTION.key i ∉ holdKeys := by decide
  refine forBelow_of_fixed_below fun i hi => ?_
  simp [differs_of_kept h (hkeys i hi)]

theorem idleOutputs_of_kept (h : ObjectsKept holdKeys old s) : idleOutputs old s = s := by
  have hkeys : ∀ i < 8, Ob.Ttp.TARGET.key i ∉ holdKeys ∧ Ob.Ttp.POLARITY.key i ∉ holdKeys ∧ Ob.Cmp.TARGET.key i ∉ holdKeys ∧ Ob.Cmp.POLARITY.key i ∉ holdKeys := by
    decide
  refine forBelow_of_fixed_below fun i hi => ?_
  obtain ⟨hpulse, hpulseLevel, hcmp, hcmpLevel⟩ := hkeys i hi
  simp [differs_of_kept h hpulse, differs_of_kept h hpulseLevel, differs_of_kept h hcmp, differs_of_kept h hcmpLevel]

theorem publishCams_holdShare (v : Int) : publishCams old s (holdShare v) = s := by
  have htouched : ((List.range 1024).filter fun c => writes (holdShare v) (Ob.Cam.SEGMENTS.key c) || writes (holdShare v) (Ob.Cam.COEF_SHIFT.key c)) = [] := by
    have hsegments (c : Nat) : Ob.Poss.ELECTION_HOLD.key ≠ Ob.Cam.SEGMENTS.key c := ne_of_lt (lt_of_lt_of_le (by decide) (Obj.base_sub_le_key ..))
    have hshift (c : Nat) : Ob.Poss.ELECTION_HOLD.key ≠ Ob.Cam.COEF_SHIFT.key c := ne_of_lt (lt_of_lt_of_le (by decide) (Obj.base_sub_le_key ..))
    simp [writes, holdShare, hsegments, hshift]
  unfold publishCams
  dsimp only
  rw [htouched]
  rfl

theorem axesTouched_holdShare (v : Int) : axesTouched (holdShare v) = [] := by
  have haxis : axisOfKey Ob.Poss.ELECTION_HOLD.key = none := by decide
  simp [axesTouched, holdShare, haxis]

/-- The object in force, with the counts of the user blocks: the share's values before what is derived from them. -/
def holdInForce (s : State) (v : Int) : State := blocksCounted (withEntries s (holdShare v))

theorem objectsKept_withEntries_holdShare (v : Int) : ObjectsKept holdKeys s (withEntries s (holdShare v)) := by
  intro k hk
  have hne : k ≠ Ob.Poss.ELECTION_HOLD.key := fun he => hk (he ▸ List.mem_cons_self)
  change SMap.get? (s.putVal Ob.Poss.ELECTION_HOLD.key (.num v)).od k = _
  rw [State.putVal_od, SMap.get?_put, if_neg hne]

theorem objectsKept_holdInForce (v : Int) : ObjectsKept holdKeys s (holdInForce s v) :=
  objectsKept_put1 (objectsKept_put1 (objectsKept_withEntries_holdShare v) (by decide) _) (by decide) _

/-- The share of ELECTION_HOLD sets its object; no axis, master, unit, port or cam starts anew. -/
theorem applyShare_holdShare (s : State) (v : Int) (a tA : Nat) : applyShare s (holdShare v) a tA = publishDerived (holdInForce s v) := by
  have hgo : Ob.Poss.ELECTION_HOLD.key ≠ Ob.Inj.INJ_GO.key := by decide
  have hstop : Ob.Poss.ELECTION_HOLD.key ≠ Ob.Inj.INJ_STOP.key := by decide
  have hrow : ((rowOf Ob.Poss.ELECTION_HOLD.key).any fun o => decide (o.acc = .saf)) = false := by decide +kernel
  have hsaf : ((holdShare v).any fun e => (rowOf e.key).any fun o => decide (o.acc = .saf)) = false := by simp [holdShare, hrow]
  have hkept := objectsKept_holdInForce (s := s) v
  have hblocks : applyBlocks s (withEntries s (holdShare v)) = holdInForce s v := applyBlocks_of_kept (objectsKept_withEntries_holdShare v)
  unfold applyShare
  dsimp only
  rw [hblocks, applyMasters_of_kept hkept, applyUnits_of_kept hkept, applyPorts_of_kept hkept, idleOutputs_of_kept hkept, axesTouched_holdShare,
    publishCams_holdShare, hsaf]
  simp [applyInjection, writes, holdShare, hgo, hstop, forList]

/-! ### What is derived from the share -/

/-- `u` differs from `s` in objects alone, and not in ELECTION_HOLD. -/
structure Derived (s u : State) : Prop where
  hold : SMap.get? u.od Ob.Poss.ELECTION_HOLD.key = SMap.get? s.od Ob.Poss.ELECTION_HOLD.key
  rest : { u with od := s.od } = s

variable {v : State}

@[simp] theorem Derived.refl : Derived s s := ⟨rfl, rfl⟩

theorem Derived.trans (h : Derived s u) (g : Derived u v) : Derived s v where
  hold := g.hold.trans h.hold
  rest := by
    have hr := h.rest
    rw [← g.rest] at hr
    exact hr

theorem Derived.symm (h : Derived s u) : Derived u s where
  hold := h.hold.symm
  rest := by
    conv_lhs => rw [← h.rest]

/-- A further derived object changes nothing of what is kept. -/
theorem Derived.step (g : Derived u v) : Derived s v ↔ Derived s u := ⟨fun h => h.trans g.symm, fun h => h.trans g⟩

@[simp] theorem derived_ite (c : Prop) [Decidable c] : Derived s (if c then u else v) ↔ (c → Derived s u) ∧ (¬c → Derived s v) := by
  by_cases h : c <;> simp [h]

@[simp] theorem derived_forBelow {f : Nat → State → State} (hf : ∀ i u, Derived u (f i u)) (n : Nat) : Derived s (forBelow n f u) ↔ Derived s u :=
  Derived.step (List.foldlRecOn (motive := Derived u) _ _ Derived.refl fun w hw i _ => hw.trans (hf i w))

@[simp] theorem derived_set {o : Obj} (ho : Ob.Poss.ELECTION_HOLD.key < o.base * 256 + o.sub) (x : Int) (i j k : Nat) : Derived s (u.set o x i j k) ↔ Derived s u := by
  have hne : Ob.Poss.ELECTION_HOLD.key ≠ o.key i j k := ne_of_lt (lt_of_lt_of_le ho (o.base_sub_le_key i j k))
  exact Derived.step ⟨State.set_od_ne _ _ _ _ _ _ _ hne, rfl⟩

@[simp] theorem derived_put1 {o : Obj} (ho : Ob.Poss.ELECTION_HOLD.key < o.base * 256 + o.sub) (x : Int) (i j k : Nat) : Derived s (u.put1 o x i j k) ↔ Derived s u :=
  Derived.step (by simp [State.put1, ho])

theorem derived_blocksCounted : Derived s (blocksCounted s) := (derived_put1 (by decide) ..).2 ((derived_put1 (by decide) ..).2 .refl)

theorem derived_publishDerived : Derived s (publishDerived s) := by
  have hvalid (r : Nat) (u : State) : Derived u (forBelow 8 (fun sc s => s.put1 Ob.Sched.VALID (bitAt (rateOk s r sc) 0) r sc) u) := by simp +decide
  simp +decide [publishDerived, publishTimed, hvalid]

/-- Only objects differ once the share is in force, and ELECTION_HOLD holds its value. -/
structure HoldSet (v : Int) (s u : State) : Prop where
  hold : SMap.get? u.od Ob.Poss.ELECTION_HOLD.key = some (.num v)
  rest : { u with od := s.od } = s

theorem applyShare_holdSet (s : State) (x : Int) (a tA : Nat) : HoldSet x s (applyShare s (holdShare x) a tA) := by
  have hset : HoldSet x s (withEntries s (holdShare x)) := by
    refine ⟨?_, rfl⟩
    change SMap.get? (s.putVal Ob.Poss.ELECTION_HOLD.key (.num x)).od _ = _
    simp
  have hderived : Derived (withEntries s (holdShare x)) (applyShare s (holdShare x) a tA) := by
    rw [applyShare_holdShare]
    exact derived_blocksCounted.trans derived_publishDerived
  refine ⟨hderived.hold.trans hset.hold, ?_⟩
  have hr := hset.rest
  rw [← hderived.rest] at hr
  exact hr

/-- Several shares of the one object come into force one after the other. -/
theorem forList_applyShare_holdSet {x : Int} {t : Nat} {l : List (Nat × Nat × List Staged)} (hl : ∀ o ∈ l, o.2.2 = holdShare x) (hne : l ≠ []) (s : State) :
    HoldSet x s (forList l (fun o s => applyShare s o.2.2 o.2.1 t) s) := by
  obtain ⟨o, l, rfl⟩ := List.exists_cons_of_ne_nil hne
  obtain ⟨ho, hrest⟩ := List.forall_mem_cons.1 hl
  have hfirst : HoldSet x s (applyShare s o.2.2 o.2.1 t) := ho ▸ applyShare_holdSet s x _ _
  refine List.foldlRecOn (motive := HoldSet x s) l _ hfirst fun w hw o' ho' => ?_
  have hnext : HoldSet x w (applyShare w o'.2.2 o'.2.1 t) := hrest o' ho' ▸ applyShare_holdSet w x _ _
  refine ⟨hnext.hold, ?_⟩
  have hr := hw.rest
  rw [← hnext.rest] at hr
  exact hr

/-! ### The whistle -/

/-- The shares `due` that come into force hold ELECTION_HOLD alone: the others stay owed, and the commit is APPLYING (R115, assumption log 28). -/
theorem applyOwed_holdSet {x : Int} {t : Nat} {f : Nat × Nat × List Staged → Bool} (hphase : s.com.phase = 3) (hdue : ∀ o ∈ s.com.owed, f o = true → o.2.2 = holdShare x)
    (hsome : ∃ o ∈ s.com.owed, f o = true) :
    let u := applyOwed s f t
    u.com.owed = s.com.owed.filter (fun o => !f o) ∧ u.com.phase = 4 ∧ u.get Ob.Com.COMMIT_STATE = 4 ∧ u.get Ob.Poss.ELECTION_HOLD = x ∧ u.staged = s.staged := by
  obtain ⟨o, ho, hfo⟩ := hsome
  have hmem : o ∈ s.com.owed.filter f := List.mem_filter.2 ⟨ho, hfo⟩
  have hne : s.com.owed.filter f ≠ [] := List.ne_nil_of_mem hmem
  have hshares : ∀ o ∈ s.com.owed.filter f, o.2.2 = holdShare x := fun o ho => hdue o (List.mem_filter.1 ho).1 (List.mem_filter.1 ho).2
  have hset := forList_applyShare_holdSet (t := t) hshares hne (s.modCom fun k => { k with owed := k.owed.filter fun o => !f o })
  unfold applyOwed
  dsimp only
  rw [if_neg (by simpa using hne)]
  generalize forList (s.com.owed.filter f) _ _ = w at *
  have hcom : w.com = { s.com with owed := s.com.owed.filter fun o => !f o } := by simpa using congrArg State.com hset.rest
  have hstaged : w.staged = s.staged := by simpa using congrArg State.staged hset.rest
  have hhold : w.get Ob.Poss.ELECTION_HOLD = x := by simp [State.get, State.numAt, hset.hold]
  have hphase' : w.com.phase = 3 := by rw [hcom, hphase]
  rw [if_pos hphase']
  refine ⟨congrArg CommitRt.owed hcom, rfl, by simp, ?_, hstaged⟩
  rw [State.get_set_ne _ _ _ _ _ _ _ _ _ _ (by decide)]
  exact hhold

/-- `u` differs from `s` in axes and rings alone. -/
def Beside (s u : State) : Prop := { u with axes := s.axes, rings := s.rings } = s

theorem Beside.trans (h : Beside s u) (g : Beside u v) : Beside s v := by
  unfold Beside at h
  rw [← g] at h
  exact h

theorem Beside.com (h : Beside s u) : u.com = s.com := by simpa using congrArg State.com h
theorem Beside.staged (h : Beside s u) : u.staged = s.staged := by simpa using congrArg State.staged h
theorem Beside.get (h : Beside s u) (o : Obj) : u.get o = s.get o := get_congr (by rw [show u.od = s.od by simpa using congrArg State.od h])

theorem beside_viewAhead {r c t : Nat} (h : owedLocal s c = []) : Beside s (viewAhead s r c t) := by
  unfold viewAhead
  rw [h]
  dsimp only
  split <;> rfl

theorem beside_applyAreas (old new : State) (a : Nat) : Beside s (applyAreas old new s a) := by
  unfold applyAreas
  dsimp only
  split <;> rfl

/-- The shares due at the whistle of ring `r` of the cycle that starts at `c` (R115). -/
def dueAt (s : State) (r c : Nat) (o : Nat × Nat × List Staged) : Bool :=
  decide (o.2.1 ≤ c) && ((decide (o.1 = r) && s.inPlay r) || (decide (r = s.localRing) && (decide (o.1 = 4) || !s.inPlay o.1)))

/-- Where no share of the local units is due, a whistle beside its shares touches axes' state areas and rings alone (R119, R278). -/
theorem beside_commitWhistle {r c t : Nat} (hsome : ∃ o ∈ s.com.owed, o.2.1 ≤ c) (hlocal : owedLocal s c = [])
    (hafter : owedLocal (applyOwed s (dueAt s r c) t) c = []) : Beside (applyOwed s (dueAt s r c) t) (commitWhistle s r c t) := by
  have hany : (s.com.owed.any fun o => decide (o.2.1 ≤ c)) = true := by simpa using hsome
  unfold commitWhistle
  extract_lets old isLocal due loc applied viewed before after mine areas
  rw [if_neg (by simp [hany])]
  have hloc : loc = [] := hlocal
  have hviewed : Beside (applyOwed s (dueAt s r c) t) viewed := by
    unfold viewed
    rw [hloc]
    split
    · rfl
    · exact beside_viewAhead hafter
  have hareas : Beside viewed areas := forList_keeps (P := Beside viewed) _ _ _ rfl fun a u hu => hu.trans (beside_applyAreas _ _ a)
  split
  · exact (hviewed.trans hareas).trans rfl
  · exact hviewed.trans hareas

theorem exec_commitApply (hrun : unitRuns s = true) {r t c : Nat} (hc : cycleOfWhistle ((s.at t).tcyc r) ((s.at t).woff r) t = some c) :
    exec (.commitApply r t) s = .next (commitWhistle (s.at t) r c t) := by
  refine (whileOn_runs hrun).trans ?_
  rw [hc]

/-- A share of ELECTION_HOLD due at the whistle of its ring, and no other share due there (R115, R118). -/
structure HoldDue (s : State) (r c : Nat) (o : Nat × Nat × List Staged) (x : Int) : Prop where
  ring : r < 4
  play : s.inPlay r = true
  phase : s.com.phase = 3
  owed : o ∈ s.com.owed
  mine : o.1 = r
  due : o.2.1 ≤ c
  alone : ∀ o' ∈ s.com.owed, o' = o ∨ c < o'.2.1
  share : o.2.2 = holdShare x

theorem commitWhistle_spec {r c t : Nat} {o : Nat × Nat × List Staged} {x : Int} (h : HoldDue s r c o x) :
    let u := commitWhistle s r c t
    u.com.owed = s.com.owed.filter (fun o' => decide (c < o'.2.1)) ∧ u.com.phase = 4 ∧ u.get Ob.Com.COMMIT_STATE = 4 ∧ u.get Ob.Poss.ELECTION_HOLD = x ∧
      u.staged = s.staged := by
  obtain ⟨hring, hplay, hphase, howed, hmine, hdue, halone, hshare⟩ := h
  have hdueAt : ∀ o' ∈ s.com.owed, dueAt s r c o' = !decide (c < o'.2.1) := by
    intro o' ho'
    rcases halone o' ho' with rfl | hlater
    · simp [dueAt, hdue, hmine, hplay]
    · simp [dueAt, hlater]
  have hfilter : s.com.owed.filter (fun o' => !dueAt s r c o') = s.com.owed.filter (fun o' => decide (c < o'.2.1)) :=
    List.filter_congr fun o' ho' => by simp [hdueAt o' ho']
  obtain ⟨hleft, hphase', hstate, hhold, hstaged⟩ := applyOwed_holdSet (t := t) (f := dueAt s r c) hphase
    (fun o' ho' hd => by
      rcases halone o' ho' with rfl | hlater
      · exact hshare
      · simp [hdueAt o' ho', hlater] at hd)
    ⟨o, howed, by simpa [hdueAt o howed] using hdue⟩
  have hlocal : owedLocal s c = [] := by
    refine List.filter_eq_nil_iff.2 fun o' ho' hd => ?_
    obtain ⟨hunits, hd⟩ := of_decide_eq_true hd
    rcases halone o' ho' with rfl | hlater <;> omega
  have hafter : owedLocal (applyOwed s (dueAt s r c) t) c = [] := by
    refine List.filter_eq_nil_iff.2 fun o' ho' hd => ?_
    rw [hleft, hfilter] at ho'
    have hlater := of_decide_eq_true (List.mem_filter.1 ho').2
    have hd := (of_decide_eq_true hd).2
    omega
  have hbeside := beside_commitWhistle (r := r) (t := t) ⟨o, howed, hdue⟩ hlocal hafter
  intro u
  rw [hbeside.com, hbeside.get, hbeside.get, hbeside.staged, ← hfilter]
  exact ⟨hleft, hphase', hstate, hhold, hstaged⟩

end Sys2Proof.Machine

open Sys2Proof Sys2Proof.Machine

/-- Settles O32: one lemma for each outcome of admission, decision, whistle and t_D; what it leaves of axes and bytes is `Paperwork`. -/
theorem commitIsAdmittedDecidedAppliedAndAnswered : Obligations.CommitIsAdmittedDecidedAppliedAndAnswered := by
  unfold Obligations.CommitIsAdmittedDecidedAppliedAndAnswered
  intro s r t c hrun a p blocks kept rejected
  have hdiscard : a.com.discardAfter = s.com.discardAfter := by rw [State.at_com]
  refine ⟨?admission, ?decision, ?whistle, ?outcome⟩
  case admission =>
    intro hphase hactive hdeadline hvalid hsent
    have h : Admissible a c := ⟨hphase, hactive, hdeadline, hvalid, hsent⟩
    simp only [answers_iff (exec_commitAdmission hrun t), rejected, hdiscard]
    exact ⟨commitAdmit_without_blocks h, commitAdmit_with_blocks h, commitAdmit_beyond h⟩
  case decision =>
    intro hphase hactive hdeadline
    have h : DecisionDue a := ⟨hphase, hactive, hdeadline⟩
    simp only [answers_iff (exec_commitDecision hrun t), rejected, hdiscard]
    exact ⟨commitDecide_confirms h, commitDecide_rejects h⟩
  case whistle =>
    intro o x hring howed hmine hplay hcycle hdue hphase halone hshare
    rw [answers_iff (exec_commitApply hrun hcycle)]
    obtain ⟨hleft, hphase, hstate, hhold, hstaged⟩ := commitWhistle_spec (t := t) ⟨hring, hplay, hphase, howed, hmine, hdue, halone, hshare⟩
    exact ⟨hleft, hphase, hstate, hhold, hstaged.trans (State.at_staged ..)⟩
  case outcome =>
    intro hphase hcycle hdue hlater
    have h : OutcomeDue a c := ⟨hphase, hdue, hlater⟩
    have happlied : CommitApplied s (commitOk (commitDone a c)) := commitOk_commitDone h ▸ (sent_commitReplies _ _ _).commitApplied
    simp only [answers_iff (exec_commitReply hrun hcycle), a, State.at_com]
    exact ⟨happlied, fun hvia hstart hopen htoken hpath hpair hrole => ⟨happlied, commitOk_head h hvia hstart hopen htoken hpath hpair hrole⟩⟩
end

