-- ==== Sys2Proof/Proofs/TimeFrame.lean ====
section
/-! What the operations of the time base leave unchanged: everything but objects of a list, time, free values, what is sent and the field die. -/

namespace Sys2Proof.Machine

/-- `u` differs from `s` at most in the objects of the list, machine time, the time base, free values drawn, what is sent and the field die. -/
structure Timing (keys : List Nat) (s u : State) : Prop where
  od : ObjectsKept keys s u
  rest : { u with od := s.od, now := s.now, frac := s.frac, free := s.free, out := s.out, time := s.time, field := s.field } = s

variable {keys : List Nat} {s u v : State}

@[simp] theorem Timing.refl : Timing keys s s := ⟨fun _ _ => rfl, rfl⟩

theorem Timing.trans (h : Timing keys s u) (g : Timing keys u v) : Timing keys s v where
  od k hk := (g.od k hk).trans (h.od k hk)
  rest := by
    have hr := h.rest
    rw [← g.rest] at hr
    exact hr

theorem Timing.symm (h : Timing keys s u) : Timing keys u s where
  od k hk := (h.od k hk).symm
  rest := by
    conv_lhs => rw [← h.rest]

/-- A further operation of the time base changes nothing of what is kept. -/
theorem Timing.step (g : Timing keys u v) : Timing keys s v ↔ Timing keys s u := ⟨fun h => h.trans g.symm, fun h => h.trans g⟩

theorem Timing.mono {keys' : List Nat} (h : Timing keys s u) (hsub : keys ⊆ keys') : Timing keys' s u := ⟨fun k hk => h.od k fun hm => hk (hsub hm), h.rest⟩

theorem Timing.axesKept (h : Timing keys s u) : AxesKept [] s u := by
  have haxes : u.axes = s.axes := by simpa using congrArg State.axes h.rest
  intro a _
  rw [State.axis, haxes]
  rfl

theorem Timing.axis (h : Timing keys s u) (a : Nat) : u.axis a = s.axis a := h.axesKept a List.not_mem_nil

theorem Timing.bytesKept (h : Timing keys s u) : BytesKept s u := by
  have hshared : u.shared = s.shared := by simpa using congrArg State.shared h.rest
  have hucode : u.ucode = s.ucode := by simpa using congrArg State.ucode h.rest
  have haces : u.aces = s.aces := by simpa using congrArg State.aces h.rest
  intro a
  simp only [State.ace, hshared, hucode, haces]
  exact ⟨trivial, trivial, fun _ => trivial⟩

@[simp] theorem timing_putVal {k : Nat} (hk : k ∈ keys) (x : Val) : Timing keys s (u.putVal k x) ↔ Timing keys s u :=
  Timing.step ⟨fun n hn => by rw [State.putVal_od, SMap.get?_put, if_neg fun h : n = k => hn (h ▸ hk)], rfl⟩
@[simp] theorem timing_set {o : Obj} {i j k : Nat} (ho : o.key i j k ∈ keys) (x : Int) : Timing keys s (u.set o x i j k) ↔ Timing keys s u := timing_putVal ho _
@[simp] theorem timing_setBytes {o : Obj} {i j k : Nat} (ho : o.key i j k ∈ keys) (b : List Byte) : Timing keys s (u.setBytes o b i j k) ↔ Timing keys s u :=
  timing_putVal ho _
@[simp] theorem timing_count {o : Obj} {i j k : Nat} (ho : o.key i j k ∈ keys) (n : Int) : Timing keys s (u.count o i j k n) ↔ Timing keys s u := timing_set ho _
@[simp] theorem timing_wrapInc {o : Obj} {i j k : Nat} (ho : o.key i j k ∈ keys) : Timing keys s (u.wrapInc o i j k) ↔ Timing keys s u := timing_set ho _
@[simp] theorem timing_at (t : Nat) : Timing keys s (u.at t) ↔ Timing keys s u :=
  Timing.step ⟨fun _ _ => by rw [State.at_od], by unfold State.at; split <;> rfl⟩
@[simp] theorem timing_modPtp (f : PtpRt → PtpRt) : Timing keys s (u.modPtp f) ↔ Timing keys s u := Timing.step ⟨fun _ _ => rfl, rfl⟩
@[simp] theorem timing_emit (m : Msg) : Timing keys s (u.emit m) ↔ Timing keys s u := Timing.step ⟨fun _ _ => rfl, rfl⟩
@[simp] theorem timing_warn (x y z : Nat) : Timing keys s (u.warn x y z) ↔ Timing keys s u := timing_emit _
@[simp] theorem timing_withTime (x : TimeRt) : Timing keys s { u with time := x } ↔ Timing keys s u := Timing.step ⟨fun _ _ => rfl, rfl⟩
@[simp] theorem timing_withFree (n : Nat) : Timing keys s { u with free := n } ↔ Timing keys s u := Timing.step ⟨fun _ _ => rfl, rfl⟩

/-- The same from the instant of a command. -/
@[simp] theorem timing_from_at (t : Nat) : Timing keys (s.at t) u ↔ Timing keys s u :=
  have h : Timing keys s (s.at t) := by simp
  ⟨h.trans, h.symm.trans⟩

@[simp] theorem modPtp_time (f : PtpRt → PtpRt) : (s.modPtp f).time = { s.time with ptp := f s.time.ptp } := rfl

/-! ### Readings at the instant of a command -/

variable (t : Nat)

@[simp] theorem at_ptpMine (port dom : Nat) : ptpMine (s.at t) port dom = ptpMine s port dom := by simp [ptpMine]
@[simp] theorem at_ptpParent (port dom src : Nat) : ptpParent (s.at t) port dom src = ptpParent s port dom src := by simp [ptpParent]
@[simp] theorem at_rxLat (port : Nat) : rxLat (s.at t) port = rxLat s port := by simp [rxLat]
@[simp] theorem at_txLat (port : Nat) : txLat (s.at t) port = txLat s port := by simp [txLat]
@[simp] theorem at_ptpOwn : ptpOwn (s.at t) = ptpOwn s := by simp [ptpOwn]
@[simp] theorem at_ringsUp : ringsUp (s.at t) = ringsUp s := by simp [ringsUp]
@[simp] theorem at_ttp (c : Nat) : (s.at t).ttp c = s.ttp c := by simp [State.ttp]
@[simp] theorem at_tlat (l : Nat) : (s.at t).tlat l = s.tlat l := by simp [State.tlat]
@[simp] theorem at_ttpLevel (c : Nat) (pulse : Bool) : ttpLevel (s.at t) c pulse = ttpLevel s c pulse := by simp [ttpLevel]

end Sys2Proof.Machine
end

