-- ==== Sys2Proof/Proofs/FrontCommand.lean ====
section
/-! The tick of the time base (R79), and O1. -/

namespace Sys2Proof.Machine

variable {s : State}

/-- In reset the time base stands still (R79). -/
theorem tick_of_held (h : s.boot.held ≠ 0) : tick s = s := by simp [tick, h]

theorem sent_benchSend (kind : Nat) (fields : List Int) : Sent s (benchSend s kind fields) := by
  unfold benchSend
  split <;> rfl

theorem sent_sendTime (t : Nat) : Sent s (sendTime s t) := by
  unfold sendTime
  split
  · rfl
  · exact sent_benchSend _ _

theorem Sent.now {u : State} (h : Sent s u) : u.now = s.now := by simpa using congrArg State.now h
theorem Sent.frac {u : State} (h : Sent s u) : u.frac = s.frac := by simpa using congrArg State.frac h

/-- An undisciplined tick is one nanosecond (R79). -/
theorem tick_undisciplined (hoff : s.boot.off = false) (hstandby : s.boot.standby = false) (hheld : s.boot.held = 0) (hrate : s.get Ob.Clk.RATE_ADJ = 0)
    (hfrac : s.frac = 0) : (tick s).now = s.now + 1 ∧ (tick s).frac = 0 := by
  have htick : tick s = sendTime { s with now := s.now + 1, frac := 0 } s.now := by simp [tick, hoff, hstandby, hheld, hrate, hfrac]
  rw [htick]
  exact ⟨(sent_sendTime _).now, (sent_sendTime _).frac⟩

end Sys2Proof.Machine

open Sys2Proof Sys2Proof.Machine

/-- Settles O1: the step is the match on the queue, and the idle step a tick. -/
theorem stepRunsTheFrontCommand : Obligations.StepRunsTheFrontCommand := by
  unfold Obligations.StepRunsTheFrontCommand
  intro s c rest idle
  exact ⟨rfl, rfl, tick_undisciplined (s := idle), tick_of_held (s := idle)⟩
end

