-- ==== Sys2Proof/Proofs/ClockServo.lean ====
section
/-! The filter and the servo of network time (R98): what they set lies within its bounds, whatever the free values are. -/

namespace Sys2Proof.Machine

variable {s : State}

theorem freeIn_state (lo hi : Int) : (s.freeIn lo hi).2 = { s with free := s.free + 1 } := rfl

/-- A free value between two bounds lies between them. -/
theorem freeIn_mem {lo hi : Int} (h : lo ≤ hi) : lo ≤ (s.freeIn lo hi).1 ∧ (s.freeIn lo hi).1 ≤ hi := by
  have hval : (s.freeIn lo hi).1 = lo + ((s.freeDraw 64).1 : Int) % (hi - lo + 1) := by
    unfold State.freeIn
    exact if_neg (by omega)
  have hnonneg := Int.emod_nonneg ((s.freeDraw 64).1 : Int) (show hi - lo + 1 ≠ 0 by omega)
  have hlt := Int.emod_lt_of_pos ((s.freeDraw 64).1 : Int) (show 0 < hi - lo + 1 by omega)
  omega

theorem le_foldl_max (x : Int) (l : List Int) : x ≤ l.foldl max x := by
  rw [List.foldl_max]
  exact le_max_left _ _

theorem foldl_min_le (x : Int) (l : List Int) : l.foldl min x ≤ x := by
  rw [List.foldl_min]
  exact min_le_left _ _

/-- The changes of RATE_ADJ within the last second (R98). -/
def recentRates (s : State) : List (Nat × Int) := s.time.ptp.rates.filter fun e => s.now < e.1 + 1000000000

/-- Least value RATE_ADJ may take: within its bound and 1 ppm below every value of the last second (R98). -/
def rateLow (s : State) : Int := max (-rateBound) ((s.get Ob.Clk.RATE_ADJ :: (recentRates s).map (·.2)).foldl max (-(2 ^ 62)) - ratePpm)
/-- Greatest value RATE_ADJ may take. -/
def rateHigh (s : State) : Int := min rateBound ((s.get Ob.Clk.RATE_ADJ :: (recentRates s).map (·.2)).foldl min (2 ^ 62) + ratePpm)

theorem rateLow_ge : -rateBound ≤ rateLow s ∧ s.get Ob.Clk.RATE_ADJ - ratePpm ≤ rateLow s := by
  have hcur := le_foldl_max (max (-(2 ^ 62)) (s.get Ob.Clk.RATE_ADJ)) ((recentRates s).map (·.2))
  unfold rateLow
  rw [List.foldl_cons]
  omega

theorem rateHigh_le : rateHigh s ≤ rateBound ∧ rateHigh s ≤ s.get Ob.Clk.RATE_ADJ + ratePpm := by
  have hcur := foldl_min_le (min (2 ^ 62) (s.get Ob.Clk.RATE_ADJ)) ((recentRates s).map (·.2))
  unfold rateHigh
  rw [List.foldl_cons]
  omega

/-- The new RATE_ADJ: a free value between the two, or the old value where they leave none. -/
def nextRate (s : State) : Int := if rateHigh s < rateLow s then s.get Ob.Clk.RATE_ADJ else (s.freeIn (rateLow s) (rateHigh s)).1

theorem nextRate_bounds (h : |s.get Ob.Clk.RATE_ADJ| ≤ rateBound) : |nextRate s| ≤ rateBound ∧ |nextRate s - s.get Ob.Clk.RATE_ADJ| ≤ ratePpm := by
  obtain ⟨hlow, hlow'⟩ := rateLow_ge (s := s)
  obtain ⟨hhigh, hhigh'⟩ := rateHigh_le (s := s)
  unfold nextRate
  split
  · exact ⟨h, by simp [ratePpm]⟩
  · obtain ⟨hlo, hhi⟩ := freeIn_mem (s := s) (not_lt.1 ‹_›)
    exact ⟨abs_le.2 ⟨by omega, by omega⟩, abs_le.2 ⟨by omega, by omega⟩⟩

/-- The servo sets RATE_ADJ and its own record of it. -/
theorem adjustRate_eq : adjustRate s = (({ s with free := s.free + 1 } : State).set Ob.Clk.RATE_ADJ (nextRate s)).modPtp fun p =>
    { p with rates := (s.now, s.get Ob.Clk.RATE_ADJ) :: recentRates s, boundSince := if |nextRate s| < rateBound then none else some (p.boundSince.getD s.now) } := rfl

theorem adjustRate_spec :
    let u := adjustRate s
    u.time.todOff = s.time.todOff ∧ u.now = s.now ∧ u.get Ob.Clk.RATE_ADJ = nextRate s ∧ u.get Ob.Clk.SYNC_STATE = s.get Ob.Clk.SYNC_STATE ∧
      Timing [Ob.Clk.RATE_ADJ.key] s u := by
  intro u
  refine ⟨rfl, rfl, State.get_set_self .., ?_, ?_⟩
  · exact State.get_set_ne _ _ _ _ _ _ _ _ _ _ (by decide)
  · simp [u, adjustRate_eq]

/-- The filter sets MASTER_OFFSET and its record of the last offsets. -/
theorem filterOffset_eq (off : Int) : ∃ v, filterOffset s off =
    (({ s with free := s.free + 1 } : State).modPtp fun p => { p with offsets := (off :: p.offsets).take 16 }).set Ob.Clk.MASTER_OFFSET v := ⟨_, rfl⟩

theorem filterOffset_spec (off : Int) :
    let u := filterOffset s off
    u.time.todOff = s.time.todOff ∧ u.now = s.now ∧ u.get Ob.Clk.RATE_ADJ = s.get Ob.Clk.RATE_ADJ ∧ u.get Ob.Clk.SYNC_STATE = s.get Ob.Clk.SYNC_STATE ∧
      Timing [Ob.Clk.MASTER_OFFSET.key] s u := by
  intro u
  obtain ⟨v, hu⟩ := filterOffset_eq (s := s) off
  refine ⟨rfl, rfl, ?_, ?_, ?_⟩
  · exact State.get_set_ne _ _ _ _ _ _ _ _ _ _ (by decide)
  · exact State.get_set_ne _ _ _ _ _ _ _ _ _ _ (by decide)
  · simp [u, hu]

end Sys2Proof.Machine
end

