-- ==== Sys2Proof/Proofs/NetworkTime.lean ====
section
/-! Syncs, delay exchanges and the master clock (R96, R98), and O30. -/

namespace Sys2Proof.Machine

variable {s u : State} {port dom q src t : Nat}

/-! ### Syncs -/

/-- A complete Sync: the master-to-slave difference is known, none waits for its Follow_Up. -/
def syncHeard (s : State) (diff : Int) : State := s.modPtp fun p => { p with msDiff := some diff, lastSync := s.now, sync := none }

/-- A Delay_Req leaves at its interval, unless one is in flight. -/
def delayRequested (s : State) (port : Nat) : State :=
  let p := s.time.ptp
  let step := 1000000000 * 2 ^ (s.get Ob.Ptp.LOG_DELAY_REQ_INTERVAL + 7).toNat / 128
  if p.delayReq.isSome ∧ s.now < p.delayAt + step then s
  else (s.modPtp fun p => { p with delayReq := some (p.seqNo, todAt s s.now + txLat s port), delayAt := s.now, seqNo := (p.seqNo + 1) % 65536 }).emit
    (.packet 1 1 [port, p.seqNo])

theorem syncPair_eq (t1 t2 : Int) : syncPair s port q t1 t2 = delayRequested (syncInterval (syncHeard s (t2 - t1)) q) port := rfl

/-- What a Sync leaves to be read: the difference, its instant, the Sync that waits, TOD_OFFSET and machine time. -/
def syncRecord (s : State) : Option Int × Nat × Option (Nat × Int) × Int × Nat :=
  (s.time.ptp.msDiff, s.time.ptp.lastSync, s.time.ptp.sync, s.time.todOff, s.now)

theorem delayRequested_spec : syncRecord (delayRequested s port) = syncRecord s ∧ (delayRequested s port).od = s.od ∧ Timing [] s (delayRequested s port) := by
  unfold delayRequested
  dsimp only
  split <;> simp [syncRecord]

theorem syncInterval_spec :
    let u := syncInterval s q
    syncRecord u = syncRecord s ∧ (s.get Ob.Clk.SYNC_STATE ≠ 1 → u.od = s.od) ∧ Timing [Ob.Clk.SYNC_STATE.key] s u := by
  intro u
  unfold u syncInterval
  extract_lets row w run w'
  by_cases hstate : w.get Ob.Clk.SYNC_STATE ≠ 1 ∨ w.time.ptp.offsets.isEmpty = true
  · rw [if_pos hstate]
    simp [w, syncRecord]
  · have hlocking : s.get Ob.Clk.SYNC_STATE = 1 := by simpa [w] using (not_or.1 hstate).1
    rw [if_neg hstate]
    split <;> simp [w', w, hlocking, syncRecord]

/-- The sixteenth Sync in a row within 1 µs locks (Table 04-4). -/
theorem syncInterval_locks (hstate : s.get Ob.Clk.SYNC_STATE = 1) (hoff : |s.get Ob.Clk.MASTER_OFFSET| ≤ 1000) (hheard : s.time.ptp.offsets ≠ [])
    (hrun : s.time.ptp.lockRun = 15) (hrow : (s.time.ptp.lastSeq.map fun e => (e + 1) % 65536) = some q) :
    (syncInterval s q).get Ob.Clk.SYNC_STATE = 2 := by
  obtain ⟨e, hlast, hnext⟩ := Option.map_eq_some_iff.1 hrow
  simp [syncInterval, hlast, hnext, hstate, hoff, hheard, hrun]

/-- What a complete Sync of difference `diff` makes of `s` at an instant (R96, R98). -/
def SyncTaken (s : State) (now q : Nat) (diff : Int) (u : State) : Prop :=
  u.time.ptp.msDiff = some diff ∧ u.time.ptp.lastSync = now ∧ u.time.ptp.sync = none ∧ u.time.todOff = s.time.todOff ∧ u.now = now ∧
  (s.get Ob.Clk.SYNC_STATE = 1 → |s.get Ob.Clk.MASTER_OFFSET| ≤ 1000 → s.time.ptp.offsets ≠ [] → s.time.ptp.lockRun = 15 →
    (s.time.ptp.lastSeq.map fun e => (e + 1) % 65536) = some q → u.get Ob.Clk.SYNC_STATE = 2) ∧
  (s.get Ob.Clk.SYNC_STATE ≠ 1 → u.od = s.od) ∧ ObjectsKept [Ob.Clk.SYNC_STATE.key] s u ∧ AxesKept [] s u ∧ BytesKept s u

theorem syncPair_syncTaken (t1 t2 : Int) : SyncTaken s (s.at t).now q (t2 - t1) (syncPair (s.at t) port q t1 t2) := by
  obtain ⟨hrecord, hod, hkept⟩ := delayRequested_spec (s := syncInterval (syncHeard (s.at t) (t2 - t1)) q) (port := port)
  obtain ⟨hrecord', hod', hkept'⟩ := syncInterval_spec (s := syncHeard (s.at t) (t2 - t1)) (q := q)
  rw [← syncPair_eq] at hrecord hod hkept
  have hheard : Timing [Ob.Clk.SYNC_STATE.key] s (syncHeard (s.at t) (t2 - t1)) := by simp [syncHeard]
  have hall := hheard.trans (hkept'.trans (hkept.mono (List.nil_subset _)))
  obtain ⟨hdiff, hlast, hsync, htod, hnow⟩ : _ ∧ _ ∧ _ ∧ _ ∧ _ := by simpa [syncRecord, syncHeard] using hrecord.trans hrecord'
  refine ⟨hdiff, hlast, hsync, htod, hnow, ?_, ?_, hall.od, hall.axesKept, hall.bytesKept⟩
  · intro hstate hoff hsome hrun hrow
    rw [get_congr (congrArg (SMap.get? · _) hod)]
    exact syncInterval_locks (by simpa [syncHeard]) (by simpa [syncHeard]) (by simpa [syncHeard]) (by simpa [syncHeard]) (by simpa [syncHeard] using hrow)
  · intro hstate
    rw [hod, hod' (by simpa [syncHeard])]
    simp [syncHeard]

theorem exec_syncMessage_oneStep (hrun : unitRuns s = true) (h : ptpParent s port dom src = true) (t1 : Int) :
    exec (.syncMessage port dom src q false t1 t) s = .next (syncPair (s.at t) port q t1 (todAt (s.at t) t - rxLat s port)) :=
  (whileOn_runs hrun).trans (by simp [h])

theorem exec_syncMessage_twoStep (hrun : unitRuns s = true) (h : ptpParent s port dom src = true) (t1 : Int) :
    exec (.syncMessage port dom src q true t1 t) s = .next ((s.at t).modPtp fun p => { p with sync := some (q, todAt (s.at t) t - rxLat s port) }) :=
  (whileOn_runs hrun).trans (by simp [h])

theorem exec_syncMessage_foreign (hrun : unitRuns s = true) (h : ptpParent s port dom src = false) (twoStep : Bool) (t1 : Int) :
    exec (.syncMessage port dom src q twoStep t1 t) s = .next (s.at t) :=
  (whileOn_runs hrun).trans (by simp [h])

theorem exec_followUpMessage (hrun : unitRuns s = true) (h : ptpParent s port dom src = true) {t2 : Int} (hsync : s.time.ptp.sync = some (q, t2)) (t1 : Int) :
    exec (.followUpMessage port dom src q t1 t) s = .next (syncPair (s.at t) port q t1 t2) :=
  (whileOn_runs hrun).trans (by simp [hsync, h])

theorem exec_followUpMessage_none (hrun : unitRuns s = true) (hsync : s.time.ptp.sync = none) (t1 : Int) :
    exec (.followUpMessage port dom src q t1 t) s = .next (s.at t) :=
  (whileOn_runs hrun).trans (by simp [hsync])

/-! ### Delay exchanges -/

/-- The answer to this clock's Delay_Req has come. -/
def delayAnswered (s : State) : State := s.modPtp fun p => { p with delayReq := none }

@[simp] theorem delayAnswered_time : (delayAnswered s).time = { s.time with ptp := { s.time.ptp with delayReq := none } } := rfl
@[simp] theorem delayAnswered_od : (delayAnswered s).od = s.od := rfl
@[simp] theorem delayAnswered_get (o : Obj) (i j k : Nat) : (delayAnswered s).get o i j k = s.get o i j k := rfl

theorem exec_delayRespMessage (hrun : unitRuns s = true) (h : ptpParent s port dom src = true) {t3 d : Int} (hreq : s.time.ptp.delayReq = some (q, t3))
    (hdiff : s.time.ptp.msDiff = some d) (t4 : Int) :
    exec (.delayRespMessage port dom src q t4 t) s = .next (exchange (delayAnswered (s.at t)) (roundDiv (d - (t4 - t3)) 2)) :=
  (whileOn_runs hrun).trans (by simp [hreq, hdiff, h, delayAnswered])

theorem exec_delayRespMessage_none (hrun : unitRuns s = true) (hreq : s.time.ptp.delayReq = none) (t4 : Int) :
    exec (.delayRespMessage port dom src q t4 t) s = .next (s.at t) :=
  (whileOn_runs hrun).trans (by simp [hreq])

/-- In FREE the first three exchanges are recorded (Table 04-4). -/
theorem exchange_early (hfree : s.get Ob.Clk.SYNC_STATE = 0) (hfew : s.time.ptp.first.length < 3) (off : Int) :
    exchange s off = s.modPtp fun p => { p with first := p.first ++ [off] } := by
  unfold exchange
  rw [hfree]
  exact if_pos (by simp; omega)

/-- The step that the fourth exchange takes: TOD_OFFSET moves by the mean of the four, and the clock is LOCKING (Table 04-4). -/
def todStepped (s : State) (mean : Int) : State :=
  let s := { s with time := { s.time with todOff := s.time.todOff - mean * 65536 } }
  (((s.set Ob.Clk.STEPPED 1).set Ob.Clk.STEP_SIZE (sat 64 (-mean))).set Ob.Clk.SYNC_STATE 1).modPtp fun p =>
    { p with first := [], offsets := [], lockRun := 0, msDiff := none }

theorem exchange_fourth (hfree : s.get Ob.Clk.SYNC_STATE = 0) (hthree : s.time.ptp.first.length = 3) (off : Int) :
    exchange s off = todStepped s (roundDiv (s.time.ptp.first ++ [off]).sum 4) := by
  unfold exchange
  rw [hfree]
  exact if_neg (by simp [hthree])

theorem todStepped_spec (mean : Int) :
    let u := todStepped s mean
    u.time.todOff = s.time.todOff - mean * 65536 ∧ u.get Ob.Clk.SYNC_STATE = 1 ∧ u.get Ob.Clk.STEPPED = 1 ∧ u.get Ob.Clk.STEP_SIZE = sat 64 (-mean) ∧
      u.get Ob.Clk.RATE_ADJ = s.get Ob.Clk.RATE_ADJ ∧ u.now = s.now :=
  ⟨rfl, State.get_set_self .., by simp +decide [todStepped], by simp +decide [todStepped], by simp +decide [todStepped]; rfl, rfl⟩

/-- HOLDOVER and OUT_OF_RANGE end with an exchange (Table 04-4). -/
def resumed (s : State) : State := if s.get Ob.Clk.SYNC_STATE = 3 ∨ s.get Ob.Clk.SYNC_STATE = 4 then s.set Ob.Clk.SYNC_STATE 1 else s

theorem resumed_spec :
    let u := resumed s
    u.time = s.time ∧ u.now = s.now ∧ u.get Ob.Clk.RATE_ADJ = s.get Ob.Clk.RATE_ADJ ∧ Timing [Ob.Clk.SYNC_STATE.key] s u ∧
      u.get Ob.Clk.SYNC_STATE = (if s.get Ob.Clk.SYNC_STATE = 3 ∨ s.get Ob.Clk.SYNC_STATE = 4 then 1 else s.get Ob.Clk.SYNC_STATE) := by
  intro u
  unfold u resumed
  split <;> simp +decide

/-- Once stepped, an exchange feeds the filter and the servo (R98). -/
theorem exchange_later (hstate : s.get Ob.Clk.SYNC_STATE ≠ 0) (off : Int) : exchange s off = adjustRate (filterOffset (resumed s) off) := by
  unfold exchange resumed
  split <;> simp_all

/-- Objects that the filter and the servo set. -/
def servoKeys : List Nat := [Ob.Clk.SYNC_STATE.key, Ob.Clk.RATE_ADJ.key, Ob.Clk.MASTER_OFFSET.key]

theorem exchange_later_spec (hstate : s.get Ob.Clk.SYNC_STATE ≠ 0) (hrate : |s.get Ob.Clk.RATE_ADJ| ≤ rateBound) (off : Int) :
    let u := exchange s off
    u.time.todOff = s.time.todOff ∧ u.now = s.now ∧ |u.get Ob.Clk.RATE_ADJ| ≤ rateBound ∧ |u.get Ob.Clk.RATE_ADJ - s.get Ob.Clk.RATE_ADJ| ≤ ratePpm ∧
      u.get Ob.Clk.SYNC_STATE = (if s.get Ob.Clk.SYNC_STATE = 3 ∨ s.get Ob.Clk.SYNC_STATE = 4 then 1 else s.get Ob.Clk.SYNC_STATE) ∧ Timing servoKeys s u := by
  intro u
  have hu : u = adjustRate (filterOffset (resumed s) off) := exchange_later hstate off
  obtain ⟨htime, hnow, hcur, hkept, hsync⟩ := resumed_spec (s := s)
  obtain ⟨htod', hnow', hcur', hsync', hkept'⟩ := filterOffset_spec (s := resumed s) off
  obtain ⟨htod'', hnow'', hadj, hsync'', hkept''⟩ := adjustRate_spec (s := filterOffset (resumed s) off)
  obtain ⟨hbound, hslope⟩ := nextRate_bounds (s := filterOffset (resumed s) off) (by rwa [hcur', hcur])
  rw [hcur', hcur] at hslope
  rw [hu, hadj]
  have hall := (hkept.mono (keys' := servoKeys) (by decide)).trans ((hkept'.mono (by decide)).trans (hkept''.mono (by decide)))
  exact ⟨htod''.trans (htod'.trans (congrArg TimeRt.todOff htime)), hnow''.trans (hnow'.trans hnow), hbound, hslope, hsync''.trans (hsync'.trans hsync), hall⟩

theorem delayResp_early (hfree : s.get Ob.Clk.SYNC_STATE = 0) (hfew : s.time.ptp.first.length < 3) (off : Int) :
    let u := exchange (delayAnswered (s.at t)) off
    u.time.ptp.first = s.time.ptp.first ++ [off] ∧ u.time.ptp.delayReq = none ∧ u.time.todOff = s.time.todOff ∧ u.od = s.od := by
  rw [exchange_early (by simpa) (by simpa)]
  simp

theorem delayResp_fourth (hfree : s.get Ob.Clk.SYNC_STATE = 0) (hthree : s.time.ptp.first.length = 3) (off : Int) :
    let u := exchange (delayAnswered (s.at t)) off
    let mean := roundDiv (s.time.ptp.first ++ [off]).sum 4
    u.time.todOff = s.time.todOff - mean * 65536 ∧ u.get Ob.Clk.SYNC_STATE = 1 ∧ u.get Ob.Clk.STEPPED = 1 ∧ u.get Ob.Clk.STEP_SIZE = sat 64 (-mean) ∧
      u.get Ob.Clk.RATE_ADJ = s.get Ob.Clk.RATE_ADJ ∧ u.now = (s.at t).now := by
  intro u mean
  have hu : u = todStepped (delayAnswered (s.at t)) mean := (exchange_fourth (by simpa) (by simpa) off).trans (by simp only [delayAnswered_time, State.at_time, mean])
  obtain ⟨htod, hsync, hstepped, hsize, hrate, hnow⟩ := todStepped_spec (s := delayAnswered (s.at t)) mean
  rw [hu]
  exact ⟨by simpa using htod, hsync, hstepped, hsize, by simpa using hrate, hnow⟩

theorem delayResp_later (hstate : s.get Ob.Clk.SYNC_STATE ≠ 0) (hrate : |s.get Ob.Clk.RATE_ADJ| ≤ rateBound) (off : Int) :
    let u := exchange (delayAnswered (s.at t)) off
    u.time.todOff = s.time.todOff ∧ u.now = (s.at t).now ∧ |u.get Ob.Clk.RATE_ADJ| ≤ rateBound ∧ |u.get Ob.Clk.RATE_ADJ - s.get Ob.Clk.RATE_ADJ| ≤ ratePpm ∧
      u.get Ob.Clk.SYNC_STATE = (if s.get Ob.Clk.SYNC_STATE = 3 ∨ s.get Ob.Clk.SYNC_STATE = 4 then 1 else s.get Ob.Clk.SYNC_STATE) ∧ ObjectsKept servoKeys s u := by
  intro u
  obtain ⟨htod, hnow, hbound, hslope, hsync, hkept⟩ := exchange_later_spec (s := delayAnswered (s.at t)) (by simpa) (by simpa) off
  exact ⟨by simpa using htod, hnow, hbound, by simpa using hslope, by simpa using hsync, (Timing.trans (by simp [delayAnswered]) hkept).od⟩

/-! ### Announce and Delay_Req -/

theorem exec_announceMessage_first (hrun : unitRuns s = true) (h : ptpMine s port dom = true) (hgm : s.time.ptp.gm = none) (hrole : s.get Ob.Ptp.ROLE ≠ 1)
    (ds : List Nat) (utc : Int) (iv : Nat) :
    exec (.announceMessage port dom src ds utc iv t) s = .next (((s.at t).modPtp fun p =>
      { p with gm := some ⟨ds.getD 0 255, ds.getD 1 0, ds.getD 2 255, ds.getD 3 0, ds.getD 4 0⟩, parent := (port, src), announceAt := (s.at t).now, interval := iv, master := false }).set
        Ob.Clk.UTC_OFFSET utc) :=
  (whileOn_runs hrun).trans (by simp [h, hgm, hrole])

theorem exec_announceMessage_foreign (hrun : unitRuns s = true) (h : ptpMine s port dom = false) (ds : List Nat) (utc : Int) (iv : Nat) :
    exec (.announceMessage port dom src ds utc iv t) s = .next (s.at t) :=
  (whileOn_runs hrun).trans (by simp [h])

theorem exec_delayReqMessage_master (hrun : unitRuns s = true) (h : ptpMine s port dom = true) (hmaster : s.time.ptp.master = true) :
    exec (.delayReqMessage port dom q src t) s = .next ((s.at t).emit (.packet 1 9 [port, src, q, todAt (s.at t) t - rxLat s port])) :=
  (whileOn_runs hrun).trans (by simp [h, hmaster])

theorem exec_delayReqMessage_foreign (hrun : unitRuns s = true) (h : ptpMine s port dom = false) :
    exec (.delayReqMessage port dom q src t) s = .next (s.at t) :=
  (whileOn_runs hrun).trans (by simp [h])

/-! ### The master clock -/

theorem Sent.time {u : State} (h : Sent s u) : u.time = s.time := by simpa using congrArg State.time h

theorem sent_ptpSend (f : Nat → List Msg) : Sent s (ptpSend s f) :=
  List.foldlRecOn (motive := Sent s) _ _ rfl fun w hw i _ => hw.trans (by dsimp only; split <;> rfl)

theorem ptpSend_out (f : Nat → List Msg) (h : s.nat Ob.Ptp.PORT_ENABLE = 3) : (ptpSend s f).out = (f 1).reverse ++ ((f 0).reverse ++ s.out) := by
  have h' (l : List Msg) : ({ s with out := l } : State).nat Ob.Ptp.PORT_ENABLE = 3 := h
  simp +decide [ptpSend, forBelow, List.range_succ, h, h']

/-- A two-step Sync of this clock, at a port. -/
def syncMessages (s : State) (port : Nat) : List Msg :=
  [.packet 1 0 [port, s.time.ptp.seqNo], .packet 1 8 [port, s.time.ptp.seqNo, todAt s s.now + txLat s port]]

/-- An Announce of this clock, at a port. -/
def announceMessages (s : State) (port : Nat) : List Msg :=
  let d := ptpOwn s
  [.packet 1 11 [port, d.priority1, d.quality, d.priority2, d.identity, d.steps, s.get Ob.Clk.UTC_OFFSET]]

def syncsSent (s : State) : State := ptpSend (s.modPtp fun p => { p with seqNo := (p.seqNo + 1) % 65536 }) (syncMessages s)
def announceSent (s : State) : State := ptpSend (s.modPtp fun p => { p with sentAt := some s.now }) (announceMessages s)

/-- Announce is due: none has been sent, or its interval has passed (assumption log 172). -/
def announceDue (s : State) (now : Nat) : Bool := match s.time.ptp.sentAt with | some x => decide (x + announceNs ≤ now) | none => true

/-- What SYNC_INTERVAL does with a clock that is master. -/
def masterTurn (s : State) : State := if announceDue s (syncsSent s).now = false then syncsSent s else announceSent (syncsSent s)

/-- The clock as the choice of a master leaves it (R96). -/
def elected (s : State) : State :=
  if s.get Ob.Ptp.ROLE = 1 ∧ s.time.ptp.master = false ∧ gmAbsent s = true ∧ s.time.ptp.announceAt + 3 * s.time.ptp.interval < s.now then
    s.modPtp fun p => { p with master := true, gm := none }
  else if s.get Ob.Ptp.ROLE = 0 then s.modPtp fun p => { p with master := false } else s

theorem elected_of_ordinary (hmaster : s.time.ptp.master = false) (hrole : s.get Ob.Ptp.ROLE ≠ 1) : elected s = s := by
  have hstays : (s.modPtp fun p => { p with master := false }) = s := by
    unfold State.modPtp
    dsimp only
    rw [← hmaster]
  simp [elected, hrole, hstays]

theorem elected_of_silence (hmaster : s.time.ptp.master = false) (hrole : s.get Ob.Ptp.ROLE = 1)
    (hsilent : s.time.ptp.announceAt + 3 * s.time.ptp.interval < s.now) : elected s = s.modPtp fun p => { p with master := true, gm := none } :=
  if_pos ⟨hrole, hmaster, by simp [gmAbsent, hsilent], hsilent⟩

theorem elected_of_master (hmaster : s.time.ptp.master = true) (hrole : s.get Ob.Ptp.ROLE = 1) : elected s = s := by simp [elected, hmaster, hrole]

theorem sent_syncsSent : Sent (s.modPtp fun p => { p with seqNo := (p.seqNo + 1) % 65536 }) (syncsSent s) := sent_ptpSend _
theorem sent_announceSent : Sent (s.modPtp fun p => { p with sentAt := some s.now }) (announceSent s) := sent_ptpSend _

theorem exec_syncInterval_ordinary (hrun : unitRuns s = true) (hmaster : (elected (s.at t)).time.ptp.master = false) :
    exec (.syncInterval t) s = .next (elected (s.at t)) := (whileOn_runs hrun).trans (if_pos hmaster)

theorem exec_syncInterval_master (hrun : unitRuns s = true) (hmaster : (elected (s.at t)).time.ptp.master = true) :
    exec (.syncInterval t) s = .next (masterTurn (elected (s.at t))) :=
  (whileOn_runs hrun).trans ((if_neg (by rw [← elected, hmaster]; decide)).trans (apply_ite Host.Outcome.next _ _ _).symm)

/-- As master the clock numbers its Sync and leaves the objects as they are. -/
theorem masterTurn_spec :
    let u := masterTurn s
    u.time.ptp.master = s.time.ptp.master ∧ u.time.ptp.gm = s.time.ptp.gm ∧ u.time.ptp.seqNo = (s.time.ptp.seqNo + 1) % 65536 ∧ u.od = s.od := by
  intro u
  unfold u masterTurn
  split <;> simp [sent_announceSent.time, sent_announceSent.od, sent_syncsSent.time, sent_syncsSent.od]

/-- A two-step Sync and its Follow_Up at both ports, newest first. -/
theorem syncsSent_out (h : s.nat Ob.Ptp.PORT_ENABLE = 3) : (syncsSent s).out = (syncMessages s 1).reverse ++ ((syncMessages s 0).reverse ++ s.out) := ptpSend_out _ h

theorem masterTurn_waits {x : Nat} (hsent : s.time.ptp.sentAt = some x) (h : s.now < x + announceNs) : masterTurn s = syncsSent s :=
  if_pos (by simp [announceDue, hsent, sent_syncsSent.now, h])

theorem masterTurn_announces {x : Nat} (hsent : s.time.ptp.sentAt = some x) (h : x + announceNs ≤ s.now) : masterTurn s = announceSent (syncsSent s) :=
  if_neg (by simp [announceDue, hsent, sent_syncsSent.now, h])

theorem announceSent_out (h : s.nat Ob.Ptp.PORT_ENABLE = 3) : (announceSent s).out = announceMessages s 1 ++ (announceMessages s 0 ++ s.out) := ptpSend_out _ h

theorem announceMessages_syncsSent (port : Nat) : announceMessages (syncsSent s) port = announceMessages s port := by
  have hget (o : Obj) (i j k : Nat) : (syncsSent s).get o i j k = s.get o i j k := sent_syncsSent.get ..
  simp only [announceMessages, ptpOwn, State.nat, hget]

/-- The first grandmaster heard is taken by a clock that may not be master (R96). -/
theorem announceMessage_first (hrun : unitRuns s = true) (h : ptpMine s port dom = true) (hgm : s.time.ptp.gm = none) (hrole : s.get Ob.Ptp.ROLE ≠ 1)
    (ds : List Nat) (utc : Int) (iv : Nat) : Answers (.announceMessage port dom src ds utc iv t) s fun u =>
      u.get Ob.Clk.UTC_OFFSET = utc ∧ u.time.ptp.master = false ∧ u.time.ptp.parent = (port, src) ∧ u.time.ptp.announceAt = (s.at t).now ∧ u.time.ptp.interval = iv ∧
        u.time.todOff = s.time.todOff ∧ ObjectsKept [Ob.Clk.UTC_OFFSET.key] s u := by
  rw [answers_iff (exec_announceMessage_first hrun h hgm hrole ds utc iv)]
  have hkept (f : PtpRt → PtpRt) : Timing [Ob.Clk.UTC_OFFSET.key] s (((s.at t).modPtp f).set Ob.Clk.UTC_OFFSET utc) := by simp
  exact ⟨State.get_set_self .., rfl, rfl, rfl, rfl, by simp, (hkept _).od⟩

/-- As master within the announce interval: Syncs alone. -/
theorem masterTurn_syncs {x : Nat} (hports : s.nat Ob.Ptp.PORT_ENABLE = 3) (hsent : s.time.ptp.sentAt = some x) (h : s.now < x + announceNs) :
    let u := masterTurn s
    u.out = (syncMessages s 1).reverse ++ ((syncMessages s 0).reverse ++ s.out) ∧ u.time.ptp.seqNo = (s.time.ptp.seqNo + 1) % 65536 ∧
      u.time.ptp.sentAt = s.time.ptp.sentAt ∧ u.od = s.od := by
  obtain ⟨-, -, hseq, hod⟩ := masterTurn_spec (s := s)
  refine ⟨?_, hseq, ?_, hod⟩ <;> rw [masterTurn_waits hsent h]
  · exact syncsSent_out hports
  · rw [sent_syncsSent.time]
    rfl

/-- As master with the announce interval over: Syncs and Announce. -/
theorem masterTurn_syncs_and_announces {x : Nat} (hports : s.nat Ob.Ptp.PORT_ENABLE = 3) (hsent : s.time.ptp.sentAt = some x) (h : x + announceNs ≤ s.now) :
    let u := masterTurn s
    u.out = announceMessages s 1 ++ (announceMessages s 0 ++ ((syncMessages s 1).reverse ++ ((syncMessages s 0).reverse ++ s.out))) ∧
      u.time.ptp.seqNo = (s.time.ptp.seqNo + 1) % 65536 ∧ u.time.ptp.sentAt = some s.now ∧ u.od = s.od := by
  obtain ⟨-, -, hseq, hod⟩ := masterTurn_spec (s := s)
  have hports' : (syncsSent s).nat Ob.Ptp.PORT_ENABLE = 3 := (congrArg Int.toNat (sent_syncsSent.get ..)).trans hports
  refine ⟨?_, hseq, ?_, hod⟩ <;> rw [masterTurn_announces hsent h]
  · rw [announceSent_out hports', syncsSent_out hports, announceMessages_syncsSent, announceMessages_syncsSent]
  · rw [sent_announceSent.time]
    exact congrArg some sent_syncsSent.now

theorem syncMessages_at (port : Nat) : syncMessages (s.at t) port =
    [.packet 1 0 [port, s.time.ptp.seqNo], .packet 1 8 [port, s.time.ptp.seqNo, todAt (s.at t) (s.at t).now + txLat s port]] := by simp [syncMessages]

theorem announceMessages_at (port : Nat) : announceMessages (s.at t) port = announceMessages s port := by simp [announceMessages]

end Sys2Proof.Machine

open Sys2Proof Sys2Proof.Machine

/-- Settles O30: each message by what its meaning makes of the state, the servo by its bounds. -/
theorem networkTimeTakesSyncAndDelayExchanges : Obligations.NetworkTimeTakesSyncAndDelayExchanges := by
  unfold Obligations.NetworkTimeTakesSyncAndDelayExchanges
  intro s port dom q src t t1 t2 t3 t4 d ds utc iv x hrun a p synced off mean
  refine ⟨?parent, ?mine, fun h => exec_syncMessage_foreign hrun h _ _, fun h => ⟨exec_announceMessage_foreign hrun h .., exec_delayReqMessage_foreign hrun h⟩,
    fun h => exec_followUpMessage_none hrun h _, fun h => exec_delayRespMessage_none hrun h _, ?ordinary, ?silence, ?master⟩
  case parent =>
    intro hparent
    refine ⟨(answers_iff (exec_syncMessage_oneStep hrun hparent t1)).2 (syncPair_syncTaken ..), exec_syncMessage_twoStep hrun hparent t1,
      fun hsync => (answers_iff (exec_followUpMessage hrun hparent hsync t1)).2 (syncPair_syncTaken ..), fun hreq hdiff => ?_⟩
    simp only [answers_iff (exec_delayRespMessage hrun hparent hreq hdiff t4)]
    exact ⟨fun hfree hfew => delayResp_early hfree hfew off, fun hfree hthree => delayResp_fourth hfree hthree off, fun hstate hrate => delayResp_later hstate hrate off⟩
  case mine => exact fun hmine => ⟨fun hgm hrole => announceMessage_first hrun hmine hgm hrole .., exec_delayReqMessage_master hrun hmine⟩
  case ordinary =>
    intro hmaster hrole
    have hstays : elected (s.at t) = s.at t := elected_of_ordinary (by simpa) (by simpa)
    simpa [hstays] using exec_syncInterval_ordinary (t := t) hrun (by simpa [hstays])
  case silence =>
    intro hmaster hrole hsilent
    have hbecomes := elected_of_silence (s := s.at t) (by simpa) (by simpa) (by simpa)
    rw [answers_iff (exec_syncInterval_master hrun (by rw [hbecomes]; rfl)), hbecomes]
    simpa using masterTurn_spec (s := (s.at t).modPtp fun p => { p with master := true, gm := none })
  case master =>
    intro hmaster hrole hports hsent syncs mine
    have hstays : elected (s.at t) = s.at t := elected_of_master (by simpa) (by simpa)
    have hexec : exec (.syncInterval t) s = .next (masterTurn (s.at t)) := hstays ▸ exec_syncInterval_master hrun (by simpa [hstays])
    simp only [answers_iff hexec]
    refine ⟨fun hnot => ?_, fun hdue => ?_⟩
    · have := masterTurn_syncs (s := s.at t) (by simpa) (by simpa) hnot
      simpa [syncMessages_at, syncs] using this
    · have := masterTurn_syncs_and_announces (s := s.at t) (by simpa) (by simpa) hdue
      simpa [syncMessages_at, announceMessages_at, announceMessages, ptpOwn, syncs, mine] using this
end

