-- ==== Sys2Proof/Proofs/TimeOfDay.lean ====
section
/-! Time of day (R80, R81), the losses of the grandmaster (R98), the transparent clock (R97) and the alignment of a standby (R94), and O31. -/

namespace Sys2Proof.Machine

variable {s : State} {t : Nat}

/-! ### SET_TOD and RELOCK -/

/-- Time of day set to read `tod` now. -/
def todSet (s : State) (tod : Int) : State := { s with time := { s.time with todOff := (tod - s.now) * 65536 } }

theorem todAt_todSet (tod : Int) : todAt (todSet s tod) s.now = tod := by
  have hsum : (s.now : Int) * 65536 + (tod - s.now) * 65536 = tod * 65536 := by ring
  exact (congrArg (Int.fdiv · 65536) hsum).trans (Int.mul_fdiv_cancel _ (by decide))

theorem timing_todSet (keys : List Nat) (tod : Int) : Timing keys s (todSet s tod) := ⟨fun _ _ => rfl, rfl⟩

theorem exec_setTod (hrun : unitRuns s = true) (hfree : s.get Ob.Clk.SYNC_STATE = 0) (tod : Int) :
    exec (.setTod tod t) s = .next (((todSet (s.at t) tod).set Ob.Clk.SET_TOD tod).emit (.reply 0xFF 0 stOk [])) := by
  have htaken : setTod (s.at t) tod = (todSet (s.at t) tod, stOk) := if_neg (by simp [hfree])
  refine (whileOn_runs hrun).trans ?_
  rw [htaken]
  rfl

theorem exec_setTod_refused (hrun : unitRuns s = true) (hset : s.get Ob.Clk.SYNC_STATE ≠ 0) (tod : Int) :
    exec (.setTod tod t) s = .next ((s.at t).emit (.reply 0xFF 0 stState [])) := by
  have hrefused : setTod (s.at t) tod = (s.at t, stState) := if_pos (by simpa)
  refine (whileOn_runs hrun).trans ?_
  rw [hrefused, kept_refused (by decide)]
  rfl

theorem setTod_taken (hrun : unitRuns s = true) (hfree : s.get Ob.Clk.SYNC_STATE = 0) (tod : Int) : Answers (.setTod tod t) s fun u =>
    todAt u u.now = tod ∧ u.now = (s.at t).now ∧ ObjectsKept [Ob.Clk.SET_TOD.key] s u ∧ u.out.head? = some (.reply 0xFF 0 stOk []) ∧ AxesKept [] s u ∧ BytesKept s u := by
  rw [answers_iff (exec_setTod hrun hfree tod)]
  have hkept : Timing [Ob.Clk.SET_TOD.key] s (((todSet (s.at t) tod).set Ob.Clk.SET_TOD tod).emit (.reply 0xFF 0 stOk [])) := by
    simpa using timing_todSet (s := s.at t) _ tod
  exact ⟨todAt_todSet tod, rfl, hkept.od, rfl, hkept.axesKept, hkept.bytesKept⟩

theorem ringsUp_eq_false (h : ∀ r, r < 4 → s.get Ob.Ring.STATE r < 1 ∨ 5 < s.get Ob.Ring.STATE r) : ringsUp s = false := by
  simp only [ringsUp, List.any_eq_false, List.mem_range, decide_eq_true_eq]
  intro r hr
  have := h r hr
  omega

theorem ringsUp_eq_true (h : ∃ r, r < 4 ∧ 1 ≤ s.get Ob.Ring.STATE r ∧ s.get Ob.Ring.STATE r ≤ 5) : ringsUp s = true := by
  simpa only [ringsUp, List.any_eq_true, List.mem_range, decide_eq_true_eq] using h

/-- The clock back in FREE, its records of exchanges empty (R98). -/
def relocked (s : State) : State :=
  ((s.set Ob.Clk.SYNC_STATE 0).set Ob.Clk.STEPPED 0).modPtp fun p => { p with first := [], offsets := [], lockRun := 0, boundSince := none }

theorem exec_relock (hrun : unitRuns s = true) (hdown : ringsUp s = false) :
    exec (.relock t) s = .next (((relocked (s.at t)).set Ob.Clk.RELOCK 1).emit (.reply 0xFF 0 stOk [])) := by
  have htaken : relock (s.at t) = (relocked (s.at t), stOk) := if_neg (by simp [hdown])
  refine (whileOn_runs hrun).trans ?_
  rw [htaken]
  rfl

theorem exec_relock_refused (hrun : unitRuns s = true) (hup : ringsUp s = true) : exec (.relock t) s = .next ((s.at t).emit (.reply 0xFF 0 stState [])) := by
  have hrefused : relock (s.at t) = (s.at t, stState) := if_pos (by simpa)
  refine (whileOn_runs hrun).trans ?_
  rw [hrefused, kept_refused (by decide)]
  rfl

theorem relock_taken (hrun : unitRuns s = true) (hdown : ringsUp s = false) : Answers (.relock t) s fun u =>
    u.get Ob.Clk.SYNC_STATE = 0 ∧ u.get Ob.Clk.STEPPED = 0 ∧ u.time.ptp.first = [] ∧ u.time.todOff = s.time.todOff ∧ u.out.head? = some (.reply 0xFF 0 stOk []) ∧
      ObjectsKept [Ob.Clk.SYNC_STATE.key, Ob.Clk.STEPPED.key, Ob.Clk.RELOCK.key] s u ∧ AxesKept [] s u ∧ BytesKept s u := by
  rw [answers_iff (exec_relock hrun hdown)]
  have hkept : Timing [Ob.Clk.SYNC_STATE.key, Ob.Clk.STEPPED.key, Ob.Clk.RELOCK.key] s (((relocked (s.at t)).set Ob.Clk.RELOCK 1).emit (.reply 0xFF 0 stOk [])) := by
    simp [relocked]
  refine ⟨?_, ?_, rfl, ?_, rfl, hkept.od, hkept.axesKept, hkept.bytesKept⟩ <;> simp +decide [relocked]

/-! ### The grandmaster lost, the rate at its bound -/

/-- Holdover (Table 04-4). -/
def heldOver (s : State) : State := (s.set Ob.Clk.SYNC_STATE 3).modPtp fun p => { p with lockRun := 0, boundSince := none }

theorem exec_syncLoss (hrun : unitRuns s = true) (hst : s.get Ob.Clk.SYNC_STATE = 1 ∨ s.get Ob.Clk.SYNC_STATE = 2)
    (hlost : s.time.ptp.lastSync + 3 * s.time.ptp.interval ≤ (s.at t).now) : exec (.syncLoss t) s = .next (heldOver (s.at t)) :=
  (whileOn_runs hrun).trans (by simp [hst, hlost, heldOver])

theorem exec_syncLoss_early (hrun : unitRuns s = true) (h : (s.at t).now < s.time.ptp.lastSync + 3 * s.time.ptp.interval) : exec (.syncLoss t) s = .next (s.at t) :=
  (whileOn_runs hrun).trans (by simp [h])

theorem heldOver_spec :
    let u := heldOver (s.at t)
    u.get Ob.Clk.SYNC_STATE = 3 ∧ u.time.todOff = s.time.todOff ∧ ObjectsKept [Ob.Clk.SYNC_STATE.key] s u ∧ AxesKept [] s u ∧ BytesKept s u := by
  intro u
  have hkept : Timing [Ob.Clk.SYNC_STATE.key] s u := by simp [u, heldOver]
  exact ⟨State.get_set_self .., by simp [u, heldOver], hkept.od, hkept.axesKept, hkept.bytesKept⟩

theorem exec_outOfRange (hrun : unitRuns s = true) (hst : s.get Ob.Clk.SYNC_STATE = 1 ∨ s.get Ob.Clk.SYNC_STATE = 2) {b : Nat}
    (hbound : s.time.ptp.boundSince = some b) (hlong : b + 10000000000 ≤ (s.at t).now)
    (hgrows : |s.time.ptp.offsets.getLast?.getD 0| < |s.time.ptp.offsets.head?.getD 0|) :
    exec (.outOfRange t) s = .next (((s.at t).set Ob.Clk.SYNC_STATE 4).warn 98 0 0) :=
  (whileOn_runs hrun).trans (by simp [hst, hbound, hlong, hgrows])

theorem exec_outOfRange_unbound (hrun : unitRuns s = true) (h : s.time.ptp.boundSince = none) : exec (.outOfRange t) s = .next (s.at t) :=
  (whileOn_runs hrun).trans (by simp [h])

theorem outOfRange_spec :
    let u := ((s.at t).set Ob.Clk.SYNC_STATE 4).warn 98 0 0
    u.get Ob.Clk.SYNC_STATE = 4 ∧ u.out.head? = some (.event 98 0 0) ∧ ObjectsKept [Ob.Clk.SYNC_STATE.key] s u ∧ AxesKept [] s u ∧ BytesKept s u := by
  intro u
  have hkept : Timing [Ob.Clk.SYNC_STATE.key] s u := by simp [u]
  exact ⟨State.get_set_self .., rfl, hkept.od, hkept.axesKept, hkept.bytesKept⟩

/-! ### The transparent clock -/

section Transparent
variable {src q ing egr : Nat} {corr : Int}

theorem exec_tcForward_off (hrun : unitRuns s = true) (hports : s.nat Ob.Ptp.PORT_ENABLE = 3) (htc : s.flag Ob.Ptp.TC_ENABLE = false) (kind : Nat) :
    exec (.tcForward kind src q corr ing egr) s = .next ((s.at egr).emit (.packet 1 (16 + kind) [src, q, corr])) :=
  (whileOn_runs hrun).trans (by simp [hports, htc])

/-- A one-step Sync or a Delay_Req carries its residence. -/
theorem exec_tcForward_event (hrun : unitRuns s = true) (hports : s.nat Ob.Ptp.PORT_ENABLE = 3) (htc : s.flag Ob.Ptp.TC_ENABLE = true) {kind : Nat}
    (hkind : kind = 0 ∨ kind = 2) :
    exec (.tcForward kind src q corr ing egr) s = .next ((s.at egr).emit (.packet 1 (16 + kind) [src, q, corr + ((egr - ing : Nat) : Int) * 65536])) := by
  refine (whileOn_runs hrun).trans ?_
  rcases hkind with rfl | rfl <;> simp [hports, htc]

/-- The residence of a two-step Sync, kept for its Follow_Up; records a second old are dropped. -/
def residenceKept (s : State) (src q ing egr : Nat) : State :=
  s.modPtp fun p => { p with tc := (src, q, egr - ing, ing) :: p.tc.filter fun e => egr ≤ e.2.2.2 + 1000000000 }

theorem exec_tcForward_twoStep (hrun : unitRuns s = true) (hports : s.nat Ob.Ptp.PORT_ENABLE = 3) (htc : s.flag Ob.Ptp.TC_ENABLE = true) :
    exec (.tcForward 1 src q corr ing egr) s = .next ((residenceKept (s.at egr) src q ing egr).emit (.packet 1 17 [src, q, corr])) :=
  (whileOn_runs hrun).trans (by simp [hports, htc, residenceKept])

theorem exec_tcForward_followUp (hrun : unitRuns s = true) (hports : s.nat Ob.Ptp.PORT_ENABLE = 3) (htc : s.flag Ob.Ptp.TC_ENABLE = true) {b at_ : Nat}
    (hrecord : s.time.ptp.tc.head? = some (src, q, b, at_)) (hsoon : ing ≤ at_ + 1000000000) :
    exec (.tcForward 3 src q corr ing egr) s = .next ((s.at egr).emit (.packet 1 19 [src, q, corr + (b : Int) * 65536])) := by
  obtain ⟨rest, htable⟩ := List.head?_eq_some_iff.1 hrecord
  exact (whileOn_runs hrun).trans (by simp [hports, htc, htable, hsoon])

theorem exec_tcForward_followUp_late (hrun : unitRuns s = true) (hports : s.nat Ob.Ptp.PORT_ENABLE = 3) (htc : s.flag Ob.Ptp.TC_ENABLE = true) {b at_ : Nat}
    (hrecord : s.time.ptp.tc = [(src, q, b, at_)]) (hlate : at_ + 1000000000 < ing) :
    exec (.tcForward 3 src q corr ing egr) s = .next ((s.at egr).emit (.packet 1 19 [src, q, corr])) :=
  (whileOn_runs hrun).trans (by simp [hports, htc, hrecord, hlate])

end Transparent

/-! ### The alignment of a standby -/

/-- The standby's offset to the active unit, from the four stamps (R94). -/
def benchOffset (s : State) (t1 t2 t3 t4 : Int) : Int := roundDiv ((t2 - t1) - (t4 - t3)) 2 + roundDiv (s.get Ob.Sby.BENCH_ASYM) 2

/-- The rate of a standby that follows the active unit, and its offset shown. -/
def disciplined (s : State) (off : Int) : State :=
  (({ s with free := s.free + 1 } : State).set Ob.Clk.RATE_ADJ (s.freeIn (-rateBoundStandby) rateBoundStandby).1).set Ob.Sby.BENCH_OFFSET (sat 32 off)

theorem exec_benchTime_unpaired (hrun : unitRuns s = true) (hrole : s.get Ob.Pair.ROLE ≠ 2) (t1 t2 t3 t4 tod : Int) :
    exec (.benchTime t1 t2 t3 t4 tod t) s = .next (s.at t) :=
  (whileOn_runs hrun).trans (by simp [hrole])

theorem exec_benchTime_steps (hrun : unitRuns s = true) (hrole : s.get Ob.Pair.ROLE = 2) (halign : s.get Ob.Sby.BENCH_ALIGN_STATE ≠ 0) (hstep : s.time.stepTaken = false)
    (t1 t2 t3 t4 tod : Int) : exec (.benchTime t1 t2 t3 t4 tod t) s = .next (pairStep (s.at t) (roundDiv (benchOffset s t1 t2 t3 t4) 1000) tod) :=
  (whileOn_runs hrun).trans (by simp [hrole, halign, hstep, benchOffset])

theorem exec_benchTime_disciplines (hrun : unitRuns s = true) (hrole : s.get Ob.Pair.ROLE = 2) (halign : s.get Ob.Sby.BENCH_ALIGN_STATE ≠ 0)
    (hstep : s.time.stepTaken = true) (t1 t2 t3 t4 tod : Int) :
    exec (.benchTime t1 t2 t3 t4 tod t) s = .next (judgeAlign (disciplined (s.at t) (benchOffset s t1 t2 t3 t4))) :=
  (whileOn_runs hrun).trans (by simp [hrole, halign, hstep, benchOffset, disciplined, freeIn_state])

theorem pairStep_spec (hstep : s.time.stepTaken = false) (off tod : Int) :
    let u := pairStep (s.at t) off tod
    (u.now : Int) = max 0 ((s.at t).now - off) ∧ u.time.todOff = tod ∧ u.time.stepTaken = true ∧ u.od = s.od ∧ AxesKept [] s u ∧ BytesKept s u := by
  intro u
  have hu : u = { s.at t with now := (((s.at t).now : Int) - off).toNat, frac := 0, time := { (s.at t).time with todOff := tod, stepTaken := true } } :=
    if_neg (by simp [hstep])
  have hkept : Timing [] (s.at t) u := ⟨fun _ _ => by rw [hu], by rw [hu]⟩
  rw [timing_from_at] at hkept
  exact ⟨by rw [hu]; exact (Int.ofNat_toNat _).trans (max_comm _ _), by rw [hu], by rw [hu], by rw [hu]; simp, hkept.axesKept, hkept.bytesKept⟩

/-- The judgement writes BENCH_ALIGN_STATE alone (R94, R95). -/
theorem judgeAlign_cases : judgeAlign s = s ∨ ∃ x, judgeAlign s = s.set Ob.Sby.BENCH_ALIGN_STATE x := by
  unfold judgeAlign
  extract_lets st bad
  split
  · exact .inr ⟨_, rfl⟩
  · split
    · exact .inr ⟨_, rfl⟩
    · exact .inl rfl

theorem judgeAlign_keeps :
    let u := judgeAlign s
    u.now = s.now ∧ u.time = s.time ∧ u.get Ob.Sby.BENCH_OFFSET = s.get Ob.Sby.BENCH_OFFSET ∧ u.get Ob.Clk.RATE_ADJ = s.get Ob.Clk.RATE_ADJ ∧
      Timing [Ob.Sby.BENCH_ALIGN_STATE.key] s u := by
  intro u
  rcases judgeAlign_cases (s := s) with hu | ⟨x, hu⟩ <;> simp +decide [u, hu]

/-- An aligned standby beyond 2 ns is DEGRADED (R94). -/
theorem judgeAlign_degrades (haligned : s.get Ob.Sby.BENCH_ALIGN_STATE = 2) (hoff : 2000 < |s.get Ob.Sby.BENCH_OFFSET|) :
    (judgeAlign s).get Ob.Sby.BENCH_ALIGN_STATE = 3 := by
  simp [judgeAlign, haligned, hoff]

theorem disciplined_spec (off : Int) :
    let u := disciplined s off
    u.get Ob.Clk.RATE_ADJ = (s.freeIn (-rateBoundStandby) rateBoundStandby).1 ∧ u.get Ob.Sby.BENCH_OFFSET = sat 32 off ∧
      u.get Ob.Sby.BENCH_ALIGN_STATE = s.get Ob.Sby.BENCH_ALIGN_STATE ∧ Timing [Ob.Clk.RATE_ADJ.key, Ob.Sby.BENCH_OFFSET.key] s u := by
  intro u
  refine ⟨?_, State.get_set_self .., ?_, by simp [u, disciplined]⟩
  · exact (State.get_set_ne _ _ _ _ _ _ _ _ _ _ (by decide)).trans (State.get_set_self ..)
  · exact (State.get_set_ne _ _ _ _ _ _ _ _ _ _ (by decide)).trans (State.get_set_ne _ _ _ _ _ _ _ _ _ _ (by decide))

theorem benchTime_disciplines_spec (off : Int) :
    let u := judgeAlign (disciplined (s.at t) off)
    u.now = (s.at t).now ∧ u.time.todOff = s.time.todOff ∧ u.get Ob.Sby.BENCH_OFFSET = sat 32 off ∧ |u.get Ob.Clk.RATE_ADJ| ≤ rateBoundStandby ∧
      (s.get Ob.Sby.BENCH_ALIGN_STATE = 2 → 2000 < |sat 32 off| → u.get Ob.Sby.BENCH_ALIGN_STATE = 3) ∧
      ObjectsKept [Ob.Clk.RATE_ADJ.key, Ob.Sby.BENCH_OFFSET.key, Ob.Sby.BENCH_ALIGN_STATE.key] s u ∧ AxesKept [] s u ∧ BytesKept s u := by
  intro u
  obtain ⟨hrate, hoff, halign, hkept⟩ := disciplined_spec (s := s.at t) off
  obtain ⟨hnow, htime, hoff', hrate', hkept'⟩ := judgeAlign_keeps (s := disciplined (s.at t) off)
  have hall : Timing [Ob.Clk.RATE_ADJ.key, Ob.Sby.BENCH_OFFSET.key, Ob.Sby.BENCH_ALIGN_STATE.key] s u :=
    (timing_from_at t).1 ((hkept.mono (by decide)).trans (hkept'.mono (by decide)))
  refine ⟨hnow, ?_, hoff'.trans hoff, ?_, fun haligned hfar => ?_, hall.od, hall.axesKept, hall.bytesKept⟩
  · rw [htime]
    simp [disciplined]
  · rw [hrate', hrate, abs_le]
    exact freeIn_mem (by decide)
  · exact judgeAlign_degrades (halign.trans (by simpa)) (by rwa [hoff])

end Sys2Proof.Machine

open Sys2Proof Sys2Proof.Machine

/-- Settles O31: each command by the state it answers, which differs from the old one in what `Timing` names. -/
theorem timeOfDayIsSetHeldAndForwarded : Obligations.TimeOfDayIsSetHeldAndForwarded := by
  unfold Obligations.TimeOfDayIsSetHeldAndForwarded
  intro s tod corr t1 t2 t3 t4 t b kind src q ing egr res at_ hrun a p st e off
  refine ⟨fun hfree => setTod_taken hrun hfree tod, fun hset => exec_setTod_refused hrun hset tod, fun hdown => relock_taken hrun (ringsUp_eq_false hdown),
    fun hup => exec_relock_refused hrun (ringsUp_eq_true hup), fun hst hlost => (answers_iff (exec_syncLoss hrun hst hlost)).2 heldOver_spec,
    exec_syncLoss_early hrun, fun hst hbound hlong hgrows => (answers_iff (exec_outOfRange hrun hst hbound hlong hgrows)).2 outOfRange_spec,
    exec_outOfRange_unbound hrun, ?transparent, ?standby, fun hrole => exec_benchTime_unpaired hrun hrole t1 t2 t3 t4 tod⟩
  case transparent =>
    intro hports hres
    have hresidence : egr - ing = res := by omega
    refine ⟨fun htc => exec_tcForward_off hrun hports htc kind, fun htc => ⟨fun hkind => ?_, ?_, exec_tcForward_followUp hrun hports htc,
      exec_tcForward_followUp_late hrun hports htc⟩⟩
    · rw [exec_tcForward_event hrun hports htc hkind, hresidence]
    · rw [answers_iff (exec_tcForward_twoStep hrun hports htc)]
      exact ⟨congrArg (_ :: ·) (State.at_out ..), by simp [residenceKept, hresidence], State.at_od ..⟩
  case standby =>
    intro hrole halign
    exact ⟨fun hstep => (answers_iff (exec_benchTime_steps hrun hrole halign hstep t1 t2 t3 t4 tod)).2 (pairStep_spec hstep _ tod),
      fun hstep => (answers_iff (exec_benchTime_disciplines hrun hrole halign hstep t1 t2 t3 t4 tod)).2 (benchTime_disciplines_spec off)⟩
end

