-- ==== Sys2Proof/Proofs/Pulses.lean ====
section
/-! Time-triggered pulses (R99, R100) and time latches (R101), and O52. -/

namespace Sys2Proof.Machine

variable {s u : State} {c l n t target : Nat}

/-! ### Edges handed to outputs -/

/-- `u` differs from `s` at most in the field die. -/
def InField (s u : State) : Prop := { u with field := s.field } = s

theorem InField.od (h : InField s u) : u.od = s.od := by simpa using congrArg State.od h
theorem InField.time (h : InField s u) : u.time = s.time := by simpa using congrArg State.time h
theorem InField.out (h : InField s u) : u.out = s.out := by simpa using congrArg State.out h
theorem InField.now (h : InField s u) : u.now = s.now := by simpa using congrArg State.now h
theorem InField.get (h : InField s u) (o : Obj) (i j k : Nat) : u.get o i j k = s.get o i j k := get_congr (by rw [h.od])
theorem InField.ttp (h : InField s u) (c : Nat) : u.ttp c = s.ttp c := by simp only [State.ttp, h.time]
theorem InField.timing (h : InField s u) (keys : List Nat) : Timing keys s u where
  od k _ := by rw [h.od]
  rest := by
    conv_rhs => rw [← h]
    conv_lhs => rw [← h]

theorem inField_planEdge (target t : Nat) (lv : Bool) : InField s (planEdge s target t lv) := by
  unfold planEdge
  split <;> rfl

/-- Edges to the pulse level that are still to come on an FQ target are withdrawn. -/
def edgesWithdrawn (s : State) (target c : Nat) : State := if 1 ≤ target ∧ target ≤ 16 then dropEdges s (target - 1) (ttpLevel s c true) else s

theorem inField_edgesWithdrawn : InField s (edgesWithdrawn s target c) := by
  unfold edgesWithdrawn
  split <;> rfl

theorem pinEdge_od (lv : Bool) : (pinEdge s target lv).od = s.od := by
  unfold pinEdge
  split <;> rfl

theorem pinEdge_get (lv : Bool) (o : Obj) (i j k : Nat) : (pinEdge s target lv).get o i j k = s.get o i j k := get_congr (by rw [pinEdge_od])

theorem pinEdge_ttp (lv : Bool) : (pinEdge s target lv).ttp c = s.ttp c := by
  unfold pinEdge
  split <;> rfl

@[simp] theorem timing_pinEdge {keys : List Nat} (lv : Bool) : Timing keys s (pinEdge u target lv) ↔ Timing keys s u :=
  Timing.step (by unfold pinEdge; split <;> simp [setPin])

theorem bit_setBit (n k : Nat) (b : Bool) : bit (setBit n k b) k = b := by
  cases b with
  | true => exact bit_setBit_self n k
  | false =>
    unfold setBit
    split
    · next h => exact h
    · next h =>
      have hk : n / 2 ^ k % 2 = 1 := by simpa [bit] using h
      have hdiv : (n - 2 ^ k) / 2 ^ k = n / 2 ^ k - 1 := by simpa using Nat.sub_mul_div n (2 ^ k) 1
      simp only [bit, Bool.false_eq_true, if_false, hdiv, decide_eq_false_iff_not]
      omega

/-- A pin target switches at the edge itself. -/
theorem pinEdge_switches (lv : Bool) (hlo : 17 ≤ target) (hhi : target ≤ 20) : bit (pinEdge s target lv).time.tpOut (target - 17) = lv := by
  rw [pinEdge, if_pos ⟨hlo, hhi⟩]
  exact bit_setBit _ _ _

/-! ### Pulse channels -/

@[simp] theorem ttp_setTtp (x : TtpRt) : (s.setTtp c x).ttp c = x := by simp [State.ttp, State.setTtp]
@[simp] theorem ttp_set (o : Obj) (v : Int) (i j k : Nat) : (s.set o v i j k).ttp c = s.ttp c := rfl
@[simp] theorem ttp_emit (m : Msg) : (s.emit m).ttp c = s.ttp c := rfl
@[simp] theorem timing_setTtp {keys : List Nat} (x : TtpRt) : Timing keys s (u.setTtp c x) ↔ Timing keys s u := timing_withTime _

/-- Objects of a pulse channel that its commands write. -/
def pulseKeys (c : Nat) : List Nat := [Ob.Ttp.STATUS.key c, Ob.Ttp.ENABLE.key c, Ob.Ttp.COUNT.key c]

/-- PERIOD and WIDTH of a channel fit its target (Table 04-9). -/
def pulseFits (s : State) (c : Nat) : Bool :=
  ttpPeriodOk (s.nat Ob.Ttp.TARGET c) (s.nat Ob.Ttp.PERIOD c) && ttpWidthOk (s.nat Ob.Ttp.TARGET c) (s.nat Ob.Ttp.PERIOD c) (s.nat Ob.Ttp.WIDTH c)

theorem exec_ttpEnable_unfit (hrun : unitRuns s = true) (hfits : pulseFits s c = false) :
    exec (.ttpEnable c true t) s = .next ((s.at t).emit (.reply 0xFF 0 stRange [])) := by
  have hrefused : ttpWrite (s.at t) c true = (s.at t, stRange) := if_pos ⟨rfl, by simpa [pulseFits] using hfits⟩
  refine (whileOn_runs hrun).trans ?_
  rw [hrefused]
  rfl

theorem exec_ttpEnable (hrun : unitRuns s = true) {on : Bool} (h : on = true → pulseFits s c = true) :
    exec (.ttpEnable c on t) s = .next ((ttpEnable (s.at t) c on).emit (.reply 0xFF 0 stOk [])) := by
  have htaken : ttpWrite (s.at t) c on = (ttpEnable (s.at t) c on, stOk) :=
    if_neg fun ⟨hon, hunfit⟩ => by
      have hfits := h hon
      simp only [State.at_nat] at hunfit
      rw [pulseFits, hunfit] at hfits
      cases hfits
  refine (whileOn_runs hrun).trans ?_
  rw [htaken]
  rfl

/-- A multiple of the divisor is divided exactly. -/
theorem roundDiv_mul (x : Int) {d : Int} (hd : 0 < d) : roundDiv (x * d) d = x := by
  simp [roundDiv, Int.mul_fdiv_cancel _ hd.ne', Int.mul_fmod_left, hd]

/-- Lead that ENABLE asks of the start (R100; assumption log 115). -/
def pulseLead (target : Nat) : Nat := if 1 ≤ target ∧ target ≤ 16 then 5000 else 1000

/-- The channel as ENABLE loads it, its start in machine time. -/
def loadedPulse (s : State) (c : Nat) : TtpRt :=
  { start := (s.get Ob.Ttp.START c * 65536).toNat, period := s.nat Ob.Ttp.PERIOD c, width := s.nat Ob.Ttp.WIDTH c }

theorem loadedPulse_rise (h : 0 ≤ s.get Ob.Ttp.START c) : (loadedPulse s c).rise 0 = s.nat Ob.Ttp.START c := by
  have hstart : ((s.get Ob.Ttp.START c * 65536).toNat : Int) = s.get Ob.Ttp.START c * 65536 := Int.toNat_of_nonneg (by omega)
  simp [TtpRt.rise, loadedPulse, hstart, roundDiv_mul, State.nat]

/-- A channel armed. -/
def pulseArmed (s : State) (c : Nat) (x : TtpRt) : State := (((s.setTtp c x).set Ob.Ttp.STATUS 1 c).set Ob.Ttp.COUNT 0 c).set Ob.Ttp.ENABLE 1 c

theorem pulseArmed_ttp (x : TtpRt) : (pulseArmed s c x).ttp c = x := ttp_setTtp x
theorem pulseArmed_out (x : TtpRt) : (pulseArmed s c x).out = s.out := rfl

theorem ttpEnable_on (hbase : s.get Ob.Ttp.TIMEBASE c = 0) : ttpEnable s c true =
    let target := s.nat Ob.Ttp.TARGET c
    let u := edgesWithdrawn s target c
    let v := pulseArmed u c (loadedPulse s c)
    if s.get Ob.Ttp.START c < s.now + pulseLead target then (u.set Ob.Ttp.STATUS 4 c).set Ob.Ttp.ENABLE 0 c
    else planEdge v target ((loadedPulse s c).rise 0) (ttpLevel v c true) := by
  have hround : roundDiv (s.get Ob.Ttp.START c * 65536) 65536 = s.get Ob.Ttp.START c := roundDiv_mul _ (by decide)
  have hlead : ((pulseLead (s.nat Ob.Ttp.TARGET c) : Nat) : Int) = if 1 ≤ s.nat Ob.Ttp.TARGET c ∧ s.nat Ob.Ttp.TARGET c ≤ 16 then 5000 else 1000 := by
    unfold pulseLead
    split <;> rfl
  have hnow : (edgesWithdrawn s (s.nat Ob.Ttp.TARGET c) c).now = s.now := inField_edgesWithdrawn.now
  unfold ttpEnable
  dsimp only
  rw [if_pos rfl, if_pos hbase, hround, ← edgesWithdrawn, hnow, ← hlead]
  rfl

/-- A start ahead by the lead is a machine time. -/
theorem start_pos_of_lead (hlead : s.now + pulseLead (s.nat Ob.Ttp.TARGET c) ≤ s.nat Ob.Ttp.START c) : 0 < s.get Ob.Ttp.START c := by
  have hpos : 0 < pulseLead (s.nat Ob.Ttp.TARGET c) := by
    unfold pulseLead
    split <;> decide
  have hnat : s.nat Ob.Ttp.START c = (s.get Ob.Ttp.START c).toNat := rfl
  omega

/-- ENABLE in time arms the channel (R99, R100). -/
theorem ttpEnable_arms (hbase : s.get Ob.Ttp.TIMEBASE c = 0) (hlead : s.now + pulseLead (s.nat Ob.Ttp.TARGET c) ≤ s.nat Ob.Ttp.START c) :
    let u := ttpEnable s c true
    u.get Ob.Ttp.STATUS c = 1 ∧ u.get Ob.Ttp.ENABLE c = 1 ∧ u.get Ob.Ttp.COUNT c = 0 ∧ (u.ttp c).rise 0 = s.nat Ob.Ttp.START c ∧ (u.ttp c).high = false ∧
      u.out = s.out ∧ Timing (pulseKeys c) s u := by
  intro u
  have hstart := start_pos_of_lead hlead
  have hnat : s.nat Ob.Ttp.START c = (s.get Ob.Ttp.START c).toNat := rfl
  have hwithdrawn := inField_edgesWithdrawn (s := s) (target := s.nat Ob.Ttp.TARGET c) (c := c)
  have hu : InField (pulseArmed (edgesWithdrawn s (s.nat Ob.Ttp.TARGET c) c) c (loadedPulse s c)) u := by
    unfold u
    rw [ttpEnable_on hbase]
    dsimp only
    rw [if_neg (by omega)]
    exact inField_planEdge _ _ _
  have hpulse : u.ttp c = loadedPulse s c := (hu.ttp c).trans (pulseArmed_ttp _)
  refine ⟨?_, ?_, ?_, ?_, ?_, ?_, Timing.trans ?_ (hu.timing _)⟩
  · simp +decide [hu.get, pulseArmed]
  · simp +decide [hu.get, pulseArmed]
  · simp +decide [hu.get, pulseArmed]
  · rw [hpulse, loadedPulse_rise hstart.le]
  · rw [hpulse, loadedPulse]
  · rw [hu.out, pulseArmed_out, hwithdrawn.out]
  · simpa [pulseArmed, pulseKeys] using hwithdrawn.timing _

/-- ENABLE too late is refused by STATUS (R100). -/
theorem ttpEnable_late (hbase : s.get Ob.Ttp.TIMEBASE c = 0) (hstart : 0 ≤ s.get Ob.Ttp.START c)
    (hlate : s.nat Ob.Ttp.START c < s.now + pulseLead (s.nat Ob.Ttp.TARGET c)) :
    let u := ttpEnable s c true
    u.get Ob.Ttp.STATUS c = 4 ∧ u.get Ob.Ttp.ENABLE c = 0 ∧ Timing (pulseKeys c) s u := by
  intro u
  have hnat : s.nat Ob.Ttp.START c = (s.get Ob.Ttp.START c).toNat := rfl
  have hu : u = ((edgesWithdrawn s (s.nat Ob.Ttp.TARGET c) c).set Ob.Ttp.STATUS 4 c).set Ob.Ttp.ENABLE 0 c := (ttpEnable_on hbase).trans (if_pos (by omega))
  rw [hu]
  exact ⟨by simp +decide, by simp, by simpa [pulseKeys] using inField_edgesWithdrawn.timing _⟩

/-- A stop in a pulse waits for its end (R100). -/
theorem ttpEnable_stops_later (hst : s.get Ob.Ttp.STATUS c = 1 ∨ s.get Ob.Ttp.STATUS c = 2) (hhigh : (s.ttp c).high = true) :
    ttpEnable s c false = (s.set Ob.Ttp.ENABLE 0 c).setTtp c { s.ttp c with stopping := true } := by
  simp [ttpEnable, hst, hhigh]

/-- A stop between pulses acts at once (R100). -/
theorem ttpEnable_stops (hst : s.get Ob.Ttp.STATUS c = 1 ∨ s.get Ob.Ttp.STATUS c = 2) (hlow : (s.ttp c).high = false) :
    ttpEnable s c false = (edgesWithdrawn (s.set Ob.Ttp.ENABLE 0 c) (s.nat Ob.Ttp.TARGET c) c).set Ob.Ttp.STATUS 0 c := by
  simp [ttpEnable, hst, hlow, edgesWithdrawn]

theorem ttpEnable_stops_spec (hst : s.get Ob.Ttp.STATUS c = 1 ∨ s.get Ob.Ttp.STATUS c = 2) (hlow : (s.ttp c).high = false) :
    let u := ttpEnable s c false
    u.get Ob.Ttp.STATUS c = 0 ∧ u.get Ob.Ttp.ENABLE c = 0 ∧ u.ttp c = s.ttp c ∧ Timing (pulseKeys c) s u := by
  intro u
  have hwithdrawn := inField_edgesWithdrawn (s := s.set Ob.Ttp.ENABLE 0 c) (target := s.nat Ob.Ttp.TARGET c) (c := c)
  have hkept : Timing (pulseKeys c) s (edgesWithdrawn (s.set Ob.Ttp.ENABLE 0 c) (s.nat Ob.Ttp.TARGET c) c) :=
    Timing.trans (by simp [pulseKeys]) (hwithdrawn.timing _)
  unfold u
  rw [ttpEnable_stops hst hlow]
  exact ⟨by simp, by simp +decide [hwithdrawn.get], hwithdrawn.ttp c, by simpa [pulseKeys] using hkept⟩

/-! ### Planned edges -/

theorem exec_ttpEdge (hrun : unitRuns s = true) : exec (.ttpEdge c t) s = .next (ttpDue (s.at t) c) := whileOn_runs hrun

theorem ttpDue_early (h : s.now < (s.ttp c).next) : ttpDue s c = s := by simp [ttpDue, h]

/-- A channel in its pulse, the rise counted. -/
def pulseRisen (s : State) (c : Nat) : State := ((s.setTtp c { s.ttp c with high := true }).set Ob.Ttp.STATUS 2 c).wrapInc Ob.Ttp.COUNT c

theorem ttpDue_rises (hst : s.get Ob.Ttp.STATUS c = 1 ∨ s.get Ob.Ttp.STATUS c = 2) (hdue : (s.ttp c).next ≤ s.now) (hlow : (s.ttp c).high = false) :
    InField (pinEdge (pulseRisen s c) (s.nat Ob.Ttp.TARGET c) (ttpLevel s c true)) (ttpDue s c) := by
  have hrunning : ¬((s.get Ob.Ttp.STATUS c ≠ 1 ∧ s.get Ob.Ttp.STATUS c ≠ 2) ∨ s.now < (s.ttp c).next) := by omega
  have hlevel : ttpLevel (pulseRisen s c) c true = ttpLevel s c true := by simp +decide [ttpLevel, pulseRisen, State.wrapInc, State.flag]
  unfold ttpDue
  dsimp only
  rw [if_neg hrunning, if_pos hlow, ← pulseRisen, hlevel]
  exact inField_planEdge _ _ _

/-- A planned rise is counted and switches a pin target (R99). -/
theorem ttpDue_rises_spec (hst : s.get Ob.Ttp.STATUS c = 1 ∨ s.get Ob.Ttp.STATUS c = 2) (hdue : (s.ttp c).next ≤ s.now) (hlow : (s.ttp c).high = false) :
    let u := ttpDue s c
    u.ttp c = { s.ttp c with high := true } ∧ u.get Ob.Ttp.STATUS c = 2 ∧ u.get Ob.Ttp.COUNT c = (s.get Ob.Ttp.COUNT c + 1) % 2 ^ 32 ∧
      (17 ≤ s.nat Ob.Ttp.TARGET c → s.nat Ob.Ttp.TARGET c ≤ 20 → bit u.time.tpOut (s.nat Ob.Ttp.TARGET c - 17) = ttpLevel s c true) ∧ Timing (pulseKeys c) s u := by
  intro u
  have hu := ttpDue_rises hst hdue hlow
  refine ⟨(hu.ttp c).trans ((pinEdge_ttp _).trans (ttp_setTtp _)), (hu.get ..).trans ((pinEdge_get ..).trans ?_), (hu.get ..).trans ((pinEdge_get ..).trans ?_),
    fun hlo hhi => by rw [hu.time, pinEdge_switches _ hlo hhi], Timing.trans ?_ (hu.timing _)⟩
  · simp +decide [pulseRisen, State.wrapInc]
  · simp +decide [pulseRisen, State.wrapInc]
    rfl
  · simp [pulseRisen, pulseKeys]

/-- A channel after its pulse, the pin switched back. -/
def pulseFallen (s : State) (c : Nat) : State :=
  pinEdge (s.setTtp c { s.ttp c with high := false, k := (s.ttp c).k + 1, stopping := false }) (s.nat Ob.Ttp.TARGET c) (ttpLevel s c false)

/-- STATUS after a pulse: stopped, DONE after a single pulse, or as before. -/
def fallStatus (s : State) (c : Nat) : Int := if (s.ttp c).stopping then 0 else if (s.ttp c).period = 0 then 3 else s.get Ob.Ttp.STATUS c

theorem pulseFallen_get (o : Obj) (i j k : Nat) : (pulseFallen s c).get o i j k = s.get o i j k := pinEdge_get ..

theorem ttpDue_falls (hst : s.get Ob.Ttp.STATUS c = 1 ∨ s.get Ob.Ttp.STATUS c = 2) (hdue : (s.ttp c).next ≤ s.now) (hhigh : (s.ttp c).high = true) :
    InField (pulseFallen s c) (ttpDue s c) ∧ fallStatus s c = s.get Ob.Ttp.STATUS c ∨ ttpDue s c = (pulseFallen s c).set Ob.Ttp.STATUS (fallStatus s c) c := by
  have hrunning : ¬((s.get Ob.Ttp.STATUS c ≠ 1 ∧ s.get Ob.Ttp.STATUS c ≠ 2) ∨ s.now < (s.ttp c).next) := by omega
  unfold ttpDue fallStatus
  dsimp only
  rw [if_neg hrunning, if_neg (by simp [hhigh]), ← pulseFallen]
  by_cases hstop : (s.ttp c).stopping = true
  · simp [hstop]
  · by_cases hsingle : (s.ttp c).period = 0
    · simp [hstop, hsingle]
    · simp [hstop, hsingle, inField_planEdge]

/-- A planned fall ends the pulse; a single pulse's makes the channel DONE, a stop acts at it (R99, R100). -/
theorem ttpDue_falls_spec (hst : s.get Ob.Ttp.STATUS c = 1 ∨ s.get Ob.Ttp.STATUS c = 2) (hdue : (s.ttp c).next ≤ s.now) (hhigh : (s.ttp c).high = true) :
    let u := ttpDue s c
    u.ttp c = { s.ttp c with high := false, k := (s.ttp c).k + 1, stopping := false } ∧ u.get Ob.Ttp.STATUS c = fallStatus s c ∧
      (17 ≤ s.nat Ob.Ttp.TARGET c → s.nat Ob.Ttp.TARGET c ≤ 20 → bit u.time.tpOut (s.nat Ob.Ttp.TARGET c - 17) = ttpLevel s c false) ∧ Timing (pulseKeys c) s u := by
  intro u
  have hpulse : (pulseFallen s c).ttp c = { s.ttp c with high := false, k := (s.ttp c).k + 1, stopping := false } := (pinEdge_ttp _).trans (ttp_setTtp _)
  have hpin (hlo : 17 ≤ s.nat Ob.Ttp.TARGET c) (hhi : s.nat Ob.Ttp.TARGET c ≤ 20) : bit (pulseFallen s c).time.tpOut (s.nat Ob.Ttp.TARGET c - 17) = ttpLevel s c false :=
    pinEdge_switches _ hlo hhi
  have hkept : Timing (pulseKeys c) s (pulseFallen s c) := by simp [pulseFallen]
  rcases ttpDue_falls hst hdue hhigh with ⟨hu, hstatus⟩ | hu
  · exact ⟨(hu.ttp c).trans hpulse, (hu.get ..).trans ((pulseFallen_get ..).trans hstatus.symm), fun hlo hhi => by rw [hu.time, hpin hlo hhi], hkept.trans (hu.timing _)⟩
  · unfold u
    rw [hu]
    exact ⟨hpulse, State.get_set_self .., hpin, by simpa [pulseKeys] using hkept⟩

/-! ### Time latches -/

@[simp] theorem tlat_putTLat (x : TLatRt) : (putTLat s l x).tlat l = x := by simp [putTLat, State.tlat]
@[simp] theorem tlat_set (o : Obj) (v : Int) (i j k : Nat) : (s.set o v i j k).tlat l = s.tlat l := rfl
@[simp] theorem tlat_count (o : Obj) (i j k : Nat) (n : Int) : (s.count o i j k n).tlat l = s.tlat l := rfl

theorem timing_putTLat {keys : List Nat} (hk : Ob.TLat.EVENTS.key l ∈ keys) (x : TLatRt) : Timing keys s (putTLat u l x) ↔ Timing keys s u := by
  rw [putTLat, timing_setBytes hk, timing_withTime]

theorem exec_timeLatchEvent (hrun : unitRuns s = true) (falling : Bool) : exec (.timeLatchEvent l t falling) s = .next (takeStamp (s.at t) l t falling) :=
  whileOn_runs hrun

theorem takeStamp_off (h : s.get Ob.TLat.SOURCE l = 0) (falling : Bool) : takeStamp s l t falling = s := by simp [takeStamp, h]

/-- A stamp that the latch wants and has not taken. -/
structure StampWanted (s : State) (l t : Nat) (falling : Bool) : Prop where
  source : s.get Ob.TLat.SOURCE l ≠ 0
  edge : edgeWanted (s.get Ob.TLat.EDGE l) falling = true
  fresh : (s.tlat l).last ≠ some (t, falling)

theorem StampWanted.at {falling : Bool} (h : StampWanted s l t falling) : StampWanted (s.at t) l t falling := ⟨by simpa using h.source, by simpa using h.edge, by simpa using h.fresh⟩

theorem takeStamp_enters {falling : Bool} (h : StampWanted s l t falling) (hroom : (s.tlat l).fifo.length < 16) :
    takeStamp s l t falling = putTLat s l { s.tlat l with
      fifo := (s.tlat l).fifo ++ [(t, falling, (s.tlat l).seqNo)], seqNo := ((s.tlat l).seqNo + 1) % 256, last := some (t, falling) } := by
  simp [takeStamp, h.source, h.edge, h.fresh, hroom]

theorem takeStamp_lost {falling : Bool} (h : StampWanted s l t falling) (hfull : 16 ≤ (s.tlat l).fifo.length) :
    takeStamp s l t falling = (putTLat s l { s.tlat l with last := some (t, falling) }).count Ob.TLat.LOST l := by
  simp [takeStamp, h.source, h.edge, h.fresh, hfull]

theorem exec_timeLatchAck (hrun : unitRuns s = true) (n : Nat) :
    exec (.timeLatchAck l n t) s = .next ((putTLat (s.at t) l { s.tlat l with fifo := (s.tlat l).fifo.drop n }).set Ob.TLat.ACK n l) :=
  (whileOn_runs hrun).trans (by simp)

/-! ### The commands -/

/-- Axes and bytes are as they were. -/
theorem Timing.axes_and_bytes {keys : List Nat} (h : Timing keys (s.at t) u) : (∀ k, u.axis k = s.axis k) ∧ BytesKept s u :=
  ⟨((timing_from_at t).1 h).axis, ((timing_from_at t).1 h).bytesKept⟩

section Channel
variable (hrun : unitRuns s = true)
include hrun

theorem enable_in_time (hfits : pulseFits s c = true) (hbase : s.get Ob.Ttp.TIMEBASE c = 0)
    (hlead : (s.at t).now + pulseLead (s.nat Ob.Ttp.TARGET c) ≤ s.nat Ob.Ttp.START c) : Answers (.ttpEnable c true t) s fun w =>
      w.get Ob.Ttp.STATUS c = 1 ∧ w.get Ob.Ttp.ENABLE c = 1 ∧ w.get Ob.Ttp.COUNT c = 0 ∧ (w.ttp c).rise 0 = s.nat Ob.Ttp.START c ∧ (w.ttp c).high = false ∧
        w.out = .reply 0xFF 0 stOk [] :: s.out ∧ (∀ k, w.axis k = s.axis k) ∧ BytesKept s w := by
  obtain ⟨hstatus, henable, hcount, hrise, hlow, hout, hkept⟩ := ttpEnable_arms (s := s.at t) (c := c) (by simpa) (by simpa)
  exact (answers_iff (exec_ttpEnable hrun fun _ => hfits)).2
    ⟨hstatus, henable, hcount, by simpa using hrise, hlow, congrArg (_ :: ·) (hout.trans (State.at_out ..)), ((timing_emit _).2 hkept).axes_and_bytes⟩

theorem enable_too_late (hfits : pulseFits s c = true) (hbase : s.get Ob.Ttp.TIMEBASE c = 0) (hstart : 0 ≤ s.get Ob.Ttp.START c)
    (hlate : s.nat Ob.Ttp.START c < (s.at t).now + pulseLead (s.nat Ob.Ttp.TARGET c)) : Answers (.ttpEnable c true t) s fun w =>
      w.get Ob.Ttp.STATUS c = 4 ∧ w.get Ob.Ttp.ENABLE c = 0 ∧ (∀ k, w.axis k = s.axis k) ∧ BytesKept s w := by
  obtain ⟨hstatus, henable, hkept⟩ := ttpEnable_late (s := s.at t) (c := c) (by simpa) (by simpa) (by simpa)
  exact (answers_iff (exec_ttpEnable hrun fun _ => hfits)).2 ⟨hstatus, henable, ((timing_emit _).2 hkept).axes_and_bytes⟩

theorem stop_in_pulse (hst : s.get Ob.Ttp.STATUS c = 1 ∨ s.get Ob.Ttp.STATUS c = 2) (hhigh : (s.ttp c).high = true) : Answers (.ttpEnable c false t) s fun w =>
    w.ttp c = { s.ttp c with stopping := true } ∧ w.get Ob.Ttp.ENABLE c = 0 ∧ w.get Ob.Ttp.STATUS c = s.get Ob.Ttp.STATUS c ∧
      (∀ k, w.axis k = s.axis k) ∧ BytesKept s w := by
  rw [answers_iff (exec_ttpEnable (on := false) hrun nofun), ttpEnable_stops_later (by simpa) (by simpa)]
  refine ⟨by simp, by simp, by simp +decide, Timing.axes_and_bytes (keys := pulseKeys c) (t := t) ?_⟩
  simp [pulseKeys]

theorem stop_between_pulses (hst : s.get Ob.Ttp.STATUS c = 1 ∨ s.get Ob.Ttp.STATUS c = 2) (hlow : (s.ttp c).high = false) :
    Answers (.ttpEnable c false t) s fun w =>
      w.get Ob.Ttp.STATUS c = 0 ∧ w.get Ob.Ttp.ENABLE c = 0 ∧ w.ttp c = s.ttp c ∧ (∀ k, w.axis k = s.axis k) ∧ BytesKept s w := by
  obtain ⟨hstatus, henable, hpulse, hkept⟩ := ttpEnable_stops_spec (s := s.at t) (c := c) (by simpa) (by simpa)
  exact (answers_iff (exec_ttpEnable (on := false) hrun nofun)).2 ⟨hstatus, henable, by simpa using hpulse, ((timing_emit _).2 hkept).axes_and_bytes⟩

theorem edge_rises (hst : s.get Ob.Ttp.STATUS c = 1 ∨ s.get Ob.Ttp.STATUS c = 2) (hdue : (s.ttp c).next ≤ (s.at t).now) (hlow : (s.ttp c).high = false) :
    Answers (.ttpEdge c t) s fun w =>
      w.ttp c = { s.ttp c with high := true } ∧ w.get Ob.Ttp.STATUS c = 2 ∧ w.get Ob.Ttp.COUNT c = (s.get Ob.Ttp.COUNT c + 1) % 2 ^ 32 ∧
        (17 ≤ s.nat Ob.Ttp.TARGET c → s.nat Ob.Ttp.TARGET c ≤ 20 → bit w.time.tpOut (s.nat Ob.Ttp.TARGET c - 17) = ttpLevel s c true) ∧
        (∀ k, w.axis k = s.axis k) ∧ BytesKept s w := by
  obtain ⟨hpulse, hstatus, hcount, hpin, hkept⟩ := ttpDue_rises_spec (s := s.at t) (c := c) (by simpa) (by simpa) (by simpa)
  exact (answers_iff (exec_ttpEdge hrun)).2 ⟨by simpa using hpulse, hstatus, by simpa using hcount, by simpa using hpin, hkept.axes_and_bytes⟩

theorem edge_falls (hst : s.get Ob.Ttp.STATUS c = 1 ∨ s.get Ob.Ttp.STATUS c = 2) (hdue : (s.ttp c).next ≤ (s.at t).now) (hhigh : (s.ttp c).high = true) :
    Answers (.ttpEdge c t) s fun w =>
      w.ttp c = { s.ttp c with high := false, k := (s.ttp c).k + 1, stopping := false } ∧ w.get Ob.Ttp.STATUS c = fallStatus s c ∧
        (17 ≤ s.nat Ob.Ttp.TARGET c → s.nat Ob.Ttp.TARGET c ≤ 20 → bit w.time.tpOut (s.nat Ob.Ttp.TARGET c - 17) = ttpLevel s c false) ∧
        (∀ k, w.axis k = s.axis k) ∧ BytesKept s w := by
  obtain ⟨hpulse, hstatus, hpin, hkept⟩ := ttpDue_falls_spec (s := s.at t) (c := c) (by simpa) (by simpa) (by simpa)
  exact (answers_iff (exec_ttpEdge hrun)).2
    ⟨by simpa using hpulse, by simpa [fallStatus] using hstatus, by simpa using hpin, hkept.axes_and_bytes⟩

theorem stamp_enters {falling : Bool} (h : StampWanted s l t falling) (hroom : (s.tlat l).fifo.length < 16) : Answers (.timeLatchEvent l t falling) s fun w =>
    w.tlat l = { s.tlat l with fifo := (s.tlat l).fifo ++ [(t, falling, (s.tlat l).seqNo)], seqNo := ((s.tlat l).seqNo + 1) % 256, last := some (t, falling) } ∧
      ObjectsKept [Ob.TLat.EVENTS.key l] s w ∧ (∀ k, w.axis k = s.axis k) ∧ BytesKept s w := by
  rw [answers_iff (exec_timeLatchEvent hrun falling), takeStamp_enters h.at (by simpa), at_tlat]
  have hkept (x : TLatRt) : Timing [Ob.TLat.EVENTS.key l] (s.at t) (putTLat (s.at t) l x) := (timing_putTLat (by simp) x).2 .refl
  exact ⟨tlat_putTLat _, ((timing_from_at t).1 (hkept _)).od, (hkept _).axes_and_bytes⟩

theorem stamp_lost {falling : Bool} (h : StampWanted s l t falling) (hfull : 16 ≤ (s.tlat l).fifo.length) : Answers (.timeLatchEvent l t falling) s fun w =>
    (w.tlat l).fifo = (s.tlat l).fifo ∧ w.get Ob.TLat.LOST l = satInc 32 (s.get Ob.TLat.LOST l) ∧ (∀ k, w.axis k = s.axis k) ∧ BytesKept s w := by
  rw [answers_iff (exec_timeLatchEvent hrun falling), takeStamp_lost h.at (by simpa), at_tlat]
  have hkept (x : TLatRt) : Timing [Ob.TLat.EVENTS.key l, Ob.TLat.LOST.key l] (s.at t) ((putTLat (s.at t) l x).count Ob.TLat.LOST l) :=
    (timing_count (by simp) 1).2 ((timing_putTLat (by simp) x).2 .refl)
  have hkey : Ob.TLat.LOST.key l ≠ Ob.TLat.EVENTS.key l := Obj.key_ne_of_stride (by rfl) (by decide) l
  have hlost (x : TLatRt) : (putTLat (s.at t) l x).get Ob.TLat.LOST l = s.get Ob.TLat.LOST l :=
    (State.get_setBytes_ne _ _ _ _ _ _ _ _ _ _ hkey).trans (State.at_get ..)
  refine ⟨by rw [tlat_count, tlat_putTLat], ?_, (hkept _).axes_and_bytes⟩
  rw [State.get_count, if_pos rfl, hlost]
  rfl

theorem latch_acknowledged (n : Nat) : Answers (.timeLatchAck l n t) s fun w =>
    w.tlat l = { s.tlat l with fifo := (s.tlat l).fifo.drop n } ∧ w.bytes Ob.TLat.EVENTS l = ((s.tlat l).fifo.drop n).flatMap stampBytes ∧
      (∀ k, w.axis k = s.axis k) ∧ BytesKept s w := by
  rw [answers_iff (exec_timeLatchAck hrun n)]
  have hkept (x : TLatRt) : Timing [Ob.TLat.EVENTS.key l, Ob.TLat.ACK.key l] (s.at t) ((putTLat (s.at t) l x).set Ob.TLat.ACK n l) :=
    (timing_set (by simp) n).2 ((timing_putTLat (by simp) x).2 .refl)
  have hkey : Ob.TLat.EVENTS.key l ≠ Ob.TLat.ACK.key l := Obj.key_ne_of_stride (by rfl) (by decide) l
  have hevents (x : TLatRt) : ((putTLat (s.at t) l x).set Ob.TLat.ACK n l).bytes Ob.TLat.EVENTS l = x.fifo.flatMap stampBytes :=
    (bytes_congr (State.set_od_ne _ _ _ _ _ _ _ hkey)).trans (State.bytes_setBytes_self ..)
  exact ⟨by rw [tlat_set, tlat_putTLat], hevents _, (hkept _).axes_and_bytes⟩

end Channel

end Sys2Proof.Machine

open Sys2Proof Sys2Proof.Machine

/-- Settles O52: a channel by its commands and its planned edges, a latch by its stamps; edges handed to FQ outputs are all they leave in the field die. -/
theorem pulsesAndTimeLatchesFollowTheTimeBase : Obligations.PulsesAndTimeLatchesFollowTheTimeBase := by
  unfold Obligations.PulsesAndTimeLatchesFollowTheTimeBase
  intro s c l n t falling _ _ hrun s' x st target start lead fits y axes
  exact ⟨exec_ttpEnable_unfit hrun, fun hfits hbase => ⟨enable_in_time hrun hfits hbase, enable_too_late hrun hfits hbase⟩,
    fun hst => ⟨stop_in_pulse hrun hst, stop_between_pulses hrun hst⟩, fun hst hdue => ⟨edge_rises hrun hst hdue, edge_falls hrun hst hdue⟩,
    fun hearly => (exec_ttpEdge hrun).trans (congrArg _ (ttpDue_early (by simpa))),
    fun hsource hedge hfresh => ⟨stamp_enters hrun ⟨hsource, hedge, hfresh⟩, stamp_lost hrun ⟨hsource, hedge, hfresh⟩⟩,
    fun hoff => (exec_timeLatchEvent hrun falling).trans (congrArg _ (takeStamp_off (by simpa) falling)), latch_acknowledged hrun n⟩
end

