-- ==== Sys2Proof/Proofs/CommitReceipt.lean ====
section
/-! COMMIT received (R112, R114): what validation notes, what it shows where no step of Table 05-4 fails, and what where one does. -/

namespace Sys2Proof.Machine

variable {s u : State} {k : CommitRt}

/-! ### A unit without a partner -/

theorem flag_congr {o : Obj} {i j k : Nat} (h : SMap.get? u.od (o.key i j k) = SMap.get? s.od (o.key i j k)) : u.flag o i j k = s.flag o i j k := by
  simp only [State.flag, get_congr h]

theorem mirroring_of_unpaired (h : s.flag Ob.PairC.PAIR_ENABLE = false) : mirroring s = false := by simp [mirroring, h]

theorem mirror_of_unpaired (h : s.flag Ob.PairC.PAIR_ENABLE = false) (m : Mirror) : mirror s m = s := by simp [mirror, mirroring_of_unpaired h]

theorem waitsForStandby_of_unpaired (h : s.flag Ob.PairC.PAIR_ENABLE = false) (k : Nat) : waitsForStandby s k = false := by
  simp [waitsForStandby, mirroring_of_unpaired h]

/-! ### What the admission check notes -/

/-- `u` differs from `s` in objects of the list alone. -/
structure Noted (keys : List Nat) (s u : State) : Prop where
  od : ObjectsKept keys s u
  rest : { u with od := s.od } = s

theorem Noted.refl {keys : List Nat} : Noted keys s s := ⟨fun _ _ => rfl, rfl⟩

theorem Noted.set {keys : List Nat} (h : Noted keys s u) {o : Obj} {i j k : Nat} (ho : o.key i j k ∈ keys) (x : Int) : Noted keys s (u.set o x i j k) :=
  ⟨fun n hn => (State.set_od_ne _ _ _ _ _ _ _ fun he : n = _ => hn (he ▸ ho)).trans (h.od n hn), h.rest⟩

theorem Noted.put1 {keys : List Nat} (h : Noted keys s u) {o : Obj} {i j k : Nat} (ho : o.key i j k ∈ keys) (x : Int) : Noted keys s (u.put1 o x i j k) := by
  unfold State.put1
  split
  · exact h
  · exact h.set ho x

theorem Noted.paperwork {keys : List Nat} (h : Noted keys s u) : Paperwork keys s u where
  od := h.od
  rest := by
    conv_rhs => rw [← h.rest]
    conv_lhs => rw [← h.rest]

theorem Noted.com {keys : List Nat} (h : Noted keys s u) : u.com = s.com := by simpa using congrArg State.com h.rest
theorem Noted.staged {keys : List Nat} (h : Noted keys s u) : u.staged = s.staged := by simpa using congrArg State.staged h.rest
theorem Noted.out {keys : List Nat} (h : Noted keys s u) : u.out = s.out := by simpa using congrArg State.out h.rest
theorem Noted.now {keys : List Nat} (h : Noted keys s u) : u.now = s.now := by simpa using congrArg State.now h.rest
theorem Noted.host {keys : List Nat} (h : Noted keys s u) : u.host = s.host := by simpa using congrArg State.host h.rest

/-- The objects that an admission check writes (Table 02-10). -/
def admissionKeys : List Nat :=
  [Ob.Cyc.ADMIT_RESULT.key, Ob.Cyc.ADMIT_RING.key, Ob.Cyc.ADMIT_ACE.key, Ob.Cyc.ADMIT_PHASE.key, Ob.Cyc.MARGIN.key, Ob.PairX.SPLIT_MARGIN.key] ++
    (List.range 8).map fun e => Ob.Cyc.PREDICTED_FINISH.key 0 0 e

theorem noted_noteAdmission (x : Admission) : Noted admissionKeys s (noteAdmission s x) := by
  have hmargins : Noted admissionKeys s ((((((s.set Ob.Cyc.ADMIT_RESULT x.result).set Ob.Cyc.ADMIT_RING x.ring).set Ob.Cyc.ADMIT_ACE x.ace).set Ob.Cyc.ADMIT_PHASE x.phase).set
      Ob.Cyc.MARGIN (sat 32 x.margin))) :=
    ((((Noted.refl.set (by decide) _).set (by decide) _).set (by decide) _).set (by decide) _).set (by decide) _
  have hkeys : ∀ e < 8, Ob.Cyc.PREDICTED_FINISH.key 0 0 e ∈ admissionKeys := by decide
  unfold noteAdmission
  dsimp only
  split
  · exact hmargins
  · exact List.foldlRecOn (motive := Noted admissionKeys s) _ _ hmargins fun w hw e he => hw.set (hkeys e (List.mem_range.1 he)) _

theorem noted_admissionCheck (cfg : State) (target : Nat → Option Nat) : Noted admissionKeys s (admissionCheck s cfg target).1 :=
  (noted_noteAdmission _).put1 (by decide) _

/-- Whatever Table 05-4 finds, it leaves only what the admission check notes. -/
theorem noted_commitVerdict (new : State) : Noted admissionKeys s (commitVerdict s new).1 := by
  unfold commitVerdict
  split
  · exact .refl
  · exact noted_admissionCheck _ _

theorem commitCheck_status {new : State} {f : Nat × Nat × Nat} (h : commitCheck s new = some f) : f.1 ≠ stOk := by
  unfold commitCheck at h
  split at h
  case h_1 => cases h; exact (by decide : stLength ≠ stOk)
  split at h
  case h_1 => cases h; exact (by decide : stSafetyLocked ≠ stOk)
  split at h
  case h_1 => cases h; exact (by decide : stState ≠ stOk)
  split at h
  case h_1 => cases h; exact (by decide : stRange ≠ stOk)
  split at h
  case h_1 => cases h; exact (by decide : stRange ≠ stOk)
  cases h

/-- No step of Table 05-4 fails with OK. -/
theorem commitVerdict_status {new : State} {status reason obj : Nat} (h : (commitVerdict s new).2 = some (status, reason, obj)) : status ≠ stOk := by
  unfold commitVerdict at h
  split at h
  case h_1 f hf =>
    cases h
    exact commitCheck_status hf
  dsimp only at h
  split at h
  · cases h; decide
  split at h
  · cases h; decide
  split at h
  · cases h; decide
  cases h

/-! ### Steps 1 to 3 of Table 05-4 -/

/-- Neither a commit nor a huddle nor a rejoin stands in the way of a new commit (step 2). -/
structure CommitFree (s : State) : Prop where
  phase : s.com.phase = 0
  huddle : s.hud.active = false
  rejoin : ∀ r, r < 4 → s.get Ob.Ring.REJOIN_STATE r = 0

theorem rejoinTouched_of_none (new : State) (h : ∀ r, r < 4 → s.get Ob.Ring.REJOIN_STATE r = 0) : rejoinTouched s new = false := by
  simp only [rejoinTouched, List.any_eq_false, List.mem_range, Bool.and_eq_true, decide_eq_true_eq, not_and]
  exact fun r hr hrejoin => absurd (h r hr) hrejoin

theorem commitEntry_of_free (h : CommitFree s) : commitEntry s true = stOk := by
  simp [commitEntry, h.phase, h.huddle, rejoinTouched_of_none _ h.rejoin]

theorem commitEntry_of_busy (h : s.com.phase ≠ 0 ∨ s.hud.active = true) : commitEntry s true = stBusy := by
  rcases h with h | h <;> simp [commitEntry, h]

/-- A COMMIT that steps 1 to 3 end: its status is recorded and answered, with tag `tag` (R112). -/
def commitTurned (s : State) (k : CommitRt) (status tag : Nat) : State := commitReplies (commitResult s status 0 0) k status tag

theorem startCommit_of_refused {captain : Bool} {status : Nat} (h : commitEntry s captain = status) (hst : status ≠ stOk) :
    startCommit s k captain = (commitTurned s k status (s.nat Ob.Com.LAST_TAG), status) := by
  unfold startCommit
  dsimp only
  rw [h, if_pos hst]
  rfl

theorem startCommit_of_empty (h : CommitFree s) (hstaged : s.staged = []) : startCommit s k true = (commitTurned s k stOk 0, stOk) := by
  unfold startCommit
  dsimp only
  rw [commitEntry_of_free h, if_neg (not_not.2 rfl), hstaged]
  rfl

/-- What Table 05-4 says of the configuration that the staged copy makes, and the state with the admission check's objects. -/
def ownVerdict (s : State) (k : CommitRt) : State × Option (Nat × Nat × Nat) := commitVerdict (validating s k) (withEntries s s.staged)

theorem startCommit_of_valid (h : CommitFree s) (hstaged : s.staged ≠ []) (hpass : (ownVerdict s k).2 = none) : startCommit s k true = ((ownVerdict s k).1, stOk) := by
  have hverdict : commitVerdict (validating s k) (withEntries s s.staged) = ((ownVerdict s k).1, none) := Prod.ext rfl hpass
  unfold startCommit
  dsimp only
  rw [commitEntry_of_free h, if_neg (not_not.2 rfl), if_neg (by simpa using hstaged), hverdict]

theorem startCommit_of_fault (h : CommitFree s) (hstaged : s.staged ≠ []) {status reason obj : Nat} (hfault : (ownVerdict s k).2 = some (status, reason, obj)) :
    startCommit s k true = (commitReject (ownVerdict s k).1 status reason obj, stOk) := by
  have hverdict : commitVerdict (validating s k) (withEntries s s.staged) = ((ownVerdict s k).1, some (status, reason, obj)) := Prod.ext rfl hfault
  unfold startCommit
  dsimp only
  rw [commitEntry_of_free h, if_neg (not_not.2 rfl), if_neg (by simpa using hstaged), hverdict]

/-! ### Validation -/

/-- A free value has been drawn: the instant at which validation ends (R114). -/
def drawn (s : State) : State := { s with free := s.free + 1 }

/-- Objects that a commit writes up to the end of its validation. -/
def validationKeys : List Nat := Ob.Com.COMMIT_STATE.key :: admissionKeys

theorem validating_eq (s : State) (k : CommitRt) :
    validating s k = ((drawn s).modCom fun _ => (validating s k).com).set Ob.Com.COMMIT_STATE 1 := rfl

/-- A commit on its way into validation, whatever Table 05-4 finds (R109, R112). -/
theorem ownVerdict_spec (s : State) (k : CommitRt) :
    let u := (ownVerdict s k).1
    u.com = (validating s k).com ∧ u.get Ob.Com.COMMIT_STATE = 1 ∧ u.staged = s.staged ∧ u.out = s.out ∧ u.host = s.host ∧ u.now = s.now ∧
      Paperwork validationKeys (drawn s) u := by
  intro u
  have hnoted : Noted admissionKeys (validating s k) u := noted_commitVerdict _
  have hbook : Paperwork validationKeys (drawn s) (validating s k) := by
    rw [validating_eq]
    simp [validationKeys]
  have hstate : u.get Ob.Com.COMMIT_STATE = 1 := (hnoted.paperwork.get (by decide)).trans (State.get_set_self ..)
  exact ⟨hnoted.com, hstate, hnoted.staged, hnoted.out, hnoted.host, hnoted.now, hbook.trans (hnoted.paperwork.mono (List.subset_cons_self _ _))⟩

/-- The bound of R114. -/
theorem validating_end (s : State) (k : CommitRt) :
    s.now ≤ (validating s k).com.tQ ∧ (validating s k).com.tQ ≤ s.now + 50000 + 250 * s.staged.length := by
  have hend : (validating s k).com.tQ = s.now + Config.freeValue s.free % 2 ^ 21 % (50001 + 250 * s.staged.length) := rfl
  have hbound := Nat.mod_lt (Config.freeValue s.free % 2 ^ 21) (by omega : 0 < 50001 + 250 * s.staged.length)
  omega

/-! ### A fault of Table 05-4 -/

theorem publishLog_out : (publishLog s).out = s.out := rfl

@[simp] theorem logEntry_out (a b c d e f : Nat) (l : List Byte) : (logEntry s a b c d e f l).out = s.out := by
  unfold logEntry
  split
  · exact State.count_out ..
  · exact publishLog_out.trans (State.modSafe_out _ _)

/-- The outcome of a rejected commit sends nothing of its own where the staged copy stays. -/
theorem commitSettle_out {status : Nat} (hst : status ≠ stOk) (hkeep : s.com.discardAfter = false) (reason obj : Nat) :
    (commitSettle s status reason obj).out = s.out := by
  rw [commitSettle_eq]
  dsimp only
  rw [if_neg hst, hkeep, if_neg Bool.false_ne_true]
  unfold commitOver resultLogged commitResult
  dsimp only
  split <;> simp

theorem commitSettle_object (status reason obj : Nat) : (commitSettle s status reason obj).get Ob.Com.LAST_OBJECT = obj :=
  ((paperwork_commitSettle status reason obj).get (by decide)).trans (State.get_set_self ..)

theorem commitSettle_host {status : Nat} (hst : status ≠ stOk) (hkeep : s.com.discardAfter = false) (reason obj : Nat) :
    (commitSettle s status reason obj).host = s.host := by
  rw [commitSettle_eq]
  dsimp only
  rw [if_neg hst, hkeep, if_neg Bool.false_ne_true]
  exact resultLogged_host _ _ _

/-- A rejected commit before it is answered. -/
def turnedDown (s : State) (status reason obj : Nat) : State :=
  (commitSettle (s.count Ob.Com.REJECT_COUNT) status reason obj).modCom fun c => { c with phase := 0 }

theorem commitReject_eq (status reason obj : Nat) :
    let w := turnedDown s status reason obj
    commitReject s status reason obj = commitReplies (mirror w (.commit w.com)) s.com status (w.nat Ob.Com.LAST_TAG) := rfl

theorem commitReject_sent (status reason obj : Nat) : Sent (turnedDown s status reason obj) (commitReject s status reason obj) :=
  (sent_mirror _).trans (sent_commitReplies _ _ _)

theorem commitReject_object (status reason obj : Nat) : (commitReject s status reason obj).get Ob.Com.LAST_OBJECT = obj :=
  ((commitReject_sent status reason obj).get ..).trans (commitSettle_object status reason obj)

theorem turnedDown_spec {status : Nat} (hst : status ≠ stOk) (hkeep : s.com.discardAfter = false) (reason obj : Nat) :
    let w := turnedDown s status reason obj
    w.out = s.out ∧ w.host = s.host ∧ Paperwork rejectKeys s w := by
  have hcounted : Paperwork rejectKeys s (s.count Ob.Com.REJECT_COUNT) := (paperwork_count List.mem_cons_self _).2 .refl
  exact ⟨commitSettle_out (s := s.count Ob.Com.REJECT_COUNT) hst hkeep reason obj, commitSettle_host (s := s.count Ob.Com.REJECT_COUNT) hst hkeep reason obj,
    hcounted.trans ((paperwork_modCom _).2 ((commitSettle_paperwork status reason obj).mono (List.subset_cons_self _ _)))⟩

/-- Objects that a commit rejected by Table 05-4 writes. -/
def faultKeys : List Nat := validationKeys ++ rejectKeys

/-- What a commit shows that a step of Table 05-4 rejects: the staged copy stays (R112). -/
theorem commitReject_ownVerdict {status reason obj : Nat} (hfault : (ownVerdict s k).2 = some (status, reason, obj)) (hkeep : k.discardAfter = false) :
    let u := commitReject (ownVerdict s k).1 status reason obj
    u.com.phase = 0 ∧ u.get Ob.Com.COMMIT_STATE = 0 ∧ u.get Ob.Com.LAST_RESULT = status ∧ u.get Ob.Com.LAST_REASON = reason ∧ u.get Ob.Com.LAST_OBJECT = obj ∧
      u.get Ob.Com.REJECT_COUNT = satInc 32 (s.get Ob.Com.REJECT_COUNT) ∧ u.staged = s.staged ∧ Paperwork faultKeys (drawn s) u := by
  obtain ⟨hcom, -, hstaged, -, -, -, hbook⟩ := ownVerdict_spec s k
  have hkept : (ownVerdict s k).1.com.discardAfter = false := by rw [hcom]; exact hkeep
  obtain ⟨hphase, -, hstate, hresult, hreason, hcount, hstays, hrejected⟩ := commitReject_spec (s := (ownVerdict s k).1) (commitVerdict_status hfault) reason obj
  have hcounted : (ownVerdict s k).1.get Ob.Com.REJECT_COUNT = s.get Ob.Com.REJECT_COUNT := hbook.get (by decide)
  exact ⟨hphase, hstate, hresult, hreason, commitReject_object _ _ _, hcounted ▸ hcount, (hstays hkept).trans hstaged,
    (hbook.mono (List.subset_append_left _ _)).trans (hrejected.mono (List.subset_append_right _ _))⟩

end Sys2Proof.Machine
end

