-- ==== Sys2Proof/Proofs/CommitObject.lean ====
section
/-! COMMIT (0x3000.04) written by a session: refused, empty, in validation, or rejected (R109, R112, R114, R120). -/

namespace Sys2Proof.Machine

variable {s u : State} {sess t : Nat}

@[simp] theorem paperwork_emit {keys : List Nat} (m : Msg) : Paperwork keys s (u.emit m) ↔ Paperwork keys s u := Paperwork.step ⟨fun _ _ => rfl, rfl⟩

/-! ### A write by a session outside a WRITE message -/

/-- A request or write of an open session renews its lease (R143). -/
def renewed (s : State) (k : Nat) : State := s.set Ob.Sess.LAST_RENEWED s.now k

theorem sessOpen_lt {k : Nat} (h : sessOpen s k = true) : k < 16 := by
  simp only [sessOpen, Bool.and_eq_true, decide_eq_true_eq] at h
  exact h.1

@[simp] theorem at_sessOpen (t k : Nat) : sessOpen (s.at t) k = sessOpen s k := by simp [sessOpen]

/-- LAST_RENEWED of a session stands in the block of that session. -/
theorem lastRenewed_key_div (sess : Nat) : Ob.Sess.LAST_RENEWED.key sess / 256 = 0x1110 + sess := by
  simp only [Obj.key, Ob.Sess.LAST_RENEWED]
  omega

theorem ne_lastRenewed {n : Nat} (hn : n / 256 < 0x1110 ∨ 0x1120 ≤ n / 256) (hx : sess < 16) : n ≠ Ob.Sess.LAST_RENEWED.key sess := by
  have := lastRenewed_key_div sess
  rintro rfl
  omega

theorem renewed_get {o : Obj} {i j k : Nat} (ho : o.key i j k / 256 < 0x1110 ∨ 0x1120 ≤ o.key i j k / 256) (hx : sess < 16) :
    (renewed s sess).get o i j k = s.get o i j k := State.get_set_ne _ _ _ _ _ _ _ _ _ _ (ne_lastRenewed ho hx)

theorem renewed_isCaptain (hx : sess < 16) (k : Nat) : isCaptain (renewed s sess) k = isCaptain s k := by
  have hcaptain : (renewed s sess).get Ob.Poss.CAPTAIN = s.get Ob.Poss.CAPTAIN := renewed_get (by decide) hx
  simp only [isCaptain, hcaptain]
  rfl

theorem at_isCaptain (k : Nat) : isCaptain (s.at t) k = isCaptain s k := by simp [isCaptain]

theorem answerBy_of_unpaired {r : Act} (h : r.1.flag Ob.PairC.PAIR_ENABLE = false) : answerBy sess r = answer r := by
  simp [answerBy, waitsForStandby_of_unpaired h]

/-! ### One entry of a WRITE (R106, R130) -/

section Entry

variable {e : WriteEntry} {o : Obj} {v : Val}

/-- An object that only the captain writes refuses every other session. -/
theorem writeEntry_of_not_captain (hrow : lookup e.idx e.sub = .inl o) (hacc : o.acc = .cmd ∨ o.acc = .rwc) (h : isCaptain s sess = false) :
    writeEntry s sess e = (if o = Ob.Com.COMMIT then commitResult s stNotCaptain 0 0 else s, stNotCaptain) := by
  unfold writeEntry
  rw [hrow]
  dsimp only
  rcases hacc with hacc | hacc <;> rw [hacc, if_neg (by decide), if_pos ⟨by decide, h⟩]

/-- The captain's write of a value in range, whole and of the object's type. -/
structure TakenFrom (s : State) (sess : Nat) (e : WriteEntry) (o : Obj) (v : Val) : Prop where
  row : lookup e.idx e.sub = .inl o
  captain : isCaptain s sess = true
  type : e.ty = o.ty.code
  whole : e.seg = none
  value : valOf o.ty e.val = some v
  range : rangeStatus o v = stOk

/-- A value so taken is staged where it configures, and a command acts at once. -/
theorem writeEntry_of_taken (h : TakenFrom s sess e o v) (hacc : o.acc = .cmd ∨ o.acc = .rwc) :
    writeEntry s sess e = if o.acc = .rwc then stage s { key := e.idx * 256 + e.sub, val := v }
      else writeNow s sess o (e.idx * 256 + e.sub) ((o.at_ e.idx).getD (0, 0)).1 (e.sub - o.sub) v := by
  obtain ⟨hrow, hcaptain, htype, hwhole, hvalue, hrange⟩ := h
  unfold writeEntry
  rw [hrow]
  dsimp only
  rcases hacc with hacc | hacc <;>
    rw [hacc, if_neg (by decide), if_neg (by simp [hcaptain]), if_neg (by simp), if_neg (not_not.2 htype), hwhole, hvalue]
  · simp [hrange]
  · simp [hrange, stageWrite, hacc]

end Entry

/-! ### COMMIT_OBJECT -/

/-- 1 written to COMMIT. -/
def commitByte : WriteEntry := { idx := Ob.Com.COMMIT.base, sub := Ob.Com.COMMIT.sub, ty := Ob.Com.COMMIT.ty.code, val := valBytes Ob.Com.COMMIT.ty (.num 1) }

theorem lookup_commit : lookup Ob.Com.COMMIT.base Ob.Com.COMMIT.sub = .inl Ob.Com.COMMIT := by decide +kernel

theorem writeNow_commit (i k : Nat) :
    writeNow s sess Ob.Com.COMMIT Ob.Com.COMMIT.key i k (.num 1) = kept Ob.Com.COMMIT 1 (commitWrite s sess (isCaptain s sess)) := rfl

theorem writeEntry_commit (h : isCaptain s sess = true) : writeEntry s sess commitByte = kept Ob.Com.COMMIT 1 (commitWrite s sess true) := by
  have htaken : TakenFrom s sess commitByte Ob.Com.COMMIT (.num 1) := ⟨lookup_commit, h, rfl, rfl, by decide, by decide⟩
  rw [writeEntry_of_taken htaken (.inl rfl), if_neg (by decide), ← h]
  exact writeNow_commit _ _

theorem exec_commitObject (h : SessionWrites s sess) {r : Act} (hr : writeEntry (renewed (s.at t) sess) sess commitByte = r)
    (hpair : r.1.flag Ob.PairC.PAIR_ENABLE = false) : exec (.commitObject sess t) s = .next (r.1.emit (.reply 0xFF 0 r.2 [])) := by
  obtain ⟨hrun, hopen, hconf, -⟩ := h
  have hwrite : objectWrite (s.at t) sess Ob.Com.COMMIT 1 = r := by
    unfold objectWrite objectOctets
    rw [if_neg (by simp [hopen])]
    dsimp only
    rw [if_neg (by simp [hconf])]
    exact hr
  refine (whileOn_runs hrun).trans ?_
  rw [hwrite, answerBy_of_unpaired hpair]
  rfl

/-- Objects that a COMMIT turned away by steps 1 to 3 writes, as an object of session `sess`. -/
def turnedKeys (sess : Nat) : List Nat :=
  [Ob.Com.LAST_RESULT.key, Ob.Com.LAST_REASON.key, Ob.Com.LAST_OBJECT.key, Ob.Com.COMMIT.key, Ob.Sess.LAST_RENEWED.key sess]

theorem Paperwork.od_at {keys : List Nat} (h : Paperwork keys (s.at t) u) : ObjectsKept keys s u := fun k hk => by
  rw [h.od k hk, State.at_od]

theorem kept_ok (o : Obj) (x : Int) (i j k : Nat) : kept o x (u, stOk) i j k = (u.set o x i j k, stOk) := rfl

/-- A write of COMMIT that steps 1 to 3 end. -/
def commitTurnedObject (s : State) (status : Nat) : Act := kept Ob.Com.COMMIT 1 (commitResult s status 0 0, status)

theorem commitTurnedObject_spec (s : State) (sess status : Nat) :
    let r := commitTurnedObject s status
    r.2 = status ∧ r.1.get Ob.Com.LAST_RESULT = status ∧ r.1.com = s.com ∧ r.1.out = s.out ∧ r.1.staged = s.staged ∧ Paperwork (turnedKeys sess) s r.1 := by
  unfold commitTurnedObject commitResult
  by_cases hst : status = stOk
  · rw [hst, kept_ok]
    simp +decide [turnedKeys, State.get_set]
  · rw [kept_refused hst]
    simp +decide [turnedKeys, State.get_set]

/-- What a write of COMMIT that steps 1 to 3 end leaves and answers. -/
theorem commitObject_turned (h : SessionWrites s sess) {status : Nat}
    (hr : writeEntry (renewed (s.at t) sess) sess commitByte = commitTurnedObject (renewed (s.at t) sess) status) :
    Answers (.commitObject sess t) s fun u =>
      u.get Ob.Com.LAST_RESULT = status ∧ ObjectsKept (turnedKeys sess) s u ∧ u.com = s.com ∧ u.out = .reply 0xFF 0 status [] :: s.out ∧
        u.staged = s.staged ∧ (∀ q, u.axis q = s.axis q) ∧ BytesKept s u := by
  obtain ⟨hstatus, hresult, hcom, hout, hstaged, hbook⟩ := commitTurnedObject_spec (renewed (s.at t) sess) sess status
  have hrenewed : Paperwork (turnedKeys sess) (s.at t) (renewed (s.at t) sess) := (paperwork_set (by simp [turnedKeys]) _).2 .refl
  have ⟨_, hopen, _, hpair⟩ := h
  have hkept := hrenewed.trans hbook
  have hunpaired : (commitTurnedObject (renewed (s.at t) sess) status).1.flag Ob.PairC.PAIR_ENABLE = false := by
    have hkey : Ob.PairC.PAIR_ENABLE.key ∉ turnedKeys sess := by
      simpa +decide [turnedKeys] using ne_lastRenewed (by decide) (sessOpen_lt hopen)
    rw [State.flag, hkept.get hkey, State.at_get]
    exact hpair
  rw [answers_iff (exec_commitObject h hr hunpaired), hstatus]
  exact ⟨hresult, ((paperwork_emit _).2 hkept).od_at, hcom.trans (State.at_com ..), congrArg (_ :: ·) (hout.trans (State.at_out ..)),
    hstaged.trans (State.at_staged ..), ((paperwork_emit _).2 hkept).kept_at⟩

theorem commitObject_not_captain (hopen : sessOpen s sess = true) (hcaptain : isCaptain s sess = false) :
    writeEntry (renewed (s.at t) sess) sess commitByte = commitTurnedObject (renewed (s.at t) sess) stNotCaptain := by
  have hnot : isCaptain (renewed (s.at t) sess) sess = false := by rw [renewed_isCaptain (sessOpen_lt hopen), at_isCaptain, hcaptain]
  rw [writeEntry_of_not_captain lookup_commit (.inl rfl) hnot, if_pos rfl]
  rfl

/-- The COMMIT of a session by the object. -/
def byObject (sess : Nat) : CommitRt := { viaObject := true, sess := sess }

theorem commitReplies_of_object {k : CommitRt} (h : k.viaObject = true) (status tag : Nat) : commitReplies s k status tag = s := by
  simp [commitReplies, h]

theorem commitObject_captain (hopen : sessOpen s sess = true) (hcaptain : isCaptain s sess = true) :
    writeEntry (renewed (s.at t) sess) sess commitByte = kept Ob.Com.COMMIT 1 (startCommit (renewed (s.at t) sess) (byObject sess) true) :=
  writeEntry_commit (by rw [renewed_isCaptain (sessOpen_lt hopen), at_isCaptain, hcaptain])

theorem commitObject_busy (hopen : sessOpen s sess = true) (hcaptain : isCaptain s sess = true) (hbusy : s.com.phase ≠ 0 ∨ s.hud.active = true) :
    writeEntry (renewed (s.at t) sess) sess commitByte = commitTurnedObject (renewed (s.at t) sess) stBusy := by
  rw [commitObject_captain hopen hcaptain, startCommit_of_refused (commitEntry_of_busy (by simpa [renewed] using hbusy)) (by decide), commitTurned, commitReplies_of_object rfl]
  rfl

theorem CommitFree.renewed_at (h : CommitFree s) (hx : sess < 16) (t : Nat) : CommitFree (renewed (s.at t) sess) where
  phase := (congrArg CommitRt.phase (State.at_com s t)).trans h.phase
  huddle := (congrArg HuddleRt.active (State.at_hud s t)).trans h.huddle
  rejoin r hr := by
    have hkeys : ∀ r < 4, Ob.Ring.REJOIN_STATE.key r / 256 < 0x1110 ∨ 0x1120 ≤ Ob.Ring.REJOIN_STATE.key r / 256 := by decide
    rw [renewed_get (hkeys r hr) hx, State.at_get, h.rejoin r hr]

theorem commitObject_empty (hopen : sessOpen s sess = true) (hcaptain : isCaptain s sess = true) (hfree : CommitFree s) (hstaged : s.staged = []) :
    writeEntry (renewed (s.at t) sess) sess commitByte = commitTurnedObject (renewed (s.at t) sess) stOk := by
  rw [commitObject_captain hopen hcaptain, startCommit_of_empty (hfree.renewed_at (sessOpen_lt hopen) t) ((State.at_staged s t).trans hstaged), commitTurned,
    commitReplies_of_object rfl]
  rfl

/-- Axes and bytes stand where a commit has gone into validation. -/
theorem Paperwork.kept_drawn {keys : List Nat} (h : Paperwork keys (drawn (renewed (s.at t) sess)) u) : (∀ q, u.axis q = s.axis q) ∧ BytesKept s u :=
  ⟨fun q => (h.axis q).trans (State.at_axis s t q), (bytesKept_at t).1 h.bytesKept⟩

theorem Paperwork.unpaired {keys : List Nat} (h : Paperwork keys s u) (hkey : Ob.PairC.PAIR_ENABLE.key ∉ keys) (hpair : s.flag Ob.PairC.PAIR_ENABLE = false) :
    u.flag Ob.PairC.PAIR_ENABLE = false := by
  rw [State.flag, h.get hkey]
  exact hpair

theorem drawn_unpaired (hpair : s.flag Ob.PairC.PAIR_ENABLE = false) (hx : sess < 16) : (drawn (renewed (s.at t) sess)).flag Ob.PairC.PAIR_ENABLE = false := by
  have hget : (drawn (renewed (s.at t) sess)).get Ob.PairC.PAIR_ENABLE = s.get Ob.PairC.PAIR_ENABLE := (renewed_get (by decide) hx).trans (State.at_get ..)
  rw [State.flag, hget]
  exact hpair

/-- A COMMIT that passes steps 1 to 3 is answered OK at once, whatever Table 05-4 finds then (R112). -/
theorem exec_commitObject_received (h : SessionWrites s sess) (hcaptain : isCaptain s sess = true)
    (hstart : startCommit (renewed (s.at t) sess) (byObject sess) true = (u, stOk)) {keys : List Nat} (hbook : Paperwork keys (drawn (renewed (s.at t) sess)) u)
    (hkey : Ob.PairC.PAIR_ENABLE.key ∉ keys) : exec (.commitObject sess t) s = .next ((u.set Ob.Com.COMMIT 1).emit (.reply 0xFF 0 stOk [])) := by
  have ⟨_, hopen, _, hpair⟩ := h
  have hact := commitObject_captain (t := t) hopen hcaptain
  rw [hstart, kept_ok] at hact
  refine exec_commitObject h hact ((flag_congr ?_).trans (hbook.unpaired hkey (drawn_unpaired hpair (sessOpen_lt hopen))))
  exact State.set_od_ne _ _ _ _ _ _ _ (by decide)

theorem commitObject_valid (h : SessionWrites s sess) (hcaptain : isCaptain s sess = true) (hfree : CommitFree s) (hstaged : s.staged ≠ [])
    (hpass : (ownVerdict (renewed (s.at t) sess) (byObject sess)).2 = none) : Answers (.commitObject sess t) s fun u =>
      u.com.phase = 1 ∧ u.get Ob.Com.COMMIT_STATE = 1 ∧ u.com.entries = s.staged ∧ u.com.viaObject = true ∧ u.com.sess = sess ∧ u.now ≤ u.com.tQ ∧
        u.com.tQ ≤ u.now + 50000 + 250 * s.staged.length ∧ u.get Ob.Com.REJECT_COUNT = s.get Ob.Com.REJECT_COUNT ∧
        u.out = .reply 0xFF 0 stOk [] :: s.out ∧ u.staged = s.staged ∧ (∀ q, u.axis q = s.axis q) ∧ BytesKept s u := by
  have ⟨_, hopen, _, _⟩ := h
  have hx := sessOpen_lt hopen
  have hstood : (renewed (s.at t) sess).staged = s.staged := State.at_staged s t
  have hstart := startCommit_of_valid (hfree.renewed_at hx t) (hstood.trans_ne hstaged) hpass
  obtain ⟨hcom, hstate, hkept, hout, -, hnow, hbook⟩ := ownVerdict_spec (renewed (s.at t) sess) (byObject sess)
  obtain ⟨hfirst, hlast⟩ := validating_end (renewed (s.at t) sess) (byObject sess)
  generalize (ownVerdict (renewed (s.at t) sess) (byObject sess)).1 = v at *
  have hcount : v.get Ob.Com.REJECT_COUNT = s.get Ob.Com.REJECT_COUNT := (hbook.get (by decide)).trans ((renewed_get (by decide) hx).trans (State.at_get ..))
  have hentries : v.com.entries = s.staged := (congrArg CommitRt.entries hcom).trans hstood
  rw [← hnow, ← hcom] at hfirst hlast
  rw [hstood] at hlast
  rw [answers_iff (exec_commitObject_received h hcaptain hstart hbook (by decide))]
  exact ⟨congrArg CommitRt.phase hcom, (State.get_set_ne _ _ _ _ _ _ _ _ _ _ (by decide)).trans hstate, hentries, congrArg CommitRt.viaObject hcom,
    congrArg CommitRt.sess hcom, hfirst, hlast, (State.get_set_ne _ _ _ _ _ _ _ _ _ _ (by decide)).trans hcount, congrArg (_ :: ·) (hout.trans (State.at_out ..)),
    hkept.trans hstood, hbook.kept_drawn⟩

/-- A rejected commit by the object sends nothing: its status went out with the write (R112). -/
theorem commitReject_out {status : Nat} (hst : status ≠ stOk) (hvia : s.com.viaObject = true) (hkeep : s.com.discardAfter = false)
    (hpair : s.flag Ob.PairC.PAIR_ENABLE = false) (reason obj : Nat) : (commitReject s status reason obj).out = s.out := by
  obtain ⟨hout, -, hbook⟩ := turnedDown_spec hst hkeep reason obj
  have heq := commitReject_eq (s := s) status reason obj
  dsimp only at heq
  rw [heq, commitReplies_of_object hvia, mirror_of_unpaired (hbook.unpaired (by decide) hpair), hout]

theorem commitObject_fault (h : SessionWrites s sess) (hcaptain : isCaptain s sess = true) (hfree : CommitFree s) (hstaged : s.staged ≠ []) {status reason obj : Nat}
    (hfault : (ownVerdict (renewed (s.at t) sess) (byObject sess)).2 = some (status, reason, obj)) : Answers (.commitObject sess t) s fun u =>
      u.com.phase = 0 ∧ u.get Ob.Com.COMMIT_STATE = 0 ∧ u.get Ob.Com.LAST_RESULT = status ∧ u.get Ob.Com.LAST_REASON = reason ∧ u.get Ob.Com.LAST_OBJECT = obj ∧
        u.get Ob.Com.REJECT_COUNT = satInc 32 (s.get Ob.Com.REJECT_COUNT) ∧ u.out = .reply 0xFF 0 stOk [] :: s.out ∧ u.staged = s.staged ∧
        (∀ q, u.axis q = s.axis q) ∧ BytesKept s u := by
  have ⟨_, hopen, _, hpair⟩ := h
  have hx := sessOpen_lt hopen
  have hstood : (renewed (s.at t) sess).staged = s.staged := State.at_staged s t
  have hstart := startCommit_of_fault (hfree.renewed_at hx t) (hstood.trans_ne hstaged) hfault
  obtain ⟨hcom, -, -, hout, -, -, hvalidated⟩ := ownVerdict_spec (renewed (s.at t) sess) (byObject sess)
  have hsilent := commitReject_out (commitVerdict_status hfault) (congrArg CommitRt.viaObject hcom) (congrArg CommitRt.discardAfter hcom)
    (hvalidated.unpaired (by decide) (drawn_unpaired hpair hx)) reason obj
  obtain ⟨hphase, hstate, hresult, hreason, hobject, hcount, hkept, hbook⟩ := commitReject_ownVerdict hfault rfl
  have hcounted : (renewed (s.at t) sess).get Ob.Com.REJECT_COUNT = s.get Ob.Com.REJECT_COUNT := (renewed_get (by decide) hx).trans (State.at_get ..)
  rw [answers_iff (exec_commitObject_received h hcaptain hstart hbook (by decide))]
  refine ⟨hphase, ?_, ?_, ?_, ?_, ?_, congrArg (_ :: ·) (hsilent.trans (hout.trans (State.at_out ..))), hkept.trans hstood, hbook.kept_drawn⟩ <;>
    rw [State.emit_get, State.get_set_ne _ _ _ _ _ _ _ _ _ _ (by decide)]
  · exact hstate
  · exact hresult
  · exact hreason
  · exact hobject
  · rw [hcount, hcounted]

end Sys2Proof.Machine
end

