-- ==== Sys2Proof/Proofs/StoredConfig.lean ====
section
/-! DISCARD, SAVE and ERASE_STORED (R109, R126 to R129), and O33. -/

namespace Sys2Proof.Machine

variable {s u : State} {t : Nat}

@[simp] theorem objectsKept_at {keys : List Nat} : ObjectsKept keys (s.at t) u ↔ ObjectsKept keys s u := by simp [ObjectsKept]

/-! ### DISCARD -/

theorem exec_discard (hrun : unitRuns s = true) (hphase : s.com.phase = 0) : exec (.discard t) s = .next (written Ob.Com.DISCARD 0 (putStaged (s.at t) [])) := by
  have htaken : discardWrite (s.at t) = (putStaged (s.at t) [], stOk) := if_neg (by simp [hphase])
  refine (whileOn_runs hrun).trans ?_
  rw [htaken]
  rfl

theorem exec_discard_busy (hrun : unitRuns s = true) (hphase : s.com.phase ≠ 0) : exec (.discard t) s = .next ((s.at t).emit (.reply 0xFF 0 stBusy [])) := by
  have hrefused : discardWrite (s.at t) = (s.at t, stBusy) := if_pos (by simpa)
  refine (whileOn_runs hrun).trans ?_
  rw [hrefused, kept_refused (by decide)]
  rfl

/-- Objects that DISCARD writes. -/
def discardKeys : List Nat := [Ob.Com.STAGED_COUNT.key, Ob.Com.STAGED_BYTES.key, Ob.Com.DISCARD.key]

theorem paperwork_discarded : Paperwork discardKeys s (written Ob.Com.DISCARD 0 (putStaged s [])) := by simp +decide [written, putStaged]

theorem discard_empties (hrun : unitRuns s = true) (hphase : s.com.phase = 0) : Answers (.discard t) s fun u =>
    u.staged = [] ∧ u.get Ob.Com.STAGED_COUNT = 0 ∧ u.get Ob.Com.STAGED_BYTES = 0 ∧ ObjectsKept discardKeys s u ∧ (∀ q, u.axis q = s.axis q) ∧ BytesKept s u := by
  have hbytes : stagedBytes [] = 0 := rfl
  rw [answers_iff (exec_discard hrun hphase)]
  refine ⟨putStaged_staged [], ?_, ?_, paperwork_discarded.od_at, paperwork_discarded.kept_at⟩ <;> simp +decide [written, putStaged, State.get_set, hbytes]

/-! ### The banks -/

theorem newestBank_lt {b : Nat} (h : newestBank s = some b) : b < 2 := by
  unfold newestBank at h
  split at h
  · cases h
    split <;> omega
  · cases h; omega
  · cases h; omega
  · cases h

theorem newestBank_congr (hstore : u.store.bank0 = s.store.bank0 ∧ u.store.bank1 = s.store.bank1) (hproduct : u.nat Ob.Ident.PRODUCT = s.nat Ob.Ident.PRODUCT) :
    newestBank u = newestBank s := by
  simp only [newestBank, storedValid, hstore, hproduct]

theorem bankImage_putBank_self {b : Nat} (hb : b < 2) (i : StoredImage) : bankImage (putBank s b i) b = i := by
  have : b = 0 ∨ b = 1 := by omega
  rcases this with rfl | rfl <;> rfl

theorem bankImage_putBank_other {b : Nat} (hb : b < 2) (i : StoredImage) : bankImage (putBank s b i) (1 - b) = bankImage s (1 - b) := by
  have : b = 0 ∨ b = 1 := by omega
  rcases this with rfl | rfl <;> rfl

theorem bankImage_congr (h0 : u.store.bank0 = s.store.bank0) (h1 : u.store.bank1 = s.store.bank1) (b : Nat) : bankImage u b = bankImage s b := by
  simp only [bankImage, h0, h1]

theorem bankImage_at (b : Nat) : bankImage (s.at t) b = bankImage s b := bankImage_congr (by simp) (by simp) b

/-- `s` with another MRAM. -/
def withStore (s : State) (x : StoreRt) : State := { s with store := x }

theorem Noted.store {keys : List Nat} (h : Noted keys s u) : u.store = s.store := by simpa using congrArg State.store h.rest

/-- Axes and bytes stand where the MRAM alone changes beside the paperwork. -/
theorem Paperwork.kept_withStore {keys : List Nat} {x : StoreRt} (h : Paperwork keys (withStore (s.at t) x) u) : (∀ q, u.axis q = s.axis q) ∧ BytesKept s u :=
  ⟨fun q => (h.axis q).trans (State.at_axis s t q), (bytesKept_at t).1 h.bytesKept⟩

/-! ### SAVE -/

/-- The bank that does not hold the newest valid image (R128). -/
def saveTarget (s : State) : Nat := match newestBank s with | some k => 1 - k | none => 0

/-- SEQUENCE of the next image (R126). -/
def nextSequence (s : State) : Nat := match newestBank s with | some k => ((bankImage s k).sequence + 1) % 2 ^ 32 | none => 1

/-- Bytes of the image of the values in force (Table 05-7). -/
def imageSize (s : State) : Nat := 64 + (imageBytes (storedImage s 0).records).length

theorem saveTarget_lt : saveTarget s < 2 := by
  unfold saveTarget
  split <;> omega

/-- The MRAM while the image `x` is written into bank `b`. -/
def savingInto (s : State) (b : Nat) (x : StoredImage) : StoreRt := { (putBank s b {}).store with saving := some (s.now, b, x) }

/-- A save of `n` bytes begun into bank `b`. -/
def saveBegun (s : State) (b n : Nat) (x : StoredImage) : State := ((withStore s (savingInto s b x)).set Ob.Store.SAVE_SIZE n).set Ob.Store.SAVE_STATE 1

/-- A save that fails as its `n` bytes are too many. -/
def saveTooLarge (s : State) (n : Nat) : State := ((s.set Ob.Store.SAVE_SIZE n).set Ob.Store.SAVE_STATE 3).set Ob.Store.SAVE_REASON 2

theorem saveWrite_of_fitting (hphase : s.com.phase = 0) (hidle : s.store.saving = none) (hsize : imageSize s ≤ 3 * 2 ^ 20) :
    saveWrite s = (saveBegun s (saveTarget s) (imageSize s) (storedImage s (nextSequence s)), stOk) := by
  unfold saveWrite
  rw [if_neg (by simp [hphase, hidle])]
  exact if_neg (Nat.not_lt.2 hsize)

theorem saveWrite_of_large (hphase : s.com.phase = 0) (hidle : s.store.saving = none) (hsize : 3 * 2 ^ 20 < imageSize s) : saveWrite s = (saveTooLarge s (imageSize s), stOk) := by
  unfold saveWrite
  rw [if_neg (by simp [hphase, hidle])]
  exact if_pos hsize

theorem at_newestBank : newestBank (s.at t) = newestBank s := newestBank_congr (by simp) (by simp)

theorem exec_saveConfig (hrun : unitRuns s = true) (hact : saveWrite (s.at t) = (u, stOk)) : exec (.saveConfig t) s = .next (written Ob.Store.SAVE 0 u) := by
  refine (whileOn_runs hrun).trans ?_
  rw [hact]
  rfl

/-- Objects that a save writes at its beginning. -/
def saveKeys : List Nat := [Ob.Store.SAVE.key, Ob.Store.SAVE_STATE.key, Ob.Store.SAVE_SIZE.key]

theorem written_store (o : Obj) (r : Nat) : (written o r s).store = s.store := rfl
theorem written_now (o : Obj) (r : Nat) : (written o r s).now = s.now := rfl
theorem withStore_now (x : StoreRt) : (withStore s x).now = s.now := rfl

section Begun

variable {b n : Nat} {x : StoredImage}

theorem saveBegun_store : (saveBegun s b n x).store = savingInto s b x := by
  rw [saveBegun, State.set_store, State.set_store]
  rfl

theorem saveBegun_now : (saveBegun s b n x).now = s.now := by rw [saveBegun, State.set_now, State.set_now, withStore_now]

theorem saveBegun_spec (hb : b < 2) :
    let u := written Ob.Store.SAVE 0 (saveBegun s b n x)
    u.store = savingInto s b x ∧ u.now = s.now ∧ bankImage u b = {} ∧ bankImage u (1 - b) = bankImage s (1 - b) ∧ u.get Ob.Store.SAVE_STATE = 1 ∧
      u.get Ob.Store.SAVE_SIZE = n ∧ Paperwork saveKeys (withStore s (savingInto s b x)) u := by
  have hbook : Paperwork saveKeys (withStore s (savingInto s b x)) (written Ob.Store.SAVE 0 (saveBegun s b n x)) := by simp +decide [written, saveBegun]
  have hstore : (written Ob.Store.SAVE 0 (saveBegun s b n x)).store = savingInto s b x := (written_store ..).trans saveBegun_store
  have hnow : (written Ob.Store.SAVE 0 (saveBegun s b n x)).now = s.now := (written_now ..).trans saveBegun_now
  have himage (k : Nat) : bankImage (written Ob.Store.SAVE 0 (saveBegun s b n x)) k = bankImage (putBank s b {}) k :=
    bankImage_congr (by rw [hstore]; rfl) (by rw [hstore]; rfl) k
  refine ⟨hstore, hnow, (himage _).trans (bankImage_putBank_self hb {}), (himage _).trans (bankImage_putBank_other hb {}), ?_, ?_, hbook⟩ <;>
    simp +decide [written, saveBegun, State.get_set]

theorem saveTooLarge_spec :
    let u := written Ob.Store.SAVE 0 (saveTooLarge s n)
    u.store = s.store ∧ u.get Ob.Store.SAVE_STATE = 3 ∧ u.get Ob.Store.SAVE_REASON = 2 ∧ Paperwork (Ob.Store.SAVE_REASON.key :: saveKeys) s u := by
  refine ⟨rfl, ?_, ?_, ?_⟩ <;> simp +decide [written, saveTooLarge, State.get_set]

end Begun

/-- A save that fits is begun into the bank that does not hold the newest image (R126, R128). -/
theorem save_begins (hrun : unitRuns s = true) (hphase : s.com.phase = 0) (hidle : s.store.saving = none) (hsize : imageSize (s.at t) ≤ 3 * 2 ^ 20) :
    Answers (.saveConfig t) s fun u => (∃ x, u.store.saving = some (u.now, saveTarget s, x)) ∧ bankImage u (saveTarget s) = {} ∧
      bankImage u (1 - saveTarget s) = bankImage s (1 - saveTarget s) ∧ u.get Ob.Store.SAVE_STATE = 1 ∧ u.get Ob.Store.SAVE_SIZE = imageSize (s.at t) ∧
      ObjectsKept saveKeys s u ∧ (∀ q, u.axis q = s.axis q) ∧ BytesKept s u := by
  have htarget : saveTarget (s.at t) = saveTarget s := by simp only [saveTarget, at_newestBank]
  have hact := saveWrite_of_fitting (s := s.at t) (by simpa) (by simpa) hsize
  rw [htarget] at hact
  generalize storedImage (s.at t) (nextSequence (s.at t)) = x at hact
  generalize imageSize (s.at t) = n at *
  obtain ⟨hstore, hnow, hbank, hother, hstate, hnoted, hbook⟩ := saveBegun_spec (s := s.at t) (n := n) (x := x) saveTarget_lt
  rw [bankImage_at] at hother
  rw [answers_iff (exec_saveConfig hrun hact)]
  refine ⟨⟨x, ?_⟩, hbank, hother, hstate, hnoted, objectsKept_at.1 hbook.od, hbook.kept_withStore⟩
  rw [hstore, hnow]
  rfl

/-- A save whose image is too large fails (R126). -/
theorem save_fails (hrun : unitRuns s = true) (hphase : s.com.phase = 0) (hidle : s.store.saving = none) (hsize : 3 * 2 ^ 20 < imageSize (s.at t)) :
    Answers (.saveConfig t) s fun u => u.store = s.store ∧ u.get Ob.Store.SAVE_STATE = 3 ∧ u.get Ob.Store.SAVE_REASON = 2 ∧ (∀ q, u.axis q = s.axis q) ∧ BytesKept s u := by
  obtain ⟨hstore, hstate, hreason, hbook⟩ := saveTooLarge_spec (s := s.at t) (n := imageSize (s.at t))
  rw [answers_iff (exec_saveConfig hrun (saveWrite_of_large (by simpa) (by simpa) hsize))]
  exact ⟨hstore.trans (State.at_store ..), hstate, hreason, hbook.kept_at⟩

/-! ### The end of a save -/

/-- Objects that the end of a save writes. -/
def storedKeys : List Nat :=
  [Ob.Store.SAVE_STATE.key, Ob.Store.SAVE_TIME.key, Ob.Store.STORED_SEQUENCE.key, Ob.Store.STORED_CRC.key, Ob.Store.STORED_BANK.key]

theorem Noted.publishStored {keys : List Nat} (h : Noted keys s u) (hkeys : storedKeys ⊆ keys) : Noted keys s (publishStored u) := by
  unfold Machine.publishStored
  split <;> exact ((h.set (hkeys (by decide)) _).set (hkeys (by decide)) _).set (hkeys (by decide)) _

theorem newestBank_publishStored : newestBank (publishStored s) = newestBank s := by
  have hnoted : Noted storedKeys s (publishStored s) := Noted.refl.publishStored (List.Subset.refl _)
  exact newestBank_congr (by simp [hnoted.store]) (congrArg Int.toNat (hnoted.paperwork.get (by decide)))

theorem publishStored_of_newest {b : Nat} (h : newestBank s = some b) :
    (publishStored s).get Ob.Store.STORED_BANK = b ∧ (publishStored s).get Ob.Store.STORED_SEQUENCE = (bankImage s b).sequence := by
  unfold publishStored
  rw [h]
  simp +decide [State.get_set]

/-- What is published of the stored image leaves the state of the save. -/
theorem publishStored_get {o : Obj} (h : o.key ∉ storedKeys.drop 2) : (publishStored s).get o = s.get o := by
  have hnoted : Noted (storedKeys.drop 2) s (publishStored s) := by
    unfold publishStored
    split <;> exact ((Noted.refl.set (by decide) _).set (by decide) _).set (by decide) _
  exact hnoted.paperwork.get h

/-- The MRAM once a save has ended. -/
def saveOver (x : StoreRt) : StoreRt := { x with saving := none }

/-- A save begun at `t0` over, with its time (R126). -/
def saveEnded (s : State) (t0 : Nat) : State := (withStore s (saveOver s.store)).set Ob.Store.SAVE_TIME ((s.now - t0 + 999) / 1000)

variable {t0 bank : Nat} {i : StoredImage}

/-- A verified save before what is stored is published. -/
def saveVerified (s : State) (t0 bank : Nat) (i : StoredImage) : State := (putBank (saveEnded s t0) bank i).set Ob.Store.SAVE_STATE 2

/-- A failed save before what is stored is published. -/
def saveUnverified (s : State) (t0 : Nat) : State := ((saveEnded s t0).set Ob.Store.SAVE_STATE 3).set Ob.Store.SAVE_REASON 1

theorem exec_saveComplete_verified (hrun : unitRuns s = true) (h : s.store.saving = some (t0, bank, i)) :
    exec (.saveComplete true t) s = .next (publishStored (saveVerified (s.at t) t0 bank i)) := by
  have hsaving : (s.at t).store.saving = some (t0, bank, i) := by rw [State.at_store, h]
  refine (whileOn_runs hrun).trans ?_
  generalize s.at t = a at *
  dsimp only
  rw [hsaving]
  rfl

theorem exec_saveComplete_failed (hrun : unitRuns s = true) (h : s.store.saving = some (t0, bank, i)) :
    exec (.saveComplete false t) s = .next (publishStored (saveUnverified (s.at t) t0)) := by
  have hsaving : (s.at t).store.saving = some (t0, bank, i) := by rw [State.at_store, h]
  refine (whileOn_runs hrun).trans ?_
  generalize s.at t = a at *
  dsimp only
  rw [hsaving]
  rfl

theorem noted_saveVerified (s : State) (t0 bank : Nat) (i : StoredImage) :
    Noted storedKeys (withStore s (putBank (saveEnded s t0) bank i).store) (saveVerified s t0 bank i) :=
  (Noted.refl.set (o := Ob.Store.SAVE_TIME) (by decide) _).set (by decide) _

theorem noted_saveUnverified (s : State) (t0 : Nat) :
    Noted (Ob.Store.SAVE_REASON.key :: storedKeys) (withStore s (saveOver s.store)) (saveUnverified s t0) :=
  ((Noted.refl.set (by decide) _).set (by decide) _).set (by decide) _

/-- A verified save's image stands in its bank and is shown as stored where it is the newest (R126, Table 05-13). -/
theorem saveComplete_stores (hrun : unitRuns s = true) (h : s.store.saving = some (t0, bank, i)) (hbank : bank < 2) : Answers (.saveComplete true t) s fun u =>
    u.store.saving = none ∧ u.get Ob.Store.SAVE_STATE = 2 ∧ bankImage u bank = i ∧ bankImage u (1 - bank) = bankImage s (1 - bank) ∧
      (newestBank u = some bank → u.get Ob.Store.STORED_BANK = bank ∧ u.get Ob.Store.STORED_SEQUENCE = i.sequence) ∧ ObjectsKept storedKeys s u ∧
      (∀ q, u.axis q = s.axis q) ∧ BytesKept s u := by
  have hput : bankImage (saveVerified (s.at t) t0 bank i) bank = i := bankImage_putBank_self hbank i
  have hother : bankImage (saveVerified (s.at t) t0 bank i) (1 - bank) = bankImage (s.at t) (1 - bank) := bankImage_putBank_other hbank i
  have hstate : (saveVerified (s.at t) t0 bank i).get Ob.Store.SAVE_STATE = 2 := State.get_set_self ..
  have hover : (saveVerified (s.at t) t0 bank i).store.saving = none := by
    simp only [saveVerified, State.set_store, putBank]
    split <;> rfl
  have hnoted := noted_saveVerified (s.at t) t0 bank i
  have hshown := hnoted.publishStored (List.Subset.refl _)
  have hstore : (publishStored (saveVerified (s.at t) t0 bank i)).store = (saveVerified (s.at t) t0 bank i).store := hshown.store.trans hnoted.store.symm
  have himage (b : Nat) : bankImage (publishStored (saveVerified (s.at t) t0 bank i)) b = bankImage (saveVerified (s.at t) t0 bank i) b :=
    bankImage_congr (by rw [hstore]) (by rw [hstore]) b
  rw [answers_iff (exec_saveComplete_verified hrun h)]
  refine ⟨hstore ▸ hover, (publishStored_get (by decide)).trans hstate, (himage _).trans hput, (himage _).trans (hother.trans (bankImage_at _)), fun hnewest => ?_,
    objectsKept_at.1 hshown.od, hshown.paperwork.kept_withStore⟩
  rw [newestBank_publishStored] at hnewest
  obtain ⟨hshows, hsequence⟩ := publishStored_of_newest hnewest
  exact ⟨hshows, by rw [hsequence, hput]⟩

/-- A save that fails its verification leaves the banks as they were (R126). -/
theorem saveComplete_fails (hrun : unitRuns s = true) (h : s.store.saving = some (t0, bank, i)) : Answers (.saveComplete false t) s fun u =>
    u.store = saveOver s.store ∧ u.get Ob.Store.SAVE_STATE = 3 ∧ u.get Ob.Store.SAVE_REASON = 1 ∧ ObjectsKept (Ob.Store.SAVE_REASON.key :: storedKeys) s u ∧
      (∀ q, u.axis q = s.axis q) ∧ BytesKept s u := by
  have hshown := (noted_saveUnverified (s.at t) t0).publishStored (List.subset_cons_self _ _)
  have hstate : (saveUnverified (s.at t) t0).get Ob.Store.SAVE_STATE = 3 :=
    (State.get_set_ne _ _ _ _ _ _ _ _ _ _ (by decide)).trans (State.get_set_self ..)
  rw [answers_iff (exec_saveComplete_failed hrun h)]
  exact ⟨hshown.store.trans (congrArg saveOver (State.at_store s t)), (publishStored_get (by decide)).trans hstate,
    (publishStored_get (by decide)).trans (State.get_set_self ..), objectsKept_at.1 hshown.od, hshown.paperwork.kept_withStore⟩

/-! ### ERASE_STORED -/

theorem exec_eraseStored (hrun : unitRuns s = true) (hidle : s.store.saving = none) :
    exec (.eraseStored t) s = .next (written Ob.Store.ERASE_STORED 0 (withStore (s.at t) { (s.at t).store with erase := true })) := by
  have htaken : eraseWrite (s.at t) = (withStore (s.at t) { (s.at t).store with erase := true }, stOk) := if_neg (by simp [hidle])
  refine (whileOn_runs hrun).trans ?_
  rw [htaken]
  rfl

/-- ERASE_STORED is remembered for the next reset (R129). -/
theorem eraseStored_remembered (hrun : unitRuns s = true) (hidle : s.store.saving = none) : Answers (.eraseStored t) s fun u =>
    u.store = { s.store with erase := true } ∧ ObjectsKept [Ob.Store.ERASE_STORED.key] s u ∧ (∀ q, u.axis q = s.axis q) ∧ BytesKept s u := by
  have hbook (x : StoreRt) : Paperwork [Ob.Store.ERASE_STORED.key] (withStore (s.at t) x) (written Ob.Store.ERASE_STORED 0 (withStore (s.at t) x)) := by
    simp +decide [written]
  rw [answers_iff (exec_eraseStored hrun hidle)]
  exact ⟨congrArg (fun x : StoreRt => { x with erase := true }) (State.at_store s t), objectsKept_at.1 (hbook _).od, (hbook _).kept_withStore⟩

end Sys2Proof.Machine

open Sys2Proof Sys2Proof.Machine

/-- Settles O33: COMMIT by its steps 1 to 3 and by what Table 05-4 finds, DISCARD, SAVE and ERASE_STORED by the copies they leave. -/
theorem commitsAndCopiesAreTakenOrRefused : Obligations.CommitsAndCopiesAreTakenOrRefused := by
  unfold Obligations.CommitsAndCopiesAreTakenOrRefused
  refine ⟨fun s sess t h => ?_, fun s t t0 bank i hrun => ?_⟩
  · have ⟨_, hopen, _, _⟩ := h
    refine ⟨fun hcaptain => commitObject_turned h (commitObject_not_captain hopen hcaptain),
      fun hcaptain hbusy => commitObject_turned h (commitObject_busy hopen hcaptain hbusy), fun hcaptain hphase hhuddle hrejoin => ?_⟩
    have hfree : CommitFree s := ⟨hphase, hhuddle, hrejoin⟩
    exact ⟨fun hstaged => commitObject_turned h (commitObject_empty hopen hcaptain hfree hstaged), commitObject_valid h hcaptain hfree,
      fun status reason obj hstaged hfault => commitObject_fault h hcaptain hfree hstaged hfault⟩
  · exact ⟨discard_empties hrun, exec_discard_busy hrun, fun hphase hidle => ⟨save_begins hrun hphase hidle, save_fails hrun hphase hidle⟩,
      fun hsaving hbank => ⟨saveComplete_stores hrun hsaving hbank, saveComplete_fails hrun hsaving⟩, eraseStored_remembered hrun⟩
end

