-- ==== Sys2Proof/Proofs/SessionRequests.lean ====
section
/-! READ, WRITE, SUBSCRIBE, COMMIT and unknown requests of a session (R106, R112, R120, R121, R134 to R136, R140), and O36. -/

namespace Sys2Proof.Machine

variable {s u : State} {q : Req} {op t : Nat}

/-! ### A new request -/

/-- A new request of an open session: its lease is renewed and its number enters the window (R138, R143). -/
def begun (s : State) (op : Nat) (q : Req) : State :=
  (renewed s q.sess).modSess q.sess fun x => begin_ x q.seqNo op (windowOf ((renewed s q.sess).sess q.sess) q.seqNo).2.2

/-- A request's reply kept in its window and sent over Ethernet at once (R132, R138). -/
def answered (s : State) (op : Nat) (q : Req) (status : Nat) (body : List Byte) : State :=
  (keepReply s q.sess q.seqNo status body).emit (.linli q.toPath (linliBytes op q.sess q.seqNo status q.token body))

/-- The COMMIT of a session by a message. -/
def byMessage (q : Req) : CommitRt := { sess := q.sess, token := q.token, seqNo := q.seqNo, path := q.toPath }

theorem NewRequest.sess_lt (h : NewRequest s q) : q.sess < 16 := by
  obtain ⟨-, -, -, -, -, hadmitted, -⟩ := h
  simp only [admitted, Bool.and_eq_true] at hadmitted
  obtain ⟨⟨⟨hopen, -⟩, -⟩, -⟩ := hadmitted
  exact sessOpen_lt hopen

/-- A new request but OPEN is carried out and answered (R138, R139). -/
theorem linliRun_of_new (h : NewRequest s q) (hop : op ≠ 1) : linliRun s op q =
    if op = 0x12 then (startCommit (begun s op q) (byMessage q) (isCaptain (begun s op q) q.sess)).1
    else finish (serve (begun s op q) op q).1 op q (serve (begun s op q) op q).2.1 (serve (begun s op q) op q).2.2 := by
  obtain ⟨hlistens, hconf, -, -, -, hadmitted, hunseen, hinside, -, -⟩ := h
  have hwindow : windowOf ((renewed s q.sess).sess q.sess) q.seqNo = (none, true, (windowOf ((renewed s q.sess).sess q.sess) q.seqNo).2.2) :=
    Prod.ext hunseen (Prod.ext hinside rfl)
  unfold renewed at hwindow
  unfold linliRun sequenced
  dsimp only
  rw [if_neg (by simp [hlistens]), if_neg hop, if_neg (by simp [hadmitted]), hwindow]
  dsimp only
  split
  · rw [if_neg (by simp [hconf])]
    rfl
  · rfl

/-- Nothing holds a reply back: the unit has no partner and no accepted reset or power request waits for its acknowledgement. -/
structure RepliesAtOnce (s : State) : Prop where
  unpaired : s.flag Ob.PairC.PAIR_ENABLE = false
  noReset : s.boot.resetDue = false
  noStandby : s.boot.standbyDue = false

theorem finish_eq (h : RepliesAtOnce s) (hvia : q.via < 2) (status : Nat) (body : List Byte) : finish s op q status body = answered s op q status body := by
  obtain ⟨hpair, hreset, hstandby⟩ := h
  have hwaits : waitsForStandby (keepReply s q.sess q.seqNo status body) q.sess = false :=
    waitsForStandby_of_unpaired (s := keepReply s q.sess q.seqNo status body) hpair q.sess
  unfold finish
  dsimp only
  rw [hwaits, if_neg Bool.false_ne_true, replyTo, hwaits, if_neg Bool.false_ne_true, sendReply, if_pos hvia, actAfterReply]
  rw [if_neg (by simp [keepReply, hreset]), if_neg (by simp [keepReply, hstandby])]
  rfl

theorem replied_answered (status : Nat) (body : List Byte) : Replied (answered s op q status body) op q status body := rfl

/-! ### What a request leaves -/

theorem paperwork_modSess {keys : List Nat} (k : Nat) (f : SessRt → SessRt) : Paperwork keys s (u.modSess k f) ↔ Paperwork keys s u :=
  Paperwork.step ⟨fun _ _ => rfl, rfl⟩

theorem paperwork_begun {keys : List Nat} (h : Ob.Sess.LAST_RENEWED.key q.sess ∈ keys) : Paperwork keys s (begun s op q) :=
  (paperwork_modSess _ _).2 ((paperwork_set h _).2 .refl)

theorem begun_get (hx : q.sess < 16) {o : Obj} {i j k : Nat} (ho : o.key i j k / 256 < 0x1110 ∨ 0x1120 ≤ o.key i j k / 256) :
    (begun s op q).get o i j k = s.get o i j k := renewed_get ho hx

theorem NewRequest.repliesAtOnce (h : NewRequest s q) (op : Nat) : RepliesAtOnce (begun s op q) := by
  have hx := h.sess_lt
  obtain ⟨-, -, hpair, -, -, -, -, -, hreset, hstandby⟩ := h
  exact ⟨by rw [State.flag, begun_get hx (by decide)]; exact hpair, hreset, hstandby⟩

theorem unitRuns_of_new (h : NewRequest (s.at t) q) : unitRuns s = true := by
  obtain ⟨hlistens, -⟩ := h
  simp only [listens, Bool.and_eq_true] at hlistens
  obtain ⟨hrun, -⟩ := hlistens
  simpa [unitRuns] using hrun

/-- A request served at once, but COMMIT: the state it is served from, and its reply. -/
theorem linliRun_served (h : NewRequest s q) (hop : op ≠ 1) (hcommit : op ≠ 0x12) {status : Nat} {body : List Byte} (hserve : serve (begun s op q) op q = (u, status, body))
    (hreplies : RepliesAtOnce u) : linliRun s op q = answered u op q status body := by
  have ⟨_, _, _, _, hvia, _⟩ := h
  rw [linliRun_of_new h hop, if_neg hcommit, hserve, finish_eq hreplies hvia]

theorem OnlySessions.set (h : OnlySessions s u) {o : Obj} {i j k : Nat} (ho : o.key i j k / 65536 = 0x11) (x : Int) : OnlySessions s (u.set o x i j k) := by
  obtain ⟨hod, hstaged, hcom, haxis, hbytes⟩ := h
  exact ⟨fun n hn => (State.set_od_ne _ _ _ _ _ _ _ fun he : n = _ => hn (he ▸ ho)).trans (hod n hn), hstaged, hcom, haxis, hbytes⟩

theorem OnlySessions.modSess (h : OnlySessions s u) (k : Nat) (f : SessRt → SessRt) : OnlySessions s (u.modSess k f) := h

theorem OnlySessions.answered (h : OnlySessions s u) (op : Nat) (q : Req) (status : Nat) (body : List Byte) : OnlySessions s (answered u op q status body) := h

theorem onlySessions_at (s : State) (t : Nat) : OnlySessions s (s.at t) :=
  ⟨fun _ _ => by rw [State.at_od], State.at_staged .., State.at_com .., fun _ => State.at_axis .., (bytesKept_at t).1 fun _ => ⟨rfl, rfl, fun _ => rfl⟩⟩

theorem onlySessions_begun (hx : q.sess < 16) : OnlySessions s (begun (s.at t) op q) :=
  ((onlySessions_at s t).set (by have := lastRenewed_key_div q.sess; omega) _).modSess _ _

/-! ### READ -/

/-- A READ rests on the retained snapshots and what capture and trace have recorded. -/
theorem readRequest_congr (hsnaps : u.snaps = s.snaps) (hobs : u.obs = s.obs) (b : List Byte) : readRequest u b = readRequest s b := by
  simp only [readRequest, snapOf, readEntries, readEntry, snapValue, capturePage, traceBytes, hsnaps, hobs]

theorem readRequest_of_names {b : List Byte} {l : List ReadName} {n : Snapshot} (hlen : 8 ≤ b.length) (hmin : 1 ≤ leAt b 4 2) (hmax : leAt b 4 2 ≤ 256)
    (hnames : readNames (leAt b 4 2) (b.drop 8) = some l) (hsnap : snapOf s (leAt b 0 4) = some n) (hsize : 8 + (readEntries s n l).length ≤ 1456) :
    readRequest s b = (stOk, leBytes 4 n.id ++ leBytes 2 (leAt b 4 2) ++ leBytes 2 0 ++ readEntries s n l) := by
  unfold readRequest
  dsimp only
  rw [if_neg (by omega), if_neg (by omega), if_neg (by omega), hnames]
  dsimp only
  rw [hsnap]
  dsimp only
  rw [if_neg (by simp; omega)]

/-- An object of a fixed size reads its type code, RESULT 0 and its value (Table 06-4). -/
theorem readEntries_of_value {n : Snapshot} {x : ReadName} {o : Obj} {w : Val} (hkind : x.kind = 0) (hrow : lookup x.idx x.sub = .inl o) (hfixed : o.ty.isBytes = false)
    (hvalue : snapValue s n o (x.idx * 256 + x.sub) = some w) : readEntries s n [x] = leBytes 1 o.ty.code ++ leBytes 1 0 ++ valBytes o.ty w := by
  simp [readEntries, readEntry, hrow, hvalue, hkind, hfixed]

theorem hostRead_named (h : NewRequest (s.at t) q) {l : List ReadName} {n : Snapshot} (hlen : 8 ≤ q.body.length) (hmin : 1 ≤ leAt q.body 4 2)
    (hmax : leAt q.body 4 2 ≤ 256) (hnames : readNames (leAt q.body 4 2) (q.body.drop 8) = some l) (hsnap : snapOf s (leAt q.body 0 4) = some n)
    (hsize : 8 + (readEntries s n l).length ≤ 1456) : Answers (.hostRead q t) s fun u =>
      Replied u 0x10 q stOk (leBytes 4 n.id ++ leBytes 2 (leAt q.body 4 2) ++ leBytes 2 0 ++ readEntries s n l) ∧ OnlySessions s u := by
  have hread := (readRequest_congr (u := begun (s.at t) 0x10 q) (State.at_snaps s t) (State.at_obs s t) q.body).trans
    (readRequest_of_names hlen hmin hmax hnames hsnap hsize)
  have hserve : serve (begun (s.at t) 0x10 q) 0x10 q = (begun (s.at t) 0x10 q, stOk, leBytes 4 n.id ++ leBytes 2 (leAt q.body 4 2) ++ leBytes 2 0 ++ readEntries s n l) :=
    Prod.ext rfl hread
  have hexec : exec (.hostRead q t) s = .next (linliRun (s.at t) 0x10 q) := whileOn_runs (unitRuns_of_new h)
  rw [answers_iff hexec, linliRun_served h (by decide) (by decide) hserve (h.repliesAtOnce _)]
  exact ⟨replied_answered _ _, (onlySessions_begun h.sess_lt).answered _ _ _ _⟩

theorem hostRead_object (h : NewRequest (s.at t) q) {n : Snapshot} {x : ReadName} {o : Obj} {w : Val} (hlen : 8 ≤ q.body.length) (hcount : leAt q.body 4 2 = 1)
    (hnames : readNames 1 (q.body.drop 8) = some [x]) (hsnap : snapOf s (leAt q.body 0 4) = some n) (hkind : x.kind = 0) (hrow : lookup x.idx x.sub = .inl o)
    (hfixed : o.ty.isBytes = false) (hvalue : snapValue s n o (x.idx * 256 + x.sub) = some w) (hsize : (valBytes o.ty w).length ≤ 8) :
    Answers (.hostRead q t) s fun u =>
      Replied u 0x10 q stOk (leBytes 4 n.id ++ leBytes 2 1 ++ leBytes 2 0 ++ (leBytes 1 o.ty.code ++ leBytes 1 0 ++ valBytes o.ty w)) ∧ OnlySessions s u := by
  have hentry := readEntries_of_value hkind hrow hfixed hvalue
  have hfits : 8 + (readEntries s n [x]).length ≤ 1456 := by
    rw [hentry]
    simp only [List.length_append, leBytes_length]
    omega
  have hread := hostRead_named h hlen (by omega) (by omega) (hcount ▸ hnames) hsnap hfits
  rwa [hcount, hentry] at hread

/-! ### SUBSCRIBE -/

theorem State.sess_modSess (k : Nat) (f : SessRt → SessRt) : (s.modSess k f).sess k = f (s.sess k) := by simp [State.sess, State.modSess, State.setSess]

/-- A session's window with the reply to request `n` kept (R138). -/
def replyKept (n status : Nat) (body : List Byte) (x : SessRt) : SessRt :=
  { x with win := x.win.map fun r => if r.seqNo = n then { r with reply := some (status, body) } else r }

/-- A session without its subscription `id`. -/
def withoutSub (id : Nat) (x : SessRt) : SessRt := { x with subs := x.subs.filter fun y => decide (y.id ≠ id) }

theorem begun_subs : ((begun s op q).sess q.sess).subs = (s.sess q.sess).subs := by
  rw [begun, State.sess_modSess]
  rfl

theorem answered_subs (status : Nat) (body : List Byte) : ((answered u op q status body).sess q.sess).subs = (u.sess q.sess).subs := by
  have hwindow : (answered u op q status body).sess q.sess = replyKept q.seqNo status body (u.sess q.sess) :=
    State.sess_modSess (s := u) q.sess (replyKept q.seqNo status body)
  rw [hwindow]
  rfl

/-- The session `k` without its subscription `id` (R140). -/
def unsubscribed (s : State) (k id : Nat) : State :=
  (s.modSess k (withoutSub id)).set Ob.Sess.SUBSCRIPTIONS (withoutSub id (s.sess k)).subs.length k

theorem unsubscribed_subs (k id : Nat) : ((unsubscribed s k id).sess k).subs = (s.sess k).subs.filter fun y => decide (y.id ≠ id) :=
  congrArg SessRt.subs (State.sess_modSess k (withoutSub id))

theorem subscribeRequest_of_end (hlen : 4 ≤ q.body.length) (hid : leAt q.body 0 1 ≤ 3) (hcount : leAt q.body 1 1 = 0) :
    subscribeRequest s q = (unsubscribed s q.sess (leAt q.body 0 1), stOk, []) := by
  unfold subscribeRequest
  dsimp only
  rw [if_neg (by omega), if_neg (by omega), if_pos hcount]
  rfl

theorem subscriptions_key_div (hx : q.sess < 16) : Ob.Sess.SUBSCRIPTIONS.key q.sess / 65536 = 0x11 := by
  simp only [Obj.key, Ob.Sess.SUBSCRIPTIONS]
  omega

theorem hostSubscribe_end (h : NewRequest (s.at t) q) (hlen : 4 ≤ q.body.length) (hid : leAt q.body 0 1 ≤ 3) (hcount : leAt q.body 1 1 = 0) :
    Answers (.hostSubscribe q t) s fun u =>
      (u.sess q.sess).subs = (s.sess q.sess).subs.filter (fun x => decide (x.id ≠ leAt q.body 0 1)) ∧ u.get Ob.Sess.SUBSCRIPTIONS q.sess = (u.sess q.sess).subs.length ∧
        Replied u 0x30 q stOk [] ∧ OnlySessions s u := by
  have hserve : serve (begun (s.at t) 0x30 q) 0x30 q = _ := subscribeRequest_of_end (s := begun (s.at t) 0x30 q) hlen hid hcount
  have ⟨hpair, hreset, hstandby⟩ := h.repliesAtOnce 0x30
  have hreplies : RepliesAtOnce (unsubscribed (begun (s.at t) 0x30 q) q.sess (leAt q.body 0 1)) :=
    ⟨(flag_congr (State.set_od_ne _ _ _ _ _ _ _ (by simp only [Obj.key, Ob.Sess.SUBSCRIPTIONS, Ob.PairC.PAIR_ENABLE]; omega))).trans hpair, hreset, hstandby⟩
  have hexec : exec (.hostSubscribe q t) s = .next (linliRun (s.at t) 0x30 q) := whileOn_runs (unitRuns_of_new h)
  have hsubs : ((begun (s.at t) 0x30 q).sess q.sess).subs = (s.sess q.sess).subs := begun_subs.trans (by rw [State.sess, State.at_host]; rfl)
  rw [answers_iff hexec, linliRun_served h (by decide) (by decide) hserve hreplies, answered_subs, unsubscribed_subs, hsubs]
  refine ⟨rfl, ?_, replied_answered _ _, (((onlySessions_begun h.sess_lt).modSess _ _).set (subscriptions_key_div h.sess_lt) _).answered _ _ _ _⟩
  exact (State.get_set_self ..).trans (by rw [withoutSub, hsubs])

/-! ### Unknown opcodes -/

/-- The opcodes of Table 06-2. -/
def knownOpcodes : List Nat := [0x01, 0x02, 0x10, 0x11, 0x12, 0x20, 0x21, 0x22, 0x30]

theorem serve_unknown (hop : op ∉ knownOpcodes) : serve s op q = (s, stRange, []) := by
  unfold serve
  split
  case h_8 => rfl
  all_goals exact absurd (by decide) hop

theorem unknownOpcode_range (h : NewRequest (s.at t) q) (hop : op ∉ knownOpcodes) :
    Answers (.unknownOpcode op q t) s fun u => Replied u op q stRange [] ∧ OnlySessions s u := by
  have hexec : exec (.unknownOpcode op q t) s = .next (linliRun (s.at t) op q) := whileOn_runs (unitRuns_of_new h)
  have hopen : op ≠ 0x01 := by rintro rfl; exact hop (by decide)
  have hcommit : op ≠ 0x12 := by rintro rfl; exact hop (by decide)
  rw [answers_iff hexec, linliRun_served h hopen hcommit (serve_unknown hop) (h.repliesAtOnce _)]
  exact ⟨replied_answered _ _, (onlySessions_begun h.sess_lt).answered _ _ _ _⟩

end Sys2Proof.Machine
end

