-- ==== Sys2Proof/Proofs/StagedWrite.lean ====
section
/-! WRITE of one entry by a session: staged for the captain, refused for any other (R106, R107, R136). -/

namespace Sys2Proof.Machine

variable {s u : State} {q : Req} {t : Nat} {e : WriteEntry} {o : Obj} {v : Val}

/-! ### The staged copy with an entry -/

theorem withStaged_congr (h : u.staged = s.staged) (x : Staged) : withStaged u x = withStaged s x := by
  unfold withStaged stagedAt
  rw [h]

/-- The entry stands in its object's place. -/
theorem withStaged_find_self (s : State) (x : Staged) : (withStaged s x).find? (fun y => decide (y.key = x.key)) = some x := by
  have hplace : (fun y => decide (y.key = x.key)) ∘ (fun y => if y.key = x.key then x else y) = fun y : Staged => decide (y.key = x.key) := by
    funext y
    by_cases hy : y.key = x.key <;> simp [hy]
  unfold withStaged
  cases hfound : stagedAt s x.key with
  | none =>
    unfold stagedAt at hfound
    simp [List.find?_append, hfound]
  | some y =>
    have hkey : y.key = x.key := by simpa using List.find?_some hfound
    unfold stagedAt at hfound
    rw [Option.isSome_some, if_pos rfl, List.find?_map, hplace, hfound]
    simp [hkey]

/-- Every other object keeps its entry. -/
theorem withStaged_find_other (s : State) (x : Staged) {k : Nat} (hk : k ≠ x.key) :
    (withStaged s x).find? (fun y => decide (y.key = k)) = s.staged.find? fun y => decide (y.key = k) := by
  have hplace : (fun y => decide (y.key = k)) ∘ (fun y => if y.key = x.key then x else y) = fun y : Staged => decide (y.key = k) := by
    funext y
    by_cases hy : y.key = x.key <;> simp [hy]
  unfold withStaged
  split
  · rw [List.find?_map, hplace]
    cases hfound : s.staged.find? fun y => decide (y.key = k) with
    | none => rfl
    | some y =>
      have hkey : y.key = k := by simpa using List.find?_some hfound
      simp [hkey, hk]
  · simp [List.find?_append, hk.symm]

theorem stage_taken {x : Staged} (hroom : stagedBeyond (withStaged s x) = false) (hphase : s.com.phase = 0) : stage s x = (putStaged s (withStaged s x), stOk) := by
  unfold stage
  rw [if_neg (by simp [hroom]), if_neg (by simp [hphase])]

/-! ### Objects that staging writes -/

/-- Objects that a staged write by a message of session `k` writes. -/
def stagingKeys (k : Nat) : List Nat := [Ob.Sess.LAST_RENEWED.key k, Ob.Com.STAGED_COUNT.key, Ob.Com.STAGED_BYTES.key]

/-- None of them is an object that is staged. -/
theorem stagingKeys_not_staged : ∀ k < 16, ∀ n ∈ stagingKeys k, (rowOf n).all (fun o => decide (o.acc ≠ .rwc)) = true := by decide +kernel

theorem leAt_byte (l : List Byte) (i : Nat) : leAt l i 1 < 256 := by
  obtain ⟨b, hb⟩ : ∃ b, slice l i 1 = [b] := by
    rw [← List.length_eq_one_iff]
    simp only [slice, List.length_append, List.length_replicate, List.length_take]
    omega
  rw [leAt, hb]
  exact b.isLt

theorem writeEntries_sub {b : List Byte} (h : writeEntries 1 b = some [e]) : e.sub < 256 := by
  unfold writeEntries at h
  dsimp only at h
  rw [Option.ite_none_left_eq_some, Option.map_eq_some_iff] at h
  obtain ⟨-, rest, -, hentry⟩ := h
  rw [← (List.cons.inj hentry).1]
  exact leAt_byte b 2

theorem rowOf_eq (hsub : e.sub < 256) (hrow : lookup e.idx e.sub = .inl o) : rowOf (e.idx * 256 + e.sub) = some o := by
  have hidx : (e.idx * 256 + e.sub) / 256 = e.idx := by omega
  have hmod : (e.idx * 256 + e.sub) % 256 = e.sub := by omega
  rw [rowOf, hidx, hmod, hrow]

theorem key_not_staging (hx : q.sess < 16) (hsub : e.sub < 256) (hrow : lookup e.idx e.sub = .inl o) (hacc : o.acc = .rwc) : e.idx * 256 + e.sub ∉ stagingKeys q.sess := fun hmem => by
  have hother := stagingKeys_not_staged _ hx _ hmem
  simp [rowOf_eq hsub hrow, hacc] at hother

/-! ### A WRITE of one entry -/

theorem writeRequest_of_entry (hconf : s.boot.configured = true) (hlen : 4 ≤ q.body.length) (hone : leAt q.body 0 2 = 1) (hentries : writeEntries 1 (q.body.drop 4) = some [e])
    {status : Nat} (hentry : writeEntry s q.sess e = (u, status)) : writeRequest s q = (u, status, leBytes 2 1 ++ leBytes 2 0 ++ leBytes 2 status) := by
  have hfirst : firstFailure [status] = status := by
    by_cases hst : status = stOk <;> simp [firstFailure, hst]
  unfold writeRequest
  dsimp only
  rw [if_neg (by simp [hconf]), if_neg (by omega), if_neg (by omega), hone, hentries]
  simp [writeAll, hentry, hfirst]

theorem begun_isCaptain (hx : q.sess < 16) (op k : Nat) : isCaptain (begun (s.at t) op q) k = isCaptain s k :=
  (renewed_isCaptain (s := s.at t) hx k).trans (at_isCaptain k)

theorem exec_hostWrite (h : NewRequest (s.at t) q) (hlen : 4 ≤ q.body.length) (hone : leAt q.body 0 2 = 1) (hentries : writeEntries 1 (q.body.drop 4) = some [e])
    {status : Nat} (hentry : writeEntry (begun (s.at t) 0x11 q) q.sess e = (u, status)) (hreplies : RepliesAtOnce u) :
    exec (.hostWrite q t) s = .next (answered u 0x11 q status (leBytes 2 1 ++ leBytes 2 0 ++ leBytes 2 status)) := by
  have ⟨_, hconf, _⟩ := h
  have hserve : serve (begun (s.at t) 0x11 q) 0x11 q = _ := writeRequest_of_entry (s := begun (s.at t) 0x11 q) hconf hlen hone hentries hentry
  rw [← linliRun_served h (by decide) (by decide) hserve hreplies]
  exact whileOn_runs (unitRuns_of_new h)

theorem hostWrite_refused (h : NewRequest (s.at t) q) (hlen : 4 ≤ q.body.length) (hone : leAt q.body 0 2 = 1) (hentries : writeEntries 1 (q.body.drop 4) = some [e])
    (hrow : lookup e.idx e.sub = .inl o) (hacc : o.acc = .rwc) (hcaptain : isCaptain s q.sess = false) : Answers (.hostWrite q t) s fun u =>
      Replied u 0x11 q stNotCaptain (leBytes 2 1 ++ leBytes 2 0 ++ leBytes 2 stNotCaptain) ∧ OnlySessions s u := by
  have hnot : isCaptain (begun (s.at t) 0x11 q) q.sess = false := (begun_isCaptain h.sess_lt _ _).trans hcaptain
  have hother : o ≠ Ob.Com.COMMIT := by
    rintro rfl
    exact absurd hacc (by decide)
  have hentry := writeEntry_of_not_captain hrow (.inr hacc) hnot
  rw [if_neg hother] at hentry
  rw [answers_iff (exec_hostWrite h hlen hone hentries hentry (h.repliesAtOnce _))]
  exact ⟨replied_answered _ _, (onlySessions_begun h.sess_lt).answered _ _ _ _⟩

theorem paperwork_answered {keys : List Nat} (op : Nat) (q : Req) (status : Nat) (body : List Byte) : Paperwork keys s (answered u op q status body) ↔ Paperwork keys s u :=
  (paperwork_emit _).trans (paperwork_modSess _ _)

theorem RepliesAtOnce.putStaged (h : RepliesAtOnce s) (l : List Staged) : RepliesAtOnce (putStaged s l) := by
  have ⟨hpair, hreset, hstandby⟩ := h
  have hbook : Paperwork settledKeys s (Machine.putStaged s l) := (paperwork_putStaged l).2 .refl
  have hboot : (Machine.putStaged s l).boot = s.boot := by simpa using congrArg State.boot hbook.rest
  exact ⟨hbook.unpaired (by decide) hpair, hboot ▸ hreset, hboot ▸ hstandby⟩

theorem paperwork_stagingKeys (k : Nat) (l : List Staged) : Paperwork (stagingKeys k) s (putStaged s l) := by simp +decide [stagingKeys, putStaged]

theorem writeEntry_staged {sess : Nat} (h : TakenFrom s sess e o v) (hacc : o.acc = .rwc) (hphase : s.com.phase = 0)
    (hroom : stagedBeyond (withStaged s { key := e.idx * 256 + e.sub, val := v }) = false) :
    writeEntry s sess e = (putStaged s (withStaged s { key := e.idx * 256 + e.sub, val := v }), stOk) := by
  rw [writeEntry_of_taken h (.inr hacc), if_pos hacc, stage_taken hroom hphase]

theorem hostWrite_staged (h : NewRequest (s.at t) q) (hlen : 4 ≤ q.body.length) (hone : leAt q.body 0 2 = 1) (hentries : writeEntries 1 (q.body.drop 4) = some [e])
    (hacc : o.acc = .rwc) (htaken : TakenFrom (begun (s.at t) 0x11 q) q.sess e o v) (hphase : s.com.phase = 0)
    (hroom : stagedBeyond (withStaged s { key := e.idx * 256 + e.sub, val := v }) = false) : Answers (.hostWrite q t) s fun u =>
      stagedAt u (e.idx * 256 + e.sub) = some { key := e.idx * 256 + e.sub, val := v } ∧ (∀ k, k ≠ e.idx * 256 + e.sub → stagedAt u k = stagedAt s k) ∧
        SMap.get? u.od (e.idx * 256 + e.sub) = SMap.get? s.od (e.idx * 256 + e.sub) ∧ Replied u 0x11 q stOk (leBytes 2 1 ++ leBytes 2 0 ++ leBytes 2 stOk) ∧
        (∀ x, u.axis x = s.axis x) ∧ BytesKept s u := by
  have hkept : ∀ x, withStaged (begun (s.at t) 0x11 q) x = withStaged s x := withStaged_congr (State.at_staged ..)
  have hphase' : (begun (s.at t) 0x11 q).com.phase = 0 := (congrArg CommitRt.phase (State.at_com s t)).trans hphase
  have hentry := writeEntry_staged htaken hacc hphase' (by rw [hkept]; exact hroom)
  rw [hkept] at hentry
  have hbook := (paperwork_answered 0x11 q stOk (leBytes 2 1 ++ leBytes 2 0 ++ leBytes 2 stOk)).2 ((paperwork_begun (s := s.at t) (by simp [stagingKeys])).trans
    (paperwork_stagingKeys (s := begun (s.at t) 0x11 q) q.sess (withStaged s { key := e.idx * 256 + e.sub, val := v })))
  have hplain := key_not_staging h.sess_lt (writeEntries_sub hentries) htaken.row hacc
  rw [answers_iff (exec_hostWrite h hlen hone hentries hentry ((h.repliesAtOnce _).putStaged _))]
  refine ⟨?_, fun k hk => ?_, hbook.od_at _ hplain, replied_answered _ _, hbook.kept_at⟩
  · exact (congrArg (List.find? _) (putStaged_staged _)).trans (withStaged_find_self s { key := e.idx * 256 + e.sub, val := v })
  · exact (congrArg (List.find? _) (putStaged_staged _)).trans (withStaged_find_other s { key := e.idx * 256 + e.sub, val := v } hk)

end Sys2Proof.Machine
end

