-- ==== Sys2Proof/Proofs/CommitMessage.lean ====
section
/-! COMMIT by a message of a session: turned away, in validation, or rejected (R109, R112, R114, R120), and O36. -/

namespace Sys2Proof.Machine

variable {s u : State} {q : Req} {t : Nat}

/-! ### A session that is answered at once -/

/-- The sender of a request is answered over Ethernet at once: its session is open, the unit has no partner and is the active one (R132, R139, R150). -/
structure Answerable (s : State) (q : Req) : Prop where
  isOpen : sessOpen s q.sess = true
  token : (s.sess q.sess).token = q.token
  ethernet : q.via < 2
  unpaired : s.flag Ob.PairC.PAIR_ENABLE = false
  active : s.get Ob.Pair.ROLE = 0

/-- Objects that decide how a session is answered. -/
def answerKeys : List Nat := Ob.PairC.PAIR_ENABLE.key :: Ob.Pair.ROLE.key :: (List.range 16).map fun k => Ob.Sess.STATE.key k

theorem Answerable.paperwork {keys : List Nat} (h : Answerable s q) (hbook : Paperwork keys s u) (hhost : u.host = s.host) (hkeys : ∀ n ∈ answerKeys, n ∉ keys) :
    Answerable u q := by
  obtain ⟨hopen, htoken, hvia, hpair, hrole⟩ := h
  have hstate : u.get Ob.Sess.STATE q.sess = s.get Ob.Sess.STATE q.sess := by
    refine hbook.get (hkeys _ ?_)
    simpa [answerKeys] using .inr (.inr ⟨_, sessOpen_lt hopen, rfl⟩)
  refine ⟨?_, ?_, hvia, hbook.unpaired (hkeys _ (by simp [answerKeys])) hpair, (hbook.get (hkeys _ (by simp [answerKeys]))).trans hrole⟩
  · simpa only [sessOpen, hstate] using hopen
  · simpa only [State.sess, hhost] using htoken

theorem begun_answerable (h : NewRequest s q) (op : Nat) : Answerable (begun s op q) q := by
  have hx := h.sess_lt
  obtain ⟨-, -, hpair, hrole, hvia, hadmitted, -⟩ := h
  simp only [admitted, Bool.and_eq_true, decide_eq_true_eq] at hadmitted
  obtain ⟨⟨⟨hopen, -⟩, htoken⟩, -⟩ := hadmitted
  have hstate : (begun s op q).get Ob.Sess.STATE q.sess = s.get Ob.Sess.STATE q.sess :=
    State.get_set_ne _ _ _ _ _ _ _ _ _ _ (by simp only [Obj.key, Ob.Sess.STATE, Ob.Sess.LAST_RENEWED]; omega)
  refine ⟨?_, ?_, hvia, ?_, (begun_get hx (by decide)).trans hrole⟩
  · simpa only [sessOpen, hstate] using hopen
  · rw [begun, State.sess_modSess]
    exact htoken
  · rw [State.flag, begun_get hx (by decide)]
    exact hpair

theorem Answerable.drawn (h : Answerable s q) : Answerable (drawn s) q := by
  obtain ⟨hopen, htoken, hvia, hpair, hrole⟩ := h
  exact ⟨hopen, htoken, hvia, hpair, hrole⟩

/-- The reply to a COMMIT, whatever validation has added to what its message said. -/
theorem Answerable.replied (h : Answerable s q) {k : CommitRt} (hobject : k.viaObject = false) (hstartup : k.startup = false) (hsess : k.sess = q.sess)
    (htoken : k.token = q.token) (hseq : k.seqNo = q.seqNo) (hpath : k.path = q.toPath) (status tag : Nat) :
    Replied (commitReplies s k status tag) 0x12 q status (commitBody s tag) := by
  obtain ⟨hopen, hheld, hvia, hpair, hrole⟩ := h
  have hhead := commitReplies_head (s := s) (k := k) (status := status) (tag := tag) hobject hstartup (hsess ▸ hopen) (by rw [hsess, htoken, hheld]) (hpath ▸ hvia) hpair hrole
  rwa [hpath, hsess, hseq, htoken] at hhead

/-! ### COMMIT -/

theorem exec_commitMsg (h : NewRequest (s.at t) q) :
    exec (.commitMsg q t) s = .next (startCommit (begun (s.at t) 0x12 q) (byMessage q) (isCaptain s q.sess)).1 := by
  rw [← begun_isCaptain h.sess_lt 0x12]
  refine (whileOn_runs (unitRuns_of_new h)).trans ?_
  rw [linliRun_of_new h (by decide), if_pos rfl]

/-- What a COMMIT that steps 1 to 3 end leaves and answers (R112). -/
theorem commitTurned_spec (h : Answerable s q) (status tag : Nat) :
    let u := commitTurned s (byMessage q) status tag
    u.get Ob.Com.LAST_RESULT = status ∧ u.com = s.com ∧ u.staged = s.staged ∧ u.nat Ob.Com.LAST_TAG = s.nat Ob.Com.LAST_TAG ∧
      Replied u 0x12 q status (commitBody u tag) := by
  intro u
  have hsent : Sent (commitResult s status 0 0) u := sent_commitReplies _ _ _
  have hnoted : Noted [Ob.Com.LAST_RESULT.key, Ob.Com.LAST_REASON.key, Ob.Com.LAST_OBJECT.key] s (commitResult s status 0 0) :=
    ((Noted.refl.set (by decide) _).set (by decide) _).set (by decide) _
  have hresult : (commitResult s status 0 0).get Ob.Com.LAST_RESULT = status := by simp +decide [commitResult, State.get_set]
  have htag : u.get Ob.Com.LAST_TAG = s.get Ob.Com.LAST_TAG := (hsent.get ..).trans (hnoted.paperwork.get (by decide))
  refine ⟨(hsent.get ..).trans hresult, hsent.com.trans hnoted.com, hsent.staged.trans hnoted.staged, congrArg Int.toNat htag, ?_⟩
  rw [hsent.commitBody]
  exact (h.paperwork hnoted.paperwork hnoted.host (by decide)).replied rfl rfl rfl rfl rfl rfl status tag

theorem begun_com (op : Nat) : (begun (s.at t) op q).com = s.com := State.at_com s t
theorem begun_staged (op : Nat) : (begun (s.at t) op q).staged = s.staged := State.at_staged s t

theorem CommitFree.begun_at (h : CommitFree s) (hx : q.sess < 16) (t op : Nat) : CommitFree (begun (s.at t) op q) := by
  obtain ⟨hphase, hhuddle, hrejoin⟩ := h.renewed_at hx t
  exact ⟨hphase, hhuddle, hrejoin⟩

theorem commitMsg_not_captain (h : NewRequest (s.at t) q) (hcaptain : isCaptain s q.sess = false) : Answers (.commitMsg q t) s fun u =>
    u.get Ob.Com.LAST_RESULT = stNotCaptain ∧ u.com = s.com ∧ u.staged = s.staged ∧ Replied u 0x12 q stNotCaptain (commitBody u (u.nat Ob.Com.LAST_TAG)) := by
  obtain ⟨hresult, hcom, hstaged, htag, hreplied⟩ :=
    commitTurned_spec (begun_answerable h 0x12) stNotCaptain ((begun (s.at t) 0x12 q).nat Ob.Com.LAST_TAG)
  rw [answers_iff (exec_commitMsg h), hcaptain, startCommit_of_refused (status := stNotCaptain) rfl (by decide)]
  exact ⟨hresult, hcom.trans (begun_com _), hstaged.trans (begun_staged _), by rw [htag]; exact hreplied⟩

theorem commitMsg_empty (h : NewRequest (s.at t) q) (hcaptain : isCaptain s q.sess = true) (hfree : CommitFree s) (hempty : s.staged = []) :
    Answers (.commitMsg q t) s fun u => u.get Ob.Com.LAST_RESULT = stOk ∧ u.com = s.com ∧ u.staged = s.staged ∧ Replied u 0x12 q stOk (commitBody u 0) := by
  obtain ⟨hresult, hcom, hstaged, -, hreplied⟩ := commitTurned_spec (begun_answerable h 0x12) stOk 0
  rw [answers_iff (exec_commitMsg h), hcaptain, startCommit_of_empty (hfree.begun_at h.sess_lt t _) ((begun_staged _).trans hempty)]
  exact ⟨hresult, hcom.trans (begun_com _), hstaged.trans (begun_staged _), hreplied⟩

/-- Axes and bytes stand where a COMMIT by a message has gone into validation. -/
theorem Paperwork.kept_begun {keys : List Nat} {op : Nat} (h : Paperwork keys (Machine.drawn (begun (s.at t) op q)) u) : (∀ x, u.axis x = s.axis x) ∧ BytesKept s u :=
  ⟨fun x => (h.axis x).trans (State.at_axis s t x), (bytesKept_at t).1 h.bytesKept⟩

theorem commitMsg_valid (h : NewRequest (s.at t) q) (hcaptain : isCaptain s q.sess = true) (hfree : CommitFree s) (hsome : s.staged ≠ [])
    (hpass : (ownVerdict (begun (s.at t) 0x12 q) (byMessage q)).2 = none) : Answers (.commitMsg q t) s fun u =>
      u.com.phase = 1 ∧ u.com.entries = s.staged ∧ u.com.viaObject = false ∧ u.com.sess = q.sess ∧ u.com.seqNo = q.seqNo ∧ u.com.path = q.toPath ∧
        u.get Ob.Com.COMMIT_STATE = 1 ∧ u.com.tQ ≤ u.now + 50000 + 250 * s.staged.length ∧ u.staged = s.staged ∧ u.out = s.out ∧
        (∀ x, u.axis x = s.axis x) ∧ BytesKept s u := by
  have hstood : (begun (s.at t) 0x12 q).staged = s.staged := begun_staged _
  obtain ⟨hcom, hstate, hkept, hout, -, hnow, hbook⟩ := ownVerdict_spec (begun (s.at t) 0x12 q) (byMessage q)
  have hlast := (validating_end (begun (s.at t) 0x12 q) (byMessage q)).2
  rw [answers_iff (exec_commitMsg h), hcaptain, startCommit_of_valid (hfree.begun_at h.sess_lt t _) (hstood.trans_ne hsome) hpass]
  dsimp only
  generalize (ownVerdict (begun (s.at t) 0x12 q) (byMessage q)).1 = v at *
  rw [← hnow, ← hcom, hstood] at hlast
  exact ⟨congrArg CommitRt.phase hcom, (congrArg CommitRt.entries hcom).trans hstood, congrArg CommitRt.viaObject hcom, congrArg CommitRt.sess hcom,
    congrArg CommitRt.seqNo hcom, congrArg CommitRt.path hcom, hstate, hlast, hkept.trans hstood, hout.trans (State.at_out ..), hbook.kept_begun⟩

/-- A COMMIT by a message that a step of Table 05-4 rejects is answered with that step's status (R112, R120). -/
theorem commitReject_replied (h : Answerable s q) {status reason obj : Nat} (hfault : (ownVerdict s (byMessage q)).2 = some (status, reason, obj)) :
    let u := commitReject (ownVerdict s (byMessage q)).1 status reason obj
    Replied u 0x12 q status (commitBody u (u.nat Ob.Com.LAST_TAG)) := by
  obtain ⟨hcom, -, -, -, hhost, -, hbook⟩ := ownVerdict_spec s (byMessage q)
  have hst := commitVerdict_status hfault
  generalize (ownVerdict s (byMessage q)).1 = v at *
  obtain ⟨-, hkept, hdown⟩ := turnedDown_spec (s := v) hst (congrArg CommitRt.discardAfter hcom) reason obj
  have hreach := (h.drawn.paperwork hbook hhost (by decide)).paperwork hdown hkept (by decide)
  have heq := commitReject_eq (s := v) status reason obj
  dsimp only at heq
  rw [mirror_of_unpaired hreach.unpaired] at heq
  have hsent := commitReject_sent (s := v) status reason obj
  have htag : (commitReject v status reason obj).nat Ob.Com.LAST_TAG = (turnedDown v status reason obj).nat Ob.Com.LAST_TAG := congrArg Int.toNat (hsent.get ..)
  dsimp only
  rw [hsent.commitBody, htag, heq]
  exact hreach.replied (congrArg CommitRt.viaObject hcom) (congrArg CommitRt.startup hcom) (congrArg CommitRt.sess hcom) (congrArg CommitRt.token hcom)
    (congrArg CommitRt.seqNo hcom) (congrArg CommitRt.path hcom) _ _

theorem commitMsg_fault (h : NewRequest (s.at t) q) (hcaptain : isCaptain s q.sess = true) (hfree : CommitFree s) (hsome : s.staged ≠ []) {status reason obj : Nat}
    (hfault : (ownVerdict (begun (s.at t) 0x12 q) (byMessage q)).2 = some (status, reason, obj)) : Answers (.commitMsg q t) s fun u =>
      u.com.phase = 0 ∧ u.get Ob.Com.LAST_RESULT = status ∧ u.get Ob.Com.LAST_REASON = reason ∧ u.get Ob.Com.LAST_OBJECT = obj ∧ u.staged = s.staged ∧
        u.get Ob.Com.REJECT_COUNT = satInc 32 (s.get Ob.Com.REJECT_COUNT) ∧ Replied u 0x12 q status (commitBody u (u.nat Ob.Com.LAST_TAG)) := by
  have hstood : (begun (s.at t) 0x12 q).staged = s.staged := begun_staged _
  have hcounted : (begun (s.at t) 0x12 q).get Ob.Com.REJECT_COUNT = s.get Ob.Com.REJECT_COUNT := (begun_get h.sess_lt (by decide)).trans (State.at_get ..)
  obtain ⟨hphase, -, hresult, hreason, hobject, hcount, hkept, -⟩ := commitReject_ownVerdict hfault rfl
  have hreplied := commitReject_replied (begun_answerable h 0x12) hfault
  rw [answers_iff (exec_commitMsg h), hcaptain, startCommit_of_fault (hfree.begun_at h.sess_lt t _) (hstood.trans_ne hsome) hfault]
  exact ⟨hphase, hresult, hreason, hobject, hkept.trans hstood, hcount.trans (by rw [hcounted]), hreplied⟩

end Sys2Proof.Machine

open Sys2Proof Sys2Proof.Machine

/-- Settles O36: each request comes down to the state it is served from, its sender's lease renewed and its number in the window, and to its own rule. -/
theorem sessionsReadWriteSubscribeAndCommit : Obligations.SessionsReadWriteSubscribeAndCommit := by
  unfold Obligations.SessionsReadWriteSubscribeAndCommit
  intro s q t op e o v h key id c a b verdict
  refine ⟨fun l n hlen hmin hmax hnames hsnap hsize => hostRead_named h hlen hmin hmax hnames hsnap hsize,
    fun n x w hlen hcount hnames hsnap hkind hrow hfixed hvalue hsize => hostRead_object h hlen hcount hnames hsnap hkind hrow hfixed hvalue hsize,
    fun hone hentries hlen hrow hacc => ⟨fun hcaptain htype hwhole hvalue hrange hphase hroom => ?_,
      fun hcaptain => hostWrite_refused h hlen hone hentries hrow hacc hcaptain⟩,
    fun hlen hid hcount => hostSubscribe_end h hlen hid hcount,
    commitMsg_not_captain h,
    fun hcaptain hphase hhuddle hrejoin => ?_,
    unknownOpcode_range h⟩
  · have htaken : TakenFrom (begun (s.at t) 0x11 q) q.sess e o v := ⟨hrow, (begun_isCaptain h.sess_lt _ _).trans hcaptain, htype, hwhole, hvalue, hrange⟩
    exact hostWrite_staged h hlen hone hentries hacc htaken hphase hroom
  · have hfree : CommitFree s := ⟨hphase, hhuddle, hrejoin⟩
    exact ⟨commitMsg_empty h hcaptain hfree, commitMsg_valid h hcaptain hfree, fun _ _ _ hsome hfault => commitMsg_fault h hcaptain hfree hsome hfault⟩
end

