-- ==== Sys2Proof/Proofs/ExpiredRequests.lean ====
section
/-! A request of no open session, or with a wrong token (R139), and O5. -/

namespace Sys2Proof.Machine

variable {s u v : State} {q : Req} {op t : Nat}

/-! ### A reply sent -/

/-- `u` differs from `s` at most in what is sent and in the PCIe channels. -/
def ChannelsOnly (s u : State) : Prop := { u with out := s.out, host := { u.host with chans := s.host.chans } } = s

theorem ChannelsOnly.trans (h : ChannelsOnly s u) (g : ChannelsOnly u v) : ChannelsOnly s v := by
  unfold ChannelsOnly at h
  rw [← g] at h
  exact h

theorem channelsOnly_fillReply (c : Nat) : ChannelsOnly s (fillReply s c) := by
  unfold fillReply
  dsimp only
  split
  · split <;> rfl
  · rfl

theorem channelsOnly_sendReply (p : Path) (b : List Byte) : ChannelsOnly s (sendReply s p b) := by
  unfold sendReply
  split
  · rfl
  · refine ChannelsOnly.trans ?_ (channelsOnly_fillReply _)
    split <;> rfl

theorem ChannelsOnly.sess (h : ChannelsOnly s u) : u.host.sess = s.host.sess := by simpa using congrArg (fun w => w.host.sess) h
theorem ChannelsOnly.safe (h : ChannelsOnly s u) : u.safe = s.safe := by simpa using congrArg State.safe h
theorem ChannelsOnly.pair (h : ChannelsOnly s u) : u.pair = s.pair := by simpa using congrArg State.pair h

/-! ### A request that is not admitted -/

theorem admitted_of_no_session (h : sessOpen s q.sess = false ∨ (s.sess q.sess).token ≠ q.token) : admitted s q = false := by
  unfold admitted
  rcases h with h | h <;> simp [h]

theorem unitRuns_of_listens {p : Path} (h : listens (s.at t) p = true) : unitRuns s = true := by
  simp only [listens, Bool.and_eq_true] at h
  obtain ⟨hrun, -⟩ := h
  simpa [unitRuns] using hrun

theorem linliRun_of_not_admitted (hlistens : listens s q.toPath = true) (hadmitted : admitted s q = false) (hop : op ≠ 1) :
    linliRun s op q = replyPlain s op q stLeaseExpired [] := by
  unfold linliRun
  rw [if_neg (by simp [hlistens]), if_neg hop, if_pos hadmitted]

theorem at_sess (k : Nat) : (s.at t).sess k = s.sess k := by rw [State.sess, State.at_host, State.sess]

/-- Such a request is answered with LEASE_EXPIRED, and nothing but the reply differs. -/
theorem expired_spec (hlistens : listens (s.at t) q.toPath = true) (hsess : sessOpen s q.sess = false ∨ (s.sess q.sess).token ≠ q.token) (hop : op ≠ 1) {c : Instr}
    (hmeans : exec c s = whileOn s t (.next (linliRun (s.at t) op q))) : Answers c s fun u =>
      u = sendReply (s.at t) q.toPath (linliBytes op q.sess q.seqNo stLeaseExpired q.token []) ∧
        u.od = s.od ∧ u.host.sess = s.host.sess ∧ u.staged = s.staged ∧ u.com = s.com ∧ u.safe = s.safe ∧ u.pair = s.pair ∧ AxesKept [] s u ∧ BytesKept s u := by
  have hadmitted : admitted (s.at t) q = false := admitted_of_no_session (by rwa [at_sessOpen, at_sess])
  have hsent : Sent (s.at t) (replyPlain (s.at t) op q stLeaseExpired []) := sent_sendReply _ _
  have hkept : ChannelsOnly (s.at t) (replyPlain (s.at t) op q stLeaseExpired []) := channelsOnly_sendReply _ _
  have hbook : Paperwork [] (s.at t) (replyPlain (s.at t) op q stLeaseExpired []) := hsent.paperwork
  rw [answers_iff (hmeans.trans (whileOn_runs (unitRuns_of_listens hlistens))), linliRun_of_not_admitted hlistens hadmitted hop]
  refine ⟨rfl, hsent.od.trans (State.at_od ..), hkept.sess.trans (by rw [State.at_host]), hsent.staged.trans (State.at_staged ..), hsent.com.trans (State.at_com ..),
    hkept.safe.trans (State.at_safe ..), hkept.pair.trans (State.at_pair ..), fun a _ => (hbook.axis a).trans (State.at_axis ..), (bytesKept_at t).1 hbook.bytesKept⟩

end Sys2Proof.Machine

open Sys2Proof Sys2Proof.Machine

/-- Settles O5: a request of every opcode but OPEN that is not admitted comes down to one reply, which touches what is sent and the PCIe channels alone. -/
theorem requestsOfNoOpenSessionAnswerLeaseExpired : Obligations.RequestsOfNoOpenSessionAnswerLeaseExpired := by
  unfold Obligations.RequestsOfNoOpenSessionAnswerLeaseExpired
  intro s q t op hlistens hsess hop a expired
  have refused {c : Instr} {op : Nat} (hop : op ≠ 1) (hmeans : exec c s = whileOn s t (.next (linliRun (s.at t) op q))) : expired c op :=
    expired_spec hlistens hsess hop hmeans
  exact ⟨refused (by decide) rfl, refused (by decide) rfl, refused (by decide) rfl, refused (by decide) rfl, refused (by decide) rfl, refused (by decide) rfl,
    refused (by decide) rfl, refused (by decide) rfl, refused hop rfl⟩
end

