-- ==== Sys2Proof/Proofs/Possession.lean ====
section
/-! A claim set, possession passed, a session closed (R144, R146 to R149), and what each leaves as it was. -/

namespace Sys2Proof.Machine

variable {keys : List Nat} {s u v : State}

/-! ### What a change of possession leaves -/

/-- `u` differs from `s` at most in the objects of the list, the staged copy, the commit, the axes, the safety island, host access and what is sent or waits to be
sent. -/
structure Handing (keys : List Nat) (s u : State) : Prop where
  od : ObjectsKept keys s u
  rest : { u with od := s.od, com := s.com, staged := s.staged, axes := s.axes, safe := s.safe, host := s.host, pair := s.pair, out := s.out } = s

@[simp] theorem Handing.refl : Handing keys s s := ⟨fun _ _ => rfl, rfl⟩

theorem Handing.trans (h : Handing keys s u) (g : Handing keys u v) : Handing keys s v where
  od k hk := (g.od k hk).trans (h.od k hk)
  rest := by
    have hr := h.rest
    rw [← g.rest] at hr
    exact hr

theorem Handing.symm (h : Handing keys s u) : Handing keys u s where
  od k hk := (h.od k hk).symm
  rest := by
    conv_lhs => rw [← h.rest]

/-- A further operation of that kind changes nothing of what is kept. -/
theorem Handing.step (g : Handing keys u v) : Handing keys s v ↔ Handing keys s u := ⟨fun h => h.trans g.symm, fun h => h.trans g⟩

theorem Handing.mono {keys' : List Nat} (h : Handing keys s u) (hsub : keys ⊆ keys') : Handing keys' s u := ⟨fun k hk => h.od k fun hm => hk (hsub hm), h.rest⟩

theorem Handing.get (h : Handing keys s u) {o : Obj} {i j k : Nat} (hk : o.key i j k ∉ keys) : u.get o i j k = s.get o i j k := get_congr (h.od _ hk)

theorem Handing.now (h : Handing keys s u) : u.now = s.now := by simpa using congrArg State.now h.rest
theorem Handing.boot (h : Handing keys s u) : u.boot = s.boot := by simpa using congrArg State.boot h.rest

theorem Handing.bytesKept (h : Handing keys s u) : BytesKept s u := by
  have hshared : u.shared = s.shared := by simpa using congrArg State.shared h.rest
  have hucode : u.ucode = s.ucode := by simpa using congrArg State.ucode h.rest
  have haces : u.aces = s.aces := by simpa using congrArg State.aces h.rest
  intro a
  simp only [State.ace, hshared, hucode, haces]
  exact ⟨trivial, trivial, fun _ => trivial⟩

/-! ### Operations of that kind -/

@[simp] theorem handing_set {o : Obj} {i j k : Nat} (ho : o.key i j k ∈ keys) (x : Int) : Handing keys s (u.set o x i j k) ↔ Handing keys s u :=
  Handing.step ⟨fun _ hn => State.set_od_ne _ _ _ _ _ _ _ fun h => hn (h ▸ ho), rfl⟩
@[simp] theorem handing_count {o : Obj} {i j k : Nat} (ho : o.key i j k ∈ keys) (n : Int) : Handing keys s (u.count o i j k n) ↔ Handing keys s u := handing_set ho _
@[simp] theorem handing_wrapInc {o : Obj} {i j k : Nat} (ho : o.key i j k ∈ keys) : Handing keys s (u.wrapInc o i j k) ↔ Handing keys s u := handing_set ho _
@[simp] theorem handing_modCom (f : CommitRt → CommitRt) : Handing keys s (u.modCom f) ↔ Handing keys s u := Handing.step ⟨fun _ _ => rfl, rfl⟩
@[simp] theorem handing_modSafe (f : SafeRt → SafeRt) : Handing keys s (u.modSafe f) ↔ Handing keys s u := Handing.step ⟨fun _ _ => rfl, rfl⟩
@[simp] theorem handing_modAxis (a : Nat) (f : AxisRt → AxisRt) : Handing keys s (u.modAxis a f) ↔ Handing keys s u := Handing.step ⟨fun _ _ => rfl, rfl⟩
@[simp] theorem handing_withStaged (l : List Staged) : Handing keys s { u with staged := l } ↔ Handing keys s u := Handing.step ⟨fun _ _ => rfl, rfl⟩
@[simp] theorem handing_withHost (x : HostRt) : Handing keys s { u with host := x } ↔ Handing keys s u := Handing.step ⟨fun _ _ => rfl, rfl⟩
@[simp] theorem handing_setSess (k : Nat) (x : SessRt) : Handing keys s (u.setSess k x) ↔ Handing keys s u := handing_withHost _

@[simp] theorem handing_ite (c : Prop) [Decidable c] : Handing keys s (if c then u else v) ↔ (c → Handing keys s u) ∧ (¬c → Handing keys s v) := by
  by_cases h : c <;> simp [h]

theorem Sent.handing (h : Sent s u) : Handing keys s u where
  od k _ := by rw [h.od]
  rest := by
    conv_rhs => rw [← h]
    conv_lhs => rw [← h]

@[simp] theorem handing_mirror (m : Mirror) : Handing keys s (mirror u m) ↔ Handing keys s u := (sent_mirror m).handing.step
@[simp] theorem handing_mirrorSess (k : Nat) : Handing keys s (mirrorSess u k) ↔ Handing keys s u := (sent_mirrorSess k).handing.step
@[simp] theorem handing_mirrorPoss (cause : Nat) : Handing keys s (mirrorPoss u cause) ↔ Handing keys s u := handing_mirror _

theorem sent_fillNote (c : Nat) : Sent s (fillNote s c) := by
  unfold fillNote
  dsimp only
  split
  · split <;> rfl
  · rfl

/-! ### Possession passes -/

/-- Objects that the end of a captain's possession writes: the change log and the safety session, the staged copy's (Table 05-11), CONTROL of every axis. -/
def endKeys : List Nat := Ob.Isl.SAFETY_SESSION.key :: settledKeys ++ (List.range 256).map fun a => Ob.Ctl.CONTROL.key a

/-- Objects that a notification of possession writes. -/
def tellKeys : List Nat := Ob.Poss.POSSESSION_STATE.key :: (List.range 16).map fun k => Ob.Sess.NOTIFY_SEQ.key k

/-- Objects that a change of possession writes: those, CAPTAIN and POSSESSION_CHANGES and the claims of the sessions. -/
def possessionKeys : List Nat :=
  [Ob.Poss.CAPTAIN.key, Ob.Poss.POSSESSION_CHANGES.key] ++ ((List.range 16).flatMap fun k => [Ob.Sess.CLAIM_PRIORITY.key k, Ob.Sess.CLAIM_TIME.key k]) ++ tellKeys ++ endKeys

theorem control_mem_endKeys {a : Nat} (ha : a < 256) : Ob.Ctl.CONTROL.key a ∈ endKeys := List.mem_append_right _ (List.mem_map.2 ⟨a, List.mem_range.2 ha, rfl⟩)
theorem notifySeq_mem_tellKeys {k : Nat} (hk : k < 16) : Ob.Sess.NOTIFY_SEQ.key k ∈ tellKeys := List.mem_cons_of_mem _ (List.mem_map.2 ⟨k, List.mem_range.2 hk, rfl⟩)

theorem handing_dropStaged : Handing endKeys s (dropStaged s) := by simp +decide [dropStaged, putStaged, endKeys, settledKeys]

theorem handing_safetyClose : Handing endKeys s (safetyClose s) := by
  unfold safetyClose
  split
  · simp +decide [logEntry, publishLog, endKeys, settledKeys]
  · exact .refl

theorem handing_clearJogs : Handing endKeys s (clearJogs s) := by
  refine List.foldlRecOn (motive := Handing endKeys s) _ _ .refl fun w hw a ha => ?_
  dsimp only
  split
  · rw [controlWrite, askAxis]
    exact (handing_modAxis a _).2 ((handing_set (control_mem_endKeys (List.mem_range.1 ha)) _).2 hw)
  · exact hw

/-- What ends with the possession of the old captain (R108, R188, R359): its staged copy, at once or with the commit under way, its safety session, the jogs. -/
def captaincyEnded (s : State) : State :=
  clearJogs (safetyClose (if s.get Ob.Poss.CAPTAIN ≠ 0xFF then (if s.com.phase ≠ 0 then s.modCom fun k => { k with discardAfter := true } else dropStaged s) else s))

theorem handing_captaincyEnded : Handing endKeys s (captaincyEnded s) := by
  refine Handing.trans ?_ (handing_safetyClose.trans handing_clearJogs)
  split
  · split
    · simp
    · exact handing_dropStaged
  · exact .refl

/-- CAPTAIN and POSSESSION_CHANGES written, and the new captain's claim cleared (R147, R149). -/
def captainSet (s : State) (c : Nat) : State :=
  let s := (s.set Ob.Poss.CAPTAIN c).count Ob.Poss.POSSESSION_CHANGES
  if c = 0xFF then s else (s.set Ob.Sess.CLAIM_PRIORITY 0 c).set Ob.Sess.CLAIM_TIME 0 c

/-- The instants that an election waits for (R147). -/
def electionTimed (s : State) (c : Nat) : State :=
  { s with host := { s.host with looseAt := if c = 0xFF then s.now else s.host.looseAt, away := false,
                                 firstClaim := if c = 0xFF ∧ (claims s).isEmpty = false then some s.now else none } }

/-- Every session told, POSSESSION_STATE brought up to date and the standby told. -/
def possessionTold (s : State) (cause : Nat) : State := mirrorPoss (publishPoss (notifyPossession s cause)) cause

theorem possessionTo_of_ne {c : Nat} (h : s.nat Ob.Poss.CAPTAIN ≠ c) (cause : Nat) :
    possessionTo s c cause = possessionTold (electionTimed (captainSet (captaincyEnded s) c) c) cause := by
  unfold possessionTo
  rw [if_neg h]
  simp only [captaincyEnded, decide_eq_true_eq]
  rfl

theorem handing_notifySess {k : Nat} (hk : k < 16) (b : List Byte) : Handing tellKeys s (notifySess s k b) := by
  have hseq := notifySeq_mem_tellKeys hk
  unfold notifySess
  dsimp only
  split
  · exact .refl
  · have hnumbered : Handing tellKeys s (mirrorSess (s.wrapInc Ob.Sess.NOTIFY_SEQ k) k) := by simp [hseq]
    split
    · exact hnumbered.trans ⟨fun _ _ => rfl, rfl⟩
    · exact hnumbered.trans (Handing.trans ((handing_withHost _).2 .refl) (sent_fillNote _).handing)

theorem handing_possessionTold (cause : Nat) : Handing tellKeys s (possessionTold s cause) := by
  have hnotified : Handing tellKeys s (notifyPossession s cause) := by
    refine List.foldlRecOn (motive := Handing tellKeys s) _ _ .refl fun w hw k hk => hw.trans (handing_notifySess ?_ _)
    exact List.mem_range.1 (List.mem_of_mem_filter hk)
  refine (handing_mirrorPoss _).2 ?_
  unfold publishPoss
  exact (handing_set List.mem_cons_self _).2 hnotified

/-- Objects of a session's claim. -/
def claimKeys (k : Nat) : List Nat := [Ob.Sess.CLAIM_PRIORITY.key k, Ob.Sess.CLAIM_TIME.key k]

theorem claimPriority_ne_claimTime (k j : Nat) : Ob.Sess.CLAIM_PRIORITY.key k ≠ Ob.Sess.CLAIM_TIME.key j := by
  simp only [Obj.key, Ob.Sess.CLAIM_PRIORITY, Ob.Sess.CLAIM_TIME]
  omega

theorem claimKeys_subset : ∀ k < 16, claimKeys k ⊆ possessionKeys := by decide +kernel
theorem claimPriority_not_mem_tellKeys : ∀ k < 16, Ob.Sess.CLAIM_PRIORITY.key k ∉ tellKeys := by decide +kernel
theorem not_mem_claimKeys : ∀ k < 16, Ob.Poss.CAPTAIN.key ∉ claimKeys k ∧ Ob.Poss.POSSESSION_CHANGES.key ∉ claimKeys k := by decide +kernel

theorem captainSet_spec {c : Nat} (hc : c < 16 ∨ c = 0xFF) :
    let u := captainSet s c
    u.get Ob.Poss.CAPTAIN = c ∧ u.get Ob.Poss.POSSESSION_CHANGES = satInc 32 (s.get Ob.Poss.POSSESSION_CHANGES) ∧
      (c < 16 → u.get Ob.Sess.CLAIM_PRIORITY c = 0) ∧ Handing possessionKeys s u := by
  intro u
  let w := (s.set Ob.Poss.CAPTAIN c).count Ob.Poss.POSSESSION_CHANGES
  have hcaptain : w.get Ob.Poss.CAPTAIN = c := by simp +decide [w, State.get_count]
  have hchanges : w.get Ob.Poss.POSSESSION_CHANGES = satInc 32 (s.get Ob.Poss.POSSESSION_CHANGES) := by
    rw [State.get_count, if_pos rfl, State.get_set_ne _ _ _ _ _ _ _ _ _ _ (by decide)]
    rfl
  have hw : Handing possessionKeys s w := by simp [w, possessionKeys]
  rcases hc with hc | rfl
  · obtain ⟨hcap, hch⟩ := not_mem_claimKeys c hc
    have hcleared : Handing (claimKeys c) w u := by
      simp [u, w, captainSet, claimKeys, show c ≠ 255 by omega]
    have hclaim : u.get Ob.Sess.CLAIM_PRIORITY c = 0 := by
      simp only [u, captainSet, show c ≠ 255 by omega, if_false]
      rw [State.get_set_ne _ _ _ _ _ _ _ _ _ _ (claimPriority_ne_claimTime c c), State.get_set_self]
    exact ⟨(hcleared.get hcap).trans hcaptain, (hcleared.get hch).trans hchanges, fun _ => hclaim, hw.trans (hcleared.mono (claimKeys_subset c hc))⟩
  · exact ⟨hcaptain, hchanges, fun h => absurd h (by decide), hw⟩

/-- What a change of possession shows (R147 to R149). -/
theorem possessionTo_spec {c : Nat} (h : s.nat Ob.Poss.CAPTAIN ≠ c) (hc : c < 16 ∨ c = 0xFF) (cause : Nat) :
    let u := possessionTo s c cause
    u.get Ob.Poss.CAPTAIN = c ∧ u.get Ob.Poss.POSSESSION_CHANGES = satInc 32 (s.get Ob.Poss.POSSESSION_CHANGES) ∧
      (c < 16 → u.get Ob.Sess.CLAIM_PRIORITY c = 0) ∧ Handing possessionKeys s u := by
  intro u
  have hended : Handing endKeys s (captaincyEnded s) := handing_captaincyEnded
  obtain ⟨hcaptain, hchanges, hclaim, hset⟩ := captainSet_spec (s := captaincyEnded s) hc
  have htold := handing_possessionTold (s := electionTimed (captainSet (captaincyEnded s) c) c) cause
  have heq : u = _ := possessionTo_of_ne h cause
  rw [← heq] at htold
  have hsub : endKeys ⊆ possessionKeys := List.subset_append_right _ _
  have htell : tellKeys ⊆ possessionKeys := List.Subset.trans (List.subset_append_right _ _) (List.subset_append_left _ _)
  refine ⟨(htold.get (by decide +kernel)).trans hcaptain, (htold.get (by decide +kernel)).trans (hchanges.trans (by rw [hended.get (by decide +kernel)])),
    fun hlt => (htold.get (claimPriority_not_mem_tellKeys c hlt)).trans (hclaim hlt), ?_⟩
  exact (hended.mono hsub).trans (hset.trans (Handing.trans ((handing_withHost _).2 .refl) (htold.mono htell)))

/-! ### Claims -/

/-- The claim of a session and its time written. -/
def claimWritten (s : State) (k prio time : Nat) : State := (s.set Ob.Sess.CLAIM_PRIORITY prio k).set Ob.Sess.CLAIM_TIME (if prio = 0 then 0 else time) k

/-- The receipt of the first claim pending while the ball is loose (R147), as it stands after a claim. -/
def claimTimed (s : State) : State :=
  let first := if (claims s).isEmpty ∨ decide (s.get Ob.Poss.CAPTAIN = 0xFF) = false then none else some (s.host.firstClaim.getD s.now)
  { s with host := { s.host with firstClaim := first } }

/-- A claim noted (R146). -/
def claimed (s : State) (k prio time : Nat) : State := publishPoss (claimTimed (claimWritten s k prio time))

theorem setClaim_of_captain {k : Nat} (h : isCaptain s k = true) (prio time : Nat) : setClaim s k prio time = s := by simp [setClaim, h]

theorem setClaim_of_not_captain {k : Nat} (h : isCaptain s k = false) (prio time : Nat) :
    setClaim s k prio time = mirrorPoss (mirrorSess (claimed s k prio time) k) 0 := by
  unfold setClaim
  rw [if_neg (by simp [h])]
  rfl

/-- Objects that setting a claim writes. -/
def claimedKeys (k : Nat) : List Nat := Ob.Poss.POSSESSION_STATE.key :: claimKeys k

theorem handing_claimed (k prio time : Nat) : Handing (claimedKeys k) s (claimed s k prio time) := by
  unfold claimed publishPoss
  exact (handing_set (by simp [claimedKeys]) _).2 ((handing_withHost _).2 (by simp [claimWritten, claimedKeys, claimKeys]))

theorem handing_setClaim (k prio time : Nat) : Handing (claimedKeys k) s (setClaim s k prio time) := by
  by_cases h : isCaptain s k = true
  · rw [setClaim_of_captain h]
    exact .refl
  · rw [setClaim_of_not_captain (by simpa using h)]
    simpa using handing_claimed k prio time

theorem mirrorSess_host (k : Nat) : (mirrorSess s k).host = s.host := by
  unfold mirrorSess
  split
  · rfl
  · exact mirror_host _

theorem setClaim_away (k prio time : Nat) : (setClaim s k prio time).host.away = s.host.away := by
  by_cases h : isCaptain s k = true
  · rw [setClaim_of_captain h]
  · rw [setClaim_of_not_captain (by simpa using h), mirrorPoss, mirror_host, mirrorSess_host]
    rfl

/-! ### A session closes -/

/-- Objects that closing session `k` writes. -/
def closingKeys (k : Nat) : List Nat := [Ob.Sess.STATE.key k, Ob.Sess.SUBSCRIPTIONS.key k, Ob.Poss.SESSION_COUNT.key]

/-- A session marked closed (R144). -/
def sessionEnded (s : State) (k : Nat) : State :=
  ((s.set Ob.Sess.STATE 0 k).set Ob.Sess.SUBSCRIPTIONS 0 k).set Ob.Poss.SESSION_COUNT (s.get Ob.Poss.SESSION_COUNT - 1)

/-- Its possession given up, where it is the captain's. -/
def captainFreed (s : State) (k cause : Nat) : State := if isCaptain s k then possessionTo s 0xFF cause else s

/-- What is kept of a session emptied. -/
def sessionEmptied (s : State) (k : Nat) : State := s.setSess k { s.sess k with win := [], subs := [], opened := [] }

theorem closeSession_of_open {k : Nat} (h : sessOpen s k = true) (cause : Nat) :
    closeSession s k cause = mirrorSess (sessionEmptied (setClaim (captainFreed (sessionEnded s k) k cause) k 0 0) k) k := by
  simp only [closeSession, h, Bool.true_eq_false, if_false]
  rfl

theorem handing_sessionEnded (k : Nat) : Handing (closingKeys k) s (sessionEnded s k) := by simp [sessionEnded, closingKeys]

theorem captain_not_mem_closingKeys : ∀ k < 16, Ob.Poss.CAPTAIN.key ∉ closingKeys k := by decide +kernel

theorem sessionEnded_captain {k : Nat} (hk : k < 16) : (sessionEnded s k).get Ob.Poss.CAPTAIN = s.get Ob.Poss.CAPTAIN :=
  (handing_sessionEnded k).get (captain_not_mem_closingKeys k hk)

theorem sessionEnded_isCaptain {k : Nat} (hk : k < 16) (j : Nat) : isCaptain (sessionEnded s k) j = isCaptain s j := by
  simp only [isCaptain, sessionEnded_captain hk]
  rfl

theorem closingKeys_apart (k : Nat) : Ob.Sess.STATE.key k ≠ Ob.Sess.SUBSCRIPTIONS.key k ∧ Ob.Sess.STATE.key k ≠ Ob.Poss.SESSION_COUNT.key ∧
    Ob.Sess.SUBSCRIPTIONS.key k ≠ Ob.Poss.SESSION_COUNT.key := by
  simp only [Obj.key, Ob.Sess.STATE, Ob.Sess.SUBSCRIPTIONS, Ob.Poss.SESSION_COUNT]
  omega

theorem sessionEnded_spec (k : Nat) : (sessionEnded s k).get Ob.Sess.STATE k = 0 ∧ (sessionEnded s k).get Ob.Sess.SUBSCRIPTIONS k = 0 ∧
    (sessionEnded s k).get Ob.Poss.SESSION_COUNT = s.get Ob.Poss.SESSION_COUNT - 1 := by
  obtain ⟨hstate, hcount, hsubs⟩ := closingKeys_apart k
  simp [sessionEnded, State.get_set, hstate, hcount, hsubs]

theorem nat_captain_of_isCaptain {k : Nat} (h : isCaptain s k = true) : s.nat Ob.Poss.CAPTAIN = k := by
  simp only [isCaptain, Bool.and_eq_true, decide_eq_true_eq] at h
  obtain ⟨⟨hcaptain, -⟩, -⟩ := h
  simp [State.nat, hcaptain]

/-- A captain's possession is loose once given up, that of another stands (R144). -/
theorem captainFreed_spec {k : Nat} (hk : k < 16) (cause : Nat) :
    let u := captainFreed s k cause
    u.get Ob.Poss.CAPTAIN = (if isCaptain s k then 0xFF else s.get Ob.Poss.CAPTAIN) ∧ Handing possessionKeys s u ∧ (isCaptain s k = false → u = s) := by
  intro u
  cases h : isCaptain s k with
  | true =>
    have hne : s.nat Ob.Poss.CAPTAIN ≠ 0xFF := by rw [nat_captain_of_isCaptain h]; omega
    obtain ⟨hcaptain, -, -, hkept⟩ := possessionTo_spec hne (.inr rfl) cause
    have heq : u = possessionTo s 0xFF cause := by simp [u, captainFreed, h]
    rw [heq]
    exact ⟨hcaptain, hkept, fun hf => absurd hf (by decide)⟩
  | false =>
    have heq : u = s := by simp [u, captainFreed, h]
    rw [heq]
    exact ⟨rfl, .refl, fun _ => rfl⟩

theorem claimedKeys_subset : ∀ k < 16, claimedKeys k ⊆ possessionKeys := by decide +kernel
theorem captain_not_mem_claimedKeys : ∀ k < 16, Ob.Poss.CAPTAIN.key ∉ claimedKeys k := by decide +kernel
theorem closingKeys_not_possession : ∀ k < 16, ∀ n ∈ closingKeys k, n ∉ possessionKeys := by decide +kernel

/-- What closing an open session shows (R144). -/
theorem closeSession_spec {k : Nat} (h : sessOpen s k = true) (cause : Nat) :
    let u := closeSession s k cause
    u.get Ob.Sess.STATE k = 0 ∧ u.get Ob.Sess.SUBSCRIPTIONS k = 0 ∧ u.get Ob.Poss.SESSION_COUNT = s.get Ob.Poss.SESSION_COUNT - 1 ∧
      u.get Ob.Poss.CAPTAIN = (if isCaptain s k then 0xFF else s.get Ob.Poss.CAPTAIN) ∧ (isCaptain s k = false → u.host.away = s.host.away) ∧
      Handing (closingKeys k ++ possessionKeys) s u := by
  intro u
  have hk := sessOpen_lt h
  obtain ⟨hstate, hsubs, hcount⟩ := sessionEnded_spec (s := s) k
  obtain ⟨hcaptain, hfreed, hsame⟩ := captainFreed_spec (s := sessionEnded s k) hk cause
  have hclaim := handing_setClaim (s := captainFreed (sessionEnded s k) k cause) k 0 0
  have haway := setClaim_away (s := captainFreed (sessionEnded s k) k cause) k 0 0
  have heq : u = _ := closeSession_of_open h cause
  have hlast : Handing [] (setClaim (captainFreed (sessionEnded s k) k cause) k 0 0) u := by
    rw [heq]
    simp [sessionEmptied]
  have hafter : Handing possessionKeys (sessionEnded s k) u := hfreed.trans ((hclaim.mono (claimedKeys_subset k hk)).trans (hlast.mono (List.nil_subset _)))
  have hstays := closingKeys_not_possession k hk
  refine ⟨(hafter.get (hstays _ (by simp [closingKeys]))).trans hstate, (hafter.get (hstays _ (by simp [closingKeys]))).trans hsubs,
    (hafter.get (hstays _ (by simp [closingKeys]))).trans hcount, ?_, fun hother => ?_, ?_⟩
  · rw [hlast.get List.not_mem_nil, hclaim.get (captain_not_mem_claimedKeys k hk), hcaptain, sessionEnded_isCaptain hk, sessionEnded_captain hk]
  · rw [heq, mirrorSess_host]
    refine haway.trans ?_
    rw [hsame (by rwa [sessionEnded_isCaptain hk])]
    rfl
  · exact ((handing_sessionEnded k).mono (List.subset_append_left _ _)).trans (hafter.mono (List.subset_append_right _ _))

end Sys2Proof.Machine
end

