-- ==== Sys2Proof/Proofs/SessionMessages.lean ====
section
/-! CLAIM, PASS, RELEASE and CLOSE of a session (R144, R146, R148), O6 and O35. -/

namespace Sys2Proof.Machine

variable {keys : List Nat} {s u : State} {q : Req} {op t : Nat}

/-! ### What a request of an open session is served from -/

theorem NewRequest.sessOpen (h : NewRequest (s.at t) q) : sessOpen s q.sess = true := by
  obtain ⟨-, -, -, -, -, hadmitted, -⟩ := h
  simp only [admitted, Bool.and_eq_true] at hadmitted
  obtain ⟨⟨⟨hopen, -⟩, -⟩, -⟩ := hadmitted
  simpa using hopen

theorem state_ne_lastRenewed (j k : Nat) : Ob.Sess.STATE.key j ≠ Ob.Sess.LAST_RENEWED.key k := by
  simp only [Obj.key, Ob.Sess.STATE, Ob.Sess.LAST_RENEWED]
  omega

theorem renewed_sessOpen (k j : Nat) : Machine.sessOpen (renewed s k) j = Machine.sessOpen s j := by
  rw [Machine.sessOpen, renewed, State.get_set_ne _ _ _ _ _ _ _ _ _ _ (state_ne_lastRenewed j k)]
  rfl

theorem begun_sessOpen (op j : Nat) : Machine.sessOpen (begun (s.at t) op q) j = Machine.sessOpen s j := (renewed_sessOpen q.sess j).trans (at_sessOpen t j)

theorem begun_isStandby (h : NewRequest s q) (op : Nat) : isStandby (begun s op q) = false := by
  have hx := h.sess_lt
  obtain ⟨-, -, -, hrole, -⟩ := h
  rw [isStandby, begun_get hx (by decide), hrole]
  rfl

theorem begun_configured (h : NewRequest s q) (op : Nat) : (begun s op q).boot.configured = true := by
  obtain ⟨-, hconf, -⟩ := h
  exact hconf

theorem Handing.repliesAtOnce (h : Handing keys s u) (hreplies : RepliesAtOnce s) (hkey : Ob.PairC.PAIR_ENABLE.key ∉ keys) : RepliesAtOnce u := by
  obtain ⟨hpair, hreset, hstandby⟩ := hreplies
  exact ⟨(flag_congr (h.od _ hkey)).trans hpair, h.boot ▸ hreset, h.boot ▸ hstandby⟩

theorem Handing.bytesKept_begun (h : Handing keys (begun (s.at t) op q) u) : BytesKept s u := (bytesKept_at t).1 h.bytesKept

/-! ### CLAIM -/

theorem setClaim_of_unpaired {k : Nat} (hpair : s.flag Ob.PairC.PAIR_ENABLE = false) (h : isCaptain s k = false) (hk : k < 16) (prio time : Nat) :
    setClaim s k prio time = claimed s k prio time := by
  have hkey : ∀ k < 16, Ob.PairC.PAIR_ENABLE.key ∉ claimedKeys k := by decide +kernel
  have hclaimed : (claimed s k prio time).flag Ob.PairC.PAIR_ENABLE = false := (flag_congr ((handing_claimed k prio time).od _ (hkey k hk))).trans hpair
  have hsess : mirrorSess (claimed s k prio time) k = claimed s k prio time := by
    unfold mirrorSess
    rw [mirror_of_unpaired hclaimed, ite_self]
  rw [setClaim_of_not_captain h, hsess]
  exact mirror_of_unpaired hclaimed _

theorem claimKeys_div {k : Nat} (hk : k < 16) : Ob.Sess.CLAIM_PRIORITY.key k / 65536 = 0x11 ∧ Ob.Sess.CLAIM_TIME.key k / 65536 = 0x11 := by
  simp only [Obj.key, Ob.Sess.CLAIM_PRIORITY, Ob.Sess.CLAIM_TIME]
  omega

theorem OnlySessions.claimed (h : OnlySessions s u) {k : Nat} (hk : k < 16) (prio time : Nat) : OnlySessions s (claimed u k prio time) := by
  obtain ⟨hprio, htime⟩ := claimKeys_div hk
  have hset : OnlySessions s (claimWritten u k prio time) := (h.set hprio _).set htime _
  exact OnlySessions.set hset (by decide) _

theorem claimedKeys_apart : ∀ k < 16, Ob.Sess.CLAIM_PRIORITY.key k ≠ Ob.Poss.POSSESSION_STATE.key ∧ Ob.Sess.CLAIM_TIME.key k ≠ Ob.Poss.POSSESSION_STATE.key := by
  decide +kernel

/-- A claim as it then stands (R146). -/
theorem claimed_spec {k : Nat} (hk : k < 16) (prio time : Nat) : (claimed s k prio time).get Ob.Sess.CLAIM_PRIORITY k = prio ∧
    (claimed s k prio time).get Ob.Sess.CLAIM_TIME k = (if prio = 0 then 0 else (time : Int)) := by
  obtain ⟨hprio, htime⟩ := claimedKeys_apart k hk
  constructor
  · calc (claimed s k prio time).get Ob.Sess.CLAIM_PRIORITY k
      _ = (claimWritten s k prio time).get Ob.Sess.CLAIM_PRIORITY k := State.get_set_ne _ _ _ _ _ _ _ _ _ _ hprio
      _ = (s.set Ob.Sess.CLAIM_PRIORITY prio k).get Ob.Sess.CLAIM_PRIORITY k := State.get_set_ne _ _ _ _ _ _ _ _ _ _ (claimPriority_ne_claimTime k k)
      _ = prio := State.get_set_self ..
  · calc (claimed s k prio time).get Ob.Sess.CLAIM_TIME k
      _ = (claimWritten s k prio time).get Ob.Sess.CLAIM_TIME k := State.get_set_ne _ _ _ _ _ _ _ _ _ _ htime
      _ = if prio = 0 then 0 else (time : Int) := State.get_set_self ..

/-- Objects that a CLAIM of session `k` writes. -/
def claimRequestKeys (k : Nat) : List Nat := Ob.Sess.LAST_RENEWED.key k :: claimedKeys k

theorem claimRequestKeys_apart : ∀ k < 16, Ob.Poss.CAPTAIN.key ∉ claimRequestKeys k ∧ Ob.PairC.PAIR_ENABLE.key ∉ claimRequestKeys k := by decide +kernel

theorem claimKeys_apart : ∀ k < 16, ∀ j < 16, j ≠ k → Ob.Sess.CLAIM_PRIORITY.key j ∉ claimRequestKeys k ∧ Ob.Sess.CLAIM_TIME.key j ∉ claimRequestKeys k := by
  decide +kernel

theorem claimKeys_ne_lastRenewed (j k : Nat) : Ob.Sess.CLAIM_PRIORITY.key j ≠ Ob.Sess.LAST_RENEWED.key k ∧ Ob.Sess.CLAIM_TIME.key j ≠ Ob.Sess.LAST_RENEWED.key k := by
  simp only [Obj.key, Ob.Sess.CLAIM_PRIORITY, Ob.Sess.CLAIM_TIME, Ob.Sess.LAST_RENEWED]
  omega

theorem claimRequest_of_range (hlen : 4 ≤ q.body.length) (hmax : leAt q.body 0 1 ≤ 15) (hactive : isStandby s = false) (hconf : s.boot.configured = true) :
    claimRequest s q = (setClaim s q.sess (leAt q.body 0 1) s.now, stOk,
      leBytes 1 ((setClaim s q.sess (leAt q.body 0 1) s.now).nat Ob.Poss.CAPTAIN) ++ leBytes 3 0) := by
  unfold claimRequest
  dsimp only
  rw [if_neg (by omega), if_neg (by omega), if_neg (by simp [hactive]), if_neg (by simp [hconf])]

theorem handing_begun : Handing [Ob.Sess.LAST_RENEWED.key q.sess] (s.at t) (begun (s.at t) op q) := Handing.trans (u := renewed (s.at t) q.sess) (by simp [renewed]) ((handing_setSess _ _).2 .refl)

/-- The claim of a session set or withdrawn; the captain's stands as it was (R146). -/
theorem setClaim_spec (hpair : s.flag Ob.PairC.PAIR_ENABLE = false) {k : Nat} (hk : k < 16) (prio time : Nat) :
    let u := setClaim s k prio time
    (isCaptain s k = false → u.get Ob.Sess.CLAIM_PRIORITY k = prio ∧ u.get Ob.Sess.CLAIM_TIME k = (if prio = 0 then 0 else (time : Int))) ∧
      (isCaptain s k = true → u = s) ∧ (∀ w, OnlySessions w s → OnlySessions w u) ∧ Handing (claimedKeys k) s u := by
  intro u
  cases h : isCaptain s k with
  | true =>
    have heq : u = s := setClaim_of_captain h prio time
    rw [heq]
    exact ⟨fun hf => absurd hf (by decide), fun _ => rfl, fun _ hw => hw, .refl⟩
  | false =>
    have heq : u = claimed s k prio time := setClaim_of_unpaired hpair h hk prio time
    rw [heq]
    exact ⟨fun _ => claimed_spec hk prio time, fun hf => absurd hf (by decide), fun _ hw => hw.claimed hk prio time, handing_claimed k prio time⟩

/-- What a CLAIM in range leaves and answers (R146). -/
theorem hostClaim_spec (h : NewRequest (s.at t) q) (hlen : 4 ≤ q.body.length) (hmax : leAt q.body 0 1 ≤ 15) : Answers (.hostClaim q t) s fun u =>
    (isCaptain s q.sess = false →
      u.get Ob.Sess.CLAIM_PRIORITY q.sess = leAt q.body 0 1 ∧ u.get Ob.Sess.CLAIM_TIME q.sess = (if leAt q.body 0 1 = 0 then 0 else (u.now : Int))) ∧
    (isCaptain s q.sess = true →
      u.get Ob.Sess.CLAIM_PRIORITY q.sess = s.get Ob.Sess.CLAIM_PRIORITY q.sess ∧ u.get Ob.Sess.CLAIM_TIME q.sess = s.get Ob.Sess.CLAIM_TIME q.sess) ∧
    u.now = (s.at t).now ∧ Replied u 0x20 q stOk (leBytes 1 (s.nat Ob.Poss.CAPTAIN) ++ leBytes 3 0) ∧ u.get Ob.Poss.CAPTAIN = s.get Ob.Poss.CAPTAIN ∧ OnlySessions s u ∧
    ∀ k, k < 16 → k ≠ q.sess → u.get Ob.Sess.CLAIM_PRIORITY k = s.get Ob.Sess.CLAIM_PRIORITY k ∧ u.get Ob.Sess.CLAIM_TIME k = s.get Ob.Sess.CLAIM_TIME k := by
  have hx := h.sess_lt
  have hreplies := h.repliesAtOnce 0x20
  have hserve : serve (begun (s.at t) 0x20 q) 0x20 q = _ := claimRequest_of_range hlen hmax (begun_isStandby h 0x20) (begun_configured h 0x20)
  obtain ⟨hset, hstands, honly, hclaim⟩ := setClaim_spec hreplies.unpaired hx (leAt q.body 0 1) (begun (s.at t) 0x20 q).now
  rw [begun_isCaptain hx] at hset hstands
  generalize setClaim (begun (s.at t) 0x20 q) q.sess (leAt q.body 0 1) (begun (s.at t) 0x20 q).now = w at *
  obtain ⟨hcap, hpair⟩ := claimRequestKeys_apart q.sess hx
  have hkept : Handing (claimRequestKeys q.sess) (s.at t) w := (handing_begun.mono (by simp [claimRequestKeys])).trans (hclaim.mono (List.subset_cons_self _ _))
  have hcaptain : w.get Ob.Poss.CAPTAIN = s.get Ob.Poss.CAPTAIN := (hkept.get hcap).trans (State.at_get ..)
  have hexec : exec (.hostClaim q t) s = .next (linliRun (s.at t) 0x20 q) := whileOn_runs (unitRuns_of_new h)
  rw [answers_iff hexec, linliRun_served h (by decide) (by decide) hserve (hclaim.repliesAtOnce hreplies fun hm => hpair (List.mem_cons_of_mem _ hm))]
  refine ⟨fun hother => ?_, fun hown => ?_, hkept.now, ?_, hcaptain, (honly s (onlySessions_begun hx)).answered _ _ _ _, fun k hk hne => ?_⟩
  · obtain ⟨hprio, htime⟩ := hset hother
    exact ⟨hprio, htime.trans (by rw [← hclaim.now]; rfl)⟩
  · obtain ⟨hprio, htime⟩ := claimKeys_ne_lastRenewed q.sess q.sess
    rw [hstands hown]
    exact ⟨(State.get_set_ne _ _ _ _ _ _ _ _ _ _ hprio).trans (State.at_get ..), (State.get_set_ne _ _ _ _ _ _ _ _ _ _ htime).trans (State.at_get ..)⟩
  · rw [State.nat, hcaptain]
    exact replied_answered _ _
  · obtain ⟨hprio, htime⟩ := claimKeys_apart q.sess hx k hk hne
    exact ⟨(hkept.get hprio).trans (State.at_get ..), (hkept.get htime).trans (State.at_get ..)⟩

/-! ### PASS and RELEASE -/

theorem passRequest_of_captain (hlen : 4 ≤ q.body.length) (hactive : isStandby s = false) (hcaptain : isCaptain s q.sess = true)
    (hopen : Machine.sessOpen s (leAt q.body 0 1) = true) : passRequest s q = (possessionTo s (leAt q.body 0 1) 1, stOk, []) := by
  unfold passRequest
  dsimp only
  rw [if_neg (by omega), if_neg (by simp [hactive]), if_neg (by simp [hcaptain]), if_neg (by simp [hopen])]

theorem passRequest_of_other (hlen : 4 ≤ q.body.length) (hactive : isStandby s = false) (hcaptain : isCaptain s q.sess = false) :
    passRequest s q = (s, stNotCaptain, []) := by
  unfold passRequest
  dsimp only
  rw [if_neg (by omega), if_neg (by simp [hactive]), if_pos hcaptain]

theorem begun_nat_captain (h : NewRequest (s.at t) q) (op : Nat) : (begun (s.at t) op q).nat Ob.Poss.CAPTAIN = s.nat Ob.Poss.CAPTAIN := by
  rw [State.nat, begun_get h.sess_lt (by decide), State.at_get]
  rfl

theorem pairEnable_not_mem : ∀ k < 16, Ob.PairC.PAIR_ENABLE.key ∉ closingKeys k ++ possessionKeys := by decide +kernel

/-- A request that moves possession away from the captain that sends it (R148, R149). -/
theorem moved_spec (h : NewRequest (s.at t) q) (hop : op ≠ 1) (hcommit : op ≠ 0x12) (hcaptain : isCaptain s q.sess = true) {c cause : Nat} (hne : c ≠ q.sess)
    (hc : c < 16 ∨ c = 0xFF) (hserve : serve (begun (s.at t) op q) op q = (possessionTo (begun (s.at t) op q) c cause, stOk, [])) :
    let u := linliRun (s.at t) op q
    (u.get Ob.Poss.CAPTAIN = c ∧ u.get Ob.Poss.POSSESSION_CHANGES = satInc 32 (s.get Ob.Poss.POSSESSION_CHANGES) ∧ BytesKept s u) ∧
      (c < 16 → u.get Ob.Sess.CLAIM_PRIORITY c = 0) ∧ Replied u op q stOk [] := by
  intro u
  have hholds : (begun (s.at t) op q).nat Ob.Poss.CAPTAIN ≠ c := by
    rw [begun_nat_captain h, nat_captain_of_isCaptain hcaptain]
    exact hne.symm
  have hcount : (begun (s.at t) op q).get Ob.Poss.POSSESSION_CHANGES = s.get Ob.Poss.POSSESSION_CHANGES := (begun_get h.sess_lt (by decide)).trans (State.at_get ..)
  obtain ⟨hset, hchanges, hclaim, hkept⟩ := possessionTo_spec hholds hc cause
  generalize possessionTo (begun (s.at t) op q) c cause = w at *
  have hreplies := hkept.repliesAtOnce (h.repliesAtOnce op) (by decide +kernel)
  have heq : u = _ := linliRun_served h hop hcommit hserve hreplies
  rw [heq]
  exact ⟨⟨hset, hchanges.trans (by rw [hcount]), hkept.bytesKept_begun⟩, hclaim, replied_answered _ _⟩

/-- A request that is turned away with its sender's lease renewed and nothing else done. -/
theorem turnedAway_spec (h : NewRequest (s.at t) q) (hop : op ≠ 1) (hcommit : op ≠ 0x12) {status : Nat}
    (hserve : serve (begun (s.at t) op q) op q = (begun (s.at t) op q, status, [])) :
    let u := linliRun (s.at t) op q
    u.get Ob.Poss.CAPTAIN = s.get Ob.Poss.CAPTAIN ∧ Replied u op q status [] ∧ OnlySessions s u := by
  intro u
  have heq : u = _ := linliRun_served h hop hcommit hserve (h.repliesAtOnce op)
  rw [heq]
  exact ⟨(begun_get (op := op) h.sess_lt (by decide)).trans (State.at_get ..), replied_answered _ _, (onlySessions_begun h.sess_lt).answered _ _ _ _⟩

/-! ### CLOSE -/

theorem state_not_mem_closing : ∀ k < 16, ∀ j < 16, j ≠ k → Ob.Sess.STATE.key j ∉ closingKeys k ++ possessionKeys := by decide +kernel

/-- What CLOSE leaves and answers (R144). -/
theorem hostClose_spec (h : NewRequest (s.at t) q) : Answers (.hostClose q t) s fun u =>
    Machine.sessOpen u q.sess = false ∧ u.get Ob.Sess.SUBSCRIPTIONS q.sess = 0 ∧ u.get Ob.Poss.SESSION_COUNT = s.get Ob.Poss.SESSION_COUNT - 1 ∧ Replied u 0x02 q stOk [] ∧
      u.get Ob.Poss.CAPTAIN = (if isCaptain s q.sess then 0xFF else s.get Ob.Poss.CAPTAIN) ∧
      ∀ j, j < 16 → j ≠ q.sess → Machine.sessOpen u j = Machine.sessOpen s j := by
  have hx := h.sess_lt
  have hget {o : Obj} (ho : o.key / 256 < 0x1110 ∨ 0x1120 ≤ o.key / 256) : (begun (s.at t) 0x02 q).get o = s.get o := (begun_get hx ho).trans (State.at_get ..)
  obtain ⟨hstate, hsubs, hcount, hcaptain, -, hkept⟩ := closeSession_spec ((begun_sessOpen 0x02 q.sess).trans h.sessOpen) 3
  have hreplies := hkept.repliesAtOnce (h.repliesAtOnce 0x02) (pairEnable_not_mem q.sess hx)
  have hexec : exec (.hostClose q t) s = .next (linliRun (s.at t) 0x02 q) := whileOn_runs (unitRuns_of_new h)
  have hserve : serve (begun (s.at t) 0x02 q) 0x02 q = (closeSession (begun (s.at t) 0x02 q) q.sess 3, stOk, []) := rfl
  generalize closeSession (begun (s.at t) 0x02 q) q.sess 3 = w at *
  rw [answers_iff hexec, linliRun_served h (by decide) (by decide) hserve hreplies]
  refine ⟨?_, hsubs, hcount.trans (by rw [hget (by decide)]), replied_answered _ _, hcaptain.trans (by rw [begun_isCaptain hx, hget (by decide)]), fun j hj hne => ?_⟩
  · have hclosed : Machine.sessOpen w q.sess = false := by simp [Machine.sessOpen, hstate]
    exact hclosed
  · have hstands : Machine.sessOpen w j = Machine.sessOpen (begun (s.at t) 0x02 q) j := by
      rw [Machine.sessOpen, Machine.sessOpen, hkept.get (state_not_mem_closing q.sess hx j hj hne)]
    exact hstands.trans (begun_sessOpen _ _)

end Sys2Proof.Machine

open Sys2Proof Sys2Proof.Machine

/-- Settles O6: a CLAIM in range comes down to its session's claim, written where the session is not the captain. -/
theorem claimsAreSetWithdrawnAndWait : Obligations.ClaimsAreSetWithdrawnAndWait := by
  unfold Obligations.ClaimsAreSetWithdrawnAndWait
  intro s q t h hlen n answered
  refine ⟨fun hother hmin hmax => ?_, fun hother hzero => ?_, fun hown hmax => ?_⟩
  · obtain ⟨u, hu, hset, -, hnow, hreply, hcaptain, honly, hothers⟩ := hostClaim_spec h hlen hmax
    obtain ⟨hprio, htime⟩ := hset hother
    rw [if_neg (by omega)] at htime
    exact ⟨u, hu, hprio, htime, hnow, hreply, hcaptain, honly, hothers⟩
  · have hzero : leAt q.body 0 1 = 0 := hzero
    obtain ⟨u, hu, hset, -, -, hreply, hcaptain, honly, hothers⟩ := hostClaim_spec h hlen (by omega)
    obtain ⟨hprio, htime⟩ := hset hother
    rw [if_pos hzero] at htime
    exact ⟨u, hu, hprio.trans (congrArg _ hzero), htime, hreply, hcaptain, honly, hothers⟩
  · obtain ⟨u, hu, -, hstands, -, hreply, hcaptain, honly, hothers⟩ := hostClaim_spec h hlen hmax
    obtain ⟨hprio, htime⟩ := hstands hown
    exact ⟨u, hu, hprio, htime, hreply, hcaptain, honly, hothers⟩

/-- Settles O35: each request by the state it is served from; possession moves by `possessionTo_spec`, a session ends by `closeSession_spec`. -/
theorem sessionsClaimPassReleaseAndClose : Obligations.SessionsClaimPassReleaseAndClose := by
  unfold Obligations.SessionsClaimPassReleaseAndClose
  intro s q t h n moved
  have hx := h.sess_lt
  have hrun := unitRuns_of_new h
  have hpass : exec (.hostPass q t) s = .next (linliRun (s.at t) 0x21 q) := whileOn_runs hrun
  have hrelease : exec (.hostRelease q t) s = .next (linliRun (s.at t) 0x22 q) := whileOn_runs hrun
  refine ⟨fun hlen hmax hother => ?_, fun hlen hcaptain hopen hne => ?_, fun hlen hother => ?_, fun hcaptain => ?_, fun hother => ?_, hostClose_spec h⟩
  · obtain ⟨u, hu, hset, -, -, hreply, hcaptain, honly, -⟩ := hostClaim_spec h hlen hmax
    obtain ⟨hprio, htime⟩ := hset hother
    exact ⟨u, hu, hprio, htime.trans (Nat.cast_ite ..).symm, hcaptain, hreply, honly⟩
  · have hlt := sessOpen_lt hopen
    have hserve : serve (begun (s.at t) 0x21 q) 0x21 q = _ := passRequest_of_captain hlen (begun_isStandby h _) ((begun_isCaptain hx _ _).trans hcaptain)
      ((begun_sessOpen _ _).trans hopen)
    obtain ⟨hmoved, hclaim, hreply⟩ := moved_spec h (by decide) (by decide) hcaptain hne (.inl hlt) hserve
    rw [answers_iff hpass]
    exact ⟨hmoved, hclaim hlt, hreply⟩
  · have hserve : serve (begun (s.at t) 0x21 q) 0x21 q = _ := passRequest_of_other hlen (begun_isStandby h _) ((begun_isCaptain hx _ _).trans hother)
    rw [answers_iff hpass]
    exact turnedAway_spec h (by decide) (by decide) hserve
  · have hserve : serve (begun (s.at t) 0x22 q) 0x22 q = (possessionTo (begun (s.at t) 0x22 q) 0xFF 2, stOk, []) :=
      if_neg (by simp [begun_isCaptain hx, hcaptain])
    obtain ⟨hmoved, -, hreply⟩ := moved_spec h (by decide) (by decide) hcaptain (by omega) (.inr rfl) hserve
    rw [answers_iff hrelease]
    exact ⟨hmoved, hreply⟩
  · have hserve : serve (begun (s.at t) 0x22 q) 0x22 q = (begun (s.at t) 0x22 q, stNotCaptain, []) := if_pos ((begun_isCaptain hx _ _).trans hother)
    rw [answers_iff hrelease]
    exact turnedAway_spec h (by decide) (by decide) hserve
end

