-- ==== Sys2Proof/Proofs/SessionOpening.lean ====
section
/-! OPEN and SUBSCRIBE (R140, R142), and O34. -/

namespace Sys2Proof.Machine

variable {s u : State} {q : Req} {op t k : Nat}

/-! ### Keys of the sessions' objects -/

/-- The object stands once in the block that every session has (0x1110 to 0x111F). -/
@[reducible] def Obj.PerSession (o : Obj) : Prop := o.base = 0x1110 ∧ o.st1 = 1 ∧ o.sub < 256

theorem Obj.key_of_perSession {o : Obj} (h : o.PerSession) (k : Nat) : o.key k = (0x1110 + k) * 256 + o.sub := by
  obtain ⟨hbase, hst, -⟩ := h
  simp [Obj.key, hbase, hst]

theorem perSession_key_eq {o o' : Obj} (h : o.PerSession) (h' : o'.PerSession) (k j : Nat) : o.key k = o'.key j ↔ k = j ∧ o.sub = o'.sub := by
  have ⟨_, _, hsub⟩ := h
  have ⟨_, _, hsub'⟩ := h'
  rw [Obj.key_of_perSession h, Obj.key_of_perSession h']
  omega

theorem perSession_key_ne {o : Obj} (h : o.PerSession) (k : Nat) {n : Nat} (hn : n < 0x1110 * 256) : o.key k ≠ n := by
  rw [Obj.key_of_perSession h]
  omega

theorem perSession_div {o : Obj} (h : o.PerSession) (hk : k < 16) : o.key k / 65536 = 0x11 := by
  have ⟨_, _, hsub⟩ := h
  rw [Obj.key_of_perSession h]
  omega

/-! ### OPEN -/

/-- The objects of a new session (Table 06-10) and SESSION_COUNT. -/
def sessionListed (s : State) (q : Req) (k lease : Nat) (name : List Byte) : State :=
  let s := (((s.set Ob.Sess.STATE 1 k).set Ob.Sess.TRANSPORT q.via k).set Ob.Sess.PEER q.peer k).setBytes Ob.Sess.NAME name k
  let s := ((s.set Ob.Sess.LEASE lease k).set Ob.Sess.LAST_RENEWED s.now k).set Ob.Sess.NOTIFY_SEQ 0 k
  let s := ((s.set Ob.Sess.CLAIM_PRIORITY 0 k).set Ob.Sess.CLAIM_TIME 0 k).set Ob.Sess.SUBSCRIPTIONS 0 k
  s.set Ob.Poss.SESSION_COUNT (s.get Ob.Poss.SESSION_COUNT + 1)

theorem get_setBytes {o o' : Obj} {b : List Byte} {i j k i' j' k' : Nat} : (s.setBytes o b i j k).get o' i' j' k' =
    if o'.key i' j' k' = o.key i j k then o'.dflt else s.get o' i' j' k' := by
  by_cases h : o'.key i' j' k' = o.key i j k <;> simp [State.get, State.numAt, State.setBytes, h]

theorem sessionListed_spec (s : State) (q : Req) (k lease : Nat) (name : List Byte) :
    let u := sessionListed s q k lease name
    u.get Ob.Sess.STATE k = 1 ∧ u.get Ob.Sess.LEASE k = lease ∧ u.get Ob.Sess.TRANSPORT k = q.via ∧ u.get Ob.Sess.PEER k = q.peer ∧
      u.get Ob.Sess.LAST_RENEWED k = s.now ∧ u.get Ob.Sess.CLAIM_PRIORITY k = 0 ∧ u.get Ob.Poss.SESSION_COUNT = s.get Ob.Poss.SESSION_COUNT + 1 ∧
      ∀ j, j ≠ k → u.get Ob.Sess.STATE j = s.get Ob.Sess.STATE j := by
  have hcount {o : Obj} (ho : o.PerSession) (j : Nat) : o.key j ≠ Ob.Poss.SESSION_COUNT.key := perSession_key_ne ho j (by decide)
  refine ⟨?_, ?_, ?_, ?_, ?_, ?_, ?_, fun j hj => ?_⟩ <;>
    simp +decide [sessionListed, State.get_set, get_setBytes, perSession_key_eq, Ne.symm (hcount _ _), *]

theorem bytes_set_ne {o o' : Obj} {v : Int} {i j k i' j' k' : Nat} (h : o'.key i' j' k' ≠ o.key i j k) : (s.set o v i j k).bytes o' i' j' k' = s.bytes o' i' j' k' := by
  simp only [State.bytes, State.set_od_ne _ _ _ _ _ _ _ h]

theorem sessionListed_name (s : State) (q : Req) (k lease : Nat) (name : List Byte) : (sessionListed s q k lease name).bytes Ob.Sess.NAME k = name := by
  have hcount : Ob.Sess.NAME.key k ≠ Ob.Poss.SESSION_COUNT.key := perSession_key_ne (by decide) k (by decide)
  have hother {o : Obj} (ho : o.PerSession) (hsub : Ob.Sess.NAME.sub ≠ o.sub) : Ob.Sess.NAME.key k ≠ o.key k := fun h =>
    hsub ((perSession_key_eq (by decide) ho k k).1 h).2
  unfold sessionListed
  dsimp only
  rw [bytes_set_ne hcount, bytes_set_ne (hother (by decide) (by decide)), bytes_set_ne (hother (by decide) (by decide)), bytes_set_ne (hother (by decide) (by decide)),
    bytes_set_ne (hother (by decide) (by decide)), bytes_set_ne (hother (by decide) (by decide)), bytes_set_ne (hother (by decide) (by decide)),
    State.bytes_setBytes_self]

theorem OnlySessions.setBytes {w : State} (h : OnlySessions w u) {o : Obj} {i j k : Nat} (ho : o.key i j k / 65536 = 0x11) (b : List Byte) :
    OnlySessions w (u.setBytes o b i j k) := by
  obtain ⟨hod, hstaged, hcom, haxis, hbytes⟩ := h
  refine ⟨fun n hn => ?_, hstaged, hcom, haxis, hbytes⟩
  rw [State.setBytes, State.putVal_od, SMap.get?_put, if_neg fun he : n = _ => hn (he ▸ ho), hod n hn]

theorem OnlySessions.listed {w : State} (h : OnlySessions w u) (hk : k < 16) (q : Req) (lease : Nat) (name : List Byte) :
    OnlySessions w (sessionListed u q k lease name) := by
  have hdiv {o : Obj} (ho : o.PerSession) : o.key k / 65536 = 0x11 := perSession_div ho hk
  have hset {w' : State} (h' : OnlySessions w w') (o : Obj) (ho : o.PerSession) (x : Int) : OnlySessions w (w'.set o x k) := h'.set (hdiv ho) x
  have hnamed := (hset (hset (hset h Ob.Sess.STATE (by decide) 1) Ob.Sess.TRANSPORT (by decide) q.via) Ob.Sess.PEER (by decide) q.peer).setBytes
    (o := Ob.Sess.NAME) (hdiv (by decide)) name
  have hleased := hset (hset (hset hnamed Ob.Sess.LEASE (by decide) lease) Ob.Sess.LAST_RENEWED (by decide) u.now) Ob.Sess.NOTIFY_SEQ (by decide) 0
  have hclaim := hset (hset (hset hleased Ob.Sess.CLAIM_PRIORITY (by decide) 0) Ob.Sess.CLAIM_TIME (by decide) 0) Ob.Sess.SUBSCRIPTIONS (by decide) 0
  exact OnlySessions.set hclaim (by decide) _

/-- A session as OPEN makes it (R142): a random token, and the reply's body, which a repetition gets again. -/
def sessionMade (s : State) (q : Req) (k lease : Nat) (name : List Byte) : SessRt :=
  let token := (s.freeDraw 32).1
  let u := sessionListed (s.freeDraw 32).2 q k lease name
  let body := leBytes 1 k ++ leBytes 1 (u.nat Ob.Poss.CAPTAIN) ++ leBytes 2 lease ++ leBytes 4 token ++ leBytes 4 (u.nat Ob.Sb.SNAPSHOT_ID)
  { nonce := leAt q.body 0 4, token := token, own := q.own || decide (2 ≤ q.via), opened := body, openedAt := u.now }

theorem newSession_eq (s : State) (q : Req) (k lease : Nat) (name : List Byte) :
    newSession s q k lease name = (sessionListed (s.freeDraw 32).2 q k lease name).setSess k (sessionMade s q k lease name) := by
  unfold newSession sessionMade
  generalize s.freeDraw 32 = drawn
  obtain ⟨token, d⟩ := drawn
  rfl

/-- The lease that an OPEN is granted (R142). -/
def leaseGranted (s : State) (q : Req) : Nat := if leAt q.body 4 2 = 0 then s.nat Ob.Poss.LEASE_DEFAULT else leAt q.body 4 2

/-- An OPEN that makes a session: every field within its length, and no session that it repeats. -/
structure OpensNew (s : State) (q : Req) : Prop where
  name : leAt q.body 6 1 ≤ 32
  length : 8 + leAt q.body 6 1 ≤ q.body.length
  unrepeated : openRepeat s q = none

theorem openRequest_full (h : OpensNew s q) (hfull : ∀ j, j < 16 → sessOpen s j = true) : openRequest s q = replyPlain s 1 q stSessionLimit [] := by
  obtain ⟨hname, hlen, hnew⟩ := h
  have hfree : ((List.range 16).find? fun k => !sessOpen s k) = none := List.find?_eq_none.2 fun j hj => by simp [hfull j (List.mem_range.1 hj)]
  unfold openRequest
  dsimp only
  rw [if_neg (by omega), hnew]
  dsimp only
  rw [hfree]

theorem openRequest_free (h : OpensNew s q) (hfree : ((List.range 16).find? fun k => !sessOpen s k) = some k)
    (hutf : utf8Ok (leAt q.body 6 1) (slice q.body 8 (leAt q.body 6 1)) = true) (hlease : leAt q.body 4 2 = 0 ∨ (100 ≤ leAt q.body 4 2 ∧ leAt q.body 4 2 ≤ 10000)) :
    let u := newSession s q k (leaseGranted s q) (slice q.body 8 (leAt q.body 6 1))
    openRequest s q = replyTo u k q.toPath (linliBytes 1 q.sess q.seqNo stOk q.token (u.sess k).opened) := by
  obtain ⟨hname, hlen, hnew⟩ := h
  unfold openRequest
  dsimp only
  rw [if_neg (by omega), hnew]
  dsimp only
  rw [hfree]
  dsimp only
  rw [if_neg (by simp [hutf]; omega)]
  rfl

theorem sess_setSess (k j : Nat) (x : SessRt) : (s.setSess k x).sess j = if j = k then x else s.sess j := by simp [State.sess, State.setSess]

theorem exec_hostOpen (hlistens : listens (s.at t) q.toPath = true) : exec (.hostOpen q t) s = .next (openRequest (s.at t) q) := by
  refine (whileOn_runs (unitRuns_of_listens hlistens)).trans ?_
  rw [linliRun, if_neg (by simp [hlistens]), if_pos rfl]

/-- Without a partner a reply over Ethernet leaves at once (R132, R150). -/
theorem replyTo_of_unpaired (hpair : s.flag Ob.PairC.PAIR_ENABLE = false) {p : Path} (hvia : p.via < 2) (k : Nat) (b : List Byte) :
    replyTo s k p b = s.emit (.linli p b) := by
  rw [replyTo, waitsForStandby_of_unpaired hpair, if_neg Bool.false_ne_true, sendReply, if_pos hvia]

theorem OnlySessions.flag {w : State} (h : OnlySessions w u) {o : Obj} {i j k : Nat} (ho : o.key i j k / 65536 ≠ 0x11) : u.flag o i j k = w.flag o i j k := by
  obtain ⟨hod, -⟩ := h
  exact flag_congr (hod _ ho)

theorem OnlySessions.drawn {w : State} (h : OnlySessions w u) (n : Nat) : OnlySessions w (u.freeDraw n).2 := by
  obtain ⟨hod, hstaged, hcom, haxis, hbytes⟩ := h
  exact ⟨hod, hstaged, hcom, haxis, hbytes⟩

theorem OnlySessions.sess {w : State} (h : OnlySessions w u) (k : Nat) (x : SessRt) : OnlySessions w (u.setSess k x) := by
  obtain ⟨hod, hstaged, hcom, haxis, hbytes⟩ := h
  exact ⟨hod, hstaged, hcom, haxis, hbytes⟩

/-- `u` is `s` with the session `k` that `q` opens (R142). -/
structure OpenedFrom (s u : State) (q : Req) (k lease : Nat) (name : List Byte) : Prop where
  state : u.get Ob.Sess.STATE k = 1
  lease : u.get Ob.Sess.LEASE k = lease
  transport : u.get Ob.Sess.TRANSPORT k = q.via
  peer : u.get Ob.Sess.PEER k = q.peer
  name : u.bytes Ob.Sess.NAME k = name
  renewed : u.get Ob.Sess.LAST_RENEWED k = s.now
  claim : u.get Ob.Sess.CLAIM_PRIORITY k = 0
  count : u.get Ob.Poss.SESSION_COUNT = s.get Ob.Poss.SESSION_COUNT + 1
  others : ∀ j, j ≠ k → u.get Ob.Sess.STATE j = s.get Ob.Sess.STATE j ∧ u.sess j = s.sess j
  only : ∀ w, OnlySessions w s → OnlySessions w u

theorem openedFrom_setSess (s : State) (q : Req) (hk : k < 16) (lease : Nat) (name : List Byte) (x : SessRt) :
    OpenedFrom s ((sessionListed s q k lease name).setSess k x) q k lease name := by
  have honly (w : State) (hw : OnlySessions w s) := (hw.listed hk q lease name).sess k x
  have hname := sessionListed_name s q k lease name
  have hhost : (sessionListed s q k lease name).host = s.host := by simp [sessionListed]
  obtain ⟨hstate, hgranted, htransport, hpeer, hrenewed, hclaim, hcount, hothers⟩ := sessionListed_spec s q k lease name
  generalize sessionListed s q k lease name = l at *
  refine ⟨hstate, hgranted, htransport, hpeer, hname, hrenewed, hclaim, hcount, fun j hj => ⟨hothers j hj, ?_⟩, honly⟩
  rw [sess_setSess, if_neg hj, State.sess, hhost, State.sess]

theorem OpenedFrom.of_drawn {n lease : Nat} {name : List Byte} (h : OpenedFrom (s.freeDraw n).2 u q k lease name) : OpenedFrom s u q k lease name := by
  obtain ⟨hstate, hgranted, htransport, hpeer, hname, hrenewed, hclaim, hcount, hothers, honly⟩ := h
  exact ⟨hstate, hgranted, htransport, hpeer, hname, hrenewed, hclaim, hcount, hothers, fun w hw => honly w (hw.drawn n)⟩

theorem openedFrom_newSession (s : State) (q : Req) (hk : k < 16) (lease : Nat) (name : List Byte) : OpenedFrom s (newSession s q k lease name) q k lease name := by
  rw [newSession_eq]
  exact (openedFrom_setSess _ q hk lease name _).of_drawn

/-- What an OPEN that finds a free session leaves and answers (R142). -/
theorem hostOpen_free (hlistens : listens (s.at t) q.toPath = true) (hpair : s.flag Ob.PairC.PAIR_ENABLE = false) (hvia : q.via < 2) (hnew : OpensNew (s.at t) q)
    (hfree : ((List.range 16).find? fun k => !sessOpen (s.at t) k) = some k) (hutf : utf8Ok (leAt q.body 6 1) (slice q.body 8 (leAt q.body 6 1)) = true)
    (hlease : leAt q.body 4 2 = 0 ∨ (100 ≤ leAt q.body 4 2 ∧ leAt q.body 4 2 ≤ 10000)) : Answers (.hostOpen q t) s fun u =>
      OpenedFrom (s.at t) u q k (leaseGranted (s.at t) q) (slice q.body 8 (leAt q.body 6 1)) ∧ Replied u 1 q stOk (u.sess k).opened := by
  have hk : k < 16 := List.mem_range.1 (List.mem_of_find?_eq_some hfree)
  have hopens := openRequest_free hnew hfree hutf hlease
  have hopened := openedFrom_newSession (s.at t) q hk (leaseGranted (s.at t) q) (slice q.body 8 (leAt q.body 6 1))
  dsimp only at hopens
  rw [answers_iff (exec_hostOpen hlistens), hopens]
  generalize newSession (s.at t) q k (leaseGranted (s.at t) q) (slice q.body 8 (leAt q.body 6 1)) = l at *
  have ⟨hstate, hgranted, htransport, hpeer, hname, hrenewed, hclaim, hcount, hothers, honly⟩ := hopened
  have hunpaired : l.flag Ob.PairC.PAIR_ENABLE = false := ((honly s (onlySessions_at s t)).flag (by decide)).trans hpair
  rw [replyTo_of_unpaired hunpaired hvia]
  exact ⟨⟨hstate, hgranted, htransport, hpeer, hname, hrenewed, hclaim, hcount, hothers, honly⟩, rfl⟩

/-- With every session in use an OPEN is refused (R142). -/
theorem hostOpen_full (hlistens : listens (s.at t) q.toPath = true) (hvia : q.via < 2) (hnew : OpensNew (s.at t) q) (hfull : ∀ j, j < 16 → sessOpen s j = true) :
    exec (.hostOpen q t) s = .next ((s.at t).emit (.linli q.toPath (linliBytes 1 q.sess q.seqNo stSessionLimit q.token []))) := by
  rw [exec_hostOpen hlistens, openRequest_full hnew fun j hj => (at_sessOpen t j).trans (hfull j hj), replyPlain, sendReply, if_pos hvia]

/-! ### SUBSCRIBE -/

/-- A session with a subscription in the place of an earlier one of its id (R140). -/
def withSub (x : SubRt) (y : SessRt) : SessRt :=
  let others := (withoutSub x.id y).subs
  { y with subs := others.filter (fun z => decide (z.id < x.id)) ++ x :: others.filter (fun z => decide (x.id < z.id)) }

theorem withSub_of_id (x : SubRt) (y : SessRt) : (withSub x y).subs.filter (fun z => decide (z.id = x.id)) = [x] := by
  have hnone {l : List SubRt} (hl : ∀ z ∈ l, z.id ≠ x.id) : l.filter (fun z => decide (z.id = x.id)) = [] :=
    List.filter_eq_nil_iff.2 fun z hz => by simpa using hl z hz
  simp only [withSub, List.filter_append, List.filter_cons, decide_true, if_true]
  rw [hnone fun z hz => ?low, hnone fun z hz => ?high, List.nil_append]
  case low => exact Nat.ne_of_lt (by simpa using List.of_mem_filter hz)
  case high => exact Nat.ne_of_gt (by simpa using List.of_mem_filter hz)

theorem mem_withSub_of_ne (x : SubRt) (y : SessRt) {z : SubRt} (hz : z.id ≠ x.id) : z ∈ (withSub x y).subs ↔ z ∈ y.subs := by
  have hne : z ≠ x := fun h => hz (congrArg SubRt.id h)
  have hsides : z.id < x.id ∨ x.id < z.id := Nat.lt_or_gt_of_ne hz
  simp only [withSub, withoutSub, List.mem_append, List.mem_cons, List.mem_filter, decide_eq_true_eq, hne, false_or, ← and_or_left]
  exact ⟨fun ⟨⟨h, _⟩, _⟩ => h, fun h => ⟨⟨h, hz⟩, hsides⟩⟩

/-- The session `k` with the subscription `x` (R140). -/
def subscribed (s : State) (k : Nat) (x : SubRt) : State := (s.modSess k (withSub x)).set Ob.Sess.SUBSCRIPTIONS (withSub x (s.sess k)).subs.length k

theorem subscribed_subs (k : Nat) (x : SubRt) : ((subscribed s k x).sess k).subs = (withSub x (s.sess k)).subs := congrArg SessRt.subs (State.sess_modSess k (withSub x))

/-- What a SUBSCRIBE asks for: one id, its period and its objects (R140). -/
def subscriptionOf (q : Req) (l : List ReadName) : SubRt := { id := leAt q.body 0 1, period := leAt q.body 2 2, names := l.map fun e => (e.idx, e.sub) }

/-- The least time between two notifications of a session (R140). -/
def leastPeriod (s : State) (k : Nat) : Nat := if s.nat Ob.Sess.TRANSPORT k < 2 then 1000000 else 125000

/-- A SUBSCRIBE to the objects `l`, within every bound of R140. -/
structure SubscribesTo (s : State) (q : Req) (l : List ReadName) : Prop where
  length : 4 ≤ q.body.length
  id : leAt q.body 0 1 ≤ 3
  some : 1 ≤ leAt q.body 1 1
  most : leAt q.body 1 1 ≤ 64
  names : readNames (leAt q.body 1 1) (q.body.drop 4) = .some l
  plain : ∀ e ∈ l, e.kind = 0 ∧ ∀ o, lookup e.idx e.sub = .inl o → o.ty ≠ .domain
  period : leastPeriod s q.sess ≤ leAt q.body 2 2 * s.tcyc s.localRing
  size : 24 + (l.map notifySize).sum ≤ 1472

theorem subscribeRequest_of_names {l : List ReadName} (h : SubscribesTo s q l) :
    subscribeRequest s q = (subscribed s q.sess (subscriptionOf q l), stOk, []) := by
  obtain ⟨hlen, hid, hsome, hmost, hnames, hplain, hperiod, hsize⟩ := h
  unfold leastPeriod at hperiod
  unfold subscribeRequest
  dsimp only
  rw [if_neg (by omega), if_neg (by omega), if_neg (by omega), hnames]
  dsimp only
  split
  case isTrue hany =>
    obtain ⟨e, he, hbad⟩ := List.any_eq_true.1 hany
    obtain ⟨hkind, hty⟩ := hplain e he
    cases hlook : lookup e.idx e.sub with
    | inl o => simp [hkind, hlook, hty o hlook] at hbad
    | inr x => simp [hkind, hlook] at hbad
  case isFalse =>
    rw [if_neg (by omega), if_neg (by omega)]
    rfl

/-- The cycle of the ring that a session's periods count is no object of a session. -/
theorem begun_tcyc_localRing (hx : q.sess < 16) (op : Nat) :
    (begun (s.at t) op q).tcyc (begun (s.at t) op q).localRing = s.tcyc s.localRing := by
  have hget {o : Obj} (ho : 0x1120 ≤ o.base) (i j k : Nat) : (begun (s.at t) op q).get o i j k = s.get o i j k :=
    (begun_get hx (.inr ((Nat.le_div_iff_mul_le (by omega)).2 (le_trans (Nat.mul_le_mul_right 256 ho) (o.base_le_key i j k))))).trans (State.at_get ..)
  have hring := hget (o := Ob.Cyc.LOCAL_RING) (by decide)
  have hplay (r : Nat) : (begun (s.at t) op q).inPlay r = s.inPlay r := congrArg (fun x : Int => decide (x = 5)) (hget (o := Ob.Ring.STATE) (by decide) r 0 0)
  have hactive := hget (o := Ob.Cyc.ACTIVE_SCHEDULE) (by decide)
  have hstart := hget (o := Ob.Cyc.START_SCHEDULE) (by decide)
  have hexp := hget (o := Ob.Sched.CYCLE_EXP) (by decide)
  simp only [State.tcyc, State.tcycSched, State.localRing, State.sched, State.nat, hring, hplay, hactive, hstart, hexp]
  rfl

theorem begun_leastPeriod (op : Nat) : leastPeriod (begun (s.at t) op q) q.sess = leastPeriod s q.sess := by
  have htransport : (begun (s.at t) op q).get Ob.Sess.TRANSPORT q.sess = s.get Ob.Sess.TRANSPORT q.sess := by
    have hne : Ob.Sess.TRANSPORT.key q.sess ≠ Ob.Sess.LAST_RENEWED.key q.sess := fun h => absurd ((perSession_key_eq (by decide) (by decide) _ _).1 h).2 (by decide)
    exact (State.get_set_ne _ _ _ _ _ _ _ _ _ _ hne).trans (State.at_get ..)
  rw [leastPeriod, State.nat, htransport, leastPeriod, State.nat]

/-- What a SUBSCRIBE in range leaves and answers (R140). -/
theorem hostSubscribe_spec {l : List ReadName} (h : NewRequest (s.at t) q) (hsub : SubscribesTo s q l) : Answers (.hostSubscribe q t) s fun u =>
    (u.sess q.sess).subs = (withSub (subscriptionOf q l) (s.sess q.sess)).subs ∧ u.get Ob.Sess.SUBSCRIPTIONS q.sess = (u.sess q.sess).subs.length ∧
      Replied u 0x30 q stOk [] ∧ OnlySessions s u := by
  obtain ⟨hlen, hid, hsome, hmost, hnames, hplain, hperiod, hsize⟩ := hsub
  have hx := h.sess_lt
  have hbegun : SubscribesTo (begun (s.at t) 0x30 q) q l :=
    ⟨hlen, hid, hsome, hmost, hnames, hplain, by rwa [begun_leastPeriod, begun_tcyc_localRing hx], hsize⟩
  have hserve : serve (begun (s.at t) 0x30 q) 0x30 q = _ := subscribeRequest_of_names hbegun
  have ⟨hpair, hreset, hstandby⟩ := h.repliesAtOnce 0x30
  have hsubs : ((begun (s.at t) 0x30 q).sess q.sess).subs = (s.sess q.sess).subs := begun_subs.trans (by rw [State.sess, State.at_host]; rfl)
  have hwith (x : SubRt) : (withSub x ((begun (s.at t) 0x30 q).sess q.sess)).subs = (withSub x (s.sess q.sess)).subs := by simp only [withSub, withoutSub, hsubs]
  have honly := onlySessions_begun (s := s) (t := t) (op := 0x30) hx
  have hexec : exec (.hostSubscribe q t) s = .next (linliRun (s.at t) 0x30 q) := whileOn_runs (unitRuns_of_new h)
  have hreplies : RepliesAtOnce (subscribed (begun (s.at t) 0x30 q) q.sess (subscriptionOf q l)) :=
    ⟨(flag_congr (State.set_od_ne _ _ _ _ _ _ _ (by simp only [Obj.key, Ob.Sess.SUBSCRIPTIONS, Ob.PairC.PAIR_ENABLE]; omega))).trans hpair, hreset, hstandby⟩
  rw [answers_iff hexec, linliRun_served h (by decide) (by decide) hserve hreplies, answered_subs, subscribed_subs, hwith]
  refine ⟨rfl, ?_, replied_answered _ _, ((honly.modSess _ _).set (subscriptions_key_div hx) _).answered _ _ _ _⟩
  exact (State.get_set_self ..).trans (by rw [hwith])

end Sys2Proof.Machine

open Sys2Proof Sys2Proof.Machine

/-- Settles O34: OPEN by the session it makes, SUBSCRIBE by the subscriptions it leaves. -/
theorem sessionsOpenAndSubscribe : Obligations.SessionsOpenAndSubscribe := by
  unfold Obligations.SessionsOpenAndSubscribe
  constructor
  · intro s q t k a n lease hlistens hpair _ hvia hname hlen hnew
    refine ⟨fun hfree hutf hlease => ?_, fun hfull => hostOpen_full hlistens hvia ⟨hname, hlen, hnew⟩ hfull⟩
    obtain ⟨u, hu, hopened, hreply⟩ := hostOpen_free hlistens hpair hvia ⟨hname, hlen, hnew⟩ hfree hutf hlease
    obtain ⟨hstate, hgranted, htransport, hpeer, hname, hrenewed, hclaim, hcount, hothers, honly⟩ := hopened
    have hgrant : leaseGranted a q = if lease = 0 then s.nat Ob.Poss.LEASE_DEFAULT else lease := by rw [leaseGranted, State.at_nat]
    refine ⟨u, hu, hstate, hgranted.trans (congrArg _ hgrant), htransport, hpeer, hname, hrenewed, hclaim, hcount.trans (congrArg (· + 1) (State.at_get ..)),
      fun j _ hj => ?_, hreply, honly s (onlySessions_at s t)⟩
    obtain ⟨hstands, hsess⟩ := hothers j hj
    exact ⟨congrArg (fun y : Int => decide (j < 16) && decide (y = 1)) (hstands.trans (State.at_get ..)), hsess.trans (by rw [State.sess, State.at_host, State.sess])⟩
  · intro s q t l h id c period hlen hid hsome hmost hnames hplain hperiod hsize
    obtain ⟨u, hu, hsubs, hcount, hreply, honly⟩ := hostSubscribe_spec h ⟨hlen, hid, hsome, hmost, hnames, hplain, hperiod, hsize⟩
    refine ⟨u, hu, ?_, fun x hx => ?_, hcount, hreply, honly⟩
    · rw [hsubs]
      exact withSub_of_id (subscriptionOf q l) _
    · rw [hsubs]
      exact mem_withSub_of_ne (subscriptionOf q l) _ hx
end

