-- ==== Sys2Proof/Proofs/LeasesAndElections.lean ====
section
/-! Leases that expire and elections, at a t_D of LOCAL_RING of the active unit (R144, R147). -/

namespace Sys2Proof.Machine

variable {s u v : State} {k t c : Nat}

theorem notActive_of_role (h : s.get Ob.Pair.ROLE = 0) : notActive s = false := by simp [notActive, h]

/-! ### Leases -/

/-- The session's last renewal lies more than its lease back (R144). -/
abbrev leaseOver (s : State) (k : Nat) : Prop := s.nat Ob.Sess.LAST_RENEWED k + s.nat Ob.Sess.LEASE k * 1000000 < s.now

/-- Objects that the end of leases writes. -/
def expiryKeys : List Nat := (List.range 16).flatMap closingKeys ++ possessionKeys

theorem closingKeys_subset_expiryKeys (hk : k < 16) : closingKeys k ++ possessionKeys ⊆ expiryKeys :=
  List.append_subset.2 ⟨fun _ hn => List.mem_append_left _ (List.mem_flatMap.2 ⟨k, List.mem_range.2 hk, hn⟩), List.subset_append_right _ _⟩

theorem leaseKeys_not_mem : ∀ k < 16, Ob.Sess.LAST_RENEWED.key k ∉ expiryKeys ∧ Ob.Sess.LEASE.key k ∉ expiryKeys := by decide +kernel
theorem role_not_mem_expiryKeys : Ob.Pair.ROLE.key ∉ expiryKeys := by decide +kernel

theorem Handing.leaseOver (h : Handing expiryKeys s u) (hk : k < 16) : leaseOver u k ↔ leaseOver s k := by
  obtain ⟨hrenewed, hlease⟩ := leaseKeys_not_mem k hk
  simp only [Machine.leaseOver, State.nat, h.get hrenewed, h.get hlease, h.now]

/-- The lease of session `k` judged. -/
def leaseJudged (k : Nat) (s : State) : State :=
  if notActive s && !(s.sess k).own then s
  else if s.nat Ob.Sess.LAST_RENEWED k + s.nat Ob.Sess.LEASE k * 1000000 < s.now then closeSession s k 4 else s

theorem expireLeases_eq (s : State) : expireLeases s = forList (openSessions s) leaseJudged s := rfl

theorem leaseJudged_of_over (hrole : s.get Ob.Pair.ROLE = 0) (h : leaseOver s k) : leaseJudged k s = closeSession s k 4 := by
  rw [leaseJudged, notActive_of_role hrole, if_neg (by simp), if_pos h]

theorem leaseJudged_of_runs (hrole : s.get Ob.Pair.ROLE = 0) (h : ¬ leaseOver s k) : leaseJudged k s = s := by
  rw [leaseJudged, notActive_of_role hrole, if_neg (by simp), if_neg h]

/-- What judging leases shows, where those of the sessions `l` are judged. -/
structure LeasesJudged (l : List Nat) (s u : State) : Prop where
  kept : Handing expiryKeys s u
  stands : ∀ j, j < 16 → (sessOpen u j = true ↔ sessOpen s j = true ∧ ¬ (j ∈ l ∧ leaseOver s j))
  loose : s.get Ob.Poss.CAPTAIN = 0xFF → u.get Ob.Poss.CAPTAIN = 0xFF
  freed : ∀ j ∈ l, isCaptain s j = true → sessOpen s j = true → leaseOver s j → u.get Ob.Poss.CAPTAIN = 0xFF
  holds : ∀ j ∉ l, isCaptain s j = true → isCaptain u j = true

theorem leasesJudged_one (hrole : s.get Ob.Pair.ROLE = 0) (hopen : sessOpen s k = true) : LeasesJudged [k] s (leaseJudged k s) := by
  have hk := sessOpen_lt hopen
  by_cases hover : leaseOver s k
  · obtain ⟨hstate, -, -, hcaptain, haway, hkept⟩ := closeSession_spec hopen 4
    rw [leaseJudged_of_over hrole hover]
    generalize closeSession s k 4 = w at *
    have hcaptain_of (h : isCaptain s k = true) : w.get Ob.Poss.CAPTAIN = 0xFF := by rw [hcaptain, if_pos h]
    refine ⟨hkept.mono (closingKeys_subset_expiryKeys hk), fun j hj => ?_, fun hloose => ?_, fun j hj hown _ _ => ?_, fun j hj hown => ?_⟩
    · by_cases hjk : j = k
      · rw [hjk]
        simp [Machine.sessOpen, hstate, hover]
      · have hstands : sessOpen w j = sessOpen s j := by
          rw [Machine.sessOpen, Machine.sessOpen, hkept.get (state_not_mem_closing k hk j hj hjk)]
        simp [hstands, hjk]
    · rw [hcaptain, hloose, ite_self]
    · rw [List.mem_singleton.1 hj] at hown
      exact hcaptain_of hown
    · have hother : isCaptain s k = false := by
        by_contra hk'
        exact hj (List.mem_singleton.2 ((nat_captain_of_isCaptain hown).symm.trans (nat_captain_of_isCaptain (by simpa using hk'))))
      rw [isCaptain, hcaptain, haway hother, if_neg (by simp [hother])]
      exact hown
  · rw [leaseJudged_of_runs hrole hover]
    refine ⟨.refl, fun j _ => ?_, id, fun j hj _ _ h => absurd (List.mem_singleton.1 hj ▸ h) hover, fun _ _ h => h⟩
    exact (and_iff_left fun ⟨hj, h⟩ => hover (List.mem_singleton.1 hj ▸ h)).symm

theorem leasesJudged_cons {l : List Nat} (hk : k ∉ l) (hl : ∀ j ∈ l, j < 16) (h : LeasesJudged [k] s u) (g : LeasesJudged l u v) : LeasesJudged (k :: l) s v where
  kept := h.kept.trans g.kept
  stands j hj := by
    rw [g.stands j hj, h.stands j hj, h.kept.leaseOver hj, List.mem_singleton, List.mem_cons]
    tauto
  loose hloose := g.loose (h.loose hloose)
  freed j hj hown hopen hover := by
    rcases List.mem_cons.1 hj with rfl | hjl
    · exact g.loose (h.freed j List.mem_cons_self hown hopen hover)
    · have hne : j ∉ [k] := fun hjk => hk (List.mem_singleton.1 hjk ▸ hjl)
      exact g.freed j hjl (h.holds j hne hown) ((h.stands j (hl j hjl)).2 ⟨hopen, fun ⟨hjk, _⟩ => hne hjk⟩) ((h.kept.leaseOver (hl j hjl)).2 hover)
  holds j hj hown := by
    obtain ⟨hjk, hjl⟩ := not_or.1 (List.mem_cons.not.1 hj)
    exact g.holds j hjl (h.holds j (fun hm => hjk (List.mem_singleton.1 hm)) hown)

/-- The leases of open sessions judged, one after the other. -/
theorem leasesJudged_forList (l : List Nat) (hl : l.Nodup) (hrole : s.get Ob.Pair.ROLE = 0) (hopen : ∀ j ∈ l, sessOpen s j = true) :
    LeasesJudged l s (forList l leaseJudged s) := by
  induction l generalizing s with
  | nil => exact ⟨.refl, fun j _ => (and_iff_left fun ⟨hj, _⟩ => List.not_mem_nil hj).symm, id, fun j hj => absurd hj List.not_mem_nil, fun _ _ h => h⟩
  | cons k l ih =>
    obtain ⟨hk, hnodup⟩ := List.nodup_cons.1 hl
    obtain ⟨hopenk, hopenl⟩ := List.forall_mem_cons.1 hopen
    have hone := leasesJudged_one hrole hopenk
    have hrole' : (leaseJudged k s).get Ob.Pair.ROLE = 0 := (hone.kept.get role_not_mem_expiryKeys).trans hrole
    have hopen' (j : Nat) (hj : j ∈ l) : sessOpen (leaseJudged k s) j = true :=
      (hone.stands j (sessOpen_lt (hopenl j hj))).2 ⟨hopenl j hj, fun ⟨hjk, _⟩ => hk (List.mem_singleton.1 hjk ▸ hj)⟩
    exact leasesJudged_cons hk (fun j hj => sessOpen_lt (hopenl j hj)) hone (ih hnodup hrole' hopen')

theorem mem_openSessions : k ∈ openSessions s ↔ sessOpen s k = true := by
  rw [openSessions, List.mem_filter, List.mem_range]
  exact ⟨fun ⟨_, h⟩ => h, fun h => ⟨sessOpen_lt h, h⟩⟩

theorem nodup_openSessions (s : State) : (openSessions s).Nodup := List.nodup_range.filter _

theorem expireLeases_spec (hrole : s.get Ob.Pair.ROLE = 0) : LeasesJudged (openSessions s) s (expireLeases s) :=
  leasesJudged_forList _ (nodup_openSessions s) hrole fun _ hj => mem_openSessions.1 hj

theorem exec_leaseExpiry (hrun : unitRuns s = true) (hc : cycleOfDeadline (s.tcyc s.localRing) (s.woff s.localRing) t = some c) :
    exec (.leaseExpiry t) s = .next (expireLeases (s.at t)) := by
  refine (whileOn_runs hrun).trans ?_
  simp only [at_localRing, at_tcyc, at_woff, hc]

/-! ### Elections -/

/-- Where an election sets a claim (R147): the greatest priority first, then the earliest time, then the lowest number. -/
def claimRank (s : State) (k : Nat) : ℤ ×ₗ ℤ ×ₗ ℕ := toLex (-s.get Ob.Sess.CLAIM_PRIORITY k, toLex (s.get Ob.Sess.CLAIM_TIME k, k))

theorem claimBefore_iff (s : State) (x y : Nat) : claimBefore s x y = true ↔ claimRank s x < claimRank s y := by
  simp only [claimBefore, claimRank, Prod.Lex.toLex_lt_toLex]
  split
  · simp only [decide_eq_true_eq]
    omega
  · split
    · simp only [decide_eq_true_eq]
      omega
    · simp only [decide_eq_true_eq]
      omega

/-- The claim of an election, of `k` and those of `l` (R147). -/
def claimFirst (s : State) (k : Nat) (l : List Nat) : Nat := l.foldl (fun b x => if claimBefore s x b then x else b) k

theorem claimFirst_spec (s : State) (k : Nat) (l : List Nat) : claimFirst s k l ∈ k :: l ∧ ∀ x ∈ k :: l, claimBefore s x (claimFirst s k l) = false := by
  have hfalse {x y : Nat} : claimBefore s x y = false ↔ claimRank s y ≤ claimRank s x := by rw [← Bool.not_eq_true, claimBefore_iff, not_lt]
  simp only [hfalse]
  induction l generalizing k with
  | nil => simp [claimFirst]
  | cons y l ih =>
    let p := if claimBefore s y k then y else k
    have hpick : p ∈ [k, y] ∧ claimRank s p ≤ claimRank s k ∧ claimRank s p ≤ claimRank s y := by
      by_cases h : claimBefore s y k = true
      · simpa [p, h] using (le_of_lt ((claimBefore_iff s y k).1 h))
      · simpa [p, h] using hfalse.1 (by simpa using h)
    obtain ⟨hp, hk, hy⟩ := hpick
    obtain ⟨hmem, hleast⟩ := ih p
    have hfirst := hleast p List.mem_cons_self
    refine ⟨?_, List.forall_mem_cons.2 ⟨hfirst.trans hk, List.forall_mem_cons.2 ⟨hfirst.trans hy, fun x hx => hleast x (List.mem_cons_of_mem _ hx)⟩⟩⟩
    rcases List.mem_cons.1 hmem with hmem | hmem
    · exact List.mem_append_left l (hmem ▸ hp)
    · exact List.mem_cons_of_mem _ (List.mem_cons_of_mem _ hmem)

theorem at_claimBefore (x y : Nat) : claimBefore (s.at t) x y = claimBefore s x y := by simp [claimBefore]

theorem at_claims : claims (s.at t) = claims s := by simp [claims, openSessions]

theorem claims_lt (h : k ∈ claims s) : k < 16 := sessOpen_lt (mem_openSessions.1 (List.mem_of_mem_filter h))

/-- The instant that an election's hold runs from (R147). -/
def electionFrom (s : State) : Nat := max s.host.looseAt (s.host.firstClaim.getD s.host.looseAt)

/-- With the ball loose for its hold the first claim takes it (R147). -/
theorem electCaptain_spec (hrole : s.get Ob.Pair.ROLE = 0) (hloose : s.get Ob.Poss.CAPTAIN = 0xFF) (hclaims : claims s ≠ [])
    (hheld : electionFrom s + s.nat Ob.Poss.ELECTION_HOLD * 1000000 ≤ s.now) :
    ∃ w ∈ claims s, (electCaptain s).get Ob.Poss.CAPTAIN = w ∧ (∀ x ∈ claims s, claimBefore s x w = false) ∧ (electCaptain s).get Ob.Sess.CLAIM_PRIORITY w = 0 := by
  obtain ⟨k, l, hlist⟩ := List.exists_cons_of_ne_nil hclaims
  have helect : electCaptain s = possessionTo s (claimFirst s k l) 5 := by
    unfold electCaptain
    rw [if_neg (by simp [notActive_of_role hrole, hloose]), hlist]
    exact if_neg (not_lt.2 hheld)
  obtain ⟨hmem, hfirst⟩ := claimFirst_spec s k l
  rw [← hlist] at hmem hfirst
  have hlt := claims_lt hmem
  have hne : s.nat Ob.Poss.CAPTAIN ≠ claimFirst s k l := by
    rw [State.nat, hloose]
    exact fun h : 255 = _ => by omega
  obtain ⟨hcaptain, -, hclaim, -⟩ := possessionTo_spec hne (.inl hlt) 5
  rw [helect]
  exact ⟨_, hmem, hcaptain, hfirst, hclaim hlt⟩

theorem exec_election (hrun : unitRuns s = true) (hc : cycleOfDeadline (s.tcyc s.localRing) (s.woff s.localRing) t = some c) :
    exec (.election t) s = .next (electCaptain (s.at t)) := by
  refine (whileOn_runs hrun).trans ?_
  simp only [at_localRing, at_tcyc, at_woff, hc]

/-! ### CLAIM and LEASE_RENEW as objects (R143, R146) -/

section Entry

variable {e : WriteEntry} {o : Obj} {x : Val} {sess : Nat}

/-- Any open session's write of a value in range, whole and of the object's type. -/
structure OpenTo (e : WriteEntry) (o : Obj) (x : Val) : Prop where
  row : lookup e.idx e.sub = .inl o
  any : o.acc = .any
  type : e.ty = o.ty.code
  whole : e.seg = none
  value : valOf o.ty e.val = some x
  range : rangeStatus o x = stOk

theorem writeEntry_of_any (h : OpenTo e o x) :
    writeEntry s sess e = writeNow s sess o (e.idx * 256 + e.sub) ((o.at_ e.idx).getD (0, 0)).1 (e.sub - o.sub) x := by
  obtain ⟨hrow, hany, htype, hwhole, hvalue, hrange⟩ := h
  unfold writeEntry
  rw [hrow]
  dsimp only
  rw [hany, if_neg (by decide), if_neg (by simp), if_neg (by simp), if_neg (not_not.2 htype), hwhole, hvalue]
  simp [hrange]

end Entry

/-- A number written to an object of the sessions. -/
def numberEntry (o : Obj) (n : Int) : WriteEntry := { idx := o.base, sub := o.sub, ty := o.ty.code, val := valBytes o.ty (.num n) }

theorem numberEntry_key (o : Obj) (n : Int) : (numberEntry o n).idx * 256 + (numberEntry o n).sub = o.key := by simp [numberEntry, Obj.key]

theorem lookup_claim : lookup Ob.Poss.CLAIM.base Ob.Poss.CLAIM.sub = .inl Ob.Poss.CLAIM := by decide +kernel
theorem lookup_leaseRenew : lookup Ob.Poss.LEASE_RENEW.base Ob.Poss.LEASE_RENEW.sub = .inl Ob.Poss.LEASE_RENEW := by decide +kernel

theorem claim_inRange : ∀ v : Nat, v < 16 → valOf Ob.Poss.CLAIM.ty (valBytes Ob.Poss.CLAIM.ty (.num v)) = some (.num v) ∧ rangeStatus Ob.Poss.CLAIM (.num v) = stOk := by
  decide +kernel

theorem writeNow_claim (hactive : isStandby s = false) (v i j : Nat) :
    writeNow s k Ob.Poss.CLAIM Ob.Poss.CLAIM.key i j (.num v) = ((setClaim s k v s.now).set Ob.Poss.CLAIM v, stOk) := by
  have hact : writeNow s k Ob.Poss.CLAIM Ob.Poss.CLAIM.key i j (.num v) =
      keepValue Ob.Poss.CLAIM.key (.num v) (if isStandby s then (s, stState) else done (setClaim s k v s.now)) := rfl
  rw [hact, hactive, if_neg Bool.false_ne_true]
  rfl

theorem writeEntry_claim (hactive : isStandby s = false) {v : Nat} (hv : v ≤ 15) :
    writeEntry s k (numberEntry Ob.Poss.CLAIM v) = ((setClaim s k v s.now).set Ob.Poss.CLAIM v, stOk) := by
  obtain ⟨hvalue, hrange⟩ := claim_inRange v (by omega)
  have hopen : OpenTo (numberEntry Ob.Poss.CLAIM v) Ob.Poss.CLAIM (.num v) := ⟨lookup_claim, rfl, rfl, rfl, hvalue, hrange⟩
  rw [writeEntry_of_any hopen, numberEntry_key, writeNow_claim hactive]

theorem writeEntry_leaseRenew : writeEntry s k (numberEntry Ob.Poss.LEASE_RENEW 1) = ((renewed s k).set Ob.Poss.LEASE_RENEW 1, stOk) := by
  have hopen : OpenTo (numberEntry Ob.Poss.LEASE_RENEW 1) Ob.Poss.LEASE_RENEW (.num 1) := ⟨lookup_leaseRenew, rfl, rfl, rfl, by decide, by decide⟩
  rw [writeEntry_of_any hopen]
  rfl

/-- A session's write of an object's number that is taken, on a unit without a partner. -/
theorem exec_objectWrite (h : SessionWrites s k) {instr : Instr} {o : Obj} {n : Int} (hmeans : exec instr s = whileOn s t (answerBy k (objectWrite (s.at t) k o n)))
    (hr : writeEntry (renewed (s.at t) k) k (numberEntry o n) = (u, stOk)) (hpair : u.flag Ob.PairC.PAIR_ENABLE = false) :
    exec instr s = .next (u.emit (.reply 0xFF 0 stOk [])) := by
  obtain ⟨hrun, hopen, hconf, -⟩ := h
  have hwrite : objectWrite (s.at t) k o n = (u, stOk) := by
    unfold objectWrite objectOctets
    rw [if_neg (by simp [hopen])]
    dsimp only
    rw [if_neg (by simp [hconf])]
    exact hr
  rw [hmeans, whileOn_runs hrun, hwrite, answerBy_of_unpaired hpair]
  rfl

theorem exec_objectWrite_of_closed (hrun : unitRuns s = true) (hclosed : sessOpen s k = false) {instr : Instr} {o : Obj} {n : Int}
    (hmeans : exec instr s = whileOn s t (answerBy k (objectWrite (s.at t) k o n))) : exec instr s = .next ((s.at t).emit (.reply 0xFF 0 stLeaseExpired [])) := by
  have hat : sessOpen (s.at t) k = false := (at_sessOpen t k).trans hclosed
  have hwrite : objectWrite (s.at t) k o n = (s.at t, stLeaseExpired) := if_pos hat
  rw [hmeans, whileOn_runs hrun, hwrite, answerBy]
  dsimp only
  rw [hat, Bool.false_and, if_neg Bool.false_ne_true]
  rfl

theorem onlySessions_renewed (hk : k < 16) : OnlySessions s (renewed (s.at t) k) :=
  (onlySessions_at s t).set (by have := lastRenewed_key_div k; omega) _

theorem setClaim_out (hpair : s.flag Ob.PairC.PAIR_ENABLE = false) (hk : k < 16) (prio time : Nat) : (setClaim s k prio time).out = s.out := by
  cases h : isCaptain s k with
  | true => rw [setClaim_of_captain h]
  | false =>
    rw [setClaim_of_unpaired hpair h hk]
    rfl

theorem lastRenewed_not_mem_claimedKeys : ∀ k < 16, Ob.Sess.LAST_RENEWED.key k ∉ claimedKeys k := by decide +kernel
theorem possKeys_ne_sessions {o : Obj} (ho : o = Ob.Poss.CLAIM ∨ o = Ob.Poss.LEASE_RENEW) :
    ∀ k < 16, Ob.Sess.CLAIM_PRIORITY.key k ≠ o.key ∧ Ob.Sess.LAST_RENEWED.key k ≠ o.key := by
  rcases ho with rfl | rfl <;> decide +kernel

/-- What an open session's CLAIM as an object leaves and answers (R143, R146). -/
theorem claimObject_spec (h : SessionWrites s k) (hrole : s.get Ob.Pair.ROLE = 0) (hother : isCaptain s k = false) {v : Nat} (hv : v ≤ 15) :
    Answers (.claimObject k v t) s fun u =>
      u.get Ob.Sess.CLAIM_PRIORITY k = v ∧ u.get Ob.Sess.LAST_RENEWED k = u.now ∧ u.out = .reply 0xFF 0 stOk [] :: s.out ∧ OnlySessions s u := by
  have ⟨_, hopen, _, hpair⟩ := h
  have hk := sessOpen_lt hopen
  have honly := onlySessions_renewed (s := s) (t := t) hk
  have hactive : isStandby (renewed (s.at t) k) = false := by
    rw [isStandby, renewed_get (by decide) hk, State.at_get, hrole]
    rfl
  have hother' : isCaptain (renewed (s.at t) k) k = false := by rw [renewed_isCaptain hk, at_isCaptain, hother]
  have hentry := writeEntry_claim (k := k) hactive hv
  have hout : (renewed (s.at t) k).out = s.out := State.at_out s t
  have hrenewed : (renewed (s.at t) k).get Ob.Sess.LAST_RENEWED k = (renewed (s.at t) k).now := State.get_set_self ..
  have hunpaired : (renewed (s.at t) k).flag Ob.PairC.PAIR_ENABLE = false := (honly.flag (by decide)).trans hpair
  have hexec (u : State) := exec_objectWrite (u := u) (t := t) h (instr := .claimObject k v t) (o := Ob.Poss.CLAIM) (n := v) rfl
  generalize renewed (s.at t) k = b at *
  have hsent := setClaim_out hunpaired hk v b.now
  obtain ⟨hset, -, hkeeps, hclaim⟩ := setClaim_spec hunpaired hk v b.now
  generalize setClaim b k v b.now = w at *
  have honlyw : OnlySessions s (w.set Ob.Poss.CLAIM v) := (hkeeps s honly).set (by decide) v
  obtain ⟨hprio, hlast⟩ := possKeys_ne_sessions (.inl rfl) k hk
  obtain ⟨hclaimed, -⟩ := hset hother'
  rw [answers_iff (hexec _ hentry ((honlyw.flag (by decide)).trans hpair))]
  refine ⟨(State.get_set_ne _ _ _ _ _ _ _ _ _ _ hprio).trans hclaimed, ?_, congrArg (_ :: ·) (hsent.trans hout), honlyw⟩
  have hstands : w.get Ob.Sess.LAST_RENEWED k = w.now := by rw [hclaim.get (lastRenewed_not_mem_claimedKeys k hk), hrenewed, hclaim.now]
  exact (State.get_set_ne _ _ _ _ _ _ _ _ _ _ hlast).trans hstands

/-- What an open session's LEASE_RENEW leaves and answers (R143). -/
theorem leaseRenew_spec (h : SessionWrites s k) : Answers (.leaseRenew k 1 t) s fun u =>
    u.get Ob.Sess.LAST_RENEWED k = u.now ∧ u.out = .reply 0xFF 0 stOk [] :: s.out ∧ OnlySessions s u := by
  have ⟨_, hopen, _, hpair⟩ := h
  have hk := sessOpen_lt hopen
  have hdiv : Ob.Sess.LAST_RENEWED.key k / 65536 = 0x11 := by have := lastRenewed_key_div k; omega
  have honly : OnlySessions s (renewed (renewed (s.at t) k) k) := (onlySessions_renewed hk).set hdiv _
  have honlyw : OnlySessions s ((renewed (renewed (s.at t) k) k).set Ob.Poss.LEASE_RENEW 1) := honly.set (by decide) 1
  obtain ⟨-, hlast⟩ := possKeys_ne_sessions (.inr rfl) k hk
  rw [answers_iff (exec_objectWrite h rfl writeEntry_leaseRenew ((honlyw.flag (by decide)).trans hpair))]
  exact ⟨(State.get_set_ne _ _ _ _ _ _ _ _ _ _ hlast).trans (State.get_set_self ..), congrArg (_ :: ·) (State.at_out s t), honlyw⟩

end Sys2Proof.Machine
end

