-- ==== Sys2Proof/Proofs/RepeatsAndBadMessages.lean ====
section
/-! Messages that are no new request (R132, R133, R138), and O37. -/

namespace Sys2Proof.Machine

variable {s u : State} {q : Req} {p : Path} {op t ip : Nat} {b : List Byte}

/-! ### Messages that are discarded -/

/-- A message that does not parse is counted (R133). -/
theorem exec_badMsg_counted (hrun : unitRuns s = true) (hvia : p.via < 2) (hlistens : listens (s.at t) p = true) (hnone : parseLinli p b = none) :
    exec (.badMsg p true b t) s = .next ((s.at t).count Ob.Poss.BAD_MSG) := by
  refine (whileOn_runs hrun).trans ?_
  rw [if_neg (by simp [hlistens]; omega), receive, hnone]

/-- One that is damaged, or for no port that the unit listens at, does nothing (R132). -/
theorem exec_badMsg_dropped (hrun : unitRuns s = true) {intact : Bool} (h : intact = false ∨ listens (s.at t) p = false) :
    exec (.badMsg p intact b t) s = .next (s.at t) := by
  refine (whileOn_runs hrun).trans ?_
  rw [if_pos (h.imp_right .inr)]

theorem not_listens_of_port (hvia : p.via < 2) (hport : p.port ≠ s.nat Ob.Poss.UDP_PORT) : listens (s.at t) p = false := by
  simp [listens, hport, hvia]

/-! ### Repetitions -/

theorem linliRun_of_admitted (hlistens : listens s q.toPath = true) (hop : op ≠ 1) (hadmitted : admitted s q = true) : linliRun s op q = sequenced s op q := by
  rw [linliRun, if_neg (by simp [hlistens]), if_neg hop, if_neg (by simp [hadmitted])]

theorem admitted_sessOpen (h : admitted s q = true) : sessOpen s q.sess = true := by
  simp only [admitted, Bool.and_eq_true] at h
  obtain ⟨⟨⟨hopen, -⟩, -⟩, -⟩ := h
  exact hopen

/-- The number of an executed request gets its reply again (R138). -/
theorem sequenced_repeated {r : ReqRt} {status : Nat} {body : List Byte} (hseen : (windowOf (s.sess q.sess) q.seqNo).1 = some r) (hreply : r.reply = some (status, body)) :
    sequenced s op q = replyTo (renewed s q.sess) q.sess q.toPath (linliBytes r.op q.sess q.seqNo status q.token body) := by
  have hwindow : windowOf ((renewed s q.sess).sess q.sess) q.seqNo = (some r, (windowOf (s.sess q.sess) q.seqNo).2) := Prod.ext hseen rfl
  unfold renewed at hwindow
  unfold sequenced
  dsimp only
  rw [hwindow]
  dsimp only
  rw [hreply]
  rfl

/-- A number outside the window is counted and answered with STATE (R138). -/
theorem sequenced_outside (hunseen : (windowOf (s.sess q.sess) q.seqNo).1 = none) (hout : (windowOf (s.sess q.sess) q.seqNo).2.1 = false) :
    sequenced s op q = replyTo ((renewed s q.sess).count Ob.Poss.SEQ_ERR) q.sess q.toPath (linliBytes op q.sess q.seqNo stState q.token []) := by
  have hwindow : windowOf ((renewed s q.sess).sess q.sess) q.seqNo = (none, false, (windowOf (s.sess q.sess) q.seqNo).2.2) := Prod.ext hunseen (Prod.ext hout rfl)
  unfold renewed at hwindow
  unfold sequenced
  dsimp only
  rw [hwindow]
  rfl

/-- What a repetition leaves and answers (R138). -/
theorem repeated_spec (hpair : s.flag Ob.PairC.PAIR_ENABLE = false) (hvia : q.via < 2) (hadmitted : admitted (s.at t) q = true) {r : ReqRt} {status : Nat} {body : List Byte}
    (hseen : (windowOf (s.sess q.sess) q.seqNo).1 = some r) (hreply : r.reply = some (status, body)) :
    let u := sequenced (s.at t) op q
    Replied u r.op q status body ∧ u.get Ob.Sess.LAST_RENEWED q.sess = u.now ∧ ObjectsKept [Ob.Sess.LAST_RENEWED.key q.sess] s u ∧ OnlySessions s u := by
  intro u
  have honly := onlySessions_renewed (s := s) (t := t) (sessOpen_lt (admitted_sessOpen hadmitted))
  have heq : u = _ := sequenced_repeated (by rwa [at_sess]) hreply
  rw [replyTo_of_unpaired ((honly.flag (by decide)).trans hpair) hvia] at heq
  rw [heq]
  refine ⟨rfl, State.get_set_self .., fun n hn => ?_, honly⟩
  exact (State.set_od_ne _ _ _ _ _ _ _ (List.ne_of_not_mem_cons hn)).trans (by rw [State.at_od])

/-- What a request outside the window leaves and answers (R138). -/
theorem outside_spec (hpair : s.flag Ob.PairC.PAIR_ENABLE = false) (hvia : q.via < 2) (hadmitted : admitted (s.at t) q = true)
    (hunseen : (windowOf (s.sess q.sess) q.seqNo).1 = none) (hout : (windowOf (s.sess q.sess) q.seqNo).2.1 = false) :
    let u := sequenced (s.at t) op q
    Replied u op q stState [] ∧ u.get Ob.Poss.SEQ_ERR = satInc 32 (s.get Ob.Poss.SEQ_ERR) ∧
      ObjectsKept [Ob.Sess.LAST_RENEWED.key q.sess, Ob.Poss.SEQ_ERR.key] s u ∧ OnlySessions s u := by
  intro u
  have hx := sessOpen_lt (admitted_sessOpen hadmitted)
  have honly : OnlySessions s ((renewed (s.at t) q.sess).count Ob.Poss.SEQ_ERR) := (onlySessions_renewed hx).set (by decide) _
  have heq : u = _ := sequenced_outside (by rwa [at_sess]) (by rwa [at_sess])
  rw [replyTo_of_unpaired ((honly.flag (by decide)).trans hpair) hvia] at heq
  have hcount : ((renewed (s.at t) q.sess).count Ob.Poss.SEQ_ERR).get Ob.Poss.SEQ_ERR = satInc 32 (s.get Ob.Poss.SEQ_ERR) :=
    (State.get_set_self ..).trans (congrArg (satInc 32) ((renewed_get (by decide) hx).trans (State.at_get ..)))
  rw [heq]
  refine ⟨rfl, hcount, fun n hn => ?_, honly⟩
  obtain ⟨hlast, hseq⟩ := not_or.1 (List.mem_cons.not.1 hn)
  exact (State.set_od_ne _ _ _ _ _ _ _ (List.ne_of_not_mem_cons hseq)).trans ((State.set_od_ne _ _ _ _ _ _ _ hlast).trans (by rw [State.at_od]))

/-! ### ARP and ICMP -/

theorem answersFor_of_own (hrun : unitRuns s = true) (hrole : s.get Ob.Pair.ROLE = 0) (hip : ip ≠ 0) (h : ip = s.nat Ob.Poss.UNIT_IP ∨ ip = s.nat Ob.Poss.SERVICE_IP) :
    answersFor s ip = true := by
  simp only [answersFor, hrun, notActive_of_role hrole]
  simpa [hip] using h

end Sys2Proof.Machine

open Sys2Proof Sys2Proof.Machine

/-- Settles O37: a message by what the sequence window says of its number, leases by closing the sessions they end for, an election by its first claim. -/
theorem repeatsLeasesAndElections : Obligations.RepeatsLeasesAndElections := by
  unfold Obligations.RepeatsLeasesAndElections
  constructor
  · intro s q p r t port ip mac src st b body data a hrun hrole hpair
    have hrole' : a.get Ob.Pair.ROLE = 0 := (State.at_get ..).trans hrole
    have hrun' : unitRuns a = true := by simpa [a, unitRuns] using hrun
    refine ⟨fun hvia hlistens hnone => ?_, exec_badMsg_dropped hrun (.inl rfl), fun hvia hport => exec_badMsg_dropped hrun (.inr (not_listens_of_port hvia hport)),
      fun hlistens hvia => ⟨fun hnot => ?_, fun hadmitted hseen hreply => ?_, fun hadmitted hunseen hout => ?_⟩, fun hip hown => ?_⟩
    · rw [answers_iff (exec_badMsg_counted hrun hvia hlistens hnone)]
      exact ⟨(State.get_set_self ..).trans (congrArg (satInc 32) (State.at_get ..)),
        fun n hn => (State.set_od_ne _ _ _ _ _ _ _ (List.ne_of_not_mem_cons hn)).trans (by rw [State.at_od]), State.at_out s t, State.at_host s t,
        (bytesKept_at t).1 fun _ => ⟨rfl, rfl, fun _ => rfl⟩⟩
    · refine (whileOn_runs hrun).trans ?_
      rw [linliRun_of_not_admitted hlistens hnot (by decide), replyPlain, sendReply, if_pos hvia]
    · have hexec : exec (.hostWrite q t) s = .next (sequenced a 0x11 q) :=
        (whileOn_runs hrun).trans (congrArg _ (linliRun_of_admitted hlistens (by decide) hadmitted))
      rw [answers_iff hexec]
      exact repeated_spec hpair hvia hadmitted hseen hreply
    · have hexec : exec (.hostClaim q t) s = .next (sequenced a 0x20 q) :=
        (whileOn_runs hrun).trans (congrArg _ (linliRun_of_admitted hlistens (by decide) hadmitted))
      rw [answers_iff hexec]
      exact outside_spec hpair hvia hadmitted hunseen hout
    · have hanswers : answersFor a ip = true := answersFor_of_own hrun' hrole' hip (by simpa [a] using hown)
      exact ⟨(whileOn_runs hrun).trans (congrArg _ (if_pos hanswers)), (whileOn_runs hrun).trans (congrArg _ (if_pos hanswers))⟩
  · intro s t c k v hrun hrole a expired
    have hrole' : a.get Ob.Pair.ROLE = 0 := (State.at_get ..).trans hrole
    have hover (j : Nat) : leaseOver a j ↔ expired j := by simp [leaseOver, expired, a]
    refine ⟨fun hc => ⟨?_, fun hloose hclaims hheld => ?_⟩, fun h => ⟨fun hother hv => claimObject_spec h hrole hother hv, leaseRenew_spec h⟩,
      fun hclosed => exec_objectWrite_of_closed hrun hclosed rfl⟩
    · obtain ⟨hkept, hstands, -, hfreed, -⟩ := expireLeases_spec hrole'
      rw [answers_iff (exec_leaseExpiry hrun hc)]
      refine ⟨fun j hj => ?_, ?_, (bytesKept_at t).1 hkept.bytesKept⟩
      · rw [hstands j hj, mem_openSessions, at_sessOpen]
        exact and_congr_right fun hopen => not_congr ((and_iff_right hopen).trans (hover j))
      · rintro ⟨j, hown, hopen, hexpired⟩
        have hopen' : sessOpen a j = true := (at_sessOpen t j).trans hopen
        exact hfreed j (mem_openSessions.2 hopen') ((at_isCaptain j).trans hown) hopen' ((hover j).2 hexpired)
    · have hheld' : electionFrom a + a.nat Ob.Poss.ELECTION_HOLD * 1000000 ≤ a.now := by simpa [electionFrom, a] using hheld
      have hspec := electCaptain_spec hrole' ((State.at_get ..).trans hloose) (by simpa [a, at_claims] using hclaims) hheld'
      simp only [a, at_claims, at_claimBefore] at hspec
      exact (answers_iff (exec_election hrun hc)).2 hspec
end

