-- ==== Sys2Proof/Proofs/PcieWindow.lean ====
section
/-! A word written to the request buffer of a PCIe channel (R153, Table 06-7), and O38. -/

namespace Sys2Proof.Machine

/-- A word of BAR0 in a request buffer is written to the four bytes there. -/
theorem exec_requestWord {s : State} (hrun : unitRuns s = true) {c off : Nat} (hc : c < 4) (haligned : off % 4 = 0) (hoff : off < 1536) (w : Word) (t : Nat) :
    exec (.registerWrite 0 (0x2000 + 0x2000 * c + off) w t) s =
      .next ((s.at t).setChan c { (s.at t).chan c with req := Mem.write ((s.at t).chan c).req off 4 w.toNat }) := by
  have hchan : (0x2000 + 0x2000 * c + off - 0x2000) / 0x2000 = c := by omega
  have hplace : (0x2000 + 0x2000 * c + off - 0x2000) % 0x2000 = off := by omega
  refine (whileOn_runs hrun).trans ?_
  dsimp only
  rw [if_neg (by omega), if_pos rfl, barWrite, if_neg (by omega), if_pos (by omega), hchan, hplace]
  dsimp only
  rw [if_pos hoff]

/-- Channel 0 with a request buffer that lists byte 0 twice, a form that no write leaves. -/
def byteListedTwice : State := State.reset.setChan 0 { req := [(0, 1), (0, 2)] }

/-- Setting byte 0 to 0 takes its first entry off the list, and the second one is read. -/
theorem read_byteListedTwice : Mem.read (Mem.write [(0, 1), (0, 2)] 0 4 0) 0 4 = 2 := by decide

end Sys2Proof.Machine

open Sys2Proof Sys2Proof.Machine

/-- Refutes O38: a word written to a request buffer is not what its bytes then hold where the buffer lists a byte twice; nothing in the statement holds the
buffers of the channels to the one canonical form that MemoriesCanonical asks of the other memories. -/
theorem not_pcieChannelsTakeRequestsAndHandOutReplies : ¬ Obligations.PcieChannelsTakeRequestsAndHandOutReplies := by
  unfold Obligations.PcieChannelsTakeRequestsAndHandOutReplies
  intro h
  have hrun : unitRuns byteListedTwice = true := by decide +kernel
  obtain ⟨-, -, -, -, -, -, -, hword, -⟩ := h byteListedTwice 0 0 0 0 0 0 0 [] [] hrun (by decide)
  have hread := hword (by decide) (by decide)
  rw [answers_iff (exec_requestWord hrun (by decide) (by decide) (by decide) 0 0)] at hread
  exact absurd (read_byteListedTwice.symm.trans hread.1) (by decide)
end

