-- ==== Sys2Proof/Proofs/DrillSwap.lean ====
section
/-! The swap of a drill at the active unit (R385), and O58. -/

namespace Sys2Proof.Machine

/-- At the swap instant of an announced drill the active unit leaves its role. -/
theorem exec_drillSwap_leaves {s : State} (hrun : unitRuns s = true) {d t : Nat} (hdrill : s.pair.drill = some (d, true)) (hstate : s.get Ob.PairX.DRILL_STATE = 1)
    (hdue : d ≤ (s.at t).now) (hrole : s.get Ob.Pair.ROLE = 1) : exec (.drillSwap t) s = .next (leaveActive (s.at t) 2) := by
  refine (whileOn_runs hrun).trans ?_
  simp [hdrill, hstate, hrole, hdue]

/-- An active unit at the swap of a drill, its local brake of axis 0 released on path B, with BRAKE_CHANNEL 7105 for that axis. -/
def swapWithFarChannel : State :=
  let s := ((State.reset.set Ob.Pair.ROLE 1).set Ob.PairX.DRILL_STATE 1).set Ob.AxS.BRAKE 1
  { s.set Ob.AxS.BRAKE_CHANNEL 7105 with pair := { s.pair with drill := some (0, true) }, safe := { s.safe with sbc := [(0, { pathB := true })] } }

/-- The brake that the unit applies as it leaves shows HS_ON of channel 7105 where ROLE stands. -/
theorem leaveActive_farChannel_role : (leaveActive swapWithFarChannel 2).get Ob.Pair.ROLE = 0 := by decide +kernel

end Sys2Proof.Machine

open Sys2Proof Sys2Proof.Machine

/-- Refutes O58: a drill's swap does not leave the active unit with ROLE 2 where BRAKE_CHANNEL names a channel beyond the eight of the unit: HS_ON of channel 7105
has the key of ROLE, and nothing in the statement bounds BRAKE_CHANNEL. -/
theorem not_rolesChangeHandsAsThePairDecides : ¬ Obligations.RolesChangeHandsAsThePairDecides := by
  unfold Obligations.RolesChangeHandsAsThePairDecides
  intro h
  have hrun : unitRuns swapWithFarChannel = true := by decide +kernel
  obtain ⟨-, -, -, -, -, -, -, -, -, -, -, -, -, -, -, hdrill, -⟩ := h swapWithFarChannel 0 0 0 0 0 0 0 0 0 true hrun
  obtain ⟨hswap, -⟩ := hdrill rfl (by decide +kernel)
  have hleft := hswap (Nat.zero_le _) rfl (by decide +kernel)
  rw [answers_iff (exec_drillSwap_leaves hrun rfl (by decide +kernel) (Nat.zero_le _) (by decide +kernel))] at hleft
  exact absurd (leaveActive_farChannel_role.symm.trans hleft.1) (by decide)
end

