-- ==== Sys2Proof/Proofs/AxisObjects.lean ====
section
/-! What the operations of one axis leave of its objects and of the rest of the state. -/

namespace Sys2Proof.Machine

variable {a t : Nat} {s u : State}

/-! ### What stands beside the axis -/

theorem OnAxis.axesKept (h : OnAxis a s u) : AxesKept [a] s u := fun x hx => h.axis x (List.ne_of_not_mem_cons hx)

theorem OnAxis.bytesKept (h : OnAxis a s u) : BytesKept s u := by
  have hshared : u.shared = s.shared := by simpa using congrArg State.shared h.rest
  have hucode : u.ucode = s.ucode := by simpa using congrArg State.ucode h.rest
  have haces : u.aces = s.aces := by simpa using congrArg State.aces h.rest
  intro x
  simp only [State.ace, hshared, hucode, haces]
  exact ⟨trivial, trivial, fun _ => trivial⟩

/-- What an operation of the axis at the instant of a command leaves of the other axes and of all bytes. -/
theorem OnAxis.kept_at (h : OnAxis a (s.at t) u) : AxesKept [a] s u ∧ BytesKept s u :=
  ⟨fun x hx => (h.axesKept x hx).trans (State.at_axis s t x), (bytesKept_at t).1 h.bytesKept⟩

theorem at_now_of_le (h : s.now ≤ t) : (s.at t).now = t := by rw [State.at_now, max_eq_right h]

/-! ### The objects that show an axis's state (R189) -/

/-- Their keys. -/
def stateKeys (a : Nat) : List Nat := [Ob.Ctl.STATE_WORD.key a, Ob.Ctl.ACTIVE_MODE.key a, Ob.Ctl.STOP_CAUSE.key a]

theorem publishState_objects : ObjectsKept (stateKeys a) s (publishState s a) := by
  intro k hk
  simp only [stateKeys, List.mem_cons, List.not_mem_nil, or_false, not_or] at hk
  obtain ⟨hword, hmode, hcause⟩ := hk
  rw [publishState, State.set_od_ne _ _ _ _ _ _ _ hcause, State.set_od_ne _ _ _ _ _ _ _ hmode, State.set_od_ne _ _ _ _ _ _ _ hword]

theorem publishState_stateWord : (publishState s a).get Ob.Ctl.STATE_WORD a = stateWord (s.axis a) := by simp +decide [publishState]
theorem publishState_activeMode : (publishState s a).get Ob.Ctl.ACTIVE_MODE a = (s.axis a).mot.mode := by simp +decide [publishState]
theorem publishState_faultCode : (publishState s a).get Ob.Ctl.FAULT_CODE a = s.get Ob.Ctl.FAULT_CODE a := by simp +decide [publishState]

/-! ### Faults -/

theorem dropArmed_faultCode : (dropArmed s a).get Ob.Ctl.FAULT_CODE a = s.get Ob.Ctl.FAULT_CODE a := by
  unfold dropArmed
  dsimp only
  split <;> split <;> split <;> simp +decide

/-- FAULT_SET takes a fault that is recorded (R191). -/
theorem recordFault_setBit (c : Nat) : (recordFault s a c).get Ob.Ctl.FAULT_SET a = setBit (s.nat Ob.Ctl.FAULT_SET a) c true := by
  unfold recordFault
  dsimp only
  split <;> simp +decide

/-- FAULT_CODE takes the first (R191). -/
theorem recordFault_faultCode (c : Nat) (h : s.get Ob.Ctl.FAULT_CODE a = 0) : (recordFault s a c).get Ob.Ctl.FAULT_CODE a = c := by
  have hzero : (s.set Ob.Ctl.FAULT_SET (setBit (s.nat Ob.Ctl.FAULT_SET a) c true) a).get Ob.Ctl.FAULT_CODE a = 0 := by simp +decide [h]
  simp [recordFault, hzero]

/-- An axis made FAULTED has its power stage off; its FAULT_CODE stands. -/
theorem faultNow_power (h : (s.axis a).mot.state ≠ .disabled) :
    ((faultNow s a).axis a).flags.power = false ∧ (faultNow s a).get Ob.Ctl.FAULT_CODE a = s.get Ob.Ctl.FAULT_CODE a := by
  unfold faultNow
  rw [if_neg h]
  dsimp only
  rw [publishState_axis, publishState_faultCode]
  exact ⟨by simp, by simp [dropArmed_faultCode]⟩

/-- A fault that makes a powered axis FAULTED at once (R192). -/
theorem faultAtOnce_spec (c : Nat) (h : (s.axis a).mot.state.powered = true) :
    ((faultAtOnce s a c).axis a).mot.state = .faulted ∧ ((faultAtOnce s a c).axis a).flags.power = false ∧
      (faultAtOnce s a c).get Ob.Ctl.FAULT_SET a = setBit (s.nat Ob.Ctl.FAULT_SET a) c true ∧
      (s.get Ob.Ctl.FAULT_CODE a = 0 → (faultAtOnce s a c).get Ob.Ctl.FAULT_CODE a = c) := by
  have hdisabled : (s.axis a).mot.state ≠ .disabled := fun hst => by simp [hst, AxState.powered] at h
  have hfaulted : (s.axis a).mot.state ≠ .faulted := fun hst => by simp [hst, AxState.powered] at h
  have hrecorded : (((recordFault s a c).warn 192 a c).axis a).mot.state ≠ .disabled := (recordFault_axis (s := s) a c a).symm ▸ hdisabled
  obtain ⟨hstate, hset⟩ := faultNow_spec hrecorded
  obtain ⟨hpower, hcode⟩ := faultNow_power hrecorded
  unfold faultAtOnce
  rw [if_neg hdisabled, if_neg hfaulted]
  exact ⟨hstate, hpower, hset.trans (recordFault_setBit c), fun hz => hcode.trans (recordFault_faultCode c hz)⟩

end Sys2Proof.Machine
end

