-- ==== Sys2Proof/Proofs/ArmingAndEntry.lean ====
section
/-! The end of ARMING (R187, R190), the entry into a committed mode (R193, R194), and O20. -/

namespace Sys2Proof.Machine

variable {s : State} {a t t0 mode : Nat}

@[simp] theorem at_workerEnabled : workerEnabled (s.at t) a = workerEnabled s a := by
  unfold State.at
  split <;> rfl

@[simp] theorem at_entryRefused : entryRefused (s.at t) a mode = entryRefused s a mode := by
  unfold State.at
  split <;> rfl

/-! ### ARMING ends -/

/-- An axis as ARMING leaves it: ENABLED, in HOLD. -/
def armed (x : AxisRt) : AxisRt := { x with mot := { x.mot with state := .enabled, mode := 0, seq := x.mot.seq + 1 } }

theorem exec_armDelay (hrun : unitRuns s = true) (hnow : s.now ≤ t) (harming : (s.axis a).mot.state = .arming) (hworker : workerEnabled s a = true)
    (hdue : (s.axis a).mot.armAt + s.nat Ob.Lim.ARM_DELAY a * 1000000 ≤ t) :
    exec (.armDelay a t) s = .next (publishState ((s.at t).setAxis a (armed (s.axis a))) a) := by
  refine (whileOn_runs hrun).trans ?_
  simp [checkArmed, armed, harming, hworker, at_now_of_le hnow, hdue]

theorem exec_armTimeout (hrun : unitRuns s = true) (hnow : s.now ≤ t) (harming : (s.axis a).mot.state = .arming)
    (hdue : (s.axis a).mot.armAt + s.nat Ob.Lim.ARM_TIMEOUT a * 1000000 ≤ t) : exec (.armTimeout a t) s = .next (faultAtOnce (s.at t) a 14) := by
  refine (whileOn_runs hrun).trans ?_
  simp [checkArmTimeout, harming, at_now_of_le hnow, hdue]

/-- What the end of ARMING shows of the axis and leaves of all else (R190). -/
theorem armDelay_spec (hrun : unitRuns s = true) (hnow : s.now ≤ t) (harming : (s.axis a).mot.state = .arming) (hworker : workerEnabled s a = true)
    (hdue : (s.axis a).mot.armAt + s.nat Ob.Lim.ARM_DELAY a * 1000000 ≤ t) :
    Answers (.armDelay a t) s fun u => u.axis a = armed (s.axis a) ∧ AxesKept [a] s u ∧ u.get Ob.Ctl.ACTIVE_MODE a = 0 ∧
      u.get Ob.Ctl.STATE_WORD a = stateWord (u.axis a) ∧ ObjectsKept (stateKeys a) s u ∧ BytesKept s u := by
  rw [answers_iff (exec_armDelay hrun hnow harming hworker hdue)]
  have hon : OnAxis a (s.at t) (publishState ((s.at t).setAxis a (armed (s.axis a))) a) := by simp [armed]
  obtain ⟨haxes, hbytes⟩ := hon.kept_at
  have haxis : ((s.at t).setAxis a (armed (s.axis a))).axis a = armed (s.axis a) := by simp
  refine ⟨haxis, haxes, ?_, publishState_stateWord, objectsKept_at.1 publishState_objects, hbytes⟩
  rw [publishState_activeMode, haxis]
  rfl

/-- What ARM_TIMEOUT leaves (R187). -/
theorem armTimeout_spec (hrun : unitRuns s = true) (hnow : s.now ≤ t) (harming : (s.axis a).mot.state = .arming)
    (hdue : (s.axis a).mot.armAt + s.nat Ob.Lim.ARM_TIMEOUT a * 1000000 ≤ t) :
    Answers (.armTimeout a t) s fun u => (u.axis a).mot.state = .faulted ∧ (u.axis a).flags.power = false ∧ AxesKept [a] s u ∧
      u.get Ob.Ctl.FAULT_SET a = setBit (s.nat Ob.Ctl.FAULT_SET a) 14 true ∧ (s.get Ob.Ctl.FAULT_CODE a = 0 → u.get Ob.Ctl.FAULT_CODE a = 14) ∧
      BytesKept s u := by
  rw [answers_iff (exec_armTimeout hrun hnow harming hdue)]
  have hon : OnAxis a (s.at t) (faultAtOnce (s.at t) a 14) := by simp
  obtain ⟨haxes, hbytes⟩ := hon.kept_at
  obtain ⟨hstate, hpower, hset, hcode⟩ := faultAtOnce_spec (s := s.at t) (a := a) 14 (by simp [harming, AxState.powered])
  rw [State.at_nat] at hset
  rw [State.at_get] at hcode
  exact ⟨hstate, hpower, haxes, hset, hcode, hbytes⟩

/-! ### Mode entry -/

theorem exec_modeEntry (hrun : unitRuns s = true) (hnow : s.now ≤ t) (hdue : t0 ≤ t) (hpend : (s.axis a).mot.pend = some (t0, mode)) :
    exec (.modeEntry a t) s = .next ((enterMode (s.at t) a mode t0).modMot a fun m => { m with pend := none }) := by
  refine (whileOn_runs hrun).trans ?_
  simp [hpend, at_now_of_le hnow, hdue]

/-- A refused entry sets MOVE_REFUSED and leaves mode and plan (R193). -/
theorem enterMode_refused (h : entryRefused s a mode = true) :
    ((enterMode s a mode t0).axis a).flags.moveRefused = true ∧ ((enterMode s a mode t0).axis a).mot.mode = (s.axis a).mot.mode ∧
      ((enterMode s a mode t0).axis a).mot.plan = (s.axis a).mot.plan := by
  unfold enterMode
  rw [if_pos h]
  simp [publishState_axis]

/-- An entry into a profile mode that is not refused makes it the active one, with a plan (R194). -/
theorem enterMode_profile (h : entryRefused s a mode = false) (hmode : mode = 1 ∨ mode = 2) :
    ((enterMode s a mode t0).axis a).flags.moveRefused = false ∧ ((enterMode s a mode t0).axis a).mot.mode = mode ∧
      ((enterMode s a mode t0).axis a).mot.plan.isSome = true ∧ (enterMode s a mode t0).get Ob.Ctl.ACTIVE_MODE a = mode := by
  unfold enterMode
  rw [if_neg (by simp [h])]
  rcases hmode with rfl | rfl <;> simp [publishState_axis, publishState_activeMode]

theorem modeEntry_spec (hrun : unitRuns s = true) (hnow : s.now ≤ t) (hdue : t0 ≤ t) (hpend : (s.axis a).mot.pend = some (t0, mode)) :
    (entryRefused s a mode = true → Answers (.modeEntry a t) s fun u =>
      (u.axis a).mot.pend = none ∧ (u.axis a).flags.moveRefused = true ∧ (u.axis a).mot.mode = (s.axis a).mot.mode ∧
        (u.axis a).mot.plan = (s.axis a).mot.plan ∧ AxesKept [a] s u ∧ BytesKept s u) ∧
    (entryRefused s a mode = false → mode = 1 ∨ mode = 2 → Answers (.modeEntry a t) s fun u =>
      (u.axis a).mot.pend = none ∧ (u.axis a).flags.moveRefused = false ∧ (u.axis a).mot.mode = mode ∧ (u.axis a).mot.plan.isSome = true ∧
        u.get Ob.Ctl.ACTIVE_MODE a = mode ∧ AxesKept [a] s u ∧ BytesKept s u) := by
  simp only [answers_iff (exec_modeEntry hrun hnow hdue hpend)]
  have hon : OnAxis a (s.at t) ((enterMode (s.at t) a mode t0).modMot a fun m => { m with pend := none }) := by simp
  obtain ⟨haxes, hbytes⟩ := hon.kept_at
  refine ⟨fun hrefused => ?_, fun htaken hmode => ?_⟩
  · obtain ⟨hflag, hkept, hplan⟩ := enterMode_refused (s := s.at t) (a := a) (t0 := t0) (mode := mode) (by simpa using hrefused)
    simp only [State.at_axis] at hkept hplan
    exact ⟨by simp, by simpa using hflag, by simpa using hkept, by simpa using hplan, haxes, hbytes⟩
  · obtain ⟨hflag, hentered, hplan, hactive⟩ := enterMode_profile (s := s.at t) (a := a) (t0 := t0) (by simpa using htaken) hmode
    exact ⟨by simp, by simpa using hflag, by simpa using hentered, by simpa using hplan, hactive, haxes, hbytes⟩

end Sys2Proof.Machine

open Sys2Proof Sys2Proof.Machine

/-- Settles O20: each command by the state it answers, which differs from the old one in its axis alone (`OnAxis`). -/
theorem armingAndModeEntry : Obligations.ArmingAndModeEntry := by
  unfold Obligations.ArmingAndModeEntry
  exact ⟨fun s a t hrun hnow harming => ⟨armDelay_spec hrun hnow harming, armTimeout_spec hrun hnow harming⟩,
    fun s a t t0 mode hrun hnow hdue hpend => modeEntry_spec hrun hnow hdue hpend⟩
end

