-- ==== Sys2Proof/Proofs/StopEnds.lean ====
section
/-! The end of a stop at standstill and past STOP_TIMEOUT (R200, R201, R203), and O21. -/

namespace Sys2Proof.Machine

variable {s : State} {a t : Nat}

/-! ### Standstill -/

theorem exec_standstill (hrun : unitRuns s = true) (hstopping : (s.axis a).mot.state = .stopping) (hstill : atStandstill (s.at t) a = true) :
    exec (.standstill a t) s = .next (endStop (s.at t) a) := by
  refine (whileOn_runs hrun).trans ?_
  simp [checkStandstill, hstopping, hstill]

@[simp] theorem onAxis_endStop {v : State} : OnAxis a s (endStop v a) ↔ OnAxis a s v := by simp +decide [endStop]

/-- A stop that ends leaves the axis in HOLD, in the state of its strongest cause (Table 08-1, R200). -/
theorem endStop_spec :
    ((endStop s a).axis a).mot.stopKind = none ∧ ((endStop s a).axis a).mot.stopCause = none ∧ ((endStop s a).axis a).mot.mode = 0 ∧
      ((s.axis a).mot.stopCause = some .disable → ((endStop s a).axis a).mot.state = .disabled ∧ ((endStop s a).axis a).flags.power = false) ∧
      ((s.axis a).mot.stopCause = some .fault → ((endStop s a).axis a).mot.state = .faulted ∧ ((endStop s a).axis a).flags.power = false) ∧
      ((s.axis a).mot.stopCause = some .command ∨ (s.axis a).mot.stopCause = some .machineStop →
        ((endStop s a).axis a).mot.state = .enabled ∧ ((endStop s a).axis a).flags.power = true) := by
  simp only [endStop, publishState_axis, State.axis_setAxis, if_true]
  refine ⟨trivial, trivial, rfl, fun hc => ?_, fun hc => ?_, fun hc => ?_⟩
  · simp [hc]
  · simp [hc]
  · rcases hc with hc | hc <;> simp [hc]

/-! ### STOP_TIMEOUT -/

/-- What STOP_TIMEOUT makes of a stop by its kind (R203). -/
def stopTimedOut (s : State) (a : Nat) : State :=
  match (s.axis a).mot.stopKind with
  | some .hard => faultAtOnce s a 15
  | some .brake => faultAtOnce s a 15
  | _ =>
    let s := startStop s a .hard ((s.axis a).mot.stopCause.getD .command)
    s.modAxis a fun x => { x with mot := { x.mot with stopStart := s.now } }

theorem exec_stopTimeout (hrun : unitRuns s = true) (hnow : s.now ≤ t) (hstopping : (s.axis a).mot.state = .stopping)
    (hmoving : atStandstill (s.at t) a = false) (hdue : (s.axis a).mot.stopStart + s.nat Ob.Lim.STOP_TIMEOUT a * 1000000 ≤ t) :
    exec (.stopTimeout a t) s = .next (stopTimedOut (s.at t) a) := by
  have hcheck : checkStopTimeout (s.at t) a = stopTimedOut (s.at t) a := if_pos (by simp [hstopping, hmoving, at_now_of_le hnow, hdue])
  exact (whileOn_runs hrun).trans (congrArg _ hcheck)

@[simp] theorem onAxis_stopTimedOut {v : State} : OnAxis a s (stopTimedOut v a) ↔ OnAxis a s v :=
  OnAxis.step (by unfold stopTimedOut; split <;> simp)

theorem haltStep_mot (x : Nat) : ((haltStep s a).axis x).mot = (s.axis x).mot := by
  unfold haltStep haltPort
  dsimp only
  split
  · by_cases hx : x = a <;> simp [hx]
  · rfl

theorem dropEntry_mot : ((dropEntry s a).axis a).mot = { (s.axis a).mot with pend := none } := by
  unfold dropEntry
  split
  · simp
  · next h =>
    have hnone : (s.axis a).mot.pend = none := by simpa using h
    rw [← hnone]

/-- A stop raised to a stronger kind while it runs (R201). -/
theorem startStop_raises {k k0 : StopKind} {c : StopCause} (hstopping : (s.axis a).mot.state = .stopping) (hkind : (s.axis a).mot.stopKind = some k0)
    (hrank : k0.rank < k.rank) : ((startStop s a k c).axis a).mot.state = .stopping ∧ ((startStop s a k c).axis a).mot.stopKind = some k := by
  have hmot := dropEntry_mot (s := s) (a := a)
  unfold startStop
  rw [hstopping]
  dsimp only
  rw [if_pos (by simpa [hmot, hkind] using hrank), publishState_axis]
  split
  · rw [haltStep_mot]
    simp [hmot, hstopping]
  · simp [hmot, hstopping]

theorem startStop_now (k : StopKind) (c : StopCause) : (startStop s a k c).now = s.now := by
  have hon : OnAxis a s (startStop s a k c) := by simp
  simpa using congrArg State.now hon.rest

/-- Past STOP_TIMEOUT a RAMP_STOP or QUICK_STOP becomes a HARD_STOP with a fresh timeout (R203). -/
theorem stopTimedOut_raised (hstopping : (s.axis a).mot.state = .stopping)
    (hkind : (s.axis a).mot.stopKind = some .ramp ∨ (s.axis a).mot.stopKind = some .quick) :
    ((stopTimedOut s a).axis a).mot.state = .stopping ∧ ((stopTimedOut s a).axis a).mot.stopKind = some .hard ∧
      ((stopTimedOut s a).axis a).mot.stopStart = s.now := by
  have hraised : ∀ c, ((startStop s a .hard c).axis a).mot.state = .stopping ∧ ((startStop s a .hard c).axis a).mot.stopKind = some .hard := fun c => by
    rcases hkind with hk | hk
    · exact startStop_raises hstopping hk (by decide)
    · exact startStop_raises hstopping hk (by decide)
  obtain ⟨hstate, hhard⟩ := hraised ((s.axis a).mot.stopCause.getD .command)
  unfold stopTimedOut
  rcases hkind with hk | hk <;> simp [hk, hstate, hhard, startStop_now]

/-- Past STOP_TIMEOUT a HARD_STOP or BRAKE makes the axis FAULTED (R203). -/
theorem stopTimedOut_faulted (hstopping : (s.axis a).mot.state = .stopping)
    (hkind : (s.axis a).mot.stopKind = some .hard ∨ (s.axis a).mot.stopKind = some .brake) :
    ((stopTimedOut s a).axis a).mot.state = .faulted ∧ (stopTimedOut s a).get Ob.Ctl.FAULT_SET a = setBit (s.nat Ob.Ctl.FAULT_SET a) 15 true := by
  obtain ⟨hstate, -, hset, -⟩ := faultAtOnce_spec (s := s) (a := a) 15 (by simp [hstopping, AxState.powered])
  unfold stopTimedOut
  rcases hkind with hk | hk <;> rw [hk] <;> exact ⟨hstate, hset⟩

end Sys2Proof.Machine

open Sys2Proof Sys2Proof.Machine

/-- Settles O21: standstill by what `endStop` leaves of the axis, STOP_TIMEOUT by the kind of the stop (`stopTimedOut`). -/
theorem stopsEndAtStandstillOrTimeOut : Obligations.StopsEndAtStandstillOrTimeOut := by
  unfold Obligations.StopsEndAtStandstillOrTimeOut
  intro s a t hrun hnow hstopping m
  refine ⟨fun hstill => ?_, fun hmoving hdue => ?_⟩
  · rw [answers_iff (exec_standstill hrun hstopping hstill)]
    have hon : OnAxis a (s.at t) (endStop (s.at t) a) := by simp
    obtain ⟨haxes, hbytes⟩ := hon.kept_at
    obtain ⟨hkind, hcause, hmode, hends⟩ := endStop_spec (s := s.at t) (a := a)
    simp only [State.at_axis] at hends
    exact ⟨hkind, hcause, hmode, haxes, hbytes, hends⟩
  · rw [answers_iff (exec_stopTimeout hrun hnow hstopping hmoving hdue)]
    have hon : OnAxis a (s.at t) (stopTimedOut (s.at t) a) := by simp
    obtain ⟨haxes, hbytes⟩ := hon.kept_at
    have hraised := stopTimedOut_raised (s := s.at t) (a := a) (by simpa using hstopping)
    have hfaulted := stopTimedOut_faulted (s := s.at t) (a := a) (by simpa using hstopping)
    rw [State.at_axis, at_now_of_le hnow] at hraised
    rw [State.at_axis, State.at_nat] at hfaulted
    exact ⟨haxes, hbytes, hraised, hfaulted⟩
end

