-- ==== Sys2Proof/Proofs/ControlBits.lean ====
section
/-! CONTROL written bit by bit (R187, R188), what an edge of it brings about in the axis's next node (R191, R199, R201, Table 08-1), and O19. -/

namespace Sys2Proof.Machine

variable {s u : State} {a t k old w : Nat}

/-! ### One bit of a word -/

/-- Adding a place value that a word lacks carries nothing into the other places. -/
theorem bit_add_two_pow {n j : Nat} (h : bit n k = false) (hj : j ≠ k) : bit (n + 2 ^ k) j = bit n j := by
  rcases lt_or_gt_of_ne hj with hlt | hgt
  · simpa [bit, Nat.testBit_eq_decide_div_mod_eq, add_comm] using Nat.testBit_two_pow_add_gt hlt n
  · obtain ⟨d, rfl⟩ := Nat.exists_eq_add_of_lt hgt
    have hpow : 2 ^ (k + d + 1) = 2 ^ k * (2 * 2 ^ d) := by ring
    have hcarry : (n + 2 ^ k) / 2 ^ k = n / 2 ^ k + 1 := Nat.add_div_right n (Nat.two_pow_pos k)
    have heven : n / 2 ^ k % 2 = 0 := by simpa [bit] using h
    have hhalf : (n / 2 ^ k + 1) / 2 = n / 2 ^ k / 2 := by omega
    simp only [bit, hpow, ← Nat.div_div_eq_div_mul, hcarry, hhalf]

theorem bit_setBit_ne {n j : Nat} (b : Bool) (hj : j ≠ k) : bit (setBit n k b) j = bit n j := by
  have hsame := bit_setBit n k b
  unfold setBit at hsame ⊢
  split
  · rfl
  · next h =>
    rw [if_neg h] at hsame
    cases b with
    | true => exact bit_add_two_pow (by simpa using h) hj
    | false =>
      have hset : n / 2 ^ k % 2 = 1 := by simpa [bit] using h
      have hle : 2 ^ k ≤ n := by
        by_contra hlt
        rw [Nat.div_eq_of_lt (by omega)] at hset
        cases hset
      have hadd := bit_add_two_pow (n := n - 2 ^ k) (j := j) hsame hj
      rw [Nat.sub_add_cancel hle] at hadd
      exact hadd.symm

/-! ### CONTROL written -/

/-- What a write of CONTROL leaves: the word, the change asked of the axis's next node, all else as it was (R187, R188). -/
theorem controlWrite_spec (w : Nat) :
    let v := controlWrite (s.at t) a w
    v.get Ob.Ctl.CONTROL a = w ∧
      v.axis a = { s.axis a with mot := { (s.axis a).mot with asks := (s.axis a).mot.asks ++ [.control (s.nat Ob.Ctl.CONTROL a) w] } } ∧
      ObjectsKept [Ob.Ctl.CONTROL.key a] s v ∧ AxesKept [a] s v ∧ BytesKept s v := by
  have hon : OnAxis a (s.at t) (controlWrite (s.at t) a w) := by simp +decide [controlWrite, askAxis]
  obtain ⟨haxes, hbytes⟩ := hon.kept_at
  have hobjects : ObjectsKept [Ob.Ctl.CONTROL.key a] (s.at t) (controlWrite (s.at t) a w) :=
    fun k hk => State.set_od_ne _ _ _ _ _ _ _ (List.ne_of_not_mem_cons hk)
  exact ⟨by simp [controlWrite, askAxis], by simp [controlWrite, askAxis], objectsKept_at.1 hobjects, haxes, hbytes⟩

/-! ### CONTROL as the axis's next node finds it -/

/-- `u` is `s` with CONTROL of the axis written and nothing asked of the axis, at the instant of the command. -/
structure Controlled (a t w : Nat) (s u : State) : Prop where
  control : u.nat Ob.Ctl.CONTROL a = w
  objects : ObjectsKept [Ob.Ctl.CONTROL.key a] s u
  axis : u.axis a = s.axis a
  now : u.now = max s.now t
  wks : u.wks = s.wks
  rings : u.rings = s.rings
  ports : u.ports = s.ports
  fbs : u.fbs = s.fbs

/-- With nothing else asked, the node after a write of CONTROL judges that write alone (R187). -/
theorem judgeAsks_controlWrite (hasks : (s.axis a).mot.asks = []) (w : Nat) :
    ∃ v, judgeAsks (controlWrite (s.at t) a w) a = judgeControl v a (s.nat Ob.Ctl.CONTROL a) w ∧ Controlled a t w s v := by
  have hask : ((controlWrite (s.at t) a w).axis a).mot.asks = [.control (s.nat Ob.Ctl.CONTROL a) w] := by simp [controlWrite, askAxis, hasks]
  refine ⟨(controlWrite (s.at t) a w).modAxis a fun x => { x with mot := { x.mot with asks := [] } }, ?_, ?_⟩
  · unfold judgeAsks
    dsimp only
    rw [hask]
    rfl
  · obtain ⟨hcontrol, haxis, hobjects, -⟩ := controlWrite_spec (s := s) (a := a) (t := t) w
    exact
      { control := by simp [State.nat, hcontrol]
        objects := hobjects
        axis := by rw [State.axis_modAxis, if_pos rfl, haxis, ← hasks]
        now := by simp [controlWrite, askAxis, State.at_now]
        wks := State.at_wks s t
        rings := State.at_rings s t
        ports := State.at_ports s t
        fbs := State.at_fbs s t }

namespace Controlled

variable (h : Controlled a t w s u)
include h

theorem key_stands {o : Obj} {i j : Nat} (hk : o.key i j ≠ Ob.Ctl.CONTROL.key a) : SMap.get? u.od (o.key i j) = SMap.get? s.od (o.key i j) :=
  h.objects _ fun hm => hk (List.mem_singleton.1 hm)

omit h in
/-- CONTROL is subindex 1 of its index: every object of another subindex stands. -/
theorem key_ne {o : Obj} (ho : o.sub < 256 ∧ o.sub ≠ 1) (i j : Nat) : o.key i j ≠ Ob.Ctl.CONTROL.key a := by
  obtain ⟨hlt, hne⟩ := ho
  simp only [Obj.key, Ob.Ctl.CONTROL]
  omega

theorem get {o : Obj} (ho : o.sub < 256 ∧ o.sub ≠ 1) (i j : Nat) : u.get o i j = s.get o i j := get_congr (h.key_stands (key_ne ho i j))

theorem nat {o : Obj} (ho : o.sub < 256 ∧ o.sub ≠ 1) (i j : Nat) : u.nat o i j = s.nat o i j := by rw [State.nat, h.get ho, State.nat]

/-- Every other object of the axis's block stands. -/
theorem get_beside {o : Obj} (hst : o.st1 = 0x40) (hne : o.base * 256 + o.sub ≠ 0x400101) : u.get o a = s.get o a :=
  get_congr (h.key_stands (Obj.key_ne_of_stride hst hne a))

theorem nat_beside {o : Obj} (hst : o.st1 = 0x40) (hne : o.base * 256 + o.sub ≠ 0x400101) : u.nat o a = s.nat o a := by
  rw [State.nat, h.get_beside hst hne, State.nat]

theorem function (p : Nat) : u.get Ob.Port.FUNCTION p = s.get Ob.Port.FUNCTION p :=
  get_congr (h.key_stands (by simp only [Obj.key, Ob.Port.FUNCTION, Ob.Ctl.CONTROL]; omega))

theorem wk (r p : Nat) : u.wk r p = s.wk r p := by rw [State.wk, h.wks, State.wk]
theorem ring (r : Nat) : u.ring r = s.ring r := by rw [State.ring, h.rings, State.ring]
theorem port (p : Nat) : u.port p = s.port p := by rw [State.port, h.ports, State.port]
theorem fbu (x : Nat) : u.fbu x = s.fbu x := by rw [State.fbu, h.fbs, State.fbu]

/-! What the conditions of the edges rest on stands. -/

theorem layout (r p c : Nat) : u.layout r p c = s.layout r p c := by rw [State.layout, h.nat (by decide), State.layout]

theorem ioSize (r sc p c : Nat) : u.ioSize r sc p c = s.ioSize r sc p c := by
  have hbytes : u.bytes Ob.Sched.IO_SIZES r sc = s.bytes Ob.Sched.IO_SIZES r sc := by
    simp only [State.bytes, h.key_stands (key_ne (o := Ob.Sched.IO_SIZES) (by decide) r sc)]
  simp only [State.ioSize, hbytes]

theorem chanSize (r sc p c : Nat) : u.chanSize r sc p c = s.chanSize r sc p c := by simp only [State.chanSize, h.layout, h.ioSize]
theorem chanBase (r sc p c : Nat) : u.chanBase r sc p c = s.chanBase r sc p c := by simp only [State.chanBase, h.chanSize]

theorem kindOf : u.kindOf a = s.kindOf a := by
  simp +decide only [State.kindOf, h.get_beside, h.nat_beside, h.function, h.layout]

theorem chanStatus : chanStatus u a = Machine.chanStatus s a := by
  simp +decide only [Machine.chanStatus, chanUp, h.kindOf, h.chanBase, h.chanSize, h.wk, h.nat_beside]

theorem armConditions : armConditions u a = Machine.armConditions s a := by
  simp +decide only [Machine.armConditions, h.kindOf, h.chanStatus, h.get]

theorem allClearable : allClearable u a = Machine.allClearable s a := by
  have hclearable (c : Nat) : faultClearable u a c = faultClearable s a c := by
    simp +decide only [faultClearable, axisWorker, State.inPlay, h.axis, h.wk, h.ring, h.port, h.fbu, h.chanStatus, h.get, h.get_beside, h.nat_beside]
  simp +decide only [Machine.allClearable, hclearable, h.nat]

end Controlled

/-! ### The edges -/

theorem judgeControl_enable (h : bit old 0 = false) : judgeControl s a old (setBit old 0 true) = jogUpdate (enableLevel s a true) a := by
  simp [judgeControl, bit_setBit, bit_setBit_ne, h]
theorem judgeControl_stop (h : bit old 1 = false) : judgeControl s a old (setBit old 1 true) = jogUpdate (startStop s a .ramp .command) a := by
  simp [judgeControl, bit_setBit, bit_setBit_ne, h]
theorem judgeControl_qstop (h : bit old 2 = false) : judgeControl s a old (setBit old 2 true) = jogUpdate (startStop s a .quick .command) a := by
  simp [judgeControl, bit_setBit, bit_setBit_ne, h]
theorem judgeControl_hstop (h : bit old 3 = false) : judgeControl s a old (setBit old 3 true) = jogUpdate (startStop s a .hard .command) a := by
  simp [judgeControl, bit_setBit, bit_setBit_ne, h]
theorem judgeControl_faultReset (h : bit old 4 = false) : judgeControl s a old (setBit old 4 true) = jogUpdate (resetFaults s a) a := by
  simp [judgeControl, bit_setBit, bit_setBit_ne, h]
theorem judgeControl_jog (hk : k = 5 ∨ k = 6) : judgeControl s a old (setBit old k true) = jogUpdate s a := by
  rcases hk with rfl | rfl <;> simp [judgeControl, bit_setBit_ne]

theorem jogUpdate_of_not_enabled (h : (s.axis a).mot.state ≠ .enabled) : jogUpdate s a = s := by simp [jogUpdate, h]

/-- An enabled request on a DISABLED axis whose conditions hold (Table 08-1). -/
theorem enableLevel_arms (hstate : (s.axis a).mot.state = .disabled) (hseen : (s.axis a).mot.enableSeen0 = true) (hcond : armConditions s a = true)
    (hbit : bit (s.nat Ob.Ctl.CONTROL a) 0 = true) : enableLevel s a true = enterArming s a := by
  simp [enableLevel, tryArm, hstate, hseen, hcond, hbit]

theorem armPort_axis (x : Nat) : (armPort s a).axis x = s.axis x := by
  unfold armPort
  split <;> rfl

theorem enterArming_spec :
    ((enterArming s a).axis a).mot.state = .arming ∧ ((enterArming s a).axis a).mot.armAt = s.now ∧ ((enterArming s a).axis a).flags.power = true := by
  unfold enterArming
  dsimp only
  rw [publishState_axis, armPort_axis]
  split <;> simp

/-- A stop starts on an ENABLED axis (R200, R201). -/
theorem startStop_starts (k : StopKind) (c : StopCause) (henabled : (s.axis a).mot.state = .enabled) :
    ((startStop s a k c).axis a).mot.state = .stopping ∧ ((startStop s a k c).axis a).mot.stopKind = some k ∧
      ((startStop s a k c).axis a).mot.stopCause = some c := by
  have hhomed (v : State) (p : Prop) [Decidable p] : (if p then v.set Ob.Home.HOME_STATE 5 a else v).axis a = v.axis a := by split <;> rfl
  unfold startStop
  rw [henabled]
  dsimp only
  rw [publishState_axis]
  split
  · rw [haltStep_mot, hhomed]
    simp
  · rw [hhomed]
    simp

theorem resetFaults_spec (hstate : (s.axis a).mot.state = .faulted) (hclear : allClearable s a = true) :
    ((resetFaults s a).axis a).mot.state = .disabled ∧ (resetFaults s a).get Ob.Ctl.FAULT_SET a = 0 ∧ (resetFaults s a).get Ob.Ctl.FAULT_CODE a = 0 := by
  unfold resetFaults
  rw [if_pos ⟨.inl hstate, hclear⟩]
  dsimp only
  rw [publishState_axis, publishState_faultSet, publishState_faultCode]
  simp +decide

/-- The jog that JOG_POS and JOG_NEG ask for (R199). -/
def jogAsked (w : Nat) : Int := if bit w 5 && !bit w 6 then 1 else if bit w 6 && !bit w 5 then -1 else 0

/-- An axis in HOLD takes up the jog that is asked for (R199). -/
theorem jogUpdate_starts (henabled : (s.axis a).mot.state = .enabled) (hmode : (s.axis a).mot.mode = 0) (hjog : (s.axis a).mot.jog = 0)
    (hstop : s.get Ob.Mach.STOP_ACTIVE = 0) (hasked : jogAsked (s.nat Ob.Ctl.CONTROL a) ≠ 0) :
    ((jogUpdate s a).axis a).mot.jog = jogAsked (s.nat Ob.Ctl.CONTROL a) ∧ ((jogUpdate s a).axis a).mot.mode = 7 := by
  have hwant : (if s.get Ob.Mach.STOP_ACTIVE ≠ 0 then 0 else jogAsked (s.nat Ob.Ctl.CONTROL a)) = jogAsked (s.nat Ob.Ctl.CONTROL a) := if_neg (not_not.2 hstop)
  rw [jogAsked] at hwant
  unfold jogUpdate
  dsimp only
  rw [hwant, ← jogAsked, if_neg (by simp [henabled, hjog, hasked]), if_pos (.inr (.inl hmode)), publishState_axis]
  simp

theorem jogAsked_pos (h6 : bit old 6 = false) : jogAsked (setBit old 5 true) = 1 := by simp [jogAsked, bit_setBit, bit_setBit_ne, h6]
theorem jogAsked_neg (h5 : bit old 5 = false) : jogAsked (setBit old 6 true) = -1 := by simp [jogAsked, bit_setBit, bit_setBit_ne, h5]

/-! ### The commands that write one bit of CONTROL -/

variable {c : Instr} {v : Bool}

/-- A command that writes bit `k` of CONTROL (R188). -/
theorem exec_controlBit (hrun : unitRuns s = true) (hmeans : exec c s = whileOn s t (.next (controlBit (s.at t) a k v))) :
    exec c s = .next (controlWrite (s.at t) a (setBit (s.nat Ob.Ctl.CONTROL a) k v)) := by
  rw [hmeans, whileOn_runs hrun, controlBit, State.at_nat]

theorem controlBit_writes (hrun : unitRuns s = true) (hmeans : exec c s = whileOn s t (.next (controlBit (s.at t) a k v))) :
    Answers c s fun u => u.get Ob.Ctl.CONTROL a = setBit (s.nat Ob.Ctl.CONTROL a) k v ∧
      u.axis a = { s.axis a with mot := { (s.axis a).mot with
        asks := (s.axis a).mot.asks ++ [.control (s.nat Ob.Ctl.CONTROL a) (setBit (s.nat Ob.Ctl.CONTROL a) k v)] } } ∧
      ObjectsKept [Ob.Ctl.CONTROL.key a] s u ∧ AxesKept [a] s u ∧ BytesKept s u := by
  rw [answers_iff (exec_controlBit hrun hmeans)]
  exact controlWrite_spec _

/-- What the next node of an axis of which nothing else is asked makes of a command's write of CONTROL (R187). -/
theorem controlBit_judged (hrun : unitRuns s = true) (hasks : (s.axis a).mot.asks = []) (hmeans : exec c s = whileOn s t (.next (controlBit (s.at t) a k v)))
    {P : AxisRt → State → Prop} (h : ∀ u, Controlled a t (setBit (s.nat Ob.Ctl.CONTROL a) k v) s u →
      P ((judgeControl u a (s.nat Ob.Ctl.CONTROL a) (setBit (s.nat Ob.Ctl.CONTROL a) k v)).axis a)
        (judgeControl u a (s.nat Ob.Ctl.CONTROL a) (setBit (s.nat Ob.Ctl.CONTROL a) k v))) :
    Answers c s fun u => P ((judgeAsks u a).axis a) (judgeAsks u a) := by
  rw [answers_iff (exec_controlBit hrun hmeans)]
  obtain ⟨u, hjudged, hu⟩ := judgeAsks_controlWrite (t := t) hasks (setBit (s.nat Ob.Ctl.CONTROL a) k v)
  rw [hjudged]
  exact h u hu

namespace Controlled

/-- ENABLE in the next node of a DISABLED axis whose conditions hold (R187, Table 08-1). -/
theorem enabled (h : Controlled a t (setBit old 0 true) s u) (hrise : bit old 0 = false) (hstate : (s.axis a).mot.state = .disabled)
    (hseen : (s.axis a).mot.enableSeen0 = true) (hcond : Machine.armConditions s a = true) :
    let x := (judgeControl u a old (setBit old 0 true)).axis a
    x.mot.state = .arming ∧ x.mot.armAt = max s.now t ∧ x.flags.power = true := by
  rw [← h.axis] at hstate hseen
  rw [← h.armConditions] at hcond
  obtain ⟨harming, hat, hpower⟩ := enterArming_spec (s := u) (a := a)
  rw [h.now] at hat
  rw [judgeControl_enable hrise, enableLevel_arms hstate hseen hcond (by rw [h.control, bit_setBit]), jogUpdate_of_not_enabled (by simp [harming])]
  exact ⟨harming, hat, hpower⟩

/-- A stop started in the next node of an ENABLED axis (R201). -/
theorem stopped (h : Controlled a t w s u) {kind : StopKind} (hjudge : judgeControl u a old w = jogUpdate (startStop u a kind .command) a)
    (hstate : (s.axis a).mot.state = .enabled) :
    let x := (judgeControl u a old w).axis a
    x.mot.state = .stopping ∧ x.mot.stopKind = some kind ∧ x.mot.stopCause = some .command := by
  rw [← h.axis] at hstate
  have hstops := startStop_starts kind .command hstate
  rw [hjudge, jogUpdate_of_not_enabled (by simp [hstops.1])]
  exact hstops

/-- FAULT_RESET in the next node of a FAULTED axis whose faults may be reset (R191). -/
theorem reset (h : Controlled a t (setBit old 4 true) s u) (hrise : bit old 4 = false) (hstate : (s.axis a).mot.state = .faulted)
    (hclear : Machine.allClearable s a = true) :
    let r := judgeControl u a old (setBit old 4 true)
    (r.axis a).mot.state = .disabled ∧ r.get Ob.Ctl.FAULT_SET a = 0 ∧ r.get Ob.Ctl.FAULT_CODE a = 0 := by
  rw [← h.axis] at hstate
  rw [← h.allClearable] at hclear
  have hreset := resetFaults_spec hstate hclear
  rw [judgeControl_faultReset hrise, jogUpdate_of_not_enabled (by simp [hreset.1])]
  exact hreset

/-- A jog bit in the next node of an axis in HOLD (R199). -/
theorem jogs (h : Controlled a t (setBit old k true) s u) (hk : k = 5 ∨ k = 6) {dir : Int} (hasked : jogAsked (setBit old k true) = dir) (hdir : dir ≠ 0)
    (hstate : (s.axis a).mot.state = .enabled) (hmode : (s.axis a).mot.mode = 0) (hjog : (s.axis a).mot.jog = 0) (hstop : s.get Ob.Mach.STOP_ACTIVE = 0) :
    let x := (judgeControl u a old (setBit old k true)).axis a
    x.mot.jog = dir ∧ x.mot.mode = 7 := by
  rw [← h.axis] at hstate hmode hjog
  have hstarts := jogUpdate_starts hstate hmode hjog ((h.get (by decide) 0 0).trans hstop) (by rw [h.control, hasked]; exact hdir)
  rw [h.control, hasked] at hstarts
  rw [judgeControl_jog hk]
  exact hstarts

end Controlled

end Sys2Proof.Machine

open Sys2Proof Sys2Proof.Machine

/-- Settles O19: the seven writes are one operation (`controlWrite`); each edge is judged in a state that differs from the old one in CONTROL and time alone
(`Controlled`), on which none of its conditions rests. -/
theorem controlWritesAndEdges : Obligations.ControlWritesAndEdges := by
  unfold Obligations.ControlWritesAndEdges
  refine ⟨fun s a t on hrun => ?_, fun s a t hrun hasks => ?_⟩
  · exact ⟨controlBit_writes hrun rfl, controlBit_writes hrun rfl, controlBit_writes hrun rfl, controlBit_writes hrun rfl, controlBit_writes hrun rfl,
      controlBit_writes hrun rfl, controlBit_writes hrun rfl⟩
  · intro st old then_
    have hthen {c : Instr} {k : Nat} (hmeans : exec c s = whileOn s t (.next (controlBit (s.at t) a k true))) (P : AxisRt → State → Prop)
        (h : ∀ u, Controlled a t (setBit old k true) s u → P ((judgeControl u a old (setBit old k true)).axis a) (judgeControl u a old (setBit old k true))) :
        then_ c P := controlBit_judged hrun hasks hmeans h
    clear_value then_
    refine ⟨fun hrise hst hseen hcond => ?_, fun hrise hst => ?_, fun hrise hst => ?_, fun hrise hst => ?_, fun hrise hst hclear => ?_,
      fun h5 h6 hst hmode hjog hstop => ⟨?_, ?_⟩⟩
    · exact hthen rfl _ fun u hu => hu.enabled hrise hst hseen hcond
    · exact hthen rfl _ fun u hu => hu.stopped (judgeControl_stop hrise) hst
    · exact hthen rfl _ fun u hu => hu.stopped (judgeControl_qstop hrise) hst
    · exact hthen rfl _ fun u hu => hu.stopped (judgeControl_hstop hrise) hst
    · exact hthen rfl _ fun u hu => hu.reset hrise hst hclear
    · exact hthen rfl _ fun u hu => hu.jogs (.inl rfl) (jogAsked_pos h6) (by decide) hst hmode hjog hstop
    · exact hthen rfl _ fun u hu => hu.jogs (.inr rfl) (jogAsked_neg h5) (by decide) hst hmode hjog hstop
end

