-- ==== Sys2Proof/Proofs/HomingTimeout.lean ====
section
/-! HOME_TIMEOUT of a homing in its final stop (R214, R216), and O23. -/

namespace Sys2Proof.Machine

/-- A homing that has found its home position and is in its final stop (phase 7) runs into no timeout (R216). -/
theorem exec_homeTimeout_of_found {s : State} {a : Nat} (hrun : unitRuns s = true) (hfound : (s.axis a).mot.home.phase = 7) (t : Nat) :
    exec (.homeTimeout a t) s = .next (s.at t) := by
  refine (whileOn_runs hrun).trans ?_
  simp [hfound]

/-- Axis 0 ENABLED in the mode HOMING, in the final stop of its homing, with HOME_STATE DONE. -/
def homeFound : State :=
  { State.reset.set Ob.Home.HOME_STATE 4 with axes := [(0, { mot := { state := .enabled, mode := 6, home := { phase := 7 } } })] }

end Sys2Proof.Machine

open Sys2Proof Sys2Proof.Machine

/-- Refutes O23: a homing in its final stop (phase 7) is still in the mode HOMING of an ENABLED axis, but HOME_TIMEOUT after its start it no longer fails, and
the statement's clause of the timeout does not exclude it. -/
theorem not_mastersLimitsAndHoming : ¬ Obligations.MastersLimitsAndHoming := by
  unfold Obligations.MastersLimitsAndHoming
  intro h
  obtain ⟨-, hlimits⟩ := h
  obtain ⟨-, htimeout⟩ := hlimits homeFound 0 60000000000 true (by decide +kernel) (by decide +kernel)
  have hfails := htimeout (by decide +kernel) (by decide +kernel) (by decide +kernel)
  rw [answers_iff (exec_homeTimeout_of_found (by decide +kernel) (by decide +kernel) _), State.at_get] at hfails
  exact absurd hfails.1 (by decide +kernel)
end

