-- ==== Sys2Proof/Proofs/MachineStop.lean ====
section
/-! The machine stop requested and cleared (R205, R206), and O22. -/

namespace Sys2Proof.Machine

variable {s u v : State} {sess level t n a k : Nat} {dec : Obj}

theorem forBelow_succ (n : Nat) (f : Nat → State → State) (s : State) : forBelow (n + 1) f s = f n (forBelow n f s) := by simp [forBelow, List.range_succ]

/-! ### What the stop of masters and axes leaves -/

/-- `u` differs from `s` at most in the masters and the axes. -/
def InMotion (s u : State) : Prop := { u with msts := s.msts, axes := s.axes } = s

theorem InMotion.refl : InMotion s s := rfl

theorem InMotion.trans (h : InMotion s u) (g : InMotion u v) : InMotion s v := by
  unfold InMotion at h g ⊢
  rw [← g] at h
  exact h

theorem InMotion.od (h : InMotion s u) : u.od = s.od := by simpa using congrArg State.od h
theorem InMotion.get (h : InMotion s u) (o : Obj) (i j k : Nat) : u.get o i j k = s.get o i j k := get_congr (by rw [h.od])

theorem InMotion.bytesKept (h : InMotion s u) : BytesKept s u := by
  have hshared : u.shared = s.shared := by simpa using congrArg State.shared h
  have hucode : u.ucode = s.ucode := by simpa using congrArg State.ucode h
  have haces : u.aces = s.aces := by simpa using congrArg State.aces h
  intro x
  simp only [State.ace, hshared, hucode, haces]
  exact ⟨trivial, trivial, fun _ => trivial⟩

theorem InMotion.forBelow {f : Nat → State → State} (hf : ∀ i u, InMotion u (f i u)) (n : Nat) : InMotion s (forBelow n f s) :=
  forBelow_keeps n f s .refl fun i u hu => hu.trans (hf i u)

/-! ### The virtual masters (R205) -/

/-- What `rampMasters` does to one master. -/
def rampMaster (dec : Obj) (k : Nat) (s : State) : State :=
  let m := { s.master k with stopped := true }
  s.setMaster k (if s.get Ob.Mst.TYPE k = 1 then { m with replan := some (wholeMs (s.now + 1000000), 0, s.get dec k, s.get Ob.Mst.VM_JERK k) } else m)

theorem rampMasters_eq : rampMasters s dec = forBelow 8 (rampMaster dec) s := rfl

theorem rampMaster_inMotion (k : Nat) (u : State) : InMotion u (rampMaster dec k u) := rfl

theorem rampMasters_axis : (rampMasters s dec).axis a = s.axis a := by
  rw [rampMasters_eq]
  exact forBelow_keeps (P := fun u => u.axis a = s.axis a) 8 _ s rfl fun _ _ hu => hu

/-- A virtual master on its way to rest: a replan towards velocity 0 is due. -/
def ToRest (k : Nat) (s : State) : Prop := ∃ t0 d j, (s.master k).replan = some (t0, 0, d, j)

theorem rampMaster_toRest (htype : s.get Ob.Mst.TYPE k = 1) : ToRest k (rampMaster dec k s) :=
  ⟨wholeMs (s.now + 1000000), s.get dec k, s.get Ob.Mst.VM_JERK k, by simp [rampMaster, htype]⟩

theorem rampMaster_master_ne {q : Nat} (hq : q ≠ k) : (rampMaster dec k s).master q = s.master q := by simp [rampMaster, hq]

/-- Every virtual master of those ramped is on its way to rest. -/
theorem forBelow_rampMaster_toRest (hk : k < n) (htype : s.get Ob.Mst.TYPE k = 1) : ToRest k (forBelow n (rampMaster dec) s) := by
  induction n with
  | zero => cases hk
  | succ n ih =>
    rw [forBelow_succ]
    by_cases hkn : k = n
    · subst hkn
      exact rampMaster_toRest (((InMotion.forBelow rampMaster_inMotion k).get ..).trans htype)
    · rw [ToRest, rampMaster_master_ne hkn]
      exact ih (by omega)

/-! ### The axes (R205) -/

/-- What a machine stop does to one axis: it is asked of the axis's next node. -/
def askStop (level a : Nat) (s : State) : State := if (s.axis a).mot.state = .disabled then s else askAxis s a (.machine level)

theorem askStop_inMotion (level a : Nat) (u : State) : InMotion u (askStop level a u) := by
  unfold askStop
  split <;> rfl

theorem askStop_master {q : Nat} : (askStop level a s).master q = s.master q := by
  unfold askStop
  split <;> rfl

/-- An axis of which a machine stop is asked unless it is DISABLED. -/
def stopAsked (level : Nat) (x : AxisRt) : AxisRt :=
  if x.mot.state = .disabled then x else { x with mot := { x.mot with asks := x.mot.asks ++ [.machine level] } }

theorem askStop_axis (x : Nat) : (askStop level a s).axis x = if x = a then stopAsked level (s.axis a) else s.axis x := by
  unfold askStop askAxis stopAsked
  split
  · by_cases hx : x = a <;> simp [hx]
  · exact State.axis_modAxis s a x _

theorem forBelow_askStop_axis (n a : Nat) : (forBelow n (askStop level) s).axis a = if a < n then stopAsked level (s.axis a) else s.axis a := by
  induction n with
  | zero => rfl
  | succ n ih =>
    rw [forBelow_succ, askStop_axis]
    by_cases han : a = n
    · subst han
      rw [if_pos rfl, ih, if_neg (lt_irrefl a), if_pos (Nat.lt_succ_self a)]
    · rw [if_neg han, ih]
      by_cases hlt : a < n
      · rw [if_pos hlt, if_pos (by omega)]
      · rw [if_neg hlt, if_neg (by omega)]

/-! ### STOP_REQUEST -/

/-- STOP_ACTIVE raised and the stop counted, the session of the first recorded (R205). -/
def stopCounted (s : State) (sess level : Nat) : State :=
  ((if s.get Ob.Mach.STOP_ACTIVE = 0 then s.set Ob.Mach.STOP_SESSION sess else s).set Ob.Mach.STOP_ACTIVE level).count Ob.Mach.STOP_COUNT

/-- The deceleration of virtual masters in a machine stop of a level (R205). -/
def stopDec (level : Nat) : Obj := if (level : Int) = 1 then Ob.Mst.VM_STOP_DEC else Ob.Mst.VM_QSTOP_DEC

/-- What a machine stop of a higher level leaves. -/
def stopRaised (s : State) (sess level : Nat) : State := forBelow 256 (askStop level) (rampMasters (stopCounted s sess level) (stopDec level))

theorem stopRequest_raises (hlo : 1 ≤ level) (hhi : level ≤ 3) (habove : s.get Ob.Mach.STOP_ACTIVE < level) :
    stopRequest s sess level = (stopRaised s sess level, stOk) := by
  unfold stopRequest
  rw [if_neg (by omega), if_neg (by omega)]
  rfl

/-- Objects that a machine stop writes. -/
def stopKeys : List Nat := [Ob.Mach.STOP_ACTIVE.key, Ob.Mach.STOP_COUNT.key, Ob.Mach.STOP_SESSION.key]

theorem stopCounted_spec :
    let c := stopCounted s sess level
    c.get Ob.Mach.STOP_ACTIVE = level ∧ c.get Ob.Mach.STOP_COUNT = satInc 32 (s.get Ob.Mach.STOP_COUNT) ∧
      (s.get Ob.Mach.STOP_ACTIVE = 0 → c.get Ob.Mach.STOP_SESSION = sess) ∧ Timing stopKeys s c := by
  have hframe : Timing stopKeys s (stopCounted s sess level) := by
    unfold stopCounted
    split <;> simp +decide [stopKeys]
  unfold stopCounted State.count at hframe ⊢
  by_cases hfirst : s.get Ob.Mach.STOP_ACTIVE = 0
  · rw [if_pos hfirst] at hframe ⊢
    exact ⟨by simp +decide, by simp +decide [Ty.bits, Ob.Mach.STOP_COUNT], fun _ => by simp +decide, hframe⟩
  · rw [if_neg hfirst] at hframe ⊢
    exact ⟨by simp +decide, by simp +decide [Ty.bits, Ob.Mach.STOP_COUNT], fun h => absurd h hfirst, hframe⟩

theorem type_not_mem_stopKeys : ∀ k < 8, Ob.Mst.TYPE.key k ∉ stopKeys := by decide

theorem BytesKept.trans (h : BytesKept s u) (g : BytesKept u v) : BytesKept s v := fun x => by
  obtain ⟨hshared, hucode, haces⟩ := h x
  obtain ⟨gshared, gucode, gaces⟩ := g x
  exact ⟨gshared.trans hshared, gucode.trans hucode, fun e => (gaces e).trans (haces e)⟩

theorem stopRaised_inMotion : InMotion (stopCounted s sess level) (stopRaised s sess level) :=
  .trans (.forBelow rampMaster_inMotion 8) (.forBelow (askStop_inMotion level) 256)

/-- A machine stop of a higher level sets every virtual master on its way to rest (R205). -/
theorem stopRaised_toRest (hk : k < 8) (htype : s.get Ob.Mst.TYPE k = 1) : ToRest k (stopRaised s sess level) := by
  obtain ⟨-, -, -, hcounted⟩ := stopCounted_spec (s := s) (sess := sess) (level := level)
  have htype' : (stopCounted s sess level).get Ob.Mst.TYPE k = 1 := (get_congr (hcounted.od _ (type_not_mem_stopKeys k hk))).trans htype
  have hrest := forBelow_rampMaster_toRest (dec := stopDec level) hk htype'
  exact forBelow_keeps (P := ToRest k) 256 (askStop level) _ hrest fun i u hu => by
    rw [ToRest, askStop_master]
    exact hu

/-- It is asked of every axis that is not DISABLED (R205). -/
theorem stopRaised_axis : (stopRaised s sess level).axis a = if a < 256 then stopAsked level (s.axis a) else s.axis a := by
  obtain ⟨-, -, -, hcounted⟩ := stopCounted_spec (s := s) (sess := sess) (level := level)
  rw [stopRaised, forBelow_askStop_axis, rampMasters_axis, hcounted.axis]

/-- What it shows, and what it leaves of the objects and of all bytes. -/
theorem stopRaised_spec :
    let u := stopRaised s sess level
    u.get Ob.Mach.STOP_ACTIVE = level ∧ u.get Ob.Mach.STOP_COUNT = satInc 32 (s.get Ob.Mach.STOP_COUNT) ∧
      (s.get Ob.Mach.STOP_ACTIVE = 0 → u.get Ob.Mach.STOP_SESSION = sess) ∧ ObjectsKept stopKeys s u ∧ BytesKept s u := by
  obtain ⟨hactive, hcount, hsession, hcounted⟩ := stopCounted_spec (s := s) (sess := sess) (level := level)
  have hmotion := stopRaised_inMotion (s := s) (sess := sess) (level := level)
  have hget (o : Obj) : (stopRaised s sess level).get o = (stopCounted s sess level).get o := hmotion.get o 0 0 0
  exact ⟨(hget _).trans hactive, (hget _).trans hcount, fun hzero => (hget _).trans (hsession hzero), fun k hk => by rw [hmotion.od, hcounted.od k hk],
    hcounted.bytesKept.trans hmotion.bytesKept⟩

/-! ### STOP_REQUEST as an object -/

theorem lookup_stopRequest : lookup Ob.Mach.STOP_REQUEST.base Ob.Mach.STOP_REQUEST.sub = .inl Ob.Mach.STOP_REQUEST := by decide +kernel

theorem stopRequest_inRange : ∀ v : Nat, v < 4 → 1 ≤ v →
    valOf Ob.Mach.STOP_REQUEST.ty (valBytes Ob.Mach.STOP_REQUEST.ty (.num v)) = some (.num v) ∧ rangeStatus Ob.Mach.STOP_REQUEST (.num v) = stOk := by
  decide +kernel

theorem writeNow_stopRequest (x : Int) (i k : Nat) :
    writeNow s sess Ob.Mach.STOP_REQUEST Ob.Mach.STOP_REQUEST.key i k (.num x) = kept Ob.Mach.STOP_REQUEST x (stopRequest s sess x) := rfl

theorem writeEntry_stopRequest (hlo : 1 ≤ level) (hhi : level ≤ 3) (habove : s.get Ob.Mach.STOP_ACTIVE < level) :
    writeEntry s sess (numberEntry Ob.Mach.STOP_REQUEST level) = ((stopRaised s sess level).set Ob.Mach.STOP_REQUEST level, stOk) := by
  obtain ⟨hvalue, hrange⟩ := stopRequest_inRange level (by omega) hlo
  have hopen : OpenTo (numberEntry Ob.Mach.STOP_REQUEST level) Ob.Mach.STOP_REQUEST (.num level) := ⟨lookup_stopRequest, rfl, rfl, rfl, hvalue, hrange⟩
  rw [writeEntry_of_any hopen, numberEntry_key, writeNow_stopRequest, stopRequest_raises hlo hhi habove, kept_ok]

/-- A machine stop requested by an open session (R205). -/
theorem stopRequest_spec (h : SessionWrites s sess) (hlo : 1 ≤ level) (hhi : level ≤ 3) (habove : s.get Ob.Mach.STOP_ACTIVE < level) :
    Answers (.stopRequest sess level t) s fun u => u.out.head? = some (.reply 0xFF 0 stOk []) ∧ u.get Ob.Mach.STOP_REQUEST = level ∧
      u.get Ob.Mach.STOP_ACTIVE = level ∧ u.get Ob.Mach.STOP_COUNT = satInc 32 (s.get Ob.Mach.STOP_COUNT) ∧
      (s.get Ob.Mach.STOP_ACTIVE = 0 → u.get Ob.Mach.STOP_SESSION = sess) ∧
      (∀ a, u.axis a = if a < 256 then stopAsked level (s.axis a) else s.axis a) ∧ (∀ k < 8, s.get Ob.Mst.TYPE k = 1 → ToRest k u) ∧ BytesKept s u := by
  have ⟨_, hopen, _, hpair⟩ := h
  have hget {o : Obj} {i : Nat} (ho : o.key i / 256 < 0x1110 ∨ 0x1120 ≤ o.key i / 256) : (renewed (s.at t) sess).get o i = s.get o i :=
    (renewed_get ho (sessOpen_lt hopen)).trans (State.at_get ..)
  have hentry := writeEntry_stopRequest (s := renewed (s.at t) sess) (sess := sess) hlo hhi (by rwa [hget (by decide)])
  have haxis (a : Nat) := stopRaised_axis (s := renewed (s.at t) sess) (sess := sess) (level := level) (a := a)
  have hrest (k : Nat) (hk : k < 8) (htype : s.get Ob.Mst.TYPE k = 1) : ToRest k (stopRaised (renewed (s.at t) sess) sess level) :=
    stopRaised_toRest hk ((hget (by simp only [Obj.key, Ob.Mst.TYPE]; omega)).trans htype)
  obtain ⟨hactive, hcount, hsession, hobjects, hbytes⟩ := stopRaised_spec (s := renewed (s.at t) sess) (sess := sess) (level := level)
  rw [hget (by decide)] at hcount hsession
  have hfrom : BytesKept s (renewed (s.at t) sess) := by simp [BytesKept, renewed]
  have hbefore (a : Nat) : (renewed (s.at t) sess).axis a = s.axis a := State.at_axis s t a
  have hunpaired : (renewed (s.at t) sess).flag Ob.PairC.PAIR_ENABLE = false := by rw [State.flag, hget (by decide)]; exact hpair
  generalize stopRaised (renewed (s.at t) sess) sess level = w at *
  have hunpaired' : (w.set Ob.Mach.STOP_REQUEST level).flag Ob.PairC.PAIR_ENABLE = false :=
    (flag_congr ((State.set_od_ne _ _ _ _ _ _ _ (by decide)).trans (hobjects _ (by decide)))).trans hunpaired
  rw [answers_iff (exec_objectWrite h rfl hentry hunpaired')]
  refine ⟨rfl, by simp, ?_, ?_, fun hzero => ?_, fun a => (haxis a).trans (by rw [hbefore]), hrest, hfrom.trans hbytes⟩
  · simp +decide [hactive]
  · simp +decide [hcount]
  · simp +decide [hsession hzero]

/-! ### STOP_CLEAR -/

/-- No axis is still stopping for the machine stop. -/
def NoneStopping (s : State) : Prop := ∀ a, a < 256 → ¬((s.axis a).mot.state = .stopping ∧ (s.axis a).mot.stopCause = some .machineStop)

theorem exec_stopClear (hrun : unitRuns s = true) (h : NoneStopping s) : exec (.stopClear t) s =
    .next (((((s.at t).set Ob.Mach.STOP_ACTIVE 0).set Ob.Mach.STOP_SESSION 0xFF).set Ob.Mach.STOP_CLEAR 1).emit (.reply 0xFF 0 stOk [])) := by
  have hclear : stopClear (s.at t) = (((s.at t).set Ob.Mach.STOP_ACTIVE 0).set Ob.Mach.STOP_SESSION 0xFF, stOk) := by
    refine if_neg ?_
    simpa [NoneStopping] using h
  refine (whileOn_runs hrun).trans ?_
  rw [hclear]
  rfl

end Sys2Proof.Machine

open Sys2Proof Sys2Proof.Machine

/-- Settles O22: the request by what is counted, what the masters and what the axes take up (`InMotion`), the clearing by the three objects it writes. -/
theorem machineStopIsRequestedAndCleared : Obligations.MachineStopIsRequestedAndCleared := by
  unfold Obligations.MachineStopIsRequestedAndCleared
  intro s sess v t hlo hhi hwrites
  refine ⟨fun habove => ?_, fun hnone => ?_⟩
  · obtain ⟨u, hu, hreply, hrequest, hactive, hcount, hsession, haxes, hmasters, hbytes⟩ := stopRequest_spec (t := t) hwrites hlo hhi habove
    refine ⟨u, hu, hreply, hrequest, hactive, hcount, hsession, fun a ha hst => ?_, fun a hst => ?_, hmasters, hbytes⟩
    · rw [haxes, if_pos ha, stopAsked, if_neg hst]
    · rw [haxes, stopAsked, if_pos hst, ite_self]
  · obtain ⟨hrun, -⟩ := hwrites
    rw [answers_iff (exec_stopClear hrun hnone)]
    refine ⟨by simp +decide, by simp +decide, ?_⟩
    have hframe : Timing [Ob.Mach.STOP_ACTIVE.key, Ob.Mach.STOP_SESSION.key, Ob.Mach.STOP_CLEAR.key] s
        (((((s.at t).set Ob.Mach.STOP_ACTIVE 0).set Ob.Mach.STOP_SESSION 0xFF).set Ob.Mach.STOP_CLEAR 1).emit (.reply 0xFF 0 stOk [])) := by simp +decide
    exact ⟨hframe.od, hframe.axis, hframe.bytesKept⟩
end

