-- ==== Sys2Proof/Proofs/CompareFrame.lean ====
section
/-! What compare units, and latch events that are entered, leave unchanged: the feedback and latch units with their objects, the axes and all memories. -/

namespace Sys2Proof.Machine

theorem BytesKept.refl {s : State} : BytesKept s s := fun _ => ⟨rfl, rfl, fun _ => rfl⟩

theorem BytesKept.symm {s u : State} (h : BytesKept s u) : BytesKept u s := fun x => by
  obtain ⟨hshared, hucode, haces⟩ := h x
  exact ⟨hshared.symm, hucode.symm, fun e => (haces e).symm⟩

/-- `u` differs from `s` at most in the compare units, the objects of compare units and axes, the edges and levels of outputs, and what is sent. -/
structure Downstream (s u : State) : Prop where
  od : ∀ k, 0x800000 ≤ k → k < 0x821000 → SMap.get? u.od k = SMap.get? s.od k
  rest : { u with od := s.od, cmps := s.cmps, field := s.field, time := s.time, out := s.out } = s

variable {s u v : State}

@[simp] theorem Downstream.refl : Downstream s s := ⟨fun _ _ _ => rfl, rfl⟩

theorem Downstream.trans (h : Downstream s u) (g : Downstream u v) : Downstream s v where
  od k hlo hhi := (g.od k hlo hhi).trans (h.od k hlo hhi)
  rest := by
    have hr := h.rest
    rw [← g.rest] at hr
    exact hr

theorem Downstream.symm (h : Downstream s u) : Downstream u s where
  od k hlo hhi := (h.od k hlo hhi).symm
  rest := by
    conv_lhs => rw [← h.rest]

/-- A further operation downstream changes nothing of what is kept. -/
theorem Downstream.step (g : Downstream u v) : Downstream s v ↔ Downstream s u := ⟨fun h => h.trans g.symm, fun h => h.trans g⟩

theorem Downstream.fbs (h : Downstream s u) : u.fbs = s.fbs := by simpa using congrArg State.fbs h.rest
theorem Downstream.latch (h : Downstream s u) (l : Nat) : u.latch l = s.latch l := by
  have hlats : u.lats = s.lats := by simpa using congrArg State.lats h.rest
  simp only [State.latch, hlats]
theorem Downstream.axis (h : Downstream s u) (a : Nat) : u.axis a = s.axis a := by
  have haxes : u.axes = s.axes := by simpa using congrArg State.axes h.rest
  simp only [State.axis, haxes]
theorem Downstream.bytesKept (h : Downstream s u) : BytesKept s u := by
  have hshared : u.shared = s.shared := by simpa using congrArg State.shared h.rest
  have hucode : u.ucode = s.ucode := by simpa using congrArg State.ucode h.rest
  have haces : u.aces = s.aces := by simpa using congrArg State.aces h.rest
  intro a
  simp only [State.ace, hshared, hucode, haces]
  exact ⟨trivial, trivial, fun _ => trivial⟩

/-! ### Loops and branches -/

@[simp] theorem downstream_ite (c : Prop) [Decidable c] : Downstream s (if c then u else v) ↔ (c → Downstream s u) ∧ (¬c → Downstream s v) := by
  by_cases h : c <;> simp [h]

theorem downstream_forBelow {f : Nat → State → State} {n : Nat} (hf : ∀ i u, i < n → Downstream u (f i u)) : Downstream s (forBelow n f u) ↔ Downstream s u :=
  Downstream.step (List.foldlRecOn (motive := Downstream u) _ _ .refl fun w hw i hi => hw.trans (hf i w (List.mem_range.1 hi)))

/-! ### Operations of the state -/

@[simp] theorem downstream_set {o : Obj} (ho : 0x8210 ≤ o.base) (x : Int) (i j k : Nat) : Downstream s (u.set o x i j k) ↔ Downstream s u :=
  Downstream.step
    { od := fun n _ hn => State.set_od_ne _ _ _ _ _ _ _ fun h => by
        have := o.base_le_key i j k
        omega
      rest := rfl }
theorem downstream_set_axis {o : Obj} (ho : o.PerAxis) {a : Nat} (ha : a < 256) (x : Int) : Downstream s (u.set o x a) ↔ Downstream s u :=
  Downstream.step
    { od := fun n hn _ => State.set_od_ne _ _ _ _ _ _ _ fun h => by
        have := Obj.key_div_of_perAxis ho a
        omega
      rest := rfl }
@[simp] theorem downstream_count {o : Obj} (ho : 0x8210 ≤ o.base) (i j k : Nat) (n : Int) : Downstream s (u.count o i j k n) ↔ Downstream s u :=
  downstream_set ho ..
@[simp] theorem downstream_wrapInc {o : Obj} (ho : 0x8210 ≤ o.base) (i j k : Nat) : Downstream s (u.wrapInc o i j k) ↔ Downstream s u := downstream_set ho ..
@[simp] theorem downstream_setCmp (c : Nat) (x : CmpRt) : Downstream s (u.setCmp c x) ↔ Downstream s u := Downstream.step ⟨fun _ _ _ => rfl, rfl⟩
@[simp] theorem downstream_modField (f : FieldRt → FieldRt) : Downstream s (u.modField f) ↔ Downstream s u := Downstream.step ⟨fun _ _ _ => rfl, rfl⟩
@[simp] theorem downstream_emit (m : Msg) : Downstream s (u.emit m) ↔ Downstream s u := Downstream.step ⟨fun _ _ _ => rfl, rfl⟩
@[simp] theorem downstream_benchSend (k : Nat) (l : List Int) : Downstream s (benchSend u k l) ↔ Downstream s u := Downstream.step (by simp [benchSend])

/-! ### Edges handed to outputs -/

@[simp] theorem downstream_dropEdges (q : Nat) (lv : Bool) : Downstream s (dropEdges u q lv) ↔ Downstream s u := downstream_modField _
@[simp] theorem downstream_queueEdge (q t : Nat) (lv : Bool) : Downstream s (queueEdge u q t lv) ↔ Downstream s u := downstream_modField _
@[simp] theorem downstream_planEdge (q t : Nat) (lv : Bool) : Downstream s (planEdge u q t lv) ↔ Downstream s u := Downstream.step (by simp [planEdge])
@[simp] theorem downstream_setPin (k : Nat) (lv : Bool) : Downstream s (setPin u k lv) ↔ Downstream s u := Downstream.step ⟨fun _ _ _ => rfl, rfl⟩
@[simp] theorem downstream_pinEdge (q : Nat) (lv : Bool) : Downstream s (pinEdge u q lv) ↔ Downstream s u := Downstream.step (by simp [pinEdge])

/-! ### Compare units (R249 to R255) -/

variable {c t : Nat}

@[simp] theorem downstream_cmpPublish : Downstream s (cmpPublish u c) ↔ Downstream s u := by simp +decide [cmpPublish]
@[simp] theorem downstream_cmpSet (x : Int) : Downstream s (cmpSet u c x) ↔ Downstream s u := Downstream.step (by simp +decide [cmpSet])
@[simp] theorem downstream_cmpCommit (th : Nat) (late : Bool) : Downstream s (cmpCommit u c t th late) ↔ Downstream s u :=
  Downstream.step (by simp [cmpCommit])

@[simp] theorem downstream_cmpCross (n : Nat) : Downstream s (cmpCross n u c t) ↔ Downstream s u := by
  induction n generalizing s u with
  | zero => rfl
  | succ n ih => exact Downstream.step (by simp [cmpCross, ih])

@[simp] theorem downstream_cmpPredict (n v : Nat) : Downstream s (cmpPredict n u c t v) ↔ Downstream s u := by
  induction n generalizing s u with
  | zero => rfl
  | succ n ih => exact Downstream.step (by simp [cmpPredict, ih])

@[simp] theorem downstream_cmpReverse : Downstream s (cmpReverse u c t) ↔ Downstream s u := Downstream.step (by simp +decide [cmpReverse])
@[simp] theorem downstream_cmpEdge (d : Int) : Downstream s (cmpEdge u c d t) ↔ Downstream s u := Downstream.step (by simp [cmpEdge])
@[simp] theorem downstream_cmpEdges (q : Nat) (d : Int) : Downstream s (cmpEdges u q d t) ↔ Downstream s u := downstream_forBelow fun i w _ => by simp
@[simp] theorem downstream_cmpFire (h : CmpHit) : Downstream s (cmpFire u c h) ↔ Downstream s u := Downstream.step (by simp +decide [cmpFire])
@[simp] theorem downstream_cmpHits : Downstream s (cmpHits u c) ↔ Downstream s u :=
  Downstream.step (forList_keeps (P := Downstream u) _ _ _ (by simp) fun i w hw => by simpa using hw)
@[simp] theorem downstream_holdCompares (q : Nat) : Downstream s (holdCompares u q) ↔ Downstream s u :=
  downstream_forBelow fun i w _ => by
    dsimp only
    split
    · split
      · simp
      · rw [downstream_ite]
        simp
    · simp

/-! ### Latch events entered (R248, R253) -/

@[simp] theorem downstream_latchAxes (l : Nat) (e : LatchEv) : Downstream s (latchAxes u l e) ↔ Downstream s u :=
  downstream_forBelow fun a w ha => by
    dsimp only
    split
    · rw [downstream_set_axis (by decide) ha, downstream_set_axis (by decide) ha]
      exact .refl
    · exact .refl

@[simp] theorem downstream_latchUse (l : Nat) (e : LatchEv) : Downstream s (latchUse u l e) ↔ Downstream s u := by
  refine (downstream_forBelow fun i w _ => by simp).trans (Downstream.step ?_)
  simp

end Sys2Proof.Machine
end

