-- ==== Sys2Proof/Proofs/LatchAndCompare.lean ====
section
/-! Latch units (R245 to R248) and compare units (R249 to R255), and O51. -/

namespace Sys2Proof.Machine

variable {s u : State} {l c t n r : Nat} {falling : Bool} {e : LatchEv} {h : CmpHit}

/-! ### What the commands of a unit leave -/

/-- Axes and bytes are as they were. -/
def AxesAndBytesKept (s w : State) : Prop := (∀ k, w.axis k = s.axis k) ∧ BytesKept s w

@[simp] theorem axesAndBytesKept_at (t : Nat) : AxesAndBytesKept s (s.at t) := by simp [AxesAndBytesKept, BytesKept]
@[simp] theorem axesAndBytesKept_set (o : Obj) (x : Int) (i j k : Nat) : AxesAndBytesKept s (u.set o x i j k) ↔ AxesAndBytesKept s u := .rfl
@[simp] theorem axesAndBytesKept_count (o : Obj) (i j k : Nat) (x : Int) : AxesAndBytesKept s (u.count o i j k x) ↔ AxesAndBytesKept s u := .rfl
@[simp] theorem axesAndBytesKept_setLatch (x : LatchRt) : AxesAndBytesKept s (u.setLatch l x) ↔ AxesAndBytesKept s u := .rfl
@[simp] theorem axesAndBytesKept_putLatch (x : LatchRt) : AxesAndBytesKept s (putLatch u l x) ↔ AxesAndBytesKept s u := .rfl
@[simp] theorem axesAndBytesKept_setCmp (x : CmpRt) : AxesAndBytesKept s (u.setCmp c x) ↔ AxesAndBytesKept s u := .rfl

theorem Downstream.axesAndBytesKept {v : State} (h : Downstream u v) : AxesAndBytesKept s v ↔ AxesAndBytesKept s u := by
  have hbytes := h.bytesKept
  simp only [AxesAndBytesKept, h.axis]
  exact and_congr_right fun _ => ⟨fun g => g.trans hbytes.symm, fun g => g.trans hbytes⟩

/-- An object read after octets of the same unit are set. -/
theorem get_setBytes_stride {o o' : Obj} (hst : o'.st1 = o.st1) (hne : o'.base * 256 + o'.sub ≠ o.base * 256 + o.sub) (b : List Byte) (i : Nat) :
    (s.setBytes o b i).get o' i = s.get o' i :=
  State.get_setBytes_ne _ _ _ _ _ _ _ _ _ _ (Obj.key_ne_of_stride hst hne i)

@[simp] theorem latch_putLatch (x : LatchRt) : (putLatch s l x).latch n = if n = l then x else s.latch n := State.latch_setLatch ..

/-! ### Latch units armed and acknowledged (R247) -/

theorem exec_latchArm (hrun : unitRuns s = true) : exec (.latchArm l t) s = .next (((s.at t).set Ob.Lat.STATE 1 l).set Ob.Lat.ARM 1 l) := whileOn_runs hrun

theorem exec_latchAck (hrun : unitRuns s = true) :
    exec (.latchAck l n t) s = .next ((putLatch (s.at t) l { s.latch l with fifo := (s.latch l).fifo.drop n }).set Ob.Lat.ACK n l) :=
  (whileOn_runs hrun).trans (by simp)

theorem latchArm_spec (hrun : unitRuns s = true) : Answers (.latchArm l t) s fun w =>
    w.get Ob.Lat.STATE l = 1 ∧ ObjectsKept [Ob.Lat.STATE.key l, Ob.Lat.ARM.key l] s w ∧ w.latch l = s.latch l ∧ AxesAndBytesKept s w := by
  rw [answers_iff (exec_latchArm hrun)]
  have hframe : Timing [Ob.Lat.STATE.key l, Ob.Lat.ARM.key l] s (((s.at t).set Ob.Lat.STATE 1 l).set Ob.Lat.ARM 1 l) := by simp
  exact ⟨by simp +decide, hframe.od, by simp, by simp⟩

theorem latchAck_spec (hrun : unitRuns s = true) : Answers (.latchAck l n t) s fun w =>
    (w.latch l).fifo = (s.latch l).fifo.drop n ∧ w.bytes Ob.Lat.EVENTS l = ((s.latch l).fifo.drop n).flatMap latchBytes ∧
      (∀ k, k ≠ l → w.latch k = s.latch k) ∧ AxesAndBytesKept s w := by
  rw [answers_iff (exec_latchAck hrun)]
  have hkey : Ob.Lat.EVENTS.key l ≠ Ob.Lat.ACK.key l := Obj.key_ne_of_stride (by rfl) (by decide) l
  refine ⟨by simp, ?_, fun k hk => by simp [hk], by simp⟩
  exact (bytes_congr (State.set_od_ne _ _ _ _ _ _ _ hkey)).trans (State.bytes_setBytes_self ..)

/-! ### Latch events taken (R245, R246) -/

theorem exec_latchEvent (hrun : unitRuns s = true) : exec (.latchEvent l t falling) s = .next (latchTrigger (s.at t) l t falling) := whileOn_runs hrun

theorem latchTrigger_off (hoff : s.nat Ob.Lat.TRIGGER l = 0) : latchTrigger s l t falling = s := if_pos (.inl hoff)

theorem latchTrigger_wanted (hon : 1 ≤ s.nat Ob.Lat.TRIGGER l) (hedge : edgeWanted (s.get Ob.Lat.EDGE l) falling = true) :
    ∃ p, latchTrigger s l t falling = takeLatch s l t falling p := by
  unfold latchTrigger
  dsimp only
  rw [if_neg]
  · exact ⟨_, rfl⟩
  · rintro (hoff | ⟨-, hunwanted⟩)
    · omega
    · rw [hedge] at hunwanted
      cases hunwanted

/-- An event that is taken waits with those that waited before (R247). -/
theorem takeLatch_waits (p : Int × Nat) (hlink : s.nat Ob.Lat.POS_SOURCE l < 8 ∨ s.get Ob.Die.LINK_STATE ≠ 2) (hnew : latchHas (s.latch l) t falling = false) :
    ∃ ws, takeLatch s l t falling p = s.setLatch l { s.latch l with waiting := ws } ∧ (latchReady s l t, ⟨t, p.1, p.2, falling, 0⟩) ∈ ws ∧
      ∀ q ∈ (s.latch l).waiting, q ∈ ws := by
  unfold takeLatch
  dsimp only
  rw [if_neg (by rw [hnew]; simp; omega)]
  refine ⟨_, rfl, by simp, fun q hq => ?_⟩
  by_cases hsame : (!falling && decide (q.2.t = t)) = true
  · exact List.mem_append_right _ (List.mem_cons_of_mem _ (List.mem_filter.2 ⟨hq, hsame⟩))
  · exact List.mem_append_left _ (List.mem_filter.2 ⟨hq, by rw [Bool.eq_false_of_not_eq_true hsame, Bool.not_false]⟩)

@[simp] theorem at_latchReady (d : Nat) : latchReady (s.at d) l t = latchReady s l t := by simp [latchReady, debounceNs]

theorem latchEvent_spec (hrun : unitRuns s = true) (hon : 1 ≤ s.nat Ob.Lat.TRIGGER l) (hlink : s.nat Ob.Lat.POS_SOURCE l < 8 ∨ s.get Ob.Die.LINK_STATE ≠ 2)
    (hedge : edgeWanted (s.get Ob.Lat.EDGE l) falling = true) (hnew : latchHas (s.latch l) t falling = false) :
    Answers (.latchEvent l t falling) s fun w =>
      (∃ p ∈ (w.latch l).waiting, p.1 = latchReady s l t ∧ p.2.t = t ∧ p.2.falling = falling) ∧
        (∀ p ∈ (s.latch l).waiting, p ∈ (w.latch l).waiting) ∧ (w.latch l).fifo = (s.latch l).fifo ∧ (∀ k, k ≠ l → w.latch k = s.latch k) ∧
        w.od = s.od ∧ AxesAndBytesKept s w := by
  obtain ⟨p, hp⟩ := latchTrigger_wanted (s := s.at t) (t := t) (by simpa using hon) (by simpa using hedge)
  obtain ⟨ws, hws, hmem, hold⟩ := takeLatch_waits (s := s.at t) p (by simpa using hlink) (by simpa using hnew)
  rw [answers_iff (exec_latchEvent hrun), hp, hws]
  exact ⟨⟨_, by simpa using hmem, rfl, rfl, rfl⟩, by simpa using hold, by simp, fun k hk => by simp [hk], by simp, by simp⟩

/-! ### Latch events entered, missed or lost (R247) -/

theorem exec_latchEventAvailable (hrun : unitRuns s = true) : exec (.latchEventAvailable l t) s = .next (latchAvail (s.at t) l) := whileOn_runs hrun

/-- A latch unit of which no event waits. -/
def nothingWaits (s : State) (l : Nat) : State := s.setLatch l { s.latch l with waiting := [] }

/-- The one event that waits, available, is judged. -/
theorem latchAvail_one (hwait : (s.latch l).waiting = [(r, e)]) (hready : r ≤ s.now) : latchAvail s l = latchEnter (nothingWaits s l) l e := by
  simp [latchAvail, nothingWaits, forList, hwait, hready]

theorem latchEnter_missed (hidle : s.get Ob.Lat.STATE l ≠ 1) : latchEnter s l e = s.count Ob.Lat.MISSED l := if_pos (.inl hidle)

theorem latchEnter_lost (harmed : s.get Ob.Lat.STATE l = 1) (hin : inWindow s l e.cnt = true) (hfull : 16 ≤ (s.latch l).fifo.length) :
    latchEnter s l e = s.count Ob.Lat.LOST l := by
  simp [latchEnter, harmed, hin, hfull]

/-- An event in the FIFO, before it is used. -/
def latchEntered (s : State) (l : Nat) (e : LatchEv) : State :=
  let x := s.latch l
  let s := putLatch s l { x with fifo := x.fifo ++ [e], seqNo := (x.seqNo + 1) % 256, last := some e, total := x.total + 1 }
  if s.get Ob.Lat.MODE l = 0 then s.set Ob.Lat.STATE 2 l else s

theorem latchEnter_enters (harmed : s.get Ob.Lat.STATE l = 1) (hin : inWindow s l e.cnt = true) (hroom : (s.latch l).fifo.length < 16) :
    latchEnter s l e = latchUse (latchEntered s l { e with seqNo := (s.latch l).seqNo }) l { e with seqNo := (s.latch l).seqNo } := by
  unfold latchEnter
  rw [if_neg (by simp [harmed, hin])]
  exact if_neg (by omega)

@[simp] theorem latchEntered_latch : (latchEntered s l e).latch l =
    { s.latch l with fifo := (s.latch l).fifo ++ [e], seqNo := ((s.latch l).seqNo + 1) % 256, last := some e, total := (s.latch l).total + 1 } := by
  unfold latchEntered
  dsimp only
  split <;> simp

@[simp] theorem axesAndBytesKept_latchEntered : AxesAndBytesKept s (latchEntered u l e) ↔ AxesAndBytesKept s u := by
  unfold latchEntered
  dsimp only
  split <;> simp

theorem latchEntered_state (harmed : s.get Ob.Lat.STATE l = 1) :
    (latchEntered s l e).get Ob.Lat.STATE l = if s.get Ob.Lat.MODE l = 0 then 2 else 1 := by
  have hmode (x : LatchRt) : (putLatch s l x).get Ob.Lat.MODE l = s.get Ob.Lat.MODE l := get_setBytes_stride (by rfl) (by decide) _ _
  have hstate (x : LatchRt) : (putLatch s l x).get Ob.Lat.STATE l = 1 := (get_setBytes_stride (by rfl) (by decide) _ _).trans harmed
  unfold latchEntered
  simp only [hmode]
  split
  · exact State.get_set_self ..
  · exact hstate _

/-- Objects of a latch unit stand through all that an entered event is used for. -/
theorem Downstream.get_latch (h : Downstream s u) (hl : l < 8) : u.get Ob.Lat.STATE l = s.get Ob.Lat.STATE l :=
  get_congr (h.od _ (by simp only [Obj.key, Ob.Lat.STATE]; omega) (by simp only [Obj.key, Ob.Lat.STATE]; omega))

section Available
variable (hrun : unitRuns s = true) (hwait : (s.latch l).waiting = [(r, e)]) (hready : r ≤ (s.at t).now)
include hrun hwait hready

theorem exec_oneAvailable : exec (.latchEventAvailable l t) s = .next (latchEnter (nothingWaits (s.at t) l) l e) :=
  (exec_latchEventAvailable hrun).trans (congrArg _ (latchAvail_one (by simpa using hwait) hready))

theorem available_enters (hl : l < 8) (harmed : s.get Ob.Lat.STATE l = 1) (hin : inWindow s l e.cnt = true) (hroom : (s.latch l).fifo.length < 16) :
    Answers (.latchEventAvailable l t) s fun w =>
      (w.latch l).fifo = (s.latch l).fifo ++ [{ e with seqNo := (s.latch l).seqNo }] ∧ (w.latch l).waiting = [] ∧
        (w.latch l).seqNo = ((s.latch l).seqNo + 1) % 256 ∧ w.get Ob.Lat.STATE l = (if s.get Ob.Lat.MODE l = 0 then 2 else 1) ∧ AxesAndBytesKept s w := by
  have hstate := latchEntered_state (s := nothingWaits (s.at t) l) (l := l) (e := { e with seqNo := (s.latch l).seqNo }) (by simpa [nothingWaits] using harmed)
  rw [answers_iff (exec_oneAvailable hrun hwait hready),
    latchEnter_enters (by simpa [nothingWaits]) (by simpa [inWindow, nothingWaits] using hin) (by simpa [nothingWaits])]
  simp only [nothingWaits, State.at_latch, State.latch_setLatch, if_true] at hstate ⊢
  have hused {v : State} : Downstream v (latchUse v l { e with seqNo := (s.latch l).seqNo }) := by simp
  rw [hused.latch, hused.get_latch hl, hstate, hused.axesAndBytesKept]
  simp

theorem available_lost (harmed : s.get Ob.Lat.STATE l = 1) (hin : inWindow s l e.cnt = true) (hfull : 16 ≤ (s.latch l).fifo.length) :
    Answers (.latchEventAvailable l t) s fun w =>
      (w.latch l).fifo = (s.latch l).fifo ∧ w.get Ob.Lat.LOST l = satInc 32 (s.get Ob.Lat.LOST l) ∧ AxesAndBytesKept s w := by
  rw [answers_iff (exec_oneAvailable hrun hwait hready),
    latchEnter_lost (by simpa [nothingWaits]) (by simpa [inWindow, nothingWaits] using hin) (by simpa [nothingWaits])]
  refine ⟨by simp [nothingWaits], ?_, by simp [nothingWaits]⟩
  simp [State.get_count, nothingWaits]
  rfl

theorem available_missed (hidle : s.get Ob.Lat.STATE l ≠ 1) : Answers (.latchEventAvailable l t) s fun w =>
    (w.latch l).fifo = (s.latch l).fifo ∧ w.get Ob.Lat.MISSED l = satInc 32 (s.get Ob.Lat.MISSED l) ∧ AxesAndBytesKept s w := by
  rw [answers_iff (exec_oneAvailable hrun hwait hready), latchEnter_missed (by simpa [nothingWaits])]
  refine ⟨by simp [nothingWaits], ?_, by simp [nothingWaits]⟩
  simp [State.get_count, nothingWaits]
  rfl

end Available

/-! ### Compare units armed (R249) -/

/-- Whole pitches that bring a compare value ahead of the source. -/
def pitchesAhead (s : State) (c : Nat) (cv : Int) : Int :=
  let behind := cmpDir s c * (cmpPos s c - cv)
  if s.get Ob.Cmp.PITCH c ≤ 0 ∨ behind < 0 then 0 else behind / s.get Ob.Cmp.PITCH c + 1

/-- A compare value brought ahead of the source. -/
def broughtAhead (s : State) (c : Nat) (cv : Int) : Int := cv + cmpDir s c * pitchesAhead s c cv * s.get Ob.Cmp.PITCH c

theorem cmpDir_eq (s : State) (c : Nat) : cmpDir s c = 1 ∨ cmpDir s c = -1 := by
  unfold cmpDir
  split <;> simp

theorem broughtAhead_of_no_pitch (cv : Int) (hpitch : s.get Ob.Cmp.PITCH c = 0) : broughtAhead s c cv = cv := by simp [broughtAhead, hpitch]

/-- It stands ahead in the direction of the unit, whole pitches from where it was. -/
theorem broughtAhead_spec (cv : Int) (hpitch : 0 < s.get Ob.Cmp.PITCH c) :
    0 < cmpDir s c * (broughtAhead s c cv - cmpPos s c) ∧ (broughtAhead s c cv - cv) % s.get Ob.Cmp.PITCH c = 0 := by
  refine ⟨?_, by simp [broughtAhead]⟩
  have hsquare : cmpDir s c * cmpDir s c = 1 := by rcases cmpDir_eq s c with h | h <;> simp [h]
  have hahead : cmpDir s c * (broughtAhead s c cv - cmpPos s c) =
      pitchesAhead s c cv * s.get Ob.Cmp.PITCH c - cmpDir s c * (cmpPos s c - cv) := by
    unfold broughtAhead
    linear_combination (pitchesAhead s c cv * s.get Ob.Cmp.PITCH c) * hsquare
  rw [hahead]
  unfold pitchesAhead
  dsimp only
  split
  · omega
  · have := Int.lt_ediv_add_one_mul_self (cmpDir s c * (cmpPos s c - cv)) hpitch
    omega

/-- Pitches that are skipped, counted. -/
def skipCounted (s : State) (c : Nat) (k : Int) : State := if k = 0 then s else s.count Ob.Cmp.SKIPPED c 0 0 k

theorem skipCounted_cmp (k : Int) (v : Nat) : (skipCounted s c k).cmp v = s.cmp v := by
  unfold skipCounted
  split <;> rfl

theorem skipCounted_state (k : Int) : (skipCounted s c k).get Ob.Cmp.STATE c = s.get Ob.Cmp.STATE c := by
  unfold skipCounted
  split <;> simp +decide [State.count]

theorem cmpSet_eq (cv : Int) : cmpSet s c cv =
    cmpPublish ((skipCounted s c (pitchesAhead s c cv)).setCmp c { (skipCounted s c (pitchesAhead s c cv)).cmp c with cv := broughtAhead s c cv }) c := rfl

theorem cmpPublish_cmp (v : Nat) : (cmpPublish s c).cmp v = s.cmp v := rfl
theorem cmpPublish_state : (cmpPublish s c).get Ob.Cmp.STATE c = s.get Ob.Cmp.STATE c := by simp +decide [cmpPublish]

theorem cmpSet_cmp (cv : Int) (v : Nat) : (cmpSet s c cv).cmp v = if v = c then { s.cmp c with cv := broughtAhead s c cv } else s.cmp v := by
  rw [cmpSet_eq, cmpPublish_cmp, State.cmp_setCmp, skipCounted_cmp, skipCounted_cmp]

theorem cmpSet_state (cv : Int) : (cmpSet s c cv).get Ob.Cmp.STATE c = s.get Ob.Cmp.STATE c := by
  rw [cmpSet_eq, cmpPublish_state, State.setCmp_get, skipCounted_state]

/-- A unit as ARM leaves it, before its compare value is set. -/
def unitArmed (s : State) (c : Nat) : State :=
  ((s.setCmp c { s.cmp c with corr := 0, rearm := false, arming := (s.cmp c).arming + 1, shot := false }).set Ob.Cmp.STATE 1 c).set Ob.Cmp.ARM 1 c

/-- START_COUNT and START_FRAC as one compare value. -/
def startValue (s : State) (c : Nat) : Int := s.get Ob.Cmp.START_COUNT c * 2 ^ 32 + s.get Ob.Cmp.START_FRAC c

theorem exec_compareArm (hrun : unitRuns s = true) : exec (.compareArm c t) s = .next (cmpSet (unitArmed (s.at t) c) c (startValue s c)) := by
  refine (whileOn_runs hrun).trans ?_
  have hstart : startValue (unitArmed (s.at t) c) c = startValue s c := by simp +decide [startValue, unitArmed]
  rw [← hstart]
  rfl

/-- ARM keeps where the unit compares and in which direction. -/
theorem unitArmed_reads : cmpDir (unitArmed (s.at t) c) c = cmpDir s c ∧ cmpPos (unitArmed (s.at t) c) c = cmpPos s c ∧
    (unitArmed (s.at t) c).get Ob.Cmp.PITCH c = s.get Ob.Cmp.PITCH c := by
  simp +decide [cmpDir, cmpPos, unitArmed, State.nat]

theorem compareArm_spec (hrun : unitRuns s = true) : Answers (.compareArm c t) s fun w =>
    w.get Ob.Cmp.STATE c = 1 ∧ (w.cmp c).arming = (s.cmp c).arming + 1 ∧ (w.cmp c).committed = (s.cmp c).committed ∧ AxesAndBytesKept s w ∧
      (∀ k, k ≠ c → w.cmp k = s.cmp k) ∧
      (0 < s.get Ob.Cmp.PITCH c → 0 < cmpDir s c * ((w.cmp c).cv - cmpPos s c) ∧ ((w.cmp c).cv - startValue s c) % s.get Ob.Cmp.PITCH c = 0) ∧
      (s.get Ob.Cmp.PITCH c = 0 → (w.cmp c).cv = startValue s c) := by
  obtain ⟨hdir, hpos, hpitch⟩ := unitArmed_reads (s := s) (c := c) (t := t)
  have hset : Downstream (unitArmed (s.at t) c) (cmpSet (unitArmed (s.at t) c) c (startValue s c)) := by simp
  have harmed : AxesAndBytesKept s (unitArmed (s.at t) c) := by simp [unitArmed]
  have hahead := broughtAhead_spec (s := unitArmed (s.at t) c) (c := c) (startValue s c)
  have hstands := broughtAhead_of_no_pitch (s := unitArmed (s.at t) c) (c := c) (startValue s c)
  rw [hdir, hpos, hpitch] at hahead
  rw [hpitch] at hstands
  rw [answers_iff (exec_compareArm hrun)]
  simp only [cmpSet_cmp, cmpSet_state, if_true]
  exact ⟨by simp +decide [unitArmed], by simp [unitArmed], by simp [unitArmed], hset.axesAndBytesKept.2 harmed, fun k hk => by simp [hk, unitArmed], hahead,
    hstands⟩

theorem exec_disarm (hrun : unitRuns s = true) : exec (.disarm c t) s = .next (((s.at t).set Ob.Cmp.STATE 0 c).set Ob.Cmp.DISARM 1 c) := whileOn_runs hrun

theorem disarm_spec (hrun : unitRuns s = true) : Answers (.disarm c t) s fun w =>
    w.get Ob.Cmp.STATE c = 0 ∧ ObjectsKept [Ob.Cmp.STATE.key c, Ob.Cmp.DISARM.key c] s w ∧ w.cmp c = s.cmp c ∧ AxesAndBytesKept s w := by
  rw [answers_iff (exec_disarm hrun)]
  have hframe : Timing [Ob.Cmp.STATE.key c, Ob.Cmp.DISARM.key c] s (((s.at t).set Ob.Cmp.STATE 0 c).set Ob.Cmp.DISARM 1 c) := by simp
  exact ⟨by simp +decide, hframe.od, by simp, by simp⟩

theorem exec_correction (hrun : unitRuns s = true) (x : Int) :
    exec (.correction c x t) s = .next (((s.at t).set Ob.Cmp.CORRECTION x c).setCmp c { s.cmp c with corr := (s.cmp c).corr + x }) :=
  (whileOn_runs hrun).trans (by simp)

theorem correction_spec (hrun : unitRuns s = true) (x : Int) : Answers (.correction c x t) s fun w =>
    w.cmp c = { s.cmp c with corr := (s.cmp c).corr + x } ∧ w.get Ob.Cmp.CORRECTION c = x ∧ ObjectsKept [Ob.Cmp.CORRECTION.key c] s w ∧
      AxesAndBytesKept s w := by
  rw [answers_iff (exec_correction hrun x)]
  have hframe : Timing [Ob.Cmp.CORRECTION.key c] s ((s.at t).set Ob.Cmp.CORRECTION x c) := by simp
  exact ⟨by simp, by simp, hframe.od, by simp⟩

/-! ### Hits and pulses (R251 to R254) -/

/-- A hit as the counters and LAST_HIT_TIME take it. -/
def hitCounted (s : State) (c : Nat) (h : CmpHit) : State :=
  let s := (s.wrapInc Ob.Cmp.HITS c).set Ob.Cmp.LAST_HIT_TIME h.th c
  let s := if h.late then s.count Ob.Cmp.LATE c else s
  if h.merged then s.count Ob.Cmp.MERGED c else s

/-- The single hit of the present arming makes the unit DONE. -/
def hitShown (s : State) (c : Nat) (h : CmpHit) : State :=
  if h.single = some (s.cmp c).arming ∧ s.get Ob.Cmp.STATE c = 1 then s.set Ob.Cmp.STATE 2 c else s

theorem hitCounted_cmp (v : Nat) : (hitCounted s c h).cmp v = s.cmp v := by
  unfold hitCounted
  dsimp only
  split <;> split <;> rfl

theorem hitCounted_spec :
    (hitCounted s c h).get Ob.Cmp.HITS c = (s.get Ob.Cmp.HITS c + 1) % 2 ^ 32 ∧ (hitCounted s c h).get Ob.Cmp.LAST_HIT_TIME c = h.th ∧
      (hitCounted s c h).get Ob.Cmp.LATE c = (if h.late then satInc 32 (s.get Ob.Cmp.LATE c) else s.get Ob.Cmp.LATE c) ∧
      (hitCounted s c h).get Ob.Cmp.STATE c = s.get Ob.Cmp.STATE c := by
  have hhits : Ob.Cmp.HITS.ty.bits = 32 := rfl
  have hlate : Ob.Cmp.LATE.ty.bits = 32 := rfl
  unfold hitCounted
  dsimp only
  split <;> split <;> simp +decide [State.count, State.wrapInc, hhits, hlate]

theorem hitShown_state : (hitShown s c h).get Ob.Cmp.STATE c =
    if h.single = some (s.cmp c).arming ∧ s.get Ob.Cmp.STATE c = 1 then 2 else s.get Ob.Cmp.STATE c := by
  unfold hitShown
  split <;> simp

theorem hitShown_get {o : Obj} (hst : o.st1 = 1) (hne : o.base * 256 + o.sub ≠ Ob.Cmp.STATE.base * 256 + Ob.Cmp.STATE.sub) :
    (hitShown s c h).get o c = s.get o c := by
  unfold hitShown
  split
  · exact get_set_stride hst hne ..
  · rfl

/-- A unit in the pulse of a hit, with a pin target switched. -/
def pulseStarted (s : State) (c : Nat) (h : CmpHit) : State :=
  let counted := hitCounted s c h
  let s' := (hitShown counted c h).setCmp c { counted.cmp c with level := true }
  pinEdge s' (s.nat Ob.Cmp.TARGET c) (cmpLevel s' c true)

/-- The end of a new pulse on an FQ target is all that a hit hands on. -/
theorem cmpFire_eq : ∃ new q x lv, cmpFire s c h =
    cmpPublish (if new = true then queueEdge (pulseStarted s c h) q x lv else pulseStarted s c h) c := ⟨_, _, _, _, rfl⟩

theorem inField_queueEdge_ite (new : Bool) (q x : Nat) (lv : Bool) : InField s (if new = true then queueEdge s q x lv else s) := by
  split <;> rfl

theorem pinEdge_cmp (target : Nat) (lv : Bool) (v : Nat) : (pinEdge s target lv).cmp v = s.cmp v := by
  unfold pinEdge
  split <;> rfl

theorem InField.cmp (hf : InField s u) (v : Nat) : u.cmp v = s.cmp v := by
  have hcmps : u.cmps = s.cmps := by simpa using congrArg State.cmps hf
  simp only [State.cmp, hcmps]

theorem cmpFire_cmp : (cmpFire s c h).cmp c = { s.cmp c with level := true } := by
  obtain ⟨new, q, x, lv, hfire⟩ := cmpFire_eq (s := s) (c := c) (h := h)
  rw [hfire, cmpPublish_cmp, (inField_queueEdge_ite ..).cmp, pulseStarted, pinEdge_cmp, State.cmp_setCmp, if_pos rfl, hitCounted_cmp]

/-- Beside NEXT_COUNT and NEXT_FRAC, what a hit shows is counted. -/
theorem cmpFire_get {o : Obj} (hst : o.st1 = 1) (hcount : o.base * 256 + o.sub ≠ Ob.Cmp.NEXT_COUNT.base * 256 + Ob.Cmp.NEXT_COUNT.sub)
    (hfrac : o.base * 256 + o.sub ≠ Ob.Cmp.NEXT_FRAC.base * 256 + Ob.Cmp.NEXT_FRAC.sub) :
    (cmpFire s c h).get o c = (hitShown (hitCounted s c h) c h).get o c := by
  obtain ⟨new, q, x, lv, hfire⟩ := cmpFire_eq (s := s) (c := c) (h := h)
  rw [hfire, cmpPublish, get_set_stride hst hfrac, get_set_stride hst hcount, (inField_queueEdge_ite ..).get, pulseStarted, pinEdge_get, State.setCmp_get]

theorem exec_compareHit (hrun : unitRuns s = true) : exec (.compareHit c t) s = .next (cmpHits (s.at t) c) := whileOn_runs hrun

/-- A compare unit without committed hits. -/
def hitTaken (s : State) (c : Nat) : State := s.setCmp c { s.cmp c with committed := [] }

theorem cmpHits_due (hone : (s.cmp c).committed = [h]) (hdue : h.t ≤ s.now) : cmpHits s c = cmpFire (hitTaken s c) c h := by
  simp [cmpHits, hone, hdue, forList, hitTaken]

theorem cmpHits_early (hone : (s.cmp c).committed = [h]) (hearly : s.now < h.t) : cmpHits s c = s.setCmp c (s.cmp c) := by
  have hwaits : ¬h.t ≤ s.now := by omega
  unfold cmpHits
  dsimp only
  rw [hone, List.takeWhile_cons_of_neg (by simpa using hwaits), List.dropWhile_cons_of_neg (by simpa using hwaits), ← hone]
  rfl

theorem compareHit_fires (hrun : unitRuns s = true) (hone : (s.cmp c).committed = [h]) (hdue : h.t ≤ (s.at t).now) : Answers (.compareHit c t) s fun w =>
    (w.cmp c).committed = [] ∧ (w.cmp c).level = true ∧ w.get Ob.Cmp.HITS c = (s.get Ob.Cmp.HITS c + 1) % 2 ^ 32 ∧
      w.get Ob.Cmp.LAST_HIT_TIME c = h.th ∧ w.get Ob.Cmp.LATE c = (if h.late then satInc 32 (s.get Ob.Cmp.LATE c) else s.get Ob.Cmp.LATE c) ∧
      w.get Ob.Cmp.STATE c = (if h.single = some (s.cmp c).arming ∧ s.get Ob.Cmp.STATE c = 1 then 2 else s.get Ob.Cmp.STATE c) ∧ AxesAndBytesKept s w := by
  rw [answers_iff (exec_compareHit hrun), cmpHits_due (by simpa using hone) hdue]
  obtain ⟨hhits, htime, hlate, hstate⟩ := hitCounted_spec (s := hitTaken (s.at t) c) (c := c) (h := h)
  have hget (o : Obj) : (hitTaken (s.at t) c).get o c = s.get o c := by simp [hitTaken]
  have hfires : Downstream (hitTaken (s.at t) c) (cmpFire (hitTaken (s.at t) c) c h) := by simp
  have htaken : AxesAndBytesKept s (hitTaken (s.at t) c) := by simp [hitTaken]
  simp only [hget] at hhits hlate hstate
  rw [cmpFire_cmp, cmpFire_get (by rfl) (by decide) (by decide), cmpFire_get (by rfl) (by decide) (by decide), cmpFire_get (by rfl) (by decide) (by decide),
    cmpFire_get (by rfl) (by decide) (by decide), hitShown_get (by rfl) (by decide), hitShown_get (by rfl) (by decide), hitShown_get (by rfl) (by decide),
    hitShown_state, hitCounted_cmp, hstate]
  exact ⟨by simp [hitTaken], rfl, hhits, htime, hlate, by simp [hitTaken], hfires.axesAndBytesKept.2 htaken⟩

theorem compareHit_early (hrun : unitRuns s = true) (hone : (s.cmp c).committed = [h]) (hearly : (s.at t).now < h.t) :
    Answers (.compareHit c t) s fun w => w.cmp c = s.cmp c ∧ w.od = s.od ∧ AxesAndBytesKept s w := by
  rw [answers_iff (exec_compareHit hrun), cmpHits_early (by simpa using hone) hearly]
  exact ⟨by simp, by simp, by simp⟩

theorem exec_comparePulseFall (hrun : unitRuns s = true) : exec (.comparePulseFall c t) s = .next (cmpFall (s.at t) c) := whileOn_runs hrun

theorem cmpFall_low (hlow : (s.cmp c).level = false) : cmpFall s c = s := if_neg (by simp [hlow])

theorem cmpFall_falls (hhigh : (s.cmp c).level = true) (hdue : (s.cmp c).pulseEnd ≤ s.now) :
    cmpFall s c = pinEdge (s.setCmp c { s.cmp c with level := false }) (s.nat Ob.Cmp.TARGET c) (cmpLevel s c false) := if_pos ⟨hhigh, hdue⟩

theorem comparePulseFall_spec (hrun : unitRuns s = true) (hhigh : (s.cmp c).level = true) (hdue : (s.cmp c).pulseEnd ≤ (s.at t).now) :
    Answers (.comparePulseFall c t) s fun w => w.cmp c = { s.cmp c with level := false } ∧ w.od = s.od ∧ AxesAndBytesKept s w := by
  rw [answers_iff (exec_comparePulseFall hrun), cmpFall_falls (by simpa using hhigh) (by simpa using hdue)]
  have hpin (x : CmpRt) (q : Nat) (lv : Bool) : Downstream (s.at t) (pinEdge ((s.at t).setCmp c x) q lv) := by simp
  exact ⟨by simp [pinEdge_cmp], by simp [pinEdge_od], (hpin ..).axesAndBytesKept.2 (by simp)⟩

end Sys2Proof.Machine

open Sys2Proof Sys2Proof.Machine

/-- Settles O51: latches by what becomes of an event, compare units by their one compare value and their one committed hit; what either leads to stays
downstream of the units (`Downstream`). -/
theorem latchesAndCompareUnitsTakeTheirEvents : Obligations.LatchesAndCompareUnitsTakeTheirEvents := by
  unfold Obligations.LatchesAndCompareUnitsTakeTheirEvents
  intro s l u t n r falling e h v hl hu hrun s' x c start axes
  exact ⟨latchArm_spec hrun, latchEvent_spec hrun, fun hoff => (exec_latchEvent hrun).trans (congrArg _ (latchTrigger_off (by simpa))),
    fun hwait hready => ⟨fun harmed hin => ⟨available_enters hrun hwait hready hl harmed hin, available_lost hrun hwait hready harmed hin⟩,
      available_missed hrun hwait hready⟩,
    latchAck_spec hrun, compareArm_spec hrun, disarm_spec hrun, correction_spec hrun v,
    fun hone => ⟨compareHit_fires hrun hone, compareHit_early hrun hone⟩, comparePulseFall_spec hrun,
    fun hlow => (exec_comparePulseFall hrun).trans (congrArg _ (cmpFall_low (by simpa)))⟩
end

