-- ==== Sys2Proof/Proofs/ReactionObjects.lean ====
section
/-! The objects that a fault of an axis and its reaction write (R191, R201). -/

namespace Sys2Proof.Machine

variable {keys : List Nat} {s u v : State} {a : Nat}

/-! ### Objects kept, operation by operation -/

theorem objectsKept_step (g : ObjectsKept keys u v) : ObjectsKept keys s v ↔ ObjectsKept keys s u :=
  ⟨fun h k hk => (g k hk).symm.trans (h k hk), fun h k hk => (g k hk).trans (h k hk)⟩

theorem objectsKept_self : ObjectsKept keys s s := fun _ _ => rfl

@[simp] theorem objectsKept_set {o : Obj} {i j k : Nat} (ho : o.key i j k ∈ keys) (x : Int) : ObjectsKept keys s (u.set o x i j k) ↔ ObjectsKept keys s u :=
  objectsKept_step fun _ hn => State.set_od_ne _ _ _ _ _ _ _ fun h => hn (h ▸ ho)
@[simp] theorem objectsKept_ite (c : Prop) [Decidable c] :
    ObjectsKept keys s (if c then u else v) ↔ (c → ObjectsKept keys s u) ∧ (¬c → ObjectsKept keys s v) := by
  by_cases h : c <;> simp [h]

/-! ### Reactions -/

/-- Objects that a reaction writes. -/
def reactionObjects : List Obj := [Ob.Ctl.STATE_WORD, Ob.Ctl.ACTIVE_MODE, Ob.Ctl.STOP_CAUSE, Ob.Gear.CHANGE_STATE, Ob.Gear.SWITCH_STATE, Ob.Home.HOME_STATE]

/-- Their keys on an axis. -/
def reactionKeys (a : Nat) : List Nat := reactionObjects.map fun o => o.key a

theorem mem_reactionKeys {o : Obj} (ho : o ∈ reactionObjects) : o.key a ∈ reactionKeys a := List.mem_map_of_mem ho

theorem not_mem_reactionKeys {o : Obj} (ho : ∀ p ∈ reactionObjects, o.st1 = p.st1 ∧ o.base * 256 + o.sub ≠ p.base * 256 + p.sub) :
    o.key a ∉ reactionKeys a := by
  simp only [reactionKeys, List.mem_map, not_exists, not_and]
  intro p hp hkey
  obtain ⟨hst, hne⟩ := ho p hp
  exact Obj.key_ne_of_stride hst hne a hkey.symm

theorem stateKeys_subset : stateKeys a ⊆ reactionKeys a := by simp [stateKeys, reactionKeys, reactionObjects]

/-- `u` differs from `s` in the dictionary at most where a reaction of the axis writes. -/
def Reacting (a : Nat) (s u : State) : Prop := ObjectsKept (reactionKeys a) s u

theorem Reacting.step (g : Reacting a u v) : Reacting a s v ↔ Reacting a s u := objectsKept_step g

@[simp] theorem reacting_self : Reacting a s s := objectsKept_self
@[simp] theorem reacting_ite (c : Prop) [Decidable c] : Reacting a s (if c then u else v) ↔ (c → Reacting a s u) ∧ (¬c → Reacting a s v) := objectsKept_ite c
@[simp] theorem reacting_setAxis (x : AxisRt) : Reacting a s (u.setAxis a x) ↔ Reacting a s u := .rfl
@[simp] theorem reacting_modAxis (f : AxisRt → AxisRt) : Reacting a s (u.modAxis a f) ↔ Reacting a s u := .rfl
@[simp] theorem reacting_homeState (x : Int) : Reacting a s (u.set Ob.Home.HOME_STATE x a) ↔ Reacting a s u :=
  objectsKept_set (mem_reactionKeys (by decide)) x
@[simp] theorem reacting_changeState (x : Int) : Reacting a s (u.set Ob.Gear.CHANGE_STATE x a) ↔ Reacting a s u :=
  objectsKept_set (mem_reactionKeys (by decide)) x
@[simp] theorem reacting_switchState (x : Int) : Reacting a s (u.set Ob.Gear.SWITCH_STATE x a) ↔ Reacting a s u :=
  objectsKept_set (mem_reactionKeys (by decide)) x
@[simp] theorem reacting_publishState : Reacting a s (publishState u a) ↔ Reacting a s u :=
  Reacting.step fun k hk => publishState_objects k fun hs => hk (stateKeys_subset hs)

@[simp] theorem reacting_haltStep : Reacting a s (haltStep u a) ↔ Reacting a s u :=
  Reacting.step fun k _ => by
    unfold haltStep
    dsimp only
    split <;> rfl
@[simp] theorem reacting_dropArmed : Reacting a s (dropArmed u a) ↔ Reacting a s u := Reacting.step (by simp [dropArmed])
@[simp] theorem reacting_dropEntry : Reacting a s (dropEntry u a) ↔ Reacting a s u := Reacting.step (by simp [dropEntry])
@[simp] theorem reacting_faultNow : Reacting a s (faultNow u a) ↔ Reacting a s u := Reacting.step (by simp [faultNow])
@[simp] theorem reacting_startStop (k : StopKind) (c : StopCause) : Reacting a s (startStop u a k c) ↔ Reacting a s u :=
  Reacting.step (by unfold startStop; split <;> simp)
@[simp] theorem reacting_react (r : Int) : Reacting a s (react u a r) ↔ Reacting a s u :=
  Reacting.step (by unfold react; split <;> [skip; split] <;> simp)

/-- An object of the axis that no reaction writes stands. -/
theorem Reacting.get (h : Reacting a s u) {o : Obj} (ho : o.key a ∉ reactionKeys a) : u.get o a = s.get o a := get_congr (h _ ho)

/-- A fault raised with any reaction is recorded (R191), and leaves the other objects that no reaction writes. -/
theorem raiseFault_spec (c : Nat) (r : Int) :
    bit ((raiseFault s a c r).nat Ob.Ctl.FAULT_SET a) c = true ∧ (raiseFault s a c r).get Ob.AxFb.FB_STATE a = s.get Ob.AxFb.FB_STATE a := by
  have hreact (x : Int) : Reacting a (recordFault s a c) (react ((recordFault s a c).warn 191 a c) a x) := (reacting_react x).2 reacting_self
  have hstate : (recordFault s a c).get Ob.AxFb.FB_STATE a = s.get Ob.AxFb.FB_STATE a := by
    unfold recordFault
    dsimp only
    split <;> simp +decide
  refine ⟨?_, ((hreact _).get (not_mem_reactionKeys (by decide))).trans hstate⟩
  rw [State.nat, raiseFault, (hreact _).get (not_mem_reactionKeys (by decide))]
  exact recordFault_faultSet a c

end Sys2Proof.Machine
end

