-- ==== Sys2Proof/Proofs/FeedbackUnits.lean ====
section
/-! What the operations of one feedback unit leave of the other units, of all bytes and of the objects of units, and what they leave of the unit itself. -/

namespace Sys2Proof.Machine

variable {s v w : State} {u a l t : Nat}

/-! ### Operations of one unit -/

/-- `w` shows what `s` shows of all units but `u`, of all bytes and of the objects of units but UNIT_STATUS of `u`. -/
structure OnUnit (u : Nat) (s w : State) : Prop where
  od : ∀ k, 0x800000 ≤ k → k < 0x821000 → k ≠ Ob.Fb.UNIT_STATUS.key (fbIx u) → SMap.get? w.od k = SMap.get? s.od k
  other : ∀ x, x ≠ u → w.fbu x = s.fbu x
  bytes : BytesKept s w

@[simp] theorem OnUnit.refl : OnUnit u s s := ⟨fun _ _ _ _ => rfl, fun _ _ => rfl, .refl⟩

theorem OnUnit.trans (h : OnUnit u s v) (g : OnUnit u v w) : OnUnit u s w where
  od k hlo hhi hk := (g.od k hlo hhi hk).trans (h.od k hlo hhi hk)
  other x hx := (g.other x hx).trans (h.other x hx)
  bytes := h.bytes.trans g.bytes

theorem OnUnit.symm (h : OnUnit u s w) : OnUnit u w s where
  od k hlo hhi hk := (h.od k hlo hhi hk).symm
  other x hx := (h.other x hx).symm
  bytes := h.bytes.symm

/-- A further operation of the unit changes nothing of what is kept. -/
theorem OnUnit.step (g : OnUnit u v w) : OnUnit u s w ↔ OnUnit u s v := ⟨fun h => h.trans g.symm, fun h => h.trans g⟩

/-- An object of the unit beside UNIT_STATUS. -/
theorem OnUnit.get (h : OnUnit u s w) (hu : u < 12) {o : Obj} (hbase : o.base = 0x8110) (hst : o.st1 = 1) (hsub : o.sub < 256) (hne : o.sub ≠ 0x15) :
    w.get o (fbIx u) = s.get o (fbIx u) := by
  have hix : fbIx u < 24 := by
    unfold fbIx
    split <;> omega
  refine get_congr (h.od _ ?_ ?_ ?_) <;> simp only [Obj.key, hbase, hst, Ob.Fb.UNIT_STATUS] <;> omega

theorem Downstream.fbu (h : Downstream s w) (x : Nat) : w.fbu x = s.fbu x := by simp only [State.fbu, h.fbs]

theorem Downstream.onUnit (h : Downstream s w) : OnUnit u s w := ⟨fun k hlo hhi _ => h.od k hlo hhi, fun x _ => h.fbu x, h.bytesKept⟩

theorem OnAxis.fbu (h : OnAxis a s w) (x : Nat) : w.fbu x = s.fbu x := by
  have hfbs : w.fbs = s.fbs := by simpa using congrArg State.fbs h.rest
  simp only [State.fbu, hfbs]

theorem OnAxis.onUnit (h : OnAxis a s w) (ha : a < 256) : OnUnit u s w := ⟨fun k hlo _ _ => h.od k (by omega), fun x _ => h.fbu x, h.bytesKept⟩

@[simp] theorem onUnit_ite (c : Prop) [Decidable c] : OnUnit u s (if c then v else w) ↔ (c → OnUnit u s v) ∧ (¬c → OnUnit u s w) := by
  by_cases h : c <;> simp [h]

@[simp] theorem onUnit_setFbu (f : FbUnit) : OnUnit u s (w.setFbu u f) ↔ OnUnit u s w :=
  OnUnit.step ⟨fun _ _ _ _ => rfl, fun x hx => by simp [hx], .refl⟩
@[simp] theorem onUnit_putUnit (f : FbUnit) : OnUnit u s (putUnit w u f) ↔ OnUnit u s w :=
  OnUnit.step ⟨fun _ _ _ hk => State.set_od_ne _ _ _ _ _ _ _ hk, fun x hx => by simp [putUnit, hx], .refl⟩
@[simp] theorem onUnit_setLatch (x : LatchRt) : OnUnit u s (w.setLatch l x) ↔ OnUnit u s w := OnUnit.step ⟨fun _ _ _ _ => rfl, fun _ _ => rfl, .refl⟩

/-- A unit once it is replaced. -/
@[simp] theorem putUnit_fbu (f : FbUnit) (x : Nat) : (putUnit s u f).fbu x = if x = u then f else s.fbu x := State.fbu_setFbu ..

/-! ### Latches that a unit triggers -/

@[simp] theorem onUnit_takeLatch (falling : Bool) (p : Int × Nat) : OnUnit u s (takeLatch w l t falling p) ↔ OnUnit u s w := OnUnit.step (by simp [takeLatch])
@[simp] theorem takeLatch_fbu (falling : Bool) (p : Int × Nat) (x : Nat) : (takeLatch s l t falling p).fbu x = s.fbu x := by
  unfold takeLatch
  dsimp only
  split <;> rfl

@[simp] theorem onUnit_sameSample (ext : Int) : OnUnit u s (sameSample w u t ext) ↔ OnUnit u s w :=
  OnUnit.step (forBelow_keeps (P := OnUnit u w) _ _ _ .refl fun l v hv => by
    dsimp only
    rw [onUnit_ite, onUnit_setLatch]
    exact ⟨fun _ => hv, fun _ => hv⟩)
@[simp] theorem sameSample_fbu (ext : Int) (x : Nat) : (sameSample s u t ext).fbu x = s.fbu x :=
  forBelow_keeps (P := fun v => v.fbu x = s.fbu x) _ _ _ rfl fun l v hv => by
    dsimp only
    split <;> exact hv

/-! ### The index (R235) -/

/-- `g` differs from `f` at most in the index event and in what judges it. -/
def IndexOnly (f g : FbUnit) : Prop :=
  { g with quad := { g.quad with levelAt := f.quad.levelAt, gate := f.quad.gate, gateWas := f.quad.gateWas, index := f.quad.index,
                                 indexSeen := f.quad.indexSeen, indexWas := f.quad.indexWas } } = f

theorem IndexOnly.trans {f g h : FbUnit} (hfg : IndexOnly f g) (hgh : IndexOnly g h) : IndexOnly f h := by
  unfold IndexOnly at hfg hgh ⊢
  rw [← hgh] at hfg
  exact hfg

/-- What is left of the levels, the count and the edges. -/
theorem IndexOnly.line {f g : FbUnit} (h : IndexOnly f g) : g.quad.a = f.quad.a ∧ g.quad.b = f.quad.b ∧ g.quad.z = f.quad.z ∧ g.quad.cnt = f.quad.cnt ∧
    g.quad.ext = f.quad.ext ∧ g.quad.uncertain = f.quad.uncertain ∧ g.quad.edges = f.quad.edges := by
  unfold IndexOnly at h
  rw [← h]
  exact ⟨rfl, rfl, rfl, rfl, rfl, rfl, rfl⟩

@[simp] theorem onUnit_indexEventAt : OnUnit u s (indexEventAt w u t) ↔ OnUnit u s w :=
  OnUnit.step (forList_keeps (P := OnUnit u w) _ _ _ (by simp) fun l v hv => by simpa using hv)

/-- An index event keeps its stamp and count. -/
theorem indexEventAt_fbu : ∃ was, (indexEventAt s u t).fbu u =
    { s.fbu u with quad := { (s.fbu u).quad with indexSeen := true, index := some (t, (s.fbu u).quad.ext), indexWas := was } } :=
  ⟨_, forList_keeps (P := fun v => v.fbu u = _) _ _ _ ((putUnit_fbu ..).trans (if_pos rfl)) fun _ _ hv => (takeLatch_fbu ..).trans hv⟩

theorem indexEventAt_indexOnly : IndexOnly (s.fbu u) ((indexEventAt s u t).fbu u) := by
  obtain ⟨was, h⟩ := indexEventAt_fbu (s := s) (u := u) (t := t)
  rw [h]
  rfl

@[simp] theorem onUnit_indexWithdrawn : OnUnit u s (indexWithdrawn w u t) ↔ OnUnit u s w := by
  refine OnUnit.step ?_
  unfold indexWithdrawn
  dsimp only
  split
  · split
    · exact .refl
    · exact forList_keeps (P := OnUnit u w) _ _ _ (by simp) fun l v hv => by simpa using hv
  · exact .refl

theorem indexWithdrawn_indexOnly : IndexOnly (s.fbu u) ((indexWithdrawn s u t).fbu u) := by
  unfold indexWithdrawn
  dsimp only
  split
  · split
    · rfl
    · exact forList_keeps (P := fun v => IndexOnly (s.fbu u) (v.fbu u)) _ _ _ (by simp [IndexOnly]) fun _ _ hv => hv
  · rfl

/-- The index condition as it stands after a change of a level. -/
def gateJudged (f : FbUnit) (t : Nat) : FbUnit :=
  { f with quad := { f.quad with levelAt := t, gate := indexGate f.quad, gateWas := if f.quad.levelAt = t then f.quad.gateWas else f.quad.gate } }

theorem judgeGate_eq : judgeGate s u t =
    let f := gateJudged (s.fbu u) t
    let v := s.setFbu u f
    if s.get Ob.Fb.INDEX_GATE (fbIx u) ≠ 1 then v
    else if f.quad.gate && !f.quad.gateWas then indexEventAt v u t else indexWithdrawn v u t := rfl

@[simp] theorem onUnit_judgeGate : OnUnit u s (judgeGate w u t) ↔ OnUnit u s w := OnUnit.step (by simp [judgeGate_eq])

theorem judgeGate_indexOnly : IndexOnly (s.fbu u) ((judgeGate s u t).fbu u) := by
  have hjudged : IndexOnly (s.fbu u) ((s.setFbu u (gateJudged (s.fbu u) t)).fbu u) := by simp [IndexOnly, gateJudged]
  rw [judgeGate_eq]
  dsimp only
  split
  · exact hjudged
  · split
    · exact hjudged.trans indexEventAt_indexOnly
    · exact hjudged.trans indexWithdrawn_indexOnly

/-- Without INDEX_GATE the gate raises no index event. -/
theorem judgeGate_ungated (h : s.get Ob.Fb.INDEX_GATE (fbIx u) = 0) : judgeGate s u t = s.setFbu u (gateJudged (s.fbu u) t) :=
  judgeGate_eq.trans (if_pos (by rw [h]; decide))

/-! ### Faults (R242, R243) -/

theorem onAxis_feedbackFault : OnAxis a s (feedbackFault s a) := by simp +decide [feedbackFault]

theorem onUnit_axesFaulted (x : Nat) : OnUnit u s (forList (unitAxes v x) (fun a w => feedbackFault w a) s) :=
  List.foldlRecOn (motive := OnUnit u s) _ _ .refl fun _ hw _ ha => hw.trans
    (onAxis_feedbackFault.onUnit (List.mem_range.1 (List.mem_filter.1 ha).1))

/-- A unit with FAULT. -/
def FbUnit.faulted (f : FbUnit) : FbUnit := { f with quad := { f.quad with fault := true } }

theorem unitFault_of_faulted (h : (s.fbu u).quad.fault = true) : unitFault s u = s := if_pos h

theorem unitFault_of_sound (h : (s.fbu u).quad.fault = false) : unitFault s u =
    let v := holdCompares (putUnit s u (s.fbu u).faulted) u
    forList (unitAxes v u) (fun a w => feedbackFault w a) v := if_neg (by simp [h])

@[simp] theorem onUnit_unitFault : OnUnit u s (unitFault w u) ↔ OnUnit u s w := by
  refine OnUnit.step ?_
  cases h : (w.fbu u).quad.fault with
  | true => simp [unitFault_of_faulted h]
  | false =>
    rw [unitFault_of_sound h]
    have hheld : Downstream (putUnit w u (w.fbu u).faulted) (holdCompares (putUnit w u (w.fbu u).faulted) u) := by simp
    exact (((onUnit_putUnit _).2 .refl).trans hheld.onUnit).trans (onUnit_axesFaulted u)

/-- FAULT is all that a fault of the unit leaves in it. -/
theorem unitFault_fbu : (unitFault s u).fbu u = (s.fbu u).faulted := by
  cases h : (s.fbu u).quad.fault with
  | true =>
    rw [unitFault_of_faulted h, FbUnit.faulted, ← h]
  | false =>
    rw [unitFault_of_sound h]
    have hheld : Downstream (putUnit s u (s.fbu u).faulted) (holdCompares (putUnit s u (s.fbu u).faulted) u) := by simp
    refine forList_keeps (P := fun v => v.fbu u = (s.fbu u).faulted) _ _ _ ?_ fun a v hv => (onAxis_feedbackFault.fbu u).trans hv
    rw [hheld.fbu, putUnit_fbu, if_pos rfl]

end Sys2Proof.Machine
end

