-- ==== Sys2Proof/Proofs/IncrementalInputs.lean ====
section
/-! Incremental encoder inputs (R232 to R236), faults of feedback (R242, R243), and O49. -/

namespace Sys2Proof.Machine

variable {s : State} {u a t held pair : Nat} {x y z : Bool} {d : Int}

@[simp] theorem at_unitRuns (t : Nat) : unitRuns (s.at t) = unitRuns s := by simp [unitRuns]
@[simp] theorem at_unitMode (t : Nat) : unitMode (s.at t) u = unitMode s u := State.at_get ..
@[simp] theorem at_unitFilter (t : Nat) : unitFilter (s.at t) u = unitFilter s u := by simp [unitFilter]
@[simp] theorem at_quadOn (t : Nat) : quadOn (s.at t) u = quadOn s u := by simp [quadOn]

/-- What an operation of a unit at the instant of a command leaves of the other units and of all bytes. -/
theorem OnUnit.kept_at {w : State} (h : OnUnit u (s.at t) w) : (∀ k, k ≠ u → w.fbu k = s.fbu k) ∧ BytesKept s w :=
  ⟨fun k hk => (h.other k hk).trans (State.at_fbu ..), (bytesKept_at t).1 h.bytes⟩

/-! ### Edges of A and B (R232 to R234) -/

theorem exec_quadratureEdge (hrun : unitRuns s = true) : exec (.quadratureEdge u x y t held) s =
    .next (let (w, d) := quadLevels (s.at t) u x y t held; if d = 0 then w else cmpEdges w u d t) :=
  congrArg _ (if_pos (by simpa using hrun))

/-- Levels that have not stood for FILTER_LEN samples leave no trace (R232). -/
theorem quadLevels_short (hshort : held < unitFilter s u) : quadLevels s u x y t held = (s, 0) := if_pos (.inr hshort)

/-- New levels of A and B, the index gate judged after them. -/
def levelsTaken (s : State) (u : Nat) (x y : Bool) (t : Nat) : State :=
  judgeGate (s.setFbu u { s.fbu u with quad := { (s.fbu u).quad with a := x, b := y } }) u t

@[simp] theorem onUnit_levelsTaken {v : State} : OnUnit u s (levelsTaken v u x y t) ↔ OnUnit u s v := by simp [levelsTaken]

theorem levelsTaken_quad :
    let q := ((levelsTaken s u x y t).fbu u).quad
    q.a = x ∧ q.b = y ∧ q.cnt = (s.fbu u).quad.cnt ∧ q.ext = (s.fbu u).quad.ext ∧ q.uncertain = (s.fbu u).quad.uncertain ∧ q.edges = (s.fbu u).quad.edges := by
  obtain ⟨ha, hb, -, hcnt, hext, huncertain, hedges⟩ :=
    (judgeGate_indexOnly (s := s.setFbu u { s.fbu u with quad := { (s.fbu u).quad with a := x, b := y } }) (u := u) (t := t)).line
  simp only [State.fbu_setFbu, if_true] at ha hb hcnt hext huncertain hedges
  exact ⟨ha, hb, hcnt, hext, huncertain, hedges⟩

section Levels
variable (hon : quadOn s u = true) (hheld : unitFilter s u ≤ held)
include hon hheld

theorem quadLevels_counts (hmove : quadMove (s.fbu u).quad.a (s.fbu u).quad.b x y = some d) (hd : d ≠ 0) :
    quadLevels s u x y t held = (levelsTaken (quadStep s u d t) u x y t, d) := by
  unfold quadLevels
  rw [if_neg (by simp [hon]; omega)]
  dsimp only
  rw [hmove]
  exact if_neg hd

theorem quadLevels_illegal (hmove : quadMove (s.fbu u).quad.a (s.fbu u).quad.b x y = none) :
    quadLevels s u x y t held = (levelsTaken (illegalTransition s u t) u x y t, 0) := by
  unfold quadLevels
  rw [if_neg (by simp [hon]; omega)]
  dsimp only
  rw [hmove]
  rfl

end Levels

@[simp] theorem onUnit_quadStep {v : State} : OnUnit u s (quadStep v u d t) ↔ OnUnit u s v := by simp [quadStep]

theorem quadStep_count : ((quadStep s u d t).fbu u).quad.ext = (s.fbu u).quad.ext + d ∧
    ((quadStep s u d t).fbu u).quad.cnt = lowBits 32 ((s.fbu u).quad.cnt + d) := by
  simp [quadStep]

theorem quadratureEdge_short (hrun : unitRuns s = true) (hshort : held < unitFilter s u) : exec (.quadratureEdge u x y t held) s = .next (s.at t) := by
  rw [exec_quadratureEdge hrun, quadLevels_short (by simpa using hshort)]
  rfl

theorem quadratureEdge_counts (hrun : unitRuns s = true) (hon : quadOn s u = true) (hheld : unitFilter s u ≤ held)
    (hmove : quadMove (s.fbu u).quad.a (s.fbu u).quad.b x y = some d) (hd : d ≠ 0) : Answers (.quadratureEdge u x y t held) s fun v =>
      (v.fbu u).quad.ext = (s.fbu u).quad.ext + d ∧ (v.fbu u).quad.cnt = lowBits 32 ((s.fbu u).quad.cnt + d) ∧ (v.fbu u).quad.a = x ∧ (v.fbu u).quad.b = y ∧
        (∀ k, k ≠ u → v.fbu k = s.fbu k) ∧ BytesKept s v := by
  have hexec : exec (.quadratureEdge u x y t held) s = .next (cmpEdges (levelsTaken (quadStep (s.at t) u d t) u x y t) u d t) := by
    rw [exec_quadratureEdge hrun, quadLevels_counts (by simpa using hon) (by simpa using hheld) (by simpa using hmove) hd]
    exact congrArg _ (if_neg hd)
  have hcompared : Downstream (levelsTaken (quadStep (s.at t) u d t) u x y t) (cmpEdges (levelsTaken (quadStep (s.at t) u d t) u x y t) u d t) := by simp
  obtain ⟨hother, hbytes⟩ := OnUnit.kept_at ((onUnit_levelsTaken.2 (onUnit_quadStep.2 .refl)).trans hcompared.onUnit)
  obtain ⟨ha, hb, hcnt, hext, -, -⟩ := levelsTaken_quad (s := quadStep (s.at t) u d t) (u := u) (x := x) (y := y) (t := t)
  obtain ⟨hstepExt, hstepCnt⟩ := quadStep_count (s := s.at t) (u := u) (d := d) (t := t)
  rw [State.at_fbu] at hstepExt hstepCnt
  rw [answers_iff hexec, hcompared.fbu]
  exact ⟨hext.trans hstepExt, hcnt.trans hstepCnt, ha, hb, hother, hbytes⟩

/-! ### Illegal transitions (R234) -/

/-- An illegal transition recorded and counted, before it is judged against the limit. -/
def illegalCounted (s : State) (u t : Nat) : State :=
  let f := s.fbu u
  let ill := t :: f.quad.illegal.filter fun x => t ≤ x + s.nat Ob.Fb.ILLEGAL_WINDOW (fbIx u) * 1000000
  ((putUnit s u { f with quad := { f.quad with illegal := ill, illegalNow := true, uncertain := true, pendingEst := true,
                                               edges := ⟨t, 0, f.quad.ext, true⟩ :: f.quad.edges } }).count Ob.Fb.ILLEGAL_COUNT (fbIx u)).warn 234 u t

theorem illegalTransition_eq : illegalTransition s u t =
    let v := illegalCounted s u t
    let lim := v.nat Ob.Fb.ILLEGAL_LIMIT (fbIx u)
    if lim ≠ 0 ∧ lim ≤ (v.fbu u).quad.illegal.length then unitFault v u else v := by
  unfold illegalTransition
  have hill : ((illegalCounted s u t).fbu u).quad.illegal =
      t :: (s.fbu u).quad.illegal.filter fun x => t ≤ x + s.nat Ob.Fb.ILLEGAL_WINDOW (fbIx u) * 1000000 := by simp [illegalCounted, State.warn]
  dsimp only
  rw [hill]
  rfl

/-- What the judgement leaves of the unit. -/
theorem illegalTransition_judged :
    OnUnit u (illegalCounted s u t) (illegalTransition s u t) ∧
      ((illegalTransition s u t).fbu u = (illegalCounted s u t).fbu u ∨ (illegalTransition s u t).fbu u = ((illegalCounted s u t).fbu u).faulted) := by
  rw [illegalTransition_eq]
  dsimp only
  split
  · exact ⟨onUnit_unitFault.2 .refl, .inr unitFault_fbu⟩
  · exact ⟨.refl, .inl rfl⟩

theorem illegalCounted_spec :
    let q := ((illegalCounted s u t).fbu u).quad
    q.ext = (s.fbu u).quad.ext ∧ q.uncertain = true ∧ q.edges = ⟨t, 0, (s.fbu u).quad.ext, true⟩ :: (s.fbu u).quad.edges ∧
      (illegalCounted s u t).get Ob.Fb.ILLEGAL_COUNT (fbIx u) = satInc 32 (s.get Ob.Fb.ILLEGAL_COUNT (fbIx u)) ∧
      (illegalCounted s u t).nat Ob.Fb.ILLEGAL_LIMIT (fbIx u) = s.nat Ob.Fb.ILLEGAL_LIMIT (fbIx u) ∧ ∀ k, k ≠ u → (illegalCounted s u t).fbu k = s.fbu k := by
  have hbits : Ob.Fb.ILLEGAL_COUNT.ty.bits = 32 := rfl
  refine ⟨?_, ?_, ?_, ?_, ?_, fun k hk => ?_⟩ <;> simp +decide [illegalCounted, State.warn, State.count, State.nat, putUnit, *]

/-- An illegal transition makes the count uncertain and leaves it (R234). -/
theorem illegalTransition_spec :
    let q := ((illegalTransition s u t).fbu u).quad
    q.ext = (s.fbu u).quad.ext ∧ q.uncertain = true ∧ q.edges = ⟨t, 0, (s.fbu u).quad.ext, true⟩ :: (s.fbu u).quad.edges := by
  obtain ⟨hext, huncertain, hedges, -⟩ := illegalCounted_spec (s := s) (u := u) (t := t)
  obtain ⟨-, hsound | hfaulted⟩ := illegalTransition_judged (s := s) (u := u) (t := t)
  · rw [hsound]
    exact ⟨hext, huncertain, hedges⟩
  · rw [hfaulted]
    exact ⟨hext, huncertain, hedges⟩

/-- ILLEGAL_LIMIT transitions in the window fault the unit (R234). -/
theorem illegalTransition_faults (hlim : s.nat Ob.Fb.ILLEGAL_LIMIT (fbIx u) ≠ 0)
    (hreached : s.nat Ob.Fb.ILLEGAL_LIMIT (fbIx u) ≤ ((illegalTransition s u t).fbu u).quad.illegal.length) :
    ((illegalTransition s u t).fbu u).quad.fault = true := by
  obtain ⟨-, -, -, -, hlimit, -⟩ := illegalCounted_spec (s := s) (u := u) (t := t)
  rw [illegalTransition_eq] at hreached ⊢
  dsimp only at hreached ⊢
  split at hreached
  · next h => rw [if_pos h, unitFault_fbu, FbUnit.faulted]
  · next h => exact absurd ⟨hlimit ▸ hlim, hlimit ▸ hreached⟩ h

theorem exec_illegalLimit (hrun : unitRuns s = true) (hon : quadOn s u = true) : exec (.illegalLimit u t) s = .next (illegalTransition (s.at t) u t) :=
  (whileOn_runs hrun).trans (by simp [hon])

theorem illegalLimit_spec (hrun : unitRuns s = true) (hon : quadOn s u = true) : Answers (.illegalLimit u t) s fun v =>
    (v.fbu u).quad.uncertain = true ∧ (v.fbu u).quad.ext = (s.fbu u).quad.ext ∧
      (s.nat Ob.Fb.ILLEGAL_LIMIT (fbIx u) ≠ 0 → s.nat Ob.Fb.ILLEGAL_LIMIT (fbIx u) ≤ (v.fbu u).quad.illegal.length → (v.fbu u).quad.fault = true) := by
  obtain ⟨hext, huncertain, -⟩ := illegalTransition_spec (s := s.at t) (u := u) (t := t)
  have hfaults := illegalTransition_faults (s := s.at t) (u := u) (t := t)
  rw [State.at_nat] at hfaults
  rw [answers_iff (exec_illegalLimit hrun hon)]
  exact ⟨huncertain, hext.trans (by simp), hfaults⟩

theorem quadratureEdge_illegal (hu : u < 12) (hrun : unitRuns s = true) (hon : quadOn s u = true) (hheld : unitFilter s u ≤ held)
    (hmove : quadMove (s.fbu u).quad.a (s.fbu u).quad.b x y = none) : Answers (.quadratureEdge u x y t held) s fun v =>
      (v.fbu u).quad.ext = (s.fbu u).quad.ext ∧ (v.fbu u).quad.uncertain = true ∧
        (v.fbu u).quad.edges = ⟨t, 0, (s.fbu u).quad.ext, true⟩ :: (s.fbu u).quad.edges ∧ (v.fbu u).quad.a = x ∧ (v.fbu u).quad.b = y ∧
        v.get Ob.Fb.ILLEGAL_COUNT (fbIx u) = satInc 32 (s.get Ob.Fb.ILLEGAL_COUNT (fbIx u)) ∧ ∀ k, k ≠ u → v.fbu k = s.fbu k := by
  have hexec : exec (.quadratureEdge u x y t held) s = .next (levelsTaken (illegalTransition (s.at t) u t) u x y t) := by
    rw [exec_quadratureEdge hrun, quadLevels_illegal (by simpa using hon) (by simpa using hheld) (by simpa using hmove)]
    rfl
  obtain ⟨hjudged, -⟩ := illegalTransition_judged (s := s.at t) (u := u) (t := t)
  have hkept : OnUnit u (illegalCounted (s.at t) u t) (levelsTaken (illegalTransition (s.at t) u t) u x y t) := onUnit_levelsTaken.2 hjudged
  obtain ⟨-, -, -, hcount, -, hother⟩ := illegalCounted_spec (s := s.at t) (u := u) (t := t)
  obtain ⟨hext, huncertain, hedges⟩ := illegalTransition_spec (s := s.at t) (u := u) (t := t)
  obtain ⟨ha, hb, -, hlext, hluncertain, hledges⟩ := levelsTaken_quad (s := illegalTransition (s.at t) u t) (u := u) (x := x) (y := y) (t := t)
  simp only [State.at_fbu, State.at_get] at hext hedges hcount hother
  rw [answers_iff hexec]
  exact ⟨hlext.trans hext, hluncertain.trans huncertain, hledges.trans hedges, ha, hb, (hkept.get hu rfl rfl (by decide) (by decide)).trans hcount,
    fun k hk => (hkept.other k hk).trans (hother k hk)⟩

/-! ### The index (R235) -/

theorem exec_indexEvent (hrun : unitRuns s = true) : exec (.indexEvent u z t held) s = .next (indexLevel (s.at t) u z t held) :=
  congrArg _ (if_pos (by simpa using hrun))

/-- A new level of Z, the index condition judged after it. -/
def zTaken (s : State) (u : Nat) (z : Bool) (t : Nat) : State :=
  let v := s.setFbu u { s.fbu u with quad := { (s.fbu u).quad with z := z } }
  v.setFbu u (gateJudged (v.fbu u) t)

@[simp] theorem onUnit_zTaken {v : State} : OnUnit u s (zTaken v u z t) ↔ OnUnit u s v := by simp [zTaken]

theorem zTaken_quad :
    let q := ((zTaken s u z t).fbu u).quad
    q.z = z ∧ q.ext = (s.fbu u).quad.ext ∧ q.index = (s.fbu u).quad.index := by
  simp [zTaken, gateJudged]

theorem indexLevel_ungated (hon : quadOn s u = true) (hheld : unitFilter s u ≤ held) (hz : (s.fbu u).quad.z ≠ z) (hgate : s.get Ob.Fb.INDEX_GATE (fbIx u) = 0) :
    indexLevel s u z t held = if z = true then indexEventAt (zTaken s u z t) u t else zTaken s u z t := by
  have hjudged : judgeGate (s.setFbu u { s.fbu u with quad := { (s.fbu u).quad with z := z } }) u t = zTaken s u z t := judgeGate_ungated hgate
  have hungated : (zTaken s u z t).get Ob.Fb.INDEX_GATE (fbIx u) = 0 := hgate
  unfold indexLevel
  rw [if_neg (by simp [hon, hz]; omega)]
  dsimp only
  rw [hjudged, hungated]
  simp

theorem indexEvent_spec (hrun : unitRuns s = true) (hon : quadOn s u = true) (hheld : unitFilter s u ≤ held) (hz : (s.fbu u).quad.z ≠ z)
    (hgate : s.get Ob.Fb.INDEX_GATE (fbIx u) = 0) : Answers (.indexEvent u z t held) s fun v =>
      (v.fbu u).quad.z = z ∧ (v.fbu u).quad.ext = (s.fbu u).quad.ext ∧
        (z = true → (v.fbu u).quad.index = some (t, (s.fbu u).quad.ext) ∧ (v.fbu u).quad.indexSeen = true) ∧
        (z = false → (v.fbu u).quad.index = (s.fbu u).quad.index) ∧ (∀ k, k ≠ u → v.fbu k = s.fbu k) ∧ BytesKept s v := by
  obtain ⟨hlevel, hext, hindex⟩ := zTaken_quad (s := s.at t) (u := u) (z := z) (t := t)
  rw [State.at_fbu] at hext hindex
  rw [answers_iff (exec_indexEvent hrun), indexLevel_ungated (by simpa using hon) (by simpa using hheld) (by simpa using hz) (by simpa using hgate)]
  cases z with
  | false =>
    obtain ⟨hother, hbytes⟩ := OnUnit.kept_at (onUnit_zTaken (u := u) (z := false) (t := t).2 (.refl (s := s.at t)))
    exact ⟨hlevel, hext, nofun, fun _ => hindex, hother, hbytes⟩
  | true =>
    obtain ⟨hother, hbytes⟩ := OnUnit.kept_at (onUnit_indexEventAt (u := u) (t := t).2 (onUnit_zTaken (z := true) (t := t).2 (.refl (s := s.at t))))
    obtain ⟨was, hevent⟩ := indexEventAt_fbu (s := zTaken (s.at t) u true t) (u := u) (t := t)
    rw [if_pos rfl, hevent]
    exact ⟨hlevel, hext, fun _ => ⟨congrArg (fun c => some (t, c)) hext, rfl⟩, nofun, hother, hbytes⟩

/-! ### Wires (R236) -/

/-- The unit with a pair reported open or shorted, or sound again. -/
def wired (f : FbUnit) (pair : Nat) (bad : Bool) : FbUnit := { f with quad := { f.quad with wires := setBit f.quad.wires pair bad } }

theorem exec_wireFault (hrun : unitRuns s = true) (hu : u < 8) (hmode : unitMode s u ≠ 0) (bad : Bool) : exec (.wireFault u pair bad t) s =
    .next (if bad then unitFault (putUnit (s.at t) u (wired (s.fbu u) pair bad)) u else putUnit (s.at t) u (wired (s.fbu u) pair bad)) := by
  refine (whileOn_runs hrun).trans (congrArg _ ?_)
  have hreport : wireReport (s.at t) u pair bad =
      if bad then unitFault (putUnit (s.at t) u (wired ((s.at t).fbu u) pair bad)) u else putUnit (s.at t) u (wired ((s.at t).fbu u) pair bad) :=
    if_neg (by simpa using hmode)
  rw [if_neg (by omega), hreport, State.at_fbu]

theorem wireFault_inside (hrun : unitRuns s = true) (hu : u < 8) (hmode : unitMode s u ≠ 0) : Answers (.wireFault u pair true t) s fun v =>
    bit (v.fbu u).quad.wires pair = true ∧ (v.fbu u).quad.fault = true := by
  rw [answers_iff (exec_wireFault hrun hu hmode true), if_pos rfl, unitFault_fbu, putUnit_fbu, if_pos rfl]
  exact ⟨bit_setBit_self _ _, rfl⟩

theorem wireFault_outside (hrun : unitRuns s = true) (hu : u < 8) (hmode : unitMode s u ≠ 0) : Answers (.wireFault u pair false t) s fun v =>
    (v.fbu u).quad = { (s.fbu u).quad with wires := setBit (s.fbu u).quad.wires pair false } ∧ (∀ k, k ≠ u → v.fbu k = s.fbu k) ∧
      (∀ k, v.axis k = s.axis k) ∧ BytesKept s v := by
  rw [answers_iff (exec_wireFault hrun hu hmode false), if_neg Bool.false_ne_true]
  obtain ⟨hother, hbytes⟩ := OnUnit.kept_at ((onUnit_putUnit (wired (s.fbu u) pair false)).2 (.refl (s := s.at t)))
  exact ⟨by rw [putUnit_fbu, if_pos rfl, wired], hother, fun k => State.at_axis .., hbytes⟩

/-! ### Invalid samples of an axis (R242) -/

theorem exec_fbHoldLimit (hrun : unitRuns s = true) : exec (.fbHoldLimit a t) s = .next (judgeHold (s.at t) a) := whileOn_runs hrun

theorem judgeHold_short (hshort : (s.axis a).fb.hold < s.nat Ob.AxFb.FB_HOLD_LIMIT a) : judgeHold s a = s := if_neg (by omega)

theorem judgeHold_reached (hsource : s.get Ob.AxFb.FB_SOURCE a ≤ 1) (hlimit : s.nat Ob.AxFb.FB_HOLD_LIMIT a ≤ (s.axis a).fb.hold)
    (hhold : 0 < (s.axis a).fb.hold) : judgeHold s a = feedbackFault s a := if_pos ⟨hsource, hlimit, hhold⟩

/-- A FEEDBACK fault shows in FB_STATE and FAULT_SET (R242, R243). -/
theorem feedbackFault_spec : (feedbackFault s a).get Ob.AxFb.FB_STATE a = 3 ∧ bit ((feedbackFault s a).nat Ob.Ctl.FAULT_SET a) 18 = true := by
  unfold feedbackFault
  dsimp only
  split
  · next h => exact ⟨State.get_set_self .., (Bool.and_eq_true_iff.1 h).1⟩
  · obtain ⟨hset, hstate⟩ := raiseFault_spec (a := a) 18 _
    exact ⟨hstate.trans (State.get_set_self ..), hset⟩

theorem fbHoldLimit_spec (hrun : unitRuns s = true) (hsource : s.get Ob.AxFb.FB_SOURCE a ≤ 1) (hlimit : s.nat Ob.AxFb.FB_HOLD_LIMIT a ≤ (s.axis a).fb.hold)
    (hhold : 0 < (s.axis a).fb.hold) : Answers (.fbHoldLimit a t) s fun v =>
      v.get Ob.AxFb.FB_STATE a = 3 ∧ bit (v.nat Ob.Ctl.FAULT_SET a) 18 = true ∧ AxesKept [a] s v := by
  rw [answers_iff (exec_fbHoldLimit hrun), judgeHold_reached (by simpa using hsource) (by simpa using hlimit) (by simpa using hhold)]
  obtain ⟨hstate, hset⟩ := feedbackFault_spec (s := s.at t) (a := a)
  obtain ⟨haxes, -⟩ := (onAxis_feedbackFault (s := s.at t) (a := a)).kept_at
  exact ⟨hstate, hset, haxes⟩

/-! ### CLEAR_FAULT (R234, R235, R243) -/

/-- A fault of the unit that CLEAR_FAULT ends. -/
def faultClears (s : State) (u : Nat) : Bool :=
  let f := s.fbu u
  f.quad.fault && decide (f.quad.wires = 0) && (f.quad.illegal.all fun t => decide (t + s.nat Ob.Fb.ILLEGAL_WINDOW (fbIx u) * 1000000 < s.now)) &&
    ((!decide (u < 8 ∧ (unitMode s u = 2 ∨ unitMode s u = 3))) || !f.abs.errNow) && (decide (u < 8) || decide (s.get Ob.Die.LINK_STATE ≠ 2))

theorem startRebase_quad (x : Nat) : ((startRebase s a).fbu x).quad = (s.fbu x).quad := by
  unfold startRebase
  dsimp only
  split
  · by_cases hx : x = s.nat Ob.AxFb.FB_UNIT a <;> simp [hx]
  · rfl

theorem forList_startRebase_quad (l : List Nat) : ((forList l (fun a w => startRebase w a) s).fbu u).quad = (s.fbu u).quad :=
  forList_keeps (P := fun w => (w.fbu u).quad = (s.fbu u).quad) _ _ _ rfl fun _ _ hw => (startRebase_quad u).trans hw

/-- The incremental side of a unit after CLEAR_FAULT. -/
def quadCleared (s : State) (u : Nat) : QuadSt :=
  { (s.fbu u).quad with uncertain := false, indexSeen := false, fault := (s.fbu u).quad.fault && !faultClears s u }

theorem clearUnitFault_quad : ((clearUnitFault s u).fbu u).quad = quadCleared s u := by
  have hput (ab : AbsSt) : ((putUnit s u { s.fbu u with quad := quadCleared s u, abs := ab }).fbu u).quad = quadCleared s u := by simp
  have hrebased (v : State) (l : List Nat) (hv : (v.fbu u).quad = quadCleared s u) :
      ((forList l (fun a w => startRebase w a) v).fbu u).quad = quadCleared s u := (forList_startRebase_quad l).trans hv
  unfold clearUnitFault
  dsimp only
  split
  · refine forBelow_keeps (P := fun w => (w.fbu u).quad = quadCleared s u) _ _ _ ?_ fun c w hw => ?_
    · rw [State.fbu_setFbu, if_pos rfl]
      exact hrebased _ _ (hput _)
    · split <;> exact hw
  · exact hput _

theorem exec_clearFault (hrun : unitRuns s = true) : ∃ o x i, exec (.clearFault u t) s = .next ((clearUnitFault (s.at t) u).set o x i) := by
  by_cases hu : u < 8
  · exact ⟨_, _, _, (whileOn_runs hrun).trans (congrArg _ (if_pos hu))⟩
  · exact ⟨_, _, _, (whileOn_runs hrun).trans (congrArg _ (if_neg hu))⟩

theorem faultClears_of_healthy (hwires : (s.fbu u).quad.wires = 0) (hlink : u < 8 ∨ s.get Ob.Die.LINK_STATE ≠ 2)
    (hcalm : ∀ w ∈ (s.fbu u).quad.illegal, w + s.nat Ob.Fb.ILLEGAL_WINDOW (fbIx u) * 1000000 < s.now) (herr : (s.fbu u).abs.errNow = false) :
    faultClears s u = (s.fbu u).quad.fault := by
  have hall : ((s.fbu u).quad.illegal.all fun t => decide (t + s.nat Ob.Fb.ILLEGAL_WINDOW (fbIx u) * 1000000 < s.now)) = true := by simpa using hcalm
  have hup : (decide (u < 8) || decide (s.get Ob.Die.LINK_STATE ≠ 2)) = true := by simpa using hlink
  unfold faultClears
  dsimp only
  rw [hall, hup, hwires, herr]
  simp

/-- CLEAR_FAULT ends the fault of a healthy unit. -/
theorem clearFault_spec (hrun : unitRuns s = true) (hwires : (s.fbu u).quad.wires = 0) (hlink : u < 8 ∨ s.get Ob.Die.LINK_STATE ≠ 2)
    (hcalm : ∀ w ∈ (s.fbu u).quad.illegal, w + s.nat Ob.Fb.ILLEGAL_WINDOW (fbIx u) * 1000000 < (s.at t).now) (herr : (s.fbu u).abs.errNow = false) :
    Answers (.clearFault u t) s fun v =>
      (v.fbu u).quad.fault = false ∧ (v.fbu u).quad.uncertain = false ∧ (v.fbu u).quad.indexSeen = false ∧ (v.fbu u).quad.ext = (s.fbu u).quad.ext := by
  obtain ⟨o, x, i, hexec⟩ := exec_clearFault (u := u) (t := t) hrun
  have hclears := faultClears_of_healthy (s := s.at t) (u := u) (by simpa using hwires) (by simpa using hlink) (by simpa using hcalm) (by simpa using herr)
  rw [answers_iff hexec, State.set_fbu, clearUnitFault_quad, quadCleared, hclears]
  exact ⟨Bool.and_not_self _, rfl, rfl, congrArg (fun f => f.quad.ext) (State.at_fbu ..)⟩

end Sys2Proof.Machine

open Sys2Proof Sys2Proof.Machine

/-- Settles O49: an edge by the levels it takes and the judgement of its transition, faults by what they leave of their unit (`OnUnit`) and of their axis. -/
theorem encoderEdgesCountAndFaultsLatch : Obligations.EncoderEdgesCountAndFaultsLatch := by
  unfold Obligations.EncoderEdgesCountAndFaultsLatch
  intro s u t held a pair x y z d hu hrun s' q bytes others
  exact ⟨quadratureEdge_short hrun, fun hon hheld => ⟨quadratureEdge_counts hrun hon hheld, quadratureEdge_illegal hu hrun hon hheld⟩, illegalLimit_spec hrun,
    indexEvent_spec hrun, fun hu8 _ hmode => ⟨wireFault_inside hrun hu8 hmode, wireFault_outside hrun hu8 hmode⟩,
    fun _ hsource hlimit hhold _ => fbHoldLimit_spec hrun hsource hlimit hhold,
    fun hshort => (exec_fbHoldLimit hrun).trans (congrArg _ (judgeHold_short (by simpa))), clearFault_spec hrun⟩
end

