-- ==== Sys2Proof/Proofs/AbsoluteFrames.lean ====
section
/-! Frames of clocked absolute encoders (R237 to R239), and O50. -/

namespace Sys2Proof.Machine

variable {s : State} {u t word code : Nat} {low : Bool} {l : List Bool}

theorem fbIx_of_enc (hu : u < 8) : fbIx u = u := if_pos hu

@[simp] theorem at_absDecode (t : Nat) : absDecode (s.at t) u low l = absDecode s u low l := by
  unfold State.at
  split <;> rfl
@[simp] theorem at_absTime (t : Nat) : absTime (s.at t) u = absTime s u := by
  unfold State.at
  split <;> rfl

/-- Objects of an encoder unit that frames write. -/
def frameObjects : List Obj := [Ob.Fb.ABS_WORD, Ob.Fb.ABS_ERR_CODE, Ob.Fb.ABS_ERR_COUNT]

/-- What configures a unit stands when an object that frames write is set. -/
theorem unitMode_set {o : Obj} (ho : o ∈ frameObjects) (hu : u < 8) (x : Int) : unitMode (s.set o x u) u = unitMode s u := by
  rw [unitMode, fbIx_of_enc hu, unitMode, fbIx_of_enc hu]
  simp only [frameObjects, List.mem_cons, List.not_mem_nil, or_false] at ho
  rcases ho with rfl | rfl | rfl <;> simp +decide

theorem absTime_set {o : Obj} (ho : o ∈ frameObjects) (x : Int) : absTime (s.set o x u) u = absTime s u := by
  simp only [frameObjects, List.mem_cons, List.not_mem_nil, or_false] at ho
  rcases ho with rfl | rfl | rfl <;>
    simp +decide [absTime, absTimeHalf, absAckMax, absStartBits, absStatusBits, absCheckBits, absCheckKind, State.nat]

theorem errLimit_set {o : Obj} (ho : o ∈ frameObjects) (x : Int) : (s.set o x u).nat Ob.Fb.ABS_ERR_LIMIT u = s.nat Ob.Fb.ABS_ERR_LIMIT u := by
  simp only [frameObjects, List.mem_cons, List.not_mem_nil, or_false] at ho
  rcases ho with rfl | rfl | rfl <;> simp +decide [State.nat]

/-! ### Frames of an ABSOLUTE unit (R237, R238) -/

theorem exec_absFrame_unasked (hrun : unitRuns s = true) (hreq : (s.fbu u).abs.req = 0) : exec (.absFrame u low l t) s = .next (s.at t) :=
  (whileOn_runs hrun).trans (by simp [hreq])

theorem exec_absFrame (hrun : unitRuns s = true) (hu : u < 8) (hmode : unitMode s u = 2) (hreq : (s.fbu u).abs.req ≠ 0) :
    exec (.absFrame u low l t) s = .next (absReceive (s.at t) u low l) :=
  (whileOn_runs hrun).trans (by simp [hu, hmode, hreq])

/-- When the sample of the frame requested last is complete. -/
def frameReady (s : State) (u : Nat) : Nat := max s.now ((s.fbu u).abs.reqAt + absTime s u + 100)

/-- A unit that has taken a word. -/
def wordTaken (s : State) (u word : Nat) : FbUnit :=
  let f := s.fbu u
  let n := s.nat Ob.Fb.ABS_BITS u
  { f with abs := { f.abs with errNow := false, badRun := 0, repeats := 0, word := word, prevWord := some word, req := 0, valid := true, raw0 := word,
                               readyAt := some (frameReady s u), haveWord := true },
           quad := { f.quad with ext := if f.abs.haveWord then f.quad.ext + toSigned n (word + 2 ^ n - f.abs.word % 2 ^ n) else word } }

theorem absReceive_good (hu : u < 8) (hmode : unitMode s u = 2) (hdecode : absDecode s u low l = (word, 0)) :
    absReceive s u low l = putUnit ((s.set Ob.Fb.ABS_WORD word u).set Ob.Fb.ABS_ERR_CODE 0 u) u (wordTaken s u word) := by
  have hmode' : unitMode ((s.set Ob.Fb.ABS_WORD word u).set Ob.Fb.ABS_ERR_CODE 0 u) u = 2 := by
    rw [unitMode_set (by decide) hu, unitMode_set (by decide) hu, hmode]
  have htime : absTime ((s.set Ob.Fb.ABS_WORD word u).set Ob.Fb.ABS_ERR_CODE 0 u) u = absTime s u := by rw [absTime_set (by decide), absTime_set (by decide)]
  unfold absReceive
  rw [hdecode]
  dsimp only
  rw [if_pos rfl, if_pos hmode', htime]
  rfl

/-- A unit with a bad frame more. -/
def frameFailed (s : State) (u : Nat) : FbUnit :=
  let f := s.fbu u
  { f with abs := { f.abs with errNow := true, valid := false, readyAt := some (frameReady s u), req := 0, badRun := f.abs.badRun + 1 } }

/-- A bad frame counted with its code. -/
def badCounted (s : State) (u code : Nat) : State := (s.count Ob.Fb.ABS_ERR_COUNT u).set Ob.Fb.ABS_ERR_CODE code u

theorem absReceive_bad (hu : u < 8) (hmode : unitMode s u = 2) (hdecode : absDecode s u low l = (word, code)) (hcode : code ≠ 0) :
    absReceive s u low l =
      let v := putUnit (badCounted s u code) u (frameFailed s u)
      if s.nat Ob.Fb.ABS_ERR_LIMIT u ≤ (s.fbu u).abs.badRun + 1 then unitFault v u else v := by
  have hmode' : unitMode (badCounted s u code) u = 2 := by rw [badCounted, unitMode_set (by decide) hu, State.count, unitMode_set (by decide) hu, hmode]
  have htime : absTime (badCounted s u code) u = absTime s u := by rw [badCounted, absTime_set (by decide), State.count, absTime_set (by decide)]
  have hlimit : (badCounted s u code).nat Ob.Fb.ABS_ERR_LIMIT u = s.nat Ob.Fb.ABS_ERR_LIMIT u := by
    rw [badCounted, errLimit_set (by decide), State.count, errLimit_set (by decide)]
  unfold absReceive
  rw [hdecode]
  dsimp only
  rw [if_neg hcode, ← badCounted, if_pos hmode', htime, hlimit]
  rfl

/-- An object of an encoder unit beside UNIT_STATUS. -/
theorem OnUnit.get_enc {w : State} (h : OnUnit u s w) (hu : u < 8) {o : Obj} (hbase : o.base = 0x8110) (hst : o.st1 = 1) (hsub : o.sub < 256)
    (hne : o.sub ≠ 0x15) : w.get o u = s.get o u := by
  have hget := h.get (by omega) hbase hst hsub hne
  rwa [fbIx_of_enc hu] at hget

section Frame
variable (hu : u < 8) (hrun : unitRuns s = true)
include hu hrun

theorem absFrame_good (hmode : unitMode s u = 2) (hreq : (s.fbu u).abs.req ≠ 0) (hdecode : absDecode s u low l = (word, 0)) :
    Answers (.absFrame u low l t) s fun v =>
      (v.fbu u).abs.word = word ∧ (v.fbu u).abs.valid = true ∧ (v.fbu u).abs.raw0 = word ∧ (v.fbu u).abs.badRun = 0 ∧ (v.fbu u).abs.req = 0 ∧
        (v.fbu u).abs.readyAt = some (max (s.at t).now ((s.fbu u).abs.reqAt + absTime s u + 100)) ∧ v.get Ob.Fb.ABS_WORD u = word ∧
        v.get Ob.Fb.ABS_ERR_CODE u = 0 ∧ (∀ k, k ≠ u → v.fbu k = s.fbu k) ∧ (∀ k, v.axis k = s.axis k) ∧ BytesKept s v := by
  rw [answers_iff (exec_absFrame hrun hu hmode hreq), absReceive_good hu (by simpa using hmode) (by simpa using hdecode)]
  have hput : OnUnit u (((s.at t).set Ob.Fb.ABS_WORD word u).set Ob.Fb.ABS_ERR_CODE 0 u)
      (putUnit (((s.at t).set Ob.Fb.ABS_WORD word u).set Ob.Fb.ABS_ERR_CODE 0 u) u (wordTaken (s.at t) u word)) := by simp
  rw [hput.get_enc hu rfl rfl (by decide) (by decide), hput.get_enc hu rfl rfl (by decide) (by decide), putUnit_fbu, if_pos rfl]
  exact ⟨rfl, rfl, rfl, rfl, rfl, by simp [wordTaken, frameReady], by simp +decide, State.get_set_self ..,
    fun k hk => (hput.other k hk).trans (State.at_fbu ..), fun k => State.at_axis .., (bytesKept_at t).1 hput.bytes⟩

theorem absFrame_bad (hmode : unitMode s u = 2) (hreq : (s.fbu u).abs.req ≠ 0) (hdecode : absDecode s u low l = (word, code)) (hcode : code ≠ 0) :
    Answers (.absFrame u low l t) s fun v =>
      (v.fbu u).abs.word = (s.fbu u).abs.word ∧ (v.fbu u).abs.valid = false ∧ (v.fbu u).abs.badRun = (s.fbu u).abs.badRun + 1 ∧
        v.get Ob.Fb.ABS_ERR_CODE u = code ∧ v.get Ob.Fb.ABS_ERR_COUNT u = satInc 32 (s.get Ob.Fb.ABS_ERR_COUNT u) ∧
        (s.nat Ob.Fb.ABS_ERR_LIMIT u ≤ (s.fbu u).abs.badRun + 1 → (v.fbu u).quad.fault = true) := by
  rw [answers_iff (exec_absFrame hrun hu hmode hreq), absReceive_bad hu (by simpa using hmode) (by simpa using hdecode) hcode]
  have hbits : Ob.Fb.ABS_ERR_COUNT.ty.bits = 32 := rfl
  have hcode' : (badCounted (s.at t) u code).get Ob.Fb.ABS_ERR_CODE u = code := State.get_set_self ..
  have hcount : (badCounted (s.at t) u code).get Ob.Fb.ABS_ERR_COUNT u = satInc 32 (s.get Ob.Fb.ABS_ERR_COUNT u) := by
    simp +decide [badCounted, State.count, hbits]
  have hput : OnUnit u (badCounted (s.at t) u code) (putUnit (badCounted (s.at t) u code) u (frameFailed (s.at t) u)) := by simp
  dsimp only
  split
  · have hkept := onUnit_unitFault.2 hput
    rw [hkept.get_enc hu rfl rfl (by decide) (by decide), hkept.get_enc hu rfl rfl (by decide) (by decide), unitFault_fbu, putUnit_fbu, if_pos rfl]
    exact ⟨by simp [frameFailed, FbUnit.faulted], rfl, by simp [frameFailed, FbUnit.faulted], hcode', hcount, fun _ => rfl⟩
  · next hbelow =>
    rw [hput.get_enc hu rfl rfl (by decide) (by decide), hput.get_enc hu rfl rfl (by decide) (by decide), putUnit_fbu, if_pos rfl]
    exact ⟨by simp [frameFailed], rfl, by simp [frameFailed], hcode', hcount, fun hlimit => absurd (by simpa using hlimit) hbelow⟩

/-! ### Runs of bad frames (R238) -/

theorem absErrLimit_reached (hmode : 2 ≤ unitMode s u) (hlimit : s.nat Ob.Fb.ABS_ERR_LIMIT u ≤ (s.fbu u).abs.badRun) : Answers (.absErrLimit u t) s fun v =>
    (v.fbu u).quad.fault = true ∧ (v.fbu u).abs = (s.fbu u).abs := by
  have hexec : exec (.absErrLimit u t) s = .next (unitFault (s.at t) u) := (whileOn_runs hrun).trans (by simp [hu, hmode, hlimit])
  rw [answers_iff hexec, unitFault_fbu, State.at_fbu]
  exact ⟨rfl, rfl⟩

omit hu in
theorem absErrLimit_below (hbelow : (s.fbu u).abs.badRun < s.nat Ob.Fb.ABS_ERR_LIMIT u) : exec (.absErrLimit u t) s = .next (s.at t) :=
  (whileOn_runs hrun).trans (by simp [hbelow])

/-! ### Check frames (R239) -/

theorem absCheckPeriod_due (hmode : unitMode s u = 3) (hperiod : 0 < s.nat Ob.Fb.ABS_CHECK_PERIOD u)
    (hdue : (s.fbu u).abs.lastCheck + s.nat Ob.Fb.ABS_CHECK_PERIOD u * 1000000 ≤ (s.at t).now) : Answers (.absCheckPeriod u t) s fun v =>
      (v.fbu u).abs = { (s.fbu u).abs with checkDue := true, lastCheck := (s.at t).now } ∧ (v.fbu u).quad = (s.fbu u).quad ∧ v.od = s.od ∧
        ∀ k, k ≠ u → v.fbu k = s.fbu k := by
  have hexec : exec (.absCheckPeriod u t) s =
      .next ((s.at t).setFbu u { s.fbu u with abs := { (s.fbu u).abs with checkDue := true, lastCheck := (s.at t).now } }) :=
    (whileOn_runs hrun).trans (by simp [hu, hmode, hperiod, hdue])
  rw [answers_iff hexec]
  exact ⟨by simp, by simp, by simp, fun k hk => by simp [hk]⟩

omit hu in
theorem absCheckPeriod_early (hearly : (s.at t).now < (s.fbu u).abs.lastCheck + s.nat Ob.Fb.ABS_CHECK_PERIOD u * 1000000) :
    exec (.absCheckPeriod u t) s = .next (s.at t) := (whileOn_runs hrun).trans (by simp [hearly])

end Frame

end Sys2Proof.Machine

open Sys2Proof Sys2Proof.Machine

/-- Settles O50: a frame by what its unit takes of it, good (`wordTaken`) or bad (`frameFailed`), the limit and the period by the two cases of each. -/
theorem absoluteFramesAreTakenOrCounted : Obligations.AbsoluteFramesAreTakenOrCounted := by
  unfold Obligations.AbsoluteFramesAreTakenOrCounted
  intro s u t word code low l hu hrun s' f
  exact ⟨fun hmode hreq hdecode => ⟨fun hgood => absFrame_good hu hrun hmode hreq (hgood ▸ hdecode), absFrame_bad hu hrun hmode hreq hdecode⟩,
    exec_absFrame_unasked hrun, absErrLimit_reached hu hrun, absErrLimit_below hrun,
    fun hmode hperiod => ⟨absCheckPeriod_due hu hrun hmode hperiod, absCheckPeriod_early hrun⟩⟩
end

