-- ==== Sys2Proof/Proofs/AceOperations.lean ====
section
/-! Operations of a bundle that execute: what the marked engine reads, and the shape their effect has (R263 to R265). -/

namespace Sys2Proof.Machine

variable {s : State} {i : AceAt}

/-- Equal next states are equal outcomes. -/
theorem next_congr {u v : State} (h : u = v) : (.next u : Host.Outcome State Fault Refusal) = .next v := congrArg _ h

/-- An engine with the operation of a slot entered as executed. -/
def AceRt.mark (x : AceRt) (slot : Nat) : AceRt := { x with ran := setBit x.ran slot true }

section Mark
variable (x : AceRt) (k n : Nat)

@[simp] theorem AceRt.mark_gR : (x.mark k).gR n = x.gR n := rfl
@[simp] theorem AceRt.mark_pR : (x.mark k).pR n = x.pR n := rfl
@[simp] theorem AceRt.mark_mR : (x.mark k).mR n = x.mR n := rfl
@[simp] theorem AceRt.mark_lR : (x.mark k).lR n = x.lR n := rfl
@[simp] theorem AceRt.mark_accR : (x.mark k).accR n = x.accR n := rfl
@[simp] theorem AceRt.mark_accS : (x.mark k).accS n = x.accS n := rfl
@[simp] theorem AceRt.mark_spec : (x.mark k).spec n = x.spec n := rfl
@[simp] theorem AceRt.mark_st : (x.mark k).st n = x.st n := rfl
@[simp] theorem AceRt.mark_user : (x.mark k).user = x.user := rfl
@[simp] theorem AceRt.mark_depth : (x.mark k).depth = x.depth := rfl
@[simp] theorem AceRt.mark_mem : (x.mark k).mem = x.mem := rfl
@[simp] theorem AceRt.mark_branch : (x.mark k).branch = x.branch := rfl
@[simp] theorem AceRt.mark_call : (x.mark k).call = x.call := rfl
@[simp] theorem AceRt.mark_xld : (x.mark k).xld = x.xld := rfl
@[simp] theorem AceRt.mark_sbuf : (x.mark k).sbuf = x.sbuf := rfl
@[simp] theorem AceRt.mark_pc : (x.mark k).pc = x.pc := rfl
@[simp] theorem AceRt.mark_n : (x.mark k).n = x.n := rfl
@[simp] theorem AceRt.mark_fly : (x.mark k).fly = x.fly := rfl
@[simp] theorem AceRt.mark_lr : (x.mark k).lr = x.lr := rfl
@[simp] theorem AceRt.mark_ipc : (x.mark k).ipc = x.ipc := rfl
@[simp] theorem AceRt.mark_exc : (x.mark k).exc = x.exc := rfl
@[simp] theorem lAddr_mark (pn am : Nat) (off : Int) (w : Nat) : lAddr (x.mark k) pn am off w = lAddr x pn am off w := rfl

end Mark

@[simp] theorem ace_marked (s : State) (e k : Nat) : (marked s e k).ace e = (s.ace e).mark k := by
  rw [marked, State.ace_modAce, if_pos rfl, AceRt.mark]

@[simp] theorem nat_marked (s : State) (e k : Nat) (o : Obj) (i' j' k' : Nat) : (marked s e k).nat o i' j' k' = s.nat o i' j' k' := rfl
@[simp] theorem debugger_marked (s : State) (e k : Nat) : (marked s e k).debugger = s.debugger := rfl

/-- Two changes of an engine that agree on it as it stands lead to one state. -/
theorem State.modAce_congr {e : Nat} {f g : AceRt → AceRt} (h : f (s.ace e) = g (s.ace e)) : s.modAce e f = s.modAce e g := by
  rw [State.modAce, State.modAce, h]

/-- A result whose value the marked engine gives is the same result with that value written out. -/
theorem modAce_marked_send {e k slot lat : Nat} {d : Dest} {f : AceRt → Int} {v : Int} (h : f ((s.ace e).mark k) = v) :
    ((marked s e k).modAce e fun x => x.send slot lat d (f x)) = (marked s e k).modAce e fun x => x.send slot lat d v :=
  State.modAce_congr (by rw [ace_marked, h])

@[simp] theorem accessOk_marked (s : State) (e k a w : Nat) (store : Bool) : accessOk (marked s e k) e a w store = accessOk s e a w store := by
  simp only [accessOk, ace_marked, AceRt.mark_user, AceRt.mark_call]
  rfl

@[simp] theorem aceSat_false (s : State) (e k : Nat) : aceSat s e k false = s := rfl

/-- The no-operations execute nothing (R263). -/
theorem aceOp_nop (hrun : unitRuns s = true) (hpow : (s.ace i.eng).powered = true) (hhalt : (s.ace i.eng).halted = false)
    (hexc : (s.ace i.eng).exc = none) (hpred : i.pr ≠ 0 ∨ i.pn = false) (slot : Nat) : aceOp s i slot true false id = issued i s := by
  have hform : ¬(i.pr = 0 ∧ i.pn = true) := by
    rintro ⟨hpr, hpn⟩
    rcases hpred with h | h
    · exact h hpr
    · exact Bool.noConfusion (hpn.symm.trans h)
  simp [aceOp, issued, hrun, hpow, hhalt, hexc, hform]

end Sys2Proof.Machine
end

