-- ==== Sys2Proof/Proofs/AluResults.lean ====
section
/-! Results of the A slot (R264, R265), and O8. -/

namespace Sys2Proof.Machine

variable {s : State} {i : AceAt} {c : Instr} {d a b : Nat} {f : DWord → DWord → DWord × Bool}

/-- An executing A-slot operation enters its result for the next bundle and sets ALU_SAT where it saturates. -/
theorem aluOp_enters (h : OpExecutes i s) (hc : exec c s = .next (aluOp s i d a b f)) :
    EntersSat c i s 1 1 (.g d) (f ((s.ace i.eng).gR a) ((s.ace i.eng).gR b)).1.toInt 0 (f ((s.ace i.eng).gR a) ((s.ace i.eng).gR b)).2 := by
  rw [EntersSat, hc, aluOp, aceOp_executes h]
  simp

theorem aluOp_plain (h : OpExecutes i s) (g : DWord → DWord → DWord) (hc : exec c s = .next (aluOp s i d a b fun u v => plain (g u v))) :
    Enters c i s 1 1 (.g d) (g ((s.ace i.eng).gR a) ((s.ace i.eng).gR b)).toInt := aluOp_enters h hc

/-- What is saturated to 64 bits reads back from a register of 64 bits. -/
theorem toInt_ofInt_sat64 (v : Int) : (BitVec.ofInt 64 (sat 64 v)).toInt = sat 64 v := by
  have hlow : -(2 ^ 63) ≤ sat 64 v := le_max_left _ _
  have hhigh : sat 64 v ≤ 2 ^ 63 - 1 := max_le (by norm_num [intMin]) (min_le_left _ _)
  rw [BitVec.toInt_ofInt]
  exact Int.bmod_eq_of_le (by omega) (by omega)

theorem aluOp_sat64 (h : OpExecutes i s) (g : DWord → DWord → Int) (hc : exec c s = .next (aluOp s i d a b fun u v => sat64w (g u v))) :
    let v := g ((s.ace i.eng).gR a) ((s.ace i.eng).gR b)
    EntersSat c i s 1 1 (.g d) (sat 64 v) 0 (decide (sat 64 v ≠ v)) := by
  intro v
  have henters := aluOp_enters h hc
  rwa [sat64w, toInt_ofInt_sat64] at henters

theorem toInt_ite_le (u v : DWord) : (if u.toInt ≤ v.toInt then u else v).toInt = min u.toInt v.toInt := by
  split
  · exact (min_eq_left ‹_›).symm
  · exact (min_eq_right (le_of_not_ge ‹_›)).symm

theorem toInt_ite_ge (u v : DWord) : (if u.toInt ≤ v.toInt then v else u).toInt = max u.toInt v.toInt := by
  split
  · exact (max_eq_right ‹_›).symm
  · exact (max_eq_left (le_of_not_ge ‹_›)).symm

/-- Two lanes of 32 bits by an operation, saturated, then halved where `h` asks. -/
def lanesBy (op : Int → Int → Int) (h : Bool) (u v : DWord) : DWord × Bool :=
  let f (a b : Int) : Int × Bool := (if h then roundShr (sat 32 (op a b)) 1 else sat 32 (op a b), decide (sat 32 (op a b) ≠ op a b))
  let hi := f (half u true) (half v true)
  let lo := f (half u false) (half v false)
  (BitVec.ofNat 64 (lowBits 32 hi.1 * 2 ^ 32 + lowBits 32 lo.1), hi.2 || lo.2)

theorem lanes_one (h : Bool) : lanes 1 h = lanesBy (· + ·) h := by
  funext u v
  simp only [lanes, lanesBy, one_mul]

theorem lanes_neg_one (h : Bool) : lanes (-1) h = lanesBy (· - ·) h := by
  funext u v
  simp only [lanes, lanesBy, neg_one_mul, ← sub_eq_add_neg]

/-- An executing operation on two lanes enters what `lanesBy` says. -/
theorem aluOp_lanes (h : OpExecutes i s) (op : Int → Int → Int) (r : Bool) (hc : exec c s = .next (aluOp s i d a b (lanesBy op r))) :
    let v := lanesBy op r ((s.ace i.eng).gR a) ((s.ace i.eng).gR b)
    EntersSat c i s 1 1 (.g d) v.1.toInt 0 v.2 := aluOp_enters h hc

theorem exec_padd2 (r : Bool) : exec (.acePadd2 i d a b r) s = .next (aluOp s i d a b (lanesBy (· + ·) r)) :=
  congrArg (fun f => Host.Outcome.next (aluOp s i d a b f)) (lanes_one r)

theorem exec_psub2 (r : Bool) : exec (.acePsub2 i d a b r) s = .next (aluOp s i d a b (lanesBy (· - ·) r)) :=
  congrArg (fun f => Host.Outcome.next (aluOp s i d a b f)) (lanes_neg_one r)

end Sys2Proof.Machine

open Sys2Proof Sys2Proof.Machine

/-- Settles O8: each operation is `aluOp` of its function, whose result is entered plain, saturated to 64 bits, or by lanes. -/
theorem aluOperationsEnterTheirResults : Obligations.AluOperationsEnterTheirResults := by
  unfold Obligations.AluOperationsEnterTheirResults
  refine ⟨fun s i d a b n imm v h => ?_, fun s i d a b h => ?_⟩
  · have hmin : Enters (.aceMin i d a b) i s 1 1 (.g d) _ := aluOp_plain h (fun u v => if u.toInt ≤ v.toInt then u else v) rfl
    have hmax : Enters (.aceMax i d a b) i s 1 1 (.g d) _ := aluOp_plain h (fun u v => if u.toInt ≤ v.toInt then v else u) rfl
    rw [toInt_ite_le] at hmin
    rw [toInt_ite_ge] at hmax
    exact ⟨aluOp_plain h (· + ·) rfl, aluOp_plain h (· - ·) rfl, aluOp_plain h (· &&& ·) rfl, aluOp_plain h (· ||| ·) rfl, aluOp_plain h (· ^^^ ·) rfl,
      aluOp_plain h (fun u _ => u <<< n) rfl, aluOp_plain h (fun u _ => u >>> n) rfl, aluOp_plain h (fun u _ => u.sshiftRight n) rfl,
      aluOp_plain h (fun u _ => BitVec.ofInt 64 (roundShr u.toInt n)) rfl, hmin, hmax, aluOp_plain h (fun u _ => u + BitVec.ofInt 64 imm) rfl,
      aluOp_plain h (fun _ _ => ldiValue v none) rfl, fun x => aluOp_plain h (fun _ _ => ldiValue v (some x)) rfl⟩
  · exact ⟨aluOp_sat64 h (fun u v => u.toInt + v.toInt) rfl, aluOp_sat64 h (fun u v => u.toInt - v.toInt) rfl, aluOp_sat64 h (fun u _ => |u.toInt|) rfl,
      aluOp_sat64 h (fun u _ => -u.toInt) rfl, aluOp_lanes h _ false (exec_padd2 _), aluOp_lanes h _ false (exec_psub2 _),
      aluOp_lanes h _ true (exec_padd2 _), aluOp_lanes h _ true (exec_psub2 _)⟩
end

