-- ==== Sys2Proof/Proofs/ComparesAndMoves.lean ====
section
/-! Compares, moves of address and special registers, no-operations and false predicates (R261 to R264), and O9. -/

namespace Sys2Proof.Machine

variable {s : State} {i : AceAt} {d a b n cc : Nat} {r : Bool} {v : Dest}

/-- A listed comparison enters its truth value in its predicate. -/
theorem cmp_enters (h : OpExecutes i s) (hr : compare? cc ((s.ace i.eng).gR a) ((s.ace i.eng).gR b) = some r) :
    Enters (.aceCmp i d a b cc) i s 1 1 (.c d) (if r then 1 else 0) := by
  refine next_congr ((aceOp_executes h 1 _).trans ?_)
  simp [hr]

theorem mtr_enters (h : OpExecutes i s) (hv : addrReg n = some v) :
    Enters (.aceMtr i n a) i s 1 2 v (toSigned 32 ((s.ace i.eng).gR a).toNat) := by
  refine next_congr ((aceOp_executes h 1 _).trans ?_)
  rw [hv]
  exact congrArg (issued i) (modAce_marked_send rfl)

theorem mfr_enters (h : OpExecutes i s) (hn : n < 24) : Enters (.aceMfr i d n) i s 1 1 (.g d) (addrValue (s.ace i.eng) n) := by
  refine next_congr ((aceOp_executes h 1 _).trans ?_)
  rw [if_pos hn]
  exact congrArg (issued i) (modAce_marked_send rfl)

/-- A privileged special register is out of reach in user mode only. -/
theorem specPriv_and_user (h : 2 < n ∨ (s.ace i.eng).user = false) : (specPriv n && (s.ace i.eng).user) = false := by
  rcases h with hn | huser
  · simp [specPriv, hn]
  · simp [huser]

theorem mts_enters (h : OpExecutes i s) (hn : n < 20) (hpriv : 2 < n ∨ (s.ace i.eng).user = false) :
    Enters (.aceMts i n a) i s 1 3 (.spec n) ((s.ace i.eng).gR a).toNat := by
  refine next_congr ((aceOp_executes h 1 _).trans ?_)
  simp only [ace_marked, AceRt.mark_user, specPriv_and_user hpriv, Nat.not_le.2 hn, if_false, Bool.false_eq_true]
  exact congrArg (issued i) (modAce_marked_send rfl)

@[simp] theorem userRead_marked (s : State) (e k : Nat) (x : AceRt) : userRead (marked s e k) (x.mark k) = userRead s x := rfl

/-- MFS enters the special register, or 0 where the counters are closed to the user block (R262). -/
theorem mfs_enters (h : OpExecutes i s) (hn : n < 20) (hpriv : 2 < n ∨ (s.ace i.eng).user = false) :
    Enters (.aceMfs i d n) i s 1 1 (.g d)
      ((if 11 ≤ n ∧ (s.ace i.eng).user = true ∧ userRead s (s.ace i.eng) = false then 0 else (s.ace i.eng).spec n : Nat) : Int) := by
  refine next_congr ((aceOp_executes h 1 _).trans ?_)
  simp [specPriv_and_user hpriv, Nat.not_le.2 hn]

theorem mfs_enters_spec (h : OpExecutes i s) (hn : n < 20) (hpriv : 2 < n ∨ (s.ace i.eng).user = false)
    (hread : n < 11 ∨ (s.ace i.eng).user = false ∨ userRead s (s.ace i.eng) = true) :
    Enters (.aceMfs i d n) i s 1 1 (.g d) ((s.ace i.eng).spec n) := by
  have henters := mfs_enters (d := d) h hn hpriv
  have hopen : ¬(11 ≤ n ∧ (s.ace i.eng).user = true ∧ userRead s (s.ace i.eng) = false) := by
    rintro ⟨hcounter, huser, hclosed⟩
    rcases hread with hlow | hsystem | hopen
    · omega
    · exact Bool.noConfusion (hsystem.symm.trans huser)
    · exact Bool.noConfusion (hclosed.symm.trans hopen)
  rwa [if_neg hopen] at henters

theorem mfs_enters_zero (h : OpExecutes i s) (hcounter : 11 ≤ n) (hn : n < 20) (huser : (s.ace i.eng).user = true)
    (hclosed : userRead s (s.ace i.eng) = false) : Enters (.aceMfs i d n) i s 1 1 (.g d) 0 := by
  have henters := mfs_enters (d := d) h hn (.inl (by omega))
  rwa [if_pos ⟨hcounter, huser, hclosed⟩] at henters

/-- The address registers by their numbers (R261): pointers from 0, modifiers from 8, mode words from 16. -/
theorem address_moves (h : OpExecutes i s) (hn : n < 8) :
    let x := s.ace i.eng
    let w := toSigned 32 (x.gR a).toNat
    Enters (.aceMtr i n a) i s 1 2 (.p n) w ∧ Enters (.aceMtr i (8 + n) a) i s 1 2 (.m n) w ∧ Enters (.aceMtr i (16 + n) a) i s 1 2 (.l n) w ∧
      Enters (.aceMfr i d n) i s 1 1 (.g d) (((x.pR n).toNat : Nat) : Int) ∧ Enters (.aceMfr i d (8 + n)) i s 1 1 (.g d) (x.mR n).toInt ∧
      Enters (.aceMfr i d (16 + n)) i s 1 1 (.g d) (((x.lR n).toNat : Nat) : Int) := by
  have hm : ¬8 + n < 8 := by omega
  have hl : ¬16 + n < 16 := by omega
  have hp := mfr_enters (d := d) h (show n < 24 by omega)
  have hmod := mfr_enters (d := d) h (show 8 + n < 24 by omega)
  have hmode := mfr_enters (d := d) h (show 16 + n < 24 by omega)
  rw [addrValue, if_pos hn] at hp
  rw [addrValue, if_neg hm, if_pos (by omega), Nat.add_sub_cancel_left] at hmod
  rw [addrValue, if_neg (by omega), if_neg hl, Nat.add_sub_cancel_left] at hmode
  refine ⟨mtr_enters h (if_pos hn), mtr_enters h ?_, mtr_enters h ?_, hp, hmod, hmode⟩
  · rw [addrReg, if_neg hm, if_pos (by omega), Nat.add_sub_cancel_left]
  · rw [addrReg, if_neg (by omega), if_neg hl, if_pos (by omega), Nat.add_sub_cancel_left]

/-- An access whose predicate is false does nothing. -/
theorem lAccess_false (hrun : unitRuns s = true) (hpow : (s.ace i.eng).powered = true) (hhalt : (s.ace i.eng).halted = false)
    (hexc : (s.ace i.eng).exc = none) (hpr : i.pr ≠ 0) (hfalse : (s.ace i.eng).pred i.pr = i.pn) (pn am : Nat) (off : Int) (w : Nat) (store : Bool)
    (f : State → Nat → State) : lAccess s i pn am off w store f = issued i s :=
  aceOp_false hrun hpow hhalt hexc hpr hfalse 2 false _

end Sys2Proof.Machine

open Sys2Proof Sys2Proof.Machine

/-- Settles O9: compares and moves by what they enter, no-operations and false predicates by `aceOp_nop` and `aceOp_false`. -/
theorem comparesMovesAndNoOperations : Obligations.ComparesMovesAndNoOperations := by
  unfold Obligations.ComparesMovesAndNoOperations
  refine ⟨fun s i d a b n h => ?_, fun s i hrun hpow hhalt hexc => ⟨fun hpred => ?_, fun hpr hfalse d a b k n l off => ?_⟩⟩
  · exact ⟨cmp_enters h (congrArg some (beq_eq_decide ..)), cmp_enters h (congrArg some (by simp [bne, beq_eq_decide])), cmp_enters h rfl, cmp_enters h rfl,
      cmp_enters h rfl, cmp_enters h rfl, address_moves h, mts_enters h, mfs_enters_spec h, mfs_enters_zero h⟩
  · have hnop := fun slot => next_congr (aceOp_nop hrun hpow hhalt hexc hpred slot)
    exact ⟨hnop 0, hnop 1, hnop 2⟩
  · have hnone := fun slot f => next_congr (aceOp_false hrun hpow hhalt hexc hpr hfalse slot false f)
    have haccess := fun store f => next_congr (lAccess_false hrun hpow hhalt hexc hpr hfalse a n off 8 store f)
    exact ⟨hnone 1 _, hnone 0 _, hnone 0 _, hnone 1 _, hnone 1 _, haccess true _, haccess false _, hnone 2 _⟩
end

