-- ==== Sys2Proof/Proofs/Accumulators.lean ====
section
/-! M-slot operations that write accumulators, and extractions (R264, R265, R269), and O10. -/

namespace Sys2Proof.Machine

variable {s : State} {i : AceAt} {d k a b r sh m : Nat} {h : Bool}

/-- A product of 64 by 32 bits added to what is kept of the accumulator. -/
theorem mulAcc_executes (hx : OpExecutes i s) (keep sg : Int) :
    mulAcc s i k a b h keep sg =
      issued i (putAcc (marked s i.eng 0) i.eng k (keep * (s.ace i.eng).accR k + sg * (((s.ace i.eng).gR a).toInt * half ((s.ace i.eng).gR b) h))) := by
  rw [mulAcc, aceOp_executes hx]
  simp

theorem movAcc_executes (hx : OpExecutes i s) (hsh : sh ≤ 63) (hfits : sat 96 (((s.ace i.eng).gR a).toInt * 2 ^ sh) = ((s.ace i.eng).gR a).toInt * 2 ^ sh) :
    movAcc s i k a sh false = issued i (putAcc (marked s i.eng 0) i.eng k (((s.ace i.eng).gR a).toInt * 2 ^ sh)) := by
  rw [movAcc, aceOp_executes hx]
  simp [Nat.not_lt.2 hsh, hfits]

theorem addAcc_executes (hx : OpExecutes i s) (hsh : sh ≤ 63) :
    movAcc s i k a sh true = issued i (putAcc (marked s i.eng 0) i.eng k ((s.ace i.eng).accR k + ((s.ace i.eng).gR a).toInt * 2 ^ sh)) := by
  rw [movAcc, aceOp_executes hx]
  simp [Nat.not_lt.2 hsh]

theorem clra_executes (hx : OpExecutes i s) : exec (.aceClra i k) s = .next (issued i (putAcc (marked s i.eng 0) i.eng k 0)) :=
  next_congr (aceOp_executes hx 0 _)

/-- A complex product added to what is kept of an even pair of accumulators. -/
theorem cplAcc_executes (hx : OpExecutes i s) (hk : k % 2 = 0) (keep : Int) :
    let x := s.ace i.eng
    let p := cProd (x.gR a) (x.gR b)
    cplAcc s i k a b keep =
      issued i (putAcc (putAcc (marked s i.eng 0) i.eng k (keep * x.accR k + p.1)) i.eng (k + 1) (keep * x.accR (k + 1) + p.2)) := by
  intro x p
  rw [cplAcc, aceOp_executes hx]
  simp [hk, x, p]

/-- An extraction within the shift limit enters the rounded, saturated quotient. -/
theorem extAcc_enters {c : Instr} {f : AceRt → Nat} (hx : OpExecutes i s) (hc : exec c s = .next (extAcc s i d k f m))
    (hmark : f ((s.ace i.eng).mark 0) = sh) (hsh : sh ≤ 95) :
    let q := roundShr ((s.ace i.eng).accS k) sh
    EntersSat c i s 0 2 (.g d) (sat m q) 2 (decide (sat m q ≠ q)) := by
  intro q
  rw [EntersSat, hc, extAcc, aceOp_executes hx]
  simp [hmark, Nat.not_lt.2 hsh, extract, q]

theorem cext_enters (hx : OpExecutes i s) (hk : k % 2 = 0) (hsh : sh ≤ 95) :
    let q := roundShr ((s.ace i.eng).accS k) sh
    let im := roundShr ((s.ace i.eng).accS (k + 1)) sh
    EntersSat (.aceCext i d k sh) i s 0 2 (.g d) (((lowBits 32 (sat 32 q) * 2 ^ 32 + lowBits 32 (sat 32 im) : Nat) : Int)) 2
      (decide (sat 32 q ≠ q) || decide (sat 32 im ≠ im)) := by
  intro q im
  refine next_congr ((aceOp_executes hx 0 _).trans ?_)
  simp only [ace_marked, AceRt.mark_accS, Nat.not_lt.2 hsh, hk, Nat.zero_ne_one, or_self, if_false]
  rfl

end Sys2Proof.Machine

open Sys2Proof Sys2Proof.Machine

/-- Settles O10: accumulators by the value each operation puts (`putAcc`), extractions by their rounded, saturated quotient. -/
theorem accumulatorsAndExtractionsRoundAndSaturate : Obligations.AccumulatorsAndExtractionsRoundAndSaturate := by
  unfold Obligations.AccumulatorsAndExtractionsRoundAndSaturate
  refine ⟨fun s i k a b sh h hx => ?_, fun s i d k r sh hx hsh => ?_⟩
  · have hmul := fun keep sg => next_congr (mulAcc_executes (k := k) (a := a) (b := b) (h := h) hx keep sg)
    have hcpl := fun hk keep => next_congr (cplAcc_executes (k := k) (a := a) (b := b) hx hk keep)
    have hmpy := hmul 0 1
    have hmac := hmul 1 1
    have hmsu := hmul 1 (-1)
    simp only [zero_mul, one_mul, zero_add, neg_one_mul, ← sub_eq_add_neg] at hmpy hmac hmsu
    have hcmpy := fun hk => hcpl hk 0
    have hcmac := fun hk => hcpl hk 1
    simp only [zero_mul, one_mul, zero_add] at hcmpy hcmac
    exact ⟨hmpy, hmac, hmsu, fun hsh hfits => next_congr (movAcc_executes hx hsh hfits), fun hsh => next_congr (addAcc_executes hx hsh), clra_executes hx,
      fun hk => ⟨hcmpy hk, hcmac hk⟩⟩
  · exact ⟨extAcc_enters hx rfl rfl hsh, extAcc_enters hx rfl rfl hsh,
      fun hr => ⟨extAcc_enters hx rfl (by simpa [bits] using hr) hsh, extAcc_enters hx rfl (by simpa [bits] using hr) hsh⟩,
      fun hk => cext_enters hx hk hsh⟩
end

