-- ==== Sys2Proof/Proofs/LoadsAndStores.lean ====
section
/-! Addresses, loads, stores, pairs and pointers of the L slot (R258, R264 to R268), and O11 and O12. -/

namespace Sys2Proof.Machine

variable {s : State} {i : AceAt} {pn am w g : Nat} {off : Int} {store : Bool} {f : State → Nat → State} {x : AceRt}

/-- The pointer an access modifies enters its new value for the next bundle. -/
def pointerMoved (s : State) (e pn : Nat) (q : Option Nat) : State :=
  match q with
  | some p => s.modAce e fun x => x.send 2 1 (.p pn) (p : Int)
  | none => s

/-- An executing access whose address is formed and allowed has its effect there; the pointer is modified after it. -/
theorem lAccess_executes (h : OpExecutes i s) (hgood : (lAddr (s.ace i.eng) pn am off w).2.2 = none)
    (hok : accessOk s i.eng (lAddr (s.ace i.eng) pn am off w).1 w store = true) :
    lAccess s i pn am off w store f =
      issued i (pointerMoved (f (marked s i.eng 2) (lAddr (s.ace i.eng) pn am off w).1) i.eng pn (lAddr (s.ace i.eng) pn am off w).2.1) := by
  rw [lAccess, aceOp_executes h]
  simp only [ace_marked, lAddr_mark, hgood, accessOk_marked, hok, if_true]
  rfl

/-- A load enters the bytes at its address, extended, for the third bundle on, and counts its event. -/
theorem loadOp_executes {signed : Bool} (h : OpExecutes i s) (hgood : (lAddr (s.ace i.eng) pn am off w).2.2 = none)
    (hok : accessOk s i.eng (lAddr (s.ace i.eng) pn am off w).1 w false = true) :
    loadOp s i g pn am off w signed =
      issued i (pointerMoved (aceEvent ((marked s i.eng 2).modAce i.eng fun x =>
        x.send 2 3 (.g g) (extendTo w signed (Mem.read (s.ace i.eng).mem (lAddr (s.ace i.eng) pn am off w).1 w))) i.eng 4 1)
          i.eng pn (lAddr (s.ace i.eng) pn am off w).2.1) := by
  rw [loadOp, lAccess_executes h hgood hok, modAce_marked_send rfl]
  rfl

/-- A store enters the bytes of its register at its address for the end of the bundle, and counts its event. -/
theorem storeOp_executes (h : OpExecutes i s) (hgood : (lAddr (s.ace i.eng) pn am off w).2.2 = none)
    (hok : accessOk s i.eng (lAddr (s.ace i.eng) pn am off w).1 w true = true) :
    storeOp s i g pn am off w =
      issued i (pointerMoved (aceEvent ((marked s i.eng 2).modAce i.eng fun x =>
        x.send 2 1 (.mem (lAddr (s.ace i.eng) pn am off w).1 w) ((s.ace i.eng).gR g).toInt) i.eng 5 1)
          i.eng pn (lAddr (s.ace i.eng) pn am off w).2.1) := by
  rw [storeOp, lAccess_executes h hgood hok, modAce_marked_send rfl]
  rfl

/-! ### Addresses under the linear mode (R268) -/

/-- Under the linear mode a pointer moves by addition. -/
theorem modify_linear {l : Word} (hl : bits l.toNat 30 2 = 0) (p : Nat) (d : Int) : modify l p d = some (lowBits 32 ((p : Int) + d)) := by
  simp only [modify, hl]

theorem lAddr_post_m (hl : bits (x.lR pn).toNat 30 2 = 0) :
    lAddr x pn 1 off w = ((x.pR pn).toNat, some (lowBits 32 (((x.pR pn).toNat : Int) + (x.mR pn).toInt)), none) := by
  simp only [lAddr, modify_linear hl]

theorem lAddr_post_imm (hl : bits (x.lR pn).toNat 30 2 = 0) :
    lAddr x pn 2 off w = ((x.pR pn).toNat, some (lowBits 32 (((x.pR pn).toNat : Int) + off * w)), none) := by
  simp only [lAddr, modify_linear hl]

/-! ### Pairs (R264, R267) -/

/-- The address of a phase of a pair operation. -/
abbrev phaseAddr (x : AceRt) (pn : Nat) (off : Int) : Nat := lowBits 32 (((x.pR pn).toNat : Int) + 8 * off)

variable {rp pa pb : Nat} {oa ob : Int}

theorem st2_executes (h : OpExecutes i s) (ha : accessOk s i.eng (phaseAddr (s.ace i.eng) pa oa) 8 true = true)
    (hb : accessOk s i.eng (phaseAddr (s.ace i.eng) pb ob) 8 true = true) :
    exec (.aceSt2D i rp pa oa pb ob) s = .next (issued i (aceEvent ((marked s i.eng 2).modAce i.eng fun y =>
      (y.send 2 1 (.mem (phaseAddr (s.ace i.eng) pa oa) 8) ((s.ace i.eng).gR (2 * rp)).toInt).send 2 1
        (.mem (phaseAddr (s.ace i.eng) pb ob) 8) ((s.ace i.eng).gR (2 * rp + 1)).toInt) i.eng 5 2)) := by
  refine next_congr ((aceOp_executes h 2 _).trans ?_)
  simp only [pairAddr, ace_marked, AceRt.mark_pR, accessOk_marked, ha, hb, Bool.and_self, if_true]
  exact congrArg (fun u => issued i (aceEvent u i.eng 5 2)) (State.modAce_congr (by rw [ace_marked]; rfl))

theorem ld2_executes (h : OpExecutes i s) (ha : accessOk s i.eng (phaseAddr (s.ace i.eng) pa oa) 8 false = true)
    (hb : accessOk s i.eng (phaseAddr (s.ace i.eng) pb ob) 8 false = true) :
    exec (.aceLd2D i rp pa oa pb ob) s = .next (issued i (aceEvent ((marked s i.eng 2).modAce i.eng fun y =>
      (y.send 2 3 (.g (2 * rp)) (Mem.read (s.ace i.eng).mem (phaseAddr (s.ace i.eng) pa oa) 8 : Nat)).send 2 3 (.g (2 * rp + 1))
        (Mem.read (s.ace i.eng).mem (phaseAddr (s.ace i.eng) pb ob) 8 : Nat)) i.eng 4 2)) := by
  refine next_congr ((aceOp_executes h 2 _).trans ?_)
  simp only [pairAddr, ace_marked, AceRt.mark_pR, accessOk_marked, ha, hb, Bool.and_self, if_true]
  exact congrArg (fun u => issued i (aceEvent u i.eng 4 2)) (State.modAce_congr (by rw [ace_marked]; rfl))

/-- LDST.D under the linear mode: a load, a store, and both pointers moved by their modifiers. -/
theorem ldst_executes {d : Nat} (h : OpExecutes i s) (hla : bits ((s.ace i.eng).lR pa).toNat 30 2 = 0) (hlb : bits ((s.ace i.eng).lR pb).toNat 30 2 = 0)
    (ha : accessOk s i.eng ((s.ace i.eng).pR pa).toNat 8 false = true) (hb : accessOk s i.eng ((s.ace i.eng).pR pb).toNat 8 true = true) :
    let x := s.ace i.eng
    exec (.aceLdstD i d pa g pb) s = .next (issued i (aceEvent (aceEvent ((marked s i.eng 2).modAce i.eng fun y =>
      (((y.send 2 3 (.g d) (Mem.read x.mem (x.pR pa).toNat 8 : Nat)).send 2 1 (.mem (x.pR pb).toNat 8) (x.gR g).toInt).send 2 1 (.p pa)
        (lowBits 32 (((x.pR pa).toNat : Int) + (x.mR pa).toInt) : Nat)).send 2 1 (.p pb)
          (lowBits 32 (((x.pR pb).toNat : Int) + (x.mR pb).toInt) : Nat)) i.eng 4 1) i.eng 5 1)) := by
  intro x
  refine next_congr ((aceOp_executes h 2 _).trans ?_)
  simp only [ace_marked, lAddr_mark, lAddr_post_m hla, lAddr_post_m hlb, accessOk_marked, ha, hb]
  exact congrArg (fun u => issued i (aceEvent (aceEvent u i.eng 4 1) i.eng 5 1)) (State.modAce_congr (by rw [ace_marked]; rfl))

theorem pmod_enters {imm : Int} (h : OpExecutes i s) (hl : bits ((s.ace i.eng).lR pn).toNat 30 2 = 0) :
    Enters (.acePmod i pn imm) i s 2 1 (.p pn) (lowBits 32 ((((s.ace i.eng).pR pn).toNat : Int) + imm) : Nat) := by
  refine next_congr ((aceOp_executes h 2 _).trans ?_)
  simp only [ace_marked, AceRt.mark_lR, AceRt.mark_pR, modify_linear hl]

end Sys2Proof.Machine

open Sys2Proof Sys2Proof.Machine

/-- Settles O11: every load is `loadOp` of its width, and the linear mode moves a pointer by addition. -/
theorem loadsAndAddressing : Obligations.LoadsAndAddressing := by
  unfold Obligations.LoadsAndAddressing
  refine ⟨fun s i g pn am off h => ?_, fun x pn off w hl => ⟨rfl, lAddr_post_m hl, lAddr_post_imm hl⟩⟩
  exact ⟨fun hgood hok => next_congr (loadOp_executes h hgood hok), fun hgood hok => next_congr (loadOp_executes h hgood hok),
    fun hgood hok => next_congr (loadOp_executes h hgood hok), fun hgood hok => next_congr (loadOp_executes h hgood hok),
    fun hgood hok => next_congr (loadOp_executes h hgood hok)⟩

/-- Settles O12: every store is `storeOp` of its width; pairs, LDST.D and PMOD by what their effect enters. -/
theorem storesPairsAndPointers : Obligations.StoresPairsAndPointers := by
  unfold Obligations.StoresPairsAndPointers
  refine ⟨fun s i g pn am rp pa pb off oa ob h => ?_, fun s i d pa g pb pn imm h => ⟨ldst_executes h, pmod_enters h⟩⟩
  exact ⟨fun hgood hok => next_congr (storeOp_executes h hgood hok), fun hgood hok => next_congr (storeOp_executes h hgood hok),
    fun hgood hok => next_congr (storeOp_executes h hgood hok), st2_executes h, ld2_executes h⟩
end

