-- ==== Sys2Proof/Proofs/BundleEnd.lean ====
section
/-! The end of a bundle of one result (R265, R271): the result lands, and nothing else of the programmer's state moves; O13 and O14. -/

namespace Sys2Proof.Machine

variable {s t u : State} {e d a b g pn w : Nat} {off : Int} {x y z : AceRt} {f : Fly} {c : Instr}

/-- Two engines whose registers, results in flight, flow and data SRAM agree; counters and requests may differ. -/
structure AceRt.SameView (x y : AceRt) : Prop where
  g : y.g = x.g
  acc : y.acc = x.acc
  accSeen : y.accSeen = x.accSeen
  p : y.p = x.p
  m : y.m = x.m
  l : y.l = x.l
  c : y.c = x.c
  flags : y.flags = x.flags
  status : y.status = x.status
  n : y.n = x.n
  fly : y.fly = x.fly
  branch : y.branch = x.branch
  exc : y.exc = x.exc
  mem : y.mem = x.mem

theorem AceRt.SameView.refl (x : AceRt) : x.SameView x := ⟨rfl, rfl, rfl, rfl, rfl, rfl, rfl, rfl, rfl, rfl, rfl, rfl, rfl, rfl⟩

theorem AceRt.SameView.trans (h : x.SameView y) (k : y.SameView z) : x.SameView z :=
  ⟨k.g.trans h.g, k.acc.trans h.acc, k.accSeen.trans h.accSeen, k.p.trans h.p, k.m.trans h.m, k.l.trans h.l, k.c.trans h.c, k.flags.trans h.flags,
    k.status.trans h.status, k.n.trans h.n, k.fly.trans h.fly, k.branch.trans h.branch, k.exc.trans h.exc, k.mem.trans h.mem⟩

theorem AceRt.SameView.user (h : x.SameView y) : y.user = x.user := by rw [AceRt.user, AceRt.user, AceRt.st, AceRt.st, h.status]

theorem AceRt.SameView.depth (h : x.SameView y) : y.depth = x.depth := by rw [AceRt.depth, AceRt.depth, h.status]

/-- The programmer's view of every engine, and the shared memories, are as they were. -/
structure ViewKept (s t : State) : Prop where
  view : ∀ q, (s.ace q).SameView (t.ace q)
  shared : t.shared = s.shared
  ucode : t.ucode = s.ucode

theorem ViewKept.trans (h : ViewKept s t) (k : ViewKept t u) : ViewKept s u :=
  ⟨fun q => (h.view q).trans (k.view q), k.shared.trans h.shared, k.ucode.trans h.ucode⟩

theorem ViewKept.ite {p : Prop} [Decidable p] (h : ViewKept s t) (k : ViewKept s u) : ViewKept s (if p then t else u) := by
  split
  · exact h
  · exact k

theorem EventKeeps.viewKept (h : EventKeeps s t) : ViewKept s t where
  view q := ⟨h.ace_g q, h.ace_acc q, h.ace_accSeen q, h.ace_p q, h.ace_m q, h.ace_l q, h.ace_c q, h.ace_flags q, h.ace_status q, h.ace_n q, h.ace_fly q,
    h.ace_branch q, h.ace_exc q, h.ace_mem q⟩
  shared := h.shared
  ucode := h.ucode

theorem viewKept_aceEvent (s : State) (e code n : Nat) : ViewKept s (aceEvent s e code n) := (aceEvent_keeps s e code n).viewKept

/-- Engines replaced alike are seen alike. -/
theorem ViewKept.setAce (h : ViewKept s t) (e : Nat) (hxy : x.SameView y) : ViewKept (s.setAce e x) (t.setAce e y) where
  view q := by
    rw [State.ace_setAce, State.ace_setAce]
    split
    · exact hxy
    · exact h.view q
  shared := h.shared
  ucode := h.ucode

theorem viewKept_modAce {f : AceRt → AceRt} (h : (s.ace e).SameView (f (s.ace e))) : ViewKept s (s.modAce e f) where
  view q := by
    rw [State.ace_modAce]
    split
    · next hq => exact hq ▸ h
    · exact .refl _
  shared := rfl
  ucode := rfl

theorem viewKept_slotCount (s : State) (e k n : Nat) : ViewKept s (slotCount s e k n) :=
  (viewKept_modAce ⟨rfl, rfl, rfl, rfl, rfl, rfl, rfl, rfl, rfl, rfl, rfl, rfl, rfl, rfl⟩).trans (slotCount_keeps s e k n).viewKept

/-! ### Flow and landing -/

/-- With no repeat active the next bundle follows (R271). -/
theorem flow_of_depth_zero (h : x.depth = 0) : x.flow = ({ x with pc := (x.pc + 1) % 2 ^ 13 }, 0) := by
  simp only [AceRt.flow, h, OfNat.zero_ne_ofNat, zero_ne_one, false_and, if_false, ite_self]

/-- A result goes to a general register or to the data SRAM. -/
def Fly.toRegisterOrMemory (f : Fly) : Prop := (∃ n, f.dest = .g n) ∨ ∃ a w, f.dest = .mem a w

theorem AceRt.SameView.land (h : x.SameView y) (hf : f.toRegisterOrMemory) : (x.land f).SameView (y.land f) := by
  obtain ⟨hg, hacc, hseen, hp, hm, hl, hc, hflags, hstatus, hn, hfly, hbranch, hexc, hmem⟩ := h
  obtain ⟨n, hdest⟩ | ⟨a, w, hdest⟩ := hf
  · simp only [AceRt.land, hdest]
    exact ⟨by rw [hg], hacc, hseen, hp, hm, hl, hc, hflags, hstatus, hn, hfly, hbranch, hexc, hmem⟩
  · simp only [AceRt.land, hdest]
    exact ⟨hg, hacc, hseen, hp, hm, hl, hc, hflags, hstatus, hn, hfly, hbranch, hexc, by rw [hmem]⟩

/-- The only result in flight lands when its bundle has come. -/
theorem landDue_single (hfly : x.fly = [f]) (hready : f.ready ≤ x.n) : x.landDue = { x with fly := [] }.land f := by
  simp [AceRt.landDue, hfly, hready, Nat.not_lt.2 hready]

theorem land_branch (hf : f.toRegisterOrMemory) : (x.land f).branch = x.branch := by
  obtain ⟨n, hdest⟩ | ⟨a, w, hdest⟩ := hf <;> simp [AceRt.land, hdest]

theorem land_user (hf : f.toRegisterOrMemory) : (x.land f).user = x.user := by
  obtain ⟨n, hdest⟩ | ⟨a, w, hdest⟩ := hf <;> simp only [AceRt.land, hdest] <;> rfl

/-- An engine's state after what a bundle has executed is counted (R404, R406). -/
def bundleCounted (s : State) (e : Nat) : State :=
  let x := s.ace e
  let k := (if bit x.ran 0 then 1 else 0) + (if bit x.ran 1 then 1 else 0) + (if bit x.ran 2 then 1 else 0)
  let s := aceEvent (aceEvent (aceEvent (aceEvent s e 1 1) e 2 1) e 3 k) e 9 (if bit x.ran 0 then 1 else 0)
  if (s.eng e).run.isSome then s.modAce e fun x => { x with itemDone := x.itemDone + k, itemIdle := x.itemIdle + (3 - k) }
  else slotCount (slotCount s e 0 k) e 1 (3 - k)

theorem viewKept_bundleCounted (s : State) (e : Nat) : ViewKept s (bundleCounted s e) := by
  have hevents (k m : Nat) : ViewKept s (aceEvent (aceEvent (aceEvent (aceEvent s e 1 1) e 2 1) e 3 k) e 9 m) :=
    (((viewKept_aceEvent ..).trans (viewKept_aceEvent ..)).trans (viewKept_aceEvent ..)).trans (viewKept_aceEvent ..)
  exact .ite ((hevents ..).trans (viewKept_modAce ⟨rfl, rfl, rfl, rfl, rfl, rfl, rfl, rfl, rfl, rfl, rfl, rfl, rfl, rfl⟩))
    (((hevents ..).trans (viewKept_slotCount ..)).trans (viewKept_slotCount ..))

/-- A bundle of one result, outside loops, branches and user code: the engine is seen as with that result landed. -/
theorem bundleEnd_lands (hexc : (s.ace e).exc = none) (hbranch : (s.ace e).branch = none) (huser : (s.ace e).user = false) (hdepth : (s.ace e).depth = 0)
    (hfly : (s.ace e).fly = [f]) (hready : f.ready ≤ (s.ace e).n + 1) (hf : f.toRegisterOrMemory) :
    ViewKept (s.setAce e ({ s.ace e with n := (s.ace e).n + 1, fly := [] }.land f)) (bundleEnd s e) := by
  unfold bundleEnd
  extract_lets x
  split
  · next hraised => exact nomatch hexc.symm.trans hraised
  next k counts v y z _ _ =>
  have hcounted : ViewKept s v := viewKept_bundleCounted s e
  have hz : (s.ace e).SameView z :=
    let h := hcounted.view e
    ⟨h.g, h.acc, h.accSeen, h.p, h.m, h.l, h.c, h.flags, h.status, h.n, h.fly, h.branch, h.exc, h.mem⟩
  clear_value z v
  rw [flow_of_depth_zero (hz.depth.trans hdepth)]
  dsimp only
  have hlands : ({ s.ace e with n := (s.ace e).n + 1, fly := [] }.land f).SameView
      ({ z with pc := (z.pc + 1) % 2 ^ 13, n := z.n + 1 } : AceRt).landDue := by
    have hsingle : ({ z with pc := (z.pc + 1) % 2 ^ 13, n := z.n + 1 } : AceRt).fly = [f] := hz.fly.trans hfly
    rw [landDue_single hsingle (by simpa only [hz.n] using hready)]
    exact AceRt.SameView.land ⟨hz.g, hz.acc, hz.accSeen, hz.p, hz.m, hz.l, hz.c, hz.flags, hz.status, congrArg (· + 1) hz.n, rfl, hz.branch, hz.exc,
      hz.mem⟩ hf
  have hkept := (hcounted.setAce e hlands).trans (viewKept_aceEvent _ e 0x0C 0)
  have hview := hkept.view e
  rw [State.ace_setAce, if_pos rfl] at hview
  rw [hview.branch.trans ((land_branch hf).trans hbranch)]
  dsimp only
  rw [hview.user.trans ((land_user hf).trans huser), Bool.false_and, if_neg Bool.false_ne_true]
  exact hkept

/-! ### Bundles of one operation -/

/-- The only operation of a bundle at a place without a predicate. -/
abbrev alone (e : Nat) : AceAt := ⟨e, 0, false, true⟩

/-- What a bundle of one result needs beside an operation that executes: nothing in flight, no branch pending, library code, no repeat active. -/
structure Straight (s : State) (e : Nat) : Prop where
  fly : (s.ace e).fly = []
  branch : (s.ace e).branch = none
  user : (s.ace e).user = false
  depth : (s.ace e).depth = 0

/-- A result sent alone in its bundle. -/
def sentAlone (s : State) (e slot : Nat) (v : Dest) (r : Int) : State := (marked s e slot).modAce e fun x => x.send slot 1 v r

/-- A bundle of one result ends with that result landed. -/
theorem bundleEnd_sentAlone {slot : Nat} {v : Dest} {r : Int} (hx : OpExecutes (alone e) s) (h : Straight s e)
    (hf : Fly.toRegisterOrMemory ⟨(s.ace e).n + 1, (s.ace e).n, slot, v, r⟩) (hsent : ViewKept (sentAlone s e slot v r) u) :
    ViewKept (s.setAce e ({ s.ace e with n := (s.ace e).n + 1 }.land ⟨(s.ace e).n + 1, (s.ace e).n, slot, v, r⟩)) (bundleEnd u e) := by
  obtain ⟨-, -, -, hexc, -⟩ := hx
  have hace : (sentAlone s e slot v r).ace e = ((s.ace e).mark slot).send slot 1 v r := by
    rw [sentAlone, State.ace_modAce, if_pos rfl, ace_marked]
  have hview := hace ▸ hsent.view e
  have hfly : (u.ace e).fly = [⟨(s.ace e).n + 1, (s.ace e).n, slot, v, r⟩] := by
    rw [hview.fly, AceRt.send, AceRt.mark_fly, h.fly]
    rfl
  have hdepth : (u.ace e).depth = 0 := hview.depth.trans h.depth
  have huser : (u.ace e).user = false := hview.user.trans h.user
  have hends := bundleEnd_lands (hview.exc.trans hexc) (hview.branch.trans h.branch) huser hdepth hfly (by rw [hview.n]; rfl) hf
  refine ViewKept.trans ?_ hends
  refine ⟨fun q => ?_, hsent.shared, hsent.ucode⟩
  rw [State.ace_setAce, State.ace_setAce]
  split
  · exact AceRt.SameView.land ⟨hview.g, hview.acc, hview.accSeen, hview.p, hview.m, hview.l, hview.c, hview.flags, hview.status, by rw [hview.n]; rfl,
      h.fly.symm, hview.branch, hview.exc, hview.mem⟩ hf
  · next hq =>
    have hother := hsent.view q
    rwa [sentAlone, State.ace_modAce, if_neg hq, marked, State.ace_modAce, if_neg hq] at hother

/-- An A-slot operation alone in its bundle ends with its value in its register and nothing else changed. -/
theorem alu_lands {v : DWord} (hx : OpExecutes (alone e) s) (h : Straight s e) (hc : Enters c (alone e) s 1 1 (.g d) v.toInt) :
    Answers c s fun t => (t.ace e).gR d = v ∧ (∀ k, k ≠ d → (t.ace e).gR k = (s.ace e).gR k) ∧ (t.ace e).fly = [] ∧ (t.ace e).n = (s.ace e).n + 1 ∧
      (t.ace e).p = (s.ace e).p ∧ (t.ace e).m = (s.ace e).m ∧ (t.ace e).l = (s.ace e).l ∧ (t.ace e).acc = (s.ace e).acc ∧
      (t.ace e).accSeen = (s.ace e).accSeen ∧ (t.ace e).c = (s.ace e).c ∧ (t.ace e).mem = (s.ace e).mem ∧ (t.ace e).flags = (s.ace e).flags ∧
      (∀ q, q ≠ e → (t.ace q).mem = (s.ace q).mem ∧ (t.ace q).g = (s.ace q).g) ∧ t.shared = s.shared := by
  have hlands := bundleEnd_sentAlone hx h (.inl ⟨d, rfl⟩) (u := sentAlone s e 1 (.g d) v.toInt) ⟨fun _ => .refl _, rfl, rfl⟩
  have hview := hlands.view e
  rw [State.ace_setAce, if_pos rfl] at hview
  have hg : ∀ k, ((bundleEnd (sentAlone s e 1 (.g d) v.toInt) e).ace e).gR k = if k = d then v else (s.ace e).gR k := fun k => by
    rw [AceRt.gR, hview.g, AceRt.land, SMap.getD_put, BitVec.ofInt_toInt]
    rfl
  rw [answers_iff hc]
  refine ⟨(hg d).trans (if_pos rfl), fun k hk => (hg k).trans (if_neg hk), hview.fly.trans h.fly, hview.n, hview.p, hview.m, hview.l, hview.acc,
    hview.accSeen, hview.c, hview.mem, hview.flags, fun q hq => ?_, hlands.shared⟩
  have hother := hlands.view q
  rw [State.ace_setAce, if_neg hq] at hother
  exact ⟨hother.mem, hother.g⟩

/-! ### Stores (R266) -/

/-- Bytes of a number written read back, least significant first. -/
theorem get_write_byte (m : Mem) (a n v k : Nat) (h : m.wf = true) (hk : k < n) : (m.write a n v).get (a + k) = BitVec.ofNat 8 (v / 256 ^ k) := by
  induction n generalizing m a v k with
  | zero => omega
  | succ n ih =>
    have hset := Mem.wf_set m a (BitVec.ofNat 8 v) h
    rw [Mem.write]
    cases k with
    | zero => rw [Mem.get_write_out _ _ _ _ _ hset (by omega), Mem.get_set _ _ _ _ h, Nat.add_zero, if_pos rfl, pow_zero, Nat.div_one]
    | succ k => rw [show a + (k + 1) = a + 1 + k by omega, ih _ _ _ _ hset (by omega), Nat.div_div_eq_div_mul, pow_succ']

/-- A byte of a register's low bytes is that byte of the register. -/
theorem byte_lowBits (r : DWord) {k : Nat} (hk : k < w) (hw : w ≤ 8) :
    BitVec.ofNat 8 (lowBits (8 * w) r.toInt / 256 ^ k) = BitVec.ofNat 8 (r.toNat / 256 ^ k) := by
  have hlow : lowBits (8 * w) r.toInt = r.toNat % 2 ^ (8 * w) := by
    have hdvd : (2 : Int) ^ (8 * w) ∣ (2 : Int) ^ 64 := pow_dvd_pow 2 (by omega)
    have hbmod : ((r.toNat : Int).bmod (2 ^ 64)) % 2 ^ 64 = (r.toNat : Int) % 2 ^ 64 := Int.bmod_emod
    rw [lowBits, BitVec.toInt_eq_toNat_bmod, ← Int.emod_emod_of_dvd _ hdvd, hbmod, Int.emod_emod_of_dvd _ hdvd, show (2 : Int) ^ (8 * w) = ((2 ^ (8 * w) : Nat) : Int) by rw [Nat.cast_pow]; rfl,
      ← Int.natCast_mod, Int.toNat_natCast]
  have hdvd : 256 ^ k * 256 ∣ 2 ^ (8 * w) := by
    rw [← pow_succ, show (256 : Nat) = 2 ^ 8 by norm_num, ← pow_mul]
    exact pow_dvd_pow 2 (by omega)
  obtain ⟨q, hq⟩ := hdvd
  rw [hlow, hq]
  apply BitVec.eq_of_toNat_eq
  rw [BitVec.toNat_ofNat, BitVec.toNat_ofNat, mul_assoc, Nat.mod_mul_right_div_self]
  exact Nat.mod_mul_right_mod _ _ _

/-- A store alone in its bundle writes its bytes and no others. -/
theorem store_lands {v : DWord} (hx : OpExecutes (alone e) s) (h : Straight s e) (hwf : Mem.wf (s.ace e).mem = true) (hw : w ≤ 8)
    (hc : exec c s = .next (bundleEnd u e)) (hsent : ViewKept (sentAlone s e 2 (.mem a w) v.toInt) u) :
    Answers c s fun t =>
      (∀ k, k < w → Mem.get (t.ace e).mem (a + k) = BitVec.ofNat 8 (v.toNat / 256 ^ k)) ∧
      (∀ b, b < a ∨ a + w ≤ b → Mem.get (t.ace e).mem b = Mem.get (s.ace e).mem b) ∧
      (∀ q, q ≠ e → (t.ace q).mem = (s.ace q).mem) ∧ t.shared = s.shared ∧ t.ucode = s.ucode ∧
      (t.ace e).g = (s.ace e).g ∧ (t.ace e).p = (s.ace e).p ∧ (t.ace e).m = (s.ace e).m ∧ (t.ace e).l = (s.ace e).l ∧
      (t.ace e).acc = (s.ace e).acc ∧ (t.ace e).c = (s.ace e).c := by
  have hlands := bundleEnd_sentAlone hx h (.inr ⟨a, w, rfl⟩) hsent
  have hview := hlands.view e
  rw [State.ace_setAce, if_pos rfl] at hview
  have hmem : ((bundleEnd u e).ace e).mem = Mem.write (s.ace e).mem a w (lowBits (8 * w) v.toInt) := hview.mem
  rw [answers_iff hc, hmem]
  refine ⟨fun k hk => (get_write_byte _ _ _ _ _ hwf hk).trans (byte_lowBits v hk hw), fun b hb => Mem.get_write_out _ _ _ _ _ hwf hb, fun q hq => ?_, hlands.shared, hlands.ucode, hview.g, hview.p, hview.m,
    hview.l, hview.acc, hview.c⟩
  have hother := hlands.view q
  rw [State.ace_setAce, if_neg hq] at hother
  exact hother.mem

/-- ST.x in mode 0, alone in its bundle. -/
theorem store_alone (hx : OpExecutes (alone e) s)
    (hok : accessOk s e (lowBits 32 (((s.ace e).pR pn).toNat + off * w)) w true = true) :
    ∃ u, storeOp s (alone e) g pn 0 off w = bundleEnd u e ∧
      ViewKept (sentAlone s e 2 (.mem (lowBits 32 (((s.ace e).pR pn).toNat + off * w)) w) ((s.ace e).gR g).toInt) u :=
  ⟨_, storeOp_executes hx rfl hok, viewKept_aceEvent ..⟩

end Sys2Proof.Machine

open Sys2Proof Sys2Proof.Machine

/-- Settles O13: a store alone in its bundle lands at its end (`bundleEnd_sentAlone`), and a write to a canonical memory moves its bytes only. -/
theorem storesWriteTheirBytesAndNoOthers : Obligations.StoresWriteTheirBytesAndNoOthers := by
  unfold Obligations.StoresWriteTheirBytesAndNoOthers
  intro s e g pn off w c hform hx hfly hbranch huser hdepth hwf a hok
  have hstraight : Straight s e := ⟨hfly, hbranch, huser, hdepth⟩
  obtain ⟨u, hop, hsent⟩ := store_alone (g := g) hx hok
  rcases hform with ⟨rfl, rfl⟩ | ⟨rfl, rfl⟩ | ⟨rfl, rfl⟩
  · exact store_lands hx hstraight hwf (by decide) (next_congr hop) hsent
  · exact store_lands hx hstraight hwf (by decide) (next_congr hop) hsent
  · exact store_lands hx hstraight hwf (by decide) (next_congr hop) hsent

/-- Settles O14: each operation enters its plain result, which lands at the end of its bundle. -/
theorem aluResultsLandAtTheEndOfTheirBundle : Obligations.AluResultsLandAtTheEndOfTheirBundle := by
  unfold Obligations.AluResultsLandAtTheEndOfTheirBundle
  intro s e d a b hx hfly hbranch huser hdepth x lands
  have hstraight : Straight s e := ⟨hfly, hbranch, huser, hdepth⟩
  exact ⟨alu_lands hx hstraight (aluOp_plain hx (· + ·) rfl), alu_lands hx hstraight (aluOp_plain hx (· - ·) rfl),
    alu_lands hx hstraight (aluOp_plain hx (· &&& ·) rfl), alu_lands hx hstraight (aluOp_plain hx (· ||| ·) rfl),
    alu_lands hx hstraight (aluOp_plain hx (· ^^^ ·) rfl)⟩
end

