-- ==== Sys2Proof/Proofs/BranchesAndRepeats.lean ====
section
/-! Branches, repeats and breakpoints (R264, R265, R271, R273, R277), and O15. -/

namespace Sys2Proof.Machine

variable {s : State} {i : AceAt} {off : Int} {a cnt len : Nat}

/-- A branch may stand where none is pending and, for BR, CALL and RET, no repeat is active. -/
theorem branchOk_of_free {x : AceRt} {body : Bool} (hbranch : x.branch = none) (hdepth : body = true → x.depth = 0) : branchOk x body = true := by
  cases body <;> simp_all [branchOk]

theorem br_executes (h : OpExecutes i s) (hbranch : (s.ace i.eng).branch = none) (hdepth : (s.ace i.eng).depth = 0) :
    exec (.aceBr i off) s = .next (issued i (branchTo (marked s i.eng 1) i.eng (lowBits 13 (((s.ace i.eng).pc : Int) + off)) false false)) := by
  refine next_congr ((aceOp_executes h 1 _).trans ?_)
  simp [branchOk_of_free (x := (s.ace i.eng).mark 1) hbranch fun _ => hdepth]

theorem call_executes (h : OpExecutes i s) (hbranch : (s.ace i.eng).branch = none) (hdepth : (s.ace i.eng).depth = 0) :
    exec (.aceCall i off) s = .next (issued i (branchTo ((marked s i.eng 1).modAce i.eng fun y => { y with lr := ((s.ace i.eng).pc + 3) % 2 ^ 13 })
      i.eng (lowBits 13 (((s.ace i.eng).pc : Int) + off)) false false)) := by
  have hlr : ((marked s i.eng 1).modAce i.eng fun y => { y with lr := (y.pc + 3) % 2 ^ 13 }) =
      (marked s i.eng 1).modAce i.eng fun y => { y with lr := ((s.ace i.eng).pc + 3) % 2 ^ 13 } :=
    State.modAce_congr (by rw [ace_marked]; rfl)
  refine next_congr ((aceOp_executes h 1 _).trans ?_)
  simp only [ace_marked, branchOk_of_free (x := (s.ace i.eng).mark 1) hbranch fun _ => hdepth, if_true, AceRt.mark_pc, hlr]

/-- RET outside a call of a user block. -/
theorem ret_executes (h : OpExecutes i s) (hbranch : (s.ace i.eng).branch = none) (hdepth : (s.ace i.eng).depth = 0) (hcall : (s.ace i.eng).call = none) :
    exec (.aceRet i) s = .next (issued i (branchTo (marked s i.eng 1) i.eng (s.ace i.eng).lr false false)) := by
  refine next_congr ((aceOp_executes h 1 _).trans ?_)
  simp [branchOk_of_free (x := (s.ace i.eng).mark 1) hbranch fun _ => hdepth, hcall]

/-- A privileged operation of library code has its effect. -/
theorem acePriv_system {e : Nat} {f : State → State} (h : (s.ace e).user = false) : acePriv s e f = f s := by
  rw [acePriv, h, if_neg Bool.false_ne_true]

theorem acePriv_user {e : Nat} {f : State → State} (h : (s.ace e).user = true) : acePriv s e f = aceRaise s e 3 := by
  rw [acePriv, h, if_pos rfl]

theorem reti_executes (h : OpExecutes i s) (hpr : i.pr = 0) (hbranch : (s.ace i.eng).branch = none) (huser : (s.ace i.eng).user = false) :
    exec (.aceReti i) s = .next (issued i (branchTo (marked s i.eng 1) i.eng (s.ace i.eng).ipc true false)) := by
  refine next_congr ((aceOp_bare h hpr 1 _).trans ?_)
  rw [acePriv_system (by simpa using huser)]
  simp [branchOk_of_free (x := (s.ace i.eng).mark 1) (body := false) hbranch nofun]

/-- REP outside a delay slot and a loop makes the next `len` bundles the body of the outer loop (R271). -/
theorem repeatOp_outer (hbranch : (s.ace i.eng).branch = none) (hdepth : (s.ace i.eng).depth = 0) (hlen : 0 < len) (hcnt : 0 < cnt) :
    repeatOp (marked s i.eng 1) i.eng len cnt = (marked s i.eng 1).modAce i.eng fun y =>
      { y.setDepth 1 with ls0 := ((s.ace i.eng).pc + 1) % 2 ^ 13, le0 := ((s.ace i.eng).pc + len) % 2 ^ 13, lc0 := cnt % 2 ^ 16 } := by
  simp only [repeatOp, ace_marked, AceRt.mark_branch, AceRt.mark_depth, AceRt.mark_pc, hbranch, hdepth, Option.isSome_none, hlen.ne', hcnt.ne',
    Bool.false_eq_true, OfNat.zero_ne_ofNat, zero_ne_one, false_and, or_self, if_false, if_true]
  exact State.modAce_congr (by rw [ace_marked]; rfl)

theorem rep_executes {useReg : Bool} {n : Nat} (h : OpExecutes i s) (hpr : i.pr = 0) (hbranch : (s.ace i.eng).branch = none)
    (hdepth : (s.ace i.eng).depth = 0) (hlen : 0 < len) (hcnt : 0 < cnt)
    (hn : (if useReg then bits ((s.ace i.eng).gR a).toNat 0 16 else n) = cnt) :
    exec (.aceRep i useReg a n len) s = .next (issued i ((marked s i.eng 1).modAce i.eng fun y =>
      { y.setDepth 1 with ls0 := ((s.ace i.eng).pc + 1) % 2 ^ 13, le0 := ((s.ace i.eng).pc + len) % 2 ^ 13, lc0 := cnt % 2 ^ 16 })) := by
  refine next_congr ((aceOp_bare h hpr 1 _).trans ?_)
  rw [ace_marked, AceRt.mark_gR, hn, repeatOp_outer hbranch hdepth hlen hcnt]

theorem bkpt_executes (h : OpExecutes i s) :
    exec (.aceBkpt i) s = .next (issued i (if s.debugger then (marked s i.eng 1).modAce i.eng fun y => { y with halted := true }
      else aceRaise (marked s i.eng 1) i.eng 1)) :=
  next_congr (aceOp_executes h 1 _)

end Sys2Proof.Machine

open Sys2Proof Sys2Proof.Machine

/-- Settles O15: branches by the places they may stand at (`branchOk_of_free`), REP by the outer loop it sets up, BKPT by its two cases. -/
theorem branchesRepeatsAndBreakpoints : Obligations.BranchesRepeatsAndBreakpoints := by
  unfold Obligations.BranchesRepeatsAndBreakpoints
  refine ⟨fun s i off h => ⟨fun hbranch hdepth => ?_, fun hbranch huser hpr => reti_executes h hpr hbranch huser⟩, fun s i a cnt len h => ⟨?_, ?_, ?_⟩⟩
  · exact ⟨br_executes h hbranch hdepth, call_executes h hbranch hdepth, ret_executes h hbranch hdepth⟩
  · intro hbranch hdepth hlen hpr hcnt
    exact ⟨rep_executes h hpr hbranch hdepth hlen hcnt rfl,
      fun hreg => rep_executes h hpr hbranch hdepth hlen hcnt (by simpa [bits] using hreg)⟩
  · exact fun hdebugger => (bkpt_executes h).trans (by rw [hdebugger, if_pos rfl])
  · exact fun hnone => (bkpt_executes h).trans (by rw [hnone, if_neg Bool.false_ne_true])
end

