-- ==== Sys2Proof/Proofs/SharedWindow.lean ====
section
/-! Loads and stores of the shared window and privileged operations (R258, R261, R264, R270, R276, R388, R390), and O16. -/

namespace Sys2Proof.Machine

variable {s : State} {i : AceAt} {g pn am n a d e t addr : Nat} {off : Int}

/-- The address of an access of the shared window in mode 0. -/
abbrev windowAddr (x : AceRt) (pn : Nat) (off : Int) : Nat := lowBits 32 (((x.pR pn).toNat : Int) + off * 8)

theorem lAddr_window (x : AceRt) (pn : Nat) (off : Int) : lAddr x pn 0 off 8 = (windowAddr x pn off, none, none) := rfl

theorem windowAddr_mark (x : AceRt) (k pn : Nat) (off : Int) : windowAddr (x.mark k) pn off = windowAddr x pn off := rfl

/-- XLD.D of library code with room for a load joins the outstanding ones. -/
theorem xld_executes (h : OpExecutes i s) (huser : (s.ace i.eng).user = false) (hroom : (s.ace i.eng).xld.length < 4)
    (hok : sharedOk (windowAddr (s.ace i.eng) pn off) = true) :
    exec (.aceXldD i g pn 0 off) s = .next (issued i (aceEvent ((marked s i.eng 2).modAce i.eng fun y =>
      { y with xld := y.xld ++ [⟨windowAddr (s.ace i.eng) pn off, g⟩] }) i.eng 6 1)) := by
  refine next_congr ((aceOp_executes h 2 _).trans ?_)
  rw [acePriv_system (by simpa using huser)]
  simp only [ace_marked, lAddr_window, windowAddr_mark, hok, AceRt.mark_xld, Nat.not_le.2 hroom, if_true, if_false]

/-- XST.D of library code outside a handler, with room, joins the store buffer. -/
theorem xst_executes (h : OpExecutes i s) (huser : (s.ace i.eng).user = false) (hroom : (s.ace i.eng).sbuf.length < 64)
    (hok : sharedOk (windowAddr (s.ace i.eng) pn off) = true) (hhandler : (s.ace i.eng).st 10 = false) :
    exec (.aceXstD i g pn 0 off) s = .next (issued i ((marked s i.eng 2).modAce i.eng fun y =>
      { y with sbuf := y.sbuf ++ [(windowAddr (s.ace i.eng) pn off, (s.ace i.eng).gR g)] })) := by
  refine next_congr ((aceOp_executes h 2 _).trans ?_)
  simp only [ace_marked, lAddr_window, windowAddr_mark, hok, huser, hhandler, Nat.not_le.2 hroom, AceRt.mark_user, AceRt.mark_st, AceRt.mark_sbuf,
    Bool.false_and, Bool.false_eq_true, Bool.true_eq_false, and_false, or_self, if_false]
  exact congrArg (issued i) (State.modAce_congr (by rw [ace_marked, AceRt.mark_gR]))

section Loaded
variable (haddr : addr < 0x2000000) (hstores : ∀ w ∈ (s.ace e).sbuf, w.1 ≠ addr)
include haddr hstores

/-- Where no store of the engine waits for its address a load reads the shared SRAM. -/
theorem sharedRead_sram (harea : liveArea (addr - 0x1000000) = none) :
    sharedRead s e addr = BitVec.ofNat 64 (Mem.read s.shared (addr - 0x1000000) 8) := by
  have hnone : ((s.ace e).sbuf.filter fun w => w.1 = addr) = [] := List.filter_eq_nil_iff.2 fun w hw => by simpa using hstores w hw
  simp only [sharedRead, hnone, List.getLast?_nil, haddr, if_true, harea]

/-- In a user state area it reads the live axis state. -/
theorem sharedRead_live {k o : Nat} (harea : liveArea (addr - 0x1000000) = some (k, o)) :
    sharedRead s e addr = BitVec.ofNat 64 (Mem.read (s.axis k).user o 8) := by
  have hnone : ((s.ace e).sbuf.filter fun w => w.1 = addr) = [] := List.filter_eq_nil_iff.2 fun w hw => by simpa using hstores w hw
  simp only [sharedRead, hnone, List.getLast?_nil, haddr, if_true, harea]

end Loaded

/-- The only outstanding load completes with what it reads. -/
theorem xldComplete_single {v : DWord} (hrun : unitRuns s = true) (hxld : (s.ace e).xld = [⟨addr, d⟩]) (hread : sharedRead (s.at t) e addr = v) :
    exec (.aceXldComplete e t) s = .next ((s.at t).modAce e fun y => { y with xld := [], g := SMap.put y.g d v }) := by
  refine (whileOn_runs hrun).trans (next_congr ?_)
  rw [xldDone, State.at_ace, hxld, ← hread]

theorem xwait_idle (h : OpExecutes i s) (hpr : i.pr = 0) (huser : (s.ace i.eng).user = false) (hxld : (s.ace i.eng).xld = []) :
    exec (.aceXwait i) s = .next (issued i (marked s i.eng 1)) := by
  refine next_congr ((aceOp_bare h hpr 1 _).trans ?_)
  rw [acePriv_system (by simpa using huser)]
  simp [hxld]

/-! ### Privileged operations in user mode (R276) -/

theorem reti_priv (h : OpExecutes i s) (hpr : i.pr = 0) (huser : (s.ace i.eng).user = true) :
    exec (.aceReti i) s = .next (issued i (aceRaise (marked s i.eng 1) i.eng 3)) :=
  next_congr ((aceOp_bare h hpr 1 _).trans (congrArg (issued i) (acePriv_user (by simpa using huser))))

theorem xwait_priv (h : OpExecutes i s) (hpr : i.pr = 0) (huser : (s.ace i.eng).user = true) :
    exec (.aceXwait i) s = .next (issued i (aceRaise (marked s i.eng 1) i.eng 3)) :=
  next_congr ((aceOp_bare h hpr 1 _).trans (congrArg (issued i) (acePriv_user (by simpa using huser))))

theorem mts_priv (h : OpExecutes i s) (huser : (s.ace i.eng).user = true) (hn : n ≤ 2) :
    exec (.aceMts i n a) s = .next (issued i (aceRaise (marked s i.eng 1) i.eng 3)) := by
  refine next_congr ((aceOp_executes h 1 _).trans ?_)
  have hlisted : ¬20 ≤ n := by omega
  simp [hlisted, specPriv, hn, huser]

theorem xld_priv (h : OpExecutes i s) (huser : (s.ace i.eng).user = true) :
    exec (.aceXldD i g pn am off) s = .next (issued i (aceRaise (marked s i.eng 2) i.eng 3)) :=
  next_congr ((aceOp_executes h 2 _).trans (congrArg (issued i) (acePriv_user (by simpa using huser))))

end Sys2Proof.Machine

open Sys2Proof Sys2Proof.Machine

/-- Settles O16: loads join the outstanding ones and complete with what `sharedRead` gives, stores the buffer; user mode raises PRIV in their place. -/
theorem sharedWindowAndPrivilege : Obligations.SharedWindowAndPrivilege := by
  unfold Obligations.SharedWindowAndPrivilege
  refine ⟨fun s i g pn off d at_ t k o h => ⟨xld_executes h, xst_executes h, ?_, fun hpr => xwait_idle h hpr⟩, fun s i n a g pn am off h huser => ?_⟩
  · intro loaded hxld haddr hstores
    have hstores' : ∀ w ∈ ((s.at t).ace i.eng).sbuf, w.1 ≠ at_ := by rwa [State.at_ace]
    exact ⟨fun harea => xldComplete_single h.1 hxld (by rw [sharedRead_sram haddr hstores' harea, State.at_shared]),
      fun harea => xldComplete_single h.1 hxld (by rw [sharedRead_live haddr hstores' harea, State.at_axis])⟩
  · exact ⟨fun hpr => ⟨reti_priv h hpr huser, xwait_priv h hpr huser⟩, xld_priv h huser, mts_priv h huser⟩
end

