-- ==== Sys2Proof/Proofs/TimeAborts.lean ====
section
/-! The dictionary keys of LAST_EXC and TIME_ABORTS, and O17. -/

namespace Sys2Proof.Machine

/-- TIME_ABORT is judged on the running unit (R277). -/
theorem exec_aceTimeAbort {s : State} (h : unitRuns s = true) (e t : Nat) {u : UserCall} (hcall : ((s.at t).ace e).call = some u)
    (hdue : 4 * (s.at t).nat Ob.Ub.DECLARED_TIME u.block ≤ ((s.at t).ace e).n - u.start) : exec (.aceTimeAbort e t) s = .next (timeAbort (s.at t) e) := by
  refine (whileOn_runs h).trans (next_congr ?_)
  rw [hcall]
  exact if_pos hdue

/-- An item of a flow of its own, running. -/
def blockRun : RunRt := ⟨⟨2, 256, 0, 0, 0, 0, 0xFF, 0, none⟩, 0, 0, {}, none⟩

/-- Number 3597, at which an engine's LAST_EXC would have the dictionary key of TIME_ABORTS of user block 0, calling that block with an item running. -/
def blockOverTime : State :=
  { State.reset with aces := [(3597, { n := 1000000, call := some ⟨0, 0, 0, 0, 0, 0⟩ })], engs := [(3597, { run := some blockRun })] }

end Sys2Proof.Machine

open Sys2Proof Sys2Proof.Machine

/-- Refutes O17: its time abort does not bound the engine's number; at number 3597 LAST_EXC and TIME_ABORTS of block 0 have one dictionary key, so the abort
counted after the exception is recorded leaves a LAST_EXC one higher than the statement's. -/
theorem not_exceptionsTimeAbortsAndInterruptEntry : ¬ Obligations.ExceptionsTimeAbortsAndInterruptEntry := by
  unfold Obligations.ExceptionsTimeAbortsAndInterruptEntry
  intro h
  obtain ⟨-, habort, -⟩ := h blockOverTime 3597 0 0 ⟨0, 0, 0, 0, 0, 0⟩ blockRun (by decide +kernel) (by decide +kernel)
  have haborted := habort rfl (by decide +kernel) (by decide +kernel) rfl
  rw [answers_iff (exec_aceTimeAbort (by decide +kernel) 3597 0 rfl (by decide +kernel))] at haborted
  obtain ⟨-, -, -, -, hlast⟩ := haborted
  exact absurd hlast (by decide +kernel)
end

