-- ==== Sys2Proof/Proofs/StoreBufferRelease.lean ====
section
/-! The store buffer that a completion releases, and O18. -/

namespace Sys2Proof.Machine

/-- ITEM_COMPLETE completes the item of its engine (R281). -/
theorem exec_itemComplete {s : State} (h : unitRuns s = true) (e t : Nat) : exec (.itemComplete e t) s = .next (completeItem (s.at t) e) := whileOn_runs h

/-- A run of flow 1 whose result is an axis as it was. -/
def flowOneRun : RunRt := ⟨⟨2, 1, 0, 0, 0, 0, 0xFF, 0, none⟩, 0, 0, {}, some ⟨{}, [], [], false⟩⟩

/-- Engine 0 runs flow 1 with a store to the user state area of axis 0 in its buffer. -/
def storeForAxisZero : State :=
  { State.reset with engs := [(0, { run := some flowOneRun })], aces := [(0, { sbuf := [(0x1000E00, 1)] })] }

end Sys2Proof.Machine

open Sys2Proof Sys2Proof.Machine

/-- Refutes O18: its clause of an installed result does not ask for an empty store buffer; a store to the user state area of another axis, released at the
completion (R270), changes that axis. -/
theorem not_itemsArePostedRunAndCompleted : ¬ Obligations.ItemsArePostedRunAndCompleted := by
  unfold Obligations.ItemsArePostedRunAndCompleted
  intro h
  obtain ⟨-, -, -, -, -, -, -, hcompletes, -⟩ :=
    h storeForAxisZero 0 0 0 0 none flowOneRun.item flowOneRun ⟨{}, [], [], false⟩ ⟨0, 0, false, false⟩ (by decide +kernel)
  have hinstalls := (hcompletes rfl (by decide) (fun hprio => absurd hprio (by decide))).2 rfl (by decide) rfl rfl rfl
  rw [answers_iff (exec_itemComplete (by decide +kernel) 0 0)] at hinstalls
  obtain ⟨-, -, -, -, haxes⟩ := hinstalls
  have hkept := haxes 0 (by decide)
  exact absurd (congrArg AxisRt.user hkept) (by decide +kernel)
end

