-- ==== Sys2Proof/Proofs/Orderly.lean ====
section
/-! What the functions of the model keep of the byte memories (R258, R266). Each function of the model that answers a state has one lemma: a function that
writes no memory keeps order in both directions, one that writes a memory keeps it forwards. The lemmas follow the order of the model's own
definitions, so that each needs only those above it. -/

namespace Sys2Proof.Machine

/-- The queue holds `Q`, and, where `M` asks for it, the byte memories are canonical. -/
def Orderly (Q : List Instr) (M : Prop) (s : State) : Prop := s.pending = Q ∧ (M → MemoriesCanonical s)

variable {Q : List Instr} {M : Prop} {s t u : State}

theorem orderly_congr (hp : u.pending = s.pending) (hs : u.shared = s.shared) (hu : u.ucode = s.ucode) (ha : ∀ e, (u.ace e).mem = (s.ace e).mem) :
    Orderly Q M u ↔ Orderly Q M s := by
  simp only [Orderly, MemoriesCanonical, hp, hs, hu, ha]

/-- Fields other than the queue and the memories do not matter: one lemma for every update of such fields, whichever of them it names. -/
theorem orderly_update (s : State) (now frac free : Nat) (out : List Msg) (od : SMap Val) (staged : List Staged) (snaps : List Snapshot) (axes : SMap AxisRt)
    (fbs : SMap FbUnit) (lats : SMap LatchRt) (cmps : SMap CmpRt) (msts : SMap MasterRt) (disp : DispRt) (engs : SMap EngRt) (eps : SMap Endpoint) (field : FieldRt) (time : TimeRt)
    (obs : ObsRt) (safe : SafeRt) (debugger benchUp : Bool) (ports : SMap PortRt) (rings : SMap RingRt) (wks : SMap WorkerRt) (hud : HuddleRt) (com : CommitRt) (store : StoreRt)
    (pair : PairRt) (host : HostRt) (boot : BootRt) :
    Orderly Q M { s with now := now, frac := frac, free := free, out := out, od := od, staged := staged, snaps := snaps, axes := axes, fbs := fbs, lats := lats, cmps := cmps, msts := msts,
                         disp := disp, engs := engs, eps := eps, field := field, time := time, obs := obs, safe := safe, debugger := debugger, benchUp := benchUp, ports := ports,
                         rings := rings, wks := wks, hud := hud, com := com, store := store, pair := pair, host := host, boot := boot } ↔ Orderly Q M s :=
  orderly_congr rfl rfl rfl fun _ => rfl

/-! ### Choices -/

@[simp] theorem orderly_ite {c : Prop} [Decidable c] : Orderly Q M (if c then s else t) ↔ if c then Orderly Q M s else Orderly Q M t := by
  split <;> rfl

@[simp] theorem orderly_ite_fst {c : Prop} [Decidable c] {α : Type} (p q : State × α) :
    Orderly Q M (if c then p else q).1 ↔ if c then Orderly Q M p.1 else Orderly Q M q.1 := by
  split <;> rfl

/-- Both branches of a choice keep what they start from. -/
theorem orderly_choice {P c : Prop} [Decidable c] (hs : Orderly Q M s ↔ P) (ht : Orderly Q M t ↔ P) : Orderly Q M (if c then s else t) ↔ P := by
  split <;> assumption

theorem orderly_choice_fst {P c : Prop} [Decidable c] {α : Type} {p q : State × α} (hp : Orderly Q M p.1 ↔ P) (hq : Orderly Q M q.1 ↔ P) :
    Orderly Q M (if c then p else q).1 ↔ P := by
  split <;> assumption

theorem orderly_either {c : Prop} [Decidable c] (hs : Orderly Q M s) (ht : Orderly Q M t) : Orderly Q M (if c then s else t) := by
  split <;> assumption

/-! ### Engines and loops -/

@[simp] theorem orderly_setAce (e : Nat) (x : AceRt) (hx : x.mem = (s.ace e).mem) : Orderly Q M (s.setAce e x) ↔ Orderly Q M s :=
  orderly_congr rfl rfl rfl fun p => by
    rw [State.ace_setAce]
    split
    · next h => rw [hx, h]
    · rfl

@[simp] theorem orderly_modAce (e : Nat) (f : AceRt → AceRt) (hf : ∀ x, (f x).mem = x.mem) : Orderly Q M (s.modAce e f) ↔ Orderly Q M s :=
  orderly_setAce e _ (hf _)

@[simp] theorem orderly_forBelow {n : Nat} {f : Nat → State → State} (hf : ∀ i t, Orderly Q M (f i t) ↔ Orderly Q M t) : Orderly Q M (forBelow n f s) ↔ Orderly Q M s :=
  forBelow_keeps (P := fun t => Orderly Q M t ↔ Orderly Q M s) n f s Iff.rfl fun i t h => (hf i t).trans h

@[simp] theorem orderly_forList {α : Type} {l : List α} {f : α → State → State} (hf : ∀ i t, Orderly Q M (f i t) ↔ Orderly Q M t) :
    Orderly Q M (forList l f s) ↔ Orderly Q M s :=
  forList_keeps (P := fun t => Orderly Q M t ↔ Orderly Q M s) l f s Iff.rfl fun i t h => (hf i t).trans h

@[simp] theorem orderly_foldl {α : Type} {l : List α} {f : State → α → State} (hf : ∀ t i, Orderly Q M (f t i) ↔ Orderly Q M t) :
    Orderly Q M (l.foldl f s) ↔ Orderly Q M s :=
  orderly_forList fun i t => hf t i

@[simp] theorem orderly_aceEvent (e c n : Nat) : Orderly Q M (aceEvent s e c n) ↔ Orderly Q M s :=
  have h := aceEvent_keeps s e c n
  orderly_congr h.pending h.shared h.ucode h.ace_mem

/-! ### Functions that take a function of the state -/

theorem orderly_underView_of {f : State → State} (hf : ∀ t, Orderly Q M t → Orderly Q M (f t)) (r : Nat) (h : Orderly Q M s) :
    Orderly Q M (underView s r f) := by
  unfold underView
  split
  · exact hf s h
  · exact hf _ h

theorem orderly_unlessVoid_of {f : State → State} (hf : ∀ t, Orderly Q M t → Orderly Q M (f t)) (e : Nat) (h : Orderly Q M s) :
    Orderly Q M (unlessVoid s e f) := by
  unfold unlessVoid
  split
  · exact h
  · exact hf s h

@[simp] theorem orderly_unlessVoid {f : State → State} (hf : ∀ t, Orderly Q M (f t) ↔ Orderly Q M t) (e : Nat) :
    Orderly Q M (unlessVoid s e f) ↔ Orderly Q M s := by
  unfold unlessVoid
  split
  · rfl
  · exact hf s

@[simp] theorem orderly_takeEntry {f : State → LoadEntry → State} (hf : ∀ t x, Orderly Q M (f t x) ↔ Orderly Q M t) (p n : Nat) :
    Orderly Q M (takeEntry s p n f) ↔ Orderly Q M s := by
  dsimp only [takeEntry]
  split
  · exact hf _ _
  · simp only [orderly_ite]
    split <;> rfl

/-! ### Outcomes -/

/-- What a guarded form of an operation answers, where it answers. -/
theorem orderly_guarded {c : Prop} [Decidable c] : (∀ u ∈ (if c then some t else none), Orderly Q M u) ↔ (c → Orderly Q M t) := by
  split <;> simp [*]

@[simp] theorem orderly_stateOf_next : Orderly Q M (stateOf (.next t) s) ↔ Orderly Q M t := by rw [stateOf]
@[simp] theorem orderly_stateOf_ite {c : Prop} [Decidable c] (o p : Host.Outcome State Fault Refusal) :
    Orderly Q M (stateOf (if c then o else p) s) ↔ if c then Orderly Q M (stateOf o s) else Orderly Q M (stateOf p s) := by
  split <;> rfl
@[simp] theorem orderly_stateOf_whileOn (n : Nat) (o : Host.Outcome State Fault Refusal) :
    Orderly Q M (stateOf (whileOn t n o) s) ↔ if unitRuns t then Orderly Q M (stateOf o s) else Orderly Q M (t.at n) := by
  unfold whileOn
  split <;> rfl
@[simp] theorem orderly_stateOf_answer (r : Act) : Orderly Q M (stateOf (answer r) s) ↔ Orderly Q M r.1 := by
  rw [answer, orderly_stateOf_next]
  exact orderly_congr rfl rfl rfl fun _ => rfl

/-! ### The data SRAM of an engine -/

@[simp] theorem AceRt.send_mem (x : AceRt) (slot lat : Nat) (d : Dest) (v : Int) : (x.send slot lat d v).mem = x.mem := by rw [AceRt.send]
@[simp] theorem AceRt.sendAcc_mem (x : AceRt) (k : Nat) (v : Int) : (x.sendAcc k v).mem = x.mem := by simp only [AceRt.sendAcc, send_mem]
@[simp] theorem AceRt.stSet_mem (x : AceRt) (k : Nat) (b : Bool) : (x.stSet k b).mem = x.mem := by rw [AceRt.stSet]
@[simp] theorem AceRt.setDepth_mem (x : AceRt) (d : Nat) : (x.setDepth d).mem = x.mem := by rw [AceRt.setDepth]
@[simp] theorem AceRt.leave_mem (x : AceRt) (t : Nat) : (x.leave t).mem = x.mem := by
  simp only [AceRt.leave, apply_ite AceRt.mem, setDepth_mem, ite_self]

@[simp] theorem AceRt.flow_mem (x : AceRt) : x.flow.1.mem = x.mem := by
  dsimp only [AceRt.flow]
  split
  · rfl
  · (repeat' split) <;> rfl

@[simp] theorem AceRt.setSpec_mem (x : AceRt) (n v : Nat) : (x.setSpec n v).mem = x.mem := by
  unfold AceRt.setSpec
  split <;> rfl

theorem AceRt.wf_land (x : AceRt) (f : Fly) (h : Mem.wf x.mem = true) : Mem.wf (x.land f).mem = true := by
  unfold AceRt.land
  cases f.dest with
  | mem a w => exact Mem.wf_write _ _ _ _ h
  | c n => simpa [apply_ite AceRt.mem] using h
  | spec n => simpa using h
  | _ => exact h

/-- Results that land leave the data SRAM canonical. -/
theorem AceRt.wf_landDue (x : AceRt) (h : Mem.wf x.mem = true) : Mem.wf x.landDue.mem = true :=
  List.foldlRecOn (motive := fun y : AceRt => Mem.wf y.mem = true) _ _ h fun y hy f _ => y.wf_land f hy

/-- An engine keeps the memories canonical where its data SRAM is. -/
theorem orderly_setAce_of_wf (h : Orderly Q M s) (e : Nat) (x : AceRt) (hx : M → Mem.wf x.mem = true) : Orderly Q M (s.setAce e x) := by
  refine ⟨h.1, fun hm => ?_⟩
  obtain ⟨hs, hu, ha⟩ := h.2 hm
  refine ⟨hs, hu, fun p => ?_⟩
  rw [State.ace_setAce]
  split
  · exact hx hm
  · exact ha p

/-! ### The shared memories -/

theorem orderly_withShared (h : Orderly Q M s) {m : Mem} (hm : Mem.wf s.shared = true → Mem.wf m = true) : Orderly Q M { s with shared := m } :=
  ⟨h.1, fun hM => let ⟨hs, hu, ha⟩ := h.2 hM; ⟨hm hs, hu, ha⟩⟩

theorem orderly_withCode (h : Orderly Q M s) {m : Mem} (hm : Mem.wf s.ucode = true → Mem.wf m = true) : Orderly Q M { s with ucode := m } :=
  ⟨h.1, fun hM => let ⟨hs, hu, ha⟩ := h.2 hM; ⟨hs, hm hu, ha⟩⟩

theorem reset_memoriesCanonical : MemoriesCanonical State.reset := ⟨State.reset_mem_wf.1, State.reset_mem_wf.2.1, fun _ => rfl⟩

theorem Orderly.wf_mem (h : Orderly Q M s) (e : Nat) (hm : M) : Mem.wf (s.ace e).mem = true := (h.2 hm).2.2 e

end Sys2Proof.Machine
end

