-- ==== Sys2Proof/Proofs/OrderlyAxes.lean ====
section
/-! What keeps the queue and the byte memories in order: axes, mailboxes and ports of the ring. -/

namespace Sys2Proof.Machine

variable {Q : List Instr} {M : Prop} {s t u : State}

/-! ### Operations of the state -/

@[simp] theorem orderly_putVal (key : Nat) (v : Val) : Orderly Q M (s.putVal key v) ↔ Orderly Q M s := orderly_congr rfl rfl rfl fun _ => rfl
@[simp] theorem orderly_set (o : Obj) (v : Int) (i j k : Nat) : Orderly Q M (s.set o v i j k) ↔ Orderly Q M s := orderly_congr rfl rfl rfl fun _ => rfl

@[simp] theorem orderly_setBytes (o : Obj) (b : List Byte) (i j k : Nat) : Orderly Q M (s.setBytes o b i j k) ↔ Orderly Q M s :=
  orderly_congr rfl rfl rfl fun _ => rfl

@[simp] theorem orderly_put1 (o : Obj) (v : Int) (i j k : Nat) : Orderly Q M (s.put1 o v i j k) ↔ Orderly Q M s := by simp [State.put1]
@[simp] theorem orderly_count (o : Obj) (i j k : Nat) (n : Int) : Orderly Q M (s.count o i j k n) ↔ Orderly Q M s := orderly_congr rfl rfl rfl fun _ => rfl
@[simp] theorem orderly_wrapInc (o : Obj) (i j k : Nat) : Orderly Q M (s.wrapInc o i j k) ↔ Orderly Q M s := orderly_congr rfl rfl rfl fun _ => rfl
@[simp] theorem orderly_raiseMax (o : Obj) (v : Int) (i j k : Nat) : Orderly Q M (s.raiseMax o v i j k) ↔ Orderly Q M s := by simp [State.raiseMax]
@[simp] theorem orderly_at (t : Nat) : Orderly Q M (s.at t) ↔ Orderly Q M s := by simp [State.at, ↓orderly_update]
@[simp] theorem orderly_emit (m : Msg) : Orderly Q M (s.emit m) ↔ Orderly Q M s := orderly_congr rfl rfl rfl fun _ => rfl
@[simp] theorem orderly_warn (rule who what : Nat) : Orderly Q M (s.warn rule who what) ↔ Orderly Q M s := orderly_congr rfl rfl rfl fun _ => rfl
@[simp] theorem orderly_freeDraw (w : Nat) : Orderly Q M (s.freeDraw w).2 ↔ Orderly Q M s := orderly_congr rfl rfl rfl fun _ => rfl

@[simp] theorem orderly_keepValue (key : Nat) (v : Val) (r : Act) : Orderly Q M (keepValue key v r).1 ↔ Orderly Q M r.1 := by
  unfold keepValue
  split <;> simp

@[simp] theorem orderly_kept (o : Obj) (v : Int) (r : Act) (i j k : Nat) : Orderly Q M (kept o v r i j k).1 ↔ Orderly Q M r.1 := by simp [kept]
@[simp] theorem orderly_setAxis (a : Nat) (x : AxisRt) : Orderly Q M (s.setAxis a x) ↔ Orderly Q M s := orderly_congr rfl rfl rfl fun _ => rfl
@[simp] theorem orderly_modAxis (a : Nat) (f : AxisRt → AxisRt) : Orderly Q M (s.modAxis a f) ↔ Orderly Q M s := orderly_congr rfl rfl rfl fun _ => rfl
@[simp] theorem orderly_modMot (a : Nat) (f : MotSt → MotSt) : Orderly Q M (s.modMot a f) ↔ Orderly Q M s := orderly_congr rfl rfl rfl fun _ => rfl
@[simp] theorem orderly_setFbu (u : Nat) (x : FbUnit) : Orderly Q M (s.setFbu u x) ↔ Orderly Q M s := orderly_congr rfl rfl rfl fun _ => rfl
@[simp] theorem orderly_setLatch (l : Nat) (x : LatchRt) : Orderly Q M (s.setLatch l x) ↔ Orderly Q M s := orderly_congr rfl rfl rfl fun _ => rfl
@[simp] theorem orderly_setCmp (u : Nat) (x : CmpRt) : Orderly Q M (s.setCmp u x) ↔ Orderly Q M s := orderly_congr rfl rfl rfl fun _ => rfl
@[simp] theorem orderly_setMaster (k : Nat) (x : MasterRt) : Orderly Q M (s.setMaster k x) ↔ Orderly Q M s := orderly_congr rfl rfl rfl fun _ => rfl
@[simp] theorem orderly_setEng (e : Nat) (x : EngRt) : Orderly Q M (s.setEng e x) ↔ Orderly Q M s := orderly_congr rfl rfl rfl fun _ => rfl
@[simp] theorem orderly_setEp (x : Nat) (v : Endpoint) : Orderly Q M (s.setEp x v) ↔ Orderly Q M s := orderly_congr rfl rfl rfl fun _ => rfl
@[simp] theorem orderly_modEp (x : Nat) (f : Endpoint → Endpoint) : Orderly Q M (s.modEp x f) ↔ Orderly Q M s := orderly_congr rfl rfl rfl fun _ => rfl
@[simp] theorem orderly_setPort (p : Nat) (x : PortRt) : Orderly Q M (s.setPort p x) ↔ Orderly Q M s := orderly_congr rfl rfl rfl fun _ => rfl
@[simp] theorem orderly_modRing (r : Nat) (f : RingRt → RingRt) : Orderly Q M (s.modRing r f) ↔ Orderly Q M s := orderly_congr rfl rfl rfl fun _ => rfl
@[simp] theorem orderly_setWk (r p : Nat) (x : WorkerRt) : Orderly Q M (s.setWk r p x) ↔ Orderly Q M s := orderly_congr rfl rfl rfl fun _ => rfl
@[simp] theorem orderly_modWk (r p : Nat) (f : WorkerRt → WorkerRt) : Orderly Q M (s.modWk r p f) ↔ Orderly Q M s := orderly_congr rfl rfl rfl fun _ => rfl
@[simp] theorem orderly_benchSend (kind : Nat) (fields : List Int) : Orderly Q M (benchSend s kind fields) ↔ Orderly Q M s := by simp [benchSend]
@[simp] theorem orderly_mirror (m : Mirror) : Orderly Q M (mirror s m) ↔ Orderly Q M s := by simp [mirror, ↓orderly_update]
@[simp] theorem orderly_askPartner (k : Nat) : Orderly Q M (askPartner s k) ↔ Orderly Q M s := by simp [askPartner, ↓orderly_update]
@[simp] theorem orderly_judgeReady : Orderly Q M (judgeReady s) ↔ Orderly Q M s := by simp [judgeReady]

/-! ### Axes -/

@[simp] theorem orderly_publishState (a : Nat) : Orderly Q M (publishState s a) ↔ Orderly Q M s := orderly_congr rfl rfl rfl fun _ => rfl
@[simp] theorem orderly_dropArmed (a : Nat) : Orderly Q M (dropArmed s a) ↔ Orderly Q M s := by simp [dropArmed]
@[simp] theorem orderly_dropEntry (a : Nat) : Orderly Q M (dropEntry s a) ↔ Orderly Q M s := by simp [dropEntry]
@[simp] theorem orderly_haltPort (p : Nat) : Orderly Q M (haltPort s p) ↔ Orderly Q M s := orderly_congr rfl rfl rfl fun _ => rfl
@[simp] theorem orderly_haltStep (a : Nat) : Orderly Q M (haltStep s a) ↔ Orderly Q M s := by simp [haltStep]
@[simp] theorem orderly_faultNow (a : Nat) : Orderly Q M (faultNow s a) ↔ Orderly Q M s := by simp [faultNow]

@[simp] theorem orderly_startStop (a : Nat) (k : StopKind) (c : StopCause) : Orderly Q M (startStop s a k c) ↔ Orderly Q M s := by
  unfold startStop
  split <;> simp

@[simp] theorem orderly_react (a : Nat) (reaction : Int) : Orderly Q M (react s a reaction) ↔ Orderly Q M s := by
  unfold react
  (repeat' split) <;> simp

@[simp] theorem orderly_recordFault (a code : Nat) : Orderly Q M (recordFault s a code) ↔ Orderly Q M s := by simp [recordFault]
@[simp] theorem orderly_raiseFault (a code : Nat) (reaction : Int) : Orderly Q M (raiseFault s a code reaction) ↔ Orderly Q M s := by simp [raiseFault]
@[simp] theorem orderly_faultAtOnce (a code : Nat) : Orderly Q M (faultAtOnce s a code) ↔ Orderly Q M s := by simp [faultAtOnce]
@[simp] theorem orderly_armPort (a : Nat) : Orderly Q M (armPort s a) ↔ Orderly Q M s := by simp [armPort]

@[simp] theorem orderly_enterArming (a : Nat) : Orderly Q M (enterArming s a) ↔ Orderly Q M s := by
  dsimp only [enterArming]
  split <;> simp

@[simp] theorem orderly_tryArm (a : Nat) : Orderly Q M (tryArm s a) ↔ Orderly Q M s := by simp [tryArm]
@[simp] theorem orderly_checkArmed (a : Nat) : Orderly Q M (checkArmed s a) ↔ Orderly Q M s := by simp [checkArmed]
@[simp] theorem orderly_checkArmTimeout (a : Nat) : Orderly Q M (checkArmTimeout s a) ↔ Orderly Q M s := by simp [checkArmTimeout]
@[simp] theorem orderly_endStop (a : Nat) : Orderly Q M (endStop s a) ↔ Orderly Q M s := orderly_congr rfl rfl rfl fun _ => rfl
@[simp] theorem orderly_checkStandstill (a : Nat) : Orderly Q M (checkStandstill s a) ↔ Orderly Q M s := by simp [checkStandstill]

@[simp] theorem orderly_checkStopTimeout (a : Nat) : Orderly Q M (checkStopTimeout s a) ↔ Orderly Q M s := by
  dsimp only [checkStopTimeout]
  (repeat' split) <;> simp

@[simp] theorem orderly_resetFaults (a : Nat) : Orderly Q M (resetFaults s a) ↔ Orderly Q M s := by simp [resetFaults]
@[simp] theorem orderly_jogUpdate (a : Nat) : Orderly Q M (jogUpdate s a) ↔ Orderly Q M s := by simp [jogUpdate]

@[simp] theorem orderly_enableLevel (a : Nat) (on : Bool) : Orderly Q M (enableLevel s a on) ↔ Orderly Q M s := by
  dsimp only [enableLevel]
  (repeat' split) <;> simp

@[simp] theorem orderly_askAxis (a : Nat) (k : Ask) : Orderly Q M (askAxis s a k) ↔ Orderly Q M s := orderly_congr rfl rfl rfl fun _ => rfl
@[simp] theorem orderly_controlWrite (a w : Nat) : Orderly Q M (controlWrite s a w) ↔ Orderly Q M s := orderly_congr rfl rfl rfl fun _ => rfl
@[simp] theorem orderly_judgeControl (a old w : Nat) : Orderly Q M (judgeControl s a old w) ↔ Orderly Q M s := by simp [judgeControl]
@[simp] theorem orderly_judgeMachineStop (a level : Nat) : Orderly Q M (judgeMachineStop s a level) ↔ Orderly Q M s := by simp [judgeMachineStop]

@[simp] theorem orderly_judgeAsks (a : Nat) : Orderly Q M (judgeAsks s a) ↔ Orderly Q M s := by
  dsimp only [judgeAsks]
  split
  · rfl
  · refine (orderly_forList fun k t => ?_).trans (by simp)
    split <;> simp

@[simp] theorem orderly_clearJogs : Orderly Q M (clearJogs s) ↔ Orderly Q M s := by simp [clearJogs]
@[simp] theorem orderly_faultRing (r code : Nat) (told : Bool) : Orderly Q M (faultRing s r code told) ↔ Orderly Q M s := by simp [faultRing]

/-! ### Mailboxes -/

@[simp] theorem orderly_putEp (x : Nat) (e : Endpoint) : Orderly Q M (putEp s x e) ↔ Orderly Q M s := orderly_congr rfl rfl rfl fun _ => rfl

@[simp] theorem orderly_endWait (x k : Nat) : Orderly Q M (endWait s x k) ↔ Orderly Q M s := by
  dsimp only [endWait]
  split <;> simp

@[simp] theorem orderly_ringDoorbell (y : Nat) : Orderly Q M (ringDoorbell s y) ↔ Orderly Q M s := by simp [ringDoorbell]
@[simp] theorem orderly_deliver (x y : Nat) (words : List Word) : Orderly Q M (deliver s x y words) ↔ Orderly Q M s := by simp [deliver]
@[simp] theorem orderly_publishAces : Orderly Q M (publishAces s) ↔ Orderly Q M s := by simp [publishAces]
@[simp] theorem orderly_wakeEngine (e : Nat) : Orderly Q M (wakeEngine s e) ↔ Orderly Q M s := by simp [wakeEngine]

@[simp] theorem orderly_carryPost (x : Nat) : Orderly Q M (carryPost s x) ↔ Orderly Q M s := by
  dsimp only [carryPost]
  split <;> simp

@[simp] theorem orderly_carryPosts : Orderly Q M (carryPosts s) ↔ Orderly Q M s := by simp [carryPosts]

@[simp] theorem orderly_partnerReset : Orderly Q M (partnerReset s) ↔ Orderly Q M s := by
  refine (orderly_forBelow fun y t => by simp).trans (orderly_forBelow fun x t => ?_)
  split <;> simp

@[simp] theorem orderly_postGo (x : Nat) (ctrl : Word) : Orderly Q M (postGo s x ctrl) ↔ Orderly Q M s := by simp [postGo]
@[simp] theorem orderly_ackSlot (y k : Nat) : Orderly Q M (ackSlot s y k) ↔ Orderly Q M s := by simp [ackSlot]
@[simp] theorem orderly_ackWrite (y w : Nat) : Orderly Q M (ackWrite s y w) ↔ Orderly Q M s := by simp [ackWrite]

@[simp] theorem orderly_expirePost (x : Nat) : Orderly Q M (expirePost s x) ↔ Orderly Q M s := by
  unfold expirePost
  split <;> simp

@[simp] theorem orderly_resetReceiver (y : Nat) : Orderly Q M (resetReceiver s y) ↔ Orderly Q M s := by simp [resetReceiver]

@[simp] theorem orderly_resetSender (x : Nat) : Orderly Q M (resetSender s x) ↔ Orderly Q M s := by
  dsimp only [resetSender]
  split <;> simp

@[simp] theorem orderly_resetEndpoint (x : Nat) : Orderly Q M (resetEndpoint s x) ↔ Orderly Q M s := by simp [resetEndpoint]
@[simp] theorem orderly_epWrite (x off : Nat) (w : Word) : Orderly Q M (epWrite s x off w) ↔ Orderly Q M s := by simp [epWrite]

@[simp] theorem orderly_execOutCtrlGo (x : Nat) (ctrl : Word) (t : Nat) : Orderly Q M (stateOf (execOutCtrlGo x ctrl t s) s) ↔ Orderly Q M s := by
  simp [execOutCtrlGo]

@[simp] theorem orderly_execInAck (x : Nat) (w : Word) (t : Nat) : Orderly Q M (stateOf (execInAck x w t s) s) ↔ Orderly Q M s := by simp [execInAck]
@[simp] theorem orderly_execMailboxTimeout (x t : Nat) : Orderly Q M (stateOf (execMailboxTimeout x t s) s) ↔ Orderly Q M s := by simp [execMailboxTimeout]
@[simp] theorem orderly_echoAnswer : Orderly Q M (echoAnswer s) ↔ Orderly Q M s := by simp [echoAnswer]
@[simp] theorem orderly_execMailEcho (t : Nat) : Orderly Q M (stateOf (execMailEcho t s) s) ↔ Orderly Q M s := by simp [execMailEcho]

@[simp] theorem orderly_mailRecord (ack : Bool) (x : Nat) (words : List Word) : Orderly Q M (mailRecord s ack x words) ↔ Orderly Q M s := by
  unfold mailRecord
  (repeat' split) <;> simp

@[simp] theorem orderly_execMailbox (ack : Bool) (x : Nat) (words : List Word) (t : Nat) :
    Orderly Q M (stateOf (execMailbox ack x words t s) s) ↔ Orderly Q M s := by
  simp [execMailbox]

end Sys2Proof.Machine
end

