-- ==== Sys2Proof/Proofs/OrderlyEngines.lean ====
section
/-! What keeps the queue and the byte memories in order: operations of the compute engines. -/

namespace Sys2Proof.Machine

variable {Q : List Instr} {M : Prop} {s t u : State}

/-! ### The engine at work -/

@[simp] theorem orderly_slotCount (e k n : Nat) : Orderly Q M (slotCount s e k n) ↔ Orderly Q M s :=
  (orderly_aceEvent ..).trans (orderly_modAce _ _ fun _ => rfl)

@[simp] theorem orderly_aceStall (e n : Nat) : Orderly Q M (aceStall s e n) ↔ Orderly Q M s := by simp [aceStall]
@[simp] theorem orderly_clearPipe (e : Nat) : Orderly Q M (clearPipe s e) ↔ Orderly Q M s := by simp [clearPipe]

@[simp] theorem orderly_voidRun (e why : Nat) : Orderly Q M (voidRun s e why) ↔ Orderly Q M s := by
  unfold voidRun
  split <;> simp [↓orderly_update]

@[simp] theorem orderly_orderVoid (e why : Nat) : Orderly Q M (orderVoid s e why) ↔ Orderly Q M s := by simp [orderVoid]

@[simp] theorem orderly_aceRaise (e code : Nat) : Orderly Q M (aceRaise s e code) ↔ Orderly Q M s := by
  dsimp only [aceRaise]
  (repeat' split) <;> simp

@[simp] theorem orderly_bundleCounted (e : Nat) : Orderly Q M (bundleCounted s e) ↔ Orderly Q M s := by simp [bundleCounted]

/-- The end of a bundle lands the results that are due, and writes the engine's other registers. -/
@[simp] theorem orderly_bundleEnd (e : Nat) (h : Orderly Q M s) : Orderly Q M (bundleEnd s e) := by
  unfold bundleEnd
  extract_lets x
  split
  · simpa
  next k counts v y z _ _ =>
  have hv : Orderly Q M v := (orderly_bundleCounted e).2 h
  have hz : M → Mem.wf z.flow.1.mem = true := by
    rw [AceRt.flow_mem]
    exact hv.wf_mem e
  clear_value z v
  split
  next _ w passes hflow =>
  extract_lets n landed u now
  rw [hflow] at hz
  have hu : Orderly Q M u := (orderly_aceEvent ..).2 (orderly_setAce_of_wf hv e _ fun hM => AceRt.wf_landDue _ (hz hM))
  clear_value u
  split
  · simp [now, hu]
  · simpa

/-- The end of a bundle lands results, so an operation that keeps order keeps it to the end of its bundle. -/
theorem orderly_aceOp_of {f : State → State} (hf : ∀ t, Orderly Q M t → Orderly Q M (f t)) (i : AceAt) (slot : Nat) (nop bare : Bool)
    (h : Orderly Q M s) : Orderly Q M (aceOp s i slot nop bare f) := by
  unfold aceOp
  extract_lets x run
  have hrun : Orderly Q M run := by simp [run, hf, h]
  clear_value run
  simp [h, hrun]

@[simp] theorem orderly_aceOp {f : State → State} (hf : ∀ t, Orderly Q M (f t) ↔ Orderly Q M t) (i : AceAt) (slot : Nat) (nop bare : Bool)
    (h : Orderly Q M s) : Orderly Q M (aceOp s i slot nop bare f) := orderly_aceOp_of (fun t => (hf t).2) i slot nop bare h

@[simp] theorem orderly_aceSat (e k : Nat) (b : Bool) : Orderly Q M (aceSat s e k b) ↔ Orderly Q M s := by simp [aceSat]

theorem orderly_acePriv_of {f : State → State} (hf : ∀ t, Orderly Q M t → Orderly Q M (f t)) (e : Nat) (h : Orderly Q M s) : Orderly Q M (acePriv s e f) := by
  simp [acePriv, hf, h]

@[simp] theorem orderly_acePriv {f : State → State} (hf : ∀ t, Orderly Q M (f t) ↔ Orderly Q M t) (e : Nat) : Orderly Q M (acePriv s e f) ↔ Orderly Q M s := by
  simp [acePriv, hf]

/-! ### The M slot -/

@[simp] theorem orderly_putAcc (e k : Nat) (v : Int) : Orderly Q M (putAcc s e k v) ↔ Orderly Q M s := by
  simp [putAcc]

@[simp] theorem orderly_mulAcc (i : AceAt) (k a b : Nat) (h : Bool) (keep sg : Int) (ho : Orderly Q M s) : Orderly Q M (mulAcc s i k a b h keep sg) := by
  simp [ho, mulAcc]

@[simp] theorem orderly_movAcc (i : AceAt) (k a sh : Nat) (keep : Bool) (h : Orderly Q M s) : Orderly Q M (movAcc s i k a sh keep) := by simp [h, movAcc]
@[simp] theorem orderly_cplAcc (i : AceAt) (k a b : Nat) (keep : Int) (h : Orderly Q M s) : Orderly Q M (cplAcc s i k a b keep) := by simp [h, cplAcc]

@[simp] theorem orderly_extAcc (i : AceAt) (d k : Nat) (sh : AceRt → Nat) (n : Nat) (h : Orderly Q M s) : Orderly Q M (extAcc s i d k sh n) := by
  simp [h, extAcc]

@[simp] theorem orderly_execAceMnop (i : AceAt) (h : Orderly Q M s) : Orderly Q M (stateOf (execAceMnop i s) s) := by simp [h, execAceMnop]

@[simp] theorem orderly_execAceMpy (i : AceAt) (k a b : Nat) (h : Bool) (ho : Orderly Q M s) : Orderly Q M (stateOf (execAceMpy i k a b h s) s) := by
  simp [ho, execAceMpy]

@[simp] theorem orderly_execAceMac (i : AceAt) (k a b : Nat) (h : Bool) (ho : Orderly Q M s) : Orderly Q M (stateOf (execAceMac i k a b h s) s) := by
  simp [ho, execAceMac]

@[simp] theorem orderly_execAceMsu (i : AceAt) (k a b : Nat) (h : Bool) (ho : Orderly Q M s) : Orderly Q M (stateOf (execAceMsu i k a b h s) s) := by
  simp [ho, execAceMsu]

@[simp] theorem orderly_execAceMova (i : AceAt) (k a sh : Nat) (h : Orderly Q M s) : Orderly Q M (stateOf (execAceMova i k a sh s) s) := by
  simp [h, execAceMova]

@[simp] theorem orderly_execAceAdda (i : AceAt) (k a sh : Nat) (h : Orderly Q M s) : Orderly Q M (stateOf (execAceAdda i k a sh s) s) := by
  simp [h, execAceAdda]

@[simp] theorem orderly_execAceCmpy (i : AceAt) (k a b : Nat) (h : Orderly Q M s) : Orderly Q M (stateOf (execAceCmpy i k a b s) s) := by simp [h, execAceCmpy]
@[simp] theorem orderly_execAceCmac (i : AceAt) (k a b : Nat) (h : Orderly Q M s) : Orderly Q M (stateOf (execAceCmac i k a b s) s) := by simp [h, execAceCmac]

@[simp] theorem orderly_execAceExtD (i : AceAt) (d k sh : Nat) (h : Orderly Q M s) : Orderly Q M (stateOf (execAceExtD i d k sh s) s) := by
  simp [h, execAceExtD]

@[simp] theorem orderly_execAceExtW (i : AceAt) (d k sh : Nat) (h : Orderly Q M s) : Orderly Q M (stateOf (execAceExtW i d k sh s) s) := by
  simp [h, execAceExtW]

@[simp] theorem orderly_extPair (i : AceAt) (d k sh : Nat) (h : Orderly Q M s) : Orderly Q M (extPair s i d k sh) := by simp [h, extPair]

@[simp] theorem orderly_execAceCext (i : AceAt) (d k sh : Nat) (h : Orderly Q M s) : Orderly Q M (stateOf (execAceCext i d k sh s) s) := by
  simp [h, execAceCext]

@[simp] theorem orderly_execAceClra (i : AceAt) (k : Nat) (h : Orderly Q M s) : Orderly Q M (stateOf (execAceClra i k s) s) := by simp [h, execAceClra]

@[simp] theorem orderly_execAceExtDv (i : AceAt) (d k t : Nat) (h : Orderly Q M s) : Orderly Q M (stateOf (execAceExtDv i d k t s) s) := by
  simp [h, execAceExtDv]

@[simp] theorem orderly_execAceExtWv (i : AceAt) (d k t : Nat) (h : Orderly Q M s) : Orderly Q M (stateOf (execAceExtWv i d k t s) s) := by
  simp [h, execAceExtWv]

/-! ### The A slot -/

@[simp] theorem orderly_aluOp (i : AceAt) (d a b : Nat) (f : DWord → DWord → DWord × Bool) (h : Orderly Q M s) : Orderly Q M (aluOp s i d a b f) := by
  simp [h, aluOp]

@[simp] theorem orderly_execAceAnop (i : AceAt) (h : Orderly Q M s) : Orderly Q M (stateOf (execAceAnop i s) s) := by simp [h, execAceAnop]
@[simp] theorem orderly_execAceAdd (i : AceAt) (d a b : Nat) (h : Orderly Q M s) : Orderly Q M (stateOf (execAceAdd i d a b s) s) := by simp [h, execAceAdd]
@[simp] theorem orderly_execAceSub (i : AceAt) (d a b : Nat) (h : Orderly Q M s) : Orderly Q M (stateOf (execAceSub i d a b s) s) := by simp [h, execAceSub]
@[simp] theorem orderly_execAceAdds (i : AceAt) (d a b : Nat) (h : Orderly Q M s) : Orderly Q M (stateOf (execAceAdds i d a b s) s) := by simp [h, execAceAdds]
@[simp] theorem orderly_execAceSubs (i : AceAt) (d a b : Nat) (h : Orderly Q M s) : Orderly Q M (stateOf (execAceSubs i d a b s) s) := by simp [h, execAceSubs]
@[simp] theorem orderly_execAceAnd (i : AceAt) (d a b : Nat) (h : Orderly Q M s) : Orderly Q M (stateOf (execAceAnd i d a b s) s) := by simp [h, execAceAnd]
@[simp] theorem orderly_execAceOr (i : AceAt) (d a b : Nat) (h : Orderly Q M s) : Orderly Q M (stateOf (execAceOr i d a b s) s) := by simp [h, execAceOr]
@[simp] theorem orderly_execAceXor (i : AceAt) (d a b : Nat) (h : Orderly Q M s) : Orderly Q M (stateOf (execAceXor i d a b s) s) := by simp [h, execAceXor]
@[simp] theorem orderly_execAceShl (i : AceAt) (d a n : Nat) (h : Orderly Q M s) : Orderly Q M (stateOf (execAceShl i d a n s) s) := by simp [h, execAceShl]
@[simp] theorem orderly_execAceShr (i : AceAt) (d a n : Nat) (h : Orderly Q M s) : Orderly Q M (stateOf (execAceShr i d a n s) s) := by simp [h, execAceShr]
@[simp] theorem orderly_execAceSar (i : AceAt) (d a n : Nat) (h : Orderly Q M s) : Orderly Q M (stateOf (execAceSar i d a n s) s) := by simp [h, execAceSar]
@[simp] theorem orderly_execAceSarr (i : AceAt) (d a n : Nat) (h : Orderly Q M s) : Orderly Q M (stateOf (execAceSarr i d a n s) s) := by simp [h, execAceSarr]
@[simp] theorem orderly_execAceMin (i : AceAt) (d a b : Nat) (h : Orderly Q M s) : Orderly Q M (stateOf (execAceMin i d a b s) s) := by simp [h, execAceMin]
@[simp] theorem orderly_execAceMax (i : AceAt) (d a b : Nat) (h : Orderly Q M s) : Orderly Q M (stateOf (execAceMax i d a b s) s) := by simp [h, execAceMax]
@[simp] theorem orderly_execAceAbs (i : AceAt) (d a : Nat) (h : Orderly Q M s) : Orderly Q M (stateOf (execAceAbs i d a s) s) := by simp [h, execAceAbs]
@[simp] theorem orderly_execAceNeg (i : AceAt) (d a : Nat) (h : Orderly Q M s) : Orderly Q M (stateOf (execAceNeg i d a s) s) := by simp [h, execAceNeg]

@[simp] theorem orderly_execAceAddi (i : AceAt) (d a : Nat) (imm : Int) (h : Orderly Q M s) : Orderly Q M (stateOf (execAceAddi i d a imm s) s) := by
  simp [h, execAceAddi]

@[simp] theorem orderly_execAceLdi (i : AceAt) (d imm : Nat) (ext : Option Nat) (h : Orderly Q M s) : Orderly Q M (stateOf (execAceLdi i d imm ext s) s) := by
  simp [h, execAceLdi]

@[simp] theorem orderly_cmpOp (i : AceAt) (d a b cc : Nat) (h : Orderly Q M s) : Orderly Q M (cmpOp s i d a b cc) := by
  refine orderly_aceOp (fun t => ?_) i 1 false false h
  dsimp only
  split <;> simp

@[simp] theorem orderly_execAceCmp (i : AceAt) (d a b cc : Nat) (h : Orderly Q M s) : Orderly Q M (stateOf (execAceCmp i d a b cc s) s) := by
  simp [h, execAceCmp]

@[simp] theorem orderly_execAcePadd2 (i : AceAt) (d a b : Nat) (h : Bool) (ho : Orderly Q M s) : Orderly Q M (stateOf (execAcePadd2 i d a b h s) s) := by
  simp [ho, execAcePadd2]

@[simp] theorem orderly_execAcePsub2 (i : AceAt) (d a b : Nat) (h : Bool) (ho : Orderly Q M s) : Orderly Q M (stateOf (execAcePsub2 i d a b h s) s) := by
  simp [ho, execAcePsub2]

@[simp] theorem orderly_mtrOp (i : AceAt) (n a : Nat) (h : Orderly Q M s) : Orderly Q M (mtrOp s i n a) := by
  refine orderly_aceOp (fun t => ?_) i 1 false false h
  split <;> simp

@[simp] theorem orderly_execAceMtr (i : AceAt) (n a : Nat) (h : Orderly Q M s) : Orderly Q M (stateOf (execAceMtr i n a s) s) := by simp [h, execAceMtr]
@[simp] theorem orderly_mfrOp (i : AceAt) (d n : Nat) (h : Orderly Q M s) : Orderly Q M (mfrOp s i d n) := by simp [h, mfrOp]
@[simp] theorem orderly_execAceMfr (i : AceAt) (d n : Nat) (h : Orderly Q M s) : Orderly Q M (stateOf (execAceMfr i d n s) s) := by simp [h, execAceMfr]
@[simp] theorem orderly_mtsOp (i : AceAt) (n a : Nat) (h : Orderly Q M s) : Orderly Q M (mtsOp s i n a) := by simp [h, mtsOp]
@[simp] theorem orderly_execAceMts (i : AceAt) (n a : Nat) (h : Orderly Q M s) : Orderly Q M (stateOf (execAceMts i n a s) s) := by simp [h, execAceMts]
@[simp] theorem orderly_mfsOp (i : AceAt) (d n : Nat) (h : Orderly Q M s) : Orderly Q M (mfsOp s i d n) := by simp [h, mfsOp]
@[simp] theorem orderly_execAceMfs (i : AceAt) (d n : Nat) (h : Orderly Q M s) : Orderly Q M (stateOf (execAceMfs i d n s) s) := by simp [h, execAceMfs]
@[simp] theorem orderly_branchTo (e t : Nat) (reti ret : Bool) : Orderly Q M (branchTo s e t reti ret) ↔ Orderly Q M s := by simp [branchTo]
@[simp] theorem orderly_execAceBr (i : AceAt) (off : Int) (h : Orderly Q M s) : Orderly Q M (stateOf (execAceBr i off s) s) := by simp [h, execAceBr]
@[simp] theorem orderly_execAceCall (i : AceAt) (off : Int) (h : Orderly Q M s) : Orderly Q M (stateOf (execAceCall i off s) s) := by simp [h, execAceCall]
@[simp] theorem orderly_execAceRet (i : AceAt) (h : Orderly Q M s) : Orderly Q M (stateOf (execAceRet i s) s) := by simp [h, execAceRet]
@[simp] theorem orderly_execAceReti (i : AceAt) (h : Orderly Q M s) : Orderly Q M (stateOf (execAceReti i s) s) := by simp [h, execAceReti]

@[simp] theorem orderly_repeatOp (e len cnt : Nat) : Orderly Q M (repeatOp s e len cnt) ↔ Orderly Q M s := by
  simp [repeatOp]

@[simp] theorem orderly_execAceRep (i : AceAt) (useReg : Bool) (a cnt len : Nat) (h : Orderly Q M s) :
    Orderly Q M (stateOf (execAceRep i useReg a cnt len s) s) := by
  simp [h, execAceRep]

@[simp] theorem orderly_execAceBkpt (i : AceAt) (h : Orderly Q M s) : Orderly Q M (stateOf (execAceBkpt i s) s) := by simp [h, execAceBkpt]

/-! ### The L slot -/

@[simp] theorem orderly_lAccess {f : State → Nat → State} (hf : ∀ t a, Orderly Q M (f t a) ↔ Orderly Q M t) (i : AceAt) (pn am : Nat) (off : Int) (w : Nat)
    (store : Bool) (h : Orderly Q M s) : Orderly Q M (lAccess s i pn am off w store f) := by
  refine orderly_aceOp (fun t => ?_) i 2 false false h
  generalize lAddr (t.ace i.eng) pn am off w = r
  obtain ⟨a, q, bad⟩ := r
  dsimp only
  split
  · simp
  · simp only [orderly_ite]
    split
    · split <;> simp [hf]
    · simp

@[simp] theorem orderly_loadOp (i : AceAt) (g pn am : Nat) (off : Int) (w : Nat) (signed : Bool) (h : Orderly Q M s) :
    Orderly Q M (loadOp s i g pn am off w signed) := by
  simp [h, loadOp]

@[simp] theorem orderly_storeOp (i : AceAt) (g pn am : Nat) (off : Int) (w : Nat) (h : Orderly Q M s) : Orderly Q M (storeOp s i g pn am off w) := by
  simp [h, storeOp]

@[simp] theorem orderly_execAceLnop (i : AceAt) (h : Orderly Q M s) : Orderly Q M (stateOf (execAceLnop i s) s) := by simp [h, execAceLnop]

@[simp] theorem orderly_execAceLdD (i : AceAt) (g pn am : Nat) (off : Int) (h : Orderly Q M s) : Orderly Q M (stateOf (execAceLdD i g pn am off s) s) := by
  simp [h, execAceLdD]

@[simp] theorem orderly_execAceLdW (i : AceAt) (g pn am : Nat) (off : Int) (h : Orderly Q M s) : Orderly Q M (stateOf (execAceLdW i g pn am off s) s) := by
  simp [h, execAceLdW]

@[simp] theorem orderly_execAceLdWu (i : AceAt) (g pn am : Nat) (off : Int) (h : Orderly Q M s) : Orderly Q M (stateOf (execAceLdWu i g pn am off s) s) := by
  simp [h, execAceLdWu]

@[simp] theorem orderly_execAceLdH (i : AceAt) (g pn am : Nat) (off : Int) (h : Orderly Q M s) : Orderly Q M (stateOf (execAceLdH i g pn am off s) s) := by
  simp [h, execAceLdH]

@[simp] theorem orderly_execAceLdHu (i : AceAt) (g pn am : Nat) (off : Int) (h : Orderly Q M s) : Orderly Q M (stateOf (execAceLdHu i g pn am off s) s) := by
  simp [h, execAceLdHu]

@[simp] theorem orderly_execAceStD (i : AceAt) (g pn am : Nat) (off : Int) (h : Orderly Q M s) : Orderly Q M (stateOf (execAceStD i g pn am off s) s) := by
  simp [h, execAceStD]

@[simp] theorem orderly_execAceStW (i : AceAt) (g pn am : Nat) (off : Int) (h : Orderly Q M s) : Orderly Q M (stateOf (execAceStW i g pn am off s) s) := by
  simp [h, execAceStW]

@[simp] theorem orderly_execAceStH (i : AceAt) (g pn am : Nat) (off : Int) (h : Orderly Q M s) : Orderly Q M (stateOf (execAceStH i g pn am off s) s) := by
  simp [h, execAceStH]

@[simp] theorem orderly_execAceLd2D (i : AceAt) (rp pa : Nat) (oa : Int) (pb : Nat) (ob : Int) (h : Orderly Q M s) :
    Orderly Q M (stateOf (execAceLd2D i rp pa oa pb ob s) s) := by
  rw [execAceLd2D, orderly_stateOf_next]
  refine orderly_aceOp (fun t => ?_) i 2 false false h
  generalize pairAddr (t.ace i.eng) pa oa pb ob = r
  obtain ⟨a, b⟩ := r
  exact orderly_choice ((orderly_aceEvent ..).trans (orderly_modAce _ _ fun x => by rw [AceRt.send_mem, AceRt.send_mem])) (orderly_aceRaise ..)

@[simp] theorem orderly_execAceSt2D (i : AceAt) (rp pa : Nat) (oa : Int) (pb : Nat) (ob : Int) (h : Orderly Q M s) :
    Orderly Q M (stateOf (execAceSt2D i rp pa oa pb ob s) s) := by
  simp [h, execAceSt2D]

@[simp] theorem orderly_execAceLdstD (i : AceAt) (d pa g pb : Nat) (h : Orderly Q M s) : Orderly Q M (stateOf (execAceLdstD i d pa g pb s) s) := by
  rw [execAceLdstD, orderly_stateOf_next]
  refine orderly_aceOp (fun t => ?_) i 2 false false h
  dsimp only
  generalize lAddr (t.ace i.eng) pa 1 0 8 = r
  generalize lAddr (t.ace i.eng) pb 1 0 8 = q
  obtain ⟨a, qa, ba⟩ := r
  obtain ⟨b, qb, bb⟩ := q
  exact orderly_choice (orderly_aceRaise ..) ((orderly_aceEvent ..).trans ((orderly_aceEvent ..).trans (orderly_modAce _ _ fun x => by simp only [AceRt.send_mem])))

@[simp] theorem orderly_execAcePmod (i : AceAt) (pn : Nat) (imm : Int) (h : Orderly Q M s) : Orderly Q M (stateOf (execAcePmod i pn imm s) s) := by
  rw [execAcePmod, orderly_stateOf_next]
  refine orderly_aceOp (fun t => ?_) i 2 false false h
  dsimp only
  split <;> simp

@[simp] theorem orderly_sharedWrite (e a : Nat) (v : DWord) (h : Orderly Q M s) : Orderly Q M (sharedWrite s e a v) := by
  unfold sharedWrite
  split
  · split
    · simpa
    · exact orderly_withShared h (Mem.wf_write _ _ _ _)
  · simpa

@[simp] theorem orderly_xldDone (e : Nat) : Orderly Q M (xldDone s e) ↔ Orderly Q M s := by
  unfold xldDone
  split <;> simp

@[simp] theorem orderly_xldStall (e : Nat) : Orderly Q M (xldStall s e) ↔ Orderly Q M s := by simp [xldStall]

@[simp] theorem orderly_execAceXldD (i : AceAt) (g pn am : Nat) (off : Int) (h : Orderly Q M s) : Orderly Q M (stateOf (execAceXldD i g pn am off s) s) := by
  rw [execAceXldD, orderly_stateOf_next]
  refine orderly_aceOp (fun t => orderly_acePriv (fun u => ?_) _) i 2 false false h
  generalize lAddr (u.ace i.eng) pn am off 8 = r
  obtain ⟨a, q, bad⟩ := r
  dsimp only
  split
  · simp
  · cases q <;> simp

@[simp] theorem orderly_execAceXstD (i : AceAt) (g pn am : Nat) (off : Int) (h : Orderly Q M s) : Orderly Q M (stateOf (execAceXstD i g pn am off s) s) := by
  rw [execAceXstD, orderly_stateOf_next]
  refine orderly_aceOp_of (fun t ht => ?_) i 2 false false h
  dsimp only
  generalize lAddr (t.ace i.eng) pn am off 8 = r
  obtain ⟨a, q, bad⟩ := r
  dsimp only
  split
  · simpa
  · cases q <;> simp [ht]

@[simp] theorem orderly_execAceXldComplete (e t : Nat) : Orderly Q M (stateOf (execAceXldComplete e t s) s) ↔ Orderly Q M s := by simp [execAceXldComplete]
@[simp] theorem orderly_execAceXwait (i : AceAt) (h : Orderly Q M s) : Orderly Q M (stateOf (execAceXwait i s) s) := by simp [h, execAceXwait]

/-! ### Bundles -/

@[simp] theorem orderly_runM (i : AceAt) (w : Nat) (h : Orderly Q M s) : ∀ u ∈ runM i w s, Orderly Q M u := by
  dsimp only [runM]
  split <;> simp [↓orderly_guarded, h]

@[simp] theorem orderly_runA (i : AceAt) (w : Nat) (ext : Option Nat) (h : Orderly Q M s) : ∀ u ∈ runA i w ext s, Orderly Q M u := by
  dsimp only [runA]
  split <;> simp [↓orderly_guarded, h]

@[simp] theorem orderly_runL (i : AceAt) (w : Nat) (h : Orderly Q M s) : ∀ u ∈ runL i w s, Orderly Q M u := by
  dsimp only [runL]
  split <;> simp [↓orderly_guarded, h]

@[simp] theorem orderly_runBundle (e w : Nat) (h : Orderly Q M s) : Orderly Q M (runBundle e w s) := by
  unfold runBundle
  extract_lets ms as ls imm bad
  have hbad (t : State) (ht : Orderly Q M t) : Orderly Q M (bad t) := orderly_bundleEnd e (by simp [ht])
  split
  · exact hbad s h
  have hm : ∀ u ∈ (if imm = true then some s else runM (sylAt e ms false) ms s), Orderly Q M u := by
    split
    · simpa
    · exact orderly_runM _ _ h
  split
  · exact hbad s h
  next s1 h1 =>
  have hs1 := hm s1 h1
  split
  · exact hbad s1 hs1
  next s2 h2 =>
  have hs2 := orderly_runA _ _ _ hs1 s2 h2
  split
  · exact hbad s2 hs2
  next s3 h3 => exact orderly_runL _ _ hs2 s3 h3

@[simp] theorem orderly_runCall (e n : Nat) (h : Orderly Q M s) : Orderly Q M (runCall e n s).1 := by
  induction n generalizing s with
  | zero => exact h
  | succ n ih =>
    dsimp only [runCall]
    split
    · exact h
    · exact ih (orderly_runBundle e _ h)

@[simp] theorem orderly_enterCall (e a v point cycle : Nat) (ins outs : List Int) : Orderly Q M (enterCall s e a v point cycle ins outs) ↔ Orderly Q M s := by
  simp [enterCall]

@[simp] theorem orderly_callBlock (e a v point cycle : Nat) (ins outs : List Int) (h : Orderly Q M s) :
    Orderly Q M (callBlock s e a v point cycle ins outs).1 := by
  dsimp only [callBlock]
  split
  · simp [h]
  · split
    · simp [h]
    · simp [h]

@[simp] theorem orderly_timeAbort (e : Nat) : Orderly Q M (timeAbort s e) ↔ Orderly Q M s := by
  unfold timeAbort
  split <;> simp

@[simp] theorem orderly_execAceTimeAbort (e t : Nat) : Orderly Q M (stateOf (execAceTimeAbort e t s) s) ↔ Orderly Q M s := by
  dsimp only [execAceTimeAbort]
  split <;> simp

@[simp] theorem orderly_execAceException (e code t : Nat) : Orderly Q M (stateOf (execAceException e code t s) s) ↔ Orderly Q M s := by simp [execAceException]

@[simp] theorem orderly_takeSample (e : Nat) : Orderly Q M (takeSample s e) ↔ Orderly Q M s := by
  unfold takeSample
  split <;> simp

@[simp] theorem orderly_interruptEntry (e src : Nat) (h : Orderly Q M s) : Orderly Q M (interruptEntry s e src) := by
  unfold interruptEntry
  split
  · exact h
  · extract_lets x wait u v w
    have hu : Orderly Q M u := (orderly_aceStall ..).2 (orderly_setAce_of_wf h e _ fun hM => AceRt.wf_landDue _ (h.wf_mem e hM))
    simp [w, v, hu]

@[simp] theorem orderly_execAceInterruptEntry (e src t : Nat) (h : Orderly Q M s) : Orderly Q M (stateOf (execAceInterruptEntry e src t s) s) := by
  simp [h, execAceInterruptEntry]

end Sys2Proof.Machine
end

