-- ==== Sys2Proof/Proofs/OrderlyMotion.lean ====
section
/-! What keeps the queue and the byte memories in order: the link to the drives, feedback, masters, setpoints and loops. -/

namespace Sys2Proof.Machine

variable {Q : List Instr} {M : Prop} {s t u : State}

/-! ### Links -/

@[simp] theorem orderly_setField (f : FieldRt) : Orderly Q M (s.setField f) ↔ Orderly Q M s := orderly_congr rfl rfl rfl fun _ => rfl
@[simp] theorem orderly_modField (f : FieldRt → FieldRt) : Orderly Q M (s.modField f) ↔ Orderly Q M s := orderly_congr rfl rfl rfl fun _ => rfl
@[simp] theorem orderly_dropEdges (q : Nat) (lv : Bool) : Orderly Q M (dropEdges s q lv) ↔ Orderly Q M s := orderly_congr rfl rfl rfl fun _ => rfl
@[simp] theorem orderly_dieSafe : Orderly Q M (dieSafe s) ↔ Orderly Q M s := by simp [dieSafe]
@[simp] theorem orderly_inputsAgain : Orderly Q M (inputsAgain s) ↔ Orderly Q M s := by simp [inputsAgain]
@[simp] theorem orderly_outputsReturn : Orderly Q M (outputsReturn s) ↔ Orderly Q M s := by simp [outputsReturn]
@[simp] theorem orderly_judgeDieSafe : Orderly Q M (judgeDieSafe s) ↔ Orderly Q M s := by simp [judgeDieSafe]
@[simp] theorem orderly_judgeDieExit : Orderly Q M (judgeDieExit s) ↔ Orderly Q M s := by simp [judgeDieExit]
@[simp] theorem orderly_switchOutputs : Orderly Q M (switchOutputs s) ↔ Orderly Q M s := by simp [switchOutputs]
@[simp] theorem orderly_switchTimed (q : Nat) (lv : Bool) : Orderly Q M (switchTimed s q lv) ↔ Orderly Q M s := by simp [switchTimed]
@[simp] theorem orderly_edgeReceived (q t rx : Nat) (lv : Bool) : Orderly Q M (edgeReceived s q t rx lv) ↔ Orderly Q M s := by simp [edgeReceived]
@[simp] theorem orderly_dieReceive (t : Nat) (rx : List Byte) : Orderly Q M (dieReceive s t rx) ↔ Orderly Q M s := by simp [dieReceive]
@[simp] theorem orderly_downSlot (t : Nat) (rx : Option (List Byte)) : Orderly Q M (downSlot s t rx) ↔ Orderly Q M s := by simp [downSlot]

@[simp] theorem orderly_execDownstreamFrame (t : Nat) (rx : Option (List Byte)) : Orderly Q M (stateOf (execDownstreamFrame t rx s) s) ↔ Orderly Q M s := by
  simp [execDownstreamFrame]

@[simp] theorem orderly_execUntimedOutputSwitch (t : Nat) : Orderly Q M (stateOf (execUntimedOutputSwitch t s) s) ↔ Orderly Q M s := by
  simp [execUntimedOutputSwitch]

@[simp] theorem orderly_dueEdges (q : Nat) : Orderly Q M (dueEdges s q) ↔ Orderly Q M s := by simp [dueEdges]
@[simp] theorem orderly_execTimedEdge (q t : Nat) : Orderly Q M (stateOf (execTimedEdge q t s) s) ↔ Orderly Q M s := by simp [execTimedEdge]
@[simp] theorem orderly_execDieSafeState (t : Nat) : Orderly Q M (stateOf (execDieSafeState t s) s) ↔ Orderly Q M s := by simp [execDieSafeState]
@[simp] theorem orderly_execDieSafeExit (t : Nat) : Orderly Q M (stateOf (execDieSafeExit t s) s) ↔ Orderly Q M s := by simp [execDieSafeExit]

/-! ### Feedback -/

@[simp] theorem orderly_putUnit (u : Nat) (f : FbUnit) : Orderly Q M (putUnit s u f) ↔ Orderly Q M s := orderly_congr rfl rfl rfl fun _ => rfl
@[simp] theorem orderly_feedbackFault (a : Nat) : Orderly Q M (feedbackFault s a) ↔ Orderly Q M s := by simp [feedbackFault]

@[simp] theorem orderly_holdCompares (u : Nat) : Orderly Q M (holdCompares s u) ↔ Orderly Q M s := by
  unfold holdCompares
  refine orderly_forBelow fun i t => ?_
  dsimp only
  (repeat' split) <;> simp

@[simp] theorem orderly_unitFault (u : Nat) : Orderly Q M (unitFault s u) ↔ Orderly Q M s := by simp [unitFault]
@[simp] theorem orderly_wireReport (u k : Nat) (bad : Bool) : Orderly Q M (wireReport s u k bad) ↔ Orderly Q M s := by simp [wireReport]

@[simp] theorem orderly_startRebase (a : Nat) : Orderly Q M (startRebase s a) ↔ Orderly Q M s := by
  dsimp only [startRebase]
  split <;> simp

@[simp] theorem orderly_illegalTransition (u t : Nat) : Orderly Q M (illegalTransition s u t) ↔ Orderly Q M s := by
  dsimp only [illegalTransition]
  split <;> simp

@[simp] theorem orderly_sameSample (u t : Nat) (ext : Int) : Orderly Q M (sameSample s u t ext) ↔ Orderly Q M s := by simp [sameSample]
@[simp] theorem orderly_quadStep (u : Nat) (d : Int) (t : Nat) : Orderly Q M (quadStep s u d t) ↔ Orderly Q M s := by simp [quadStep]
@[simp] theorem orderly_takeLatch (l t : Nat) (falling : Bool) (p : Int × Nat) : Orderly Q M (takeLatch s l t falling p) ↔ Orderly Q M s := by simp [takeLatch]
@[simp] theorem orderly_indexEventAt (u t : Nat) : Orderly Q M (indexEventAt s u t) ↔ Orderly Q M s := by simp [indexEventAt]

@[simp] theorem orderly_indexWithdrawn (u t : Nat) : Orderly Q M (indexWithdrawn s u t) ↔ Orderly Q M s := by
  dsimp only [indexWithdrawn]
  split <;> simp

@[simp] theorem orderly_judgeGate (u t : Nat) : Orderly Q M (judgeGate s u t) ↔ Orderly Q M s := by simp [judgeGate]

@[simp] theorem orderly_quadLevels (u : Nat) (a b : Bool) (t held : Nat) : Orderly Q M (quadLevels s u a b t held).1 ↔ Orderly Q M s := by
  dsimp only [quadLevels]
  (repeat' split) <;> simp

@[simp] theorem orderly_indexLevel (u : Nat) (z : Bool) (t held : Nat) : Orderly Q M (indexLevel s u z t held) ↔ Orderly Q M s := by simp [indexLevel]
@[simp] theorem orderly_absReceive (u : Nat) (low : Bool) (l : List Bool) : Orderly Q M (absReceive s u low l) ↔ Orderly Q M s := by simp [absReceive]
@[simp] theorem orderly_sampleUnits (tw : Nat) : Orderly Q M (sampleUnits s tw) ↔ Orderly Q M s := by simp [sampleUnits]
@[simp] theorem orderly_clearUnitFault (u : Nat) : Orderly Q M (clearUnitFault s u) ↔ Orderly Q M s := by simp [clearUnitFault]
@[simp] theorem orderly_fbPublish (a : Nat) (st age est : Int) : Orderly Q M (fbPublish s a st age est) ↔ Orderly Q M s := by simp [fbPublish]
@[simp] theorem orderly_fbExtend (a tc : Nat) (m : FbSample) : Orderly Q M (fbExtend s a tc m) ↔ Orderly Q M s := by simp [fbExtend]
@[simp] theorem orderly_fbReplace (a tc : Nat) (m : FbSample) : Orderly Q M (fbReplace s a tc m) ↔ Orderly Q M s := by simp [fbReplace]
@[simp] theorem orderly_judgeHold (a : Nat) : Orderly Q M (judgeHold s a) ↔ Orderly Q M s := by simp [judgeHold]
@[simp] theorem orderly_fbHeld (a : Nat) : Orderly Q M (fbHeld s a) ↔ Orderly Q M s := by simp [fbHeld]

@[simp] theorem orderly_feedbackNode (a tw tc : Nat) : Orderly Q M (feedbackNode s a tw tc) ↔ Orderly Q M s := by
  unfold feedbackNode
  (repeat' split) <;> simp

/-! ### Injection -/

@[simp] theorem orderly_injEnd (st : Int) : Orderly Q M (injEnd s st) ↔ Orderly Q M s := by simp [injEnd, ↓orderly_update]
@[simp] theorem orderly_judgeInj (tw : Nat) : Orderly Q M (judgeInj s tw) ↔ Orderly Q M s := by simp [judgeInj]
@[simp] theorem orderly_execInjectionEnd (t : Nat) : Orderly Q M (stateOf (execInjectionEnd t s) s) ↔ Orderly Q M s := by simp [execInjectionEnd]

/-! ### Masters -/

@[simp] theorem orderly_replanMaster (k t0 : Nat) (v1 acc jerk : Int) : Orderly Q M (replanMaster s k t0 v1 acc jerk) ↔ Orderly Q M s :=
  orderly_congr rfl rfl rfl fun _ => rfl

@[simp] theorem orderly_rampMasters (dec : Obj) : Orderly Q M (rampMasters s dec) ↔ Orderly Q M s := by simp [rampMasters]
@[simp] theorem orderly_publishMasters (tw : Nat) : Orderly Q M (publishMasters s tw) ↔ Orderly Q M s := by simp [publishMasters]

/-! ### Setpoints -/

@[simp] theorem orderly_homingFailed (a : Nat) : Orderly Q M (homingFailed s a) ↔ Orderly Q M s := by simp [homingFailed]

@[simp] theorem orderly_homeEntry (a t : Nat) : Orderly Q M (homeEntry s a t) ↔ Orderly Q M s := by
  unfold homeEntry
  (repeat' split) <;> simp

@[simp] theorem orderly_enterMode (a mode t : Nat) : Orderly Q M (enterMode s a mode t) ↔ Orderly Q M s := by
  unfold enterMode
  (repeat' split) <;> simp

@[simp] theorem orderly_softStop (a tw tx : Nat) (sp : Int × Int × Int) : Orderly Q M (softStop s a tw tx sp).1 ↔ Orderly Q M s := by
  dsimp only [softStop]
  (repeat' split) <;> simp

@[simp] theorem orderly_softFault (a : Nat) (sp : Int × Int × Int) : Orderly Q M (softFault s a sp).1 ↔ Orderly Q M s := by
  dsimp only [softFault]
  split <;> simp

@[simp] theorem orderly_planRun (a tw : Nat) : Orderly Q M (planRun s a tw).1 ↔ Orderly Q M s := by
  dsimp only [planRun]
  split <;> simp

@[simp] theorem orderly_resumeCoupling (a k tw : Nat) : Orderly Q M (resumeCoupling s a k tw) ↔ Orderly Q M s := orderly_congr rfl rfl rfl fun _ => rfl

@[simp] theorem orderly_coupledRun (a tw tx : Nat) : Orderly Q M (coupledRun s a tw tx).1 ↔ Orderly Q M s := by
  unfold coupledRun
  extract_lets k per s1 x m s2
  have h2 : Orderly Q M s2 ↔ Orderly Q M s := by simp [s2, s1]
  clear_value s2
  split
  · simp [h2]
  · split
    next p s3 z hp =>
    have h3 : Orderly Q M s3 ↔ Orderly Q M s2 := by
      rw [← show _ = s3 from congrArg Prod.fst hp]
      split <;> simp
    simp [h2, h3]

@[simp] theorem orderly_followRun (a tw tx : Nat) : Orderly Q M (followRun s a tw tx).1 ↔ Orderly Q M s := by
  unfold followRun
  extract_lets x
  split
  next raw f ok hp =>
  split <;> simp

@[simp] theorem orderly_homeShift (a : Nat) : Orderly Q M (homeShift s a) ↔ Orderly Q M s := by simp [homeShift]

@[simp] theorem orderly_homeTo (a ph : Nat) (p : Option Plan) (st : Int) : Orderly Q M (homeTo s a ph p st) ↔ Orderly Q M s :=
  orderly_congr rfl rfl rfl fun _ => rfl

@[simp] theorem orderly_homeKnown (a : Nat) (e st : Int) : Orderly Q M (homeKnown s a e st) ↔ Orderly Q M s := orderly_congr rfl rfl rfl fun _ => rfl
@[simp] theorem orderly_homeIndex (a : Nat) : Orderly Q M (homeIndex s a) ↔ Orderly Q M s := orderly_congr rfl rfl rfl fun _ => rfl

@[simp] theorem orderly_homeAdvance (a tw : Nat) : Orderly Q M (homeAdvance s a tw) ↔ Orderly Q M s := by
  dsimp only [homeAdvance]
  split <;> simp

@[simp] theorem orderly_homingRun (a tw : Nat) : Orderly Q M (homingRun s a tw).1 ↔ Orderly Q M s := by
  dsimp only [homingRun]
  (repeat' split) <;> simp

@[simp] theorem orderly_homeReverse (a t : Nat) (pos : Bool) : Orderly Q M (homeReverse s a t pos) ↔ Orderly Q M s := orderly_congr rfl rfl rfl fun _ => rfl
@[simp] theorem orderly_limitTrip (a : Nat) (pos : Bool) : Orderly Q M (limitTrip s a pos) ↔ Orderly Q M s := by simp [limitTrip]
@[simp] theorem orderly_limitInput (a : Nat) (pos act was both : Bool) : Orderly Q M (limitInput s a pos act was both) ↔ Orderly Q M s := by simp [limitInput]
@[simp] theorem orderly_checkLimits (a : Nat) : Orderly Q M (checkLimits s a) ↔ Orderly Q M s := by simp [checkLimits]
@[simp] theorem orderly_clearFollow (a : Nat) : Orderly Q M (clearFollow s a) ↔ Orderly Q M s := by simp [clearFollow]

@[simp] theorem orderly_setpointNode (a tw tx : Nat) : Orderly Q M (setpointNode s a tw tx) ↔ Orderly Q M s := by
  unfold setpointNode
  extract_lets s1 s2 x s3 free
  have h1 : Orderly Q M s1 ↔ Orderly Q M s := by
    unfold s1
    split <;> simp
  have h3 : Orderly Q M s3 ↔ Orderly Q M s := by simp [s3, s2, h1]
  clear_value s3
  obtain ⟨⟨s5, home⟩, hrun⟩ : ∃ p, homingRun s3 a tw = p := ⟨_, rfl⟩
  have h5 : Orderly Q M s5 ↔ Orderly Q M s3 := by simpa only [hrun] using orderly_homingRun (Q := Q) (M := M) (s := s3) a tw
  split
  next p s4 sp held hp =>
  rw [hrun] at hp
  have h4 : Orderly Q M (s4, sp, held).1 ↔ Orderly Q M s3 := by
    rw [← hp]
    split
    · simp [free]
    · split <;> simp [free, h5]
  simp [h3, h4]

/-! ### Loops -/

@[simp] theorem orderly_note (a node : Nat) (v : Int) : Orderly Q M (note s a node v) ↔ Orderly Q M s := orderly_congr rfl rfl rfl fun _ => rfl
@[simp] theorem orderly_positionNode (c : RunCtx) : Orderly Q M (positionNode s c) ↔ Orderly Q M s := by simp [positionNode]
@[simp] theorem orderly_biquads (a : Nat) (u : Int) : Orderly Q M (biquads s a u).1 ↔ Orderly Q M s := orderly_congr rfl rfl rfl fun _ => rfl

@[simp] theorem orderly_velocityIn (c : RunCtx) (vcmd vact : Int) : Orderly Q M (velocityIn s c vcmd vact).1 ↔ Orderly Q M s :=
  orderly_congr rfl rfl rfl fun _ => rfl

@[simp] theorem orderly_velocityOut (c : RunCtx) (u ev : Int) : Orderly Q M (velocityOut s c u ev) ↔ Orderly Q M s := by simp [velocityOut]
@[simp] theorem orderly_irefNode (c : RunCtx) : Orderly Q M (irefNode s c) ↔ Orderly Q M s := by simp [irefNode]
@[simp] theorem orderly_angleNode (a : Nat) : Orderly Q M (angleNode s a) ↔ Orderly Q M s := orderly_congr rfl rfl rfl fun _ => rfl
@[simp] theorem orderly_currentNode (c : RunCtx) : Orderly Q M (currentNode s c) ↔ Orderly Q M s := by simp [currentNode]
@[simp] theorem orderly_judgeFe (a : Nat) : Orderly Q M (judgeFe s a) ↔ Orderly Q M s := by simp [judgeFe]
@[simp] theorem orderly_superviseFe (a : Nat) : Orderly Q M (superviseFe s a) ↔ Orderly Q M s := by simp [superviseFe]
@[simp] theorem orderly_judgeSum (a : Nat) : Orderly Q M (judgeSum s a) ↔ Orderly Q M s := by simp [judgeSum]
@[simp] theorem orderly_superviseSum (a : Nat) : Orderly Q M (superviseSum s a) ↔ Orderly Q M s := by simp [superviseSum]
@[simp] theorem orderly_superviseStill (a tw : Nat) : Orderly Q M (superviseStill s a tw) ↔ Orderly Q M s := orderly_congr rfl rfl rfl fun _ => rfl
@[simp] theorem orderly_superviseNode (c : RunCtx) : Orderly Q M (superviseNode s c) ↔ Orderly Q M s := by simp [superviseNode]
@[simp] theorem orderly_execFollowingError (a t : Nat) : Orderly Q M (stateOf (execFollowingError a t s) s) ↔ Orderly Q M s := by simp [execFollowingError]
@[simp] theorem orderly_execCurrentSum (a t : Nat) : Orderly Q M (stateOf (execCurrentSum a t s) s) ↔ Orderly Q M s := by simp [execCurrentSum]
@[simp] theorem orderly_execClearPeak (a t : Nat) : Orderly Q M (stateOf (execClearPeak a t s) s) ↔ Orderly Q M s := by simp [execClearPeak]

end Sys2Proof.Machine
end

