-- ==== Sys2Proof/Proofs/OrderlyItems.lean ====
section
/-! What keeps the queue and the byte memories in order: items of the dispatcher, axis commands and admission. -/

namespace Sys2Proof.Machine

variable {Q : List Instr} {M : Prop} {s t u : State}

/-! ### Items -/

@[simp] theorem orderly_noteDepth (i : Item) : Orderly Q M (noteDepth s i) ↔ Orderly Q M s := by
  unfold noteDepth
  split <;> simp

@[simp] theorem orderly_postItem (i : Item) : Orderly Q M (postItem s i) ↔ Orderly Q M s := by simp [postItem, ↓orderly_update]
@[simp] theorem orderly_postHeld : Orderly Q M (postHeld s) ↔ Orderly Q M s := by simp [postHeld, ↓orderly_update]
@[simp] theorem orderly_postAxis (a r : Nat) : Orderly Q M (postAxis s a r) ↔ Orderly Q M s := by simp [postAxis]
@[simp] theorem orderly_postAfter (i : Item) (f : Nat) : Orderly Q M (postAfter s i f) ↔ Orderly Q M s := by simp [postAfter, ↓orderly_update]

@[simp] theorem orderly_execTimerTrigger (flow prio : Nat) (after : Option Nat) (t : Nat) :
    Orderly Q M (stateOf (execTimerTrigger flow prio after t s) s) ↔ Orderly Q M s := by
  unfold execTimerTrigger
  split <;> simp

@[simp] theorem orderly_noteFree : Orderly Q M (noteFree s) ↔ Orderly Q M s := by simp [noteFree]
@[simp] theorem orderly_postAgain (e : Nat) : Orderly Q M (postAgain s e) ↔ Orderly Q M s := by simp [postAgain, ↓orderly_update]

@[simp] theorem orderly_callPoint (e : Nat) (c : RunCtx) (point : Nat) (ins outs : List Int) (h : Orderly Q M s) :
    Orderly Q M (callPoint s e c point ins outs).1 := by
  refine List.foldlRecOn (motive := fun p : State × List Int => Orderly Q M p.1) _ _ h fun p hp u _ => ?_
  dsimp only
  split
  · exact hp
  · split <;> simp [hp]

@[simp] theorem orderly_graphFeedback (e : Nat) (c : RunCtx) (h : Orderly Q M s) : Orderly Q M (graphFeedback s e c) := by simp [h, graphFeedback]
@[simp] theorem orderly_graphPosition (c : RunCtx) : Orderly Q M (graphPosition s c) ↔ Orderly Q M s := by simp [graphPosition]

@[simp] theorem orderly_graphVelocity (e : Nat) (c : RunCtx) (h : Orderly Q M s) : Orderly Q M (graphVelocity s e c) := by
  unfold graphVelocity
  extract_lets a s1
  have h1 : Orderly Q M s1 := by simp [s1, h]
  clear_value s1
  split
  · exact h1
  next v0 x _ =>
  have hin := orderly_callPoint e c 2 [v0, x.fb.vact, x.loop.aff] [v0, x.loop.aff] h1
  split
  next _ s2 o hp =>
  rw [hp] at hin
  refine orderly_unlessVoid_of (fun s3 h3 => ?_) e hin
  extract_lets vc aff i2
  have hv := (orderly_velocityIn c (sat 64 (vc + i2)) (s3.axis a).fb.vact).2 h3
  split
  next _ s4 u ev hp4 =>
  rw [hp4] at hv
  extract_lets s5 s6
  have h6 : Orderly Q M s6 := by simpa [s6, s5] using hv
  clear_value s6
  have hb := (orderly_biquads a u).2 h6
  split
  next _ s7 v hp7 =>
  rw [hp7] at hb
  have hout := orderly_callPoint e c 3 [v, ev, (s7.axis a).fb.vact] [v] hb
  split
  next _ s8 o' hp8 =>
  rw [hp8] at hout
  refine orderly_unlessVoid_of (fun s9 h9 => ?_) e hout
  extract_lets w i3 s10 s11
  have h11 : Orderly Q M s11 := by
    unfold s11
    split <;> simp [s10, h9]
  simpa using h11

@[simp] theorem orderly_graphCurrent (c : RunCtx) : Orderly Q M (graphCurrent s c) ↔ Orderly Q M s := by simp [graphCurrent]
@[simp] theorem orderly_graphCommand (c : RunCtx) : Orderly Q M (graphCommand s c) ↔ Orderly Q M s := by simp [graphCommand]

@[simp] theorem orderly_rawCommand (c : RunCtx) : Orderly Q M (rawCommand s c).1 ↔ Orderly Q M s := by
  dsimp only [rawCommand]
  (repeat' split) <;> simp

@[simp] theorem orderly_graphPack (e : Nat) (c : RunCtx) (h : Orderly Q M s) : Orderly Q M (graphPack s e c) := by
  dsimp only [graphPack]
  refine orderly_unlessVoid_of (fun t ht => ?_) e ?_
  · simpa
  · simp [h]

@[simp] theorem orderly_runGraph (e : Nat) (c : RunCtx) (h : Orderly Q M s) : Orderly Q M (runGraph s e c) := by
  unfold runGraph
  extract_lets s1 s2 s3 s4 s5
  have h2 : Orderly Q M s2 := (orderly_unlessVoid (fun t => orderly_graphPosition c) e).2 (orderly_graphFeedback e c h)
  have h3 : Orderly Q M s3 := orderly_unlessVoid_of (fun t => orderly_graphVelocity e c) e h2
  have h5 : Orderly Q M s5 := by simpa [s5, s4] using h3
  exact orderly_unlessVoid_of (fun t => orderly_graphPack e c) e h5

@[simp] theorem orderly_runOnCopy (e : Nat) (c : RunCtx) (h : Orderly Q M s) : Orderly Q M (runOnCopy s e c) := by
  unfold runOnCopy
  extract_lets s1 exc s2
  have h1 : Orderly Q M s1 := orderly_runGraph e c h
  clear_value s1
  have h2 : Orderly Q M s2 := h1
  clear_value s2
  split <;> simpa

@[simp] theorem orderly_countGated (e : Nat) : Orderly Q M (countGated s e) ↔ Orderly Q M s := by simp [countGated]

@[simp] theorem orderly_itemBoundary (e : Nat) : Orderly Q M (itemBoundary s e) ↔ Orderly Q M s := by
  refine orderly_modAce e _ fun x => ?_
  extract_lets p start restart sampling y
  have hy : y.mem = x.mem := List.foldlRecOn (motive := fun z : AceRt => z.mem = x.mem) _ _ rfl fun z hz w _ => hz
  rw [apply_ite AceRt.mem, hy, ite_self]

@[simp] theorem orderly_startItem (e : Nat) (i : Item) (h : Orderly Q M s) : Orderly Q M (startItem s e i) := by
  unfold startItem
  extract_lets s1 d s2 s3 wait ax ctx decl g s4 s5
  have h5 : Orderly Q M s5 := by
    simpa [s5, s4, s3, s2, s1, ↓orderly_update] using h
  clear_value s5
  split
  · next s6 s7 s8 s9 _ =>
    have h7 : Orderly Q M s7 := by simpa [s7, s6] using h5
    have h8 : Orderly Q M s8 := by
      refine orderly_setAce_of_wf h7 e _ fun hM => ?_
      dsimp only
      exact Mem.wf_copy _ _ _ _ _ (h7.wf_mem e hM)
    exact orderly_underView_of (fun t => orderly_runOnCopy e ctx) _ ((orderly_postHeld).2 h8)
  · simpa

@[simp] theorem orderly_execItemDispatch (e t : Nat) (h : Orderly Q M s) : Orderly Q M (stateOf (execItemDispatch e t s) s) := by
  simp only [execItemDispatch, orderly_stateOf_whileOn, orderly_stateOf_next]
  split
  · split
    · simpa
    · split <;> simp [h]
  · simpa

@[simp] theorem orderly_noteDone (a tw : Nat) : Orderly Q M (noteDone s a tw) ↔ Orderly Q M s := orderly_congr rfl rfl rfl fun _ => rfl
@[simp] theorem orderly_pushLoad (a cycle : Nat) (w1 w2 : Int) (en : Bool) : Orderly Q M (pushLoad s a cycle w1 w2 en) ↔ Orderly Q M s := by simp [pushLoad]

@[simp] theorem orderly_installRun (e : Nat) (r : RunRt) (res : ItemResult) : Orderly Q M (installRun s e r res) ↔ Orderly Q M s := by
  dsimp only [installRun]
  split <;> simp

@[simp] theorem orderly_judgeDeclared (r : RunRt) : Orderly Q M (judgeDeclared s r) ↔ Orderly Q M s := by simp [judgeDeclared]

@[simp] theorem orderly_completeItem (e : Nat) (h : Orderly Q M s) : Orderly Q M (completeItem s e) := by
  unfold completeItem
  split
  · exact h
  next r _ =>
  extract_lets ax s1 s2
  split
  · simpa
  next x s3 s4 g d s5 s6 chained disp s7 _ =>
  have h1 : Orderly Q M s1 := by
    unfold s1
    split <;> simpa
  have h2 : Orderly Q M s2 := forList_keeps (P := fun t => Orderly Q M t) _ _ _ h1 fun w t ht => orderly_sharedWrite e _ _ ht
  clear_value s2
  simpa [s7, s6, s5, s4, s3, ↓orderly_update] using h2

@[simp] theorem orderly_execItemComplete (e t : Nat) (h : Orderly Q M s) : Orderly Q M (stateOf (execItemComplete e t s) s) := by simp [h, execItemComplete]

@[simp] theorem orderly_execAceYield (i : AceAt) (h : Orderly Q M s) : Orderly Q M (stateOf (execAceYield i s) s) := by
  rw [execAceYield, orderly_stateOf_next]
  exact orderly_aceOp_of (fun t => orderly_acePriv_of (fun u => orderly_completeItem i.eng) _) i 1 false true h

@[simp] theorem orderly_clearDisp : Orderly Q M (clearDisp s) ↔ Orderly Q M s := by simp [clearDisp]
@[simp] theorem orderly_execDispClear (t : Nat) : Orderly Q M (stateOf (execDispClear t s) s) ↔ Orderly Q M s := by simp [execDispClear]
@[simp] theorem orderly_dropItems (f : Item → Bool) : Orderly Q M (dropItems s f) ↔ Orderly Q M s := orderly_congr rfl rfl rfl fun _ => rfl
@[simp] theorem orderly_dropDependents (l : List Nat) (tw : Nat) : Orderly Q M (dropDependents s l tw) ↔ Orderly Q M s := orderly_congr rfl rfl rfl fun _ => rfl
@[simp] theorem orderly_cancelItems (f : Item → Bool) : Orderly Q M (cancelItems s f) ↔ Orderly Q M s := orderly_congr rfl rfl rfl fun _ => rfl

/-! ### Axis commands -/

@[simp] theorem orderly_controlBit (a k : Nat) (on : Bool) : Orderly Q M (controlBit s a k on) ↔ Orderly Q M s := orderly_congr rfl rfl rfl fun _ => rfl

@[simp] theorem orderly_execAxisEnable (a : Nat) (on : Bool) (t : Nat) : Orderly Q M (stateOf (execAxisEnable a on t s) s) ↔ Orderly Q M s := by
  simp [execAxisEnable]

@[simp] theorem orderly_execAxisStop (a t : Nat) : Orderly Q M (stateOf (execAxisStop a t s) s) ↔ Orderly Q M s := by simp [execAxisStop]
@[simp] theorem orderly_execAxisQstop (a t : Nat) : Orderly Q M (stateOf (execAxisQstop a t s) s) ↔ Orderly Q M s := by simp [execAxisQstop]
@[simp] theorem orderly_execAxisHstop (a t : Nat) : Orderly Q M (stateOf (execAxisHstop a t s) s) ↔ Orderly Q M s := by simp [execAxisHstop]
@[simp] theorem orderly_execFaultReset (a t : Nat) : Orderly Q M (stateOf (execFaultReset a t s) s) ↔ Orderly Q M s := by simp [execFaultReset]
@[simp] theorem orderly_execJogPos (a : Nat) (on : Bool) (t : Nat) : Orderly Q M (stateOf (execJogPos a on t s) s) ↔ Orderly Q M s := by simp [execJogPos]
@[simp] theorem orderly_execJogNeg (a : Nat) (on : Bool) (t : Nat) : Orderly Q M (stateOf (execJogNeg a on t s) s) ↔ Orderly Q M s := by simp [execJogNeg]
@[simp] theorem orderly_execArmDelay (a t : Nat) : Orderly Q M (stateOf (execArmDelay a t s) s) ↔ Orderly Q M s := by simp [execArmDelay]
@[simp] theorem orderly_execArmTimeout (a t : Nat) : Orderly Q M (stateOf (execArmTimeout a t s) s) ↔ Orderly Q M s := by simp [execArmTimeout]
@[simp] theorem orderly_execStandstill (a t : Nat) : Orderly Q M (stateOf (execStandstill a t s) s) ↔ Orderly Q M s := by simp [execStandstill]
@[simp] theorem orderly_execStopTimeout (a t : Nat) : Orderly Q M (stateOf (execStopTimeout a t s) s) ↔ Orderly Q M s := by simp [execStopTimeout]
@[simp] theorem orderly_requestEntry (a ta : Nat) : Orderly Q M (requestEntry s a ta) ↔ Orderly Q M s := by simp [requestEntry]

@[simp] theorem orderly_execModeEntry (a t : Nat) : Orderly Q M (stateOf (execModeEntry a t s) s) ↔ Orderly Q M s := by
  dsimp only [execModeEntry]
  split <;> simp

@[simp] theorem orderly_stopRequest (sess : Nat) (v : Int) : Orderly Q M (stopRequest s sess v).1 ↔ Orderly Q M s := by
  unfold stopRequest
  (repeat' split) <;> simp

@[simp] theorem orderly_stopClear : Orderly Q M (stopClear s).1 ↔ Orderly Q M s := by
  unfold stopClear
  split <;> simp

@[simp] theorem orderly_execStopClear (t : Nat) : Orderly Q M (stateOf (execStopClear t s) s) ↔ Orderly Q M s := by simp [execStopClear]
@[simp] theorem orderly_requestReplan (k ta : Nat) : Orderly Q M (requestReplan s k ta) ↔ Orderly Q M s := orderly_congr rfl rfl rfl fun _ => rfl

@[simp] theorem orderly_execVmReplan (k t : Nat) : Orderly Q M (stateOf (execVmReplan k t s) s) ↔ Orderly Q M s := by
  dsimp only [execVmReplan]
  split <;> simp

@[simp] theorem orderly_execVmTableExtend (t : Nat) : Orderly Q M (stateOf (execVmTableExtend t s) s) ↔ Orderly Q M s := by simp [execVmTableExtend]

@[simp] theorem orderly_execLimitTrip (a : Nat) (pos : Bool) (t : Nat) : Orderly Q M (stateOf (execLimitTrip a pos t s) s) ↔ Orderly Q M s := by
  simp [execLimitTrip]

@[simp] theorem orderly_execHomeTimeout (a t : Nat) : Orderly Q M (stateOf (execHomeTimeout a t s) s) ↔ Orderly Q M s := by simp [execHomeTimeout]

/-! ### Admission -/

@[simp] theorem orderly_noteAdmission (x : Admission) : Orderly Q M (noteAdmission s x) ↔ Orderly Q M s := by simp [noteAdmission]

@[simp] theorem orderly_admissionCheck {cfg : State} (target : Nat → Option Nat) : Orderly Q M (admissionCheck s cfg target).1 ↔ Orderly Q M s := by
  simp [admissionCheck]

/-! ### The dictionary -/

@[simp] theorem orderly_publishSafetyCrc : Orderly Q M (publishSafetyCrc s) ↔ Orderly Q M s := by simp [publishSafetyCrc, ↓orderly_update]

end Sys2Proof.Machine
end

