-- ==== Sys2Proof/Proofs/OrderlyPorts.lean ====
section
/-! What keeps the queue and the byte memories in order: compares, pulses, field inputs and outputs, and local ports. -/

namespace Sys2Proof.Machine

variable {Q : List Instr} {M : Prop} {s t u : State}

/-! ### Compare units and latches -/

@[simp] theorem orderly_queueEdge (q t : Nat) (lv : Bool) : Orderly Q M (queueEdge s q t lv) ↔ Orderly Q M s := orderly_congr rfl rfl rfl fun _ => rfl
@[simp] theorem orderly_setPin (k : Nat) (lv : Bool) : Orderly Q M (setPin s k lv) ↔ Orderly Q M s := orderly_congr rfl rfl rfl fun _ => rfl
@[simp] theorem orderly_planEdge (target t : Nat) (lv : Bool) : Orderly Q M (planEdge s target t lv) ↔ Orderly Q M s := by simp [planEdge]
@[simp] theorem orderly_pinEdge (target : Nat) (lv : Bool) : Orderly Q M (pinEdge s target lv) ↔ Orderly Q M s := by simp [pinEdge]
@[simp] theorem orderly_cmpPublish (u : Nat) : Orderly Q M (cmpPublish s u) ↔ Orderly Q M s := orderly_congr rfl rfl rfl fun _ => rfl
@[simp] theorem orderly_cmpSet (u : Nat) (cv : Int) : Orderly Q M (cmpSet s u cv) ↔ Orderly Q M s := by simp [cmpSet]
@[simp] theorem orderly_cmpCommit (u t th : Nat) (late : Bool) : Orderly Q M (cmpCommit s u t th late) ↔ Orderly Q M s := by simp [cmpCommit]

@[simp] theorem orderly_cmpCross (n c t : Nat) : Orderly Q M (cmpCross n s c t) ↔ Orderly Q M s := by
  induction n generalizing s with
  | zero => rfl
  | succ n ih => simp [cmpCross, ih]

@[simp] theorem orderly_cmpPredict (n c t v : Nat) : Orderly Q M (cmpPredict n s c t v) ↔ Orderly Q M s := by
  induction n generalizing s with
  | zero => rfl
  | succ n ih => simp [cmpPredict, ih]

@[simp] theorem orderly_cmpReverse (u t : Nat) : Orderly Q M (cmpReverse s u t) ↔ Orderly Q M s := by simp [cmpReverse]
@[simp] theorem orderly_cmpEdge (u : Nat) (d : Int) (t : Nat) : Orderly Q M (cmpEdge s u d t) ↔ Orderly Q M s := by simp [cmpEdge]
@[simp] theorem orderly_cmpEdges (src : Nat) (d : Int) (t : Nat) : Orderly Q M (cmpEdges s src d t) ↔ Orderly Q M s := by simp [cmpEdges]
@[simp] theorem orderly_cmpFire (u : Nat) (h : CmpHit) : Orderly Q M (cmpFire s u h) ↔ Orderly Q M s := by simp [cmpFire]
@[simp] theorem orderly_cmpHits (u : Nat) : Orderly Q M (cmpHits s u) ↔ Orderly Q M s := by simp [cmpHits]
@[simp] theorem orderly_cmpFall (u : Nat) : Orderly Q M (cmpFall s u) ↔ Orderly Q M s := by simp [cmpFall]
@[simp] theorem orderly_execCompareArm (u t : Nat) : Orderly Q M (stateOf (execCompareArm u t s) s) ↔ Orderly Q M s := by simp [execCompareArm]
@[simp] theorem orderly_execDisarm (u t : Nat) : Orderly Q M (stateOf (execDisarm u t s) s) ↔ Orderly Q M s := by simp [execDisarm]

@[simp] theorem orderly_execCorrection (u : Nat) (v : Int) (t : Nat) : Orderly Q M (stateOf (execCorrection u v t s) s) ↔ Orderly Q M s := by
  simp [execCorrection]

@[simp] theorem orderly_execCompareHit (u t : Nat) : Orderly Q M (stateOf (execCompareHit u t s) s) ↔ Orderly Q M s := by simp [execCompareHit]

@[simp] theorem orderly_execComparePulseFall (u t : Nat) : Orderly Q M (stateOf (execComparePulseFall u t s) s) ↔ Orderly Q M s := by
  simp [execComparePulseFall]

@[simp] theorem orderly_putLatch (l : Nat) (x : LatchRt) : Orderly Q M (putLatch s l x) ↔ Orderly Q M s := orderly_congr rfl rfl rfl fun _ => rfl
@[simp] theorem orderly_latchAxes (l : Nat) (e : LatchEv) : Orderly Q M (latchAxes s l e) ↔ Orderly Q M s := by simp [latchAxes]
@[simp] theorem orderly_latchUse (l : Nat) (e : LatchEv) : Orderly Q M (latchUse s l e) ↔ Orderly Q M s := by simp [latchUse]
@[simp] theorem orderly_latchEnter (l : Nat) (e : LatchEv) : Orderly Q M (latchEnter s l e) ↔ Orderly Q M s := by simp [latchEnter]
@[simp] theorem orderly_latchAvail (l : Nat) : Orderly Q M (latchAvail s l) ↔ Orderly Q M s := by simp [latchAvail]
@[simp] theorem orderly_latchTrigger (l t : Nat) (falling : Bool) : Orderly Q M (latchTrigger s l t falling) ↔ Orderly Q M s := by simp [latchTrigger]

@[simp] theorem orderly_execLatchEvent (l t : Nat) (falling : Bool) : Orderly Q M (stateOf (execLatchEvent l t falling s) s) ↔ Orderly Q M s := by
  simp [execLatchEvent]

@[simp] theorem orderly_execLatchEventAvailable (l t : Nat) : Orderly Q M (stateOf (execLatchEventAvailable l t s) s) ↔ Orderly Q M s := by
  simp [execLatchEventAvailable]

@[simp] theorem orderly_execLatchArm (l t : Nat) : Orderly Q M (stateOf (execLatchArm l t s) s) ↔ Orderly Q M s := by simp [execLatchArm]
@[simp] theorem orderly_execLatchAck (l n t : Nat) : Orderly Q M (stateOf (execLatchAck l n t s) s) ↔ Orderly Q M s := by simp [execLatchAck]

@[simp] theorem orderly_execQuadratureEdge (u : Nat) (a b : Bool) (t held : Nat) :
    Orderly Q M (stateOf (execQuadratureEdge u a b t held s) s) ↔ Orderly Q M s := by
  simp [execQuadratureEdge]

@[simp] theorem orderly_execIllegalLimit (u t : Nat) : Orderly Q M (stateOf (execIllegalLimit u t s) s) ↔ Orderly Q M s := by simp [execIllegalLimit]

@[simp] theorem orderly_execIndexEvent (u : Nat) (z : Bool) (t held : Nat) : Orderly Q M (stateOf (execIndexEvent u z t held s) s) ↔ Orderly Q M s := by
  simp [execIndexEvent]

@[simp] theorem orderly_execWireFault (u pair : Nat) (inside : Bool) (t : Nat) : Orderly Q M (stateOf (execWireFault u pair inside t s) s) ↔ Orderly Q M s := by
  simp [execWireFault]

@[simp] theorem orderly_execAbsFrame (u : Nat) (low : Bool) (l : List Bool) (t : Nat) : Orderly Q M (stateOf (execAbsFrame u low l t s) s) ↔ Orderly Q M s := by
  simp [execAbsFrame]

@[simp] theorem orderly_execAbsErrLimit (u t : Nat) : Orderly Q M (stateOf (execAbsErrLimit u t s) s) ↔ Orderly Q M s := by simp [execAbsErrLimit]
@[simp] theorem orderly_execAbsCheckPeriod (u t : Nat) : Orderly Q M (stateOf (execAbsCheckPeriod u t s) s) ↔ Orderly Q M s := by simp [execAbsCheckPeriod]
@[simp] theorem orderly_execFbHoldLimit (a t : Nat) : Orderly Q M (stateOf (execFbHoldLimit a t s) s) ↔ Orderly Q M s := by simp [execFbHoldLimit]
@[simp] theorem orderly_execClearFault (u t : Nat) : Orderly Q M (stateOf (execClearFault u t s) s) ↔ Orderly Q M s := by simp [execClearFault]

/-! ### Pulses and time latches -/

@[simp] theorem orderly_setTtp (c : Nat) (x : TtpRt) : Orderly Q M (s.setTtp c x) ↔ Orderly Q M s := orderly_congr rfl rfl rfl fun _ => rfl

@[simp] theorem orderly_ttpValueWrite (o : Obj) (c n : Nat) : Orderly Q M (ttpValueWrite s o c n).1 ↔ Orderly Q M s := by
  dsimp only [ttpValueWrite]
  (repeat' split) <;> simp

@[simp] theorem orderly_ttpEnable (c : Nat) (on : Bool) : Orderly Q M (ttpEnable s c on) ↔ Orderly Q M s := by
  dsimp only [ttpEnable]
  (repeat' split) <;> simp

@[simp] theorem orderly_ttpWrite (c : Nat) (on : Bool) : Orderly Q M (ttpWrite s c on).1 ↔ Orderly Q M s := by
  dsimp only [ttpWrite]
  split <;> simp

@[simp] theorem orderly_ttpDue (c : Nat) : Orderly Q M (ttpDue s c) ↔ Orderly Q M s := by simp [ttpDue]

@[simp] theorem orderly_execTtpEnable (c : Nat) (on : Bool) (t : Nat) : Orderly Q M (stateOf (execTtpEnable c on t s) s) ↔ Orderly Q M s := by
  simp [execTtpEnable]

@[simp] theorem orderly_execTtpEdge (c t : Nat) : Orderly Q M (stateOf (execTtpEdge c t s) s) ↔ Orderly Q M s := by simp [execTtpEdge]
@[simp] theorem orderly_putTLat (l : Nat) (x : TLatRt) : Orderly Q M (putTLat s l x) ↔ Orderly Q M s := orderly_congr rfl rfl rfl fun _ => rfl
@[simp] theorem orderly_takeStamp (l t : Nat) (falling : Bool) : Orderly Q M (takeStamp s l t falling) ↔ Orderly Q M s := by simp [takeStamp]

@[simp] theorem orderly_execTimeLatchEvent (l t : Nat) (falling : Bool) : Orderly Q M (stateOf (execTimeLatchEvent l t falling s) s) ↔ Orderly Q M s := by
  simp [execTimeLatchEvent]

@[simp] theorem orderly_execTimeLatchAck (l n t : Nat) : Orderly Q M (stateOf (execTimeLatchAck l n t s) s) ↔ Orderly Q M s := by simp [execTimeLatchAck]

/-! ### Field inputs and outputs -/

@[simp] theorem orderly_publishInputs : Orderly Q M (publishInputs s) ↔ Orderly Q M s := by
  unfold publishInputs
  refine orderly_forBelow fun i t => ?_
  split <;> simp

@[simp] theorem orderly_whistleField : Orderly Q M (whistleField s) ↔ Orderly Q M s := by simp [whistleField, ↓orderly_update]
@[simp] theorem orderly_judgeLost : Orderly Q M (judgeLost s) ↔ Orderly Q M s := by simp [judgeLost]
@[simp] theorem orderly_judgeRecovered : Orderly Q M (judgeRecovered s) ↔ Orderly Q M s := by simp [judgeRecovered]
@[simp] theorem orderly_recordDelay (bound : Nat) : Orderly Q M (recordDelay s bound) ↔ Orderly Q M s := by simp [recordDelay]
@[simp] theorem orderly_takeInputStamp (i t : Nat) (falling : Bool) : Orderly Q M (takeInputStamp s i t falling) ↔ Orderly Q M s := by simp [takeInputStamp]
@[simp] theorem orderly_takeMeSample (rc : Nat) : Orderly Q M (takeMeSample s rc) ↔ Orderly Q M s := by simp [takeMeSample]
@[simp] theorem orderly_takeMeSpeed (u : Nat) (v : Int) (pend : Bool) : Orderly Q M (takeMeSpeed s u v pend) ↔ Orderly Q M s := by simp [takeMeSpeed]

@[simp] theorem orderly_takeHit (u t : Nat) (late merged unreached : Bool) : Orderly Q M (takeHit s u t late merged unreached) ↔ Orderly Q M s := by
  simp [takeHit]

@[simp] theorem orderly_takeStatus (rc : Nat) : Orderly Q M (takeStatus s rc) ↔ Orderly Q M s := by simp [takeStatus]
@[simp] theorem orderly_takeDiag (rc : Nat) : Orderly Q M (takeDiag s rc) ↔ Orderly Q M s := by simp [takeDiag]
@[simp] theorem orderly_takeBrake (rc : Nat) : Orderly Q M (takeBrake s rc) ↔ Orderly Q M s := by simp [takeBrake]
@[simp] theorem orderly_takeInDiag (rc : Nat) : Orderly Q M (takeInDiag s rc) ↔ Orderly Q M s := by simp [takeInDiag]

@[simp] theorem orderly_takeRecord (kind rc : Nat) : Orderly Q M (takeRecord s kind rc) ↔ Orderly Q M s := by
  unfold takeRecord
  (repeat' split) <;> simp

@[simp] theorem orderly_headReceive (t : Nat) (rx : List Byte) : Orderly Q M (headReceive s t rx) ↔ Orderly Q M s := by simp [headReceive]

/-- The definition is taken as a whole, `f`: unfolded at its arguments, the record it sends would be evaluated by the kernel. -/
@[simp] theorem orderly_upSlot (t : Nat) (rx : Option (List Byte)) : Orderly Q M (upSlot s t rx) ↔ Orderly Q M s := by
  suffices hall : ∀ f, f = @upSlot → (Orderly Q M (f s t rx) ↔ Orderly Q M s) from hall _ rfl
  intro f hf
  delta upSlot at hf
  subst hf
  beta_reduce
  extract_lets s1
  have h1 : Orderly Q M s1 ↔ Orderly Q M s := orderly_choice (orderly_modField _) .rfl
  clear_value s1
  split
  simp [h1]

@[simp] theorem orderly_execUpstreamFrame (t : Nat) (rx : Option (List Byte)) : Orderly Q M (stateOf (execUpstreamFrame t rx s) s) ↔ Orderly Q M s := by
  simp [execUpstreamFrame]

@[simp] theorem orderly_execLinkLost (t : Nat) : Orderly Q M (stateOf (execLinkLost t s) s) ↔ Orderly Q M s := by simp [execLinkLost]
@[simp] theorem orderly_execLinkRecovery (t : Nat) : Orderly Q M (stateOf (execLinkRecovery t s) s) ↔ Orderly Q M s := by simp [execLinkRecovery]
@[simp] theorem orderly_acceptInput (i : Nat) (lv : Bool) (cross : Nat) : Orderly Q M (acceptInput s i lv cross) ↔ Orderly Q M s := by simp [acceptInput]

@[simp] theorem orderly_execInputEdgeAccepted (i : Nat) (lv : Bool) (cross t : Nat) :
    Orderly Q M (stateOf (execInputEdgeAccepted i lv cross t s) s) ↔ Orderly Q M s := by
  simp [execInputEdgeAccepted]

@[simp] theorem orderly_execInputOpen (i t : Nat) : Orderly Q M (stateOf (execInputOpen i t s) s) ↔ Orderly Q M s := by simp [execInputOpen]

@[simp] theorem orderly_execInputOpenCleared (i t : Nat) : Orderly Q M (stateOf (execInputOpenCleared i t s) s) ↔ Orderly Q M s := by
  simp [execInputOpenCleared]

@[simp] theorem orderly_latchOut (q code ma : Nat) : Orderly Q M (latchOut s q code ma) ↔ Orderly Q M s := orderly_congr rfl rfl rfl fun _ => rfl

@[simp] theorem orderly_execOutputShort (q : Nat) (other : Option Nat) (ma t : Nat) :
    Orderly Q M (stateOf (execOutputShort q other ma t s) s) ↔ Orderly Q M s := by
  unfold execOutputShort
  split <;> simp

@[simp] theorem orderly_execOpenLoad (q ma t : Nat) : Orderly Q M (stateOf (execOpenLoad q ma t s) s) ↔ Orderly Q M s := by simp [execOpenLoad]

@[simp] theorem orderly_execOpenLoadCleared (q ma t : Nat) : Orderly Q M (stateOf (execOpenLoadCleared q ma t s) s) ↔ Orderly Q M s := by
  simp [execOpenLoadCleared]

@[simp] theorem orderly_execOutAck (q t : Nat) : Orderly Q M (stateOf (execOutAck q t s) s) ↔ Orderly Q M s := by simp [execOutAck]
@[simp] theorem orderly_execOutValue (q : Nat) (lv : Bool) (t : Nat) : Orderly Q M (stateOf (execOutValue q lv t s) s) ↔ Orderly Q M s := by simp [execOutValue]
@[simp] theorem orderly_execBrakeMismatch (b h l t : Nat) : Orderly Q M (stateOf (execBrakeMismatch b h l t s) s) ↔ Orderly Q M s := by simp [execBrakeMismatch]
@[simp] theorem orderly_supplyTo (st vf : Nat) : Orderly Q M (supplyTo s st vf) ↔ Orderly Q M s := orderly_congr rfl rfl rfl fun _ => rfl
@[simp] theorem orderly_execSupplyLow (vf t : Nat) : Orderly Q M (stateOf (execSupplyLow vf t s) s) ↔ Orderly Q M s := by simp [execSupplyLow]
@[simp] theorem orderly_execSupplyUnder (vf t : Nat) : Orderly Q M (stateOf (execSupplyUnder vf t s) s) ↔ Orderly Q M s := by simp [execSupplyUnder]
@[simp] theorem orderly_execSupplyOver (vf t : Nat) : Orderly Q M (stateOf (execSupplyOver vf t s) s) ↔ Orderly Q M s := by simp [execSupplyOver]
@[simp] theorem orderly_execSupplyNormal (vf t : Nat) : Orderly Q M (stateOf (execSupplyNormal vf t s) s) ↔ Orderly Q M s := by simp [execSupplyNormal]
@[simp] theorem orderly_execSupplyRestore (vf t : Nat) : Orderly Q M (stateOf (execSupplyRestore vf t s) s) ↔ Orderly Q M s := by simp [execSupplyRestore]

@[simp] theorem orderly_restoreField : Orderly Q M (restoreField s).1 ↔ Orderly Q M s := by
  unfold restoreField
  split <;> simp

@[simp] theorem orderly_execFieldRestore (t : Nat) : Orderly Q M (stateOf (execFieldRestore t s) s) ↔ Orderly Q M s := by simp [execFieldRestore]

/-! ### Local ports -/

@[simp] theorem orderly_putPort (p : Nat) (q : PortRt) : Orderly Q M (putPort s p q) ↔ Orderly Q M s := orderly_congr rfl rfl rfl fun _ => rfl

@[simp] theorem orderly_shadowWrite (p k : Nat) (v : Int) : Orderly Q M (shadowWrite s p k v).1 ↔ Orderly Q M s := by
  unfold shadowWrite
  split <;> simp

@[simp] theorem orderly_loadAll (p : Nat) : Orderly Q M (loadAll s p).1 ↔ Orderly Q M s := by
  unfold loadAll
  split <;> simp

@[simp] theorem orderly_loadAllMask (m : Nat) : Orderly Q M (loadAllMask s m).1 ↔ Orderly Q M s := by
  unfold loadAllMask
  (repeat' split) <;> simp

@[simp] theorem orderly_execLoadAll (p t : Nat) : Orderly Q M (stateOf (execLoadAll p t s) s) ↔ Orderly Q M s := by simp [execLoadAll]
@[simp] theorem orderly_execLoadAllMask (m t : Nat) : Orderly Q M (stateOf (execLoadAllMask m t s) s) ↔ Orderly Q M s := by simp [execLoadAllMask]
@[simp] theorem orderly_takeServo (p : Nat) (e : LoadEntry) : Orderly Q M (takeServo s p e) ↔ Orderly Q M s := orderly_congr rfl rfl rfl fun _ => rfl

@[simp] theorem orderly_takeShadow (p : Nat) : Orderly Q M (takeShadow s p) ↔ Orderly Q M s := by
  dsimp only [takeShadow]
  split <;> simp

@[simp] theorem orderly_formPeriod (p : Nat) : Orderly Q M (formPeriod s p) ↔ Orderly Q M s := orderly_congr rfl rfl rfl fun _ => rfl

@[simp] theorem orderly_startPeriod (p x : Nat) : Orderly Q M (startPeriod s p x) ↔ Orderly Q M s := by
  dsimp only [startPeriod]
  (repeat' split) <;> simp

@[simp] theorem orderly_execPwmPeriodStart (p t : Nat) : Orderly Q M (stateOf (execPwmPeriodStart p t s) s) ↔ Orderly Q M s := by
  dsimp only [execPwmPeriodStart]
  split <;> simp

@[simp] theorem orderly_tripPort (p : Nat) (cause : Int) : Orderly Q M (tripPort s p cause) ↔ Orderly Q M s := by
  dsimp only [tripPort]
  (repeat' split) <;> simp

@[simp] theorem orderly_execTripInput (p : Nat) (active : Bool) (t : Nat) : Orderly Q M (stateOf (execTripInput p active t s) s) ↔ Orderly Q M s := by
  simp [execTripInput]

@[simp] theorem orderly_tripForce (p : Nat) : Orderly Q M (tripForce s p).1 ↔ Orderly Q M s := by simp [tripForce]
@[simp] theorem orderly_execTripForce (p t : Nat) : Orderly Q M (stateOf (execTripForce p t s) s) ↔ Orderly Q M s := by simp [execTripForce]

@[simp] theorem orderly_tripClear (p : Nat) : Orderly Q M (tripClear s p).1 ↔ Orderly Q M s := by
  unfold tripClear
  split <;> simp

@[simp] theorem orderly_execTripClear (p t : Nat) : Orderly Q M (stateOf (execTripClear p t s) s) ↔ Orderly Q M s := by simp [execTripClear]
@[simp] theorem orderly_sampleSd (sd : List (Nat × List Bool)) : Orderly Q M (sampleSd s sd) ↔ Orderly Q M s := by simp [sampleSd]

@[simp] theorem orderly_execOvercurrent (p c : Nat) (l : List Bool) (t : Nat) : Orderly Q M (stateOf (execOvercurrent p c l t s) s) ↔ Orderly Q M s := by
  dsimp only [execOvercurrent]
  split <;> simp

@[simp] theorem orderly_execSdInvalid (p c : Nat) (l : List Bool) (noClock t : Nat) :
    Orderly Q M (stateOf (execSdInvalid p c l noClock t s) s) ↔ Orderly Q M s := by
  simp [execSdInvalid]

@[simp] theorem orderly_execSdValid (p c : Nat) (l : List Bool) (t : Nat) : Orderly Q M (stateOf (execSdValid p c l t s) s) ↔ Orderly Q M s := by
  simp [execSdValid]

@[simp] theorem orderly_takeStep (p tc : Nat) (e : LoadEntry) : Orderly Q M (takeStep s p tc e) ↔ Orderly Q M s := orderly_congr rfl rfl rfl fun _ => rfl
@[simp] theorem orderly_stepLate (p : Nat) : Orderly Q M (stepLate s p) ↔ Orderly Q M s := by simp [stepLate]

@[simp] theorem orderly_stepDue (p : Nat) : Orderly Q M (stepDue s p) ↔ Orderly Q M s := by
  dsimp only [stepDue]
  split <;> simp

@[simp] theorem orderly_execStepEmit (p t : Nat) : Orderly Q M (stateOf (execStepEmit p t s) s) ↔ Orderly Q M s := by simp [execStepEmit]

@[simp] theorem orderly_execStepHalt (p t : Nat) : Orderly Q M (stateOf (execStepHalt p t s) s) ↔ Orderly Q M s := by
  dsimp only [execStepHalt]
  (repeat' split) <;> simp

@[simp] theorem orderly_execStepInEdge (p : Nat) (dir : Bool) (t : Nat) : Orderly Q M (stateOf (execStepInEdge p dir t s) s) ↔ Orderly Q M s := by
  simp [execStepInEdge]

@[simp] theorem orderly_sampleStepIn (p : Nat) : Orderly Q M (sampleStepIn s p) ↔ Orderly Q M s := by simp [sampleStepIn]

@[simp] theorem orderly_whistlePorts (n tc : Nat) (sd : List (Nat × List Bool)) : Orderly Q M (whistlePorts s n tc sd) ↔ Orderly Q M s := by
  refine (orderly_forList fun a t => by simp).trans ((orderly_forBelow fun p t => ?_).trans (by simp))
  extract_lets late q st clean tag q1 st1 due sampled
  have hlate : Orderly Q M late ↔ Orderly Q M t := by
    unfold late
    split <;> simp
  have hdue : Orderly Q M due ↔ Orderly Q M clean := by
    unfold due
    split <;> simp
  simp [sampled, hdue, clean, hlate]

end Sys2Proof.Machine
end

