-- ==== Sys2Proof/Proofs/OrderlySafety.lean ====
section
/-! What keeps the queue and the byte memories in order: the safety island, frames and consistency. -/

namespace Sys2Proof.Machine

variable {Q : List Instr} {M : Prop} {s t u : State}

/-! ### The safety island -/

@[simp] theorem orderly_modSafe (f : SafeRt → SafeRt) : Orderly Q M (s.modSafe f) ↔ Orderly Q M s := orderly_congr rfl rfl rfl fun _ => rfl
@[simp] theorem orderly_modPair (f : PairRt → PairRt) : Orderly Q M (s.modPair f) ↔ Orderly Q M s := orderly_congr rfl rfl rfl fun _ => rfl
@[simp] theorem orderly_publishLog : Orderly Q M (publishLog s) ↔ Orderly Q M s := orderly_congr rfl rfl rfl fun _ => rfl

@[simp] theorem orderly_logEntry (kind sess result idx sub typ : Nat) (v : (List Byte)) :
    Orderly Q M (logEntry s kind sess result idx sub typ v) ↔ Orderly Q M s := by
  simp [logEntry]

@[simp] theorem orderly_putSbc (a : Nat) (b : SbcRt) : Orderly Q M (putSbc s a b) ↔ Orderly Q M s := by simp [putSbc]
@[simp] theorem orderly_sbcOpen (a : Nat) : Orderly Q M (sbcOpen s a) ↔ Orderly Q M s := by simp [sbcOpen]
@[simp] theorem orderly_sbcApply (a : Nat) : Orderly Q M (sbcApply s a) ↔ Orderly Q M s := by simp [sbcApply]
@[simp] theorem orderly_sbcRelease (a : Nat) : Orderly Q M (sbcRelease s a) ↔ Orderly Q M s := by simp [sbcRelease]
@[simp] theorem orderly_sbcDemand : Orderly Q M (sbcDemand s) ↔ Orderly Q M s := by simp [sbcDemand]
@[simp] theorem orderly_sbcWhistle (r : Nat) : Orderly Q M (sbcWhistle s r) ↔ Orderly Q M s := by simp [sbcWhistle]

@[simp] theorem orderly_sbcSecond (a : Nat) : Orderly Q M (sbcSecond s a) ↔ Orderly Q M s := by
  dsimp only [sbcSecond]
  split <;> simp

@[simp] theorem orderly_execSbcStagger (a t : Nat) : Orderly Q M (stateOf (execSbcStagger a t s) s) ↔ Orderly Q M s := by simp [execSbcStagger]
@[simp] theorem orderly_sbcFault (a : Nat) : Orderly Q M (sbcFault s a) ↔ Orderly Q M s := by simp [sbcFault]
@[simp] theorem orderly_setSsf (r p : Nat) (x : SsfRt) : Orderly Q M (s.setSsf r p x) ↔ Orderly Q M s := orderly_congr rfl rfl rfl fun _ => rfl

@[simp] theorem orderly_brakeChecks : Orderly Q M (brakeChecks s) ↔ Orderly Q M s := by
  unfold brakeChecks
  refine orderly_forBelow fun i t => ?_
  split <;> simp

@[simp] theorem orderly_sbcReset (a : Nat) : Orderly Q M (sbcReset s a).1 ↔ Orderly Q M s := by
  unfold sbcReset
  split <;> simp

@[simp] theorem orderly_execSbcReset (a t : Nat) : Orderly Q M (stateOf (execSbcReset a t s) s) ↔ Orderly Q M s := by simp [execSbcReset]
@[simp] theorem orderly_updateDemands : Orderly Q M (updateDemands s) ↔ Orderly Q M s := by simp [updateDemands]
@[simp] theorem orderly_safeHold : Orderly Q M (safeHold s) ↔ Orderly Q M s := by simp [safeHold]
@[simp] theorem orderly_btEnd (b : BtRt) (res : Nat) : Orderly Q M (btEnd s b res) ↔ Orderly Q M s := by simp [btEnd]

@[simp] theorem orderly_btAbort : Orderly Q M (btAbort s) ↔ Orderly Q M s := by
  unfold btAbort
  split <;> simp

@[simp] theorem orderly_reactUnit : Orderly Q M (reactUnit s) ↔ Orderly Q M s := by simp [reactUnit]
@[simp] theorem orderly_refereeEvent (cause : Nat) : Orderly Q M (refereeEvent s cause) ↔ Orderly Q M s := by simp [refereeEvent]

@[simp] theorem orderly_execHeartbeatFault (beat : Bool) (t : Nat) : Orderly Q M (stateOf (execHeartbeatFault beat t s) s) ↔ Orderly Q M s := by
  dsimp only [execHeartbeatFault]
  split <;> simp

@[simp] theorem orderly_execCoreFault (cause t : Nat) : Orderly Q M (stateOf (execCoreFault cause t s) s) ↔ Orderly Q M s := by simp [execCoreFault]

@[simp] theorem orderly_judgeTestTime : Orderly Q M (judgeTestTime s) ↔ Orderly Q M s := by
  unfold judgeTestTime
  split <;> simp

@[simp] theorem orderly_execTestTimeout (t : Nat) : Orderly Q M (stateOf (execTestTimeout t s) s) ↔ Orderly Q M s := by simp [execTestTimeout]
@[simp] theorem orderly_judgeService : Orderly Q M (judgeService s) ↔ Orderly Q M s := by simp [judgeService]
@[simp] theorem orderly_sendHello (restarted : Bool) : Orderly Q M (sendHello s restarted) ↔ Orderly Q M s := by simp [sendHello]

@[simp] theorem orderly_judgeConfig : Orderly Q M (judgeConfig s) ↔ Orderly Q M s := by
  dsimp only [judgeConfig]
  (repeat' split) <;> simp

@[simp] theorem orderly_coreStarted (pass : Bool) : Orderly Q M (coreStarted s pass) ↔ Orderly Q M s := by simp [coreStarted]

@[simp] theorem orderly_execCoreSelftestComplete (pass : Bool) (t : Nat) : Orderly Q M (stateOf (execCoreSelftestComplete pass t s) s) ↔ Orderly Q M s := by
  simp [execCoreSelftestComplete]

@[simp] theorem orderly_putSi (k : Nat) (x : SiRt) : Orderly Q M (putSi s k x) ↔ Orderly Q M s := by simp [putSi]

@[simp] theorem orderly_siJudge (k : Nat) : Orderly Q M (siJudge s k) ↔ Orderly Q M s := by
  dsimp only [siJudge]
  split <;> simp

@[simp] theorem orderly_siDelayDue (k : Nat) : Orderly Q M (siDelayDue s k) ↔ Orderly Q M s := by
  dsimp only [siDelayDue]
  split <;> simp

@[simp] theorem orderly_siBegin (k : Nat) : Orderly Q M (siBegin s k) ↔ Orderly Q M s := by simp [siBegin]
@[simp] theorem orderly_siSample (k : Nat) : Orderly Q M (siSample s k) ↔ Orderly Q M s := by simp [siSample]
@[simp] theorem orderly_execDiscrepancy (k t : Nat) : Orderly Q M (stateOf (execDiscrepancy k t s) s) ↔ Orderly Q M s := by simp [execDiscrepancy]
@[simp] theorem orderly_execSiDelay (k t : Nat) : Orderly Q M (stateOf (execSiDelay k t s) s) ↔ Orderly Q M s := by simp [execSiDelay]

@[simp] theorem orderly_safetyAck : Orderly Q M (safetyAck s).1 ↔ Orderly Q M s := by
  dsimp only [safetyAck]
  split <;> simp

@[simp] theorem orderly_execSafetyAck (t : Nat) : Orderly Q M (stateOf (execSafetyAck t s) s) ↔ Orderly Q M s := by simp [execSafetyAck]

@[simp] theorem orderly_judgeAnswer (r p cycle echo : Nat) (ans : Option (List Byte)) : Orderly Q M (judgeAnswer s r p cycle echo ans) ↔ Orderly Q M s := by
  simp [judgeAnswer]

@[simp] theorem orderly_execSafetyAnswerLoss (r p t : Nat) : Orderly Q M (stateOf (execSafetyAnswerLoss r p t s) s) ↔ Orderly Q M s := by
  simp [execSafetyAnswerLoss]

@[simp] theorem orderly_judgeDue (a : Nat) : Orderly Q M (judgeDue s a) ↔ Orderly Q M s := by simp [judgeDue]
@[simp] theorem orderly_execTestInterval (a t : Nat) : Orderly Q M (stateOf (execTestInterval a t s) s) ↔ Orderly Q M s := by simp [execTestInterval]
@[simp] theorem orderly_execTestGrace (a t : Nat) : Orderly Q M (stateOf (execTestGrace a t s) s) ↔ Orderly Q M s := by simp [execTestGrace]

@[simp] theorem orderly_btStart (a : Nat) : Orderly Q M (btStart s a).1 ↔ Orderly Q M s := by
  dsimp only [btStart]
  split <;> simp

@[simp] theorem orderly_execBtStart (a t : Nat) : Orderly Q M (stateOf (execBtStart a t s) s) ↔ Orderly Q M s := by simp [execBtStart]

@[simp] theorem orderly_btEngage (a : Nat) : Orderly Q M (btEngage s a) ↔ Orderly Q M s := by
  unfold btEngage
  split <;> simp

@[simp] theorem orderly_execEngageTime (a t : Nat) : Orderly Q M (stateOf (execEngageTime a t s) s) ↔ Orderly Q M s := by simp [execEngageTime]

@[simp] theorem orderly_btCheck : Orderly Q M (btCheck s) ↔ Orderly Q M s := by
  unfold btCheck
  (repeat' split) <;> simp

@[simp] theorem orderly_execBtProfileEnd (t : Nat) : Orderly Q M (stateOf (execBtProfileEnd t s) s) ↔ Orderly Q M s := by simp [execBtProfileEnd]

@[simp] theorem orderly_coreCycle : Orderly Q M (coreCycle s) ↔ Orderly Q M s := by
  unfold coreCycle
  extract_lets s1 s2 s3 s4 s5 s6
  have h3 : Orderly Q M s3 ↔ Orderly Q M s := by
    unfold s3
    split <;> simp [s2, s1]
  have h5 : Orderly Q M s5 ↔ Orderly Q M s := (orderly_forBelow fun a t => orderly_judgeDue a).trans (by simp [s4, h3])
  clear_value s5
  simp [s6, h5]

@[simp] theorem orderly_safetyRun : Orderly Q M (safetyRun s) ↔ Orderly Q M s := by simp [safetyRun]
@[simp] theorem orderly_execSafetyCycle (t : Nat) : Orderly Q M (stateOf (execSafetyCycle t s) s) ↔ Orderly Q M s := by simp [execSafetyCycle]

@[simp] theorem orderly_safetyClose : Orderly Q M (safetyClose s) ↔ Orderly Q M s := by
  unfold safetyClose
  split <;> simp

@[simp] theorem orderly_safetyUsed : Orderly Q M (safetyUsed s) ↔ Orderly Q M s := orderly_congr rfl rfl rfl fun _ => rfl

@[simp] theorem orderly_safetyLogin (sess : Nat) (pw : List Byte) : Orderly Q M (safetyLogin s sess pw).1 ↔ Orderly Q M s := by
  unfold safetyLogin
  (repeat' split) <;> simp

@[simp] theorem orderly_freeBytes (n : Nat) : Orderly Q M (freeBytes n s).2 ↔ Orderly Q M s := by
  induction n generalizing s with
  | zero => rfl
  | succ n ih => simp [freeBytes, ih]

@[simp] theorem orderly_newPassword (sess : Nat) (pw : List Byte) : Orderly Q M (newPassword s sess pw).1 ↔ Orderly Q M s := by
  dsimp only [newPassword]
  (repeat' split) <;> simp

@[simp] theorem orderly_safetyLogout : Orderly Q M (safetyLogout s).1 ↔ Orderly Q M s := by simp [safetyLogout]
@[simp] theorem orderly_execSafetyLogout (t : Nat) : Orderly Q M (stateOf (execSafetyLogout t s) s) ↔ Orderly Q M s := by simp [execSafetyLogout]

@[simp] theorem orderly_execSessionTimeout (t : Nat) : Orderly Q M (stateOf (execSessionTimeout t s) s) ↔ Orderly Q M s := by
  dsimp only [execSessionTimeout]
  split <;> simp

@[simp] theorem orderly_execLockoutEnd (t : Nat) : Orderly Q M (stateOf (execLockoutEnd t s) s) ↔ Orderly Q M s := by
  dsimp only [execLockoutEnd]
  split <;> simp

@[simp] theorem orderly_logExported (v : Int) : Orderly Q M (logExported s v).1 ↔ Orderly Q M s := by
  unfold logExported
  split <;> simp

@[simp] theorem orderly_execLogExported (v t : Nat) : Orderly Q M (stateOf (execLogExported v t s) s) ↔ Orderly Q M s := by simp [execLogExported]

/-! ### Frames -/

@[simp] theorem orderly_publishClock (r p : Nat) : Orderly Q M (publishClock s r p) ↔ Orderly Q M s := by
  dsimp only [publishClock]
  (repeat' split) <;> simp

@[simp] theorem orderly_measured (r p tw e0 : Nat) (loop0 : Int) (b : List Byte) : Orderly Q M (measured s r p tw e0 loop0 b) ↔ Orderly Q M s := by
  dsimp only [measured]
  split <;> simp

/-! ### Consistency -/

@[simp] theorem orderly_withEntries (l : List Staged) : Orderly Q M (withEntries s l) ↔ Orderly Q M s := by simp [withEntries]

end Sys2Proof.Machine
end

