-- ==== Sys2Proof/Proofs/OrderlyCommits.lean ====
section
/-! What keeps the queue and the byte memories in order: sessions, shares of the configuration that apply, and commits. -/

namespace Sys2Proof.Machine

variable {Q : List Instr} {M : Prop} {s t u : State}

/-! ### Sessions -/

@[simp] theorem orderly_setSess (k : Nat) (x : SessRt) : Orderly Q M (s.setSess k x) ↔ Orderly Q M s := orderly_congr rfl rfl rfl fun _ => rfl
@[simp] theorem orderly_modSess (k : Nat) (f : SessRt → SessRt) : Orderly Q M (s.modSess k f) ↔ Orderly Q M s := orderly_congr rfl rfl rfl fun _ => rfl
@[simp] theorem orderly_setChan (c : Nat) (x : ChanRt) : Orderly Q M (s.setChan c x) ↔ Orderly Q M s := orderly_congr rfl rfl rfl fun _ => rfl
@[simp] theorem orderly_modCom (f : CommitRt → CommitRt) : Orderly Q M (s.modCom f) ↔ Orderly Q M s := orderly_congr rfl rfl rfl fun _ => rfl

@[simp] theorem orderly_fillReply (c : Nat) : Orderly Q M (fillReply s c) ↔ Orderly Q M s := by
  dsimp only [fillReply]
  split <;> simp

@[simp] theorem orderly_fillNote (c : Nat) : Orderly Q M (fillNote s c) ↔ Orderly Q M s := by
  dsimp only [fillNote]
  split <;> simp

@[simp] theorem orderly_sendReply (p : Path) (b : List Byte) : Orderly Q M (sendReply s p b) ↔ Orderly Q M s := by simp [sendReply]
@[simp] theorem orderly_mirrorSess (k : Nat) : Orderly Q M (mirrorSess s k) ↔ Orderly Q M s := by simp [mirrorSess]
@[simp] theorem orderly_mirrorPoss (cause : Nat) : Orderly Q M (mirrorPoss s cause) ↔ Orderly Q M s := by simp [mirrorPoss]
@[simp] theorem orderly_replyTo (k : Nat) (p : Path) (b : List Byte) : Orderly Q M (replyTo s k p b) ↔ Orderly Q M s := by simp [replyTo, ↓orderly_update]

@[simp] theorem orderly_answerBy (k : Nat) (r : Act) {d : State} : Orderly Q M (stateOf (answerBy k r) d) ↔ Orderly Q M r.1 := by
  unfold answerBy
  split
  · simp [↓orderly_update]
  · rfl

@[simp] theorem orderly_notifySess (k : Nat) (body : List Byte) : Orderly Q M (notifySess s k body) ↔ Orderly Q M s := by simp [notifySess]

@[simp] theorem orderly_keepReply (k seqNo status : Nat) (body : List Byte) : Orderly Q M (keepReply s k seqNo status body) ↔ Orderly Q M s :=
  orderly_congr rfl rfl rfl fun _ => rfl

@[simp] theorem orderly_putStaged (l : List Staged) : Orderly Q M (putStaged s l) ↔ Orderly Q M s := by simp [putStaged, ↓orderly_update]
@[simp] theorem orderly_dropStaged : Orderly Q M (dropStaged s) ↔ Orderly Q M s := by simp [dropStaged]
@[simp] theorem orderly_publishPoss : Orderly Q M (publishPoss s) ↔ Orderly Q M s := orderly_congr rfl rfl rfl fun _ => rfl
@[simp] theorem orderly_notifyPossession (cause : Nat) : Orderly Q M (notifyPossession s cause) ↔ Orderly Q M s := by simp [notifyPossession]
@[simp] theorem orderly_possessionTo (c cause : Nat) : Orderly Q M (possessionTo s c cause) ↔ Orderly Q M s := by simp [possessionTo, ↓orderly_update]
@[simp] theorem orderly_setClaim (k prio time : Nat) : Orderly Q M (setClaim s k prio time) ↔ Orderly Q M s := by simp [setClaim, ↓orderly_update]
@[simp] theorem orderly_closeSession (k cause : Nat) : Orderly Q M (closeSession s k cause) ↔ Orderly Q M s := by simp [closeSession]

/-! ### Shares that apply -/

@[simp] theorem orderly_applyBiquad {old : State} (a j : Nat) : Orderly Q M (applyBiquad old s a j) ↔ Orderly Q M s := by simp [applyBiquad]
@[simp] theorem orderly_applyLoops {old : State} (a : Nat) : Orderly Q M (applyLoops old s a) ↔ Orderly Q M s := by simp [applyLoops]

@[simp] theorem orderly_replan (a t : Nat) : Orderly Q M (replan s a t) ↔ Orderly Q M s := by
  dsimp only [replan]
  (repeat' split) <;> simp

@[simp] theorem orderly_armChange (a t : Nat) : Orderly Q M (armChange s a t) ↔ Orderly Q M s := by
  unfold armChange
  split <;> simp

@[simp] theorem orderly_armCam (a : Nat) : Orderly Q M (armCam s a) ↔ Orderly Q M s := orderly_congr rfl rfl rfl fun _ => rfl
@[simp] theorem orderly_applyAxis {old : State} (l : List Staged) (a tA : Nat) : Orderly Q M (applyAxis old s l a tA) ↔ Orderly Q M s := by simp [applyAxis]

@[simp] theorem orderly_placeCode {old : State} (u : Nat) (h : Orderly Q M s) : Orderly Q M (placeCode old s u) := by
  unfold placeCode
  extract_lets b p
  split
  · simpa
  · simpa using orderly_withCode h (Mem.wf_writeBytes _ _ _)

@[simp] theorem orderly_placeData {old : State} (u : Nat) (h : Orderly Q M s) : Orderly Q M (placeData old s u) := by
  unfold placeData
  extract_lets b p
  split
  · simpa
  · refine (orderly_set ..).2 (forBelow_keeps (P := Orderly Q M) _ _ s h fun e t ht => ?_)
    exact orderly_setAce_of_wf ht e _ fun hM => Mem.wf_writeBytes _ _ _ (ht.wf_mem e hM)

@[simp] theorem orderly_applyAreas {old new : State} (a : Nat) : Orderly Q M (applyAreas old new s a) ↔ Orderly Q M s := by simp [applyAreas]

@[simp] theorem orderly_applyBlocks {old : State} (h : Orderly Q M s) : Orderly Q M (applyBlocks old s) := by
  unfold applyBlocks
  extract_lets s1 s2
  have h1 : Orderly Q M s1 := forBelow_keeps (P := fun t => Orderly Q M t) _ _ s h fun u t ht => by simp [ht]
  exact (orderly_put1 ..).2 ((orderly_put1 ..).2 h1)

@[simp] theorem orderly_placeCam {old : State} (c : Nat) (h : Orderly Q M s) : Orderly Q M (placeCam old s c) := by
  unfold placeCam
  extract_lets b n p
  split
  · simpa
  · simpa using orderly_withShared h (Mem.wf_writeBytes _ _ _)

@[simp] theorem orderly_publishCams {old : State} (l : List Staged) (h : Orderly Q M s) : Orderly Q M (publishCams old s l) := by
  unfold publishCams
  extract_lets touched
  split
  · exact h
  · next s1 s2 s3 _ =>
    have h1 : Orderly Q M s1 := by simpa [s1]
    have h2 : Orderly Q M s2 := forList_keeps (P := fun t => Orderly Q M t) _ _ _ h1 fun c t ht => orderly_placeCam c ht
    exact (orderly_put1 ..).2 ((orderly_mirror _).2 h2)

@[simp] theorem orderly_publishUsers : Orderly Q M (publishUsers s) ↔ Orderly Q M s := by simp [publishUsers]
@[simp] theorem orderly_applyMasters {old : State} (tA : Nat) : Orderly Q M (applyMasters old s tA) ↔ Orderly Q M s := by simp [applyMasters]
@[simp] theorem orderly_applyUnits {old : State} : Orderly Q M (applyUnits old s) ↔ Orderly Q M s := by simp [applyUnits]
@[simp] theorem orderly_applyPorts {old : State} : Orderly Q M (applyPorts old s) ↔ Orderly Q M s := by simp [applyPorts]
@[simp] theorem orderly_publishTimed : Orderly Q M (publishTimed s) ↔ Orderly Q M s := by simp [publishTimed]

@[simp] theorem orderly_applyInjection (l : List Staged) (tA : Nat) : Orderly Q M (applyInjection s l tA) ↔ Orderly Q M s := by
  simp [applyInjection, ↓orderly_update]

@[simp] theorem orderly_publishDerived : Orderly Q M (publishDerived s) ↔ Orderly Q M s := by simp [publishDerived]
@[simp] theorem orderly_idleOutputs {old : State} : Orderly Q M (idleOutputs old s) ↔ Orderly Q M s := by simp [idleOutputs]
@[simp] theorem orderly_keepOld {old : State} (l : List Staged) (a : Nat) : Orderly Q M (keepOld old s l a) ↔ Orderly Q M s := by simp [keepOld]
@[simp] theorem orderly_applyShare (l : List Staged) (a tA : Nat) (h : Orderly Q M s) : Orderly Q M (applyShare s l a tA) := by simp [h, applyShare]

/-! ### Commits -/

@[simp] theorem orderly_commitResult (status reason obj : Nat) : Orderly Q M (commitResult s status reason obj) ↔ Orderly Q M s :=
  orderly_congr rfl rfl rfl fun _ => rfl

@[simp] theorem orderly_commitReplies (k : CommitRt) (status tag : Nat) : Orderly Q M (commitReplies s k status tag) ↔ Orderly Q M s := by simp [commitReplies]
@[simp] theorem orderly_commitSettle (status reason obj : Nat) : Orderly Q M (commitSettle s status reason obj) ↔ Orderly Q M s := by simp [commitSettle]
@[simp] theorem orderly_commitReject (status reason obj : Nat) : Orderly Q M (commitReject s status reason obj) ↔ Orderly Q M s := by simp [commitReject]
@[simp] theorem orderly_validating (k : CommitRt) : Orderly Q M (validating s k) ↔ Orderly Q M s := orderly_congr rfl rfl rfl fun _ => rfl

@[simp] theorem orderly_commitVerdict {new : State} : Orderly Q M (commitVerdict s new).1 ↔ Orderly Q M s := by
  unfold commitVerdict
  split <;> simp

@[simp] theorem orderly_startCommit (k : CommitRt) (captain : Bool) : Orderly Q M (startCommit s k captain).1 ↔ Orderly Q M s := by
  unfold startCommit
  extract_lets st
  split
  · simp
  · split
    · simp
    · have hv : Orderly Q M (commitVerdict (validating s k) (withEntries s s.staged)).1 ↔ Orderly Q M s := by simp
      split <;> (next hp => rw [hp] at hv; simpa using hv)

@[simp] theorem orderly_commitWrite (sess : Nat) (captain : Bool) : Orderly Q M (commitWrite s sess captain).1 ↔ Orderly Q M s := by simp [commitWrite]

@[simp] theorem orderly_commitAdmit : Orderly Q M (commitAdmit s) ↔ Orderly Q M s := by
  dsimp only [commitAdmit]
  (repeat' split) <;> simp

@[simp] theorem orderly_execCommitAdmission (t : Nat) : Orderly Q M (stateOf (execCommitAdmission t s) s) ↔ Orderly Q M s := by simp [execCommitAdmission]
@[simp] theorem orderly_commitAbort (reason : Nat) : Orderly Q M (commitAbort s reason) ↔ Orderly Q M s := by simp [commitAbort]
@[simp] theorem orderly_expectTags (was : Nat) : Orderly Q M (expectTags was s) ↔ Orderly Q M s := by simp [expectTags]
@[simp] theorem orderly_commitDecide : Orderly Q M (commitDecide s) ↔ Orderly Q M s := by simp [commitDecide]
@[simp] theorem orderly_execCommitDecision (t : Nat) : Orderly Q M (stateOf (execCommitDecision t s) s) ↔ Orderly Q M s := by simp [execCommitDecision]
@[simp] theorem orderly_commitRingLeft (r : Nat) : Orderly Q M (commitRingLeft s r) ↔ Orderly Q M s := by simp [commitRingLeft]

@[simp] theorem orderly_applyOwed (f : Nat × Nat × List Staged → Bool) (t : Nat) (h : Orderly Q M s) : Orderly Q M (applyOwed s f t) := by
  unfold applyOwed
  extract_lets due
  split
  · exact h
  · next s1 s2 _ =>
    have h1 : Orderly Q M s1 := by simpa [s1]
    have h2 : Orderly Q M s2 := forList_keeps (P := fun t => Orderly Q M t) _ _ _ h1 fun o t ht => orderly_applyShare _ _ _ ht
    clear_value s2
    simpa using h2

@[simp] theorem orderly_viewAhead (r c t : Nat) (h : Orderly Q M s) : Orderly Q M (viewAhead s r c t) := by
  unfold viewAhead
  split
  · simpa
  next l _ =>
  extract_lets n
  have hn : Orderly Q M n := forList_keeps (P := fun t => Orderly Q M t) _ _ _ h fun o t ht => orderly_applyShare _ _ _ ht
  exact (orderly_modRing ..).2 ⟨h.1, fun hM => ⟨(h.2 hM).1, (hn.2 hM).2.1, (hn.2 hM).2.2⟩⟩

@[simp] theorem orderly_viewBehind {old : State} (a : Nat) : Orderly Q M (viewBehind old s a) ↔ Orderly Q M s := by simp [viewBehind]
@[simp] theorem orderly_hideChanges {old : State} (r : Nat) : Orderly Q M (hideChanges old s r) ↔ Orderly Q M s := orderly_congr rfl rfl rfl fun _ => rfl

@[simp] theorem orderly_commitWhistle (r c t : Nat) (h : Orderly Q M s) : Orderly Q M (commitWhistle s r c t) := by
  unfold commitWhistle
  extract_lets old isLocal due
  split
  · exact h
  · next loc s1 s2 before after mine s3 _ =>
    have h1 : Orderly Q M s1 := orderly_applyOwed due t h
    have h2 : Orderly Q M s2 := by
      unfold s2 loc
      split
      · split <;> simpa
      · exact orderly_viewAhead r c t h1
    simpa [s3] using h2

@[simp] theorem orderly_execCommitApply (r t : Nat) (h : Orderly Q M s) : Orderly Q M (stateOf (execCommitApply r t s) s) := by
  simp only [execCommitApply, orderly_stateOf_whileOn, orderly_stateOf_next]
  split
  · split <;> simp [h]
  · simpa

@[simp] theorem orderly_commitDone (start : Nat) (h : Orderly Q M s) : Orderly Q M (commitDone s start) := by simp [h, commitDone]
@[simp] theorem orderly_commitOk : Orderly Q M (commitOk s) ↔ Orderly Q M s := by simp [commitOk]

@[simp] theorem orderly_execCommitReply (t : Nat) (h : Orderly Q M s) : Orderly Q M (stateOf (execCommitReply t s) s) := by
  simp only [execCommitReply, orderly_stateOf_whileOn, orderly_stateOf_next]
  split
  · split <;> simp [h]
  · simpa

@[simp] theorem orderly_discardWrite : Orderly Q M (discardWrite s).1 ↔ Orderly Q M s := by
  unfold discardWrite
  split <;> simp

@[simp] theorem orderly_execDiscard (t : Nat) : Orderly Q M (stateOf (execDiscard t s) s) ↔ Orderly Q M s := by simp [execDiscard]
@[simp] theorem orderly_putBank (b : Nat) (i : StoredImage) : Orderly Q M (putBank s b i) ↔ Orderly Q M s := orderly_congr rfl rfl rfl fun _ => rfl

@[simp] theorem orderly_saveWrite : Orderly Q M (saveWrite s).1 ↔ Orderly Q M s := by
  dsimp only [saveWrite]
  (repeat' split) <;> simp [↓orderly_update]

@[simp] theorem orderly_execSaveConfig (t : Nat) : Orderly Q M (stateOf (execSaveConfig t s) s) ↔ Orderly Q M s := by simp [execSaveConfig]

@[simp] theorem orderly_publishStored : Orderly Q M (publishStored s) ↔ Orderly Q M s := by
  unfold publishStored
  split <;> simp

@[simp] theorem orderly_execSaveComplete (verified : Bool) (t : Nat) : Orderly Q M (stateOf (execSaveComplete verified t s) s) ↔ Orderly Q M s := by
  dsimp only [execSaveComplete]
  split <;> simp [↓orderly_update]

@[simp] theorem orderly_eraseWrite : Orderly Q M (eraseWrite s).1 ↔ Orderly Q M s := by
  unfold eraseWrite
  split <;> simp [↓orderly_update]

@[simp] theorem orderly_execEraseStored (t : Nat) : Orderly Q M (stateOf (execEraseStored t s) s) ↔ Orderly Q M s := by simp [execEraseStored]

end Sys2Proof.Machine
end

