-- ==== Sys2Proof/Proofs/OrderlyObservation.lean ====
section
/-! What keeps the queue and the byte memories in order: observation, rings, undone cycles, digests and the time base. -/

namespace Sys2Proof.Machine

variable {Q : List Instr} {M : Prop} {s t u : State}

/-! ### Observation -/

@[simp] theorem orderly_modObs (f : ObsRt → ObsRt) : Orderly Q M (s.modObs f) ↔ Orderly Q M s := orderly_congr rfl rfl rfl fun _ => rfl
@[simp] theorem orderly_publishCounters (e : Nat) : Orderly Q M (publishCounters s e) ↔ Orderly Q M s := by simp [publishCounters]
@[simp] theorem orderly_publishMcCounters : Orderly Q M (publishMcCounters s) ↔ Orderly Q M s := by simp [publishMcCounters]
@[simp] theorem orderly_boundaryIfIdle (e : Nat) : Orderly Q M (boundaryIfIdle s e) ↔ Orderly Q M s := by simp [boundaryIfIdle]

@[simp] theorem orderly_pmcCfgWrite (core k w : Nat) : Orderly Q M (pmcCfgWrite s core k w).1 ↔ Orderly Q M s := by
  unfold pmcCfgWrite
  (repeat' split) <;> simp

@[simp] theorem orderly_execPmcCfg (core k w t : Nat) : Orderly Q M (stateOf (execPmcCfg core k w t s) s) ↔ Orderly Q M s := by simp [execPmcCfg]

@[simp] theorem orderly_samplePeriodWrite (e v : Nat) : Orderly Q M (samplePeriodWrite s e v).1 ↔ Orderly Q M s := by
  unfold samplePeriodWrite
  split <;> simp

@[simp] theorem orderly_execSamplePeriod (e v t : Nat) : Orderly Q M (stateOf (execSamplePeriod e v t s) s) ↔ Orderly Q M s := by simp [execSamplePeriod]
@[simp] theorem orderly_clearCountersWrite : Orderly Q M (clearCountersWrite s).1 ↔ Orderly Q M s := by simp [clearCountersWrite]
@[simp] theorem orderly_execClearCounters (t : Nat) : Orderly Q M (stateOf (execClearCounters t s) s) ↔ Orderly Q M s := by simp [execClearCounters]
@[simp] theorem orderly_pmcOverflow (e k : Nat) : Orderly Q M (pmcOverflow s e k) ↔ Orderly Q M s := by simp [pmcOverflow]
@[simp] theorem orderly_execPmcOverflow (e k t : Nat) : Orderly Q M (stateOf (execPmcOverflow e k t s) s) ↔ Orderly Q M s := by simp [execPmcOverflow]
@[simp] theorem orderly_sampleClearWrite : Orderly Q M (sampleClearWrite s).1 ↔ Orderly Q M s := orderly_congr rfl rfl rfl fun _ => rfl
@[simp] theorem orderly_execSampleClear (t : Nat) : Orderly Q M (stateOf (execSampleClear t s) s) ↔ Orderly Q M s := by simp [execSampleClear]

@[simp] theorem orderly_capArmWrite (v : Bool) : Orderly Q M (capArmWrite s v).1 ↔ Orderly Q M s := by
  dsimp only [capArmWrite]
  (repeat' split) <;> simp

@[simp] theorem orderly_execCaptureArm (v : Bool) (t : Nat) : Orderly Q M (stateOf (execCaptureArm v t s) s) ↔ Orderly Q M s := by simp [execCaptureArm]

@[simp] theorem orderly_capStore (c : CapCfg) (i : Nat) (rc : List Byte) (full : Bool) : Orderly Q M (capStore s c i rc full) ↔ Orderly Q M s := by
  dsimp only [capStore]
  split <;> simp

@[simp] theorem orderly_capTick (outside : List Int) (full : Bool) : Orderly Q M (capTick s outside full) ↔ Orderly Q M s := by
  unfold capTick
  split <;> simp

@[simp] theorem orderly_execCaptureTick (outside : List Int) (full : Bool) (t : Nat) :
    Orderly Q M (stateOf (execCaptureTick outside full t s) s) ↔ Orderly Q M s := by
  simp [execCaptureTick]

@[simp] theorem orderly_traceArmWrite (v : Bool) : Orderly Q M (traceArmWrite s v).1 ↔ Orderly Q M s := by
  unfold traceArmWrite
  split <;> simp

@[simp] theorem orderly_execTraceArm (v : Bool) (t : Nat) : Orderly Q M (stateOf (execTraceArm v t s) s) ↔ Orderly Q M s := by simp [execTraceArm]
@[simp] theorem orderly_publishUndone : Orderly Q M (publishUndone s) ↔ Orderly Q M s := orderly_congr rfl rfl rfl fun _ => rfl
@[simp] theorem orderly_traceSample (r tw n : Nat) : Orderly Q M (traceSample s r tw n) ↔ Orderly Q M s := by simp [traceSample]

@[simp] theorem orderly_frfStartWrite : Orderly Q M (frfStartWrite s).1 ↔ Orderly Q M s := by
  unfold frfStartWrite
  (repeat' split) <;> simp

@[simp] theorem orderly_execFrfStart (t : Nat) : Orderly Q M (stateOf (execFrfStart t s) s) ↔ Orderly Q M s := by simp [execFrfStart]

@[simp] theorem orderly_execFrfDone (t : Nat) : Orderly Q M (stateOf (execFrfDone t s) s) ↔ Orderly Q M s := by
  dsimp only [execFrfDone]
  split <;> simp

/-! ### Reads -/

@[simp] theorem orderly_notifyData (n : Snapshot) : Orderly Q M (notifyData s n) ↔ Orderly Q M s := by simp [notifyData]

/-! ### Rings -/

@[simp] theorem orderly_modHud (f : HuddleRt → HuddleRt) : Orderly Q M (s.modHud f) ↔ Orderly Q M s := orderly_congr rfl rfl rfl fun _ => rfl
@[simp] theorem orderly_huddleSettle : Orderly Q M (huddleSettle s) ↔ Orderly Q M s := by simp [huddleSettle]
@[simp] theorem orderly_huddleCancel (reason : Nat) : Orderly Q M (huddleCancel s reason) ↔ Orderly Q M s := by simp [huddleCancel]
@[simp] theorem orderly_huddleBreak : Orderly Q M (huddleBreak s) ↔ Orderly Q M s := by simp [huddleBreak]

@[simp] theorem orderly_dispatcherDeadline (r : Nat) (ax : List Nat) : Orderly Q M (dispatcherDeadline s r ax) ↔ Orderly Q M s := by
  unfold dispatcherDeadline
  extract_lets s1 left held s2 s3
  have h1 : Orderly Q M s1 ↔ Orderly Q M s := by
    refine orderly_forBelow fun e t => ?_
    split <;> simp [↓orderly_update]
  simp [s3, s2, h1]

@[simp] theorem orderly_leavePlay (r : Nat) (state reason : Int) : Orderly Q M (leavePlay s r state reason) ↔ Orderly Q M s := by simp [leavePlay]

@[simp] theorem orderly_admitWorker (r p st : Nat) (b : List Byte) : Orderly Q M (admitWorker s r p st b).1 ↔ Orderly Q M s := by
  dsimp only [admitWorker]
  split <;> simp

@[simp] theorem orderly_alignTake (r p c e0 ref : Nat) (loop0 : Int) (set : Bool) (b : List Byte) :
    Orderly Q M (alignTake s r p c e0 ref loop0 set b) ↔ Orderly Q M s := by
  simp [alignTake]

@[simp] theorem orderly_downloadTake (r p status : Nat) : Orderly Q M (downloadTake s r p status).1 ↔ Orderly Q M s := by
  unfold downloadTake
  split <;> simp

@[simp] theorem orderly_serviceSlot (r n : Nat) : Orderly Q M (serviceSlot s r n).2 ↔ Orderly Q M s := by
  unfold serviceSlot
  (repeat' split) <;> simp

@[simp] theorem orderly_sendFrame (r w : Nat) (f : RallyFrame) : Orderly Q M (sendFrame s r w f) ↔ Orderly Q M s := orderly_congr rfl rfl rfl fun _ => rfl
@[simp] theorem orderly_emitSlots (r sc n : Nat) (valid : Bool) : Orderly Q M (emitSlots s r sc n valid).2 ↔ Orderly Q M s := by simp [emitSlots]
@[simp] theorem orderly_emitPlay (r : Nat) : Orderly Q M (emitPlay s r) ↔ Orderly Q M s := by simp [emitPlay]
@[simp] theorem orderly_rxValid (r fcs : Nat) (b : List Byte) : Orderly Q M (rxValid s r fcs b).1 ↔ Orderly Q M s := by simp [rxValid]
@[simp] theorem orderly_rxStore (r o : Nat) (b : List Byte) : Orderly Q M (rxStore s r o b) ↔ Orderly Q M s := orderly_congr rfl rfl rfl fun _ => rfl

/-! ### Undone cycles -/

@[simp] theorem orderly_tellStop (r p code : Nat) : Orderly Q M (tellStop s r p code) ↔ Orderly Q M s := by simp [tellStop]
@[simp] theorem orderly_judgeMissing (r : Nat) : Orderly Q M (judgeMissing s r) ↔ Orderly Q M s := by simp [judgeMissing]

@[simp] theorem orderly_execFrameMissingLimit (r t : Nat) : Orderly Q M (stateOf (execFrameMissingLimit r t s) s) ↔ Orderly Q M s := by
  simp [execFrameMissingLimit]

@[simp] theorem orderly_discardLanded (r p n : Nat) : Orderly Q M (discardLanded s r p n) ↔ Orderly Q M s := orderly_congr rfl rfl rfl fun _ => rfl
@[simp] theorem orderly_missFrame (r : Nat) : Orderly Q M (missFrame s r) ↔ Orderly Q M s := by simp [missFrame]
@[simp] theorem orderly_showSamples (a : Nat) (xact : Int) : Orderly Q M (showSamples s a xact) ↔ Orderly Q M s := by simp [showSamples]
@[simp] theorem orderly_showUndone (a : Nat) (h : HistVal) (landed : Bool) : Orderly Q M (showUndone s a h landed) ↔ Orderly Q M s := by simp [showUndone]
@[simp] theorem orderly_judgeOverrun (a prev : Nat) : Orderly Q M (judgeOverrun s a prev) ↔ Orderly Q M s := by simp [judgeOverrun]

@[simp] theorem orderly_execOverrun (a t : Nat) : Orderly Q M (stateOf (execOverrun a t s) s) ↔ Orderly Q M s := by
  dsimp only [execOverrun]
  split <;> simp

@[simp] theorem orderly_settleDone (a : Nat) : Orderly Q M (settleDone s a) ↔ Orderly Q M s := by simp [settleDone]
@[simp] theorem orderly_settleUndone (a n tw tc : Nat) : Orderly Q M (settleUndone s a n tw tc) ↔ Orderly Q M s := by simp [settleUndone]

@[simp] theorem orderly_publishEngines (r : Nat) : Orderly Q M (publishEngines s r) ↔ Orderly Q M s := by
  refine orderly_forBelow fun e t => ?_
  dsimp only
  split
  · rfl
  · simp only [↓orderly_publishCounters, ↓orderly_setEng, ↓orderly_set, ↓orderly_raiseMax]

@[simp] theorem orderly_judgeOffside (r p tw : Nat) : Orderly Q M (judgeOffside s r p tw) ↔ Orderly Q M s := by
  unfold judgeOffside
  split <;> simp

/-! ### Digests -/

@[simp] theorem orderly_digestBytes (r : Nat) : Orderly Q M (digestBytes s r).2 ↔ Orderly Q M s := orderly_congr rfl rfl rfl fun _ => rfl
@[simp] theorem orderly_publishEligible : Orderly Q M (publishEligible s) ↔ Orderly Q M s := by simp [publishEligible]
@[simp] theorem orderly_judgeInStep : Orderly Q M (judgeInStep s) ↔ Orderly Q M s := by simp [judgeInStep]

@[simp] theorem orderly_diverge (r n : Nat) (a b : List Byte) : Orderly Q M (diverge s r n a b) ↔ Orderly Q M s := by
  dsimp only [diverge]
  (repeat' split) <;> simp

@[simp] theorem orderly_compareDigest (r n : Nat) : Orderly Q M (compareDigest s r n) ↔ Orderly Q M s := by
  dsimp only [compareDigest]
  split <;> simp

@[simp] theorem orderly_judgeDrill : Orderly Q M (judgeDrill s) ↔ Orderly Q M s := by
  unfold judgeDrill
  split <;> simp

@[simp] theorem orderly_sendStates (n : Nat) : Orderly Q M (sendStates s n) ↔ Orderly Q M s := by simp [sendStates]
@[simp] theorem orderly_formDigest (r : Nat) : Orderly Q M (formDigest s r) ↔ Orderly Q M s := by simp [formDigest]
@[simp] theorem orderly_sendInputs : Orderly Q M (sendInputs s) ↔ Orderly Q M s := by simp [sendInputs]

/-! ### The time base -/

@[simp] theorem orderly_modPtp (f : PtpRt → PtpRt) : Orderly Q M (s.modPtp f) ↔ Orderly Q M s := orderly_congr rfl rfl rfl fun _ => rfl

@[simp] theorem orderly_setTod (tod : Int) : Orderly Q M (setTod s tod).1 ↔ Orderly Q M s := by
  unfold setTod
  split <;> simp [↓orderly_update]

@[simp] theorem orderly_relock : Orderly Q M (relock s).1 ↔ Orderly Q M s := by
  unfold relock
  split <;> simp

@[simp] theorem orderly_execSetTod (tod : Int) (t : Nat) : Orderly Q M (stateOf (execSetTod tod t s) s) ↔ Orderly Q M s := by simp [execSetTod]
@[simp] theorem orderly_execRelock (t : Nat) : Orderly Q M (stateOf (execRelock t s) s) ↔ Orderly Q M s := by simp [execRelock]
@[simp] theorem orderly_freeIn (lo hi : Int) : Orderly Q M (s.freeIn lo hi).2 ↔ Orderly Q M s := orderly_congr rfl rfl rfl fun _ => rfl
@[simp] theorem orderly_adjustRate : Orderly Q M (adjustRate s) ↔ Orderly Q M s := orderly_congr rfl rfl rfl fun _ => rfl
@[simp] theorem orderly_filterOffset (off : Int) : Orderly Q M (filterOffset s off) ↔ Orderly Q M s := orderly_congr rfl rfl rfl fun _ => rfl

@[simp] theorem orderly_exchange (off : Int) : Orderly Q M (exchange s off) ↔ Orderly Q M s := by
  unfold exchange
  split <;> simp [↓orderly_update]

@[simp] theorem orderly_syncInterval (seqNo : Nat) : Orderly Q M (syncInterval s seqNo) ↔ Orderly Q M s := by
  unfold syncInterval
  split <;> simp

@[simp] theorem orderly_syncPair (port seqNo : Nat) (t1 t2 : Int) : Orderly Q M (syncPair s port seqNo t1 t2) ↔ Orderly Q M s := by simp [syncPair]

@[simp] theorem orderly_execSyncMessage (port domain src seqNo : Nat) (twoStep : Bool) (t1 : Int) (t : Nat) :
    Orderly Q M (stateOf (execSyncMessage port domain src seqNo twoStep t1 t s) s) ↔ Orderly Q M s := by
  simp [execSyncMessage]

@[simp] theorem orderly_execFollowUpMessage (port domain src seqNo : Nat) (t1 : Int) (t : Nat) :
    Orderly Q M (stateOf (execFollowUpMessage port domain src seqNo t1 t s) s) ↔ Orderly Q M s := by
  dsimp only [execFollowUpMessage]
  split <;> simp

@[simp] theorem orderly_execDelayReqMessage (port domain seqNo src t : Nat) :
    Orderly Q M (stateOf (execDelayReqMessage port domain seqNo src t s) s) ↔ Orderly Q M s := by
  simp [execDelayReqMessage]

@[simp] theorem orderly_execDelayRespMessage (port domain src seqNo : Nat) (t4 : Int) (t : Nat) :
    Orderly Q M (stateOf (execDelayRespMessage port domain src seqNo t4 t s) s) ↔ Orderly Q M s := by
  dsimp only [execDelayRespMessage]
  split <;> simp

@[simp] theorem orderly_execAnnounceMessage (port domain src : Nat) (ds : List Nat) (utc : Int) (interval t : Nat) :
    Orderly Q M (stateOf (execAnnounceMessage port domain src ds utc interval t s) s) ↔ Orderly Q M s := by
  simp [execAnnounceMessage]

@[simp] theorem orderly_execTcForward (kind src seqNo : Nat) (corr : Int) (ingress egress : Nat) :
    Orderly Q M (stateOf (execTcForward kind src seqNo corr ingress egress s) s) ↔ Orderly Q M s := by
  dsimp only [execTcForward]
  (repeat' split) <;> simp

@[simp] theorem orderly_ptpSend (f : Nat → List Msg) : Orderly Q M (ptpSend s f) ↔ Orderly Q M s := by simp [ptpSend, ↓orderly_update]
@[simp] theorem orderly_execSyncInterval (t : Nat) : Orderly Q M (stateOf (execSyncInterval t s) s) ↔ Orderly Q M s := by simp [execSyncInterval]
@[simp] theorem orderly_execSyncLoss (t : Nat) : Orderly Q M (stateOf (execSyncLoss t s) s) ↔ Orderly Q M s := by simp [execSyncLoss]

@[simp] theorem orderly_execOutOfRange (t : Nat) : Orderly Q M (stateOf (execOutOfRange t s) s) ↔ Orderly Q M s := by
  dsimp only [execOutOfRange]
  split <;> simp

@[simp] theorem orderly_judgeAlign : Orderly Q M (judgeAlign s) ↔ Orderly Q M s := by simp [judgeAlign]
@[simp] theorem orderly_pairStep (off tod : Int) : Orderly Q M (pairStep s off tod) ↔ Orderly Q M s := by simp [pairStep, ↓orderly_update]

@[simp] theorem orderly_execBenchTime (t1 t2 t3 t4 tod : Int) (t : Nat) : Orderly Q M (stateOf (execBenchTime t1 t2 t3 t4 tod t s) s) ↔ Orderly Q M s := by
  simp [execBenchTime]

@[simp] theorem orderly_crosscheck (r : Nat) (diff : Int) : Orderly Q M (crosscheck s r diff) ↔ Orderly Q M s := by simp [crosscheck, ↓orderly_update]
@[simp] theorem orderly_sendTime (t : Nat) : Orderly Q M (sendTime s t) ↔ Orderly Q M s := by simp [sendTime]

end Sys2Proof.Machine
end

