-- ==== Sys2Proof/Proofs/OrderlyCycle.lean ====
section
/-! What keeps the queue and the byte memories in order: the machine cycle, huddles and kickoff. -/

namespace Sys2Proof.Machine

variable {Q : List Instr} {M : Prop} {s t u : State}

/-! ### The cycle -/

@[simp] theorem orderly_huddleAct (r : Nat) : Orderly Q M (huddleAct s r) ↔ Orderly Q M s := by simp [huddleAct]
@[simp] theorem orderly_huddlePublished (r : Nat) : Orderly Q M (huddlePublished s r) ↔ Orderly Q M s := by simp [huddlePublished]
@[simp] theorem orderly_huddleDecide : Orderly Q M (huddleDecide s) ↔ Orderly Q M s := by simp [huddleDecide]
@[simp] theorem orderly_enterPlay (r : Nat) : Orderly Q M (enterPlay s r) ↔ Orderly Q M s := by simp [enterPlay]

@[simp] theorem orderly_publishSnapshot (tw : Nat) : Orderly Q M (publishSnapshot s tw) ↔ Orderly Q M s := by
  unfold publishSnapshot
  extract_lets s1 s2 s3 s4 id s5 n
  have h1 : Orderly Q M s1 ↔ Orderly Q M s := by simp only [s1, ↓orderly_publishMcCounters, ↓orderly_publishUsers]
  have h2 : Orderly Q M s2 ↔ Orderly Q M s1 := orderly_forBelow fun e t => orderly_put1 ..
  have h3 : Orderly Q M s3 ↔ Orderly Q M s2 := orderly_forBelow fun r t => orderly_put1 ..
  have h5 : Orderly Q M s5 ↔ Orderly Q M s3 := by simp only [s5, s4, ↓orderly_set, ↓orderly_setBytes]
  rw [orderly_notifyData, orderly_update, h5, h3, h2, h1]

@[simp] theorem orderly_expireLeases : Orderly Q M (expireLeases s) ↔ Orderly Q M s := by simp [expireLeases]

@[simp] theorem orderly_electCaptain : Orderly Q M (electCaptain s) ↔ Orderly Q M s := by
  unfold electCaptain
  (repeat' split) <;> simp

@[simp] theorem orderly_idleAxes : Orderly Q M (idleAxes s) ↔ Orderly Q M s := by simp [idleAxes]
@[simp] theorem orderly_localDeadline (start tw : Nat) (h : Orderly Q M s) : Orderly Q M (localDeadline s start tw) := by simp [h, localDeadline]
@[simp] theorem orderly_closeCycle (r : Nat) (h : Orderly Q M s) : Orderly Q M (closeCycle s r) := by simp [h, closeCycle]

@[simp] theorem orderly_execComputeDeadline (r t : Nat) (h : Orderly Q M s) : Orderly Q M (stateOf (execComputeDeadline r t s) s) := by
  simp [h, execComputeDeadline]

@[simp] theorem orderly_entryDue (a : Nat) : Orderly Q M (entryDue s a) ↔ Orderly Q M s := by
  unfold entryDue
  split <;> simp

@[simp] theorem orderly_localWhistle (n tc : Nat) (sd : List (Nat × List Bool)) : Orderly Q M (localWhistle s n tc sd) ↔ Orderly Q M s := by simp [localWhistle]

@[simp] theorem orderly_takeWhistle (r c tc : Nat) (sd : List (Nat × List Bool)) (h : Orderly Q M s) : Orderly Q M (takeWhistle s r c tc sd) := by
  simp [h, takeWhistle]

@[simp] theorem orderly_execWhistle (r : Nat) (sd : List (Nat × List Bool)) (t : Nat) (h : Orderly Q M s) :
    Orderly Q M (stateOf (execWhistle r sd t s) s) := by
  simp only [execWhistle, orderly_stateOf_whileOn, orderly_stateOf_next]
  split
  · split
    · simpa
    · split <;> simp [h]
  · simpa

@[simp] theorem orderly_execFrameEmission (r t : Nat) : Orderly Q M (stateOf (execFrameEmission r t s) s) ↔ Orderly Q M s := by simp [execFrameEmission]
@[simp] theorem orderly_regionUnusable (r p : Nat) : Orderly Q M (regionUnusable s r p) ↔ Orderly Q M s := by simp [regionUnusable]
@[simp] theorem orderly_landSamples (r p sc : Nat) (data : List Byte) : Orderly Q M (landSamples s r p sc data) ↔ Orderly Q M s := by simp [landSamples]

@[simp] theorem orderly_landRegion (r p sc : Nat) (att : Bool) (slot : List Byte) : Orderly Q M (landRegion s r p sc att slot) ↔ Orderly Q M s := by
  simp [landRegion]

@[simp] theorem orderly_execSampleRegionLanded (r p : Nat) (att : Bool) (slot : List Byte) (t : Nat) :
    Orderly Q M (stateOf (execSampleRegionLanded r p att slot t s) s) ↔ Orderly Q M s := by
  simp [execSampleRegionLanded]

@[simp] theorem orderly_workerFaults (r p up : Nat) (usable : Bool) : Orderly Q M (workerFaults s r p up usable) ↔ Orderly Q M s := by simp [workerFaults]

@[simp] theorem orderly_judgeTag (r p up : Nat) : Orderly Q M (judgeTag s r p up) ↔ Orderly Q M s := by
  unfold judgeTag
  split <;> simp

@[simp] theorem orderly_linkErr (r p up : Nat) : Orderly Q M (linkErr s r p up) ↔ Orderly Q M s := by simp [linkErr]

@[simp] theorem orderly_workerReturned (r p sc : Nat) (b : List Byte) (att : Bool) : Orderly Q M (workerReturned s r p sc b att) ↔ Orderly Q M s := by
  simp [workerReturned]

@[simp] theorem orderly_judgeLoop (r : Nat) (f : RallyFrame) (h : RxHeader) (b : List Byte) : Orderly Q M (judgeLoop s r f h b) ↔ Orderly Q M s := by
  simp [judgeLoop]

@[simp] theorem orderly_huddleLanded (r : Nat) (f : RallyFrame) (h : RxHeader) (b : List Byte) : Orderly Q M (huddleLanded s r f h b) ↔ Orderly Q M s := by
  simp [huddleLanded]

@[simp] theorem orderly_rejoinNext (r : Nat) : Orderly Q M (rejoinNext s r) ↔ Orderly Q M s := by simp [rejoinNext]
@[simp] theorem orderly_rejoinDone (r p : Nat) : Orderly Q M (rejoinDone s r p) ↔ Orderly Q M s := by simp [rejoinDone]

@[simp] theorem orderly_serviceAnswer (r : Nat) (v a : SvcSlot) : Orderly Q M (serviceAnswer s r v a) ↔ Orderly Q M s := by
  dsimp only [serviceAnswer]
  (repeat' split) <;> simp

@[simp] theorem orderly_splitReturned (r : Nat) : Orderly Q M (splitReturned s r) ↔ Orderly Q M s := by simp [splitReturned]

@[simp] theorem orderly_frameBack (r fcs : Nat) (loop : Int) (b : List Byte) : Orderly Q M (frameBack s r fcs loop b) ↔ Orderly Q M s := by
  dsimp only [frameBack]
  (repeat' split) <;> simp

@[simp] theorem orderly_execFrameReturned (r fcs : Nat) (loop : Int) (b : List Byte) (t : Nat) :
    Orderly Q M (stateOf (execFrameReturned r fcs loop b t s) s) ↔ Orderly Q M s := by
  simp [execFrameReturned]

@[simp] theorem orderly_execPortSyncLoss (r t : Nat) : Orderly Q M (stateOf (execPortSyncLoss r t s) s) ↔ Orderly Q M s := by simp [execPortSyncLoss]

@[simp] theorem orderly_execPortSyncRegained (r t : Nat) : Orderly Q M (stateOf (execPortSyncRegained r t s) s) ↔ Orderly Q M s := by
  dsimp only [execPortSyncRegained]
  split <;> simp

@[simp] theorem orderly_execPortSyncTimeout (r t : Nat) : Orderly Q M (stateOf (execPortSyncTimeout r t s) s) ↔ Orderly Q M s := by
  dsimp only [execPortSyncTimeout]
  split <;> simp

@[simp] theorem orderly_clearCountsWrite : Orderly Q M (clearCountsWrite s).1 ↔ Orderly Q M s := by simp [clearCountsWrite]
@[simp] theorem orderly_execClearCounts (t : Nat) : Orderly Q M (stateOf (execClearCounts t s) s) ↔ Orderly Q M s := by simp [execClearCounts]
@[simp] theorem orderly_execPauseFrame (_r t : Nat) : Orderly Q M (stateOf (execPauseFrame _r t s) s) ↔ Orderly Q M s := by simp [execPauseFrame]
@[simp] theorem orderly_huddleSeen (r : Nat) (b : List Byte) : Orderly Q M (huddleSeen s r b) ↔ Orderly Q M s := by simp [huddleSeen]
@[simp] theorem orderly_passFrame (r : Nat) (b : List Byte) : Orderly Q M (passFrame s r b) ↔ Orderly Q M s := by simp [passFrame]

@[simp] theorem orderly_execTurnRound (r fcs frac : Nat) (b : List Byte) (t : Nat) :
    Orderly Q M (stateOf (execTurnRound r fcs frac b t s) s) ↔ Orderly Q M s := by
  dsimp only [execTurnRound]
  (repeat' split) <;> simp

/-! ### Huddles -/

@[simp] theorem orderly_goRefused (status : Nat) (reason : Int) : Orderly Q M (goRefused s status reason).1 ↔ Orderly Q M s :=
  orderly_congr rfl rfl rfl fun _ => rfl

@[simp] theorem orderly_goWrite : Orderly Q M (goWrite s).1 ↔ Orderly Q M s := by
  unfold goWrite
  extract_lets mask tg rings
  have hadm := orderly_admissionCheck (Q := Q) (M := M) (s := s) (cfg := s) fun r => if bit mask r then some (tg.getD r 0) else none
  refine orderly_choice_fst .rfl (orderly_choice_fst (orderly_goRefused ..) (orderly_choice_fst (orderly_goRefused ..) (orderly_choice_fst (orderly_goRefused ..)
    (orderly_choice_fst (orderly_goRefused ..) ?_))))
  split
  next u fits hp =>
  rw [hp] at hadm
  rw [← hadm]
  refine orderly_choice_fst (orderly_goRefused ..) (orderly_choice_fst (orderly_goRefused ..) ?_)
  split
  · exact orderly_goRefused ..
  · refine orderly_choice_fst (by simp only [↓orderly_set]) ?_
    simp only [↓orderly_set]
    exact (orderly_forBelow fun r t => orderly_set ..).trans (orderly_update ..)

@[simp] theorem orderly_execHuddleGo (t : Nat) : Orderly Q M (stateOf (execHuddleGo t s) s) ↔ Orderly Q M s := by simp [execHuddleGo]
@[simp] theorem orderly_execHuddleDecision (t : Nat) : Orderly Q M (stateOf (execHuddleDecision t s) s) ↔ Orderly Q M s := by simp [execHuddleDecision]
@[simp] theorem orderly_execHuddleSwitch (r t : Nat) : Orderly Q M (stateOf (execHuddleSwitch r t s) s) ↔ Orderly Q M s := by simp [execHuddleSwitch]

/-! ### Kickoff -/

@[simp] theorem orderly_kickFail (r : Nat) (reason : Int) : Orderly Q M (kickFail s r reason) ↔ Orderly Q M s := by simp [kickFail]
@[simp] theorem orderly_readCage (r : Nat) (id : List Byte) : Orderly Q M (readCage s r id) ↔ Orderly Q M s := orderly_congr rfl rfl rfl fun _ => rfl
@[simp] theorem orderly_enterLink (r : Nat) : Orderly Q M (enterLink s r) ↔ Orderly Q M s := by simp [enterLink]

@[simp] theorem orderly_kickoffWrite (r : Nat) : Orderly Q M (kickoffWrite s r).1 ↔ Orderly Q M s := by
  dsimp only [kickoffWrite]
  split <;> simp

@[simp] theorem orderly_execKickoff (r : Nat) (id : List Byte) (t : Nat) : Orderly Q M (stateOf (execKickoff r id t s) s) ↔ Orderly Q M s := by
  simp [execKickoff]

@[simp] theorem orderly_sendKickoff (r : Nat) (svc : List SvcSlot) : Orderly Q M (sendKickoff s r svc) ↔ Orderly Q M s := orderly_congr rfl rfl rfl fun _ => rfl
@[simp] theorem orderly_kickAnnounce (r : Nat) : Orderly Q M (kickAnnounce s r) ↔ Orderly Q M s := orderly_congr rfl rfl rfl fun _ => rfl

@[simp] theorem orderly_judgeHuddleTime (r : Nat) : Orderly Q M (judgeHuddleTime s r) ↔ Orderly Q M s := by
  dsimp only [judgeHuddleTime]
  split <;> simp

@[simp] theorem orderly_kickDecide (r : Nat) : Orderly Q M (kickDecide s r) ↔ Orderly Q M s := by simp [kickDecide]
@[simp] theorem orderly_huddleFrame (r : Nat) : Orderly Q M (huddleFrame s r) ↔ Orderly Q M s := by simp [huddleFrame]

@[simp] theorem orderly_judgeLink (r : Nat) : Orderly Q M (judgeLink s r) ↔ Orderly Q M s := by
  unfold judgeLink
  split <;> simp

@[simp] theorem orderly_judgeAlignment (r : Nat) : Orderly Q M (judgeAlignment s r) ↔ Orderly Q M s := by simp [judgeAlignment]
@[simp] theorem orderly_judgeDownload (r : Nat) : Orderly Q M (judgeDownload s r) ↔ Orderly Q M s := by simp [judgeDownload]
@[simp] theorem orderly_alignFrame (r : Nat) : Orderly Q M (alignFrame s r) ↔ Orderly Q M s := by simp [alignFrame]

@[simp] theorem orderly_kickTick (r : Nat) : Orderly Q M (kickTick s r) ↔ Orderly Q M s := by
  dsimp only [kickTick]
  (repeat' split) <;> simp

@[simp] theorem orderly_execKickoffFrameTick (r t : Nat) : Orderly Q M (stateOf (execKickoffFrameTick r t s) s) ↔ Orderly Q M s := by
  simp [execKickoffFrameTick]

@[simp] theorem orderly_execKickoffLinkTimeout (r t : Nat) : Orderly Q M (stateOf (execKickoffLinkTimeout r t s) s) ↔ Orderly Q M s := by
  simp [execKickoffLinkTimeout]

@[simp] theorem orderly_execAlignTimeout (r t : Nat) : Orderly Q M (stateOf (execAlignTimeout r t s) s) ↔ Orderly Q M s := by simp [execAlignTimeout]
@[simp] theorem orderly_execHuddleTimeout (r t : Nat) : Orderly Q M (stateOf (execHuddleTimeout r t s) s) ↔ Orderly Q M s := by simp [execHuddleTimeout]
@[simp] theorem orderly_linkBack (r : Nat) (l : List SvcSlot) : Orderly Q M (linkBack s r l) ↔ Orderly Q M s := by simp [linkBack]

@[simp] theorem orderly_rollBack (r : Nat) (l : List SvcSlot) : Orderly Q M (rollBack s r l) ↔ Orderly Q M s := by
  unfold rollBack
  extract_lets n got s1 s2 countOk
  have h1 : Orderly Q M s1 ↔ Orderly Q M s := by
    unfold s1
    split <;> simp
  have h2 : Orderly Q M s2 ↔ Orderly Q M s := by simp [s2, h1]
  clear_value s2
  split
  next x s3 ok hp =>
  have h3 : Orderly Q M (s3, ok).1 ↔ Orderly Q M s2 := by
    rw [← hp]
    refine List.foldlRecOn (motive := fun x : State × Bool => Orderly Q M x.1 ↔ Orderly Q M s2) _ _ .rfl fun x hx v _ => ?_
    simp [hx]
  simp [h3, h2]

@[simp] theorem orderly_toHuddle (r : Nat) : Orderly Q M (toHuddle s r) ↔ Orderly Q M s := by simp [toHuddle]

@[simp] theorem orderly_alignBack (r : Nat) (v a : List SvcSlot) : Orderly Q M (alignBack s r v a) ↔ Orderly Q M s := by
  unfold alignBack
  extract_lets q n
  refine orderly_choice ?_ ?_
  · split
    next x s1 ok hp =>
    have h1 : Orderly Q M (s1, ok).1 ↔ Orderly Q M s := by
      rw [← hp]
      refine List.foldlRecOn (motive := fun x : State × Bool => Orderly Q M x.1 ↔ Orderly Q M s) _ _ .rfl fun x hx p _ => ?_
      simp [hx]
    simp [h1]
  · split
    · rfl
    · next c e0 loop0 _ =>
      extract_lets l s1
      have h1 : Orderly Q M s1 ↔ Orderly Q M s := orderly_choice (orderly_forBelow fun i t => orderly_modWk ..) (orderly_foldl fun t p => orderly_alignTake ..)
      simp [h1]

@[simp] theorem orderly_huddleBack (r : Nat) (f : RallyFrame) (b : List Byte) : Orderly Q M (huddleBack s r f b) ↔ Orderly Q M s := by simp [huddleBack]

@[simp] theorem orderly_kickBack (r fcs : Nat) (loop : Int) (b : List Byte) : Orderly Q M (kickBack s r fcs loop b) ↔ Orderly Q M s := by
  dsimp only [kickBack]
  (repeat' split) <;> simp

@[simp] theorem orderly_execKickoffFrameReturned (r fcs : Nat) (loop : Int) (b : List Byte) (t : Nat) :
    Orderly Q M (stateOf (execKickoffFrameReturned r fcs loop b t s) s) ↔ Orderly Q M s := by
  simp [execKickoffFrameReturned]

@[simp] theorem orderly_yieldRing (r : Nat) : Orderly Q M (yieldRing s r) ↔ Orderly Q M s := orderly_congr rfl rfl rfl fun _ => rfl
@[simp] theorem orderly_yieldAll : Orderly Q M (yieldAll s) ↔ Orderly Q M s := by simp [yieldAll]

@[simp] theorem orderly_execKickoffCollision (r sender prio serial t : Nat) :
    Orderly Q M (stateOf (execKickoffCollision r sender prio serial t s) s) ↔ Orderly Q M s := by
  simp [execKickoffCollision]

@[simp] theorem orderly_execKickoffLet (r t : Nat) : Orderly Q M (stateOf (execKickoffLet r t s) s) ↔ Orderly Q M s := by
  dsimp only [execKickoffLet]
  split <;> simp

@[simp] theorem orderly_ringStopWrite (r : Nat) : Orderly Q M (ringStopWrite s r).1 ↔ Orderly Q M s := by simp [ringStopWrite]
@[simp] theorem orderly_execRingStop (r t : Nat) : Orderly Q M (stateOf (execRingStop r t s) s) ↔ Orderly Q M s := by simp [execRingStop]
@[simp] theorem orderly_startRejoin (r j : Nat) : Orderly Q M (startRejoin s r j) ↔ Orderly Q M s := by simp [startRejoin]

@[simp] theorem orderly_rejoinWrite (r : Nat) : Orderly Q M (rejoinWrite s r).1 ↔ Orderly Q M s := by
  dsimp only [rejoinWrite]
  (repeat' split) <;> simp

@[simp] theorem orderly_execRejoin (r t : Nat) : Orderly Q M (stateOf (execRejoin r t s) s) ↔ Orderly Q M s := by simp [execRejoin]

end Sys2Proof.Machine
end

