-- ==== Sys2Proof/Proofs/OrderlyPairs.lean ====
section
/-! What keeps the queue and the byte memories in order: boot, stored images and pairs. -/

namespace Sys2Proof.Machine

variable {Q : List Instr} {M : Prop} {s t u : State}

/-! ### Boot and images -/

@[simp] theorem orderly_modBoot (f : BootRt → BootRt) : Orderly Q M (s.modBoot f) ↔ Orderly Q M s := orderly_congr rfl rfl rfl fun _ => rfl
@[simp] theorem orderly_publishImages : Orderly Q M (publishImages s) ↔ Orderly Q M s := by simp [publishImages]

@[simp] theorem orderly_resetTo (cause : Nat) (h : Orderly Q M s) : Orderly Q M (resetTo s cause) := by
  unfold resetTo
  extract_lets erased r e
  have he : Orderly Q M e := ⟨h.1, fun _ => reset_memoriesCanonical⟩
  clear_value e
  simpa

@[simp] theorem orderly_holdReset (k : Nat) : Orderly Q M (holdReset s k) ↔ Orderly Q M s := orderly_congr rfl rfl rfl fun _ => rfl
@[simp] theorem orderly_releaseReset : Orderly Q M (releaseReset s) ↔ Orderly Q M s := orderly_congr rfl rfl rfl fun _ => rfl
@[simp] theorem orderly_loseAlwaysOn : Orderly Q M (loseAlwaysOn s) ↔ Orderly Q M s := orderly_congr rfl rfl rfl fun _ => rfl

@[simp] theorem orderly_execPowerOn (vaonFell core : Bool) (t : Nat) (h : Orderly Q M s) : Orderly Q M (stateOf (execPowerOn vaonFell core t s) s) := by
  simp [h, execPowerOn]

@[simp] theorem orderly_execSupervisorRelease (t : Nat) : Orderly Q M (stateOf (execSupervisorRelease t s) s) ↔ Orderly Q M s := by simp [execSupervisorRelease]
@[simp] theorem orderly_execResetN (low t : Nat) (h : Orderly Q M s) : Orderly Q M (stateOf (execResetN low t s) s) := by simp [h, execResetN]

@[simp] theorem orderly_execRailFault (rail ns : Nat) (vaonFell : Bool) (t : Nat) (h : Orderly Q M s) :
    Orderly Q M (stateOf (execRailFault rail ns vaonFell t s) s) := by
  simp [h, execRailFault]

@[simp] theorem orderly_execVaonLoss (t : Nat) (h : Orderly Q M s) : Orderly Q M (stateOf (execVaonLoss t s) s) := by simp [h, execVaonLoss]
@[simp] theorem orderly_faultRecord (k v : Nat) : Orderly Q M (faultRecord s k v) ↔ Orderly Q M s := orderly_congr rfl rfl rfl fun _ => rfl

@[simp] theorem orderly_execWatchdog (p : Nat) (fed : Bool) (t : Nat) (h : Orderly Q M s) : Orderly Q M (stateOf (execWatchdog p fed t s) s) := by
  simp [h, execWatchdog]

@[simp] theorem orderly_resetUnitWrite : Orderly Q M (resetUnitWrite s).1 ↔ Orderly Q M s := by
  dsimp only [resetUnitWrite]
  split <;> simp

@[simp] theorem orderly_execExtest (t : Nat) (h : Orderly Q M s) : Orderly Q M (stateOf (execExtest t s) s) := by simp [h, execExtest]
@[simp] theorem orderly_execPcieHotReset (t : Nat) : Orderly Q M (stateOf (execPcieHotReset t s) s) ↔ Orderly Q M s := by simp [execPcieHotReset]

@[simp] theorem orderly_execBootImageLoaded (prog : List (Nat × List Byte)) (keys : List BootKey) (t : Nat) :
    Orderly Q M (stateOf (execBootImageLoaded prog keys t s) s) ↔ Orderly Q M s := by
  dsimp only [execBootImageLoaded]
  (repeat' split) <;> simp [↓orderly_update]

@[simp] theorem orderly_fwUploadWrite (sess off total : Nat) (v : List Byte) : Orderly Q M (fwUploadWrite s sess off total v).1 ↔ Orderly Q M s := by
  dsimp only [fwUploadWrite]
  (repeat' split) <;> simp [↓orderly_update]

@[simp] theorem orderly_applyRecords (l : List Staged) (h : Orderly Q M s) : Orderly Q M (applyRecords s l).1 := by
  unfold applyRecords
  extract_lets new
  split
  · exact h
  · have ha := (orderly_admissionCheck (Q := Q) (M := M) (s := s) (cfg := new) fun _ => none).2 h
    split
    next hp =>
    rw [hp] at ha
    simp [ha]

@[simp] theorem orderly_tryImage (b : Nat) (h : Orderly Q M s) : Orderly Q M (tryImage s b).1 := by
  unfold tryImage
  extract_lets i
  split
  next l unknown wrong _ =>
  have ha : Orderly Q M (applyRecords ((s.count Ob.Rst.UNKNOWN_RECORDS 0 0 0 unknown).count Ob.Rst.RANGE_RECORDS 0 0 0 wrong) l).1 :=
    orderly_applyRecords l (by simpa)
  dsimp only
  split <;> (next hp => rw [hp] at ha; simpa using ha)

@[simp] theorem orderly_applyStored (h : Orderly Q M s) : Orderly Q M (applyStored s) := by
  unfold applyStored
  extract_lets s1
  have h1 : Orderly Q M s1 := by
    unfold s1
    split
    · simp [h]
    · next b _ =>
      have ht := orderly_tryImage b h
      split
      · next hp =>
        rw [hp] at ht
        simpa using ht
      · next s2 hp =>
        rw [hp] at ht
        have ht2 : Orderly Q M (if storedValid s2 (bankImage s2 (1 - b)) then tryImage s2 (1 - b) else (s2, false)).1 := by
          split
          · exact orderly_tryImage _ ht
          · exact ht
        split
        next s3 ok hp3 =>
        rw [hp3] at ht2
        split
        · simpa using ht2
        · simp [show Orderly Q M s3 from ht2]
  exact orderly_either ((orderly_warn ..).2 h1) h1

@[simp] theorem orderly_kickAll (ids : List (List Byte)) : Orderly Q M (kickAll s ids) ↔ Orderly Q M s := by
  unfold kickAll
  extract_lets s1
  have h1 : Orderly Q M s1 ↔ Orderly Q M s := by
    refine orderly_forBelow fun r t => ?_
    split <;> simp
  simp [h1]

@[simp] theorem orderly_toStepTwo : Orderly Q M (toStepTwo s) ↔ Orderly Q M s := by simp [toStepTwo, ↓orderly_update]

@[simp] theorem orderly_decideRole (ids : List (List Byte)) : Orderly Q M (decideRole s ids) ↔ Orderly Q M s := by
  unfold decideRole
  split <;> simp

@[simp] theorem orderly_execConfigurationStep (ids : List (List Byte)) (t : Nat) (h : Orderly Q M s) :
    Orderly Q M (stateOf (execConfigurationStep ids t s) s) := by
  unfold execConfigurationStep
  extract_lets s1
  have h1 : Orderly Q M s1 := (orderly_at _).2 h
  clear_value s1
  rw [orderly_stateOf_next]
  split
  · exact h1
  next s2 d b b2 s3 s4 s5 _ =>
  have h2 : Orderly Q M s2 := (orderly_set ..).2 (orderly_applyStored h1)
  clear_value s2
  have h5 : Orderly Q M s5 := by simpa [s5, s4, s3, ↓orderly_update] using h2
  clear_value s5
  simp [h5]

@[simp] theorem orderly_execPowerStateChange (t : Nat) : Orderly Q M (stateOf (execPowerStateChange t s) s) ↔ Orderly Q M s := by simp [execPowerStateChange]

@[simp] theorem orderly_powerRequestWrite : Orderly Q M (powerRequestWrite s).1 ↔ Orderly Q M s := by
  dsimp only [powerRequestWrite]
  split <;> simp

@[simp] theorem orderly_toStandby : Orderly Q M (toStandby s) ↔ Orderly Q M s := by simp [toStandby]
@[simp] theorem orderly_actAfterReply (h : Orderly Q M s) : Orderly Q M (actAfterReply s) := by simp [h, actAfterReply]

@[simp] theorem orderly_answerThen {r : Act} {d : State} (h : Orderly Q M r.1) : Orderly Q M (stateOf (answerThen r) d) :=
  orderly_actAfterReply ((orderly_emit _).2 h)

@[simp] theorem orderly_execResetUnit (t : Nat) (h : Orderly Q M s) : Orderly Q M (stateOf (execResetUnit t s) s) := by
  simp [execResetUnit, h]

@[simp] theorem orderly_execPowerRequest (t : Nat) (h : Orderly Q M s) : Orderly Q M (stateOf (execPowerRequest t s) s) := by
  simp [execPowerRequest, h]

@[simp] theorem orderly_wakeUnit (src : Nat) (h : Orderly Q M s) : Orderly Q M (wakeUnit s src) := by simp [h, wakeUnit]
@[simp] theorem orderly_execWakeN (low t : Nat) (h : Orderly Q M s) : Orderly Q M (stateOf (execWakeN low t s) s) := by simp [h, execWakeN]
@[simp] theorem orderly_execWakeAt (t : Nat) (h : Orderly Q M s) : Orderly Q M (stateOf (execWakeAt t s) s) := by simp [h, execWakeAt]
@[simp] theorem orderly_execAcePowerGate (e t : Nat) : Orderly Q M (stateOf (execAcePowerGate e t s) s) ↔ Orderly Q M s := by simp [execAcePowerGate]
@[simp] theorem orderly_execAceWake (e t : Nat) : Orderly Q M (stateOf (execAceWake e t s) s) ↔ Orderly Q M s := by simp [execAceWake]

@[simp] theorem orderly_judgeThermal : Orderly Q M (judgeThermal s) ↔ Orderly Q M s := by
  unfold judgeThermal
  split <;> simp

@[simp] theorem orderly_execThermalSample (temps : List Int) (t : Nat) (h : Orderly Q M s) : Orderly Q M (stateOf (execThermalSample temps t s) s) := by
  unfold execThermalSample
  split <;> simp [h]

@[simp] theorem orderly_execThermalLimit (t : Nat) : Orderly Q M (stateOf (execThermalLimit t s) s) ↔ Orderly Q M s := by simp [execThermalLimit]
@[simp] theorem orderly_clearPeakWrite : Orderly Q M (clearPeakWrite s).1 ↔ Orderly Q M s := orderly_congr rfl rfl rfl fun _ => rfl
@[simp] theorem orderly_execClearTjPeak (t : Nat) : Orderly Q M (stateOf (execClearTjPeak t s) s) ↔ Orderly Q M s := by simp [execClearTjPeak]

/-! ### Pairs -/

@[simp] theorem orderly_pairingFails : Orderly Q M (pairingFails s) ↔ Orderly Q M s := orderly_congr rfl rfl rfl fun _ => rfl
@[simp] theorem orderly_startPairing : Orderly Q M (startPairing s) ↔ Orderly Q M s := by simp [startPairing]

@[simp] theorem orderly_helloDone : Orderly Q M (helloDone s) ↔ Orderly Q M s := by
  unfold helloDone
  split <;> simp

@[simp] theorem orderly_execHello (serial prio end_ : Nat) (tested restarted : Bool) (ids : List (List Byte)) (t : Nat) :
    Orderly Q M (stateOf (execHello serial prio end_ tested restarted ids t s) s) ↔ Orderly Q M s := by
  simp [execHello, ↓orderly_update]

@[simp] theorem orderly_execPairWait (ids : List (List Byte)) (t : Nat) : Orderly Q M (stateOf (execPairWait ids t s) s) ↔ Orderly Q M s := by
  simp [execPairWait]

@[simp] theorem orderly_pairWrite : Orderly Q M (pairWrite s).1 ↔ Orderly Q M s := by
  dsimp only [pairWrite]
  (repeat' split) <;> simp

@[simp] theorem orderly_execPairStart (t : Nat) : Orderly Q M (stateOf (execPairStart t s) s) ↔ Orderly Q M s := by simp [execPairStart]

@[simp] theorem orderly_mirrorStep (recs : List Byte) (crc safety : Nat) (h : Orderly Q M s) : Orderly Q M (mirrorStep s recs crc safety).1 := by
  unfold mirrorStep
  extract_lets l
  have ha := orderly_applyRecords l h
  split <;> (next hp => rw [hp] at ha; simpa using ha)

@[simp] theorem orderly_ringStep : Orderly Q M (ringStep s) ↔ Orderly Q M s := by simp [ringStep]
@[simp] theorem orderly_fillMirror : Orderly Q M (fillMirror s) ↔ Orderly Q M s := by simp [fillMirror]

@[simp] theorem orderly_execPairingStepComplete (ok : Bool) (recs : List Byte) (crc safety t : Nat) (h : Orderly Q M s) :
    Orderly Q M (stateOf (execPairingStepComplete ok recs crc safety t s) s) := by
  unfold execPairingStepComplete
  extract_lets s1 next early
  have h1 : Orderly Q M s1 := (orderly_at _).2 h
  have hnext (u : State) (hu : Orderly Q M u) : Orderly Q M (next u) := (orderly_modPair _).2 hu
  clear_value s1
  rw [orderly_stateOf_whileOn]
  split
  · rw [orderly_stateOf_next]
    refine orderly_either h1 (orderly_either (by simpa) ?_)
    split
    · simpa
    · refine orderly_either ?_ (hnext s1 h1)
      have hstep := orderly_mirrorStep recs crc safety h1
      split
      next s2 pass hp =>
      rw [hp] at hstep
      exact orderly_either (hnext s2 hstep) ((orderly_pairingFails).2 hstep)
    · exact orderly_either (by simpa) (hnext s1 h1)
    · simp [hnext, h1]
    · exact orderly_either h1 (hnext s1 h1)
    · simpa
  · simpa

@[simp] theorem orderly_execDigest (b : List Byte) (t : Nat) : Orderly Q M (stateOf (execDigest b t s) s) ↔ Orderly Q M s := by simp [execDigest]

@[simp] theorem orderly_execStateRecord (a k : Nat) (x : AxisRt) (t : Nat) : Orderly Q M (stateOf (execStateRecord a k x t s) s) ↔ Orderly Q M s := by
  simp [execStateRecord]

@[simp] theorem orderly_execInputsRecord (fi valid brakes : Nat) (counts : List Nat) (speeds : List Int) (lats : List (Nat × Nat × Int × Nat)) (t : Nat) :
    Orderly Q M (stateOf (execInputsRecord fi valid brakes counts speeds lats t s) s) ↔ Orderly Q M s := by
  simp [execInputsRecord]

@[simp] theorem orderly_installObjects (l : SMap Val) (f : Nat → Bool) : Orderly Q M (installObjects s l f) ↔ Orderly Q M s := by simp [installObjects]
@[simp] theorem orderly_countSessions : Orderly Q M (countSessions s) ↔ Orderly Q M s := by simp [countSessions]

@[simp] theorem orderly_installSession (k : Nat) (x : SessRt) (objs : SMap Val) : Orderly Q M (installSession s k x objs) ↔ Orderly Q M s := by
  simp [installSession]

@[simp] theorem orderly_installPossession (away : Bool) (cause looseAt : Nat) (first : Option Nat) (objs : SMap Val) :
    Orderly Q M (installPossession s away cause looseAt first objs) ↔ Orderly Q M s := by
  simp [installPossession, ↓orderly_update]

@[simp] theorem orderly_execMirrorRecord (n : Nat) (m : Mirror) (t : Nat) : Orderly Q M (stateOf (execMirrorRecord n m t s) s) ↔ Orderly Q M s := by
  unfold execMirrorRecord
  split <;> simp [↓orderly_update]

@[simp] theorem orderly_sendLone (l : List (Nat × Nat)) : Orderly Q M (sendLone s l) ↔ Orderly Q M s := by simp [sendLone]

@[simp] theorem orderly_execMirrorAck (n t : Nat) (h : Orderly Q M s) : Orderly Q M (stateOf (execMirrorAck n t s) s) := by
  unfold execMirrorAck
  extract_lets s1 due s2 lone s3 s4
  have h4 : Orderly Q M s4 := by simpa [s4, s3, s2, s1]
  clear_value s4
  simp [h, h4]

@[simp] theorem orderly_execEmitRecord (r cycle len t : Nat) : Orderly Q M (stateOf (execEmitRecord r cycle len t s) s) ↔ Orderly Q M s := by
  simp [execEmitRecord]

@[simp] theorem orderly_execRegionsRecord (r p n : Nat) (data : List Byte) (t : Nat) :
    Orderly Q M (stateOf (execRegionsRecord r p n data t s) s) ↔ Orderly Q M s := by
  simp [execRegionsRecord]

@[simp] theorem orderly_closeOwn : Orderly Q M (closeOwn s) ↔ Orderly Q M s := by simp [closeOwn]
@[simp] theorem orderly_dropMirrored : Orderly Q M (dropMirrored s) ↔ Orderly Q M s := by simp [dropMirrored]

@[simp] theorem orderly_leaveActive (role : Int) : Orderly Q M (leaveActive s role) ↔ Orderly Q M s := by
  unfold leaveActive
  extract_lets s1 s2 s3 s4 time s5
  have h1 : Orderly Q M s1 ↔ Orderly Q M s := by simp [s1]
  have h2 : Orderly Q M s2 ↔ Orderly Q M s1 := by
    refine orderly_forBelow fun r t => orderly_choice .rfl ?_
    extract_lets t1 t2 t3
    have h3 : Orderly Q M t3 ↔ Orderly Q M t := by
      refine (orderly_forBelow fun e w => ?_).trans (by simp [t2, t1])
      split <;> simp
    simp [h3]
  clear_value s2
  have h5 : Orderly Q M s5 ↔ Orderly Q M s2 := by simp [s5, s4, s3, ↓orderly_update]
  clear_value s5
  simp [h5, h2, h1]

@[simp] theorem orderly_execYieldIn (t : Nat) : Orderly Q M (stateOf (execYieldIn t s) s) ↔ Orderly Q M s := by simp [execYieldIn]
@[simp] theorem orderly_execYieldRelease (t : Nat) : Orderly Q M (stateOf (execYieldRelease t s) s) ↔ Orderly Q M s := by simp [execYieldRelease]

@[simp] theorem orderly_execBenchLockLoss (since t : Nat) (h : Orderly Q M s) : Orderly Q M (stateOf (execBenchLockLoss since t s) s) := by
  simp [h, execBenchLockLoss, ↓orderly_update]

@[simp] theorem orderly_settleCommit : Orderly Q M (settleCommit s) ↔ Orderly Q M s := by
  unfold settleCommit
  split <;> simp

@[simp] theorem orderly_takeBrakes : Orderly Q M (takeBrakes s) ↔ Orderly Q M s := by simp [takeBrakes]
@[simp] theorem orderly_openRequests (k : Nat) : Orderly Q M (openRequests s k) ↔ Orderly Q M s := orderly_congr rfl rfl rfl fun _ => rfl
@[simp] theorem orderly_takeSessions : Orderly Q M (takeSessions s) ↔ Orderly Q M s := by simp [takeSessions, ↓orderly_update]
@[simp] theorem orderly_adoptTable (r : Nat) : Orderly Q M (adoptTable s r) ↔ Orderly Q M s := by simp [adoptTable]
@[simp] theorem orderly_takeOver (trigger : Nat) : Orderly Q M (takeOver s trigger) ↔ Orderly Q M s := by simp [takeOver]
@[simp] theorem orderly_trigger (k : Nat) : Orderly Q M (trigger s k) ↔ Orderly Q M s := by simp [trigger]
@[simp] theorem orderly_execActiveLost (since t : Nat) : Orderly Q M (stateOf (execActiveLost since t s) s) ↔ Orderly Q M s := by simp [execActiveLost]
@[simp] theorem orderly_execActiveStall (t : Nat) : Orderly Q M (stateOf (execActiveStall t s) s) ↔ Orderly Q M s := by simp [execActiveStall]
@[simp] theorem orderly_execActiveRequest (t : Nat) : Orderly Q M (stateOf (execActiveRequest t s) s) ↔ Orderly Q M s := by simp [execActiveRequest]

@[simp] theorem orderly_execGratuitousArp (t : Nat) : Orderly Q M (stateOf (execGratuitousArp t s) s) ↔ Orderly Q M s := by
  simp [execGratuitousArp, ↓orderly_update]

@[simp] theorem orderly_drillWrite : Orderly Q M (drillWrite s).1 ↔ Orderly Q M s := by
  dsimp only [drillWrite]
  split <;> simp

@[simp] theorem orderly_execDrill (t : Nat) : Orderly Q M (stateOf (execDrill t s) s) ↔ Orderly Q M s := by simp [execDrill]

@[simp] theorem orderly_execDrillSwap (t : Nat) : Orderly Q M (stateOf (execDrillSwap t s) s) ↔ Orderly Q M s := by
  dsimp only [execDrillSwap]
  split <;> simp

@[simp] theorem orderly_execDrillBack (t : Nat) : Orderly Q M (stateOf (execDrillBack t s) s) ↔ Orderly Q M s := by
  dsimp only [execDrillBack]
  split <;> simp

@[simp] theorem orderly_execSplitStart (r t : Nat) : Orderly Q M (stateOf (execSplitStart r t s) s) ↔ Orderly Q M s := by simp [execSplitStart]

@[simp] theorem orderly_healWrite (r : Nat) : Orderly Q M (healWrite s r).1 ↔ Orderly Q M s := by
  dsimp only [healWrite]
  split <;> simp

@[simp] theorem orderly_execHealRing (r t : Nat) : Orderly Q M (stateOf (execHealRing r t s) s) ↔ Orderly Q M s := by simp [execHealRing]

@[simp] theorem orderly_execHealRejoin (r t : Nat) : Orderly Q M (stateOf (execHealRejoin r t s) s) ↔ Orderly Q M s := by
  dsimp only [execHealRejoin]
  split <;> simp

@[simp] theorem orderly_execPairRequest (k v w t : Nat) : Orderly Q M (stateOf (execPairRequest k v w t s) s) ↔ Orderly Q M s := by
  unfold execPairRequest
  split <;> simp

end Sys2Proof.Machine
end

