-- ==== Sys2Proof/Proofs/OrderlyHost.lean ====
section
/-! What keeps the queue and the byte memories in order: writes and messages of the host. -/

namespace Sys2Proof.Machine

variable {Q : List Instr} {M : Prop} {s t u : State}

/-! ### Writes -/

@[simp] theorem orderly_stage (e : Staged) : Orderly Q M (stage s e).1 ↔ Orderly Q M s := by
  unfold stage
  (repeat' split) <;> simp

@[simp] theorem orderly_done : Orderly Q M (done s).1 ↔ Orderly Q M s := orderly_congr rfl rfl rfl fun _ => rfl

/-- A write that is one of those tried in turn. -/
theorem orderly_tried {P c : Prop} [Decidable c] {a : Act} {o : Option Act} (ha : Orderly Q M a.1 ↔ P) (ho : ∀ u, o = some u → (Orderly Q M u.1 ↔ P)) :
    ∀ u, (if c then some a else o) = some u → (Orderly Q M u.1 ↔ P) := by
  split
  · rintro u ⟨⟩
    exact ha
  · exact ho

theorem orderly_writeCycle (o : Obj) (i : Nat) (n : Int) : ∀ u, writeCycle s o i n = some u → (Orderly Q M u.1 ↔ Orderly Q M s) := by
  dsimp only [writeCycle]
  iterate 9 refine orderly_tried (by simp) ?_
  exact fun u h => absurd h (Option.some_ne_none u).symm

theorem orderly_writeConfig (sess : Nat) (o : Obj) (n : Int) : ∀ u, writeConfig s sess o n = some u → (Orderly Q M u.1 ↔ Orderly Q M s) := by
  dsimp only [writeConfig]
  iterate 6 refine orderly_tried (by simp) ?_
  exact fun u h => absurd h (Option.some_ne_none u).symm

theorem orderly_writeMotion (sess : Nat) (o : Obj) (i : Nat) (n : Int) : ∀ u, writeMotion s sess o i n = some u → (Orderly Q M u.1 ↔ Orderly Q M s) := by
  dsimp only [writeMotion]
  iterate 11 refine orderly_tried (by simp) ?_
  exact fun u h => absurd h (Option.some_ne_none u).symm

theorem orderly_writePorts (o : Obj) (i : Nat) : ∀ u, writePorts s o i = some u → (Orderly Q M u.1 ↔ Orderly Q M s) := by
  dsimp only [writePorts]
  iterate 4 refine orderly_tried (by simp) ?_
  exact fun u h => absurd h (Option.some_ne_none u).symm

theorem orderly_writeSafety (o : Obj) (i k : Nat) (n : Int) : ∀ u, writeSafety s o i k n = some u → (Orderly Q M u.1 ↔ Orderly Q M s) := by
  dsimp only [writeSafety]
  iterate 8 refine orderly_tried (by simp) ?_
  exact fun u h => absurd h (Option.some_ne_none u).symm

theorem orderly_writeUnit (o : Obj) (i k : Nat) (n : Int) : ∀ u, writeUnit s o i k n = some u → (Orderly Q M u.1 ↔ Orderly Q M s) := by
  dsimp only [writeUnit]
  iterate 11 refine orderly_tried (by simp) ?_
  exact fun u h => absurd h (Option.some_ne_none u).symm

theorem orderly_writeKept (sess : Nat) (o : Obj) (i k : Nat) (v : Val) : ∀ u, writeKept s sess o i k v = some u → (Orderly Q M u.1 ↔ Orderly Q M s) := by
  dsimp only [writeKept]
  iterate 8 refine orderly_tried (by simp) ?_
  exact fun u h => absurd h (Option.some_ne_none u).symm

/-- What a choice of writes does, or nothing where none applies. -/
theorem orderly_getD {o : Option Act} (ho : ∀ r, o = some r → (Orderly Q M r.1 ↔ Orderly Q M s)) (n : Nat) : Orderly Q M (o.getD (s, n)).1 ↔ Orderly Q M s := by
  cases o with
  | none => rfl
  | some r => exact ho r rfl

theorem orderly_orElse {P : Prop} {o p : Option Act} (ho : ∀ r, o = some r → (Orderly Q M r.1 ↔ P)) (hp : ∀ r, p = some r → (Orderly Q M r.1 ↔ P)) :
    ∀ r, (o <|> p) = some r → (Orderly Q M r.1 ↔ P) := by
  cases o with
  | none => exact hp
  | some r => exact ho

@[simp] theorem orderly_writeNow (sess : Nat) (o : Obj) (key i k : Nat) (v : Val) : Orderly Q M (writeNow s sess o key i k v).1 ↔ Orderly Q M s := by
  unfold writeNow
  extract_lets n
  split
  · next r hr => exact orderly_writeKept _ _ _ _ _ r hr
  · rw [orderly_keepValue]
    refine orderly_getD (orderly_orElse (orderly_writeCycle _ _ _) (orderly_orElse (orderly_writeConfig _ _ _)
      (orderly_orElse (orderly_writeMotion _ _ _ _) (orderly_orElse ?_ (orderly_orElse (orderly_writePorts _ _)
        (orderly_orElse (orderly_writeSafety _ _ _ _) (orderly_writeUnit _ _ _ _))))))) _
    intro r hr
    split at hr <;> cases hr
    simp

@[simp] theorem orderly_logSafety (sess : Nat) (e : WriteEntry) (r : Act) :
    Orderly Q M (logSafety s sess e r).1 ↔ if r.2 = stOk then Orderly Q M r.1 else Orderly Q M s := by
  simp [logSafety]

@[simp] theorem orderly_stageWrite (sess : Nat) (o : Obj) (e : WriteEntry) (x : Staged ⊕ Nat) : Orderly Q M (stageWrite s sess o e x).1 ↔ Orderly Q M s := by
  unfold stageWrite
  (repeat' split) <;> simp

@[simp] theorem orderly_writeEntry (sess : Nat) (e : WriteEntry) : Orderly Q M (writeEntry s sess e).1 ↔ Orderly Q M s := by
  dsimp only [writeEntry]
  (repeat' split) <;> simp

@[simp] theorem orderly_writeAll (sess : Nat) (l : List WriteEntry) : Orderly Q M (writeAll s sess l).1 ↔ Orderly Q M s := by
  induction l generalizing s with
  | nil => rfl
  | cons e l ih => simp [writeAll, ih]

@[simp] theorem orderly_objectOctets (sess : Nat) (o : Obj) (seg : Option (Nat × Nat)) (v : List Byte) :
    Orderly Q M (objectOctets s sess o seg v).1 ↔ Orderly Q M s := by
  dsimp only [objectOctets]
  (repeat' split) <;> simp

@[simp] theorem orderly_objectWrite (sess : Nat) (o : Obj) (n : Int) : Orderly Q M (objectWrite s sess o n).1 ↔ Orderly Q M s := by simp [objectWrite]
@[simp] theorem orderly_execClaimObject (sess v t : Nat) : Orderly Q M (stateOf (execClaimObject sess v t s) s) ↔ Orderly Q M s := by simp [execClaimObject]
@[simp] theorem orderly_execLeaseRenew (sess v t : Nat) : Orderly Q M (stateOf (execLeaseRenew sess v t s) s) ↔ Orderly Q M s := by simp [execLeaseRenew]
@[simp] theorem orderly_execCommitObject (sess t : Nat) : Orderly Q M (stateOf (execCommitObject sess t s) s) ↔ Orderly Q M s := by simp [execCommitObject]
@[simp] theorem orderly_execStopRequest (sess v t : Nat) : Orderly Q M (stateOf (execStopRequest sess v t s) s) ↔ Orderly Q M s := by simp [execStopRequest]

@[simp] theorem orderly_execSafetyLogin (sess : Nat) (pw : List Byte) (t : Nat) : Orderly Q M (stateOf (execSafetyLogin sess pw t s) s) ↔ Orderly Q M s := by
  simp [execSafetyLogin]

@[simp] theorem orderly_execNewPassword (sess : Nat) (pw : List Byte) (t : Nat) : Orderly Q M (stateOf (execNewPassword sess pw t s) s) ↔ Orderly Q M s := by
  simp [execNewPassword]

@[simp] theorem orderly_execFwUpload (sess off total : Nat) (v : List Byte) (t : Nat) :
    Orderly Q M (stateOf (execFwUpload sess off total v t s) s) ↔ Orderly Q M s := by
  simp [execFwUpload]

/-! ### The host -/

@[simp] theorem orderly_replyPlain (op : Nat) (q : Req) (st : Nat) (body : List Byte) : Orderly Q M (replyPlain s op q st body) ↔ Orderly Q M s := by
  simp [replyPlain]

@[simp] theorem orderly_finish (op : Nat) (q : Req) (st : Nat) (body : List Byte) (h : Orderly Q M s) : Orderly Q M (finish s op q st body) := by
  simp [h, finish]

@[simp] theorem orderly_newSession (q : Req) (k lease : Nat) (name : List Byte) : Orderly Q M (newSession s q k lease name) ↔ Orderly Q M s := by
  simp [newSession]

@[simp] theorem orderly_openRequest (q : Req) : Orderly Q M (openRequest s q) ↔ Orderly Q M s := by
  unfold openRequest
  (repeat' split) <;> simp

@[simp] theorem orderly_writeRequest (q : Req) : Orderly Q M (writeRequest s q).1 ↔ Orderly Q M s := by
  unfold writeRequest
  extract_lets c
  refine orderly_choice_fst .rfl (orderly_choice_fst .rfl (orderly_choice_fst .rfl ?_))
  split
  · rfl
  · exact orderly_writeAll ..

@[simp] theorem orderly_claimRequest (q : Req) : Orderly Q M (claimRequest s q).1 ↔ Orderly Q M s := by simp [claimRequest]
@[simp] theorem orderly_passRequest (q : Req) : Orderly Q M (passRequest s q).1 ↔ Orderly Q M s := by simp [passRequest]
@[simp] theorem orderly_releaseRequest (q : Req) : Orderly Q M (releaseRequest s q).1 ↔ Orderly Q M s := by simp [releaseRequest]
@[simp] theorem orderly_subscribeRequest (q : Req) : Orderly Q M (subscribeRequest s q).1 ↔ Orderly Q M s := by
  unfold subscribeRequest
  extract_lets id c period put others least
  have hput (l : List SubRt) : Orderly Q M (put s l) ↔ Orderly Q M s := by simp [put]
  refine orderly_choice_fst .rfl (orderly_choice_fst .rfl (orderly_choice_fst (hput _) ?_))
  split
  · rfl
  · exact orderly_choice_fst .rfl (orderly_choice_fst .rfl (orderly_choice_fst .rfl (hput _)))

@[simp] theorem orderly_serve (op : Nat) (q : Req) : Orderly Q M (serve s op q).1 ↔ Orderly Q M s := by
  unfold serve
  split <;> simp

@[simp] theorem orderly_sequenced (op : Nat) (q : Req) (h : Orderly Q M s) : Orderly Q M (sequenced s op q) := by
  unfold sequenced
  extract_lets s1
  have h1 : Orderly Q M s1 := by simpa [s1]
  clear_value s1
  split
  · split <;> simpa
  · simpa
  next moves _ =>
  extract_lets s2
  have h2 : Orderly Q M s2 := by simpa [s2]
  clear_value s2
  refine orderly_either (orderly_either (orderly_finish _ _ _ _ h2) ((orderly_startCommit ..).2 h2)) ?_
  exact orderly_finish _ _ _ _ ((orderly_serve ..).2 h2)

@[simp] theorem orderly_linliRun (op : Nat) (q : Req) (h : Orderly Q M s) : Orderly Q M (linliRun s op q) := by simp [h, linliRun]
@[simp] theorem orderly_execHostOpen (q : Req) (t : Nat) (h : Orderly Q M s) : Orderly Q M (stateOf (execHostOpen q t s) s) := by simp [h, execHostOpen]
@[simp] theorem orderly_execHostClose (q : Req) (t : Nat) (h : Orderly Q M s) : Orderly Q M (stateOf (execHostClose q t s) s) := by simp [h, execHostClose]
@[simp] theorem orderly_execHostRead (q : Req) (t : Nat) (h : Orderly Q M s) : Orderly Q M (stateOf (execHostRead q t s) s) := by simp [h, execHostRead]
@[simp] theorem orderly_execHostWrite (q : Req) (t : Nat) (h : Orderly Q M s) : Orderly Q M (stateOf (execHostWrite q t s) s) := by simp [h, execHostWrite]
@[simp] theorem orderly_execCommitMsg (q : Req) (t : Nat) (h : Orderly Q M s) : Orderly Q M (stateOf (execCommitMsg q t s) s) := by simp [h, execCommitMsg]
@[simp] theorem orderly_execHostClaim (q : Req) (t : Nat) (h : Orderly Q M s) : Orderly Q M (stateOf (execHostClaim q t s) s) := by simp [h, execHostClaim]
@[simp] theorem orderly_execHostPass (q : Req) (t : Nat) (h : Orderly Q M s) : Orderly Q M (stateOf (execHostPass q t s) s) := by simp [h, execHostPass]

@[simp] theorem orderly_execHostRelease (q : Req) (t : Nat) (h : Orderly Q M s) : Orderly Q M (stateOf (execHostRelease q t s) s) := by
  simp [h, execHostRelease]

@[simp] theorem orderly_execHostSubscribe (q : Req) (t : Nat) (h : Orderly Q M s) : Orderly Q M (stateOf (execHostSubscribe q t s) s) := by
  simp [h, execHostSubscribe]

@[simp] theorem orderly_execUnknownOpcode (op : Nat) (q : Req) (t : Nat) (h : Orderly Q M s) : Orderly Q M (stateOf (execUnknownOpcode op q t s) s) := by
  simp [h, execUnknownOpcode]

@[simp] theorem orderly_receive (p : Path) (b : List Byte) (h : Orderly Q M s) : Orderly Q M (receive s p b) := by
  unfold receive
  split <;> simp [h]

@[simp] theorem orderly_execBadMsg (p : Path) (intact : Bool) (b : List Byte) (t : Nat) (h : Orderly Q M s) :
    Orderly Q M (stateOf (execBadMsg p intact b t s) s) := by
  simp [h, execBadMsg]

@[simp] theorem orderly_execArpRequest (port ip mac src t : Nat) : Orderly Q M (stateOf (execArpRequest port ip mac src t s) s) ↔ Orderly Q M s := by
  simp [execArpRequest]

@[simp] theorem orderly_execIcmpEcho (port ip src : Nat) (data : List Int) (t : Nat) :
    Orderly Q M (stateOf (execIcmpEcho port ip src data t s) s) ↔ Orderly Q M s := by
  simp [execIcmpEcho]

@[simp] theorem orderly_execLeaseExpiry (t : Nat) : Orderly Q M (stateOf (execLeaseExpiry t s) s) ↔ Orderly Q M s := by
  dsimp only [execLeaseExpiry]
  split <;> simp

@[simp] theorem orderly_execElection (t : Nat) : Orderly Q M (stateOf (execElection t s) s) ↔ Orderly Q M s := by
  dsimp only [execElection]
  split <;> simp

@[simp] theorem orderly_chanGo (c len : Nat) (h : Orderly Q M s) : Orderly Q M (chanGo s c len) := by simp [h, chanGo]
@[simp] theorem orderly_execChCtrlGo (c len t : Nat) (h : Orderly Q M s) : Orderly Q M (stateOf (execChCtrlGo c len t s) s) := by simp [h, execChCtrlGo]
@[simp] theorem orderly_chStatusWrite (c w : Nat) : Orderly Q M (chStatusWrite s c w) ↔ Orderly Q M s := by simp [chStatusWrite]
@[simp] theorem orderly_chNotifyWrite (c w : Nat) : Orderly Q M (chNotifyWrite s c w) ↔ Orderly Q M s := by simp [chNotifyWrite]
@[simp] theorem orderly_execReplyReadyClear (c t : Nat) : Orderly Q M (stateOf (execReplyReadyClear c t s) s) ↔ Orderly Q M s := by simp [execReplyReadyClear]

@[simp] theorem orderly_execNotifyReadyClear (c t : Nat) : Orderly Q M (stateOf (execNotifyReadyClear c t s) s) ↔ Orderly Q M s := by
  simp [execNotifyReadyClear]

@[simp] theorem orderly_barWrite (off : Nat) (w : Word) (h : Orderly Q M s) : Orderly Q M (barWrite s off w) := by simp [h, barWrite]

@[simp] theorem orderly_execRegisterWrite (x off : Nat) (w : Word) (t : Nat) (h : Orderly Q M s) : Orderly Q M (stateOf (execRegisterWrite x off w t s) s) := by
  simp [h, execRegisterWrite]

end Sys2Proof.Machine
end

