-- ==== Sys2Proof/Proofs/CanonicalMemories.lean ====
section
/-! Every step keeps the byte memories in canonical form (R258, R266). -/

namespace Sys2Proof.Machine

variable {Q : List Instr} {M : Prop} {s t u : State}

/-- The queue and, where asked for, the memories stay in order under every command. -/
theorem orderly_exec (i : Instr) (h : Orderly Q M s) : Orderly Q M (stateOf (exec i s) s) := by
  unfold exec
  cases i <;> simp [h]

theorem orderly_tick : Orderly Q M (tick s) ↔ Orderly Q M s := by simp [tick, ↓orderly_update]

/-- A tick of the clock leaves the memories as they are, and every command writes them octet by octet. -/
theorem memoriesCanonical_step (h : MemoriesCanonical s) (hstep : step s = .next t) : MemoriesCanonical t := by
  unfold step at hstep
  split at hstep
  · cases hstep
    exact (orderly_tick.2 (⟨rfl, fun _ => h⟩ : Orderly s.pending True s)).2 trivial
  · next c rest _ =>
    have hexec := orderly_exec c (⟨rfl, fun _ => h⟩ : Orderly rest True { s with pending := rest })
    rw [hstep] at hexec
    exact hexec.2 trivial

end Sys2Proof.Machine

open Sys2Proof Sys2Proof.Machine

/-- Settles O4, by the lemma of each command: no function writes a memory but octet by octet, which keeps the canonical form. -/
theorem everyStepKeepsTheMemoriesCanonical : Obligations.EveryStepKeepsTheMemoriesCanonical := fun _ _ => memoriesCanonical_step
end
